-- ==== Sys2Proof/Word.lean ====
section
/-! DEFINITION. The machine's word types (spec/03 R50, R53, R61). -/

namespace Sys2Proof

/-- 64 bits: a scalar register, one lane of a vector register, a pointer, a special register. -/
abbrev Word := BitVec 64

/-- One byte of memory. -/
abbrev Byte := BitVec 8

/-- One bit per lane: EXEC, the live mask, a predicate, a token mask (R35, R36, R50). -/
abbrev Mask := BitVec 32

/-- One word of instruction (R61). -/
abbrev IWord := BitVec 32

end Sys2Proof
end

