-- ==== Sys2Proof/Syntax.lean ====
section
/-! DEFINITION. The instruction set as a syntax: the fields of an instruction word (spec/03 R61 to R75), and one
constructor of `Instr` for every row of spec/opcode_table.json. Program instructions carry the decoded fields of
their word; device events carry what the outside supplies with the event. -/

namespace Sys2Proof

/-- SCOPE, bits 4:3 of word 0 (R26). -/
inductive Scope where
  | lane | warp | set | block
  deriving DecidableEq, Repr

/-- Operand kinds, Table 3.3 (R70): vector, scalar, block-shared, opcode-defined. -/
inductive Kind where
  | v | s | q | x
  deriving DecidableEq, Repr

/-- TYPE codes, Table 3.5 (R74); code 0xF is reserved. -/
inductive EType where
  | i64 | i32 | n32 | i16x4 | i8x8 | n8x8 | f32 | f32x2 | f16 | f16x4 | bf16 | bf16x4 | b8a | b8b | n64
  deriving DecidableEq, Repr

/-- RND codes, Table 3.6 (R75); code 0b111 is reserved. -/
inductive Rnd where
  | rne | rtz | rdn | rup | rna | rod | dyn
  deriving DecidableEq, Repr

/-- The four instruction forms, LEN in bits 1:0 of word 0 (R61). -/
inductive Form where
  | base | baseLit | ext | extLit
  deriving DecidableEq, Repr

/-- The fields of an instruction, as R64 and R69 name them. A base form carries the defaults of R68 in the fields
it lacks; its IMM8 stands sign-extended in `imm`, its 32-bit literal zero-extended in `lit`. -/
structure Args where
  form  : Form      := .base
  scope : Scope     := .lane
  fin   : Bool      := false     -- END, bit 2 of word 0
  kd    : Kind      := .v
  ka    : Kind      := .v
  kb    : Kind      := .v
  kc    : Kind      := .v
  d     : BitVec 8  := 0
  a     : BitVec 8  := 0
  b     : BitVec 8  := 0
  c     : BitVec 8  := 0
  imm   : BitVec 12 := 0
  off   : BitVec 17 := 0
  lit   : Word      := 0
  sub   : BitVec 4  := 0
  func  : BitVec 8  := 0
  cp    : BitVec 2  := 0
  ec    : BitVec 2  := 0
  pn    : Bool      := false
  p     : BitVec 3  := 0
  xp    : Bool      := false
  abs   : Bool      := false
  nb    : Bool      := false
  na    : Bool      := false
  sat   : Bool      := false
  rnd   : Rnd       := .rne
  ty    : EType     := .i64
  deriving DecidableEq, Repr

/-- What the checksum comparisons of one row group of an array operation find (R355 to R357): the sums (band × 2 + granule)
that differ in each of its passes, and the columns that differ from a spare column loaded with their weights. -/
structure GroupCheck where
  pass1 : List Nat := []
  pass2 : List Nat := []
  pass3 : List Nat := []
  cols  : List Nat := []
  deriving DecidableEq, Repr

/-- The temperature classes of the wear weights (R312). -/
inductive TempClass where
  | below70 | upTo85 | above85
  deriving DecidableEq, Repr

/-- A warp of another device, by the number of its context there and its own (Table 12.1). -/
structure RemoteWarp where
  ctx  : Nat
  warp : Nat
  deriving DecidableEq, Repr

/-- A flit that a Girt port sends (R381). -/
structure FlitAt where
  port : Nat
  flit : Nat
  deriving DecidableEq, Repr

/-- What a warp of another device does that concerns this one (R156, R285): a read, with an acquire at sys of a `CREAD` or
`CWAIT`, a write, a counter increment, with its release at sys, an `ATOM` or a `RED` with its FPMODE and operands, a release or
an acquire at sys of its own (a `PHASE`), and an acquire at sys on another device that follows a release. -/
inductive RemoteOp where
  | read (len : Nat) (acq : Bool)
  | write (data : List Byte)
  | signal (inc : Word) (rel : Bool)
  | atom (a : Args) (fpmode b c : Word)
  | phase (rel acq : Bool)
  | follow (rel : Nat)
  deriving DecidableEq, Repr

/-- The transports of the attestation and monitoring requests (R319, R320). -/
inductive Transport where
  | sill | girt
  deriving DecidableEq, Repr

/-- Who sends a management command (R325): an endpoint of the Sill bus, or a fabric address. -/
inductive Requester where
  | sill | girt (addr : Nat)
  deriving DecidableEq, Repr

/-- A context record (R322) with the tables it points to read in: the vault grant table as (vault, LO, HI) in units
of 64 KiB (R323), and the peer devices (R156). -/
structure CtxRec where
  ctx      : Nat := 0
  priv     : Bool := false
  launch   : Bool := false
  l1sz     : BitVec 2 := 1
  jigGrant : BitVec 16 := 0
  nent     : Nat := 1
  cores    : List Nat := []
  droot    : Nat := 0
  hroot    : Nat := 0
  vgrant   : List (Nat × Nat × Nat) := []
  vgrantAt : Word := 0               -- the pointer VGRANT
  ebudget  : Word := 0
  dumpBase : Word := 0
  submit   : Word := 0
  peers    : List Nat := []
  peersAt  : Word := 0               -- the pointer PEERS
  deriving DecidableEq, Repr, Inhabited

/-- What the firmware configures at boot and measures into MR_2 and MR_3 (R315, R318, R372, R382): which segments are
row-mapped, the fabric addresses of R325, the diagnostic frame of each stack, the compressor threshold and the
digests of the ROM, the configuration and the dispatcher. `bound` gives for device × 65536 + context of another device
the context whose tables serve its accesses (R156). `own` is the record of context 0, and `init` the memory that
the firmware writes before anything runs: its tables, programs and dispatcher (DESIGN CHOICE, notes/assumptions/1). `recAt` is
the DPA of its context records, 256 B for each context number (R322) (DESIGN CHOICE, notes/assumptions/45). -/
structure FwConfig where
  rmSegs    : List Nat := []
  mgmt      : List Nat := []
  frames    : List Nat := []
  thr       : Nat := 12
  mr2       : BitVec 256 := 0
  mr3       : BitVec 256 := 0
  deviceNum : Nat := 0
  bound     : List (Nat × Nat) := []
  own       : CtxRec := {}
  init      : List (Nat × List Byte) := []
  recAt     : Nat := 2 ^ 38
  deriving DecidableEq, Repr

/-- The program instructions, one name per row of the opcode table that an instruction word selects. -/
inductive Op where
  | nop | bra | brcFlag | brcReg | call | ret | jmpi | ifc | elsec | endif | loopc | brk | cont | endloop
  | exit | yield | trap | add | sub | mul | mulh | mad | andc | orc | xorc | andn | shl | shr | sar | rot
  | min | max | absd | cmp | sel | mov | movi | lea | addi | bfx | bfi | clz | popc | brev | div | rem | mulw
  | idot | fadd | fsub | fmul | ffma | fmin | fmax | fcmp | fclass | cvt | sfn | fdot | fscale | frnd | pack
  | unpk | lshuf | lrot | lbc | lred | lscan | ballot | vote | subsw | plog | pmov | pcnt | ld | st | pref
  | cpy | cpyg | cpys | cpyr | cseal | pushm | popm | atom | red | csig | cwait | cread | phase | barArv
  | barWt | barMeet | barMemb | barQry | eqResv | eqPub | eqTake | eqFree | eqStat | wait | tshp | wld | mma
  | tst | tld | tzero | xfftFwd | xfftInv | smma | tagSet | tagAdj | tagQry | nbDot | nbAxpy | nbScale
  | nbSum | nbFill | nbCmpz | jigDef | jigArm | jigDisarm | jigPos | jigQry | jrnBegin | jrnCommit | jrnAbort
  | srd | swr | swrExec | swrFpmode | swrOvfFlags | swrAshape | swrLossScale | swrEbudget | swrDumpBase
  | swrTraceCtl | launch | tlbi | ctxSave | ctxLoad | ctxFreeze | tret | sleep | halt
  deriving DecidableEq, Repr

/-- The instructions and device events of the part: one constructor per row of the opcode table, in its order
(DEDUCED, notes/assumptions/6). -/
inductive Instr where
  /-- Changes no state; at set or block scope it is a pure rendezvous (R103). -/
  | nop (a : Args)
  /-- Uniform branch: taken when the condition covers all of EXEC, falls through when it covers no lane, and raises illegal-convergence when it diverges (R104). -/
  | bra (a : Args)
  /-- Warp branch taken on a condition over OVF_FLAGS, after waiting for earlier flag-setting instructions (R105). -/
  | brcFlag (a : Args)
  /-- Warp branch taken on a signed test of a scalar or block-shared operand; extended form only (R105). -/
  | brcReg (a : Args)
  /-- Pushes a CALL token with the return address and jumps to the target (R37). -/
  | call (a : Args)
  /-- Marks the EXEC lanes as returned on the nearest CALL token and settles, or acts as EXIT when there is no CALL token (R37). -/
  | ret (a : Args)
  /-- Sets PC to a scalar register value, with an alignment check, without touching the token stack (R106). -/
  | jmpi (a : Args)
  /-- Pushes an IF token and runs the taken lanes first, or moves to the else path when no lane is taken (R37). -/
  | ifc (a : Args)
  /-- Switches EXEC to the pending lanes of the top IF token, or restores the saved mask and jumps to the join (R37). -/
  | elsec (a : Args)
  /-- Restores EXEC from the top IF token and pops it (R37). -/
  | endif (a : Args)
  /-- Pushes a LOOP token that records the join and the loop body (R37). -/
  | loopc (a : Args)
  /-- Moves the condition lanes into the break mask of the nearest LOOP token and out of every IF token above it (R37). -/
  | brk (a : Args)
  /-- Moves the condition lanes into the continue mask of the nearest LOOP token (R37). -/
  | cont (a : Args)
  /-- Repeats the loop for the stay and continue lanes, or restores the break mask and pops the token (R37). -/
  | endloop (a : Args)
  /-- Removes the EXEC lanes from the live mask and from every token, then settles or retires the warp (R37). -/
  | exit (a : Args)
  /-- Ends the run, and the warp is passed over at the next arbitration if another warp is eligible (R103). -/
  | yield (a : Args)
  /-- Raises the breakpoint trap with its code in DETAIL and EPC set past the instruction (R109). -/
  | trap (a : Args)
  /-- Integer addition per element, with optional saturation (R111). -/
  | add (a : Args)
  /-- Integer subtraction per element, with optional saturation (R111). -/
  | sub (a : Args)
  /-- Integer multiplication per element, with optional saturation (R111). -/
  | mul (a : Args)
  /-- High half of an integer product per element (R111). -/
  | mulh (a : Args)
  /-- Integer multiply-add per element; the base form takes C = D (R111). -/
  | mad (a : Args)
  /-- Bitwise and (R111). -/
  | andc (a : Args)
  /-- Bitwise or (R111). -/
  | orc (a : Args)
  /-- Bitwise exclusive or (R111). -/
  | xorc (a : Args)
  /-- Bitwise and with the complement of B (R111). -/
  | andn (a : Args)
  /-- Shift left by the element's count (R111). -/
  | shl (a : Args)
  /-- Logical shift right by the element's count (R111). -/
  | shr (a : Args)
  /-- Arithmetic shift right by the element's count (R111). -/
  | sar (a : Args)
  /-- Rotate left by the count modulo the element width (R111). -/
  | rot (a : Args)
  /-- Integer minimum per element (R111). -/
  | min (a : Args)
  /-- Integer maximum per element (R111). -/
  | max (a : Args)
  /-- Absolute difference per element, with optional saturation (R111). -/
  | absd (a : Args)
  /-- Integer comparison that writes a predicate register (R112). -/
  | cmp (a : Args)
  /-- Chooses A or B per lane by the predicate, writing every EXEC lane (R113). -/
  | sel (a : Args)
  /-- Copies A to D (R111). -/
  | mov (a : Args)
  /-- Writes an immediate or literal to D (R114). -/
  | movi (a : Args)
  /-- Forms an address within the space of A without carrying into the space field (R115). -/
  | lea (a : Args)
  /-- Adds an immediate to A (R114). -/
  | addi (a : Args)
  /-- Extracts a bit field, sign-extending it for signed types (R116). -/
  | bfx (a : Args)
  /-- Inserts a bit field into D (R116). -/
  | bfi (a : Args)
  /-- Counts leading zeros per element (R111). -/
  | clz (a : Args)
  /-- Counts set bits per element (R111). -/
  | popc (a : Args)
  /-- Reverses the bits of each element (R111). -/
  | brev (a : Args)
  /-- Integer division truncated toward zero, with the stated results for zero and overflow (R117). -/
  | div (a : Args)
  /-- Integer remainder with the sign of the dividend (R117). -/
  | rem (a : Args)
  /-- Exact 64-bit product of two 32-bit values (R118). -/
  | mulw (a : Args)
  /-- Integer dot product of a lane's elements added to D; it must be written with an explicit type (R118). -/
  | idot (a : Args)
  /-- Floating-point addition rounded once (R131). -/
  | fadd (a : Args)
  /-- Floating-point subtraction rounded once (R131). -/
  | fsub (a : Args)
  /-- Floating-point multiplication rounded once (R131). -/
  | fmul (a : Args)
  /-- Fused multiply-add with one rounding; the base form takes C = D (R131). -/
  | ffma (a : Args)
  /-- Floating-point minimum, with its NaN and signed-zero rules (R132). -/
  | fmin (a : Args)
  /-- Floating-point maximum, with its NaN and signed-zero rules (R132). -/
  | fmax (a : Args)
  /-- Floating-point comparison that writes a predicate (R133). -/
  | fcmp (a : Args)
  /-- Writes a one-hot mask of the operand's class (R134). -/
  | fclass (a : Args)
  /-- Converts the elements of a source type to the destination type (R135). -/
  | cvt (a : Args)
  /-- Evaluates the special function that FUNC selects, deterministically within the stated error bounds (R139). -/
  | sfn (a : Args)
  /-- Exact dot product of the elements plus C, rounded once to FP32 (R136). -/
  | fdot (a : Args)
  /-- Multiplies by 2^k, rounded once (R137). -/
  | fscale (a : Args)
  /-- Rounds to an integral value in the same format (R137). -/
  | frnd (a : Args)
  /-- Narrows the elements of two lanes into one packed lane (R138). -/
  | pack (a : Args)
  /-- Widens half of the packed elements exactly (R138). -/
  | unpk (a : Args)
  /-- Moves lanes by a per-lane source index (R143). -/
  | lshuf (a : Args)
  /-- Rotates lanes by k modulo N (R143). -/
  | lrot (a : Args)
  /-- Broadcasts lane k to every lane acted on (R143). -/
  | lbc (a : Args)
  /-- Reduces A over the lanes acted on (R144). -/
  | lred (a : Args)
  /-- Writes inclusive or exclusive prefix results in lane order (R145). -/
  | lscan (a : Args)
  /-- Forms a mask of the lanes acted on that hold a non-zero value (R146). -/
  | ballot (a : Args)
  /-- Writes a uniform predicate from a vote over the lanes acted on (R147). -/
  | vote (a : Args)
  /-- Permutes the elements within each lane by nibble selectors (R148). -/
  | subsw (a : Args)
  /-- Logical operation on predicates (R150). -/
  | plog (a : Args)
  /-- Moves between predicates, scalars, EXEC and the live mask (R150). -/
  | pmov (a : Args)
  /-- Counts, or finds the first or last set bit of, a predicate (R150). -/
  | pcnt (a : Args)
  /-- Checks every lane's address and then loads bytes into D, or holds a POST load behind the kerf (R171). -/
  | ld (a : Args)
  /-- Checks every lane's address and then stores bytes, held row by row against unfinished jig passes (R172). -/
  | st (a : Args)
  /-- Asks for lines to be brought to L1 or to the home slice; it never faults (R173). -/
  | pref (a : Args)
  /-- Starts an asynchronous copy of a range into the token's batch (R176). -/
  | cpy (a : Args)
  /-- Starts an asynchronous gather of per-lane source elements (R176). -/
  | cpyg (a : Args)
  /-- Starts an asynchronous scatter to per-lane destinations (R176). -/
  | cpys (a : Args)
  /-- Starts an asynchronous copy that combines each source element into the destination (R177). -/
  | cpyr (a : Args)
  /-- Seals the open batch of a token register and gives it a sequence number (R178). -/
  | cseal (a : Args)
  /-- Writes a register range to the spill stack and lowers SSP (R183). -/
  | pushm (a : Args)
  /-- Reads a register range back from the spill stack and raises SSP (R183). -/
  | popm (a : Args)
  /-- Indivisible read-modify-write at the home that returns the old value (R198). -/
  | atom (a : Args)
  /-- Update-only reduction, made in an L1 U line or at the home (R199). -/
  | red (a : Args)
  /-- Posts a saturating counter increment, with an optional release (R194). -/
  | csig (a : Args)
  /-- Parks the warp until the counter reaches its target or the deadline passes (R194). -/
  | cwait (a : Args)
  /-- Reads a counter at its home, with an optional acquire (R194). -/
  | cread (a : Args)
  /-- Performs a release, an acquire or both at the stated scope (R205). -/
  | phase (a : Args)
  /-- Arrives at a barrier with a release, completing the generation when every member has arrived (R188). -/
  | barArv (a : Args)
  /-- Waits until the unit's last arrival's generation completes, then acquires (R188). -/
  | barWt (a : Args)
  /-- Arrives at a barrier and waits, as one instruction (R188). -/
  | barMeet (a : Args)
  /-- Replaces a barrier's member mask between generations (R189). -/
  | barMemb (a : Args)
  /-- Returns a barrier's generation, arrival count and members (R189). -/
  | barQry (a : Args)
  /-- Waits for free slots and reserves n of them, with an acquire (R203). -/
  | eqResv (a : Args)
  /-- Releases, then advances PUBH in order over reserved slots (R203). -/
  | eqPub (a : Args)
  /-- Waits for published slots and takes n of them, with an acquire (R203). -/
  | eqTake (a : Args)
  /-- Releases, then advances FREED in order over taken slots (R203). -/
  | eqFree (a : Args)
  /-- Returns a selected count of an edge queue (R203). -/
  | eqStat (a : Args)
  /-- Stalls until each class of outstanding operations is within its limit (R206). -/
  | wait (a : Args)
  /-- Builds a shape record from two images, after checking them (R219). -/
  | tshp (a : Args)
  /-- Checks and issues the latching of a weight image from the own vault into the array (R220). -/
  | wld (a : Args)
  /-- Checks and issues a product of activations in scratch with the latched weights into tiles (R221). -/
  | mma (a : Args)
  /-- Converts accumulator tiles into a stored matrix in scratch, with optional block scales (R222). -/
  | tst (a : Args)
  /-- Loads tiles from a stored matrix in scratch (R223). -/
  | tld (a : Args)
  /-- Sets n tiles to +0 and tags them neutral (R224). -/
  | tzero (a : Args)
  /-- Issues forward transforms of the blocks held in registers to a transform pipe (R237). -/
  | xfftFwd (a : Args)
  /-- Issues inverse transforms of the blocks held in registers to a transform pipe (R237). -/
  | xfftInv (a : Args)
  /-- Checks and issues per-bin complex products with spectral weights read from the own vault (R242). -/
  | smma (a : Args)
  /-- Rewrites the DOM, BSZ and SCALE_EXP fields of a record (R246). -/
  | tagSet (a : Args)
  /-- Adds an adjustment to SCALE_EXP of a spectral record (R246). -/
  | tagAdj (a : Args)
  /-- Returns bits 79:64 of a record (R246). -/
  | tagQry (a : Args)
  /-- Near-bank dot product of two ranges, returned through a token (R252). -/
  | nbDot (a : Args)
  /-- Near-bank update y := y + alpha times x over a range (R252). -/
  | nbAxpy (a : Args)
  /-- Near-bank scaling of a range by alpha (R252). -/
  | nbScale (a : Args)
  /-- Near-bank sum of a range (R252). -/
  | nbSum (a : Args)
  /-- Near-bank fill of a range with a constant (R252). -/
  | nbFill (a : Args)
  /-- Near-bank count of the non-zero elements of a range (R252). -/
  | nbCmpz (a : Args)
  /-- Loads a jig record into a slot in every channel (R259). -/
  | jigDef (a : Args)
  /-- Arms a ride or haste pass of a slot over a region, with a release first (R261). -/
  | jigArm (a : Args)
  /-- Cancels a region's unfinished passes, releases their held accesses and removes its entry (R267). -/
  | jigDisarm (a : Args)
  /-- Returns the oldest unfinished pass and the rows it has swept (R267). -/
  | jigPos (a : Args)
  /-- Returns a region's row count and the state of its unfinished passes (R267). -/
  | jigQry (a : Args)
  /-- Opens the context's journal step (R270). -/
  | jrnBegin (a : Args)
  /-- Closes the open step, keeping its writes, once its journalled operations complete (R271). -/
  | jrnCommit (a : Args)
  /-- Cancels the step's operations and restores every journalled row (R271). -/
  | jrnAbort (a : Args)
  /-- Reads a special register into D (R120). -/
  | srd (a : Args)
  /-- Writes a special register that has no row of its own, such as SSP, CAUSE, EPC or BADADDR (R121). -/
  | swr (a : Args)
  /-- Writes EXEC ANDed with the live mask, refusing a zero result (R35). -/
  | swrExec (a : Args)
  /-- Writes FPMODE after checking its reserved bits, DRND and precisions (R89). -/
  | swrFpmode (a : Args)
  /-- Replaces the sticky flags after earlier flag-setting instructions complete (R97). -/
  | swrOvfFlags (a : Args)
  /-- Writes the array's band and column selection after checking it (R209). -/
  | swrAshape (a : Args)
  /-- Writes the loss-scale exponent (R225). -/
  | swrLossScale (a : Args)
  /-- Writes RATE, CAP and LEVEL into every core of the context (R305). -/
  | swrEbudget (a : Args)
  /-- Translates and checks a new dump pointer, or accepts zero (R57). -/
  | swrDumpBase (a : Args)
  /-- Sets the recording controls of the core's trace ring (R361). -/
  | swrTraceCtl (a : Args)
  /-- Reads a launch record and its structures and either admits the stage or refuses it whole with a status code (R122). -/
  | launch (a : Args)
  /-- Drops cached translations device-wide and completes after every access that used them (R123). -/
  | tlbi (a : Args)
  /-- Writes a frozen context's image and removes its resident state (R124). -/
  | ctxSave (a : Args)
  /-- Restores a context image into its granted cores and vaults (R124). -/
  | ctxLoad (a : Args)
  /-- Freezes a context's warps and engines at run boundaries, or thaws them (R124). -/
  | ctxFreeze (a : Args)
  /-- Returns from a trap handler, restoring the saved stack and EXEC and resuming at EPC (R125). -/
  | tret (a : Args)
  /-- Parks the warp until TIMER reaches an absolute wake time (R126). -/
  | sleep (a : Args)
  /-- Stops the issuing core, which reports itself halted once issued operations complete (R127). -/
  | halt (a : Args)
  /-- Expiry of the rendezvous watchdog traps every waiting member (R32). -/
  | rendezvousTimeout (blk : Nat) (pc : Word)
  /-- A partition whose issue slot is free chooses an eligible warp by age and priority and grants it a run (R301). -/
  | runArbitration (core part : Nat)
  /-- An instruction that has waited 2^28 clocks to issue raises the fatal watchdog trap (R349). -/
  | watchdog (w : Nat)
  /-- A handler that has not issued TRET within 65,536 clocks takes the fatal trap (R344). -/
  | handlerOverrun (w : Nat)
  /-- The data of a load returns and is written, as poison with a mark if it is uncorrectable (R171). -/
  | loadDataReturn (id : Nat)
  /-- Copies one rebuilt IL row of a fenced bank into the spare bank and redirects it (R376). -/
  | fenceCopyRow (ch pc : Nat)
  /-- When every copy of a sealed batch has completed, its token value is written (R178). -/
  | copyBatchComplete (w seq : Nat)
  /-- A posted counter increment is performed at the home, saturating and recording overflow (R194). -/
  | counterIncrement (id : Nat)
  /-- A counter reaching a waiter's target makes the waiting warp eligible (R196). -/
  | cwaitWake (w : Nat)
  /-- The deadline of a CWAIT passes and the wait ends normally (R194). -/
  | cwaitTimeout (w : Nat)
  /-- The waiting core re-reads a counter every 1 us when the slice's sync cache is full of waiters (R192). -/
  | cwaitPoll (w : Nat)
  /-- TIMER reaches a sleeping warp's wake time and the warp becomes eligible (R126). -/
  | sleepWake (w : Nat)
  /-- A waiting EQ finds its counts allow it, updates them and completes (R203). -/
  | eqWaitSatisfied (w : Nat)
  /-- A free transform pipe serves a waiting XFFT, round-robin among partitions (R239). -/
  | xfftAccept (core pipe : Nat)
  /-- A transform's result is written 48 clocks after its last register is accepted (R239). -/
  | xfftComplete (core pipe : Nat)
  /-- The slices of a weight image arrive, the masks are checked, and the weights are latched or refused (R212). -/
  | wldComplete (core : Nat)
  /-- An array or tile operation completes in array order, writing its tiles, scratch and flags (R215). -/
  | arrayOpComplete (core : Nat) (chk : List GroupCheck)
  /-- The in-rush arbiter admits the next wake request for 650 clocks (R308). -/
  | bandAdmit (die : Nat)
  /-- A waking band becomes ON 2,600 clocks after its admission (R307). -/
  | bandOn (core band : Nat)
  /-- A band idle in HOLD for 20,000 ns switches OFF (R307). -/
  | bandHoldExpire (core band : Nat)
  /-- A band not at level 5,200 clocks after admission is marked failed, and the operations waiting on it are cancelled (R358). -/
  | bandWakeRefused (core band : Nat)
  /-- At each 4-clock step boundary the limiter admits ready operations within 8 LU of increase (R310). -/
  | slewStep (die : Nat)
  /-- A near-bank operation finishes at the bank and its result or status is written to the token (R253). -/
  | nbComplete (id : Nat)
  /-- The memory controller accepts an ARM and creates the pass of its region (R261). -/
  | jigArmAccept (id : Nat)
  /-- The refresh sweep reaches a row, applying any ride pass to it (R262). -/
  | refreshRow (row : Nat)
  /-- A haste pass sweeps a row in its wave ahead of refresh (R262). -/
  | hasteRowSweep (row : Nat)
  /-- COMMIT or ABORT finishes once the journalled operations end, restoring rows for ABORT, and writes its status (R271). -/
  | journalCloseComplete (ctx : Nat)
  /-- A block whose warps and operations in flight are done retires and frees its resources (R299). -/
  | blockRetire (blk : Nat)
  /-- At each change of free resources the placement queue is scanned and clusters that fit are placed (R297). -/
  | placement (ctx : Nat)
  /-- The resident dispatcher decides submission entry n once SUBMIT shows it, and signals DONE_N (R296). -/
  | dispatchEntry (ctx : Nat)
  /-- Every 1,000 ns of TIMER, RATE units are added to each core's budget level up to CAP (R306). -/
  | budgetRefill
  /-- Every 1 ms of TIMER, the context's total energy is copied into ENERGY (R313). -/
  | energyUpdate
  /-- Every 1 ms above 1.3 GHz the wear counter grows and the boost ceiling is recomputed (R312). -/
  | wearTick (die : Nat) (temp : TempClass)
  /-- The die control block grants a 25 MHz boost step when the wear ceiling and power allow it (R17). -/
  | boostStep (die : Nat) (up powerOk : Bool)
  /-- A write from a host source queue is performed at its home in issue order (R286). -/
  | hostWrite (q ctx : Nat) (addr : Word) (data : List Byte)
  /-- A read from a host source queue is performed in order, as an acquire at sys (R286). -/
  | hostRead (q ctx : Nat) (addr : Word) (len : Nat)
  /-- A host signal increments a counter after the queue's earlier writes, as a release at sys (R286). -/
  | hostSignal (q ctx : Nat) (addr inc : Word)
  /-- An RMT access from another device is translated through the bound tables and served at its home (R156). -/
  | remoteAccess (dev : Nat) (who : RemoteWarp) (addr : Word) (op : RemoteOp)
  /-- A flit that fails its CRC is resent, and after eight failures the port is taken down and retrained (R381). -/
  | girtFlitError (x : FlitAt)
  /-- Packets held 10 ms with no port to their partner fail with poison, late traps or ERR (R381). -/
  | girtHoldTimeout (partner : Nat)
  /-- A Girt port trains and chooses its rate and compression (R15). -/
  | linkTraining (port partner : Nat) (ok full offerComp : Bool)
  /-- A UCIe link that fails retraining three times goes down and traffic is rerouted (R380). -/
  | ucieLinkDown (link : Nat)
  /-- A die not re-admitted 100 ms after quiesce is lost; its held writes fail and its contexts end (R383). -/
  | dieLost (die : Nat)
  /-- A pin still held 1 ms after an unmapping TLBI is broken and logged (R378). -/
  | pinBreak (w : Nat)
  /-- Firmware moves a page of a frozen context, or refuses with busy (R379). -/
  | pageMigrate (ctx : Nat) (va : Word) (frame : Nat)
  /-- A store to the frame's INJ word arms or disarms an error injection (R374). -/
  | injStore (ch : Nat) (val : Word)
  /-- A store to BANK_ERR_STATUS clears the channel's error record (R373). -/
  | bankErrClear (ch : Nat) (val : Word)
  /-- A store to MARCH starts a march test of one bank, or is ignored (R377). -/
  | marchStore (ch : Nat) (val : Word)
  /-- The march test finishes, remapping failing rows and copying the bank back (R377). -/
  | marchComplete (ch : Nat) (failing : List Nat)
  /-- At cold power-on the boot ROM verifies and measures the firmware and starts the dies, or stays in recovery (R315). -/
  | powerOn (cfg : FwConfig)
  /-- Extends a measurement register with a digest (R318). -/
  | measurementExtend (reg : Nat) (digest : BitVec 256)
  /-- SPDM request answered with version 1.3 (R319). -/
  | getVersion (t : Transport)
  /-- SPDM request answered with the certificate, challenge and measurement capabilities (R319). -/
  | getCapabilities (t : Transport)
  /-- SPDM request that selects SHA-256 and SLH-DSA as an extended asymmetric algorithm (R319). -/
  | negotiateAlgorithms (t : Transport) (offersSlh : Bool)
  /-- SPDM request for the digest of slot 0's certificate chain (R319). -/
  | getDigests (t : Transport)
  /-- SPDM request for the device identity certificate chain (R319). -/
  | getCertificate (t : Transport) (slot off len : Nat)
  /-- SPDM challenge answered with a signed response (R319). -/
  | challenge (t : Transport) (slot : Nat) (nonce : BitVec 256)
  /-- SPDM request for one or all measurement registers, taken at one instant (R319). -/
  | getMeasurements (t : Transport) (index : Nat) (signed : Bool) (nonce : BitVec 256)
  /-- Any other SPDM request receives ERROR with UnsupportedRequest (R319). -/
  | spdmUnsupported (t : Transport) (code : Nat)
  /-- PLDM read of temperatures, power, die states, wear and halted flags (R321). -/
  | healthRead (r : Requester)
  /-- Management command that has firmware write the device-level dump (R326). -/
  | dumpTrigger (r : Requester)
  /-- Management command that returns the device-level dump, or only the header of a tenant dump (R326). -/
  | dumpFetch (r : Requester) (tenant : Option Nat)
  /-- Management command that starts a die's warm reset by freezing and saving the contexts on it (R384). -/
  | warmReset (r : Requester) (die : Nat)
  /-- Other dies stop sending to the die, which goes offline as its routes switch (R384). -/
  | dieQuiesce (die : Nat)
  /-- The die's L2 and sync caches write back, its memory is parked and the die is reset (R384). -/
  | dieDrain (die : Nat)
  /-- The die's UCIe links are retrained after its reset (R384). -/
  | dieRetrain (die : Nat) (ok : Bool)
  /-- The stacks leave self-refresh, journal rows are restored, the homes open and held writes are performed (R384). -/
  | dieReadmit (die : Nat)
  /-- Resets every die and the measurement registers and runs the boot again (R326). -/
  | deviceReset (r : Requester) (cfg : FwConfig)
  /-- The die control block restarts a halted core (R326). -/
  | coreRestart (r : Requester) (core : Nat)
  /-- Writes a new firmware image to boot flash after verifying it (R326). -/
  | recoveryLoad (r : Requester) (image : List Byte)
  /-- Firmware creates a tenant context record after checking its grants for overlaps (R322). -/
  | contextCreate (r : Requester) (rec : CtxRec)
  /-- Firmware changes a context record after checking its grants for overlaps (R323). -/
  | contextChange (r : Requester) (rec : CtxRec)
  /-- Firmware destroys a context, cancelling its passes and scrubbing what it held (R324). -/
  | contextDestroy (r : Requester) (ctx : Nat)
  /-- An instruction word whose major opcode is reserved (a cell marked - or 0x78 to 0x7F) raises illegal-instruction with DETAIL 0x01 at every LEN (R76). -/
  | reservedOpcode (w : IWord)
  /-- A store, PUSHM or RED is accepted by L1, or a stream, bypass, RMT or HST write is acknowledged by its home, target or host, which ends its count in the store class of WAIT, lets pending releases complete, and records a late fault reported by the target (R184). -/
  | storeAcknowledgement (id : Nat)
  /-- Every channel has accepted a JIG.DEF, which ends its count in the bank-side class of WAIT (R259). -/
  | jigDefAccepted (id : Nat)
  deriving DecidableEq, Repr

/-- The program instruction of a name and its fields. -/
def Instr.ofOp (o : Op) (a : Args) : Instr :=
  match o with
  | .nop => .nop a
  | .bra => .bra a
  | .brcFlag => .brcFlag a
  | .brcReg => .brcReg a
  | .call => .call a
  | .ret => .ret a
  | .jmpi => .jmpi a
  | .ifc => .ifc a
  | .elsec => .elsec a
  | .endif => .endif a
  | .loopc => .loopc a
  | .brk => .brk a
  | .cont => .cont a
  | .endloop => .endloop a
  | .exit => .exit a
  | .yield => .yield a
  | .trap => .trap a
  | .add => .add a
  | .sub => .sub a
  | .mul => .mul a
  | .mulh => .mulh a
  | .mad => .mad a
  | .andc => .andc a
  | .orc => .orc a
  | .xorc => .xorc a
  | .andn => .andn a
  | .shl => .shl a
  | .shr => .shr a
  | .sar => .sar a
  | .rot => .rot a
  | .min => .min a
  | .max => .max a
  | .absd => .absd a
  | .cmp => .cmp a
  | .sel => .sel a
  | .mov => .mov a
  | .movi => .movi a
  | .lea => .lea a
  | .addi => .addi a
  | .bfx => .bfx a
  | .bfi => .bfi a
  | .clz => .clz a
  | .popc => .popc a
  | .brev => .brev a
  | .div => .div a
  | .rem => .rem a
  | .mulw => .mulw a
  | .idot => .idot a
  | .fadd => .fadd a
  | .fsub => .fsub a
  | .fmul => .fmul a
  | .ffma => .ffma a
  | .fmin => .fmin a
  | .fmax => .fmax a
  | .fcmp => .fcmp a
  | .fclass => .fclass a
  | .cvt => .cvt a
  | .sfn => .sfn a
  | .fdot => .fdot a
  | .fscale => .fscale a
  | .frnd => .frnd a
  | .pack => .pack a
  | .unpk => .unpk a
  | .lshuf => .lshuf a
  | .lrot => .lrot a
  | .lbc => .lbc a
  | .lred => .lred a
  | .lscan => .lscan a
  | .ballot => .ballot a
  | .vote => .vote a
  | .subsw => .subsw a
  | .plog => .plog a
  | .pmov => .pmov a
  | .pcnt => .pcnt a
  | .ld => .ld a
  | .st => .st a
  | .pref => .pref a
  | .cpy => .cpy a
  | .cpyg => .cpyg a
  | .cpys => .cpys a
  | .cpyr => .cpyr a
  | .cseal => .cseal a
  | .pushm => .pushm a
  | .popm => .popm a
  | .atom => .atom a
  | .red => .red a
  | .csig => .csig a
  | .cwait => .cwait a
  | .cread => .cread a
  | .phase => .phase a
  | .barArv => .barArv a
  | .barWt => .barWt a
  | .barMeet => .barMeet a
  | .barMemb => .barMemb a
  | .barQry => .barQry a
  | .eqResv => .eqResv a
  | .eqPub => .eqPub a
  | .eqTake => .eqTake a
  | .eqFree => .eqFree a
  | .eqStat => .eqStat a
  | .wait => .wait a
  | .tshp => .tshp a
  | .wld => .wld a
  | .mma => .mma a
  | .tst => .tst a
  | .tld => .tld a
  | .tzero => .tzero a
  | .xfftFwd => .xfftFwd a
  | .xfftInv => .xfftInv a
  | .smma => .smma a
  | .tagSet => .tagSet a
  | .tagAdj => .tagAdj a
  | .tagQry => .tagQry a
  | .nbDot => .nbDot a
  | .nbAxpy => .nbAxpy a
  | .nbScale => .nbScale a
  | .nbSum => .nbSum a
  | .nbFill => .nbFill a
  | .nbCmpz => .nbCmpz a
  | .jigDef => .jigDef a
  | .jigArm => .jigArm a
  | .jigDisarm => .jigDisarm a
  | .jigPos => .jigPos a
  | .jigQry => .jigQry a
  | .jrnBegin => .jrnBegin a
  | .jrnCommit => .jrnCommit a
  | .jrnAbort => .jrnAbort a
  | .srd => .srd a
  | .swr => .swr a
  | .swrExec => .swrExec a
  | .swrFpmode => .swrFpmode a
  | .swrOvfFlags => .swrOvfFlags a
  | .swrAshape => .swrAshape a
  | .swrLossScale => .swrLossScale a
  | .swrEbudget => .swrEbudget a
  | .swrDumpBase => .swrDumpBase a
  | .swrTraceCtl => .swrTraceCtl a
  | .launch => .launch a
  | .tlbi => .tlbi a
  | .ctxSave => .ctxSave a
  | .ctxLoad => .ctxLoad a
  | .ctxFreeze => .ctxFreeze a
  | .tret => .tret a
  | .sleep => .sleep a
  | .halt => .halt a

/-- The name and fields of a program instruction; none for a device event. -/
def Instr.op? : Instr → Option (Op × Args)
  | .nop a => some (.nop, a)
  | .bra a => some (.bra, a)
  | .brcFlag a => some (.brcFlag, a)
  | .brcReg a => some (.brcReg, a)
  | .call a => some (.call, a)
  | .ret a => some (.ret, a)
  | .jmpi a => some (.jmpi, a)
  | .ifc a => some (.ifc, a)
  | .elsec a => some (.elsec, a)
  | .endif a => some (.endif, a)
  | .loopc a => some (.loopc, a)
  | .brk a => some (.brk, a)
  | .cont a => some (.cont, a)
  | .endloop a => some (.endloop, a)
  | .exit a => some (.exit, a)
  | .yield a => some (.yield, a)
  | .trap a => some (.trap, a)
  | .add a => some (.add, a)
  | .sub a => some (.sub, a)
  | .mul a => some (.mul, a)
  | .mulh a => some (.mulh, a)
  | .mad a => some (.mad, a)
  | .andc a => some (.andc, a)
  | .orc a => some (.orc, a)
  | .xorc a => some (.xorc, a)
  | .andn a => some (.andn, a)
  | .shl a => some (.shl, a)
  | .shr a => some (.shr, a)
  | .sar a => some (.sar, a)
  | .rot a => some (.rot, a)
  | .min a => some (.min, a)
  | .max a => some (.max, a)
  | .absd a => some (.absd, a)
  | .cmp a => some (.cmp, a)
  | .sel a => some (.sel, a)
  | .mov a => some (.mov, a)
  | .movi a => some (.movi, a)
  | .lea a => some (.lea, a)
  | .addi a => some (.addi, a)
  | .bfx a => some (.bfx, a)
  | .bfi a => some (.bfi, a)
  | .clz a => some (.clz, a)
  | .popc a => some (.popc, a)
  | .brev a => some (.brev, a)
  | .div a => some (.div, a)
  | .rem a => some (.rem, a)
  | .mulw a => some (.mulw, a)
  | .idot a => some (.idot, a)
  | .fadd a => some (.fadd, a)
  | .fsub a => some (.fsub, a)
  | .fmul a => some (.fmul, a)
  | .ffma a => some (.ffma, a)
  | .fmin a => some (.fmin, a)
  | .fmax a => some (.fmax, a)
  | .fcmp a => some (.fcmp, a)
  | .fclass a => some (.fclass, a)
  | .cvt a => some (.cvt, a)
  | .sfn a => some (.sfn, a)
  | .fdot a => some (.fdot, a)
  | .fscale a => some (.fscale, a)
  | .frnd a => some (.frnd, a)
  | .pack a => some (.pack, a)
  | .unpk a => some (.unpk, a)
  | .lshuf a => some (.lshuf, a)
  | .lrot a => some (.lrot, a)
  | .lbc a => some (.lbc, a)
  | .lred a => some (.lred, a)
  | .lscan a => some (.lscan, a)
  | .ballot a => some (.ballot, a)
  | .vote a => some (.vote, a)
  | .subsw a => some (.subsw, a)
  | .plog a => some (.plog, a)
  | .pmov a => some (.pmov, a)
  | .pcnt a => some (.pcnt, a)
  | .ld a => some (.ld, a)
  | .st a => some (.st, a)
  | .pref a => some (.pref, a)
  | .cpy a => some (.cpy, a)
  | .cpyg a => some (.cpyg, a)
  | .cpys a => some (.cpys, a)
  | .cpyr a => some (.cpyr, a)
  | .cseal a => some (.cseal, a)
  | .pushm a => some (.pushm, a)
  | .popm a => some (.popm, a)
  | .atom a => some (.atom, a)
  | .red a => some (.red, a)
  | .csig a => some (.csig, a)
  | .cwait a => some (.cwait, a)
  | .cread a => some (.cread, a)
  | .phase a => some (.phase, a)
  | .barArv a => some (.barArv, a)
  | .barWt a => some (.barWt, a)
  | .barMeet a => some (.barMeet, a)
  | .barMemb a => some (.barMemb, a)
  | .barQry a => some (.barQry, a)
  | .eqResv a => some (.eqResv, a)
  | .eqPub a => some (.eqPub, a)
  | .eqTake a => some (.eqTake, a)
  | .eqFree a => some (.eqFree, a)
  | .eqStat a => some (.eqStat, a)
  | .wait a => some (.wait, a)
  | .tshp a => some (.tshp, a)
  | .wld a => some (.wld, a)
  | .mma a => some (.mma, a)
  | .tst a => some (.tst, a)
  | .tld a => some (.tld, a)
  | .tzero a => some (.tzero, a)
  | .xfftFwd a => some (.xfftFwd, a)
  | .xfftInv a => some (.xfftInv, a)
  | .smma a => some (.smma, a)
  | .tagSet a => some (.tagSet, a)
  | .tagAdj a => some (.tagAdj, a)
  | .tagQry a => some (.tagQry, a)
  | .nbDot a => some (.nbDot, a)
  | .nbAxpy a => some (.nbAxpy, a)
  | .nbScale a => some (.nbScale, a)
  | .nbSum a => some (.nbSum, a)
  | .nbFill a => some (.nbFill, a)
  | .nbCmpz a => some (.nbCmpz, a)
  | .jigDef a => some (.jigDef, a)
  | .jigArm a => some (.jigArm, a)
  | .jigDisarm a => some (.jigDisarm, a)
  | .jigPos a => some (.jigPos, a)
  | .jigQry a => some (.jigQry, a)
  | .jrnBegin a => some (.jrnBegin, a)
  | .jrnCommit a => some (.jrnCommit, a)
  | .jrnAbort a => some (.jrnAbort, a)
  | .srd a => some (.srd, a)
  | .swr a => some (.swr, a)
  | .swrExec a => some (.swrExec, a)
  | .swrFpmode a => some (.swrFpmode, a)
  | .swrOvfFlags a => some (.swrOvfFlags, a)
  | .swrAshape a => some (.swrAshape, a)
  | .swrLossScale a => some (.swrLossScale, a)
  | .swrEbudget a => some (.swrEbudget, a)
  | .swrDumpBase a => some (.swrDumpBase, a)
  | .swrTraceCtl a => some (.swrTraceCtl, a)
  | .launch a => some (.launch, a)
  | .tlbi a => some (.tlbi, a)
  | .ctxSave a => some (.ctxSave, a)
  | .ctxLoad a => some (.ctxLoad, a)
  | .ctxFreeze a => some (.ctxFreeze, a)
  | .tret a => some (.tret, a)
  | .sleep a => some (.sleep, a)
  | .halt a => some (.halt, a)
  | _ => none

/-- Part 0 of `Op.all`. -/
def Op.all0 : List Op := [.nop, .bra, .brcFlag, .brcReg, .call, .ret, .jmpi, .ifc, .elsec, .endif, .loopc, .brk,
   .cont, .endloop, .exit, .yield, .trap]

/-- Part 1 of `Op.all`. -/
def Op.all1 : List Op := [.add, .sub, .mul, .mulh, .mad, .andc, .orc, .xorc, .andn, .shl, .shr, .sar, .rot,
   .min, .max, .absd, .cmp, .sel, .mov, .movi, .lea, .addi, .bfx, .bfi, .clz, .popc, .brev, .div, .rem, .mulw,
   .idot, .fadd]

/-- Part 2 of `Op.all`. -/
def Op.all2 : List Op := [.fsub, .fmul, .ffma, .fmin, .fmax, .fcmp, .fclass, .cvt, .sfn, .fdot, .fscale, .frnd,
   .pack, .unpk, .lshuf]

/-- Part 3 of `Op.all`. -/
def Op.all3 : List Op := [.lrot, .lbc, .lred, .lscan, .ballot, .vote, .subsw, .plog, .pmov, .pcnt, .ld]

/-- Part 4 of `Op.all`. -/
def Op.all4 : List Op := [.st, .pref, .cpy, .cpyg, .cpys, .cpyr, .cseal, .pushm, .popm, .atom, .red, .csig,
   .cwait, .cread, .phase, .barArv, .barWt, .barMeet, .barMemb, .barQry, .eqResv, .eqPub, .eqTake, .eqFree,
   .eqStat]

/-- Part 5 of `Op.all`. -/
def Op.all5 : List Op := [.wait, .tshp, .wld, .mma, .tst, .tld, .tzero, .xfftFwd, .xfftInv, .smma, .tagSet,
   .tagAdj, .tagQry, .nbDot, .nbAxpy, .nbScale, .nbSum, .nbFill, .nbCmpz, .jigDef, .jigArm, .jigDisarm, .jigPos,
   .jigQry, .jrnBegin]

/-- Part 6 of `Op.all`. -/
def Op.all6 : List Op := [.jrnCommit, .jrnAbort, .srd, .swr, .swrExec, .swrFpmode, .swrOvfFlags, .swrAshape,
   .swrLossScale, .swrEbudget, .swrDumpBase, .swrTraceCtl, .launch, .tlbi, .ctxSave, .ctxLoad, .ctxFreeze, .tret,
   .sleep, .halt]

/-- Every program instruction name, in the order of the opcode table. -/
def Op.all : List Op :=
  Op.all0 ++ Op.all1 ++ Op.all2 ++ Op.all3 ++ Op.all4 ++ Op.all5 ++ Op.all6


end Sys2Proof
end

