-- ==== Sys2Proof/Config.lean ====
section
/-! DEFINITION. What an implementation or a part fixes, and the FREE VALUES: what the spec leaves open. Each `opaque`
constant has no body, so no proof can see its value, and a statement holds for every value of it. -/

namespace Sys2Proof.Config

/-- A byte of host memory or of another device's memory (R156): by the number of the access, the fabric number of the
target, and the address there, so that all lanes of one access find the same byte at one place
(DESIGN CHOICE, notes/assumptions/3). -/
opaque farByte : Nat → Nat → Nat → Byte

/-- The choice among the writes that a read may return (R276): an upper bound on the coherence position, clipped to
what the reading warp's floor allows (DESIGN CHOICE, notes/assumptions/7). -/
opaque readCut : Nat → Nat

/-- Which of the cached translations of an address, and the table's own, an access uses where they differ (R123, R157)
(DEDUCED, notes/assumptions/28). -/
opaque pickCached : Nat → Nat

/-- What another device or the host answers to an access beside its data (R156, R174), by the number of the access, the
fabric number of the target, and the address there: modulo 8, 1 a translation fault and 2 a permission fault, whose walk
level and COW bit the rest of the number gives, 3 poison that the remote device holds (R381), 4 an overflow of a counter
(R195), else nothing (DESIGN CHOICE, notes/assumptions/3). -/
opaque farFault : Nat → Nat → Nat → Nat

/-- The flags that an atomic operation on another device raises (R177, R198), by the number of the access, the fabric number of
the target and the address there (DESIGN CHOICE, notes/assumptions/3). -/
opaque farFlags : Nat → Nat → Nat → Nat

/-- The deterministic result of a special function where R139 and R140 fix no exact value (R141): by function code,
TYPE code and operand bits (DEDUCED, notes/assumptions/9). -/
opaque sfnResult : Nat → Nat → Word → Word

/-- What `FFMA` takes as the elements of C for an IMM12 that its element type cannot hold exactly (Table 6.1): by TYPE,
IMM12 and FPMODE (DESIGN CHOICE, notes/assumptions/16). -/
opaque ffmaImm : EType → BitVec 12 → Word → Word

/-- Signing with the device identity key (R319) (DESIGN CHOICE, notes/assumptions/19). -/
opaque slhSign : List Byte → List Byte

/-- The device identity certificate chain of slot 0 (R319) (DESIGN CHOICE, notes/assumptions/19). -/
opaque certChain : List Byte

/-- The digest of the boot ROM (R315 step 5) (DESIGN CHOICE, notes/assumptions/19). -/
opaque romDigest : BitVec 256

/-- The key hash fused into DIE_0 (R315 step 3) (DESIGN CHOICE, notes/assumptions/19). -/
opaque fusedKeyHash : BitVec 256

/-- The fused minimum security version number (R315 step 4) (DESIGN CHOICE, notes/assumptions/19). -/
opaque fusedMinSvn : Nat

/-- WEAR_MAX of a die's voltage domain, fixed for each part (R312) (DESIGN CHOICE, notes/assumptions/19). -/
opaque wearMax : Nat → Nat

/-- Temperature and package power readings of the health sensors (R321), by sensor and reading count
(DESIGN CHOICE, notes/assumptions/19). -/
opaque sensor : Nat → Nat → Nat

/-- The fixed energy coefficient of an event kind, in femtojoules (R313): of an instruction of energy class 0 to 3, of an LU-clock
of an array or its fillers (4), and of a ns of a core's idle power (5) (DESIGN CHOICE, notes/assumptions/17). -/
opaque energyCoeff : Nat → Nat

/-- The energy of refresh since the last update of ENERGY, in femtojoules (R313) (DESIGN CHOICE, notes/assumptions/17). -/
opaque refreshFj : Nat → Nat

/-- The bytes that a context's requests have moved in one row of Table 14.2 since the last update of ENERGY beyond those that
its accesses name (R313): whole lines, table walks, instruction fetches, and what the caches read and wrote in memory, which
depend on what they held (DESIGN CHOICE, notes/assumptions/17). -/
opaque trafficBytes : Nat → Nat

/-- The architecture step of the device and of its arrays (R226, R353) (DESIGN CHOICE, notes/assumptions/19). -/
opaque archStep : BitVec 16

/-- The image version of the array save image (R226) (DESIGN CHOICE, notes/assumptions/19). -/
opaque arrayVer : BitVec 16

/-- The 64-bit check of an array save image (R226) and the bytes of its opaque body, by the number of the save
(DESIGN CHOICE, notes/assumptions/19). -/
opaque arrayCheck : List Byte → Word

/-- The opaque body byte of an array save image (R226): number of the save, offset
(DESIGN CHOICE, notes/assumptions/19). -/
opaque arrayBody : Nat → Nat → Byte

/-- Whether a failed batch also wrote a piece that did not fail (R182; DESIGN CHOICE, notes/assumptions/14). -/
opaque pieceWritten : Nat → Bool

/-- The order in which the pieces of a copy move, and which lane's byte remains where lanes of `CPYS` overlap (R176;
DESIGN CHOICE, notes/assumptions/14). -/
opaque copyPick : Nat → Nat

/-- The order in which update-only copies of a line are combined into it, and whether a copy goes home before the next
contribution (R199: neither order nor grouping is stated; DESIGN CHOICE, notes/assumptions/18). -/
opaque redPick : Nat → Nat

end Sys2Proof.Config
end

