-- ==== Sys2Proof/Decode.lean ====
section
/-! DEFINITION. The decoder: from words to an instruction, or to the name of the check of Table 3.8 that refuses
(spec/03 R61 to R78), the table of what each program instruction has (spec/05 to 11), and the encoder. -/

namespace Sys2Proof

/-! ## Codes -/

/-- SCOPE codes (R26). -/
def Scope.code : Scope → BitVec 2
  | .lane => 0 | .warp => 1 | .set => 2 | .block => 3

/-- The scope of a code. -/
def Scope.ofCode (c : BitVec 2) : Scope :=
  if c = 0 then .lane else if c = 1 then .warp else if c = 2 then .set else .block

/-- Kind codes (Table 3.3). -/
def Kind.code : Kind → BitVec 2
  | .v => 0 | .s => 1 | .q => 2 | .x => 3

/-- The kind of a code. -/
def Kind.ofCode (c : BitVec 2) : Kind :=
  if c = 0 then .v else if c = 1 then .s else if c = 2 then .q else .x

/-- LEN codes (R61). -/
def Form.code : Form → BitVec 2
  | .base => 0 | .baseLit => 1 | .ext => 2 | .extLit => 3

/-- The form of a LEN code. -/
def Form.ofCode (c : BitVec 2) : Form :=
  if c = 0 then .base else if c = 1 then .baseLit else if c = 2 then .ext else .extLit

/-- Words of a form (R61). -/
def Form.len : Form → Nat
  | .base => 1 | .baseLit => 2 | .ext => 3 | .extLit => 5

/-- TYPE codes (Table 3.5). -/
def EType.code : EType → BitVec 4
  | .i64 => 0x0 | .i32 => 0x1 | .n32 => 0x2 | .i16x4 => 0x3 | .i8x8 => 0x4 | .n8x8 => 0x5 | .f32 => 0x6
  | .f32x2 => 0x7 | .f16 => 0x8 | .f16x4 => 0x9 | .bf16 => 0xA | .bf16x4 => 0xB | .b8a => 0xC | .b8b => 0xD
  | .n64 => 0xE

/-- The type of a TYPE code; 0xF is reserved (R74). -/
def EType.ofCode (c : BitVec 4) : Option EType :=
  match c.toNat with
  | 0x0 => some .i64 | 0x1 => some .i32 | 0x2 => some .n32 | 0x3 => some .i16x4 | 0x4 => some .i8x8
  | 0x5 => some .n8x8 | 0x6 => some .f32 | 0x7 => some .f32x2 | 0x8 => some .f16 | 0x9 => some .f16x4
  | 0xA => some .bf16 | 0xB => some .bf16x4 | 0xC => some .b8a | 0xD => some .b8b | 0xE => some .n64
  | _ => none

/-- RND codes (Table 3.6). -/
def Rnd.code : Rnd → BitVec 3
  | .rne => 0 | .rtz => 1 | .rdn => 2 | .rup => 3 | .rna => 4 | .rod => 5 | .dyn => 6

/-- The mode of an RND code; 0b111 is reserved (R75). -/
def Rnd.ofCode (c : BitVec 3) : Option Rnd :=
  match c.toNat with
  | 0 => some .rne | 1 => some .rtz | 2 => some .rdn | 3 => some .rup | 4 => some .rna | 5 => some .rod
  | 6 => some .dyn | _ => none

/-! ## Element geometry (R53, R74) -/

/-- Width in bits of an element of a TYPE. -/
def EType.width : EType → Nat
  | .i64 | .n64 => 64
  | .i32 | .n32 | .f32 | .f32x2 => 32
  | .i16x4 | .f16 | .f16x4 | .bf16 | .bf16x4 => 16
  | .i8x8 | .n8x8 | .b8a | .b8b => 8

/-- Elements per lane of a TYPE: packed types fill the lane. -/
def EType.count : EType → Nat
  | .i64 | .n64 | .i32 | .n32 | .f32 | .f16 | .bf16 => 1
  | .f32x2 => 2
  | .i16x4 | .f16x4 | .bf16x4 => 4
  | .i8x8 | .n8x8 | .b8a | .b8b => 8

/-- Types whose elements are floating point. -/
def EType.isFloat : EType → Bool
  | .f32 | .f32x2 | .f16 | .f16x4 | .bf16 | .bf16x4 | .b8a | .b8b => true
  | .i64 | .i32 | .n32 | .i16x4 | .i8x8 | .n8x8 | .n64 => false

/-- The integer types of Table 5.3. -/
def EType.ints : List EType := [.i64, .n64, .i32, .n32, .i16x4, .i8x8, .n8x8]

/-- Every type, "any" of Table 5.3. -/
def EType.anys : List EType :=
  [.i64, .i32, .n32, .i16x4, .i8x8, .n8x8, .f32, .f32x2, .f16, .f16x4, .bf16, .bf16x4, .b8a, .b8b, .n64]

/-- "Float" of Table 6.1. -/
def EType.floats : List EType := [.f32, .f32x2, .f16, .f16x4, .bf16, .bf16x4, .b8a, .b8b]

/-- "Wide" of Table 6.1. -/
def EType.wides : List EType := [.f32, .f32x2, .f16, .f16x4, .bf16, .bf16x4]

/-- "Scalar float" of Table 6.1. -/
def EType.scalarFloats : List EType := [.f32, .f16, .bf16, .b8a, .b8b]

/-- The element that a SUB code selects, as its width and index (Table 3.4); none for code 0 and for reserved code 3. -/
def subElem (sub : BitVec 4) : Option (Nat × Nat) :=
  let n := sub.toNat
  if n = 0 ∨ n = 3 then none
  else if n < 3 then some (32, n - 1)
  else if n < 8 then some (16, n - 4)
  else some (8, n - 8)

/-! ## What each instruction has -/

/-- What an operand field of kind 11 holds for an opcode (Table 3.3), or that the field names a predicate. -/
inductive Cls where
  | none      -- kind 11 not allowed
  | imm       -- IMM12
  | lit       -- the 64-bit literal
  | immLit    -- IMM12 with LEN 0b10, the 64-bit literal with LEN 0b11
  | tile | record | limit
  | pred      -- the field names a predicate, its kind field the default of R68
  deriving DecidableEq, Repr

/-- Whether an operand is read, written or both. -/
inductive Use where
  | src | dst | both
  deriving DecidableEq, Repr

/-- One operand: its kinds at lane, set and block scope, its kinds at warp scope, its kind-11 class, its use, and
whether it may be absent. An operand with no kinds is one the instruction does not have. -/
structure Opnd where
  vk  : List Kind := []
  wk  : List Kind := []
  cls : Cls := .none
  use : Use := .src
  opt : Bool := false
  deriving DecidableEq, Repr

/-- The base formats (R64). -/
inductive BaseFmt where
  | none | b3 | bi | bj
  deriving DecidableEq, Repr

/-- How an instruction uses RND: not at all, in every mode, or with 0b000 and 0b110 both accepted and without effect
(R110, Table 6.1). -/
inductive RndUse where
  | zero | any | dash
  deriving DecidableEq, Repr

/-- How an instruction uses SUB: not at all, as the sub-element of an operand, or as an auxiliary selector up to a
bound (R73). -/
inductive SubUse where
  | none | elem | aux (max : Nat)
  deriving DecidableEq, Repr

/-- The issue ports (Table 2.3). -/
inductive Port where
  | v | s | m | x
  deriving DecidableEq, Repr

/-- The row of an instruction in the tables of its chapter. -/
structure Row where
  opc    : Nat
  base   : BaseFmt := .none
  scopes : List Scope := [.warp]
  d      : Opnd := {}
  a      : Opnd := {}
  b      : Opnd := {}
  c      : Opnd := {}
  types  : List EType := [.i64]
  rnd    : RndUse := .zero
  sat    : Bool := false
  na     : Bool := false
  nb     : Bool := false
  abs    : Bool := false
  xp     : Bool := false
  cp     : Bool := false
  pred   : Bool := false        -- P and PN are used
  sub    : SubUse := .none
  imm    : Bool := false        -- IMM12 is a field of the instruction whatever the kinds
  target : Bool := false        -- the instruction has a branch target (R66, R101)
  priv   : Bool := false        -- privileged (R76)
  conv   : Bool := false        -- requires convergence (R34)
  deriving DecidableEq, Repr

/-- All four scopes. -/
def allScopes : List Scope := [.lane, .warp, .set, .block]

/-- Lane, set and block scope. -/
def vecScopes : List Scope := [.lane, .set, .block]

/-- Destination of R110: kind 00 at lane, set and block scope, 01 or 10 at warp scope. -/
def dR : Opnd := { vk := [.v], wk := [.s, .q], use := .dst }

/-- As `dR`, and also a source. -/
def dB : Opnd := { dR with use := .both }

/-- Source of R110. -/
def sR : Opnd := { vk := [.v, .s, .q], wk := [.s, .q] }

/-- Source of R110 that may be IMM12 under kind 11. -/
def sRI : Opnd := { vk := [.v, .s, .q, .x], wk := [.s, .q, .x], cls := .imm }

/-- Source of R110 that may be the 64-bit literal under kind 11. -/
def sRL : Opnd := { sRI with cls := .lit }

/-- Source of R110 that may be IMM12 or the 64-bit literal under kind 11. -/
def sRIL : Opnd := { sRI with cls := .immLit }

/-- Kind 01 or 10 at every scope. -/
def sSQ : Opnd := { vk := [.s, .q], wk := [.s, .q] }

/-- Kind 01, 10 or 11 (IMM12 or literal). -/
def sSQIL : Opnd := { vk := [.s, .q, .x], wk := [.s, .q, .x], cls := .immLit }

/-- Kind 01, 10 or 11 (the literal). -/
def sSQL : Opnd := { sSQIL with cls := .lit }

/-- Destination of kind 01. -/
def dS : Opnd := { vk := [.s], wk := [.s], use := .dst }

/-- Destination predicate whose kind is the default of R68. -/
def dP : Opnd := { vk := [.v], wk := [.s], cls := .pred, use := .dst }

/-- A predicate operand of R149, whose kind field holds 0b01. -/
def pS (u : Use) : Opnd := { vk := [.s], wk := [.s], cls := .pred, use := u }

/-- An operand of kind 11 only. -/
def kX (c : Cls) (u : Use) : Opnd := { vk := [.x], wk := [.x], cls := c, use := u }

/-- Control instructions in BJ form at lane scope (Table 5.1). -/
def rBJ (opc : Nat) (pred target : Bool) : Row :=
  { opc, base := .bj, scopes := [.lane], pred, target, imm := target }

/-- Integer instructions with A and B, B possibly IMM12 (Table 5.3). -/
def rInt (opc : Nat) (types : List EType) (sat : Bool := false) : Row :=
  { opc, base := .b3, scopes := allScopes, d := dR, a := sR, b := sRI, types, sat, pred := true }

/-- Integer instructions with A alone. -/
def rInt1 (opc : Nat) (types : List EType) : Row :=
  { opc, base := .b3, scopes := allScopes, d := dR, a := sR, types, pred := true }

/-- Floating-point instructions with A and B (Table 6.1). -/
def rFlt (opc : Nat) (types : List EType) (rnd : RndUse) (sat : Bool) : Row :=
  { opc, base := .b3, scopes := allScopes, d := dR, a := sR, b := sR, types, rnd, sat, na := true, nb := true,
    abs := true, pred := true, sub := .elem }

/-- Floating-point instructions with A alone. -/
def rFlt1 (opc : Nat) (types : List EType) (rnd : RndUse) (sat : Bool) : Row :=
  { opc, base := .b3, scopes := allScopes, d := dR, a := sR, types, rnd, sat, na := true, abs := true,
    pred := true, sub := .elem }

/-- Cross-lane instructions (Table 6.3). The spec lists no kinds of operand A: the model takes 00, 01 and 10, as of any
source (DESIGN CHOICE, notes/assumptions/40). -/
def rXl (opc : Nat) (d b : Opnd) (types : List EType) (sub : SubUse) : Row :=
  { opc, base := .b3, scopes := vecScopes, d, a := { sR with wk := [.v, .s, .q] }, b, types, pred := true, sub }

/-- Destination of a cross-lane instruction: kind 00 is no illegal kind at warp scope, which step 6 refuses (R142, R70). -/
def dX : Opnd := { dR with wk := [.v, .s, .q] }

/-- Source B of a cross-lane instruction. -/
def sX : Opnd := { sR with wk := [.v, .s, .q] }

/-- Source B of a cross-lane instruction that may be IMM12 under kind 11. -/
def sXI : Opnd := { sRI with wk := [.v, .s, .q, .x] }

/-- Tile instructions (Table 9.3). -/
def rTile (opc : Nat) (d a : Opnd) : Row :=
  { opc, scopes := [.warp, .set], d, a, conv := true }

/-- Types of a reduction by its FUNC (Table 6.4); FUNC bit 7 is ignored here. -/
def redTypes (func : Nat) : List EType :=
  match func with
  | 0x00 | 0x01 | 0x02 => EType.ints
  | 0x03 | 0x04 | 0x05 => EType.anys
  | 0x08 | 0x09 | 0x0A => EType.floats
  | _ => []

/-- Types of `ATOM` and `RED` by FUNC (R197). -/
def atomTypes (func : Nat) : List EType :=
  match func with
  | 0x00 | 0x01 | 0x02 | 0x03 | 0x04 | 0x05 | 0x10 | 0x11 => [.i64, .n64, .i32, .n32]
  | 0x08 | 0x09 | 0x0A => [.f32x2, .f16x4, .bf16x4, .f32, .f16, .bf16]
  | _ => []

/-- Element types of `NB` by FUNC (Table 11.1). -/
def nbTypes (func : Nat) : List EType :=
  match func with
  | 0x00 | 0x03 => [.f32, .f16, .bf16, .i32, .i8x8]
  | 0x05 | 0x04 => [.f32, .f16, .bf16, .i32, .n32, .i8x8, .n8x8, .i64, .n64]
  | 0x01 | 0x02 => [.f32, .f16, .bf16, .i32, .n32]
  | _ => []

/-- The near-bank rows (R250). -/
def rNb (func : Nat) (d b : Opnd) (rs : Bool) : Row :=
  { opc := 0x6D, d, a := sSQ, b, c := sSQIL, types := nbTypes func, rnd := if rs then .any else .zero, sat := rs }

/-- The destination types of `PACK` and source types of `UNPK` (R138). -/
def packTypes : List EType := [.i16x4, .i8x8, .n8x8, .f16x4, .bf16x4, .b8a, .b8b]

/-- `SWR` rows (Table 5.4): operand A or the immediate C. -/
def rSwr (priv : Bool) : Row :=
  { opc := 0x71, a := { sSQ with opt := true }, c := { kX .immLit .src with opt := true }, priv }

/-- The row of every instruction, by its name and FUNC (DEDUCED, notes/assumptions/40). -/
def rowOf (o : Op) (func : Nat) : Row :=
  match o with
  | .nop => { opc := 0x00, base := .b3, scopes := allScopes }
  | .bra => rBJ 0x01 true true
  | .brcFlag => { opc := 0x02, base := .bj, pred := true, target := true, imm := true }
  | .brcReg => { opc := 0x02, a := sSQ, pred := true, target := true, imm := true }
  | .call => rBJ 0x03 false true
  | .ret => rBJ 0x04 false false
  | .jmpi => { opc := 0x05, base := .b3, a := sSQ }
  | .ifc => rBJ 0x06 true true
  | .elsec => rBJ 0x07 false false
  | .endif => rBJ 0x08 false false
  | .loopc => rBJ 0x09 false true
  | .brk => rBJ 0x0A true false
  | .cont => rBJ 0x0B true false
  | .endloop => rBJ 0x0C true false
  | .exit => rBJ 0x0D false false
  | .yield => { opc := 0x0E, base := .b3, scopes := [.lane, .warp] }
  | .trap => { opc := 0x0F, base := .bi, scopes := [.lane, .warp], imm := true }
  | .add => rInt 0x10 EType.ints true
  | .sub => rInt 0x11 EType.ints true
  | .mul => rInt 0x12 EType.ints true
  | .mulh => rInt 0x13 EType.ints
  | .mad => { rInt 0x14 EType.ints true with c := sRL }
  | .andc => rInt 0x15 EType.anys
  | .orc => rInt 0x16 EType.anys
  | .xorc => rInt 0x17 EType.anys
  | .andn => rInt 0x18 EType.anys
  | .shl => rInt 0x19 EType.ints
  | .shr => rInt 0x1A EType.ints
  | .sar => rInt 0x1B EType.ints
  | .rot => rInt 0x1C EType.ints
  | .min => rInt 0x1D EType.ints
  | .max => rInt 0x1E EType.ints
  | .absd => rInt 0x1F EType.ints true
  | .cmp => { rInt 0x20 [.i64, .n64, .i32, .n32] with d := dP, b := sR }
  | .sel => { rInt 0x21 EType.anys with b := sR, scopes := vecScopes }
  | .mov => rInt1 0x22 EType.anys
  | .movi => { opc := 0x23, base := .bi, scopes := allScopes, d := dR, c := kX .immLit .src, types := [.i64, .n64],
               pred := true }
  | .lea => { rInt 0x24 [.i64, .n64] with b := sR, sub := .aux 15, imm := true }
  | .addi => { opc := 0x25, base := .bi, scopes := allScopes, d := dR, a := sR, c := kX .immLit .src,
               types := [.i64, .n64], sat := true, pred := true }
  | .bfx => rInt 0x26 [.i64, .n64, .i32, .n32]
  | .bfi => { rInt 0x27 [.i64, .n64, .i32, .n32] with d := dB }
  | .clz => rInt1 0x28 EType.ints
  | .popc => rInt1 0x29 EType.ints
  | .brev => rInt1 0x2A EType.ints
  | .div => rInt 0x2B EType.ints true
  | .rem => rInt 0x2C EType.ints
  | .mulw => { rInt 0x2D [.i32, .n32] with b := sR }
  | .idot => { rInt 0x2E [.i8x8, .n8x8, .i16x4] true with b := sR, d := dB }
  | .fadd => rFlt 0x30 EType.floats .any true
  | .fsub => rFlt 0x31 EType.floats .any true
  | .fmul => rFlt 0x32 EType.floats .any true
  | .ffma => { rFlt 0x33 EType.floats .any true with c := sRIL }
  | .fmin => rFlt 0x34 EType.floats .dash false
  | .fmax => rFlt 0x35 EType.floats .dash false
  | .fcmp => { rFlt 0x36 EType.scalarFloats .dash false with d := dP }
  | .fclass => rFlt1 0x37 EType.scalarFloats .dash false
  | .cvt => { rFlt1 0x38 EType.anys .any true with d := dB }
  | .sfn => rFlt1 0x39 EType.wides .dash true
  | .fdot => { rFlt 0x3A [.f32x2, .f16x4, .bf16x4, .b8a] .any true with c := sR, sub := .none }
  | .fscale => { rFlt 0x3B EType.floats .any true with b := sRI, nb := false }
  | .frnd => rFlt1 0x3C EType.floats .any false
  | .pack => { rFlt 0x3D packTypes .any true with sub := .none }
  | .unpk => { rFlt1 0x3E packTypes .dash false with sub := .none }
  | .lshuf => rXl 0x40 dX sX EType.anys .elem
  | .lrot => rXl 0x41 dX sXI EType.anys .elem
  | .lbc => rXl 0x42 dX sXI EType.anys .elem
  | .lred => { rXl 0x43 { dX with vk := [.v, .s, .q] } {} (redTypes func) .elem with rnd := .any, sat := true }
  | .lscan => { rXl 0x44 dX {} (redTypes (func % 128)) .elem with rnd := .any, sat := true }
  | .ballot => { rXl 0x45 { dX with vk := [.v, .s, .q] } {} [.i64] .elem with imm := true }
  | .vote => rXl 0x46 dP {} [.i64] .elem
  | .subsw => rXl 0x47 dX sXI [.i16x4, .i8x8, .n8x8, .f32x2, .f16x4, .bf16x4, .b8a, .b8b] .none
  | .plog => { opc := 0x48, base := .b3, d := pS .dst, a := pS .src, b := if func = 4 then {} else pS .src }
  | .pmov => { opc := 0x49, base := .b3, d := if func = 5 then {} else if func = 2 then dS else pS .dst,
               a := if func = 3 ∨ func = 4 then {} else if func = 1 then { dS with use := .src } else pS .src }
  | .pcnt => { opc := 0x4A, base := .b3, d := dS, a := pS .src }
  | .ld => { opc := 0x50, scopes := [.lane, .warp], d := { vk := [.v], wk := [.s, .q], use := .dst }, a := sR,
             types := [.i64, .i32, .n32], cp := true, pred := true, sub := .elem, imm := true }
  | .st => { opc := 0x51, scopes := [.lane, .warp], a := sR, b := sR, cp := true, pred := true, sub := .elem,
             imm := true }
  | .pref => { opc := 0x52, scopes := [.lane, .warp], a := sR, cp := true, pred := true, imm := true }
  | .cpy => { opc := 0x53, d := dS, a := sSQ, b := sSQ, c := sSQIL, cp := true }
  | .cpyg => { opc := 0x54, scopes := [.lane], d := dS, a := sSQ, b := { vk := [.v], wk := [.v] },
               c := kX .immLit .src, cp := true }
  | .cpys => { opc := 0x55, scopes := [.lane], d := dS, a := { vk := [.v], wk := [.v] }, b := sSQ,
               c := kX .immLit .src, cp := true }
  | .cpyr => { opc := 0x56, d := dS, a := sSQ, b := sSQ, c := sSQIL, types := redTypes func, rnd := .any, sat := true,
               cp := true }
  | .cseal => { opc := 0x57, d := dS }
  | .pushm => { opc := 0x58, d := { vk := [.v, .s], wk := [.v, .s] }, imm := true }
  | .popm => { opc := 0x59, d := { vk := [.v, .s], wk := [.v, .s], use := .dst }, imm := true }
  | .atom => { opc := 0x5A, scopes := [.lane, .warp], d := dR, a := sR, b := sR,
               c := if func = 0x11 then sR else {}, types := atomTypes func,
               rnd := if func = 8 then .any else .zero, sat := func = 0 ∨ func = 8, pred := true, imm := true }
  | .red => { opc := 0x5B, scopes := [.lane, .warp], a := sR, b := sR,
              types := if func < 0x10 then atomTypes func else [],
              rnd := if func = 8 then .any else .zero, sat := func = 0 ∨ func = 8, cp := true, pred := true,
              imm := true }
  | .csig => { opc := 0x5C, scopes := [.warp, .set, .block], a := sSQ, c := sSQL, sub := .aux 3, imm := true }
  | .cwait => { opc := 0x5D, scopes := [.warp, .set, .block], d := dS, a := sSQ, b := { sSQ with opt := true },
                c := sSQL, sub := .aux 3, imm := true }
  | .cread => { opc := 0x5E, d := dS, a := sSQ, sub := .aux 3, imm := true }
  | .phase => { opc := 0x5F, sub := .aux 3 }
  | .barArv | .barWt | .barMeet => { opc := 0x60, scopes := [.warp, .block], imm := true }
  | .barMemb => { opc := 0x60, scopes := [.warp, .block], a := sSQ, imm := true }
  | .barQry => { opc := 0x60, scopes := [.warp, .block], d := dS, imm := true }
  | .eqResv | .eqTake => { opc := 0x61, scopes := [.warp, .set, .block], d := dS, b := sSQ, imm := true }
  | .eqPub | .eqFree => { opc := 0x61, scopes := [.warp, .set, .block], a := sSQ, b := sSQ, imm := true }
  | .eqStat => { opc := 0x61, scopes := [.warp, .set, .block], d := dS, sub := .aux 5, imm := true }
  | .wait => { opc := 0x62, d := kX .limit .src, a := kX .limit .src, b := kX .limit .src, c := kX .limit .src }
  | .tshp => { rTile 0x69 (kX .record .dst) sSQ with b := sSQ }
  | .wld => { rTile 0x64 (kX .record .src) sSQ with sub := .aux 2, imm := true }
  | .mma => { rTile 0x65 (kX .tile .src) (kX .record .src) with xp := true }
  | .tst => { rTile 0x66 (kX .record .src) (kX .tile .src) with rnd := .any, sat := true }
  | .tld => rTile 0x67 (kX .tile .src) (kX .record .src)
  | .tzero => { rTile 0x68 (kX .tile .src) {} with imm := true }
  | .xfftFwd | .xfftInv => { opc := 0x6A, scopes := [.lane], d := { vk := [.v], wk := [.v], use := .dst },
                             a := { vk := [.v], wk := [.v] }, b := kX .record .src, sat := true, conv := true }
  | .smma => { rTile 0x6B (kX .tile .src) (kX .record .src) with b := sSQ, c := kX .record .src, imm := true }
  | .tagSet | .tagAdj => { opc := 0x6C, d := kX .record .dst, a := kX .record .src, imm := true }
  | .tagQry => { opc := 0x6C, d := dS, a := kX .record .src }
  | .nbDot => rNb 0 dS sSQ false
  | .nbAxpy => rNb 1 { dS with use := .both } sSQ true
  | .nbScale => rNb 2 { dS with use := .both } {} true
  | .nbSum => rNb 3 dS {} false
  | .nbFill => rNb 4 { dS with use := .both } {} false
  | .nbCmpz => rNb 5 dS {} false
  | .jigDef => { opc := 0x6E, a := sSQ, imm := true }
  | .jigArm => { opc := 0x6E, d := dS, a := sSQ, b := sSQ, c := { sSQ with opt := true }, imm := true }
  | .jigDisarm | .jigPos | .jigQry => { opc := 0x6E, d := dS, a := sSQ }
  | .jrnBegin | .jrnCommit | .jrnAbort => { opc := 0x6F, d := dS }
  | .srd => { opc := 0x70, scopes := allScopes, d := dR }
  | .swr | .swrExec | .swrFpmode | .swrOvfFlags | .swrAshape | .swrLossScale | .swrDumpBase => rSwr false
  | .swrEbudget | .swrTraceCtl => rSwr true
  | .launch => { opc := 0x72, d := dS, a := sSQ }
  | .tlbi => { opc := 0x73, a := sSQ, b := sSQ, sub := .aux 2, priv := true }
  | .ctxSave | .ctxLoad | .ctxFreeze => { opc := 0x74, d := dS, a := sSQ, b := sSQ, priv := true }
  | .tret => { opc := 0x75 }
  | .sleep => { opc := 0x76, a := { sSQ with opt := true }, c := { kX .immLit .src with opt := true } }
  | .halt => { opc := 0x77, priv := true }

/-- The port on which an instruction issues (R46, Table 2.3). -/
def portOf (opc : Nat) (sc : Scope) : Port :=
  if opc < 0x10 then .s
  else if opc < 0x40 then (if sc = .warp then .s else .v)
  else if opc < 0x48 then .v
  else if opc < 0x50 then .s
  else if opc < 0x5C then .m
  else if opc = 0x69 ∨ opc = 0x6C ∨ (0x70 ≤ opc ∧ opc ≠ 0x72) then .s
  else .x

/-! ## FUNC (R56, R77 and each description) -/

/-- The selectors of Table 3.2. -/
def srSelectors : List Nat :=
  [0x01, 0x02, 0x03, 0x04, 0x05, 0x06, 0x07, 0x08, 0x09, 0x10, 0x11, 0x12, 0x13, 0x14, 0x15, 0x20, 0x21, 0x22, 0x23,
   0x24]

/-- The FUNC values of a reduction (Table 6.4). -/
def redFuncs : List Nat := [0x00, 0x01, 0x02, 0x03, 0x04, 0x05, 0x08, 0x09, 0x0A]

/-- Whether a FUNC value is one of an instruction's. -/
def funcOk (o : Op) (f : Nat) : Bool :=
  match o with
  | .cmp | .fcmp => f < 8
  | .cvt => f < 128 && f % 16 != 15
  | .sfn => f < 11
  | .lred | .cpyr | .red => redFuncs.contains f
  | .lscan => redFuncs.contains (f % 128)
  | .vote => f < 5
  | .plog => f < 5
  | .pmov => f < 6
  | .pcnt => f < 3
  | .atom => redFuncs.contains f || f == 0x10 || f == 0x11
  | .ld | .pref | .unpk | .mma | .smma => f < 2
  | .tst => f < 4
  | .csig => f < 2
  | .cwait | .cread => f == 0 || f == 2
  | .phase => f == 1 || f == 2 || f == 3
  | .srd => srSelectors.contains f
  | .swr => [0x08, 0x10, 0x11, 0x12].contains f
  | .swrEbudget => f == 0x03
  | .swrFpmode => f == 0x04
  | .swrLossScale => f == 0x05
  | .swrOvfFlags => f == 0x06
  | .swrAshape => f == 0x07
  | .swrExec => f == 0x09
  | .swrDumpBase => f == 0x14
  | .swrTraceCtl => f == 0x15
  | .brcReg | .barWt | .eqPub | .xfftInv | .tagAdj | .nbAxpy | .jigArm | .jrnCommit | .ctxLoad => f == 1
  | .barMeet | .eqTake | .tagQry | .nbScale | .jigDisarm | .jrnAbort | .ctxFreeze => f == 2
  | .barMemb | .eqFree | .nbSum | .jigPos => f == 3
  | .barQry | .eqStat | .nbFill | .jigQry => f == 4
  | .nbCmpz => f == 5
  | _ => f == 0

/-- The instruction of a major opcode and a FUNC (Tables 3.7, 3.2 and R77); none where no FUNC of the opcode matches
or the opcode is reserved. -/
def opOf (opc f : Nat) : Option Op :=
  match opc with
  | 0x00 => some .nop | 0x01 => some .bra
  | 0x02 => if f = 0 then some .brcFlag else if f = 1 then some .brcReg else none
  | 0x03 => some .call | 0x04 => some .ret | 0x05 => some .jmpi | 0x06 => some .ifc | 0x07 => some .elsec
  | 0x08 => some .endif | 0x09 => some .loopc | 0x0A => some .brk | 0x0B => some .cont | 0x0C => some .endloop
  | 0x0D => some .exit | 0x0E => some .yield | 0x0F => some .trap
  | 0x10 => some .add | 0x11 => some .sub | 0x12 => some .mul | 0x13 => some .mulh | 0x14 => some .mad
  | 0x15 => some .andc | 0x16 => some .orc | 0x17 => some .xorc | 0x18 => some .andn | 0x19 => some .shl
  | 0x1A => some .shr | 0x1B => some .sar | 0x1C => some .rot | 0x1D => some .min | 0x1E => some .max
  | 0x1F => some .absd | 0x20 => some .cmp | 0x21 => some .sel | 0x22 => some .mov | 0x23 => some .movi
  | 0x24 => some .lea | 0x25 => some .addi | 0x26 => some .bfx | 0x27 => some .bfi | 0x28 => some .clz
  | 0x29 => some .popc | 0x2A => some .brev | 0x2B => some .div | 0x2C => some .rem | 0x2D => some .mulw
  | 0x2E => some .idot
  | 0x30 => some .fadd | 0x31 => some .fsub | 0x32 => some .fmul | 0x33 => some .ffma | 0x34 => some .fmin
  | 0x35 => some .fmax | 0x36 => some .fcmp | 0x37 => some .fclass | 0x38 => some .cvt | 0x39 => some .sfn
  | 0x3A => some .fdot | 0x3B => some .fscale | 0x3C => some .frnd | 0x3D => some .pack | 0x3E => some .unpk
  | 0x40 => some .lshuf | 0x41 => some .lrot | 0x42 => some .lbc | 0x43 => some .lred | 0x44 => some .lscan
  | 0x45 => some .ballot | 0x46 => some .vote | 0x47 => some .subsw | 0x48 => some .plog | 0x49 => some .pmov
  | 0x4A => some .pcnt
  | 0x50 => some .ld | 0x51 => some .st | 0x52 => some .pref | 0x53 => some .cpy | 0x54 => some .cpyg
  | 0x55 => some .cpys | 0x56 => some .cpyr | 0x57 => some .cseal | 0x58 => some .pushm | 0x59 => some .popm
  | 0x5A => some .atom | 0x5B => some .red | 0x5C => some .csig | 0x5D => some .cwait | 0x5E => some .cread
  | 0x5F => some .phase
  | 0x60 => if f = 0 then some .barArv else if f = 1 then some .barWt else if f = 2 then some .barMeet
            else if f = 3 then some .barMemb else if f = 4 then some .barQry else none
  | 0x61 => if f = 0 then some .eqResv else if f = 1 then some .eqPub else if f = 2 then some .eqTake
            else if f = 3 then some .eqFree else if f = 4 then some .eqStat else none
  | 0x62 => some .wait | 0x64 => some .wld | 0x65 => some .mma | 0x66 => some .tst | 0x67 => some .tld
  | 0x68 => some .tzero | 0x69 => some .tshp
  | 0x6A => if f = 0 then some .xfftFwd else if f = 1 then some .xfftInv else none
  | 0x6B => some .smma
  | 0x6C => if f = 0 then some .tagSet else if f = 1 then some .tagAdj else if f = 2 then some .tagQry else none
  | 0x6D => if f = 0 then some .nbDot else if f = 1 then some .nbAxpy else if f = 2 then some .nbScale
            else if f = 3 then some .nbSum else if f = 4 then some .nbFill else if f = 5 then some .nbCmpz else none
  | 0x6E => if f = 0 then some .jigDef else if f = 1 then some .jigArm else if f = 2 then some .jigDisarm
            else if f = 3 then some .jigPos else if f = 4 then some .jigQry else none
  | 0x6F => if f = 0 then some .jrnBegin else if f = 1 then some .jrnCommit else if f = 2 then some .jrnAbort else none
  | 0x70 => some .srd
  | 0x71 => if f = 0x03 then some .swrEbudget else if f = 0x04 then some .swrFpmode
            else if f = 0x05 then some .swrLossScale else if f = 0x06 then some .swrOvfFlags
            else if f = 0x07 then some .swrAshape else if f = 0x09 then some .swrExec
            else if f = 0x14 then some .swrDumpBase else if f = 0x15 then some .swrTraceCtl else some .swr
  | 0x72 => some .launch | 0x73 => some .tlbi
  | 0x74 => if f = 0 then some .ctxSave else if f = 1 then some .ctxLoad else if f = 2 then some .ctxFreeze else none
  | 0x75 => some .tret | 0x76 => some .sleep | 0x77 => some .halt
  | _ => none

/-- The reserved major opcodes of Table 3.7 (R76). -/
def reservedOpc (opc : Nat) : Bool :=
  opc == 0x2F || opc == 0x3F || (0x4B ≤ opc && opc ≤ 0x4F) || opc == 0x63 || 0x78 ≤ opc

/-! ## Step 3 of Table 3.8 -/

/-- Whether an operand exists. -/
def Opnd.present (o : Opnd) : Bool := !(o.vk.isEmpty && o.wk.isEmpty)

/-- The kinds an operand may take at a scope. -/
def Opnd.kinds (o : Opnd) (sc : Scope) : List Kind := if sc = .warp then o.wk else o.vk

/-- The default kind of R68. -/
def defKind (sc : Scope) : Kind := if sc = .warp then .s else .v

/-- An operand's kind and register field in an extended form (R70): zero where the instruction lacks the operand, a
kind it may take, and a zero register field where the kind makes the field name nothing. -/
def opndOk (o : Opnd) (sc : Scope) (k : Kind) (r : BitVec 8) : Bool :=
  if !o.present || (o.opt && k == .v && r == 0) then k == .v && r == 0
  else (o.kinds sc).contains k &&
    (k != .x || o.cls == .tile || o.cls == .record || o.cls == .limit || r == 0)

/-- LEN against operand C in the extended forms (R70). Branch targets are checked by `targetOk`. -/
def litOk (row : Row) (a : Args) : Bool :=
  match a.form with
  | .ext => !(a.kc == .x && row.c.cls == .lit)
  | .extLit => a.kc == .x && (row.c.cls == .lit || row.c.cls == .immLit)
  | _ => true

/-- Whether an extended form takes an operand from IMM12. -/
def usesImm (row : Row) (a : Args) : Bool :=
  row.imm || (a.kb == .x && row.b.cls == .imm) || (a.form == .ext && a.kc == .x && row.c.cls == .immLit)

/-- The fields of a branch target (R66, R101): `IF` keeps OFF or IMM12 beside the literal. -/
def targetOk (o : Op) (a : Args) : Bool :=
  match a.form with
  | .base => true
  | .baseLit => o == .ifc || a.off == 0
  | .ext => a.kc == .v && a.c == 0
  | .extLit => a.kc == .x && a.c == 0 && (o == .ifc || a.imm == 0)

/-- SUB as a sub-element (R73, R130, R142): TYPE must be one whose element width equals the sub-element's. -/
def subElemOk (o : Op) (a : Args) : Bool :=
  if a.sub == 0 then true else
  match subElem a.sub with
  | none => false
  | some (w, _) =>
    match o with
    | .lshuf | .lrot | .lbc | .ballot | .vote | .st => true
    | .ld => a.ty == .i64
    | .lred | .lscan => ([.i32, .n32, .f32].contains a.ty && w == 32) || ([.f16, .bf16].contains a.ty && w == 16)
    | .cvt =>
      match EType.ofCode (a.func.extractLsb' 0 4) with
      | none => false
      | some t => t.count == 1 && t.width == w
    | .fcmp | .fclass => a.ty.width == w
    | _ => a.ty.count == 1 && a.ty.width == w

/-- The checks of step 3 that one instruction alone has. -/
def extraOk (o : Op) (a : Args) : Bool :=
  match o with
  | .brcFlag => !a.pn
  | .brcReg => !a.pn && a.p.toNat < 6
  | .trap => a.form == .base || (a.form == .ext && a.imm.toNat < 256)
  | .cvt =>
    match EType.ofCode (a.func.extractLsb' 0 4) with
    | none => false
    | some t => (a.func.extractLsb' 4 3).toNat < Nat.max t.count a.ty.count / Nat.min t.count a.ty.count
  | .pack => a.ty.isFloat || a.rnd == .rne
  | .cpyg | .cpys =>
    [4, 8, 16, 32, 64, 128].contains (if a.form == .extLit then a.lit.toNat else a.imm.toNat)
  | .csig | .cwait | .cread => a.sub == 0 || a.func != 0
  | .barArv | .barWt | .barMeet | .barMemb | .barQry =>
    let l := (a.imm.extractLsb' 4 2).toNat
    a.imm.toNat < 64 && l != 3 && (l != 1 || a.imm.toNat % 16 < 8) && (l != 2 || a.imm.toNat % 16 < 4)
  | .eqResv | .eqPub | .eqTake | .eqFree | .eqStat => a.imm.toNat < 32
  | .tzero => 1 ≤ a.imm.toNat && a.imm.toNat ≤ 8 && a.d.toNat + a.imm.toNat ≤ 8
  | .tagSet => a.imm.toNat < 1024
  | .jigDef => a.imm.toNat < 16
  | .jigArm => a.imm.toNat < 32
  | .swr | .swrExec | .swrFpmode | .swrOvfFlags | .swrAshape | .swrLossScale | .swrEbudget | .swrDumpBase
  | .swrTraceCtl | .sleep => (a.ka == .v) != (a.kc == .v)
  | _ => true

/-- Step 3 of Table 3.8 for the extended forms. -/
def extOk (o : Op) (row : Row) (a : Args) : Bool :=
  opndOk row.d a.scope a.kd a.d && opndOk row.a a.scope a.ka a.a && opndOk row.b a.scope a.kb a.b &&
  (row.target || (opndOk row.c a.scope a.kc a.c && litOk row a)) &&
  (!row.target || targetOk o a) && (usesImm row a || a.imm == 0)

/-- Whether an operand may have the default kind of R68 at a scope; a predicate's kind is the default. -/
def defKindOk (o : Opnd) (sc : Scope) : Bool :=
  !o.present || o.cls == .pred || (o.kinds sc).contains (defKind sc)

/-- Step 3 of Table 3.8 for the base forms (R64 to R68, R102): the default kinds are ones the operands may take, unused
fields are zero, and the 32-bit literal needs an operand that it replaces. A base form has no kind fields, so `PCNT`
outside warp scope is left to step 6 (R149). -/
def baseOk (o : Op) (row : Row) (a : Args) : Bool :=
  match row.base with
  | .none => false
  | .bj => (row.target || (a.form == .base && a.off == 0)) && (!row.target || targetOk o a)
  | .bi => (row.d.present || a.d == 0) && (row.a.present || a.a == 0) &&
           (a.form == .base || (a.imm == 0 && row.c.present))
  | .b3 => (o == .pcnt || defKindOk row.d a.scope) && defKindOk row.a a.scope &&
           (row.d.present || a.d == 0) && (row.a.present || a.a == 0) && (row.b.present || a.b == 0) &&
           (a.form == .base || (a.b == 0 && row.b.present && row.b.cls != .pred))

/-- The modifiers and predicate of step 3 (R71, R72, R74, R75, R77). -/
def modsOk (o : Op) (row : Row) (a : Args) : Bool :=
  row.types.contains a.ty &&
  (match row.rnd with | .zero => a.rnd == .rne | .any => true | .dash => a.rnd == .rne || a.rnd == .dyn) &&
  (row.sat || !a.sat) && (row.na || !a.na) && (row.nb || !a.nb) && (row.abs || !a.abs) && (row.xp || !a.xp) &&
  (row.cp || a.cp == 0) && (row.pred || (a.p == 0 && !a.pn)) &&
  (a.scope != .warp || row.opc < 0x10 || (a.p == 0 && !a.pn)) &&
  (match row.sub with | .none => a.sub == 0 | .elem => subElemOk o a | .aux m => a.sub.toNat ≤ m)

/-- Step 3 of Table 3.8: reserved fields, kinds, FUNC, TYPE, RND, SUB and unused modifiers are legal. -/
def legal (o : Op) (a : Args) : Bool :=
  let row := rowOf o a.func.toNat
  funcOk o a.func.toNat && modsOk o row a && extraOk o a &&
  (match a.form with | .base | .baseLit => baseOk o row a | .ext | .extLit => extOk o row a)

/-! ## Words to fields -/

/-- Why a decoder refuses: too few words, LEN illegal for the opcode (step 2), or an illegal field (step 3). -/
inductive DecodeError where
  | short | illegalLen | illegalField
  deriving DecidableEq, Repr

/-- CAUSE.DETAIL of a refused decode (Table 3.8). -/
def DecodeError.detail : DecodeError → Nat
  | .short => 0x01 | .illegalLen => 0x01 | .illegalField => 0x02

/-- OPC of word 0 (R61). -/
def opcField (w0 : IWord) : BitVec 7 := w0.extractLsb' 5 7

/-- The fields of a base form (R64), with the defaults of R68. -/
def baseArgs (fmt : BaseFmt) (opc : Nat) (form : Form) (w0 lit : IWord) : Args :=
  let sc := Scope.ofCode (w0.extractLsb' 3 2)
  let k := defKind sc
  let flt := decide (0x30 ≤ opc ∧ opc ≤ 0x3E)
  let g : Args := { form, scope := sc, fin := w0.getLsbD 2, kd := k, ka := k, kb := k, kc := k,
                    lit := lit.setWidth 64, ty := if flt then .f32 else .i64, rnd := if flt then .dyn else .rne }
  match fmt with
  | .bj => { g with off := w0.extractLsb' 15 17, p := w0.extractLsb' 12 3 }
  | .bi => { g with d := (w0.extractLsb' 12 6).setWidth 8, a := (w0.extractLsb' 18 6).setWidth 8,
                    imm := (w0.extractLsb' 24 8).signExtend 12 }
  | _ => { g with d := (w0.extractLsb' 12 6).setWidth 8, a := (w0.extractLsb' 18 6).setWidth 8,
                  b := (w0.extractLsb' 24 6).setWidth 8, p := (w0.extractLsb' 30 2).setWidth 3,
                  c := if opc = 0x14 ∨ opc = 0x33 ∨ opc = 0x3A then (w0.extractLsb' 12 6).setWidth 8 else 0 }

/-- The fields of an extended form (R69). -/
def extArgs (form : Form) (w0 w1 w2 : IWord) (lit : Word) : Option Args :=
  match EType.ofCode (w2.extractLsb' 0 4), Rnd.ofCode (w2.extractLsb' 4 3) with
  | some ty, some rnd => some
    { form, scope := Scope.ofCode (w0.extractLsb' 3 2), fin := w0.getLsbD 2,
      kd := Kind.ofCode (w0.extractLsb' 12 2), ka := Kind.ofCode (w0.extractLsb' 14 2),
      kb := Kind.ofCode (w0.extractLsb' 16 2), kc := Kind.ofCode (w0.extractLsb' 18 2),
      d := w1.extractLsb' 0 8, a := w1.extractLsb' 8 8, b := w1.extractLsb' 16 8, c := w1.extractLsb' 24 8,
      imm := w0.extractLsb' 20 12, lit, sub := w2.extractLsb' 28 4, func := w2.extractLsb' 20 8,
      cp := w2.extractLsb' 18 2, ec := w2.extractLsb' 16 2, pn := w2.getLsbD 15, p := w2.extractLsb' 12 3,
      xp := w2.getLsbD 11, abs := w2.getLsbD 10, nb := w2.getLsbD 9, na := w2.getLsbD 8, sat := w2.getLsbD 7,
      rnd, ty }
  | _, _ => none

/-- The base format of a major opcode (R65). -/
def baseFmtOf (opc : Nat) : BaseFmt :=
  if opc = 0x0F ∨ opc = 0x23 ∨ opc = 0x25 then .bi
  else if opc = 0x00 ∨ opc = 0x05 ∨ opc = 0x0E then .b3
  else if opc < 0x10 then .bj
  else if opc < 0x50 then .b3 else .none

/-- The FUNC of an instruction by name and form is legal, and so is every other field: the instruction. -/
def select (opc : Nat) (a : Args) : Except DecodeError Instr :=
  match opOf opc a.func.toNat with
  | none => .error .illegalField
  | some o => if legal o a then .ok (Instr.ofOp o a) else .error .illegalField

/-- Steps 2 and 3 of Table 3.8 on the words of an instruction. A reserved opcode is the row RESERVED_OPCODE (R76)
(DEDUCED, notes/assumptions/40). -/
def decodeWords : List IWord → Except DecodeError Instr
  | [] => .error .short
  | w0 :: rest =>
    let opc := (opcField w0).toNat
    let form := Form.ofCode (w0.extractLsb' 0 2)
    if reservedOpc opc then .ok (.reservedOpcode w0)
    else match form, rest with
    | .base, _ =>
      if opc < 0x50 then select opc (baseArgs (baseFmtOf opc) opc .base w0 0) else .error .illegalLen
    | .baseLit, l :: _ =>
      if opc < 0x50 then select opc (baseArgs (baseFmtOf opc) opc .baseLit w0 l) else .error .illegalLen
    | .ext, w1 :: w2 :: _ =>
      match extArgs .ext w0 w1 w2 0 with
      | some a => select opc a
      | none => .error .illegalField
    | .extLit, w1 :: w2 :: l0 :: l1 :: _ =>
      match extArgs .extLit w0 w1 w2 (l1 ++ l0) with
      | some a => select opc a
      | none => .error .illegalField
    | _, _ => .error .short

/-- The instruction that words name by opcode and FUNC, with its four register fields, whatever else of Table 3.8 they fail:
what decides whether a late trap is due at it (R346). Words that LEN does not give or that could not be fetched, and a FUNC
that names nothing, count as zero (DEDUCED, notes/assumptions/22). -/
def namedBy : List IWord → Option (Op × Args)
  | [] => none
  | w0 :: rest =>
    let opc := (opcField w0).toNat
    let form := Form.ofCode (w0.extractLsb' 0 2)
    if form.len < 3 ∧ opc < 0x50 then (opOf opc 0).map fun o => (o, baseArgs (baseFmtOf opc) opc form w0 0)
    else
      let w1 := rest.getD 0 0
      let func : BitVec 8 := (rest.getD 1 0).extractLsb' 20 8
      ((opOf opc func.toNat).orElse fun _ => opOf opc 0).map fun o =>
        (o, { form, func, scope := Scope.ofCode (w0.extractLsb' 3 2), d := w1.extractLsb' 0 8, a := w1.extractLsb' 8 8,
              b := w1.extractLsb' 16 8, c := w1.extractLsb' 24 8 })

/-- Words of the instruction whose word 0 is `w0` (R61). -/
def lengthOf (w0 : IWord) : Nat := (Form.ofCode (w0.extractLsb' 0 2)).len

/-- Little-endian words of a byte list (R1, R61); bytes short of a whole word are dropped. -/
def wordsOf : List Byte → List IWord
  | b0 :: b1 :: b2 :: b3 :: rest => (b3 ++ b2 ++ b1 ++ b0) :: wordsOf rest
  | _ => []

/-- The decoder, total on any bytes. -/
def decode (bs : List Byte) : Except DecodeError Instr := decodeWords (wordsOf bs)

/-! ## The encoder -/

/-- The header of word 0 (R61). -/
def header (opc : Nat) (a : Args) : BitVec 12 :=
  BitVec.ofNat 7 opc ++ a.scope.code ++ BitVec.ofBool a.fin ++ a.form.code

/-- Word 0 of a base form (R64). -/
def baseWord (fmt : BaseFmt) (opc : Nat) (a : Args) : IWord :=
  match fmt with
  | .bj => a.off ++ a.p ++ header opc a
  | .bi => a.imm.setWidth 8 ++ a.a.setWidth 6 ++ a.d.setWidth 6 ++ header opc a
  | _ => a.p.setWidth 2 ++ a.b.setWidth 6 ++ a.a.setWidth 6 ++ a.d.setWidth 6 ++ header opc a

/-- Word 0 of an extended form (R69). -/
def extWord0 (opc : Nat) (a : Args) : IWord :=
  a.imm ++ a.kc.code ++ a.kb.code ++ a.ka.code ++ a.kd.code ++ header opc a

/-- Word 1 of an extended form (R69). -/
def extWord1 (a : Args) : IWord := a.c ++ a.b ++ a.a ++ a.d

/-- Word 2 of an extended form (R69). -/
def extWord2 (a : Args) : IWord :=
  a.sub ++ a.func ++ a.cp ++ a.ec ++ BitVec.ofBool a.pn ++ a.p ++ BitVec.ofBool a.xp ++ BitVec.ofBool a.abs ++
  BitVec.ofBool a.nb ++ BitVec.ofBool a.na ++ BitVec.ofBool a.sat ++ a.rnd.code ++ a.ty.code

/-- The words of a program instruction. -/
def encodeArgs (opc : Nat) (a : Args) : List IWord :=
  match a.form with
  | .base => [baseWord (baseFmtOf opc) opc a]
  | .baseLit => [baseWord (baseFmtOf opc) opc a, a.lit.setWidth 32]
  | .ext => [extWord0 opc a, extWord1 a, extWord2 a]
  | .extLit => [extWord0 opc a, extWord1 a, extWord2 a, a.lit.setWidth 32, a.lit.extractLsb' 32 32]

/-- The words of an instruction; none for a device event. -/
def encode (i : Instr) : List IWord :=
  match i.op? with
  | some (o, a) => encodeArgs (rowOf o a.func.toNat).opc a
  | none => match i with
    | .reservedOpcode w => [w]
    | _ => []

/-- The bytes of a word in memory order (R1, R61). -/
def bytesOfWord (w : IWord) : List Byte :=
  [w.extractLsb' 0 8, w.extractLsb' 8 8, w.extractLsb' 16 8, w.extractLsb' 24 8]

/-- The bytes of an instruction in memory order. -/
def encodeBytes (i : Instr) : List Byte := (encode i).flatMap bytesOfWord

/-- The five words of an instruction that a table number `w` of `nbits` bits gives (the host's numbering: bit 0 of the
first word is bit 0; bits at and above `nbits` are zero). -/
def tableWords (nbits w : Nat) : List IWord :=
  let v := w % 2 ^ nbits
  (List.range 5).map fun k => BitVec.ofNat 32 (v >>> (32 * k))

/-- The instruction the decoder reads from such a word. -/
def decodeTableWord (nbits w : Nat) : Option Instr :=
  match decode ((tableWords nbits w).flatMap bytesOfWord) with
  | .ok i => some i
  | .error _ => none

end Sys2Proof
end

