-- ==== Sys2Proof/Machine/Map.lean ====
section
/-! DEFINITION. Finite maps from numbers as plain data: lists of (key, value) pairs in one canonical form (keys strictly
rising, no entry equal to the value of an unlisted key), so that equal maps are equal lists. -/

namespace Sys2Proof.Machine

/-- A map from numbers, as a list of pairs. -/
abbrev SMap (α : Type) := List (Nat × α)

variable {α : Type}

/-- The value at a key; `d` where the key is not listed. -/
def mget (d : α) : SMap α → Nat → α
  | [], _ => d
  | (k', x) :: m, k => if k = k' then x else mget d m k

/-- The value at a key, if listed. -/
def mfind : SMap α → Nat → Option α
  | [], _ => none
  | (k', x) :: m, k => if k = k' then some x else mfind m k

/-- Removes a key. -/
def mdel (m : SMap α) (k : Nat) : SMap α := m.filter fun e => e.1 != k

/-- Enters a value at its place in the order of keys. -/
def mins : SMap α → Nat → α → SMap α
  | [], k, x => [(k, x)]
  | (k', y) :: m, k, x =>
    if k < k' then (k, x) :: (k', y) :: m
    else if k = k' then (k, x) :: m
    else (k', y) :: mins m k x

/-- Sets the value at a key, in canonical form with respect to the value `d` of unlisted keys. -/
def mset [DecidableEq α] (d : α) (m : SMap α) (k : Nat) (x : α) : SMap α :=
  if x = d then mdel m k else mins m k x

/-- Keys strictly rising. -/
def msorted : SMap α → Bool
  | [] => true
  | (k, _) :: m => m.all (fun e => k < e.1) && msorted m

/-- The canonical form: keys strictly rising, and no entry equal to what an unlisted key reads as. -/
def mwf [DecidableEq α] (d : α) (m : SMap α) : Bool := msorted m && m.all fun e => e.2 ≠ d

/-- Applies a function to the value at a listed key. -/
def mmod (m : SMap α) (k : Nat) (f : α → α) : SMap α :=
  match mfind m k with
  | none => m
  | some x => mins m k (f x)

/-- Sets consecutive keys from a list of values. -/
def msetRange [DecidableEq α] (d : α) (m : SMap α) (k : Nat) : List α → SMap α
  | [] => m
  | x :: xs => msetRange d (mset d m k x) (k + 1) xs

/-- Inserts by a key in rising order, after equal keys. -/
def insertBy (key : α → Nat) (x : α) : List α → List α
  | [] => [x]
  | y :: ys => if key x < key y then x :: y :: ys else y :: insertBy key x ys

/-- A list in rising order of a key; equal keys keep their order. -/
def sortBy (key : α → Nat) (xs : List α) : List α := xs.foldl (fun acc x => insertBy key x acc) []

/-- Removes every key of a range. -/
def mdelRange (m : SMap α) (lo hi : Nat) : SMap α := m.filter fun e => !(lo ≤ e.1 && e.1 < hi)

end Sys2Proof.Machine
end

