-- ==== Sys2Proof/Machine/State.lean ====
section
/-! DEFINITION. The state of the device: everything the spec gives the machine (INVENTORY.md, State), as plain data, and
the state after reset. -/

namespace Sys2Proof.Machine

/-- Why the machine could stop with a fault. Every trap of Table 20.1 is a NEXT state (R339 to R351), so no meaning
raises a fault. -/
inductive Fault where
  /-- Kept for a unit to which the spec gives no behaviour at all; no meaning raises it, so it is safe. -/
  | unitUndefined
  deriving DecidableEq, Repr

/-- Why the machine could refuse an instruction. -/
inductive Refusal where
  /-- Raised by an arm of `exec` whose instruction has no meaning yet; safe, since nothing follows from a refusal. -/
  | notModelled (mnemonic : String)
  deriving DecidableEq, Repr

/-! ## Warps -/

/-- Token kinds (R36, Table 2.2). -/
inductive TokKind where
  | ifTok | loopTok | callTok
  deriving DecidableEq, Repr

/-- A reconvergence token (Table 2.2). -/
structure Token where
  kind  : TokKind
  join  : Word
  aux   : Word
  saved : Mask
  pend  : Mask
  brk   : Mask
  cont  : Mask
  deriving DecidableEq, Repr

/-- The points at which a late trap is taken (R398): those for stores, or those for the array. -/
inductive LatePt where
  | store | array
  deriving DecidableEq, Repr

/-- A recorded late trap (R398). -/
structure LateTrap where
  code   : Nat
  detail : Nat
  addr   : Word
  pt     : LatePt
  deriving DecidableEq, Repr

/-- Memory scopes (R185, R274). -/
inductive MScope where
  | blk | die | dev | sys
  deriving DecidableEq, Repr

/-- Where a counter's home lies: a location of this device, the remote addresses of an access that loops back to this
device, or another device or the host with the address there (R192, R156). -/
inductive CtrPlace where
  | home (l : Nat)
  | loop (vas : List Nat)
  | far (partner va at_ : Nat)       -- and TIMER when the access to it was sent (R381)
  deriving DecidableEq, Repr

/-- What an `EQ` reads once, when it issues: NSLOT, SLOTSZ and BASE of the control line (R201). -/
structure QSet where
  nslot  : Nat := 0
  slotsz : Nat := 0
  base   : Word := 0
  deriving DecidableEq, Repr

/-- Who makes a write: the warps whose floors rise, the releases after which they make it (R278), and whether it goes over
RMT to this device, so that only a release at sys covers it (R285). -/
structure Writer where
  ws   : List Nat := []
  rels : List Nat := []
  rmt  : Bool := false
  deriving DecidableEq, Repr

/-- Why a resident warp does not issue (R300): it waits at a rendezvous, in `CWAIT`, `SLEEP`, a barrier or an `EQ`,
or it follows the leader of an instruction that waits. The wait keeps its instruction and the place it watches. -/
inductive Park where
  | none
  | rendezvous (pc : Word)
  | sleep (wake : Nat) (a : Args)
  | cwait (deadline : Option Nat) (members : List (Nat × Mask)) (a : Args) (addr target : Word) (at_ : CtrPlace)
  | eqWait (members : List (Nat × Mask)) (o : Op) (a : Args) (sq n : Nat) (q : QSet)
  | bar (level id : Nat)
  | barAgain (level id : Nat)        -- its unit has arrived in the open generation already: it issues again after it (R188)
  | follow (leader : Nat)
  deriving DecidableEq, Repr, Inhabited

/-- A poison mark of a register (R368): the address and DETAIL bits 7 to 0 that its trap reports. -/
structure Mark where
  addr   : Word
  detail : Nat
  code   : Nat := 0x14               -- poison consumed, or a late fault of RMT or HST (R174)
  deriving DecidableEq, Repr

/-- A register awaiting a result: vector, scalar or block-shared (R49). -/
inductive BusyReg where
  | v (n : Nat)
  | s (n : Nat)
  | q (n : Nat)
  deriving DecidableEq, Repr

/-- A batch of copies, or the batch of an `NB` or a `JIG.ARM` (R178, R253, R261). `ops` names the operations not yet
complete; `err` the first failure (R182) as cause code, DETAIL and address; `value` what completion writes, and
`written` that it has been written. -/
structure Batch where
  reg    : Nat
  seq    : Nat := 0
  sealed : Bool := false
  ops    : List Nat := []
  err    : Option (Nat × Nat × Word) := none
  value  : Option Word := none
  written : Bool := false
  mark   : Option Mark := none
  flags  : Nat := 0
  floors : SMap Nat := []
  rmtFl  : SMap Nat := []            -- positions of its writes over RMT to this device (R285)
  deriving DecidableEq, Repr

/-- The state of a stored form beside its bytes, of a DRAM column, a vault unit, a UBS word, a cached sector, a tile word or a
remap entry (R168, R366, R367, R374) (DESIGN CHOICE, notes/assumptions/36). -/
inductive ColSt where
  | clean
  | single (inj : Bool)
  | unc (inj : Bool)
  | poison
  deriving DecidableEq, Repr, Inhabited

/-- A warp: its registers, masks, tokens, special registers and what it awaits. -/
structure Warp where
  ctx        : Nat := 0
  blk        : Nat := 0
  wid        : Nat := 0
  slot       : Nat := 0
  nregs      : Nat := 8
  pc         : Word := 0
  exec       : Mask := BitVec.allOnes 32
  live       : Mask := BitVec.allOnes 32
  v          : SMap Word := []       -- key 32 × register + lane
  s          : SMap Word := []
  p          : SMap Mask := []       -- p1 to p7; p0 is hard-wired (R52)
  toks       : List Token := []      -- top first
  spilled    : Nat := 0
  fpmode     : Word := 0
  lossScale  : Word := 0
  ovf        : Word := 0
  ashape     : Word := 0xCF
  ssp        : Word := 0
  cause      : Word := 0
  epc        : Word := 0
  badaddr    : Word := 0
  inHandler  : Bool := false
  hstart     : Nat := 0              -- die clock at trap entry: hclock counts from it (R344)
  savedExec  : Mask := 0
  savedToks  : List Token := []
  savedSpill : Nat := 0
  late       : Option LateTrap := none
  tokenErr   : SMap (Nat × Nat × Word) := []  -- scalar registers whose token has ERR to report (R182)
  park       : Park := .none
  retired    : Bool := false
  stopped    : Bool := false         -- a fatal trap stopped it (R350)
  deadline   : Option Nat := none    -- absolute deadline kept across a save (R126, R196)
  unmapAt    : Option Nat := none    -- TIMER when the `TLBI` that unmapped the line of its `CWAIT` completed (R378)
  met        : Option Word := none   -- the `BAR.MEET` at which it had arrived and waited when it was saved (R190)
  locBase    : Word := 0
  locSize    : Nat := 0
  nextSeq    : Nat := 1
  batches    : List Batch := []
  ldCnt      : Nat := 0
  stCnt      : Nat := 0
  tileCnt    : Nat := 0
  bankCnt    : Nat := 0
  tileSeq    : Nat := 0              -- tile operations issued (R288)
  tileDone   : List (Nat × SMap Nat) := []  -- completed `TST` by number, with the positions of their writes (R288)
  busy       : List BusyReg := []
  vMark      : SMap (Option Mark) := []    -- key 32 × register + lane
  sMark      : SMap (Option Mark) := []
  pMark      : SMap (Option Mark) := []
  words      : SMap ColSt := []      -- stored forms of its register words in the UBS (R366), by their offset in its window / 8
  floors     : SMap Nat := []        -- by location: position in its coherence order (R276)
  rmtFl      : SMap Nat := []        -- floors of its own writes over RMT to this device, which only sys covers (R285)
  seen       : List Nat := []        -- releases observed by reads, for a later acquire (R278)
  rels       : List Nat := []        -- releases made
  fetchFloor : Nat := 0              -- position at the LAUNCH that refilled the instruction buffers (R63)
  age        : Nat := 0
  yielded    : Bool := false
  runCnt     : Nat := 0              -- instructions issued in the open run; 0 where no run is open (R45)
  missed     : Bool := false         -- its instruction met a TLB miss, with which the run ends (R159)
  waitFrom   : Option Nat := none    -- clock since which a wait that R349 counts goes on
  waited     : Nat := 0              -- clocks that R349 has counted before it
  due        : SMap Nat := []        -- by register: the clock at which its fixed-latency result can be used (R46, R49)
  next       : Nat := 0              -- the clock from which it may issue after a control instruction (spec/17 R331)
  deriving DecidableEq, Repr, Inhabited

/-! ## Blocks, stages, contexts -/

/-- A hardware barrier (R186). -/
structure Bar where
  mem  : Nat := 0
  arr  : Nat := 0
  gen  : Nat := 0
  rels : List Nat := []              -- releases of the arrivals of the open generation (R278)
  past : SMap (List Nat) := []       -- by unit: releases of the generation of its last arrival, once complete
  deriving DecidableEq, Repr

/-- An open rendezvous (R30): the instruction and its address, the members of the set or block as warp ids, the
arrivals with the EXEC each brought, the clock of the first arrival, and the clocks of its pause (R348). -/
structure Rdv where
  pc      : Word
  lo      : Nat
  hi      : Nat
  instr   : Instr
  arrived : List (Nat × Mask)
  first   : Nat
  paused  : Nat := 0
  stop    : Option Nat := none       -- the clock since which it is paused
  deriving DecidableEq, Repr

/-- A block-shared register as it was before the writes of one clock: its value and mark, the warps that have written it
in that clock, and the highest-numbered of those that issued the writes (R55). -/
structure QWas where
  reg  : Nat
  val  : Word
  mark : Option Mark
  by_  : List Nat := []
  top  : Nat := 0
  deriving DecidableEq, Repr

/-- A register held per context or per core, or a shape record, as it was before the writes of one clock (R121, R213). -/
structure Was (α : Type) where
  at_ : Nat
  val : α
  deriving DecidableEq, Repr

/-- A resident block. -/
structure Block where
  ctx     : Nat := 0
  lnum    : Nat := 0                 -- launch number of its stage
  stage   : Nat := 0
  cluster : Nat := 0
  bid     : Nat := 0
  core    : Nat := 0
  nwarps  : Nat := 1
  setw    : Nat := 0
  nregs   : Nat := 8
  wins    : List Nat := []           -- UBS base of each warp's window (R58)
  scrBase : Nat := 0
  scrKb   : Nat := 0
  ntiles  : Nat := 0
  nrec    : Nat := 0
  tmap    : List Nat := []           -- the core's tiles that stand for t0, t1, … (R293)
  rmap    : List Nat := []           -- the core's records that stand for d0, d1, …
  array   : Bool := false
  q       : SMap Word := []
  qMark   : SMap (Option Mark) := []
  qWords  : SMap ColSt := []         -- stored forms of its block-shared registers (R366)
  qAt     : Nat := 0                 -- the clock of the writes in `qWas` (R55)
  qWas    : List QWas := []
  bars    : List Bar := []           -- block barriers 0 to 15
  rdvs    : List Rdv := []
  deriving DecidableEq, Repr, Inhabited

/-- A launch record's fields (Table 13.1). -/
structure LaunchRec where
  entry   : Word := 0
  truss   : Word := 0
  stage   : Nat := 0
  setw    : Nat := 0
  warps   : Nat := 1
  blocks  : Nat := 1
  clusters : Nat := 1
  gridbar : Bool := false
  array   : Bool := false
  trig    : Bool := false
  prio    : Nat := 0
  wdog    : Nat := 20
  ntiles  : Nat := 0
  nrec    : Nat := 0
  nregs   : Nat := 8
  scrKb   : Nat := 0
  arglen  : Nat := 0
  locSize : Nat := 0
  locBase : Word := 0
  fpmode  : Word := 0
  lossScale : Word := 0
  cbmask  : Word := 0
  bmask   : List Nat := []           -- masks of block barriers 1 to 15; empty for every warp
  args    : List Byte := []
  done    : Word := 0
  deriving DecidableEq, Repr

/-- A queue entry of a truss record (R295). -/
structure QueueEnt where
  ctrl  : Word := 0
  trigK : Nat := 1
  cons  : Nat := 0
  prod  : Nat := 0
  deriving DecidableEq, Repr

/-- An accepted stage. -/
structure Stage where
  lnum     : Nat := 0
  lrec     : LaunchRec := {}
  queues   : List QueueEnt := []
  seqAt    : Nat := 0                -- coherence position at acceptance (R63)
  appended : Nat := 0                -- clusters appended (R298)
  placed   : Nat := 0
  retired  : Nat := 0                -- blocks retired
  trigBase : Nat := 0
  trigQ    : Nat := 0
  grid     : List Bar := []          -- grid barriers 0 to 3
  cbars    : SMap (List Bar) := []   -- cluster barriers by CLUSTERID
  done     : Bool := false
  doneView : SMap Nat := []          -- what the releases of its retired warps cover (R299)
  deriving DecidableEq, Repr

/-- A journalled step (R269 to R272). -/
structure Journal where
  n       : Nat := 0
  isOpen  : Bool := false
  aborted : Bool := false            -- closed by hardware (code 0x04)
  rows    : SMap (List Byte × List Nat) := []  -- copies by row start, with the units that were poisoned
  owed    : SMap (List Byte × List Nat) := []  -- copies that an aborted step still has to restore on an offline die (R384)
  ops     : List Nat := []           -- journalled operations in flight
  closing : Option (Nat × Nat × Bool) := none  -- warp, D register, ABORT
  deriving DecidableEq, Repr, Inhabited

/-- An entry of a context's firmware event log. -/
inductive FwEvent where
  | submissionFault (addr : Word)
  | doneDropped (addr : Word)
  | pinBroken (addr : Word)
  | dumpLost
  | fatalTrap (cause : Word)
  deriving DecidableEq, Repr

/-- A context that took a fatal trap and comes to rest (R350): the warp that took the first one, the clock, what the dump
header records of it (R353), and the cores that the dump leaves out (R385). -/
structure Dying where
  w       : Nat
  clock   : Nat
  timer   : Nat
  cause   : Word
  epc     : Word
  badaddr : Word
  core    : Nat
  slot    : Nat
  gone    : List Nat := []
  deriving DecidableEq, Repr

/-- The bytes that a context's accesses have moved beyond its cores, by row of Table 14.2: at L2 home slices, over UCIe links,
to other cores' vaults, as data under IL parity, and over Girt (R313). -/
structure Moved where
  l2    : Nat := 0
  links : Nat := 0
  vault : Nat := 0
  il    : Nat := 0
  girt  : Nat := 0
  deriving DecidableEq, Repr

/-- A context (R322) and its run-time state. -/
structure Ctx where
  crec     : CtxRec := {}
  ebRate   : Nat := 0
  ebCap    : Nat := 0
  ebWas    : Option (Was (Nat × Nat)) := none  -- RATE and CAP before the writes of one clock (R121)
  dumpBase : Word := 0
  dumpWas  : Option (Was Word) := none
  frozen   : Bool := false
  freezing : Bool := false           -- a FREEZE waits for its warps and engines (R124, R352)
  dead     : Bool := false           -- took a fatal trap (R351)
  dying    : Option Dying := none    -- it has not yet come to rest (R350)
  saved    : Bool := false           -- its state is in an image and not resident (R303)
  lnum     : Nat := 0                -- accepted launches
  stages   : List Stage := []
  queue    : List (Nat × Nat × Nat) := []  -- placement queue: launch number, CLUSTERID, ns when queued
  headAt   : Nat := 0                -- ns since when the head waits
  dispN    : Nat := 0                -- the dispatcher's next entry (R296)
  dispStop : Bool := false
  dispFl   : SMap Nat := []          -- the dispatcher's floors, as a party (R296)
  dispSeen : List Nat := []          -- the releases that it has observed
  log      : List FwEvent := []
  jrn      : Journal := {}
  fineFj   : Nat := 0                -- energy in femtojoules (R313)
  movedWas : Moved := {}             -- traffic that the last update of ENERGY has charged (R313)
  energy   : Nat := 0                -- ENERGY in mJ
  dumpStat : Option Nat := none      -- STATUS of the tenant dump (R365)
  dumpHead : List Byte := []         -- bytes 0 to 127 of the tenant dump's header
  deriving DecidableEq, Repr, Inhabited

/-! ## Cores -/

/-- Tile tags (R233). -/
inductive Tag where
  | neutral | spatial | spectral (b : Nat)
  deriving DecidableEq, Repr

/-- A binary8 format (R85). -/
structure B8Fmt where
  prec : Nat := 1
  sgn  : Bool := false
  ext  : Bool := false
  deriving DecidableEq, Repr

/-- An element format with its binary8 slot resolved (R90). -/
inductive FFmt where
  | f32 | f16 | bf16
  | b8 (f : B8Fmt)
  deriving DecidableEq, Repr, Inhabited

/-- A floating-point value. A finite value is ±mag × 2^e. A NaN keeps its sign, its fraction left-aligned in 23 bits,
whether it is signalling, whether its format is wide, and whether it is a poison pattern (R95, R96). -/
inductive FVal where
  | fin (neg : Bool) (mag : Nat) (e : Int)
  | inf (neg : Bool)
  | nan (neg : Bool) (frac : Nat) (snan wide poison : Bool)
  deriving DecidableEq, Repr

/-- The array's latched state (R208). -/
structure Latch where
  valid  : Bool := false
  fmt    : FFmt := .f16
  blk    : Nat := 24
  sparse : Nat := 0                  -- 0 dense, 12 or 6 of 24
  k      : Nat := 0
  n      : Nat := 0
  wts    : SMap Byte := []           -- 192 × column + cell row; of an `SMMA`, its image by offset (R242)
  scales : SMap Byte := []           -- 32 × column + block
  masks  : SMap Nat := []            -- 32 × column + group
  sums   : List (Nat × Nat × FVal) := []   -- checksum column: band, logical K element, exact sum over the columns (R355)
  deriving DecidableEq, Repr, Inhabited

/-- The commands of the array's command path (R215), with what each captured at issue. -/
inductive ArrCmd where
  | wld (x : Nat) (rcd : BitVec 128) (fmt : FFmt) (sparse : Nat)
  | mma (tile : Nat) (rcd : BitVec 128) (fmt : FFmt) (z xp : Bool)
  | smma (tile : Nat) (recA recC : BitVec 128) (x : Nat) (z : Bool)
  | tst (tile : Nat) (rcd : BitVec 128) (fmt : FFmt) (mode : Nat) (rnd : Rnd) (sat : Bool) (se : Int)
  | tld (tile : Nat) (rcd : BitVec 128) (fmt : FFmt)
  | tzero (tile n : Nat)
  deriving DecidableEq, Repr

/-- Where an array operation stands: in the command path, ready for admission since a step boundary, waiting for
fillers to ramp, or running. -/
inductive ArrPhase where
  | queued | ready (since : Nat) | ramping (since : Nat) | running (start : Nat)
  deriving DecidableEq, Repr

/-- An operation in array order. -/
structure ArrOp where
  cmd     : ArrCmd
  members : List Nat
  nums    : List Nat := []           -- the operation's number among each member's tile operations
  blk     : Nat
  ctx     : Nat
  fpmode  : Word := 0
  ashape  : Word := 0
  floors  : SMap Nat := []
  rels    : List Nat := []           -- the releases after which its members issued it (R278)
  phase   : ArrPhase := .queued
  ran     : Nat := 0                 -- clocks of its array busy time that a freeze has interrupted (R338)
  deriving DecidableEq, Repr

/-- Band states (Table 14.1). -/
inductive BandSt where
  | off
  | on
  | hold (since : Nat)
  | queued
  | waking (since : Nat)
  deriving DecidableEq, Repr

/-- A band of an array (R307, R358). -/
structure Band where
  st     : BandSt := .off
  failed : Bool := false
  deriving DecidableEq, Repr

/-- An `XFFT` in a transform pipe: when it was accepted, and the results it will write (R237, R239). -/
structure PipeOp where
  w     : Nat
  start : Nat
  d     : Nat
  res   : List (Nat × Word)          -- vector register lanes and their new values
  flags : Nat
  r     : Nat
  deriving DecidableEq, Repr

/-- A transform pipe (R239): the operations it holds, oldest first, the `XFFT` waiting for it, one per partition, and
the partition served last. -/
structure Pipe where
  ops  : List PipeOp := []
  wait : List (Nat × PipeOp) := []
  last : Nat := 3
  deriving DecidableEq, Repr

/-- A scheduler partition: the warp whose run it serves, and the clocks at which its issue ports (0 to 3 for V, S, M, X) and
its special function unit (4) are free again (R46, Table 2.4). -/
structure Part where
  run   : Option Nat := none
  ports : SMap Nat := []
  deriving DecidableEq, Repr

/-- An update-only line of `RED` in a core's L1 (R199): the element's place and width, its operation, and the values
combined so far. -/
structure ULine where
  line : Nat                         -- 128 B line
  func : Nat
  ty   : EType
  rnd  : Rnd
  sat  : Bool
  fp   : Word := 0                   -- FPMODE of the last contributor (R90)
  vals : SMap Word := []             -- by element location
  by_  : SMap (List Nat) := []       -- the warps that contributed, by element location
  deriving DecidableEq, Repr

/-- A core. -/
structure Core where
  halted   : Bool := false
  owner    : Option Nat := none      -- the context its resources are granted to
  l1sz     : Nat := 1
  traceCtl : Word := 3               -- bits other than HEAD
  traceWas : Option (Was Word) := none
  head     : Nat := 0
  ring     : SMap (Word × Word) := []
  traceAt  : Nat := 0
  tiles    : SMap (BitVec 32) := []  -- 16384 × tile + 256 × row + column
  tileErr  : SMap ColSt := []        -- stored forms of pairs of tile elements, by half the key (R366)
  tags     : SMap Tag := []
  recs     : SMap (BitVec 128) := []
  recWas   : SMap (Was (BitVec 128)) := []  -- records as they were before the writes of one clock (R213)
  latch    : Latch := {}
  arr      : List ArrOp := []        -- array order, oldest first
  arrFl    : SMap Nat := []          -- positions of the scratch writes of completed operations (R215)
  bands    : SMap Band := []
  pipes    : SMap Pipe := []
  parts    : SMap Part := []
  level    : Nat := 0                -- EBUDGET level (R305)
  levelWas : Option (Was Nat) := none  -- the level that instructions of the clock of an `SWR` of EBUDGET use (R121)
  softErr  : Nat := 0
  remaps   : List Nat := []          -- columns remapped to a spare (R356)
  uLines   : List ULine := []
  l1       : SMap (SMap Nat) := []   -- device-memory lines that its L1 may hold: by location, the oldest keep store to write back
  l1Err    : SMap ColSt := []        -- stored forms of 32 B sectors of its L1 (R366, R367)
  events   : SMap Nat := []          -- instructions by energy class that no energy update has taken (R313)
  luClocks : Nat := 0                -- LU-clocks of its array and fillers, likewise
  idleFrom : Nat := 0                -- TIMER from which its idle power has still to be charged (R313)
  deriving DecidableEq, Repr, Inhabited

/-! ## Dies, links, memory controllers -/

/-- The state of a die (R315, R383, R384): held in reset, online, or at a step of its warm reset, with the TIMER at its
quiesce. -/
inductive DieSt where
  | reset | online | saving
  | offline (since : Nat)
  | drained (since : Nat)
  | retrained (since : Nat)
  | lost
  deriving DecidableEq, Repr

/-- What the control block of a die reports to firmware of its storage (R366, R371, R377). -/
inductive EccReport where
  | uncorrectable (unit : Nat)       -- a column, vault unit or UBS word whose check found more than a single bit wrong
  | tablePoison (entry : Nat)        -- a table entry that a walk found poisoned
  | rowLost (bank row : Nat)         -- a row that a march could not remap
  | fenced (bank : Nat)              -- a bank whose remap entry was lost in both copies (R375, R376)
  deriving DecidableEq, Repr

/-- The corrected errors that a die control block has counted, by device core and by stack, and its reports (R366). -/
structure EccLog where
  byCore  : SMap Nat := []
  byStack : SMap Nat := []
  reports : List EccReport := []
  deriving DecidableEq, Repr

/-- A die control block. -/
structure Die where
  st       : DieSt := .reset
  fails    : Nat := 0                -- failed retrainings of this reset (R383)
  kept     : List (Nat × Bool) := [] -- contexts saved for its reset, and whether they had been frozen before (R384)
  wakes    : List (Nat × Nat × Nat) := []  -- in-rush queue: clock of arrival, core, band (R308)
  wakeFree : Nat := 0                -- clock at which the arbiter is free again
  fillers  : SMap Nat := []          -- filler load by core (R311)
  fell     : Nat := 0                -- LU by which its load has fallen in step `fellAt` (R311)
  fellAt   : Nat := 0
  slewAt   : Nat := 0                -- last step boundary taken
  boost    : Nat := 0                -- 25 MHz steps above 1.3 GHz (R312)
  wear     : Nat := 0
  wearAt   : Nat := 0                -- TIMER at the last tick or change of boost
  wearNs   : Nat := 0                -- ns above 1.3 GHz before it that no tick has counted
  ecc      : EccLog := {}
  deriving DecidableEq, Repr

/-- A Girt port (R15, R381, R382). -/
structure Port18 where
  up      : Bool := false
  partner : Option Nat := none       -- the fabric number of the device or adapter at the other end
  downAt  : Nat := 0                 -- TIMER when it was last taken down
  full    : Bool := true
  comp    : Bool := false
  fails   : Nat := 0
  flits   : SMap Nat := []           -- failures of a flit that is being sent again, by flit
  down    : Bool := false            -- down until the device is reset
  deriving DecidableEq, Repr

/-- A memory channel's frame words (R372 to R377). -/
structure Chan where
  inj   : Word := 0
  bes   : Word := 0
  ucnt  : Nat := 0
  fence : Word := 0
  march : Word := 0
  marchAt : Nat := 0
  spare : List (Nat × Nat × Nat) := []  -- spare bank in use: pseudo-channel, bank, rows copied
  lostSpare : List Nat := []         -- banks whose IL granules stay served by rebuild
  deriving DecidableEq, Repr

/-- A defined jig slot (R257, R259). -/
structure Jig where
  ety   : EType := .f32
  b8    : B8Fmt := {}
  sat   : Bool := false
  steps : List (Nat × Word) := []
  deriving DecidableEq, Repr

/-- A pass of a jig (R261 to R264). -/
structure Pass where
  id       : Nat
  seq      : Nat
  slot     : Nat
  jig      : Jig
  haste    : Bool
  counter  : Option Nat              -- location
  w        : Nat                     -- arming warp
  batch    : Nat                     -- its batch sequence number
  accepted : Option Nat := none      -- ns of acceptance
  swept    : List Nat := []
  skip     : Bool := false
  view     : SMap Nat := []          -- the snapshot of its completion (R290)
  deriving DecidableEq, Repr

/-- A region of a context (R261). -/
structure Region where
  ctx     : Nat
  start   : Word
  rows    : List Nat                 -- row starts as locations, in address order
  nextSeq : Nat := 1
  lastAcc : Nat := 0                 -- the last sequence number that the controller has accepted; 0 where it has no entry
  passes  : List Pass := []          -- oldest first
  deriving DecidableEq, Repr

/-- A write held at the kerf or for an offline die (R265, R383): its bytes, who writes them and, for the kerf, the passes
that hold it. -/
structure Held where
  id     : Nat                       -- the operation that wrote it, in program order
  wr     : Writer
  bytes  : List (Nat × Byte)
  addr   : Word
  passes : List (Nat × Nat)          -- the passes that hold it, with the row of each
  off    : Bool
  inc    : Option Nat := none        -- a `CSIG` increment at the first location
  red    : Option (Args × Word × Word) := none  -- a `RED` of one element: the instruction, FPMODE and operand
  by_    : List Nat := []            -- the passes that held it from the first (R290)
  deriving DecidableEq, Repr

/-- A completion signal of a stage that waits for the die of its counter (R299, R383): its context, the address and the
location of the counter, and the releases that it carries. -/
structure DoneSig where
  ctx  : Nat
  addr : Word
  loc  : Nat
  rels : List Nat
  deriving DecidableEq, Repr

/-- A release (R277): where its party is placed (Table 12.1), its scope, and its snapshot. -/
structure Rel where
  place : Nat                        -- the core; 160 in the device at no core; 161 outside the device
  scope : MScope
  view  : SMap Nat
  deriving DecidableEq, Repr

/-- A cached translation (R123, R157). -/
structure Tlb where
  ctx   : Nat
  host  : Bool
  vpage : Nat                        -- address divided by the page size
  size  : Nat
  entry : Word
  deriving DecidableEq, Repr

/-- A host source queue (R286). -/
structure HostQ where
  floors : SMap Nat := []
  seen   : List Nat := []
  view   : SMap Nat := []
  rels   : List Nat := []            -- releases made
  reply  : List Byte := []
  deriving DecidableEq, Repr

/-- A register lane and what completion writes into it. -/
structure RegVal where
  reg  : BusyReg
  lane : Nat
  val  : Word
  mark : Option Mark
  deriving DecidableEq, Repr

/-- One lane of an access in flight: the lane (32 for the one element of warp scope), its address and the locations. -/
structure LaneAcc where
  lane : Nat
  addr : Word
  locs : List Nat
  deriving DecidableEq, Repr

/-- Operations in flight that complete by an event. -/
inductive Pend where
  /-- An `LD` whose data has not returned (R171): `vals` are the lanes that read no memory of the device, `bound` the data
  already read (locations with position and byte), `bad` the units that gave poison, `post` the passes that hold it with
  the row of each, and `fl` floors of its own (R265). -/
  | load (w : Nat) (a : Args) (accs : List LaneAcc) (vals : List RegVal) (bound : List (Nat × Nat × Byte))
    (bad : List (Nat × Nat)) (post : List (Nat × Nat)) (fl : SMap Nat)
  /-- An access performed whose registers are not yet written: `ATOM`, `POPM`, `CREAD`, an `LD` of registers, another
  device or the host (R183, R194, R198). `cls` tells whether it counts as a load. -/
  | result (w : Nat) (vals : List RegVal) (flags : Nat) (cls : Bool)
  /-- A store-class operation not yet accepted or acknowledged, with a late fault to record (R174, R184). `far` says that
  it writes over RMT or HST, and `rel` holds the positions that a bypass store's own release covers (R166). -/
  | store (w : Nat) (far : Bool) (fault : Option (Nat × Nat × Word)) (rel : Option (SMap Nat))
  /-- A `CSIG` not yet performed at home (R194). -/
  | csig (w : Nat) (wr : Writer) (addr : Word) (loc : Nat) (inc : Nat)
  /-- A `CREAD` without an acquire whose counter is not yet read (R194). -/
  | cread (w : Nat) (addr : Word) (loc d : Nat)
  /-- A copy of a batch (R176), `red` for `CPYR`: its fields, and the destination, source and length of each part. -/
  | copy (w reg : Nat) (red : Bool) (a : Args) (ctx : Nat) (parts : List (Word × Word × Nat)) (floors : SMap Nat)
    (rels : List Nat) (fpmode : Word)
  /-- A near-bank operation (R252): its ranges by address and the locations of their 16 KiB parts. -/
  | nb (w batch : Nat) (func : Nat) (a : Args) (pa pb : Word) (ra rb : List Nat) (len : Nat) (alpha fpmode : Word)
    (floors : SMap Nat) (rels : List Nat)
  /-- A `JIG.ARM` not yet accepted (R261). -/
  | arm (w : Nat) (ctx : Nat) (start : Word) (pass : Nat)
  /-- A `JIG.DEF` not yet accepted by every channel (R259). -/
  | jigDef (w : Nat)
  deriving DecidableEq, Repr

/-- One lane of an access in flight over RMT or HST: the fabric number of its target, the lane, its address, and TIMER at
issue (R381); of a copy, lane 0 is a source and lane 1 a destination. -/
structure FarAcc where
  partner : Nat
  lane    : Nat
  addr    : Word
  at_     : Nat
  deriving DecidableEq, Repr

/-- A context's saved state beside its image in memory (R124, R303, R353): what `CTX.LOAD` restores where no section of the
image has a layout for it. The bytes of the image's CONTEXT section name it, and `num` its array save images; one that firmware
keeps for the reset of a die has no image, and no such bytes (DESIGN CHOICE, notes/assumptions/31). -/
structure Save where
  note    : List Byte
  num     : Nat
  ctx     : Nat
  cctx    : Ctx
  warps   : SMap Warp
  blocks  : SMap Block
  cores   : SMap Core
  scratch : List (Nat × List Byte)   -- bytes by first UBS location
  deriving DecidableEq, Repr, Inhabited

/-- The boot of the device (R315, R317). -/
inductive Boot where
  | cold | recovery | running
  deriving DecidableEq, Repr

/-- SPDM connection state of a transport (R320). -/
structure Spdm where
  version : Bool := false
  slh     : Option Bool := none      -- negotiated: whether the asymmetric algorithm was selected
  reply   : List Byte := []
  count   : Nat := 0
  deriving DecidableEq, Repr

/-- The standby island (R16, R315 to R327). -/
structure Island where
  boot    : Boot := .cold
  flash   : List Byte := []
  mrs     : SMap (BitVec 256) := []
  sill    : Spdm := {}
  girt    : Spdm := {}
  resets  : List Nat := []           -- queued warm resets (R327)
  fw      : FwConfig := {}
  dump    : Option (List Byte) := none
  answer  : List Byte := []          -- the last answer of a management command
  deriving DecidableEq, Repr

/-- Memory and its ordering. `bytes` holds the newest write of every location (see `Machine/Mem.lean` for the places),
`newest` its coherence position, `older` the earlier writes that a floor may still admit. -/
structure Mem where
  bytes  : List Host.Cell := []
  seq    : Nat := 0
  newest : SMap Nat := []
  older  : SMap (List (Nat × Byte)) := []
  wrels  : SMap (List Nat) := []     -- releases after which a write was made, by position (R278)
  passed : SMap (SMap (List Nat)) := []  -- by position and location: releases that a read-modify-write passes on (R278)
  rels   : SMap Rel := []
  bank   : SMap Nat := []            -- by location: position of what memory beneath the caches surely holds (R249, R265)
  sweeps : SMap (List Nat) := []     -- by row: positions of the sweeps of jig passes, oldest first (R266)
  cols   : SMap ColSt := []          -- DRAM columns, vault units and UBS words, by start
  sectors : SMap ColSt := []         -- 32 B sectors of L2 lines, by location / 32 (R366, R367)
  wb     : SMap Nat := []            -- by location: position up to which its line has surely been written back (R249, R387)
  tables : SMap (ColSt × ColSt) := []  -- both copies of a row's remap entry, by bank key × 32768 + row (R375)
  tlb    : List Tlb := []
  moved  : SMap Moved := []          -- traffic by context (R313)
  deriving DecidableEq, Repr

/-- The stored form that a storage error meets (R168, R366, R375): a DRAM column, vault unit or UBS word by its key; a register
word of a warp, or a register of a block; a pair of tile elements of a core; a 32 B sector that an L1 or an L2 slice holds; one
of the two copies of a row's remap entry. -/
inductive Upset where
  | stored (key : Nat)
  | word (w k : Nat)
  | blockReg (b n : Nat)
  | tile (core key : Nat)
  | l1 (core sector : Nat)
  | l2 (sector : Nat)
  | remap (row : Nat) (second : Bool)
  deriving DecidableEq, Repr

/-- What a step takes up: a warp's next instruction in the next clock, one that issues in the same clock as the instruction
before, a device event, the passing of time, or a storage error, uncorrectable or of a single bit, which no row of the opcode
table stands for (DESIGN CHOICE, notes/assumptions/36). -/
inductive Act where
  | issue (w : Nat)
  | also (w : Nat)
  | event (i : Instr)
  | elapse (clk ns : Nat)
  | upset (u : Upset) (unc : Bool)
  deriving DecidableEq, Repr

/-- What issued last in the present clock: the core and the scheduler partition (R46). -/
structure Joint where
  core  : Nat
  part  : Nat
  deriving DecidableEq, Repr

/-- The device. -/
structure State where
  agenda  : List Act                 -- what the next steps take up; the model's own field
  turn    : Nat                      -- turns of the default schedule; the model's own field
  cur     : Nat                      -- the warp whose instruction is executed; the model's own field
  joint   : Option Joint             -- what an instruction of the same clock comes after; the model's own field
  clock   : Nat                      -- die clocks since power-on
  timer   : Nat                      -- TIMER (R314)
  nextId  : Nat                      -- names for blocks, operations and releases; the model's own field
  free    : Nat                      -- counter of free values used; the model's own field
  mem     : Mem
  ctxs    : SMap Ctx
  blocks  : SMap Block
  warps   : SMap Warp                -- key 32 × block + WARPID
  cores   : SMap Core
  dies    : SMap Die
  links   : SMap Bool                -- UCIe links that are down (R380)
  ports   : SMap Port18
  chans   : SMap Chan                -- 32 × stack + channel
  jigs    : SMap (Option Jig)        -- slots 0 to 15 (R259)
  regions : List Region
  held    : List Held
  dones   : List DoneSig
  pend    : SMap Pend
  far     : SMap (List FarAcc)       -- by operation in flight: its accesses over RMT and HST (R381)
  hostQs  : SMap HostQ
  bound   : SMap Nat                 -- remote (device, context) pairs and the local context they are bound to (R156)
  saves   : List Save                -- context images in memory (R353)
  sysFj   : Nat                      -- the system account (R313)
  budgetAt : Nat                     -- TIMER of the last budget refill (R306)
  energyAt : Nat                     -- TIMER of the last ENERGY update (R313)
  island  : Island
  remapped : List (Nat × Nat × Nat)  -- rows sent to spare rows: bank key, row, spare row (R375, R377)
  badSpares : List (Nat × Nat)       -- spare rows that a march has found failing: bank key, spare row
  deriving DecidableEq, Repr

/-- The device at cold power-on: TIMER 0, every die held in reset, measurement registers zero, memory with nothing
listed, no context, and the boot still to run (R315, R318; DESIGN CHOICE, notes/assumptions/1, 2). -/
def State.reset : State where
  agenda := []
  turn := 0
  cur := 0
  joint := none
  clock := 0
  timer := 0
  nextId := 1
  free := 0
  mem := {}
  ctxs := []
  blocks := []
  warps := []
  cores := []
  dies := []
  links := []
  ports := []
  chans := []
  jigs := []
  regions := []
  held := []
  dones := []
  pend := []
  far := []
  hostQs := []
  bound := []
  saves := []
  sysFj := 0
  budgetAt := 0
  energyAt := 0
  island := {}
  remapped := []
  badSpares := []

end Sys2Proof.Machine
end

