-- ==== Sys2Proof/Machine/Mem.lean ====
section
/-! DEFINITION. Memory as locations (spec/12 R273): the places of device memory, vaults and the UBS, the byte at a
location, its coherence order, floors, releases and acquires (R275 to R279). -/

namespace Sys2Proof.Machine

/-! ## Places -/

/-- The location of byte `o` of vault `v` (R12, R153). -/
def vaultLoc (v o : Nat) : Nat := 2 ^ 40 + v * 2 ^ 26 + o

/-- The location of byte `a` of core `c`'s UBS (R164). -/
def ubsLoc (c a : Nat) : Nat := 2 ^ 50 + c * 2 ^ 22 + a

/-- Whether a location is device memory: its number is the device-physical address (R160). -/
def isDram (l : Nat) : Bool := l < 2 ^ 39

/-- The die of a location's home (R163, R11). -/
def homeDie (l : Nat) : Nat :=
  if l < 2 ^ 39 then l / 2 ^ 37
  else if l < 2 ^ 50 then (l - 2 ^ 40) / 2 ^ 26 / 40
  else (l - 2 ^ 50) / 2 ^ 22 / 40

/-! ## Bytes -/

/-- What a location that no write has touched reads as (DESIGN CHOICE, notes/assumptions/2). -/
def blankByte : Byte := 0

/-- The byte at a location: the newest write. -/
def Mem.byte (m : Mem) (l : Nat) : Byte := mget blankByte m.bytes l

/-- Memory's canonical form: addresses strictly rising, no entry equal to what an unlisted address reads as. -/
def Mem.wf (m : Mem) : Bool := mwf blankByte m.bytes

/-- The bytes of a value, lowest first (R1). -/
def bytesOf (n : Nat) (x : Word) : List Byte := (List.range n).map fun i => x.extractLsb' (8 * i) 8

/-- The value of bytes, lowest first (R1). -/
def ofBytes (bs : List Byte) : Word := bs.foldr (fun b acc => (acc <<< 8) ||| b.setWidth 64) 0

/-- The value of bytes as a number. -/
def natOfBytes (bs : List Byte) : Nat := bs.foldr (fun b acc => acc * 256 + b.toNat) 0

/-- The numbers from `a`, `n` of them. -/
def span (a n : Nat) : List Nat := (List.range n).map (a + ·)

/-- The newest bytes at consecutive locations. -/
def Mem.peek (m : Mem) (l n : Nat) : List Byte := (span l n).map m.byte

/-! ## Coherence order -/

/-- The position of the newest write to a location; 0 for the initial value (R275). -/
def Mem.pos (m : Mem) (l : Nat) : Nat := mget 0 m.newest l

/-- The writes to a location, newest first, as position and byte. -/
def Mem.versions (m : Mem) (l : Nat) : List (Nat × Byte) := (m.pos l, m.byte l) :: mget [] m.older l

/-- The newest write at or below a position; the oldest where there is none. -/
def atCut (cut : Nat) : List (Nat × Byte) → Nat × Byte
  | [] => (0, blankByte)
  | [v] => v
  | v :: vs => if v.1 ≤ cut then v else atCut cut vs

/-- Writes a byte as the newest write of its location, at a position. -/
def Mem.put (m : Mem) (pos : Nat) (l : Nat) (b : Byte) : Mem :=
  { m with
    bytes := mset blankByte m.bytes l b
    newest := mset 0 m.newest l pos
    older := mset [] m.older l (m.versions l) }

/-- The releases that the write at a position of a location carries: those after which it was made, and, of a
read-modify-write, those of the write there that it read (R278). -/
def Mem.carried (m : Mem) (l pos : Nat) : List Nat :=
  (mget [] m.wrels pos ++ mget [] (mget [] m.passed pos) l).dedup

/-- Writes the bytes of one indivisible piece: they take one position together, newer than every other (R275) (DESIGN CHOICE,
notes/assumptions/7). `rels` are the releases after which the writer made it, and `rmw` that it directly follows the writes
it read. -/
def Mem.putPiece (m : Mem) (rels : List Nat) (rmw : Bool) (bs : List (Nat × Byte)) : Mem :=
  let pos := m.seq + 1
  let on (l : Nat) : List Nat := m.carried l (m.pos l)
  let pass : SMap (List Nat) := if rmw then bs.foldl (fun x b => mset [] x b.1 (on b.1)) [] else []
  let m' := bs.foldl (fun m b => m.put pos b.1 b.2) m
  { m' with seq := pos, wrels := mset [] m'.wrels pos rels, passed := mset [] m'.passed pos pass }

/-! ## Indivisible pieces (R169) -/

/-- Whether the bytes of an access are exactly those of whole aligned 128 B lines, each once. -/
def wholeLine (ls : List Nat) : Bool :=
  !ls.isEmpty && ls.length % 128 == 0 && ls.length == 128 * (ls.map (· / 128)).dedup.length &&
    ls.dedup.length == ls.length

/-- The size of the pieces that are each indivisible: the line, or 8 B. -/
def pieceSize (ls : List Nat) : Nat := if wholeLine ls then 128 else 8

/-- Groups neighbours of a list by a key. -/
def groupRuns {α : Type} (key : α → Nat) : List α → List (Nat × List α)
  | [] => []
  | x :: xs =>
    match groupRuns key xs with
    | (k, g) :: rest => if k = key x then (k, x :: g) :: rest else (key x, [x]) :: (k, g) :: rest
    | [] => [(key x, [x])]

/-- Groups a list by a key, in the order of first appearance. -/
def groupBy {α : Type} (key : α → Nat) (xs : List α) : List (Nat × List α) :=
  ((xs.map key).dedup).map fun k => (k, xs.filter fun x => key x == k)

/-! ## Reads (R276) -/

/-- The highest floor among locations. -/
def maxFloor (fl : SMap Nat) (ls : List Nat) : Nat := ls.foldl (fun acc l => Nat.max acc (mget 0 fl l)) 0

/-- Reads a piece at one cut of the coherence order: location, position and byte. -/
def Mem.readPiece (m : Mem) (cut : Nat) (ls : List Nat) : List (Nat × Nat × Byte) :=
  ls.map fun l => (l, atCut cut (m.versions l))

/-- The cut at which a piece is read: the newest writes where no other write is at or above the floors, else a free
choice at or above them (DESIGN CHOICE, notes/assumptions/7). -/
def Mem.cutOf (m : Mem) (fl : SMap Nat) (free : Nat) (ls : List Nat) : Nat :=
  let f := maxFloor fl ls
  if ls.all fun l => m.pos l ≤ f then f else Nat.max (Config.readCut free) f

/-- What the sweeps of a row leave to a read of locations of it: the pieces of one read see the same sweeps, so that each
reads at or after the position of the last one seen and before that of the next (R266). -/
def Mem.sweepWindow (m : Mem) (fl : SMap Nat) (free row : Nat) (ls : List Nat) : Nat × Option Nat :=
  match mget [] m.sweeps row with
  | [] => (0, none)
  | sw =>
    let c := m.cutOf fl free ls
    ((sw.filter (· ≤ c)).foldl Nat.max 0, sw.find? (c < ·))

/-- A cut brought within the window of a row's sweeps. -/
def inWindow (w : Nat × Option Nat) (c : Nat) : Nat := (w.2.map (· - 1)).elim (Nat.max c w.1) (Nat.min (Nat.max c w.1))

/-- Reads locations in pieces of n bytes under floors; `free` numbers the choices. Every lane that reads a location sees
the same write. -/
def Mem.readLocs (m : Mem) (fl : SMap Nat) (free n : Nat) (ls : List Nat) : List (Nat × Nat × Byte) :=
  let wins : SMap (Nat × Option Nat) :=
    if m.sweeps.isEmpty then []
    else (groupBy (· / 1024) ls).zipIdx.map fun g => (g.1.1, m.sweepWindow fl (free + ls.length + g.2) (1024 * g.1.1) g.1.2)
  let cuts := (groupBy (· / n) ls).zipIdx.map fun g =>
    (g.1.1, inWindow (mget (0, none) wins (g.1.1 * n / 1024)) (m.cutOf fl (free + g.2) g.1.2))
  ls.map fun l => (l, atCut (mget 0 cuts (l / n)) (m.versions l))

/-- Floors raised to positions. -/
def raiseTo (fl : SMap Nat) (ps : List (Nat × Nat)) : SMap Nat :=
  ps.foldl (fun fl p => mset 0 fl p.1 (Nat.max (mget 0 fl p.1) p.2)) fl

/-- The releases that the writes read carry. -/
def Mem.relsOf (m : Mem) (rs : List (Nat × Nat × Byte)) : List Nat :=
  (rs.flatMap fun r => m.carried r.1 r.2.1).dedup

/-! ## Releases and acquires -/

/-- Whether a scope covers two places (R274). -/
def covers (sc : MScope) (p q : Nat) : Bool :=
  match sc with
  | .blk => p == q && p < 160
  | .die => p < 160 && q < 160 && p / 40 == q / 40
  | .dev => p ≤ 160 && q ≤ 160
  | .sys => true

/-- The scope of a SUB code (Table 8.1). -/
def scopeOf (sub : Nat) : MScope :=
  match sub with
  | 0 => .blk | 1 => .die | 2 => .dev | _ => .sys

/-- Floors after an acquire at a scope by a party at `place` that has observed `seen` (R278, R279). -/
def Mem.acquired (m : Mem) (place : Nat) (sc : MScope) (seen : List Nat) (fl : SMap Nat) : SMap Nat :=
  seen.foldl (fun fl id =>
    match mfind m.rels id with
    | none => fl
    | some r => if covers sc r.place place && covers r.scope r.place place then raiseTo fl r.view else fl) fl

/-- Floors of several parties together: the highest of each (R276). -/
def joinFloors (fs : List (SMap Nat)) : SMap Nat := fs.foldl raiseTo []

end Sys2Proof.Machine
end

