-- ==== Sys2Proof/Machine/Ecc.lean ====
section
/-! DEFINITION. DRAM columns and their errors: the place of a device-physical address (spec/07 R160 to R162), what a
check finds (spec/21 R366 to R370), the error record (R373), injection (R374) and fenced banks (R376). -/

namespace Sys2Proof.Machine

/-- The place of a DRAM column. -/
structure Phys where
  stack : Nat
  ch    : Nat
  pc    : Nat
  bank  : Nat
  row   : Nat
  col   : Nat
  deriving DecidableEq, Repr

/-- The number of a column over the device, below 2^34. -/
def Phys.key (p : Phys) : Nat :=
  ((((p.stack * 32 + p.ch) * 2 + p.pc) * 32 + p.bank) * 32768 + p.row) * 32 + p.col

/-- The number of a channel over the device. -/
def Phys.chan (p : Phys) : Nat := p.stack * 32 + p.ch

/-- The number of a bank over the device. -/
def Phys.bankKey (p : Phys) : Nat := (p.chan * 2 + p.pc) * 32 + p.bank

/-- The segment of a column's place: stack, parity group and row band (R160). -/
def Phys.seg (p : Phys) : Nat := p.stack * 64 + p.ch / 8 * 16 + p.row / 2048

/-- The j-th channel of 0 to 7 other than `pch` (R162). -/
def dataChan (pch j : Nat) : Nat := if j < pch then j else j + 1

/-- The place of an address in a row-mapped segment (R161). -/
def physRM (dpa : Nat) : Phys :=
  let seg := dpa / 2 ^ 30
  let o := dpa % 2 ^ 30
  { stack := seg / 64, ch := 8 * (seg / 16 % 4) + o / 2 ^ 27, pc := o / 2 ^ 26 % 2, bank := o / 2 ^ 21 % 32,
    row := 2048 * (seg % 16) + o / 2 ^ 10 % 2048, col := o / 32 % 32 }

/-- The place of an address in an interleaved segment (R162). -/
def physIL (dpa : Nat) : Phys :=
  let seg := dpa / 2 ^ 30
  let o := dpa % 2 ^ 30
  let n := o / 256
  let st := n / 7
  { stack := seg / 64, ch := 8 * (seg / 16 % 4) + dataChan (st % 8) (n % 7), pc := st / 32 % 2, bank := st % 32,
    row := 2048 * (seg % 16) + st / 256 % 2048, col := 8 * (st / 64 % 4) + o % 256 / 32 }

/-- Whether a segment is row-mapped: firmware's choice at boot (R160). -/
def isRM (fw : FwConfig) (seg : Nat) : Bool := fw.rmSegs.contains seg

/-- The place of a device-physical address. -/
def physOf (fw : FwConfig) (dpa : Nat) : Phys :=
  if isRM fw (dpa / 2 ^ 30) then physRM dpa else physIL dpa

/-- The home slice of a location of device memory: its die, and the slice's number there (R163). -/
def homeSlice (fw : FwConfig) (dpa : Nat) : Nat × Nat :=
  let p := physOf fw dpa
  (p.stack / 2, 16 * (p.stack % 2) + p.ch % 16)

/-- The home slices of a die (R9). -/
def dieSlices : Nat := 32

/-- Bytes of a home slice (R9). -/
def sliceBytes : Nat := 2 * 2 ^ 20

/-- Bytes of the L2 of the four dies (R20). -/
def l2Bytes : Nat := 4 * dieSlices * sliceBytes

/-- The parity column's place for a column of an interleaved stripe (R162). -/
def physParity (dpa : Nat) : Phys := { physIL dpa with ch := 8 * (dpa / 2 ^ 34 % 4) + dpa % 2 ^ 30 / 256 / 7 % 8 }

/-- The key under which a location's stored form is kept: the DRAM column, the 64 B vault unit, or the 8 B UBS word
(R168, R367). -/
def colKey (fw : FwConfig) (l : Nat) : Nat :=
  if isDram l then (physOf fw l).key else if l < 2 ^ 50 then l / 64 * 64 else l / 8 * 8

/-- The bytes of that unit, as first location and size. -/
def unitOf (l : Nat) : Nat × Nat :=
  if isDram l then (l / 32 * 32, 32) else if l < 2 ^ 50 then (l / 64 * 64, 64) else (l / 8 * 8, 8)

/-- The error kinds of BANK_ERR_STATUS (R373). -/
def kCorrected : Nat := 0
/-- Uncorrectable or poisoned. -/
def kUncorrectable : Nat := 1
/-- Rebuilt from parity. -/
def kRebuilt : Nat := 2
/-- A remap entry lost in both copies. -/
def kLost : Nat := 3

/-- BANK_ERR_STATUS after an error (R373). -/
def besRecord (old : Word) (p : Phys) (kind src : Nat) (inj : Bool) : Word :=
  let valid := old.getLsbD 63
  let ccnt := (old.extractLsb' 0 16).toNat
  let ccnt' := if kind = kCorrected then Nat.min (ccnt + 1) 0xFFFF else ccnt
  if kind = kCorrected && valid then BitVec.ofNat 64 ((old.toNat / 2 ^ 16) * 2 ^ 16 + ccnt')
  else
    BitVec.ofNat 64
      (2 ^ 63 + (if valid then 2 ^ 62 else 0) + kind * 2 ^ 60 + src * 2 ^ 56 + (if inj then 2 ^ 55 else 0) +
        p.bank * 2 ^ 50 + p.pc * 2 ^ 49 + p.col * 2 ^ 44 + p.row * 2 ^ 29 + ccnt')

/-- A channel after an error; `fresh` counts in UCNT (R372). -/
def Chan.record (c : Chan) (p : Phys) (kind src : Nat) (inj fresh : Bool) : Chan :=
  { c with
    bes := besRecord c.bes p kind src inj
    ucnt := if fresh then Nat.min (c.ucnt + 1) (2 ^ 64 - 1) else c.ucnt }

/-- Changes what a die control block knows of errors. -/
def State.modEcc (s : State) (d : Nat) (f : EccLog → EccLog) : State :=
  { s with dies := mset {} s.dies d { mget {} s.dies d with ecc := f (mget {} s.dies d).ecc } }

/-- An error of a column as the die control block of its stack takes it: a corrected one is counted, and one that is
new and uncorrectable, rebuilt or not, is reported to firmware (R366, R373). -/
def EccLog.ofColumn (e : EccLog) (p : Phys) (kind : Nat) (fresh : Bool) : EccLog :=
  if kind = kCorrected then { e with byStack := mset 0 e.byStack p.stack (mget 0 e.byStack p.stack + 1) }
  else if fresh then { e with reports := e.reports ++ [.uncorrectable p.key] } else e

/-- Records an error of a column in its channel and in its die's control block. -/
def State.logErr (s : State) (p : Phys) (kind src : Nat) (inj fresh : Bool) : State :=
  let s1 : State := { s with chans := mset {} s.chans p.chan ((mget {} s.chans p.chan).record p kind src inj fresh) }
  s1.modEcc (p.stack / 2) fun e => e.ofColumn p kind fresh

/-- The stored form of a unit. -/
def State.colSt (s : State) (k : Nat) : ColSt := mget .clean s.mem.cols k

/-- Sets the stored form of a unit. -/
def State.setCol (s : State) (k : Nat) (c : ColSt) : State :=
  { s with mem := { s.mem with cols := mset .clean s.mem.cols k c } }

/-- Whether an armed injection names a column (R374). -/
def injHits (inj : Word) (p : Phys) : Bool :=
  inj.getLsbD 63 && (inj.extractLsb' 61 1).toNat == p.pc && (inj.extractLsb' 56 5).toNat == p.bank &&
  (inj.extractLsb' 41 15).toNat == p.row && (inj.extractLsb' 36 5).toNat == p.col

/-- A stored column with its code altered (`unc`) or bit 0 flipped: one that holds the poison syndrome stays as it is, and one
that already has a wrong bit becomes uncorrectable (R374; DESIGN CHOICE, notes/assumptions/36). -/
def ColSt.injected (c : ColSt) (unc : Bool) : ColSt :=
  match c with
  | .poison => .poison
  | .clean => if unc then .unc true else .single true
  | _ => .unc true

/-- Makes an armed injection's change before the column's next access, and clears ARM (R374). -/
def State.applyInj (s : State) (p : Phys) : State :=
  let c := mget {} s.chans p.chan
  if injHits c.inj p then
    let s1 := { s with chans := mset {} s.chans p.chan { c with inj := 0 } }
    s1.setCol p.key ((s1.colSt p.key).injected (c.inj.getLsbD 62))
  else s

/-- Whether a check cannot correct a stored form. -/
def ColSt.lost : ColSt → Bool
  | .unc _ | .poison => true
  | _ => false

/-- Whether a bank is fenced (R376). -/
def State.fenced (s : State) (p : Phys) : Bool :=
  (mget {} s.chans p.chan).fence.getLsbD (32 * p.pc + p.bank)

/-- Whether a fenced bank's row has been redirected to the spare bank (R376). -/
def State.redirected (s : State) (p : Phys) : Bool :=
  (mget {} s.chans p.chan).spare.any fun e => e.1 == p.pc && e.2.1 == p.bank && p.row < e.2.2

/-- A bank is fenced: its bit is set, and its rows go to the spare bank of its pseudo-channel where that is free (R376). -/
def Chan.fenceBank (c : Chan) (pc bank : Nat) : Chan :=
  let used := c.spare.any (fun e => e.1 == pc) || (List.range 32).any fun b => c.fence.getLsbD (32 * pc + b)
  { c with
    fence := c.fence ||| (1 <<< (32 * pc + bank))
    spare := if used then c.spare else c.spare ++ [(pc, bank, 0)]
    lostSpare := if used then c.lostSpare ++ [32 * pc + bank] else c.lostSpare }

/-- Reports to firmware through a die's control block. -/
def State.report (s : State) (d : Nat) (x : EccReport) : State := s.modEcc d fun e => { e with reports := e.reports ++ [x] }

/-- The key of a row's remap entry. -/
def Phys.rowKey (p : Phys) : Nat := p.bankKey * 32768 + p.row

/-- An activation reads the remap entry of its row from both copies: an uncorrectable one is repaired from the other, and two
fence the bank (R375, R376). A fenced bank is not activated, and neither is one whose row the spare bank serves. -/
def State.activate (s : State) (p : Phys) (src : Nat) : State :=
  if s.fenced p || s.redirected p then s
  else
    let e := mget (.clean, .clean) s.mem.tables p.rowKey
    let fresh : State := { s with mem := { s.mem with tables := mset (.clean, .clean) s.mem.tables p.rowKey (.clean, .clean) } }
    if e.1.lost && e.2.lost then
      let c := (mget {} s.chans p.chan).fenceBank p.pc p.bank
      { s with chans := mset {} s.chans p.chan (c.record p kLost src false false) }.report (p.stack / 2) (.fenced p.bankKey)
    else if e.1.lost || e.2.lost then fresh.logErr p kCorrected src false false
    else if e = (.clean, .clean) then s
    else fresh

/-- A column is about to be accessed: its row is activated, and an armed injection is applied, unless its bank cannot be
accessed. -/
def State.touch (s : State) (p : Phys) (src : Nat) : State :=
  let s1 := s.activate p src
  if s1.fenced p && !s1.redirected p then s1 else s1.applyInj p

/-- The seven other columns of an interleaved stripe: the same place in the group's other channels (R162). -/
def Phys.partners (p : Phys) : List Phys :=
  ((List.range 8).map fun i => { p with ch := p.ch / 8 * 8 + i }).filter fun q => q.ch != p.ch

/-- Reads a partner column for a rebuild: an injection is applied, and a single wrong bit corrected; whether the column can
serve it: it is neither uncorrectable nor poisoned nor in a bank that cannot be read (R370). An uncorrectable one cannot be
rebuilt in turn, since the failing column is its partner: it is poisoned (DEDUCED, notes/assumptions/36). -/
def State.readPartner (s : State) (q : Phys) (src : Nat) : State × Bool :=
  let s1 := s.touch q src
  if s1.fenced q && !s1.redirected q then (s1, false)
  else
    match s1.colSt q.key with
    | .unc i => ((s1.setCol q.key .poison).logErr q kUncorrectable src i true, false)
    | .poison => (s1.logErr q kUncorrectable src false false, false)
    | .single i => ((s1.setCol q.key .clean).logErr q kCorrected src i false, true)
    | .clean => (s1, true)

/-- Reads the seven partner columns of a column: whether they can serve its rebuild. -/
def State.partnersOk (s : State) (p : Phys) (src : Nat) : State × Bool :=
  p.partners.foldl (fun acc q =>
    let (s1, ok) := acc.1.readPartner q src
    (s1, acc.2 && ok)) (s, true)

/-- A read of a column in a bank that cannot be read: rebuilt, or poison (R376). -/
def State.rebuildOnly (s : State) (p : Phys) (src : Nat) : State × Bool :=
  let (s1, ok) := s.partnersOk p src
  if ok then (s1.logErr p kRebuilt src false false, false) else (s1.logErr p kUncorrectable src false false, true)

/-- Checks a column of an interleaved segment that is about to be used, rebuilding it where the check finds it
uncorrectable (R370). Answers whether it is poisoned. -/
def State.checkIL (s : State) (p : Phys) (src : Nat) : State × Bool :=
  let s := s.touch p src
  let gone := s.fenced p && !s.redirected p
  match s.colSt p.key with
  | .poison => (s.logErr p kUncorrectable src false false, true)
  | .single i => if gone then s.rebuildOnly p src
                 else ((s.setCol p.key .clean).logErr p kCorrected src i false, false)
  | .unc i =>
    let (s1, ok) := s.partnersOk p src
    if ok then ((s1.setCol p.key .clean).logErr p kRebuilt src i true, false)
    else ((s1.setCol p.key .poison).logErr p kUncorrectable src i true, true)
  | .clean => if gone then s.rebuildOnly p src else (s, false)

/-- Checks a column of a row-mapped segment (R366, R367, R376). -/
def State.checkRM (s : State) (p : Phys) (src : Nat) : State × Bool :=
  let s := s.touch p src
  if s.fenced p then (s, true)
  else
    match s.colSt p.key with
    | .poison => (s.logErr p kUncorrectable src false false, true)
    | .single i => ((s.setCol p.key .clean).logErr p kCorrected src i false, false)
    | .unc i => ((s.setCol p.key .poison).logErr p kUncorrectable src i true, true)
    | .clean => (s, false)

/-- The core whose vault or UBS holds a location. -/
def locCore (l : Nat) : Nat := if l < 2 ^ 50 then (l - 2 ^ 40) / 2 ^ 26 else (l - 2 ^ 50) / 2 ^ 22

/-- A corrected error of a core's storage in the count of its die's control block (R366). -/
def State.countCorr (s : State) (l : Nat) : State :=
  s.modEcc (homeDie l) fun e => { e with byCore := mset 0 e.byCore (locCore l) (mget 0 e.byCore (locCore l) + 1) }

/-- A corrected error, or a line fetched again, in the count of a stack (R366). -/
def State.countStack (s : State) (l : Nat) : State :=
  let k := (physOf s.island.fw l).stack
  s.modEcc (k / 2) fun e => { e with byStack := mset 0 e.byStack k (mget 0 e.byStack k + 1) }

/-- Sets the stored form of an L2 sector. -/
def State.setSector (s : State) (u : Nat) (c : ColSt) : State :=
  { s with mem := { s.mem with sectors := mset .clean s.mem.sectors (u / 32) c } }

/-- Whether L2 may hold bytes of a sector that memory beneath does not: it has been written since its line was surely written
back. -/
def State.mayBeDirty (s : State) (u : Nat) : Bool :=
  (span u 32).any fun l => mget 0 s.mem.wb l < mget 0 s.mem.newest l

/-- The check of an L2 sector (R168, R366): a single wrong bit of a dirty one is corrected, and worse poisons it; a clean one is
fetched again. Answers whether it gives poison. -/
def State.checkSector (s : State) (u : Nat) : State × Bool :=
  match mget .clean s.mem.sectors (u / 32) with
  | .clean => (s, false)
  | .poison => (s, true)
  | .single _ => ((s.setSector u .clean).countStack u, false)
  | .unc _ =>
    if s.mayBeDirty u then
      ((s.setSector u .poison).report (homeDie u) (.uncorrectable (physOf s.island.fw u).key), true)
    else ((s.setSector u .clean).countStack u, false)

/-- The check of a DRAM column. -/
def State.checkCol (s : State) (src l : Nat) : State × Bool :=
  if isRM s.island.fw (l / 2 ^ 30) then s.checkRM (physRM l) src else s.checkIL (physIL l) src

/-- The check of the unit that holds a location, before it is read: whether it gives poison. -/
def State.checkRead (s : State) (src l : Nat) : State × Bool :=
  if isDram l then
    match s.checkSector l with
    | (s1, true) => (s1, true)
    | (s1, false) => s1.checkCol src l
  else
    let k := colKey s.island.fw l
    match s.colSt k with
    | .clean => (s, false)
    | .poison => (s, true)
    | .single _ => ((s.setCol k .clean).countCorr l, false)
    | .unc _ => ((s.setCol k .poison).report (homeDie l) (.uncorrectable k), true)

/-- Whether a location's stored bytes are lost: a row-mapped row of a fenced bank discards writes (R376). -/
def State.discards (s : State) (l : Nat) : Bool :=
  isDram l && isRM s.island.fw (l / 2 ^ 30) && s.fenced (physRM l)

/-- The check of a unit before a write to it. A write of the whole unit clears its poison and any injection; a smaller
one leaves a poisoned unit poisoned (R367). A store to interleaved memory reads its own column and the parity column
(R370) (DEDUCED, notes/assumptions/36). -/
def State.checkWrite (s : State) (src l : Nat) (full : Bool) : State :=
  if isDram l then
    let s0 := if full then s.setSector l .clean else (s.checkSector l).1
    let p := physOf s.island.fw l
    let s1 := if full then (s0.touch p src).setCol p.key .clean else (s0.checkCol src l).1
    if isRM s.island.fw (l / 2 ^ 30) then s1 else (s1.checkIL (physParity l) 1).1
  else if full then s.setCol (colKey s.island.fw l) .clean else s

/-- Whether a list of locations covers the whole unit of one of them. -/
def coversUnit (ls : List Nat) (l : Nat) : Bool :=
  let u := unitOf l
  (span u.1 u.2).all fun x => ls.contains x

/-- The units of a list of locations, each by its first location. -/
def unitsOf (ls : List Nat) : List Nat := (ls.map fun l => (unitOf l).1).dedup

/-- Checks every unit of a read: the units that give poison. -/
def State.checkReads (s : State) (src : Nat) (ls : List Nat) : State × List Nat :=
  (unitsOf ls).foldl (fun acc u =>
    let (s', bad) := acc.1.checkRead src u
    (s', if bad then acc.2 ++ [u] else acc.2)) (s, [])

/-- Checks every unit of a write. -/
def State.checkWrites (s : State) (src : Nat) (ls : List Nat) : State :=
  (unitsOf ls).foldl (fun s u => s.checkWrite src u (coversUnit ls u)) s

/-- Poisons the units of locations (R367). -/
def State.poisonUnits (s : State) (ls : List Nat) : State :=
  (unitsOf ls).foldl (fun s u => s.setCol (colKey s.island.fw u) .poison) s

/-! ## Write-back by the home slice (R249, R367, R387) -/

/-- A home slice writes back its copy of a sector: poison goes into the column (R367, case 4). Bytes that it may still hold
dirty supply the whole column, which removes an armed injection; whether it had written them back before is free (R387; DESIGN
CHOICE, notes/assumptions/36). -/
def State.writeBackUnit (s : State) (u : Nat) : State :=
  let p := physOf s.island.fw u
  let at_ := injHits (mget {} s.chans p.chan).inj p || s.colSt p.key != .clean
  if mget .clean s.mem.sectors (u / 32) = .poison then ((s.setSector u .clean).checkWrite 0 u true).poisonUnits [u]
  else if s.mayBeDirty u && at_ then
    let s1 := { s with free := s.free + 1 }
    if Config.copyPick s.free % 2 = 0 then s1.checkWrite 0 u true else s1
  else s

/-- Home slices write back the lines of some locations, and drop their copies. -/
def State.writeBack (s : State) (mine : Nat → Bool) : State :=
  let held := s.mem.newest.filter fun e => isDram e.1 && mine e.1
  let us := (unitsOf (held.map (·.1)) ++ (s.mem.sectors.map (32 * ·.1)).filter mine).dedup
  let s1 := us.foldl State.writeBackUnit s
  { s1 with mem := { s1.mem with
      wb := raiseTo s1.mem.wb held, sectors := s1.mem.sectors.filter fun e => !mine (32 * e.1) } }

/-! ## Marches and moves -/

/-- A column from its number. -/
def physAt (key : Nat) : Phys :=
  { stack := key / 2 ^ 31, ch := key / 2 ^ 26 % 32, pc := key / 2 ^ 25 % 2, bank := key / 2 ^ 20 % 32, row := key / 32 % 32768
    col := key % 32 }

/-- The columns of a bank whose stored form is not clean, and the one that an armed injection names: the others a copy of the
bank's rows finds without an error. -/
def State.marked (s : State) (ch pc bank : Nat) : List Phys :=
  let bankKey := (ch * 2 + pc) * 32 + bank
  let inj := (mget {} s.chans ch).inj
  let p : Phys := { stack := ch / 32, ch := ch % 32, pc, bank, row := (inj.extractLsb' 41 15).toNat
                    col := (inj.extractLsb' 36 5).toNat }
  ((s.mem.cols.filter fun e => e.1 < 2 ^ 34 && (physAt e.1).bankKey == bankKey).map (physAt ·.1)) ++
    (if injHits inj p && s.colSt p.key == .clean then [p] else [])

/-- The rows of a bank are copied for a march, each column checked as it is read (R377). -/
def State.scanBank (s : State) (ch pc bank : Nat) : State :=
  (s.marked ch pc bank).foldl (fun s p =>
    if isRM s.island.fw p.seg then (s.checkRM p 5).1 else (s.checkIL p 5).1) s

/-- The device-physical address of a column of data; none for a parity column (R161, R162). -/
def dpaAt (fw : FwConfig) (p : Phys) : Option Nat :=
  let seg := p.seg
  if isRM fw seg then some (seg * 2 ^ 30 + p.ch % 8 * 2 ^ 27 + p.pc * 2 ^ 26 + p.bank * 2 ^ 21 + p.row % 2048 * 2 ^ 10 + 32 * p.col)
  else
    let st := p.bank + 32 * p.pc + 64 * (p.col / 8) + 256 * (p.row % 2048)
    let c := p.ch % 8
    if c = st % 8 then none
    else some (seg * 2 ^ 30 + 256 * (7 * st + (if c < st % 8 then c else c - 1)) + 32 * (p.col % 8))

end Sys2Proof.Machine
end

