-- ==== Sys2Proof/Machine/Access.lean ====
section
/-! DEFINITION. The one way to reach each part of the state: warps, blocks, contexts, stages, cores, dies. -/

namespace Sys2Proof.Machine

/-- A warp; the blank warp where none is resident. -/
def State.warp (s : State) (w : Nat) : Warp := mget {} s.warps w

/-- Replaces a warp. -/
def State.setWarp (s : State) (w : Nat) (x : Warp) : State := { s with warps := mins s.warps w x }

/-- Changes a resident warp. -/
def State.modWarp (s : State) (w : Nat) (f : Warp → Warp) : State := { s with warps := mmod s.warps w f }

/-- Changes several warps alike. -/
def State.modWarps (s : State) (ws : List Nat) (f : Warp → Warp) : State := ws.foldl (fun s w => s.modWarp w f) s

/-- A block. -/
def State.blk (s : State) (b : Nat) : Block := mget {} s.blocks b

/-- Changes a resident block. -/
def State.modBlk (s : State) (b : Nat) (f : Block → Block) : State := { s with blocks := mmod s.blocks b f }

/-- A context. -/
def State.ctx (s : State) (c : Nat) : Ctx := mget {} s.ctxs c

/-- Changes a context. -/
def State.modCtx (s : State) (c : Nat) (f : Ctx → Ctx) : State := { s with ctxs := mmod s.ctxs c f }

/-- Charges energy to a context, in femtojoules (R268, R313). -/
def State.charge (s : State) (c fj : Nat) : State := s.modCtx c fun x => { x with fineFj := x.fineFj + fj }

/-- A core. -/
def State.core (s : State) (c : Nat) : Core := mget {} s.cores c

/-- Changes a core. -/
def State.modCore (s : State) (c : Nat) (f : Core → Core) : State :=
  { s with cores := mset {} s.cores c (f (s.core c)) }

/-- What a core has used that no update has charged: its instructions, LU-clocks and idle power, each at its coefficient
(R313). -/
def Core.usedFj (c : Core) (timer : Nat) : Nat :=
  (c.events.map fun e => e.2 * Config.energyCoeff e.1).sum + c.luClocks * Config.energyCoeff 4 +
    (timer - c.idleFrom) * Config.energyCoeff 5

/-- Charges what a core has used to the context that it is granted to, or to the system account (R313). -/
def State.meterCore (s : State) (k : Nat) : State :=
  let c := s.core k
  let fj := c.usedFj s.timer
  let s1 := s.modCore k fun c => { c with events := [], luClocks := 0, idleFrom := s.timer }
  match c.owner with
  | some x => s1.charge x fj
  | none => { s1 with sysFj := s1.sysFj + fj }

/-- A die. -/
def State.die (s : State) (d : Nat) : Die := mget {} s.dies d

/-- Changes a die. -/
def State.modDie (s : State) (d : Nat) (f : Die → Die) : State := { s with dies := mset {} s.dies d (f (s.die d)) }

/-- The block of a warp. -/
def State.blkOf (s : State) (w : Nat) : Block := s.blk (s.warp w).blk

/-- The core on which a warp is placed. -/
def State.coreOf (s : State) (w : Nat) : Nat := (s.blkOf w).core

/-- The context of a warp. -/
def State.ctxOf (s : State) (w : Nat) : Ctx := s.ctx (s.warp w).ctx

/-- The warps of a block that are resident and have not fully exited, by WARPID (R30). -/
def State.liveWarps (s : State) (b : Nat) : List Nat :=
  ((List.range 32).map (32 * b + ·)).filter fun w =>
    match mfind s.warps w with
    | none => false
    | some x => !x.retired

/-- Every resident warp of a context. -/
def State.warpsOf (s : State) (c : Nat) : List Nat := (s.warps.filter fun e => e.2.ctx == c).map (·.1)

/-- Every resident block of a context. -/
def State.blocksOf (s : State) (c : Nat) : List Nat := (s.blocks.filter fun e => e.2.ctx == c).map (·.1)

/-- The stage of a context with a launch number. -/
def Ctx.stage? (c : Ctx) (lnum : Nat) : Option Stage := c.stages.find? fun st => st.lnum == lnum

/-- The stage of a block. -/
def State.stageOf (s : State) (b : Block) : Stage := ((s.ctx b.ctx).stage? b.lnum).getD {}

/-- Changes the stage of a context with a launch number. -/
def Ctx.modStage (c : Ctx) (lnum : Nat) (f : Stage → Stage) : Ctx :=
  { c with stages := c.stages.map fun st => if st.lnum == lnum then f st else st }

/-- The two UCIe links of a die: 0 joins DIE_0 and DIE_1, 1 joins DIE_2 and DIE_3, 2 joins DIE_0 and DIE_2, and 3 joins
DIE_1 and DIE_3 (R10). -/
def dieLinks (d : Nat) : List Nat := [d / 2, 2 + d % 2]

/-- Whether a die does not serve requests: from the quiesce step to re-admission, lost (R383), or with both its links
down (R380). What the spec does not say, a pair of other links down that splits the package, or a diagonal whose two
intermediate dies are offline, leaves no route of R10: the model serves that traffic (DESIGN CHOICE, notes/assumptions/37). -/
def State.offline (s : State) (d : Nat) : Bool :=
  (match (s.die d).st with
    | .offline _ | .drained _ | .retrained _ | .lost => true
    | _ => false) || (dieLinks d).all fun l => mget false s.links l

/-- Whether a location's home lies on a lost die (R383). -/
def State.lostLoc (s : State) (l : Nat) : Bool := (s.die (homeDie l)).st == .lost

/-- A port. -/
def State.port (s : State) (p : Nat) : Port18 := mget {} s.ports p

/-- Changes a port. -/
def State.modPort (s : State) (p : Nat) (f : Port18 → Port18) : State :=
  { s with ports := mset {} s.ports p (f (s.port p)) }

/-- The die that a Girt port belongs to (R15). -/
def portDie (p : Nat) : Nat := if p < 5 then 0 else if p < 9 then 1 else if p < 13 then 2 else 3

/-- Whether a port of the fabric is up. -/
def State.fabricUp (s : State) : Bool := s.ports.any fun e => e.2.up

/-- The ports of a die go down with it (R15, R384); one that is down until the device is reset stays so (R381). -/
def State.portsDown (s : State) (d : Nat) : State :=
  ((List.range 18).filter fun p => portDie p == d).foldl (fun s p =>
    if (s.port p).up then s.modPort p fun x => { x with up := false, flits := [], fails := 0, downAt := s.timer } else s) s

/-- A fresh name. -/
def State.fresh (s : State) : Nat × State := (s.nextId, { s with nextId := s.nextId + 1 })

/-- A fresh number for free values. -/
def State.freshFree (s : State) : Nat × State := (s.free, { s with free := s.free + 1 })

end Sys2Proof.Machine
end

