-- ==== Sys2Proof/Machine/Frames.lean ====
section
/-! DEFINITION. The diagnostic frame (spec/21 R372 to R377): the words of a channel block, read and stored. -/

namespace Sys2Proof.Machine

/-- A channel. -/
def State.chan (s : State) (c : Nat) : Chan := mget {} s.chans c

/-- Changes a channel. -/
def State.modChan (s : State) (c : Nat) (f : Chan → Chan) : State := { s with chans := mset {} s.chans c (f (s.chan c)) }

/-- A word of a stack's frame (Table 21.3). -/
def State.frameRead (s : State) (stack off : Nat) : Word :=
  if 4096 ≤ off then 0
  else
    let c := s.chan (32 * stack + off / 128)
    match off % 128 / 8 with
    | 0 => c.inj
    | 1 => c.bes
    | 2 => BitVec.ofNat 64 c.ucnt
    | 3 => c.fence
    | 4 => c.march
    | _ => 0

/-- A store to INJ (R374). -/
def State.setInj (s : State) (ch : Nat) (x : Word) : State :=
  if x.extractLsb' 0 36 ≠ 0 then s
  else s.modChan ch fun c => { c with inj := if x.getLsbD 63 then x else 0 }

/-- A store to BANK_ERR_STATUS (R372). -/
def State.clearBes (s : State) (ch : Nat) : State := s.modChan ch fun c => { c with bes := 0 }

/-- Whether MARCH says BUSY. -/
def Chan.busy (c : Chan) : Bool := c.march.getLsbD 63

/-- Whether a store to MARCH starts a test (R377). -/
def State.marchStarts (s : State) (ch : Nat) (x : Word) : Bool :=
  let pc := (x.extractLsb' 61 1).toNat
  let bank := (x.extractLsb' 56 5).toNat
  let c := s.chan ch
  x.getLsbD 63 && x &&& 0x40FFFFFFFFFFFFFF == 0 &&
  (List.range 32).all (fun k => !(s.chan (ch / 32 * 32 + k)).busy) &&
  c.spare.all (fun e => e.1 != pc) && !c.fence.getLsbD (32 * pc + bank)

/-- A store to MARCH (R377): the bank's rows are copied, each column checked as it is read, and are served by the spare bank
until the test ends. -/
def State.marchStart (s : State) (ch : Nat) (x : Word) : State :=
  let pc := (x.extractLsb' 61 1).toNat
  let bank := (x.extractLsb' 56 5).toNat
  if s.marchStarts ch x then
    (s.scanBank ch pc bank).modChan ch fun c =>
      { c with
        march := x ||| (c.march &&& 0xFFFF), marchAt := s.timer
        spare := c.spare ++ [(pc, bank, 32768)] }
  else s

/-- A store to a word of a stack's frame. -/
def State.frameStore (s : State) (stack off : Nat) (x : Word) : State :=
  if 4096 ≤ off then s
  else
    let ch := 32 * stack + off / 128
    match off % 128 / 8 with
    | 0 => s.setInj ch x
    | 1 => s.clearBes ch
    | 4 => s.marchStart ch x
    | _ => s

end Sys2Proof.Machine
end

