-- ==== Sys2Proof/Machine/Flags.lean ====
section
/-! DEFINITION. The sticky flags of OVF_FLAGS (spec/04 R97) and the fields of FPMODE (R89). -/

namespace Sys2Proof.Machine

/-- NV, invalid operation. -/
def fNV : Nat := 0x1
/-- DZ, a finite non-zero value divided by zero. -/
def fDZ : Nat := 0x2
/-- OF, overflow. -/
def fOF : Nat := 0x4
/-- UF, a result tiny and inexact. -/
def fUF : Nat := 0x8
/-- NX, inexact. -/
def fNX : Nat := 0x10
/-- SATF, a result replaced by the largest finite value. -/
def fSATF : Nat := 0x20
/-- MPO, a band sum overflowed at promotion. -/
def fMPO : Nat := 0x100
/-- MAO, accumulation into a tile overflowed. -/
def fMAO : Nat := 0x200
/-- MNAN, an `MMA` or `SMMA` produced a NaN. -/
def fMNAN : Nat := 0x400

/-- ORs flags into OVF_FLAGS: arithmetic sets and never clears them (R97). -/
def Warp.setFlags (w : Warp) (f : Nat) : Warp := { w with ovf := w.ovf ||| BitVec.ofNat 64 f }

/-- NANP, bit 23 of FPMODE. -/
def fpNanp (m : Word) : Bool := m.getLsbD 23

/-- MSAT, bit 22 of FPMODE. -/
def fpMsat (m : Word) : Bool := m.getLsbD 22

/-- DRND, bits 21:19 of FPMODE; its reserved codes are never stored (R89). -/
def fpDrnd (m : Word) : Rnd := (Rnd.ofCode (m.extractLsb' 19 3)).getD .rne

/-- Slot A, bits 4:0 of FPMODE. -/
def fpSlotA (m : Word) : B8Fmt :=
  { prec := (m.extractLsb' 0 3).toNat, sgn := m.getLsbD 3, ext := m.getLsbD 4 }

/-- Slot B, bits 12:8 of FPMODE. -/
def fpSlotB (m : Word) : B8Fmt :=
  { prec := (m.extractLsb' 8 3).toNat, sgn := m.getLsbD 11, ext := m.getLsbD 12 }

/-- Whether `SWR` accepts an FPMODE image (R89). -/
def fpmodeOk (m : Word) : Bool :=
  (m &&& 0xFFFFFFFFFF07E0E0) == 0 && (m.extractLsb' 19 3).toNat < 6 && (m.extractLsb' 0 3) != 0 &&
  (m.extractLsb' 8 3) != 0

/-- The rounding mode of an instruction: DYN reads DRND (R90, R94). -/
def rndOf (m : Word) (r : Rnd) : Rnd := if r = .dyn then fpDrnd m else r

/-- The format of a floating type, binary8 slots resolved from FPMODE (R90). -/
def fmtOf (m : Word) : EType → FFmt
  | .f16 | .f16x4 => .f16
  | .bf16 | .bf16x4 => .bf16
  | .b8a => .b8 (fpSlotA m)
  | .b8b => .b8 (fpSlotB m)
  | _ => .f32

/-- Whether the array's ASHAPE accepts an image (R209). -/
def ashapeOk (x : Word) : Bool :=
  (x >>> 8) == 0 && x.extractLsb' 0 4 != 0 && (x.extractLsb' 4 2).toNat ≤ (x.extractLsb' 6 2).toNat

end Sys2Proof.Machine
end

