-- ==== Sys2Proof/Machine/Num.lean ====
section
/-! DEFINITION. Floating-point numbers exactly: values as sign, magnitude and exponent, rounding into a format with its
edges and flags (spec/04 R82 to R97). -/

namespace Sys2Proof.Machine

/-- Precision of a format, including the implicit bit (Table 4.1, R85). -/
def FFmt.prec : FFmt → Nat
  | .f32 => 24 | .f16 => 11 | .bf16 => 8 | .b8 f => f.prec

/-- Exponent bits of a format. -/
def FFmt.ebits : FFmt → Nat
  | .f32 => 8 | .f16 => 5 | .bf16 => 8 | .b8 f => if f.sgn then 8 - f.prec else 9 - f.prec

/-- Bias of a format. -/
def FFmt.bias : FFmt → Nat
  | .f32 => 127 | .f16 => 15 | .bf16 => 127
  | .b8 f => 2 ^ ((if f.sgn then 8 - f.prec else 9 - f.prec) - 1)

/-- Width in bits. -/
def FFmt.width : FFmt → Nat
  | .f32 => 32 | .f16 => 16 | .bf16 => 16 | .b8 _ => 8

/-- Smallest normal exponent, 1 − bias (R91). -/
def FFmt.emin (f : FFmt) : Int := 1 - (f.bias : Int)

/-- Whether the format has a sign bit. -/
def FFmt.signed : FFmt → Bool
  | .b8 f => f.sgn
  | _ => true

/-- Whether the format has infinities. -/
def FFmt.hasInf : FFmt → Bool
  | .b8 f => f.ext
  | _ => true

/-- Code of the largest finite value (R86, Table 4.1). -/
def FFmt.maxCode : FFmt → Nat
  | .f32 => 0x7F7FFFFF | .f16 => 0x7BFF | .bf16 => 0x7F7F
  | .b8 f => if f.sgn then (if f.ext then 0x7E else 0x7F) else (if f.ext then 0xFD else 0xFE)

/-- Code of +Inf in a format that has it. -/
def FFmt.infCode : FFmt → Nat
  | .f32 => 0x7F800000 | .f16 => 0x7C00 | .bf16 => 0x7F80
  | .b8 f => if f.sgn then 0x7F else 0xFE

/-- The canonical NaN (R95). -/
def FFmt.nanCode : FFmt → Nat
  | .f32 => 0x7FC00000 | .f16 => 0x7E00 | .bf16 => 0x7FC0
  | .b8 f => if f.sgn then 0x80 else 0xFF

/-- The poison value (R96). -/
def FFmt.poisonCode : FFmt → Nat
  | .f32 => 0x7FC00D0D | .f16 => 0x7E0D | .bf16 => 0x7FCD
  | .b8 f => if f.sgn then 0x80 else 0xFF

/-- The sign bit's weight; 0 in an unsigned format. -/
def FFmt.signBit (f : FFmt) : Nat := if f.signed then 2 ^ (f.width - 1) else 0

/-- Fraction bits. -/
def FFmt.fbits (f : FFmt) : Nat := f.prec - 1

/-- The value of a finite code's magnitude field (R85; the wide formats follow the same rule). -/
def magValue (f : FFmt) (code : Nat) : Nat × Int :=
  let fb := f.fbits
  let e := code / 2 ^ fb
  let fr := code % 2 ^ fb
  if e = 0 then (fr, f.emin - fb) else (2 ^ fb + fr, (e : Int) - f.bias - fb)

/-- The value of a code (R82, R85, R86). -/
def decodeF (f : FFmt) (x : Nat) : FVal :=
  let c := x % 2 ^ f.width
  match f with
  | .b8 g =>
    if g.sgn then
      if c = 0x80 then .nan false 0 false false false
      else if g.ext ∧ c = 0x7F then .inf false
      else if g.ext ∧ c = 0xFF then .inf true
      else
        let (m, e) := magValue f (c % 128)
        .fin (128 ≤ c) m e
    else
      if c = 0xFF then .nan false 0 false false false
      else if g.ext ∧ c = 0xFE then .inf false
      else
        let (m, e) := magValue f c
        .fin false m e
  | _ =>
    let sb := 2 ^ (f.width - 1)
    let neg := decide (sb ≤ c)
    let mag := c % sb
    if mag = f.infCode then .inf neg
    else if f.infCode < mag then
      let fr := mag - f.infCode
      .nan neg (fr * 2 ^ (23 - f.fbits)) (fr < 2 ^ (f.fbits - 1)) true (c = f.poisonCode)
    else
      let (m, e) := magValue f mag
      .fin neg m e

/-- A signed code from a sign and a magnitude code; binary8 has no negative zero (R86). -/
def signCode (f : FFmt) (neg : Bool) (c : Nat) : Nat :=
  match f with
  | .b8 _ => if neg && c != 0 then c + f.signBit else c
  | _ => if neg then c + f.signBit else c

/-- The magnitude code of n × 2^qe, where n fits the format's precision or is the next power of two. -/
def magCode (f : FFmt) (n : Nat) (qe : Int) : Nat :=
  let fb := f.fbits
  let (n, qe) := if n = 2 ^ f.prec then (n / 2, qe + 1) else (n, qe)
  if n < 2 ^ fb then n else ((qe + fb + f.bias).toNat) * 2 ^ fb + (n - 2 ^ fb)

/-- Rounds the magnitude mag × 2^e as though the exponent range had no upper limit (R91): the multiple n and the
exponent of the spacing q, and whether the result is inexact. -/
def roundMag (f : FFmt) (mode : Rnd) (neg : Bool) (mag : Nat) (e : Int) : Nat × Int × Bool :=
  let ex := max ((Nat.log2 mag : Int) + e) f.emin
  let qe := ex - f.prec + 1
  if qe ≤ e then (mag * 2 ^ (e - qe).toNat, qe, false)
  else
    let sh := (qe - e).toNat
    let lo := mag / 2 ^ sh
    let rem := mag % 2 ^ sh
    if rem = 0 then (lo, qe, false)
    else
      let half := 2 ^ (sh - 1)
      let up := match mode with
        | .rne | .dyn => half < rem || (rem == half && lo % 2 == 1)
        | .rna => half ≤ rem
        | .rtz => false
        | .rup => !neg
        | .rdn => neg
        | .rod => lo % 2 == 0
      (if up then lo + 1 else lo, qe, true)

/-- Whether n × 2^a exceeds m × 2^b. -/
def dyadicGt (n : Nat) (a : Int) (m : Nat) (b : Int) : Bool :=
  let k := min a b
  m * 2 ^ (b - k).toNat < n * 2 ^ (a - k).toNat

/-- An overflow (R92): the result and the flags. -/
def overflowTo (f : FFmt) (mode : Rnd) (sat neg : Bool) : Nat × Nat :=
  let toInf := !sat && f.hasInf && (match mode with
    | .rne | .rna | .dyn => true
    | .rup => !neg
    | .rdn => neg
    | _ => false)
  if toInf then (signCode f neg f.infCode, fOF ||| fNX)
  else (signCode f neg f.maxCode, fOF ||| fNX ||| fSATF)

/-- Rounds a finite value into a format: the code and the flags (R91, R92). -/
def roundFin (f : FFmt) (mode : Rnd) (sat neg : Bool) (mag : Nat) (e : Int) : Nat × Nat :=
  if mag = 0 then (signCode f neg 0, 0)
  else
    let (n, qe, inexact) := roundMag f mode neg mag e
    let tiny := dyadicGt 1 f.emin mag e
    if neg && !f.signed then
      if n = 0 then (0, fNX ||| (if tiny then fUF else 0))
      else if sat then (0, fNX) else (f.nanCode, fNV)
    else
      let (mm, me) := magValue f f.maxCode
      if dyadicGt n qe mm me then overflowTo f mode sat neg
      else
        (signCode f neg (magCode f n qe),
          (if inexact then fNX else 0) ||| (if inexact && tiny then fUF else 0))

/-- An infinity into a format (R92). -/
def infInto (f : FFmt) (sat neg : Bool) : Nat × Nat :=
  if neg && !f.signed then (if sat then (0, fNX) else (f.nanCode, fNV))
  else if f.hasInf then
    (if sat then (signCode f neg f.maxCode, fSATF) else (signCode f neg f.infCode, 0))
  else (if sat then (signCode f neg f.maxCode, fSATF) else (f.nanCode, fNV))

/-- Whether a value is a NaN. -/
def FVal.isNan : FVal → Bool
  | .nan _ _ _ _ _ => true
  | _ => false

/-- Whether a value is a poison pattern (R96). -/
def FVal.isPoison : FVal → Bool
  | .nan _ _ _ _ p => p
  | _ => false

/-- Whether a value is a signalling NaN. -/
def FVal.isSnan : FVal → Bool
  | .nan _ _ s _ _ => s
  | _ => false

/-- Whether a value is an infinity. -/
def FVal.isInf : FVal → Bool
  | .inf _ => true
  | _ => false

/-- Whether a value is a zero. -/
def FVal.isZero : FVal → Bool
  | .fin _ m _ => m == 0
  | _ => false

/-- The sign of a value. -/
def FVal.neg : FVal → Bool
  | .fin n _ _ => n
  | .inf n => n
  | .nan n _ _ _ _ => n

/-- A value with its sign set; a poison pattern stays one (DESIGN CHOICE, notes/assumptions/16). -/
def FVal.withNeg (v : FVal) (n : Bool) : FVal :=
  match v with
  | .fin _ m e => .fin n m e
  | .inf _ => .inf n
  | .nan _ f s w p => .nan n f s w p

/-- The first NaN of a wide format among operands (R95, rule 2). -/
def firstWideNan : List FVal → Option (Bool × Nat)
  | [] => none
  | .nan n f _ true _ :: _ => some (n, f)
  | _ :: vs => firstWideNan vs

/-- NV of a list of operands: a signalling NaN sets it (R83). -/
def nvOf (ops : List FVal) : Nat := if ops.any FVal.isSnan then fNV else 0

/-- A NaN result (R95) for the operands A, B, C that the instruction has. -/
def nanResult (f : FFmt) (nanp : Bool) (ops : List FVal) : Nat :=
  if ops.any FVal.isPoison then f.poisonCode
  else if nanp then
    match f, firstWideNan ops with
    | .b8 _, _ => f.nanCode
    | _, some (n, fr) =>
      let fb := f.fbits
      let top := fr / 2 ^ (23 - fb)
      signCode f n (f.infCode + (top ||| 2 ^ (fb - 1)))
    | _, none => f.nanCode
  else f.nanCode

/-- Rounds a value into a format; `ops` are the operands that a NaN result draws on. -/
def roundTo (f : FFmt) (mode : Rnd) (sat nanp : Bool) (ops : List FVal) (v : FVal) : Nat × Nat :=
  match v with
  | .fin n m e => roundFin f mode sat n m e
  | .inf n => infInto f sat n
  | .nan _ _ _ _ _ => (nanResult f nanp ops, nvOf ops)

/-! ## Exact operations -/

/-- The exact value of an integer. -/
def ofInt (x : Int) : FVal := .fin (x < 0) x.natAbs 0

/-- Exact product of two values that are not NaN; none where it is invalid (0 × Inf). -/
def xmul (a b : FVal) : Option FVal :=
  let n := a.neg != b.neg
  match a, b with
  | .fin _ m e, .fin _ m' e' => some (.fin n (m * m') (e + e'))
  | .inf _, .fin _ m _ => if m = 0 then none else some (.inf n)
  | .fin _ m _, .inf _ => if m = 0 then none else some (.inf n)
  | .inf _, .inf _ => some (.inf n)
  | _, _ => none

/-- NV of a product that is invalid, 0 × Inf, whatever else an operation sums is NaN (R95). -/
def nvMul (a b : FVal) : Nat := if (xmul a b).isNone && !a.isNan && !b.isNan then fNV else 0

/-- The signed integer of a finite value at an exponent not above its own. -/
def scaleInt (neg : Bool) (m : Nat) (e k : Int) : Int :=
  let x : Int := (m * 2 ^ (e - k).toNat : Nat)
  if neg then -x else x

/-- Exact sum of two values that are not NaN, with the sign of a zero result (R131); none for Inf − Inf. -/
def xadd (mode : Rnd) (a b : FVal) : Option FVal :=
  match a, b with
  | .fin n m e, .fin n' m' e' =>
    let k := min e e'
    let x := scaleInt n m e k + scaleInt n' m' e' k
    if x = 0 then
      some (.fin (if m = 0 ∧ m' = 0 ∧ n = n' then n else mode == .rdn) 0 0)
    else some (.fin (x < 0) x.natAbs k)
  | .inf n, .inf n' => if n = n' then some (.inf n) else none
  | .inf n, .fin _ _ _ => some (.inf n)
  | .fin _ _ _, .inf n => some (.inf n)
  | _, _ => none

/-- A rounded operation on operands: NaN operands first, then an invalid operation, then the rounding (R84, R95). -/
def finishOp (f : FFmt) (mode : Rnd) (sat nanp : Bool) (ops : List FVal) (r : Option FVal) : Nat × Nat :=
  if ops.any FVal.isNan then (nanResult f nanp ops, nvOf ops)
  else match r with
    | none => (f.nanCode, fNV)
    | some v => roundTo f mode sat nanp ops v

/-- Compares two values that are not NaN: −1, 0 or 1; the two zeros are equal. -/
def fcompare (a b : FVal) : Int :=
  match a, b with
  | .inf n, .inf n' => if n = n' then 0 else if n then -1 else 1
  | .inf n, _ => if n then -1 else 1
  | _, .inf n => if n then 1 else -1
  | .fin n m e, .fin n' m' e' =>
    let k := min e e'
    let x := scaleInt n m e k
    let y := scaleInt n' m' e' k
    if x < y then -1 else if x = y then 0 else 1
  | _, _ => 0

/-- Rounds |mag × 2^e| to an integer in a mode (R93, R137): the magnitude and whether it is inexact. -/
def roundInt (mode : Rnd) (neg : Bool) (mag : Nat) (e : Int) : Nat × Bool :=
  if 0 ≤ e then (mag * 2 ^ e.toNat, false)
  else
    let sh := (-e).toNat
    let lo := mag / 2 ^ sh
    let rem := mag % 2 ^ sh
    if rem = 0 then (lo, false)
    else
      let half := 2 ^ (sh - 1)
      let up := match mode with
        | .rne | .dyn => half < rem || (rem == half && lo % 2 == 1)
        | .rna => half ≤ rem
        | .rtz => false
        | .rup => !neg
        | .rdn => neg
        | .rod => lo % 2 == 0
      (if up then lo + 1 else lo, true)

/-! ## Elements of a lane -/

/-- Element i of width w of a lane (R53). -/
def elemAt (x : Word) (w i : Nat) : Nat := x.toNat / 2 ^ (w * i) % 2 ^ w

/-- Reads a number of width w as an integer, signed or not. -/
def readInt (signed : Bool) (w x : Nat) : Int :=
  if signed && 2 ^ (w - 1) ≤ x then (x : Int) - (2 ^ w : Nat) else x

/-- Whether the elements of an integer type are read as signed (R110). -/
def EType.signedInt : EType → Bool
  | .i64 | .i32 | .i16x4 | .i8x8 => true
  | _ => false

/-- A lane from its elements of width w, lowest first. -/
def packElems (w : Nat) (xs : List Nat) : Word :=
  BitVec.ofNat 64 (xs.foldr (fun x acc => acc * 2 ^ w + x % 2 ^ w) 0)

/-- Replaces element i of width w of a lane. -/
def setElem (x : Word) (w i v : Nat) : Word :=
  let mask : Word := BitVec.ofNat 64 ((2 ^ w - 1) * 2 ^ (w * i))
  (x &&& ~~~mask) ||| BitVec.ofNat 64 (v % 2 ^ w * 2 ^ (w * i))

/-- Fits an exact integer into a type (R111): clamped with SAT, else wrapped; the element's bits. -/
def fitInt (t : EType) (sat : Bool) (x : Int) : Nat :=
  let w := t.width
  let lo : Int := if EType.signedInt t then -(2 ^ (w - 1) : Nat) else 0
  let hi : Int := if EType.signedInt t then (2 ^ (w - 1) : Nat) - 1 else (2 ^ w : Nat) - 1
  let y := if sat then min (max x lo) hi else x
  (y % (2 ^ w : Nat)).toNat

/-- The lane that an integer result of a type gives: I32 is sign-extended, N32 zero-extended (R110). -/
def laneOfInt (t : EType) (es : List Nat) : Word :=
  match t, es with
  | .i32, e :: _ => (BitVec.ofNat 32 e).signExtend 64
  | _, _ => packElems t.width es

end Sys2Proof.Machine
end

