-- ==== Sys2Proof/Machine/IntAlu.lean ====
section
/-! DEFINITION. The element functions of the integer and address instructions (spec/05 R110 to R118). -/

namespace Sys2Proof.Machine

/-- The operands of one lane: A, B, C, the old D, and the warp's FPMODE. -/
structure LaneIn where
  a  : Word
  b  : Word
  c  : Word
  d  : Word
  fp : Word
  deriving DecidableEq, Repr

/-- Element i of a lane read in the signedness of a type. -/
def intElem (t : EType) (x : Word) (i : Nat) : Int := readInt (EType.signedInt t) t.width (elemAt x t.width i)

/-- A function of one operand on each element, fitted (R111). -/
def mapI1 (t : EType) (sat : Bool) (f : Int → Int) (a : Word) : Word :=
  laneOfInt t ((List.range t.count).map fun i => fitInt t sat (f (intElem t a i)))

/-- A function of two operands on each element, fitted (R111). -/
def mapI2 (t : EType) (sat : Bool) (f : Int → Int → Int) (a b : Word) : Word :=
  laneOfInt t ((List.range t.count).map fun i => fitInt t sat (f (intElem t a i) (intElem t b i)))

/-- A function of three operands on each element, fitted (R111). -/
def mapI3 (t : EType) (sat : Bool) (f : Int → Int → Int → Int) (a b c : Word) : Word :=
  laneOfInt t ((List.range t.count).map fun i =>
    fitInt t sat (f (intElem t a i) (intElem t b i) (intElem t c i)))

/-- A function on the bits of each element: A's and B's element as numbers, with the width. -/
def mapB2 (t : EType) (f : Nat → Nat → Nat → Nat) (a b : Word) : Word :=
  laneOfInt t ((List.range t.count).map fun i =>
    f t.width (elemAt a t.width i) (elemAt b t.width i) % 2 ^ t.width)

/-- MULH: ⌊a × b ÷ 2^w⌋. -/
def mulhElem (w : Nat) (a b : Int) : Int := (a * b) / (2 ^ w : Nat)

/-- SHL on bits (Table 5.3). -/
def shlBits (w a b : Nat) : Nat := if b < w then a * 2 ^ b else 0

/-- SHR on bits: zero fill. -/
def shrBits (w a b : Nat) : Nat := if b < w then a / 2 ^ b else 0

/-- SAR on bits: filled with bit w − 1 of a. -/
def sarBits (w a b : Nat) : Nat :=
  let x := readInt true w a
  ((if b < w then x / (2 ^ b : Nat) else if x < 0 then -1 else 0) % (2 ^ w : Nat)).toNat

/-- ROT on bits: rotated left by b mod w. -/
def rotBits (w a b : Nat) : Nat :=
  let k := b % w
  (a * 2 ^ k + a / 2 ^ (w - k)) % 2 ^ w

/-- CLZ on bits: zeros above the highest set bit; w when a = 0. -/
def clzBits (w a : Nat) : Nat := if a = 0 then w else w - 1 - Nat.log2 a

/-- POPC on bits. -/
def popBits (w a : Nat) : Nat := ((List.range w).filter fun i => a.testBit i).length

/-- BREV on bits: bit i moved to bit w − 1 − i. -/
def brevBits (w a : Nat) : Nat :=
  (List.range w).foldl (fun acc i => if a.testBit i then acc + 2 ^ (w - 1 - i) else acc) 0

/-- DIV on an element (R117): bits of the quotient. -/
def divElem (t : EType) (sat : Bool) (a b : Int) : Nat :=
  if b = 0 then 2 ^ t.width - 1 else fitInt t sat (Int.tdiv a b)

/-- REM on an element (R117). -/
def remElem (t : EType) (a b : Int) : Nat := if b = 0 then fitInt t false a else fitInt t false (Int.tmod a b)

/-- DIV or REM on each element of a lane. -/
def mapDiv (t : EType) (f : Int → Int → Nat) (a b : Word) : Word :=
  laneOfInt t ((List.range t.count).map fun i => f (intElem t a i) (intElem t b i))

/-- LEA (R115): the space of A is kept. -/
def leaWord (a b : Word) (sh : Nat) (imm : BitVec 12) : Word :=
  let off := (a.extractLsb' 0 60).toNat + b.toNat * 2 ^ sh + (imm.signExtend 64).toNat
  (a.extractLsb' 60 4) ++ BitVec.ofNat 60 off

/-- BFX (R116). -/
def bfxWord (t : EType) (a b : Word) : Word :=
  let pos := (b.extractLsb' 0 6).toNat
  let len := (b.extractLsb' 6 6).toNat + 1
  let v := elemAt a t.width 0 / 2 ^ pos % 2 ^ len
  let x := readInt (EType.signedInt t) len v
  laneOfInt t [fitInt t false x]

/-- BFI (R116); D is also a source. -/
def bfiWord (t : EType) (a b d : Word) : Word :=
  let w := t.width
  let pos := (b.extractLsb' 0 6).toNat
  let len := (b.extractLsb' 6 6).toNat + 1
  let m : Word := BitVec.ofNat 64 ((2 ^ len - 1) * 2 ^ pos % 2 ^ w)
  let x : Word := BitVec.ofNat 64 (elemAt a w 0 * 2 ^ pos)
  laneOfInt t [((d &&& ~~~m) ||| (x &&& m)).toNat % 2 ^ w]

/-- MULW (R118): the exact 64-bit product of bits 31:0. -/
def mulwWord (t : EType) (a b : Word) : Word :=
  BitVec.ofInt 64 (intElem t a 0 * intElem t b 0)

/-- IDOT (R118): D read as I64 plus the exact sum of element products, fitted to I64. -/
def idotWord (t : EType) (sat : Bool) (a b d : Word) : Word :=
  let sum := (List.range t.count).foldl (fun acc i => acc + intElem t a i * intElem t b i) (0 : Int)
  laneOfInt .i64 [fitInt .i64 sat (d.toInt + sum)]

/-- The relations of CMP by FUNC (R112), on a type's element 0. -/
def cmpRel (t : EType) (func : Nat) (a b : Word) : Bool :=
  let x := intElem t a 0
  let y := intElem t b 0
  match func with
  | 0 => x == y
  | 1 => x != y
  | 2 => x < y
  | 3 => x ≤ y
  | 4 => y < x
  | 5 => y ≤ x
  | 6 => (elemAt a t.width 0 &&& elemAt b t.width 0) != 0
  | _ => (elemAt a t.width 0 &&& elemAt b t.width 0) == 0

end Sys2Proof.Machine
end

