-- ==== Sys2Proof/Machine/FloatAlu.lean ====
section
/-! DEFINITION. The element functions of the floating-point instructions (spec/06 R130 to R138). Every function gives
the lane's new value and the flags it raises (R97). -/

namespace Sys2Proof.Machine

/-- A source value under NA (or NB) and ABS: ABS first (R71). The spec does not say whether a poison pattern with its sign
changed is still one: the model judges it before the modifiers, for results and for `FCLASS` (R95, R134; DESIGN CHOICE,
notes/assumptions/16). -/
def srcMods (neg abs : Bool) (v : FVal) : FVal :=
  let v := if abs then v.withNeg false else v
  if neg then v.withNeg (!v.neg) else v

/-- As `srcMods`, for an integer source. -/
def srcModsI (neg abs : Bool) (x : Int) : Int :=
  let x := if abs then (x.natAbs : Int) else x
  if neg then -x else x

/-- Operand A's lane with the sub-element of SUB selected (R73, R130). -/
def selSub (sub : BitVec 4) (x : Word) : Word :=
  match subElem sub with
  | none => x
  | some (w, i) => BitVec.ofNat 64 (elemAt x w i)

/-- Element i of A as a value. -/
def fa (f : FFmt) (g : Args) (x : Word) (i : Nat) : FVal :=
  srcMods g.na g.abs (decodeF f (elemAt (selSub g.sub x) f.width i))

/-- Element i of B as a value. -/
def fb (f : FFmt) (g : Args) (x : Word) (i : Nat) : FVal := srcMods g.nb false (decodeF f (elemAt x f.width i))

/-- Applies a function giving a code and flags to each element of TYPE and packs the lane (R130). -/
def mapF (t : EType) (f : Nat → Nat × Nat) : Word × Nat :=
  let rs := (List.range t.count).map f
  (packElems t.width (rs.map (·.1)), rs.foldl (fun acc r => acc ||| r.2) 0)

/-- FADD, FSUB (negated B) and their rounding. -/
def faddLane (g : Args) (sub : Bool) (x : LaneIn) : Word × Nat :=
  let f := fmtOf x.fp g.ty
  let mode := rndOf x.fp g.rnd
  mapF g.ty fun i =>
    let a := fa f g x.a i
    let b := fb f g x.b i
    let b' := if sub then b.withNeg (!b.neg) else b
    finishOp f mode g.sat (fpNanp x.fp) [a, b] (xadd mode a b')

/-- FMUL. -/
def fmulLane (g : Args) (x : LaneIn) : Word × Nat :=
  let f := fmtOf x.fp g.ty
  mapF g.ty fun i =>
    let a := fa f g x.a i
    let b := fb f g x.b i
    finishOp f (rndOf x.fp g.rnd) g.sat (fpNanp x.fp) [a, b] (xmul a b)

/-- Element i of FFMA's C: IMM12 under kind 11 of an extended form is an integer converted exactly (Table 6.1). For one
that the element type cannot hold, which no assembler gives, the element is a free value (DESIGN CHOICE, notes/assumptions/16). -/
def ffmaC (f : FFmt) (g : Args) (fp x : Word) (i : Nat) : FVal :=
  if g.form = .ext ∧ g.kc = .x then
    let v := ofInt g.imm.toInt
    let r := decodeF f (roundTo f .rne false false [] v).1
    if !r.isNan && fcompare r v == 0 then v else decodeF f (elemAt (Config.ffmaImm g.ty g.imm fp) f.width i)
  else decodeF f (elemAt x f.width i)

/-- FFMA: one rounding. 0 × Inf is invalid whatever C is (R95). -/
def ffmaLane (g : Args) (x : LaneIn) : Word × Nat :=
  let f := fmtOf x.fp g.ty
  let mode := rndOf x.fp g.rnd
  mapF g.ty fun i =>
    let a := fa f g x.a i
    let b := fb f g x.b i
    let c := ffmaC f g x.fp x.c i
    let p := xmul a b
    let (r, fl) := finishOp f mode g.sat (fpNanp x.fp) [a, b, c] (p.bind fun p => xadd mode p c)
    (r, fl ||| nvMul a b)

/-- The lesser (or greater) of two values under R132, with −0 below +0. A chosen value that an unsigned format has no code for, as
one below zero after NA or NB, gives NaN and no flag (DESIGN CHOICE, notes/assumptions/16). -/
def fminmax (f : FFmt) (nanp mx : Bool) (a b : FVal) : Nat × Nat :=
  let nv := nvOf [a, b]
  if a.isPoison || b.isPoison then (f.poisonCode, nv)
  else if a.isNan && b.isNan then (nanResult f nanp [a, b], nv)
  else if a.isNan then ((roundTo f .rtz false nanp [] b).1, nv)
  else if b.isNan then ((roundTo f .rtz false nanp [] a).1, nv)
  else
    let c := fcompare a b
    let aFirst := c < 0 || (c == 0 && (a.neg || !b.neg))
    let r := if aFirst == !mx then a else b
    ((roundTo f .rtz false nanp [] r).1, nv)

/-- FMIN and FMAX (R132). -/
def fminLane (g : Args) (mx : Bool) (x : LaneIn) : Word × Nat :=
  let f := fmtOf x.fp g.ty
  mapF g.ty fun i => fminmax f (fpNanp x.fp) mx (fa f g x.a i) (fb f g x.b i)

/-- The element of an FCMP or FCLASS operand: byte 0 of a binary8 lane unless SUB selects another (Table 6.1). -/
def fcmpRel (g : Args) (x : LaneIn) : Bool × Nat :=
  let f := fmtOf x.fp g.ty
  let a := fa f g x.a 0
  let b := fb f g x.b 0
  let unord := a.isNan || b.isNan
  let func := g.func.toNat
  let nv := if a.isSnan || b.isSnan || (unord && 2 ≤ func && func ≤ 5) then fNV else 0
  let c := fcompare a b
  let r := match func with
    | 0 => !unord && c == 0
    | 1 => unord || c != 0
    | 2 => !unord && c < 0
    | 3 => !unord && c ≤ 0
    | 4 => !unord && 0 < c
    | 5 => !unord && 0 ≤ c
    | 6 => !unord
    | _ => unord
  (r, nv)

/-- FCLASS: the bit of a value's class (R134). -/
def fclassBit (f : FFmt) (v : FVal) : Nat :=
  match v with
  | .inf n => if n then 0 else 7
  | .nan _ _ s _ p => if p then 10 else if s then 8 else 9
  | .fin n m e =>
    if m = 0 then (if n && (match f with | .b8 _ => false | _ => true) then 3 else 4)
    else
      let sub := dyadicGt 1 f.emin m e
      if sub then (if n then 2 else 5) else (if n then 1 else 6)

/-- FCLASS (R134). -/
def fclassLane (g : Args) (x : LaneIn) : Word × Nat :=
  let f := fmtOf x.fp g.ty
  (BitVec.ofNat 64 (2 ^ fclassBit f (fa f g x.a 0)), 0)

/-- A floating value into an integer type (R93). -/
def floatToInt (t : EType) (mode : Rnd) (v : FVal) : Nat × Nat :=
  let w := t.width
  let lo : Int := if EType.signedInt t then -(2 ^ (w - 1) : Nat) else 0
  let hi : Int := if EType.signedInt t then (2 ^ (w - 1) : Nat) - 1 else (2 ^ w : Nat) - 1
  match v with
  | .nan _ _ _ _ _ => (0, fNV)
  | .inf n => (fitInt t false (if n then lo else hi), fNV)
  | .fin n m e =>
    let (r, inexact) := roundInt mode n m e
    let x : Int := if n then -(r : Int) else r
    if x < lo then (fitInt t false lo, fNV)
    else if hi < x then (fitInt t false hi, fNV)
    else (fitInt t false x, if inexact then fNX else 0)

/-- conv of CVT on one element (R135). -/
def cvtElem (g : Args) (fp : Word) (st : EType) (bits : Nat) : Nat × Nat :=
  let mode := rndOf fp g.rnd
  if st.isFloat then
    let v := srcMods g.na g.abs (decodeF (fmtOf fp st) bits)
    if g.ty.isFloat then roundTo (fmtOf fp g.ty) mode g.sat (fpNanp fp) [v] v
    else floatToInt g.ty mode v
  else
    let x := srcModsI g.na g.abs (readInt (EType.signedInt st) st.width bits)
    if g.ty.isFloat then roundTo (fmtOf fp g.ty) mode g.sat (fpNanp fp) [] (ofInt x)
    else (fitInt g.ty g.sat x, 0)

/-- The source type of CVT, FUNC bits 3:0. -/
def cvtSrc (g : Args) : EType := (EType.ofCode (g.func.extractLsb' 0 4)).getD .i64

/-- CVT (R135): a packed destination keeps its other elements; a non-packed one is cleared above the element. -/
def cvtLane (g : Args) (x : LaneIn) : Word × Nat :=
  let st := cvtSrc g
  let ns := st.count
  let nd := g.ty.count
  let n := Nat.min ns nd
  let pos := (g.func.extractLsb' 4 3).toNat
  let a := selSub g.sub x.a
  let rs := (List.range n).map fun k =>
    let s := if nd < ns then k + pos * n else k
    cvtElem g x.fp st (elemAt a st.width s)
  let fl := rs.foldl (fun acc r => acc ||| r.2) 0
  if nd = 1 then (laneOfInt g.ty (rs.map (·.1)), fl)
  else
    ((List.range n).foldl (fun acc k =>
      setElem acc g.ty.width (if ns < nd then k + pos * n else k) ((rs.getD k (0, 0)).1)) x.d, fl)

/-- A sum of products and an accumulator, formed exactly (R136, R99): none where a term is invalid or infinities of
both signs meet. -/
def sumProducts (mode : Rnd) (acc : FVal) : List (FVal × FVal) → Option FVal
  | [] => some acc
  | (a, b) :: ps =>
    match xmul a b with
    | none => none
    | some p =>
      match xadd mode acc p with
      | none => none
      | some acc' => sumProducts mode acc' ps

/-- FDOT (R136): under B8X8A, A is in slot A and B in slot B. A term that is NaN or 0 × Inf, or infinities of both signs
among the terms, set NV (R99). -/
def fdotLane (g : Args) (x : LaneIn) : Word × Nat :=
  let fA := fmtOf x.fp g.ty
  let fB := if g.ty = .b8a then FFmt.b8 (fpSlotB x.fp) else fA
  let mode := rndOf x.fp g.rnd
  let c := decodeF .f32 (elemAt x.c 32 0)
  let ps := (List.range g.ty.count).map fun i => (fa fA g x.a i, fb fB g x.b i)
  let ops := ps.map (·.1) ++ ps.map (·.2) ++ [c]
  let (r, fl) := finishOp .f32 mode g.sat (fpNanp x.fp) ops (sumProducts mode c ps)
  let bad := (sumProducts mode (.fin false 0 0) ps).isNone
  (BitVec.ofNat 64 r, if bad then fl ||| fNV else fl)

/-- An infinity that keeps its class (R137), under SAT too, where the rounding of R92 would give the largest finite value
(DESIGN CHOICE, notes/assumptions/16); −Inf in an unsigned format is decided by the unsigned rows of R92. -/
def infKept (f : FFmt) (sat n : Bool) : Nat × Nat :=
  if n && !f.signed then infInto f sat n else (signCode f n f.infCode, 0)

/-- FSCALE (R137). -/
def fscaleLane (g : Args) (x : LaneIn) : Word × Nat :=
  let f := fmtOf x.fp g.ty
  mapF g.ty fun i =>
    let a := fa f g x.a i
    let k := readInt true f.width (elemAt x.b f.width i)
    match a with
    | .fin n m e => roundFin f (rndOf x.fp g.rnd) g.sat n m (e + k)
    | .inf n => infKept f g.sat n
    | _ => (nanResult f (fpNanp x.fp) [a], nvOf [a])

/-- FRND (R137): only a signalling NaN sets a flag, so that a value below zero of an unsigned format gives NaN without one
(DEDUCED, notes/assumptions/16). -/
def frndLane (g : Args) (x : LaneIn) : Word × Nat :=
  let f := fmtOf x.fp g.ty
  let mode := rndOf x.fp g.rnd
  mapF g.ty fun i =>
    let a := fa f g x.a i
    match a with
    | .fin n m e => ((roundFin f mode false n (roundInt mode n m e).1 0).1, 0)
    | .inf n => ((infKept f false n).1, 0)
    | _ => (nanResult f (fpNanp x.fp) [a], nvOf [a])

/-- The wider partner type of a packed type (R138). -/
def partner : EType → EType
  | .f16x4 | .bf16x4 => .f32x2
  | .i16x4 => .i32
  | .i8x8 | .n8x8 => .i16x4
  | _ => .bf16x4

/-- Elements of the partner type in a lane. -/
def partnerCount (t : EType) : Nat := t.count / 2

/-- PACK on one element (R138). -/
def packElem (g : Args) (fp : Word) (neg abs : Bool) (bits : Nat) : Nat × Nat :=
  let p := partner g.ty
  if g.ty.isFloat then
    let v := srcMods neg abs (decodeF (fmtOf fp p) bits)
    roundTo (fmtOf fp g.ty) (rndOf fp g.rnd) g.sat (fpNanp fp) [v] v
  else (fitInt g.ty g.sat (srcModsI neg abs (readInt true p.width bits)), 0)

/-- PACK (R138): elements 0 to n/2 − 1 from A, the rest from B. -/
def packLane (g : Args) (x : LaneIn) : Word × Nat :=
  let h := partnerCount g.ty
  let w := (partner g.ty).width
  mapF g.ty fun i =>
    if i < h then packElem g x.fp g.na g.abs (elemAt x.a w i)
    else packElem g x.fp g.nb false (elemAt x.b w (i - h))

/-- A floating element widened exactly to its partner (R138): a signalling NaN is quieted with its payload kept. -/
def widen (p : FFmt) (v : FVal) : Nat × Nat :=
  match v with
  | .fin n m e => roundFin p .rtz false n m e
  | .inf n => (signCode p n p.infCode, 0)
  | .nan n fr s wide poison =>
    if poison then (p.poisonCode, 0)
    else if !wide then (p.nanCode, 0)
    else (signCode p n (p.infCode + ((fr ||| 2 ^ 22) / 2 ^ (23 - p.fbits))), if s then fNV else 0)

/-- UNPK (R138): FUNC 0 takes the low half of the elements, FUNC 1 the high half. -/
def unpkLane (g : Args) (x : LaneIn) : Word × Nat :=
  let h := partnerCount g.ty
  let p := partner g.ty
  let rs := (List.range h).map fun i =>
    let bits := elemAt x.a g.ty.width (if g.func = 1 then i + h else i)
    if g.ty.isFloat then widen (fmtOf x.fp p) (srcMods g.na g.abs (decodeF (fmtOf x.fp g.ty) bits))
    else (((srcModsI g.na g.abs (readInt (EType.signedInt g.ty) g.ty.width bits)) % (2 ^ p.width : Nat)).toNat, 0)
  (packElems p.width (rs.map (·.1)), rs.foldl (fun acc r => acc ||| r.2) 0)

end Sys2Proof.Machine
end

