-- ==== Sys2Proof/Machine/Home.lean ====
section
/-! DEFINITION. Accesses at their homes: reads and writes with floors, poison and offline dies (spec/12 R276, spec/21
R371, R383), update-only lines (spec/08 R199), writes held at the kerf (spec/11 R265), releases and acquires. -/

namespace Sys2Proof.Machine

/-! ## Spaces and policies -/

/-- The space code of a pointer (R151). -/
def spaceOf (p : Word) : Nat := (p.extractLsb' 60 4).toNat

/-- Cache policies (Table 7.1). -/
inductive Policy where
  | keep | stream | bypass | none
  deriving DecidableEq, Repr

/-- The policy of an access: CP overrides that of the space (R166). -/
def policyOf (p : Word) (cp : BitVec 2) : Policy :=
  match spaceOf p with
  | 0 | 5 => if cp = 2 then .stream else if cp = 3 then .bypass else .keep
  | 1 => if cp = 1 then .keep else if cp = 3 then .bypass else .stream
  | 2 => if cp = 1 then .keep else if cp = 2 then .stream else .bypass
  | 7 | 8 => .bypass
  | _ => .none

/-! ## Traffic (R313) -/

/-- The UCIe links on the way between two dies (R10). -/
def hops (x y : Nat) : Nat := (if x / 2 = y / 2 then 0 else 1) + (if x % 2 = y % 2 then 0 else 1)

/-- Counts a byte that an access by a core moves beyond it: at L2 over UCIe links, and under IL parity where it is stored there; of
a vault, over the mesh unless it is the core's own (Table 14.2). -/
def Moved.add (fw : FwConfig) (core : Nat) (write : Bool) (m : Moved) (l : Nat) : Moved :=
  let m1 := { m with links := m.links + hops (core / 40) (homeDie l) }
  if isDram l then { m1 with l2 := m1.l2 + 1, il := m1.il + if write && !isRM fw (l / 2 ^ 30) then 1 else 0 }
  else if l < 2 ^ 50 ∧ (l - 2 ^ 40) / 2 ^ 26 ≠ core then { m1 with vault := m1.vault + 1 }
  else m1

/-- Counts the bytes of an access of a warp. -/
def State.carry (s : State) (w : Nat) (write : Bool) (ls : List Nat) : State :=
  let c := (s.warp w).ctx
  { s with mem := { s.mem with
      moved := mset {} s.mem.moved c (ls.foldl (Moved.add s.island.fw (s.coreOf w) write) (mget {} s.mem.moved c)) } }

/-- Counts n bytes that an operation of a warp sends or receives over Girt for each of its far accesses. -/
def State.carryFar (s : State) (w n : Nat) (xs : List FarAcc) : State :=
  let c := (s.warp w).ctx
  let m := mget {} s.mem.moved c
  { s with mem := { s.mem with moved := mset {} s.mem.moved c { m with girt := m.girt + n * xs.length } } }

/-! ## Performing writes -/

/-- The floors of a warp's own reads: those that a release at any scope publishes, and those of its writes over RMT to
this device (R276, R285). -/
def Warp.fl (w : Warp) : SMap Nat := if w.rmtFl.isEmpty then w.floors else raiseTo w.floors w.rmtFl

/-- Raises the floors of a write's warps to it (R276, R285). -/
def State.ownWrite (s : State) (wr : Writer) (ls : List Nat) (pos : Nat) : State :=
  let to_ := ls.map fun l => (l, pos)
  s.modWarps wr.ws fun w =>
    if wr.rmt then { w with rmtFl := raiseTo w.rmtFl to_ } else { w with floors := raiseTo w.floors to_ }

/-- Writes one indivisible piece whose units have been checked: the bytes take one position, and the writers' floors
rise. -/
def State.writePiece (s : State) (wr : Writer) (rmw : Bool) (bs : List (Nat × Byte)) : State :=
  let kept := bs.filter fun b => !s.discards b.1
  let s1 := { s with mem := s.mem.putPiece wr.rels rmw kept }
  s1.ownWrite wr (kept.map (·.1)) s1.mem.seq

/-- Performs one indivisible piece of a write at home: the stored form is checked first. -/
def State.performPiece (s : State) (wr : Writer) (rmw : Bool) (src : Nat) (bs : List (Nat × Byte)) : State :=
  (s.checkWrites src (bs.map (·.1))).writePiece wr rmw bs

/-- The releases after which warps write. -/
def State.relsOfWarps (s : State) (ws : List Nat) : List Nat := (ws.flatMap fun w => (s.warp w).rels).dedup

/-- Warps as the writers of what they write now. -/
def State.writer (s : State) (ws : List Nat) : Writer := { ws, rels := s.relsOfWarps ws }

/-- Writes bytes in aligned pieces of n. -/
def State.writePieces (s : State) (wr : Writer) (rmw : Bool) (n : Nat) (bs : List (Nat × Byte)) : State :=
  (groupBy (fun b => b.1 / n) bs).foldl (fun s g => s.writePiece wr rmw g.2) s

/-- Performs a write in aligned pieces of n bytes (R169, R176); the whole write tells which units it supplies (R367). -/
def State.performWrite (s : State) (wr : Writer) (rmw : Bool) (src n : Nat) (bs : List (Nat × Byte)) : State :=
  (s.checkWrites src (bs.map (·.1))).writePieces wr rmw n bs

/-! ## Update-only lines (R199) -/

/-- The operation of a reduction on one element's bits: old op new, fitted or rounded (Table 6.4, R198). -/
def redElem (func : Nat) (ty : EType) (fp : Word) (rnd : Rnd) (sat : Bool) (x y : Nat) : Nat × Nat :=
  let w := ty.width
  let i (f : Int → Int → Int) : Nat × Nat :=
    (fitInt ty sat (f (readInt (EType.signedInt ty) w x) (readInt (EType.signedInt ty) w y)), 0)
  let f := fmtOf fp ty
  match func with
  | 0x00 => i (· + ·)
  | 0x01 => i min
  | 0x02 => i max
  | 0x03 => (x &&& y, 0)
  | 0x04 => (x ||| y, 0)
  | 0x05 => (x ^^^ y, 0)
  | 0x08 =>
    let a := decodeF f x
    let b := decodeF f y
    finishOp f (rndOf fp rnd) sat (fpNanp fp) [a, b] (xadd (rndOf fp rnd) a b)
  | 0x09 => fminmax f (fpNanp fp) false (decodeF f x) (decodeF f y)
  | _ => fminmax f (fpNanp fp) true (decodeF f x) (decodeF f y)

/-- The identity of a reduction for an element (Table 6.4). -/
def redIdent (func : Nat) (ty : EType) (fp : Word) : Nat :=
  let w := ty.width
  let f := fmtOf fp ty
  match func with
  | 0x01 => if EType.signedInt ty then 2 ^ (w - 1) - 1 else 2 ^ w - 1
  | 0x02 => if EType.signedInt ty then 2 ^ (w - 1) else 0
  | 0x03 => 2 ^ w - 1
  | 0x09 => if f.hasInf then f.infCode else f.maxCode
  | 0x0A => if !f.signed then 0 else signCode f true (if f.hasInf then f.infCode else f.maxCode)
  | _ => 0

/-- Combines the elements of a value of n bytes: every element of the type. -/
def redValue (func : Nat) (ty : EType) (fp : Word) (rnd : Rnd) (sat : Bool) (n : Nat) (x y : Word) : Word × Nat :=
  let k := 8 * n / ty.width
  let rs := (List.range k).map fun i => redElem func ty fp rnd sat (elemAt x ty.width i) (elemAt y ty.width i)
  (packElems ty.width (rs.map (·.1)), rs.foldl (fun acc r => acc ||| r.2) 0)

/-- Bytes of one element access of `ATOM` and `RED` (R197). -/
def atomSize (ty : EType) : Nat := if ty.count = 1 then ty.width / 8 else 8

/-- Sends a U line home: its values are combined into the line, element by element, without flags; a poisoned element
keeps its poison (R199, R200). -/
def State.flushULine (s : State) (u : ULine) : State :=
  let n := atomSize u.ty
  u.vals.foldl (fun s e =>
    let ls := span e.1 n
    let (s1, bad) := s.checkReads 0 ls
    if bad.isEmpty then
      let old := ofBytes (s1.mem.peek e.1 n)
      let new := (redValue u.func u.ty u.fp u.rnd u.sat n old e.2).1
      (s1.carry ((mget [] u.by_ e.1).headD 0) true ls).performWrite (s1.writer (mget [] u.by_ e.1)) true 0 8 (ls.zip (bytesOf n new))
    else s1) s

/-- The warps that contributed to a U line. -/
def ULine.warps (u : ULine) : List Nat := u.by_.flatMap (·.2)

/-- The cores that hold a U line, in an order that the spec leaves open (R199; DESIGN CHOICE, notes/assumptions/18). -/
def State.uCores (s : State) : List Nat :=
  ((s.cores.filter fun e => !e.2.uLines.isEmpty).map (·.1)).zipIdx.foldl
    (fun acc e => acc.insertIdx (Config.redPick (s.free + e.2) % (acc.length + 1)) e.1) []

/-- Sends every U line that a test selects home, from every core; a line homed on an offline die waits (R383). -/
def State.flushWhere (s : State) (sel : Nat → ULine → Bool) : State :=
  s.uCores.foldl (fun s k =>
    let due (u : ULine) : Bool := sel k u && !s.offline (homeDie (128 * u.line))
    ((s.core k).uLines.filter due).foldl State.flushULine
      (s.modCore k fun c => { c with uLines := c.uLines.filter fun u => !due u }))
    { s with free := s.free + s.uCores.length }

/-- The recall that a home makes before it serves an access to lines (R199). -/
def State.recall (s : State) (ls : List Nat) : State :=
  if s.cores.all (fun e => e.2.uLines.isEmpty) then s
  else
    let lines := (ls.map (· / 128)).dedup
    s.flushWhere fun _ u => lines.contains u.line

/-! ## The L1 of a core (R166, R167, R249, R283; DESIGN CHOICE, notes/assumptions/43) -/

/-- Whether a core's L1 may hold the line of a location. -/
def State.inL1 (s : State) (k l : Nat) : Bool := (mfind (s.core k).l1 (l / 128)).isSome

/-- The lines of device memory that locations lie in. -/
def dramLines (ls : List Nat) : List Nat := ((ls.filter isDram).map (· / 128)).dedup

/-- What keep stores to locations just made add to what a line has to write back: each location keeps its oldest. -/
def Mem.dirtied (m : Mem) (d : SMap Nat) (ls : List Nat) : SMap Nat :=
  ls.foldl (fun d l => if (mfind d l).isSome then d else mins d l (m.pos l)) d

/-- A core's L1 allocates the lines of locations, which a keep store has written or a read brings in. -/
def State.cacheL1 (s : State) (k : Nat) (ls : List Nat) (wrote : Bool) : State :=
  let lines := dramLines ls
  let dirty (d : SMap Nat) (x : Nat) : SMap Nat := if wrote then s.mem.dirtied d (ls.filter fun l => l / 128 == x) else d
  if lines.isEmpty then s
  else s.modCore k fun c =>
    { c with
      l1 := lines.foldl (fun m x => mins m x (dirty (mget [] m x) x)) c.l1
      l1Err := c.l1Err.filter fun e => (mfind c.l1 (e.1 / 4)).isSome && !(wrote && coversUnit ls (32 * e.1)) }

/-- The check of a sector of a core's L1 (R168, R366): a single wrong bit of a dirty line is corrected, and worse poisons the
sector; a clean line is fetched again. Answers whether it gives poison. -/
def State.checkL1 (s : State) (k u : Nat) : State × Bool :=
  let c := s.core k
  let set_ (x : ColSt) : State := s.modCore k fun c => { c with l1Err := mset .clean c.l1Err (u / 32) x }
  match mget .clean c.l1Err (u / 32), mfind c.l1 (u / 128) with
  | .clean, _ | _, none => (s, false)
  | .poison, _ => (s, true)
  | .single _, _ => ((set_ .clean).countCorr (ubsLoc k 0), false)
  | .unc _, some d =>
    if d.isEmpty then
      (((set_ .clean).countCorr (ubsLoc k 0)).modCore k fun c => { c with l1 := mdel c.l1 (u / 128) }, false)
    else ((set_ .poison).report (k / 40) (.uncorrectable u), true)

/-- The check of the sectors of locations that a core's L1 serves: those that give poison. -/
def State.checkL1s (s : State) (k : Nat) (ls : List Nat) : State × List Nat :=
  if (s.core k).l1Err.isEmpty then (s, [])
  else (unitsOf (ls.filter isDram)).foldl (fun acc u =>
    let (s1, bad) := acc.1.checkL1 k u
    (s1, if bad then acc.2 ++ [u] else acc.2)) (s, [])

/-- A core's L1 drops lines. -/
def State.dropL1 (s : State) (k : Nat) (drop : Nat → Bool) : State :=
  if (s.core k).l1.any fun e => drop e.1 then s.modCore k fun c => { c with l1 := c.l1.filter fun e => !drop e.1 } else s

/-- Floors raised to what memory beneath the caches holds, for the locations that a core's L1 cannot serve. -/
def State.bankFloors (s : State) (k : Option Nat) (fl : SMap Nat) (ls : List Nat) : SMap Nat :=
  if s.mem.bank.isEmpty then fl
  else raiseTo fl ((ls.filter fun l => !k.elim false (s.inL1 · l)).map fun l => (l, mget 0 s.mem.bank l))

/-! ## Reading at home -/

/-- What a read delivers: each location with the position and byte of the write read, and the units that gave poison
with their source class (R369). -/
structure Rd where
  rs  : List (Nat × Nat × Byte)
  bad : List (Nat × Nat)
  deriving DecidableEq, Repr

/-- A read with units of its core's L1 that gave poison. -/
def Rd.poisoned (r : Rd) (us : List Nat) : Rd := if us.isEmpty then r else { r with bad := us.map (·, 0) ++ r.bad }

/-- The source class of poison among locations; none where the data is good. -/
def Rd.poison (r : Rd) (ls : List Nat) : Option Nat :=
  (r.bad.find? fun b => ls.any fun l => (unitOf l).1 == b.1).map (·.2)

/-- The byte read at a location. -/
def Rd.byte (r : Rd) (l : Nat) : Byte :=
  match r.rs.find? fun e => e.1 == l with
  | none => 0
  | some e => e.2.2

/-- The value read at locations, lowest first. -/
def Rd.value (r : Rd) (ls : List Nat) : Word := ofBytes (ls.map r.byte)

/-- Reads locations at their homes in pieces of n bytes under floors. -/
def State.readHome (s : State) (src n : Nat) (fl : SMap Nat) (ls : List Nat) : State × Rd :=
  let s0 := s.recall ls
  let off := (unitsOf ls).filter fun u => s0.offline (homeDie u)
  let (s1, bad) := s0.checkReads src (ls.filter fun l => !s0.offline (homeDie l))
  let rs := s1.mem.readLocs fl s1.free n ls
  ({ s1 with free := s1.free + 2 * ls.length }, { rs, bad := off.map (·, 2) ++ bad.map (·, 0) })

/-- The floors and observations of warps after they have read (R276, R278). -/
def State.hasRead (s : State) (ws : List Nat) (r : Rd) : State :=
  let ids := s.mem.relsOf r.rs
  s.modWarps ws fun w =>
    { w with
      floors := raiseTo w.floors (r.rs.map fun e => (e.1, e.2.1))
      seen := (w.seen ++ ids).dedup }

/-- The locations of a read that a core's L1 holds no copy of. -/
def State.beyondL1 (s : State) (k : Nat) (ls : List Nat) : List Nat :=
  ls.filter fun l => !(isDram l && (mfind (s.core k).l1 (l / 128)).isSome)

/-- A read by one warp at its floors, in pieces of n bytes: what its core's L1 cannot serve comes from memory or is newer
(R265, R283). Its own update-only lines go home first (R199). -/
def State.warpRead (s : State) (w src n : Nat) (ls : List Nat) : State × Rd :=
  let (s0, bad) := ((s.recall ls).carry w false (s.beyondL1 (s.coreOf w) ls)).checkL1s (s.coreOf w) ls
  let (s1, r) := s0.readHome src n (s0.bankFloors (some (s0.coreOf w)) (s0.warp w).fl ls) ls
  (s1.hasRead [w] r, r.poisoned bad)

/-- The newest bytes of a piece of memory, by a party that is always current. -/
def State.peekHome (s : State) (src : Nat) (ls : List Nat) : State × Rd :=
  let s0 := s.recall ls
  let off := (unitsOf ls).filter fun u => s0.offline (homeDie u)
  let (s1, bad) := s0.checkReads src (ls.filter fun l => !s0.offline (homeDie l))
  (s1, { rs := ls.map fun l => (l, s1.mem.pos l, s1.mem.byte l), bad := off.map (·, 2) ++ bad.map (·, 0) })

/-! ## Counters -/

/-- Adds to a counter at its home, as one indivisible event, saturating (R194): whether it overflowed and whether it met
poison, which leaves the counter unchanged (R371). -/
def State.counterAdd (s : State) (wr : Writer) (l inc : Nat) : State × Bool × Bool :=
  let ls := span l 8
  let (s1, r) := s.peekHome 0 ls
  match r.poison ls with
  | some _ => (s1, false, true)
  | none =>
    let v := (r.value ls).toNat + inc
    let ovf := decide (2 ^ 64 ≤ v)
    let new : Word := if ovf then BitVec.allOnes 64 else BitVec.ofNat 64 v
    (s1.performPiece wr true 0 (ls.zip (bytesOf 8 new)), ovf, false)

/-- Records a late trap unless the warp already holds one (R398) (DEDUCED, notes/assumptions/22). -/
def Warp.record (w : Warp) (t : LateTrap) : Warp := if w.late.isSome then w else { w with late := some t }

/-- Performs a `CSIG` at home for its members, of which the first issued it: the late traps of an overflow and of poison
(R195, R371). -/
def State.countUp (s : State) (wr : Writer) (addr : Word) (l inc : Nat) : State :=
  let (s1, ovf, bad) := (s.carry (wr.ws.headD 0) true (span l 8)).counterAdd wr l inc
  s1.modWarp (wr.ws.headD 0) fun x =>
    let y := { x with stCnt := x.stCnt - 1 }
    if bad then y.record ⟨0x14, 0x81, addr, .store⟩
    else if ovf then y.record ⟨0x18, 0x80, addr, .store⟩
    else y

/-! ## The kerf (R265) -/

/-- The start of the 1 KiB row of a location. -/
def memRow (l : Nat) : Nat := l / 1024 * 1024

/-- A place of no byte, at which the armer of a pass has position 1 once its `ARM` has made its release: an access by a
warp whose floor there is 1 follows an acquire that observed a release made after the `ARM` (R265). -/
def armLoc (id : Nat) : Nat := 2 ^ 60 + id

/-- The unfinished passes that have not swept a row and before which operation `id` does not arrive: those accepted, and of
those still to be accepted the ones that the operation follows in the order of the arming warp, or by what a party with
the floors `fl` has acquired (R265) (DEDUCED, notes/assumptions/13). -/
def State.kerfOf (s : State) (fl : SMap Nat) (w : Option Nat) (id row : Nat) : List Nat :=
  if s.regions.isEmpty then []
  else
    (s.regions.filter fun g => g.rows.contains row).flatMap fun g =>
      (g.passes.filter fun p =>
        !p.swept.contains row &&
          (p.accepted.isSome || (p.id < id && (some p.w == w || 1 ≤ mget 0 fl (armLoc p.id))))).map (·.id)

/-- The passes that an access of warp `w`, as operation `id`, meets at a row. -/
def State.kerf (s : State) (w id row : Nat) : List Nat := s.kerfOf (s.warp w).floors (some w) id row

/-- The rows of locations. -/
def rowsOf (ls : List Nat) : List Nat := (ls.map memRow).dedup

/-- The passes that operation `id` of warp `w` meets at the rows of locations, each with its row. -/
def State.kerfPairs (s : State) (w id : Nat) (ls : List Nat) : List (Nat × Nat) :=
  if s.regions.isEmpty then [] else (rowsOf ls).flatMap fun r => (s.kerf w id r).map (·, r)

/-! ## Ranges of near-bank operations and passes -/

/-- The location of byte `o` of a range from the starts of its 16 KiB parts. -/
def locAt (p : Word) (starts : List Nat) (o : Nat) : Nat :=
  let x := p.toNat % 16384 + o
  starts.getD (x / 16384) 0 + x % 16384

/-- The 1 KiB rows of a range, in address order: the address of each row and its first location. -/
def rangeRows (p : Word) (starts : List Nat) (n : Nat) : List (Word × Nat) :=
  let r := p.toNat % 1024
  if n = 0 then []
  else
    (List.range ((r + n + 1023) / 1024)).map fun k =>
      (p - BitVec.ofNat 64 r + BitVec.ofNat 64 (1024 * k), memRow (locAt p starts (k * 1024 - r)))

/-! ## One warp's own order (R281; DEDUCED, notes/assumptions/12) -/

/-- The locations of a load that it has not yet read. -/
def loadUnread (accs : List LaneAcc) (bound : List (Nat × Nat × Byte)) : List Nat :=
  (accs.flatMap (·.locs)).dedup.filter fun l => !bound.any fun b => b.1 == l

/-- The locations of a load that it has not yet read and in whose rows no pass holds it. -/
def loadDue (accs : List LaneAcc) (bound : List (Nat × Nat × Byte)) (post : List (Nat × Nat)) : List Nat :=
  (loadUnread accs bound).filter fun l => !post.any fun e => e.2 == memRow l

/-- The size of the pieces that a load reads in: whole lines only where its lanes cover them with each byte once, and
never over RMT (R169). -/
def loadPiece (accs : List LaneAcc) : Nat :=
  if accs.any fun x => spaceOf x.addr == 7 then 8 else pieceSize (accs.flatMap (·.locs))

/-- Whether the row of a location is one of a region with an unfinished pass, or has been swept by a pass: an `LD.post` there
bypasses L1 and L2 (R265, R266). -/
def State.postRow (s : State) (l : Nat) : Bool :=
  !(mget [] s.mem.sweeps (memRow l)).isEmpty || s.regions.any fun g => !g.passes.isEmpty && g.rows.contains (memRow l)

/-- Whether a lane of a load is not looked up in L1: it has the bypass policy, or it is an `LD.post` in a row of a pass
(R166, R265). -/
def State.pastL1 (s : State) (a : Args) (x : LaneAcc) (l : Nat) : Bool :=
  policyOf x.addr a.cp == .bypass || (a.func == 1 && s.postRow l)

/-- Reads the data of a load in flight, but in rows where a pass holds it. -/
def State.bindLoad (s : State) (id : Nat) : State :=
  match mfind s.pend id with
  | some (.load w a accs vals bound bad post fl) =>
    let ls := loadDue accs bound post
    if ls.isEmpty then s
    else
      let k := s.coreOf w
      let past := accs.flatMap fun x => x.locs.filter fun l => ls.contains l && s.pastL1 a x l
      let kept := accs.flatMap fun x => x.locs.filter fun l =>
        ls.contains l && policyOf x.addr a.cp == .keep && !past.contains l
      let s0 := (s.dropL1 k fun x => (dramLines past).contains x).modWarp w fun x =>
        { x with floors := raiseTo x.floors (fl.filter fun e => ls.contains e.1) }
      let (s1, r) := s0.warpRead w 0 (loadPiece accs) ls
      let s2 := s1.cacheL1 k kept false
      { s2 with pend := mins s2.pend id (.load w a accs vals (bound ++ r.rs) (bad ++ r.bad) post fl) }
  | _ => s

/-- Performs a `CSIG` in flight at its counter's home, or holds it at the kerf or for an offline die (R194, R265). -/
def State.performCsig (s : State) (id : Nat) : State :=
  match mfind s.pend id with
  | some (.csig _ wr addr l inc) =>
    let s0 := { s with pend := mdel s.pend id }
    let ps := (wr.ws.flatMap fun v => s.kerf v id (memRow l)).dedup
    let off := s.offline (homeDie l)
    if ps.isEmpty && !off then s0.countUp wr addr l inc
    else { s0 with held := s0.held ++
      [{ id, wr, bytes := (span l 8).map fun x => (x, 0), addr, passes := ps.map (·, memRow l), off, inc := some inc,
         by_ := ps }] }
  | _ => s

/-- The warps of an operation in flight whose later accesses come after it, each with its locations: every member's, of a
`CSIG` of a set or block. -/
def Pend.ownLocs : Pend → List (Nat × Nat)
  | .load v _ accs _ bound _ _ _ => (loadUnread accs bound).map (v, ·)
  | .csig _ wr _ l _ => wr.ws.flatMap fun v => (span l 8).map (v, ·)
  | .cread v _ l _ => (span l 8).map (v, ·)
  | _ => []

/-- The operations before `id` that an access of a warp to locations must follow, oldest first: those of the warp that overlap
them, or that a later one of these overlaps in a warp of both; with all their warps and locations. -/
def State.chain (s : State) (w id : Nat) (ls : List Nat) : List Nat × List (Nat × Nat) :=
  let mine := (s.pend.filter fun e => e.1 < id && !e.2.ownLocs.isEmpty).reverse
  mine.foldl (fun acc e => if e.2.ownLocs.any acc.2.contains then (e.1 :: acc.1, acc.2 ++ e.2.ownLocs) else acc)
    ([], ls.map (w, ·))

/-- Whether a near-bank operation of a warp before `id` has yet to read or write at locations (R281, R289). -/
def State.nbBefore (s : State) (w id : Nat) (ls : List Nat) : Bool :=
  s.pend.any fun e => match e.2 with
    | .nb v _ func _ pa pb ra rb len _ _ _ _ =>
      v == w && e.1 < id &&
        ((rangeRows pa ra len ++ (if func ≤ 1 then rangeRows pb rb len else [])).any fun r =>
          ls.any fun l => memRow l == r.2)
    | _ => false

/-- Whether an access of a warp to locations, as operation `id`, must wait: for an earlier load of it that a pass holds, or
for its near-bank operation in flight. -/
def State.blocked (s : State) (w id : Nat) (ls : List Nat) : Bool :=
  if s.pend.isEmpty then false
  else
    let all := (s.chain w id ls).2
    (groupBy (·.1) all).any (fun g => s.nbBefore g.1 id (g.2.map (·.2))) ||
    s.pend.any fun e => match e.2 with
      | .load v _ accs _ bound _ post _ =>
        e.1 < id && !post.isEmpty &&
          (loadUnread accs bound).any fun l => all.contains (v, l) && post.any fun x => x.2 == memRow l
      | _ => false

/-- Reads a counter at its home (R194, R284): its value, or the poison it gives (R371), and the floors of the reading
warps rise. -/
def State.readCounter (s : State) (ws : List Nat) (addr : Word) (l : Nat) : State × Word × Option Mark :=
  let ls := span l 8
  let (s1, r) := (s.carry (ws.headD 0) false ls).peekHome 0 ls
  let s2 := s1.hasRead ws r
  match r.poison ls with
  | some c => (s2, 0x7FC00D0D, some ⟨addr, 0x80 + 16 * c, 0x14⟩)
  | none => (s2, r.value ls, none)

/-- Reads the counter of a `CREAD` in flight: what is left is to write its register. -/
def State.performCread (s : State) (id : Nat) : State :=
  match mfind s.pend id with
  | some (.cread w addr l d) =>
    let (s1, x, m) := s.readCounter [w] addr l
    { s1 with pend := mins s1.pend id (.result w [{ reg := .s d, lane := 0, val := x, mark := m }] 0 false) }
  | _ => s

/-- Lets an operation in flight take its place: a load or a `CREAD` reads, a `CSIG` is performed. -/
def State.settlePend (s : State) (id : Nat) : State := ((s.bindLoad id).performCread id).performCsig id

/-- Lets every earlier operation of a warp that locations concern take its place before an access to them. -/
def State.flushOwn (s : State) (w id : Nat) (ls : List Nat) : State :=
  if s.pend.isEmpty then s else (s.chain w id ls).1.foldl State.settlePend s

/-- What an operation in flight has yet to read as a load or a `CREAD`. -/
def Pend.unread : Pend → Option (Nat × List Nat)
  | .load w _ accs _ bound _ _ _ =>
    let ls := loadUnread accs bound
    if ls.isEmpty then none else some (w, ls)
  | .cread w _ l _ => some (w, span l 8)
  | _ => none

/-- Lets every load and `CREAD` of a warp in flight read, each after what it must follow. -/
def State.settleReads (s : State) (w : Nat) : State :=
  s.pend.foldl (fun s e =>
    match e.2.unread with
    | some (v, ls) => if v = w then ((s.flushOwn w e.1 ls).bindLoad e.1).performCread e.1 else s
    | none => s) s

/-- Whether a warp has a read in flight that cannot take its place yet, so that an acquire or a release must wait. -/
def State.readsWait (s : State) (w : Nat) : Bool :=
  s.pend.any fun e =>
    (e.2.unread.elim false fun u => u.1 == w && s.blocked w e.1 u.2) ||
    (match e.2 with
      | .load v _ accs _ bound _ post _ => v == w && (loadUnread accs bound).any fun l => post.any fun x => x.2 == memRow l
      | _ => false)

/-- A read by a warp's instruction that acts at once, through the L1 of its core. -/
def State.readNow (s : State) (w src : Nat) (ls : List Nat) : State × Rd :=
  let (s1, r) := (s.flushOwn w s.nextId ls).warpRead w src (pieceSize ls) ls
  (s1.cacheL1 (s1.coreOf w) ls false, r)

/-! ## Stores -/

/-- The positions of a bypass store's writes, at the locations that its own release covers (R166). -/
def State.noteRel (s : State) (id : Nat) (ls : List Nat) : State :=
  match mfind s.pend id with
  | some (.store w far f (some v)) =>
    { s with pend := mins s.pend id (.store w far f (some (v.map fun e =>
        if ls.contains e.1 then (e.1, s.mem.pos e.1) else e))) }
  | _ => s

/-- What holds a unit of a store: the passes that its rows meet, whether its home is on an offline die, and whether its
writers hold back an earlier write to it. -/
def State.unitHeld (s : State) (id : Nat) (wr : Writer) (ls : List Nat) : Option (List (Nat × Nat) × Bool) :=
  let ps := (s.kerfPairs (wr.ws.headD 0) id ls)
  let off := ls.any fun l => s.offline (homeDie l)
  let mine := s.held.any fun h => h.wr.ws.any wr.ws.contains && h.bytes.any fun x => ls.contains x.1
  if ps.isEmpty && !off && !mine then none else some (ps, off)

/-- A reduction executed at home: without a result and without flags; a poisoned element stays poisoned (R199, R200). -/
def State.combineHome (s : State) (wr : Writer) (a : Args) (fp x : Word) (ls : List Nat) : State :=
  let (s1, r) := (s.carry (wr.ws.headD 0) true ls).peekHome 0 ls
  match r.poison ls with
  | some _ => s1
  | none =>
    let n := atomSize a.ty
    let new := (redValue a.func.toNat a.ty fp a.rnd a.sat n (r.value ls) x).1
    s1.performPiece wr true 0 (ls.zip (bytesOf n new))

/-- Stores units of bytes as operation `id`, each with its address and in pieces of n bytes: the bytes of a lane or of a
whole line, which are performed together. A unit in a row held by passes, at a home on an offline die, or behind an earlier
held write of its warp is held; the others are performed at once (R172, R265, R383). -/
def State.storeUnits (s : State) (id : Nat) (wr : Writer) (src n : Nat) (us : List (Word × List (Nat × Byte))) : State :=
  let all := us.flatMap fun u => u.2.map (·.1)
  let s0 := wr.ws.foldl (fun s w => s.flushOwn w id all) (s.carry (wr.ws.headD 0) true all)
  let free := us.filter fun u => (s0.unitHeld id wr (u.2.map (·.1))).isNone
  let ls := free.flatMap fun u => u.2.map (·.1)
  let s1 := if ls.isEmpty then s0 else (s0.recall ls).checkWrites src ls
  let s2 := (free.foldl (fun s u => s.writePieces wr false n u.2) s1).noteRel id ls
  { s2 with held := s2.held ++ us.filterMap fun u =>
      (s0.unitHeld id wr (u.2.map (·.1))).map fun h =>
        { id, wr, bytes := u.2, addr := u.1, passes := h.1, off := h.2, by_ := (h.1.map (·.1)).dedup } }

/-- Stores bytes as operation `id`, each piece a unit of its own. -/
def State.storeAs (s : State) (id : Nat) (wr : Writer) (src : Nat) (addr : Word) (bs : List (Nat × Byte)) : State :=
  let n := pieceSize (bs.map (·.1))
  s.storeUnits id wr src n ((groupBy (fun b => b.1 / n) bs).map fun g => (addr, g.2))

/-- Stores bytes as an operation of its own. -/
def State.store (s : State) (ws : List Nat) (src : Nat) (addr : Word) (bs : List (Nat × Byte)) : State :=
  let (id, s1) := s.fresh
  let s2 := s1.storeAs id (s1.writer ws) src addr bs
  s2.cacheL1 (s2.coreOf (ws.headD 0)) (bs.map (·.1)) true

/-- Whether a warp has writes that are held, or reductions that wait for an offline die; those over RMT to this device count
only where `sys` (R285). -/
def State.hasHeld (s : State) (w : Nat) (sys : Bool) : Bool :=
  s.held.any (fun h => h.wr.ws.contains w && (sys || !h.wr.rmt)) ||
  s.cores.any fun e => e.2.uLines.any fun u => u.warps.contains w && s.offline (homeDie (128 * u.line))

/-! ## Releases and acquires -/

/-- Where a warp's party is placed (Table 12.1). -/
def State.placeOf (s : State) (w : Nat) : Nat := s.coreOf w

/-- Members of a set or block together have the highest of their floors (R276). -/
def State.joinMembers (s : State) (ws : List Nat) : State :=
  if ws.length ≤ 1 then s
  else
    let fl := joinFloors (ws.map fun w => (s.warp w).floors)
    let rmt := joinFloors (ws.map fun w => (s.warp w).rmtFl)
    s.modWarps ws fun w => { w with floors := fl, rmtFl := rmt }

/-- Whether a release by warps at a scope must wait (Table 12.7, R277, R283): for writes that are held, for reads that cannot
take their place yet, for a `CSIG` in flight, and at sys for the writes over RMT and HST. -/
def State.relWaits (s : State) (ws : List Nat) (sc : MScope) : Bool :=
  let sys := sc == .sys
  ws.any fun w =>
    s.hasHeld w sys || s.readsWait w ||
    s.pend.any fun e => match e.2 with
      | .csig _ wr _ _ _ => wr.ws.contains w && (sys || !wr.rmt)
      | .store v far _ _ => v == w && far && sys
      | .result v _ _ _ => v == w && sys && !(mget [] s.far e.1).isEmpty
      | _ => false

/-- A release wider than blk writes back every dirty L1 line that holds a write in its snapshot, with the poison of its sectors,
and keeps a clean copy (R283, R367). -/
def State.cleanL1 (s : State) (k : Nat) (view : SMap Nat) : State :=
  let back (e : Nat × SMap Nat) : Bool := e.2.any fun x => x.2 ≤ mget 0 view x.1
  let bad := ((s.core k).l1Err.filter fun e => e.2 == .poison && (mfind (s.core k).l1 (e.1 / 4)).elim false fun d => back (e.1 / 4, d)).map (·.1)
  let s1 := s.modCore k fun c => { c with l1 := c.l1.map fun e => if back e then (e.1, []) else e }
  bad.foldl (fun s u => s.setSector (32 * u) .poison) s1

/-- Every earlier read of some warps takes its place. -/
def State.settleAll (s : State) (ws : List Nat) : State := if s.pend.isEmpty then s else ws.foldl State.settleReads s

/-- The reductions of some warps go home. -/
def State.flushReds (s : State) (ws : List Nat) : State :=
  if s.cores.all fun e => e.2.uLines.isEmpty then s else s.flushWhere fun _ u => u.warps.any ws.contains

/-- A release by warps together at a scope (R277): every earlier read of theirs has taken its place, their reductions have
gone home, and each of them has the highest of their floors, which the snapshot holds. Answers its name. -/
def State.release (s : State) (ws : List Nat) (sc : MScope) : State × Nat :=
  let s2 := ((s.settleAll ws).flushReds ws).joinMembers ws
  let x := s2.warp (ws.headD 0)
  let view := if sc = .sys then x.fl else x.floors
  let id := s2.nextId
  let s3 := { s2 with
    nextId := id + 1
    mem := { s2.mem with rels := mins s2.mem.rels id { place := s2.placeOf (ws.headD 0), scope := sc, view } } }
  let s4 := if sc = .blk then s3 else s3.cleanL1 (s3.coreOf (ws.headD 0)) view
  (s4.modWarps ws fun w => { w with rels := w.rels ++ [id] }, id)

/-- An acquire by warps together at a scope (R278, R279): their earlier reads have taken their place, each member sees what
any of them has observed, and one wider than blk discards the clean lines of the core's L1 (R283). -/
def State.acquire (s : State) (ws : List Nat) (sc : MScope) : State :=
  let s0 := (s.settleAll ws).joinMembers ws
  let s1 := if sc = .blk then s0
    else s0.modCore (s0.coreOf (ws.headD 0)) fun c => { c with l1 := c.l1.filter fun e => !e.2.isEmpty }
  let seen := (ws.flatMap fun w => (s1.warp w).seen).dedup
  let fl := s1.mem.acquired (s1.placeOf (ws.headD 0)) sc seen (s1.warp (ws.headD 0)).floors
  s1.modWarps ws fun w => { w with floors := fl, seen }

/-- The floors rise as if the releases named had been observed (R278, cases 2 and 3). -/
def State.observe (s : State) (ws ids : List Nat) : State :=
  s.modWarps ws fun w => { w with seen := (w.seen ++ ids).dedup }

end Sys2Proof.Machine
end

