-- ==== Sys2Proof/Machine/Translate.lean ====
section
/-! DEFINITION. From pointers to places: the address spaces (spec/07 R151 to R156), the page tables (R157 to R159), the
segments' layouts (R160), the REG window (spec/03 R59) and the diagnostic frames (spec/21 R372). -/

namespace Sys2Proof.Machine

/-- A fault of an access: CAUSE.CODE, CAUSE.DETAIL and BADADDR. -/
structure XFault where
  code   : Nat
  detail : Nat
  addr   : Word
  deriving DecidableEq, Repr

/-- How an access reads: what it does, the lane of a lane-scope access (for LOC's lane view), and its size and policy,
which the diagnostic frames check. -/
structure How where
  write  : Bool := false
  fetch  : Bool := false
  lane   : Option Nat := none
  frame  : Bool := false             -- an aligned 8 B LD or ST with the bypass policy
  deriving DecidableEq, Repr

/-- DETAIL bits 6 and 0 (R159). -/
def How.detail (h : How) : Nat := (if h.fetch then 0x40 else 0) + (if h.write then 1 else 0)

/-- Where one byte of an access lies. -/
inductive Place where
  | mem (l : Nat)
  | reg (w off : Nat)                -- a byte of a warp's register window (R59)
  | remote (dev : Nat) (va : Nat)
  | host (adapter va : Nat)
  | frame (stack off : Nat)
  deriving DecidableEq, Repr

/-! ## Page tables -/

/-- The page size of a leaf at a level (R157). -/
def pageSize (lvl : Nat) : Nat := if lvl = 0 then 2 ^ 14 else if lvl = 1 then 2 ^ 21 else 2 ^ 30

/-- The index of an address at a level (R157). -/
def walkIndex (lvl va : Nat) : Nat :=
  if lvl = 3 then va / 2 ^ 39 % 512 else if lvl = 2 then va / 2 ^ 30 % 512
  else if lvl = 1 then va / 2 ^ 21 % 512 else va / 2 ^ 14 % 128

/-- FRAME of an entry as an address (R158). -/
def entryFrame (e : Word) : Nat := (e.extractLsb' 10 38).toNat * 1024

/-- Whether an entry has V = 0, a set reserved bit, an illegal LEAF or a misaligned FRAME at a level (R159, step 1). -/
def entryBad (host : Bool) (lvl : Nat) (e : Word) : Bool :=
  let leaf := e.getLsbD 1
  let f := entryFrame e
  !e.getLsbD 0 || e.extractLsb' 58 6 != 0 || e.extractLsb' 6 4 != 0 || (!host && e.extractLsb' 48 10 != 0) ||
  (leaf && lvl == 3) || (!leaf && lvl == 0) ||
  (if leaf then f % pageSize lvl != 0 || (!host && 2 ^ 39 ≤ f)
   else e.extractLsb' 2 4 != 0 || 2 ^ 39 ≤ f || f % (if lvl = 1 then 1024 else 4096) != 0)

/-- Whether a leaf's layout does not fit its segment (R160). -/
def leafLayoutBad (fw : FwConfig) (lvl : Nat) (e : Word) : Bool :=
  let f := entryFrame e
  let rm := isRM fw (f / 2 ^ 30)
  e.getLsbD 5 != rm || (!rm && (lvl == 2 || 0x38000000 ≤ f % 2 ^ 30))

/-- Reads the entry of an address in a table at a level: a leaf or a pointer that passes step 1 of R159, or the fault; of a
poisoned one firmware is notified (R371). -/
def State.tableEntry (s : State) (host : Bool) (va lvl tab : Nat) : State × Except (Nat × Nat) Word :=
  let a := tab + 8 * walkIndex lvl va
  let (s1, r) := s.peekHome 0 (span a 8)
  match r.poison (span a 8) with
  | some c => (s1.report (homeDie a) (.tablePoison a), .error (0x14, c))
  | none =>
    let e := r.value (span a 8)
    if entryBad host lvl e || (e.getLsbD 1 && !host && leafLayoutBad s1.island.fw lvl e) then (s1, .error (0x10, lvl))
    else (s1, .ok e)

/-- A table walk from a table at a level: the leaf and its level, or the level that failed. -/
def State.walk (s : State) (host : Bool) (va : Nat) : Nat → Nat → State × Except (Nat × Nat) (Word × Nat)
  | 0, tab =>
    match s.tableEntry host va 0 tab with
    | (s1, .error x) => (s1, .error x)
    | (s1, .ok e) => (s1, .ok (e, 0))
  | n + 1, tab =>
    match s.tableEntry host va (n + 1) tab with
    | (s1, .error x) => (s1, .error x)
    | (s1, .ok e) => if e.getLsbD 1 then (s1, .ok (e, n + 1)) else s1.walk host va n (entryFrame e)

/-- The permission check of step 2 of R159. -/
def leafDenied (h : How) (e : Word) : Bool :=
  (h.write && (!e.getLsbD 2 || e.getLsbD 4)) || (h.fetch && !e.getLsbD 3)

/-- DETAIL of a permission fault at a leaf (R159). -/
def leafDetail (h : How) (e : Word) : Nat := h.detail + (if e.getLsbD 4 then 2 else 0)

/-- The cached translations of an address. -/
def Mem.tlbHits (m : Mem) (ctx : Nat) (host : Bool) (va : Nat) : List Tlb :=
  m.tlb.filter fun t => t.ctx == ctx && t.host == host && va / t.size == t.vpage

/-- Enters a translation in the cache; only `TLBI` drops one (R159). -/
def Mem.tlbFill (m : Mem) (ctx : Nat) (host : Bool) (va : Nat) (e : Word) (lvl : Nat) : Mem :=
  let t : Tlb := { ctx, host, vpage := va / pageSize lvl, size := pageSize lvl, entry := e }
  if m.tlb.contains t then m else { m with tlb := t :: m.tlb }

/-- What a leaf entry of a page of some size gives an access: the entry and the address, or the permission fault. -/
def leafGives (h : How) (p : Word) (va : Nat) (e : Word) (size : Nat) : Except XFault (Word × Nat) :=
  if leafDenied h e then .error ⟨0x11, leafDetail h e, p⟩ else .ok (e, entryFrame e + va % size)

/-- What a walk of the tables gives an access; a leaf found is cached. -/
def State.walked (s : State) (c : Nat) (host : Bool) (h : How) (p : Word) (va : Nat)
    (r : Except (Nat × Nat) (Word × Nat)) : State × Except XFault (Word × Nat) :=
  match r with
  | .ok (e, lvl) => ({ s with mem := s.mem.tlbFill c host va e lvl }, leafGives h p va e (pageSize lvl))
  | .error (0x14, k) => (s, .error ⟨0x14, 16 * k, p⟩)
  | .error (code, lvl) => (s, .error ⟨code, h.detail + 16 * lvl, p⟩)

/-- Translates an address of a context: the leaf entry and the address it gives. Where a cached translation is not what the
table gives, either may be used (R123): a free choice (DEDUCED, notes/assumptions/28). -/
def State.translate (s : State) (c : Nat) (host : Bool) (h : How) (p : Word) (va : Nat) :
    State × Except XFault (Word × Nat) :=
  let rec_ := (s.ctx c).crec
  let (s1, r) := s.walk host va 3 (if host then rec_.hroot else rec_.droot)
  let hits := s1.mem.tlbHits c host va
  let agrees (t : Tlb) : Bool := match r with
    | .ok (e, lvl) => t.entry == e && t.size == pageSize lvl
    | .error _ => false
  if hits.all agrees then s1.walked c host h p va r
  else
    let (n, s2) := s1.freshFree
    match hits[Config.pickCached n % (hits.length + 1)]? with
    | some t => (s2, leafGives h p va t.entry t.size)
    | none => s2.walked c host h p va r

/-! ## Spaces -/

/-- Whether a context's grant gives offset `o` of vault `v` (R153). -/
def vaultGranted (r : CtxRec) (v o : Nat) : Bool :=
  r.vgrant.any fun g => g.1 == v && g.2.1 * 65536 ≤ o && o < g.2.2 * 65536

/-- A translated device address as a place: plain memory, or a byte of a diagnostic frame (R372). -/
def State.devPlace (s : State) (c : Nat) (h : How) (p : Word) (dpa : Nat) : Except XFault Place :=
  let st := dpa / 2 ^ 36
  match s.island.fw.frames[st]? with
  | some f =>
    if f / 2 ^ 14 == dpa / 2 ^ 14 then
      if h.frame && (s.ctx c).crec.priv then .ok (.frame st (dpa % 2 ^ 14)) else .error ⟨0x11, h.detail, p⟩
    else .ok (.mem dpa)
  | none => .ok (.mem dpa)

/-- A byte of a device address of a context. -/
def State.devByte (s : State) (c : Nat) (h : How) (p : Word) (va : Nat) : State × Except XFault Place :=
  match s.translate c false h p va with
  | (s1, .error e) => (s1, .error e)
  | (s1, .ok (_, dpa)) => (s1, s1.devPlace c h p dpa)

/-- The window byte of a LOC offset: the warp view, or a lane's view (R155). -/
def locByte (lane : Option Nat) (x : Nat) : Nat :=
  match lane with
  | none => x
  | some l => 256 * (x / 8) + 8 * l + x % 8

/-- Whether a REG offset names a register byte of a warp with `n` vector registers (R59). -/
def regOffOk (n off : Nat) : Bool :=
  off < 256 * n || (0x10000 ≤ off && off < 0x10200) || (0x10200 ≤ off && off < 0x10220)

/-- The resident warp in a core's warp slot. -/
def State.warpInSlot (s : State) (core slot : Nat) : Option Nat :=
  (s.warps.find? fun e => e.2.slot == slot && (s.blk e.2.blk).core == core).map (·.1)

/-- A byte of a REG pointer (R59, R60). Of a pointer with OTHER = 1 the spec does not say what a slot without a resident warp
does, nor whether the space or the permission is checked first: the model raises a space fault there, and checks the
pointer's own fields before PRIV and the slot after it (DESIGN CHOICE, notes/assumptions/44). -/
def State.regByte (s : State) (w : Nat) (h : How) (p : Word) : Except XFault Place :=
  let off := (p.extractLsb' 0 18).toNat
  let other := p.getLsbD 53
  let slot := (p.extractLsb' 54 6).toNat
  let space : Except XFault Place := .error ⟨0x13, h.detail, p⟩
  if p.extractLsb' 18 35 != 0 || (!other && slot != 0) then space
  else if !other then (if regOffOk (s.warp w).nregs off then .ok (.reg w off) else space)
  else if !(s.ctxOf w).crec.priv then .error ⟨0x11, h.detail, p⟩
  else
    match s.warpInSlot (s.coreOf w) slot with
    | none => space
    | some t => if regOffOk (s.warp t).nregs off then .ok (.reg t off) else space

/-- A byte of a pointer of a warp (R151 to R156). -/
def State.place (s : State) (w : Nat) (h : How) (p : Word) : State × Except XFault Place :=
  let x := s.warp w
  let r := (s.ctx x.ctx).crec
  let va := (p.extractLsb' 0 48).toNat
  let space : State × Except XFault Place := (s, .error ⟨0x13, h.detail, p⟩)
  let high := p.extractLsb' 48 12 != 0
  match spaceOf p with
  | 0 | 1 | 2 => if high then space else s.devByte x.ctx h p va
  | 3 =>
    let v := va / 2 ^ 40
    let o := va % 2 ^ 40
    if high || 160 ≤ v || 0x3000000 ≤ o then space
    else if vaultGranted r v o then (s, .ok (.mem (vaultLoc v o)))
    else (s, .error ⟨0x11, h.detail, p⟩)
  | 4 =>
    let b := s.blk x.blk
    if high || b.scrKb * 1024 ≤ va then space else (s, .ok (.mem (ubsLoc b.core (b.scrBase + va))))
  | 5 =>
    let y := locByte h.lane va
    if high || x.locSize ≤ y then space else s.devByte x.ctx h p ((x.locBase.toNat + y) % 2 ^ 48)
  | 6 => (s, s.regByte w h p)
  | 7 =>
    let d := (p.extractLsb' 48 10).toNat
    if p.extractLsb' 58 2 != 0 then space
    else if d != s.island.fw.deviceNum && !r.peers.contains d then (s, .error ⟨0x11, h.detail, p⟩)
    else (s, .ok (.remote d va))
  | 8 =>
    if high then space
    else
      match s.translate x.ctx true h p va with
      | (s1, .error e) => (s1, .error e)
      | (s1, .ok (e, b)) => (s1, .ok (.host (e.extractLsb' 48 10).toNat b))
  | _ => space

/-- The fabric number that an access leaves this device for, if it does (R156). -/
def State.partnerOf (s : State) : Place → Option Nat
  | .remote d _ => if d = s.island.fw.deviceNum then none else some d
  | .host a _ => some a
  | _ => none

/-- Whether packets to a fabric number are held: no port of the fabric, the device's only attachment (R15), is up, or ports
reach that number and all of them are down (R381) (DEDUCED, notes/assumptions/37). -/
def State.pathHeld (s : State) (partner : Nat) : Bool :=
  !s.fabricUp ||
    (s.ports.any (fun e => e.2.partner == some partner) && s.ports.all fun e => e.2.partner != some partner || !e.2.up)

/-- The accesses over RMT and HST of an operation's lanes. -/
def State.farOf (s : State) (addr : Nat → Word) (ps : List (Nat × List Place)) : List FarAcc :=
  ps.filterMap fun e => (e.2.head?.bind s.partnerOf).map fun d => ⟨d, e.1 % 32, addr e.1, s.timer⟩

/-- Notes the accesses over RMT and HST of an operation of a warp in flight, each of n bytes. -/
def State.noteFar (s : State) (w n id : Nat) (xs : List FarAcc) : State :=
  if xs.isEmpty then s else { s.carryFar w n xs with far := mins s.far id xs }

/-- Whether an operation in flight waits for a held path. -/
def State.farHeld (s : State) (id : Nat) : Bool := (mget [] s.far id).any fun f => s.pathHeld f.partner

/-- The bytes of an access of n bytes at a pointer: the first byte that fails decides (R152). -/
def State.places (s : State) (w : Nat) (h : How) (p : Word) : Nat → State × Except XFault (List Place)
  | 0 => (s, .ok [])
  | n + 1 =>
    match s.places w h p n with
    | (s1, .error e) => (s1, .error e)
    | (s1, .ok ps) =>
      match s1.place w h (p + BitVec.ofNat 64 n) with
      | (s2, .error e) => (s2, .error e)
      | (s2, .ok q) => (s2, .ok (ps ++ [q]))

/-- The locations of places that are plain memory. -/
def memLocs (ps : List Place) : List Nat :=
  ps.filterMap fun p => match p with
    | .mem l => some l
    | _ => none

/-- A byte that another device's access reaches: the device address translated through the tables bound to the issuing
device and context (R156). -/
def State.remoteByte (s : State) (dev c : Nat) (h : How) (p : Word) (va : Nat) : State × Except XFault Place :=
  match mfind s.bound (dev * 65536 + c) with
  | none => (s, .error ⟨0x10, h.detail + 0x30, p⟩)
  | some local_ => s.devByte local_ h p va

/-- Fetches a byte of code: only DEV and DEVS, through a leaf with X = 1, at or after the position at which the stage
was launched (R62, R63). BADADDR of a fault is the word's address. -/
def State.fetchByte (s : State) (w : Nat) (word p : Word) : State × Except XFault Byte :=
  let x := s.warp w
  if 2 ≤ spaceOf p || p.extractLsb' 48 12 != 0 then (s, .error ⟨0x13, 0x40, word⟩)
  else
    match s.devByte x.ctx { fetch := true } word (p.extractLsb' 0 48).toNat with
    | (s1, .error e) => (s1, .error e)
    | (s1, .ok (.mem l)) =>
      let fl : SMap Nat := [(l, x.fetchFloor)]
      let (s2, r) := s1.readHome 0 8 fl [l]
      match r.poison [l] with
      | some c => (s2, .error ⟨0x14, 0x40 + 16 * c, word⟩)
      | none => (s2, .ok (r.byte l))
    | (s1, .ok _) => (s1, .error ⟨0x11, 0x40, word⟩)

/-- Fetches one word of an instruction. -/
def State.fetchWord (s : State) (w : Nat) (p : Word) : State × Except XFault IWord :=
  (List.range 4).foldl (fun acc i =>
    match acc with
    | (s, .error e) => (s, .error e)
    | (s, .ok v) =>
      match s.fetchByte w p (p + BitVec.ofNat 64 i) with
      | (s1, .error e) => (s1, .error e)
      | (s1, .ok b) => (s1, .ok (v ||| (b.setWidth 32 <<< (8 * i))))) (s, .ok 0)

end Sys2Proof.Machine
end

