-- ==== Sys2Proof/Machine/Regs.lean ====
section
/-! DEFINITION. The registers of a warp and of its core, with their poison marks (spec/03 R50 to R55, spec/21 R368), the
special registers (spec/03 R56), and the trace ring (spec/20 R361, R362). -/

namespace Sys2Proof.Machine

/-! ## Register classes -/

/-- Lane `l` of v`n`. -/
def Warp.vget (w : Warp) (n l : Nat) : Word := mget 0 w.v (32 * n + l)

/-- Writes a whole lane of v`n`: its mark and what is wrong with its word are gone. -/
def Warp.vset (w : Warp) (n l : Nat) (x : Word) : Warp :=
  { w with v := mset 0 w.v (32 * n + l) x, vMark := mset none w.vMark (32 * n + l) none, words := mdel w.words (32 * n + l) }

/-- Writes part of a lane: the mark is left. -/
def Warp.vsetPart (w : Warp) (n l : Nat) (x : Word) : Warp := { w with v := mset 0 w.v (32 * n + l) x }

/-- s`n`. -/
def Warp.sget (w : Warp) (n : Nat) : Word := mget 0 w.s n

/-- Writes s`n`: its mark, and what a token in it had to report, are cleared. -/
def Warp.sset (w : Warp) (n : Nat) (x : Word) : Warp :=
  { w with
    s := mset 0 w.s n x
    sMark := mset none w.sMark n none
    words := mdel w.words (8192 + n)
    tokenErr := mdel w.tokenErr n
    batches := w.batches.filter fun b => !(b.reg == n && b.written) }

/-- p`n`; p0 reads as all ones (R52). -/
def Warp.pget (w : Warp) (n : Nat) : Mask := if n = 0 then BitVec.allOnes 32 else mget 0 w.p n

/-- Writes p`n`; a write to p0 is discarded (R52). -/
def Warp.pset (w : Warp) (n : Nat) (x : Mask) : Warp :=
  if n = 0 then w else { w with p := mset 0 w.p n x, pMark := mset none w.pMark n none }

/-- q`n` of a block. -/
def Block.qget (b : Block) (n : Nat) : Word := mget 0 b.q n

/-- Writes q`n`. -/
def Block.qset (b : Block) (n : Nat) (x : Word) : Block :=
  { b with q := mset 0 b.q n x, qMark := mset none b.qMark n none, qWords := mdel b.qWords n }

/-- What q`n` was before the writes of clock `clk`, where it has been written in that clock (R55). -/
def Block.qBefore (b : Block) (clk n : Nat) : Option QWas :=
  if b.qAt = clk then b.qWas.find? fun e => e.reg == n else none

/-- q`n` as an instruction of warp `w` that issues in clock `clk` reads it: another warp's write of the same clock has not
landed (R55), and its own is awaited (R46). -/
def Block.qread (b : Block) (clk w n : Nat) : Word :=
  match b.qBefore clk n with
  | some e => if e.by_.contains w then b.qget n else e.val
  | none => b.qget n

/-- The mark of q`n` as an instruction of warp `w` that issues in clock `clk` sees it. -/
def Block.qreadMark (b : Block) (clk w n : Nat) : Option Mark :=
  match b.qBefore clk n with
  | some e => if e.by_.contains w then mget none b.qMark n else e.mark
  | none => mget none b.qMark n

/-- The highest-numbered warp that has issued a write of q`n` in clock `clk`; 0 where none has. -/
def Block.qTop (b : Block) (clk n : Nat) : Nat := (b.qBefore clk n).elim 0 QWas.top

/-- Writes q`n` in clock `clk` for the warps `ws`, of which the first issues, keeping what instructions of the same clock
still read; of several writes of one clock the highest-numbered warp's remains (R55). -/
def Block.qput (b : Block) (clk : Nat) (ws : List Nat) (n : Nat) (x : Word) : Block :=
  let olds := if b.qAt = clk then b.qWas else []
  let e : QWas := (b.qBefore clk n).getD { reg := n, val := b.qget n, mark := mget none b.qMark n }
  let w := ws.headD 0
  { (if w < b.qTop clk n then b else b.qset n x) with
    qAt := clk
    qWas := { e with by_ := e.by_ ++ ws, top := Nat.max (b.qTop clk n) w } :: olds.filter fun o => o.reg != n }

/-! ## Registers shared by warps (R121, R213) -/

/-- What an instruction that issues in clock `clk` finds in a shared register: the value before the writes of that clock. -/
def seenAt {α : Type} (was : Option (Was α)) (clk : Nat) (now_ : α) : α :=
  match was with
  | some x => if x.at_ = clk then x.val else now_
  | none => now_

/-- Notes a write in clock `clk` of a register that held `old`. -/
def noteWas {α : Type} (was : Option (Was α)) (clk : Nat) (old : α) : Was α :=
  match was with
  | some x => if x.at_ = clk then x else ⟨clk, old⟩
  | none => ⟨clk, old⟩

/-- The predicate of an instruction, negated by PN (R27). -/
def Warp.pred (w : Warp) (p : Nat) (pn : Bool) : Mask := if pn then ~~~(w.pget p) else w.pget p

/-- The lanes that an instruction acts on at lane scope (R27). -/
def Warp.acted (w : Warp) (a : Args) : Mask := w.exec &&& w.pred a.p.toNat a.pn

/-- The lanes of a mask, ascending. -/
def lanesOf (m : Mask) : List Nat := (List.range 32).filter fun i => m.getLsbD i

/-- A mask from lanes. -/
def maskOf (ls : List Nat) : Mask := ls.foldl (fun m l => m ||| (1 <<< l)) 0

/-! ## Marks (R171, R368) -/

/-- The poison pattern of n bytes. -/
def poisonPattern (n : Nat) : Word := if n = 1 then 0x80 else if n = 2 then 0x7E0D else 0x7FC00D0D

/-- Marks a lane. -/
def Warp.markV (w : Warp) (n l : Nat) (m : Mark) : Warp :=
  { w with vMark := mset none w.vMark (32 * n + l) (some m) }

/-- Marks s`n`. -/
def Warp.markS (w : Warp) (n : Nat) (m : Mark) : Warp := { w with sMark := mset none w.sMark n (some m) }

/-- The mark of a lane. -/
def Warp.vmark (w : Warp) (n l : Nat) : Option Mark := mget none w.vMark (32 * n + l)

/-- The mark of s`n`. -/
def Warp.smark (w : Warp) (n : Nat) : Option Mark := mget none w.sMark n

/-- The address that a marked register keeps: that of its lowest marked lane (R368). -/
def Warp.vmarkReg (w : Warp) (n : Nat) : Option Mark :=
  ((List.range 32).findSome? fun l => w.vmark n l)

/-! ## The scoreboard (R49, R178) -/

/-- Whether an instruction that names s`n` waits: a result is awaited, or a sealed batch is to be written. -/
def Warp.sBusy (w : Warp) (n : Nat) : Bool :=
  w.busy.contains (.s n) || w.batches.any fun b => b.reg == n && b.sealed && !b.written

/-- Whether s`n` holds an open batch (R179). -/
def Warp.openBatch (w : Warp) (n : Nat) : Bool := w.batches.any fun b => b.reg == n && !b.sealed

/-- The batches of a warp that are open, or sealed and not complete (R178). -/
def Warp.outstanding (w : Warp) : Nat := (w.batches.filter fun b => b.value.isNone).length

/-- The warp's next sequence number: modulo 2^32, skipping 0 (R178). -/
def Warp.takeSeq (w : Warp) : Nat × Warp :=
  (w.nextSeq, { w with nextSeq := if w.nextSeq + 1 = 2 ^ 32 then 1 else w.nextSeq + 1 })

/-! ## Register windows as memory (R59) -/

/-- The byte of a register window. -/
def Warp.winByte (w : Warp) (off : Nat) : Byte :=
  if off < 0x10000 then (w.vget (off / 256) (off % 256 / 8)).extractLsb' (8 * (off % 8)) 8
  else if off < 0x10200 then (w.sget ((off - 0x10000) / 8)).extractLsb' (8 * (off % 8)) 8
  else (w.pget ((off - 0x10200) / 4)).extractLsb' (8 * (off % 4)) 8

/-- Replaces byte `i` of a value. -/
def setByte (x : Word) (i : Nat) (b : Byte) : Word := setElem x 8 i b.toNat

/-- Stores a byte into a register window, leaving marks; one to p0 is discarded. -/
def Warp.winStore (w : Warp) (off : Nat) (b : Byte) : Warp :=
  if off < 0x10000 then
    let n := off / 256
    let l := off % 256 / 8
    w.vsetPart n l (setByte (w.vget n l) (off % 8) b)
  else if off < 0x10200 then
    let n := (off - 0x10000) / 8
    { w with s := mset 0 w.s n (setByte (w.sget n) (off % 8) b) }
  else
    let n := (off - 0x10200) / 4
    if n = 0 then w else { w with p := mset 0 w.p n ((setByte ((w.pget n).setWidth 64) (off % 4) b).setWidth 32) }

/-- A store has overwritten the whole lane or register that begins at an offset of its window, if one begins there and ends
before `top`: its mark and what a token there had to report are cleared (R60, R182, R368). -/
def Warp.winWhole (w : Warp) (top off : Nat) : Warp :=
  if off < 0x10200 then
    if off % 8 != 0 || top < off + 8 then w
    else if off < 0x10000 then w.vset (off / 256) (off % 256 / 8) (w.vget (off / 256) (off % 256 / 8))
    else w.sset ((off - 0x10000) / 8) (w.sget ((off - 0x10000) / 8))
  else if off % 4 != 0 || top < off + 4 then w
  else w.pset ((off - 0x10200) / 4) (w.pget ((off - 0x10200) / 4))

/-- Stores bytes into a register window. -/
def Warp.winPut (w : Warp) (off : Nat) (bs : List Byte) : Warp :=
  let w1 := bs.zipIdx.foldl (fun y b => y.winStore (off + b.2) b.1) w
  (span off bs.length).foldl (fun y o => y.winWhole (off + bs.length) o) w1

/-! ## Special registers -/

/-- TRACE_CTL as read: HEAD in bits 40:32 (R361). -/
def Core.traceWord (c : Core) : Word := c.traceCtl ||| (BitVec.ofNat 64 c.head <<< 32)

/-- EBUDGET as read: RATE, CAP and the core's LEVEL (R305). -/
def ebudgetWord (rate cap level : Nat) : Word := BitVec.ofNat 64 (level + cap * 2 ^ 24 + rate * 2 ^ 48)

/-- RATE and CAP as an instruction of warp `w` that issues now finds them (R121). -/
def State.budgetOf (s : State) (w : Nat) : Nat × Nat :=
  let c := s.ctx (s.warp w).ctx
  seenAt c.ebWas s.clock (c.ebRate, c.ebCap)

/-- The level of its core as an instruction of warp `w` that issues now finds it (R121, R306). -/
def State.levelOf (s : State) (w : Nat) : Nat :=
  let k := s.core (s.coreOf w)
  seenAt k.levelWas s.clock k.level

/-- A special register as `SRD` reads it at warp scope (Table 3.2). -/
def State.srdValue (s : State) (w : Nat) (sel : Nat) : Word :=
  let x := s.warp w
  let b := s.blk x.blk
  let c := s.ctx x.ctx
  let k := s.core b.core
  match sel with
  | 0x01 => BitVec.ofNat 64 s.timer
  | 0x02 => BitVec.ofNat 64 c.energy
  | 0x03 => ebudgetWord (s.budgetOf w).1 (s.budgetOf w).2 (s.levelOf w)
  | 0x04 => x.fpmode
  | 0x05 => x.lossScale
  | 0x06 => x.ovf
  | 0x07 => x.ashape
  | 0x08 => x.ssp
  | 0x09 => x.exec.setWidth 64
  | 0x10 => x.cause
  | 0x11 => x.epc
  | 0x12 => x.badaddr
  | 0x13 => BitVec.ofNat 64 x.ctx
  | 0x14 => seenAt c.dumpWas s.clock c.dumpBase
  | 0x15 => { k with traceCtl := seenAt k.traceWas s.clock k.traceCtl }.traceWord
  | 0x20 => BitVec.ofNat 64 b.stage
  | 0x21 => BitVec.ofNat 64 b.cluster
  | 0x22 => BitVec.ofNat 64 b.bid
  | _ => BitVec.ofNat 64 x.wid

/-! ## The trace ring -/

/-- The recording control that a KIND needs (R362): none where it is always recorded. -/
def traceBit (kind : Nat) : Option Nat :=
  match kind with
  | 1 => some 0
  | 2 | 3 | 9 => none
  | 7 => some 2
  | _ => some 1

/-- Writes a record into a core's ring (R362). -/
def Core.traceRec (c : Core) (timer kind slot : Nat) (pc value : Word) : Core :=
  let dt := Nat.min (timer - c.traceAt) 255
  let lo := BitVec.ofNat 64 (dt + kind * 2 ^ 8 + slot * 2 ^ 12 + (pc.toNat / 4 % 2 ^ 46) * 2 ^ 18)
  { c with ring := mset (0, 0) c.ring c.head (value, lo), head := (c.head + 1) % 512, traceAt := timer }

/-- Warps in rising order of their slots: that of the records of one clock (R362). -/
def State.bySlot (s : State) (ws : List Nat) : List Nat := sortBy (fun w => (s.warp w).slot) ws

/-- Records an event of a warp at its instruction, if TRACE_CTL records it (DEDUCED, notes/assumptions/26). -/
def State.trace (s : State) (w kind : Nat) (value : Word) : State :=
  let k := s.coreOf w
  let c := s.core k
  let ctl := seenAt c.traceWas s.clock c.traceCtl
  let on := !ctl.getLsbD 3 && (match traceBit kind with
    | none => true
    | some b => ctl.getLsbD b)
  if on then s.modCore k fun c => c.traceRec s.timer kind (s.warp w).slot (s.warp w).pc value else s

/-! ## Register words in the UBS (R168, R366) -/

/-- What a register word that cannot be corrected delivers: the poison pattern, with a mark that names the word in the warp's
own window (DESIGN CHOICE, notes/assumptions/36). -/
def wordMark (off : Nat) : Mark := { addr := BitVec.ofNat 64 (6 * 2 ^ 60 + off), detail := 0x80 }

/-- Lane `l` of v`n`, s`n`, or p`n` becomes poisoned, by the number of its word. -/
def Warp.poisonWord (w : Warp) (k : Nat) : Warp :=
  let p (n : Nat) (w : Warp) : Warp :=
    if n = 0 then w
    else { w.pset n ((poisonPattern 4).setWidth 32) with pMark := mset none w.pMark n (some (wordMark (0x10200 + 4 * n))) }
  if k < 8192 then (w.vset (k / 32) (k % 32) (poisonPattern 8)).markV (k / 32) (k % 32) (wordMark (256 * (k / 32) + 8 * (k % 32)))
  else if k < 8256 then
    let n := k - 8192
    { w with s := mset 0 w.s n (poisonPattern 8) }.markS n (wordMark (0x10000 + 8 * n))
  else
    let n := 2 * (k - 8256)
    p (n + 1) (p n w)

/-- The check of one register word of a warp: a single wrong bit is corrected in place, and worse poisons what it holds. -/
def State.checkWord (s : State) (w k : Nat) : State :=
  let x := s.warp w
  let core := s.coreOf w
  match mget .clean x.words k with
  | .clean => s
  | .single _ => (s.modWarp w fun y => { y with words := mdel y.words k }).countCorr (ubsLoc core 0)
  | _ => (s.modWarp w fun y => { y.poisonWord k with words := mdel y.words k }).report (core / 40) (.uncorrectable k)

/-- The same of a block-shared register. -/
def State.checkQ (s : State) (b n : Nat) : State :=
  let x := s.blk b
  match mget .clean x.qWords n with
  | .clean => s
  | .single _ => (s.modBlk b fun y => { y with qWords := mdel y.qWords n }).countCorr (ubsLoc x.core 0)
  | _ => (s.modBlk b fun y =>
      { y.qset n (poisonPattern 8) with qMark := mset none y.qMark n (some (wordMark 0)), qWords := mdel y.qWords n }).report
        (x.core / 40) (.uncorrectable n)

/-- The checks of the words of a register window that n bytes at an offset lie in (R59). -/
def State.checkWindow (s : State) (w off n : Nat) : State :=
  if (s.warp w).words.isEmpty then s else (((span off n).map (· / 8)).dedup).foldl (fun s k => s.checkWord w k) s

/-- The checks of every register word of a context's warps and blocks, as a save or a dump reads them. -/
def State.checkAllWords (s : State) (c : Nat) : State :=
  let s1 := (s.warps.filter fun e => e.2.ctx == c).foldl (fun s e =>
    (e.2.words.map (·.1)).foldl (fun s k => s.checkWord e.1 k) s) s
  (s.blocks.filter fun e => e.2.ctx == c).foldl (fun s e =>
    (e.2.qWords.map (·.1)).foldl (fun s n => s.checkQ e.1 n) s) s1

end Sys2Proof.Machine
end

