-- ==== Sys2Proof/Machine/Engine.lean ====
section
/-! DEFINITION. What the engines share: tokens of batches (spec/07 R178 to R182), counters (spec/08 R192, R194), held
writes (spec/11 R265), the completion and cancelling of passes (R264, R267), and the journal's restores (R271, R272). -/

namespace Sys2Proof.Machine

/-! ## Tokens -/

/-- Writes a completed batch's token value into its register (R178, R253, R264). -/
def Warp.writeToken (w : Warp) (b : Batch) : Warp :=
  let w1 := w.sset b.reg (b.value.getD 0)
  let w2 := match b.mark with
    | some m => w1.markS b.reg m
    | none => w1
  let w3 := match b.err with
    | some e => { w2 with tokenErr := mins w2.tokenErr b.reg e }
    | none => w2
  { w3.setFlags b.flags with
    batches := w3.batches.map fun c => if c.seq == b.seq && c.sealed then { c with written := true } else c }

/-- Writes tokens in seal order, as far as their batches have completed. -/
def Warp.deliverAll (w : Warp) : List Batch → Warp
  | [] => w
  | b :: bs => if b.value.isSome then (w.writeToken b).deliverAll bs else w

/-- Writes the tokens of one register that are due. -/
def Warp.deliver (w : Warp) (reg : Nat) : Warp :=
  w.deliverAll (w.batches.filter fun b => b.reg == reg && b.sealed && !b.written)

/-- Settles the value of a sealed batch and delivers; a retired warp's token write is discarded (R181). -/
def Warp.complete (w : Warp) (seq : Nat) (f : Batch → Batch) : Warp :=
  match w.batches.find? fun b => b.sealed && b.seq == seq && b.value.isNone with
  | none => w
  | some b =>
    let w1 := { w with batches := w.batches.map fun (c : Batch) =>
      if c.sealed && c.seq == seq && c.value.isNone then f c else c }
    if w.retired then { w1 with batches := w1.batches.filter fun c => c.seq != seq } else w1.deliver b.reg

/-- Changes a warp wherever it is held: resident, or in a saved context (R181, R264). -/
def State.modWarpAny (s : State) (w : Nat) (f : Warp → Warp) : State :=
  if (mfind s.warps w).isSome then s.modWarp w f
  else { s with saves := s.saves.map fun v => { v with warps := mmod v.warps w f } }

/-- Opens a sealed batch of one operation on s`reg`, with the warp's next sequence number (R253, R261). -/
def Warp.ownBatch (w : Warp) (reg id : Nat) : Nat × Warp :=
  let (seq, w1) := w.takeSeq
  (seq, { w1 with batches := w1.batches ++ [{ reg, seq, sealed := true, ops := [id] }] })

/-- Moves a completed batch's writes into the warp's floors when its token is read (R180, R287). -/
def Warp.tokenRead (w : Warp) (reg : Nat) : Warp :=
  (w.batches.filter fun b => b.reg == reg && b.written).foldl
    (fun w b =>
      { w with
        floors := raiseTo w.floors b.floors, rmtFl := raiseTo w.rmtFl b.rmtFl
        batches := w.batches.filter fun c => c.seq != b.seq }) w

/-! ## Held writes -/

/-- Performs a held write, after the earlier loads of its warp (R265, R281, R383). -/
def State.performHeld (s : State) (h : Held) : State :=
  let ls := h.bytes.map (·.1)
  let s0 := h.wr.ws.foldl (fun s w => s.flushOwn w h.id ls) s
  match h.inc, h.red, h.bytes with
  | some n, _, b :: _ => s0.countUp h.wr h.addr b.1 n
  | _, some (a, fp, x), _ => s0.combineHome h.wr a fp x ls
  | _, _, _ => ((s0.recall ls).performWrite h.wr false 0 (pieceSize ls) h.bytes).noteRel h.id ls

/-- Notes writes in the snapshots of unfinished passes (R290). -/
def State.noteViews (s : State) (ids ls : List Nat) : State :=
  if ids.isEmpty then s
  else
    { s with regions := s.regions.map fun (g : Region) =>
        { g with passes := g.passes.map fun (p : Pass) =>
            if ids.contains p.id then { p with view := raiseTo p.view (ls.map fun l => (l, s.mem.pos l)) } else p } }

/-- Performs every held write that nothing holds any more, in the order held. -/
def State.releaseHeld (s : State) : State :=
  let dieOk (s : State) (h : Held) : Bool := h.bytes.all fun b => !s.offline (homeDie b.1)
  let due := s.held.filter fun h => h.passes.isEmpty && dieOk s h
  due.foldl (fun s h => (s.performHeld h).noteViews h.by_ (h.bytes.map (·.1))) { s with held := s.held.filter fun h => !(h.passes.isEmpty && dieOk s h) }

/-- A pass no longer holds writes of rows that a test selects (R265, R267). -/
def State.unhold (s : State) (id : Nat) (row : Nat → Bool) : State :=
  { s with held := s.held.map fun (h : Held) =>
      { h with passes := h.passes.filter fun e => !(e.1 == id && row e.2) } }.releaseHeld

/-- The loads that a pass holds in rows that a test selects go on; what they read there comes after the positions of `done`
(R265, R266). -/
def State.unpost (s : State) (id : Nat) (row : Nat → Bool) (done : List (Nat × Nat)) : State :=
  { s with pend := s.pend.map fun (e : Nat × Pend) =>
      match e.2 with
      | .load w a accs vals bound bad post fl =>
        if post.any fun x => x.1 == id && row x.2 then
          (e.1, Pend.load w a accs vals bound bad (post.filter fun x => !(x.1 == id && row x.2)) (raiseTo fl done))
        else e
      | _ => e }

/-! ## Passes -/

/-- Removes a pass from its region. -/
def State.dropPass (s : State) (id : Nat) : State :=
  { s with regions := s.regions.map fun (g : Region) => { g with passes := g.passes.filter fun p => p.id != id } }

/-- The token of a pass (R264). -/
def passToken (seq : Nat) (skip canc : Bool) : Word :=
  BitVec.ofNat 64 (seq + (if canc then 2 ^ 61 else 0) + (if skip then 2 ^ 62 else 0))

/-- Drops an operation from a context's journal in flight. -/
def State.jrnDone (s : State) (id : Nat) : State :=
  { s with ctxs := s.ctxs.map fun (e : Nat × Ctx) => (e.1, { e.2 with jrn := { e.2.jrn with ops := e.2.jrn.ops.filter (· != id) } }) }

/-- Cancels an unfinished pass: rows not yet swept never are, what it held is released, no counter is signalled, its token
says CANC (R264, R267), and an `ARM` that its controller has yet to accept no longer counts (R206). -/
def State.cancelPass (s : State) (p : Pass) : State :=
  let s1 := ((s.dropPass p.id).unpost p.id (fun _ => true) []).unhold p.id fun _ => true
  let s2 := { s1 with pend := s1.pend.filter fun e => match e.2 with
    | .arm _ _ _ id => id != p.id
    | _ => true }
  (s2.modWarpAny p.w fun w =>
    { w.complete p.batch fun b => { b with ops := [], value := some (passToken p.seq p.skip true) } with
      bankCnt := if p.accepted.isNone then w.bankCnt - 1 else w.bankCnt }).jrnDone p.id

/-- A release by a party of the device at no core: its name. -/
def State.deviceRelease (s : State) (place : Nat) (sc : MScope) (view : SMap Nat) : State × Nat :=
  let id := s.nextId
  ({ s with nextId := id + 1, mem := { s.mem with rels := mins s.mem.rels id { place, scope := sc, view } } }, id)

/-- Completes a pass whose last row has been swept: the counter with a release at dev that covers every swept row, then
the token (R264, R290). -/
def State.finishPass (s : State) (p : Pass) : State :=
  let s1 := s.dropPass p.id
  let s2 := match p.counter with
    | none => s1
    | some l =>
      let (s', id) := s1.deviceRelease 160 .dev p.view
      (s'.counterAdd { rels := [id] } l 1).1
  (s2.modWarpAny p.w fun w =>
    w.complete p.batch fun b => { b with ops := [], value := some (passToken p.seq p.skip false) }).jrnDone p.id

/-! ## The journal -/

/-- Memory beneath the caches surely holds what stands at locations now (R249). -/
def State.noteBank (s : State) (ls : List Nat) : State :=
  { s with mem := { s.mem with bank := raiseTo s.mem.bank (ls.map fun l => (l, s.mem.pos l)) } }

/-- Memory beneath the caches holds what a bank-side write has put at locations. -/
def State.bankWrote (s : State) (ls : List Nat) : State :=
  let s1 := s.noteBank ls
  { s1 with mem := { s1.mem with wb := raiseTo s1.mem.wb (ls.map fun l => (l, s1.mem.pos l)) } }

/-- Copies a row into the journal before its first write of the step, each column checked as any read is (R247, R270): its
bytes and the columns that are poisoned. The step's context is charged 3.1 nJ (R268). -/
def State.jrnCopy (s : State) (c : Nat) (row : Nat) : State :=
  if (mfind (s.ctx c).jrn.rows row).isSome then s
  else
    let ls := span row 1024
    let (s1, bad) := (s.recall ls).checkReads 6 ls
    (s1.charge c 3100000).modCtx c fun x =>
      { x with jrn := { x.jrn with rows := mins x.jrn.rows row (s1.mem.peek row 1024, bad) } }

/-- Writes a journalled row back from its copy, as one indivisible event, so that it holds exactly what it held when it was
copied; a row of a fenced bank is poisoned (R271, R376). -/
def State.jrnRestoreRow (s : State) (row : Nat) (x : List Byte × List Nat) : State :=
  let ls := span row 1024
  if s.fenced (physRM row) then s.poisonUnits ls
  else (((s.recall ls).performPiece {} false 6 (ls.zip x.1)).poisonUnits x.2).bankWrote ls

/-- Restores the rows of a context's step whose die can be reached, and frees them; the others are owed (R271, R384). -/
def State.jrnRestore (s : State) (c : Nat) : State :=
  let rows := (s.ctx c).jrn.rows
  let s1 := rows.foldl (fun s e => if s.offline (homeDie e.1) then s else s.jrnRestoreRow e.1 e.2) s
  s1.modCtx c fun x =>
    { x with jrn := { x.jrn with
        rows := []
        owed := (rows.filter fun e => s.offline (homeDie e.1)).foldl (fun m e => mins m e.1 e.2) x.jrn.owed } }

/-- The token of a writing near-bank operation (R253). -/
def nbToken (seq : Nat) (err canc : Bool) : Word :=
  BitVec.ofNat 64 (seq + (if canc then 2 ^ 62 else 0) + (if err then 2 ^ 63 else 0))

/-- Cancels the journalled operations of a step that are in flight (R271). -/
def State.jrnCancel (s : State) (c : Nat) : State :=
  let ids := (s.ctx c).jrn.ops
  let ps := (s.regions.flatMap fun g => g.passes).filter fun p => ids.contains p.id
  let s1 := ps.foldl State.cancelPass s
  s1.pend.foldl (fun s e =>
    match e.2 with
    | .nb w batch .. =>
      if ids.contains e.1 then
        let s' := { s with pend := mdel s.pend e.1 }
        (s'.modWarpAny w fun x =>
          { x.complete batch fun b => { b with ops := [], value := some (nbToken batch false true) } with
            bankCnt := x.bankCnt - 1 }).jrnDone e.1
      else s
    | _ => s) s1

/-- The hardware aborts an open step (R272). -/
def State.jrnHwAbort (s : State) (c : Nat) : State :=
  if (s.ctx c).jrn.isOpen then
    ((s.jrnCancel c).jrnRestore c).modCtx c fun x => { x with jrn := { x.jrn with isOpen := false, aborted := true } }
  else s

end Sys2Proof.Machine
end

