-- ==== Sys2Proof/Machine/Sha.lean ====
section
/-! DEFINITION. SHA-256, which the spec names without stating it (spec/15 R315, R318; spec/20 R353), as FIPS 180-4 describes
it (PRESUMED, notes/assumptions/8). The hash value and the message schedule are each one number, first word highest. -/

namespace Sys2Proof.Machine

/-! ## Constants -/

/-- The largest r below 2^b over `acc` with r^k at most x, found bit by bit. -/
def rootBits (k x : Nat) : Nat → Nat → Nat
  | 0, acc => acc
  | b + 1, acc => rootBits k x b (if (acc + 2 ^ b) ^ k ≤ x then acc + 2 ^ b else acc)

/-- The first 32 bits of the fraction of the k-th root of p. -/
def rootFrac (k p : Nat) : Nat := rootBits k (p * 2 ^ (32 * k)) 38 0 % 2 ^ 32

/-- The first 64 primes: no number below 324 has a least factor above 17. -/
def shaPrimes : List Nat :=
  (List.range 312).filter fun p => 2 ≤ p && (List.range 18).all fun d => d < 2 || p ≤ d || p % d != 0

/-- The round constants: from the cube roots of the primes. -/
def shaConsts : List Nat := shaPrimes.map (rootFrac 3)

/-- Joins 32-bit words into one number, the first highest. -/
def joinWords (ws : List Nat) : Nat := ws.foldl (fun acc w => acc * 2 ^ 32 + w) 0

/-- The initial hash value: from the square roots of the first eight primes. -/
def shaStart : Nat := joinWords ((shaPrimes.take 8).map (rootFrac 2))

/-! ## Rounds -/

/-- The 32-bit word of a number that `i` words stand below. -/
def wordOf (x i : Nat) : Nat := x / 2 ^ (32 * i) % 2 ^ 32

/-- A word turned right by k places. -/
def turn (x k : Nat) : Nat := x / 2 ^ k + x % 2 ^ k * 2 ^ (32 - k)

/-- The exclusive or of a word turned by three amounts. -/
def turn3 (i j k x : Nat) : Nat := turn x i ^^^ turn x j ^^^ turn x k

/-- The exclusive or of a word turned by two amounts and shifted right by a third. -/
def turn2 (i j k x : Nat) : Nat := turn x i ^^^ turn x j ^^^ x / 2 ^ k

/-- The next 16 words of the message schedule: the oldest leaves, and the new one enters below. -/
def shaSlide (win : Nat) : Nat :=
  let new := wordOf win 15 + turn2 7 18 3 (wordOf win 14) + wordOf win 6 + turn2 17 19 10 (wordOf win 1)
  win % 2 ^ 480 * 2 ^ 32 + new % 2 ^ 32

/-- One round on the eight working words with the sum of a round constant and a schedule word. -/
def shaStep (v kw : Nat) : Nat :=
  let e := wordOf v 3
  let g := wordOf v 1
  let a := wordOf v 7
  let b := wordOf v 6
  let t := wordOf v 0 + turn3 6 11 25 e + (g ^^^ (e &&& (wordOf v 2 ^^^ g))) + kw
  let u := turn3 2 13 22 a + ((a &&& b) ||| (wordOf v 5 &&& (a ||| b)))
  joinWords [(t + u) % 2 ^ 32, a, b, wordOf v 5, (wordOf v 4 + t) % 2 ^ 32, e, wordOf v 2, g]

/-- The rounds of a block, one for each constant. -/
def shaRounds : List Nat → Nat → Nat → Nat
  | [], _, v => v
  | k :: ks, win, v => shaRounds ks (shaSlide win) (shaStep v (k + wordOf win 15))

/-- Adds a block of 16 words to a hash value, word by word. -/
def shaAbsorb (h blk : Nat) : Nat :=
  let v := shaRounds shaConsts blk h
  joinWords ((List.range 8).map fun i => (wordOf h (7 - i) + wordOf v (7 - i)) % 2 ^ 32)

/-! ## Messages -/

/-- A number from bytes, the first highest. -/
def beNat (bs : List Byte) : Nat := bs.foldl (fun acc b => acc * 256 + b.toNat) 0

/-- The n bytes of a number, highest first. -/
def beBytes (n x : Nat) : List Byte := (List.range n).map fun i => BitVec.ofNat 8 (x / 256 ^ (n - 1 - i))

/-- Absorbs n blocks of 64 bytes. -/
def shaFold : Nat → Nat → List Byte → Nat
  | 0, h, _ => h
  | n + 1, h, bs => shaFold n (shaAbsorb h (beNat (bs.take 64))) (bs.drop 64)

/-- The digest of a message as a 256-bit number, first byte most significant: the message, a one bit, zeros, and its
length in bits as the last 8 bytes of a block. -/
def sha256 (m : List Byte) : BitVec 256 :=
  let n := (m.length + 72) / 64
  BitVec.ofNat 256 (shaFold n shaStart (m ++ 0x80 :: beBytes (64 * n - m.length - 1) (8 * m.length)))

/-- The bytes of a digest in the order in which SHA-256 gives them. -/
def digestBytes (d : BitVec 256) : List Byte := beBytes 32 d.toNat

end Sys2Proof.Machine
end

