-- ==== Sys2Proof/Machine/Image.lean ====
section
/-! DEFINITION. Token images (spec/02 R41), the context image and the dump (spec/20 R353, R354, R363 to R365), the array
save image (spec/09 R226), and writing an image through a context's translation. -/

namespace Sys2Proof.Machine

/-- The low n bytes of a number, lowest first. -/
def leBytes (n x : Nat) : List Byte := (List.range n).map fun i => BitVec.ofNat 8 (x / 2 ^ (8 * i))

/-- Zero bytes. -/
def zeros (n : Nat) : List Byte := List.replicate n 0

/-- Pads with zeros to a multiple of k. -/
def padTo (k : Nat) (bs : List Byte) : List Byte := bs ++ zeros ((k - bs.length % k) % k)

/-! ## Token images (R41) -/

/-- Code of a token's kind (Table 2.2). -/
def TokKind.code : TokKind → Nat
  | .ifTok => 0 | .loopTok => 1 | .callTok => 2

/-- A token's image of 32 B. -/
def tokenImage (t : Token) : List Byte :=
  leBytes 8 (t.join.toNat / 4 * 4 + t.kind.code) ++ leBytes 4 t.saved.toNat ++ leBytes 4 t.pend.toNat ++
  leBytes 4 t.brk.toNat ++ leBytes 4 t.cont.toNat ++ leBytes 8 t.aux.toNat

/-- A token from its image, masks ANDed with the live mask; none for the reserved kind 0b11 (R41, R42). -/
def tokenOfImage (live : Mask) (bs : List Byte) : Option Token :=
  let n (o k : Nat) : Nat := natOfBytes ((bs.drop o).take k)
  let m (o : Nat) : Mask := BitVec.ofNat 32 (n o 4) &&& live
  let mk (k : TokKind) : Option Token := some
    { kind := k, join := BitVec.ofNat 64 (n 0 8 / 4 * 4), aux := BitVec.ofNat 64 (n 24 8), saved := m 8, pend := m 12,
      brk := m 16, cont := m 20 }
  match n 0 8 % 4 with
  | 0 => mk .ifTok
  | 1 => mk .loopTok
  | 2 => mk .callTok
  | _ => none

/-! ## Sections -/

/-- A section of an image (Table 20.4). -/
structure Section_ where
  type  : Nat
  core  : Nat
  index : Nat
  body  : List Byte
  deriving DecidableEq, Repr

/-- The tag and encoding of a vector register (Table 20.5). -/
def encodeReg (ls : List Word) : Nat × List Byte :=
  let x := ls.headD 0
  let ds := ls.map fun y => (y - x).toInt
  let fits (k : Nat) : Bool := ds.all fun d => -(2 ^ (k - 1) : Int) ≤ d && d < 2 ^ (k - 1)
  if ds.all (· == 0) then (0, leBytes 8 x.toNat)
  else if fits 8 then (1, leBytes 8 x.toNat ++ ds.map fun d => BitVec.ofInt 8 d)
  else if fits 16 then (2, leBytes 8 x.toNat ++ ds.flatMap fun d => leBytes 2 (BitVec.ofInt 16 d).toNat)
  else (3, ls.flatMap fun y => leBytes 8 y.toNat)

/-- The register body of a WARP section (R354). -/
def warpBody (w : Warp) : List Byte :=
  let encs := (List.range w.nregs).map fun n => encodeReg ((List.range 32).map fun l => w.vget n l)
  let tags := encs.zipIdx.foldl (fun acc e => acc + e.1.1 * 2 ^ (2 * e.2)) 0
  padTo 8 (leBytes ((w.nregs + 3) / 4) tags) ++ encs.flatMap (·.2) ++
  (List.range 64).flatMap (fun n => leBytes 8 (w.sget n).toNat) ++
  (List.range 8).flatMap (fun n => leBytes 4 (w.pget n).toNat) ++
  (List.range w.nregs).flatMap (fun n =>
    leBytes 4 (maskOf ((List.range 32).filter fun l => (w.vmark n l).isSome)).toNat) ++
  leBytes 8 ((List.range 64).foldl (fun acc n => if (w.smark n).isSome then acc + 2 ^ n else acc) 0)

/-- A batch record of 8 B: register, ERR and completion state in the low half, SEQ in the high half; the bits are the
model's choice (DESIGN CHOICE, notes/assumptions/30). -/
def batchRecord (b : Batch) : Nat :=
  b.reg + (if b.err.isSome then 2 ^ 8 else 0) + (if b.value.isSome then 2 ^ 9 else 0) +
    (if b.sealed then 2 ^ 10 else 0) + b.seq * 2 ^ 32

/-- The absolute deadline that an image keeps: that of a `SLEEP` or a `CWAIT` that waits, or of one that an earlier save
withdrew (R126, R196). -/
def Warp.keptDeadline (w : Warp) : Option Nat :=
  match w.park with
  | .sleep wake _ => some wake
  | .cwait d _ _ _ _ _ => d
  | _ => w.deadline

/-- Bits 2 and 3 of the flags of a WARP section: parked, and a rendezvous arrival withdrawn; a warp that stalls in an `ARV`
has neither (R353). -/
def Warp.parkBits (w : Warp) : Nat :=
  match w.park with
  | .none | .barAgain _ _ => 0
  | .rendezvous _ => 8
  | _ => 4

/-- The fixed part of a WARP section (R353). -/
def warpFixed (w : Warp) (clock : Nat) (dump : Bool) : List Byte :=
  let open_ := (w.batches.filter fun b => !b.written).take 8
  let late := match w.late with
    | none => 0
    | some t => t.code + t.detail * 2 ^ 8 + 2 ^ 16
  let lateAddr := match w.late with
    | none => 0
    | some t => t.addr.toNat
  leBytes 4 (if dump && w.inHandler then clock - w.hstart else 0) ++ zeros 76 ++ leBytes 2 w.nregs ++
  leBytes 1 ((if w.stopped then 1 else 0) + (if dump && w.inHandler then 2 else 0) + w.parkBits) ++
  leBytes 1 w.toks.length ++ leBytes 4 w.spilled ++ leBytes 4 w.live.toNat ++ leBytes 4 w.exec.toNat ++
  leBytes 8 (w.keptDeadline.getD 0) ++ leBytes 8 lateAddr ++ leBytes 8 late ++ leBytes 8 w.pc.toNat ++
  [w.fpmode, w.lossScale, w.ovf, w.ashape, w.ssp, w.cause, w.epc, w.badaddr].flatMap (fun x => leBytes 8 x.toNat) ++
  (List.range 8).flatMap fun i => leBytes 8 (match open_[i]? with
    | none => 0
    | some b => batchRecord b)

/-- A barrier's 16 B (Table 20.4). -/
def barImage (b : Bar) : List Byte := leBytes 4 b.mem ++ leBytes 4 b.arr ++ leBytes 2 b.gen ++ zeros 6

/-- A TOKENS section: the hardware tokens oldest first; in a handler, the saved tokens, a separator of kind 0b11, and
the handler's. -/
def tokenBody (w : Warp) : List Byte :=
  let main := if w.inHandler then w.savedToks else w.toks
  main.reverse.flatMap tokenImage ++
    (if w.inHandler then leBytes 1 3 ++ zeros 31 ++ w.toks.reverse.flatMap tokenImage else [])

/-- The array save image of a core (R226): its body is opaque. -/
def arrayImage (num : Nat) : List Byte :=
  let body := (List.range (655360 - 64)).map fun i => Config.arrayBody num i
  leBytes 2 Config.arrayVer.toNat ++ leBytes 2 Config.archStep.toNat ++ leBytes 4 0xA0000 ++
  leBytes 8 (Config.arrayCheck body).toNat ++ zeros 48 ++ body

/-- Numbers of 8 B each. -/
def nums (xs : List Nat) : List Byte := xs.flatMap (leBytes 8)

/-- A list of numbers with its length before it. -/
def counted (xs : List Nat) : List Byte := nums (xs.length :: xs)

/-- The clusters of a context that are resident, each by launch number and CLUSTERID, with its lowest core (R353). -/
def clustersOf (blks : SMap Block) : List (Nat × Nat × Nat) :=
  ((blks.map fun e => (e.2.lnum, e.2.cluster)).dedup).map fun k =>
    let cores := (blks.filter fun e => e.2.lnum == k.1 && e.2.cluster == k.2).map fun e => e.2.core
    (k.1, k.2, cores.foldl Nat.min 160)

/-- The CONTEXT section (R353): a number of the image; the EBUDGET levels; the journal step; the region table with its passes;
the placement queue and the trigger state; the outstanding tokens of copies, `NB` and passes. Its layout is the model's choice
(DESIGN CHOICE, notes/assumptions/30). -/
def State.contextBody (s : State) (c num : Nat) : List Byte :=
  let x := s.ctx c
  nums [num, c] ++ counted (x.crec.cores.map fun k => (s.core k).level) ++
  nums [x.jrn.n, if x.jrn.isOpen then 1 else 0, if x.jrn.aborted then 1 else 0] ++ counted (x.jrn.rows.map (·.1)) ++
  ((s.regions.filter fun g => g.ctx == c).flatMap fun g =>
    nums [g.start.toNat, g.nextSeq, g.lastAcc] ++ counted g.rows ++ nums [g.passes.length] ++
    g.passes.flatMap fun p =>
      nums [p.seq, p.slot, if p.haste then 1 else 0, p.counter.getD 0, p.w, p.batch, p.accepted.getD 0] ++ counted p.swept) ++
  counted (x.queue.flatMap fun e => [e.1, e.2.1, e.2.2]) ++ nums [x.headAt, x.lnum, x.stages.length] ++
  x.stages.flatMap (fun st =>
    nums [st.lnum, st.appended, st.placed, st.retired, st.trigBase, st.trigQ] ++
    counted (st.queues.flatMap fun q => [q.cons, q.prod])) ++
  (s.warps.filter fun e => e.2.ctx == c).flatMap fun e =>
    nums [e.1] ++ counted ((e.2.batches.filter fun b => !b.written).map batchRecord)

/-- The sections of a context (R353, R363); `num` names its array save images and the image. -/
def State.sections (s : State) (c num : Nat) (dump : Bool) : List Section_ :=
  let x := s.ctx c
  let blks := (s.blocks.filter fun e => e.2.ctx == c)
  let cores := (x.crec.cores.mergeSort (· ≤ ·)).filter fun k => blks.any fun e => e.2.core == k
  let perCore := cores.flatMap fun k =>
    let mine := blks.filter fun e => e.2.core == k
    let ws := (s.warps.filter fun e => e.2.ctx == c && !e.2.retired && mine.any fun b => b.1 == e.2.blk).mergeSort
      fun a b => a.2.slot ≤ b.2.slot
    ws.flatMap (fun e =>
      [{ type := 1, core := k, index := e.2.slot, body := warpFixed e.2 s.clock dump ++ warpBody e.2 }] ++
      (if e.2.toks.isEmpty && !e.2.inHandler then []
       else [{ type := 2, core := k, index := e.2.slot, body := tokenBody e.2 }])) ++
    mine.zipIdx.flatMap (fun e =>
      let b := e.1.2
      [{ type := 3, core := k, index := e.2,
         body := (List.range 64).flatMap (fun n => leBytes 8 (b.qget n).toNat) ++ b.bars.flatMap barImage ++
           leBytes 8 b.scrKb },
       { type := 4, core := k, index := e.2, body := s.mem.peek (ubsLoc k b.scrBase) (1024 * b.scrKb) }]) ++
    ((clustersOf blks).filter fun e => e.2.2 == k).map (fun e =>
      let st := s.stageOf { ctx := c, lnum := e.1 }
      { type := 5, core := k, index := 0,
        body := ((mget [] st.cbars e.2.1).flatMap barImage) ++ st.grid.flatMap barImage }) ++
    (if mine.any fun e => e.2.array || e.2.ntiles != 0 then
       [{ type := 6, core := k, index := 0, body := arrayImage (160 * num + k) }] else []) ++
    (if dump then
       [{ type := 8, core := k, index := 0,
          body := leBytes 8 (s.core k).traceWord.toNat ++ (List.range 512).flatMap fun i =>
            let r := mget (0, 0) (s.core k).ring i
            leBytes 8 r.2.toNat ++ leBytes 8 r.1.toNat }] else [])
  perCore ++ [{ type := 7, core := 0, index := 0, body := s.contextBody c num }]

/-- Sections with their offsets, from the directory's end, each at a multiple of 64. -/
def layoutSections (start : Nat) : List Section_ → List (Nat × Section_)
  | [] => []
  | x :: xs =>
    let o := (start + 63) / 64 * 64
    (o, x) :: layoutSections (o + x.body.length) xs

/-- A directory entry of 16 B. -/
def dirEntry (e : Nat × Section_) : List Byte :=
  leBytes 1 e.2.type ++ leBytes 1 e.2.core ++ leBytes 1 e.2.index ++ zeros 1 ++ leBytes 4 e.2.body.length ++
    leBytes 8 e.1

/-- Directory and sections as bytes from byte 4,096. -/
def imageBody (secs : List (Nat × Section_)) : List Byte :=
  secs.foldl (fun acc e => acc ++ zeros (e.1 - 4096 - acc.length) ++ e.2.body) (secs.flatMap dirEntry)

/-- The 4 KiB header (Table 20.3); that of a dump, given what it records of the first fatal trap and its STATUS. -/
def imageHeader (nsect length : Nat) (digest : BitVec 256) (ctx : Nat) (dead : Bool) (cores : List Nat)
    (dump : Option (Dying × Nat)) : List Byte :=
  leBytes 2 (if dump.isSome then 0x5044 else 0x5843) ++ leBytes 2 1 ++ leBytes 4 nsect ++ leBytes 8 length ++
  digestBytes digest ++ leBytes 2 ctx ++ leBytes 2 Config.archStep.toNat ++ leBytes 1 (if dead then 1 else 0) ++
  zeros 11 ++ leBytes 20 (cores.dedup.foldl (fun acc c => acc + 2 ^ c) 0) ++
  (match dump with
    | some (d, status) =>
      leBytes 8 d.timer ++ leBytes 8 d.cause.toNat ++ leBytes 8 d.epc.toNat ++ leBytes 8 d.badaddr.toNat ++
      leBytes 2 d.core ++ leBytes 1 d.slot ++ leBytes 1 status
    | none => zeros 36) ++ zeros (4096 - 120)

/-! ## Reading an image back (R124, R353, R354) -/

/-- A number in bytes: n of them from an offset. -/
def hdrNat (h : List Byte) (lo n : Nat) : Nat := natOfBytes ((h.drop lo).take n)

/-- A directory entry read back: the offset and the section; none where it does not lie in the image. -/
def entryOf (img : List Byte) (i : Nat) : Option (Nat × Section_) :=
  let e := (img.drop (16 * i)).take 16
  let off := hdrNat e 8 8
  let len := hdrNat e 4 4
  if off % 64 != 0 || off < 4096 || 4096 + img.length < off + len then none
  else some (off, { type := hdrNat e 0 1, core := hdrNat e 1 1, index := hdrNat e 2 1,
                    body := (img.drop (off - 4096)).take len })

/-- The sections of an image from its bytes from 4,096 on; none where an entry does not lie in the image. -/
def sectionsOf (n : Nat) (img : List Byte) : Option (List Section_) :=
  let es := (List.range n).map (entryOf img)
  if img.length < 16 * n || es.any Option.isNone then none else some ((es.filterMap id).map (·.2))

/-- The lanes of a register by its tag, and the bytes after it (Table 20.5). -/
def decodeReg (tag : Nat) (bs : List Byte) : List Word × List Byte :=
  let x : Word := BitVec.ofNat 64 (hdrNat bs 0 8)
  let sx (k i : Nat) : Word := (BitVec.ofNat 64 (hdrNat bs (8 + k * i) k)) |> fun d =>
    if k = 1 then (d.setWidth 8).signExtend 64 else (d.setWidth 16).signExtend 64
  match tag with
  | 0 => (List.replicate 32 x, bs.drop 8)
  | 1 => ((List.range 32).map fun i => x + sx 1 i, bs.drop 40)
  | 2 => ((List.range 32).map fun i => x + sx 2 i, bs.drop 72)
  | _ => ((List.range 32).map fun i => BitVec.ofNat 64 (hdrNat bs (8 * i) 8), bs.drop 256)

/-- The vector registers by their tags, and the bytes after them. -/
def decodeRegs : List Nat → List Byte → List (List Word) × List Byte
  | [], bs => ([], bs)
  | t :: ts, bs =>
    let (r, rest) := decodeReg t bs
    let (rs, rest2) := decodeRegs ts rest
    (r :: rs, rest2)

/-- A mark that an image brings back: without an address, and of the class of data poisoned where it lay (R368). -/
def restoredMark : Mark := { addr := 0, detail := 0x80 }

/-- Marks at the keys that an image names, each as it was where it is known. -/
def marksAt (old : SMap (Option Mark)) (ks : List Nat) : SMap (Option Mark) :=
  ks.foldl (fun m k => mset none m k (some ((mget none old k).getD restoredMark))) []

/-- A late trap that an image brings back. -/
def lateOf (old : Option LateTrap) (word addr : Nat) : Option LateTrap :=
  if word / 2 ^ 16 % 2 = 0 then none
  else
    let code := word % 256
    some { code, detail := word / 256 % 256, addr := BitVec.ofNat 64 addr,
           pt := match old with
             | some t => t.pt
             | none => if code = 0x09 ∨ code = 0x1C then .array else .store }

/-- The batches that a WARP section names and a warp does not hold (R181, R353). -/
def Warp.newBatches (w : Warp) (b : List Byte) : List Batch :=
  ((List.range 8).map fun i => hdrNat b (192 + 8 * i) 8).filterMap fun r =>
    let (reg, seq) := (r % 256, r / 2 ^ 32)
    if r = 0 || w.batches.any fun b => b.reg == reg && b.seq == seq then none
    else some
      { reg, seq, sealed := r.testBit 10, err := if r.testBit 8 then some (0x14, 0x80, 0) else none
        value := if r.testBit 9 then some 0 else none }

/-- What a WARP section restores of a warp (R353, R354); none where its tags and its length do not agree. -/
def Warp.ofSection (w : Warp) (b : List Byte) : Option Warp :=
  let q (o : Nat) : Word := BitVec.ofNat 64 (hdrNat b o 8)
  let n := hdrNat b 80 2
  let tagBytes := ((n + 3) / 4 + 7) / 8 * 8
  let tags := (List.range n).map fun i => hdrNat b (256 + i / 4) 1 / 4 ^ (i % 4) % 4
  let (regs, rest) := decodeRegs tags (b.drop (256 + tagBytes))
  if n != w.nregs || rest.length != 512 + 32 + 4 * n + 8 then none
  else
    let v := regs.zipIdx.foldl (fun m r => r.1.zipIdx.foldl (fun m l => mset 0 m (32 * r.2 + l.2) l.1) m) []
    let s := (List.range 64).foldl (fun m i => mset 0 m i (BitVec.ofNat 64 (hdrNat rest (8 * i) 8))) []
    let p := (List.range 8).foldl (fun m i => if i = 0 then m else mset 0 m i (BitVec.ofNat 32 (hdrNat rest (512 + 4 * i) 4))) []
    let vKeys := (List.range n).flatMap fun r =>
      ((List.range 32).filter (hdrNat rest (544 + 4 * r) 4).testBit).map (32 * r + ·)
    let sKeys := (List.range 64).filter (hdrNat rest (544 + 4 * n) 8).testBit
    some { w with
      v, s, p, vMark := marksAt w.vMark vKeys, sMark := marksAt w.sMark sKeys
      spilled := hdrNat b 84 4, live := BitVec.ofNat 32 (hdrNat b 88 4), exec := BitVec.ofNat 32 (hdrNat b 92 4)
      deadline := if hdrNat b 96 8 = 0 then none else some (hdrNat b 96 8)
      stopped := (hdrNat b 82 1).testBit 0, met := if (hdrNat b 82 1).testBit 2 then some (q 120) else none
      batches := w.batches ++ w.newBatches b
      late := lateOf w.late (hdrNat b 112 8) (hdrNat b 104 8)
      pc := q 120, fpmode := q 128, lossScale := q 136, ovf := q 144, ashape := q 152, ssp := q 160, cause := q 168
      epc := q 176, badaddr := q 184 }

/-- The tokens of a TOKENS section, top first; none where an image has the reserved kind. -/
def tokensOf (b : List Byte) : Option (List Token) :=
  let ts := (List.range (b.length / 32)).map fun i => tokenOfImage (BitVec.allOnes 32) ((b.drop (32 * i)).take 32)
  if ts.any Option.isNone then none else some (ts.filterMap id).reverse

/-- A barrier from its 16 B. -/
def Bar.ofImage (x : Bar) (b : List Byte) : Bar :=
  { x with mem := hdrNat b 0 4, arr := hdrNat b 4 4, gen := hdrNat b 8 2 }

/-- Barriers from consecutive images of 16 B. -/
def barsOf (xs : List Bar) (b : List Byte) : List Bar :=
  xs.zipIdx.map fun e => e.1.ofImage ((b.drop (16 * e.2)).take 16)

/-- What a BLOCK section restores of a block. -/
def Block.ofSection (k : Block) (b : List Byte) : Block :=
  { k with
    q := (List.range 64).foldl (fun m i => mset 0 m i (BitVec.ofNat 64 (hdrNat b (8 * i) 8))) []
    bars := barsOf k.bars (b.drop 512) }

/-! ## Writing an area -/

/-- Writes bytes at an offset of an area, 256 B at a time, each through the translation of warp `w` with the checks of
a store; how many pieces were written, and the first fault. -/
def State.writeArea (s : State) (w : Nat) (ws : List Nat) (base : Word) :
    Nat → Nat → List Byte → State × Nat × Option XFault
  | 0, _, _ => (s, 0, none)
  | n + 1, off, bs =>
    if bs.isEmpty then (s, 0, none)
    else
      let p := base + BitVec.ofNat 64 off
      match s.place w { write := true } p with
      | (s1, .error e) => (s1, 0, some e)
      | (s1, .ok (.mem l)) =>
        let k := 256 - off % 256
        let s2 := s1.store ws 0 p ((span l (bs.take k).length).zip (bs.take k))
        let (s3, m, f) := s2.writeArea w ws base n (off + k) (bs.drop k)
        (s3, m + 1, f)
      | (s1, .ok _) => (s1, 0, some ⟨0x13, 1, p⟩)

/-- Writes bytes at an offset of an area. -/
def State.writeAt (s : State) (w : Nat) (ws : List Nat) (base : Word) (off : Nat) (bs : List Byte) :
    State × Option XFault :=
  let (s1, _, f) := s.writeArea w ws base (bs.length / 256 + 2) off bs
  (s1, f)

/-- Writes sections in directory order, from the offset where the last one ended, until one faults: those written whole. The
bytes between two are zeros. -/
def State.writeSections (s : State) (w : Nat) (ws : List Nat) (base : Word) :
    Nat → List (Nat × Section_) → State × List (Nat × Section_) × Option XFault
  | _, [] => (s, [], none)
  | end_, e :: es =>
    match s.writeAt w ws base end_ (zeros (e.1 - end_) ++ e.2.body) with
    | (s1, some f) => (s1, [], some f)
    | (s1, none) =>
      let (s2, done, f) := s1.writeSections w ws base (e.1 + e.2.body.length) es
      (s2, e :: done, f)

/-- The directory of `done` sections, in the room for n. -/
def dirBytes (n : Nat) (done : List (Nat × Section_)) : List Byte :=
  done.flatMap dirEntry ++ zeros (16 * (n - done.length))

/-- Writes a dump of a context at DUMP_BASE (R363, R364): the tenant dump's STATUS and header bytes 0 to 127 stay with the
context (R365). A DUMP_BASE of zero writes none. -/
def State.writeDump (s : State) (c : Nat) (d : Dying) : State :=
  let x := s.ctx c
  let w := d.w
  let gone := d.gone
  if x.dumpBase = 0 then s
  else
    let (num, s0) := (s.checkAllWords c).fresh
    let secs := (s0.sections c num true).filter fun e => e.type == 7 || !gone.contains e.core
    let first := 4096 + 16 * secs.length
    let laid := layoutSections first secs
    let (s1, done, f) := s0.writeSections w [] x.dumpBase first laid
    let (s2, f2) := s1.writeAt w [] x.dumpBase 4096 (dirBytes secs.length done)
    let status := if f.isSome || f2.isSome || !gone.isEmpty then 1 else 0
    let body := imageBody done
    let hdr := imageHeader done.length (4096 + body.length) (sha256 body) c false
      ((done.filter fun e => e.2.type != 7).map (·.2.core)) (some (d, status))
    let (s3, f3) := s2.writeAt w [] x.dumpBase 0 hdr
    s3.modCtx c fun y =>
      if f3.isSome then { y with log := y.log ++ [.dumpLost] }
      else { y with dumpStat := some status, dumpHead := hdr.take 128 }

end Sys2Proof.Machine
end

