-- ==== Sys2Proof/Machine/Ops.lean ====
section
/-! DEFINITION. The shared operations of every instruction: runs, taking a trap and returning from one (spec/20 R341 to
R351), the token stack (spec/02 R36 to R42), settling and retiring (R38, R108), and barriers (spec/08 R186 to R190). -/

namespace Sys2Proof.Machine

/-! ## Runs (R45) -/

/-- The scheduler partition of a warp. -/
def Warp.part (w : Warp) : Nat := w.slot / 8

/-- Ends the warp's run. -/
def State.endRun (s : State) (w : Nat) : State :=
  let p := (s.warp w).part
  let k := s.coreOf w
  let s1 := if (mget {} (s.core k).parts p).run = some w then
      s.modCore k fun c => { c with parts := mset {} c.parts p { run := none } } else s
  s1.modWarp w fun x => { x with runCnt := 0, missed := false }

/-- Moves the warp past an instruction of n bytes. -/
def Warp.advance (w : Warp) (n : Nat) : Warp := { w with pc := w.pc + BitVec.ofNat 64 n }

/-- A taken control transfer: the pc moves, the ring records it, and the run ends (R45, R362). -/
def State.jump (s : State) (w : Nat) (target : Word) : State :=
  ((s.trace w 1 target).modWarp w fun x => { x with pc := target }).endRun w

/-! ## The rendezvous watchdog's pause (R348) -/

/-- Whether a member of an open rendezvous is in a handler or frozen: the waiting members of a context that is being
frozen have stopped already. -/
def State.rdvStopped (s : State) (b : Nat) (r : Rdv) : Bool :=
  (s.ctx (s.blk b).ctx).frozen || (s.ctx (s.blk b).ctx).freezing ||
    (s.liveWarps b).any fun w => r.lo ≤ (s.warp w).wid && (s.warp w).wid < r.hi && (s.warp w).inHandler

/-- Starts or ends the pause of a block's open rendezvous at this clock. -/
def State.rdvPause (s : State) (b : Nat) : State :=
  if (s.blk b).rdvs.isEmpty then s
  else s.modBlk b fun k =>
    { k with rdvs := k.rdvs.map fun (r : Rdv) =>
        match r.stop, s.rdvStopped b r with
        | none, true => { r with stop := some s.clock }
        | some t, false => { r with stop := none, paused := r.paused + (s.clock - t) }
        | _, _ => r }

/-! ## Traps -/

/-- What an instruction raises: CAUSE.CODE, CAUSE.DETAIL and BADADDR. -/
structure Trap where
  code   : Nat
  detail : Nat := 0
  addr   : Word := 0
  deriving DecidableEq, Repr

/-- Illegal-instruction with a DETAIL (Table 20.2). -/
def illegal (detail : Nat) : Trap := { code := 0x01, detail }

/-- A memory fault as a trap. -/
def XFault.trap (f : XFault) : Trap := ⟨f.code, f.detail, f.addr⟩

/-- The CAUSE word (R57). -/
def causeWord (t : Trap) (origin : Nat) : Word := BitVec.ofNat 64 (t.code + t.detail * 2 ^ 8 + origin * 2 ^ 16)

/-- CAUSE, EPC and BADADDR of a warp. -/
def Warp.setTrapRegs (w : Warp) (t : Trap) (epc : Word) (origin : Nat) : Warp :=
  { w with cause := causeWord t origin, epc, badaddr := t.addr }

/-- Whether a warp waits at a rendezvous. -/
def Warp.atRdv (w : Warp) : Bool :=
  match w.park with
  | .rendezvous _ => true
  | _ => false

/-- Pauses or resumes the rendezvous watchdogs of a context's blocks (R348); no run of a warp that waits at a rendezvous goes
on. -/
def State.pauseRdvs (s : State) (c : Nat) : State :=
  ((s.warpsOf c).filter fun w => (s.warp w).atRdv).foldl State.endRun ((s.blocksOf c).foldl State.rdvPause s)

/-- What the dump header records of a fatal trap (R353). -/
def State.dyingOf (s : State) (w : Nat) (t : Trap) (epc : Word) (origin : Nat) (gone : List Nat) : Dying :=
  { w, clock := s.clock, timer := s.timer, cause := causeWord t origin, epc, badaddr := t.addr, core := s.coreOf w,
    slot := (s.warp w).slot, gone }

/-- The first of two fatal traps of a context: the earliest clock, then the lowest core, then the lowest slot (R351). -/
def Dying.first (x y : Dying) : Dying :=
  if y.clock == x.clock && (y.core < x.core || (y.core == x.core && y.slot < x.slot)) then { y with gone := x.gone } else x

/-- A fatal trap (R350): the warp stops with its trap registers set, and STOP is set in every core of the context. From
then on no run of the context begins, and its engines stop as under a freeze; what is left of R350 happens once it has
come to rest (`State.rest`). A later fatal trap of the same context sets its warp's registers, and counts for the dump
header only where it is the first by R351. `gone` are cores that the dump leaves out (R385)
(DEDUCED, notes/assumptions/41). -/
def State.fatalAt (s : State) (w : Nat) (t : Trap) (epc : Word) (origin : Nat) (gone : List Nat) : State :=
  let s0 := s.endRun w
  let s1 := s0.modWarp w fun x => { x.setTrapRegs t epc origin with stopped := true, park := .none }
  let c := (s.warp w).ctx
  let d := s.dyingOf w t epc origin gone
  if (s.ctx c).dead then s1.modCtx c fun x => { x with dying := x.dying.map fun y => y.first d }
  else
    let s2 := s1.trace w 9 (causeWord t origin)
    let s3 := (s.ctx c).crec.cores.foldl (fun s k => s.modCore k fun x => { x with traceCtl := x.traceCtl ||| 8 }) s2
    (s3.modCtx c fun x => { x with dead := true, freezing := !x.frozen, dying := some d }).pauseRdvs c

/-- A fatal trap with EPC at the warp's instruction. -/
def State.fatal (s : State) (w : Nat) (t : Trap) : State :=
  s.fatalAt w t (s.warp w).pc (s.warp w).wid []

/-- Reads TRAPVEC, the 8 B word at warp-view offset 0 of LOC, as a read of the warp, which sees the warp's own stores that are
held (R281, R341): none where the read faults or returns poison. -/
def State.readTrapVec (s : State) (w : Nat) : State × Option Word :=
  match s.places w {} 0x5000000000000000 8 with
  | (s1, .error _) => (s1, none)
  | (s1, .ok ps) =>
    let ls := memLocs ps
    let (s2, r) := s1.readNow w 0 ls
    let own := (s1.held.filter fun h => h.wr.ws.contains w && h.inc.isNone && h.red.isNone).flatMap (·.bytes)
    let byte (l : Nat) : Byte := ((own.reverse.find? fun b => b.1 == l).map (·.2)).getD (r.byte l)
    let rest := ls.filter fun l => !own.any fun b => b.1 == l
    if (r.poison rest).isSome || ls.length != 8 then (s2, none) else (s2, some (ofBytes (ls.map byte)))

/-- Whether a cause is a memory fault or poison, which the ring records (R362, KIND 0x4). -/
def Trap.isMemory (t : Trap) : Bool := 0x10 ≤ t.code && t.code ≤ 0x14

/-- Entry to the handler at `h` (R342): the trap registers, the saved EXEC and token stack, and the handler's start. -/
def Warp.enter (w : Warp) (t : Trap) (epc h : Word) (origin clock : Nat) : Warp :=
  { w.setTrapRegs t epc origin with
    savedExec := w.exec, savedToks := w.toks, savedSpill := w.spilled
    inHandler := true, hstart := clock, toks := [], spilled := 0, exec := w.live, pc := h, park := .none }

/-- Taking a trap (R342). In a handler it is a double fault (R345); without a handler it is fatal (R341). A warp of a
context that took a fatal trap enters no handler: the trap is recorded (R350), and a fatal one counts as such (R351). -/
def State.trapAt (s : State) (w : Nat) (t : Trap) (epc : Word) (origin : Nat) : State :=
  let x := s.warp w
  if x.inHandler then s.fatalAt w { code := 0x31, detail := t.code, addr := t.addr } x.pc origin []
  else if (s.ctx x.ctx).dead then
    match s.readTrapVec w with
    | (s1, some h) =>
      if h = 0 ∨ h &&& 3 ≠ 0 then s1.fatalAt w t epc origin []
      else (s1.endRun w).modWarp w fun x => { x.setTrapRegs t epc origin with stopped := true }
    | (s1, none) => s1.fatalAt w t epc origin []
  else
    match s.readTrapVec w with
    | (s1, none) => s1.fatalAt w t epc origin []
    | (s1, some h) =>
      if h = 0 ∨ h &&& 3 ≠ 0 then s1.fatalAt w t epc origin []
      else
        let s2 := if t.isMemory then s1.trace w 4 t.addr else s1
        let s3 := s2.trace w 2 (causeWord t origin)
        ((s3.endRun w).modWarp w fun x => x.enter t epc h origin s.clock).rdvPause x.blk

/-- Taking a trap at the warp's own instruction. -/
def State.trap (s : State) (w : Nat) (t : Trap) : State := s.trapAt w t (s.warp w).pc (s.warp w).wid

/-- A fault of an instruction issued once for several members (R347): the leader takes the cause, every other member
the set-wide fault. -/
def State.trapSet (s : State) (ms : List Nat) (t : Trap) : State :=
  let o := (s.warp (ms.headD 0)).wid
  (s.bySlot ms).foldl (fun s m =>
    s.trapAt m (if m = ms.headD 0 then t else { code := 0x05, detail := t.code, addr := t.addr }) (s.warp m).pc o) s

/-! ## The token stack -/

/-- The pointer at which a spill or refill begins must be 32 B aligned and in LOC (R42, R183); the spec gives no order of the
two faults, and the alignment fault comes first (DESIGN CHOICE, notes/assumptions/41). -/
def sspBad (p : Word) (write : Bool) : Option Trap :=
  let d := if write then 1 else 0
  if p &&& 31 ≠ 0 then some ⟨0x12, d, p⟩
  else if spaceOf p ≠ 5 then some ⟨0x13, d, p⟩ else none

/-- The locations of n bytes of LOC in the warp view. -/
def State.locSpan (s : State) (w : Nat) (write : Bool) (p : Word) (n : Nat) : State × Except Trap (List Nat) :=
  match sspBad p write with
  | some t => (s, .error t)
  | none =>
    match s.places w { write } p n with
    | (s1, .error e) => (s1, .error e.trap)
    | (s1, .ok ps) => (s1, .ok (memLocs ps))

/-- Pushes a token; the 8 oldest of 32 are first spilled (R40). A handler's stack holds 16 and never spills (R343). -/
def State.pushTok (s : State) (w : Nat) (t : Token) : State × Option Trap :=
  let x := s.warp w
  let push (s : State) : State := s.modWarp w fun x => { x with toks := t :: x.toks }
  if x.inHandler then (if 16 ≤ x.toks.length then (s, some (illegal 0x01)) else (push s, none))
  else if x.toks.length < 32 then (push s, none)
  else
    let p := x.ssp - 256
    match s.locSpan w true p 256 with
    | (s1, .error e) => (s1, some e)
    | (s1, .ok ls) =>
      let old := (x.toks.drop 24).reverse
      let s2 := s1.store [w] 0 p (ls.zip (old.flatMap tokenImage))
      let s3 := s2.modWarp w fun x => { x with toks := x.toks.take 24, ssp := p, spilled := x.spilled + 1 }
      ((push s3).endRun w, none)

/-- Refills 8 tokens where a pop has emptied the hardware stack and groups are spilled (R40, R42). -/
def State.refill (s : State) (w : Nat) : State × Option Trap :=
  let x := s.warp w
  if !x.toks.isEmpty || x.spilled = 0 || x.inHandler then (s, none)
  else
    match s.locSpan w false x.ssp 256 with
    | (s1, .error e) => (s1, some e)
    | (s1, .ok ls) =>
      let (s2, r) := s1.readNow w 0 ls
      let img (i : Nat) : List Nat := (ls.drop (32 * i)).take 32
      match (List.range 8).findSome? fun i => (r.poison (img i)).map fun c => (i, c) with
      | some (i, c) => (s2, some ⟨0x14, 16 * c, x.ssp + BitVec.ofNat 64 (32 * i)⟩)
      | none =>
        let toks := (List.range 8).map fun i => tokenOfImage x.live ((img i).map r.byte)
        if toks.any Option.isNone then (s2, some (illegal 0x12))
        else
          ((s2.modWarp w fun x =>
            { x with toks := (toks.filterMap id).reverse, ssp := x.ssp + 256, spilled := x.spilled - 1 }).endRun w, none)

/-- Pops the top token. -/
def State.popTok (s : State) (w : Nat) : State × Option Trap :=
  (s.modWarp w fun x => { x with toks := x.toks.tail }).refill w

/-- Clears lanes from a token's four masks. -/
def Token.clear (t : Token) (m : Mask) : Token :=
  { t with saved := t.saved &&& ~~~m, pend := t.pend &&& ~~~m, brk := t.brk &&& ~~~m, cont := t.cont &&& ~~~m }

/-! ## Barriers -/

/-- The memory scope of a barrier level (R188). -/
def levelScope (lvl : Nat) : MScope := if lvl = 0 then .blk else if lvl = 1 then .die else .dev

/-- A barrier of a block's block, cluster or grid. -/
def State.bar (s : State) (b lvl id : Nat) : Bar :=
  let k := s.blk b
  let st := s.stageOf k
  let l := if lvl = 0 then k.bars else if lvl = 1 then mget [] st.cbars k.cluster else st.grid
  l.getD id {}

/-- Sets a barrier. -/
def State.setBar (s : State) (b lvl id : Nat) (x : Bar) : State :=
  let k := s.blk b
  if lvl = 0 then s.modBlk b fun k => { k with bars := k.bars.set id x }
  else
    s.modCtx k.ctx fun c => c.modStage k.lnum fun st =>
      if lvl = 1 then { st with cbars := mins st.cbars k.cluster ((mget [] st.cbars k.cluster).set id x) }
      else { st with grid := st.grid.set id x }

/-- The unit's number at a level: the WARPID, the block's number in its cluster, or in the grid (R188). -/
def State.unitNo (s : State) (w lvl : Nat) : Nat :=
  let k := s.blkOf w
  if lvl = 0 then (s.warp w).wid
  else if lvl = 1 then k.bid else k.cluster * (s.stageOf k).lrec.blocks + k.bid

/-- The warps that a level's completion concerns: those of the block, the cluster or the grid. -/
def State.barGroup (s : State) (b lvl : Nat) : List Nat :=
  let k := s.blk b
  (s.warps.filter fun e =>
    e.2.blk == b || (lvl != 0 && (let j := s.blk e.2.blk
      j.ctx == k.ctx && j.lnum == k.lnum && (lvl == 2 || j.cluster == k.cluster)))).map (·.1)

/-- Warps that waited together go on after their `BAR`: they observe the generation's releases and acquire (R188,
R278). -/
def State.resumeBar (s : State) (lvl : Nat) (rels : List Nat) (ws : List Nat) : State :=
  let s1 := (s.observe ws rels).acquire ws (levelScope lvl)
  s1.modWarps ws fun x => { x.advance 12 with park := .none }

/-- The units of a mask. -/
def unitsIn (m : Nat) : List Nat := (List.range (Nat.log2 m + 1)).filter fun u => m.testBit u

/-- Completes a barrier's generation where ARR equals a non-empty MEM (R186): the waiting members resume, and the units
that had arrived a second time issue again (R188). `last` is the warp whose arrival completes it; that warp and those that
resume are recorded (R362). -/
def State.barCheck (s : State) (b lvl id : Nat) (last : Option Nat) : State :=
  let x := s.bar b lvl id
  if x.arr = x.mem ∧ x.mem ≠ 0 then
    let past := (unitsIn x.arr).foldl (fun m u => mset [] m u x.rels) x.past
    let s1 := s.setBar b lvl id { x with arr := 0, gen := (x.gen + 1) % 65536, rels := [], past }
    let ws := (s1.barGroup b lvl).filter fun w => (s1.warp w).park == .bar lvl id
    let groups := if lvl = 0 then ws.map ([·]) else (groupBy (fun w => (s1.warp w).blk) ws).map (·.2)
    let again := (s1.barGroup b lvl).filter fun w => (s1.warp w).park == .barAgain lvl id
    let s2 := (s1.bySlot (last.toList ++ ws)).foldl (fun s w => s.trace w 8 (s.warp w).pc) s1
    (groups.foldl (fun s g => s.resumeBar lvl x.rels g) s2).modWarps again fun x => { x with park := .none }
  else s

/-- A unit leaves a barrier (R190). -/
def State.barLeave (s : State) (b lvl id unit : Nat) : State :=
  let x := s.bar b lvl id
  let bit := 2 ^ unit
  let off (m : Nat) : Nat := if m.testBit unit then m - bit else m
  (s.setBar b lvl id { x with mem := off x.mem, arr := off x.arr }).barCheck b lvl id none

/-! ## Retiring and settling -/

/-- The members of a rendezvous that have not fully exited (R30). -/
def State.rdvMembers (s : State) (b : Nat) (r : Rdv) : List Nat :=
  (s.liveWarps b).filter fun w => r.lo ≤ (s.warp w).wid && (s.warp w).wid < r.hi

/-- Whether every remaining member of an open rendezvous has arrived. -/
def State.rdvWhole (s : State) (b : Nat) (r : Rdv) : Bool :=
  (s.rdvMembers b r).all fun w => r.arrived.any fun e => e.1 == w

/-- Whether a warp leads a rendezvous that is complete and waits to issue (R30, R302). -/
def State.leadsReady (s : State) (w : Nat) : Bool :=
  let b := (s.warp w).blk
  (s.blk b).rdvs.any fun r => s.rdvWhole b r && (s.rdvMembers b r).head? == some w

/-- A rendezvous that the exit of a warp has completed is recorded (R32, R362): its leader's partition arbitrates for it
next (R302). `was` are those that were complete before. -/
def State.rdvReady (s : State) (b : Nat) (was : List Word) : State :=
  let ready := ((s.blk b).rdvs.filter fun r => s.rdvWhole b r && !was.contains r.pc).filterMap fun r =>
    (s.rdvMembers b r).head?
  (s.bySlot ready).foldl (fun s w => s.trace w 8 (s.warp w).pc) s

/-- The open batches of a warp that retires complete as sealed ones do (R181). -/
def Warp.sealAll (w : Warp) : Warp :=
  { w with batches := w.batches.zipIdx.map fun (e : Batch × Nat) =>
      if e.1.sealed then e.1 else { e.1 with sealed := true, seq := w.nextSeq + e.2 } }

/-- A warp fully exits: it leaves its block's barriers and every open rendezvous (R108, R190, R32). -/
def State.retire (s : State) (w : Nat) : State :=
  let b := (s.warp w).blk
  let s1 := (s.endRun w).modWarp w fun x => { x.sealAll with retired := true, inHandler := false, park := .none }
  let s2 := (List.range 16).foldl (fun s id => s.barLeave b 0 id (s.warp w).wid) s1
  let was := ((s.blk b).rdvs.filter (s.rdvWhole b)).map (·.pc)
  let s3 := s2.modBlk b fun k =>
    let rs := k.rdvs.map fun (r : Rdv) => { r with arrived := r.arrived.filter fun a => a.1 != w }
    { k with rdvs := rs.filter fun r => !r.arrived.isEmpty }
  (s3.rdvPause b).rdvReady b was

/-- The next waiting path of a warp whose EXEC is zero (R38); the fuel bounds the tokens it can pop. A handler whose
stack is empty goes on with its live lanes (R343). -/
def State.settleLoop (s : State) (w : Nat) : Nat → State × Option Trap
  | 0 => (s, none)
  | n + 1 =>
    let x := s.warp w
    if x.exec ≠ 0 then (s, none)
    else if x.live = 0 then (s.retire w, none)
    else
      match x.toks with
      | [] =>
        if x.inHandler then (s.modWarp w fun x => { x with exec := x.live }, none) else (s.retire w, none)
      | t :: ts =>
        let popTo (e : Mask) : State × Option Trap :=
          match (s.modWarp w fun x => { x with exec := e, pc := t.join }).popTok w with
          | (s1, some e) => (s1, some e)
          | (s1, none) => s1.settleLoop w n
        match t.kind with
        | .ifTok =>
          if t.pend ≠ 0 then
            (s.modWarp w fun x => { x with exec := t.pend, pc := t.aux, toks := { t with pend := 0 } :: ts }, none)
          else popTo t.saved
        | .loopTok =>
          if t.cont ≠ 0 then
            (s.modWarp w fun x => { x with exec := t.cont, pc := t.aux, toks := { t with cont := 0 } :: ts }, none)
          else popTo t.brk
        | .callTok => popTo t.pend

/-- A control transfer to an address with bits 1:0 not zero (R62). -/
def misaligned (p : Word) : Option Trap := if p &&& 3 ≠ 0 then some ⟨0x12, 0, p⟩ else none

/-- Settles a warp whose EXEC is zero (R38); `go` is the control transfer to the address found. -/
def State.settleBy (s : State) (w : Nat) (go : State → Word → State) : State × Option Trap :=
  let x := s.warp w
  if x.exec ≠ 0 then (s, none)
  else
    match s.settleLoop w (x.toks.length + 8 * x.spilled + 2) with
    | (s1, some t) => (s1, some t)
    | (s1, none) =>
      let y := s1.warp w
      if y.retired then (s1, none)
      else if (misaligned y.pc).isSome then (s1, misaligned y.pc)
      else (go { s1 with warps := mins s1.warps w { y with pc := x.pc } } y.pc, none)

/-- Settles a warp whose EXEC is zero (R38): a taken control transfer. -/
def State.settle (s : State) (w : Nat) : State × Option Trap := s.settleBy w fun t pc => t.jump w pc

/-- Return from a handler (R125): the saved stack and EXEC, narrowed to the live lanes, and PC := EPC; a warp whose
restored EXEC is zero settles, which writes no record of its own (R362). -/
def State.tretOp (s : State) (w : Nat) : State × Option Trap :=
  let x := s.warp w
  let s1 := s.trace w 3 x.epc
  let s2 := s1.modWarp w fun x =>
    { x with toks := x.savedToks, spilled := x.savedSpill, exec := x.savedExec &&& x.live, pc := x.epc,
             inHandler := false, savedToks := [], savedExec := 0, savedSpill := 0 }
  let s3 := (s2.endRun w).rdvPause x.blk
  if (s3.warp w).exec ≠ 0 then (s3, none)
  else s3.settleBy w fun t pc => (t.modWarp w fun x => { x with pc }).endRun w

end Sys2Proof.Machine
end

