-- ==== Sys2Proof/Machine/Operands.lean ====
section
/-! DEFINITION. Operands of every form (spec/03 R67 to R72), the members of an instruction (spec/02 R26 to R30), and the
checks that every instruction makes before its own (spec/03 R78, spec/20 R346). -/

namespace Sys2Proof.Machine

/-! ## Immediates and literals -/

/-- A value of width w in every element of a lane. -/
def replicate (w n : Nat) (x : Nat) : Word := packElems w (List.replicate n (x % 2 ^ w))

/-- The 32-bit literal as an operand of a TYPE (R67). -/
def literal32 (t : EType) (l : Word) : Word :=
  match t with
  | .i64 => (l.setWidth 32).signExtend 64
  | .n64 => (l.setWidth 32).setWidth 64
  | _ => replicate t.width t.count l.toNat

/-- IMM12 as operand B of an integer instruction or of `FSCALE`: every element gets the value sign-extended and cut to
the element's width (R111, R137). -/
def immElems (t : EType) (imm : BitVec 12) : Word := replicate t.width t.count (imm.signExtend 64).toNat

/-- The immediate of `MOVI`, `ADDI`, `SWR` and `SLEEP`: the literal, or IMM12 extended by TYPE (R114). -/
def immC (a : Args) : Word :=
  match a.form with
  | .extLit => a.lit
  | .baseLit => literal32 a.ty a.lit
  | _ => if a.ty = .n64 then a.imm.setWidth 64 else a.imm.signExtend 64

/-- A length of kind 11: IMM12 zero-extended, or the literal (R175, R250). -/
def lenC (a : Args) : Word := if a.form = .extLit then a.lit else a.imm.setWidth 64

/-- IMM12 sign-extended: the offset of a memory operand (R170). -/
def immOff (a : Args) : Word := a.imm.signExtend 64

/-- An operand as read: a register of a kind, or a value under kind 11. -/
structure Src where
  kind : Kind
  reg  : Nat
  val  : Word := 0
  deriving DecidableEq, Repr

/-- Operand A. -/
def srcA (a : Args) : Src := ⟨a.ka, a.a.toNat, 0⟩

/-- Operand B: the register, IMM12 (`imm` gives its value), or the 32-bit literal that replaces it (R67). -/
def srcB (a : Args) (imm : Word) : Src :=
  if a.form = .baseLit then ⟨.x, 0, literal32 a.ty a.lit⟩ else ⟨a.kb, a.b.toNat, imm⟩

/-- Operand C: the register or the 64-bit literal. -/
def srcC (a : Args) : Src := ⟨a.kc, a.c.toNat, a.lit⟩

/-- Operand D where it is also a source. -/
def srcD (a : Args) : Src := ⟨a.kd, a.d.toNat, 0⟩

/-! ## The members of an instruction -/

/-- The members that execute an instruction together, by WARPID, each with the EXEC it brought (R30); one warp at lane
and warp scope. -/
abbrev Grp := List (Nat × Mask)

/-- The leader: the lowest-numbered member that arrived (R28). -/
def leaderOf (g : Grp) : Nat := (g.headD (0, 0)).1

/-- The warps of a group. -/
def Grp.ws (g : Grp) : List Nat := g.map (·.1)

/-- Lanes acted on of a member (R27, R72). -/
def State.actedOf (s : State) (a : Args) (m : Nat × Mask) : List Nat :=
  lanesOf (m.2 &&& (s.warp m.1).pred a.p.toNat a.pn)

/-- The value of an operand in lane `l` of member `m`: scalars come from the leader (R28). -/
def State.val (s : State) (lead m l : Nat) (o : Src) : Word :=
  match o.kind with
  | .v => (s.warp m).vget o.reg l
  | .s => (s.warp lead).sget o.reg
  | .q => (s.blkOf lead).qread s.clock lead o.reg
  | .x => o.val

/-- The value of a scalar operand. -/
def State.sval (s : State) (g : Grp) (o : Src) : Word := s.val (leaderOf g) (leaderOf g) 0 o

/-- Writes a scalar destination: in every member, or once to the block (R28). -/
def State.setScalar (s : State) (g : Grp) (k : Kind) (r : Nat) (x : Word) : State :=
  match k with
  | .s => s.modWarps g.ws fun w => w.sset r x
  | .q => s.modBlk (s.warp (leaderOf g)).blk fun b => b.qput s.clock g.ws r x
  | _ => s

/-- The inputs of one lane. -/
def State.laneIn (s : State) (a : Args) (sa sb sc : Src) (lead m l : Nat) : LaneIn :=
  { a := s.val lead m l sa, b := s.val lead m l sb, c := s.val lead m l sc, d := s.val lead m l (srcD a),
    fp := (s.warp m).fpmode }

/-- Writes one member's lanes of vD from a function of the lane, and sets the flags raised. -/
def Warp.writeLanes (w : Warp) (d : Nat) (ls : List Nat) (f : Nat → Word × Nat) : Warp :=
  ls.foldl (fun w l => (w.vset d l (f l).1).setFlags (f l).2) w

/-- An elementwise instruction (R110, R130): every operand is read before any result is written (R6). At warp scope it
acts once on scalars; otherwise on the lanes acted on of every member. -/
def State.elementwise (s : State) (g : Grp) (a : Args) (sa sb sc : Src) (f : LaneIn → Word × Nat) : State :=
  let lead := leaderOf g
  if a.scope = .warp then
    let r := f (s.laneIn a sa sb sc lead lead 0)
    (s.setScalar g a.kd a.d.toNat r.1).modWarps g.ws fun w => w.setFlags r.2
  else
    g.foldl (fun t m =>
      t.modWarp m.1 fun w => w.writeLanes a.d.toNat (s.actedOf a m) fun l => f (s.laneIn a sa sb sc lead m.1 l)) s

/-- An instruction that writes a predicate (R112, R133): bits of the lanes acted on, or all of pD at warp scope. -/
def State.predwise (s : State) (g : Grp) (a : Args) (sa sb : Src) (f : LaneIn → Bool × Nat) : State :=
  let lead := leaderOf g
  if a.scope = .warp then
    let r := f (s.laneIn a sa sb ⟨.x, 0, 0⟩ lead lead 0)
    s.modWarps g.ws fun w => (w.pset a.d.toNat (if r.1 then BitVec.allOnes 32 else 0)).setFlags r.2
  else
    g.foldl (fun t m =>
      let ls := s.actedOf a m
      let r (l : Nat) : Bool × Nat := f (s.laneIn a sa sb ⟨.x, 0, 0⟩ lead m.1 l)
      let on := maskOf (ls.filter fun l => (r l).1)
      let fl := ls.foldl (fun acc l => acc ||| (r l).2) 0
      t.modWarp m.1 fun w => (w.pset a.d.toNat ((w.pget a.d.toNat &&& ~~~maskOf ls) ||| on)).setFlags fl) s

/-! ## Named registers -/

/-- The operands of an instruction that name registers: its row's descriptions with kinds and fields; operands that are
absent or replaced by the 32-bit literal are left out. D of `CVT` is also a source only where TYPE is packed (R135). -/
def namedOpnds (row : Row) (a : Args) : List (Opnd × Kind × Nat) :=
  let c := if row.target then [] else [(row.c, a.kc, a.c.toNat)]
  let d := if row.opc = 0x38 ∧ a.ty.count = 1 then { row.d with use := .dst } else row.d
  ([(row.a, a.ka, a.a.toNat)] ++
   (if a.form = .baseLit && row.base == .b3 then [] else [(row.b, a.kb, a.b.toNat)]) ++ c ++
   [(d, a.kd, a.d.toNat)]).filter fun o =>
    o.1.present && !(o.1.opt && o.2.1 == .v && o.2.2 == 0) && (o.1.cls == .pred || (o.1.kinds a.scope).contains o.2.1)

/-- Step 4 of Table 3.8 on one operand (R51). -/
def regBad (w : Warp) (b : Block) (o : Opnd × Kind × Nat) : Bool :=
  match o.2.1 with
  | .v => if o.1.cls == .pred then 8 ≤ o.2.2 else w.nregs ≤ o.2.2
  | .s => if o.1.cls == .pred then 8 ≤ o.2.2 else 64 ≤ o.2.2
  | .q => 64 ≤ o.2.2
  | .x =>
    match o.1.cls with
    | .tile => 8 ≤ o.2.2 || b.ntiles ≤ o.2.2
    | .record => 16 ≤ o.2.2 || b.nrec ≤ o.2.2
    | _ => false

/-- The array or a tile of a `TZERO` span that the block is not granted (R208, R224). -/
def grantBad (o : Op) (a : Args) (b : Block) : Bool :=
  ([Op.wld, .mma, .smma].contains o && !b.array) || (o == .tzero && b.ntiles < a.d.toNat + a.imm.toNat)

/-- Whether an operand names a register that the scoreboard keeps waiting (R46, R178). -/
def opBusy (w : Warp) (o : Opnd × Kind × Nat) : Bool :=
  match o.2.1 with
  | .v => o.1.cls != .pred && w.busy.contains (.v o.2.2)
  | .s => o.1.cls != .pred && w.sBusy o.2.2
  | .q => w.busy.contains (.q o.2.2)
  | .x => false

/-- The poison or failed-token trap of one source operand (R346 step 3, R368, R182): of the lanes acted on. -/
def State.srcTrap (s : State) (g : Grp) (acted : Nat × Mask → List Nat) (k : Kind) (r : Nat) : Option Trap :=
  let mk (m : Mark) : Trap := ⟨m.code, m.detail, m.addr⟩
  match k with
  | .v => g.findSome? fun m =>
      if (acted m).any fun l => ((s.warp m.1).vmark r l).isSome then ((s.warp m.1).vmarkReg r).map mk else none
  | .s =>
    let w := s.warp (leaderOf g)
    match mfind w.tokenErr r with
    | some e => some ⟨e.1, e.2.1, e.2.2⟩
    | none => (w.smark r).map mk
  | .q => ((s.blkOf (leaderOf g)).qreadMark s.clock (leaderOf g) r).map mk
  | .x => none

/-- The trap of a marked predicate of the first member that holds one. -/
def State.predTrap (s : State) (g : Grp) (n : Nat) : Option Trap :=
  g.findSome? fun m => (mget none (s.warp m.1).pMark n).map fun k => ⟨k.code, k.detail, k.addr⟩

/-- The trap of the first source operand that has one, in the order A, B, C, D (R346). -/
def State.srcTraps (s : State) (g : Grp) (acted : Nat × Mask → List Nat) (os : List (Opnd × Kind × Nat)) :
    Option Trap :=
  os.findSome? fun o =>
    if o.1.use == .dst then none
    else if o.1.cls == .pred then s.predTrap g o.2.2 else s.srcTrap g acted o.2.1 o.2.2

/-! ## Register words in the UBS (R168, R366) -/

/-- The words that an instruction reads, by the registers that it names as sources, its predicate, the predicate it writes, since
two share a word, and the ranges of `PUSHM` and `XFFT`: of each member of the group, and of the block. -/
def wordRegs (g : Grp) (o : Op) (a : Args) : List Nat × List Nat :=
  let row := rowOf o a.func.toNat
  let os := namedOpnds row a
  let own := os.flatMap fun x =>
    if x.1.cls == .pred then [8256 + x.2.2 / 2]
    else if x.1.use == .dst then []
    else match x.2.1 with
      | .v => span (32 * x.2.2) 32
      | .s => [8192 + x.2.2]
      | _ => []
  let more := if o = .pushm then (if a.kd = .s then span (8192 + a.d.toNat) a.imm.toNat else span (32 * a.d.toNat) (32 * a.imm.toNat))
    else if o = .xfftFwd ∨ o = .xfftInv then span (32 * a.a.toNat) 64 else []
  let q := os.filterMap fun x => if x.2.1 == .q && x.1.use != .dst then some x.2.2 else none
  (if g.isEmpty then [] else own ++ more ++ (if a.p = 0 then [] else [8256 + a.p.toNat / 2]), q)

/-- The checks of the words that an instruction reads, before it reads them. -/
def State.checkWords (s : State) (g : Grp) (ks : List Nat × List Nat) : State :=
  let s1 := if g.ws.all fun w => (s.warp w).words.isEmpty then s
    else g.ws.foldl (fun s w => ks.1.foldl (fun s k => s.checkWord w k) s) s
  let b := (s.warp (leaderOf g)).blk
  if (s.blk b).qWords.isEmpty then s1 else ks.2.foldl (fun s n => s.checkQ b n) s1

/-! ## Fixed latencies (R45 to R47, R49, Table 2.4) -/

/-- The name of an operand's register on the scoreboard of fixed latencies: vector from 0, scalar from 256, block-shared from
320, records from 384, predicates from 400. -/
def dueKey (o : Opnd × Kind × Nat) : Option Nat :=
  if o.1.cls == .pred then some (400 + o.2.2)
  else
    match o.2.1 with
    | .v => some o.2.2
    | .s => some (256 + o.2.2)
    | .q => some (320 + o.2.2)
    | .x => if o.1.cls == .record then some (384 + o.2.2) else none

/-- The registers that an instruction waits for: those it names, and its predicate. -/
def dueKeys (row : Row) (a : Args) : List Nat :=
  (namedOpnds row a).filterMap dueKey ++ (if row.pred && a.p != 0 then [400 + a.p.toNat] else [])

/-- The registers that an instruction writes. -/
def dueDsts (row : Row) (a : Args) : List Nat :=
  ((namedOpnds row a).filter fun o => o.1.use != .src).filterMap dueKey

/-- The warps of an instruction's set or block, exited ones too; one at lane and warp scope (R29). -/
def timingWarps (a : Args) (b : Block) : Nat :=
  match a.scope with
  | .set => b.setw
  | .block => b.nwarps
  | _ => 1

/-- Clocks after which an instruction's fixed-latency result can be used: Table 2.4 and R142; 1 clock where neither gives one
(DEDUCED, notes/assumptions/4). -/
def resultAfter (row : Row) (a : Args) (n : Nat) : Nat :=
  if row.opc = 0x39 then 8 * a.ty.count * n
  else if row.opc < 0x10 then 1
  else if row.opc < 0x40 ∨ row.opc = 0x70 then (if a.scope = .warp then 1 else 4 + 2 * (n - 1))
  else if row.opc < 0x48 then 6 + 2 * (n - 1)
  else 1

/-- Clocks for which an instruction occupies its issue port (Table 2.4). -/
def portClocks (row : Row) (a : Args) (n : Nat) : Nat :=
  match portOf row.opc a.scope with
  | .v => 2 * n
  | .s => if row.opc = 0x39 then 2 else 1
  | _ => 1

/-- The number of an issue port. -/
def portNo : Port → Nat
  | .v => 0 | .s => 1 | .m => 2 | .x => 3

/-- The units that an instruction occupies, each with its clocks: its port, and the special function unit. -/
def portUse (row : Row) (a : Args) (n : Nat) : List (Nat × Nat) :=
  (portNo (portOf row.opc a.scope), portClocks row a n) :: (if row.opc = 0x39 then [(4, resultAfter row a n)] else [])

/-- Occupies a unit of a partition for some clocks: from now, or from when it is free. -/
def Part.take (p : Part) (clk : Nat) (u : Nat × Nat) : Part :=
  { p with ports := mins (p.ports.filter fun e => clk < e.2 && e.1 != u.1) u.1 (Nat.max clk (mget 0 p.ports u.1) + u.2) }

/-- What issuing an instruction leaves on the scoreboard of fixed latencies: its units in the leader's partition, its
destinations in every member (R31), and the next clock for what follows a control instruction (spec/17 R331) and for the
members beside the one whose arrival completed the rendezvous (R31). -/
def State.occupy (s : State) (o : Op) (a : Args) (g : Grp) : State :=
  let row := rowOf o a.func.toNat
  let w := leaderOf g
  let n := timingWarps a (s.blkOf w)
  let k := (s.warp w).part
  let used (p : Part) : Part := (portUse row a n).foldl (fun p u => p.take s.clock u) p
  let s1 := s.modCore (s.coreOf w) fun c => { c with parts := mins c.parts k (used (mget {} c.parts k)) }
  let s2 := (if a.fin then s1.endRun w else s1).modWarps g.ws fun x =>
    { x with
      due := (dueDsts row a).foldl (fun m k => mins m k (s.clock + resultAfter row a n)) (x.due.filter fun e => s.clock < e.2)
      next := if row.opc < 0x10 then s.clock + 1 else x.next }
  s2.modWarps (g.ws.filter (· != s.cur)) fun x => { x with next := s.clock + 1 }

/-- Clocks that a warp's instruction still waits for fixed-latency results, for its port and unit, and for the clock after a
control instruction (R46, R47). At set and block scope the arrival waits for the registers alone. -/
def State.fixedWait (s : State) (w : Nat) (o : Op) (a : Args) : Nat :=
  let x := s.warp w
  let row := rowOf o a.func.toNat
  let regs := (dueKeys row a).foldl (fun m k => Nat.max m (mget 0 x.due k)) x.next
  let p : Part := mget {} (s.core (s.coreOf w)).parts x.part
  let all := if a.scope == .set || a.scope == .block then regs
    else (portUse row a 1).foldl (fun m u => Nat.max m (mget 0 p.ports u.1)) regs
  all - s.clock

/-! ## The REG window of a warp's own (R60) -/

/-- The size of an access in bytes (R170). -/
def accSize (a : Args) : Nat :=
  match subElem a.sub with
  | some (w, _) => w / 8
  | none => if a.ty = .i64 then 8 else 4

/-- The lanes of an access: those acted on, or 32 for the one element of warp scope. -/
def State.accLanes (s : State) (g : Grp) (a : Args) : List Nat :=
  if a.scope = .warp then [32] else s.actedOf a (g.headD (0, 0))

/-- The address of a lane: A + IMM12 (R170). -/
def State.accAddr (s : State) (g : Grp) (a : Args) (l : Nat) : Word :=
  s.val (leaderOf g) (leaderOf g) l (srcA a) + immOff a

/-- The scalar registers of its own window that n bytes at a REG pointer lie in (R59). -/
def ownScalars (p : Word) (n : Nat) : List Nat :=
  if spaceOf p = 6 ∧ p.extractLsb' 18 42 = 0 then
    ((span (p.extractLsb' 0 18).toNat n).filterMap fun o =>
      if 0x10000 ≤ o ∧ o < 0x10200 then some ((o - 0x10000) / 8) else none).dedup
  else []

/-- The scalar registers that an `LD` or `ST` reaches through the warp's own REG window: it uses them as an instruction
that names them does (R60). -/
def State.windowRegs (s : State) (g : Grp) (o : Op) (a : Args) : List Nat :=
  if o = .ld ∨ o = .st then
    ((s.accLanes g a).flatMap fun l => ownScalars (s.accAddr g a l) (accSize a)).dedup
  else []

/-- The scalar registers whose tokens an instruction reads (R180, R182): those it names as sources, the range of
`PUSHM`, and those that an `LD` reads through the REG window. -/
def State.tokenRegs (s : State) (g : Grp) (o : Op) (a : Args) : List Nat :=
  ((namedOpnds (rowOf o a.func.toNat) a).filterMap fun x =>
    if x.1.use != .dst && x.2.1 == .s && x.1.cls != .pred && o != .pushm then some x.2.2 else none) ++
  (if o = .pushm ∧ a.kd = .s then span a.d.toNat a.imm.toNat else []) ++
  (if o = .ld then s.windowRegs g o a else [])

/-- The registers among some whose failed token is what made an instruction trap with `t`, by what it would raise if that token
had failed in another way. -/
def State.tokenTook (s : State) (g : Grp) (regs : List Nat) (poison : State → Grp → Option Trap) (t : Trap) : List Nat :=
  regs.filter fun r =>
    (mfind (s.warp (leaderOf g)).tokenErr r).isSome &&
      poison (s.modWarp (leaderOf g) fun w => { w with tokenErr := mins w.tokenErr r (t.code + 1, 0, 0) }) g != some t

/-- A reader of tokens that trapped and entered its handler finds ERR of the token that it trapped for cleared (R182). -/
def State.clearErr (s : State) (g : Grp) (regs : List Nat) : State :=
  s.modWarp (leaderOf g) fun w =>
    match regs.head? with
    | none => w
    | some r =>
      if w.inHandler && !w.stopped then
        { w with s := mset 0 w.s r (w.sget r &&& 0x7FFFFFFFFFFFFFFF), tokenErr := mdel w.tokenErr r }
      else w

/-- Reading tokens moves the copied data into the reader's floors (R180). -/
def State.readTokens (s : State) (g : Grp) (regs : List Nat) : State :=
  regs.foldl (fun s r => s.modWarp (leaderOf g) fun w => w.tokenRead r) s

/-- The fault of the first failed token that an `LD` reads through the REG window (R182, R346 step 3). -/
def State.windowTrap (s : State) (g : Grp) (o : Op) (a : Args) : Option Trap :=
  if o = .ld then
    (s.windowRegs g o a).findSome? fun r =>
      (mfind (s.warp (leaderOf g)).tokenErr r).map fun e => ⟨e.1, e.2.1, e.2.2⟩
  else none

/-! ## The energy budget (R306) -/

/-- Cost of an energy class. -/
def ecCost (ec : BitVec 2) : Nat :=
  match ec.toNat with
  | 0 => 0 | 1 => 1 | 2 => 4 | _ => 16

/-- Whether the budget of the core keeps an instruction waiting. -/
def State.budgetStalls (s : State) (w : Nat) (ec : BitVec 2) : Bool :=
  let b := s.budgetOf w
  let k := ecCost ec
  let lv := s.levelOf w
  !(k == 0 || b.1 == 0xFFFF) && !(0 < lv && Nat.min k b.2 ≤ lv)

/-- A core's level after a charge of k units in clock `clk`: in the clock of an `SWR` of EBUDGET the charge is made on the
level before it (R121). -/
def Core.charge (c : Core) (clk k : Nat) : Core :=
  match c.levelWas with
  | some x =>
    if x.at_ = clk then { c with levelWas := some { x with val := x.val - k } }
    else { c with level := c.level - k }
  | none => { c with level := c.level - k }

/-- Charges an instruction's cost. -/
def State.chargeBudget (s : State) (w : Nat) (ec : BitVec 2) : State :=
  let k := ecCost ec
  if k = 0 ∨ (s.budgetOf w).1 = 0xFFFF then s
  else s.modCore (s.coreOf w) fun c => c.charge s.clock k

/-! ## What an instruction does -/

/-- How an instruction's own effect ends: completed, and the warp goes on past it (`next`, or `last` where the run ends
with it); control moved by the effect itself; waiting to issue; parked, with the pc at the instruction; or a trap. -/
inductive Res where
  | next (s : State)
  | last (s : State)
  | moved (s : State)
  | stall (s : State)
  | parked (s : State)
  | trap (s : State) (t : Trap)
  deriving DecidableEq, Repr

/-- Changes the state that an effect has made. -/
def Res.map (f : State → State) : Res → Res
  | .next s => .next (f s)
  | .last s => .last (f s)
  | .moved s => .moved (f s)
  | .stall s => .stall (f s)
  | .parked s => .parked (f s)
  | .trap s t => .trap (f s) t

/-- Bytes of an instruction. -/
def argBytes (a : Args) : Nat := 4 * a.form.len

/-- Closes the accounting of an instruction issued by warp `w`: it counts in the open run, which END or the 24th
instruction or a TLB miss ends (R45, R159), it is an event of its core (R313), and the count of R349 restarts. -/
def State.account (s : State) (w : Nat) (a : Args) (ends : Bool) : State :=
  let on := (mget {} (s.core (s.coreOf w)).parts (s.warp w).part).run = some w
  let s1 := (s.modWarp w fun x =>
    { x with runCnt := if on then x.runCnt + 1 else 0, waitFrom := none, waited := 0 }).modCore (s.coreOf w) fun c =>
      { c with events := mset 0 c.events a.ec.toNat (mget 0 c.events a.ec.toNat + 1) }
  if ends || a.fin || (s1.warp w).missed || 24 ≤ (s1.warp w).runCnt then s1.endRun w else s1

/-- The instruction cannot issue now, and waits for a result, a unit or the budget for a time that varies: the run ends (R47,
R306). -/
def State.stalled (s : State) (w : Nat) : State := s.endRun w

/-- Members go on past a completed instruction. -/
def State.pass (s : State) (g : Grp) (n : Nat) : State :=
  s.modWarps g.ws fun w => { w.advance n with park := .none }

/-- Notes that the instruction of a warp met a TLB miss, if a translation has been entered since (R159)
(DEDUCED, notes/assumptions/28). -/
def State.noteMiss (s : State) (before : Mem) (w : Nat) : State :=
  if s.mem.tlb.length = before.tlb.length then s else s.modWarp w fun x => { x with missed := true }

/-- Turns an effect's end into the next state of warp `w` (the one that issues) and its group. -/
def State.finish (w : Nat) (g : Grp) (o : Op) (a : Args) (r : Res) : State :=
  match r with
  | .next s => ((s.occupy o a g).pass g (argBytes a)).account w a false
  | .last s => ((s.occupy o a g).pass g (argBytes a)).account w a true
  | .moved s => (s.occupy o a g).account w a false
  | .stall s => s.stalled w
  | .parked s => (g.ws.foldl State.endRun (s.occupy o a g)).account w a true
  | .trap s t => if g.length = 1 then s.trap w t else s.trapSet g.ws t

/-! ## Checks before the instruction's own -/

/-- Whether a warp's outstanding operations are within the four limits of a `WAIT` (R206). -/
def waitMet (a : Args) (w : Warp) : Bool :=
  w.ldCnt ≤ a.d.toNat && w.stCnt ≤ a.a.toNat && w.tileCnt ≤ a.b.toNat && w.bankCnt ≤ a.c.toNat

/-- Whether the held late trap of a warp is due at an instruction (R398) (DEDUCED, notes/assumptions/22). -/
def lateDue (o : Op) (a : Args) (w : Warp) : Bool :=
  match w.late with
  | none => false
  | some t =>
    let exits := o == .exit || (o == .ret && (w.inHandler || w.spilled == 0) && !w.toks.any fun k => k.kind == .callTok)
    match t.pt with
    | .store =>
      (o == .phase && a.func != 2) || o == .barArv || o == .barMeet || o == .csig ||
      (o == .wait && a.a.toNat < 255) || exits
    | .array =>
      (o == .wait && a.b.toNat < 255) || [Op.tshp, .wld, .mma, .smma, .tst, .tld, .tzero, .phase].contains o || exits

/-- Step 5 of Table 3.8 (R56, R76). -/
def privBad (row : Row) (c : Ctx) : Bool := row.priv && !c.crec.priv

/-- Step 6 of Table 3.8 and the handler's rule (R24, R26, R187, R343) (DEDUCED, notes/assumptions/20). -/
def scopeBad (o : Op) (row : Row) (a : Args) (w : Warp) (b : Block) : Bool :=
  !row.scopes.contains a.scope || (a.scope == .set && b.setw == 0) ||
  (w.inHandler && (a.scope == .set || a.scope == .block)) ||
  (o == .srd && a.func.toNat == 0x24 && a.scope == .warp) ||
  ([Op.barArv, .barWt, .barMeet, .barMemb, .barQry].contains o &&
    (if a.imm.extractLsb' 4 2 = 0 then a.scope != .warp else a.scope != .block))

/-- Whether an instruction may name a register that holds an open batch: a copy, or `CSEAL` (R179). -/
def isCopy (o : Op) : Bool := [Op.cpy, .cpyg, .cpys, .cpyr, .cseal].contains o

/-- What may be said of an instruction before it issues. -/
inductive Pre where
  | trap (t : Trap)
  | stall
  | ok
  deriving DecidableEq, Repr

/-- The checks of one warp at issue (R346 steps 1 and 2), and the scoreboard (R46). -/
def State.precheck (s : State) (o : Op) (a : Args) (w : Nat) : Pre :=
  let x := s.warp w
  let b := s.blk x.blk
  let row := rowOf o a.func.toNat
  let os := namedOpnds row a
  match (if lateDue o a x then x.late else none) with
  | some t => .trap ⟨t.code, t.detail, t.addr⟩
  | none =>
    if os.any (regBad x b) || grantBad o a b then .trap (illegal 0x03)
    else if privBad row (s.ctx x.ctx) then .trap (illegal 0x04)
    else if scopeBad o row a x b then .trap { code := 0x02 }
    else if os.any fun r => opBusy x r && !(isCopy o && r.1 == row.d && !x.busy.contains (.s r.2.2)) then .stall
    else .ok

/-- The late trap of a warp is taken. -/
def State.takeLate (s : State) (o : Op) (a : Args) (w : Nat) : State :=
  s.modWarp w fun x => if lateDue o a x then { x with late := none } else x

/-- Whether an instruction uses a scalar register that holds an open batch, and is neither a copy nor `CSEAL` (R179). -/
def State.batchBad (s : State) (g : Grp) (o : Op) (a : Args) : Bool :=
  !isCopy o &&
  (g.any (fun m => (namedOpnds (rowOf o a.func.toNat) a).any fun r =>
    r.2.1 == .s && r.1.cls != .pred && (s.warp m.1).openBatch r.2.2) ||
   (s.windowRegs g o a).any (s.warp (leaderOf g)).openBatch ||
   ((o == .pushm || o == .popm) && a.kd == .s && (span a.d.toNat a.imm.toNat).any (s.warp (leaderOf g)).openBatch))

/-! ## Rendezvous (R30 to R32) -/

/-- Whether a warp may issue at all: resident, neither retired nor stopped, parked at most at a rendezvous that it leads
and that is complete, its context not frozen, its core not halted and its die on line (R127, R300, R302). -/
def State.mayIssue (s : State) (w : Nat) : Bool :=
  let x := s.warp w
  let c := s.ctx x.ctx
  (mfind s.warps w).isSome && !x.retired && !x.stopped &&
  (match x.park with
    | .none => true
    | .rendezvous _ => s.leadsReady w
    | _ => false) &&
  !c.frozen && !c.saved && !(s.core (s.coreOf w)).halted && !s.offline (s.coreOf w / 40)

/-- Whether a warp may be given a run: a context that is being frozen gives runs only to warps in handlers (R352), and one
that took a fatal trap gives none (R350). -/
def State.mayRun (s : State) (w : Nat) : Bool :=
  let c := s.ctxOf w
  s.mayIssue w && !c.dead && (!c.freezing || (s.warp w).inHandler)

/-- Whether a warp stays where it waits: its context is frozen or took a fatal trap, or is being frozen and the warp, outside
a handler, has stopped (R350, R352). -/
def State.waitKept (s : State) (w : Nat) : Bool :=
  let c := s.ctxOf w
  c.frozen || c.dead || (c.freezing && !(s.warp w).inHandler)

/-- The run of a warp's partition. -/
def State.slotOf (s : State) (w : Nat) : Option Nat := (mget {} (s.core (s.coreOf w)).parts (s.warp w).part).run

/-- Whether a partition's slot is free and a warp is the only one of the partition that could be given it (spec/17 R331). -/
def State.sole (s : State) (w : Nat) : Bool :=
  (s.slotOf w).isNone &&
    s.warps.all fun e => e.1 == w || s.coreOf e.1 != s.coreOf w || e.2.part != (s.warp w).part || !s.mayRun e.1

/-- A warp is given its partition's slot (R300, R301). -/
def State.grant (s : State) (w : Nat) : State :=
  (s.modWarp w fun x => { x with age := 0, runCnt := 0 }).modCore (s.coreOf w) fun c =>
    { c with parts := mins c.parts (s.warp w).part { mget {} c.parts (s.warp w).part with run := some w } }

/-- The WARPIDs of a warp's set or block at an instruction's scope: from `lo` to before `hi`. -/
def rdvRange (sc : Scope) (b : Block) (wid : Nat) : Nat × Nat :=
  if sc = .set then (wid / b.setw * b.setw, wid / b.setw * b.setw + b.setw) else (0, 32)

/-- The open rendezvous at a warp's instruction. -/
def State.rdvOf (s : State) (w : Nat) (sc : Scope) : Option Rdv :=
  let x := s.warp w
  let b := s.blk x.blk
  let r := rdvRange sc b x.wid
  b.rdvs.find? fun q => q.pc == x.pc && q.lo == r.1 && q.hi == r.2

/-- The arrival of a warp at a set- or block-scope instruction: the group where every member has now arrived and the
instruction issues at once from the leader's partition: which is the arriving warp's own, or whose slot is free and goes
to the leader, the only warp there that could be given it. Else the rendezvous is complete and the leader's run is still to
be chosen (R30, R31, R302) (DEDUCED, notes/assumptions/42). -/
def State.arrive (s : State) (w : Nat) (i : Instr) (sc : Scope) : State × Option Grp :=
  let x := s.warp w
  let b := s.blk x.blk
  let (lo, hi) := rdvRange sc b x.wid
  let mine (r : Rdv) : Bool := r.pc == x.pc && r.lo == lo && r.hi == hi
  let r0 : Rdv := (s.rdvOf w sc).getD { pc := x.pc, lo, hi, instr := i, arrived := [], first := s.clock }
  let arrived := r0.arrived.filter (fun e => e.1 != w) ++ [(w, x.exec)]
  let ms := (s.liveWarps x.blk).filter fun v => lo ≤ (s.warp v).wid && (s.warp v).wid < hi
  let whole := ms.all fun v => arrived.any fun e => e.1 == v
  let g : Grp := ms.filterMap fun v => arrived.find? fun e => e.1 == v
  let s1 := if whole && !r0.arrived.any fun e => e.1 == w then s.trace w 8 x.pc else s
  let lead := leaderOf g
  if whole && (s.warp lead).part == x.part then (s1, some g)
  else if whole && s.sole lead && !(s.ctx x.ctx).dead && !(s.ctx x.ctx).freezing then (s1.grant lead, some g)
  else
    (((s1.modBlk x.blk fun b => { b with rdvs := b.rdvs.filter (fun r => !mine r) ++ [{ r0 with arrived }] }).modWarp w
      fun x => { x with park := .rendezvous x.pc }).rdvPause x.blk, none)

/-- Whether a warp waits at a rendezvous that is complete and whose leader may be given its partition's free slot in this
clock: the warp's run goes on (R31). -/
def State.atWhole (s : State) (w : Nat) : Bool :=
  let x := s.warp w
  (s.blk x.blk).rdvs.any fun r =>
    r.arrived.any (fun e => e.1 == w) && s.rdvWhole x.blk r &&
      (s.rdvMembers x.blk r).head?.any fun v => (s.slotOf v).isNone && s.mayRun v

/-- Closes a rendezvous that has issued. -/
def State.closeRdv (s : State) (w : Nat) (sc : Scope) : State :=
  let x := s.warp w
  let (lo, hi) := rdvRange sc (s.blk x.blk) x.wid
  s.modBlk x.blk fun b => { b with rdvs := b.rdvs.filter fun r => !(r.pc == x.pc && r.lo == lo && r.hi == hi) }

/-- A rendezvous that is complete but whose instruction cannot issue yet stays, with the arrivals `g`; its watchdog goes on
from the first arrival, as `r` has it (R348). The run that its leader was given ends. -/
def State.keepRdv (s : State) (w : Nat) (i : Instr) (sc : Scope) (g : Grp) (r : Option Rdv) : State :=
  let x := s.warp w
  let (lo, hi) := rdvRange sc (s.blk x.blk) x.wid
  let r0 : Rdv := r.getD { pc := x.pc, lo, hi, instr := i, arrived := [], first := s.clock }
  (((s.endRun (leaderOf g)).closeRdv w sc).modBlk x.blk fun b =>
    { b with rdvs := b.rdvs ++ [{ r0 with arrived := g }] }).modWarps g.ws fun y => { y with park := .rendezvous x.pc }

/-- Members with a late trap that is due take it where the instruction would issue; they have not arrived, and the others
wait (R398, R78). -/
def State.lateLeave (s : State) (o : Op) (a : Args) (w : Nat) (g : Grp) (late : List Nat) : State :=
  let s1 := (s.endRun (leaderOf g)).keepRdv w (Instr.ofOp o a) a.scope (g.filter fun m => !late.contains m.1)
    (s.rdvOf w a.scope)
  late.foldl (fun s m =>
    match (s.warp m).late with
    | some t => (s.trap m ⟨t.code, t.detail, t.addr⟩).takeLate o a m
    | none => s) s1

/-! ## Issue -/

/-- The members that are not converged (R34). -/
def State.unconverged (s : State) (g : Grp) : Bool := g.any fun m => m.2 != (s.warp m.1).live

/-- Every member takes illegal-convergence in its own right (R34, R347). -/
def State.trapConv (s : State) (g : Grp) : State :=
  (sortBy (fun m => (s.warp m.1).slot) g).foldl (fun t m =>
    t.trap m.1 { code := 0x03, detail := if m.2 != (s.warp m.1).live then 1 else 0 }) s

/-- Whatever storage has reported of errors stays, though the instruction that met them traps (R366, R371, R373). -/
def State.keepErrors (s s1 : State) : State :=
  { s with
    chans := s1.chans
    dies := s1.dies
    mem := { s.mem with cols := s1.mem.cols, sectors := s1.mem.sectors, tables := s1.mem.tables } }

/-- Issues an instruction for the group that executes it: the check of the register words it reads, the budget, poison and tokens (step 3 of R346), convergence
first of step 7 (R34), open batches (R179), then the effect. -/
def State.issueGrp (s : State) (o : Op) (a : Args) (w : Nat) (g : Grp)
    (poison : State → Grp → Option Trap) (eff : State → Grp → Res) : State :=
  let i := Instr.ofOp o a
  let row := rowOf o a.func.toNat
  let sync := a.scope == .set || a.scope == .block
  let keep (t : State) : State := if sync then t.keepRdv w i a.scope g (s.rdvOf w a.scope) else t
  if s.budgetStalls (leaderOf g) a.ec then (keep s).stalled w
  else
    let s0 := (if sync then s.closeRdv w a.scope else s).checkWords g (wordRegs g o a)
    match poison s0 g with
    | some t => State.finish w g o a (.trap s0 t) |>.clearErr g (s0.tokenTook g (s0.tokenRegs g o a) poison t)
    | none =>
      if row.conv && s.unconverged g then s0.trapConv g
      else if s0.batchBad g o a then State.finish w g o a (.trap s0 (illegal 0x15))
      else
        match eff ((s0.chargeBudget (leaderOf g) a.ec).readTokens g (s0.tokenRegs g o a)) g with
        | .stall s2 =>
          let k := s0.core (s0.coreOf (leaderOf g))
          let s1 := s2.modCore (s0.coreOf (leaderOf g)) fun c => { c with level := k.level, levelWas := k.levelWas }
          (keep s1).stalled w
        | .trap s1 t => State.finish w g o a (.trap (s0.keepErrors s1) t)
        | r => State.finish w g o a (r.map fun t => t.noteMiss s.mem w)

/-- Issues a program instruction of the current warp: the checks of R346 in order, the rendezvous of set and block
scope, and the effect on the group. -/
def State.issueWith (s : State) (o : Op) (a : Args) (poison : State → Grp → Option Trap) (eff : State → Grp → Res) :
    State :=
  let w := s.cur
  match s.precheck o a w with
  | .trap t =>
    (s.trap w t).takeLate o a w
  | .stall => s.stalled w
  | .ok =>
    if a.scope == .set || a.scope == .block then
      match s.arrive w (Instr.ofOp o a) a.scope with
      | (s1, none) => s1.account w a (!s1.atWhole w)
      | (s1, some g) =>
        match g.ws.filter fun m => lateDue o a (s1.warp m) with
        | [] => s1.issueGrp o a w g poison eff
        | late => (s1.lateLeave o a w g late).endRun w
    else s.issueGrp o a w [(w, (s.warp w).exec)] poison eff

/-- A value for which a read of OVF_FLAGS waits: an earlier flag-setting operation of the warp is in flight (R97). -/
def State.flagsWait (s : State) (w : Nat) : Bool :=
  let c := s.core (s.coreOf w)
  let arr := c.arr.any fun o => o.members.contains w && (match o.cmd with
    | .mma .. | .smma .. | .tst .. | .tld .. => true
    | _ => false)
  let pipes := c.pipes.any fun e => e.2.ops.any (fun o => o.w == w) || e.2.wait.any fun o => o.2.w == w
  let atoms := s.pend.any fun e => match e.2 with
    | .result v _ _ _ => v == w
    | _ => false
  arr || pipes || atoms

/-- The lanes whose values an instruction uses, for the poison check: those it acts on. -/
def State.plainPoison (s : State) (o : Op) (a : Args) (g : Grp) : Option Trap :=
  match (s.srcTraps g (s.actedOf a) (namedOpnds (rowOf o a.func.toNat) a)).or (s.windowTrap g o a) with
  | some t => some t
  | none => if a.p = 0 ∨ o = .brcFlag ∨ o = .brcReg then none else s.predTrap g a.p.toNat

/-- Issues an instruction whose sources are its operands, over the lanes acted on. -/
def State.issue (s : State) (o : Op) (a : Args) (eff : State → Grp → Res) :
    Host.Outcome State Fault Refusal :=
  .next (s.issueWith o a (fun s g => s.plainPoison o a g) eff)

end Sys2Proof.Machine
end

