-- ==== Sys2Proof/Machine/MemOps.lean ====
section
/-! DEFINITION. Loads, stores, prefetches and the spill stack (spec/07 R166 to R174, R183, R184), and `ATOM` and `RED`
(spec/08 R197 to R200). -/

namespace Sys2Proof.Machine

/-! ## Lanes -/

/-- How a lane accesses; `frames` says that it may be an access to a diagnostic frame, an `LD` or `ST` (R372). -/
def accHow (a : Args) (frames write : Bool) (n l : Nat) (p : Word) : How :=
  { write, lane := if a.scope = .lane then some l else none,
    frame := frames && n == 8 && p &&& 7 == 0 && policyOf p a.cp == .bypass }

/-- The places of every lane's bytes, all checked before any takes effect: the lowest failing lane decides (R171)
(DEDUCED, notes/assumptions/41). -/
def State.accPlaces (s : State) (w : Nat) (a : Args) (frames write : Bool) (n : Nat) (addr : Nat → Word) :
    List Nat → State × Except Trap (List (Nat × List Place))
  | [] => (s, .ok [])
  | l :: ls =>
    match s.places w (accHow a frames write n l (addr l)) (addr l) n with
    | (s1, .error e) => (s1, .error e.trap)
    | (s1, .ok ps) =>
      match s1.accPlaces w a frames write n addr ls with
      | (s2, .error t) => (s2, .error t)
      | (s2, .ok rest) => (s2, .ok ((l, ps) :: rest))

/-- Records an access with the address of its lowest lane (R362). -/
def State.traceLane (s : State) (w kind : Nat) (g : Grp) (a : Args) : State :=
  match s.accLanes g a with
  | [] => s
  | l :: _ => s.trace w kind (s.accAddr g a l)

/-- The register that a byte of a window belongs to (R59). -/
def winReg (off : Nat) : Option BusyReg :=
  if off < 0x10000 then some (.v (off / 256)) else if off < 0x10200 then some (.s ((off - 0x10000) / 8)) else none

/-- Whether a REG place names a register that still awaits a result (R60). -/
def State.placeBusy (s : State) (p : Place) : Bool :=
  match p with
  | .reg w off =>
    match winReg off with
    | some (.s n) => (s.warp w).sBusy n
    | some r => (s.warp w).busy.contains r
    | none => false
  | _ => false

/-- The poison mark of the register that a REG place names. -/
def State.placeMark (s : State) (p : Place) : Option Mark :=
  match p with
  | .reg w off =>
    if off < 0x10000 then (s.warp w).vmark (off / 256) (off % 256 / 8)
    else if off < 0x10200 then (s.warp w).smark ((off - 0x10000) / 8)
    else mget none (s.warp w).pMark ((off - 0x10200) / 4)
  | _ => none

/-! ## Values of a load -/

/-- What n loaded bytes give as a new register value (R171). -/
def loadValue (a : Args) (old x : Word) : Word :=
  match subElem a.sub with
  | some (w, i) => setElem old w i (x.toNat % 2 ^ w)
  | none => if a.ty = .i32 then (x.setWidth 32).signExtend 64 else if a.ty = .n32 then (x.setWidth 32).setWidth 64 else x

/-- A register of a warp, by lane. -/
def State.regGet (s : State) (w : Nat) (r : BusyReg) (lane : Nat) : Word :=
  match r with
  | .v n => (s.warp w).vget n lane
  | .s n => (s.warp w).sget n
  | .q n => (s.blkOf w).qget n

/-- Writes a register lane that a result was awaited for: whole, or a sub-element that leaves the mark; and marks it. -/
def State.regPut (s : State) (w : Nat) (r : BusyReg) (lane : Nat) (x : Word) (whole : Bool) (m : Option Mark) : State :=
  match r with
  | .v n => s.modWarp w fun y =>
      let z := if whole then y.vset n lane x else y.vsetPart n lane x
      match m with
      | none => z
      | some k => z.markV n lane k
  | .s n => s.modWarp w fun y =>
      let z := if whole then y.sset n x else { y with s := mset 0 y.s n x }
      match m with
      | none => z
      | some k => z.markS n k
  | .q n => s.modBlk (s.warp w).blk fun b =>
      let z := if whole then b.qset n x else { b with q := mset 0 b.q n x }
      match m with
      | none => z
      | some k => { z with qMark := mset none z.qMark n (some k) }

/-- The register that a destination names, as the scoreboard holds it. -/
def dstReg (k : Kind) (n : Nat) : BusyReg := if k = .s then .s n else if k = .q then .q n else .v n

/-- Marks a destination as awaited. -/
def Warp.await (w : Warp) (r : BusyReg) : Warp := { w with busy := r :: w.busy }

/-- A destination is no longer awaited. -/
def Warp.arrived (w : Warp) (r : BusyReg) : Warp := { w with busy := w.busy.filter (· != r) }

/-- Places over the fabric, each as the fabric number of its target and the address there. -/
def farVas (ps : List Place) : List (Nat × Nat) :=
  ps.filterMap fun p => match p with
    | .remote d va => some (d, va)
    | .host a va => some (a, va)
    | _ => none

/-- The late fault with which a target answers access number `free` to a byte, as cause code and DETAIL (R159, R174): a free
choice; the walk level and the COW bit come with it. Poison answers only a read, and an overflow only a `CSIG`. -/
def farFault (free : Nat) (write : Bool) (v : Nat × Nat) : Option (Nat × Nat) :=
  let f := Config.farFault free v.1 v.2
  let d := 0x80 + (if write then 1 else 0)
  match f % 8 with
  | 1 => some (0x10, d + 16 * (f / 8 % 4))
  | 2 => some (0x11, d + 2 * (f / 8 % 2))
  | 3 => if write then none else some (0x14, 0xB0)
  | _ => none

/-- What another device or the host answers to a read of bytes at pointer `p` (R156, R174): free values, the same for every
lane of an access that names one place (R276). -/
def farLoad (free : Nat) (write : Bool) (p : Word) (ps : List Place) : Word × Option Mark :=
  match (farVas ps).findSome? (farFault free write) with
  | some f => (poisonPattern ps.length, some ⟨p, f.2, f.1⟩)
  | none => (ofBytes ((farVas ps).map fun v => Config.farByte free v.1 v.2), none)

/-- The flags that an `ATOM` or a `CPYR` combination of bytes on another device raises (R177, R198): a free value among those
that its operation can set (R92, R132). -/
def farFlags (free : Nat) (a : Args) (ps : List Place) : Nat :=
  let may := if a.func = 0x08 then 0x3D else if a.func = 0x09 ∨ a.func = 0x0A then 0x01 else 0
  (farVas ps).foldl (fun fl v => fl ||| (Config.farFlags free v.1 v.2 &&& may)) 0

/-- The late fault that another device or the host reports for a write (R174). -/
def farStore (free : Nat) (p : Word) (ps : List Place) : Option (Nat × Nat × Word) :=
  ((farVas ps).findSome? (farFault free true)).map fun f => (f.1, f.2, p)

/-- The places of an access that loops back over RMT to this device (R156): the first fault is reported late. -/
def State.loopPlaces (s : State) (c : Nat) (write : Bool) (p : Word) : List Nat → State × Except XFault (List Nat)
  | [] => (s, .ok [])
  | va :: vas =>
    match s.remoteByte s.island.fw.deviceNum c { write } p va with
    | (s1, .error e) => (s1, .error { e with detail := e.detail ||| 0x80 })
    | (s1, .ok (.mem l)) =>
      match s1.loopPlaces c write p vas with
      | (s2, .error e) => (s2, .error e)
      | (s2, .ok ls) => (s2, .ok (l :: ls))
    | (s1, .ok _) => (s1, .error ⟨0x11, 0x80, p⟩)

/-- The remote addresses of places, if they lie on one device. -/
def remoteVas (ps : List Place) : Option (Nat × List Nat) :=
  match ps with
  | .remote d _ :: _ => some (d, ps.filterMap fun p => match p with
      | .remote _ va => some va
      | _ => none)
  | _ => none

/-- What a lane of an access reads: memory of the device, or a value found at issue. -/
inductive Side where
  | mem (ls : List Nat)
  | val (x : Word) (m : Option Mark)
  deriving DecidableEq, Repr

/-- What a lane of a load of n bytes reads, as access number `free`: a register window or a frame word is read at once, and
another device or the host answers (R60, R156, R372). Of what R60 allows for another warp's window, the value at issue is
taken (DESIGN CHOICE, notes/assumptions/44). -/
def State.sideRead (s : State) (free w : Nat) (p : Word) (n : Nat) (ps : List Place) : State × Side :=
  match ps with
  | .reg v off :: _ =>
    let t := s.checkWindow v off n
    match ps.findSome? t.placeMark with
    | some m => (t, .val (poisonPattern n) (some m))
    | none => (t, .val (ofBytes ((List.range n).map fun i => (t.warp v).winByte (off + i))) none)
  | .frame st off :: _ => (s, .val (s.frameRead st off) none)
  | .host _ _ :: _ => (s, .val (farLoad free false p ps).1 (farLoad free false p ps).2)
  | .remote d _ :: _ =>
    if d = s.island.fw.deviceNum then
      match s.loopPlaces (s.warp w).ctx false p ((remoteVas ps).getD (0, [])).2 with
      | (s1, .error e) => (s1, .val (poisonPattern n) (some ⟨p, e.detail, e.code⟩))
      | (s1, .ok ls) => (s1, .mem ls)
    else (s, .val (farLoad free false p ps).1 (farLoad free false p ps).2)
  | _ => (s, .mem (memLocs ps))

/-! ## LD (R171) -/

/-- Keeps the low n bytes of a value. -/
def lowBytes (n : Nat) (x : Word) : Word := BitVec.ofNat 64 (x.toNat % 2 ^ (8 * n))

/-- The lanes of a load: accesses to memory, and the values of the others. -/
def State.loadLanes (s : State) (free w : Nat) (a : Args) (n : Nat) (addr : Nat → Word) :
    List (Nat × List Place) → State × List LaneAcc × List RegVal
  | [] => (s, [], [])
  | (l, ps) :: rest =>
    let r := dstReg a.kd a.d.toNat
    let lane := l % 32
    match s.sideRead free w (addr l) n ps with
    | (s1, .mem ls) =>
      let (s2, as, vs) := s1.loadLanes free w a n addr rest
      (s2, { lane := l, addr := addr l, locs := ls } :: as, vs)
    | (s1, .val x m) =>
      let v := loadValue a (s.regGet w r lane) (lowBytes n x)
      let (s2, as, vs) := s1.loadLanes free w a n addr rest
      (s2, as, { reg := r, lane, val := v, mark := m } :: vs)

/-- The floors of an `LD.post`: past L1 and L2, it meets what memory holds in the rows of passes (R265). -/
def State.postFl (s : State) (ls : List Nat) : SMap Nat :=
  raiseTo [] ((ls.filter s.postRow).map fun l => (l, mget 0 s.mem.bank l))

/-- Effect of `LD` (R171): every address is checked, the destination is awaited, and the data returns later. -/
def effLd (a : Args) (s : State) (g : Grp) : Res :=
  let w := leaderOf g
  let n := accSize a
  if 255 ≤ (s.warp w).ldCnt then .stall s
  else
    match s.accPlaces w a true false n (s.accAddr g a) (s.accLanes g a) with
    | (s1, .error t) => .trap s1 t
    | (s1, .ok ps) =>
      if ps.any fun e => e.2.any s1.placeBusy then .stall s
      else
        let (free, s2) := s1.freshFree
        let (s3, accs, vals) := s2.loadLanes free w a n (s.accAddr g a) ps
        let (id, s4) := s3.fresh
        let ls := accs.flatMap (·.locs)
        let post := if a.func = 1 then s4.kerfPairs w id ls else []
        let fl := if a.func = 1 then s4.postFl ls else []
        let s5 := (s4.traceLane w 7 g a).noteFar w n id (s.farOf (s.accAddr g a) ps)
        .next ({ s5 with pend := mins s5.pend id (.load w a accs vals [] [] post fl) }.modWarp w fun x =>
          { x.await (dstReg a.kd a.d.toNat) with ldCnt := x.ldCnt + 1 })

/-- `LD` (R171). -/
def execLd (a : Args) (s : State) : Host.Outcome State Fault Refusal := s.issue .ld a (effLd a)

/-- Writes the data of a bound load (R171). -/
def State.landLoad (s : State) (w : Nat) (a : Args) (accs : List LaneAcc) (vals : List RegVal) (r : Rd) : State :=
  let n := accSize a
  let d := dstReg a.kd a.d.toNat
  let whole := (subElem a.sub).isNone
  let s1 := accs.foldl (fun s x =>
    let lane := x.lane % 32
    match r.poison x.locs with
    | some c => s.regPut w d lane (loadValue a (s.regGet w d lane) (poisonPattern n |> lowBytes n)) whole
        (some ⟨x.addr, 0x80 + 16 * c, 0x14⟩)
    | none => s.regPut w d lane (loadValue a (s.regGet w d lane) (r.value x.locs)) whole none) s
  vals.foldl (fun s v => s.regPut w v.reg v.lane v.val whole v.mark) s1

/-- The subarray of a row of device memory, with its bank. -/
def State.subOf (s : State) (l : Nat) : Nat × Nat :=
  let p := physOf s.island.fw l
  (p.bankKey, p.row / 512)

/-- Whether a request to a location waits for a haste pass: a subarray of its bank, its own or a neighbour, is being swept
(R262). -/
def State.sweeping (s : State) (l : Nat) : Bool :=
  let (bank, k) := s.subOf l
  s.regions.any fun g => g.passes.any fun p =>
    p.haste && p.accepted.isSome &&
      (g.rows.any fun r =>
        let (b, j) := s.subOf r
        b == bank && j ≤ k + 1 && k ≤ j + 1 && p.swept.contains r &&
          g.rows.any fun q => s.subOf q == (b, j) && !p.swept.contains q)

/-- Whether a write that warps hold back concerns one of some locations. -/
def State.ownHeld (s : State) (ws ls : List Nat) : Bool :=
  s.held.any fun h => h.wr.ws.any ws.contains && h.bytes.any fun b => ls.contains b.1

/-- Whether the data of a load may return: no pass holds it, nothing that its warp issued before it and that it must follow
is still to come, and where L1 cannot serve it no sweep keeps its subarray (R262, R265, R281). -/
def State.loadReady (s : State) (id w : Nat) (a : Args) (accs : List LaneAcc) (bound : List (Nat × Nat × Byte))
    (post : List (Nat × Nat)) : Bool :=
  let ls := loadUnread accs bound
  post.isEmpty && !s.blocked w id ls &&
  !(s.held.any fun h => h.wr.ws.contains w && h.id < id && h.bytes.any fun b => ls.contains b.1) &&
  (s.regions.isEmpty || !accs.any fun x => x.locs.any fun l =>
    ls.contains l && isDram l && (s.pastL1 a x l || !s.inL1 (s.coreOf w) l) && s.sweeping l)

/-- `LOAD_DATA_RETURN` (R171): the data of a load, or the result of an access already made, is written. -/
def execLoadDataReturn (id : Nat) (s : State) : Host.Outcome State Fault Refusal :=
  let s : State := match mfind s.pend id with
    | some (.cread w _ l _) =>
      if s.blocked w id (span l 8) then s else (s.flushOwn w id (span l 8)).performCread id
    | _ => s
  match mfind s.pend id with
  | some (.load w a accs vals bound _ post _) =>
    if !s.loadReady id w a accs bound post || s.farHeld id then .next s
    else
      let s0 := (s.flushOwn w id (loadUnread accs bound)).bindLoad id
      let r : Rd := match mfind s0.pend id with
        | some (.load _ _ _ _ bound bad _ _) => ⟨bound, bad⟩
        | _ => ⟨[], []⟩
      let s1 := s0.landLoad w a accs vals r
      .next ({ s1 with pend := mdel s1.pend id, far := mdel s1.far id }.modWarp w fun x =>
        { x.arrived (dstReg a.kd a.d.toNat) with ldCnt := x.ldCnt - 1 })
  | some (.result w vals flags cls) =>
    if s.farHeld id then .next s
    else
    let s1 := vals.foldl (fun s v => s.regPut w v.reg v.lane v.val true v.mark) s
    .next ({ s1 with pend := mdel s1.pend id, far := mdel s1.far id }.modWarp w fun x =>
      let y := (vals.foldl (fun (y : Warp) (v : RegVal) => y.arrived v.reg) x).setFlags flags
      { y with ldCnt := if cls then y.ldCnt - 1 else y.ldCnt })
  | _ => .next s

/-! ## ST (R172) -/

/-- The data of a lane: the part of B that SUB selects. -/
def State.storeData (s : State) (g : Grp) (a : Args) (l : Nat) : Word :=
  selSub a.sub (s.val (leaderOf g) (leaderOf g) l (srcB a 0))

/-- The units of a store to plain memory: each lane's bytes, but for those that a higher lane writes too (R172). -/
def memUnits (n : Nat) (addr data : Nat → Word) : List (Nat × List Place) → List (Word × List (Nat × Byte))
  | [] => []
  | (l, ps) :: rest =>
    let us := memUnits n addr data rest
    let taken := us.flatMap fun u => u.2.map (·.1)
    let bs := (if (memLocs ps).length = n then (memLocs ps).zip (bytesOf n (data l)) else []).filter fun b =>
      !taken.contains b.1
    if bs.isEmpty then us else (addr l, bs) :: us

/-- Units joined to whole lines, each of which is one indivisible event (R169). -/
def lineUnits (us : List (Word × List (Nat × Byte))) : List (Word × List (Nat × Byte)) :=
  (groupBy (fun b => b.1 / 128) (us.flatMap (·.2))).map fun g =>
    (((us.find? fun u => u.2.any fun b => b.1 / 128 == g.1).map (·.1)).getD 0, g.2)

/-- Names locations whose writes the release of a bypass store covers (R166). -/
def State.relFor (s : State) (id : Nat) (ls : List Nat) : State :=
  { s with pend := mmod s.pend id fun q => match q with
      | .store w far f (some v) => .store w far f (some (v ++ ls.map (·, 0)))
      | q => q }

/-- Stores a lane that writes no plain memory, as access number `free`: a register window, a frame word, another device or
the host; the late fault it will report. Of what R60 allows for another warp's window, the effect at issue is taken
(DESIGN CHOICE, notes/assumptions/44). -/
def State.sideWrite (s : State) (free id w : Nat) (p : Word) (n : Nat) (x : Word) (ps : List Place) :
    State × Option (Nat × Nat × Word) :=
  match ps with
  | .reg v off :: _ =>
    (s.modWarp v fun y => y.winPut off (bytesOf n x), none)
  | .frame st off :: _ => (s.frameStore st off x, none)
  | .host _ _ :: _ => (s, farStore free p ps)
  | .remote d _ :: _ =>
    if d = s.island.fw.deviceNum then
      match s.loopPlaces (s.warp w).ctx true p ((remoteVas ps).getD (0, [])).2 with
      | (s1, .error e) => (s1, some (e.code, e.detail, p))
      | (s1, .ok ls) =>
        ((s1.relFor id ls).storeUnits id { s1.writer [w] with rmt := true } 0 8 [(p, ls.zip (bytesOf n x))], none)
    else (s, farStore free p ps)
  | _ => (s, none)

/-- Performs the lanes of a store that write no plain memory, in order; the first late fault. -/
def State.storeLanes (s : State) (free id w n : Nat) (addr data : Nat → Word) :
    List (Nat × List Place) → State × Option (Nat × Nat × Word)
  | [] => (s, none)
  | (l, ps) :: rest =>
    let (s1, f) := s.sideWrite free id w (addr l) n (data l) ps
    let (s2, f2) := s1.storeLanes free id w n addr data rest
    (s2, f.orElse fun _ => f2)

/-- Sets the late fault that a store will report. -/
def Pend.withFault (f : Option (Nat × Nat × Word)) : Pend → Pend
  | .store w far _ rel => .store w far f rel
  | q => q

/-- Effect of `ST` (R172): a store to what a near-bank operation of its warp has yet to read or write waits for it
(R281, R289). -/
def effSt (a : Args) (s : State) (g : Grp) : Res :=
  let w := leaderOf g
  let n := accSize a
  let addr := s.accAddr g a
  if 255 ≤ (s.warp w).stCnt then .stall s
  else
    match s.accPlaces w a true true n addr (s.accLanes g a) with
    | (s1, .error t) => .trap s1 t
    | (s1, .ok ps) =>
      let raw := ps.flatMap fun e => memLocs e.2
      if (ps.any fun e => e.2.any s1.placeBusy) || s1.nbBefore w s1.nextId raw then .stall s
      else
        let (free, s2) := s1.freshFree
        let (id, s3) := s2.fresh
        let locsOf (pol : Policy) : List Nat := ps.flatMap fun e => if policyOf (addr e.1) a.cp == pol then memLocs e.2 else []
        let far := (s.accLanes g a).any fun l => spaceOf (addr l) == 7 || spaceOf (addr l) == 8
        let rel := if (s.accLanes g a).any fun l => policyOf (addr l) a.cp == .bypass then
            some ((locsOf .bypass).map (·, 0)) else none
        let s4 := { s3 with pend := mins s3.pend id (.store w far none rel) }
        let us := memUnits n addr (s.storeData g a) ps
        let s5 := if us.isEmpty then s4
          else s4.storeUnits id (s4.writer [w]) 0 (pieceSize raw) (if wholeLine raw then lineUnits us else us)
        let s6 := s5.cacheL1 (s5.coreOf w) (locsOf .keep) true
        let (s7, late) := s6.storeLanes free id w n addr (s.storeData g a) ps
        let s8 := (s7.traceLane w 7 g a).noteFar w n id (s.farOf addr ps)
        .next ({ s8 with pend := mmod s8.pend id (Pend.withFault late) }.modWarp w fun x => { x with stCnt := x.stCnt + 1 })

/-- `ST` (R172). -/
def execSt (a : Args) (s : State) : Host.Outcome State Fault Refusal := s.issue .st a (effSt a)

/-- `STORE_ACKNOWLEDGEMENT` (R184, R174): the count ends, a bypass store's release is made, for that store alone (R166), and
a late fault is recorded. A store with bytes still held is not acknowledged. -/
def execStoreAcknowledgement (id : Nat) (s : State) : Host.Outcome State Fault Refusal :=
  match mfind s.pend id with
  | some (.store w _ fault rel) =>
    if s.held.any (fun h => h.id == id) || s.farHeld id then .next s
    else
      let (s1, rels) : State × List Nat := match rel with
        | some v =>
          let (s', r) := s.deviceRelease (s.coreOf w) .sys (raiseTo [] v)
          (s', [r])
        | none => (s, [])
      .next ({ s1 with pend := mdel s1.pend id, far := mdel s1.far id }.modWarp w fun x =>
        let y := { x with stCnt := x.stCnt - 1, rels := x.rels ++ rels }
        match fault with
        | some f => y.record ⟨f.1, f.2.1, f.2.2, .store⟩
        | none => y)
  | _ => .next s

/-! ## PREF (R173) -/

/-- The place that a lane of a prefetch asks for: an address that fails any check, or lies in another space than the three
of device memory, is dropped. -/
def State.prefLoc (s : State) (w : Nat) (p : Word) : Option Nat :=
  if 2 < spaceOf p then none
  else
    match (s.place w {} p).2 with
    | .ok (.mem l) => some l
    | _ => none

/-- Effect of `PREF` (R173): no register is written and no architectural state changes; `.l1` leaves lines in L1. -/
def effPref (a : Args) (s : State) (g : Grp) : Res :=
  let w := leaderOf g
  if a.func = 0 then .next (s.cacheL1 (s.coreOf w) ((s.accLanes g a).filterMap fun l => s.prefLoc w (s.accAddr g a l)) false)
  else .next s

/-- `PREF` (R173). -/
def execPref (a : Args) (s : State) : Host.Outcome State Fault Refusal := s.issue .pref a (effPref a)

/-! ## PUSHM and POPM (R183) -/

/-- The registers of a range: kind 00 for v, kind 01 for s. -/
def rangeRegs (a : Args) : List Nat := span a.d.toNat a.imm.toNat

/-- Whether the range is out of bounds (R183). -/
def rangeBad (a : Args) (w : Warp) : Bool :=
  let top := if a.kd = .v then w.nregs else 64
  a.imm.toNat == 0 || top < a.d.toNat + a.imm.toNat

/-- Bytes moved. -/
def rangeSize (a : Args) : Nat := if a.kd = .v then 256 * a.imm.toNat else (8 * a.imm.toNat + 31) / 32 * 32

/-- Whether a register of the range awaits a result. -/
def rangeBusy (a : Args) (w : Warp) : Bool :=
  (rangeRegs a).any fun r => if a.kd = .v then w.busy.contains (.v r) else w.sBusy r

/-- The image of the range: whole registers, lowest first. -/
def Warp.rangeImage (w : Warp) (a : Args) : List Byte :=
  let img := (rangeRegs a).flatMap fun r =>
    if a.kd = .v then (List.range 32).flatMap fun l => bytesOf 8 (w.vget r l) else bytesOf 8 (w.sget r)
  img ++ List.replicate (rangeSize a - img.length) 0

/-- The checks of a range before its registers are read: bounds, then marks of its registers. -/
def State.rangeTrap (s : State) (a : Args) (g : Grp) (read : Bool) : Option Trap :=
  let w := s.warp (leaderOf g)
  if rangeBad a w then some (illegal 0x03)
  else if read && !rangeBusy a w then
    (rangeRegs a).findSome? fun r => s.srcTrap g (fun _ => List.range 32) a.kd r
  else none

/-- Effect of `PUSHM` (R183). -/
def effPushm (a : Args) (s : State) (g : Grp) : Res :=
  let w := leaderOf g
  let x := s.warp w
  if rangeBusy a x || 255 ≤ x.stCnt then .stall s
  else
    let p := x.ssp - BitVec.ofNat 64 (rangeSize a)
    match s.locSpan w true p (rangeSize a) with
    | (s1, .error t) => .trap s1 t
    | (s1, .ok ls) =>
      if s1.nbBefore w s1.nextId ls then .stall s
      else
        let (id, s2) := s1.fresh
        let s3 := s2.storeAs id (s2.writer [w]) 0 p (ls.zip (x.rangeImage a))
        let s4 := s3.cacheL1 (s3.coreOf w) ls true
        .next ({ s4 with pend := mins s4.pend id (.store w false none none) }.modWarp w fun y =>
          { y with ssp := p, stCnt := y.stCnt + 1 })

/-- `PUSHM` (R183). -/
def execPushm (a : Args) (s : State) : Host.Outcome State Fault Refusal :=
  .next (s.issueWith .pushm a (fun s g => s.rangeTrap a g true) (effPushm a))

/-- The register lanes that an image read back gives, with marks where it is poisoned. -/
def popVals (a : Args) (p : Word) (ls : List Nat) (r : Rd) : List RegVal :=
  let one (reg : BusyReg) (lane i : Nat) : RegVal :=
    let bs := (ls.drop (8 * i)).take 8
    match r.poison bs with
    | some c => { reg, lane, val := poisonPattern 8, mark := some ⟨p + BitVec.ofNat 64 (8 * i), 0x80 + 16 * c, 0x14⟩ }
    | none => { reg, lane, val := r.value bs, mark := none }
  (rangeRegs a).zipIdx.flatMap fun e =>
    if a.kd = .v then (List.range 32).map fun l => one (.v e.1) l (32 * e.2 + l) else [one (.s e.1) 0 e.2]

/-- Effect of `POPM` (R183). -/
def effPopm (a : Args) (s : State) (g : Grp) : Res :=
  let w := leaderOf g
  let x := s.warp w
  if rangeBusy a x || 255 ≤ x.ldCnt then .stall s
  else
    match s.locSpan w false x.ssp (rangeSize a) with
    | (s1, .error t) => .trap s1 t
    | (s1, .ok ls) =>
      if s1.ownHeld [w] ls || s1.blocked w s1.nextId ls then .stall s
      else
        let (s2, r) := s1.readNow w 0 ls
        let (id, s3) := s2.fresh
        let vals := popVals a x.ssp ls r
        .next ({ s3 with pend := mins s3.pend id (.result w vals 0 true) }.modWarp w fun y =>
          { (rangeRegs a).foldl (fun (y : Warp) r => y.await (dstReg a.kd r)) y with
            ssp := x.ssp + BitVec.ofNat 64 (rangeSize a), ldCnt := y.ldCnt + 1 })

/-- `POPM` (R183). -/
def execPopm (a : Args) (s : State) : Host.Outcome State Fault Refusal :=
  .next (s.issueWith .popm a (fun s g => s.rangeTrap a g false) (effPopm a))

/-! ## ATOM and RED (R197 to R200) -/

/-- Checks of an atomic's lanes: the allowed spaces, alignment, then the access as a write (R197). -/
def atomTrap (n : Nat) (p : Word) : Option Trap :=
  if spaceOf p = 6 ∨ 8 ≤ spaceOf p then some ⟨0x13, 1, p⟩
  else if p.toNat % n ≠ 0 then some ⟨0x12, 1, p⟩ else none

/-- The new value of an element and the flags (R198). -/
def atomNew (a : Args) (fp : Word) (n : Nat) (old b c : Word) : Word × Nat :=
  match a.func.toNat with
  | 0x10 => (b, 0)
  | 0x11 => (if lowBytes n old = lowBytes n c then b else old, 0)
  | f => redValue f a.ty fp a.rnd a.sat n old b

/-- The old value as D receives it (R198). -/
def atomOld (a : Args) (n : Nat) (x : Word) : Word :=
  if a.ty = .i32 then (x.setWidth 32).signExtend 64 else lowBytes n x

/-- One element at home, indivisibly: the old value or its poison, and the flags. The core's L1 drops its copy first; a `CAS`
that finds another value writes nothing. -/
def State.atomElem (s : State) (w : Nat) (a : Args) (n : Nat) (b c : Word) (p : Word) (rmt : Bool) (ls : List Nat) :
    State × Word × Option Mark × Nat :=
  let s0 := ((s.flushOwn w s.nextId ls).dropL1 (s.coreOf w) (dramLines ls).contains).carry w true ls
  let (s1, r) := s0.peekHome 0 ls
  let s2 := s1.hasRead [w] r
  match r.poison ls with
  | some k => (s2, lowBytes n (poisonPattern n), some ⟨p, 0x80 + 16 * k, 0x14⟩, 0)
  | none =>
    let old := r.value ls
    let (new, fl) := atomNew a (s.warp w).fpmode n old b c
    if a.func == 0x11 && lowBytes n old != lowBytes n c then (s2, atomOld a n old, none, fl)
    else (s2.performPiece { s2.writer [w] with rmt } true 0 (ls.zip (bytesOf n new)), atomOld a n old, none, fl)

/-- Where a lane of an atomic acts: at a home of this device (over RMT or not), nowhere because of a fault that is reported
late, or on another device. -/
inductive AtomAt where
  | here (ls : List Nat) (rmt : Bool)
  | late (e : XFault)
  | far (ps : List Place)
  deriving DecidableEq, Repr

/-- Where the lanes of an atomic act (R156, R197). -/
def State.atomAts (s : State) (w : Nat) (addr : Nat → Word) : List (Nat × List Place) → State × List (Nat × AtomAt)
  | [] => (s, [])
  | (l, ps) :: rest =>
    let (s1, x) : State × AtomAt :=
      match ps with
      | .remote d _ :: _ =>
        if d = s.island.fw.deviceNum then
          match s.loopPlaces (s.warp w).ctx true (addr l) ((remoteVas ps).getD (0, [])).2 with
          | (s', .error e) => (s', .late e)
          | (s', .ok ls) => (s', .here ls true)
        else (s, .far ps)
      | _ => (s, .here (memLocs ps) false)
    let (s2, xs) := s1.atomAts w addr rest
    (s2, (l, x) :: xs)

/-- The locations of the lanes that act on this device. -/
def atomLocs (xs : List (Nat × AtomAt)) : List Nat :=
  xs.flatMap fun x => match x.2 with
    | .here ls _ => ls
    | _ => []

/-- Whether the kerf, or a held write, keeps an access to locations that acts at their homes, or it must follow what its
warp has in flight (R265, R281). -/
def State.atomHeld (s : State) (w : Nat) (ls : List Nat) : Bool :=
  !(s.kerfPairs w s.nextId ls).isEmpty || s.blocked w s.nextId ls || s.held.any fun h => h.bytes.any fun b => ls.contains b.1

/-- The lanes of an atomic in ascending order (R198), as access number `free`. -/
def State.atomLanes (s : State) (free w : Nat) (a : Args) (n : Nat) (addr b c : Nat → Word) :
    List (Nat × AtomAt) → State × List RegVal × Nat
  | [] => (s, [], 0)
  | (l, x) :: rest =>
    let (s1, v, m, fl) : State × Word × Option Mark × Nat :=
      match x with
      | .here ls rmt => s.atomElem w a n (b l) (c l) (addr l) rmt ls
      | .late e => (s, lowBytes n (poisonPattern n), some ⟨addr l, e.detail, e.code⟩, 0)
      | .far ps =>
        let (y, k) := farLoad free true (addr l) ps
        (s, if k.isSome then lowBytes n (poisonPattern n) else atomOld a n y, k, if k.isSome then 0 else farFlags free a ps)
    let (s2, vs, fl2) := s1.atomLanes free w a n addr b c rest
    (s2, { reg := dstReg a.kd a.d.toNat, lane := l % 32, val := v, mark := m } :: vs, fl ||| fl2)

/-- The places of an atomic or a reduction: every check before any effect, and the lowest failing lane decides (R171,
R197). No such access may reach a diagnostic frame (R372). -/
def State.atomPlaces (s : State) (g : Grp) (a : Args) : State × Except Trap (List (Nat × List Place)) :=
  let n := atomSize a.ty
  let ls := s.accLanes g a
  let fit := ls.takeWhile fun l => (atomTrap n (s.accAddr g a l)).isNone
  match s.accPlaces (leaderOf g) a false true n (s.accAddr g a) fit with
  | (s1, .error t) => (s1, .error t)
  | (s1, .ok ps) =>
    match ls.findSome? fun l => atomTrap n (s.accAddr g a l) with
    | some t => (s1, .error t)
    | none => (s1, .ok ps)

/-- Effect of `ATOM` (R198). -/
def effAtom (a : Args) (s : State) (g : Grp) : Res :=
  let w := leaderOf g
  let n := atomSize a.ty
  match s.atomPlaces g a with
  | (s1, .error t) => .trap s1 t
  | (s1, .ok ps) =>
    let (s2, xs) := s1.atomAts w (s.accAddr g a) ps
    if 255 ≤ (s.warp w).ldCnt || s2.atomHeld w (atomLocs xs) then .stall s
    else
      let b (l : Nat) : Word := s.val w w l (srcB a 0)
      let c (l : Nat) : Word := s.val w w l (srcC a)
      let (free, s3) := s2.freshFree
      let (s4, vals, fl) := s3.atomLanes free w a n (s.accAddr g a) b c xs
      let (id, s5) := s4.fresh
      let s6 := (s5.traceLane w 5 g a).noteFar w n id (s.farOf (s.accAddr g a) ps)
      .next ({ s6 with pend := mins s6.pend id (.result w vals fl true) }.modWarp w fun x =>
        { (if vals.isEmpty then x else x.await (dstReg a.kd a.d.toNat)) with ldCnt := x.ldCnt + 1 })

/-- `ATOM` (R198). -/
def execAtom (a : Args) (s : State) : Host.Outcome State Fault Refusal := s.issue .atom a (effAtom a)

/-- Combines one element into a U line of the warp's core (R199): U copies of another FUNC or TYPE, in any core, go home first,
and the core's own copy may (an eviction; DESIGN CHOICE, notes/assumptions/18). The line keeps RND, SAT and FPMODE of its last
contributor, with which it is combined at home (R90, R94): whose they are where contributors differ the spec does not say
(DESIGN CHOICE, notes/assumptions/18). -/
def State.redLine (s : State) (w : Nat) (a : Args) (n : Nat) (x : Word) (l : Nat) : State :=
  let s := s.flushOwn w s.nextId (span l n)
  let k := s.coreOf w
  let line := l / 128
  let same (u : ULine) : Bool := u.line == line && u.func == a.func.toNat && u.ty == a.ty
  let home : Bool := Config.redPick s.free % 2 == 1
  let s0 := (s.flushWhere fun c u => u.line == line && !(same u && !(c == k && home)))
  let u0 : ULine := ((s0.core k).uLines.find? same).getD
    { line, func := a.func.toNat, ty := a.ty, rnd := a.rnd, sat := a.sat }
  let fp := (s0.warp w).fpmode
  let old := (mfind u0.vals l).getD (replicate a.ty.width (8 * n / a.ty.width) (redIdent a.func.toNat a.ty fp))
  let new := (redValue a.func.toNat a.ty fp a.rnd a.sat n old x).1
  let u := { u0 with
    vals := mins u0.vals l new, by_ := mins u0.by_ l (mget [] u0.by_ l ++ [w]).dedup, rnd := rndOf fp a.rnd, sat := a.sat, fp }
  s0.modCore k fun c => { c with uLines := c.uLines.filter (fun v => !same v) ++ [u] }

/-- A reduction executed at home as operation `id`: performed at once, or held as a store is (R199, R265, R383). -/
def State.redHome (s : State) (id w : Nat) (a : Args) (x addr : Word) (rmt : Bool) (ls : List Nat) : State :=
  let s0 := s.flushOwn w id ls
  let wr := { s0.writer [w] with rmt }
  let fp := (s0.warp w).fpmode
  match s0.unitHeld id wr ls with
  | none => s0.combineHome wr a fp x ls
  | some (ps, off) =>
    { s0 with held := s0.held ++
      [{ id, wr, bytes := ls.map (·, 0), addr, passes := ps, off, red := some (a, fp, x), by_ := (ps.map (·.1)).dedup }] }

/-- Whether a reduction at a pointer acts in L1: a keep access to DEV or LOC (R199). -/
def redInL1 (p : Word) (cp : BitVec 2) : Bool := policyOf p cp == .keep && (spaceOf p == 0 || spaceOf p == 5)

/-- The lanes of a reduction in ascending order, as operation `id` and access number `free`. -/
def State.redLanes (s : State) (free id w : Nat) (a : Args) (n : Nat) (addr b : Nat → Word) :
    List (Nat × AtomAt) → State × Option (Nat × Nat × Word)
  | [] => (s, none)
  | (l, x) :: rest =>
    let (s1, f) : State × Option (Nat × Nat × Word) :=
      match x with
      | .late e => (s, some (e.code, e.detail, addr l))
      | .far ps => (s, farStore free (addr l) ps)
      | .here ls rmt =>
        if ls.any s.lostLoc then (s, some (0x14, 0xA1, addr l))
        else if redInL1 (addr l) a.cp then (s.redLine w a n (b l) (ls.headD 0), none)
        else (s.redHome id w a (b l) (addr l) rmt ls, none)
    let (s2, f2) := s1.redLanes free id w a n addr b rest
    (s2, f.orElse fun _ => f2)

/-- Effect of `RED` (R199). -/
def effRed (a : Args) (s : State) (g : Grp) : Res :=
  let w := leaderOf g
  match s.atomPlaces g a with
  | (s1, .error t) => .trap s1 t
  | (s1, .ok ps) =>
    let (s2, xs) := s1.atomAts w (s.accAddr g a) ps
    if 255 ≤ (s.warp w).stCnt || s2.blocked w s2.nextId (atomLocs xs) then .stall s
    else
      let (free, s3) := s2.freshFree
      let (id, s4) := s3.fresh
      let (s5, late) := s4.redLanes free id w a (atomSize a.ty) (s.accAddr g a) (fun l => s.val w w l (srcB a 0)) xs
      let s6 := (s5.traceLane w 5 g a).noteFar w (atomSize a.ty) id (s.farOf (s.accAddr g a) ps)
      let far := (s.accLanes g a).any fun l => spaceOf (s.accAddr g a l) == 7
      .next ({ s6 with pend := mins s6.pend id (.store w far late none) }.modWarp w fun x =>
        { x with stCnt := x.stCnt + 1 })

/-- `RED` (R199). -/
def execRed (a : Args) (s : State) : Host.Outcome State Fault Refusal := s.issue .red a (effRed a)

end Sys2Proof.Machine
end

