-- ==== Sys2Proof/Machine/Array.lean ====
section
/-! DEFINITION. The matrix array (spec/09, spec/04 R88, R98 to R100): shape records and their checks, stored matrices in
scratch, the command path with its array order, the bands an operation uses, and the arithmetic of a product. -/

namespace Sys2Proof.Machine

/-! ## Shape records (R54) -/

/-- The fields of a shape record. -/
structure Shape where
  rows   : Nat
  cols   : Nat
  base   : Nat
  stride : Nat
  fmt    : Nat
  blk    : Nat
  blkc   : Nat
  dom    : Nat
  bsz    : Nat
  b      : Nat
  sexp   : Int
  deriving DecidableEq, Repr

/-- A record's fields. -/
def shapeOf (r : BitVec 128) : Shape where
  rows := (r.extractLsb' 0 10).toNat + 1
  cols := (r.extractLsb' 10 10).toNat + 1
  base := (r.extractLsb' 20 22).toNat
  stride := (r.extractLsb' 42 22).toNat
  fmt := (r.extractLsb' 64 4).toNat
  blk := 24 * 2 ^ (r.extractLsb' 68 2).toNat
  blkc := (r.extractLsb' 68 2).toNat
  dom := (r.extractLsb' 70 2).toNat
  bsz := (r.extractLsb' 72 2).toNat
  b := 16 * 2 ^ (r.extractLsb' 72 2).toNat
  sexp := (r.extractLsb' 74 6).toInt

/-- Bytes of an element of a format code; 0 where the code is no format of a record. -/
def fmtBytes (code : Nat) : Nat :=
  match code with
  | 0x6 => 4 | 0x8 => 2 | 0xA => 2 | 0xC => 1 | 0xD => 1 | _ => 0

/-- The format of a record, its binary8 slot resolved from FPMODE at issue (R90). -/
def recFmt (fp : Word) (code : Nat) : FFmt :=
  match code with
  | 0x8 => .f16 | 0xA => .bf16 | 0xC => .b8 (fpSlotA fp) | 0xD => .b8 (fpSlotB fp) | _ => .f32

/-- The record that d`n` names in a block, as an instruction of warp `w` that issues now reads it (R51, R213). -/
def State.record (s : State) (w n : Nat) : BitVec 128 :=
  let b := s.blkOf w
  let k := b.rmap.getD n n
  let c := s.core b.core
  seenAt (mfind c.recWas k) s.clock (mget 0 c.recs k)

/-- Writes d`n` of a block: instructions of the same clock still read what it held (R213, R246). -/
def State.setRecord (s : State) (w n : Nat) (r : BitVec 128) : State :=
  let b := s.blkOf w
  let k := b.rmap.getD n n
  s.modCore b.core fun c =>
    { c with
      recs := mset 0 c.recs k r
      recWas := mins c.recWas k (noteWas (mfind c.recWas k) s.clock (mget 0 c.recs k)) }

/-- The core's tile that t`n` of a block stands for. -/
def Block.tileNo (b : Block) (n : Nat) : Nat := b.tmap.getD n n

/-- Shape mismatch (Table 9.4). -/
def shapeBad (detail : Nat) : Trap := { code := 0x09, detail }

/-- Domain mismatch (Table 10.1). -/
def domBad (detail : Nat) : Trap := { code := 0x08, detail }

/-- The checks that every image of a record meets: R219's DETAIL 0x09, with those of R232 for DOM 0b01; `o` is the
offset that BASE holds. -/
def imageBad (r : BitVec 128) (o : Nat) : Bool :=
  let x := shapeOf r
  r.extractLsb' 80 48 != 0 || fmtBytes x.fmt == 0 || 2 ≤ x.dom || (x.dom == 0 && (x.bsz != 0 || x.sexp != 0)) ||
  (fmtBytes x.fmt != 1 && x.blkc != 0) || o % 8 != 0 || x.stride % 8 != 0 ||
  (x.dom == 1 && (fmtBytes x.fmt == 1 || x.cols % x.b != 0))

/-- The conditions of a stored matrix (R214): STRIDE, then the extent in the block's scratch; `lrows` are its logical
rows. -/
def storedBad (b : Block) (x : Shape) (lrows : Nat) : Option Trap :=
  let e := fmtBytes x.fmt
  let top := b.scrBase + 1024 * b.scrKb
  if x.stride < x.cols * e then some (shapeBad 0x06)
  else if x.base < b.scrBase ∨ top < x.base + (x.rows - 1) * x.stride + x.cols * e ∨
      (e = 1 ∧ top < x.base + x.rows * x.stride + 32 * lrows) then some (shapeBad 0x07)
  else none

/-! ## Scratch as the array reads it -/

/-- The pieces of at most 8 B, each in one aligned word, of n locations. -/
def wordsOf (l n : Nat) : List (List Nat) := (groupRuns (· / 8) (span l n)).map (·.2)

/-- Reads n bytes at a location for an engine, word by word (R215): each byte with whether its word is poisoned. -/
def State.engineRead (s : State) (fl : SMap Nat) (l n : Nat) : State × List (Byte × Bool) :=
  (wordsOf l n).foldl (fun acc ls =>
    let (s1, r) := acc.1.readHome 0 8 fl ls
    (s1, acc.2 ++ ls.map fun x => (r.byte x, !r.bad.isEmpty))) (s, [])

/-- The number in bytes with whether any of them is poisoned. -/
def bytesNum (bs : List (Byte × Bool)) : Nat × Bool := (natOfBytes (bs.map (·.1)), bs.any (·.2))

/-- The value of a stored element; a poisoned one is FP32 poison (R223, R371). -/
def storedVal (f : FFmt) (bs : List (Byte × Bool)) : FVal :=
  let (x, bad) := bytesNum bs
  if bad then .nan false 0x400D0D false true true else decodeF f x

/-- The floors at which an operation reads scratch: those of its warps at issue, and every write of earlier operations of
the core (R215). -/
def State.arrFloors (s : State) (core : Nat) (o : ArrOp) : SMap Nat := raiseTo o.floors (s.core core).arrFl

/-- Reads a stored matrix, row by row: the elements' values, and the scale byte of every block of a logical row. -/
def State.readStored (s : State) (fl : SMap Nat) (core : Nat) (x : Shape) (f : FFmt) (rows : List Nat) :
    State × List (List FVal) :=
  let e := fmtBytes x.fmt
  rows.foldl (fun acc y =>
    let (s1, bs) := acc.1.engineRead fl (ubsLoc core (x.base + y * x.stride)) (x.cols * e)
    (s1, acc.2 ++ [(List.range x.cols).map fun k => storedVal f ((bs.drop (k * e)).take e)])) (s, [])

/-- Reads the scale bytes of logical rows, `n` blocks each; a poisoned one reads as NaN. -/
def State.readScales (s : State) (fl : SMap Nat) (core : Nat) (x : Shape) (rows n : Nat) : State × List (List Nat) :=
  (List.range rows).foldl (fun acc i =>
    let (s1, bs) := acc.1.engineRead fl (ubsLoc core (x.base + x.rows * x.stride + 32 * i)) n
    (s1, acc.2 ++ [bs.map fun b => if b.2 then 0xFF else b.1.toNat])) (s, [])

/-! ## Arithmetic (R88, R99) -/

/-- A block scale (R88). -/
def scaleVal (k : Nat) : FVal :=
  if k = 0 then .fin false 0 0 else if k = 0xFF then .nan false 0 false false false else .fin false 1 ((k : Int) - 128)

/-- Exact product of factors; a NaN factor, or 0 × Inf, gives a NaN that keeps poison. -/
def product : List FVal → FVal
  | [] => .fin false 1 0
  | v :: vs =>
    let r := product vs
    if v.isNan then (if r.isPoison then r else v)
    else if r.isNan then r
    else (xmul v r).getD (.nan false 0 false false false)

/-- A term of a product: the element of operand A, that of the weights, the scale, and whether it is subtracted. -/
structure PTerm where
  x   : FVal
  y   : FVal
  sc  : FVal := .fin false 1 0
  neg : Bool := false
  deriving DecidableEq, Repr

/-- The exact value of a term. -/
def PTerm.value (t : PTerm) : FVal :=
  let v := product [t.x, t.y, t.sc]
  if t.neg then v.withNeg (!v.neg) else v

/-- Exact sum of terms: NaN where a term is NaN or where infinities of both signs meet. It is poison where an element is,
and else has the sign and payload of the first wide NaN among the elements of A, then among the weights, in order of K
(R95, R99). -/
def exactSum (ts : List PTerm) : FVal :=
  let bad : FVal := .nan false 0 false false false
  let v := ts.foldl (fun acc t =>
    let x := t.value
    if acc.isNan || x.isNan then bad else (xadd .rne acc x).getD bad) (.fin false 0 0)
  if v.isNan then
    let ops := ts.map (·.x) ++ ts.map (·.y)
    if ops.any FVal.isPoison then .nan false 0x400D0D false true true
    else (firstWideNan ops).elim v fun e => .nan e.1 e.2 false true false
  else v

/-- The promotion of a band's exact sum to FP32, with its flags (R99). -/
def promote (msat nanp : Bool) (v : FVal) : Nat × Nat :=
  match v with
  | .nan .. => ((nanResult .f32 nanp [v]), fNV ||| fMNAN)
  | .inf n => infInto .f32 msat n
  | .fin n m e =>
    if m = 0 then (0, 0)
    else
      let (c, fl) := roundFin .f32 .rne msat n m e
      (c, if fl &&& fOF ≠ 0 then fl ||| fMPO else fl)

/-- The accumulation of a band's sum, promoted to y, with its flags (R99): what A and the weights gave comes before C in the
order of R95, and a NaN sum without a wide NaN among them has no payload, so that C's stands. -/
def accumulate (msat nanp : Bool) (c : Nat) (sum : FVal) (y : Nat) : Nat × Nat :=
  let a := decodeF .f32 c
  let b := if sum.isNan then sum else decodeF .f32 y
  let (r, fl) := finishOp .f32 .rne msat nanp [b, a] (xadd .rne a b)
  (r, (if fl &&& fOF ≠ 0 then fl ||| fMAO else fl) ||| (if (decodeF .f32 r).isNan then fMNAN else 0))

/-- The runs of k of a list. -/
def runsOf {α : Type} (k : Nat) (xs : List α) : List (List α) :=
  (List.range ((xs.length + k - 1) / k)).map fun i => (xs.drop (i * k)).take k

/-- One accumulator element over the enabled bands, whose terms `terms` gives (R99). -/
def bandLoop (bands : Nat) (fp : Word) (terms : Nat → List PTerm) (c : Nat) : Nat × Nat :=
  (List.range 4).foldl (fun acc b =>
    if bands.testBit b then
      let sum := exactSum (terms b)
      let (y, f1) := promote (fpMsat fp) (fpNanp fp) sum
      let (r, f2) := accumulate (fpMsat fp) (fpNanp fp) acc.1 sum y
      (r, acc.2 ||| f1 ||| f2)
    else acc) (c, 0)

/-! ## Tiles -/

/-- The key of a tile element. -/
def tileKey (t i j : Nat) : Nat := 16384 * t + 256 * i + j

/-- A tile element's FP32 bits. -/
def Core.tileGet (c : Core) (t i j : Nat) : Nat := (mget 0 c.tiles (tileKey t i j)).toNat

/-- Merges two lists of entries by key; the first list's entry stays where both have one. -/
def mergeKeys {α : Type} : SMap α → SMap α → SMap α
  | [], ys => ys
  | x :: xs, ys =>
    let rec go : SMap α → SMap α
      | [] => x :: xs
      | y :: ys =>
        if x.1 < y.1 then x :: mergeKeys xs (y :: ys)
        else if x.1 = y.1 then x :: mergeKeys xs ys
        else y :: go ys
    go ys

/-- Writes tile elements, in rising order of key within each tile, in canonical form. -/
def Core.tilePut (c : Core) (es : List (Nat × Nat)) : Core :=
  let new : SMap (BitVec 32) := es.map fun e => (e.1, BitVec.ofNat 32 e.2)
  let all := (groupBy (fun e => e.1 / 16384) new).foldl (fun m g => mergeKeys g.2 m) c.tiles
  { c with
    tiles := all.filter fun e => e.2 != 0
    tileErr := if c.tileErr.isEmpty then c.tileErr else
      c.tileErr.filter fun e => !((mfind new (2 * e.1)).isSome && (mfind new (2 * e.1 + 1)).isSome) }

/-- Sets the tag of tiles (R233). -/
def Core.tagPut (c : Core) (ts : List Nat) (t : Tag) : Core :=
  { c with tags := ts.foldl (fun m k => mset .neutral m k t) c.tags }

/-- Both elements of a tile word become FP32 poison (R366). -/
def Core.poisonTile (c : Core) (k : Nat) : Core :=
  c.tilePut [(2 * k, 0x7FC00D0D), (2 * k + 1, 0x7FC00D0D)]

/-- The check of the tile words of a core that an operation reads (R366): a single wrong bit is corrected, and worse makes the
elements read as FP32 poison, without a record of the word. -/
def State.checkTiles (s : State) (core : Nat) (reads : Nat → Bool) : State :=
  let due := (s.core core).tileErr.filter fun e => reads (2 * e.1 / 16384)
  let s1 := s.modCore core fun c => { c with tileErr := c.tileErr.filter fun e => !reads (2 * e.1 / 16384) }
  due.foldl (fun s e => (if e.2.lost then s.modCore core (·.poisonTile e.1) else s).countCorr (ubsLoc core 0)) s1

/-! ## ASHAPE (R209) -/

/-- Bands of an ASHAPE. -/
def bandsOf (ashape : Word) : Nat := (ashape.extractLsb' 0 4).toNat

/-- Whether a band is enabled. -/
def bandOn (ashape : Word) (b : Nat) : Bool := (bandsOf ashape).testBit b

/-- QLO and QHI. -/
def quarters (ashape : Word) : Nat × Nat := ((ashape.extractLsb' 4 2).toNat, (ashape.extractLsb' 6 2).toNat)

/-- The columns that an ASHAPE selects, below n. -/
def columnsOf (ashape : Word) (n : Nat) : List Nat :=
  let (lo, hi) := quarters ashape
  (span (64 * lo) (64 * (hi - lo + 1))).filter (· < n)

/-! ## The command path (R215) -/

/-- What the array holds once an operation that succeeds has taken effect: the valid flag, the width of the weights in
bytes, the logical K and N. -/
def ArrOp.latches (o : ArrOp) (x : Bool × Nat × Nat × Nat) : Bool × Nat × Nat × Nat :=
  match o.cmd with
  | .wld _ r f _ => (true, f.width / 8, (shapeOf r).rows, (shapeOf r).cols)
  | .smma .. => (false, x.2)
  | _ => x

/-- The same of the latched state. -/
def Latch.brief (l : Latch) : Bool × Nat × Nat × Nat := (l.valid, l.fmt.width / 8, l.k, l.n)

/-- What the array will hold when the operations in the path have taken effect, each succeeding. -/
def Core.projLatch (c : Core) : Bool × Nat × Nat × Nat := c.arr.foldl (fun x o => o.latches x) c.latch.brief

/-- The tiles that an operation writes, with `n` columns of weights latched, and their tag; a product whose ASHAPE selects
no column writes none (R233, R242). -/
def ArrOp.tags (o : ArrOp) (n : Nat) : List Nat × Tag :=
  match o.cmd with
  | .mma t r _ _ xp =>
    let x := shapeOf r
    (if (columnsOf o.ashape n).isEmpty then [] else span t ((if xp then x.cols else x.rows) / 64), .spatial)
  | .smma t r q _ _ =>
    (if (columnsOf o.ashape ((shapeOf q).cols * (shapeOf q).b)).isEmpty then [] else span t ((shapeOf r).rows / 64),
     .spectral (shapeOf r).b)
  | .tld t r _ =>
    let x := shapeOf r
    (span t ((x.rows + 63) / 64), if x.dom = 1 then .spectral x.b else .spatial)
  | .tzero t n => (span t n, .neutral)
  | _ => ([], .neutral)

/-- The tag that a tile will carry when the operations in the path have taken effect. Tile numbers in an operation are
the block's; `b` maps them. -/
def State.projTag (s : State) (b : Block) (n : Nat) : Tag :=
  let c := s.core b.core
  let t := b.tileNo n
  (c.arr.foldl (fun acc o =>
    let (ts, tag) := o.tags acc.1.2.2.2
    (o.latches acc.1, if (ts.map (s.blk o.blk).tileNo).contains t then tag else acc.2))
    (c.latch.brief, mget .neutral c.tags t)).2

/-! ## Bands (R307 to R310) -/

/-- The load of an operation in LU (R309). -/
def loadUnits (ashape : Word) : Nat :=
  let (lo, hi) := quarters ashape
  ((List.range 4).filter (bandOn ashape)).length * (hi - lo + 1)

/-- Whether an operation uses bands. -/
def ArrOp.usesBands (o : ArrOp) : Bool :=
  match o.cmd with
  | .mma .. | .smma .. => true
  | _ => false

/-- Whether an operation in a core's path uses a band. -/
def Core.bandUsed (c : Core) (b : Nat) : Bool := c.arr.any fun o => o.usesBands && bandOn o.ashape b

/-- A core's band. -/
def Core.band (c : Core) (b : Nat) : Band := mget {} c.bands b

/-- Changes a band. -/
def State.modBand (s : State) (core b : Nat) (f : Band → Band) : State :=
  s.modCore core fun c => { c with bands := mset {} c.bands b (f (c.band b)) }

/-- A wake request takes its place in its die's queue: by clock of arrival, then core, then band (R308). -/
def Die.queueWake (d : Die) (clk core b : Nat) : Die :=
  { d with wakes := insertBy (fun e => (e.1 * 160 + e.2.1) * 4 + e.2.2) (clk, core, b) d.wakes }

/-- Operations reach the command path: each band they use is turned on, or asks the in-rush arbiter (R307, R308). -/
def State.useBands (s : State) (core : Nat) (uses : Nat → Bool) : State :=
  ((List.range 4).filter uses).foldl (fun s b =>
    match ((s.core core).band b).st with
    | .off =>
      (s.modBand core b fun x => { x with st := .queued }).modDie (core / 40) fun d =>
        d.queueWake s.clock core b
    | .hold _ => s.modBand core b fun x => { x with st := .on }
    | _ => s) s

/-- Bands that no operation uses any more enter HOLD (R307). -/
def State.idleBands (s : State) (core : Nat) : State :=
  (List.range 4).foldl (fun s b =>
    if ((s.core core).band b).st = .on ∧ !(s.core core).bandUsed b then
      s.modBand core b fun x => { x with st := .hold s.timer }
    else s) s

/-! ## Fillers (R311) -/

/-- Changes the phase of the oldest operation of a core. -/
def State.setPhase (s : State) (core : Nat) (p : ArrPhase) : State :=
  s.modCore core fun c =>
    { c with arr := match c.arr with
        | o :: os => { o with phase := p } :: os
        | [] => [] }

/-- Filler load of a core's array. -/
def State.filler (s : State) (core : Nat) : Nat := mget 0 (s.die (core / 40)).fillers core

/-- Sets the filler load of a core's array. -/
def State.setFiller (s : State) (core n : Nat) : State :=
  s.modDie (core / 40) fun d => { d with fillers := mset 0 d.fillers core n }

/-- Cuts filler load from departing arrays in the order given (R311). -/
def cutLoop : List Nat → Nat → State → State
  | [], _, s => s
  | c :: cs, left, s =>
    let f := s.filler c
    let k := Nat.min f left
    cutLoop cs (left - k) (s.setFiller c (f - k))

/-- Whether a core's array is ramping fillers up for its operation. -/
def State.ramps (s : State) (core : Nat) : Bool :=
  match (s.core core).arr with
  | o :: _ => match o.phase with
    | .ramping _ => true
    | _ => false
  | [] => false

/-- The load of a die falls by what the step still allows: 8 LU in each, taken from the fillers of departing arrays in
descending core number (R311). -/
def State.shed (s : State) (die : Nat) : State :=
  let d := s.die die
  let step := s.clock / 4
  let used := if d.fellAt = step then d.fell else 0
  let cores := (span (40 * die) 40).filter fun c => s.filler c != 0
  let s1 := cutLoop (cores.reverse.filter fun c => !s.ramps c) (8 - used) s
  let cut := (cores.map s.filler).sum - (cores.map s1.filler).sum
  s1.modDie die fun d => { d with fell := used + cut, fellAt := step }

/-- The load of an operation that leaves its array becomes fillers there (R311); its LU-clocks have been used (R313). -/
def State.leaveLoad (s : State) (core : Nat) (o : ArrOp) : State :=
  match o.phase with
  | .running t =>
    (s.setFiller core (s.filler core + loadUnits o.ashape)).modCore core fun c =>
      { c with luClocks := c.luClocks + loadUnits o.ashape * (s.clock - t) }
  | _ => s

/-- The oldest operation of a core stops in its busy time, or before it started, and asks for admission again when it may go
on: what it has left is kept, and its load becomes fillers (R226, R311, R338). -/
def State.stopArr (s : State) (core : Nat) : State :=
  match (s.core core).arr with
  | o :: os =>
    let o1 : ArrOp := match o.phase with
      | .running t => { o with phase := .queued, ran := o.ran + (s.clock - t) }
      | .ramping _ => { o with phase := .queued }
      | _ => o
    (s.leaveLoad core o).modCore core fun c => { c with arr := o1 :: os }
  | [] => s

/-- Whether an operation is in its busy time, or waits for fillers to ramp up. -/
def ArrOp.loads (o : ArrOp) : Bool :=
  match o.phase with
  | .running _ | .ramping _ => true
  | _ => false

/-- The arrays of cores stop, and the load of their dies falls. -/
def State.stopCores (s : State) (ks : List Nat) : State :=
  ((ks.map (· / 40)).dedup).foldl State.shed (ks.foldl State.stopArr s)

/-- The arrays of a context stop (R226). -/
def State.stopArrays (s : State) (c : Nat) : State :=
  s.stopCores ((s.ctx c).crec.cores.filter fun k => (s.core k).arr.head?.elim false fun o => o.ctx == c && o.loads)

/-! ## Issue and completion -/

/-- Records a late trap in warps. -/
def State.recordLate (s : State) (ws : List Nat) (t : LateTrap) : State := s.modWarps ws fun w => w.record t

/-- One operation fewer in the tile class of its members (R206). -/
def State.tileDown (s : State) (ws : List Nat) : State := s.modWarps ws fun w => { w with tileCnt := w.tileCnt - 1 }

/-- Cancels the operations of a core's path that a test selects: each counts as complete, and its members record a late
trap (R211, R358). -/
def State.cancelArr (s : State) (core : Nat) (sel : ArrOp → Bool) (t : LateTrap) : State :=
  let out := (s.core core).arr.filter sel
  let s1 := s.modCore core fun c => { c with arr := c.arr.filter fun o => !sel o }
  (out.foldl (fun s o => (s.recordLate o.members t).tileDown o.members) s1).idleBands core

/-- The late trap of a refused band (R358). -/
def bandLate (b : Nat) : LateTrap := ⟨0x1C, 0x80 + b, 0, .array⟩

/-- Issues an operation into the command path for its members, which have the highest of their floors; one that uses a failed
band is cancelled as it arrives (R215, R276, R358). -/
def State.issueArr (s : State) (g : Grp) (cmd : ArrCmd) : Res :=
  let w := leaderOf g
  let x := s.warp w
  let core := s.coreOf w
  if g.ws.any fun m => 255 ≤ (s.warp m).tileCnt then .stall s
  else
    let s1 := (g.ws.foldl State.settleReads s).joinMembers g.ws
    let s2 := s1.modWarps g.ws fun y => { y with tileCnt := y.tileCnt + 1, tileSeq := y.tileSeq + 1 }
    let o : ArrOp :=
      { cmd, members := g.ws, nums := g.ws.map fun m => (s2.warp m).tileSeq, blk := x.blk, ctx := x.ctx
        fpmode := x.fpmode, ashape := x.ashape, floors := (s2.warp w).fl
        rels := s2.relsOfWarps g.ws }
    let failed := (List.range 4).find? fun b => o.usesBands && bandOn o.ashape b && ((s2.core core).band b).failed
    match failed with
    | some b => .next ((s2.recordLate g.ws (bandLate b)).tileDown g.ws)
    | none =>
      let s3 := s2.modCore core fun c => { c with arr := c.arr ++ [o] }
      .next (if o.usesBands then s3.useBands core (bandOn o.ashape) else s3)

/-- The oldest operation of a core's path, unless its context is frozen or being frozen (R226). -/
def State.arrHead (s : State) (core : Nat) : Option ArrOp :=
  match (s.core core).arr with
  | o :: _ => if (s.ctx o.ctx).frozen || (s.ctx o.ctx).freezing then none else some o
  | [] => none

/-- The oldest operation leaves the path: its flags are set in every member, and its load falls as far as the step allows,
with fillers for the rest (R97, R216, R311). -/
def State.arrDone (s : State) (core : Nat) (o : ArrOp) (flags : Nat) : State :=
  let s1 := s.modCore core fun c => { c with arr := c.arr.tail }
  let s2 := s1.modWarps o.members fun w => w.setFlags flags
  let s3 := (s2.tileDown o.members).idleBands core
  (s3.leaveLoad core o).shed (core / 40)

/-! ## The vault addresses of weights (R220, R241) -/

/-- The first granule of 64 KiB of a range that a context's grant does not give. -/
def firstUngranted (r : CtxRec) (v o n : Nat) : Option Nat :=
  let starts := (List.range (n / 65536 + 2)).filterMap fun i =>
    let a := if i = 0 then o else (o / 65536 + i) * 65536
    if a < o + n then some a else none
  starts.find? fun a => !vaultGranted r v a

/-- The checks of a weight image of n bytes at X: own vault and extent, alignment, grant. -/
def State.vaultTrap (s : State) (w : Nat) (x : Word) (n : Nat) : Option Trap :=
  let core := s.coreOf w
  let o := (x.extractLsb' 0 40).toNat
  if spaceOf x ≠ 3 ∨ x.extractLsb' 48 12 ≠ 0 ∨ (x.extractLsb' 40 8).toNat ≠ core then some ⟨0x13, 0, x⟩
  else if 0x3000000 < o + n then some ⟨0x13, 0, x + BitVec.ofNat 64 (0x3000000 - o)⟩
  else if x &&& 0xFF ≠ 0 then some ⟨0x12, 0, x⟩
  else
    match firstUngranted (s.ctxOf w).crec core o n with
    | some a => some ⟨0x11, 0, x + BitVec.ofNat 64 (a - o)⟩
    | none => none

/-- The vault pointer of an offset of a core's own vault. -/
def vaultPtr (core o : Nat) : Word := BitVec.ofNat 64 (3 * 2 ^ 60 + core * 2 ^ 40 + o)

end Sys2Proof.Machine
end

