-- ==== Sys2Proof/Machine/Tile.lean ====
section
/-! DEFINITION. The tile instructions (spec/09 R217 to R224): their checks at issue and what each captures. -/

namespace Sys2Proof.Machine

/-! ## TSHP (R219) -/

/-- The 128-bit image of `TSHP`: A below B. -/
def tshpImage (a b : Word) : BitVec 128 := b ++ a

/-- A record with its BASE replaced. -/
def withBase (r : BitVec 128) (base : Nat) : BitVec 128 :=
  (r &&& ~~~((0x3FFFFF : BitVec 128) <<< 20)) ||| (BitVec.ofNat 128 (base % 2 ^ 22) <<< 20)

/-- What `TSHP` refuses (R219). -/
def tshpTrap (b : Block) (r : BitVec 128) : Option Trap :=
  let x := shapeOf r
  if imageBad r x.base then some (shapeBad 0x09)
  else if 1024 * b.scrKb < x.base + (x.rows - 1) * x.stride + x.cols * fmtBytes x.fmt then some (shapeBad 0x07)
  else none

/-- Effect of `TSHP` (R219). -/
def effTshp (a : Args) (s : State) (g : Grp) : Res :=
  let w := leaderOf g
  let r := tshpImage (s.sval g (srcA a)) (s.sval g (srcB a 0))
  let b := s.blkOf w
  match tshpTrap b r with
  | some t => .trap s t
  | none => .next (s.setRecord w a.d.toNat (withBase r (b.scrBase + (shapeOf r).base)))

/-- `TSHP` (R219). -/
def execTshp (a : Args) (s : State) : Host.Outcome State Fault Refusal := s.issue .tshp a (effTshp a)

/-! ## WLD (R220) -/

/-- The slice size of Table 9.2. -/
def sliceSize (code sparse : Nat) : Nat :=
  if fmtBytes code = 2 then 192 else if sparse = 0 then 224 else if sparse = 1 then 272 else 320

/-- Whether the shape of a weight record is outside Table 9.1. -/
def wldShapeBad (x : Shape) (sparse : Nat) : Bool :=
  256 < x.cols ||
  (if fmtBytes x.fmt = 2 then sparse != 0 || 96 < x.rows
   else if sparse = 0 then 192 < x.rows
   else x.rows % 24 != 0 || (if sparse = 1 then 384 else 768) < x.rows)

/-- The checks of a `WLD` at issue, in their order (R220). -/
def State.wldTrap (s : State) (w : Nat) (a : Args) (r : BitVec 128) (x : Word) : Option Trap :=
  let h := shapeOf r
  if fmtBytes h.fmt = 0 ∨ h.fmt = 0x6 then some (shapeBad 0x02)
  else if h.dom ≠ 0 then some (domBad 0x01)
  else if wldShapeBad h a.sub.toNat then some (shapeBad 0x0A)
  else s.vaultTrap w x (h.cols * sliceSize h.fmt a.sub.toNat)

/-- Effect of `WLD` (R220). -/
def effWld (a : Args) (s : State) (g : Grp) : Res :=
  let w := leaderOf g
  let r := s.record w a.d.toNat
  let x := s.sval g (srcA a) + immOff a
  match s.wldTrap w a r x with
  | some t => .trap s t
  | none => s.issueArr g (.wld (x.extractLsb' 0 40).toNat r (recFmt (s.warp w).fpmode (shapeOf r).fmt) a.sub.toNat)

/-- `WLD` (R220). -/
def execWld (a : Args) (s : State) : Host.Outcome State Fault Refusal := s.issue .wld a (effWld a)

/-! ## MMA (R221) -/

/-- Whether tiles from `t`, `n` of them, run beyond t7 or are not granted. -/
def spanBad (b : Block) (t n : Nat) : Bool := 8 < t + n || b.ntiles < t + n

/-- The checks of an `MMA` at issue, in their order (R221). -/
def State.mmaTrap (s : State) (w : Nat) (a : Args) (r : BitVec 128) : Option Trap :=
  let b := s.blkOf w
  let x := shapeOf r
  let (valid, width, k, _) := (s.core b.core).projLatch
  let m := if a.xp then x.cols else x.rows
  let ka := if a.xp then x.rows else x.cols
  let e := fmtBytes x.fmt
  if !valid then some (shapeBad 0x01)
  else if x.dom ≠ 0 then some (domBad 0x01)
  else if e ≠ width ∨ 2 < e then some (shapeBad 0x02)
  else if m % 64 ≠ 0 ∨ 512 < m then some (shapeBad 0x03)
  else if ka ≠ k then some (shapeBad 0x04)
  else if spanBad b a.d.toNat (m / 64) then some (shapeBad 0x05)
  else storedBad b x m

/-- Effect of `MMA` (R221). -/
def effMma (a : Args) (s : State) (g : Grp) : Res :=
  let w := leaderOf g
  let r := s.record w a.a.toNat
  match s.mmaTrap w a r with
  | some t => .trap s t
  | none =>
    s.issueArr g (.mma a.d.toNat r (recFmt (s.warp w).fpmode (shapeOf r).fmt) (a.func == 1) a.xp)

/-- `MMA` (R221). -/
def execMma (a : Args) (s : State) : Host.Outcome State Fault Refusal := s.issue .mma a (effMma a)

/-! ## TST and TLD (R222, R223) -/

/-- The checks that `TST` and `TLD` share, in their order: rows and columns, tile span, format, stored matrix. -/
def storeShapeTrap (b : Block) (x : Shape) (tile : Nat) (amax : Bool) : Option Trap :=
  if 512 < x.rows ∨ 256 < x.cols then some (shapeBad 0x03)
  else if spanBad b tile ((x.rows + 63) / 64) then some (shapeBad 0x05)
  else if fmtBytes x.fmt = 0 ∨ (amax ∧ fmtBytes x.fmt ≠ 1) then some (shapeBad 0x02)
  else storedBad b x x.rows

/-- Whether a spectral `TST` reads a tile that does not carry the record's tag (R244). -/
def State.tstTagBad (s : State) (b : Block) (x : Shape) (tile : Nat) : Bool :=
  x.dom == 1 && (span tile ((x.rows + 63) / 64)).any fun t => s.projTag b t != .spectral x.b

/-- Effect of `TST` (R222): LOSS_SCALE, the rounding mode and the formats are those at issue. -/
def effTst (a : Args) (s : State) (g : Grp) : Res :=
  let w := leaderOf g
  let b := s.blkOf w
  let x := s.warp w
  let r := s.record w a.d.toNat
  let h := shapeOf r
  let f := a.func.toNat
  match storeShapeTrap b h a.a.toNat (f % 2 == 1) with
  | some t => .trap s t
  | none =>
    if s.tstTagBad b h a.a.toNat then .trap s (domBad 0x03)
    else
      let se := if 2 ≤ f then (x.lossScale.extractLsb' 0 8).toInt else 0
      s.issueArr g (.tst a.a.toNat r (recFmt x.fpmode h.fmt) f (rndOf x.fpmode a.rnd) a.sat se)

/-- `TST` (R222). -/
def execTst (a : Args) (s : State) : Host.Outcome State Fault Refusal := s.issue .tst a (effTst a)

/-- Effect of `TLD` (R223). -/
def effTld (a : Args) (s : State) (g : Grp) : Res :=
  let w := leaderOf g
  let r := s.record w a.a.toNat
  match storeShapeTrap (s.blkOf w) (shapeOf r) a.d.toNat false with
  | some t => .trap s t
  | none => s.issueArr g (.tld a.d.toNat r (recFmt (s.warp w).fpmode (shapeOf r).fmt))

/-- `TLD` (R223). -/
def execTld (a : Args) (s : State) : Host.Outcome State Fault Refusal := s.issue .tld a (effTld a)

/-- Effect of `TZERO` (R224). -/
def effTzero (a : Args) (s : State) (g : Grp) : Res := s.issueArr g (.tzero a.d.toNat a.imm.toNat)

/-- `TZERO` (R224). -/
def execTzero (a : Args) (s : State) : Host.Outcome State Fault Refusal := s.issue .tzero a (effTzero a)

/-! ## WLD_COMPLETE (R211, R212) -/

/-- A weight image as it arrives: for every column the bytes of its slice, and the first poisoned byte's offset. -/
def State.readSlices (s : State) (fl : SMap Nat) (core x n cs : Nat) : State × List (List Byte) × Option Nat :=
  (List.range n).foldl (fun acc j =>
    let (s1, bs) := acc.1.engineRead fl (vaultLoc core (x + j * cs)) cs
    let bad := (bs.zipIdx.find? fun b => b.1.2).map fun b => x + j * cs + b.2
    (s1, acc.2.1 ++ [bs.map (·.1)], acc.2.2.orElse fun _ => bad)) (s, [], none)

/-- The mask of group g of a slice. -/
def sliceMask (bs : List Byte) (g : Nat) : Nat := natOfBytes ((bs.drop (224 + 3 * g)).take 3)

/-- Set bits of a mask of 24. -/
def bits24 (m : Nat) : Nat := ((List.range 24).filter m.testBit).length

/-- The kept elements of a group. -/
def keepOf (sparse : Nat) : Nat := if sparse = 1 then 12 else 6

/-- The vault offset of the first mask with a wrong count (R211). -/
def badMask (x cs sparse k : Nat) (cols : List (List Byte)) : Option Nat :=
  if sparse = 0 then none
  else
    cols.zipIdx.findSome? fun c => (List.range (k / 24)).findSome? fun g =>
      if bits24 (sliceMask c.1 g) = keepOf sparse then none else some (x + c.2 * cs + 224 + 3 * g)

/-- Bytes used of a column: those of its K elements or kept elements (R212). -/
def usedRows (f : FFmt) (sparse k : Nat) : Nat :=
  if f.width = 16 then 2 * k else if sparse = 0 then k else k / 24 * keepOf sparse

/-- Entries of a map from bytes, without those that are 0. -/
def entries (key : Nat) (bs : List Byte) : SMap Byte :=
  bs.zipIdx.filterMap fun b => if b.1 = 0 then none else some (key + b.2, b.1)

/-- The weights that a column contributes: band, logical K element, and the weight times its scale (R207, R212). -/
def Latch.column (l : Latch) (j : Nat) : List (Nat × Nat × FVal) :=
  let cell (r : Nat) : Nat := (mget 0 l.wts (192 * j + r)).toNat
  let scale (k : Nat) : FVal := if l.fmt.width = 8 then scaleVal (mget 0 l.scales (32 * j + k / l.blk)).toNat else .fin false 1 0
  if l.fmt.width = 16 then
    (List.range l.k).map fun k => (k / 24, k, decodeF l.fmt (cell (2 * k) + 256 * cell (2 * k + 1)))
  else if l.sparse = 0 then
    (List.range l.k).map fun k => (k / 48, k, product [decodeF l.fmt (cell k), scale k])
  else
    (List.range (l.k / 24)).flatMap fun g =>
      let kept := (List.range 24).filter (mget 0 l.masks (32 * j + g)).testBit
      kept.zipIdx.map fun e =>
        let r := keepOf l.sparse * g + e.2
        (r / 48, 24 * g + e.1, product [decodeF l.fmt (cell r), scale (24 * g + e.1)])

/-- Adds a column's weights to the checksum column's exact sums (R355). -/
def addColumn (sums : List (Nat × Nat × FVal)) (col : List (Nat × Nat × FVal)) : List (Nat × Nat × FVal) :=
  col.foldl (fun acc e =>
    if acc.any fun x => x.1 == e.1 && x.2.1 == e.2.1 then
      acc.map fun x =>
        if x.1 = e.1 ∧ x.2.1 = e.2.1 then
          (x.1, x.2.1, if x.2.2.isNan || e.2.2.isNan then .nan false 0 false false false
            else (xadd .rne x.2.2 e.2.2).getD (.nan false 0 false false false))
        else x
    else acc ++ [e]) sums

/-- The checksum column latches the exact sums over the N latched columns (R355). -/
def Latch.withSums (l : Latch) : Latch := { l with sums := (List.range l.n).foldl (fun acc j => addColumn acc (l.column j)) [] }

/-- The latched state after a `WLD` (R212). -/
def latchOf (r : BitVec 128) (f : FFmt) (sparse : Nat) (cols : List (List Byte)) : Latch :=
  let x := shapeOf r
  let nblk := (x.rows + x.blk - 1) / x.blk
  { valid := true, fmt := f, blk := x.blk, sparse, k := x.rows, n := x.cols
    wts := cols.zipIdx.flatMap fun c => entries (192 * c.2) (c.1.take (usedRows f sparse x.rows))
    scales := cols.zipIdx.flatMap fun c => if f.width = 8 then entries (32 * c.2) ((c.1.drop 192).take nblk) else []
    masks := cols.zipIdx.flatMap fun c =>
      if sparse = 0 then [] else (List.range (x.rows / 24)).map fun g => (32 * c.2 + g, sliceMask c.1 g) }

/-- The valid flag of a core is cleared, and every `MMA` in its path is cancelled (R211, R371). -/
def State.weightsLost (s : State) (core : Nat) : State :=
  let s1 := s.modCore core fun c => { c with latch := { c.latch with valid := false } }
  s1.cancelArr core (fun o => match o.cmd with
    | .mma .. => true
    | _ => false) ⟨0x09, 0x01, 0, .array⟩

/-- `WLD_COMPLETE` (R211, R212): the slices arrive; the weights are latched, or refused for a mask or for poison
(DESIGN CHOICE, notes/assumptions/23). -/
def execWldComplete (core : Nat) (s : State) : Host.Outcome State Fault Refusal :=
  match s.arrHead core with
  | none => .next s
  | some o =>
    match o.cmd with
    | .wld x r f sparse =>
      let h := shapeOf r
      let cs := sliceSize h.fmt sparse
      let (s1, cols, bad) := s.readSlices (s.arrFloors core o) core x h.cols cs
      let lost (t : LateTrap) : State := (s1.recordLate o.members t).weightsLost core
      let s2 := match bad with
        | some a => lost ⟨0x14, 0x80, vaultPtr core a, .array⟩
        | none =>
          match badMask x cs sparse h.rows cols with
          | some a => lost ⟨0x09, 0x08, vaultPtr core a, .array⟩
          | none => s1.modCore core fun c => { c with latch := (latchOf r f sparse cols).withSums }
      .next (s2.arrDone core o 0)
    | _ => .next s

end Sys2Proof.Machine
end

