-- ==== Sys2Proof/Machine/Spectral.lean ====
section
/-! DEFINITION. Spectral mode (spec/10 R228 to R246): `SMMA`, `TAG`, and `XFFT` with its transform pipes. -/

namespace Sys2Proof.Machine

/-! ## SMMA (R241) -/

/-- The slab size of a spectral weight image (R240). -/
def slabSize (x : Shape) : Nat := (x.cols * x.rows * 2 * fmtBytes x.fmt + 255) / 256 * 256

/-- Whether a record's format is not one of spectral mode. -/
def notWide (x : Shape) : Bool := fmtBytes x.fmt < 2

/-- The checks of an `SMMA` at issue, in their order; the tags of the last are those of the tiles that it writes, which are
none where its ASHAPE selects no column (R241, R242). -/
def State.smmaTrap (s : State) (w : Nat) (a : Args) (ra rc : BitVec 128) (x : Word) : Option Trap :=
  let b := s.blkOf w
  let p := shapeOf ra
  let q := shapeOf rc
  if p.dom ≠ 1 ∨ q.dom ≠ 1 then some (domBad 0x01)
  else if p.bsz ≠ q.bsz then some (domBad 0x02)
  else if notWide p ∨ notWide q ∨ fmtBytes p.fmt ≠ fmtBytes q.fmt then some (shapeBad 0x02)
  else if p.rows % 64 ≠ 0 ∨ 512 < p.rows ∨ (if fmtBytes q.fmt = 4 then 24 else 48) < q.rows ∨ 256 < q.cols * q.b then
    some (shapeBad 0x03)
  else if p.cols ≠ q.rows * q.b then some (shapeBad 0x04)
  else if spanBad b a.d.toNat (p.rows / 64) then some (shapeBad 0x05)
  else
    match storedBad b p p.rows with
    | some t => some t
    | none =>
      match s.vaultTrap w x ((q.b / 2 + 1) * slabSize q) with
      | some t => some t
      | none =>
        if a.func = 0 ∧ columnsOf (s.warp w).ashape (q.cols * q.b) ≠ [] ∧ (span a.d.toNat (p.rows / 64)).any fun t =>
            s.projTag b t != .neutral && s.projTag b t != .spectral p.b then some (domBad 0x03)
        else none

/-- Effect of `SMMA` (R241). -/
def effSmma (a : Args) (s : State) (g : Grp) : Res :=
  let w := leaderOf g
  let ra := s.record w a.a.toNat
  let rc := s.record w a.c.toNat
  let x := s.sval g (srcB a 0) + immOff a
  match s.smmaTrap w a ra rc x with
  | some t => .trap s t
  | none => s.issueArr g (.smma a.d.toNat ra rc (x.extractLsb' 0 40).toNat (a.func == 1))

/-- `SMMA` (R241). -/
def execSmma (a : Args) (s : State) : Host.Outcome State Fault Refusal := s.issue .smma a (effSmma a)

/-! ## TAG (R246) -/

/-- A record with its domain fields replaced: DOM, BSZ and SCALE_EXP. -/
def withDomain (r : BitVec 128) (dom bsz sexp : Nat) : BitVec 128 :=
  (r &&& ~~~((0x3FF : BitVec 128) <<< 70)) ||| (BitVec.ofNat 128 (dom % 4 + bsz % 4 * 4 + sexp % 64 * 16) <<< 70)

/-- What `TAG.SET` refuses: an image that `TSHP` would refuse; BASE counts from the block's scratch. -/
def tagSetTrap (b : Block) (r : BitVec 128) : Option Trap :=
  let x := shapeOf r
  let o := x.base - b.scrBase
  if imageBad r o ∨ 1024 * b.scrKb < o + (x.rows - 1) * x.stride + x.cols * fmtBytes x.fmt then some (shapeBad 0x09)
  else none

/-- Effect of `TAG.SET` (R246). -/
def effTagSet (a : Args) (s : State) (g : Grp) : Res :=
  let w := leaderOf g
  let i := a.imm.toNat
  let r := withDomain (s.record w a.a.toNat) (i % 4) (i / 4 % 4) (i / 16 % 64)
  match tagSetTrap (s.blkOf w) r with
  | some t => .trap s t
  | none => .next (s.setRecord w a.d.toNat r)

/-- `TAG.SET` (R246). -/
def execTagSet (a : Args) (s : State) : Host.Outcome State Fault Refusal := s.issue .tagSet a (effTagSet a)

/-- Effect of `TAG.ADJ` (R246). -/
def effTagAdj (a : Args) (s : State) (g : Grp) : Res :=
  let w := leaderOf g
  let r := s.record w a.a.toNat
  let x := shapeOf r
  let e := x.sexp + a.imm.toInt
  if e < -32 ∨ 31 < e then .trap s (domBad 0x04)
  else if x.dom = 0 then .trap s (domBad 0x01)
  else .next (s.setRecord w a.d.toNat (withDomain r x.dom x.bsz (BitVec.ofInt 6 e).toNat))

/-- `TAG.ADJ` (R246). -/
def execTagAdj (a : Args) (s : State) : Host.Outcome State Fault Refusal := s.issue .tagAdj a (effTagAdj a)

/-- Effect of `TAG.QRY` (R246). -/
def effTagQry (a : Args) (s : State) (g : Grp) : Res :=
  let w := leaderOf g
  .next (s.modWarp w fun x => x.sset a.d.toNat (((s.record w a.a.toNat).extractLsb' 64 16).setWidth 64))

/-- `TAG.QRY` (R246). -/
def execTagQry (a : Args) (s : State) : Host.Outcome State Fault Refusal := s.issue .tagQry a (effTagQry a)

/-! ## The transform (R237, R238) -/

/-- r32(cos(2πk/128)) for k from 0 to 32. -/
def cosTab : List Nat :=
  [0x3F800000, 0x3F7FB10F, 0x3F7EC46D, 0x3F7D3AAC, 0x3F7B14BE, 0x3F7853F8, 0x3F74FA0B, 0x3F710908, 0x3F6C835E,
   0x3F676BD8, 0x3F61C598] ++
  [0x3F5B941A, 0x3F54DB31, 0x3F4D9F02, 0x3F45E403, 0x3F3DAEF9, 0x3F3504F3, 0x3F2BEB4A, 0x3F226799, 0x3F187FC0,
   0x3F0E39DA, 0x3F039C3D] ++
  [0x3EF15AEA, 0x3EDAE880, 0x3EC3EF15, 0x3EAC7CD4, 0x3E94A031, 0x3E78CFCC, 0x3E47C5C2, 0x3E164083, 0x3DC8BD36,
   0x3D48FB30, 0x00000000]

/-- cos(2πk/128) in FP32 for any k, by the symmetries of the cosine. -/
def cos128 (k : Nat) : FVal :=
  let j := k % 128
  let j := if j ≤ 64 then j else 128 - j
  if j ≤ 32 then decodeF .f32 (cosTab.getD j 0)
  else
    let v := decodeF .f32 (cosTab.getD (64 - j) 0)
    v.withNeg true

/-- A complex value. -/
structure Cplx where
  re : FVal
  im : FVal
  deriving DecidableEq, Repr

/-- The twiddle factor W(d, m) of a block of b (R237); `fwd` says d = −1. -/
def twiddle (fwd : Bool) (b m : Nat) : Cplx :=
  let k := m * (128 / b)
  let sin := cos128 (k + 96)
  { re := cos128 k, im := if sin.isZero then .fin false 0 0 else if fwd then sin.withNeg (!sin.neg) else sin }

/-- r32: rounds to FP32, RNE, without saturation; NaN results are canonical (R237). -/
def r32 (v : Option FVal) (ops : List FVal) : FVal × Nat :=
  let (c, fl) := finishOp .f32 .rne false false ops v
  (decodeF .f32 c, fl)

/-- a·c + b·d, formed exactly and rounded once. -/
def dot2 (a c b d : FVal) : FVal × Nat :=
  let (v, fl) := r32 ((xmul a c).bind fun p => (xmul b d).bind fun q => xadd .rne p q) [a, b, c, d]
  (v, fl ||| nvMul a c ||| nvMul b d)

/-- Negation. -/
def FVal.opp (v : FVal) : FVal := v.withNeg (!v.neg)

/-- Complex product. -/
def cmul (x y : Cplx) : Cplx × Nat :=
  let (re, f1) := dot2 x.re y.re x.im.opp y.im
  let (im, f2) := dot2 x.re y.im x.im y.re
  (⟨re, im⟩, f1 ||| f2)

/-- Complex sum, or difference. -/
def cadd (sub : Bool) (x y : Cplx) : Cplx × Nat :=
  let g (v : FVal) : FVal := if sub then v.opp else v
  let (re, f1) := r32 (xadd .rne x.re (g y.re)) [x.re, y.re]
  let (im, f2) := r32 (xadd .rne x.im (g y.im)) [x.im, y.im]
  (⟨re, im⟩, f1 ||| f2)

/-- The complex zero. -/
def czero : Cplx := ⟨.fin false 0 0, .fin false 0 0⟩

/-- The lowest L bits of n reversed. -/
def brev (l n : Nat) : Nat := (List.range l).foldl (fun acc i => if n.testBit i then acc + 2 ^ (l - 1 - i) else acc) 0

/-- One stage of butterflies of half-width h. -/
def stage (fwd : Bool) (b h : Nat) (a : List Cplx) (fl : Nat) : List Cplx × Nat :=
  let rs := (List.range b).map fun i =>
    let t := i % h
    let lo := i / (2 * h) * (2 * h) + t
    let p := a.getD lo czero
    let (q, f1) := cmul (twiddle fwd b (t * (b / (2 * h)))) (a.getD (lo + h) czero)
    let (r, f2) := cadd (h ≤ i % (2 * h)) p q
    (r, f1 ||| f2)
  (rs.map (·.1), rs.foldl (fun acc r => acc ||| r.2) fl)

/-- The stages from s = 1 on. -/
def stages (fwd : Bool) (b : Nat) : Nat → List Cplx → Nat → List Cplx × Nat
  | 0, a, fl => (a, fl)
  | n + 1, a, fl =>
    let (a1, f1) := stages fwd b n a fl
    stage fwd b (2 ^ n) a1 f1

/-- The input of a transform in natural order (R237). -/
def xfftIn (fwd : Bool) (b : Nat) (x : List FVal) : List Cplx :=
  let at_ (n : Nat) : FVal := x.getD n (.fin false 0 0)
  (List.range b).map fun n =>
    if fwd then ⟨at_ n, .fin false 0 0⟩
    else if n = 0 then ⟨at_ 0, .fin false 0 0⟩
    else if n = b / 2 then ⟨at_ 1, .fin false 0 0⟩
    else if n < b / 2 then ⟨at_ (2 * n), at_ (2 * n + 1)⟩
    else ⟨at_ (2 * (b - n)), (at_ (2 * (b - n) + 1)).opp⟩

/-- The output of a transform in stored order, before scaling. -/
def xfftOut (fwd : Bool) (b : Nat) (a : List Cplx) : List FVal :=
  let at_ (n : Nat) : Cplx := a.getD n czero
  (List.range b).map fun n =>
    if !fwd then (at_ n).re
    else if n = 0 then (at_ 0).re
    else if n = 1 then (at_ (b / 2)).re
    else if n % 2 = 0 then (at_ (n / 2)).re else (at_ (n / 2)).im

/-- Multiplies exactly by a power of two. -/
def FVal.scale (v : FVal) (k : Int) : FVal :=
  match v with
  | .fin n m e => .fin n m (e + k)
  | v => v

/-- Transforms one block: the elements' codes in FMT and the flags (R237, R238). -/
def xfftBlock (fwd : Bool) (f : FFmt) (l : Nat) (sexp : Int) (sat : Bool) (x : List FVal) : List Nat × Nat :=
  let b := 2 ^ l
  if x.any FVal.isPoison then (List.replicate b f.poisonCode, 0)
  else
    let z := xfftIn fwd b x
    let a0 := (List.range b).map fun n => z.getD (brev l n) czero
    let (a, fl) := stages fwd b l a0 0
    let sc : Int := if fwd then -((l / 2 : Nat) : Int) - sexp else -(((l + 1) / 2 : Nat) : Int) + sexp
    let rs := (xfftOut fwd b a).map fun v => roundTo f .rne sat false [v] (v.scale sc)
    (rs.map (·.1), rs.foldl (fun acc r => acc ||| r.2) fl)

/-! ## XFFT (R236, R239) -/

/-- Registers of an operation (R235). -/
def xfftRegs (x : Shape) : Nat := Nat.max 1 (x.b * fmtBytes x.fmt / 256)

/-- The checks of an `XFFT` on its record (R236). -/
def xfftTrap (b : Block) (x : Shape) : Option Trap :=
  if x.dom ≠ 1 then some (domBad 0x01)
  else if notWide x then some (shapeBad 0x02)
  else storedBad b x x.rows

/-- The elements of the source registers, every lane whole. -/
def Warp.xfftElems (w : Warp) (reg r e : Nat) : List Nat :=
  (List.range (256 * r / e)).map fun k =>
    let o := k * e
    elemAt (w.vget (reg + o / 256) (o % 256 / 8)) (8 * e) (o % 8 / e)

/-- The lanes that the results fill. -/
def xfftLanes (d e : Nat) (es : List Nat) : List (Nat × Word) :=
  let k := 8 / e
  (List.range (es.length / k)).map fun i => (32 * d + i, packElems (8 * e) ((es.drop (i * k)).take k))

/-- The pipe of a warp's partition. -/
def Warp.pipe (w : Warp) : Nat := w.part / 4

/-- A core's pipe. -/
def Core.pipe (c : Core) (p : Nat) : Pipe := mget {} c.pipes p

/-- Changes a pipe. -/
def State.modPipe (s : State) (core p : Nat) (f : Pipe → Pipe) : State :=
  s.modCore core fun c => { c with pipes := mset {} c.pipes p (f (c.pipe p)) }

/-- Whether a pipe can start to serve an operation: it has accepted every register of those before (R239). -/
def Pipe.free (p : Pipe) (clock : Nat) : Bool := p.ops.all fun o => o.start + 4 * o.r ≤ clock

/-- The common effect of the two forms (R237, R239): the sources are read and the results formed at issue. -/
def State.xfftOp (s : State) (g : Grp) (a : Args) (fwd : Bool) : Res :=
  let w := leaderOf g
  let x := s.warp w
  let rcd := s.record w a.b.toNat
  let h := shapeOf rcd
  match xfftTrap (s.blkOf w) h with
  | some t => .trap s t
  | none =>
    let r := xfftRegs h
    let e := fmtBytes h.fmt
    let d := a.d.toNat
    let src := a.a.toNat
    if x.nregs < d + r ∨ x.nregs < src + r then .trap s (illegal 0x03)
    else if (span src r ++ span d r).any (fun n => x.busy.contains (.v n)) || 255 ≤ x.tileCnt then .stall s
    else
      let core := s.coreOf w
      let pipe := (s.core core).pipe x.pipe
      let free := pipe.wait.isEmpty && pipe.free s.clock
      if !free && pipe.wait.any (fun e => e.1 == x.part) then .stall s
      else
        let f := recFmt x.fpmode h.fmt
        let l := 4 + h.bsz
        let es := (x.xfftElems src r e).map (decodeF f)
        let blocks := (List.range (es.length / h.b)).map fun q => xfftBlock fwd f l h.sexp a.sat ((es.drop (q * h.b)).take h.b)
        let op : PipeOp :=
          { w, start := s.clock, d, r, res := xfftLanes d e (blocks.flatMap (·.1))
            flags := blocks.foldl (fun acc b => acc ||| b.2) 0 }
        let s1 := s.modWarp w fun y =>
          { y with tileCnt := y.tileCnt + 1, tileSeq := y.tileSeq + 1, busy := (span d r).map BusyReg.v ++ y.busy }
        if free then .next (s1.modPipe core x.pipe fun p => { p with ops := p.ops ++ [op], last := x.part % 4 })
        else .last (s1.modPipe core x.pipe fun p => { p with wait := p.wait ++ [(x.part, op)] })

/-- The trap of a marked source register: every lane of the registers read, once none of them is busy (R46, R237, R368). -/
def State.xfftPoison (s : State) (a : Args) (g : Grp) : Option Trap :=
  let h := shapeOf (s.record (leaderOf g) a.b.toNat)
  let r := if h.dom = 1 ∧ !notWide h then xfftRegs h else 1
  if (span a.a.toNat r).any fun n => (s.warp (leaderOf g)).busy.contains (.v n) then none
  else (span a.a.toNat r).findSome? fun n => s.srcTrap g (fun _ => List.range 32) .v n

/-- `XFFT.FWD` (R236, R237). -/
def execXfftFwd (a : Args) (s : State) : Host.Outcome State Fault Refusal :=
  .next (s.issueWith .xfftFwd a (fun s g => s.xfftPoison a g) fun s g => s.xfftOp g a true)

/-- `XFFT.INV` (R236, R237). -/
def execXfftInv (a : Args) (s : State) : Host.Outcome State Fault Refusal :=
  .next (s.issueWith .xfftInv a (fun s g => s.xfftPoison a g) fun s g => s.xfftOp g a false)

/-- `XFFT_ACCEPT` (R239): a free pipe serves a waiting operation, round-robin among partitions. -/
def execXfftAccept (core pipe : Nat) (s : State) : Host.Outcome State Fault Refusal :=
  let p := (s.core core).pipe pipe
  if !p.free s.clock then .next s
  else
    let order := (List.range 4).map fun i => 4 * pipe + (p.last + 1 + i) % 4
    match order.findSome? fun k => p.wait.find? fun e => e.1 == k with
    | none => .next s
    | some e =>
      .next (s.modPipe core pipe fun p =>
        { p with wait := p.wait.filter fun x => x.1 != e.1, ops := p.ops ++ [{ e.2 with start := s.clock }], last := e.1 % 4 })

/-- Writes the results of a transform into its warp; a retired warp's are discarded (R239). -/
def Warp.landXfft (w : Warp) (o : PipeOp) : Warp :=
  let w1 := { w with tileCnt := w.tileCnt - 1, busy := w.busy.filter fun b => !((span o.d o.r).map BusyReg.v).contains b }
  if w.retired then w1
  else (o.res.foldl (fun (y : Warp) e => y.vset (e.1 / 32) (e.1 % 32) e.2) w1).setFlags o.flags

/-- `XFFT_COMPLETE` (R239): 48 clocks after the pipe accepted the last register, the oldest result is written. -/
def execXfftComplete (core pipe : Nat) (s : State) : Host.Outcome State Fault Refusal :=
  match ((s.core core).pipe pipe).ops with
  | [] => .next s
  | o :: _ =>
    if s.clock < o.start + 4 * o.r + 48 then .next s
    else .next ((s.modPipe core pipe fun p => { p with ops := p.ops.tail }).modWarp o.w fun w => w.landXfft o)

end Sys2Proof.Machine
end

