-- ==== Sys2Proof/Machine/ArrayDone.lean ====
section
/-! DEFINITION. `ARRAY_OP_COMPLETE`: what array operations do to tiles and scratch (spec/09 R221 to R224, spec/10 R242 to
R245), and the array's checksums (spec/20 R355 to R357). -/

namespace Sys2Proof.Machine

/-! ## MMA -/

/-- Multiplies the first `rows` rows into the tiles: the elements written, in order of key, and the flags (R221). -/
def mmaElems (c : Core) (b : Block) (o : ArrOp) (tile rows : Nat) (z : Bool) (av : Nat → Nat → FVal) :
    List (Nat × Nat) × Nat :=
  let cols := (columnsOf o.ashape c.latch.n).map fun j => (j, c.latch.column j)
  let rs := (List.range rows).flatMap fun i =>
    let t := b.tileNo (tile + i / 64)
    cols.map fun jc =>
      let c0 := if z then 0 else c.tileGet t (i % 64) jc.1
      let terms (band : Nat) : List PTerm := (jc.2.filter fun e => e.1 == band).map fun e => { x := av i e.2.1, y := e.2.2 }
      let (v, fl) := bandLoop (bandsOf o.ashape) o.fpmode terms c0
      ((tileKey t (i % 64) jc.1, v), fl)
  (rs.map (·.1), rs.foldl (fun acc r => acc ||| r.2) 0)

/-- Reads operand A of an `MMA`: each element times its row's scale, by logical row and K element (R221). -/
def State.readA (s : State) (core : Nat) (o : ArrOp) (r : BitVec 128) (f : FFmt) (xp : Bool) : State × (Nat → Nat → FVal) :=
  let x := shapeOf r
  let fl := s.arrFloors core o
  let m := if xp then x.cols else x.rows
  let k := if xp then x.rows else x.cols
  let (s1, st) := s.readStored fl core x f (List.range x.rows)
  let (s2, sc) := if f.width = 8 then s1.readScales fl core x m ((k + x.blk - 1) / x.blk) else (s1, [])
  (s2, fun i k =>
    let e := if xp then (st.getD k []).getD i (.fin false 0 0) else (st.getD i []).getD k (.fin false 0 0)
    if f.width = 8 then product [e, scaleVal ((sc.getD i []).getD (k / x.blk) 0)] else e)

/-- Whether two exact sums differ: neither is NaN or infinite, and the difference is not zero. -/
def sumDiffers (v w : FVal) : Bool :=
  match v, w with
  | .fin .., .fin .. => ((xadd .rne v (w.withNeg (!w.neg))).elim false fun d => !d.isZero)
  | _, _ => false

/-- The bands in which the checksum column's exact sum of a row differs from that of the N columns (R355). -/
def Latch.rowSums (l : Latch) (bands : Nat) (cols : List (Nat × Nat × FVal)) (a : Nat → FVal) : List Nat :=
  let sum (b : Nat) (es : List (Nat × Nat × FVal)) : FVal :=
    exactSum ((es.filter fun e => e.1 == b).map fun e => { x := a e.2.1, y := e.2.2 })
  (List.range 4).filter fun b => bands.testBit b && sumDiffers (sum b l.sums) (sum b cols)

/-- The sums of each row group of an `MMA` that differ by the latched checksums (R355). -/
def State.sumsDiffer (s : State) (core : Nat) (o : ArrOp) (r : BitVec 128) (f : FFmt) (xp : Bool) : List (List Nat) :=
  let x := shapeOf r
  let l := (s.core core).latch
  let a := (s.readA core o r f xp).2
  let cols := (List.range l.n).flatMap l.column
  (runsOf 64 (List.range (if xp then x.cols else x.rows))).map fun is =>
    is.flatMap fun i => (l.rowSums (bandsOf o.ashape) cols (a i)).map (2 * ·)

/-- Sums that differ in every pass of a group, added to what the event says of the group (R355, R356). -/
def addSums (sums : List (List Nat)) (chk : List GroupCheck) : List GroupCheck :=
  sums.zipIdx.map fun b =>
    let g := chk.getD b.2 {}
    { g with pass1 := b.1 ++ g.pass1, pass2 := b.1 ++ g.pass2, pass3 := b.1 ++ g.pass3 }

/-- Performs an `MMA` on the first `rows` of its logical rows (R221). -/
def State.runMma (s : State) (core : Nat) (o : ArrOp) (tile : Nat) (r : BitVec 128) (f : FFmt) (z xp : Bool)
    (rows : Nat) : State × Nat :=
  let (s1, av) := s.readA core o r f xp
  let b := s.blk o.blk
  let s2 := s1.checkTiles core ((span tile (rows / 64)).map b.tileNo).contains
  let (es, flags) := mmaElems (s2.core core) b o tile rows z av
  let ts := (span tile (rows / 64)).map b.tileNo
  (s2.modCore core fun c => (c.tilePut es).tagPut (if es.isEmpty then [] else ts) .spatial, flags)

/-! ## SMMA -/

/-- Reads the slab of each bin; the vault offset of the first poisoned word (R240, R371). -/
def State.readSlabs (s : State) (fl : SMap Nat) (core x : Nat) (q : Shape) :
    State × List (List (Byte × Bool)) × Option Nat :=
  let e := fmtBytes q.fmt
  let n := q.cols * q.rows * 2
  (List.range (q.b / 2 + 1)).foldl (fun acc m =>
    let at_ := x + m * slabSize q
    let (s1, bs) := acc.1.engineRead fl (vaultLoc core at_) (n * e)
    let bad := (bs.zipIdx.find? fun b => b.1.2).map fun b => at_ + b.2
    (s1, acc.2.1 ++ [bs], acc.2.2.orElse fun _ => bad))
    (s, [], none)

/-- The weights of a slab. -/
def slabVals (f : FFmt) (e : Nat) (bs : List (Byte × Bool)) : List FVal := (runsOf e bs).map (storedVal f)

/-- The latched state that an `SMMA` leaves: its weights by the offset of each byte in the image, and the valid flag clear
(R242, R216, spec/18 R334). -/
def smmaLatch (q : Shape) (f : FFmt) (slabs : List (List (Byte × Bool))) : Latch :=
  { fmt := f, k := q.rows, n := q.cols * q.b
    wts := slabs.zipIdx.flatMap fun b => entries (b.2 * slabSize q) (b.1.map (·.1)) }

/-- The terms of one position of an output block in a band (R242). -/
def smmaTerms (q : Shape) (u : Int) (a : Nat → FVal) (slabs : List (List FVal)) (o h band : Nat) : List PTerm :=
  let m := if h = 0 then 0 else if h = 1 then q.b / 2 else h / 2
  let per := if fmtBytes q.fmt = 4 then 6 else 12
  let slab := slabs.getD m []
  let sc : FVal := .fin false 1 u
  ((List.range q.rows).filter fun j => j / per == band).flatMap fun j =>
    let k := 2 * (j * q.cols + o)
    let cr := slab.getD k (.fin false 0 0)
    let ci := slab.getD (k + 1) (.fin false 0 0)
    if h < 2 then [{ x := a (j * q.b + h), y := cr, sc }]
    else
      let xr := a (j * q.b + 2 * m)
      let xi := a (j * q.b + 2 * m + 1)
      if h % 2 = 0 then [{ x := xr, y := cr, sc }, { x := xi, y := ci, sc, neg := true }]
      else [{ x := xi, y := cr, sc }, { x := xr, y := ci, sc }]

/-- Performs an `SMMA` on the first `rows` rows (R242); poison in its weights cancels it (R371). -/
def State.runSmma (s : State) (core : Nat) (o : ArrOp) (tile : Nat) (ra rc : BitVec 128) (x : Nat) (z : Bool)
    (rows : Nat) : State × Nat :=
  let p := shapeOf ra
  let q := shapeOf rc
  let fl := s.arrFloors core o
  let f := recFmt o.fpmode q.fmt
  let (s1, raw, bad) := s.readSlabs fl core x q
  let s2 := s1.modCore core fun c => { c with latch := smmaLatch q f raw }
  let slabs := raw.map (slabVals f (fmtBytes q.fmt))
  match bad with
  | some a => (s2.recordLate o.members ⟨0x14, 0x80, vaultPtr core a, .array⟩, 0)
  | none =>
    let b := s.blk o.blk
    let (s2, st) := s2.readStored fl core p (recFmt o.fpmode p.fmt) (List.range p.rows)
    let s3 := s2.checkTiles core ((span tile (rows / 64)).map b.tileNo).contains
    let c := s3.core core
    let cols := columnsOf o.ashape (q.cols * q.b)
    let rs := (List.range rows).flatMap fun i =>
      let t := b.tileNo (tile + i / 64)
      let row := st.getD i []
      cols.map fun j =>
        let c0 := if z then 0 else c.tileGet t (i % 64) j
        let terms := smmaTerms q (p.sexp + q.sexp) (fun k => row.getD k (.fin false 0 0)) slabs (j / q.b) (j % q.b)
        let (v, fl) := bandLoop (bandsOf o.ashape) o.fpmode terms c0
        ((tileKey t (i % 64) j, v), fl)
    let es := rs.map (·.1)
    let ts := (span tile (rows / 64)).map b.tileNo
    (s3.modCore core fun c => (c.tilePut es).tagPut (if es.isEmpty then [] else ts) (.spectral q.b),
     rs.foldl (fun acc r => acc ||| r.2) 0)

/-! ## TST -/

/-- The block scale that AMAX gives a block's values (R222). -/
def amaxScale (f : FFmt) (xs : List FVal) : Nat :=
  if xs.any fun v => v.isNan || v.isInf then 0xFF
  else if xs.all FVal.isZero then 0
  else
    let (mm, me) := magValue f f.maxCode
    let fits (k : Nat) : Bool := xs.all fun v =>
      match v with
      | .fin _ m e => !dyadicGt m (e + 128 - k) mm me
      | _ => true
    ((List.range 254).find? fun k => fits (k + 1)).elim 254 (· + 1)

/-- One block of a row as `TST` stores it: the elements' codes, the scale byte, and the flags (R222). -/
def tstBlock (f : FFmt) (amax : Bool) (rnd : Rnd) (sat nanp : Bool) (xs : List FVal) : List Nat × Nat × Nat :=
  let k := if amax then amaxScale f xs else 0x80
  let rs := xs.map fun v =>
    if k = 0xFF then (f.nanCode, 0) else if k = 0 then (0, 0) else roundTo f rnd sat nanp [v] (v.scale (128 - k))
  (rs.map (·.1), k, rs.foldl (fun acc r => acc ||| r.2) 0)

/-- The bytes that a `TST` writes, and its flags (R222, R244). -/
def tstBytes (c : Core) (b : Block) (core tile : Nat) (x : Shape) (f : FFmt) (mode : Nat) (rnd : Rnd) (sat nanp : Bool)
    (se : Int) : List (Nat × Byte) × Nat :=
  let e := fmtBytes x.fmt
  let sh : Int := -se - (if x.dom = 1 then x.sexp else 0)
  let rows := (List.range x.rows).map fun i =>
    let vals := (List.range x.cols).map fun j =>
      (decodeF .f32 (c.tileGet (b.tileNo (tile + i / 64)) (i % 64) j)).scale sh
    let blocks := if e = 1 then runsOf x.blk vals else [vals]
    let rs := blocks.map fun xs => tstBlock f (mode % 2 == 1) rnd sat nanp xs
    let es := (rs.flatMap (·.1)).zipIdx.flatMap fun v =>
      (span (ubsLoc core (x.base + i * x.stride + v.2 * e)) e).zip (leBytes e v.1)
    let sc := if e = 1 then rs.zipIdx.map fun r =>
        (ubsLoc core (x.base + x.rows * x.stride + 32 * i + r.2), BitVec.ofNat 8 r.1.2.1) else []
    (es, sc, rs.foldl (fun acc r => acc ||| r.2.2) 0)
  (rows.flatMap (·.1) ++ rows.flatMap (·.2.1), rows.foldl (fun acc r => acc ||| r.2.2) 0)

/-- Performs a `TST`: the bytes are written, and their positions are kept for the members' later `WAIT` (R288). -/
def State.runTst (s : State) (core : Nat) (o : ArrOp) (tile : Nat) (r : BitVec 128) (f : FFmt) (mode : Nat) (rnd : Rnd)
    (sat : Bool) (se : Int) : State × Nat :=
  let s0 := s.checkTiles core ((span tile (((shapeOf r).rows + 63) / 64)).map (s.blk o.blk).tileNo).contains
  let (bs, flags) := tstBytes (s0.core core) (s.blk o.blk) core tile (shapeOf r) f mode rnd sat (fpNanp o.fpmode) se
  let s1 := s0.performWrite { rels := o.rels } false 0 8 bs
  let ps := bs.map fun b => (b.1, s1.mem.pos b.1)
  let fl := raiseTo [] ps
  let s2 := s1.modCore core fun c => { c with arrFl := raiseTo c.arrFl ps }
  ((o.members.zip o.nums).foldl (fun s m => s.modWarp m.1 fun w => { w with tileDone := w.tileDone ++ [(m.2, fl)] }) s2,
   flags)

/-! ## TLD and TZERO -/

/-- Performs a `TLD` (R223, R245). -/
def State.runTld (s : State) (core : Nat) (o : ArrOp) (tile : Nat) (r : BitVec 128) (f : FFmt) : State × Nat :=
  let x := shapeOf r
  let fl := s.arrFloors core o
  let (s1, st) := s.readStored fl core x f (List.range x.rows)
  let (s2, sc) := if f.width = 8 then s1.readScales fl core x x.rows ((x.cols + x.blk - 1) / x.blk) else (s1, [])
  let b := s.blk o.blk
  let s2 := s2.checkTiles core ((span tile ((x.rows + 63) / 64)).map b.tileNo).contains
  let rs := st.zipIdx.flatMap fun row =>
    row.1.zipIdx.map fun e =>
      let scale := if f.width = 8 then scaleVal ((sc.getD row.2 []).getD (e.2 / x.blk) 0) else .fin false 1 0
      let v := (product [e.1, scale]).scale (if x.dom = 1 then x.sexp else 0)
      let inv := if v.isNan && !e.1.isNan && !scale.isNan then fNV else 0
      let (c, fl) := roundTo .f32 .rne false false [e.1, v] v
      ((tileKey (b.tileNo (tile + row.2 / 64)) (row.2 % 64) e.2, c), fl ||| inv)
  let ts := (span tile ((x.rows + 63) / 64)).map b.tileNo
  (s2.modCore core fun c => (c.tilePut (rs.map (·.1))).tagPut ts (if x.dom = 1 then .spectral x.b else .spatial),
   rs.foldl (fun acc r => acc ||| r.2) 0)

/-- Zeros tiles and makes them neutral (R224, R233). -/
def Core.zeroTiles (c : Core) (ts : List Nat) : Core :=
  { c with
    tiles := c.tiles.filter fun e => !ts.contains (e.1 / 16384)
    tileErr := c.tileErr.filter fun e => !ts.contains (2 * e.1 / 16384) }.tagPut ts .neutral

/-! ## ARRAY_OP_COMPLETE -/

/-- The first failing sum of a pass in the enabled bands: the least of band × 2 + granule (R355, R357). -/
def firstSum (bands : Nat) (sums : List Nat) : Option Nat :=
  (List.range 8).find? fun g => sums.contains g && bands.testBit (g / 2)

/-- What the array does with one row group: its counts, and the first failing sum of the pass that makes it fail (R356,
R357). Each column that differs is remapped to a spare while one of the four is free. -/
def Core.checkGroup (c : Core) (bands : Nat) (g : GroupCheck) : Core × Option Nat :=
  match firstSum bands g.pass1, firstSum bands g.pass2 with
  | none, _ => (c, none)
  | some _, none => ({ c with softErr := c.softErr + 1 }, none)
  | some _, some n =>
    let cols := (g.cols.filter (· < 256)).dedup
    let room := 4 - c.remaps.length
    let c1 := { c with remaps := c.remaps ++ cols.take room }
    (c1, if room < cols.length then some n else firstSum bands g.pass3)

/-- The row groups in order, up to one that fails: the groups that pass, the array's record, and the failing sum. A group
that fails leaves itself and the later ones unwritten (DESIGN CHOICE, notes/assumptions/23). -/
def checkGroups (bands : Nat) : Nat → List GroupCheck → Core → Nat × Core × Option Nat
  | 0, _, c => (0, c, none)
  | n + 1, gs, c =>
    match c.checkGroup bands (gs.headD {}) with
    | (c1, some f) => (0, c1, some f)
    | (c1, none) =>
      let (k, c2, f) := checkGroups bands n gs.tail c1
      (k + 1, c2, f)

/-- What the checks of an operation leave: the core's array record, the rows that it writes, and its fault (R356, R357). -/
def State.checked (s : State) (core rows : Nat) (o : ArrOp) (chk : List GroupCheck) : State × Nat × Option Nat :=
  let (k, c, f) := checkGroups (bandsOf o.ashape) ((rows + 63) / 64) chk (s.core core)
  (s.modCore core fun _ => c, if f.isNone then rows else 64 * k, f)

/-- The fatal array fault of an operation's issuing warp (R357). -/
def State.arrayFault (s : State) (o : ArrOp) (g : Option Nat) : State :=
  match g, o.members with
  | some g, w :: _ => s.fatal w { code := 0x33, detail := 0x80 + g }
  | _, _ => s

/-- The effect of the oldest operation, with the array's checks on the products (R215, R355): the new state, the flags,
and the fault. None where the operation cannot complete yet. -/
def State.runArr (s : State) (core : Nat) (o : ArrOp) (chk : List GroupCheck) : Option (State × Nat × Option Nat) :=
  let running := match o.phase with
    | .running _ => true
    | _ => false
  match o.cmd with
  | .wld .. => none
  | .mma t r f z xp =>
    if !running then none
    else
      let sums := s.sumsDiffer core o r f xp
      let (s0, rows, bad) := s.checked core (if xp then (shapeOf r).cols else (shapeOf r).rows) o (addSums sums chk)
      let (s1, fl) := s0.runMma core o t r f z xp rows
      some (s1, fl, bad)
  | .smma t ra rc x z =>
    if !running then none
    else
      let (s0, rows, bad) := s.checked core (shapeOf ra).rows o chk
      let (s1, fl) := s0.runSmma core o t ra rc x z rows
      some (s1, fl, bad)
  | .tst t r f mode rnd sat se =>
    let (s1, fl) := s.runTst core o t r f mode rnd sat se
    some (s1, fl, none)
  | .tld t r f =>
    let (s1, fl) := s.runTld core o t r f
    some (s1, fl, none)
  | .tzero t n =>
    let b := s.blk o.blk
    some (s.modCore core fun c => c.zeroTiles ((span t n).map b.tileNo), 0, none)

/-- `ARRAY_OP_COMPLETE` (R215): the oldest operation of a core takes effect, in full
(DESIGN CHOICE, notes/assumptions/23). -/
def execArrayOpComplete (core : Nat) (chk : List GroupCheck) (s : State) : Host.Outcome State Fault Refusal :=
  match s.arrHead core with
  | none => .next s
  | some o =>
    match s.runArr core o chk with
    | none => .next s
    | some (s1, fl, bad) => .next ((s1.arrDone core o fl).arrayFault o bad)

end Sys2Proof.Machine
end

