-- ==== Sys2Proof/Machine/CopyOps.lean ====
section
/-! DEFINITION. Asynchronous copies (spec/07 R175 to R182, spec/12 R287). -/

namespace Sys2Proof.Machine

/-! ## Checks at issue (R175) -/

/-- Whether an operand's space is legal for a copy. -/
def copySpaceOk (p : Word) : Bool := spaceOf p < 5 || spaceOf p == 7 || spaceOf p == 8

/-- The first address of a vault range that fails, with its fault code (R153). -/
def vaultRange (r : CtxRec) (p : Word) (n : Nat) : Option (Nat × Word) :=
  let va := (p.extractLsb' 0 48).toNat
  let v := va / 2 ^ 40
  let o := va % 2 ^ 40
  let units := (List.range ((o % 65536 + n + 65535) / 65536)).map (o / 65536 + ·)
  let at_ (u : Nat) : Word := p + BitVec.ofNat 64 (u * 65536 - o)
  if n = 0 then none
  else if 160 ≤ v then some (0x13, p)
  else
    (units.take 769).findSome? fun u =>
      if 768 ≤ u then some (0x13, at_ u)
      else if vaultGranted r v (Nat.max o (u * 65536)) then none else some (0x11, at_ u)

/-- The check of a whole range at issue: space bits, vault grants, scratch and space bounds, and the peer of RMT. -/
def State.rangeFault (s : State) (w : Nat) (write : Bool) (p : Word) (n : Nat) : Option Trap :=
  let d := if write then 1 else 0
  let va := (p.extractLsb' 0 48).toNat
  let high := p.extractLsb' 48 12 != 0
  let past (lim : Nat) : Option Trap :=
    if n ≠ 0 ∧ lim < va + n then some ⟨0x13, d, p + BitVec.ofNat 64 (lim - va)⟩ else none
  match spaceOf p with
  | 0 | 1 | 2 | 8 => if high then some ⟨0x13, d, p⟩ else past (2 ^ 48)
  | 3 => if high then some ⟨0x13, d, p⟩ else (vaultRange (s.ctxOf w).crec p n).map fun f => ⟨f.1, d, f.2⟩
  | 4 => if high then some ⟨0x13, d, p⟩ else past ((s.blkOf w).scrKb * 1024)
  | 7 =>
    let dev := (p.extractLsb' 48 10).toNat
    if p.extractLsb' 58 2 != 0 then some ⟨0x13, d, p⟩
    else if dev != s.island.fw.deviceNum && !(s.ctxOf w).crec.peers.contains dev then some ⟨0x11, d, p⟩
    else past (2 ^ 48)
  | _ => some ⟨0x13, d, p⟩

/-- The checks of a copy's parts: lengths, alignment to k, spaces, then bounds. -/
def State.copyTrap (s : State) (w k : Nat) (noHost : Bool) (parts : List (Word × Word × Nat)) : Option Trap :=
  let align := parts.findSome? fun q =>
    if q.1.toNat % k ≠ 0 then some ⟨0x12, 1, q.1⟩
    else if q.2.1.toNat % k ≠ 0 then some ⟨0x12, 0, q.2.1⟩ else none
  let space := parts.findSome? fun q =>
    if !copySpaceOk q.1 || (noHost && spaceOf q.1 == 8) then some ⟨0x13, 1, q.1⟩
    else if !copySpaceOk q.2.1 then some ⟨0x13, 0, q.2.1⟩ else none
  let bounds := parts.findSome? fun q =>
    (s.rangeFault w true q.1 q.2.2).orElse fun _ => s.rangeFault w false q.2.1 q.2.2
  align.orElse fun _ => space.orElse fun _ => bounds

/-! ## Batches (R178) -/

/-- Adds an operation to the open batch of a register, opening one where there is none. -/
def Warp.addCopy (w : Warp) (reg id : Nat) : Warp :=
  if w.openBatch reg then
    { w with batches := w.batches.map fun (b : Batch) =>
        if b.reg == reg && !b.sealed then { b with ops := b.ops ++ [id] } else b }
  else { w with batches := w.batches ++ [{ reg, ops := [id] }] }

/-- Whether naming a register in a copy or `CSEAL` must wait: it would make a ninth batch (R178). -/
def Warp.batchFull (w : Warp) (reg : Nat) : Bool := !w.openBatch reg && 8 ≤ w.outstanding

/-- The targets of a copy over RMT and HST, each with the pointer that names it; lane 1 is a destination. -/
def State.copyTargets (s : State) (w : Nat) (parts : List (Word × Word × Nat)) : List FarAcc :=
  (parts.flatMap fun p => [(1, p.1), (0, p.2.1)]).filterMap fun p =>
    match (s.place w {} p.2).2 with
    | .ok q => (s.partnerOf q).map fun d => ⟨d, p.1, p.2, s.timer⟩
    | .error _ => none

/-- Starts a copy: its earlier loads have read (R281), it joins its batch, and it keeps the warp's floors and the releases
after which the warp issued it (R278, R287). -/
def State.startCopy (s : State) (w : Nat) (red : Bool) (a : Args) (parts : List (Word × Word × Nat)) : State :=
  let s0 := s.settleReads w
  let (id, s) := s0.fresh
  let s1 := s.noteFar w ((parts.map (·.2.2)).foldl Nat.max 0) id (s.copyTargets w parts)
  let x := s1.warp w
  { s1 with pend := mins s1.pend id (.copy w a.d.toNat red a x.ctx parts x.fl x.rels x.fpmode) }.modWarp w fun x =>
    x.addCopy a.d.toNat id

/-- The common effect of `CPY` and `CPYR`. -/
def State.copyRange (s : State) (g : Grp) (a : Args) (red : Bool) : Res :=
  let w := leaderOf g
  let n := if a.kc = .x then lenC a else s.sval g (srcC a)
  let parts := [(s.sval g (srcA a), s.sval g (srcB a 0), n.toNat)]
  if n.toNat % 16 ≠ 0 ∨ 2 ^ 32 < n.toNat then .trap s ⟨0x12, 0, n⟩
  else
    match s.copyTrap w 16 red parts with
    | some t => .trap s t
    | none => if (s.warp w).batchFull a.d.toNat then .stall s else .next (s.startCopy w red a parts)

/-- Effect of `CPY` (R176). -/
def effCpy (a : Args) (s : State) (g : Grp) : Res := s.copyRange g a false

/-- `CPY` (R176). -/
def execCpy (a : Args) (s : State) : Host.Outcome State Fault Refusal := s.issue .cpy a (effCpy a)

/-- Effect of `CPYR` (R177). -/
def effCpyr (a : Args) (s : State) (g : Grp) : Res := s.copyRange g a true

/-- `CPYR` (R177). -/
def execCpyr (a : Args) (s : State) : Host.Outcome State Fault Refusal := s.issue .cpyr a (effCpyr a)

/-- The common effect of `CPYG` and `CPYS`: one element of e bytes for each lane acted on. -/
def State.copyLanes (s : State) (g : Grp) (a : Args) (part : Nat → Nat → Word × Word) : Res :=
  let w := leaderOf g
  let e := (lenC a).toNat
  if !([4, 8, 16, 32, 64, 128].contains e) then .trap s (illegal 0x02)
  else
    let parts := (s.actedOf a (g.headD (0, 0))).map fun l => ((part e l).1, (part e l).2, e)
    match s.copyTrap w e false parts with
    | some t => .trap s t
    | none => if (s.warp w).batchFull a.d.toNat then .stall s else .next (s.startCopy w false a parts)

/-- Effect of `CPYG` (R176). -/
def effCpyg (a : Args) (s : State) (g : Grp) : Res :=
  s.copyLanes g a fun e l =>
    (s.sval g (srcA a) + BitVec.ofNat 64 (e * l), s.val (leaderOf g) (leaderOf g) l (srcB a 0))

/-- `CPYG` (R176). -/
def execCpyg (a : Args) (s : State) : Host.Outcome State Fault Refusal := s.issue .cpyg a (effCpyg a)

/-- Effect of `CPYS` (R176). -/
def effCpys (a : Args) (s : State) (g : Grp) : Res :=
  s.copyLanes g a fun e l =>
    (s.val (leaderOf g) (leaderOf g) l (srcA a), s.sval g (srcB a 0) + BitVec.ofNat 64 (e * l))

/-- `CPYS` (R176). -/
def execCpys (a : Args) (s : State) : Host.Outcome State Fault Refusal := s.issue .cpys a (effCpys a)

/-- The token of a batch of copies: ERR and SEQ (R178). -/
def copyToken (b : Batch) (err : Bool) : Word := BitVec.ofNat 64 (b.seq + (if err then 2 ^ 63 else 0))

/-- Seals the open batch of a register, or an empty one, with the next sequence number; an empty batch completes at
once. -/
def Warp.seal (w : Warp) (reg : Nat) : Warp :=
  let (seq, w1) := w.takeSeq
  let w2 := if w1.openBatch reg then
      { w1 with batches := w1.batches.map fun (b : Batch) =>
          if b.reg == reg && !b.sealed then { b with sealed := true, seq } else b }
    else { w1 with batches := w1.batches ++ [{ reg, seq, sealed := true }] }
  if (w2.batches.find? fun b => b.sealed && b.seq == seq).elim false fun b => b.ops.isEmpty then
    w2.complete seq fun b => { b with value := some (copyToken b b.err.isSome) }
  else w2

/-- Effect of `CSEAL` (R178). -/
def effCseal (a : Args) (s : State) (g : Grp) : Res :=
  let w := leaderOf g
  let reg := a.d.toNat
  if (s.warp w).batchFull reg then .stall s
  else .next ((s.trace w 6 (BitVec.ofNat 64 (s.warp w).nextSeq)).modWarp w fun x => x.seal reg)

/-- `CSEAL` (R178). -/
def execCseal (a : Args) (s : State) : Host.Outcome State Fault Refusal := s.issue .cseal a (effCseal a)

/-! ## Moving the data (R176, R177, R182) -/

/-- The pieces of a part: offset and length, cut at the destination's 128 B boundaries. -/
def piecesOf (dst : Word) : Nat → Nat → Nat → List (Nat × Nat)
  | 0, _, _ => []
  | k + 1, off, n =>
    if n ≤ off then []
    else
      let len := Nat.min (128 - (dst.toNat + off) % 128) (n - off)
      (off, len) :: piecesOf dst k (off + len) n

/-- What moving the data has made so far: the first failure, the flags, and the positions of the writes. -/
structure CopyAcc where
  st     : State
  err    : Option (Nat × Nat × Word) := none
  flags  : Nat := 0
  floors : SMap Nat := []
  rmtFl  : SMap Nat := []            -- of those over RMT to this device (R285)
  wait   : Bool := false             -- a write or a read must wait: the kerf, an offline die, or a held store
  cur    : Nat × Nat := (0, 0)       -- the copy and the number of the piece that moves
  bad    : List (Nat × Nat) := []    -- the pieces that failed
  deriving DecidableEq, Repr

/-- Records that the piece failed, and how if it is the first (R182). -/
def CopyAcc.fail (c : CopyAcc) (code detail : Nat) (addr : Word) : CopyAcc :=
  { c with err := c.err.orElse fun _ => some (code, detail, addr), bad := c.bad ++ [c.cur] }

/-- The source bytes of a piece that another device or the host answers with: free values, or its fault. -/
def State.copyFar (s : State) (p : Word) (ps : List Place) : State × Except (Nat × Nat × Word) (List Byte) :=
  let (free, s1) := s.freshFree
  match (farVas ps).findSome? (farFault free false) with
  | some f => (s1, .error (f.1, f.2, p))
  | none => (s1, .ok ((farVas ps).map fun v => Config.farByte free v.1 v.2))

/-- The source bytes of a piece in memory of this device, read at the floors of a copy, after what its warp put before it
(R176, R281, R287), under the policy of the pointer and CP (R166, R175). -/
def State.copyLocal (s : State) (w id : Nat) (fl : SMap Nat) (cp : BitVec 2) (p : Word) (ls : List Nat) :
    State × Except (Nat × Nat × Word) (List Byte) :=
  let k := s.coreOf w
  let pol := policyOf p cp
  let s0 := s.flushOwn w id ls
  let s1 := if pol == .bypass then s0.dropL1 k (dramLines ls).contains else s0
  let (s2, r) := s1.readHome 4 8 (s1.bankFloors (some k) fl ls) ls
  let s3 := if pol == .keep then s2.cacheL1 k ls false else s2
  match (ls.zipIdx).findSome? fun l => (r.poison [l.1]).map fun c => (l.2, c) with
  | some (i, c) => (s3, .error (0x14, 0x80 + 16 * c, p + BitVec.ofNat 64 i))
  | none => (s3, .ok (ls.map r.byte))

/-- The source bytes of a piece: a fault, or the bytes. -/
def State.copyRead (s : State) (w id : Nat) (fl : SMap Nat) (cp : BitVec 2) (p : Word) (n : Nat) :
    State × Except (Nat × Nat × Word) (List Byte) :=
  match s.places w {} p n with
  | (s1, .error e) => (s1, .error (e.code, e.detail ||| 0x80, e.addr))
  | (s1, .ok ps) =>
    match ps with
    | .host _ _ :: _ => s1.copyFar p ps
    | .remote d _ :: _ =>
      if d = s1.island.fw.deviceNum then
        match s1.loopPlaces (s1.warp w).ctx false p ((remoteVas ps).getD (0, [])).2 with
        | (s2, .error e) => (s2, .error (e.code, e.detail ||| 0x80, e.addr))
        | (s2, .ok ls) => s2.copyLocal w id fl cp p ls
      else s1.copyFar p ps
    | _ => s1.copyLocal w id fl cp p (memLocs ps)

/-- Where a piece goes: locations, and whether they are reached over RMT; or outside the device, with the flags that a `CPYR`
combination there raises. -/
inductive CopyTo where
  | here (ls : List Nat) (rmt : Bool)
  | away (flags : Nat)
  deriving DecidableEq, Repr

/-- The destination of a piece, or a fault. -/
def State.copyDest (s : State) (w : Nat) (a : Args) (p : Word) (n : Nat) : State × Except (Nat × Nat × Word) CopyTo :=
  let out (s : State) (ps : List Place) : State × Except (Nat × Nat × Word) CopyTo :=
    let (free, s1) := s.freshFree
    match farStore free p ps with
    | some e => (s1, .error e)
    | none => (s1, .ok (.away (farFlags free a ps)))
  match s.places w { write := true } p n with
  | (s1, .error e) => (s1, .error (e.code, e.detail ||| 0x80, e.addr))
  | (s1, .ok ps) =>
    match ps with
    | .host _ _ :: _ => out s1 ps
    | .remote d _ :: _ =>
      if d = s1.island.fw.deviceNum then
        match s1.loopPlaces (s1.warp w).ctx true p ((remoteVas ps).getD (0, [])).2 with
        | (s2, .error e) => (s2, .error (e.code, e.detail ||| 0x80, e.addr))
        | (s2, .ok ls) => (s2, .ok (.here ls true))
      else out s1 ps
    | _ => (s1, .ok (.here (memLocs ps) false))

/-- Whether a copy's write to locations waits: for the kerf, an offline die that is not lost, an earlier write of its warp
that is held, or a near-bank operation of its warp (R265, R281, R383). -/
def State.copyWaits (s : State) (w id : Nat) (fl : SMap Nat) (ls : List Nat) : Bool :=
  (rowsOf ls).any (fun r => !(s.kerfOf fl (some w) id r).isEmpty) || (ls.any fun l => s.offline (homeDie l) && !s.lostLoc l) ||
  (s.held.any fun h => h.wr.ws.contains w && h.id < id && h.bytes.any fun b => ls.contains b.1) || s.blocked w id ls

/-- Notes the positions of writes just made. -/
def CopyAcc.wrote (c : CopyAcc) (rmt : Bool) (ls : List Nat) : CopyAcc :=
  let ps := ls.map fun l => (l, c.st.mem.pos l)
  if rmt then { c with rmtFl := raiseTo c.rmtFl ps } else { c with floors := raiseTo c.floors ps }

/-- Combines the elements of a `CPYR` piece, each indivisibly at its home (R177). -/
def combineElems (a : Args) (rels : List Nat) (fp : Word) (rmt : Bool) (c : CopyAcc) :
    List (List Nat × List Byte) → CopyAcc
  | [] => c
  | (ls, bs) :: rest =>
    let (s1, r) := c.st.peekHome 4 ls
    let (new, fl) := redElem a.func.toNat a.ty fp a.rnd a.sat (r.value ls).toNat (natOfBytes bs)
    let s2 := s1.performPiece { rels } true 4 (ls.zip (bytesOf ls.length (BitVec.ofNat 64 new)))
    combineElems a rels fp rmt ({ c with st := s2, flags := c.flags ||| fl }.wrote rmt ls) rest

/-- Cuts a list into runs of k. -/
def chunks {α : Type} (k : Nat) : Nat → List α → List (List α)
  | 0, _ => []
  | n + 1, xs => if xs.isEmpty then [] else xs.take k :: chunks k n (xs.drop k)

/-- Moves one piece. A write to a die that is lost is its warp's late trap (R369, R383). -/
def movePiece (id w : Nat) (a : Args) (red : Bool) (fl : SMap Nat) (rels : List Nat) (fp : Word) (c : CopyAcc)
    (dst src : Word) (n : Nat) : CopyAcc :=
  match c.st.copyDest w a dst n with
  | (s1, .error e) => { c with st := s1 }.fail e.1 e.2.1 e.2.2
  | (s1, .ok dl) =>
    match s1.copyRead w id fl a.cp src n with
    | (s2, .error e) => { c with st := s2 }.fail e.1 e.2.1 e.2.2
    | (s2, .ok bs) =>
      let at_ (i : Nat) : Word := dst + BitVec.ofNat 64 i
      match dl with
      | .away flags => { c with st := s2, flags := if red then c.flags ||| flags else c.flags }
      | .here ls rmt =>
        let s2 := (s2.flushOwn w id ls).carry w true ls
        let c1 := { c with st := s2 }
        if s2.copyWaits w id fl ls then { c1 with wait := true }
        else if ls.any s2.lostLoc then
          { c1 with st := s2.modWarp w fun x => x.record ⟨0x14, 0xA1, at_ (ls.findIdx s2.lostLoc), .store⟩ }
        else if red then
          let e := a.ty.width / 8
          let (s3, bad) := s2.checkReads 4 ls
          if bad.isEmpty then
            combineElems a rels fp rmt { c1 with st := s3 } ((chunks e n ls).zip (chunks e n bs))
          else { c1 with st := s3 }.fail 0x14 0x80 (at_ (ls.findIdx fun l => bad.contains (unitOf l).1))
        else
          let s3 := (s2.recall ls).performWrite { rels } false 4 8 (ls.zip bs)
          let s4 := if policyOf dst a.cp == .keep then s3.cacheL1 (s3.coreOf w) ls true else s3
          { c1 with st := s4 }.wrote rmt ls

/-- A list in an order that is a free choice (R176). -/
def shuffled {α : Type} (free : Nat) (xs : List α) : List α :=
  xs.zipIdx.foldl (fun acc e => acc.insertIdx (Config.copyPick (free + e.2) % (acc.length + 1)) e.1) []

/-- How many free values are set aside for one piece, so that each piece meets the same ones whatever became of the others. -/
def pieceFree : Nat := 65536

/-- Moves a copy: its pieces in an order that is a free choice. With `skip`, the pieces that it lists write nothing, and any
other may be left out (R182). -/
def runCopy (skip : Option (List (Nat × Nat))) (id w : Nat) (a : Args) (parts : List (Word × Word × Nat)) (fl : SMap Nat)
    (rels : List Nat) (fp : Word) (red : Bool) (c : CopyAcc) : CopyAcc :=
  let ps := parts.flatMap fun q =>
    (piecesOf q.1 (q.2.2 / 128 + 2) 0 q.2.2).map fun e =>
      (q.1 + BitVec.ofNat 64 e.1, q.2.1 + BitVec.ofNat 64 e.1, e.2)
  let free := c.st.free + ps.length
  let at_ (i : Nat) (c : CopyAcc) : CopyAcc := { c with cur := (id, i), st := { c.st with free := free + pieceFree * i } }
  at_ ps.length ((shuffled c.st.free ps.zipIdx).foldl (fun c p =>
    if skip.any fun bad => bad.contains (id, p.2) || !Config.pieceWritten (free + p.2) then c
    else movePiece id w a red fl rels fp (at_ p.2 c) p.1.1 p.1.2.1 p.1.2.2) c)

/-- Runs every copy of a batch. A copy waits for the earlier held writes of its warp (R176). -/
def runBatch (skip : Option (List (Nat × Nat))) (w : Nat) (c : CopyAcc) : List Nat → CopyAcc
  | [] => c
  | id :: ids =>
    match mfind c.st.pend id with
    | some (.copy _ _ red a _ parts fl rels fp) =>
      if c.st.held.any fun h => h.wr.ws.contains w && h.id < id then { c with wait := true }
      else
        let c1 := runCopy skip id w a parts fl rels fp red c
        runBatch skip w { c1 with st := { c1.st with pend := mdel c1.st.pend id, far := mdel c1.st.far id } } ids
    | _ => runBatch skip w c ids

/-- Runs a batch: where a piece fails, the other pieces are written or not, in any combination, and the first failure
found is the one reported (R182). -/
def State.moveBatch (s : State) (w : Nat) (ids : List Nat) : CopyAcc :=
  let c := runBatch none w { st := s } ids
  if c.err.isNone || c.wait then c else { runBatch (some c.bad) w { st := s } ids with err := c.err, wait := false }

/-- What moving the data makes of a batch: its first failure, flags and the positions of its writes. -/
def Batch.moved (b : Batch) (c : CopyAcc) : Batch :=
  { b with
    ops := [], err := b.err.orElse fun _ => c.err, flags := b.flags ||| c.flags
    floors := joinFloors [b.floors, c.floors], rmtFl := joinFloors [b.rmtFl, c.rmtFl] }

/-- Moves the copies of a warp's open batches (R176, R181): their batches stay open. -/
def State.moveOpen (s : State) (w : Nat) : State :=
  ((s.warp w).batches.filter fun b => !b.sealed && !b.ops.isEmpty && !b.ops.any s.farHeld).foldl (fun s b =>
    let c := s.moveBatch w b.ops
    if c.wait then s
    else c.st.modWarp w fun x =>
      { x with batches := x.batches.map fun (d : Batch) => if d.reg == b.reg && !d.sealed then d.moved c else d }) s

/-- `COPY_BATCH_COMPLETE` (R178): every copy of a sealed batch completes, and the token value is written. The number 0,
which no sealed batch has, stands for the copies of the open batches. -/
def execCopyBatchComplete (w seq : Nat) (s : State) : Host.Outcome State Fault Refusal :=
  if seq = 0 then .next (s.moveOpen w)
  else
    match (s.warp w).batches.find? fun b => b.sealed && b.seq == seq && b.value.isNone with
    | none => .next s
    | some b =>
      if !b.ops.all (fun id => (match mfind s.pend id with
          | some (.copy ..) => true
          | _ => false)) || b.ops.any s.farHeld then .next s
      else
        let c := s.moveBatch w b.ops
        if c.wait then .next s
        else
          .next (c.st.modWarp w fun x => x.complete seq fun b =>
            { b.moved c with value := some (copyToken b (b.moved c).err.isSome) })

end Sys2Proof.Machine
end

