-- ==== Sys2Proof/Machine/CrossLane.lean ====
section
/-! DEFINITION. Cross-lane instructions 0x40 to 0x47 (spec/06 R142 to R148, spec/04 R98). Lane L of the concatenated
register is lane L mod 32 of the member with index L div 32 (R29). -/

namespace Sys2Proof.Machine

/-! ## Concatenated registers -/

/-- The first WARPID of the set or block of an instruction, and its number of warps; the warp itself at lane scope. -/
def State.xspan (s : State) (g : Grp) (a : Args) : Nat × Nat :=
  let w := s.warp (leaderOf g)
  let b := s.blk w.blk
  match a.scope with
  | .set => (w.wid / b.setw * b.setw, b.setw)
  | .block => (0, b.nwarps)
  | _ => (w.wid, 1)

/-- Number of lanes N (R142). -/
def State.xlanes (s : State) (g : Grp) (a : Args) : Nat := 32 * (s.xspan g a).2

/-- The position of a member's lane 0 in the concatenated register. -/
def State.xbase (s : State) (g : Grp) (a : Args) (m : Nat) : Nat := 32 * ((s.warp m).wid - (s.xspan g a).1)

/-- The member and lane of position L; none where the member has fully exited (R29). -/
def State.xfind (s : State) (g : Grp) (a : Args) (L : Nat) : Option (Nat × Nat) :=
  (g.find? fun m => (s.warp m.1).wid == (s.xspan g a).1 + L / 32).map fun m => (m.1, L % 32)

/-- The value of operand A at position L; zero where no member holds it. -/
def State.xval (s : State) (g : Grp) (a : Args) (L : Nat) : Word :=
  match s.xfind g a L with
  | none => 0
  | some (m, l) => s.val (leaderOf g) m l (srcA a)

/-- The positions acted on, ascending. -/
def State.xacted (s : State) (g : Grp) (a : Args) : List Nat :=
  g.flatMap fun m => (s.actedOf a m).map (s.xbase g a m.1 + ·)

/-- Writes a lane: whole, or the sub-element that SUB selects (R142). -/
def Warp.putLane (w : Warp) (sub : BitVec 4) (d l : Nat) (x : Word) : Warp :=
  match subElem sub with
  | none => w.vset d l x
  | some (ew, i) => w.vsetPart d l (setElem (w.vget d l) ew i (x.toNat % 2 ^ ew))

/-- Writes a function of the position to vD in every lane acted on. -/
def State.xwrite (s : State) (g : Grp) (a : Args) (f : Nat → Word) : State :=
  g.foldl (fun t m =>
    t.modWarp m.1 fun w =>
      (s.actedOf a m).foldl (fun w l => w.putLane a.sub a.d.toNat l (f (s.xbase g a m.1 + l))) w) s

/-- Operand B at position L: per lane, or the scalar, or IMM12 as given (R143). -/
def State.xB (s : State) (g : Grp) (a : Args) (imm : Word) (L : Nat) : Word :=
  match (s.xfind g a L) with
  | none => s.val (leaderOf g) (leaderOf g) 0 (srcB a imm)
  | some (m, l) => s.val (leaderOf g) m l (srcB a imm)

/-- k of `LROT` and `LBC`: B in the lowest lane acted on (R143). -/
def State.xK (s : State) (g : Grp) (a : Args) (imm : Word) : Word := s.xB g a imm ((s.xacted g a).headD 0)

/-! ## Poison (R368) -/

/-- The trap of a marked lane among positions of register r. -/
def State.xmarks (s : State) (g : Grp) (a : Args) (r : Nat) (ps : List Nat) : Option Trap :=
  ps.findSome? fun L =>
    match s.xfind g a L with
    | none => none
    | some (m, l) => if ((s.warp m).vmark r l).isSome then
        ((s.warp m).vmarkReg r).map fun k => ⟨k.code, k.detail, k.addr⟩ else none

/-- The poison check of `LSHUF`, `LROT` and `LBC`: the lanes of A that indices select, and the lanes of B that supply
them. -/
def State.xpoison (s : State) (g : Grp) (a : Args) (o : Op) (used : List Nat) (bLanes : List Nat) : Option Trap :=
  match s.xmarks g a a.a.toNat ((List.range (s.xlanes g a)).filter used.contains) with
  | some t => some t
  | none =>
    if a.kb = .v ∧ a.form ≠ .baseLit then s.xmarks g a a.b.toNat bLanes
    else s.srcTraps g (s.actedOf a) ((namedOpnds (rowOf o 0) a).filter fun q => q.2.1 != .v)

/-! ## Moves -/

/-- Source index of `LSHUF` for position L. -/
def State.shufIdx (s : State) (g : Grp) (a : Args) (L : Nat) : Nat := (s.xB g a (immOff a) L).toNat % 65536

/-- Source index of `LROT` for position L: L − k modulo N, k signed. -/
def State.rotIdx (s : State) (g : Grp) (a : Args) (L : Nat) : Nat :=
  (((L : Int) - (s.xK g a (immOff a)).toInt) % (s.xlanes g a : Int)).toNat

/-- Source index of `LBC`: k unsigned. -/
def State.bcIdx (s : State) (g : Grp) (a : Args) : Nat := (s.xK g a (a.imm.setWidth 64)).toNat

/-- The value moved to a lane from position j: zero for an index of N or more (R143). -/
def State.moved (s : State) (g : Grp) (a : Args) (j : Nat) : Word :=
  if j < s.xlanes g a then selSub a.sub (s.xval g a j) else 0

/-- Effect of `LSHUF` (R143). -/
def effLshuf (a : Args) (s : State) (g : Grp) : Res := .next (s.xwrite g a fun L => s.moved g a (s.shufIdx g a L))

/-- `LSHUF` (R143). -/
def execLshuf (a : Args) (s : State) : Host.Outcome State Fault Refusal :=
  .next (s.issueWith .lshuf a
    (fun s g => s.xpoison g a .lshuf ((s.xacted g a).map (s.shufIdx g a)) (s.xacted g a)) (effLshuf a))

/-- Effect of `LROT` (R143). -/
def effLrot (a : Args) (s : State) (g : Grp) : Res := .next (s.xwrite g a fun L => s.moved g a (s.rotIdx g a L))

/-- `LROT` (R143). -/
def execLrot (a : Args) (s : State) : Host.Outcome State Fault Refusal :=
  .next (s.issueWith .lrot a
    (fun s g => s.xpoison g a .lrot ((s.xacted g a).map (s.rotIdx g a)) ((s.xacted g a).take 1)) (effLrot a))

/-- Effect of `LBC` (R143). -/
def effLbc (a : Args) (s : State) (g : Grp) : Res := .next (s.xwrite g a fun _ => s.moved g a (s.bcIdx g a))

/-- `LBC` (R143). -/
def execLbc (a : Args) (s : State) : Host.Outcome State Fault Refusal :=
  .next (s.issueWith .lbc a
    (fun s g => s.xpoison g a .lbc (if (s.xacted g a).isEmpty then [] else [s.bcIdx g a]) ((s.xacted g a).take 1))
    (effLbc a))

/-! ## Reductions (R98, R144, R145) -/

/-- One round of the pairwise tree over present values. -/
def treeRound (f : Nat → Nat → Nat × Nat) : List (Option Nat) → List (Option Nat) × Nat
  | some x :: some y :: rest =>
    let r := f x y
    let (zs, fl) := treeRound f rest
    (some r.1 :: zs, r.2 ||| fl)
  | some x :: none :: rest => let (zs, fl) := treeRound f rest; (some x :: zs, fl)
  | none :: y :: rest => let (zs, fl) := treeRound f rest; (y :: zs, fl)
  | [x] => ([x], 0)
  | [] => ([], 0)

/-- The tree of R98; positions beyond the last are absent. The fuel bounds the rounds. -/
def tree (f : Nat → Nat → Nat × Nat) : Nat → List (Option Nat) → Option Nat × Nat
  | 0, xs => (xs.headD none, 0)
  | n + 1, xs =>
    match xs with
    | [] => (none, 0)
    | [x] => (x, 0)
    | _ =>
      let (ys, fl) := treeRound f xs
      let (r, fl') := tree f n ys
      (r, fl ||| fl')

/-- The exact integer operations of Table 6.4; the fold starts at the identity. -/
def intRed (func : Nat) : Int → Int → Int :=
  match func with
  | 0 => (· + ·)
  | 1 => min
  | _ => max

/-- Identity of an integer operation of a type (Table 6.4). -/
def intIdent (func : Nat) (t : EType) : Int := readInt (EType.signedInt t) t.width (redIdent func t 0)

/-- Whether a reduction acts on the whole bit pattern of a lane (Table 6.4: AND, OR, XOR). -/
def bitwiseRed (func : Nat) : Bool := func == 3 || func == 4 || func == 5

/-- A bitwise reduction of whole lanes. -/
def bitRed (func : Nat) (xs : List Word) : Word :=
  match func with
  | 3 => xs.foldl (· &&& ·) (BitVec.allOnes 64)
  | 4 => xs.foldl (· ||| ·) 0
  | _ => xs.foldl (· ^^^ ·) 0

/-- An integer reduction of lanes: exact over all of them and fitted once (R144). -/
def intReduce (func : Nat) (t : EType) (sat : Bool) (xs : List Word) : Word :=
  laneOfInt t ((List.range t.count).map fun i =>
    fitInt t sat (xs.foldl (fun acc x => intRed func acc (intElem t x i)) (intIdent func t)))

/-- A floating reduction by the tree over N positions: the lane and the flags. -/
def floatReduce (func : Nat) (a : Args) (fp : Word) (xs : List (Option Word)) : Word × Nat :=
  let t := a.ty
  let rs := (List.range t.count).map fun i =>
    let (r, fl) := tree (redElem func t fp a.rnd a.sat) xs.length (xs.map fun x => x.map fun y => elemAt y t.width i)
    (r.getD (redIdent func t fp), fl)
  (packElems t.width (rs.map (·.1)), rs.foldl (fun acc r => acc ||| r.2) 0)

/-- A result of a reduction as a scalar D holds it: a sub-element fills the register by its type (R142). -/
def scalarRed (a : Args) (x : Word) : Word :=
  match subElem a.sub with
  | none => x
  | some (w, _) =>
    if a.ty = .i32 then (x.setWidth 32).signExtend 64 else BitVec.ofNat 64 (x.toNat % 2 ^ w)

/-- The result of `LRED` (R144). At set and block scope the spec does not say whose FPMODE rounds: the leader's does, as in
`LSCAN` (DESIGN CHOICE, notes/assumptions/41). -/
def State.lredWord (s : State) (g : Grp) (a : Args) : Word × Nat :=
  let func := a.func.toNat
  let ps := s.xacted g a
  let x (L : Nat) : Word := selSub a.sub (s.xval g a L)
  if bitwiseRed func then (bitRed func (ps.map x), 0)
  else if func < 8 then (intReduce func a.ty a.sat (ps.map x), 0)
  else floatReduce func a (s.warp (leaderOf g)).fpmode
    ((List.range (s.xlanes g a)).map fun L => if ps.contains L then some (x L) else none)

/-- A result written to every lane acted on, or once to a scalar register (R144). -/
def State.xresult (s : State) (g : Grp) (a : Args) (x : Word) : State :=
  if a.kd = .v then s.xwrite g a fun _ => x else s.setScalar g a.kd a.d.toNat (scalarRed a x)

/-- Effect of `LRED` (R144): flags are set in every arrived member. -/
def effLred (a : Args) (s : State) (g : Grp) : Res :=
  let r := s.lredWord g a
  .next ((s.xresult g a r.1).modWarps g.ws fun w => w.setFlags r.2)

/-- `LRED` (R144). -/
def execLred (a : Args) (s : State) : Host.Outcome State Fault Refusal := s.issue .lred a (effLred a)

/-- The prefixes of a list under an operation with flags, inclusive or exclusive. -/
def scanWith {α : Type} (excl : Bool) (f : α → Word → α × Nat) : α → List Word → List α × Nat
  | _, [] => ([], 0)
  | run, x :: xs =>
    let r := f run x
    let (ys, fl) := scanWith excl f r.1 xs
    ((if excl then run else r.1) :: ys, r.2 ||| fl)

/-- The outputs of `LSCAN` for the lanes acted on, in order (R145). -/
def scanWords (a : Args) (fp : Word) (xs : List Word) : List Word × Nat :=
  let func := a.func.toNat % 128
  let excl := decide (128 ≤ a.func.toNat)
  let t := a.ty
  if bitwiseRed func then
    scanWith excl (fun run x => (bitRed func [run, x], 0)) (bitRed func []) xs
  else if func < 8 then
    let r := scanWith excl (fun (run : List Int) x =>
      (run.zipIdx.map fun e => intRed func e.1 (intElem t x e.2), 0)) (List.replicate t.count (intIdent func t)) xs
    (r.1.map fun es => laneOfInt t (es.map (fitInt t a.sat)), 0)
  else
    scanWith excl (fun run x => mapF t fun i =>
      redElem func t fp a.rnd a.sat (elemAt run t.width i) (elemAt x t.width i))
      (replicate t.width t.count (redIdent func t fp)) xs

/-- Effect of `LSCAN` (R145). -/
def effLscan (a : Args) (s : State) (g : Grp) : Res :=
  let ps := s.xacted g a
  let r := scanWords a (s.warp (leaderOf g)).fpmode (ps.map fun L => selSub a.sub (s.xval g a L))
  let at_ (L : Nat) : Word := ((ps.zip r.1).find? fun e => e.1 == L).elim 0 (·.2)
  .next ((s.xwrite g a at_).modWarps g.ws fun w => w.setFlags r.2)

/-- `LSCAN` (R145). -/
def execLscan (a : Args) (s : State) : Host.Outcome State Fault Refusal := s.issue .lscan a (effLscan a)

/-! ## Ballot, vote, permutation -/

/-- Effect of `BALLOT` (R146): D is written whole. -/
def effBallot (a : Args) (s : State) (g : Grp) : Res :=
  let k := a.imm.toNat
  if (s.xlanes g a + 63) / 64 ≤ k then .trap s (illegal 0x02)
  else
    let on := (s.xacted g a).filter fun L => L / 64 == k && selSub a.sub (s.xval g a L) != 0
    let x : Word := BitVec.ofNat 64 (on.foldl (fun acc L => acc + 2 ^ (L % 64)) 0)
    .next (if a.kd = .v then s.xwrite g { a with sub := 0 } fun _ => x else s.setScalar g a.kd a.d.toNat x)

/-- `BALLOT` (R146). -/
def execBallot (a : Args) (s : State) : Host.Outcome State Fault Refusal := s.issue .ballot a (effBallot a)

/-- Whether a vote holds over the values of the lanes acted on (R147). -/
def voteHolds (func : Nat) (xs : List Word) : Bool :=
  let nz := (xs.filter (· != 0)).length
  match func with
  | 0 => nz == xs.length
  | 1 => 0 < nz
  | 2 => nz == 0
  | 3 => xs.all (· == xs.headD 0)
  | _ => xs.length < 2 * nz

/-- Effect of `VOTE` (R147). -/
def effVote (a : Args) (s : State) (g : Grp) : Res :=
  let xs := (s.xacted g a).map fun L => selSub a.sub (s.xval g a L)
  .next (s.modWarps g.ws fun w =>
    w.pset a.d.toNat (if voteHolds a.func.toNat xs then BitVec.allOnes 32 else 0))

/-- `VOTE` (R147). -/
def execVote (a : Args) (s : State) : Host.Outcome State Fault Refusal := s.issue .vote a (effVote a)

/-- `SUBSW` on one lane (R148). -/
def subswWord (t : EType) (a b : Word) : Word :=
  packElems t.width ((List.range t.count).map fun j =>
    let sel := elemAt b 4 j
    if 8 ≤ sel || t.count ≤ sel % 8 then 0 else elemAt a t.width (sel % 8))

/-- Effect of `SUBSW` (R148). -/
def effSubsw (a : Args) (s : State) (g : Grp) : Res :=
  .next (s.elementwise g a (srcA a) (srcB a (immOff a)) ⟨.x, 0, 0⟩ fun x => (subswWord a.ty x.a x.b, 0))

/-- `SUBSW` (R148). -/
def execSubsw (a : Args) (s : State) : Host.Outcome State Fault Refusal := s.issue .subsw a (effSubsw a)

end Sys2Proof.Machine
end

