-- ==== Sys2Proof/Machine/Sync.lean ====
section
/-! DEFINITION. Counters, `PHASE`, barriers, edge queues and `WAIT` (spec/08 R185 to R206). -/

namespace Sys2Proof.Machine

/-! ## Counters (R192 to R196) -/

/-- The space and alignment that a counter must have (R192). -/
def counterTrap (p : Word) (write : Bool) : Option Trap :=
  let d := if write then 1 else 0
  if 2 < spaceOf p ∧ spaceOf p ≠ 7 then some ⟨0x13, d, p⟩
  else if p &&& 7 ≠ 0 then some ⟨0x12, d, p⟩ else none

/-- The place of a counter at an address: every fault is precise (R193) (DEDUCED, notes/assumptions/21). -/
def State.counterPlace (s : State) (w : Nat) (write : Bool) (p : Word) : State × Except Trap CtrPlace :=
  match counterTrap p write with
  | some t => (s, .error t)
  | none =>
    match s.places w { write } p 8 with
    | (s1, .error e) => (s1, .error e.trap)
    | (s1, .ok ps) =>
      match ps with
      | .mem l :: _ => (s1, .ok (.home l))
      | .remote d va :: _ =>
        (s1, .ok (if d = s1.island.fw.deviceNum then .loop ((remoteVas ps).getD (0, [])).2 else .far d va s1.timer))
      | _ => (s1, .ok (.far 0 0 0))

/-- The address of a counter instruction: A + IMM12 (R193). -/
def State.counterAddr (s : State) (g : Grp) (a : Args) : Word := s.sval g (srcA a) + immOff a

/-- Whether an acquire of members must wait for reads of theirs that passes hold (DEDUCED, notes/assumptions/12). -/
def State.acqWaits (s : State) (ws : List Nat) : Bool := ws.any s.readsWait

/-- The places of a counter on another device. -/
def farCounter (partner va : Nat) : List Place := (span va 8).map (Place.remote partner)

/-- The late fault of a `CSIG` to a counter on another device, as access number `free` (R174, R195). -/
def farSignal (free : Nat) (p : Word) (partner va : Nat) : Option (Nat × Nat × Word) :=
  if Config.farFault free partner va % 8 = 4 then some (0x18, 0x80, p) else farStore free p [.remote partner va]

/-- Posts an increment: counted in the store class of the issuing warp until its home has performed it (R195)
(DEDUCED, notes/assumptions/21). -/
def State.postCsig (s : State) (g : Grp) (p inc : Word) (at_ : CtrPlace) : State :=
  let w := leaderOf g
  let wr := s.writer g.ws
  let (id, s1) := s.fresh
  let put (s : State) (q : Pend) : State :=
    { s with pend := mins s.pend id q }.modWarp w fun x => { x with stCnt := x.stCnt + 1 }
  match at_ with
  | .home l => put s1 (.csig w wr p l inc.toNat)
  | .loop vas =>
    match s1.loopPlaces (s.warp w).ctx true p vas with
    | (s2, .error e) => put s2 (.store w true (some (e.code, e.detail ||| 1, p)) none)
    | (s2, .ok ls) => put s2 (.csig w { wr with rmt := true } p (ls.headD 0) inc.toNat)
  | .far d va _ =>
    let (free, s2) := s1.freshFree
    put (s2.noteFar w 8 id [⟨d, 0, p, s.timer⟩]) (.store w true (farSignal free p d va) none)

/-- Effect of `CSIG` (R194): a release where it has one, then the posted increment. -/
def effCsig (a : Args) (s : State) (g : Grp) : Res :=
  let w := leaderOf g
  let p := s.counterAddr g a
  let rel := a.func == 1
  match s.counterPlace w true p with
  | (s1, .error t) => .trap s1 t
  | (s1, .ok at_) =>
    if 255 ≤ (s.warp w).stCnt || (rel && s.relWaits g.ws (scopeOf a.sub.toNat)) then .stall s
    else
      let s2 := if rel then (s1.release g.ws (scopeOf a.sub.toNat)).1 else s1
      .next ((s2.trace w 5 p).postCsig g p (s.sval g (srcC a)) at_)

/-- `CSIG` (R194). -/
def execCsig (a : Args) (s : State) : Host.Outcome State Fault Refusal := s.issue .csig a (effCsig a)

/-- `COUNTER_INCREMENT` (R194): the posted increment is performed at its home, after what its warp put before it. -/
def execCounterIncrement (id : Nat) (s : State) : Host.Outcome State Fault Refusal :=
  match mfind s.pend id with
  | some (.csig w _ _ l _) =>
    if s.blocked w id (span l 8) then .next s else .next ((s.flushOwn w id (span l 8)).performCsig id)
  | _ => .next s

/-- Reads a counter wherever it lies. -/
def State.readCtr (s : State) (g : Grp) (p : Word) (at_ : CtrPlace) : State × Word × Option Mark :=
  let w := leaderOf g
  match at_ with
  | .home l => (s.flushOwn w s.nextId (span l 8)).readCounter g.ws p l
  | .loop vas =>
    match s.loopPlaces (s.warp w).ctx false p vas with
    | (s1, .error e) => (s1, 0x7FC00D0D, some ⟨p, e.detail, e.code⟩)
    | (s1, .ok ls) => (s1.flushOwn w s1.nextId ls).readCounter g.ws p (ls.headD 0)
  | .far d va _ =>
    let (free, s1) := s.freshFree
    let (x, m) := farLoad free false p (farCounter d va)
    (s1, if m.isSome then 0x7FC00D0D else x, m)

/-- Writes what a counter instruction saw into s`d` of every member, with its poison mark. -/
def State.putSeen (s : State) (g : Grp) (d : Nat) (x : Word) (m : Option Mark) : State :=
  g.ws.foldl (fun s w => s.regPut w (.s d) 0 x true m) s

/-- The locations of a counter on this device. -/
def CtrPlace.locs : CtrPlace → List Nat
  | .home l => span l 8
  | _ => []

/-- Whether a read of a counter by members must wait: for a write of theirs that is held, for what their own order puts
before it (R281), or for the reads that an acquire comes after. -/
def State.ctrWaits (s : State) (g : Grp) (a : Args) (at_ : CtrPlace) : Bool :=
  (a.func == 2 && s.acqWaits g.ws) || s.ownHeld g.ws at_.locs || g.ws.any fun w => s.blocked w s.nextId at_.locs

/-- Whether a counter lies behind a path that is held (R381). -/
def State.ctrHeld (s : State) (at_ : CtrPlace) : Bool :=
  match at_ with
  | .far d _ _ => s.pathHeld d
  | _ => false

/-- The acquire of a counter instruction, where it has one. -/
def State.ctrAcquire (s : State) (g : Grp) (a : Args) : State :=
  if a.func = 2 then s.acquire g.ws (scopeOf a.sub.toNat) else s

/-- Members wait at a counter, each with the instruction. -/
def State.parkOn (s : State) (g : Grp) (a : Args) (deadline : Option Nat) (p target : Word) (at_ : CtrPlace) : State :=
  (s.modWarps g.ws fun x => { x with park := .follow (leaderOf g) }).modWarp (leaderOf g) fun x =>
    { x with park := .cwait deadline g a p target at_, unmapAt := none }

/-- Effect of `CREAD` (R194). With an acquire the counter is read as the instruction completes; without one, at some
instant until D is written. Behind a path that is held, one with an acquire waits as a `CWAIT` for any value does (R381). -/
def effCread (a : Args) (s : State) (g : Grp) : Res :=
  let w := leaderOf g
  let p := s.counterAddr g a
  let d := a.d.toNat
  match s.counterPlace w false p with
  | (s1, .error t) => .trap s1 t
  | (s1, .ok at_) =>
    if s.ctrWaits g a at_ then .stall s
    else
      let s2 := s1.trace w 5 p
      let held := s.ctrHeld at_
      if a.func = 2 ∧ held then .parked (s2.parkOn g a none p 0 at_)
      else if a.func = 2 then
        let (s3, x, m) := s2.readCtr g p at_
        .next ((s3.putSeen g d x m).ctrAcquire g a)
      else
        match at_ with
        | .home l =>
          let (id, s3) := s2.fresh
          .next ({ s3 with pend := mins s3.pend id (.cread w p l d) }.modWarp w fun x => x.await (.s d))
        | .far q _ _ =>
          let (s3, x, m) := s2.readCtr g p at_
          let (id, s4) := s3.fresh
          let r : RegVal := { reg := .s d, lane := 0, val := x, mark := m }
          .next ({ s4.noteFar w 8 id [⟨q, 0, p, s.timer⟩] with pend := mins s4.pend id (.result w [r] 0 false) }.modWarp w fun y =>
            y.await (.s d))
        | _ =>
          let (s3, x, m) := s2.readCtr g p at_
          .next (s3.putSeen g d x m)

/-- `CREAD` (R194). -/
def execCread (a : Args) (s : State) : Host.Outcome State Fault Refusal := s.issue .cread a (effCread a)

/-- Whether what a `CWAIT` has read ends its wait: the target, unsigned, poison, or the deadline (R194, R371). -/
def State.cwaitMet (s : State) (target x : Word) (m : Option Mark) (deadline : Option Nat) : Bool :=
  m.isSome || target.toNat ≤ x.toNat || deadline.elim false (· ≤ s.timer)

/-- Effect of `CWAIT` (R194): the warp is parked, with its counter and target as they are now (R55), unless the counter,
poison or the deadline ends the wait. -/
def effCwait (a : Args) (s : State) (g : Grp) : Res :=
  let w := leaderOf g
  let p := s.counterAddr g a
  match s.counterPlace w false p with
  | (s1, .error t) => .trap s1 t
  | (s1, .ok at_) =>
    if s.ctrWaits g a at_ then .stall s
    else
      let target := s.sval g (srcC a)
      let hasB := a.kb != .v
      let deadline := if hasB then some ((s.warp w).deadline.getD (s.timer + (s.sval g (srcB a 0)).toNat)) else none
      let s2 := (s1.trace w 5 p).modWarps g.ws fun x => { x with deadline := none }
      let wait := s.ctrHeld at_
      let (s3, x, m) := if wait then (s2, 0, none) else s2.readCtr g p at_
      if !wait && s.cwaitMet target x m deadline then .next ((s3.putSeen g a.d.toNat x m).ctrAcquire g a)
      else .parked (s3.parkOn g a deadline p target at_)

/-- `CWAIT` (R194). -/
def execCwait (a : Args) (s : State) : Host.Outcome State Fault Refusal := s.issue .cwait a (effCwait a)

/-- Re-reads the counter of a waiting `CWAIT` and, where a test accepts what it reads, ends the wait (R194, R196). The
wait of a warp that has stopped does not end (R352) (DEDUCED, notes/assumptions/21). -/
def State.cwaitTry (s : State) (w : Nat) (test : Word → Word → Option Mark → Option Nat → Bool) : State :=
  match (s.warp w).park with
  | .cwait deadline g a p target at_ =>
    if s.waitKept w || s.ctrHeld at_ then s
    else
      let (s1, x, m) := s.readCtr g p at_
      if test target x m deadline then ((s1.putSeen g a.d.toNat x m).ctrAcquire g a).pass g (argBytes a) else s
  | _ => s

/-- `CWAIT_WAKE` (R196): the counter has reached the target, or gives poison (R371). -/
def execCwaitWake (w : Nat) (s : State) : Host.Outcome State Fault Refusal :=
  .next (s.cwaitTry w fun target x m _ => s.cwaitMet target x m none)

/-- `CWAIT_TIMEOUT` (R194): TIMER has reached the deadline. -/
def execCwaitTimeout (w : Nat) (s : State) : Host.Outcome State Fault Refusal :=
  .next (s.cwaitTry w fun _ _ _ deadline => deadline.elim false (· ≤ s.timer))

/-- `CWAIT_POLL` (R192): the waiting core re-reads the counter, which ends the wait as a wake or a deadline does. -/
def execCwaitPoll (w : Nat) (s : State) : Host.Outcome State Fault Refusal :=
  .next (s.cwaitTry w fun target x m deadline => s.cwaitMet target x m deadline)

/-! ## PHASE (R205) -/

/-- Effect of `PHASE` (R205): a release, an acquire, or both in that order. -/
def effPhase (a : Args) (s : State) (g : Grp) : Res :=
  let sc := scopeOf a.sub.toNat
  let rel := a.func != 2
  let acq := a.func != 1
  if (rel && s.relWaits g.ws sc) || (acq && s.acqWaits g.ws) then .stall s
  else
    let s1 := if rel then (s.release g.ws sc).1 else s
    .next (if acq then s1.acquire g.ws sc else s1)

/-- `PHASE` (R205). -/
def execPhase (a : Args) (s : State) : Host.Outcome State Fault Refusal := s.issue .phase a (effPhase a)

/-! ## Barriers (R186 to R190) -/

/-- The level of a `BAR` (Table 8.2). -/
def barLevel (a : Args) : Nat := (a.imm.extractLsb' 4 2).toNat

/-- The barrier of a `BAR` (Table 8.2). -/
def barId (a : Args) : Nat := (a.imm.extractLsb' 0 4).toNat

/-- Whether the barrier is a grid barrier of a stage that did not declare their use (R190). -/
def State.gridUndeclared (s : State) (w : Nat) (a : Args) : Bool :=
  barLevel a == 2 && !(s.stageOf (s.blkOf w)).lrec.gridbar

/-- Arrives: a release, the arrival, and the generation's completion where it is the last (R188). -/
def State.barArrive (s : State) (g : Grp) (lvl id : Nat) : State :=
  let w := leaderOf g
  let b := (s.warp w).blk
  let u := s.unitNo w lvl
  let (s1, rel) := s.release g.ws (levelScope lvl)
  let x := s1.bar b lvl id
  let y : Bar := { x with arr := x.arr ||| 2 ^ u, rels := x.rels ++ [rel] }
  (s1.setBar b lvl id y).barCheck b lvl id (some w)

/-- Waits: the members are parked while their unit's arrival stands in the open generation; otherwise they observe the
releases of the generation of its last arrival, and acquire (R188, R278). -/
def State.barWait (s : State) (g : Grp) (lvl id : Nat) : Res :=
  let w := leaderOf g
  let x := s.bar (s.warp w).blk lvl id
  let u := s.unitNo w lvl
  if x.arr.testBit u then .parked (s.modWarps g.ws fun y => { y with park := .bar lvl id })
  else .next ((s.observe g.ws (mget [] x.past u)).acquire g.ws (levelScope lvl))

/-- What stops an arrival: a unit that is no member; a second arrival, which issues again after the open generation and
which no watchdog counts (R188, R190, R349); what the release must wait for. -/
def State.barStop (s : State) (g : Grp) (a : Args) : Option Res :=
  let w := leaderOf g
  let lvl := barLevel a
  let x := s.bar (s.warp w).blk lvl (barId a)
  let u := s.unitNo w lvl
  if s.gridUndeclared w a || !x.mem.testBit u then some (.trap s (illegal 0x16))
  else if x.arr.testBit u then
    some (.parked (s.modWarps g.ws fun y => { y with park := .barAgain lvl (barId a) }))
  else if s.relWaits g.ws (levelScope lvl) then some (.stall s)
  else none

/-- Effect of `BAR.ARV` (R188). -/
def effBarArv (a : Args) (s : State) (g : Grp) : Res :=
  match s.barStop g a with
  | some r => r
  | none => .next (s.barArrive g (barLevel a) (barId a))

/-- `BAR.ARV` (R188). -/
def execBarArv (a : Args) (s : State) : Host.Outcome State Fault Refusal := s.issue .barArv a (effBarArv a)

/-- Effect of `BAR.WT` (R188). -/
def effBarWt (a : Args) (s : State) (g : Grp) : Res :=
  if s.gridUndeclared (leaderOf g) a then .trap s (illegal 0x16)
  else if s.acqWaits g.ws then .stall s
  else s.barWait g (barLevel a) (barId a)

/-- `BAR.WT` (R188). -/
def execBarWt (a : Args) (s : State) : Host.Outcome State Fault Refusal := s.issue .barWt a (effBarWt a)

/-- Effect of `BAR.MEET` (R188): `ARV`, then `WT`. One that a save withdrew while it waited has arrived: it waits only (R190;
DEDUCED, notes/assumptions/42). -/
def effBarMeet (a : Args) (s : State) (g : Grp) : Res :=
  if (s.warp (leaderOf g)).met = some (s.warp (leaderOf g)).pc then
    if s.acqWaits g.ws then .stall s
    else (s.modWarps g.ws fun x => { x with met := none }).barWait g (barLevel a) (barId a)
  else
    match s.barStop g a with
    | some r => r
    | none =>
      if s.acqWaits g.ws then .stall s
      else (s.barArrive g (barLevel a) (barId a)).barWait g (barLevel a) (barId a)

/-- `BAR.MEET` (R188). -/
def execBarMeet (a : Args) (s : State) : Host.Outcome State Fault Refusal := s.issue .barMeet a (effBarMeet a)

/-- The units of a level that exist and have not exited or retired, as a mask (R189). -/
def State.unitsAlive (s : State) (w lvl : Nat) : Nat :=
  let k := s.blkOf w
  if lvl = 0 then ((s.liveWarps (s.warp w).blk).map fun v => 2 ^ (s.warp v).wid).foldl (· ||| ·) 0
  else
    (s.blocks.filter fun e => e.2.ctx == k.ctx && e.2.lnum == k.lnum && e.2.cluster == k.cluster).foldl
      (fun acc e => acc ||| 2 ^ e.2.bid) 0

/-- Effect of `BAR.MEMB` (R189). -/
def effBarMemb (a : Args) (s : State) (g : Grp) : Res :=
  let w := leaderOf g
  let lvl := barLevel a
  let id := barId a
  let b := (s.warp w).blk
  let m := (s.sval g (srcA a)).toNat
  let x := s.bar b lvl id
  if s.gridUndeclared w a then .trap s (illegal 0x16)
  else if lvl = 2 ∨ (lvl = 0 ∧ id = 0) ∨ x.arr ≠ 0 ∨ m = 0 ∨ (if lvl = 0 then 2 ^ 32 else 256) ≤ m ∨
      m ||| s.unitsAlive w lvl ≠ s.unitsAlive w lvl then .trap s (illegal 0x17)
  else .next (s.setBar b lvl id { x with mem := m })

/-- `BAR.MEMB` (R189). -/
def execBarMemb (a : Args) (s : State) : Host.Outcome State Fault Refusal := s.issue .barMemb a (effBarMemb a)

/-- What `BAR.QRY` returns (R189); a count of more than 255 units is cut to the field (DESIGN CHOICE, notes/assumptions/15). -/
def barWord (lvl : Nat) (x : Bar) : Word :=
  let narr := Nat.min (unitsIn x.arr).length 255
  let nmem := Nat.min (unitsIn x.mem).length 255
  BitVec.ofNat 64 (x.gen * 2 ^ 48 + narr * 2 ^ 40 + nmem * 2 ^ 32 + (if lvl = 2 then 0 else x.mem % 2 ^ 32))

/-- Effect of `BAR.QRY` (R189). -/
def effBarQry (a : Args) (s : State) (g : Grp) : Res :=
  let w := leaderOf g
  if s.gridUndeclared w a then .trap s (illegal 0x16)
  else .next (s.setScalar g .s a.d.toNat (barWord (barLevel a) (s.bar (s.warp w).blk (barLevel a) (barId a))))

/-- `BAR.QRY` (R189). -/
def execBarQry (a : Args) (s : State) : Host.Outcome State Fault Refusal := s.issue .barQry a (effBarQry a)

/-! ## Edge queues (R201 to R204) -/

/-- The fields of a control line (R201). -/
structure QLine where
  res    : Nat
  pubh   : Nat
  taken  : Nat
  freed  : Nat
  set_   : QSet
  deriving DecidableEq, Repr

/-- Whether NSLOT or SLOTSZ is outside its range (R360). -/
def QLine.bad (q : QLine) : Bool :=
  q.set_.nslot < 2 || 65536 < q.set_.nslot || q.set_.slotsz % 16 != 0 || q.set_.slotsz < 16 || 65536 < q.set_.slotsz

/-- The misuse trap of an edge queue (R204) (DEDUCED, notes/assumptions/25). -/
def queueMisuse (detail : Nat) : Trap := { code := 0x19, detail }

/-- Reads the first n bytes of a control line at its home for the members of an `EQ`, or the trap of its poison (R360). -/
def State.readLine (s : State) (g : Grp) (p : Word) (l n : Nat) : State × Except Trap QLine :=
  let ls := span l n
  let (s1, r) := (s.flushOwn (leaderOf g) s.nextId ls).peekHome 0 ls
  let s2 := s1.hasRead g.ws r
  match r.poison ls with
  | some c => (s2, .error ⟨0x14, 16 * c, p⟩)
  | none =>
    let f (o : Nat) : Nat := (r.value (span (l + o) 8)).toNat
    (s2, .ok ⟨f 0, f 8, f 16, f 24, { nslot := f 32, slotsz := f 40, base := r.value (span (l + 48) 8) }⟩)

/-- The place of a queue's control line. -/
def State.linePlace (s : State) (w : Nat) (write : Bool) (p : Word) : State × Except Trap Nat :=
  let d := if write then 1 else 0
  if 2 < spaceOf p then (s, .error ⟨0x13, d, p⟩)
  else if p &&& 63 ≠ 0 then (s, .error ⟨0x12, d, p⟩)
  else
    match s.places w { write } p 8 with
    | (s1, .error e) => (s1, .error e.trap)
    | (s1, .ok ps) => (s1, .ok ((memLocs ps).headD 0))

/-- Whether the counts let an `EQ` act (R203). -/
def QLine.ready (q : QLine) (o : Op) (sq n : Nat) : Bool :=
  match o with
  | .eqResv => q.res + n ≤ q.set_.nslot + q.freed
  | .eqPub => q.pubh == sq
  | .eqTake => q.taken + n ≤ q.pubh
  | _ => q.freed == sq

/-- Offset and old value of the count that an `EQ` advances. -/
def QLine.count (q : QLine) (o : Op) : Nat × Nat :=
  match o with
  | .eqResv => (0, q.res)
  | .eqPub => (8, q.pubh)
  | .eqTake => (16, q.taken)
  | _ => (24, q.freed)

/-- A stage appends the clusters that an advance of PUBH allows (R298). -/
def Stage.appendFor (st : Stage) (pubh : Nat) : Stage :=
  let k := ((st.queues[st.trigQ]?).getD {}).trigK
  let n := Nat.min ((pubh - st.trigBase) / k) st.lrec.clusters
  { st with appended := Nat.max st.appended n }

/-- The truss scheduler sees a value of PUBH of a queue: each triggered stage that the queue launches appends clusters
to the context's placement queue (R298). -/
def State.sawPubh (s : State) (c : Nat) (truss : Word) (q pubh : Nat) : State :=
  s.modCtx c fun x =>
    let grow (st : Stage) : Stage :=
      if st.lrec.trig && !st.done && st.lrec.truss == truss && st.trigQ == q then st.appendFor pubh else st
    let new := x.stages.flatMap fun st =>
      (span st.appended ((grow st).appended - st.appended)).map fun k => (st.lnum, k, s.timer)
    { x with stages := x.stages.map grow, queue := x.queue ++ new, headAt := if x.queue.isEmpty then s.timer else x.headAt }

/-- An `EQ` acts on the counts, as one indivisible update, and completes (R203). -/
def State.eqAct (s : State) (g : Grp) (o : Op) (a : Args) (l : Nat) (q : QLine) (n : Nat) : State :=
  let w := leaderOf g
  let (off, old) := q.count o
  let ls := span (l + off) 8
  let s1 := s.performPiece (s.writer g.ws) true 0 (ls.zip (bytesOf 8 (BitVec.ofNat 64 (old + n))))
  match o with
  | .eqPub =>
    let b := s.blkOf w
    s1.sawPubh b.ctx (s.stageOf b).lrec.truss a.imm.toNat (old + n)
  | .eqFree => s1
  | _ => (s1.setScalar g .s a.d.toNat (BitVec.ofNat 64 old)).acquire g.ws .dev

/-- The misuse of an `EQ` (R204): the queue's owner, the counts. -/
def eqBad (o : Op) (q : QLine) (sq n : Nat) : Option Trap :=
  if q.bad then some (queueMisuse 0x06)
  else if n = 0 ∨ q.set_.nslot < n then some (queueMisuse 0x03)
  else if o = .eqPub ∧ (sq < q.pubh ∨ q.res < sq + n) then some (queueMisuse 0x04)
  else if o = .eqFree ∧ (sq < q.freed ∨ q.taken < sq + n) then some (queueMisuse 0x05)
  else none

/-- The queue of an `EQ`, declared and owned by the stage (R204). -/
def State.eqQueue (s : State) (w : Nat) (o : Op) (a : Args) : Except Trap QueueEnt :=
  let b := s.blkOf w
  match (s.stageOf b).queues[a.imm.toNat]? with
  | none => .error (queueMisuse 0x01)
  | some q =>
    let prod := o == .eqResv || o == .eqPub
    let cons := o == .eqTake || o == .eqFree
    if (prod && q.prod != b.stage) || (cons && q.cons != b.stage) then .error (queueMisuse 0x02) else .ok q

/-- The common effect of `RESV`, `PUB`, `TAKE` and `FREE` (R203). -/
def State.eqOp (s : State) (g : Grp) (o : Op) (a : Args) : Res :=
  let w := leaderOf g
  match s.eqQueue w o a with
  | .error t => .trap s t
  | .ok ent =>
    match s.linePlace w true ent.ctrl with
    | (s1, .error t) => .trap s1 t
    | (s1, .ok l) =>
      let rel := o == .eqPub || o == .eqFree
      if s1.atomHeld w (span l 64) || (rel && s.relWaits g.ws .dev) || (!rel && s.acqWaits g.ws) then .stall s
      else
        match s1.readLine g ent.ctrl l 64 with
        | (s2, .error t) => .trap s2 t
        | (s2, .ok q) =>
          let sq := (s.sval g (srcA a)).toNat
          let n := (s.sval g (srcB a 0)).toNat
          match eqBad o q sq n with
          | some t => .trap s2 t
          | none =>
            let s3 := if rel then (s2.release g.ws .dev).1 else s2
            if q.ready o sq n then .next (s3.eqAct g o a l q n)
            else
              .parked ((s3.modWarps g.ws fun x => { x with park := .follow w }).modWarp w fun x =>
                { x with park := .eqWait g o a sq n q.set_ })

/-- Effect of `EQ.RESV` (R203). -/
def effEqResv (a : Args) (s : State) (g : Grp) : Res := s.eqOp g .eqResv a

/-- `EQ.RESV` (R203). -/
def execEqResv (a : Args) (s : State) : Host.Outcome State Fault Refusal := s.issue .eqResv a (effEqResv a)

/-- Effect of `EQ.PUB` (R203). -/
def effEqPub (a : Args) (s : State) (g : Grp) : Res := s.eqOp g .eqPub a

/-- `EQ.PUB` (R203). -/
def execEqPub (a : Args) (s : State) : Host.Outcome State Fault Refusal := s.issue .eqPub a (effEqPub a)

/-- Effect of `EQ.TAKE` (R203). -/
def effEqTake (a : Args) (s : State) (g : Grp) : Res := s.eqOp g .eqTake a

/-- `EQ.TAKE` (R203). -/
def execEqTake (a : Args) (s : State) : Host.Outcome State Fault Refusal := s.issue .eqTake a (effEqTake a)

/-- Effect of `EQ.FREE` (R203). -/
def effEqFree (a : Args) (s : State) (g : Grp) : Res := s.eqOp g .eqFree a

/-- `EQ.FREE` (R203). -/
def execEqFree (a : Args) (s : State) : Host.Outcome State Fault Refusal := s.issue .eqFree a (effEqFree a)

/-- The value that `EQ.STAT` selects (R202). -/
def QLine.stat (q : QLine) (sel : Nat) : Word :=
  match sel with
  | 0 => BitVec.ofNat 64 q.res
  | 1 => BitVec.ofNat 64 q.pubh
  | 2 => BitVec.ofNat 64 q.taken
  | 3 => BitVec.ofNat 64 q.freed
  | 4 => BitVec.ofInt 64 ((q.set_.nslot : Int) - (q.res - q.freed))
  | _ => BitVec.ofInt 64 ((q.pubh : Int) - q.taken)

/-- Effect of `EQ.STAT` (R203). -/
def effEqStat (a : Args) (s : State) (g : Grp) : Res :=
  let w := leaderOf g
  match s.eqQueue w .eqStat a with
  | .error t => .trap s t
  | .ok ent =>
    match s.linePlace w false ent.ctrl with
    | (s1, .error t) => .trap s1 t
    | (s1, .ok l) =>
      if s.ownHeld g.ws (span l 64) || s.blocked w s.nextId (span l 64) then .stall s
      else
      match s1.readLine g ent.ctrl l 64 with
      | (s2, .error t) => .trap s2 t
      | (s2, .ok q) =>
        if q.bad then .trap s2 (queueMisuse 0x06)
        else .next (s2.setScalar g .s a.d.toNat (q.stat a.sub.toNat))

/-- `EQ.STAT` (R203). -/
def execEqStat (a : Args) (s : State) : Host.Outcome State Fault Refusal := s.issue .eqStat a (effEqStat a)

/-- The control line of a waiting `EQ`, translated as it stands now (R123), with the first n bytes of the line read. -/
def State.lineAgain (s : State) (g : Grp) (o : Op) (a : Args) (n : Nat) : State × Except Trap (Nat × QLine) :=
  let w := leaderOf g
  match s.eqQueue w o a with
  | .error t => (s, .error t)
  | .ok ent =>
    match s.linePlace w true ent.ctrl with
    | (s1, .error t) => (s1, .error t)
    | (s1, .ok l) =>
      match s1.readLine g ent.ctrl l n with
      | (s2, .error t) => (s2, .error t)
      | (s2, .ok q) => (s2, .ok (l, q))

/-- `EQ_WAIT_SATISFIED` (R203): the four counts, read anew, allow a waiting `EQ`, which updates them and completes; all else
is as it was when it issued (R201, R55). A line that is no longer mapped, and counts that give poison, trap at the `EQ`
(R378, R360). The wait of a warp that has stopped does not end (R352). -/
def execEqWaitSatisfied (w : Nat) (s : State) : Host.Outcome State Fault Refusal :=
  match (s.warp w).park with
  | .eqWait g o a sq n set_ =>
    if s.waitKept w then .next s
    else
      match s.lineAgain g o a 32 with
      | (s1, .error t) => .next (s1.trapSet (Grp.ws g) t)
      | (s1, .ok (l, q0)) =>
        let q := { q0 with set_ }
        if q.ready o sq n && !s.atomHeld w (span l 64) then .next ((s1.eqAct g o a l q n).pass g (argBytes a)) else .next s
  | _ => .next s

/-! ## WAIT (R206) -/

/-- The writes of the completed `TST` that a tile limit covers pass into the warp's floors (R288). -/
def Warp.tileFloors (w : Warp) (limit : Nat) : Warp :=
  let due := w.tileDone.filter fun e => e.1 + limit ≤ w.tileSeq
  { w with
    floors := due.foldl (fun fl e => raiseTo fl e.2) w.floors
    tileDone := w.tileDone.filter fun e => !(e.1 + limit ≤ w.tileSeq) }

/-- Effect of `WAIT` (R206): with a tile limit that covers them, the warp's stores by `TST` pass into its floors (R288). -/
def effWait (a : Args) (s : State) (g : Grp) : Res :=
  let w := leaderOf g
  if !waitMet a (s.warp w) then .stall s
  else .next (s.modWarp w fun x => x.tileFloors a.b.toNat)

/-- `WAIT` (R206). -/
def execWait (a : Args) (s : State) : Host.Outcome State Fault Refusal := s.issue .wait a (effWait a)

end Sys2Proof.Machine
end

