-- ==== Sys2Proof/Machine/Bank.lean ====
section
/-! DEFINITION. Compute at the banks: near-bank operations (spec/11 R247 to R256, spec/12 R289). -/

namespace Sys2Proof.Machine

/-! ## Ranges (R248) -/

/-- The translation of a range of device memory, 16 KiB at a time: each part's leaf and the location of its start. -/
def State.rangeParts (s : State) (c : Nat) (write : Bool) (p : Word) :
    Nat → Nat → State × Except XFault (List (Word × Word × Nat))
  | 0, _ => (s, .ok [])
  | k + 1, i =>
    let q := if i = 0 then p else p - BitVec.ofNat 64 (p.toNat % 16384) + BitVec.ofNat 64 (16384 * i)
    match s.translate c false { write } q (q.extractLsb' 0 48).toNat with
    | (s1, .error e) => (s1, .error e)
    | (s1, .ok (e, dpa)) =>
      match s1.devPlace c { write } q dpa with
      | .error f => (s1, .error f)
      | .ok _ =>
        match s1.rangeParts c write p k (i + 1) with
        | (s2, .error f) => (s2, .error f)
        | (s2, .ok xs) => (s2, .ok ((q, e, dpa / 16384 * 16384) :: xs))

/-- How many 16 KiB parts a range touches. -/
def partCount (p : Word) (n : Nat) : Nat := if n = 0 then 0 else (p.toNat % 16384 + n + 16383) / 16384

/-- A range as a bank-side operation names it. -/
structure Rng where
  p     : Word
  n     : Nat
  write : Bool
  deriving DecidableEq, Repr

/-- Steps 1, 3 and 4 of R248 on one range each. -/
def State.rngSpace (s : State) (w : Nat) (g : Rng) : Option Trap :=
  if 2 < spaceOf g.p then some ⟨0x13, if g.write then 1 else 0, g.p⟩ else s.rangeFault w g.write g.p g.n

/-- The first part of a written range on an interleaved page (R248 step 4): DETAIL bit 2. -/
def rngIL (g : Rng) (parts : List (Word × Word × Nat)) : Option Trap :=
  if g.write then (parts.find? fun e => !e.2.1.getLsbD 5).map fun e => ⟨0x11, 0x05, e.1⟩ else none

/-- Translates ranges in turn. -/
def State.rngParts (s : State) (c : Nat) : List Rng → State × Except Trap (List (List (Word × Word × Nat)))
  | [] => (s, .ok [])
  | g :: gs =>
    match s.rangeParts c g.write g.p (partCount g.p g.n) 0 with
    | (s1, .error e) => (s1, .error e.trap)
    | (s1, .ok xs) =>
      match s1.rngParts c gs with
      | (s2, .error t) => (s2, .error t)
      | (s2, .ok xss) => (s2, .ok (xs :: xss))

/-- The checks of R248 for ranges, `align` being step 2: the starts of the parts of each. -/
def State.rngCheck (s : State) (w : Nat) (gs : List Rng) (align : Option Trap) :
    State × Except Trap (List (List Nat × Bool)) :=
  match (gs.findSome? (s.rngSpace w)).orElse fun _ => align with
  | some t => (s, .error t)
  | none =>
    match s.rngParts (s.warp w).ctx gs with
    | (s1, .error t) => (s1, .error t)
    | (s1, .ok xss) =>
      match (gs.zip xss).findSome? fun e => rngIL e.1 e.2 with
      | some t => (s1, .error t)
      | none => (s1, .ok (xss.map fun xs => (xs.map fun e => e.2.2, xs.all fun e => e.2.1.getLsbD 5)))

/-- Whether a location lies in the n bytes of a range, from the starts of its parts. -/
def inRange (p : Word) (starts : List Nat) (n l : Nat) : Bool :=
  starts.zipIdx.any fun e =>
    e.1 ≤ l && l < e.1 + 16384 &&
      (let o := 16384 * e.2 + (l - e.1)
       p.toNat % 16384 ≤ o && o < p.toNat % 16384 + n)

/-- What a bank-side operation does to the caches at issue, its release made: the issuing core's L1 drops its copies of the
range, the home slices write back theirs, and memory holds what the release covers there (R249, R387). -/
def State.beneath (s : State) (w : Nat) (mine : Nat → Bool) : State :=
  let s1 := (s.dropL1 (s.coreOf w) fun line => (List.range 4).any fun j => mine (128 * line + 32 * j)).writeBack mine
  { s1 with mem := { s1.mem with bank := raiseTo s1.mem.bank ((s1.warp w).floors.filter fun e => mine e.1) } }

/-! ## Journal rows (R270) -/

/-- Whether a context's operations are journalled now. -/
def State.jrnOn (s : State) (c : Nat) : Bool := (s.ctx c).jrn.isOpen && (s.ctx c).jrn.closing.isNone

/-- The rows that a context's step has copied or reserved. -/
def State.jrnRows (s : State) (c : Nat) : List Nat :=
  let j := (s.ctx c).jrn
  let nbs := s.pend.flatMap fun e => match e.2 with
    | .nb _ _ _ _ pa _ ra _ len _ _ _ _ => if j.ops.contains e.1 then (rangeRows pa ra len).map (·.2) else []
    | _ => []
  let ps := s.regions.flatMap fun g => if g.passes.any fun p => j.ops.contains p.id then g.rows else []
  (j.rows.map (·.1) ++ j.owed.map (·.1) ++ nbs ++ ps).dedup

/-- The first row that finds no free journal row in its bank, of 256 (R270). -/
def jrnFit (used : SMap Nat) : List (Word × Nat) → Option Word
  | [] => none
  | (p, r) :: rest =>
    let b := (physRM r).bankKey
    if 256 ≤ mget 0 used b then some p else jrnFit (mset 0 used b (mget 0 used b + 1)) rest

/-- The journal-full trap of an operation that would journal rows (R270). -/
def State.jrnTrap (s : State) (c : Nat) (rows : List (Word × Nat)) : Option Trap :=
  if s.jrnOn c then
    let own := (s.jrnRows c).filter fun r => (mfind (s.ctx c).jrn.owed r).isNone
    let all := s.ctxs.flatMap fun e => s.jrnRows e.1
    let used : SMap Nat := all.foldl (fun m r => let b := (physRM r).bankKey; mset 0 m b (mget 0 m b + 1)) []
    (jrnFit used (rows.filter fun r => !own.contains r.2)).map fun p => { code := 0x1A, addr := p }
  else none

/-- Adds an operation to the step that journals it, once. -/
def State.jrnAdd (s : State) (c id : Nat) : State :=
  if s.jrnOn c && !(s.ctx c).jrn.ops.contains id then s.modCtx c fun x => { x with jrn := { x.jrn with ops := x.jrn.ops ++ [id] } } else s

/-! ## NB at issue (R250, R251, R253) -/

/-- Whether a FUNC writes memory: AXPY, SCALE and FILL. -/
def nbWrites (func : Nat) : Bool := func == 1 || func == 2 || func == 4

/-- The alignment that `NB` asks of its ranges and its length (R251). -/
def nbAlign (wr : Bool) (gs : List Rng) (len : Word) : Option Trap :=
  (gs.findSome? fun g => if g.p.toNat % 32 ≠ 0 then some ⟨0x12, if g.write then 1 else 0, g.p⟩ else none).orElse fun _ =>
    if len.toNat % 32 ≠ 0 ∨ 2 ^ 32 < len.toNat then some ⟨0x12, if wr then 1 else 0, len⟩ else none

/-- The placement rule of AXPY (R251): every column of y and the column of x at its offset lie in one bank, x on
row-mapped pages, and the ranges are identical or disjoint (DEDUCED, notes/assumptions/29). -/
def axpyPlace (py : Word) (ys : List Nat) (px : Word) (xs : List Nat) (xRM : Bool) (n : Nat) : Option Trap :=
  let offs := (List.range (n / 32)).map (32 * ·)
  let yl := offs.map (locAt py ys)
  let xl := offs.map (locAt px xs)
  let bad (p : Word) : Option Trap := some ⟨0x11, 0x09, p⟩
  if yl != xl && yl.any xl.contains then bad py
  else
    match offs.find? fun o => !xRM || (physRM (locAt py ys o)).bankKey != (physRM (locAt px xs o)).bankKey with
    | none => none
    | some o => bad (py + BitVec.ofNat 64 o)

/-- Issues a near-bank operation: a release at dev, the caches give up its ranges, then its own sealed batch on D (R249,
R253). -/
def State.startNb (s : State) (g : Grp) (func : Nat) (a : Args) (pa pb : Word) (ra rb : List Nat) (len : Nat) : Res :=
  let w := leaderOf g
  let x := s.warp w
  let rows := if nbWrites func then rangeRows pa ra len else []
  match s.jrnTrap x.ctx rows with
  | some t => .trap s t
  | none =>
    if 255 ≤ x.bankCnt || 8 ≤ x.outstanding || s.relWaits [w] .dev then .stall s
    else
      let alpha := s.sval g (srcD a)
      let s1 := (s.release [w] .dev).1.beneath w fun l => inRange pa ra len l || (func ≤ 1 && inRange pb rb len l)
      let (id, s2) := s1.fresh
      let (seq, y) := (s2.warp w).ownBatch a.d.toNat id
      let s3 := (s2.setWarp w { y with bankCnt := y.bankCnt + 1 }).trace w 6 (BitVec.ofNat 64 seq)
      let q : Pend := .nb w seq func a pa pb ra rb len alpha x.fpmode y.fl y.rels
      let s4 := { s3 with pend := mins s3.pend id q }
      .next (if nbWrites func then s4.jrnAdd x.ctx id else s4)

/-- The common effect of `NB`. -/
def State.nbIssue (s : State) (g : Grp) (func : Nat) (a : Args) : Res :=
  let w := leaderOf g
  let wr := nbWrites func
  let pa := s.sval g (srcA a)
  let pb := s.sval g (srcB a 0)
  let len := if a.kc = .x then lenC a else s.sval g (srcC a)
  let n := len.toNat
  let gs : List Rng := { p := pa, n, write := wr } :: (if func ≤ 1 then [{ p := pb, n, write := false }] else [])
  match s.rngCheck w gs (nbAlign wr gs len) with
  | (s1, .error t) => .trap s1 t
  | (s1, .ok rs) =>
    let (ra, _) := rs.getD 0 ([], true)
    let (rb, rm) := rs.getD 1 ([], true)
    match (if func = 1 then axpyPlace pa ra pb rb rm n else none) with
    | some t => .trap s1 t
    | none => s1.startNb g func a pa pb ra rb n

/-- Effect of `NB.DOT` at issue. -/
def effNbDot (a : Args) (s : State) (g : Grp) : Res := s.nbIssue g 0 a

/-- `NB.DOT` (R250, R252). -/
def execNbDot (a : Args) (s : State) : Host.Outcome State Fault Refusal := s.issue .nbDot a (effNbDot a)

/-- Effect of `NB.AXPY` at issue. -/
def effNbAxpy (a : Args) (s : State) (g : Grp) : Res := s.nbIssue g 1 a

/-- `NB.AXPY` (R250, R252). -/
def execNbAxpy (a : Args) (s : State) : Host.Outcome State Fault Refusal := s.issue .nbAxpy a (effNbAxpy a)

/-- Effect of `NB.SCALE` at issue. -/
def effNbScale (a : Args) (s : State) (g : Grp) : Res := s.nbIssue g 2 a

/-- `NB.SCALE` (R250, R252). -/
def execNbScale (a : Args) (s : State) : Host.Outcome State Fault Refusal := s.issue .nbScale a (effNbScale a)

/-- Effect of `NB.SUM` at issue. -/
def effNbSum (a : Args) (s : State) (g : Grp) : Res := s.nbIssue g 3 a

/-- `NB.SUM` (R250, R252). -/
def execNbSum (a : Args) (s : State) : Host.Outcome State Fault Refusal := s.issue .nbSum a (effNbSum a)

/-- Effect of `NB.FILL` at issue. -/
def effNbFill (a : Args) (s : State) (g : Grp) : Res := s.nbIssue g 4 a

/-- `NB.FILL` (R250, R252). -/
def execNbFill (a : Args) (s : State) : Host.Outcome State Fault Refusal := s.issue .nbFill a (effNbFill a)

/-- Effect of `NB.CMPZ` at issue. -/
def effNbCmpz (a : Args) (s : State) (g : Grp) : Res := s.nbIssue g 5 a

/-- `NB.CMPZ` (R250, R252). -/
def execNbCmpz (a : Args) (s : State) : Host.Outcome State Fault Refusal := s.issue .nbCmpz a (effNbCmpz a)

/-! ## The arithmetic (R252) -/

/-- The running values of a near-bank operation: FP32 partial sums, integer partial sums, the count, the flags, the first
failure, the positions of its writes, and whether it has stopped. -/
structure NbAcc where
  st     : State
  p      : List Nat
  q      : List Int
  cnt    : Nat := 0
  flags  : Nat := 0
  err    : Option (Nat × Nat × Word) := none
  floors : SMap Nat := []
  stop   : Bool := false
  deriving DecidableEq, Repr

/-- The elements of a column of 32 B. -/
def colElems (ty : EType) (bs : List Byte) : List Nat :=
  let k := ty.width / 8
  (List.range (32 / k)).map fun i => natOfBytes ((bs.drop (k * i)).take k)

/-- The bytes of a column from its elements. -/
def colBytes (ty : EType) (xs : List Nat) : List Byte := xs.flatMap (leBytes (ty.width / 8))

/-- `acc` of R252 on FP32 partial sum p: the product or the element, added and rounded RNE. -/
def nbAccum (f : FFmt) (nanp : Bool) (x : Nat) (y : Option Nat) (p : Nat) : Nat × Nat :=
  let a := decodeF f x
  let c := decodeF .f32 p
  match y with
  | none => finishOp .f32 .rne false nanp [a, c] (xadd .rne c a)
  | some y =>
    let b := decodeF f y
    let (r, fl) := finishOp .f32 .rne false nanp [a, b, c] ((xmul a b).bind fun t => xadd .rne c t)
    (r, fl ||| nvMul a b)

/-- The new element of AXPY (`y` the element of x at the same place) or SCALE (none), with one rounding. -/
def nbScaled (ty : EType) (fp : Word) (rnd : Rnd) (sat : Bool) (alpha : Word) (x : Option Nat) (y : Nat) : Nat × Nat :=
  if ty.isFloat then
    let f := fmtOf fp ty
    let al := decodeF .f32 (elemAt alpha 32 0)
    let b := decodeF f y
    let mode := rndOf fp rnd
    match x with
    | none => finishOp f mode sat (fpNanp fp) [al, b] (xmul al b)
    | some x =>
      let a := decodeF f x
      let (r, fl) := finishOp f mode sat (fpNanp fp) [al, a, b] ((xmul al a).bind fun t => xadd mode t b)
      (r, fl ||| nvMul al a)
  else
    let i (z : Nat) : Int := readInt (EType.signedInt ty) ty.width z
    match x with
    | none => (fitInt ty sat (alpha.toInt * i y), 0)
    | some x => (fitInt ty sat (alpha.toInt * i x + i y), 0)

/-- Whether an element counts for CMPZ: the zeros of a floating type do not. -/
def nbNonzero (ty : EType) (fp : Word) (x : Nat) : Bool :=
  if ty.isFloat then !(decodeF (fmtOf fp ty) x).isZero else x != 0

/-- Adds one column to the partial sums or the count of a reading form. -/
def nbSums (func : Nat) (ty : EType) (fp : Word) (c : NbAcc) (xs : List Nat) (ys : Option (List Nat)) : NbAcc :=
  if func = 5 then { c with cnt := c.cnt + (xs.filter (nbNonzero ty fp)).length }
  else if ty.isFloat then
    let rs := (List.range xs.length).map fun l =>
      nbAccum (fmtOf fp ty) (fpNanp fp) (xs.getD l 0) (ys.map fun y => y.getD l 0) (c.p.getD l 0)
    { c with p := rs.map (·.1), flags := rs.foldl (fun acc r => acc ||| r.2) c.flags }
  else
    let i (z : Nat) : Int := readInt (EType.signedInt ty) ty.width z
    { c with q := (List.range xs.length).map fun l =>
        c.q.getD l 0 + i (xs.getD l 0) * (match ys with
          | none => 1
          | some y => i (y.getD l 0)) }

/-! ## Columns at the bank -/

/-- What a column read or written by a near-bank operation costs, in femtojoules: 0.02 nJ (R268). -/
def nbColFj : Nat := 20000

/-- Reads a column as one indivisible event, under floors (R255, R289): each location with the position and byte of the
write read, or the source class of its poison. -/
def State.readCol (s : State) (fl : SMap Nat) (l : Nat) : State × Except Nat (List (Nat × Nat × Byte)) :=
  let ls := span l 32
  let s0 := s.recall ls
  if s0.offline (homeDie l) then (s0, .error 2)
  else
    let (s1, bad) := s0.checkReads 2 ls
    if bad.isEmpty then
      ({ s1 with free := s1.free + 1 }, .ok (s1.mem.readPiece (s1.mem.cutOf (s1.bankFloors none fl ls) s1.free ls) ls))
    else (s1, .error 0)

/-- Reads the newest bytes of a column that the unit is about to write back. -/
def State.takeCol (s : State) (l : Nat) : State × Except Nat (List (Nat × Nat × Byte)) :=
  let ls := span l 32
  let s0 := s.recall ls
  if s0.offline (homeDie l) then (s0, .error 2)
  else
    let (s1, bad) := s0.checkReads 2 ls
    if bad.isEmpty then (s1, .ok (ls.map fun x => (x, s1.mem.pos x, s1.mem.byte x))) else (s1, .error 0)

/-- Writes a column at the bank, which then holds it, journalled first where the step asks for it (R249, R255, R270). -/
def State.putCol (s : State) (c : Nat) (jrn : Bool) (rels : List Nat) (l : Nat) (bs : List Byte) : State :=
  let s1 := if jrn then s.jrnCopy c (memRow l) else s
  (((s1.recall (span l 32)).performPiece { rels } true 2 ((span l 32).zip bs)).bankWrote (span l 32)).charge c nbColFj

/-- Charges a context for a column that has been read; none is where its die is offline (R268). -/
def chargeRead {α : Type} (c : Nat) (r : State × Except Nat α) : State × Except Nat α :=
  match r with
  | (s1, .error 2) => (s1, .error 2)
  | (s1, x) => (s1.charge c nbColFj, x)

/-- One column of a near-bank operation: the columns it reads are both checked before either is used (R252, R254), each is
a read of the warp (R289), and where both ranges name one column it is read once (R255). -/
def nbColumn (w func c : Nat) (a : Args) (alpha fp : Word) (fl : SMap Nat) (rels : List Nat) (jrn : Bool) (acc : NbAcc)
    (p q : Word) (la lb : Nat) : NbAcc :=
  let fail (s : State) (k : Nat) (q : Word) : NbAcc :=
    { acc with
      st := s, err := acc.err.orElse fun _ => some (0x14, 0x80 + 16 * k, q)
      stop := !nbWrites func }
  let put (acc : NbAcc) (rs : List (Nat × Nat)) : NbAcc :=
    let s1 := acc.st.putCol c jrn rels la (colBytes a.ty (rs.map (·.1)))
    { acc with
      st := s1, flags := rs.foldl (fun f r => f ||| r.2) acc.flags
      floors := raiseTo acc.floors ((span la 32).map fun l => (l, s1.mem.pos l)) }
  if func = 4 then put acc (List.replicate (256 / a.ty.width) (alpha.toNat % 2 ^ a.ty.width, 0))
  else
    let (s1, xa) := chargeRead c (if nbWrites func then acc.st.takeCol la else acc.st.readCol fl la)
    let (s2, xb) := if 1 < func then (s1, .ok []) else if la = lb then (s1, xa) else chargeRead c (s1.readCol fl lb)
    match xa, xb with
    | .error k, _ => fail s2 k p
    | _, .error k => fail s2 k q
    | .ok ra, .ok rb =>
      let xs := colElems a.ty (ra.map fun e => e.2.2)
      let ys := colElems a.ty (rb.map fun e => e.2.2)
      let acc1 : NbAcc := { acc with st := s2.hasRead [w] { rs := ra ++ rb, bad := [] } }
      match func with
      | 0 => nbSums 0 a.ty fp acc1 xs (some ys)
      | 1 => put acc1 ((xs.zip ys).map fun e => nbScaled a.ty fp a.rnd a.sat alpha (some e.2) e.1)
      | 2 => put acc1 (xs.map fun y => nbScaled a.ty fp a.rnd a.sat alpha none y)
      | _ => nbSums func a.ty fp acc1 xs none

/-- Every column of a range, in address order, until a reading form stops (R254). -/
def nbLoop (w func c : Nat) (a : Args) (alpha fp : Word) (fl : SMap Nat) (rels : List Nat) (jrn : Bool) (pa pb : Word)
    (ra rb : List Nat) : Nat → Nat → NbAcc → NbAcc
  | 0, _, acc => acc
  | k + 1, o, acc =>
    if acc.stop then acc
    else
      nbLoop w func c a alpha fp fl rels jrn pa pb ra rb k (o + 32)
        (nbColumn w func c a alpha fp fl rels jrn acc (pa + BitVec.ofNat 64 o) (pb + BitVec.ofNat 64 o)
          (locAt pa ra o) (locAt pb rb o))

/-- The result of a reading form: the value and the flags of the final tree. -/
def nbResult (func : Nat) (ty : EType) (fp : Word) (acc : NbAcc) : Word × Nat :=
  if func = 5 then (BitVec.ofNat 64 acc.cnt, 0)
  else if ty.isFloat then
    let (r, fl) := tree (redElem 0x08 .f32 fp .rne false) acc.p.length (acc.p.map some)
    (BitVec.ofNat 64 (r.getD 0), fl)
  else (BitVec.ofNat 64 (fitInt .i64 false (acc.q.foldl (· + ·) 0)), 0)

/-- What the completion of an operation makes of its batch (R253, R254). -/
def nbBatch (func : Nat) (ty : EType) (fp : Word) (acc : NbAcc) (b : Batch) : Batch :=
  let base := { b with ops := [], flags := acc.flags, floors := acc.floors }
  if nbWrites func then
    { base with err := acc.err, value := some (nbToken b.seq acc.err.isSome false) }
  else
    match acc.err with
    | some e =>
      { base with
        value := some (if func ≠ 5 ∧ ty.isFloat then 0x7FC00D0D else 0)
        mark := some ⟨e.2.2, e.2.1, 0x14⟩ }
    | none =>
      let (x, fl) := nbResult func ty fp acc
      { base with value := some x, flags := acc.flags ||| fl }

/-- Whether a near-bank operation's write meets rows that a pass holds, or a row of an earlier write of its warp that is
held (R265, R281). -/
def State.nbHeld (s : State) (w id : Nat) (fl : SMap Nat) (rows : List (Word × Nat)) : Bool :=
  rows.any fun r => !(s.kerfOf fl (some w) id r.2).isEmpty ||
    s.held.any fun h => h.wr.ws.contains w && h.id < id && h.bytes.any fun b => memRow b.1 == r.2

/-- `NB_COMPLETE` (R252, R253): the operation runs at the bank and D receives its result or status; a writing form is
journalled where a step is open as it reaches the controller (R270), waits for the passes that hold its rows, and is
cancelled where a row's die is offline (R265, R383) (DEDUCED, notes/assumptions/29). -/
def execNbComplete (id : Nat) (s : State) : Host.Outcome State Fault Refusal :=
  match mfind s.pend id with
  | some (.nb w seq func a pa pb ra rb len alpha fp fl rels) =>
    let rows := rangeRows pa ra len
    let c := (s.warp w).ctx
    let done (s : State) (f : Batch → Batch) : State :=
      (({ s with pend := mdel s.pend id }.modWarpAny w fun x =>
        { x.complete seq f with bankCnt := x.bankCnt - 1 })).jrnDone id
    if nbWrites func && rows.any (fun r => s.offline (homeDie r.2)) then
      .next (done s fun b => { b with ops := [], value := some (nbToken seq false true) })
    else if nbWrites func && s.nbHeld w id fl rows then .next s
    else
      let n := 32 / (a.ty.width / 8)
      let s1 := if nbWrites func then s.jrnAdd c id else s
      let acc := nbLoop w func c a alpha fp fl rels ((s1.ctx c).jrn.ops.contains id) pa pb ra rb (len / 32) 0
        { st := s1, p := List.replicate n 0, q := List.replicate n 0 }
      .next (done acc.st (nbBatch func a.ty fp acc))
  | _ => .next s

end Sys2Proof.Machine
end

