-- ==== Sys2Proof/Machine/Launch.lean ====
section
/-! DEFINITION. `LAUNCH` (spec/05 R122, spec/13 R293 to R295), placement (R297, R298, R304), the retirement of blocks and
the completion of stages (R299), and the resident dispatcher (R296). -/

namespace Sys2Proof.Machine

/-! ## Reading structures (R122) -/

/-- A byte of a structure of a context: DEV, DEVS, DEVU or VLT. -/
def State.recByte (s : State) (c : Nat) (h : How) (p : Word) : State × Except XFault Nat :=
  let va := (p.extractLsb' 0 48).toNat
  let d := h.detail
  if 3 < spaceOf p ∨ p.extractLsb' 48 12 ≠ 0 then (s, .error ⟨0x13, d, p⟩)
  else if spaceOf p = 3 then
    let v := va / 2 ^ 40
    let o := va % 2 ^ 40
    if 160 ≤ v ∨ 0x3000000 ≤ o then (s, .error ⟨0x13, d, p⟩)
    else if vaultGranted (s.ctx c).crec v o then (s, .ok (vaultLoc v o))
    else (s, .error ⟨0x11, d, p⟩)
  else
    match s.devByte c h p va with
    | (s1, .error e) => (s1, .error e)
    | (s1, .ok (.mem l)) => (s1, .ok l)
    | (s1, .ok _) => (s1, .error ⟨0x11, d, p⟩)

/-- The locations of n bytes of a structure: the first byte that fails decides. -/
def State.recLocs (s : State) (c : Nat) (h : How) (p : Word) : Nat → State × Except XFault (List Nat)
  | 0 => (s, .ok [])
  | n + 1 =>
    match s.recLocs c h p n with
    | (s1, .error e) => (s1, .error e)
    | (s1, .ok ls) =>
      match s1.recByte c h (p + BitVec.ofNat 64 n) with
      | (s2, .error e) => (s2, .error e)
      | (s2, .ok l) => (s2, .ok (ls ++ [l]))

/-- Who reads: a warp, or the dispatcher of a context. -/
structure Reader where
  c : Nat
  w : Option Nat
  deriving DecidableEq, Repr

/-- The dispatcher of a context has read: its floors and observations (R276, R278). -/
def dispSaw (c : Nat) (x : State × Rd) : State × Rd :=
  (x.1.modCtx c fun y =>
    { y with
      dispFl := raiseTo y.dispFl (x.2.rs.map fun e => (e.1, e.2.1))
      dispSeen := (y.dispSeen ++ x.1.mem.relsOf x.2.rs).dedup }, x.2)

/-- Reads the bytes of a structure for a party, whose floors rise. -/
def State.recRead (s : State) (rd : Reader) (p : Word) (n : Nat) : State × Except Trap (List Byte) :=
  match s.recLocs rd.c {} p n with
  | (s1, .error e) => (s1, .error e.trap)
  | (s1, .ok ls) =>
    let (s2, r) := match rd.w with
      | some w => s1.readNow w 0 ls
      | none => dispSaw rd.c (s1.readHome 0 (pieceSize ls) (s1.ctx rd.c).dispFl ls)
    match (List.range n).findSome? fun i => (r.poison ((ls.drop i).take 1)).map fun k => (i, k) with
    | some (i, k) => (s2, .error ⟨0x14, 16 * k, p + BitVec.ofNat 64 i⟩)
    | none => (s2, .ok (ls.map r.byte))

/-- The space and alignment that a structure's pointer must have. -/
def recPtrTrap (p : Word) (align : Nat) : Option Trap :=
  if 3 < spaceOf p ∨ p.extractLsb' 48 12 ≠ 0 then some ⟨0x13, 0, p⟩
  else if p.toNat % align ≠ 0 then some ⟨0x12, 0, p⟩ else none

/-- Reads a structure at a pointer. -/
def State.recAt (s : State) (rd : Reader) (p : Word) (align n : Nat) : State × Except Trap (List Byte) :=
  match recPtrTrap p align with
  | some t => (s, .error t)
  | none => s.recRead rd p n

/-! ## The launch record (R293) -/

/-- Doubleword i of a record. -/
def dword (bs : List Byte) (i : Nat) : Word := ofBytes ((bs.drop (8 * i)).take 8)

/-- A field of a doubleword. -/
def fld (x : Word) (lo n : Nat) : Nat := (x.extractLsb' lo n).toNat

/-- Set width of a code (R24). -/
def setWidth (k : Nat) : Nat := if k = 0 then 0 else 2 ^ k

/-- A launch record's fields; BMASK and the arguments are read apart. -/
def launchRec (bs : List Byte) : LaunchRec :=
  let h := dword bs 0
  let x := dword bs 4
  { entry := dword bs 2, truss := dword bs 3, stage := fld h 8 4, setw := setWidth (fld h 12 2)
    warps := fld h 14 5 + 1, blocks := fld h 19 3 + 1, clusters := fld (dword bs 1) 0 17, gridbar := h.getLsbD 22
    array := h.getLsbD 23, trig := h.getLsbD 24, prio := fld h 25 2
    wdog := if fld h 27 5 = 0 then 20 else fld h 27 5, ntiles := fld h 32 4, nrec := fld h 36 5
    nregs := fld x 0 9, scrKb := fld x 12 12, arglen := fld x 24 9, locSize := (dword bs 5).toNat
    locBase := dword bs 6, fpmode := dword bs 7, lossScale := dword bs 8, cbmask := dword bs 9
    done := dword bs 12 }

/-- Whether a record is malformed in itself (R293): code 0x01. -/
def launchBad (bs : List Byte) : Bool :=
  let h := dword bs 0
  let x := dword bs 4
  let r := launchRec bs
  let devPtr (p : Word) (top align : Nat) : Bool := spaceOf p ≤ top && p.extractLsb' 48 12 == 0 && p.toNat % align == 0
  !(fld h 0 8 == 1 && fld h 41 23 == 0 && r.ntiles ≤ 8 && r.nrec ≤ 16 && 12 ≤ r.wdog && r.wdog ≤ 30 &&
    fld (dword bs 1) 17 47 == 0 && 1 ≤ r.clusters && r.clusters ≤ 65536 && devPtr r.entry 1 4 &&
    fld x 33 31 == 0 && fld x 9 3 == 0 && 8 ≤ r.nregs && r.nregs ≤ 256 && r.nregs % 8 == 0 && r.scrKb ≤ 3584 &&
    r.arglen % 8 == 0 && r.arglen ≤ 256 && r.arglen ≤ r.scrKb * 1024 && r.locSize % 256 == 0 && r.locSize ≤ 2 ^ 32 &&
    devPtr r.locBase 0 256 && (bs.drop 104).all (· == 0) && (r.done == 0 || devPtr r.done 2 8) &&
    (List.range 8).all fun i => fld r.cbmask (8 * i) 8 < 2 ^ r.blocks)

/-- A queue entry of a truss record (R295). -/
def queueEnt (e : Word) (ctrl : Word) : QueueEnt := { ctrl, trigK := fld e 8 16 + 1, cons := fld e 4 4, prod := fld e 0 4 }

/-- Whether a truss record refuses a stage (R295): its header, its queue entries as word pairs, and the stage. -/
def trussBad (hdr : List Byte) (qs : List (Word × Word)) (stage : Nat) : Bool :=
  let h := dword hdr 0
  let ns := fld h 14 4 + 1
  !(fld h 0 8 == 1 && fld h 18 46 == 0 && (hdr.drop 8).all (· == 0) && fld h 8 6 ≤ 32 && stage < ns &&
    qs.all fun q =>
      let e := queueEnt q.1 q.2
      fld q.1 24 40 == 0 && e.prod < ns && e.cons < ns && e.prod != e.cons)

/-! ## Resources of a core (R297) -/

/-- What a core has granted: blocks, warp slots, UBS ranges, tiles, records, and the array. -/
structure Occ where
  blocks : Nat := 0
  slots  : List Nat := []
  used   : List (Nat × Nat) := []
  tiles  : List Nat := []
  recs   : List Nat := []
  array  : Bool := false
  deriving DecidableEq, Repr

/-- Bytes of a warp's window (R58). -/
def winBytes (nregs : Nat) : Nat := (nregs * 256 + 512 + 32 + 1023) / 1024 * 1024

/-- What a core has granted now. -/
def State.occOf (s : State) (k : Nat) : Occ :=
  (s.blocks.filter fun e => e.2.core == k).foldl (fun o e =>
    let b := e.2
    { blocks := o.blocks + 1
      slots := o.slots ++ ((s.warps.filter fun x => x.2.blk == e.1).map (·.2.slot))
      used := o.used ++ (if b.scrKb = 0 then [] else [(b.scrBase, b.scrBase + 1024 * b.scrKb)]) ++
        b.wins.map fun a => (a, a + winBytes b.nregs)
      tiles := o.tiles ++ b.tmap, recs := o.recs ++ b.rmap, array := o.array || b.array }) {}

/-- The lowest KiB-aligned address of a free range of n bytes from `lo` on, below the end of the UBS; the fuel bounds the
ranges passed over (DESIGN CHOICE, notes/assumptions/32). -/
def firstFit (used : List (Nat × Nat)) (n : Nat) : Nat → Nat → Option Nat
  | 0, _ => none
  | k + 1, lo =>
    if 2 ^ 22 < lo + n then none
    else
      match used.find? fun u => u.1 < lo + n && lo < u.2 with
      | none => some lo
      | some u => firstFit used n k u.2

/-- Bytes of a core's L1 (R164). -/
def l1Bytes (l1sz : Nat) : Nat := 2 ^ (19 + l1sz)

/-- Where a block's parts go on a core: scratch base, windows, warp slots, tiles and records. -/
structure Spot where
  core  : Nat
  scr   : Nat
  wins  : List Nat
  slots : List Nat
  tiles : List Nat
  recs  : List Nat
  deriving DecidableEq, Repr

/-- Windows for n warps, one after another. -/
def fitWins (lo size : Nat) : Nat → List (Nat × Nat) → Option (List Nat × List (Nat × Nat))
  | 0, used => some ([], used)
  | n + 1, used =>
    match firstFit used size (used.length + 1) lo with
    | none => none
    | some a =>
      match fitWins lo size n (used ++ [(a, a + size)]) with
      | none => none
      | some (as, u) => some (a :: as, u)

/-- The slot that the next warp takes: the lowest free one of the partition with the fewest resident warps, the lower
partition winning ties. -/
def nextSlot (slots : List Nat) : Option Nat :=
  let load (p : Nat) : Nat := (slots.filter fun x => x / 8 == p).length
  let p := (List.range 8).foldl (fun best q => if load q < load best then q else best) 0
  (span (8 * p) 8).find? fun x => !slots.contains x

/-- Slots for n warps. -/
def takeSlots : Nat → List Nat → Option (List Nat)
  | 0, _ => some []
  | n + 1, slots =>
    match nextSlot slots with
    | none => none
    | some x => (takeSlots n (slots ++ [x])).map (x :: ·)

/-- The first n numbers below a bound that are not taken. -/
def takeFree (bound n : Nat) (used : List Nat) : Option (List Nat) :=
  let free := ((List.range bound).filter fun x => !used.contains x).take n
  if free.length = n then some free else none

/-- A core takes a block if it fits (R297): where its parts go, and what the core has then granted. -/
def Occ.take (o : Occ) (k l1 : Nat) (r : LaunchRec) : Option (Spot × Occ) :=
  let size := 1024 * r.scrKb
  if 16 ≤ o.blocks || (r.array && o.array) then none
  else
    match firstFit o.used size (o.used.length + 1) l1, takeSlots r.warps o.slots, takeFree 8 r.ntiles o.tiles,
        takeFree 16 r.nrec o.recs with
    | some scr, some slots, some tiles, some recs =>
      let used := if size = 0 then o.used else o.used ++ [(scr, scr + size)]
      match fitWins l1 (winBytes r.nregs) r.warps used with
      | none => none
      | some (wins, used') =>
        some ({ core := k, scr, wins, slots, tiles, recs },
          { blocks := o.blocks + 1, slots := o.slots ++ slots, used := used', tiles := o.tiles ++ tiles
            recs := o.recs ++ recs, array := o.array || r.array })
    | _, _, _, _ => none

/-- Places one cluster: on the lowest die with enough cores that can take a block, in ascending core number. -/
def planCluster (occ : Nat → Occ) (cores : List Nat) (l1 : Nat) (r : LaunchRec) : Option (List (Spot × Occ)) :=
  let able (d : Nat) : List (Spot × Occ) :=
    ((List.range 160).filter fun k => cores.contains k && k / 40 == d).filterMap fun k => (occ k).take k l1 r
  (List.range 4).findSome? fun d =>
    let xs := (able d).take r.blocks
    if xs.length = r.blocks then some xs else none

/-- Places n clusters one after another. -/
def planAll (cores : List Nat) (l1 : Nat) (r : LaunchRec) : Nat → (Nat → Occ) → Option (List (List Spot))
  | 0, _ => some []
  | n + 1, occ =>
    match planCluster occ cores l1 r with
    | none => none
    | some xs =>
      let occ' (k : Nat) : Occ := match xs.find? fun x => x.1.core == k with
        | some x => x.2
        | none => occ k
      (planAll cores l1 r n occ').map (xs.map (·.1) :: ·)

/-! ## Placing blocks (R294, R297) -/

/-- The first n bits. -/
def allMask (n : Nat) : Nat := 2 ^ n - 1

/-- A block's barriers: barrier 0 has every warp, the others the masks of BMASK (R186, R293). -/
def blockBars (r : LaunchRec) : List Bar :=
  (List.range 16).map fun i => { mem := if i = 0 then allMask r.warps else r.bmask.getD (i - 1) (allMask r.warps) }

/-- A cluster's barriers. -/
def clusterBars (r : LaunchRec) : List Bar :=
  (List.range 8).map fun i =>
    let m := fld r.cbmask (8 * i) 8
    { mem := if m = 0 then allMask r.blocks else m }

/-- The UBS range of a new block's scratch holds zeros, and nothing of what it held before. -/
def Mem.scrub (m : Mem) (l n : Nat) : Mem :=
  { m with
    bytes := mdelRange m.bytes l (l + n), newest := mdelRange m.newest l (l + n), older := mdelRange m.older l (l + n)
    cols := mdelRange m.cols l (l + n) }

/-- A warp as it becomes resident (R50, R294). -/
def newWarp (c b wid slot : Nat) (st : Stage) (cluster bid : Nat) (floors : SMap Nat) : Warp :=
  let r := st.lrec
  { ctx := c, blk := b, wid, slot, nregs := r.nregs, pc := r.entry, fpmode := r.fpmode, lossScale := r.lossScale
    ssp := 0x5000000000000000 + BitVec.ofNat 64 r.locSize, locSize := r.locSize
    locBase := r.locBase + BitVec.ofNat 64 (r.locSize * ((cluster * r.blocks + bid) * r.warps + wid))
    fetchFloor := st.seqAt, floors }

/-- Makes a block resident on its core: scratch cleared and the arguments copied, tiles and records zero, tags neutral,
the array's valid flag clear, and its warps (R50, R208, R233, R294). -/
def State.placeBlock (s : State) (c : Nat) (st : Stage) (cluster bid : Nat) (p : Spot) : State :=
  let r := st.lrec
  let (id, s1) := s.fresh
  let base := ubsLoc p.core p.scr
  let m1 := s1.mem.scrub base (1024 * r.scrKb)
  let m2 := if r.args.isEmpty then m1 else m1.putPiece [] false ((span base r.args.length).zip r.args)
  let fl : SMap Nat := if r.args.isEmpty then [] else raiseTo [] ((span base r.args.length).map fun l => (l, m2.seq))
  let b : Block :=
    { ctx := c, lnum := st.lnum, stage := r.stage, cluster, bid, core := p.core, nwarps := r.warps, setw := r.setw
      nregs := r.nregs, wins := p.wins, scrBase := p.scr, scrKb := r.scrKb, ntiles := r.ntiles, nrec := r.nrec
      tmap := p.tiles, rmap := p.recs, array := r.array, bars := blockBars r }
  let s2 := { s1 with mem := m2, blocks := mins s1.blocks id b }
  let s3 := s2.modCore p.core fun k =>
    { k with
      tiles := p.tiles.foldl (fun m t => mdelRange m (16384 * t) (16384 * (t + 1))) k.tiles
      tileErr := k.tileErr.filter fun e => !p.tiles.contains (2 * e.1 / 16384), tags := p.tiles.foldl mdel k.tags, recs := p.recs.foldl mdel k.recs
      latch := if r.array then {} else k.latch }
  p.slots.zipIdx.foldl (fun s e => s.setWarp (32 * id + e.2) (newWarp c id e.2 e.1 st cluster bid fl)) s3

/-- Makes a cluster resident. -/
def State.placeCluster (s : State) (c lnum cluster : Nat) (ps : List Spot) : State :=
  let s0 := s.modCtx c fun x => x.modStage lnum fun st =>
    { st with placed := st.placed + 1, cbars := mins st.cbars cluster (clusterBars st.lrec) }
  let st := ((s0.ctx c).stage? lnum).getD {}
  ps.zipIdx.foldl (fun s e => s.placeBlock c st cluster e.2 e.1) s0

/-- Scans the placement queue from its head (R297): each cluster that fits is placed; where the head has waited 1 ms, no
later cluster is placed before it. `kept` are the clusters passed over. -/
def State.scanQueue (s : State) (c : Nat) : List (Nat × Nat × Nat) → List (Nat × Nat × Nat) → State
  | [], kept =>
    s.modCtx c fun x =>
      { x with queue := kept, headAt := if kept.head? == x.queue.head? then x.headAt else s.timer }
  | e :: rest, kept =>
    let x := s.ctx c
    let r := ((x.stage? e.1).getD {}).lrec
    let stop := !kept.isEmpty && kept.head? == x.queue.head? && x.headAt + 1000000 ≤ s.timer
    match (if stop then none else planCluster s.occOf x.crec.cores (l1Bytes x.crec.l1sz.toNat) r) with
    | some xs => (s.placeCluster c e.1 e.2.1 (xs.map (·.1))).scanQueue c rest kept
    | none => s.scanQueue c rest (kept ++ [e])

/-- The PUBH of a queue as its home holds it now, by the queue's control line (R298), or the fault of reading it. -/
def State.pubhOf (s : State) (c : Nat) (q : QueueEnt) : State × Except Trap Nat :=
  match s.recLocs c {} (q.ctrl + 8) 8 with
  | (s1, .error e) => (s1, .error e.trap)
  | (s1, .ok ls) =>
    let (s2, r) := s1.peekHome 0 ls
    (s2, match r.poison ls with
      | some k => .error ⟨0x14, 16 * k, q.ctrl + 8⟩
      | none => .ok (r.value ls).toNat)

/-- Counts the advances of PUBH that other parties made: each triggered stage appends its clusters (R298, R304). -/
def State.countPubs (s : State) (c : Nat) : State :=
  ((s.ctx c).stages.filter fun st => st.lrec.trig && !st.done).foldl (fun s st =>
    match s.pubhOf c ((st.queues[st.trigQ]?).getD {}) with
    | (s1, .ok n) => s1.sawPubh c st.lrec.truss st.trigQ n
    | (s1, .error _) => s1) s

/-- `PLACEMENT` (R297, R304): the placement queue of a context is scanned, unless the context is frozen
(DEDUCED, notes/assumptions/32). -/
def execPlacement (c : Nat) (s : State) : Host.Outcome State Fault Refusal :=
  match mfind s.ctxs c with
  | none => .next s
  | some x =>
    if x.frozen || x.freezing || x.saved then .next s
    else
      let s1 := s.countPubs c
      .next (s1.scanQueue c (s1.ctx c).queue [])

/-! ## The decision (R122) -/

/-- Everything that `LAUNCH` reads: the record, the truss header, its queue entries, the BMASK table and the arguments. -/
structure LaunchIn where
  bs    : List Byte
  hdr   : List Byte
  qs    : List (Word × Word)
  bmask : List Nat
  args  : List Byte
  deriving DecidableEq, Repr

/-- Pairs of doublewords: each queue entry's word 0 and its CTRL. -/
def entryPairs (bs : List Byte) (n : Nat) : List (Word × Word) :=
  (List.range n).map fun q => (dword bs (2 * q), dword bs (2 * q + 1))

/-- Reads the structures in turn; a fault is raised at the `LAUNCH`. The spec gives no order among them: the record, the
truss header, its queue entries and their CTRL pointers, the BMASK table, the arguments
(DESIGN CHOICE, notes/assumptions/32). The pointer of an empty argument list is checked like any other (R294). -/
def State.launchIn (s : State) (rd : Reader) (p : Word) : State × Except Trap LaunchIn :=
  match s.recAt rd p 64 128 with
  | (s1, .error t) => (s1, .error t)
  | (s1, .ok bs) =>
    let r := launchRec bs
    match s1.recAt rd r.truss 64 64 with
    | (s2, .error t) => (s2, .error t)
    | (s2, .ok hdr) =>
      let nq := fld (dword hdr 0) 8 6
      match (if nq = 0 ∨ 32 < nq then (s2, .ok []) else s2.recRead rd (r.truss + 64) (16 * nq)) with
      | (s3, .error t) => (s3, .error t)
      | (s3, .ok qb) =>
        let qs := if 32 < nq then [] else entryPairs qb nq
        match qs.findSome? fun q => recPtrTrap q.2 64 with
        | some t => (s3, .error t)
        | none =>
          let bm := dword bs 10
          match (if bm = 0 then (s3, .ok []) else s3.recAt rd bm 64 60) with
          | (s4, .error t) => (s4, .error t)
          | (s4, .ok mb) =>
            match s4.recAt rd (dword bs 11) 1 (if 256 < r.arglen then 0 else r.arglen) with
            | (s5, .error t) => (s5, .error t)
            | (s5, .ok args) =>
              let bmask := (List.range (mb.length / 4)).map fun i => natOfBytes ((mb.drop (4 * i)).take 4)
              (s5, .ok { bs, hdr, qs, bmask, args })

/-- The status word of R122. -/
def launchStatus (lnum code : Nat) : Word := BitVec.ofNat 64 (lnum * 2 ^ 32 + code)

/-- The trigger queue of a stage: the lowest-numbered queue whose consumer it is (R298). -/
def trigQueue (qs : List QueueEnt) (stage : Nat) : Option Nat :=
  (qs.zipIdx.find? fun e => e.1.cons == stage).map (·.2)

/-- The code of a refusal, the first that applies in the order 0x07, 0x01, 0x02, 0x05, 0x03, 0x04 (R122); none where the
launch may be accepted. -/
def State.launchCode (s : State) (c : Nat) (i : LaunchIn) : Option Nat :=
  let x := s.ctx c
  let r : LaunchRec := { launchRec i.bs with bmask := i.bmask }
  let qs := i.qs.map fun q => queueEnt q.1 q.2
  let l1 := l1Bytes x.crec.l1sz.toNat
  if !x.crec.launch then some 0x07
  else if launchBad i.bs || trussBad i.hdr i.qs r.stage || (i.bmask.any fun m => m == 0 || 2 ^ r.warps ≤ m) ||
      (x.stages.any fun st => !st.done && st.lrec.truss == r.truss && st.lrec.stage == r.stage) ||
      (r.trig && (trigQueue qs r.stage).isNone) then some 0x01
  else if r.setw ≠ 0 ∧ r.warps % r.setw ≠ 0 then some 0x02
  else if !fpmodeOk r.fpmode || (r.lossScale >>> 8) != 0 then some 0x05
  else if (planCluster (fun _ => {}) x.crec.cores l1 r).isNone then some 0x03
  else if r.gridbar && (planAll x.crec.cores l1 r r.clusters fun _ => {}).isNone then some 0x04
  else none

/-- The stage that an accepted launch starts. -/
def stageOfIn (i : LaunchIn) (lnum seq trigBase : Nat) : Stage :=
  let r : LaunchRec := { launchRec i.bs with bmask := i.bmask, args := i.args }
  let qs := i.qs.map fun q => queueEnt q.1 q.2
  { lnum, lrec := r, queues := qs, seqAt := seq, trigBase, trigQ := (trigQueue qs r.stage).getD 0
    grid := if r.gridbar then List.replicate 4 { mem := allMask (r.clusters * r.blocks) } else [] }

/-- Accepts a stage: it counts as the context's next launch; a stage with grid barriers is placed whole, a triggered one
places nothing, and every other one queues its clusters (R297, R298). -/
def State.acceptStage (s : State) (c : Nat) (st : Stage) (plan : Option (List (List Spot))) : State :=
  let n := st.lrec.clusters
  let now := if st.lrec.trig then 0 else n
  let s1 := s.modCtx c fun x =>
    { x with lnum := st.lnum, stages := x.stages ++ [{ st with appended := now }] }
  match plan with
  | some ps => ps.zipIdx.foldl (fun s e => s.placeCluster c st.lnum e.2 e.1) s1
  | none =>
    s1.modCtx c fun x =>
      { x with
        queue := x.queue ++ (List.range now).map fun k => (st.lnum, k, s.timer)
        headAt := if x.queue.isEmpty then s.timer else x.headAt }

/-- Decides a `LAUNCH` at a pointer for a reader: a fault, or the status word (DEDUCED, notes/assumptions/32). A triggered
stage takes its base from the home of its queue's PUBH (R298); what the spec does not say, a fault of that read, is raised
at the `LAUNCH` after every code has been decided (DESIGN CHOICE, notes/assumptions/32). -/
def State.launchAt (s : State) (rd : Reader) (p : Word) : State × Except Trap Word :=
  match s.launchIn rd p with
  | (s1, .error t) => (s1, .error t)
  | (s1, .ok i) =>
    match s1.launchCode rd.c i with
    | some k => (s1, .ok (launchStatus 0 k))
    | none =>
      let x := s1.ctx rd.c
      let st := stageOfIn i (x.lnum + 1) s1.mem.seq 0
      let r := st.lrec
      let whole := r.gridbar && !r.trig
      let plan := if whole then planAll x.crec.cores (l1Bytes x.crec.l1sz.toNat) r r.clusters s1.occOf else none
      if whole && plan.isNone then (s1, .ok (launchStatus 0 0x06))
      else if r.trig then
        match s1.pubhOf rd.c ((st.queues[st.trigQ]?).getD {}) with
        | (s2, .error t) => (s2, .error t)
        | (s2, .ok n) => (s2.acceptStage rd.c { st with trigBase := n } none, .ok (launchStatus st.lnum 0))
      else (s1.acceptStage rd.c st plan, .ok (launchStatus st.lnum 0))

/-- Whether a warp has accesses that its next read of memory must come after and that cannot take their place yet: writes
that are held, loads that passes hold, near-bank operations (R281). -/
def State.ownWaits (s : State) (w : Nat) : Bool :=
  s.hasHeld w true || s.readsWait w || s.pend.any fun e => match e.2 with
    | .nb v .. => v == w
    | _ => false

/-- Effect of `LAUNCH` (R122): D receives the status word, and the run ends. -/
def effLaunch (a : Args) (s : State) (g : Grp) : Res :=
  let w := leaderOf g
  if s.ownWaits w then .stall s
  else
    match s.launchAt { c := (s.warp w).ctx, w := some w } (s.sval g (srcA a)) with
    | (s1, .error t) => .trap s1 t
    | (s1, .ok x) => .last (s1.setScalar g .s a.d.toNat x)

/-- `LAUNCH` (R122). -/
def execLaunch (a : Args) (s : State) : Host.Outcome State Fault Refusal := s.issue .launch a (effLaunch a)

/-! ## Retirement (R299) -/

/-- Whether an operation in flight was issued by a warp. -/
def Pend.ofWarp (w : Nat) : Pend → Bool
  | .load v .. | .result v .. | .store v .. | .csig v .. | .cread v .. | .copy v .. | .nb v .. | .arm v .. | .jigDef v => v == w

/-- Whether a warp of a block still has operations in flight. -/
def State.inFlight (s : State) (w : Nat) : Bool :=
  let c := s.core (s.coreOf w)
  s.pend.any (fun e => e.2.ofWarp w) || s.hasHeld w true || c.arr.any (fun o => o.members.contains w) ||
  c.pipes.any fun e => e.2.ops.any (fun o => o.w == w) || e.2.wait.any fun o => o.2.w == w

/-- Whether every warp of a block has retired and its operations have completed. -/
def State.blockDone (s : State) (b : Nat) : Bool :=
  (s.warps.filter fun e => e.2.blk == b).all fun e => e.2.retired && !s.inFlight e.1 && e.2.due.all fun d => d.2 ≤ s.clock

/-- A block leaves its cluster and grid barriers (R190). -/
def State.leaveBars (s : State) (b : Nat) : State :=
  let st := s.stageOf (s.blk b)
  let k := s.blk b
  let s1 := (List.range (mget [] st.cbars k.cluster).length).foldl (fun s id => s.barLeave b 1 id k.bid) s
  (List.range st.grid.length).foldl (fun s id => s.barLeave b 2 id (k.cluster * st.lrec.blocks + k.bid)) s1

/-- The writes of a stage's warps that a release has covered. -/
def State.coveredBy (s : State) (ws : List Nat) : SMap Nat :=
  joinFloors ((ws.flatMap fun w => (s.warp w).rels).dedup.map fun id =>
    match mfind s.mem.rels id with
    | none => []
    | some r => r.view)

/-- A completion signal is dropped, and logged (R299). -/
def State.dropDone (s : State) (d : DoneSig) : State :=
  s.modCtx d.ctx fun x => { x with log := x.log ++ [.doneDropped d.addr] }

/-- Performs a completion signal at its counter's home; one that meets poison, as at a home that is lost, is dropped. -/
def State.performDone (s : State) (d : DoneSig) : State :=
  let (s1, _, bad) := s.counterAdd { rels := d.rels } d.loc 1
  if bad then s1.dropDone d else s1

/-- Whether a write to a location is held because its home is offline and may come back (R383). -/
def State.awaitsDie (s : State) (l : Nat) : Bool := s.offline (homeDie l) && !s.lostLoc l

/-- The DONE signal of a completed stage (R299): a release at sys of what its warps' releases cover, and one increment; a
fault drops the signal and is logged, and one for an offline die is held (R383). -/
def State.signalDone (s : State) (c : Nat) (p : Word) (view : SMap Nat) : State :=
  match s.recLocs c { write := true } p 8 with
  | (s1, .error _) => s1.dropDone { ctx := c, addr := p, loc := 0, rels := [] }
  | (s1, .ok ls) =>
    let (s2, id) := s1.deviceRelease 160 .sys view
    let d : DoneSig := { ctx := c, addr := p, loc := ls.headD 0, rels := [id] }
    if s2.awaitsDie d.loc then { s2 with dones := s2.dones ++ [d] } else s2.performDone d

/-- The completion signals that no longer wait for a die are performed, in order, or dropped where it is lost. -/
def State.settleDones (s : State) : State :=
  let due := s.dones.filter fun d => !s.awaitsDie d.loc
  due.foldl State.performDone { s with dones := s.dones.filter fun d => s.awaitsDie d.loc }

/-- Whether a stage is complete: every block has retired and, for a triggered one, the trigger has ended. -/
def Stage.complete (st : Stage) : Bool :=
  st.appended == st.lrec.clusters && st.placed == st.lrec.clusters && st.retired == st.lrec.clusters * st.lrec.blocks

/-- A stage completes where it is due. -/
def State.stageCheck (s : State) (c lnum : Nat) : State :=
  match (s.ctx c).stage? lnum with
  | none => s
  | some st =>
    if st.done || !st.complete then s
    else
      let s1 := s.modCtx c fun x => x.modStage lnum fun t => { t with done := true }
      if st.lrec.done = 0 then s1 else s1.signalDone c st.lrec.done st.doneView

/-- `BLOCK_RETIRE` (R299): the block's resources are freed, the array's latched state is discarded, and the stage
completes with its last block. Nothing retires while the context is frozen (R304). -/
def execBlockRetire (b : Nat) (s : State) : Host.Outcome State Fault Refusal :=
  match mfind s.blocks b with
  | none => .next s
  | some k =>
    if (s.ctx k.ctx).frozen || !s.blockDone b then .next s
    else
      let s1 := s.leaveBars b
      let ws := (s1.warps.filter fun e => e.2.blk == b).map (·.1)
      let view := s1.coveredBy ws
      let s2 := s1.modCore k.core fun x => if k.array then { x with latch := {} } else x
      let s3 := { s2 with
        warps := s2.warps.filter fun e => e.2.blk != b
        blocks := mdel s2.blocks b }
      let s4 := s3.modCtx k.ctx fun x => x.modStage k.lnum fun st =>
        { st with retired := st.retired + 1, doneView := joinFloors [st.doneView, view] }
      .next (s4.stageCheck k.ctx k.lnum)

/-! ## The dispatcher (R296) -/

/-- The dispatcher stops serving a context, and logs the address that failed. -/
def State.dispFail (s : State) (c : Nat) (p : Word) : State :=
  s.modCtx c fun x => { x with dispStop := true, log := x.log ++ [.submissionFault p] }

/-- Whether a counter of a submission area is one: in a device space, and naturally aligned (R192). -/
def ctrFits (p : Word) : Bool := spaceOf p ≤ 2 && p.toNat % 8 == 0

/-- Reads a doubleword of the submission area at its home: its locations and value, and the floors rise. -/
def State.dispRead (s : State) (c : Nat) (p : Word) : State × Option Word :=
  match s.recLocs c {} p 8 with
  | (s1, .error _) => (s1, none)
  | (s1, .ok ls) =>
    let (s3, r) := dispSaw c (s1.peekHome 0 ls)
    (s3, if (r.poison ls).isSome then none else some (r.value ls))

/-- An acquire at sys by the dispatcher. -/
def State.dispAcquire (s : State) (c : Nat) : State :=
  s.modCtx c fun x => { x with dispFl := s.mem.acquired 160 .sys x.dispSeen x.dispFl }

/-- Writes the status of entry n; answers its locations, or none where the dispatcher stops. -/
def State.dispStatus (s : State) (c : Nat) (slot : Word) (status : Word) : State × Option (List Nat) :=
  match s.recLocs c { write := true } slot 8 with
  | (s1, .error e) => (s1.dispFail c e.addr, none)
  | (s1, .ok ls) =>
    if s1.lostLoc (ls.headD 0) then (s1.dispFail c slot, none)
    else ((s1.recall ls).performWrite {} false 0 8 (ls.zip (bytesOf 8 status)), some ls)

/-- Signals DONE_N with a release at sys that covers the status, and goes on to the next entry. -/
def State.dispSignal (s : State) (c : Nat) (p : Word) (ls : List Nat) : State :=
  match s.recLocs c { write := true } p 8 with
  | (s1, .error e) => s1.dispFail c e.addr
  | (s1, .ok ds) =>
    let view := raiseTo (s1.ctx c).dispFl (ls.map fun l => (l, s1.mem.pos l))
    let (s2, id) := s1.deviceRelease 160 .sys view
    let (s3, _, bad) := s2.counterAdd { rels := [id] } (ds.headD 0) 1
    if bad then s3.dispFail c p else s3.modCtx c fun x => { x with dispN := x.dispN + 1 }

/-- A decision of entry n: its status is written, and DONE_N signalled unless the launch is busy (R296). -/
def State.dispDecide (s : State) (c : Nat) (slot : Word) (status : Word) : State :=
  match s.dispStatus c slot status with
  | (s1, none) => s1
  | (s1, some ls) => if status &&& 0xFF = 0x06 then s1 else s1.dispSignal c ((s1.ctx c).crec.submit + 8) ls

/-- Whether a word of the submission area lies at an offline home that may come back, so that a write of it is held (R383). -/
def State.dispHeld (s : State) (c : Nat) (p : Word) : Bool :=
  match (s.recLocs c { write := true } p 8).2 with
  | .error _ => false
  | .ok ls => ls.any s.awaitsDie

/-- `DISPATCH_ENTRY` (R296): where SUBMIT shows entry n, its launch is decided in the context's name, its status is
written and DONE_N is signalled; a busy launch is retried. While a write of the status or of DONE_N would be held for an
offline die, the entry is not decided; the dispatcher goes on while DIE_0 is offline (DESIGN CHOICE, notes/assumptions/32). -/
def execDispatchEntry (c : Nat) (s : State) : Host.Outcome State Fault Refusal :=
  let x := s.ctx c
  if (mfind s.ctxs c).isNone || x.crec.submit == 0 || x.dispStop || x.dead || x.frozen || x.saved then .next s
  else
    let n := x.dispN
    let k := n % Nat.max 1 x.crec.nent
    let base := x.crec.submit
    let entry := base + BitVec.ofNat 64 (64 + 8 * k)
    let slot := base + BitVec.ofNat 64 (64 + 8 * x.crec.nent + 8 * k)
    match (if ctrFits base then s.dispRead c base else (s, none)) with
    | (s1, none) => .next (s1.dispFail c base)
    | (s1, some sub) =>
      if sub.toNat < n + 1 || s1.dispHeld c slot || s1.dispHeld c (base + 8) then .next s
      else
        match (s1.dispAcquire c).recRead { c, w := none } entry 8 with
        | (s2, .error t) => .next (s2.dispFail c t.addr)
        | (s2, .ok bs) =>
          match s2.launchAt { c, w := none } (ofBytes bs) with
          | (s3, .error _) => .next (s3.dispDecide c slot (launchStatus 0 0x01))
          | (s3, .ok st) => .next (s3.dispDecide c slot st)

end Sys2Proof.Machine
end

