-- ==== Sys2Proof/Machine/Power.lean ====
section
/-! DEFINITION. Band power, the in-rush arbiter and the slew limiter (spec/14 R307 to R311, spec/20 R358), clocks, boost
and wear (R17, R312), the energy budget and energy accounting (R306, R313). -/

namespace Sys2Proof.Machine

/-! ## Bands -/

/-- `BAND_ADMIT` (R308): a free arbiter admits the oldest wake request and is held for 650 clocks. -/
def execBandAdmit (die : Nat) (s : State) : Host.Outcome State Fault Refusal :=
  let d := s.die die
  match d.wakes with
  | [] => .next s
  | (_, core, b) :: rest =>
    if s.clock < d.wakeFree then .next s
    else
      .next ((s.modDie die fun d => { d with wakes := rest, wakeFree := s.clock + 650 }).modBand core b fun x =>
        { x with st := .waking s.clock })

/-- `BAND_ON` (R307): 2,600 clocks after its admission a waking band is on, or in HOLD where no operation uses it. -/
def execBandOn (core band : Nat) (s : State) : Host.Outcome State Fault Refusal :=
  match ((s.core core).band band).st with
  | .waking since =>
    if s.clock < since + 2600 then .next s else .next ((s.modBand core band fun x => { x with st := .on }).idleBands core)
  | _ => .next s

/-- `BAND_HOLD_EXPIRE` (R307): a band idle in HOLD for 20,000 ns switches off. -/
def execBandHoldExpire (core band : Nat) (s : State) : Host.Outcome State Fault Refusal :=
  match ((s.core core).band band).st with
  | .hold since => if s.timer < since + 20000 then .next s else .next (s.modBand core band fun x => { x with st := .off })
  | _ => .next s

/-- `BAND_WAKE_REFUSED` (R358): 5,200 clocks after its admission a band that is not on is marked failed, and the
operations waiting on it are cancelled. -/
def execBandWakeRefused (core band : Nat) (s : State) : Host.Outcome State Fault Refusal :=
  match ((s.core core).band band).st with
  | .waking since =>
    if s.clock < since + 5200 then .next s
    else
      let s1 := s.modBand core band fun _ => { st := .off, failed := true }
      .next (s1.cancelArr core (fun o => o.usesBands && bandOn o.ashape band) (bandLate band))
  | _ => .next s

/-! ## The slew limiter -/

/-- Whether the oldest operation of a core is ready to start: it uses bands, and every one of them is on (R308). -/
def State.arrReady (s : State) (core : Nat) : Option ArrOp :=
  match s.arrHead core with
  | none => none
  | some o =>
    if o.usesBands && (List.range 4).all fun b => !bandOn o.ashape b || ((s.core core).band b).st == .on then some o
    else none

/-- The step boundary at which an operation first asked for admission; none where it has not, or runs. -/
def ArrOp.since (o : ArrOp) : Option Nat :=
  match o.phase with
  | .ready n | .ramping n => some n
  | _ => none

/-- The cores of a die whose oldest operation asks for admission, by boundary and then core number. -/
def State.askers (s : State) (die : Nat) : List Nat :=
  let cs := (span (40 * die) 40).filterMap fun c =>
    match s.arrReady c with
    | some o => o.since.map fun n => (n, c)
    | none => none
  (sortBy (·.1) cs).map (·.2)

/-- Admits requests in order (R310): `sum` is the increase already admitted at this boundary. An operation that runs
takes over its array's fillers, and the rest of them stays (R311). -/
def admitLoop : List Nat → Nat → Bool → State → State
  | [], _, _, s => s
  | c :: cs, sum, first, s =>
    match (s.core c).arr with
    | [] => s
    | o :: _ =>
      let f := s.filler c
      let lu := loadUnits o.ashape
      let inc := lu - f
      if sum + inc ≤ 8 then admitLoop cs (sum + inc) false ((s.setPhase c (.running s.clock)).setFiller c (f - lu))
      else if first && 8 < inc then (s.setPhase c (.ramping (o.since.getD 0))).setFiller c (f + 8)
      else s

/-- Counts the LU-clocks of the fillers of a die over a number of clocks (R311, R313). -/
def State.meterFillers (s : State) (die n : Nat) : State :=
  (s.die die).fillers.foldl (fun s e => s.modCore e.1 fun c => { c with luClocks := c.luClocks + e.2 * n }) s

/-- The step of a die's slew limiter at the present clock (R310, R311): where it is a step boundary, a multiple of 4, that has
not been taken yet, requests are made and admitted, and fillers are cut (DEDUCED, notes/assumptions/24). -/
def State.slew (s : State) (die : Nat) : State :=
  let b := s.clock / 4
  if s.clock % 4 ≠ 0 ∨ (b ≤ (s.die die).slewAt ∧ b ≠ 0) then s
  else
    let cores := span (40 * die) 40
    let s0 := s.meterFillers die (4 * (b - (s.die die).slewAt))
    let s1 := s0.modDie die fun d => { d with slewAt := b }
    let s2 := cores.foldl (fun s c =>
      match s.arrReady c with
      | some o => if o.phase = .queued then s.setPhase c (.ready b) else s
      | none => s) s1
    let order := s2.askers die
    let order := (order.filter s2.ramps) ++ order.filter fun c => !s2.ramps c
    (admitLoop order 0 true s2).shed die

/-- `SLEW_STEP` (R310, R311). -/
def execSlewStep (die : Nat) (s : State) : Host.Outcome State Fault Refusal := .next (s.slew die)

/-- Whether a die's slew limiter has something to do at the next step boundary: an operation that asks, or fillers. -/
def State.slewWork (s : State) (die : Nat) : Bool :=
  !(s.die die).fillers.isEmpty || s.cores.any fun e => e.1 / 40 == die && !e.2.arr.isEmpty && (s.arrReady e.1).isSome

/-! ## Boost and wear (R17, R312) -/

/-- The boost ceiling in steps of 25 MHz above 1.3 GHz (R312). -/
def boostCeiling (wear wearMax : Nat) : Nat := 12 - 12 * wear / wearMax

/-- The ns that a die has run above 1.3 GHz and that no tick has counted. -/
def Die.boosted (d : Die) (timer : Nat) : Nat := d.wearNs + if d.boost = 0 then 0 else timer - d.wearAt

/-- Sets a die's boost at a TIMER value. -/
def Die.setBoost (d : Die) (n timer : Nat) : Die := { d with boost := n, wearNs := d.boosted timer, wearAt := timer }

/-- `BOOST_STEP` (R17): the die control block goes up a step where the ceiling and the package's power allow it, or down, whatever
the die's state (DESIGN CHOICE, notes/assumptions/35). -/
def execBoostStep (die : Nat) (up powerOk : Bool) (s : State) : Host.Outcome State Fault Refusal :=
  let d := s.die die
  if up then
    if powerOk && decide (d.boost < boostCeiling d.wear (Config.wearMax die)) then
      .next (s.modDie die fun d => d.setBoost (d.boost + 1) s.timer)
    else .next s
  else .next (s.modDie die fun d => d.setBoost (d.boost - 1) s.timer)

/-- The weight of a millisecond above 1.3 GHz (R312). -/
def tempWeight : TempClass → Nat
  | .below70 => 1 | .upTo85 => 2 | .above85 => 4

/-- `WEAR_TICK` (R312): each millisecond above 1.3 GHz, one a tick, adds its weight, and the boost falls to the new ceiling
(DEDUCED, notes/assumptions/17). -/
def execWearTick (die : Nat) (temp : TempClass) (s : State) : Host.Outcome State Fault Refusal :=
  let d := s.die die
  if d.boosted s.timer < 1000000 then .next s
  else
    let wear := d.wear + tempWeight temp
    .next (s.modDie die fun d =>
      { d with
        wear, wearNs := d.boosted s.timer - 1000000, wearAt := s.timer
        boost := Nat.min d.boost (boostCeiling wear (Config.wearMax die)) })

/-! ## Budget and energy -/

/-- The level of a core after a refill (R306). -/
def refill (x : Ctx) (level : Nat) : Nat := Nat.min x.ebCap (level + x.ebRate)

/-- `BUDGET_REFILL` (R306): at a TIMER value that is a multiple of 1,000, RATE is added to every level, up to CAP. -/
def execBudgetRefill (s : State) : Host.Outcome State Fault Refusal :=
  if s.timer / 1000 ≤ s.budgetAt / 1000 then .next s
  else
    let s1 := { s with budgetAt := (s.budgetAt / 1000 + 1) * 1000 }
    .next ((s.ctxs.filter fun e => !e.2.saved).foldl (fun s e =>
      e.2.crec.cores.foldl (fun s k => s.modCore k fun c => { c with level := refill e.2 c.level }) s) s1)

/-- The rows of Table 14.2: the charge in fJ a byte, the bytes that accesses have named, and whether fetches, walks and caches
move bytes of this row too. -/
def Moved.rows (m : Moved) : List (Nat × Nat × Bool) :=
  [(400, m.l2, true), (250, m.links, true), (600, m.vault, false), (3200, 0, true), (900, m.il, false), (5500, m.girt, false)]

/-- What the traffic of a context beyond its cores is charged since the last update, from the free value `k` on: the bytes that
its accesses named, and those that were moved beside them, none for a context that moved none and ran nothing (R313)
(DESIGN CHOICE, notes/assumptions/17). -/
def trafficFj (was m : Moved) (ran : Bool) (k : Nat) : Nat :=
  ((m.rows.zip was.rows).zipIdx.map fun e =>
    let (rate, n, more) := e.1.1
    let extra := if n != 0 || (more && (ran || m != {})) then Config.trafficBytes (k + e.2) else 0
    rate * (n - e.1.2.2.1 + extra)).sum

/-- Adds the traffic of a context to its total, and copies the total in mJ into ENERGY (R313). -/
def Ctx.addEnergy (x : Ctx) (m : Moved) (ran : Bool) (k : Nat) : Ctx :=
  let fine := x.fineFj + trafficFj x.movedWas m ran k
  { x with fineFj := fine, movedWas := m, energy := fine / 10 ^ 12 % 2 ^ 64 }

/-- Whether a core of a context has issued an instruction since the last update. -/
def State.ran (s : State) (x : Ctx) : Bool := x.crec.cores.any fun k => !(s.core k).events.isEmpty

/-- `ENERGY_UPDATE` (R313): at a TIMER value that is a multiple of 10^6, every context's total and the system account take
what was used since (DESIGN CHOICE, notes/assumptions/17). -/
def execEnergyUpdate (s : State) : Host.Outcome State Fault Refusal :=
  if s.timer / 1000000 ≤ s.energyAt / 1000000 then .next s
  else
    let s1 := (List.range 160).foldl State.meterCore s
    .next { s1 with
      energyAt := (s.energyAt / 1000000 + 1) * 1000000
      free := s.free + 8 * s.ctxs.length + 1
      sysFj := s1.sysFj + Config.refreshFj (s.free + 8 * s.ctxs.length)
      ctxs := s1.ctxs.zipIdx.map fun e =>
        (e.1.1, e.1.2.addEnergy (mget {} s.mem.moved e.1.1) (s.ran e.1.2) (s.free + 8 * e.2)) }

end Sys2Proof.Machine
end

