-- ==== Sys2Proof/Machine/Sched.lean ====
section
/-! DEFINITION. What the next step takes up, and fetching a warp's instruction (spec/02 R45 to R48, spec/03 R61 to R63). -/

namespace Sys2Proof.Machine

/-- Fetches words of an instruction from an address on (R61): those that could be fetched, and the trap of the next one. -/
def State.fetchWords (s : State) (w : Nat) (p : Word) : Nat → State × List IWord × Option Trap
  | 0 => (s, [], none)
  | n + 1 =>
    match s.fetchWord w p with
    | (s1, .error e) => (s1, [], some e.trap)
    | (s1, .ok x) =>
      let (s2, xs, t) := s1.fetchWords w (p + 4) n
      (s2, x :: xs, t)

/-- What fetching and decoding refuse: the trap, and the instruction that the words fetched name, at which a late trap may be
due (R346). -/
structure Refused where
  trap  : Trap
  names : Option (Op × Args) := none
  deriving DecidableEq, Repr

/-- Fetches and decodes the instruction at a warp's pc: steps 1 to 3 of Table 3.8. Every word that LEN announces is
fetched, of a reserved opcode too. -/
def State.fetchNew (s : State) (w : Nat) : State × Except Refused Instr :=
  let p := (s.warp w).pc
  match s.fetchWord w p with
  | (s1, .error e) => (s1, .error { trap := e.trap })
  | (s1, .ok w0) =>
    match s1.fetchWords w (p + 4) (lengthOf w0 - 1) with
    | (s2, ws, some t) => (s2, .error { trap := t, names := namedBy (w0 :: ws) })
    | (s2, ws, none) =>
      match decodeWords (w0 :: ws) with
      | .error e => (s2, .error { trap := illegal e.detail, names := namedBy (w0 :: ws) })
      | .ok i => (s2, .ok i)

/-- Fetches and decodes a warp's instruction; a TLB miss is noted, since it ends the run. -/
def State.fetchInstr (s : State) (w : Nat) : State × Except Refused Instr :=
  let r := s.fetchNew w
  (r.1.noteMiss s.mem w, r.2)

/-- Whether a warp's run is open: its partition's slot is its own (R45). -/
def State.inRun (s : State) (w : Nat) : Bool := s.slotOf w == some w

/-- Whether a warp's next instruction may be taken up: its run is open. Another warp of its partition waits for the
arbitration after that run (R48). -/
def State.takesUp (s : State) (w : Nat) : Bool := s.mayIssue w && s.inRun w

/-- A trap found at fetch or decode; a late trap that is due at the instruction comes first (R346). -/
def State.fetchTrap (s : State) (w : Nat) (r : Refused) : State :=
  let x := s.warp w
  match r.names, x.late with
  | some (o, a), some l =>
    if lateDue o a x then (s.trap w ⟨l.code, l.detail, l.addr⟩).takeLate o a w else s.trap w r.trap
  | _, _ => s.trap w r.trap

/-! ## One clock (R46; DESIGN CHOICE, notes/assumptions/4) -/

/-- The core and the partition of a warp, as one number that orders the device's partitions. -/
def State.partNo (s : State) (w : Nat) : Nat := 8 * s.coreOf w + (s.warp w).part

/-- Clocks that a warp's instruction still waits for fixed latencies and ports; a reserved opcode waits for none. -/
def State.waitOf (s : State) (w : Nat) (i : Instr) : Nat := i.op?.elim 0 fun x => s.fixedWait w x.1 x.2

/-- Whether a warp may issue in the clock in which the instruction before did: a warp of a later partition, or the same
warp in its open run (R46). -/
def State.follows (s : State) (w : Nat) : Bool :=
  match s.joint with
  | none => false
  | some j => 8 * j.core + j.part < s.partNo w || (8 * j.core + j.part == s.partNo w && w == s.cur)

/-- A warp as the one whose instruction is executed now. -/
def State.seat (s : State) (w : Nat) : State :=
  { s with cur := w, joint := some { core := s.coreOf w, part := (s.warp w).part } }

/-- Whether a warp's instruction may be executed in the present clock: its run is open, and what it has to do is a trap of
fetch or decode, or an instruction that waits for no fixed latency. -/
def State.readyNow (s : State) (w : Nat) : Bool :=
  s.takesUp w && (match s.fetchInstr w with
    | (_, .error _) => true
    | (s1, .ok i) => s1.waitOf w i == 0)

/-- A warp's instruction cannot issue in this clock: a wait of more than 2 clocks ends the run (R47). -/
def State.waits (s : State) (w n : Nat) : State := if 2 < n then s.stalled w else s

/-! ## The default schedule (DESIGN CHOICE, notes/assumptions/4) -/

/-- The events that an operation in flight may complete by. -/
def pendActs (e : Nat × Pend) : List Instr :=
  match e.2 with
  | .load .. | .result .. | .cread .. => [.loadDataReturn e.1]
  | .store .. => [.storeAcknowledgement e.1]
  | .csig .. => [.counterIncrement e.1]
  | .nb .. => [.nbComplete e.1]
  | .arm .. => [.jigArmAccept e.1]
  | .jigDef .. => [.jigDefAccepted e.1]
  | .copy w .. => [.copyBatchComplete w 0]

/-- Whether a warp's next instruction has waited for as long as R349 allows. -/
def Warp.overdue (w : Warp) (clock : Nat) : Bool :=
  match w.waitFrom with
  | none => false
  | some t => 2 ^ 28 ≤ w.waited + (clock - t)

/-- The events that a warp may see. -/
def warpActs (clock : Nat) (e : Nat × Warp) : List Instr :=
  (match e.2.park with
    | .sleep .. => [.sleepWake e.1]
    | .cwait .. => [.cwaitWake e.1, .cwaitTimeout e.1, .pinBreak e.1]
    | .eqWait .. => [.eqWaitSatisfied e.1]
    | _ => []) ++
  ((e.2.batches.filter fun b => b.sealed && b.value.isNone).map fun b => .copyBatchComplete e.1 b.seq) ++
  (if e.2.overdue clock then [.watchdog e.1] else []) ++ (if e.2.inHandler then [.handlerOverrun e.1] else [])

/-- The events of a core: its array, bands and transform pipes. -/
def coreActs (e : Nat × Core) : List Instr :=
  (if e.2.arr.isEmpty then [] else [.wldComplete e.1, .arrayOpComplete e.1 []]) ++
  e.2.bands.flatMap (fun b => [.bandOn e.1 b.1, .bandHoldExpire e.1 b.1]) ++
  e.2.pipes.flatMap fun p => [.xfftAccept e.1 p.1, .xfftComplete e.1 p.1]

/-- The events of a context and of the regions. -/
def ctxActs (e : Nat × Ctx) : List Instr :=
  [.placement e.1, .dispatchEntry e.1] ++ (if e.2.jrn.closing.isSome then [.journalCloseComplete e.1] else [])

/-- What the device's own parts may do next: the warps of open runs, arbitration, and every event that may be due. -/
def State.dueActs (s : State) : List Act :=
  let parts := s.blocks.flatMap fun (e : Nat × Block) => (List.range 8).map fun p => (e.2.core, p)
  let runs := parts.map fun (k : Nat × Nat) =>
    match (mget {} (s.core k.1).parts k.2).run with
    | some w => Act.issue w
    | none => Act.event (Instr.runArbitration k.1 k.2)
  let blks := s.blocks.flatMap fun (e : Nat × Block) =>
    Instr.blockRetire e.1 :: e.2.rdvs.map fun (r : Rdv) => Instr.rendezvousTimeout e.1 r.pc
  let rows := s.regions.flatMap fun (g : Region) => g.rows.flatMap fun r => [Instr.refreshRow r, Instr.hasteRowSweep r]
  let dies := s.dies.flatMap fun (e : Nat × Die) => [Instr.bandAdmit e.1, Instr.slewStep e.1]
  runs ++ (s.pend.flatMap pendActs ++ s.warps.flatMap (warpActs s.clock) ++ s.cores.flatMap coreActs ++ s.ctxs.flatMap ctxActs ++
    blks ++ rows ++ dies ++ [Instr.budgetRefill, Instr.energyUpdate]).map Act.event

/-- What the next step takes up: the head of the agenda, removed from it; with an empty one, the boot at power-on, or
what the default schedule's turn gives, time passing in between. -/
def State.takeAct (s : State) : Act × State :=
  match s.agenda with
  | x :: xs => (x, { s with agenda := xs })
  | [] =>
    if s.island.boot = .cold then (.event (.powerOn s.island.fw), s)
    else
      let acts := s.dueActs
      (acts.getD (s.turn % (acts.length + 1)) (.elapse 13 10), { s with turn := s.turn + 1 })

/-! ## Placing an instruction -/

/-- Bytes placed in memory, as one write. -/
def State.placeBytes (s : State) (l : Nat) (bs : List Byte) : State :=
  { s with mem := s.mem.putPiece [] false ((span l bs.length).zip bs) }

/-- A booted device with context 0 on core 0, its tables at 0x1000, 0x2000 and 0x3000 mapping the first 2 MiB, LOC at
0x20000, one block of one warp in warp slot 0 with pc 0x10000 and every register, tile and record of the core granted;
the words stand at that pc, and the next step takes that warp up. -/
def State.placeWords (s : State) (ws : List IWord) : State :=
  let s1 := { s with island := { s.island with boot := .running } }
  let s2 := (List.range 4).foldl (fun s d => s.modDie d fun x => { x with st := .online }) s1
  let crec : CtxRec := { ctx := 0, priv := true, launch := true, cores := [0], droot := 0x1000, ebudget := 0xFFFF000000000000 }
  let bar : Bar := { mem := 1 }
  let st : Stage := { lnum := 1, lrec := { setw := 1, nregs := 256, locSize := 0x8000, locBase := 0x20000, gridbar := true,
                                           array := true, ntiles := 8, nrec := 16, scrKb := 64, fpmode := 0x304 },
                      placed := 1, appended := 1, grid := List.replicate 4 bar,
                      cbars := [(0, List.replicate 8 bar)] }
  let c : Ctx := { crec, ebRate := 0xFFFF, lnum := 1, stages := [st] }
  let b : Block := { ctx := 0, lnum := 1, core := 0, nwarps := 1, setw := 1, nregs := 256, scrKb := 64, ntiles := 8,
                     nrec := 16, array := true, wins := [0x3F0000], bars := List.replicate 16 bar }
  let w : Warp := { ctx := 0, blk := 0, nregs := 256, pc := 0x10000, fpmode := 0x304, locBase := 0x20000, locSize := 0x8000,
                    ssp := 0x5000000000008000 }
  let s3 := { s2 with ctxs := mins s2.ctxs 0 c, blocks := mins s2.blocks 0 b }
  let s4 := s3.modCore 0 fun k => { k with owner := some 0, parts := mset {} k.parts 0 { run := some 0 } }
  let entry (frame flags : Nat) : List Byte := bytesOf 8 (BitVec.ofNat 64 (frame + flags))
  let s5 := (((s4.placeBytes 0x1000 (entry 0x2000 1)).placeBytes 0x2000 (entry 0x3000 1)).placeBytes 0x3000
    (entry 0 0xF)).placeBytes 0x10000 (ws.flatMap bytesOfWord)
  { s5 with warps := mins s5.warps 0 { w with fetchFloor := s5.mem.seq }, agenda := [.issue 0] }

end Sys2Proof.Machine
end

