-- ==== Sys2Proof/Machine/Context.lean ====
section
/-! DEFINITION. `CTX` (spec/05 R124, spec/13 R303, spec/20 R352 to R354): freezing, saving and loading a context. -/

namespace Sys2Proof.Config

/-- What the CONTEXT section of an image holds that no `CTX.SAVE` of this device wrote: the spec gives it no layout (DESIGN
CHOICE, notes/assumptions/31). -/
opaque foreignContext : List Byte → Sys2Proof.Machine.Ctx

/-- What such an image holds of a warp, by its CONTEXT section and its core and slot, beside what its WARP section gives. -/
opaque foreignWarp : List Byte → Nat → Sys2Proof.Machine.Warp

/-- The same of a block, by its core and index. -/
opaque foreignBlock : List Byte → Nat → Sys2Proof.Machine.Block

/-- Which block of its core a warp of such an image belongs to. -/
opaque foreignHome : List Byte → Nat → Nat

/-- The same of a core: its budget level. -/
opaque foreignCore : List Byte → Nat → Sys2Proof.Machine.Core

/-- What the opaque body of an array save image holds that no save of this device wrote (R226). -/
opaque foreignArray : List Byte → Sys2Proof.Machine.Core

end Sys2Proof.Config

namespace Sys2Proof.Machine

/-! ## FREEZE -/

/-- Whether the engines hold nothing of a context that must complete first: copies, `NB`, transforms, accesses in
flight, and a close of the journal (R181, R239, R256) (DEDUCED, notes/assumptions/27). -/
def State.enginesIdle (s : State) (c : Nat) : Bool :=
  let ws := s.warpsOf c
  (s.pend.all fun e => ws.all fun w => !e.2.ofWarp w) && (s.ctx c).jrn.closing.isNone &&
  (s.cores.all fun e => e.2.pipes.all fun p =>
    p.2.ops.all (fun o => !ws.contains o.w) && p.2.wait.all fun o => !ws.contains o.2.w)

/-- Whether every warp of a context has stopped at a run boundary, outside a handler (R48, R352). -/
def State.warpsStopped (s : State) (c : Nat) : Bool :=
  (s.warpsOf c).all fun w => (s.warp w).retired || (!s.inRun w && !(s.warp w).inHandler)

/-- The context counts as frozen from now on; its arrays have stopped (R226). -/
def State.freezeCtx (s : State) (c : Nat) : State :=
  ((s.stopArrays c).modCtx c fun x => { x with frozen := true, freezing := false }).pauseRdvs c

/-- The warps of a context resume, each with AGE 0 (R303). -/
def State.thawCtx (s : State) (c : Nat) : State :=
  let s1 := (s.modCtx c fun x => { x with frozen := false, freezing := false }).pauseRdvs c
  s1.modWarps (s1.warpsOf c) fun w => { w with age := 0 }

/-- Writes the code of a `CTX` into D; it ends the run. -/
def State.ctxAnswer (s : State) (g : Grp) (a : Args) (code : Nat) : Res :=
  .last (s.setScalar g .s a.d.toNat (BitVec.ofNat 64 code))

/-- The code that refuses a `CTX` of the context that issues it, or of one that does not exist, before every other code
(DEDUCED, notes/assumptions/31). -/
def State.ctxCode (s : State) (g : Grp) (c : Nat) : Option Nat :=
  if c = (s.warp (leaderOf g)).ctx then some 5 else if (mfind s.ctxs c).isNone then some 2 else none

/-- Effect of `CTX.FREEZE`: with B = 1 it waits until the context's warps have stopped and its engines have frozen. -/
def effCtxFreeze (a : Args) (s : State) (g : Grp) : Res :=
  let c := (s.sval g (srcA a)).toNat
  let b := s.sval g (srcB a 0)
  match s.ctxCode g c with
  | some k => s.ctxAnswer g a k
  | none =>
    if b = 1 then
      if (s.ctx c).frozen then s.ctxAnswer g a 0
      else if s.warpsStopped c && s.enginesIdle c then (s.freezeCtx c).ctxAnswer g a 0
      else .stall (((s.stopArrays c).modCtx c fun x => { x with freezing := true }).pauseRdvs c)
    else if b = 0 then
      if (s.ctx c).dead then s.ctxAnswer g a 7 else (s.thawCtx c).ctxAnswer g a 0
    else s.ctxAnswer g a 6

/-- `CTX.FREEZE` (R124). -/
def execCtxFreeze (a : Args) (s : State) : Host.Outcome State Fault Refusal := s.issue .ctxFreeze a (effCtxFreeze a)

/-! ## SAVE -/

/-- A wait as a save keeps it: it is withdrawn, and the instruction is issued again with its absolute deadline (R32,
R126, R196). One that waits at a barrier has arrived, and its `MEET` does not arrive again (R188, R190; DEDUCED,
notes/assumptions/42). -/
def Warp.withdraw (w : Warp) : Warp :=
  { w with
    park := .none, deadline := w.keptDeadline
    met := match w.park with
      | .bar _ _ => some w.pc
      | _ => w.met }

/-- A mark without its address, which no image keeps (R368). -/
def Mark.unaddressed (m : Mark) : Mark := { m with addr := 0 }

/-- The marks of a map without their addresses. -/
def bareMarks (m : SMap (Option Mark)) : SMap (Option Mark) := m.map fun e => (e.1, e.2.map Mark.unaddressed)

/-- A warp as an image keeps it (R303, R368): AGE 0, and its poison marks without addresses. -/
def Warp.saved (w : Warp) : Warp :=
  { w.withdraw with
    age := 0, yielded := false, runCnt := 0, waitFrom := none, waited := 0, due := [], next := 0
    vMark := bareMarks w.vMark, sMark := bareMarks w.sMark, pMark := bareMarks w.pMark }

/-- The state of a core's array and tiles, and its budget level, as an image keeps them. -/
def Core.saved (c : Core) : Core :=
  { tiles := c.tiles, tags := c.tags, recs := c.recs, latch := c.latch, arr := c.arr, arrFl := c.arrFl, level := c.level }

/-- What an image keeps of a context (R303) (DEDUCED, notes/assumptions/27). -/
def State.saveOf (s : State) (c num : Nat) (note : List Byte) : Save :=
  let bs := s.blocks.filter fun e => e.2.ctx == c
  { note, num, ctx := c, cctx := s.ctx c
    warps := (s.warps.filter fun e => e.2.ctx == c).map fun (e : Nat × Warp) => (e.1, e.2.saved)
    blocks := bs.map fun (e : Nat × Block) => (e.1, { e.2 with rdvs := [], qMark := bareMarks e.2.qMark })
    cores := (s.ctx c).crec.cores.foldl (fun (m : SMap Core) k => mins m k (s.core k).saved) []
    scratch := bs.map fun e =>
      (ubsLoc e.2.core e.2.scrBase, s.mem.peek (ubsLoc e.2.core e.2.scrBase) (1024 * e.2.scrKb)) }

/-- A core after the state of its context has left it; the load of an operation that ran becomes fillers (R311). -/
def State.clearCore (s : State) (k : Nat) : State :=
  ((s.stopCores [k]).modCore k fun c => { c with tiles := [], tags := [], recs := [], latch := {}, arr := [], arrFl := [] }).idleBands k

/-- The context's warps, blocks and engine state leave its cores. -/
def State.evict (s : State) (c : Nat) : State :=
  let s1 := (s.warpsOf c).foldl State.endRun s
  let s2 := ((s.ctx c).crec.cores.foldl State.clearCore s1)
  { s2 with
    warps := s2.warps.filter fun e => e.2.ctx != c
    blocks := s2.blocks.filter fun e => e.2.ctx != c }

/-- Writes an image of a context at an area through the translation of warp `w`, the header last (R353): the first fault. -/
def State.writeImage (s : State) (w c num : Nat) (base : Word) : State × Option XFault :=
  let secs := s.sections c num false
  let first := 4096 + 16 * secs.length
  let laid := layoutSections first secs
  let body := imageBody laid
  let dg := sha256 body
  let hdr := imageHeader secs.length (4096 + body.length) dg c (s.ctx c).dead
    ((secs.filter fun e => e.type != 7).map (·.core)) none
  match s.writeSections w [w] base first laid with
  | (s1, _, some f) => (s1, some f)
  | (s1, _, none) =>
    match s1.writeAt w [w] base 4096 (dirBytes secs.length laid) with
    | (s2, some f) => (s2, some f)
    | (s2, none) => s2.writeAt w [w] base 0 hdr

/-- The register words, and the tile words, that an image reads are checked first (R366). -/
def State.checkStored (s : State) (c : Nat) : State :=
  ((s.ctx c).crec.cores).foldl (fun s k => s.checkTiles k fun _ => true) (s.checkAllWords c)

/-- Every warp of a context performs a release at sys of its floors (R292). -/
def State.releaseAll (s : State) (c : Nat) : State := (s.warpsOf c).foldl (fun s w => (s.release [w] .sys).1) s

/-- Effect of `CTX.SAVE`: a context that is not frozen is refused, before the area is tried (DEDUCED, notes/assumptions/31);
the releases wait for held writes, and the image for what is in flight and for the releases (R292). -/
def effCtxSave (a : Args) (s : State) (g : Grp) : Res :=
  let c := (s.sval g (srcA a)).toNat
  match s.ctxCode g c with
  | some k => s.ctxAnswer g a k
  | none =>
    if !(s.ctx c).frozen then s.ctxAnswer g a 1
    else if !s.enginesIdle c || s.relWaits (s.warpsOf c) .sys then .stall s
    else
      let (num, s1) := ((s.releaseAll c).checkStored c).fresh
      match s1.writeImage (leaderOf g) c num (s.sval g (srcB a 0)) with
      | (s2, some _) => s2.ctxAnswer g a 4
      | (s2, none) =>
        let s3 := { s2 with saves := s2.saveOf c num (s1.contextBody c num) :: s2.saves }
        ((s3.evict c).modCtx c fun x => { x with saved := true }).ctxAnswer g a 0

/-- `CTX.SAVE` (R124). -/
def execCtxSave (a : Args) (s : State) : Host.Outcome State Fault Refusal := s.issue .ctxSave a (effCtxSave a)

/-! ## LOAD -/

/-- Reads n bytes of an area at an offset, through the translation of warp `w`; none where a byte is not readable. -/
def State.readArea (s : State) (w : Nat) (base : Word) : Nat → Nat → State × Option (List Byte)
  | _, 0 => (s, some [])
  | off, n + 1 =>
    match s.place w {} (base + BitVec.ofNat 64 off) with
    | (s1, .ok (.mem l)) =>
      let (s2, r) := s1.readNow w 0 [l]
      if (r.poison [l]).isSome then (s2, none)
      else
        match s2.readArea w base (off + 1) n with
        | (s3, none) => (s3, none)
        | (s3, some bs) => (s3, some (r.byte l :: bs))
    | (s1, _) => (s1, none)

/-- Whether a header is that of a context image of this version and architecture step that may be loaded (R351, R353); one
of another context number fails the check too (DESIGN CHOICE, notes/assumptions/31). -/
def headerOk (h : List Byte) (c : Nat) : Bool :=
  hdrNat h 0 2 == 0x5843 && hdrNat h 2 2 == 1 && hdrNat h 48 2 == c && hdrNat h 50 2 == Config.archStep.toNat &&
  hdrNat h 52 1 == 0 && 4096 ≤ hdrNat h 8 8

/-- Whether every core with sections in an image is granted (R303). -/
def coresGranted (h : List Byte) (cores : List Nat) : Bool :=
  (List.range 160).all fun k => !(hdrNat h 64 20).testBit k || cores.contains k

/-- Restores one core of a context: its operations ask for their bands again (R226). -/
def State.restoreCore (s : State) (e : Nat × Core) : State :=
  let arr := e.2.arr.map fun (o : ArrOp) => { o with phase := .queued }
  let s1 := s.modCore e.1 fun c =>
    { c with
      tiles := e.2.tiles, tags := e.2.tags, recs := e.2.recs, latch := e.2.latch, arr, arrFl := e.2.arrFl
      level := e.2.level }
  let s2 := ((List.range 4).filter fun b => ((s1.core e.1).band b).failed).foldl (fun s b =>
    s.cancelArr e.1 (fun o => o.usesBands && bandOn o.ashape b) (bandLate b)) s1
  s2.useBands e.1 (s2.core e.1).bandUsed

/-- Each warp's first event on resume: the tokens of batches that completed meanwhile, and an acquire at sys that
follows the releases of the save (R181, R292). -/
def State.resumeWarp (s : State) (ids : List Nat) (w : Nat) : State :=
  let s1 := s.modWarp w fun x => ((x.batches.map (·.reg)).dedup).foldl Warp.deliver x
  (s1.observe [w] ids).acquire [w] .sys

/-- Makes a saved context resident again on the cores that are granted to it: frozen, with its placement queue and stages
as saved (R303, R324). -/
def State.restore (s : State) (v : Save) : State :=
  let s1 := { s with
    nextId := v.blocks.foldl (fun n e => Nat.max n (e.1 + 1)) s.nextId
    warps := v.warps.foldl (fun m e => mins m e.1 e.2) s.warps
    blocks := v.blocks.foldl (fun m e => mins m e.1 e.2) s.blocks
    mem := v.scratch.foldl (fun m e =>
      if e.2.isEmpty then m else (m.scrub e.1 e.2.length).putPiece [] false ((span e.1 e.2.length).zip e.2)) s.mem }
  let s2 := (v.cores.filter fun e => (s.ctx v.ctx).crec.cores.contains e.1).foldl State.restoreCore s1
  let s3 := s2.modCtx v.ctx fun x =>
    { x with
      saved := false, frozen := true, freezing := false, stages := v.cctx.stages
      queue := v.cctx.queue, headAt := v.cctx.headAt, lnum := v.cctx.lnum }
  let ids := (v.warps.flatMap fun e => e.2.rels).dedup
  v.warps.foldl (fun s e => s.resumeWarp ids e.1) s3

/-- Whether a context holds warps, blocks or engine state on its cores. -/
def State.isResident (s : State) (c : Nat) : Bool := !(s.warpsOf c).isEmpty || !(s.blocksOf c).isEmpty

/-! ## The sections of an image -/

/-- The saved blocks of a core, in the order of their sections. -/
def Save.blocksOn (v : Save) (core : Nat) : List (Nat × Block) := v.blocks.filter fun e => e.2.core == core

/-- Restores a warp from its WARP and TOKENS sections. -/
def Save.warpOf (v : Save) (secs : List Section_) (e : Nat × Warp) : Option (Nat × Warp) :=
  let core := (mget {} v.blocks e.2.blk).core
  let at_ (t : Nat) : Option Section_ := secs.find? fun x => x.type == t && x.core == core && x.index == e.2.slot
  if e.2.retired then some e
  else
    match at_ 1 with
    | none => none
    | some x =>
      match e.2.ofSection x.body with
      | none => none
      | some w =>
        match at_ 2 with
        | none => if hdrNat x.body 83 1 = 0 then some (e.1, { w with toks := [] }) else none
        | some t => (tokensOf t.body).map fun ts => (e.1, { w with toks := ts })

/-- Restores a block, and the bytes of its scratch, from its BLOCK and SCRATCH sections. -/
def Save.blockOf (v : Save) (secs : List Section_) (e : Nat × Block) : Option ((Nat × Block) × Nat × List Byte) :=
  let i := (v.blocksOn e.2.core).findIdx fun x => x.1 == e.1
  let at_ (t : Nat) : Option Section_ := secs.find? fun x => x.type == t && x.core == e.2.core && x.index == i
  match at_ 3, at_ 4 with
  | some b, some m =>
    if b.body.length = 776 ∧ hdrNat b.body 768 8 = e.2.scrKb ∧ m.body.length = 1024 * e.2.scrKb then
      some ((e.1, e.2.ofSection b.body), ubsLoc e.2.core e.2.scrBase, m.body)
    else none
  | _, _ => none

/-- Restores the cluster and grid barriers of a cluster, named by its launch number, CLUSTERID and lowest core, from its
CLUSTER section. -/
def Save.clusterOf (v : Save) (secs : List Section_) (x : Ctx) (e : Nat × Nat × Nat) : Ctx :=
  let i := ((clustersOf v.blocks).filter fun k => k.2.2 == e.2.2).findIdx (· == e)
  match (secs.filter fun y => y.type == 5 && y.core == e.2.2)[i]? with
  | none => x
  | some y => x.modStage e.1 fun st =>
      { st with
        cbars := mins st.cbars e.2.1 (barsOf (mget [] st.cbars e.2.1) y.body)
        grid := barsOf st.grid (y.body.drop 128) }

/-- Whether an ARRAY section is an array save image of this version and architecture step whose check holds (R226). -/
def arrayOk (b : List Byte) : Bool :=
  b.length == 655360 && hdrNat b 0 2 == Config.arrayVer.toNat && hdrNat b 2 2 == Config.archStep.toNat &&
  hdrNat b 4 4 == 0xA0000 && hdrNat b 8 8 == (Config.arrayCheck (b.drop 64)).toNat

/-- A core's state as its ARRAY section gives it: what this device saved, where the section is the one that it wrote. -/
def Save.coreOf (v : Save) (secs : List Section_) (e : Nat × Core) : Nat × Core :=
  match secs.find? fun x => x.type == 6 && x.core == e.1 with
  | none => e
  | some x =>
    if x.body = arrayImage (160 * v.num + e.1) then e
    else
      let y := Config.foreignArray x.body
      (e.1, { e.2 with tiles := y.tiles, tags := y.tags, recs := y.recs, latch := y.latch, arr := y.arr, arrFl := y.arrFl })

/-- A saved context as the sections of its image give it; none where sections are missing, where tags and lengths do not
agree, or where an array save image fails its check (R226, R354). -/
def Save.ofSections (v : Save) (secs : List Section_) : Option Save :=
  let ws := v.warps.map (v.warpOf secs)
  let bs := v.blocks.map (v.blockOf secs)
  if ws.any Option.isNone || bs.any Option.isNone || secs.any fun x => x.type == 6 && !arrayOk x.body then none
  else some { v with
    warps := ws.filterMap id
    blocks := (bs.filterMap id).map (·.1)
    scratch := (bs.filterMap id).map (·.2)
    cores := v.cores.map (v.coreOf secs)
    cctx := (clustersOf v.blocks).foldl (v.clusterOf secs) v.cctx }

/-- Sections of a type by core and index. -/
def sectionKeys (secs : List Section_) (t : Nat) : List Nat :=
  (secs.filter fun x => x.type == t).map fun x => 256 * x.core + x.index

/-- Whether the WARP and BLOCK sections of an image are those of the warps and blocks of a save. -/
def Save.fits (v : Save) (secs : List Section_) : Bool :=
  let same (xs ys : List Nat) : Bool := xs.all ys.contains && ys.all xs.contains
  same (sectionKeys secs 1)
    ((v.warps.filter fun e => !e.2.retired).map fun e => 256 * (mget {} v.blocks e.2.blk).core + e.2.slot) &&
  same (sectionKeys secs 3)
    (v.blocks.map fun e => 256 * e.2.core + (v.blocksOn e.2.core).findIdx fun x => x.1 == e.1)

/-- The warps and blocks that the sections of an image name, where no save of this device has them: what no section gives is
free (DESIGN CHOICE, notes/assumptions/31). Blocks are named from `first` on. -/
def foreignSave (c first : Nat) (secs : List Section_) (note : List Byte) : Save :=
  let blocks : SMap Block := (secs.filter fun x => x.type == 3).zipIdx.map fun e =>
    (first + e.2, { Config.foreignBlock note (256 * e.1.core + e.1.index) with
      ctx := c, core := e.1.core, scrKb := hdrNat e.1.body 768 8, bars := List.replicate 16 {}, rdvs := [] })
  let warps : SMap Warp := (secs.filter fun x => x.type == 1).foldl (fun m x =>
    let key := 256 * x.core + x.index
    let here := blocks.filter fun b => b.2.core == x.core
    match here[Config.foreignHome note key % here.length]? with
    | none => m
    | some b =>
      let wid := (m.filter fun e => e.2.blk == b.1).length
      mins m (32 * b.1 + wid) { Config.foreignWarp note key with
        ctx := c, blk := b.1, wid, slot := x.index, nregs := hdrNat x.body 80 2, retired := false, inHandler := false
        toks := [], batches := [], park := .none, late := none, vMark := [], sMark := [], pMark := [] }) []
  let cores : SMap Core := ((blocks.map fun b => b.2.core).dedup).foldl (fun m k =>
    mins m k { Config.foreignCore note k with tiles := [], tags := [], latch := {}, arr := [], arrFl := [] }) []
  { note, num := 0, ctx := c, cctx := Config.foreignContext note, warps, blocks, cores, scratch := [] }

/-- The state that an image of context `c` holds: its sections as they stand in memory, and what has no layout as this device
saved it, or a free value (R124, R353; DESIGN CHOICE, notes/assumptions/31). None where it fails its check, or where a core with
sections is not granted (R303). -/
def State.imageOf (s : State) (c nsect : Nat) (body : List Byte) : Option Save :=
  (sectionsOf nsect body).bind fun secs =>
    let note := (secs.find? fun x => x.type == 7).elim [] (·.body)
    let v := (s.saves.find? fun v => !note.isEmpty && v.note == note && v.ctx == c && v.fits secs).getD
      (foreignSave c s.nextId secs note)
    if (secs.all fun x => x.type == 7 || (s.ctx c).crec.cores.contains x.core) && v.fits secs then v.ofSections secs else none

/-- Effect of `CTX.LOAD`: the image at B is checked and restored from its bytes. A context that holds resident state is refused
before the area is read, and an area that cannot be read before its image is judged (DEDUCED, notes/assumptions/31). -/
def effCtxLoad (a : Args) (s : State) (g : Grp) : Res :=
  let c := (s.sval g (srcA a)).toNat
  let w := leaderOf g
  let base := s.sval g (srcB a 0)
  match s.ctxCode g c with
  | some k => s.ctxAnswer g a k
  | none =>
    if s.isResident c then s.ctxAnswer g a 8
    else
      match s.readArea w base 0 4096 with
      | (s1, none) => s1.ctxAnswer g a 4
      | (s1, some h) =>
        if !headerOk h c || !coresGranted h (s.ctx c).crec.cores then s1.ctxAnswer g a 3
        else
          match s1.readArea w base 4096 (hdrNat h 8 8 - 4096) with
          | (s2, none) => s2.ctxAnswer g a 4
          | (s2, some body) =>
            if digestBytes (sha256 body) = (h.drop 16).take 32 then
              match s2.imageOf c (hdrNat h 4 4) body with
              | none => s2.ctxAnswer g a 3
              | some v => (s2.restore v).ctxAnswer g a 0
            else s2.ctxAnswer g a 3

/-- `CTX.LOAD` (R124). -/
def execCtxLoad (a : Args) (s : State) : Host.Outcome State Fault Refusal := s.issue .ctxLoad a (effCtxLoad a)

end Sys2Proof.Machine
end

