-- ==== Sys2Proof/Machine/Control.lean ====
section
/-! DEFINITION. Control instructions 0x00 to 0x0F (spec/05 R101 to R109, spec/02 R35 to R42, spec/20 R343). -/

namespace Sys2Proof.Machine

/-! ## Shared operations -/

/-- The near target: OFF, or IMM12 in the extended form, in words from word 0 (R66, R101). -/
def nearTarget (a : Args) (pc : Word) : Word :=
  match a.form with
  | .base | .baseLit => pc + 4 * a.off.signExtend 64
  | .ext | .extLit => pc + 4 * a.imm.signExtend 64

/-- The literal target, in words from word 0 (R101). -/
def litTarget (a : Args) (pc : Word) : Word :=
  match a.form with
  | .base | .baseLit => pc + 4 * (a.lit.setWidth 32).signExtend 64
  | .ext | .extLit => pc + 4 * a.lit

/-- Whether the instruction carries a literal. -/
def hasLit (a : Args) : Bool := a.form == .baseLit || a.form == .extLit

/-- The target of every transfer but `IF` (R101). -/
def target (a : Args) (pc : Word) : Word := if hasLit a then litTarget a pc else nearTarget a pc

/-- The condition mask c: EXEC and the predicate, negated by PN (R37). -/
def condMask (x : Warp) (a : Args) : Mask := x.exec &&& x.pred a.p.toNat a.pn

/-- A transfer to a target, checked for alignment (R62). -/
def State.jumpRes (s : State) (w : Nat) (t : Word) : Res :=
  match misaligned t with
  | some e => .trap s e
  | none => .moved (s.jump w t)

/-- The end of a step of structured control that may have left EXEC zero (R37): settle, or go on. -/
def State.settled (s : State) (w : Nat) (k : State → Res) : Res :=
  if (s.warp w).exec ≠ 0 then k s
  else
    match s.settle w with
    | (s1, some t) => .trap s1 t
    | (s1, none) => .moved s1

/-- Sets EXEC. -/
def State.setExec (s : State) (w : Nat) (e : Mask) : State := s.modWarp w fun x => { x with exec := e }

/-- Replaces the top token. -/
def State.setTop (s : State) (w : Nat) (t : Token) : State := s.modWarp w fun x => { x with toks := t :: x.toks.tail }

/-! ## Tokens in the spill stack (DEDUCED, notes/assumptions/10) -/

/-- Every token of a warp's stack, top first: those in hardware, then the spilled groups from SSP up. -/
def State.allToks (s : State) (w : Nat) : State × Except Trap (List Token) :=
  let x := s.warp w
  if x.spilled = 0 ∨ x.inHandler then (s, .ok x.toks)
  else
    match s.locSpan w false x.ssp (256 * x.spilled) with
    | (s1, .error e) => (s1, .error e)
    | (s1, .ok ls) =>
      let (s2, r) := s1.readNow w 0 ls
      let img (i : Nat) : List Nat := (ls.drop (32 * i)).take 32
      let order := (List.range x.spilled).flatMap fun g => (List.range 8).map fun i => 8 * g + (7 - i)
      match order.findSome? fun i => (r.poison (img i)).map fun c => (i, c) with
      | some (i, c) => (s2, .error ⟨0x14, 16 * c, x.ssp + BitVec.ofNat 64 (32 * i)⟩)
      | none =>
        let toks := order.map fun i => tokenOfImage x.live ((img i).map r.byte)
        if toks.any Option.isNone then (s2, .error (illegal 0x12)) else (s2, .ok (x.toks ++ toks.filterMap id))

/-- Puts changed tokens back: those in hardware, and the changed images of spilled ones. -/
def State.putToks (s : State) (w : Nat) (old new : List Token) : State × Option Trap :=
  let x := s.warp w
  let n := x.toks.length
  let s1 := s.modWarp w fun x => { x with toks := new.take n }
  let changed := ((old.zip new).zipIdx.drop n).filter fun e => e.1.1 != e.1.2
  changed.foldl (fun acc e =>
    match acc with
    | (s, some t) => (s, some t)
    | (s, none) =>
      let i := e.2 - n
      let p := x.ssp + BitVec.ofNat 64 (256 * (i / 8) + 32 * (7 - i % 8))
      match s.locSpan w true p 32 with
      | (s', .error t) => (s', some t)
      | (s', .ok ls) => (s'.store [w] 0 p (ls.zip (tokenImage e.1.2)), none)) (s1, none)

/-- Changes the stack by a function that may find no token to act on; spilled tokens are reached only where those in
hardware do not decide. -/
def State.onToks (s : State) (w : Nat) (f : List Token → Option (List Token)) : State × Except Trap Bool :=
  match f (s.warp w).toks with
  | some ts => (s.modWarp w fun x => { x with toks := ts }, .ok true)
  | none =>
    if (s.warp w).toks.any fun t => t.kind == .callTok then (s, .ok false)
    else
    match s.allToks w with
    | (s1, .error t) => (s1, .error t)
    | (s1, .ok old) =>
      match f old with
      | none => (s1, .ok false)
      | some new =>
        match s1.putToks w old new with
        | (s2, some t) => (s2, .error t)
        | (s2, none) => (s2, .ok true)

/-! ## Branches -/

/-- Effect of `NOP` (R103). -/
def effNop (s : State) (_ : Grp) : Res := .next s

/-- `NOP` (R103). -/
def execNop (a : Args) (s : State) : Host.Outcome State Fault Refusal := s.issue .nop a effNop

/-- Effect of `BRA` (R104). -/
def effBra (a : Args) (s : State) (g : Grp) : Res :=
  let w := leaderOf g
  let x := s.warp w
  let c := condMask x a
  if c = x.exec then s.jumpRes w (target a x.pc)
  else if c = 0 then .next s
  else .trap s { code := 0x03, detail := 0x02 }

/-- `BRA` (R104). -/
def execBra (a : Args) (s : State) : Host.Outcome State Fault Refusal := s.issue .bra a (effBra a)

/-- Table 5.2, FLAG: the condition over OVF_FLAGS. -/
def brcFlagTaken (cond : Nat) (f : Word) : Bool :=
  let any (m : Nat) : Bool := f &&& BitVec.ofNat 64 m != 0
  match cond with
  | 0 => any 0x300
  | 1 => any 0x400
  | 2 => any 0x1
  | 3 => any 0x4
  | 4 => any 0x20
  | 5 => !any 0x700
  | 6 => any 0x7FF
  | _ => !any 0x7FF

/-- Table 5.2, REG: the condition over operand A read as I64. -/
def brcRegTaken (cond : Nat) (x : Word) : Bool :=
  match cond with
  | 0 => x.toInt == 0
  | 1 => x.toInt != 0
  | 2 => x.toInt < 0
  | 3 => 0 ≤ x.toInt
  | 4 => 0 < x.toInt
  | _ => x.toInt ≤ 0

/-- Effect of `BRC.FLAG` (R105). -/
def effBrcFlag (a : Args) (s : State) (g : Grp) : Res :=
  let w := leaderOf g
  let x := s.warp w
  if s.flagsWait w then .stall s
  else if brcFlagTaken a.p.toNat x.ovf then s.jumpRes w (target a x.pc) else .next s

/-- `BRC.FLAG` (R105). -/
def execBrcFlag (a : Args) (s : State) : Host.Outcome State Fault Refusal := s.issue .brcFlag a (effBrcFlag a)

/-- Effect of `BRC.REG` (R105). -/
def effBrcReg (a : Args) (s : State) (g : Grp) : Res :=
  let w := leaderOf g
  if brcRegTaken a.p.toNat (s.sval g (srcA a)) then s.jumpRes w (target a (s.warp w).pc) else .next s

/-- `BRC.REG` (R105). -/
def execBrcReg (a : Args) (s : State) : Host.Outcome State Fault Refusal := s.issue .brcReg a (effBrcReg a)

/-- Effect of `JMPI` (R106). -/
def effJmpi (a : Args) (s : State) (g : Grp) : Res := s.jumpRes (leaderOf g) (s.sval g (srcA a))

/-- `JMPI` (R106). -/
def execJmpi (a : Args) (s : State) : Host.Outcome State Fault Refusal := s.issue .jmpi a (effJmpi a)

/-! ## Structured control (R37) -/

/-- Pushes a token and goes on, or takes the trap of the push. -/
def State.pushed (s : State) (w : Nat) (t : Token) (k : State → Res) : Res :=
  match s.pushTok w t with
  | (s1, some e) => .trap s1 e
  | (s1, none) => k s1

/-- Pops the top token and goes on, or takes the trap of the refill. -/
def State.popped (s : State) (w : Nat) (k : State → Res) : Res :=
  match s.popTok w with
  | (s1, some e) => .trap s1 e
  | (s1, none) => k s1

/-- Effect of `CALL` (R37). -/
def effCall (a : Args) (s : State) (g : Grp) : Res :=
  let w := leaderOf g
  let x := s.warp w
  let t := target a x.pc
  match misaligned t with
  | some e => .trap s e
  | none =>
    s.pushed w { kind := .callTok, join := x.pc + BitVec.ofNat 64 (argBytes a), aux := 0, saved := x.exec, pend := 0,
                 brk := 0, cont := 0 } fun s1 => .moved (s1.jump w t)

/-- `CALL` (R37). -/
def execCall (a : Args) (s : State) : Host.Outcome State Fault Refusal := s.issue .call a (effCall a)

/-- Effect of `IF` (R37, R107): its addresses are checked before any token changes (R108). -/
def effIfc (a : Args) (s : State) (g : Grp) : Res :=
  let w := leaderOf g
  let x := s.warp w
  let aux := nearTarget a x.pc
  let join := if hasLit a then litTarget a x.pc else aux + 4
  let c := condMask x a
  let f := x.exec &&& ~~~c
  let tok (pend : Mask) : Token := { kind := .ifTok, join, aux, saved := x.exec, pend, brk := 0, cont := 0 }
  match misaligned (aux ||| join) with
  | some _ => .trap s ⟨0x12, 0, if aux &&& 3 ≠ 0 then aux else join⟩
  | none =>
    if c ≠ 0 then s.pushed w (tok f) fun s1 => .next (s1.setExec w c)
    else s.pushed w (tok 0) fun s1 => .moved ((s1.setExec w f).jump w aux)

/-- `IF` (R37). -/
def execIfc (a : Args) (s : State) : Host.Outcome State Fault Refusal := s.issue .ifc a (effIfc a)

/-- Effect of `ELSE` (R37, R39). -/
def effElsec (s : State) (g : Grp) : Res :=
  let w := leaderOf g
  match (s.warp w).toks with
  | t :: _ =>
    if t.kind = .ifTok then
      if t.pend ≠ 0 then ((s.setTop w { t with pend := 0 }).setExec w t.pend).jumpRes w t.aux
      else
        match misaligned t.join with
        | some e => .trap s e
        | none =>
          (s.setExec w t.saved).popped w fun s1 => (s1.jump w t.join).settled w fun s2 => .moved s2
    else .trap s (illegal 0x10)
  | [] => .trap s (illegal 0x10)

/-- `ELSE` (R37). -/
def execElsec (a : Args) (s : State) : Host.Outcome State Fault Refusal := s.issue .elsec a effElsec

/-- Effect of `ENDIF` (R37, R39). -/
def effEndif (s : State) (g : Grp) : Res :=
  let w := leaderOf g
  match (s.warp w).toks with
  | t :: _ =>
    if t.kind = .ifTok then (s.setExec w t.saved).popped w fun s1 => s1.settled w fun s2 => .next s2
    else .trap s (illegal 0x10)
  | [] => .trap s (illegal 0x10)

/-- `ENDIF` (R37). -/
def execEndif (a : Args) (s : State) : Host.Outcome State Fault Refusal := s.issue .endif a effEndif

/-- Effect of `LOOP` (R37, R107). -/
def effLoopc (a : Args) (s : State) (g : Grp) : Res :=
  let w := leaderOf g
  let x := s.warp w
  let join := target a x.pc
  match misaligned join with
  | some e => .trap s e
  | none =>
    s.pushed w { kind := .loopTok, join, aux := x.pc + BitVec.ofNat 64 (argBytes a), saved := x.exec, pend := 0,
                 brk := 0, cont := 0 } fun s1 => .next s1

/-- `LOOP` (R37). -/
def execLoopc (a : Args) (s : State) : Host.Outcome State Fault Refusal := s.issue .loopc a (effLoopc a)

/-- The stack after lanes c leave for the nearest LOOP token above any CALL token: they leave the IF tokens above it
(R37, R39); none where there is no such token. -/
def leaveToLoop (c : Mask) (f : Token → Token) : List Token → Option (List Token)
  | [] => none
  | t :: ts =>
    match t.kind with
    | .loopTok => some (f t :: ts)
    | .callTok => none
    | .ifTok => (leaveToLoop c f ts).map fun us => { t with saved := t.saved &&& ~~~c, pend := t.pend &&& ~~~c } :: us

/-- The common effect of `BREAK` and `CONT` (R37). -/
def State.leaveLoop (s : State) (w : Nat) (c : Mask) (f : Token → Token) : Res :=
  match s.onToks w (leaveToLoop c f) with
  | (s1, .error t) => .trap s1 t
  | (s1, .ok false) => .trap s1 (illegal 0x10)
  | (s1, .ok true) => (s1.setExec w ((s1.warp w).exec &&& ~~~c)).settled w fun s2 => .next s2

/-- Effect of `BREAK` (R37). -/
def effBrk (a : Args) (s : State) (g : Grp) : Res :=
  let c := condMask (s.warp (leaderOf g)) a
  s.leaveLoop (leaderOf g) c fun t => { t with brk := t.brk ||| c }

/-- `BREAK` (R37). -/
def execBrk (a : Args) (s : State) : Host.Outcome State Fault Refusal := s.issue .brk a (effBrk a)

/-- Effect of `CONT` (R37). -/
def effCont (a : Args) (s : State) (g : Grp) : Res :=
  let c := condMask (s.warp (leaderOf g)) a
  s.leaveLoop (leaderOf g) c fun t => { t with cont := t.cont ||| c }

/-- `CONT` (R37). -/
def execCont (a : Args) (s : State) : Host.Outcome State Fault Refusal := s.issue .cont a (effCont a)

/-- Effect of `ENDLOOP` (R37, R39). -/
def effEndloop (a : Args) (s : State) (g : Grp) : Res :=
  let w := leaderOf g
  let x := s.warp w
  match x.toks with
  | t :: _ =>
    if t.kind = .loopTok then
      let c := condMask x a
      let stay := c ||| t.cont
      let brk := t.brk ||| (x.exec &&& ~~~c)
      if stay ≠ 0 then ((s.setTop w { t with brk, cont := 0 }).setExec w stay).jumpRes w t.aux
      else (s.setExec w brk).popped w fun s1 => s1.settled w fun s2 => .next s2
    else .trap s (illegal 0x10)
  | [] => .trap s (illegal 0x10)

/-- `ENDLOOP` (R37). -/
def execEndloop (a : Args) (s : State) : Host.Outcome State Fault Refusal := s.issue .endloop a (effEndloop a)

/-- Lanes exit (R37; in a handler R343). -/
def State.exitLanes (s : State) (w : Nat) : Res :=
  let m := (s.warp w).exec
  let s1 := s.modWarp w fun x =>
    { x with live := x.live &&& ~~~m, toks := x.toks.map (·.clear m), savedToks := x.savedToks.map (·.clear m),
             exec := 0 }
  let y := s1.warp w
  if y.inHandler && y.toks.isEmpty && y.live != 0 then .next (s1.setExec w y.live)
  else s1.settled w fun s2 => .next s2

/-- Effect of `EXIT` (R37). -/
def effExit (s : State) (g : Grp) : Res := s.exitLanes (leaderOf g)

/-- `EXIT` (R37). -/
def execExit (a : Args) (s : State) : Host.Outcome State Fault Refusal := s.issue .exit a effExit

/-- The stack after the EXEC lanes m return to the nearest CALL token; none where there is none (R37). -/
def returnToCall (m : Mask) : List Token → Option (List Token)
  | [] => none
  | t :: ts =>
    match t.kind with
    | .callTok => some ({ t with pend := t.pend ||| m } :: ts)
    | _ => (returnToCall m ts).map fun us => t.clear m :: us

/-- Effect of `RET` (R37). -/
def effRet (s : State) (g : Grp) : Res :=
  let w := leaderOf g
  match s.onToks w (returnToCall (s.warp w).exec) with
  | (s1, .error t) => .trap s1 t
  | (s1, .ok false) =>
    match (s.warp w).late with
    | some t =>
      if (s.warp w).spilled = 0 ∨ (s.warp w).inHandler then s1.exitLanes w
      else .moved ((s.modWarp w fun x => { x with late := none }).trap w ⟨t.code, t.detail, t.addr⟩)
    | none => s1.exitLanes w
  | (s1, .ok true) => (s1.setExec w 0).settled w fun s2 => .next s2

/-- `RET` (R37). -/
def execRet (a : Args) (s : State) : Host.Outcome State Fault Refusal := s.issue .ret a effRet

/-! ## YIELD and TRAP -/

/-- Effect of `YIELD` (R103). -/
def effYield (s : State) (g : Grp) : Res := .last (s.modWarp (leaderOf g) fun x => { x with yielded := true })

/-- `YIELD` (R103). -/
def execYield (a : Args) (s : State) : Host.Outcome State Fault Refusal := s.issue .yield a effYield

/-- Effect of `TRAP` (R109): the breakpoint trap with EPC past the instruction. -/
def effTrap (a : Args) (s : State) (g : Grp) : Res :=
  let w := leaderOf g
  let x := s.warp w
  .moved (s.trapAt w { code := 0x20, detail := a.imm.toNat % 256 } (x.pc + BitVec.ofNat 64 (argBytes a)) x.wid)

/-- `TRAP` (R109). -/
def execTrap (a : Args) (s : State) : Host.Outcome State Fault Refusal := s.issue .trap a (effTrap a)

end Sys2Proof.Machine
end

