-- ==== Sys2Proof/Machine/JigOps.lean ====
section
/-! DEFINITION. Sweep jigs (spec/11 R257 to R267, spec/12 R290): records, regions, passes and the sweep of a row. -/

namespace Sys2Proof.Machine

/-! ## Records (R257, R259) -/

/-- The element types of a jig. -/
def jigTypes : List EType := [.f32, .f16, .bf16, .i32, .n32, .i16x4, .i8x8, .n8x8, .b8a, .b8b]

/-- The integer that an FP32 constant holds, if it is one from 1 to 24. -/
def rndpBits (c : Word) : Option Nat :=
  match decodeF .f32 (elemAt c 32 0) with
  | .fin false m e =>
    let (n, inexact) := roundInt .rtz false m e
    if inexact || n == 0 || 24 < n then none else some n
  | _ => none

/-- Whether a step with its constant is allowed for an element type (Table 11.2, R259). -/
def jigStepOk (ty : EType) (code : Nat) (c : Word) : Bool :=
  if ty.isFloat then
    [1, 2, 3, 4, 5, 6, 10].contains code && (code == 3 || c.extractLsb' 32 32 == 0) &&
      (code != 10 || (rndpBits c).isSome)
  else
    1 ≤ code && code ≤ 9 && (code != 8 || c.toNat ≤ 63) && (code != 9 || (1 ≤ c.toNat && c.toNat ≤ 64))

/-- The jig that a record of 64 B defines, its binary8 slot resolved from FPMODE; none where it is malformed. Bits 63:32 of
every floating constant but FMAC's must be zero, those of steps at or beyond NSTEP too (R257). -/
def jigOf (fp : Word) (bs : List Byte) : Option Jig :=
  let b (i : Nat) : Nat := (bs.getD i 0).toNat
  let n := b 1 % 8
  let steps := (List.range n).map fun i => (b (4 + i), ofBytes ((bs.drop (16 + 8 * i)).take 8))
  let unused := (List.range 4).filter (n ≤ ·)
  let zero := ([2, 3] ++ span 8 8 ++ span 48 16 ++ unused.map (4 + ·)).all fun i => b i == 0
  let high := (unused.flatMap fun i => span (20 + 8 * i) 4).any fun i => b i != 0
  match EType.ofCode (BitVec.ofNat 4 (b 0)) with
  | none => none
  | some ty =>
    if 16 ≤ b 0 || !jigTypes.contains ty || !zero || (ty.isFloat && high) || n == 0 || 4 < n || b 1 / 8 % 16 != 0 ||
        !steps.all fun st => jigStepOk ty st.1 st.2 then none
    else
      some { ety := ty, b8 := if ty = .b8a then fpSlotA fp else if ty = .b8b then fpSlotB fp else {},
             sat := b 1 / 128 == 1, steps }

/-! ## The transform (R258) -/

/-- The format of a floating jig's elements. -/
def Jig.fmt (j : Jig) : FFmt :=
  match j.ety with
  | .f16 => .f16 | .bf16 => .bf16 | .b8a => .b8 j.b8 | .b8b => .b8 j.b8 | _ => .f32

/-- Rounds a value to c significant bits, to nearest even. -/
def roundSig (v : FVal) (c : Nat) : FVal :=
  match v with
  | .fin n m e =>
    let k := Nat.log2 m + 1
    if m = 0 ∨ k ≤ c then v else .fin n (roundInt .rne n m (-((k - c : Nat) : Int))).1 (e + (k - c : Nat))
  | _ => v

/-- One step of a floating jig on an FP32 code. -/
def jigStepF (code : Nat) (c : Word) (x : Nat) : Nat :=
  let v := decodeF .f32 x
  let lo := decodeF .f32 (elemAt c 32 0)
  let r (ops : List FVal) (y : Option FVal) : Nat := (finishOp .f32 .rne false false ops y).1
  match code with
  | 1 => r [v, lo] (xmul v lo)
  | 2 => r [v, lo] (xadd .rne v lo)
  | 3 =>
    let hi := decodeF .f32 (elemAt c 32 1)
    r [v, lo, hi] ((xmul v lo).bind fun p => xadd .rne p hi)
  | 4 => (fminmax .f32 false false v lo).1
  | 5 => (fminmax .f32 false true v lo).1
  | 6 => if !v.isNan && !lo.isNan && fcompare (v.withNeg false) lo < 0 then 0 else x
  | _ => r [v] (some (roundSig v ((rndpBits c).getD 24)))

/-- One step of an integer jig, before the reduction modulo 2^64. -/
def jigStepI (signed : Bool) (code : Nat) (c : Word) (v : Int) : Int :=
  let k := c.toNat
  let w := BitVec.ofInt 64 v
  match code with
  | 1 => v * c.toInt
  | 2 => v + c.toInt
  | 3 => v * (c.setWidth 32).toInt + (c.extractLsb' 32 32).toInt
  | 4 => min v c.toInt
  | 5 => max v c.toInt
  | 6 => if (v.natAbs : Int) < c.toInt then 0 else v
  | 7 => (w ^^^ c).toInt
  | 8 => if signed then v / (2 ^ k : Nat) else (w.toNat / 2 ^ k : Nat)
  | _ =>
    let lo : Int := if signed then -(2 ^ (k - 1) : Nat) else 0
    let hi : Int := if signed then (2 ^ (k - 1) : Nat) - 1 else (2 ^ k : Nat) - 1
    min (max v lo) hi

/-- A jig on one element. -/
def Jig.elem (j : Jig) (x : Nat) : Nat :=
  if j.ety.isFloat then
    let v0 := decodeF j.fmt x
    let v := j.steps.foldl (fun v st => jigStepF st.1 st.2 v) (roundTo .f32 .rne false false [v0] v0).1
    let r := decodeF .f32 v
    (roundTo j.fmt .rne j.sat false [r] r).1
  else
    let sg := EType.signedInt j.ety
    let v := j.steps.foldl (fun v st => (BitVec.ofInt 64 (jigStepI sg st.1 st.2 v)).toInt) (readInt sg j.ety.width x)
    fitInt j.ety j.sat v

/-- A jig on the bytes of a row. -/
def Jig.row (j : Jig) (bs : List Byte) : List Byte :=
  let k := j.ety.width / 8
  (List.range (bs.length / k)).flatMap fun i => leBytes k (j.elem (natOfBytes ((bs.drop (k * i)).take k)))

/-! ## JIG.DEF (R259) -/

/-- The jig-conflict trap. -/
def jigBad (detail : Nat) : Trap := { code := 0x1B, detail }

/-- Effect of `JIG.DEF`: the record is read precisely, and the slot is written in every channel. -/
def effJigDef (a : Args) (s : State) (g : Grp) : Res :=
  let w := leaderOf g
  let x := s.warp w
  let p := s.sval g (srcA a)
  let slot := (a.imm.extractLsb' 0 4).toNat
  if 3 < spaceOf p ∨ p.extractLsb' 48 12 ≠ 0 then .trap s ⟨0x13, 0, p⟩
  else if p.toNat % 64 ≠ 0 then .trap s ⟨0x12, 0, p⟩
  else
    match s.places w {} p 64 with
    | (s1, .error e) => .trap s1 e.trap
    | (s1, .ok ps) =>
      let ls := memLocs ps
      if s1.ownHeld [w] ls || s1.blocked w s1.nextId ls then .stall s
      else
      let (s2, r) := s1.readNow w 0 ls
      let used := s.regions.any fun q => q.ctx == x.ctx && q.passes.any fun y => y.slot == slot
      match r.poison ls, jigOf x.fpmode (ls.map r.byte) with
      | some _, _ => .trap s2 ⟨0x14, 0, p⟩
      | none, j =>
        if used then .trap s2 (jigBad 0x01)
        else if !(s.ctx x.ctx).crec.jigGrant.getLsbD slot then .trap s2 (jigBad 0x04)
        else
          match j with
          | none => .trap s2 (jigBad 0x06)
          | some j =>
            if 255 ≤ x.bankCnt then .stall s
            else
              let (id, s3) := s2.fresh
              .next ({ s3 with
                jigs := mins s3.jigs slot (some j)
                pend := mins s3.pend id (.jigDef w) }.modWarp w fun y => { y with bankCnt := y.bankCnt + 1 })

/-- `JIG.DEF` (R259). -/
def execJigDef (a : Args) (s : State) : Host.Outcome State Fault Refusal := s.issue .jigDef a (effJigDef a)

/-- `JIG_DEF_ACCEPTED` (R259): every channel has accepted the definition. -/
def execJigDefAccepted (id : Nat) (s : State) : Host.Outcome State Fault Refusal :=
  match mfind s.pend id with
  | some (.jigDef w) =>
    .next ({ s with pend := mdel s.pend id }.modWarpAny w fun y => { y with bankCnt := y.bankCnt - 1 })
  | _ => .next s

/-! ## JIG.ARM (R261) -/

/-- The region of a context with exact bounds. -/
def State.region? (s : State) (c : Nat) (start : Word) (rows : Nat) : Option Region :=
  s.regions.find? fun q => q.ctx == c && q.start == start && q.rows.length == rows

/-- The jig-conflict trap of an ARM (R261). -/
def State.armTrap (s : State) (c slot : Nat) (start : Word) (rows : List Nat) : Option Trap :=
  let own := s.region? c start rows.length
  let clash := s.regions.any fun q => some q != own && q.rows.any rows.contains
  if clash then some (jigBad 0x02)
  else if own.isNone && 32 ≤ (s.regions.filter fun q => q.ctx == c).length then some (jigBad 0x03)
  else if !(s.ctx c).crec.jigGrant.getLsbD slot || (mget none s.jigs slot).isNone then some (jigBad 0x04)
  else none

/-- The counter of an ARM: absent, or at its home (R192); one on another device is signalled there
(DEDUCED, notes/assumptions/29). -/
def State.armCounter (s : State) (g : Grp) (a : Args) : State × Except Trap (Option Nat) :=
  if a.kc = .v then (s, .ok none)
  else
    match s.counterPlace (leaderOf g) true (s.sval g (srcC a)) with
    | (s1, .error t) => (s1, .error t)
    | (s1, .ok (.home l)) => (s1, .ok (some l))
    | (s1, .ok (.loop vas)) =>
      match s1.loopPlaces (s.warp (leaderOf g)).ctx true (s.sval g (srcC a)) vas with
      | (s2, .error _) => (s2, .ok none)
      | (s2, .ok ls) => (s2, .ok ls.head?)
    | (s1, .ok (.far _ _ _)) => (s1, .ok none)

/-- Adds a pass to a region, making its entry at the first ARM of its bounds. -/
def State.addPass (s : State) (c : Nat) (start : Word) (rows : List Nat) (mk : Nat → Pass) : State :=
  match s.region? c start rows.length with
  | some q =>
    { s with regions := s.regions.map fun (r : Region) =>
        if r == q then { r with passes := r.passes ++ [mk r.nextSeq], nextSeq := r.nextSeq + 1 } else r }
  | none => { s with regions := s.regions ++ [{ ctx := c, start, rows, nextSeq := 2, passes := [mk 1] }] }

/-- Arms a pass whose checks have passed: a release at dev, the caches give up its rows, the token's own batch, and the pass
of its region, for its controller to accept. What the arming warp releases from now on comes after the `ARM` (R265). -/
def State.startArm (s : State) (g : Grp) (a : Args) (start : Word) (rows : List (Word × Nat)) (counter : Option Nat) : Res :=
  let w := leaderOf g
  let x := s.warp w
  let locs := rows.map (·.2)
  let slot := (a.imm.extractLsb' 0 4).toNat
  let full := match s.region? x.ctx start locs.length with
    | none => false
    | some q => 4 ≤ q.passes.length
  if full || 255 ≤ x.bankCnt || 8 ≤ x.outstanding || s.relWaits [w] .dev then .stall s
  else
    let s1 := (s.release [w] .dev).1.beneath w fun l => locs.contains (memRow l)
    let (id, s2) := s1.fresh
    let (seq, y) := (s2.warp w).ownBatch a.d.toNat id
    let s3 := (s2.setWarp w { y with bankCnt := y.bankCnt + 1, floors := mset 0 y.floors (armLoc id) 1 }).trace w 6 start
    let s4 := s3.addPass x.ctx start locs fun n =>
      { id, seq := n, slot, jig := (mget none s.jigs slot).getD {}, haste := a.imm.getLsbD 4, counter, w, batch := seq }
    let s5 := { s4 with pend := mins s4.pend id (.arm w x.ctx start id) }
    .next (s5.jrnAdd x.ctx id)

/-- The alignment that an ARM asks of its region (R261). -/
def armAlign (p len : Word) : Option Trap :=
  if p.toNat % 1024 ≠ 0 then some ⟨0x12, 1, p⟩
  else if len.toNat % 1024 ≠ 0 ∨ len = 0 then some ⟨0x12, 1, len⟩ else none

/-- Effect of `JIG.ARM` (R261). -/
def effJigArm (a : Args) (s : State) (g : Grp) : Res :=
  let w := leaderOf g
  let c := (s.warp w).ctx
  let p := s.sval g (srcA a)
  let len := s.sval g (srcB a 0)
  match s.rngCheck w [{ p, n := len.toNat, write := true }] (armAlign p len) with
  | (s1, .error t) => .trap s1 t
  | (s1, .ok rs) =>
    match s1.armCounter g a with
    | (s2, .error t) => .trap s2 t
    | (s2, .ok ctr) =>
      let rows := rangeRows p (rs.getD 0 ([], true)).1 len.toNat
      match (s2.armTrap c (a.imm.extractLsb' 0 4).toNat p (rows.map (·.2))).orElse fun _ => s2.jrnTrap c rows with
      | some t => .trap s2 t
      | none => s2.startArm g a p rows ctr

/-- `JIG.ARM` (R261). -/
def execJigArm (a : Args) (s : State) : Host.Outcome State Fault Refusal := s.issue .jigArm a (effJigArm a)

/-- Changes a pass. -/
def State.modPass (s : State) (id : Nat) (f : Pass → Pass) : State :=
  { s with regions := s.regions.map fun (g : Region) =>
      { g with passes := g.passes.map fun p => if p.id == id then f p else p } }

/-- The region that holds a pass, and the pass. -/
def State.pass? (s : State) (id : Nat) : Option (Region × Pass) :=
  s.regions.findSome? fun g => (g.passes.find? fun p => p.id == id).map fun p => (g, p)

/-- `JIG_ARM_ACCEPT` (R261): the controller accepts the pass, and journals it where a step of its context is open (R270);
where a row's die is offline the pass is cancelled (R383). -/
def execJigArmAccept (id : Nat) (s : State) : Host.Outcome State Fault Refusal :=
  match mfind s.pend id, s.pass? id with
  | some (.arm w ..), some (g, p) =>
    if g.rows.any fun r => s.offline (homeDie r) then .next (s.cancelPass p)
    else
      let s1 := { s with pend := mdel s.pend id }.modWarpAny w fun x => { x with bankCnt := x.bankCnt - 1 }
      let s2 := (s1.modPass id fun p => { p with accepted := some s.timer }).jrnAdd g.ctx id
      .next { s2 with regions := s2.regions.map fun (q : Region) =>
        if q.passes.any fun y => y.id == id then { q with lastAcc := Nat.max q.lastAcc p.seq } else q }
  | _, _ => .next s

/-! ## The sweep (R262, R264) -/

/-- The waves of subarrays of a haste pass in one bank: each subarray goes into the current wave unless the wave holds 8
or holds a neighbour; those passed over form the next wave. The fuel bounds the waves. -/
def waves : Nat → List Nat → List (List Nat)
  | 0, _ => []
  | n + 1, subs =>
    if subs.isEmpty then []
    else
      let (wave, rest) := subs.foldl (fun (acc : List Nat × List Nat) k =>
        if acc.1.length < 8 && !acc.1.any (fun j => j + 1 == k || k + 1 == j) then (acc.1 ++ [k], acc.2)
        else (acc.1, acc.2 ++ [k])) ([], [])
      wave :: waves n rest

/-- The subarray of a row. -/
def subarray (r : Nat) : Nat := (physRM r).row / 512

/-- Whether a haste pass may sweep a row next: every row of its subarray below it, and every row of the bank's earlier
waves, has been swept. -/
def hasteNext (g : Region) (p : Pass) (r : Nat) : Bool :=
  let bank := g.rows.filter fun q => (physRM q).bankKey == (physRM r).bankKey
  let subs := (List.range 64).filter fun k => bank.any fun q => subarray q == k
  let earlier := ((waves 64 subs).takeWhile fun wv => !wv.contains (subarray r)).flatten
  bank.all fun q =>
    p.swept.contains q || !(earlier.contains (subarray q) ||
      (subarray q == subarray r && (physRM q).row < (physRM r).row))

/-- Whether a pass is the next of its region on a row, and has been accepted for t_arm (R261, R263). -/
def State.passDue (s : State) (g : Region) (p : Pass) (r : Nat) : Bool :=
  !p.swept.contains r &&
  (match p.accepted with
    | none => false
    | some t => t + 800 ≤ s.timer) &&
  ((g.passes.takeWhile fun q => q.id != p.id).all fun q => q.swept.contains r)

/-- Transforms a row and writes it back, as one indivisible event; a row with an uncorrectable column is poisoned whole
instead, and SKIP is set (R262, R264, R376). A journalled pass has the row copied first (R270). -/
def State.sweepBytes (s : State) (c : Nat) (p : Pass) (r : Nat) : State × Bool :=
  let ls := span r 1024
  let s0 := (if (s.ctx c).jrn.ops.contains p.id then s.jrnCopy c r else s).recall ls
  let (s1, bad) := s0.checkReads 3 ls
  if bad.isEmpty then (s1.performPiece {} true 3 (ls.zip (p.jig.row (s1.mem.peek r 1024))), false)
  else (s1.poisonUnits ls, true)

/-- What a sweep leaves: its position among the sweeps of the row, what memory now holds there, and the charge of the arming
context, 0.3 nJ for each step and 3.1 nJ for a haste row's activation (R266, R268). -/
def State.sweepDone (s : State) (c : Nat) (p : Pass) (r : Nat) (skip : Bool) : State :=
  let s1 := if skip then s else
    { s with mem := { s.mem with sweeps := mset [] s.mem.sweeps r (mget [] s.mem.sweeps r ++ [s.mem.pos r]) } }
  (s1.bankWrote (span r 1024)).charge c (300000 * p.jig.steps.length + (if p.haste then 3100000 else 0))

/-- A pass sweeps a row: the row is transformed, what the pass held there goes on, and the last row completes the pass
(R262, R264, R265). -/
def State.sweepRow (s : State) (g : Region) (p : Pass) (r : Nat) : State :=
  let (s0, skip) := s.sweepBytes g.ctx p r
  let s1 := s0.sweepDone g.ctx p r skip
  let done := (span r 1024).map fun l => (l, s1.mem.pos l)
  let s2 := s1.modPass p.id fun q =>
    { q with
      swept := q.swept ++ [r], skip := q.skip || skip
      view := raiseTo q.view done }
  let s3 := (s2.unpost p.id (· == r) done).unhold p.id (· == r)
  match s3.pass? p.id with
  | none => s3
  | some (_, q) => if g.rows.all q.swept.contains then s3.finishPass q else s3

/-- Sweeps a row with the pass that a test admits; its die must be reachable, and where the sweep would complete the pass,
its counter's die too (R383). -/
def State.sweepWith (s : State) (r : Nat) (ok : Region → Pass → Bool) : State :=
  let due := s.regions.findSome? fun g =>
    if g.rows.contains r then (g.passes.find? fun p => s.passDue g p r && ok g p).map fun p => (g, p) else none
  match due with
  | none => s
  | some (g, p) =>
    let waits := match p.counter with
      | none => false
      | some l => s.offline (homeDie l) && !s.lostLoc l
    if s.offline (homeDie r) || waits then s else s.sweepRow g p r

/-- `REFRESH_ROW` (R262): the refresh sweep reaches a row; the ride pass next in sequence there is applied. -/
def execRefreshRow (row : Nat) (s : State) : Host.Outcome State Fault Refusal :=
  .next (s.sweepWith (memRow row) fun _ p => !p.haste)

/-- `HASTE_ROW_SWEEP` (R262): a haste pass sweeps a row in its wave. -/
def execHasteRowSweep (row : Nat) (s : State) : Host.Outcome State Fault Refusal :=
  .next (s.sweepWith (memRow row) fun g p => p.haste && hasteNext g p (memRow row))

/-! ## POS, QRY and DISARM (R267) -/

/-- The region of a context that starts at an address, where the controller has an entry for it: it has accepted a pass
(R261, spec/16 R328). -/
def State.regionAt (s : State) (c : Nat) (p : Word) : Option Region :=
  s.regions.find? fun q => q.ctx == c && q.start == p && q.lastAcc != 0

/-- The unfinished passes of a region that the controller has accepted. -/
def Region.live (q : Region) : List Pass := q.passes.filter fun p => p.accepted.isSome

/-- What `JIG.POS` answers. -/
def jigPos (q : Region) : Word :=
  match q.live with
  | p :: _ => BitVec.ofNat 64 (p.seq * 2 ^ 32 + p.swept.length)
  | [] => BitVec.ofNat 64 (q.lastAcc * 2 ^ 32 + q.rows.length)

/-- What `JIG.QRY` answers. -/
def jigQry (q : Region) : Word :=
  let old := match q.live with
    | p :: _ => p.slot * 2 ^ 12 + (if p.haste then 2 ^ 8 else 0)
    | [] => 0
  BitVec.ofNat 64 (q.rows.length * 2 ^ 32 + old + q.live.length)

/-- A region without its entry: passes that the controller has yet to accept will make it anew (DEDUCED,
notes/assumptions/29). -/
def Region.removed (q : Region) : Option Region :=
  if q.passes.isEmpty then none
  else some { q with
    lastAcc := 0, nextSeq := q.passes.length + 1, passes := q.passes.zipIdx.map fun e => { e.1 with seq := e.2 + 1 } }

/-- Cancels every unfinished pass of a region and removes its entry. -/
def State.disarm (s : State) (q : Region) : State :=
  let s1 := q.live.foldl State.cancelPass s
  { s1 with regions := s1.regions.filterMap fun (r : Region) =>
      if r.ctx == q.ctx && r.start == q.start then r.removed else some r }

/-- The region that a form names. -/
def State.namedRegion (s : State) (g : Grp) (a : Args) : Option Region :=
  s.regionAt (s.warp (leaderOf g)).ctx (s.sval g (srcA a))

/-- Whether an instruction of the bank-side class would be the warp's 256th outstanding (R206). -/
def State.bankFull (s : State) (g : Grp) : Bool := 255 ≤ (s.warp (leaderOf g)).bankCnt

/-- Effect of `JIG.DISARM`. -/
def effJigDisarm (a : Args) (s : State) (g : Grp) : Res :=
  if s.bankFull g then .stall s
  else
    match s.namedRegion g a with
    | none => .next (s.setScalar g .s a.d.toNat 0)
    | some q => .next ((s.disarm q).setScalar g .s a.d.toNat (BitVec.ofNat 64 q.live.length))

/-- `JIG.DISARM` (R267). -/
def execJigDisarm (a : Args) (s : State) : Host.Outcome State Fault Refusal := s.issue .jigDisarm a (effJigDisarm a)

/-- Effect of `JIG.POS`. -/
def effJigPos (a : Args) (s : State) (g : Grp) : Res :=
  if s.bankFull g then .stall s else .next (s.setScalar g .s a.d.toNat ((s.namedRegion g a).elim 0 jigPos))

/-- `JIG.POS` (R267). -/
def execJigPos (a : Args) (s : State) : Host.Outcome State Fault Refusal := s.issue .jigPos a (effJigPos a)

/-- Effect of `JIG.QRY`. -/
def effJigQry (a : Args) (s : State) (g : Grp) : Res :=
  if s.bankFull g then .stall s else .next (s.setScalar g .s a.d.toNat ((s.namedRegion g a).elim 0 jigQry))

/-- `JIG.QRY` (R267). -/
def execJigQry (a : Args) (s : State) : Host.Outcome State Fault Refusal := s.issue .jigQry a (effJigQry a)

end Sys2Proof.Machine
end

