-- ==== Sys2Proof/Machine/Journal.lean ====
section
/-! DEFINITION. The journal (spec/11 R269 to R272): `JRN.BEGIN`, `JRN.COMMIT` and `JRN.ABORT`. -/

namespace Sys2Proof.Machine

/-- The status word of a journal operation (R269). -/
def jrnStatus (n code : Nat) : Word := BitVec.ofNat 64 (n * 2 ^ 32 + code)

/-- Changes a context's journal. -/
def State.modJrn (s : State) (c : Nat) (f : Journal → Journal) : State :=
  s.modCtx c fun x => { x with jrn := f x.jrn }

/-- Records a journal instruction (R362, KIND 0x6) with the step's number. -/
def State.traceJrn (s : State) (g : Grp) : State :=
  s.trace (leaderOf g) 6 (jrnStatus (s.ctxOf (leaderOf g)).jrn.n 0)

/-- Effect of `JRN.BEGIN` (R269, R270). -/
def effJrnBegin (a : Args) (s : State) (g : Grp) : Res :=
  let c := (s.warp (leaderOf g)).ctx
  let j := (s.ctx c).jrn
  if s.bankFull g then .stall s
  else
  let s := s.traceJrn g
  if j.isOpen then .next (s.setScalar g .s a.d.toNat (jrnStatus j.n 0x01))
  else
    .next ((s.modJrn c fun j => { j with n := j.n + 1, isOpen := true, aborted := false, ops := [] }).setScalar g .s
      a.d.toNat (jrnStatus (j.n + 1) 0x00))

/-- `JRN.BEGIN` (R269). -/
def execJrnBegin (a : Args) (s : State) : Host.Outcome State Fault Refusal := s.issue .jrnBegin a (effJrnBegin a)

/-- Closing a step: D is awaited until the close completes. The controller has accepted the instruction with that, so that it
counts in the bank-side class no longer (R206; DEDUCED, notes/assumptions/29). -/
def State.startClose (s : State) (g : Grp) (a : Args) (c : Nat) (abort : Bool) : State :=
  let w := leaderOf g
  (s.modJrn c fun j => { j with closing := some (w, a.d.toNat, abort) }).modWarp w fun x =>
    { x with busy := x.busy ++ [.s a.d.toNat] }

/-- Effect of `JRN.COMMIT` (R269, R271, R272): it waits for the step's operations, and ends the run. -/
def effJrnCommit (a : Args) (s : State) (g : Grp) : Res :=
  let c := (s.warp (leaderOf g)).ctx
  let j := (s.ctx c).jrn
  let t := s.traceJrn g
  if j.closing.isSome || s.bankFull g then .stall s
  else if j.isOpen then .last (t.startClose g a c false)
  else if j.aborted then
    .last ((t.modJrn c fun j => { j with aborted := false }).setScalar g .s a.d.toNat (jrnStatus j.n 0x04))
  else .last (t.setScalar g .s a.d.toNat (jrnStatus j.n 0x03))

/-- `JRN.COMMIT` (R271). -/
def execJrnCommit (a : Args) (s : State) : Host.Outcome State Fault Refusal := s.issue .jrnCommit a (effJrnCommit a)

/-- Effect of `JRN.ABORT` (R269, R271). -/
def effJrnAbort (a : Args) (s : State) (g : Grp) : Res :=
  let c := (s.warp (leaderOf g)).ctx
  let j := (s.ctx c).jrn
  let t := s.traceJrn g
  if j.closing.isSome || s.bankFull g then .stall s
  else if j.isOpen then .next (t.startClose g a c true)
  else .next (t.setScalar g .s a.d.toNat (jrnStatus j.n 0x03))

/-- `JRN.ABORT` (R271). -/
def execJrnAbort (a : Args) (s : State) : Host.Outcome State Fault Refusal := s.issue .jrnAbort a (effJrnAbort a)

/-- Writes the status of a close and closes the step. -/
def State.endClose (s : State) (c w d code : Nat) (f : Journal → Journal) : State :=
  let n := (s.ctx c).jrn.n
  (s.modJrn c fun j => f { j with closing := none }).modWarpAny w fun x =>
    if x.retired then x
    else { x.sset d (jrnStatus n code) with busy := x.busy.filter (· != .s d) }

/-- `JOURNAL_CLOSE_COMPLETE` (R271): a COMMIT whose operations have completed frees the step's journal rows; an ABORT cancels
the operations in flight, restores every row and frees the journal rows. A step that hardware aborted meanwhile answers a
COMMIT with code 0x04 (R272). -/
def execJournalCloseComplete (c : Nat) (s : State) : Host.Outcome State Fault Refusal :=
  let j := (s.ctx c).jrn
  match j.closing with
  | none => .next s
  | some (w, d, abort) =>
    if !j.isOpen then .next (s.endClose c w d (if abort then 0x00 else 0x04) fun j => { j with aborted := false })
    else if abort then
      .next (((s.jrnCancel c).jrnRestore c).endClose c w d 0x00 fun j => { j with isOpen := false, ops := [] })
    else if j.ops.isEmpty then
      .next (s.endClose c w d 0x00 fun j => { j with isOpen := false, rows := [] })
    else .next s

end Sys2Proof.Machine
end

