-- ==== Sys2Proof/Machine/System.lean ====
section
/-! DEFINITION. Special registers (spec/05 R120, R121), `TLBI` (R123), `TRET`, `SLEEP` and `HALT` (R125 to R127), and a
reserved opcode (spec/03 R76). -/

namespace Sys2Proof.Machine

/-! ## SRD (R120) -/

/-- The value of a special register in lane `l` of member `m`: LANEID is the lane's position in the concatenated
register (R25); every other register is the leader's (DEDUCED, notes/assumptions/41). -/
def State.srdLane (s : State) (g : Grp) (a : Args) (m l : Nat) : Word :=
  let w := leaderOf g
  let b := s.blkOf w
  let x := s.warp m
  if a.func = 0x24 then
    let base := match a.scope with
      | .set => x.wid % b.setw
      | .block => x.wid
      | _ => 0
    BitVec.ofNat 64 (32 * base + l)
  else s.srdValue w a.func.toNat

/-- Effect of `SRD`: it waits for earlier flag-setting instructions where it reads OVF_FLAGS (R97). -/
def effSrd (a : Args) (s : State) (g : Grp) : Res :=
  let w := leaderOf g
  if a.func = 0x06 ∧ s.flagsWait w then .stall s
  else if a.scope = .warp then .next (s.setScalar g a.kd a.d.toNat (s.srdValue w a.func.toNat))
  else
    .next (g.foldl (fun t m =>
      t.modWarp m.1 fun x => x.writeLanes a.d.toNat (s.actedOf a m) fun l => (s.srdLane g a m.1 l, 0)) s)

/-- `SRD` (R120). -/
def execSrd (a : Args) (s : State) : Host.Outcome State Fault Refusal := s.issue .srd a (effSrd a)

/-! ## SWR (R121) -/

/-- The value that `SWR` writes: operand A, or the immediate C. -/
def State.swrVal (s : State) (g : Grp) (a : Args) : Word := if a.ka = .v then immC a else s.sval g (srcA a)

/-- The refusal of a value by its register's rules (R56). -/
def swrBad : Trap := illegal 0x13

/-- Writes a register of the issuing warp, unless the value is refused. -/
def State.swrWarp (s : State) (g : Grp) (bad : Bool) (f : Warp → Warp) : Res :=
  if bad then .trap s swrBad else .next (s.modWarp (leaderOf g) f)

/-- Effect of `SWR` of SSP, CAUSE, EPC and BADADDR. -/
def effSwr (a : Args) (s : State) (g : Grp) : Res :=
  let x := s.swrVal g a
  match a.func.toNat with
  | 0x08 => s.swrWarp g false fun w => { w with ssp := x }
  | 0x10 => s.swrWarp g (x >>> 21 != 0) fun w => { w with cause := x }
  | 0x11 => s.swrWarp g false fun w => { w with epc := x }
  | _ => s.swrWarp g false fun w => { w with badaddr := x }

/-- `SWR` of a register without a row of its own (R121). -/
def execSwr (a : Args) (s : State) : Host.Outcome State Fault Refusal := s.issue .swr a (effSwr a)

/-- Effect of `SWR` of EXEC (R35): a result of zero is refused. -/
def effSwrExec (a : Args) (s : State) (g : Grp) : Res :=
  let x := s.swrVal g a
  let e := x.setWidth 32 &&& (s.warp (leaderOf g)).live
  if x >>> 32 ≠ 0 then .trap s swrBad
  else if e = 0 then .trap s (illegal 0x11)
  else .next (s.modWarp (leaderOf g) fun w => { w with exec := e })

/-- `SWR` of EXEC (R35). -/
def execSwrExec (a : Args) (s : State) : Host.Outcome State Fault Refusal := s.issue .swrExec a (effSwrExec a)

/-- Effect of `SWR` of FPMODE (R89). -/
def effSwrFpmode (a : Args) (s : State) (g : Grp) : Res :=
  let x := s.swrVal g a
  s.swrWarp g (!fpmodeOk x) fun w => { w with fpmode := x }

/-- `SWR` of FPMODE (R89). -/
def execSwrFpmode (a : Args) (s : State) : Host.Outcome State Fault Refusal := s.issue .swrFpmode a (effSwrFpmode a)

/-- Effect of `SWR` of OVF_FLAGS (R97): it waits for earlier flag-setting instructions, and replaces the flags. -/
def effSwrOvfFlags (a : Args) (s : State) (g : Grp) : Res :=
  let x := s.swrVal g a
  if s.flagsWait (leaderOf g) then .stall s
  else s.swrWarp g (x &&& ~~~0x73F#64 != 0) fun w => { w with ovf := x }

/-- `SWR` of OVF_FLAGS (R97). -/
def execSwrOvfFlags (a : Args) (s : State) : Host.Outcome State Fault Refusal := s.issue .swrOvfFlags a (effSwrOvfFlags a)

/-- Effect of `SWR` of ASHAPE (R209). -/
def effSwrAshape (a : Args) (s : State) (g : Grp) : Res :=
  let x := s.swrVal g a
  s.swrWarp g (!ashapeOk x) fun w => { w with ashape := x }

/-- `SWR` of ASHAPE (R209). -/
def execSwrAshape (a : Args) (s : State) : Host.Outcome State Fault Refusal := s.issue .swrAshape a (effSwrAshape a)

/-- Effect of `SWR` of LOSS_SCALE (R225). -/
def effSwrLossScale (a : Args) (s : State) (g : Grp) : Res :=
  let x := s.swrVal g a
  s.swrWarp g (x >>> 8 != 0) fun w => { w with lossScale := x }

/-- `SWR` of LOSS_SCALE (R225). -/
def execSwrLossScale (a : Args) (s : State) : Host.Outcome State Fault Refusal :=
  s.issue .swrLossScale a (effSwrLossScale a)

/-- Writes RATE and CAP of a context and LEVEL of each of its cores: instructions of the same clock still use what they were
(R305, R121). -/
def State.setBudget (s : State) (c : Nat) (x : Word) : State :=
  let s1 := s.modCtx c fun k =>
    { k with
      ebRate := (x.extractLsb' 48 16).toNat, ebCap := (x.extractLsb' 24 24).toNat
      ebWas := some (noteWas k.ebWas s.clock (k.ebRate, k.ebCap)) }
  (s1.ctx c).crec.cores.foldl (fun s k => s.modCore k fun y =>
    { y with level := (x.extractLsb' 0 24).toNat, levelWas := some (noteWas y.levelWas s.clock y.level) }) s1

/-- Effect of `SWR` of EBUDGET (R305). -/
def effSwrEbudget (a : Args) (s : State) (g : Grp) : Res :=
  let x := s.swrVal g a
  if (x.extractLsb' 24 24).toNat < (x.extractLsb' 0 24).toNat then .trap s swrBad
  else .next (s.setBudget (s.warp (leaderOf g)).ctx x)

/-- `SWR` of EBUDGET (R305). -/
def execSwrEbudget (a : Args) (s : State) : Host.Outcome State Fault Refusal := s.issue .swrEbudget a (effSwrEbudget a)

/-- Effect of `SWR` of DUMP_BASE (R57): zero is always accepted; any other value must name writable memory of the
context, a granted vault window included (R153), 4 KiB aligned: the spaces SCR, LOC, REG, HST and RMT name none (DEDUCED,
notes/assumptions/41). An instruction of the same clock still reads what it held
(R121). -/
def effSwrDumpBase (a : Args) (s : State) (g : Grp) : Res :=
  let w := leaderOf g
  let x := s.swrVal g a
  let set (s : State) : State := s.modCtx (s.warp w).ctx fun c =>
    { c with dumpBase := x, dumpWas := some (noteWas c.dumpWas s.clock c.dumpBase) }
  if x = 0 then .next (set s)
  else if x.toNat % 4096 ≠ 0 then .trap s ⟨0x12, 1, x⟩
  else if 3 < spaceOf x then .trap s ⟨0x13, 1, x⟩
  else
    match s.place w { write := true } x with
    | (s1, .error e) => .trap s1 e.trap
    | (s1, .ok _) => .next (set s1)

/-- `SWR` of DUMP_BASE (R57). -/
def execSwrDumpBase (a : Args) (s : State) : Host.Outcome State Fault Refusal := s.issue .swrDumpBase a (effSwrDumpBase a)

/-- Effect of `SWR` of TRACE_CTL (R361): written values of HEAD are ignored, and an instruction of the same clock still reads
what it held (R121). -/
def effSwrTraceCtl (a : Args) (s : State) (g : Grp) : Res :=
  let x := s.swrVal g a
  if x &&& ~~~0x1FF0000000F#64 ≠ 0 then .trap s swrBad
  else .next (s.modCore (s.coreOf (leaderOf g)) fun c =>
    { c with traceCtl := x &&& 0xF, traceWas := some (noteWas c.traceWas s.clock c.traceCtl) })

/-- `SWR` of TRACE_CTL (R361). -/
def execSwrTraceCtl (a : Args) (s : State) : Host.Outcome State Fault Refusal := s.issue .swrTraceCtl a (effSwrTraceCtl a)

/-! ## TLBI (R123) -/

/-- Whether an operation in flight of a context, as `sel` says, may still use a translation that it has made. -/
def State.accessing (s : State) (e : Nat × Pend) (sel : Nat → Bool) : Bool :=
  match e.2 with
  | .load w _ accs _ bound .. => sel (s.warp w).ctx && !(loadUnread accs bound).isEmpty
  | .csig w .. | .cread w .. | .nb w .. | .store w .. | .arm w .. => sel (s.warp w).ctx
  | _ => false

/-- Whether something that is held or unfinished beside what is in flight still acts where a context's translation has put it:
a held write, a completion signal that waits for a die, or a pass. -/
def State.actsLater (s : State) (sel : Nat → Bool) : Bool :=
  s.held.any (fun h => h.wr.ws.any fun w => sel (s.warp w).ctx) || s.dones.any (fun d => sel d.ctx) ||
    s.regions.any fun r => sel r.ctx && !r.passes.isEmpty

/-- The contexts that a `TLBI` concerns, and whether it drops an entry. -/
def tlbiCtx (sub c : Nat) (k : Nat) : Bool := sub == 2 || k == c

/-- Whether a `TLBI` drops a cached translation. -/
def tlbiDrops (sub c va : Nat) (t : Tlb) : Bool :=
  sub == 2 || (t.ctx == c && (sub == 1 || va / t.size == t.vpage))

/-- The level at which the walk of an address of a context finds no leaf; none where the page is mapped. -/
def State.walkStops (s : State) (va : Nat) : Nat → Nat → Option Nat
  | lvl, tab =>
    let e := ofBytes (s.mem.peek (tab + 8 * walkIndex lvl va) 8)
    if entryBad false lvl e then some lvl
    else if e.getLsbD 1 then none
    else
      match lvl with
      | 0 => some 0
      | n + 1 => s.walkStops va n (entryFrame e)

/-- Whether a `TLBI` completes the unmapping of the page of the counter that a warp's `CWAIT` pins (R378). -/
def State.unmapsPin (s : State) (sub c va : Nat) (x : Warp) : Bool :=
  match x.park with
  | .cwait _ _ _ p _ (.home _) =>
    let q := (p.extractLsb' 0 48).toNat
    tlbiCtx sub c x.ctx && (match s.walkStops q 3 (s.ctx x.ctx).crec.droot with
      | none => false
      | some lvl => sub != 0 || va / pageSize lvl == q / pageSize lvl)
  | _ => false

/-- Effect of `TLBI`: it completes once every access that may have used a dropped entry has been made
(DEDUCED, notes/assumptions/28). What pins a line of a page that it unmaps is held from then on for 1 ms at most (R378). -/
def effTlbi (a : Args) (s : State) (g : Grp) : Res :=
  let sub := a.sub.toNat
  let p := s.sval g (srcA a)
  let c := (s.sval g (srcB a 0)).toNat
  let va := (p.extractLsb' 0 48).toNat
  if s.pend.any (s.accessing · (tlbiCtx sub c)) || s.actsLater (tlbiCtx sub c) then .stall s
  else
    .last { s with
      mem := { s.mem with tlb := s.mem.tlb.filter fun t => !tlbiDrops sub c va t }
      warps := s.warps.map fun (e : Nat × Warp) =>
        if s.unmapsPin sub c va e.2 then (e.1, { e.2 with unmapAt := some (e.2.unmapAt.getD s.timer) }) else e }

/-- `TLBI` (R123). -/
def execTlbi (a : Args) (s : State) : Host.Outcome State Fault Refusal := s.issue .tlbi a (effTlbi a)

/-! ## TRET, SLEEP and HALT -/

/-- Effect of `TRET` (R125). -/
def effTret (s : State) (g : Grp) : Res :=
  let w := leaderOf g
  let x := s.warp w
  if !x.inHandler then .trap s (illegal 0x14)
  else if x.epc &&& 3 ≠ 0 then .trap s ⟨0x12, 0, x.epc⟩
  else
    match s.tretOp w with
    | (s1, none) => .moved s1
    | (s1, some t) => .moved (s1.trap w t)

/-- `TRET` (R125). -/
def execTret (a : Args) (s : State) : Host.Outcome State Fault Refusal := s.issue .tret a effTret

/-- Effect of `SLEEP` (R126): parked until TIMER reaches the wake time; 0 acts as `YIELD`. A `SLEEP` issued again after a
save keeps its wake time. -/
def effSleep (a : Args) (s : State) (g : Grp) : Res :=
  let w := leaderOf g
  let n := s.swrVal g a
  let wake := (s.warp w).deadline.getD (s.timer + n.toNat)
  let s1 := s.modWarp w fun x => { x with deadline := none }
  if n = 0 then .last (s1.modWarp w fun x => { x with yielded := true })
  else if wake ≤ s.timer then .last s1
  else .parked (s1.modWarp w fun x => { x with park := .sleep wake a })

/-- `SLEEP` (R126). -/
def execSleep (a : Args) (s : State) : Host.Outcome State Fault Refusal := s.issue .sleep a (effSleep a)

/-- `SLEEP_WAKE` (R126): TIMER has reached the wake time, and the warp goes on past its `SLEEP`. -/
def execSleepWake (w : Nat) (s : State) : Host.Outcome State Fault Refusal :=
  match (s.warp w).park with
  | .sleep wake a =>
    if wake ≤ s.timer && !s.waitKept w then
      .next (s.modWarp w fun x => { x.advance (argBytes a) with park := .none })
    else .next s
  | _ => .next s

/-- Effect of `HALT` (R127): no warp of the core issues again. -/
def effHalt (s : State) (g : Grp) : Res :=
  let k := s.coreOf (leaderOf g)
  let s1 := (s.warps.filter fun e => (s.blk e.2.blk).core == k).foldl (fun s e => s.endRun e.1) s
  .last (s1.modCore k fun c => { c with halted := true })

/-- `HALT` (R127). -/
def execHalt (a : Args) (s : State) : Host.Outcome State Fault Refusal := s.issue .halt a effHalt

/-! ## A reserved opcode (R76) -/

/-- An instruction word with a reserved opcode: illegal-instruction with DETAIL 0x01 (DEDUCED, notes/assumptions/6). -/
def execReservedOpcode (_w : IWord) (s : State) : Host.Outcome State Fault Refusal :=
  .next (s.trap s.cur (illegal 0x01))

end Sys2Proof.Machine
end

