-- ==== Sys2Proof/Machine/Trial.lean ====
section
/-! DEFINITION. Whether an instruction that could be issued now would wait in its own effect (spec/02 R47, spec/13 R300). -/

namespace Sys2Proof.Machine

/-- The effect of an instruction that may wait to issue: for a register range, a limit of operations in flight, a write
that is held, or a unit. Every other effect never does; a `CTX.FREEZE` waits once it has begun. -/
def State.mayWait (s : State) (o : Op) (a : Args) (g : Grp) : Option Res :=
  match o with
  | .brcFlag => some (effBrcFlag a s g)
  | .ld => some (effLd a s g)
  | .st => some (effSt a s g)
  | .pushm => some (effPushm a s g)
  | .popm => some (effPopm a s g)
  | .atom => some (effAtom a s g)
  | .red => some (effRed a s g)
  | .cpy => some (effCpy a s g)
  | .cpyg => some (effCpyg a s g)
  | .cpys => some (effCpys a s g)
  | .cpyr => some (effCpyr a s g)
  | .cseal => some (effCseal a s g)
  | .csig => some (effCsig a s g)
  | .cwait => some (effCwait a s g)
  | .cread => some (effCread a s g)
  | .phase => some (effPhase a s g)
  | .barArv => some (effBarArv a s g)
  | .barWt => some (effBarWt a s g)
  | .barMeet => some (effBarMeet a s g)
  | .barMemb => some (effBarMemb a s g)
  | .barQry => some (effBarQry a s g)
  | .eqResv => some (effEqResv a s g)
  | .eqPub => some (effEqPub a s g)
  | .eqTake => some (effEqTake a s g)
  | .eqFree => some (effEqFree a s g)
  | .eqStat => some (effEqStat a s g)
  | .wait => some (effWait a s g)
  | .wld => some (effWld a s g)
  | .mma => some (effMma a s g)
  | .tst => some (effTst a s g)
  | .tld => some (effTld a s g)
  | .tzero => some (effTzero a s g)
  | .tshp => some (effTshp a s g)
  | .smma => some (effSmma a s g)
  | .nbDot => some (effNbDot a s g)
  | .nbAxpy => some (effNbAxpy a s g)
  | .nbScale => some (effNbScale a s g)
  | .nbSum => some (effNbSum a s g)
  | .nbFill => some (effNbFill a s g)
  | .nbCmpz => some (effNbCmpz a s g)
  | .jigDef => some (effJigDef a s g)
  | .jigArm => some (effJigArm a s g)
  | .jigDisarm => some (effJigDisarm a s g)
  | .jigPos => some (effJigPos a s g)
  | .jigQry => some (effJigQry a s g)
  | .jrnBegin => some (effJrnBegin a s g)
  | .jrnCommit => some (effJrnCommit a s g)
  | .jrnAbort => some (effJrnAbort a s g)
  | .launch => some (effLaunch a s g)
  | .ctxSave => some (effCtxSave a s g)
  | .ctxFreeze => if (s.ctx (s.sval g (srcA a)).toNat).freezing then some (effCtxFreeze a s g) else none
  | .tlbi => some (effTlbi a s g)
  | .srd => some (effSrd a s g)
  | .swrOvfFlags => some (effSwrOvfFlags a s g)
  | .xfftFwd => some (s.xfftOp g a true)
  | .xfftInv => some (s.xfftOp g a false)
  | _ => none

/-- Whether an instruction that passes the checks before its own would wait: on the energy budget, or in its effect, but
where it traps for its sources first. -/
def State.wouldStall (s : State) (o : Op) (a : Args) (g : Grp) : Bool :=
  s.budgetStalls (leaderOf g) a.ec ||
  ((s.plainPoison o a g).isNone &&
    match s.mayWait o a g with
    | some (.stall _) => true
    | _ => false)

end Sys2Proof.Machine
end

