-- ==== Sys2Proof/Machine/Events.lean ====
section
/-! DEFINITION. Arbitration (spec/13 R300 to R302), the watchdogs (spec/02 R32, spec/20 R344, R348, R349), and the
memory controllers' own events (spec/21 R374 to R377). -/

namespace Sys2Proof.Machine

/-! ## The rendezvous watchdog -/

/-- Clocks that the watchdog has counted (R348). -/
def State.rdvCount (s : State) (r : Rdv) : Nat :=
  (r.stop.getD s.clock) - r.first - r.paused

/-- Whether a rendezvous has expired: its stage's period has been counted, and it does not pause (R32, R348). -/
def State.rdvExpired (s : State) (b : Nat) (r : Rdv) : Bool :=
  r.stop.isNone && !s.rdvWhole b r && 2 ^ (s.stageOf (s.blk b)).lrec.wdog ≤ s.rdvCount r

/-- `RENDEZVOUS_TIMEOUT` (R32): every waiting member takes the rendezvous-timeout trap with EPC at its instruction; DETAIL
is the number of members that had arrived. -/
def execRendezvousTimeout (b : Nat) (pc : Word) (s : State) : Host.Outcome State Fault Refusal :=
  let due := (s.blk b).rdvs.filter fun r => r.pc == pc && s.rdvExpired b r
  .next (due.foldl (fun s r =>
    let s1 := s.modBlk b fun k => { k with rdvs := k.rdvs.filter (· != r) }
    (s.bySlot (r.arrived.map (·.1))).foldl (fun s w => s.trap w { code := 0x04, detail := r.arrived.length }) s1) s)

/-! ## Arbitration -/

/-- Whether the first instruction of a warp's next run can issue within 2 clocks (R47, R300): its fetch, its decode or a check
before its own traps, or it arrives at a rendezvous that is not complete, or it does not wait: not on a register, on the
energy budget, nor in its own effect (DEDUCED, notes/assumptions/41). -/
def State.canStart (s : State) (w : Nat) : Bool :=
  match s.fetchInstr w with
  | (_, .error _) => true
  | (s1, .ok i) =>
    match i.op? with
    | none => true
    | some (o, a) =>
      match s1.precheck o a w with
      | .trap _ => true
      | .stall => false
      | .ok =>
        if 2 < s1.fixedWait w o a then false
        else if a.scope == .set || a.scope == .block then
          match s1.arrive w i a.scope with
          | (_, none) => true
          | (s2, some g) => !s2.wouldStall o a g
        else !s1.wouldStall o a [(w, (s1.warp w).exec)]

/-- Whether a warp is eligible (R300). -/
def State.eligible (s : State) (w : Nat) : Bool := s.mayRun w && s.canStart w

/-- PRIO of a warp's stage. -/
def State.prio (s : State) (w : Nat) : Nat := (s.stageOf (s.blkOf w)).lrec.prio

/-- Whether a warp is chosen before another (R301). -/
def State.beats (s : State) (v w : Nat) : Bool :=
  let x := s.warp v
  let y := s.warp w
  if (x.age == 8) != (y.age == 8) then x.age == 8
  else if x.age != 8 && s.prio v != s.prio w then s.prio w < s.prio v
  else if x.age != y.age then y.age < x.age
  else x.slot < y.slot

/-- The warp that R301 chooses. -/
def State.chosen (s : State) : List Nat → Option Nat
  | [] => none
  | w :: ws =>
    match s.chosen ws with
    | none => some w
    | some v => if s.beats v w then some v else some w

/-- The warps of other partitions whose open runs wait for the leader of a complete rendezvous in a partition (R31). -/
def State.awaiting (s : State) (here : List Nat) : List Nat :=
  (s.warps.filter fun e => e.2.atRdv && s.inRun e.1 &&
    (s.blk e.2.blk).rdvs.any fun r => r.arrived.any (fun x => x.1 == e.1) &&
      (s.rdvMembers e.2.blk r).head?.any fun v => v != e.1 && here.contains v).map (·.1)

/-- The runs that wait for a leader which is not given its slot in this arbitration end (R31, R47; DEDUCED,
notes/assumptions/42). -/
def State.endAwaiting (s : State) (here : List Nat) (w : Option Nat) : State :=
  ((s.awaiting here).filter fun v => !w.any fun l => (s.warp v).blk == (s.warp l).blk && s.leadsReady l).foldl
    State.endRun s

/-- `RUN_ARBITRATION` (R301): a free slot is granted to the eligible warp that the rules choose; a warp passed over by
`YIELD` is chosen only where no other is eligible, and its mark ends with this arbitration (R103). -/
def execRunArbitration (core part : Nat) (s : State) : Host.Outcome State Fault Refusal :=
  if (mget {} (s.core core).parts part).run.isSome then .next s
  else
    let here := (s.warps.filter fun e => (s.blk e.2.blk).core == core && e.2.part == part).map (·.1)
    let can := here.filter s.eligible
    let fresh := can.filter fun w => !(s.warp w).yielded
    match s.chosen (if fresh.isEmpty then can else fresh) with
    | none => .next (s.endAwaiting here none)
    | some w =>
      let s0 := (s.endAwaiting here (some w)).modWarps here fun x => { x with yielded := false }
      let s1 := s0.modWarps can fun x => { x with age := Nat.min 8 (x.age + 1) }
      .next (s1.grant w)

/-! ## Watchdogs of a warp -/

/-- `WATCHDOG` (R349): the next instruction has waited to issue for 2^28 clocks. -/
def execWatchdog (w : Nat) (s : State) : Host.Outcome State Fault Refusal :=
  if s.mayIssue w && !(s.ctxOf w).dead && (s.warp w).overdue s.clock then .next (s.fatal w { code := 0x30 }) else .next s

/-- `HANDLER_OVERRUN` (R344): a handler of 65,536 clocks without `TRET`. -/
def execHandlerOverrun (w : Nat) (s : State) : Host.Outcome State Fault Refusal :=
  let x := s.warp w
  if x.inHandler && !x.stopped && !(s.ctx x.ctx).dead && x.hstart + 65536 ≤ s.clock then .next (s.fatal w { code := 0x32 })
  else .next s

/-! ## Memory controllers -/

/-- The columns of a row of a bank. -/
def rowCols (ch pc bank row : Nat) : List Phys :=
  (List.range 32).map fun col => { stack := ch / 32, ch := ch % 32, pc, bank, row, col }

/-- The fenced banks of a pseudo-channel. -/
def Chan.fencedBanks (c : Chan) (pc : Nat) : List Nat := (List.range 32).filter fun b => c.fence.getLsbD (32 * pc + b)

/-- Copies one row's IL columns, rebuilt, into the spare bank; a column that cannot be rebuilt is poisoned (R370, R376). -/
def State.copyRow (s : State) (ch pc bank row : Nat) : State :=
  (rowCols ch pc bank row).foldl (fun s p =>
    if isRM s.island.fw p.seg then s
    else
      let (s1, bad) := s.checkIL p 4
      if bad then s1.setCol p.key .poison else s1) s

/-- Whether the controller of a channel is held, with its die, in a warm reset (R384). -/
def State.chanOff (s : State) (ch : Nat) : Bool := s.offline (ch / 64)

/-- `FENCE_COPY_ROW` (R376): the next row of a fenced bank is copied into the pseudo-channel's spare bank and redirected;
where the spare bank serves another bank, the fenced bank stays served by rebuild. -/
def execFenceCopyRow (ch pc : Nat) (s : State) : Host.Outcome State Fault Refusal :=
  if s.chanOff ch then .next s else
  let c := s.chan ch
  let todo := (c.fencedBanks pc).filter fun b => !c.lostSpare.contains (32 * pc + b)
  let setRows (b n : Nat) : State := s.copyRow ch pc b (n - 1) |>.modChan ch fun c =>
    { c with spare := c.spare.filter (fun e => !(e.1 == pc && e.2.1 == b)) ++ [(pc, b, n)] }
  let lose (s : State) (keep : Option Nat) : State := s.modChan ch fun c =>
    { c with lostSpare := (c.lostSpare ++ (todo.filter fun b => some b != keep).map (32 * pc + ·)).dedup }
  match c.spare.find? fun e => e.1 == pc with
  | some (_, b, n) =>
    if todo.contains b then
      if n < 32768 then .next (lose (setRows b (n + 1)) (some b)) else .next (lose s (some b))
    else .next (lose s none)
  | none =>
    match todo with
    | [] => .next s
    | b :: _ => .next (lose (setRows b 1) (some b))

/-- `INJ` (R374): a store to the INJ word. -/
def execInjStore (ch : Nat) (val : Word) (s : State) : Host.Outcome State Fault Refusal := .next (s.setInj ch val)

/-- `BANK_ERR_STATUS` (R372): a store of any value clears the word. -/
def execBankErrClear (ch : Nat) (_val : Word) (s : State) : Host.Outcome State Fault Refusal := .next (s.clearBes ch)

/-- `MARCH` (R377): a store to the MARCH word. -/
def execMarchStore (ch : Nat) (val : Word) (s : State) : Host.Outcome State Fault Refusal := .next (s.marchStart ch val)

/-- Remaps rows of a bank to its free spare rows, in the order given, and the rows that found none (R377). -/
def remapRows (key : Nat) : List Nat → List Nat → List (Nat × Nat × Nat) × List Nat
  | _, [] => ([], [])
  | [], r :: rs => ([], r :: rs)
  | k :: ks, r :: rs =>
    let (done, left) := remapRows key ks rs
    ((key, r, k) :: done, left)

/-- The spare rows of a bank that serve no row and have not failed. -/
def State.freeSpares (s : State) (key : Nat) : List Nat :=
  (List.range 256).filter fun k => !s.badSpares.contains (key, k) && !s.remapped.any fun e => e.1 == key && e.2.2 == k

/-- The rows of a bank that a march has to remap: those that fail and that no spare row serves, and those that a failing spare
row serves (R377). -/
def State.marchRows (s : State) (key : Nat) (failing : List Nat) : List Nat :=
  let mine := s.remapped.filter fun e => e.1 == key
  ((failing.filter fun r => r < 32768 && !mine.any fun e => e.2.1 == r) ++
    (mine.filter fun e => failing.contains (32768 + e.2.2)).map fun e => e.2.1).dedup

/-- `MARCH_COMPLETE` (R377): each row that needs one is remapped to a free spare row, one that finds none is poisoned, the rows
are copied back with the check of their columns, and the redirection ends. Numbers from 32,768 on name failing spare rows. -/
def execMarchComplete (ch : Nat) (failing : List Nat) (s : State) : Host.Outcome State Fault Refusal :=
  let c := s.chan ch
  if !c.busy || s.chanOff ch then .next s
  else
    let pc := (c.march.extractLsb' 61 1).toNat
    let bank := (c.march.extractLsb' 56 5).toNat
    let key := (ch * 2 + pc) * 32 + bank
    let rows := s.marchRows key failing
    let bad := ((List.range 256).filter fun k => failing.contains (32768 + k)).map fun k => (key, k)
    let s0 := { s.scanBank ch pc bank with
      badSpares := (s.badSpares ++ bad).dedup
      remapped := s.remapped.filter fun e => !(e.1 == key && failing.contains (32768 + e.2.2)) }
    let (done, left) := remapRows key (s0.freeSpares key) rows
    let s1 := { s0 with remapped := s0.remapped ++ done }
    let s2 := left.foldl (fun s r =>
      ((rowCols ch pc bank r).foldl (fun s p => s.setCol p.key .poison) s).report (ch / 64) (.rowLost key r)) s1
    let field : Word := c.march &&& 0x3F00000000000000
    let fail : Word := if left.isEmpty then 0 else 0x4000000000000000
    .next (s2.modChan ch fun c =>
      { c with
        march := field ||| fail ||| BitVec.ofNat 64 done.length
        spare := c.spare.filter fun e => !(e.1 == pc && e.2.1 == bank) })

end Sys2Proof.Machine
end

