-- ==== Sys2Proof/Machine/Slh.lean ====
section
/-! DEFINITION. The check of an SLH-DSA-SHA2-128s signature, which the spec names by its standard (spec/15 R315 step 3), as
FIPS 205 describes it: nodes of 16 bytes, 7 layers of trees of height 9, 14 few-time trees of height 12, chains of 16
values (PRESUMED, notes/assumptions/8). -/

namespace Sys2Proof.Machine

/-- Where a hash call stands: its layer, its tree, what it is for, and three words that this gives meaning to. -/
structure SlhAt where
  layer : Nat := 0
  tree  : Nat
  use   : Nat
  x     : Nat := 0
  y     : Nat := 0
  z     : Nat := 0
  deriving DecidableEq, Repr

/-- The 22 bytes that SHA-256 takes of a place. -/
def SlhAt.bytes (p : SlhAt) : List Byte :=
  beBytes 1 p.layer ++ beBytes 8 p.tree ++ beBytes 1 p.use ++ beBytes 4 p.x ++ beBytes 4 p.y ++ beBytes 4 p.z

/-- The hash of nodes at a place, under the public seed. -/
def slhNode (seed : List Byte) (p : SlhAt) (m : List Byte) : List Byte :=
  (digestBytes (sha256 (seed ++ List.replicate 48 0 ++ p.bytes ++ m))).take 16

/-- The n nodes that stand in bytes one after another. -/
def slhNodes (n : Nat) (bs : List Byte) : List (List Byte) := (List.range n).map fun i => (bs.drop (16 * i)).take 16

/-- Digit i of n digits of b bits, the first highest. -/
def digitOf (b n x i : Nat) : Nat := x / 2 ^ (b * (n - 1 - i)) % 2 ^ b

/-- The root that a node reaches with the siblings on its way up: `place` gives the place of a height and an index. -/
def slhClimb (seed : List Byte) (place : Nat → Nat → SlhAt) : List (List Byte) → Nat → Nat → List Byte → List Byte
  | [], _, _, node => node
  | sib :: rest, h, i, node =>
    slhClimb seed place rest (h + 1) (i / 2)
      (slhNode seed (place (h + 1) (i / 2)) (if i % 2 = 0 then node ++ sib else sib ++ node))

/-- Goes on along a chain from value `from_` for n steps. -/
def slhChain (seed : List Byte) (p : SlhAt) : Nat → Nat → List Byte → List Byte
  | 0, _, node => node
  | n + 1, from_, node => slhChain seed p n (from_ + 1) (slhNode seed { p with z := from_ } node)

/-- The 35 digits that the chains of a one-time signature encode: those of the node, and of their checksum. -/
def slhDigits (node : List Byte) : List Nat :=
  let ds := (List.range 32).map (digitOf 4 32 (beNat node))
  ds ++ (List.range 3).map (digitOf 4 3 ((ds.map (15 - ·)).sum))

/-- The one-time public key that a signature of a node gives, as leaf `leaf` of a tree. -/
def slhOneTime (seed : List Byte) (layer tree leaf : Nat) (sig node : List Byte) : List Byte :=
  let ends := ((slhNodes 35 sig).zip (slhDigits node)).zipIdx.flatMap fun e =>
    slhChain seed { layer, tree, use := 0, x := leaf, y := e.2 } (15 - e.1.2) e.1.2 e.1.1
  slhNode seed { layer, tree, use := 1, x := leaf } ends

/-- The root of a layer's tree that its part of the signature gives. -/
def slhLayer (seed : List Byte) (layer tree leaf : Nat) (sig node : List Byte) : List Byte :=
  slhClimb seed (fun h i => { layer, tree, use := 2, y := h, z := i }) (slhNodes 9 (sig.drop 560)) 0 leaf
    (slhOneTime seed layer tree leaf sig node)

/-- The root that the layers from `layer` on give, `n` of them. -/
def slhLayers (seed : List Byte) : Nat → Nat → Nat → Nat → List Byte → List Byte → List Byte
  | 0, _, _, _, _, node => node
  | n + 1, layer, tree, leaf, sig, node =>
    slhLayers seed n (layer + 1) (tree / 2 ^ 9) (tree % 2 ^ 9) (sig.drop 704) (slhLayer seed layer tree leaf sig node)

/-- The public key of the few-time trees that their part of the signature gives for a message digest. -/
def slhFewTime (seed : List Byte) (tree leaf md : Nat) (sig : List Byte) : List Byte :=
  let roots := (List.range 14).flatMap fun t =>
    let part := sig.drop (208 * t)
    let i := 4096 * t + digitOf 12 14 md t
    let place (h i : Nat) : SlhAt := { tree, use := 3, x := leaf, y := h, z := i }
    slhClimb seed place (slhNodes 12 (part.drop 16)) 0 i (slhNode seed (place 0 i) (part.take 16))
  slhNode seed { tree, use := 4, x := leaf } roots

/-- The 30 bytes that say which few-time key signs what. -/
def slhMessage (r pk m : List Byte) : List Byte :=
  let head := r ++ pk.take 16
  (digestBytes (sha256 (head ++ digestBytes (sha256 (head ++ pk.drop 16 ++ m)) ++ beBytes 4 0))).take 30

/-- Whether a signature of 7,856 bytes is that of a digest under a public key (R315, step 3): the digest is signed as a
message, without a context string (PRESUMED, notes/assumptions/8). -/
def slhVerify (pk : BitVec 256) (digest : BitVec 256) (sig : List Byte) : Bool :=
  let key := digestBytes pk
  let seed := key.take 16
  let d := slhMessage (sig.take 16) key ([0, 0] ++ digestBytes digest)
  let tree := beNat ((d.drop 21).take 7) % 2 ^ 54
  let leaf := beNat (d.drop 28) % 2 ^ 9
  let few := slhFewTime seed tree leaf (beNat (d.take 21)) (sig.drop 16)
  sig.length == 7856 && slhLayers seed 7 0 tree leaf (sig.drop 2928) few == key.drop 16

end Sys2Proof.Machine
end

