-- ==== Sys2Proof/Machine/Record.lean ====
section
/-! DEFINITION. The bytes of a context record and of the tables that it points to (spec/15 R322, R323, spec/07 R156). Firmware
keeps them in memory that it does not map for a tenant (DESIGN CHOICE, notes/assumptions/45). -/

namespace Sys2Proof.Machine

/-- The number whose set bits are the members of a list. -/
def bitsOf (xs : List Nat) : Nat := xs.foldl (fun acc x => acc ||| 2 ^ x) 0

/-- The set bits of a number below n, rising. -/
def membersOf (n x : Nat) : List Nat := (List.range n).filter x.testBit

/-- Word 0 of a context record (R322). -/
def recordHead (r : CtxRec) : Nat :=
  r.ctx + (if r.priv then 2 ^ 16 else 0) + (if r.launch then 2 ^ 17 else 0) + r.l1sz.toNat * 2 ^ 18 +
    r.jigGrant.toNat * 2 ^ 24 + r.nent * 2 ^ 40

/-- The 256 bytes of a context record (R322). -/
def recordBytes (r : CtxRec) : List Byte :=
  leBytes 24 (recordHead r) ++ leBytes 80 (bitsOf r.cores) ++ leBytes 8 r.droot ++ leBytes 8 r.hroot ++
    leBytes 8 r.vgrantAt.toNat ++ leBytes 8 r.ebudget.toNat ++ leBytes 8 r.dumpBase.toNat ++
    leBytes 8 r.submit.toNat ++ leBytes 104 r.peersAt.toNat

/-- The word of a vault in the grant table: LO in bits 9:0, HI in bits 25:16 (R323). -/
def vaultWord (g : List (Nat × Nat × Nat)) (v : Nat) : Nat :=
  match g.find? fun e => e.1 == v with
  | none => 0
  | some e => e.2.1 % 2 ^ 10 + e.2.2 % 2 ^ 10 * 2 ^ 16

/-- The 160 words of a vault grant table (R323). -/
def vaultTable (r : CtxRec) : List Byte := (List.range 160).flatMap fun v => leBytes 4 (vaultWord r.vgrant v)

/-- The windows of a vault grant table: one for each word that is not zero (R323). -/
def windowsOf (t : List Byte) : List (Nat × Nat × Nat) :=
  (List.range 160).filterMap fun v =>
    let x := hdrNat t (4 * v) 4
    if x = 0 then none else some (v, x % 2 ^ 10, x / 2 ^ 16 % 2 ^ 10)

/-- The 128-byte mask of a context's peer devices (R322, R156). -/
def peerMask (r : CtxRec) : List Byte := leBytes 128 (bitsOf r.peers)

/-- The context record that the bytes of a record, its vault grant table and its peer mask give. -/
def recordOf (bs table mask : List Byte) : CtxRec :=
  let h := hdrNat bs 0 8
  { ctx := h % 2 ^ 16, priv := h.testBit 16, launch := h.testBit 17, l1sz := BitVec.ofNat 2 (h / 2 ^ 18)
    jigGrant := BitVec.ofNat 16 (h / 2 ^ 24), nent := h / 2 ^ 40 % 2 ^ 16
    cores := membersOf 160 (hdrNat bs 24 20), droot := hdrNat bs 104 8, hroot := hdrNat bs 112 8
    vgrant := windowsOf table, vgrantAt := BitVec.ofNat 64 (hdrNat bs 120 8)
    ebudget := BitVec.ofNat 64 (hdrNat bs 128 8), dumpBase := BitVec.ofNat 64 (hdrNat bs 136 8)
    submit := BitVec.ofNat 64 (hdrNat bs 144 8), peers := membersOf 1024 (hdrNat mask 0 128)
    peersAt := BitVec.ofNat 64 (hdrNat bs 152 8) }

/-- Whether a record's fields fit their places, so that its bytes hold exactly it. -/
def recordFits (r : CtxRec) : Bool := recordOf (recordBytes r) (vaultTable r) (peerMask r) == r

end Sys2Proof.Machine
end

