-- ==== Sys2Proof/Machine/Tenant.lean ====
section
/-! DEFINITION. Who may manage the device (spec/15 R325), context records (R322, R323), the scrubbing between tenants
(R324), and page migration (spec/21 R378, R379). -/

namespace Sys2Proof.Machine

/-! ## Requests (R325, R326) -/

/-- Whether a management command is carried: the Sill bus always; the fabric from a management address, where a port is up,
and not in recovery, where it does not train (R15, R317, R325). -/
def State.mayManage (s : State) (r : Requester) : Bool :=
  match r with
  | .sill => true
  | .girt a => s.island.boot == .running && s.fabricUp && s.island.fw.mgmt.contains a

/-- Whether the firmware runs: the boot has succeeded and DIE_0 is there (R326). -/
def State.fwRuns (s : State) : Bool := s.island.boot == .running && !s.offline 0

/-- The answers to a management command; the numbers are the model's (DESIGN CHOICE, notes/assumptions/33). -/
inductive Ans where
  | done | refused | busy | notReady
  deriving DecidableEq, Repr

/-- The number of an answer. -/
def Ans.code : Ans → Byte
  | .done => 0 | .refused => 1 | .busy => 2 | .notReady => 3

/-- Answers the last management command, with data. -/
def State.reply (s : State) (x : Ans) (data : List Byte) : State :=
  { s with island := { s.island with answer := x.code :: data } }

/-- Runs a management command: with no effect from an address that may not send it, "not ready" where its condition does
not hold. -/
def State.manage (s : State) (r : Requester) (ready : Bool) (f : State → State) : State :=
  if !s.mayManage r then s else if !ready then s.reply .notReady [] else f s

/-! ## Context records -/

/-- Whether two vault grant tables overlap in a window (R323). -/
def windowsMeet (x y : List (Nat × Nat × Nat)) : Bool :=
  x.any fun a => y.any fun b => a.1 == b.1 && a.2.1 < b.2.2 && b.2.1 < a.2.2 && a.2.1 < a.2.2 && b.2.1 < b.2.2

/-- Whether two records overlap in a grant (R323). -/
def grantsMeet (x y : CtxRec) : Bool :=
  windowsMeet x.vgrant y.vgrant || x.cores.any y.cores.contains || x.jigGrant &&& y.jigGrant != 0

/-- Whether a table of a record has a place: its pointer reaches memory through the tables of context 0, or is zero for a table
of zeros (R322, R323) (DESIGN CHOICE, notes/assumptions/45). -/
def State.tableFits (s : State) (p : Word) (t : List Byte) : Bool :=
  if p == 0 then t.all (· == 0) else
    match (s.recLocs 0 { write := true } p t.length).2 with
    | .ok _ => true
    | .error _ => false

/-- Whether firmware may accept a tenant's record: one that the record's fields and tables can hold (R322, R323). -/
def State.recordOk (s : State) (r : CtxRec) : Bool :=
  recordFits r && r.ctx != 0 && !r.priv && r.l1sz != 3 && 1 ≤ r.nent && r.nent ≤ 65535 && r.vgrant.all (fun g => g.2.2 ≤ 768) &&
  s.tableFits r.vgrantAt (vaultTable r) && s.tableFits r.peersAt (peerMask r) &&
  s.ctxs.all fun e => e.1 == r.ctx || !grantsMeet r e.2.crec

/-- Writes the start image of EBUDGET, and the ownership of the cores, of a record that takes effect (R164, R305). -/
def State.grantCores (s : State) (r : CtxRec) : State :=
  r.cores.foldl (fun s k => (s.meterCore k).modCore k fun c =>
    { c with owner := some r.ctx, l1sz := r.l1sz.toNat, level := (r.ebudget.extractLsb' 0 24).toNat }) s

/-- Firmware writes bytes at a pointer of its own context. -/
def State.fwWrite (s : State) (p : Word) (bs : List Byte) : State :=
  if p == 0 then s else
    match s.recLocs 0 { write := true } p bs.length with
    | (s1, .ok ls) => (s1.recall ls).performWrite {} false 4 8 (ls.zip bs)
    | (s1, .error _) => s1

/-- The location of a context's record. -/
def State.recordAt (s : State) (c : Nat) : Nat := s.island.fw.recAt + 256 * c

/-- Firmware keeps a record, and the tables that it points to, in its memory (R322, R323). -/
def State.keepRecord (s : State) (r : CtxRec) : State :=
  let s1 := s.performWrite {} false 4 8 ((span (s.recordAt r.ctx) 256).zip (recordBytes r))
  (s1.fwWrite r.vgrantAt (vaultTable r)).fwWrite r.peersAt (peerMask r)

/-- A context as its record makes it. -/
def freshCtx (r : CtxRec) : Ctx :=
  { ({} : Ctx) with
    crec := r
    ebRate := (r.ebudget.extractLsb' 48 16).toNat, ebCap := (r.ebudget.extractLsb' 24 24).toNat, dumpBase := r.dumpBase }

/-- `CONTEXT_CREATE` (R322, R323). -/
def execContextCreate (r : Requester) (crec : CtxRec) (s : State) : Host.Outcome State Fault Refusal :=
  .next (s.manage r s.fwRuns fun s =>
    if !s.recordOk crec || (mfind s.ctxs crec.ctx).isSome then s.reply .refused []
    else (({ s with ctxs := mins s.ctxs crec.ctx (freshCtx crec) }.grantCores crec).keepRecord crec).reply .done [])

/-! ## Scrubbing (R324) -/

/-- A core with nothing of a tenant left: tiles, records, latched state and trace ring. -/
def Core.scrubbed (c : Core) : Core :=
  { c with
    owner := none, l1sz := 1, traceCtl := 3, head := 0, ring := [], tiles := [], tags := [], recs := [], latch := {}
    arr := [], arrFl := [], pipes := [], parts := [], level := 0, uLines := [], l1 := [], l1Err := [], tileErr := [] }

/-- Scrubs a core and its UBS. -/
def State.scrubCore (s : State) (k : Nat) : State :=
  (({ s with mem := s.mem.scrub (ubsLoc k 0) (2 ^ 22) }.stopCores [k]).meterCore k).modCore k Core.scrubbed |>.idleBands k

/-- Zeroes the windows of a grant table. -/
def State.scrubVaults (s : State) (g : List (Nat × Nat × Nat)) : State :=
  g.foldl (fun s e => { s with mem := s.mem.scrub (vaultLoc e.1 (e.2.1 * 65536)) ((e.2.2 - e.2.1) * 65536) }) s

/-- Clears the slots of a jig grant. -/
def State.scrubJigs (s : State) (m : BitVec 16) : State :=
  { s with jigs := s.jigs.filter fun e => !m.getLsbD e.1 }

/-- Cancels a context's passes, removes its regions, and aborts its open journal step (R272). -/
def State.endBankside (s : State) (c : Nat) : State :=
  let mine := s.regions.filter fun g => g.ctx == c
  let s1 := (mine.flatMap (·.passes)).foldl State.cancelPass s
  ({ s1 with regions := s1.regions.filter fun g => g.ctx != c }).jrnHwAbort c

/-- The parts of windows that a new table no longer gives, cut at the 64 KiB granule. -/
def windowsGone (old new : List (Nat × Nat × Nat)) : List (Nat × Nat × Nat) :=
  old.flatMap fun e => ((span e.2.1 (e.2.2 - e.2.1)).filter fun i =>
    !new.any fun n => n.1 == e.1 && n.2.1 ≤ i && i < n.2.2).map fun i => (e.1, i, i + 1)

/-- What a changed record releases: cores, windows and slots. -/
def State.releaseGrants (s : State) (old new : CtxRec) : State :=
  let cores := old.cores.filter fun k => !new.cores.contains k
  let wins := windowsGone old.vgrant new.vgrant
  let slots := old.jigGrant &&& ~~~new.jigGrant
  if cores.isEmpty && wins.isEmpty && slots == 0 then s
  else (cores.foldl State.scrubCore ((s.endBankside old.ctx).scrubVaults wins)).scrubJigs slots

/-- Whether a context holds resident state on a core. -/
def State.holdsCore (s : State) (c k : Nat) : Bool := s.blocks.any fun e => e.2.ctx == c && e.2.core == k

/-- Whether nothing of a context may still write: its engines are idle, and none of its writes is held. -/
def State.quiet (s : State) (c : Nat) : Bool := s.enginesIdle c && (s.warpsOf c).all fun w => !s.hasHeld w true

/-- Whether a new record takes a vault window or a core from the old one. -/
def takesAway (old new : CtxRec) : Bool :=
  !(windowsGone old.vgrant new.vgrant).isEmpty || old.cores.any fun k => !new.cores.contains k

/-- `CONTEXT_CHANGE` (R323, R324): a change that would take a core from resident blocks, or a core or window while writes of the
context are in flight, is refused as busy. Its stage and run-time state stay; the dispatcher serves it again (R296)
(DEDUCED, notes/assumptions/38). -/
def execContextChange (r : Requester) (crec : CtxRec) (s : State) : Host.Outcome State Fault Refusal :=
  .next (s.manage r s.fwRuns fun s =>
    match mfind s.ctxs crec.ctx with
    | none => s.reply .refused []
    | some x =>
      if !s.recordOk crec then s.reply .refused []
      else if x.crec.cores.any fun k => !crec.cores.contains k && s.holdsCore crec.ctx k then s.reply .busy []
      else if takesAway x.crec crec && !s.quiet crec.ctx then s.reply .busy []
      else
        let s1 := s.releaseGrants x.crec crec
        let s2 := s1.modCtx crec.ctx fun y => { y with crec, dispStop := false }
        let s3 := s2.grantCores { crec with cores := crec.cores.filter fun k => !x.crec.cores.contains k }
        (s3.keepRecord crec).reply .done [])

/-- `CONTEXT_DESTROY` (R324): refused as busy while its engines or held writes are not done
(DEDUCED, notes/assumptions/38). -/
def execContextDestroy (r : Requester) (c : Nat) (s : State) : Host.Outcome State Fault Refusal :=
  .next (s.manage r s.fwRuns fun s =>
    match mfind s.ctxs c with
    | none => s.reply .refused []
    | some x =>
      if c = 0 then s.reply .refused []
      else if !s.quiet c then s.reply .busy []
      else
        let s1 := s.evict c
        let s2 := s1.releaseGrants x.crec { ctx := c }
        let s3 := { s2 with
          ctxs := mdel s2.ctxs c
          mem := { s2.mem with moved := mdel s2.mem.moved c, tlb := s2.mem.tlb.filter fun t => t.ctx != c }
          bound := s2.bound.filter fun e => e.2 != c }
        (s3.performWrite {} false 4 8 ((span (s3.recordAt c) 256).map fun l => (l, 0))).reply .done [])

/-! ## Unmapping and migration (R378, R379) -/

/-- The address of the leaf that translates an address, with the leaf and its level. -/
def State.leafAt (s : State) (va : Nat) : Nat → Nat → Option (Nat × Word × Nat)
  | lvl, tab =>
    let a := tab + 8 * walkIndex lvl va
    let e := ofBytes (s.mem.peek a 8)
    if entryBad false lvl e then none
    else if e.getLsbD 1 then some (a, e, lvl)
    else
      match lvl with
      | 0 => none
      | n + 1 => s.leafAt va n (entryFrame e)

/-- Ends a waiting `CWAIT` as if it had timed out, with D holding the value at the break, and logs the address of its 128 B
line (R378). -/
def State.breakPin (s : State) (w : Nat) : State :=
  match (s.warp w).park with
  | .cwait _ g a p _ at_ =>
    let (s1, x, m) := s.readCtr g p at_
    (((s1.putSeen g a.d.toNat x m).ctrAcquire g a).pass g (argBytes a)).modCtx (s.warp w).ctx fun c =>
      { c with log := c.log ++ [.pinBroken (p &&& ~~~0x7F)] }
  | _ => s

/-- The warps whose `CWAIT` watches a counter of a range of locations. -/
def State.pinned (s : State) (lo n : Nat) : List Nat :=
  (s.warps.filter fun e => match e.2.park with
    | .cwait _ _ _ _ _ (.home l) => lo ≤ l && l < lo + n
    | _ => false).map (·.1)

/-- `PIN_BREAK` (R378): a `CWAIT` on a page that is no longer mapped, 1 ms after the `TLBI` that unmapped it completed. -/
def execPinBreak (w : Nat) (s : State) : Host.Outcome State Fault Refusal :=
  let x := s.warp w
  match x.park with
  | .cwait _ _ _ p _ (.home _) =>
    let c := s.ctx x.ctx
    let va := (p.extractLsb' 0 48).toNat
    match x.unmapAt, s.leafAt va 3 c.crec.droot with
    | some t, none => if t + 1000000 ≤ s.timer then .next (s.breakPin w) else .next s
    | _, _ => .next s
  | _ => .next s

/-- Whether a copy of a context in flight may touch a page of its addresses, or an `NB` one of its locations. -/
def Pend.touches (c : Nat) (s : State) (va size lo : Nat) : Pend → Bool
  | .copy w _ _ _ k parts _ _ _ => (k == c || (s.warp w).ctx == c) && parts.any fun p =>
      let meets (q : Word) : Bool := spaceOf q ≤ 2 && (q.extractLsb' 0 48).toNat < va + size && va < (q.extractLsb' 0 48).toNat + p.2.2
      meets p.1 || meets p.2.1
  | .nb w _ _ _ _ _ ra rb _ _ _ _ _ => (s.warp w).ctx == c && (ra ++ rb).any fun l => lo ≤ l && l < lo + size
  | _ => false

/-- Whether a migration of a page must wait (R379). -/
def State.pageBusy (s : State) (c va size lo : Nat) : Bool :=
  let inPage (l : Nat) : Bool := lo ≤ l && l < lo + size
  s.regions.any (fun g => g.rows.any fun r => inPage r || inPage (r + 1023)) ||
  s.ctxs.any (fun e => (e.2.jrn.rows ++ e.2.jrn.owed).any fun r => inPage r.1) || s.pend.any (fun e => e.2.touches c s va size lo) ||
  s.held.any fun h => h.bytes.any fun b => inPage b.1

/-- The column that an armed injection of a channel names. -/
def Chan.injCol (c : Nat × Chan) : Option Phys :=
  let x := c.2.inj
  if x.getLsbD 63 then some
    { stack := c.1 / 32, ch := c.1 % 32, pc := (x.extractLsb' 61 1).toNat, bank := (x.extractLsb' 56 5).toNat
      row := (x.extractLsb' 41 15).toNat, col := (x.extractLsb' 36 5).toNat }
  else none

/-- The columns of a page that a copy may find other than clean: those whose stored form is not, those that an injection names,
and all of them while a bank is fenced. -/
def State.flaws (s : State) (lo size : Nat) : List Nat :=
  if s.chans.any fun c => c.2.fence != 0 then (List.range (size / 32)).map fun i => lo + 32 * i
  else
    let cols := (s.mem.cols.filter fun e => e.1 < 2 ^ 34).map fun e => physAt e.1
    ((((cols ++ s.chans.filterMap Chan.injCol).filterMap (dpaAt s.island.fw)) ++ s.mem.sectors.map fun (e : Nat × ColSt) => 32 * e.1).filter
      fun (u : Nat) => lo ≤ u && u < lo + size).dedup

/-- Copies a page to its new frame, as writes that no earlier write of the frame outlives, and writes the new leaf: update-only
lines go home first, each column read is checked, and what it finds poisoned is poison in the new frame (R199, R366, R379)
(DEDUCED, notes/assumptions/38). -/
def State.movePage (s : State) (leaf : Nat) (e : Word) (lo frame size : Nat) : State :=
  let s0 := s.flushWhere fun _ u => lo ≤ 128 * u.line && 128 * u.line < lo + size
  let (s1, bad) := (s0.flaws lo size).foldl (fun (acc : State × List Nat) (u : Nat) =>
    let (t, b) := acc.1.checkRead 4 u
    (t, if b then acc.2 ++ [u] else acc.2)) (s0, ([] : List Nat))
  let s2 := (s1.flaws frame size).foldl (fun t u => t.checkWrite 4 u true) s1
  let listed := s2.mem.bytes.filter fun b => lo ≤ b.1 && b.1 < lo + size
  let m := (s2.mem.scrub frame size).putPiece [] false (listed.map fun b => (frame + (b.1 - lo), b.2))
  let s3 := ({ s2 with mem := m }).poisonUnits (bad.map fun u => frame + (u - lo))
  let e' := (e &&& ~~~(BitVec.ofNat 64 ((2 ^ 38 - 1) * 2 ^ 10))) ||| BitVec.ofNat 64 frame
  s3.performWrite {} false 4 8 ((span leaf 8).zip (bytesOf 8 e'))

/-- `PAGE_MIGRATE` (R379): firmware moves a page of a frozen context, or answers "busy" and changes nothing. A vault
window is never moved. The waits that pin the page are broken first (R378). -/
def execPageMigrate (c : Nat) (p : Word) (frame : Nat) (s : State) : Host.Outcome State Fault Refusal :=
  let x := s.ctx c
  let va := (p.extractLsb' 0 48).toNat
  if !s.fwRuns then .next (s.reply .notReady [])
  else if spaceOf p = 3 then .next (s.reply .busy [])
  else if (mfind s.ctxs c).isNone || !x.frozen then .next (s.reply .refused [])
  else
    match s.leafAt va 3 x.crec.droot with
    | none => .next (s.reply .refused [])
    | some (leaf, e, lvl) =>
      let size := pageSize lvl
      let e' := (e &&& ~~~(BitVec.ofNat 64 ((2 ^ 38 - 1) * 2 ^ 10))) ||| BitVec.ofNat 64 frame
      if frame % size ≠ 0 || 2 ^ 39 ≤ frame || leafLayoutBad s.island.fw lvl e' then .next (s.reply .refused [])
      else if s.pageBusy c (va / size * size) size (entryFrame e) then .next (s.reply .busy [])
      else
        let s1 := ((s.pinned (entryFrame e) size).foldl State.breakPin s)
        let s2 := s1.movePage leaf e (entryFrame e) frame size
        let s3 := { s2 with mem := { s2.mem with tlb := s2.mem.tlb.filter fun t => !tlbiDrops 0 c va t } }
        .next (((if x.dead then s3 else s3.thawCtx c)).reply .done [])

end Sys2Proof.Machine
end

