-- ==== Sys2Proof/Machine/Manage.lean ====
section
/-! DEFINITION. Start-up (spec/15 R315 to R318), attestation and monitoring (R319 to R321), the dumps of the device, the
recovery load and the core restart (R326). -/

namespace Sys2Proof.Machine

/-! ## Boot -/

/-- Bytes of the image header (R316). -/
def bootHdrLen : Nat := 8192

/-- A field of an image, first byte lowest. -/
def imgNat (img : List Byte) (lo n : Nat) : Nat := natOfBytes ((img.drop lo).take n)

/-- A digest or key of an image: 32 bytes, first byte most significant. -/
def img256 (img : List Byte) (lo : Nat) : BitVec 256 :=
  ((img.drop lo).take 32).foldl (fun acc b => (acc <<< 8) ||| b.setWidth 256) 0

/-- Whether an image's header is well formed, and its body whole (R316). -/
def imgHeaderOk (img : List Byte) : Bool :=
  let n := imgNat img 8 8
  bootHdrLen ≤ img.length && imgNat img 0 4 == 0x53454E43 && n % 64 == 0 && n ≤ 2 ^ 28 && img.length == bootHdrLen + n &&
  ((img.drop 7904).take 288).all (· == 0)

/-- The digest D over header bytes 0 to 47 and the body (R315, step 2). -/
def imgDigest (img : List Byte) : BitVec 256 := sha256 (img.take 48 ++ img.drop bootHdrLen)

/-- Steps 2 to 4 of R315: the header, the key against its fused hash, the signature over D, and the version. -/
def imgOk (img : List Byte) : Bool :=
  imgHeaderOk img &&
  sha256 ((img.drop 16).take 32) == Config.fusedKeyHash &&
  slhVerify (img256 img 16) (imgDigest img) ((img.drop 48).take 7856) &&
  Config.fusedMinSvn ≤ imgNat img 4 4

/-- A measurement register. -/
def Island.mr (i : Island) (n : Nat) : BitVec 256 := mget 0 i.mrs n

/-- An extension (R318): MR_n := SHA-256(MR_n ∥ X). -/
def Island.extend (i : Island) (n : Nat) (x : BitVec 256) : Island :=
  { i with mrs := mset 0 i.mrs n (sha256 (digestBytes (i.mr n) ++ digestBytes x)) }

/-- Step 5 and what the firmware measures before it takes effect (R315). -/
def Island.measureBoot (i : Island) (cfg : FwConfig) : Island :=
  (((i.extend 0 Config.romDigest).extend 1 (imgDigest i.flash)).extend 2 cfg.mr2).extend 3 cfg.mr3

/-- Firmware zeroes every UBS and every vault, with what the cores' arrays and trace rings hold (R324). -/
def State.zeroAll (s : State) : State :=
  { s with
    mem := s.mem.scrub (2 ^ 40) (2 ^ 51 - 2 ^ 40)
    cores := s.cores.map fun e => (e.1, e.2.scrubbed) }

/-- The memory that the firmware writes before anything runs: no cache holds anything older. -/
def State.writeInit (s : State) (xs : List (Nat × List Byte)) : State :=
  xs.foldl (fun s e =>
    if e.2.isEmpty then s
    else
      let ls := span e.1 e.2.length
      ({ s with mem := s.mem.putPiece [] false (ls.zip e.2) } : State).noteBank ls) s

/-- The boot ROM's run (R315, R317): either the dies are released, the configuration takes effect and context 0 exists,
with its record kept (R322), or the device stays in recovery with every die in reset. -/
def State.boot (s : State) (cfg : FwConfig) : State :=
  if imgOk s.island.flash then
    let s1 := { s with
      island := { s.island.measureBoot cfg with boot := .running, fw := cfg }
      bound := cfg.bound.foldl (fun (m : SMap Nat) (e : Nat × Nat) => mins m e.1 e.2) [] }
    let s2 := (List.range 4).foldl (fun s d => s.modDie d fun x => { x with st := .online }) s1.zeroAll
    let own : CtxRec := { cfg.own with ctx := 0, priv := true }
    (({ s2 with ctxs := mins s2.ctxs 0 (freshCtx own) }.grantCores own).writeInit cfg.init).keepRecord own
  else { s with island := { s.island with boot := .recovery } }

/-- `POWER_ON` (R315): the cold boot. -/
def execPowerOn (cfg : FwConfig) (s : State) : Host.Outcome State Fault Refusal :=
  if s.island.boot = .cold then .next (s.boot cfg) else .next s

/-- `MEASUREMENT_EXTEND` (R318): running firmware extends a register that it is assigned; no other write exists. -/
def execMeasurementExtend (reg : Nat) (digest : BitVec 256) (s : State) : Host.Outcome State Fault Refusal :=
  if s.fwRuns && (reg = 2 || reg = 3 || (8 ≤ reg && reg ≤ 15)) then .next { s with island := s.island.extend reg digest }
  else .next s

/-! ## SPDM (R319, R320) -/

/-- The connection state of a transport. -/
def Island.spdm (i : Island) (t : Transport) : Spdm :=
  match t with
  | .sill => i.sill
  | .girt => i.girt

/-- Changes the connection state of a transport. -/
def State.modSpdm (s : State) (t : Transport) (f : Spdm → Spdm) : State :=
  match t with
  | .sill => { s with island := { s.island with sill := f s.island.sill } }
  | .girt => { s with island := { s.island with girt := f s.island.girt } }

/-- Whether a request reaches the responder: on the Sill port whenever the board has standby power, also while the dies are held
in reset for the boot (R16), and in recovery only what `inRecovery` allows (R317); over the fabric where a port is up. -/
def State.spdmServed (s : State) (t : Transport) (inRecovery : Bool) : Bool :=
  match s.island.boot with
  | .cold => t == .sill
  | .recovery => t == .sill && inRecovery
  | .running => t == .sill || s.fabricUp

/-- Answers a request on its own transport: the response's code and fields (PRESUMED, notes/assumptions/34). -/
def State.respond (s : State) (t : Transport) (served : Bool) (code : Byte) (fields : List Byte) : State :=
  if served then s.modSpdm t fun x => { x with reply := code :: fields, count := x.count + 1 } else s

/-- The ERROR response with an error code. -/
def spdmError : Byte := 0x7F

/-- The ERROR code UnexpectedRequest. -/
def errUnexpected : Byte := 0x04
/-- The ERROR code UnsupportedRequest. -/
def errUnsupported : Byte := 0x07

/-- `GET_VERSION` (R319): 1.3 only. -/
def execGetVersion (t : Transport) (s : State) : Host.Outcome State Fault Refusal :=
  let ok := s.spdmServed t true
  let s1 := if ok then s.modSpdm t fun x => { x with version := true, slh := none } else s
  .next (s1.respond t ok 0x04 [0x01, 0x00, 0x13])

/-- `GET_CAPABILITIES` (R319): CERT_CAP, CHAL_CAP, and MEAS_CAP with signature. -/
def execGetCapabilities (t : Transport) (s : State) : Host.Outcome State Fault Refusal :=
  .next (s.respond t (s.spdmServed t true) 0x61 (leBytes 4 0x16))

/-- `NEGOTIATE_ALGORITHMS` (R319): SHA-256 as the measurement hash, no BaseAsymAlgo bit, SHA-256 as the hash, and the extended
entry where the requester offers it (PRESUMED, notes/assumptions/34). -/
def execNegotiateAlgorithms (t : Transport) (offersSlh : Bool) (s : State) : Host.Outcome State Fault Refusal :=
  let ok := s.spdmServed t false
  let s1 := if ok then s.modSpdm t fun x => { x with slh := some offersSlh } else s
  .next (s1.respond t ok 0x63 (leBytes 4 2 ++ leBytes 4 0 ++ leBytes 4 1 ++ (if offersSlh then [0x04, 0x00] ++ leBytes 2 1 else [])))

/-- `GET_DIGESTS` (R319): slot 0. -/
def execGetDigests (t : Transport) (s : State) : Host.Outcome State Fault Refusal :=
  .next (s.respond t (s.spdmServed t false) 0x01 (0x01 :: digestBytes (sha256 Config.certChain)))

/-- `GET_CERTIFICATE` (R319): a part of slot 0's chain; of another slot it is a request that the device does not support. -/
def execGetCertificate (t : Transport) (slot off len : Nat) (s : State) : Host.Outcome State Fault Refusal :=
  let ok := s.spdmServed t false
  if slot = 0 then
    let part := (Config.certChain.drop off).take len
    .next (s.respond t ok 0x02 (0x00 :: leBytes 2 part.length ++ leBytes 2 (Config.certChain.length - off - part.length) ++ part))
  else .next (s.respond t ok spdmError [errUnsupported])

/-- Whether the asymmetric algorithm has been selected on a transport. -/
def State.slhOn (s : State) (t : Transport) : Bool := (s.island.spdm t).slh == some true

/-- `CHALLENGE` (R319): a signed answer for slot 0, or UnexpectedRequest where no asymmetric algorithm was selected. -/
def execChallenge (t : Transport) (slot : Nat) (nonce : BitVec 256) (s : State) : Host.Outcome State Fault Refusal :=
  let ok := s.spdmServed t false
  if !s.slhOn t then .next (s.respond t ok spdmError [errUnexpected])
  else if slot ≠ 0 then .next (s.respond t ok spdmError [errUnsupported])
  else
    let body := digestBytes (sha256 Config.certChain) ++ digestBytes nonce
    .next (s.respond t ok 0x03 (body ++ Config.slhSign body))

/-- `GET_MEASUREMENTS` (R319, R320): index n + 1 gives MR_n, and 0xFF all 16 at one instant; of another index it is a request
that the device does not support. -/
def execGetMeasurements (t : Transport) (index : Nat) (signed : Bool) (nonce : BitVec 256) (s : State) :
    Host.Outcome State Fault Refusal :=
  let ok := s.spdmServed t false
  let ns := if index = 0xFF then List.range 16 else if 1 ≤ index ∧ index ≤ 16 then [index - 1] else []
  if signed && !s.slhOn t then .next (s.respond t ok spdmError [errUnexpected])
  else if ns.isEmpty then .next (s.respond t ok spdmError [errUnsupported])
  else
    let vals := ns.flatMap fun n => digestBytes (s.island.mr n)
    let body := vals ++ digestBytes nonce
    .next (s.respond t ok 0x60 (if signed then body ++ Config.slhSign body else vals))

/-- Any other SPDM request (R319): ERROR with UnsupportedRequest. -/
def execSpdmUnsupported (t : Transport) (_code : Nat) (s : State) : Host.Outcome State Fault Refusal :=
  .next (s.respond t (s.spdmServed t false) spdmError [errUnsupported])

/-! ## Monitoring and dumps -/

/-- The number of a die's state in a report. -/
def DieSt.code : DieSt → Nat
  | .reset => 0 | .online => 1 | .saving => 2 | .offline _ => 3 | .drained _ => 4 | .retrained _ => 5 | .lost => 6

/-- Whether a core has reported itself halted: it has stopped, and the operations of its warps have completed (R127). -/
def State.haltDone (s : State) (k : Nat) : Bool :=
  (s.core k).halted && s.warps.all fun e => (s.blk e.2.blk).core != k || !s.inFlight e.1

/-- What a health read reports (R321): temperatures of dies and stacks, package power, die states, wear counters and
WEAR_MAX, and the cores' halted flags. -/
def State.health (s : State) : List Byte :=
  (List.range 13).flatMap (fun i => leBytes 4 (Config.sensor i s.free)) ++
  (List.range 4).flatMap (fun d => leBytes 1 (s.die d).st.code ++ leBytes 8 (s.die d).wear ++ leBytes 8 (Config.wearMax d)) ++
  (List.range 160).map fun k => if s.haltDone k then 1 else 0

/-- `HEALTH_READ` (R321, R325): from any endpoint of the Sill bus, in recovery too, and from the listed fabric addresses. -/
def execHealthRead (r : Requester) (s : State) : Host.Outcome State Fault Refusal :=
  .next (s.manage r true fun s =>
    let s1 := s.reply .done s.health
    { s1 with free := s1.free + 1 })

/-- The device-level dump (R365): die states and corrected errors, array remaps, soft-error counts and failed bands, and
each context's dump STATUS; no byte of a tenant's state. -/
def State.deviceDump (s : State) : List Byte :=
  (List.range 4).flatMap (fun d => leBytes 1 (s.die d).st.code ++ leBytes 4 (s.die d).ecc.reports.length) ++
  (List.range 8).flatMap (fun k => leBytes 4 (mget 0 (s.die (k / 2)).ecc.byStack k)) ++
  (List.range 160).flatMap (fun k =>
    let c := s.core k
    leBytes 4 (mget 0 (s.die (k / 40)).ecc.byCore k) ++
    leBytes 2 c.remaps.length ++ c.remaps.flatMap (leBytes 2) ++ leBytes 4 c.softErr ++
    (List.range 4).map fun b => if (c.band b).failed then 1 else 0) ++
  (List.range 256).flatMap (fun c => leBytes 4 ((mget {} s.chans c).bes.toNat % 65536) ++ leBytes 8 (mget {} s.chans c).ucnt) ++
  s.ctxs.flatMap fun e =>
    leBytes 2 e.1 ++ leBytes 1 (match e.2.dumpStat with
      | some x => x
      | none => if e.2.log.contains .dumpLost then 0xFE else 0xFF)

/-- `DUMP_TRIGGER` (R326): firmware writes the device-level dump. -/
def execDumpTrigger (r : Requester) (s : State) : Host.Outcome State Fault Refusal :=
  .next (s.manage r s.fwRuns fun s =>
    { s with island := { s.island with dump := some s.deviceDump } }.reply .done [])

/-- `DUMP_FETCH` (R326, R365): the device-level dump, or bytes 0 to 127 of a tenant dump's header. -/
def execDumpFetch (r : Requester) (tenant : Option Nat) (s : State) : Host.Outcome State Fault Refusal :=
  .next (s.manage r s.fwRuns fun s =>
    match tenant with
    | none => match s.island.dump with
      | some d => s.reply .done d
      | none => s.reply .refused []
    | some c => if (s.ctx c).dumpHead.isEmpty then s.reply .refused [] else s.reply .done (s.ctx c).dumpHead)

/-- `CORE_RESTART` (R127, R326): the die control block restarts a core that has reported itself halted. -/
def execCoreRestart (r : Requester) (core : Nat) (s : State) : Host.Outcome State Fault Refusal :=
  .next (s.manage r (s.island.boot == .running) fun s =>
    if s.haltDone core then (s.modCore core fun c => { c with halted := false }).reply .done []
    else s.reply .refused [])

/-- `RECOVERY_LOAD` (R326): over the Sill port only; an image that passes steps 2 to 4 of R315 is kept in the boot flash. -/
def execRecoveryLoad (r : Requester) (image : List Byte) (s : State) : Host.Outcome State Fault Refusal :=
  if r ≠ .sill then .next s
  else if imgOk image then .next ({ s with island := { s.island with flash := image } }.reply .done [])
  else .next (s.reply .refused [])

end Sys2Proof.Machine
end

