-- ==== Sys2Proof/Machine/Fabric.lean ====
section
/-! DEFINITION. The Girt fabric: links (spec/01 R15, spec/21 R381, R382), host source queues (spec/12 R286), and the
accesses of other devices (spec/07 R156). -/

namespace Sys2Proof.Machine

/-! ## Ports -/

/-- `GIRT_FLIT_ERROR` (R381): the flit is sent again; after its eighth failure the port is taken down. -/
def execGirtFlitError (x : FlitAt) (s : State) : Host.Outcome State Fault Refusal :=
  if !(s.port x.port).up then .next s
  else
    .next (s.modPort x.port fun p =>
      let n := mget 0 p.flits x.flit + 1
      if 8 ≤ n then { p with up := false, flits := [], downAt := s.timer } else { p with flits := mins p.flits x.flit n })

/-- `LINK_TRAINING` (R15, R381, R382): a port of a die that is there trains with its partner, chooses its rate, and enables compression where
both ends offer it and the threshold does not disable it; after three failed trainings it stays down. The fabric does not
train in recovery (R317). -/
def execLinkTraining (port partner : Nat) (ok full offerComp : Bool) (s : State) : Host.Outcome State Fault Refusal :=
  let x := s.port port
  if s.island.boot != .running || x.up || x.down || 18 ≤ port || s.offline (portDie port) then .next s
  else if ok then
    .next (s.modPort port fun x =>
      { x with up := true, partner := some partner, full, comp := offerComp && s.island.fw.thr < 16, flits := [], fails := 0 })
  else
    .next (s.modPort port fun x =>
      { x with partner := some partner, fails := x.fails + 1, down := 3 ≤ x.fails + 1
               downAt := if x.partner.isNone then s.timer else x.downAt })

/-- TIMER when the last port to a partner went down. -/
def State.pathDownAt (s : State) (partner : Nat) : Nat :=
  (s.ports.filter fun e => e.2.partner == some partner).foldl (fun m e => Nat.max m e.2.downAt) 0

/-- Whether an access to a partner has been held for 10 ms. -/
def State.expired (s : State) (partner : Nat) (f : FarAcc) : Bool :=
  f.partner == partner && Nat.max f.at_ (s.pathDownAt partner) + 10000000 ≤ s.timer

/-- The late trap of a write whose fabric path failed (R369, R381). -/
def pathFault (addr : Word) : Nat × Nat × Word := (0x14, 0x91, addr)

/-- A lane's value after its access failed: poison with source class 0b01. -/
def RegVal.fail (v : RegVal) (fs : List FarAcc) : RegVal :=
  match fs.find? fun f => f.lane == v.lane with
  | some f => { v with val := 0x7FC00D0D, mark := some ⟨f.addr, 0x90, 0x14⟩ }
  | none => v

/-- An operation in flight some of whose accesses have failed. -/
def Pend.failFar (fs : List FarAcc) (q : Pend) : Pend :=
  match q with
  | .load w a accs vals b bad post fl => .load w a accs (vals.map (·.fail fs)) b bad post fl
  | .result w vals fl cls => .result w (vals.map (·.fail fs)) fl cls
  | .store w sp f rel => .store w sp (f.orElse fun _ => fs.head?.map fun x => pathFault x.addr) rel
  | q => q

/-- A held copy to or from a partner fails: its batch has ERR, and the copy is complete (R182, R369, R381). -/
def State.failCopy (s : State) (w id : Nat) (f : FarAcc) : State :=
  { s with pend := mdel s.pend id, far := mdel s.far id }.modWarp w fun x =>
    { x with batches := x.batches.map fun (b : Batch) =>
        if b.ops.contains id then
          { b with ops := b.ops.filter (· != id), err := b.err.orElse fun _ => some (0x14, 0x90 + f.lane, f.addr) }
        else b }

/-- The held accesses of an operation fail. -/
def State.failOp (s : State) (partner : Nat) (e : Nat × List FarAcc) : State :=
  match e.2.filter (s.expired partner), mfind s.pend e.1 with
  | [], _ => s
  | f :: _, some (.copy w ..) => s.failCopy w e.1 f
  | fs, _ =>
    let left := e.2.filter fun f => !s.expired partner f
    { s with
      pend := mmod s.pend e.1 (Pend.failFar fs)
      far := if left.isEmpty then mdel s.far e.1 else mins s.far e.1 left }

/-- A `CWAIT` whose read of a counter of a partner has been held for 10 ms ends with poison. -/
def State.failWait (s : State) (partner w : Nat) : State :=
  match (s.warp w).park with
  | .cwait _ g a p _ (.far d _ since) =>
    if s.expired partner ⟨d, 0, p, since⟩ then
      ((s.putSeen g a.d.toNat 0x7FC00D0D (some ⟨p, 0x90, 0x14⟩)).ctrAcquire g a).pass g (argBytes a)
    else s
  | _ => s

/-- `GIRT_HOLD_TIMEOUT` (R381): packets held 10 ms with no port to their partner fail. -/
def execGirtHoldTimeout (partner : Nat) (s : State) : Host.Outcome State Fault Refusal :=
  if !s.pathHeld partner then .next s
  else
    let s1 := s.far.foldl (fun s e => s.failOp partner e) s
    .next ((s1.warps.map (·.1)).foldl (fun s w => s.failWait partner w) s1)

/-! ## Parties outside the device -/

/-- A party outside the device: a host source queue, or a warp of another device. -/
def State.party (s : State) (q : Nat) : HostQ := mget {} s.hostQs q

/-- Changes a party. -/
def State.modParty (s : State) (q : Nat) (f : HostQ → HostQ) : State :=
  { s with hostQs := mins s.hostQs q (f (s.party q)) }

/-- The name of the party that a warp of another device's context is (Table 12.1). -/
def remoteParty (dev c warp : Nat) : Nat := 2 ^ 32 + (dev * 65536 + c) * 65536 + warp % 65536

/-- Whether an access by a party outside waits: for a write, a pass holds its rows or its home is offline and may come
back; and an earlier write to its locations is held (R265, R383). -/
def State.outsideWaits (s : State) (q : Nat) (ls : List Nat) (write : Bool) : Bool :=
  (write && ((ls.any s.awaitsDie) ||
    (rowsOf ls).any fun r => !(s.kerfOf (s.party q).floors none s.nextId r).isEmpty)) ||
  s.held.any fun h => h.bytes.any fun b => ls.contains b.1

/-- A write of a party outside, performed at its homes, where every core reads it that holds no L1 copy (R286). -/
def State.outsideWrite (s : State) (q : Nat) (ls : List Nat) (data : List Byte) : State :=
  let s1 := ((s.recall ls).performWrite { rels := (s.party q).rels } false 0 8 (ls.zip data)).noteBank ls
  s1.modParty q fun x => { x with view := raiseTo x.view (ls.map fun l => (l, s1.mem.pos l))
                                  floors := raiseTo x.floors (ls.map fun l => (l, s1.mem.pos l)) }

/-- An acquire at sys of a party outside: it sees what the releases hold that it has observed (R278, R279). -/
def State.outsideAcquire (s : State) (q : Nat) : State :=
  s.modParty q fun x => { x with floors := s.mem.acquired 161 .sys x.seen x.floors }

/-- A release at sys of a party outside with a snapshot (R277). -/
def State.outsideRelease (s : State) (q : Nat) (view : SMap Nat) : State :=
  let (s1, id) := s.deviceRelease 161 .sys view
  s1.modParty q fun x => { x with rels := x.rels ++ [id] }

/-- A read of a party outside at its floors (R285, R286). Poison answers with no bytes (DEDUCED, notes/assumptions/38). -/
def State.outsideRead (s : State) (q : Nat) (ls : List Nat) : State :=
  let (s1, r) := s.readHome 0 8 (s.party q).floors ls
  s1.modParty q fun x =>
    { x with
      floors := raiseTo x.floors (r.rs.map fun e => (e.1, e.2.1))
      seen := (x.seen ++ s1.mem.relsOf r.rs).dedup
      reply := if (r.poison ls).isSome then [] else ls.map r.byte }

/-- A signal of a party outside: an increment at the counter's home (R194, R286). -/
def State.outsideSignal (s : State) (q l : Nat) (inc : Word) : State :=
  let (s1, _, bad) := s.counterAdd { rels := (s.party q).rels } l inc.toNat
  s1.modParty q fun x =>
    { x with reply := [], floors := if bad then x.floors else raiseTo x.floors ((span l 8).map fun l => (l, s1.mem.pos l)) }

/-- An `ATOM` or a `RED` of a warp of another device, executed at its home (R156, R198, R199): the old value is the answer;
poison answers with no bytes. -/
def State.outsideAtom (s : State) (q : Nat) (a : Args) (fp b c : Word) (ls : List Nat) : State :=
  let (s1, r) := s.peekHome 0 ls
  let x := s1.party q
  let old := r.value ls
  let new := (atomNew a fp ls.length old b c).1
  let keeps := (r.poison ls).isSome || (a.func == 0x11 && lowBytes ls.length old != lowBytes ls.length c)
  let s2 := if keeps then s1 else s1.performPiece { rels := x.rels } true 0 (ls.zip (bytesOf ls.length new))
  s2.modParty q fun y =>
    { y with
      floors := raiseTo y.floors (ls.map fun l => (l, s2.mem.pos l))
      seen := (y.seen ++ s1.mem.relsOf r.rs).dedup
      reply := if (r.poison ls).isSome then [] else ls.map r.byte }

/-- A host's locations, through the tables of the context that serves it; a fault answers with no bytes. -/
def State.hostLocs (s : State) (c : Nat) (write : Bool) (p : Word) (n : Nat) : State × Option (List Nat) :=
  match s.recLocs c { write } p n with
  | (s1, .ok ls) => (s1, some ls)
  | (s1, .error _) => (s1, none)

/-- Whether a host reaches a context: the device runs, the fabric, which is its only attachment, has a port up (R15), and
the context exists. -/
def State.hostReaches (s : State) (c : Nat) : Bool :=
  s.island.boot == .running && s.fabricUp && (mfind s.ctxs c).isSome

/-- `HOST_WRITE` (R286): the next write of a queue is performed at its home. -/
def execHostWrite (q c : Nat) (addr : Word) (data : List Byte) (s : State) : Host.Outcome State Fault Refusal :=
  if !s.hostReaches c then .next s
  else
    match s.hostLocs c true addr data.length with
    | (s1, none) => .next (s1.modParty q fun x => { x with reply := [] })
    | (s1, some ls) => if s1.outsideWaits q ls true then .next s else .next (s1.outsideWrite q ls data)

/-- `HOST_READ` (R286): the next read of a queue, an acquire at sys for its later reads. -/
def execHostRead (q c : Nat) (addr : Word) (len : Nat) (s : State) : Host.Outcome State Fault Refusal :=
  if !s.hostReaches c then .next s
  else
    match s.hostLocs c false addr len with
    | (s1, none) => .next (s1.modParty q fun x => { x with reply := [] })
    | (s1, some ls) => if s1.outsideWaits q ls false then .next s else .next ((s1.outsideRead q ls).outsideAcquire q)

/-- `HOST_SIGNAL` (R286): an increment after the queue's earlier writes, as a release at sys whose snapshot is those writes. -/
def execHostSignal (q c : Nat) (addr inc : Word) (s : State) : Host.Outcome State Fault Refusal :=
  if !s.hostReaches c || addr.toNat % 8 != 0 then .next s
  else
    match s.hostLocs c true addr 8 with
    | (s1, none) => .next (s1.modParty q fun x => { x with reply := [] })
    | (s1, some ls) =>
      if s1.outsideWaits q ls true then .next s
      else .next ((s1.outsideRelease q (s1.party q).view).outsideSignal q (ls.headD 0) inc)

/-- The locations of another device's access, through the tables bound to its device and context (R156). -/
def State.remoteLocs (s : State) (dev c : Nat) (write : Bool) (p : Word) : Nat → State × Option (List Nat)
  | 0 => (s, some [])
  | n + 1 =>
    match s.remoteLocs dev c write p n with
    | (s1, none) => (s1, none)
    | (s1, some ls) =>
      match s1.remoteByte dev c { write } p (((p.extractLsb' 0 48).toNat + n) % 2 ^ 48) with
      | (s2, .ok (.mem l)) => (s2, some (ls ++ [l]))
      | (s2, _) => (s2, none)

/-- The bytes that an access of a warp of another device concerns, and whether it writes them. -/
def remoteSpan (op : RemoteOp) : Nat × Bool :=
  match op with
  | .read len _ => (len, false)
  | .write data => (data.length, true)
  | .signal _ _ => (8, true)
  | .atom a _ _ _ => (atomSize a.ty, true)
  | .phase _ _ | .follow _ => (0, false)

/-- A release or an acquire at sys of a warp of another device, which needs no packet to this one (R277, R278, R285). -/
def State.remoteOrder (s : State) (q : Nat) (op : RemoteOp) : State :=
  match op with
  | .phase rel acq =>
    let s1 := if rel then s.outsideRelease q (s.party q).floors else s
    if acq then s1.outsideAcquire q else s1
  | .follow id => (s.modParty q fun x => { x with seen := (x.seen ++ [id]).dedup }).outsideAcquire q
  | _ => s

/-- An access of a warp of another device at its locations. -/
def State.remoteServe (s : State) (q : Nat) (ls : List Nat) (op : RemoteOp) : State :=
  match op with
  | .read _ acq => let s1 := s.outsideRead q ls; if acq then s1.outsideAcquire q else s1
  | .write data => s.outsideWrite q ls data
  | .signal inc rel =>
    let s1 := if rel then s.outsideRelease q (s.party q).floors else s
    s1.outsideSignal q (ls.headD 0) inc
  | .atom a fp b c => s.outsideAtom q a fp b c ls
  | _ => s

/-- `REMOTE_ACCESS` (R156, R285): an access that a warp of another device sends is served at its home, and what it releases or
acquires there is noted; a fault answers with no bytes (DEDUCED, notes/assumptions/38). -/
def execRemoteAccess (dev : Nat) (who : RemoteWarp) (addr : Word) (op : RemoteOp) (s : State) :
    Host.Outcome State Fault Refusal :=
  let q := remoteParty dev who.ctx who.warp
  let (n, wr) := remoteSpan op
  let order := match op with
    | .phase _ _ | .follow _ => true
    | _ => false
  let whole := match op with
    | .signal _ _ | .atom .. => addr.toNat % n == 0
    | _ => true
  if order then .next (s.remoteOrder q op)
  else if s.island.boot != .running || !s.fabricUp || s.pathHeld dev || !whole then .next s
  else
    match s.remoteLocs dev who.ctx wr addr n with
    | (s1, none) => .next (s1.modParty q fun x => { x with reply := [] })
    | (s1, some ls) => if s1.outsideWaits q ls wr then .next s else .next (s1.remoteServe q ls op)

end Sys2Proof.Machine
end

