-- ==== Sys2Proof/Machine/Sfn.lean ====
section
/-! DEFINITION. The special functions of `SFN` (spec/06 R139 to R141): the exact and special results, and elsewhere a
free value kept within the error bounds of Table 6.2. The exact value is enclosed in fixed point with 512 fraction
bits (DEDUCED, notes/assumptions/9). -/

namespace Sys2Proof.Machine

/-- One in the fixed point of this file: values times 2^512. -/
def fxOne : Int := 2 ^ 512

/-- Fixed-point product, rounded down. -/
def fxMul (a b : Int) : Int := a * b / fxOne

/-- Fixed-point quotient, rounded down. -/
def fxDiv (a b : Int) : Int := a * fxOne / b

/-- A finite value in fixed point; exact for FP32, FP16 and BF16. -/
def fxOf (neg : Bool) (m : Nat) (e : Int) : Int := scaleInt neg m (e + 512) 0

/-- Sum of a power series with coefficient ratios: terms t(k+1) = t(k) × x ÷ d(k), for `n` terms. -/
def fxSeries (x : Int) (d : Nat → Int) : Nat → Nat → Int → Int
  | 0, _, _ => 0
  | n + 1, k, t => t + fxSeries x d n (k + 1) (fxMul t x / d k)

/-- e^t for |t| at most 1. -/
def fxExpSmall (t : Int) : Int := fxSeries t (fun k => k + 1) 110 0 fxOne

/-- Σ z^(2k+1) ÷ (2k+1), with the square's sign `s`: atanh for s = 1, atan for s = −1. -/
def fxAtan (s : Int) (z : Int) : Int :=
  ((List.range 180).foldl
    (fun (acc : Int × Int) k => (acc.1 + acc.2 / (2 * k + 1 : Nat), s * fxMul (fxMul acc.2 z) z)) (0, z)).1

/-- ln 2. -/
def fxLn2 : Int := 2 * fxAtan 1 (fxOne / 3)

/-- π, by Machin's formula. -/
def fxPi : Int := 16 * fxAtan (-1) (fxOne / 5) - 4 * fxAtan (-1) (fxOne / 239)

/-- x × 2^n in fixed point. -/
def fxShift (x n : Int) : Int := if 0 ≤ n then x * 2 ^ n.toNat else x / 2 ^ (-n).toNat

/-- e^t; 0 below −1000, and a huge value above 1000. -/
def fxExp (t : Int) : Int :=
  if t < -1000 * fxOne then 0
  else if 1000 * fxOne < t then 2 ^ 2000
  else
    let n := t / fxLn2
    fxShift (fxExpSmall (t - n * fxLn2)) n

/-- 2^x for |x| below 1000. -/
def fxExp2 (x : Int) : Int :=
  if x < -1000 * fxOne then 0
  else if 1000 * fxOne < x then 2 ^ 2000
  else
    let n := x / fxOne
    fxShift (fxExpSmall (fxMul (x - n * fxOne) fxLn2)) n

/-- log2 of m × 2^e, m not zero: the mantissa is taken in [0.75, 1.5). -/
def fxLog2 (m : Nat) (e : Int) : Int :=
  let k := Nat.log2 m
  let y : Int := (m : Int) * fxOne / (2 ^ k : Nat)
  let (y, k') := if 2 * y < 3 * fxOne then (y, (k : Int) + e) else (y / 2, (k : Int) + e + 1)
  k' * fxOne + fxDiv (2 * fxAtan 1 (fxDiv (y - fxOne) (y + fxOne))) fxLn2

/-- sin πx for x in [0, 0.5]. -/
def fxSinPi (x : Int) : Int :=
  let t := fxMul x fxPi
  let t2 := -(fxMul t t)
  fxSeries t2 (fun k => (2 * k + 2) * (2 * k + 3)) 70 0 t

/-- sin πx for any x: reduced to one period and folded. -/
def fxSinPiAll (x : Int) : Int :=
  let r := x % (2 * fxOne)
  let neg := decide (fxOne ≤ r)
  let r := if neg then r - fxOne else r
  let r := if fxOne < 2 * r then fxOne - r else r
  let y := fxSinPi r
  if neg then -y else y

/-- erf(x) by its power series, for |x| at most 11; the limit beyond. -/
def fxErf (x : Int) : Int :=
  if 11 * fxOne < x then fxOne
  else if x < -11 * fxOne then -fxOne
  else
    let x2 := -(fxMul x x)
    let s := ((List.range 500).foldl
      (fun (acc : Int × Int) k => (acc.1 + acc.2 / (2 * k + 1 : Nat), fxMul acc.2 x2 / (k + 1 : Nat))) (0, x)).1
    -- 2 ÷ √π
    let rt : Int := (Nat.sqrt (fxPi * fxOne).toNat : Nat)
    fxDiv (2 * s) rt

/-- tanh x. -/
def fxTanh (x : Int) : Int :=
  if x < 0 then
    let q := fxExp (2 * x)
    fxDiv (q - fxOne) (q + fxOne)
  else
    let q := fxExp (-2 * x)
    fxDiv (fxOne - q) (fxOne + q)

/-- 1 ÷ √2. -/
def fxRsqrt2 : Int := (Nat.sqrt (fxOne * fxOne / 2).toNat : Nat)

/-- The exact value of function `func` at the finite, non-zero operand ±m × 2^e, in fixed point (R139). -/
def sfnExact (func : Nat) (neg : Bool) (m : Nat) (e : Int) : Int :=
  let x := fxOf neg m e
  match func with
  | 0 => fxExp2 x
  | 1 => fxLog2 m e
  | 2 => fxDiv fxOne x
  | 3 => (Nat.sqrt (fxOne * fxOne * fxOne / x).toNat : Nat)
  | 4 => (Nat.sqrt (x * fxOne).toNat : Nat)
  | 5 => fxSinPiAll x
  | 6 => fxSinPiAll (x + fxOne / 2)
  | 7 => if x.natAbs < (2 ^ 412 : Nat) then x else fxTanh x
  | 8 => fxDiv fxOne (fxOne + fxExp (-x))
  | 9 => fxMul x ((fxOne + fxErf (fxMul x fxRsqrt2)) / 2)
  | _ => fxErf x

/-- The fixed-point value of a code of a format; none where it is not finite. -/
def fxVal (f : FFmt) (c : Nat) : Option Int :=
  match decodeF f c with
  | .fin n m e => some (fxOf n m e)
  | _ => none

/-- The nearest code to a fixed-point value, ties to even, without overflow. -/
def fxRound (f : FFmt) (x : Int) : Nat := (roundFin f .rne true (x < 0) x.natAbs (-512)).1

/-- The spacing of a format at a fixed-point value (R141). -/
def fxUlp (f : FFmt) (x : Int) : Int :=
  let ex : Int := if x = 0 then f.emin else max ((Nat.log2 x.natAbs : Int) - 512) f.emin
  2 ^ (512 + ex - f.prec + 1).toNat

/-- The error bound of Table 6.2 at operand x (in fixed point) whose exact value is v. -/
def sfnBound (func : Nat) (f : FFmt) (x v : Int) : Int :=
  let h := f == .f16
  let u := fxUlp f v
  let pow (n : Nat) : Int := 2 ^ (512 - n)
  match func with
  | 0 => if h then u else 2 * u
  | 1 => if 3 * fxOne ≤ 4 * x && 2 * x < 3 * fxOne then (if h then pow 13 else pow 22) else if h then u else 2 * u
  | 2 => u
  | 3 => 2 * u
  | 4 => u
  | 5 | 6 => if h then max u (pow 12) else max (2 * u) (pow 23)
  | 7 => if h then u else if 2 * x.natAbs < fxOne.toNat then 3 * u else 2 * u
  | 8 => if h then u else 3 * u
  | 9 => if x < -3 * fxOne then (if h then pow 14 else pow 24) else if h then 2 * u else 3 * u
  | _ => if h then u else 2 * u

/-- Whether the result at a finite non-zero operand is exact or correctly rounded (R139, R140, R141). -/
def sfnIsExact (func : Nat) (f : FFmt) (neg : Bool) (m : Nat) (e : Int) : Bool :=
  let x := fxOf neg m e
  let v := sfnExact func neg m e
  let big := (if f == .f16 then (2 : Int) ^ 9 else 2 ^ 22) * fxOne ≤ (x.natAbs : Int)
  let pow2 := m == 2 ^ Nat.log2 m
  match func with
  | 0 => x % fxOne == 0 && fxVal f (fxRound f v) == some v && v != 0
  | 1 => x == fxOne
  | 2 => f == .f16 || (pow2 && fxVal f (fxRound f v) == some v)
  | 3 => f == .f16 || (pow2 && ((Nat.log2 m : Int) + e) % 2 == 0)
  | 4 => f == .f16 || (pow2 && fxVal f (fxRound f v) == some v)
  | 5 => big || x % fxOne == 0
  | 6 => big || (x + fxOne / 2) % fxOne == 0
  | _ => false

/-- Whether a fixed-point magnitude is at or above the overflow threshold of a format (R139). -/
def sfnOverflows (f : FFmt) (v : Int) : Bool :=
  match fxVal f f.maxCode with
  | none => false
  | some mx => 2 * mx + fxUlp f mx ≤ 2 * (v.natAbs : Int)

/-- An infinite result from a finite operand: SAT replaces it (R139). -/
def sfnInf (f : FFmt) (sat neg : Bool) (fl : Nat) : Nat × Nat :=
  if sat then (signCode f neg f.maxCode, fl ||| fSATF) else (signCode f neg f.infCode, fl)

/-- Code of 1.0, with a sign. -/
def oneCode (f : FFmt) (neg : Bool) : Nat := (roundFin f .rne false neg 1 0).1

/-- Results at the zeros (R140). -/
def sfnZero (func : Nat) (f : FFmt) (sat neg : Bool) : Nat × Nat :=
  match func with
  | 0 | 6 => (oneCode f false, 0)
  | 1 => sfnInf f sat true fDZ
  | 2 | 3 => sfnInf f sat neg fDZ
  | 8 => ((roundFin f .rne false false 1 (-1)).1, 0)
  | _ => (signCode f neg 0, 0)

/-- Results at the infinities (R140). -/
def sfnInfArg (func : Nat) (f : FFmt) (neg : Bool) : Nat × Nat :=
  let inf := signCode f false f.infCode
  match func with
  | 0 => if neg then (0, 0) else (inf, 0)
  | 1 | 4 => if neg then (f.nanCode, fNV) else (inf, 0)
  | 2 => (signCode f neg 0, 0)
  | 3 => if neg then (f.nanCode, fNV) else (0, 0)
  | 5 | 6 => (f.nanCode, fNV)
  | 7 => (oneCode f neg, 0)
  | 8 => if neg then (0, 0) else (oneCode f false, 0)
  | 9 => if neg then (signCode f true 0, 0) else (inf, 0)
  | _ => (oneCode f neg, 0)

/-- Whether a code, rounded on to a format, lies within 1 ULP of that format of an exact value (R139). -/
def sfnNear (f g : FFmt) (v : Int) (c : Nat) : Bool :=
  match fxVal g (roundTo g .rne false false [] (decodeF f c)).1 with
  | some q => (q - v).natAbs ≤ (fxUlp g v).natAbs
  | none => false

/-- The result at a finite non-zero operand, in FP32 or FP16: `cand` is the free value, kept where it lies within the
bound, and within 1 ULP of a BF16 destination. `thr` is the destination format, whose overflow threshold decides OF (DEDUCED, notes/assumptions/9). -/
def sfnFinite (func : Nat) (f thr : FFmt) (sat neg : Bool) (m : Nat) (e : Int) (cand : Nat) : Nat × Nat :=
  let x := fxOf neg m e
  if neg && (func == 1 || func == 3 || func == 4) then (f.nanCode, fNV)
  else
    let v := sfnExact func neg m e
    if (func == 0 || func == 2) && sfnOverflows thr v then sfnInf f sat (v < 0) fOF
    else if sfnIsExact func f neg m e then
      (if v == 0 then (if func == 5 then signCode f neg 0 else 0) else fxRound f v, 0)
    else
      match fxVal f cand with
      | some c =>
        if (c - v).natAbs ≤ (sfnBound func f x v).natAbs && (f == thr || sfnNear f thr v cand) then (cand, 0)
        else (fxRound f v, 0)
      | none => (fxRound f v, 0)

/-- SFN on an element in FP32 or FP16. -/
def sfnWide (func : Nat) (f thr : FFmt) (sat nanp : Bool) (v : FVal) (cand : Nat) : Nat × Nat :=
  match v with
  | .nan _ _ _ _ _ => (nanResult f nanp [v], nvOf [v])
  | .inf n => sfnInfArg func f n
  | .fin n m e => if m = 0 then sfnZero func f sat n else sfnFinite func f thr sat n m e cand

/-- SFN on an element of TYPE: BF16 is computed as FP32 and rounded to BF16 with RNE (R139). -/
def sfnElem (g : Args) (fp : Word) (v : FVal) : Nat × Nat :=
  let f := fmtOf fp g.ty
  let func := g.func.toNat
  match f with
  | .bf16 =>
    match v with
    | .nan _ _ _ _ _ => (nanResult f (fpNanp fp) [v], nvOf [v])
    | _ =>
      let bits := (roundTo .f32 .rne false false [] v).1
      let cand := (Config.sfnResult func g.ty.code.toNat (BitVec.ofNat 64 bits)).toNat % 2 ^ 32
      let (r, fl) := sfnWide func .f32 .bf16 g.sat (fpNanp fp) v cand
      if fl &&& fSATF != 0 then (signCode .bf16 ((decodeF .f32 r).neg) FFmt.bf16.maxCode, fl)
      else ((roundTo .bf16 .rne false false [] (decodeF .f32 r)).1, fl)
  | _ =>
    let bits := (roundTo f .rne false false [] v).1
    let cand := (Config.sfnResult func g.ty.code.toNat (BitVec.ofNat 64 bits)).toNat % 2 ^ f.width
    sfnWide func f f g.sat (fpNanp fp) v cand

/-- SFN (R139). -/
def sfnLane (g : Args) (x : LaneIn) : Word × Nat :=
  let f := fmtOf x.fp g.ty
  mapF g.ty fun i => sfnElem g x.fp (fa f g x.a i)

end Sys2Proof.Machine
end

