-- ==== Sys2Proof/Machine/FloatOps.lean ====
section
/-! DEFINITION. Floating-point instructions 0x30 to 0x3E (spec/06 R130 to R141): each its lane function over the shared
elementwise operation. -/

namespace Sys2Proof.Machine

/-- Effect of `FADD` (R131). -/
def effFadd (a : Args) (s : State) (g : Grp) : Res :=
  .next (s.elementwise g a (srcA a) (srcB a 0) (srcC a) fun x => faddLane a false x)

/-- `FADD` (R131). -/
def execFadd (a : Args) (s : State) : Host.Outcome State Fault Refusal := s.issue .fadd a (effFadd a)

/-- Effect of `FSUB` (R131). -/
def effFsub (a : Args) (s : State) (g : Grp) : Res :=
  .next (s.elementwise g a (srcA a) (srcB a 0) (srcC a) fun x => faddLane a true x)

/-- `FSUB` (R131). -/
def execFsub (a : Args) (s : State) : Host.Outcome State Fault Refusal := s.issue .fsub a (effFsub a)

/-- Effect of `FMUL` (R131). -/
def effFmul (a : Args) (s : State) (g : Grp) : Res :=
  .next (s.elementwise g a (srcA a) (srcB a 0) (srcC a) fun x => fmulLane a x)

/-- `FMUL` (R131). -/
def execFmul (a : Args) (s : State) : Host.Outcome State Fault Refusal := s.issue .fmul a (effFmul a)

/-- Effect of `FFMA` (R131). -/
def effFfma (a : Args) (s : State) (g : Grp) : Res :=
  .next (s.elementwise g a (srcA a) (srcB a 0) (srcC a) fun x => ffmaLane a x)

/-- `FFMA` (R131). -/
def execFfma (a : Args) (s : State) : Host.Outcome State Fault Refusal := s.issue .ffma a (effFfma a)

/-- Effect of `FMIN` (R132). -/
def effFmin (a : Args) (s : State) (g : Grp) : Res :=
  .next (s.elementwise g a (srcA a) (srcB a 0) (srcC a) fun x => fminLane a false x)

/-- `FMIN` (R132). -/
def execFmin (a : Args) (s : State) : Host.Outcome State Fault Refusal := s.issue .fmin a (effFmin a)

/-- Effect of `FMAX` (R132). -/
def effFmax (a : Args) (s : State) (g : Grp) : Res :=
  .next (s.elementwise g a (srcA a) (srcB a 0) (srcC a) fun x => fminLane a true x)

/-- `FMAX` (R132). -/
def execFmax (a : Args) (s : State) : Host.Outcome State Fault Refusal := s.issue .fmax a (effFmax a)

/-- Effect of `FCMP` (R133). -/
def effFcmp (a : Args) (s : State) (g : Grp) : Res :=
  .next (s.predwise g a (srcA a) (srcB a 0) fun x => fcmpRel a x)

/-- `FCMP` (R133). -/
def execFcmp (a : Args) (s : State) : Host.Outcome State Fault Refusal := s.issue .fcmp a (effFcmp a)

/-- Effect of `FCLASS` (R134). -/
def effFclass (a : Args) (s : State) (g : Grp) : Res :=
  .next (s.elementwise g a (srcA a) ⟨.x, 0, 0⟩ (srcC a) fun x => fclassLane a x)

/-- `FCLASS` (R134). -/
def execFclass (a : Args) (s : State) : Host.Outcome State Fault Refusal := s.issue .fclass a (effFclass a)

/-- Effect of `CVT` (R135). -/
def effCvt (a : Args) (s : State) (g : Grp) : Res :=
  .next (s.elementwise g a (srcA a) ⟨.x, 0, 0⟩ (srcC a) fun x => cvtLane a x)

/-- `CVT` (R135). -/
def execCvt (a : Args) (s : State) : Host.Outcome State Fault Refusal := s.issue .cvt a (effCvt a)

/-- Effect of `SFN` (R139). -/
def effSfn (a : Args) (s : State) (g : Grp) : Res :=
  .next (s.elementwise g a (srcA a) ⟨.x, 0, 0⟩ (srcC a) fun x => sfnLane a x)

/-- `SFN` (R139). -/
def execSfn (a : Args) (s : State) : Host.Outcome State Fault Refusal := s.issue .sfn a (effSfn a)

/-- Effect of `FDOT` (R136). -/
def effFdot (a : Args) (s : State) (g : Grp) : Res :=
  .next (s.elementwise g a (srcA a) (srcB a 0) (srcC a) fun x => fdotLane a x)

/-- `FDOT` (R136). -/
def execFdot (a : Args) (s : State) : Host.Outcome State Fault Refusal := s.issue .fdot a (effFdot a)

/-- Effect of `FSCALE` (R137). -/
def effFscale (a : Args) (s : State) (g : Grp) : Res :=
  .next (s.elementwise g a (srcA a) (srcB a (immElems a.ty a.imm)) (srcC a) fun x => fscaleLane a x)

/-- `FSCALE` (R137). -/
def execFscale (a : Args) (s : State) : Host.Outcome State Fault Refusal := s.issue .fscale a (effFscale a)

/-- Effect of `FRND` (R137). -/
def effFrnd (a : Args) (s : State) (g : Grp) : Res :=
  .next (s.elementwise g a (srcA a) ⟨.x, 0, 0⟩ (srcC a) fun x => frndLane a x)

/-- `FRND` (R137). -/
def execFrnd (a : Args) (s : State) : Host.Outcome State Fault Refusal := s.issue .frnd a (effFrnd a)

/-- Effect of `PACK` (R138). -/
def effPack (a : Args) (s : State) (g : Grp) : Res :=
  .next (s.elementwise g a (srcA a) (srcB a 0) (srcC a) fun x => packLane a x)

/-- `PACK` (R138). -/
def execPack (a : Args) (s : State) : Host.Outcome State Fault Refusal := s.issue .pack a (effPack a)

/-- Effect of `UNPK` (R138). -/
def effUnpk (a : Args) (s : State) (g : Grp) : Res :=
  .next (s.elementwise g a (srcA a) ⟨.x, 0, 0⟩ (srcC a) fun x => unpkLane a x)

/-- `UNPK` (R138). -/
def execUnpk (a : Args) (s : State) : Host.Outcome State Fault Refusal := s.issue .unpk a (effUnpk a)

end Sys2Proof.Machine
end

