-- ==== Sys2Proof/Machine/IntOps.lean ====
section
/-! DEFINITION. Integer and address instructions 0x10 to 0x2E (spec/05 R110 to R118): each the lane function of
Table 5.3 over the shared elementwise operation. -/

namespace Sys2Proof.Machine

/-- Effect of `ADD` (R111). -/
def effAdd (a : Args) (s : State) (g : Grp) : Res :=
  .next (s.elementwise g a (srcA a) (srcB a (immElems a.ty a.imm)) (srcC a) fun x => (mapI2 a.ty a.sat (· + ·) x.a x.b, 0))

/-- `ADD` (R111). -/
def execAdd (a : Args) (s : State) : Host.Outcome State Fault Refusal := s.issue .add a (effAdd a)

/-- Effect of `SUB` (R111). -/
def effSub (a : Args) (s : State) (g : Grp) : Res :=
  .next (s.elementwise g a (srcA a) (srcB a (immElems a.ty a.imm)) (srcC a) fun x => (mapI2 a.ty a.sat (· - ·) x.a x.b, 0))

/-- `SUB` (R111). -/
def execSub (a : Args) (s : State) : Host.Outcome State Fault Refusal := s.issue .sub a (effSub a)

/-- Effect of `MUL` (R111). -/
def effMul (a : Args) (s : State) (g : Grp) : Res :=
  .next (s.elementwise g a (srcA a) (srcB a (immElems a.ty a.imm)) (srcC a) fun x => (mapI2 a.ty a.sat (· * ·) x.a x.b, 0))

/-- `MUL` (R111). -/
def execMul (a : Args) (s : State) : Host.Outcome State Fault Refusal := s.issue .mul a (effMul a)

/-- Effect of `MULH` (R111). -/
def effMulh (a : Args) (s : State) (g : Grp) : Res :=
  .next (s.elementwise g a (srcA a) (srcB a (immElems a.ty a.imm)) (srcC a) fun x => (mapI2 a.ty false (mulhElem a.ty.width) x.a x.b, 0))

/-- `MULH` (R111). -/
def execMulh (a : Args) (s : State) : Host.Outcome State Fault Refusal := s.issue .mulh a (effMulh a)

/-- Effect of `MAD` (R111). -/
def effMad (a : Args) (s : State) (g : Grp) : Res :=
  .next (s.elementwise g a (srcA a) (srcB a (immElems a.ty a.imm)) (srcC a) fun x => (mapI3 a.ty a.sat (fun p q r => p * q + r) x.a x.b x.c, 0))

/-- `MAD` (R111). -/
def execMad (a : Args) (s : State) : Host.Outcome State Fault Refusal := s.issue .mad a (effMad a)

/-- Effect of `AND` (R111). -/
def effAndc (a : Args) (s : State) (g : Grp) : Res :=
  .next (s.elementwise g a (srcA a) (srcB a (immElems a.ty a.imm)) (srcC a) fun x => (x.a &&& x.b, 0))

/-- `AND` (R111). -/
def execAndc (a : Args) (s : State) : Host.Outcome State Fault Refusal := s.issue .andc a (effAndc a)

/-- Effect of `OR` (R111). -/
def effOrc (a : Args) (s : State) (g : Grp) : Res :=
  .next (s.elementwise g a (srcA a) (srcB a (immElems a.ty a.imm)) (srcC a) fun x => (x.a ||| x.b, 0))

/-- `OR` (R111). -/
def execOrc (a : Args) (s : State) : Host.Outcome State Fault Refusal := s.issue .orc a (effOrc a)

/-- Effect of `XOR` (R111). -/
def effXorc (a : Args) (s : State) (g : Grp) : Res :=
  .next (s.elementwise g a (srcA a) (srcB a (immElems a.ty a.imm)) (srcC a) fun x => (x.a ^^^ x.b, 0))

/-- `XOR` (R111). -/
def execXorc (a : Args) (s : State) : Host.Outcome State Fault Refusal := s.issue .xorc a (effXorc a)

/-- Effect of `ANDN` (R111). -/
def effAndn (a : Args) (s : State) (g : Grp) : Res :=
  .next (s.elementwise g a (srcA a) (srcB a (immElems a.ty a.imm)) (srcC a) fun x => (x.a &&& ~~~x.b, 0))

/-- `ANDN` (R111). -/
def execAndn (a : Args) (s : State) : Host.Outcome State Fault Refusal := s.issue .andn a (effAndn a)

/-- Effect of `SHL` (R111). -/
def effShl (a : Args) (s : State) (g : Grp) : Res :=
  .next (s.elementwise g a (srcA a) (srcB a (immElems a.ty a.imm)) (srcC a) fun x => (mapB2 a.ty shlBits x.a x.b, 0))

/-- `SHL` (R111). -/
def execShl (a : Args) (s : State) : Host.Outcome State Fault Refusal := s.issue .shl a (effShl a)

/-- Effect of `SHR` (R111). -/
def effShr (a : Args) (s : State) (g : Grp) : Res :=
  .next (s.elementwise g a (srcA a) (srcB a (immElems a.ty a.imm)) (srcC a) fun x => (mapB2 a.ty shrBits x.a x.b, 0))

/-- `SHR` (R111). -/
def execShr (a : Args) (s : State) : Host.Outcome State Fault Refusal := s.issue .shr a (effShr a)

/-- Effect of `SAR` (R111). -/
def effSar (a : Args) (s : State) (g : Grp) : Res :=
  .next (s.elementwise g a (srcA a) (srcB a (immElems a.ty a.imm)) (srcC a) fun x => (mapB2 a.ty sarBits x.a x.b, 0))

/-- `SAR` (R111). -/
def execSar (a : Args) (s : State) : Host.Outcome State Fault Refusal := s.issue .sar a (effSar a)

/-- Effect of `ROT` (R111). -/
def effRot (a : Args) (s : State) (g : Grp) : Res :=
  .next (s.elementwise g a (srcA a) (srcB a (immElems a.ty a.imm)) (srcC a) fun x => (mapB2 a.ty rotBits x.a x.b, 0))

/-- `ROT` (R111). -/
def execRot (a : Args) (s : State) : Host.Outcome State Fault Refusal := s.issue .rot a (effRot a)

/-- Effect of `MIN` (R111). -/
def effMin (a : Args) (s : State) (g : Grp) : Res :=
  .next (s.elementwise g a (srcA a) (srcB a (immElems a.ty a.imm)) (srcC a) fun x => (mapI2 a.ty false Min.min x.a x.b, 0))

/-- `MIN` (R111). -/
def execMin (a : Args) (s : State) : Host.Outcome State Fault Refusal := s.issue .min a (effMin a)

/-- Effect of `MAX` (R111). -/
def effMax (a : Args) (s : State) (g : Grp) : Res :=
  .next (s.elementwise g a (srcA a) (srcB a (immElems a.ty a.imm)) (srcC a) fun x => (mapI2 a.ty false Max.max x.a x.b, 0))

/-- `MAX` (R111). -/
def execMax (a : Args) (s : State) : Host.Outcome State Fault Refusal := s.issue .max a (effMax a)

/-- Effect of `ABSD` (R111). -/
def effAbsd (a : Args) (s : State) (g : Grp) : Res :=
  .next (s.elementwise g a (srcA a) (srcB a (immElems a.ty a.imm)) (srcC a) fun x => (mapI2 a.ty a.sat (fun p q => |p - q|) x.a x.b, 0))

/-- `ABSD` (R111). -/
def execAbsd (a : Args) (s : State) : Host.Outcome State Fault Refusal := s.issue .absd a (effAbsd a)

/-- Effect of `CMP` (R112). -/
def effCmp (a : Args) (s : State) (g : Grp) : Res :=
  .next (s.predwise g a (srcA a) (srcB a 0) fun x => (cmpRel a.ty a.func.toNat x.a x.b, 0))

/-- `CMP` (R112). -/
def execCmp (a : Args) (s : State) : Host.Outcome State Fault Refusal := s.issue .cmp a (effCmp a)

/-- Effect of `SEL` (R113): its predicate chooses between the sources, over every lane of EXEC. -/
def effSel (a : Args) (s : State) (g : Grp) : Res :=
  let lead := leaderOf g
  .next (g.foldl (fun t m =>
    t.modWarp m.1 fun w =>
      w.writeLanes a.d.toNat (lanesOf m.2) fun l =>
        let o := if ((s.warp m.1).pred a.p.toNat a.pn).getLsbD l then srcA a else srcB a 0
        (s.val lead m.1 l o, 0)) s)

/-- `SEL` (R113). -/
def execSel (a : Args) (s : State) : Host.Outcome State Fault Refusal :=
  .next (s.issueWith .sel a (fun s g => s.srcTraps g (fun m => lanesOf m.2) (namedOpnds (rowOf .sel 0) a)) (effSel a))

/-- Effect of `MOV` (R111). -/
def effMov (a : Args) (s : State) (g : Grp) : Res :=
  .next (s.elementwise g a (srcA a) ⟨.x, 0, 0⟩ (srcC a) fun x => (x.a, 0))

/-- `MOV` (R111). -/
def execMov (a : Args) (s : State) : Host.Outcome State Fault Refusal := s.issue .mov a (effMov a)

/-- Effect of `MOVI` (R114). -/
def effMovi (a : Args) (s : State) (g : Grp) : Res :=
  .next (s.elementwise g a (srcA a) ⟨.x, 0, 0⟩ (srcC a) fun _ => (immC a, 0))

/-- `MOVI` (R114). -/
def execMovi (a : Args) (s : State) : Host.Outcome State Fault Refusal := s.issue .movi a (effMovi a)

/-- Effect of `LEA` (R115). -/
def effLea (a : Args) (s : State) (g : Grp) : Res :=
  .next (s.elementwise g a (srcA a) (srcB a 0) (srcC a) fun x => (leaWord x.a x.b a.sub.toNat a.imm, 0))

/-- `LEA` (R115). -/
def execLea (a : Args) (s : State) : Host.Outcome State Fault Refusal := s.issue .lea a (effLea a)

/-- Effect of `ADDI` (R114). -/
def effAddi (a : Args) (s : State) (g : Grp) : Res :=
  .next (s.elementwise g a (srcA a) ⟨.x, 0, 0⟩ (srcC a) fun x => (mapI2 a.ty a.sat (· + ·) x.a (immC a), 0))

/-- `ADDI` (R114). -/
def execAddi (a : Args) (s : State) : Host.Outcome State Fault Refusal := s.issue .addi a (effAddi a)

/-- Effect of `BFX` (R116). -/
def effBfx (a : Args) (s : State) (g : Grp) : Res :=
  .next (s.elementwise g a (srcA a) (srcB a (immElems a.ty a.imm)) (srcC a) fun x => (bfxWord a.ty x.a x.b, 0))

/-- `BFX` (R116). -/
def execBfx (a : Args) (s : State) : Host.Outcome State Fault Refusal := s.issue .bfx a (effBfx a)

/-- Effect of `BFI` (R116). -/
def effBfi (a : Args) (s : State) (g : Grp) : Res :=
  .next (s.elementwise g a (srcA a) (srcB a (immElems a.ty a.imm)) (srcC a) fun x => (bfiWord a.ty x.a x.b x.d, 0))

/-- `BFI` (R116). -/
def execBfi (a : Args) (s : State) : Host.Outcome State Fault Refusal := s.issue .bfi a (effBfi a)

/-- Effect of `CLZ` (R111). -/
def effClz (a : Args) (s : State) (g : Grp) : Res :=
  .next (s.elementwise g a (srcA a) ⟨.x, 0, 0⟩ (srcC a) fun x => (mapB2 a.ty (fun w p _ => clzBits w p) x.a 0, 0))

/-- `CLZ` (R111). -/
def execClz (a : Args) (s : State) : Host.Outcome State Fault Refusal := s.issue .clz a (effClz a)

/-- Effect of `POPC` (R111). -/
def effPopc (a : Args) (s : State) (g : Grp) : Res :=
  .next (s.elementwise g a (srcA a) ⟨.x, 0, 0⟩ (srcC a) fun x => (mapB2 a.ty (fun w p _ => popBits w p) x.a 0, 0))

/-- `POPC` (R111). -/
def execPopc (a : Args) (s : State) : Host.Outcome State Fault Refusal := s.issue .popc a (effPopc a)

/-- Effect of `BREV` (R111). -/
def effBrev (a : Args) (s : State) (g : Grp) : Res :=
  .next (s.elementwise g a (srcA a) ⟨.x, 0, 0⟩ (srcC a) fun x => (mapB2 a.ty (fun w p _ => brevBits w p) x.a 0, 0))

/-- `BREV` (R111). -/
def execBrev (a : Args) (s : State) : Host.Outcome State Fault Refusal := s.issue .brev a (effBrev a)

/-- Effect of `DIV` (R117). -/
def effDiv (a : Args) (s : State) (g : Grp) : Res :=
  .next (s.elementwise g a (srcA a) (srcB a (immElems a.ty a.imm)) (srcC a) fun x => (mapDiv a.ty (divElem a.ty a.sat) x.a x.b, 0))

/-- `DIV` (R117). -/
def execDiv (a : Args) (s : State) : Host.Outcome State Fault Refusal := s.issue .div a (effDiv a)

/-- Effect of `REM` (R117). -/
def effRem (a : Args) (s : State) (g : Grp) : Res :=
  .next (s.elementwise g a (srcA a) (srcB a (immElems a.ty a.imm)) (srcC a) fun x => (mapDiv a.ty (remElem a.ty) x.a x.b, 0))

/-- `REM` (R117). -/
def execRem (a : Args) (s : State) : Host.Outcome State Fault Refusal := s.issue .rem a (effRem a)

/-- Effect of `MULW` (R118). -/
def effMulw (a : Args) (s : State) (g : Grp) : Res :=
  .next (s.elementwise g a (srcA a) (srcB a 0) (srcC a) fun x => (mulwWord a.ty x.a x.b, 0))

/-- `MULW` (R118). -/
def execMulw (a : Args) (s : State) : Host.Outcome State Fault Refusal := s.issue .mulw a (effMulw a)

/-- Effect of `IDOT` (R118). -/
def effIdot (a : Args) (s : State) (g : Grp) : Res :=
  .next (s.elementwise g a (srcA a) (srcB a 0) (srcC a) fun x => (idotWord a.ty a.sat x.a x.b x.d, 0))

/-- `IDOT` (R118). -/
def execIdot (a : Args) (s : State) : Host.Outcome State Fault Refusal := s.issue .idot a (effIdot a)

end Sys2Proof.Machine
end

