-- ==== Sys2Proof/Machine/PredOps.lean ====
section
/-! DEFINITION. Predicate instructions 0x48 to 0x4A (spec/06 R149, R150). -/

namespace Sys2Proof.Machine

/-- The logical operation of `PLOG` (R150). -/
def plogMask (func : Nat) (a b : Mask) : Mask :=
  match func with
  | 0 => a &&& b
  | 1 => a ||| b
  | 2 => a ^^^ b
  | 3 => a &&& ~~~b
  | _ => ~~~a

/-- Effect of `PLOG` (R150). -/
def effPlog (a : Args) (s : State) (g : Grp) : Res :=
  .next (s.modWarps g.ws fun w => w.pset a.d.toNat (plogMask a.func.toNat (w.pget a.a.toNat) (w.pget a.b.toNat)))

/-- `PLOG` (R150). -/
def execPlog (a : Args) (s : State) : Host.Outcome State Fault Refusal := s.issue .plog a (effPlog a)

/-- A write of EXEC (R35): narrowed to the live mask, and refused where that leaves it zero. -/
def State.writeExec (s : State) (w : Nat) (m : Mask) : Res :=
  let e := m &&& (s.warp w).live
  if e = 0 then .trap s (illegal 0x11) else .next (s.modWarp w fun x => { x with exec := e })

/-- Effect of `PMOV` (R150). -/
def effPmov (a : Args) (s : State) (g : Grp) : Res :=
  let lead := leaderOf g
  let w := s.warp lead
  match a.func.toNat with
  | 0 => .next (s.modWarp lead fun x => x.pset a.d.toNat (x.pget a.a.toNat))
  | 1 => .next (s.modWarp lead fun x => x.pset a.d.toNat ((x.sget a.a.toNat).setWidth 32))
  | 2 => .next (s.modWarp lead fun x => x.sset a.d.toNat ((x.pget a.a.toNat).setWidth 64))
  | 3 => .next (s.modWarp lead fun x => x.pset a.d.toNat x.exec)
  | 4 => .next (s.modWarp lead fun x => x.pset a.d.toNat x.live)
  | _ => s.writeExec lead (w.pget a.a.toNat)

/-- `PMOV` (R150). -/
def execPmov (a : Args) (s : State) : Host.Outcome State Fault Refusal := s.issue .pmov a (effPmov a)

/-- The count of `PCNT` (R150). -/
def pcntWord (func : Nat) (m : Mask) : Nat :=
  match func with
  | 0 => (lanesOf m).length
  | 1 => (lanesOf m).headD 32
  | _ => (lanesOf m).getLastD 32

/-- Effect of `PCNT` (R150). -/
def effPcnt (a : Args) (s : State) (g : Grp) : Res :=
  .next (s.modWarp (leaderOf g) fun w =>
    w.sset a.d.toNat (BitVec.ofNat 64 (pcntWord a.func.toNat (w.pget a.a.toNat))))

/-- `PCNT` (R150). -/
def execPcnt (a : Args) (s : State) : Host.Outcome State Fault Refusal := s.issue .pcnt a (effPcnt a)

end Sys2Proof.Machine
end

