-- ==== Sys2Proof/Machine/Resets.lean ====
section
/-! DEFINITION. The warm reset of a die (spec/21 R383 to R385, spec/15 R327), the device reset (R326), and UCIe links
(R380). -/

namespace Sys2Proof.Machine

/-! ## Starting and queuing -/

/-- Whether a die is at a step of its warm reset. -/
def DieSt.resetting : DieSt → Bool
  | .saving | .offline _ | .drained _ | .retrained _ => true
  | _ => false

/-- The contexts that hold a core on a die. -/
def State.ctxsOn (s : State) (d : Nat) : List Nat :=
  (s.ctxs.filter fun e => e.2.crec.cores.any fun k => k / 40 == d).map (·.1)

/-- Step 1 of a warm reset begins: the contexts of the die are being frozen. -/
def State.startReset (s : State) (d : Nat) : State :=
  let s1 := s.modDie d fun x => { x with st := .saving, fails := 0, kept := [] }
  (s.ctxsOn d).foldl (fun s c =>
    (s.modCtx c fun x => if x.frozen || x.saved then x else { x with freezing := true }).pauseRdvs c) s1

/-- The next queued reset starts once no die is resetting (R327). -/
def State.nextReset (s : State) : State :=
  match s.island.resets with
  | [] => s
  | d :: ds =>
    if (List.range 4).any fun k => (s.die k).st.resetting then s
    else ({ s with island := { s.island with resets := ds } }).startReset d

/-- `WARM_RESET` (R326, R327): refused with "busy" where the die is resetting already; queued behind a running one. -/
def execWarmReset (r : Requester) (d : Nat) (s : State) : Host.Outcome State Fault Refusal :=
  .next (s.manage r (s.island.boot == .running) fun s =>
    if (s.die d).st != .online || s.island.resets.contains d then s.reply .busy []
    else (({ s with island := { s.island with resets := s.island.resets ++ [d] } }).nextReset).reply .done [])

/-! ## The steps (R384) -/

/-- Saves a context for a die's reset, as firmware does: its releases, its state, and the eviction. -/
def State.saveForReset (s : State) (d c : Nat) (was : Bool) : State :=
  let s1 := ((if was then s else s.freezeCtx c).releaseAll c)
  let s2 := { s1 with saves := s1.saveOf c 0 [] :: s1.saves }
  ((s2.evict c).modCtx c fun x => { x with saved := true }).modDie d fun x => { x with kept := x.kept ++ [(c, was)] }

/-- `DIE_QUIESCE` (R384, steps 1 and 2): once every context on the die can be frozen and saved, it is, and the die goes
offline. -/
def execDieQuiesce (d : Nat) (s : State) : Host.Outcome State Fault Refusal :=
  if (s.die d).st != .saving then .next s
  else
    let cs := (s.ctxsOn d).filter fun c => !(s.ctx c).saved
    let ready (c : Nat) : Bool :=
      s.enginesIdle c && !(s.warpsOf c).any (s.hasHeld · true) && ((s.ctx c).frozen || s.warpsStopped c)
    if cs.all ready then
      let s1 := cs.foldl (fun s c => s.saveForReset d c (s.ctx c).frozen) s
      .next ((s1.modDie d fun x => { x with st := .offline s.timer }).portsDown d)
    else .next s

/-- Rows on the stacks of a die. -/
def onDie (d : Nat) (l : Nat) : Bool := isDram l && homeDie l == d

/-- Jig passes with rows on a die's stacks are cancelled (R384, step 4). -/
def State.cancelOn (s : State) (d : Nat) : State :=
  ((s.regions.filter fun g => g.rows.any (onDie d)).flatMap (·.passes)).foldl State.cancelPass s

/-- Open journal steps with rows on a die's stacks are aborted (R272). -/
def State.abortOn (s : State) (d : Nat) : State :=
  (s.ctxs.filter fun e => e.2.jrn.rows.any fun r => onDie d r.1).foldl (fun s e => s.jrnHwAbort e.1) s

/-- A core after its die has been reset: what holds until the device is reset stays (R307, R356, R358)
(DEDUCED, notes/assumptions/35). -/
def Core.afterReset (c : Core) : Core :=
  { owner := c.owner, l1sz := c.l1sz, events := c.events, luClocks := c.luClocks, idleFrom := c.idleFrom, softErr := c.softErr, remaps := c.remaps
    bands := (c.bands.filter fun e => e.2.failed).map fun (e : Nat × Band) => (e.1, { st := .off, failed := true }) }

/-- A channel after its controller has been reset: what it armed, recorded and tested is gone, and a fence holds until the
device is reset, with its redirection (R376, R384; DEDUCED, notes/assumptions/35). -/
def Chan.afterReset (c : Chan) : Chan :=
  { ucnt := c.ucnt, fence := c.fence, lostSpare := c.lostSpare
    spare := c.spare.filter fun e => c.fence.getLsbD (32 * e.1 + e.2.1) }

/-- `DIE_DRAIN` (R384, steps 3 to 5): caches are written back, passes cancelled, journal steps aborted, and the die's
logic reset with its controllers; its clock is the base one then (R17; DESIGN CHOICE, notes/assumptions/35). -/
def execDieDrain (d : Nat) (s : State) : Host.Outcome State Fault Refusal :=
  match (s.die d).st with
  | .offline t =>
    let s0 := s.writeBack fun l => homeDie l == d
    let s1 := (s0.cancelOn d).abortOn d
    let s2 := s1.flushWhere fun k _ => k / 40 == d
    let cores := s2.cores.map fun (e : Nat × Core) =>
      if e.1 / 40 == d then (e.1, { e.2.afterReset with uLines := e.2.uLines }) else e
    let chans := s2.chans.map fun (e : Nat × Chan) => if e.1 / 64 == d then (e.1, e.2.afterReset) else e
    let s3 := { s2 with cores, chans }
    .next (s3.modDie d fun x => { x.setBoost 0 s.timer with st := .drained t, wakes := [], wakeFree := 0, fillers := [] })
  | _ => .next s

/-! ## Losing a die (R383, R385) -/

/-- The late trap of a write lost with its die. -/
def lostLate (addr : Word) : LateTrap := ⟨0x14, 0xA1, addr, .store⟩

/-- Held writes to a lost die fail. -/
def State.failHeld (s : State) (d : Nat) : State :=
  let gone (h : Held) : Bool := h.bytes.any fun b => homeDie b.1 == d
  let s1 := (s.held.filter gone).foldl (fun s h =>
    s.modWarpAny (h.wr.ws.headD 0) fun w =>
      { w with stCnt := if h.inc.isSome then w.stCnt - 1 else w.stCnt }.record (lostLate h.addr)) s
  { s1 with held := s1.held.filter fun h => !gone h }

/-- Reductions that waited for a lost die fail. -/
def State.failULines (s : State) (d : Nat) : State :=
  let gone (u : ULine) : Bool := homeDie (128 * u.line) == d
  let us := (s.cores.flatMap fun e => e.2.uLines).filter gone
  let s1 := us.foldl (fun s u => u.warps.foldl (fun s w =>
    s.modWarpAny w fun x => x.record (lostLate (BitVec.ofNat 64 (128 * u.line)))) s) s
  { s1 with cores := s1.cores.map fun (e : Nat × Core) => (e.1, { e.2 with uLines := e.2.uLines.filter fun u => !gone u }) }

/-- The first of some warps by device core and warp slot (R351). -/
def State.firstWarp (s : State) (ws : List Nat) : Option Nat :=
  ws.foldl (fun best w =>
    match best with
    | none => some w
    | some b => if s.coreOf w * 64 + (s.warp w).slot < s.coreOf b * 64 + (s.warp b).slot then some w else some b) none

/-- Ends a context that is not resident: it can never run again, and its dump has no core's sections. -/
def State.endAbsent (s : State) (c : Nat) (gone : List Nat) : State :=
  let (id, s1) := s.fresh
  let t := 32 * id
  let s2 := (s1.modCtx c fun x => { x with dead := true, frozen := true, freezing := false }).jrnHwAbort c
  let d : Dying := { w := t, clock := s.clock, timer := s.timer, cause := causeWord { code := 0x30 } 0, epc := 0,
                     badaddr := 0, core := gone.headD 0, slot := 0, gone }
  let s3 := ((s2.setWarp t { ctx := c, retired := true }).writeDump c d).modCtx c fun x =>
    { x with log := x.log ++ [.fatalTrap d.cause] }
  { s3 with warps := mdel s3.warps t }

/-- A lost die ends a context that holds a core on it with the fatal watchdog trap (R385). -/
def State.endLost (s : State) (d c : Nat) : State :=
  let gone := span (40 * d) 40
  let ws := (s.warpsOf c).filter fun w => !(s.warp w).retired
  let here := ws.filter fun w => s.coreOf w / 40 == d
  match s.firstWarp (if here.isEmpty then ws else here) with
  | some w => (here.foldl State.endRun s).fatalAt w { code := 0x30 } (s.warp w).pc (s.warp w).wid gone
  | none => if (s.ctx c).dead then s else s.endAbsent c gone

/-- A die is lost (DEDUCED, notes/assumptions/37). -/
def State.loseDie (s : State) (d : Nat) : State :=
  let s1 := (s.modDie d fun x => { x with st := .lost, kept := [] }).portsDown d
  let s2 := ((s1.cancelOn d).abortOn d)
  let s3 := { s2 with ctxs := s2.ctxs.map fun (e : Nat × Ctx) =>
    (e.1, { e.2 with jrn := { e.2.jrn with owed := e.2.jrn.owed.filter fun r => !onDie d r.1 } }) }
  let s4 := (s3.failHeld d).failULines d
  ((s4.ctxsOn d).foldl (fun s c => s.endLost d c) s4.settleDones).nextReset

/-- Whether a die's time for coming back is over: 100 ms after its quiesce (R383). -/
def State.overdue (s : State) (d : Nat) : Bool :=
  match (s.die d).st with
  | .offline t | .drained t | .retrained t => t + 100000000 ≤ s.timer
  | _ => false

/-- `DIE_LOST` (R383): a die not re-admitted 100 ms after its quiesce. One with both its links down is offline, not lost
(R380). -/
def execDieLost (d : Nat) (s : State) : Host.Outcome State Fault Refusal :=
  if s.overdue d then .next (s.loseDie d) else .next s

/-! ## Coming back -/

/-- `DIE_RETRAIN` (R384, step 6): the die's links are retrained; after three failures it is lost (R383). -/
def execDieRetrain (d : Nat) (ok : Bool) (s : State) : Host.Outcome State Fault Refusal :=
  match (s.die d).st with
  | .drained t =>
    if ok then
      .next { s.modDie d fun x => { x with st := .retrained t } with
        links := (dieLinks d).foldl (fun m l => mset false m l false) s.links }
    else if 3 ≤ (s.die d).fails + 1 then .next ((s.modDie d fun x => { x with fails := x.fails + 1 }).loseDie d)
    else .next (s.modDie d fun x => { x with fails := x.fails + 1 })
  | _ => .next s

/-- Restores the journal rows on a die that were deferred (R384, step 7). -/
def State.restoreOn (s : State) (d : Nat) : State :=
  s.ctxs.foldl (fun s e =>
    let rows := (s.ctx e.1).jrn.owed
    let s1 := rows.foldl (fun s r => if onDie d r.1 then s.jrnRestoreRow r.1 r.2 else s) s
    s1.modCtx e.1 fun x => { x with jrn := { x.jrn with owed := rows.filter fun r => !onDie d r.1 } }) s

/-- Loads a context that was saved for a reset; one that had not been frozen resumes. A dead context is not loaded
(R351), and neither is one whose blocks lie on a core that is no longer granted to it (R303, R324; DEDUCED,
notes/assumptions/35). -/
def State.loadKept (s : State) (e : Nat × Bool) : State :=
  match s.saves.find? fun v => v.ctx == e.1 && v.note.isEmpty with
  | none => s
  | some v =>
    let s0 := { s with saves := s.saves.filter fun u => !(u.ctx == e.1 && u.note.isEmpty) }
    if (s.ctx e.1).dead then s
    else if v.blocks.any fun b => !(s.ctx e.1).crec.cores.contains b.2.core then s0
    else if e.2 then s0.restore v
    else (s0.restore v).thawCtx e.1

/-- `DIE_READMIT` (R384, step 7): journal rows are restored before any other access, the homes open, held writes are
performed in order, and the saved contexts are loaded. -/
def execDieReadmit (d : Nat) (s : State) : Host.Outcome State Fault Refusal :=
  match (s.die d).st with
  | .retrained _ =>
    let kept := (s.die d).kept
    let s1 := s.modDie d fun x => { x with st := .online, kept := [] }
    let s2 := (s1.restoreOn d).releaseHeld
    let s3 := (s2.flushWhere fun _ u => homeDie (128 * u.line) == d).settleDones
    .next ((kept.foldl State.loadKept s3).nextReset)
  | _ => .next s

/-! ## The device reset -/

/-- What a device reset leaves: the standby island but for its measurement registers and queued resets, TIMER, the wear
counters, and DRAM's bytes (R312, R314, R318, R326; DEDUCED, notes/assumptions/35). -/
def State.afterDeviceReset (s : State) : State :=
  { State.reset with
    clock := s.clock
    timer := s.timer
    nextId := s.nextId
    free := s.free
    sysFj := s.sysFj
    budgetAt := s.budgetAt
    energyAt := s.energyAt
    remapped := s.remapped
    badSpares := s.badSpares
    saves := s.saves.filter fun v => !v.note.isEmpty
    mem := { bytes := s.mem.bytes, seq := s.mem.seq, newest := s.mem.newest, cols := s.mem.cols, tables := s.mem.tables }
    dies := s.dies.map fun (e : Nat × Die) => (e.1, { wear := e.2.wear, wearAt := s.timer, wearNs := e.2.boosted s.timer })
    island := { s.island with boot := .cold, mrs := [], resets := [], dump := none } }

/-- `DEVICE_RESET` (R326, R327): it takes effect at once, cancels every queued reset, and the boot runs again. -/
def execDeviceReset (r : Requester) (cfg : FwConfig) (s : State) : Host.Outcome State Fault Refusal :=
  if !s.mayManage r then .next s
  else .next ((s.afterDeviceReset.boot cfg).reply .done [])

/-! ## Links (R380) -/

/-- `UCIE_LINK_DOWN` (R380): a link that failed retraining three times is down until a die at either end is reset. -/
def execUcieLinkDown (link : Nat) (s : State) : Host.Outcome State Fault Refusal :=
  let s1 := { s with links := mset false s.links link true }
  .next (((List.range 4).filter s1.offline).foldl State.portsDown s1)

end Sys2Proof.Machine
end

