-- ==== Sys2Proof/Machine/Dispatch.lean ====
section
/-! DEFINITION. One arm per instruction, each one direct call of its meaning. -/

namespace Sys2Proof.Machine

/-- The meaning of every instruction and device event. -/
def exec (i : Instr) (s : State) : Host.Outcome State Fault Refusal :=
  match i with
  | .nop a => Sys2Proof.Machine.execNop a s
  | .bra a => Sys2Proof.Machine.execBra a s
  | .brcFlag a => Sys2Proof.Machine.execBrcFlag a s
  | .brcReg a => Sys2Proof.Machine.execBrcReg a s
  | .call a => Sys2Proof.Machine.execCall a s
  | .ret a => Sys2Proof.Machine.execRet a s
  | .jmpi a => Sys2Proof.Machine.execJmpi a s
  | .ifc a => Sys2Proof.Machine.execIfc a s
  | .elsec a => Sys2Proof.Machine.execElsec a s
  | .endif a => Sys2Proof.Machine.execEndif a s
  | .loopc a => Sys2Proof.Machine.execLoopc a s
  | .brk a => Sys2Proof.Machine.execBrk a s
  | .cont a => Sys2Proof.Machine.execCont a s
  | .endloop a => Sys2Proof.Machine.execEndloop a s
  | .exit a => Sys2Proof.Machine.execExit a s
  | .yield a => Sys2Proof.Machine.execYield a s
  | .trap a => Sys2Proof.Machine.execTrap a s
  | .add a => Sys2Proof.Machine.execAdd a s
  | .sub a => Sys2Proof.Machine.execSub a s
  | .mul a => Sys2Proof.Machine.execMul a s
  | .mulh a => Sys2Proof.Machine.execMulh a s
  | .mad a => Sys2Proof.Machine.execMad a s
  | .andc a => Sys2Proof.Machine.execAndc a s
  | .orc a => Sys2Proof.Machine.execOrc a s
  | .xorc a => Sys2Proof.Machine.execXorc a s
  | .andn a => Sys2Proof.Machine.execAndn a s
  | .shl a => Sys2Proof.Machine.execShl a s
  | .shr a => Sys2Proof.Machine.execShr a s
  | .sar a => Sys2Proof.Machine.execSar a s
  | .rot a => Sys2Proof.Machine.execRot a s
  | .min a => Sys2Proof.Machine.execMin a s
  | .max a => Sys2Proof.Machine.execMax a s
  | .absd a => Sys2Proof.Machine.execAbsd a s
  | .cmp a => Sys2Proof.Machine.execCmp a s
  | .sel a => Sys2Proof.Machine.execSel a s
  | .mov a => Sys2Proof.Machine.execMov a s
  | .movi a => Sys2Proof.Machine.execMovi a s
  | .lea a => Sys2Proof.Machine.execLea a s
  | .addi a => Sys2Proof.Machine.execAddi a s
  | .bfx a => Sys2Proof.Machine.execBfx a s
  | .bfi a => Sys2Proof.Machine.execBfi a s
  | .clz a => Sys2Proof.Machine.execClz a s
  | .popc a => Sys2Proof.Machine.execPopc a s
  | .brev a => Sys2Proof.Machine.execBrev a s
  | .div a => Sys2Proof.Machine.execDiv a s
  | .rem a => Sys2Proof.Machine.execRem a s
  | .mulw a => Sys2Proof.Machine.execMulw a s
  | .idot a => Sys2Proof.Machine.execIdot a s
  | .fadd a => Sys2Proof.Machine.execFadd a s
  | .fsub a => Sys2Proof.Machine.execFsub a s
  | .fmul a => Sys2Proof.Machine.execFmul a s
  | .ffma a => Sys2Proof.Machine.execFfma a s
  | .fmin a => Sys2Proof.Machine.execFmin a s
  | .fmax a => Sys2Proof.Machine.execFmax a s
  | .fcmp a => Sys2Proof.Machine.execFcmp a s
  | .fclass a => Sys2Proof.Machine.execFclass a s
  | .cvt a => Sys2Proof.Machine.execCvt a s
  | .sfn a => Sys2Proof.Machine.execSfn a s
  | .fdot a => Sys2Proof.Machine.execFdot a s
  | .fscale a => Sys2Proof.Machine.execFscale a s
  | .frnd a => Sys2Proof.Machine.execFrnd a s
  | .pack a => Sys2Proof.Machine.execPack a s
  | .unpk a => Sys2Proof.Machine.execUnpk a s
  | .lshuf a => Sys2Proof.Machine.execLshuf a s
  | .lrot a => Sys2Proof.Machine.execLrot a s
  | .lbc a => Sys2Proof.Machine.execLbc a s
  | .lred a => Sys2Proof.Machine.execLred a s
  | .lscan a => Sys2Proof.Machine.execLscan a s
  | .ballot a => Sys2Proof.Machine.execBallot a s
  | .vote a => Sys2Proof.Machine.execVote a s
  | .subsw a => Sys2Proof.Machine.execSubsw a s
  | .plog a => Sys2Proof.Machine.execPlog a s
  | .pmov a => Sys2Proof.Machine.execPmov a s
  | .pcnt a => Sys2Proof.Machine.execPcnt a s
  | .ld a => Sys2Proof.Machine.execLd a s
  | .st a => Sys2Proof.Machine.execSt a s
  | .pref a => Sys2Proof.Machine.execPref a s
  | .cpy a => Sys2Proof.Machine.execCpy a s
  | .cpyg a => Sys2Proof.Machine.execCpyg a s
  | .cpys a => Sys2Proof.Machine.execCpys a s
  | .cpyr a => Sys2Proof.Machine.execCpyr a s
  | .cseal a => Sys2Proof.Machine.execCseal a s
  | .pushm a => Sys2Proof.Machine.execPushm a s
  | .popm a => Sys2Proof.Machine.execPopm a s
  | .atom a => Sys2Proof.Machine.execAtom a s
  | .red a => Sys2Proof.Machine.execRed a s
  | .csig a => Sys2Proof.Machine.execCsig a s
  | .cwait a => Sys2Proof.Machine.execCwait a s
  | .cread a => Sys2Proof.Machine.execCread a s
  | .phase a => Sys2Proof.Machine.execPhase a s
  | .barArv a => Sys2Proof.Machine.execBarArv a s
  | .barWt a => Sys2Proof.Machine.execBarWt a s
  | .barMeet a => Sys2Proof.Machine.execBarMeet a s
  | .barMemb a => Sys2Proof.Machine.execBarMemb a s
  | .barQry a => Sys2Proof.Machine.execBarQry a s
  | .eqResv a => Sys2Proof.Machine.execEqResv a s
  | .eqPub a => Sys2Proof.Machine.execEqPub a s
  | .eqTake a => Sys2Proof.Machine.execEqTake a s
  | .eqFree a => Sys2Proof.Machine.execEqFree a s
  | .eqStat a => Sys2Proof.Machine.execEqStat a s
  | .wait a => Sys2Proof.Machine.execWait a s
  | .tshp a => Sys2Proof.Machine.execTshp a s
  | .wld a => Sys2Proof.Machine.execWld a s
  | .mma a => Sys2Proof.Machine.execMma a s
  | .tst a => Sys2Proof.Machine.execTst a s
  | .tld a => Sys2Proof.Machine.execTld a s
  | .tzero a => Sys2Proof.Machine.execTzero a s
  | .xfftFwd a => Sys2Proof.Machine.execXfftFwd a s
  | .xfftInv a => Sys2Proof.Machine.execXfftInv a s
  | .smma a => Sys2Proof.Machine.execSmma a s
  | .tagSet a => Sys2Proof.Machine.execTagSet a s
  | .tagAdj a => Sys2Proof.Machine.execTagAdj a s
  | .tagQry a => Sys2Proof.Machine.execTagQry a s
  | .nbDot a => Sys2Proof.Machine.execNbDot a s
  | .nbAxpy a => Sys2Proof.Machine.execNbAxpy a s
  | .nbScale a => Sys2Proof.Machine.execNbScale a s
  | .nbSum a => Sys2Proof.Machine.execNbSum a s
  | .nbFill a => Sys2Proof.Machine.execNbFill a s
  | .nbCmpz a => Sys2Proof.Machine.execNbCmpz a s
  | .jigDef a => Sys2Proof.Machine.execJigDef a s
  | .jigArm a => Sys2Proof.Machine.execJigArm a s
  | .jigDisarm a => Sys2Proof.Machine.execJigDisarm a s
  | .jigPos a => Sys2Proof.Machine.execJigPos a s
  | .jigQry a => Sys2Proof.Machine.execJigQry a s
  | .jrnBegin a => Sys2Proof.Machine.execJrnBegin a s
  | .jrnCommit a => Sys2Proof.Machine.execJrnCommit a s
  | .jrnAbort a => Sys2Proof.Machine.execJrnAbort a s
  | .srd a => Sys2Proof.Machine.execSrd a s
  | .swr a => Sys2Proof.Machine.execSwr a s
  | .swrExec a => Sys2Proof.Machine.execSwrExec a s
  | .swrFpmode a => Sys2Proof.Machine.execSwrFpmode a s
  | .swrOvfFlags a => Sys2Proof.Machine.execSwrOvfFlags a s
  | .swrAshape a => Sys2Proof.Machine.execSwrAshape a s
  | .swrLossScale a => Sys2Proof.Machine.execSwrLossScale a s
  | .swrEbudget a => Sys2Proof.Machine.execSwrEbudget a s
  | .swrDumpBase a => Sys2Proof.Machine.execSwrDumpBase a s
  | .swrTraceCtl a => Sys2Proof.Machine.execSwrTraceCtl a s
  | .launch a => Sys2Proof.Machine.execLaunch a s
  | .tlbi a => Sys2Proof.Machine.execTlbi a s
  | .ctxSave a => Sys2Proof.Machine.execCtxSave a s
  | .ctxLoad a => Sys2Proof.Machine.execCtxLoad a s
  | .ctxFreeze a => Sys2Proof.Machine.execCtxFreeze a s
  | .tret a => Sys2Proof.Machine.execTret a s
  | .sleep a => Sys2Proof.Machine.execSleep a s
  | .halt a => Sys2Proof.Machine.execHalt a s
  | .rendezvousTimeout blk pc => Sys2Proof.Machine.execRendezvousTimeout blk pc s
  | .runArbitration core part => Sys2Proof.Machine.execRunArbitration core part s
  | .watchdog w => Sys2Proof.Machine.execWatchdog w s
  | .handlerOverrun w => Sys2Proof.Machine.execHandlerOverrun w s
  | .loadDataReturn id => Sys2Proof.Machine.execLoadDataReturn id s
  | .fenceCopyRow ch pc => Sys2Proof.Machine.execFenceCopyRow ch pc s
  | .copyBatchComplete w seq => Sys2Proof.Machine.execCopyBatchComplete w seq s
  | .counterIncrement id => Sys2Proof.Machine.execCounterIncrement id s
  | .cwaitWake w => Sys2Proof.Machine.execCwaitWake w s
  | .cwaitTimeout w => Sys2Proof.Machine.execCwaitTimeout w s
  | .cwaitPoll w => Sys2Proof.Machine.execCwaitPoll w s
  | .sleepWake w => Sys2Proof.Machine.execSleepWake w s
  | .eqWaitSatisfied w => Sys2Proof.Machine.execEqWaitSatisfied w s
  | .xfftAccept core pipe => Sys2Proof.Machine.execXfftAccept core pipe s
  | .xfftComplete core pipe => Sys2Proof.Machine.execXfftComplete core pipe s
  | .wldComplete core => Sys2Proof.Machine.execWldComplete core s
  | .arrayOpComplete core chk => Sys2Proof.Machine.execArrayOpComplete core chk s
  | .bandAdmit die => Sys2Proof.Machine.execBandAdmit die s
  | .bandOn core band => Sys2Proof.Machine.execBandOn core band s
  | .bandHoldExpire core band => Sys2Proof.Machine.execBandHoldExpire core band s
  | .bandWakeRefused core band => Sys2Proof.Machine.execBandWakeRefused core band s
  | .slewStep die => Sys2Proof.Machine.execSlewStep die s
  | .nbComplete id => Sys2Proof.Machine.execNbComplete id s
  | .jigArmAccept id => Sys2Proof.Machine.execJigArmAccept id s
  | .refreshRow row => Sys2Proof.Machine.execRefreshRow row s
  | .hasteRowSweep row => Sys2Proof.Machine.execHasteRowSweep row s
  | .journalCloseComplete ctx => Sys2Proof.Machine.execJournalCloseComplete ctx s
  | .blockRetire blk => Sys2Proof.Machine.execBlockRetire blk s
  | .placement ctx => Sys2Proof.Machine.execPlacement ctx s
  | .dispatchEntry ctx => Sys2Proof.Machine.execDispatchEntry ctx s
  | .budgetRefill => Sys2Proof.Machine.execBudgetRefill s
  | .energyUpdate => Sys2Proof.Machine.execEnergyUpdate s
  | .wearTick die temp => Sys2Proof.Machine.execWearTick die temp s
  | .boostStep die up powerOk => Sys2Proof.Machine.execBoostStep die up powerOk s
  | .hostWrite q ctx addr data => Sys2Proof.Machine.execHostWrite q ctx addr data s
  | .hostRead q ctx addr len => Sys2Proof.Machine.execHostRead q ctx addr len s
  | .hostSignal q ctx addr inc => Sys2Proof.Machine.execHostSignal q ctx addr inc s
  | .remoteAccess dev who addr op => Sys2Proof.Machine.execRemoteAccess dev who addr op s
  | .girtFlitError x => Sys2Proof.Machine.execGirtFlitError x s
  | .girtHoldTimeout partner => Sys2Proof.Machine.execGirtHoldTimeout partner s
  | .linkTraining port partner ok full offerComp => Sys2Proof.Machine.execLinkTraining port partner ok full offerComp s
  | .ucieLinkDown link => Sys2Proof.Machine.execUcieLinkDown link s
  | .dieLost die => Sys2Proof.Machine.execDieLost die s
  | .pinBreak w => Sys2Proof.Machine.execPinBreak w s
  | .pageMigrate ctx va frame => Sys2Proof.Machine.execPageMigrate ctx va frame s
  | .injStore ch val => Sys2Proof.Machine.execInjStore ch val s
  | .bankErrClear ch val => Sys2Proof.Machine.execBankErrClear ch val s
  | .marchStore ch val => Sys2Proof.Machine.execMarchStore ch val s
  | .marchComplete ch failing => Sys2Proof.Machine.execMarchComplete ch failing s
  | .powerOn cfg => Sys2Proof.Machine.execPowerOn cfg s
  | .measurementExtend reg digest => Sys2Proof.Machine.execMeasurementExtend reg digest s
  | .getVersion t => Sys2Proof.Machine.execGetVersion t s
  | .getCapabilities t => Sys2Proof.Machine.execGetCapabilities t s
  | .negotiateAlgorithms t offersSlh => Sys2Proof.Machine.execNegotiateAlgorithms t offersSlh s
  | .getDigests t => Sys2Proof.Machine.execGetDigests t s
  | .getCertificate t slot off len => Sys2Proof.Machine.execGetCertificate t slot off len s
  | .challenge t slot nonce => Sys2Proof.Machine.execChallenge t slot nonce s
  | .getMeasurements t index signed nonce => Sys2Proof.Machine.execGetMeasurements t index signed nonce s
  | .spdmUnsupported t code => Sys2Proof.Machine.execSpdmUnsupported t code s
  | .healthRead r => Sys2Proof.Machine.execHealthRead r s
  | .dumpTrigger r => Sys2Proof.Machine.execDumpTrigger r s
  | .dumpFetch r tenant => Sys2Proof.Machine.execDumpFetch r tenant s
  | .warmReset r die => Sys2Proof.Machine.execWarmReset r die s
  | .dieQuiesce die => Sys2Proof.Machine.execDieQuiesce die s
  | .dieDrain die => Sys2Proof.Machine.execDieDrain die s
  | .dieRetrain die ok => Sys2Proof.Machine.execDieRetrain die ok s
  | .dieReadmit die => Sys2Proof.Machine.execDieReadmit die s
  | .deviceReset r cfg => Sys2Proof.Machine.execDeviceReset r cfg s
  | .coreRestart r core => Sys2Proof.Machine.execCoreRestart r core s
  | .recoveryLoad r image => Sys2Proof.Machine.execRecoveryLoad r image s
  | .contextCreate r crec => Sys2Proof.Machine.execContextCreate r crec s
  | .contextChange r crec => Sys2Proof.Machine.execContextChange r crec s
  | .contextDestroy r ctx => Sys2Proof.Machine.execContextDestroy r ctx s
  | .reservedOpcode w => Sys2Proof.Machine.execReservedOpcode w s
  | .storeAcknowledgement id => Sys2Proof.Machine.execStoreAcknowledgement id s
  | .jigDefAccepted id => Sys2Proof.Machine.execJigDefAccepted id s

end Sys2Proof.Machine
end

