-- ==== Sys2Proof/Machine/Rest.lean ====
section
/-! DEFINITION. What the device does by itself: the passing of time, with the slew limiter's boundaries in it (spec/14 R310),
and after every step a context that took a fatal trap comes to rest (spec/20 R350), and the waits that R349 counts go on or
pause. -/

namespace Sys2Proof.Machine

/-! ## Time -/

/-- The dies whose slew limiter has something to do. -/
def State.slewDies (s : State) : List Nat := (s.dies.map (·.1)).filter s.slewWork

/-- The passing of time: die clocks and nanoseconds (R3) (DESIGN CHOICE, notes/assumptions/39). No clock goes beyond a step
boundary at which a slew limiter has something to do, and the boundary that is left has been taken (R310). -/
def State.elapse (s : State) (clk ns : Nat) : State :=
  let s1 := s.slewDies.foldl State.slew s
  let n := if s1.slewDies.isEmpty then clk else Nat.min clk (4 - s1.clock % 4)
  { s1 with clock := s1.clock + n, timer := s1.timer + ns, joint := none }

/-! ## Storage errors (R168, R366; DESIGN CHOICE, notes/assumptions/36) -/

/-- A stored form after one more wrong bit, or with its code altered (`unc`): poison stays as it is. -/
def ColSt.upset (c : ColSt) (unc : Bool) : ColSt :=
  match c with
  | .poison => .poison
  | .clean => if unc then .unc false else .single false
  | _ => .unc false

/-- The stored form at a key of a map after a storage error. -/
def upsetAt (m : SMap ColSt) (k : Nat) (unc : Bool) : SMap ColSt := mset .clean m k ((mget .clean m k).upset unc)

/-- A storage error comes about by itself where there is such a stored form; what it holds stays until it is read. -/
def State.upset (s : State) (u : Upset) (unc : Bool) : State :=
  match u with
  | .stored k => { s with mem := { s.mem with cols := upsetAt s.mem.cols k unc } }
  | .word w k =>
    if (mfind s.warps w).isSome && (k < 32 * (s.warp w).nregs || (8192 ≤ k && k < 8260)) then
      s.modWarp w fun x => { x with words := upsetAt x.words k unc }
    else s
  | .blockReg b n =>
    if (mfind s.blocks b).isSome && n < 64 then s.modBlk b fun x => { x with qWords := upsetAt x.qWords n unc } else s
  | .tile k e => if k < 160 && e < 65536 then s.modCore k fun c => { c with tileErr := upsetAt c.tileErr e unc } else s
  | .l1 k u => if (mfind (s.core k).l1 (u / 4)).isSome then s.modCore k fun c => { c with l1Err := upsetAt c.l1Err u unc } else s
  | .l2 u => if isDram (32 * u) then { s with mem := { s.mem with sectors := upsetAt s.mem.sectors u unc } } else s
  | .remap r second =>
    let e := mget (.clean, .clean) s.mem.tables r
    let e' := if second then (e.1, e.2.upset unc) else (e.1.upset unc, e.2)
    { s with mem := { s.mem with tables := mset (.clean, .clean) s.mem.tables r e' } }

/-! ## Fatal traps -/

/-- Whether the copies, near-bank operations and transforms of a context have completed (R350, R181, R239, R256). -/
def State.workDone (s : State) (c : Nat) : Bool :=
  let ws := s.warpsOf c
  (s.pend.all fun e => match e.2 with
    | .copy w .. | .nb w .. => !ws.contains w
    | _ => true) &&
  s.cores.all fun e => e.2.pipes.all fun p =>
    p.2.ops.all (fun o => !ws.contains o.w) && p.2.wait.all fun o => !ws.contains o.2.w

/-- A context that took a fatal trap: its arrays stop, and it comes to rest once its last run has ended and that work has completed: its open
journal step is aborted, the dump is written, firmware is notified, and it stays frozen (R350). -/
def State.restCtx (s : State) (c : Nat) : State :=
  match (s.ctx c).dying with
  | none => s
  | some d =>
    let s := s.stopArrays c
    if (s.warpsOf c).any s.inRun || !s.workDone c then s
    else
      let s1 := (s.modCtx c fun x => { x with frozen := true, freezing := false, dying := none }).jrnHwAbort c
      (s1.writeDump c d).modCtx c fun x => { x with log := x.log ++ [.fatalTrap d.cause] }

/-! ## Waits (R349) -/

/-- Whether the oldest operation of a core's array path waits at the in-rush arbiter or at the slew limiter. -/
def State.atArbiter (s : State) (core : Nat) : Bool :=
  match (s.core core).arr with
  | o :: _ => match o.phase with
    | .running _ => false
    | _ => o.usesBands
  | [] => false

/-- Whether an instruction that passes the checks before its own waits for nothing but operations of the array: a `WAIT` for
its tile class alone, a read of flags that only such operations may still set, or a 256th of them (R206, R97). -/
def State.awaitsArray (s : State) (w : Nat) (o : Op) (a : Args) : Bool :=
  let x := s.warp w
  match o with
  | .wait => a.b.toNat < x.tileCnt && waitMet a { x with tileCnt := 0 }
  | .brcFlag | .srd | .swrOvfFlags => s.flagsWait w
  | .wld | .mma | .smma | .tst | .tld | .tzero => 255 ≤ x.tileCnt
  | _ => false

/-- Whether what keeps a warp's next instruction from issuing is the energy budget, or an operation of its core's array that
stands at the in-rush arbiter or the slew limiter (R306, R349). -/
def State.waitsByDesign (s : State) (w : Nat) (x : Warp) : Bool :=
  (s.budgetStalls w 3 || (x.tileCnt != 0 && s.atArbiter (s.coreOf w))) &&
    match s.fetchInstr w with
    | (_, .error _) => false
    | (s1, .ok i) =>
      i.op?.any fun e =>
        s1.precheck e.1 e.2 w == .ok && s1.waitOf w i == 0 &&
          (s1.budgetStalls w e.2.ec || (x.tileCnt != 0 && s1.atArbiter (s1.coreOf w) && s1.awaitsArray w e.1 e.2))

/-- Whether a clock in which a warp does not issue counts for its watchdog: it is neither parked nor frozen, nor waits by
design (R349). -/
def State.counts (s : State) (w : Nat) (x : Warp) : Bool :=
  let c := s.ctx x.ctx
  !x.retired && !x.stopped && (x.park == .none || s.leadsReady w) && !c.frozen && !c.saved &&
  !(c.freezing && !s.inRun w && !x.inHandler) && !s.waitsByDesign w x

/-- Starts or stops the count of a warp's wait. -/
def Warp.timed (x : Warp) (clock : Nat) (on : Bool) : Warp :=
  match x.waitFrom, on with
  | none, true => { x with waitFrom := some clock }
  | some t, false => { x with waited := x.waited + (clock - t), waitFrom := none }
  | _, _ => x

/-- The waits of every warp at the end of a step. -/
def State.timed (s : State) : State :=
  { s with warps := s.warps.map fun (e : Nat × Warp) => (e.1, e.2.timed s.clock (s.counts e.1 e.2)) }

/-- What follows a step. -/
def State.rest (s : State) : State :=
  (((s.ctxs.filter fun e => e.2.dying.isSome).map (·.1)).foldl State.restCtx s).timed

/-- A step's outcome with what follows it. -/
def settled (o : Host.Outcome State Fault Refusal) : Host.Outcome State Fault Refusal :=
  match o with
  | .next s => .next s.rest
  | x => x

end Sys2Proof.Machine
end

