-- ==== Sys2Proof/Machine/Step.lean ====
section
/-! DEFINITION. One step of the device: an instruction of one warp, a device event, the passing of time, or a storage error. -/

namespace Sys2Proof.Machine

/-- A warp's next instruction in the present clock: fetched, decoded, and executed where it waits for no fixed latency. -/
def tryWarp (s : State) (w : Nat) : Host.Outcome State Fault Refusal :=
  if !s.takesUp w then .next s
  else
    match s.fetchInstr w with
    | (s1, .error t) => .next { s1.fetchTrap w t with joint := none }
    | (s1, .ok i) => match s1.waitOf w i with
      | 0 => exec i (s1.seat w)
      | n + 1 => .next (s1.waits w (n + 1))

/-- A warp's next instruction in the next clock; `also` in the clock of the instruction before, where it may follow that one
(R46). -/
def stepWarp (s : State) (w : Nat) (also : Bool) : Host.Outcome State Fault Refusal :=
  if also && s.follows w && s.readyNow w then tryWarp s w else tryWarp (s.elapse 1 0) w

/-- One step, and what the device does by itself after it (DESIGN CHOICE, notes/assumptions/4). -/
def step (s : State) : Host.Outcome State Fault Refusal :=
  match s.takeAct with
  | (.elapse clk ns, s1) => settled (.next (s1.elapse clk ns))
  | (.event i, s1) => settled (exec i s1)
  | (.issue w, s1) => settled (stepWarp s1 w false)
  | (.also w, s1) => settled (stepWarp s1 w true)
  | (.upset u unc, s1) => settled (.next (s1.upset u unc))

/-- The state with the words of an instruction placed where the next step fetches: a booted device, one resident warp,
its page tables and its code, and that warp as what the next step takes up (DESIGN CHOICE, notes/assumptions/5). -/
def State.withFetchWord (s : State) (nbits w : Nat) : State := s.placeWords (tableWords nbits w)

end Sys2Proof.Machine
end

