-- ==== Sys2Proof/Safety.lean ====
section
/-! DEFINITION. The terms in which claims speak of a step: where an instruction issues, what the issue itself changes, and
what an instruction that has completed leaves behind beside its results. -/

namespace Sys2Proof.Machine

/-- A resident warp that has not fully exited, at its place in a resident block: key 32 × block + WARPID. -/
structure State.Placed (s : State) (w : Nat) : Prop where
  listed : (mfind s.warps w).isSome
  block  : (mfind s.blocks (s.warp w).blk).isSome
  live   : (s.warp w).retired = false
  key    : w = 32 * (s.warp w).blk + (s.warp w).wid
  wid    : (s.warp w).wid < 32

/-- Whether an instruction executes once for a set or a block (R26, R30). -/
def Args.together (a : Args) : Bool := a.scope == .set || a.scope == .block

/-- The group that executes an instruction of the current warp now: the warp itself at lane and warp scope; at set and
block scope every remaining member, once all have arrived and the leader's partition runs (R30, R32, R302). -/
def State.gather (s : State) (o : Op) (a : Args) : State × Option Grp :=
  if Args.together a then s.arrive s.cur (Instr.ofOp o a) a.scope else (s, some [(s.cur, (s.warp s.cur).exec)])

/-- The state once the group stands: its rendezvous is closed, and the register words that the instruction reads have been
checked (R366). -/
def State.stood (s : State) (o : Op) (a : Args) (g : Grp) : State :=
  (if Args.together a then (s.gather o a).1.closeRdv s.cur a.scope else s).checkWords g (wordRegs g o a)

/-- The state in which an instruction's own effect begins: its cost is charged (R306) and its tokens are read (R180). -/
def State.opened (s : State) (o : Op) (a : Args) (g : Grp) : State :=
  ((s.stood o a g).chargeBudget (leaderOf g) a.ec).readTokens g ((s.stood o a g).tokenRegs g o a)

/-- The current warp issues an instruction for a group: no check before the instruction's own fails, the scoreboard and
the energy budget let it go, no member has a late trap due, no source is poisoned, it is converged where it must be, and
it uses no register that holds an open batch (R346, R46, R306, R398, R34, R179). -/
structure State.Issues (s : State) (o : Op) (a : Args) (poison : State → Grp → Option Trap) (g : Grp) : Prop where
  placed : s.Placed s.cur
  home   : ∀ w ∈ g.ws, s.Placed w
  checks : s.precheck o a s.cur = .ok
  group  : (s.gather o a).2 = some g
  budget : (s.gather o a).1.budgetStalls (leaderOf g) a.ec = false
  late   : Args.together a = true → g.ws.filter (fun m => lateDue o a ((s.gather o a).1.warp m)) = []
  clean  : poison (s.stood o a g) g = none
  conv   : (rowOf o a.func.toNat).conv = true → (s.gather o a).1.unconverged g = false
  batch  : (s.stood o a g).batchBad g o a = false

/-- The same with the sources of the instruction's operands. -/
abbrev State.IssuesPlain (s : State) (o : Op) (a : Args) (g : Grp) : Prop :=
  s.Issues o a (fun s g => s.plainPoison o a g) g

/-- Only the bookkeeping of runs, waits and fixed latencies of a warp differs (R45, R46, R159, R349). -/
def Warp.Kept (x y : Warp) : Prop :=
  y = { x with runCnt := y.runCnt, missed := y.missed, waitFrom := y.waitFrom, waited := y.waited, due := y.due, next := y.next }

/-- An instruction of n bytes has completed for a group in state r, and t is the next state: every member stands behind
it, and beside that only the bookkeeping of runs, waits, ports and events has changed (R45, R46, R313, R349). -/
structure State.Retired (r t : State) (ws : List Nat) (n : Nat) : Prop where
  rest  : t = { r with warps := t.warps, cores := t.cores }
  cores : ∀ k, t.core k = { r.core k with parts := (t.core k).parts, events := (t.core k).events }
  on    : ∀ w ∈ ws, Warp.Kept { r.warp w with pc := (r.warp w).pc + BitVec.ofNat 64 n, park := .none } (t.warp w)
  off   : ∀ w, w ∉ ws → t.warp w = r.warp w

/-- Only warps of a group differ, each by what `f` does to it. -/
structure State.Warps (s r : State) (g : Grp) (f : Nat × Mask → Warp → Warp) : Prop where
  rest : r = { s with warps := r.warps }
  on   : ∀ m ∈ g, r.warp m.1 = f m (s.warp m.1)
  off  : ∀ w, w ∉ g.ws → r.warp w = s.warp w

/-- The flags that an instruction sets in OVF_FLAGS of a member: those of the lanes it acts on, or at warp scope those
of the one operation (R97). -/
def flagsOf (a : Args) (ls : List Nat) (f : Nat → Nat) : Word :=
  if a.scope = .warp then BitVec.ofNat 64 (f 0) else ls.foldl (fun x l => x ||| BitVec.ofNat 64 (f l)) 0

/-- Whether an elementwise instruction writes a vector register: at every scope but warp scope (R110, R130). -/
def Args.vec (a : Args) : Bool := a.scope != .warp

/-- What writing destination D leaves: where `vec`, the lanes `on` of the vector register of every member; else the
scalar register of every member or the block-shared register, as it reads from the next clock on, where no higher-numbered
warp has written it in this clock (R55). `f` gives the value for a member and a lane, `fl` the flags set in a member. Every other register lane, register and part of the device is as it was. -/
structure State.WroteD (s r : State) (a : Args) (vec : Bool) (g : Grp) (on : Nat × Mask → List Nat)
    (f : Nat → Nat → Word) (fl : Nat × Mask → Word) : Prop where
  rest : r = { s with warps := r.warps, blocks := r.blocks }
  warp : ∀ m ∈ g, r.warp m.1 = { s.warp m.1 with
           v := (r.warp m.1).v, vMark := (r.warp m.1).vMark, s := (r.warp m.1).s, sMark := (r.warp m.1).sMark, words := (r.warp m.1).words,
           tokenErr := (r.warp m.1).tokenErr, batches := (r.warp m.1).batches, ovf := (s.warp m.1).ovf ||| fl m }
  off  : ∀ w, w ∉ g.ws → r.warp w = s.warp w
  vreg : ∀ m ∈ g, ∀ n l, l < 32 → (r.warp m.1).vget n l =
           if vec = true ∧ n = a.d.toNat ∧ l ∈ on m then f m.1 l else (s.warp m.1).vget n l
  sreg : ∀ m ∈ g, ∀ n, (r.warp m.1).sget n =
           if vec = false ∧ a.kd = .s ∧ n = a.d.toNat then f (leaderOf g) 0 else (s.warp m.1).sget n
  blk  : ∀ b, r.blk b = { s.blk b with q := (r.blk b).q, qMark := (r.blk b).qMark, qWords := (r.blk b).qWords, qAt := (r.blk b).qAt, qWas := (r.blk b).qWas }
  qreg : ∀ b n, (r.blk b).qget n =
           if vec = false ∧ a.kd = .q ∧ b = (s.warp (leaderOf g)).blk ∧ n = a.d.toNat ∧
             (s.blk b).qTop s.clock n ≤ leaderOf g then f (leaderOf g) 0
           else (s.blk b).qget n

/-- What writing predicate pD leaves: `pv` in every member, but p0 reads as all ones for ever (R52); `fl` the flags set.
Every other predicate, register and part of the device is as it was. -/
structure State.WroteP (s r : State) (d : Nat) (g : Grp) (pv : Nat × Mask → Mask) (fl : Nat × Mask → Word) : Prop where
  rest : r = { s with warps := r.warps }
  warp : ∀ m ∈ g, r.warp m.1 = { s.warp m.1 with
           p := (r.warp m.1).p, pMark := (r.warp m.1).pMark, ovf := (s.warp m.1).ovf ||| fl m }
  off  : ∀ w, w ∉ g.ws → r.warp w = s.warp w
  preg : ∀ m ∈ g, ∀ n, (r.warp m.1).pget n = if n = d ∧ d ≠ 0 then pv m else (s.warp m.1).pget n

/-- The current warp alone, with its EXEC: the group of an instruction at lane and warp scope. -/
def State.alone (s : State) : Grp := [(s.cur, (s.warp s.cur).exec)]

/-- Control of warp w has moved to p in a state r, and t is the next state: beside that only the trace ring and the bookkeeping
of runs, waits, ports and events have changed (R45, R46, R313, R349, R362). -/
structure State.Jumped (r t : State) (w : Nat) (p : Word) : Prop where
  rest  : t = { r with warps := t.warps, cores := t.cores }
  cores : ∀ k, t.core k = { r.core k with
            parts := (t.core k).parts, events := (t.core k).events, ring := (t.core k).ring, head := (t.core k).head, traceAt := (t.core k).traceAt }
  on    : Warp.Kept { r.warp w with pc := p } (t.warp w)
  off   : ∀ v, v ≠ w → t.warp v = r.warp v

/-- The next state after an instruction of the current warp whose effect left r and moved control itself: a TLB miss is noted, and
the instruction has taken its port and is accounted (R45, R46, R159). -/
def State.movedTo (s r : State) (o : Op) (a : Args) : State := State.finish s.cur s.alone o a (.moved (r.noteMiss s.mem s.cur))

/-- The next state after an instruction that has parked the warps of its group in a state r. -/
def State.parkedIn (s r : State) (g : Grp) (o : Op) (a : Args) : State :=
  State.finish s.cur g o a (.parked (r.noteMiss s.mem s.cur))

/-- A location to which something earlier is still on its way: an element of a core's U line (R199), or the counter of a
`CSIG` in flight (R194). -/
def State.OnItsWay (s : State) (l : Nat) : Prop :=
  (∃ k, ∃ u ∈ (s.core k).uLines, ∃ e ∈ u.vals, l ∈ span e.1 (atomSize u.ty)) ∨
  ∃ e ∈ s.pend, match e.2 with
    | .csig _ _ _ c _ => l ∈ span c 8
    | _ => False

/-- What accesses to memory change: memory itself with its error records, what is in flight, what caches hold, and of a
warp only what it has observed and its store class. Bytes change only at the locations `P`, and memory keeps its canonical
form. -/
structure State.Traffic (P : Nat → Prop) (s r : State) : Prop where
  rest   : r = { s with nextId := r.nextId, free := r.free, mem := r.mem, warps := r.warps, cores := r.cores,
                        dies := r.dies, chans := r.chans, held := r.held, pend := r.pend }
  warp   : ∀ w, r.warp w = { s.warp w with
             floors := (r.warp w).floors, rmtFl := (r.warp w).rmtFl, seen := (r.warp w).seen, rels := (r.warp w).rels,
             stCnt := (r.warp w).stCnt, late := (r.warp w).late }
  listed : ∀ w, (mfind r.warps w).isSome = (mfind s.warps w).isSome
  core   : ∀ k, r.core k = { s.core k with uLines := (r.core k).uLines, l1 := (r.core k).l1, l1Err := (r.core k).l1Err }
  die    : ∀ d, r.die d = { s.die d with ecc := (r.die d).ecc }
  byte   : ∀ l, ¬P l → r.mem.byte l = s.mem.byte l
  wf     : s.mem.wf = true → r.mem.wf = true
  way    : ∀ l, r.OnItsWay l → s.OnItsWay l

/-- What an instruction that accesses memory changes beside its own result, `f` of each warp: as `Traffic`, and what the
core records of it. -/
structure State.Accessed (P : Nat → Prop) (f : Nat → Warp → Warp) (s r : State) : Prop where
  rest : r = { s with nextId := r.nextId, free := r.free, mem := r.mem, warps := r.warps, cores := r.cores,
                      dies := r.dies, chans := r.chans, held := r.held, pend := r.pend }
  warp : ∀ w, r.warp w = { f w (s.warp w) with
           floors := (r.warp w).floors, rmtFl := (r.warp w).rmtFl, seen := (r.warp w).seen, rels := (r.warp w).rels,
           stCnt := (r.warp w).stCnt, late := (r.warp w).late }
  core : ∀ k, r.core k = { s.core k with
           uLines := (r.core k).uLines, l1 := (r.core k).l1, l1Err := (r.core k).l1Err, ring := (r.core k).ring, head := (r.core k).head,
           traceAt := (r.core k).traceAt }
  die  : ∀ d, r.die d = { s.die d with ecc := (r.die d).ecc }
  byte : ∀ l, ¬P l → r.mem.byte l = s.mem.byte l
  wf   : s.mem.wf = true → r.mem.wf = true

/-- One warp changes by `f`. -/
def onWarp (w : Nat) (f : Warp → Warp) : Nat → Warp → Warp := fun v x => if v = w then f x else x

/-- Every place that lanes access lies in plain memory of the device. -/
def PlainPlaces (ps : List (Nat × List Place)) : Prop := ∀ e ∈ ps, ∀ p ∈ e.2, ∃ l, p = .mem l

/-- The locations that lanes access. -/
def lanesLocs (ps : List (Nat × List Place)) : List Nat := ps.flatMap fun e => memLocs e.2

/-- An instruction of a group completes: it answers a next state, in which its results stand as in r and the group stands
behind it. -/
def Completes (i : Instr) (a : Args) (g : Grp) (s r : State) : Prop :=
  ∃ t, exec i s = .next t ∧ State.Retired r t g.ws (argBytes a)

end Sys2Proof.Machine
end

