-- ==== Sys2Proof/WellFormed.lean ====
section
/-! DEFINITION. Well-formed instructions: those some word encodes, and device events whose operands name parts of the
device that exist (spec/01 R9 to R19, spec/03 R61 to R78). -/

namespace Sys2Proof

/-- The modifiers that a base form leaves at their defaults (R68). -/
def plainMods (a : Args) : Bool :=
  a.sub == 0 && a.func == 0 && a.cp == 0 && a.ec == 0 && !a.pn && !a.xp && !a.abs && !a.nb && !a.na && !a.sat

/-- A field record that a base form can hold: what the form has no bits for is at the default of R68. -/
def baseCanon (opc : Nat) (a : Args) : Bool :=
  let k := defKind a.scope
  let flt := decide (0x30 ≤ opc ∧ opc ≤ 0x3E)
  a.kd == k && a.ka == k && a.kb == k && a.kc == k && plainMods a &&
  a.ty == (if flt then .f32 else .i64) && a.rnd == (if flt then .dyn else .rne) &&
  (if a.form == .base then a.lit == 0 else a.lit.toNat < 2 ^ 32) &&
  (match baseFmtOf opc with
   | .bj => a.d == 0 && a.a == 0 && a.b == 0 && a.c == 0 && a.imm == 0
   | .bi => a.d.toNat < 64 && a.a.toNat < 64 && a.b == 0 && a.c == 0 && a.off == 0 && a.p == 0 &&
            a.imm == (a.imm.setWidth 8).signExtend 12
   | _ => a.d.toNat < 64 && a.a.toNat < 64 && a.b.toNat < 64 && a.off == 0 && a.imm == 0 && a.p.toNat < 4 &&
          a.c == (if opc = 0x14 ∨ opc = 0x33 ∨ opc = 0x3A then a.d else 0))

/-- A field record that an extended form can hold. -/
def extCanon (a : Args) : Bool := a.off == 0 && (a.form == .extLit || a.lit == 0)

/-- Whether some words encode this instruction's fields. -/
def canon (opc : Nat) (a : Args) : Bool :=
  match a.form with
  | .base | .baseLit => baseCanon opc a
  | .ext | .extLit => extCanon a

/-- The operands of a device event name parts that exist. -/
def eventOk : Instr → Bool
  | .runArbitration core part => core < 160 && part < 8
  | .fenceCopyRow ch pc => ch < 256 && pc < 2
  | .xfftAccept core pipe | .xfftComplete core pipe => core < 160 && pipe < 2
  | .wldComplete core => core < 160
  | .arrayOpComplete core _ => core < 160
  | .bandAdmit die | .slewStep die | .wearTick die _ | .boostStep die _ _ | .dieLost die | .dieQuiesce die
  | .dieDrain die | .dieRetrain die _ | .dieReadmit die | .warmReset _ die => die < 4
  | .bandOn core band | .bandHoldExpire core band | .bandWakeRefused core band => core < 160 && band < 4
  | .girtFlitError x => x.port < 18
  | .linkTraining port _ _ _ _ => port < 18
  | .ucieLinkDown link => link < 4
  | .injStore ch _ | .bankErrClear ch _ | .marchStore ch _ | .marchComplete ch _ => ch < 256
  | .measurementExtend reg _ => reg < 16 && !(4 ≤ reg && reg ≤ 7)
  | .coreRestart _ core => core < 160
  | .contextCreate _ r | .contextChange _ r => r.ctx < 65536 && r.cores.all (· < 160)
  | .reservedOpcode w => reservedOpc (opcField w).toNat
  | _ => true

/-- Well-formed: a program instruction that some words encode and step 3 accepts, or a device event in range. -/
def Instr.wf (i : Instr) : Bool :=
  match i.op? with
  | some (o, a) => legal o a && canon (rowOf o a.func.toNat).opc a
  | none => eventOk i

end Sys2Proof
end

