-- ==== Sys2Proof/Certificates/Slice0/Obligations.lean ====
section
/-! DEFINITION. The statements for the provers: each a proposition about the model, with the rules of the spec that it
formalises in its docstring. -/

open Sys2Proof Sys2Proof.Machine

/-! ## Elementwise instructions -/

namespace Sys2Proof.Claims

/-- An elementwise instruction: where its operand B comes from, and what it computes in a lane with the flags raised. -/
structure LaneOp where
  op : Op
  b  : Args → Src
  f  : Args → LaneIn → Word × Nat

/-- An integer result, which raises no flag (R110). -/
def intOp (op : Op) (f : Args → LaneIn → Word) : LaneOp :=
  ⟨op, fun a => srcB a (immElems a.ty a.imm), fun a x => (f a x, 0)⟩

/-- An instruction whose operand B, if it has one, is a register. -/
def regOp (op : Op) (f : Args → LaneIn → Word × Nat) : LaneOp := ⟨op, fun a => srcB a 0, f⟩

/-- An instruction without an operand B. -/
def oneOp (op : Op) (f : Args → LaneIn → Word × Nat) : LaneOp := ⟨op, fun _ => ⟨.x, 0, 0⟩, f⟩

/-- Arithmetic on exact integers, fitted (R111, R117). -/
def arithOps : List LaneOp := [
  intOp .add fun a x => mapI2 a.ty a.sat (· + ·) x.a x.b,
  intOp .sub fun a x => mapI2 a.ty a.sat (· - ·) x.a x.b,
  intOp .mul fun a x => mapI2 a.ty a.sat (· * ·) x.a x.b,
  intOp .mulh fun a x => mapI2 a.ty false (mulhElem a.ty.width) x.a x.b,
  intOp .mad fun a x => mapI3 a.ty a.sat (fun p q r => p * q + r) x.a x.b x.c,
  intOp .min fun a x => mapI2 a.ty false Min.min x.a x.b,
  intOp .max fun a x => mapI2 a.ty false Max.max x.a x.b,
  intOp .absd fun a x => mapI2 a.ty a.sat (fun p q => |p - q|) x.a x.b,
  intOp .div fun a x => mapDiv a.ty (divElem a.ty a.sat) x.a x.b,
  intOp .rem fun a x => mapDiv a.ty (remElem a.ty) x.a x.b]

/-- Operations on bits (R111, R116). -/
def bitOps : List LaneOp := [
  intOp .andc fun _ x => x.a &&& x.b,
  intOp .orc fun _ x => x.a ||| x.b,
  intOp .xorc fun _ x => x.a ^^^ x.b,
  intOp .andn fun _ x => x.a &&& ~~~x.b,
  intOp .shl fun a x => mapB2 a.ty shlBits x.a x.b,
  intOp .shr fun a x => mapB2 a.ty shrBits x.a x.b,
  intOp .sar fun a x => mapB2 a.ty sarBits x.a x.b,
  intOp .rot fun a x => mapB2 a.ty rotBits x.a x.b,
  intOp .bfx fun a x => bfxWord a.ty x.a x.b,
  intOp .bfi fun a x => bfiWord a.ty x.a x.b x.d,
  oneOp .clz fun a x => (mapB2 a.ty (fun w p _ => clzBits w p) x.a 0, 0),
  oneOp .popc fun a x => (mapB2 a.ty (fun w p _ => popBits w p) x.a 0, 0),
  oneOp .brev fun a x => (mapB2 a.ty (fun w p _ => brevBits w p) x.a 0, 0)]

/-- Moves, immediates, addresses and products (R111, R114, R115, R118), and the permutation of a lane (R148). -/
def moveOps : List LaneOp := [
  oneOp .mov fun _ x => (x.a, 0),
  oneOp .movi fun a _ => (immC a, 0),
  oneOp .addi fun a x => (mapI2 a.ty a.sat (· + ·) x.a (immC a), 0),
  regOp .lea fun a x => (leaWord x.a x.b a.sub.toNat a.imm, 0),
  regOp .mulw fun a x => (mulwWord a.ty x.a x.b, 0),
  regOp .idot fun a x => (idotWord a.ty a.sat x.a x.b x.d, 0)]

/-- Floating point (R131 to R139). -/
def floatOps : List LaneOp := [
  regOp .fadd fun a x => faddLane a false x,
  regOp .fsub fun a x => faddLane a true x,
  regOp .fmul fmulLane,
  regOp .ffma ffmaLane,
  regOp .fmin fun a x => fminLane a false x,
  regOp .fmax fun a x => fminLane a true x,
  oneOp .fclass fclassLane,
  oneOp .cvt cvtLane,
  oneOp .sfn sfnLane,
  regOp .fdot fdotLane,
  ⟨.fscale, fun a => srcB a (immElems a.ty a.imm), fscaleLane⟩,
  oneOp .frnd frndLane,
  regOp .pack packLane,
  oneOp .unpk unpkLane]

/-- The inputs of a lane in the state that the effect of an instruction sees. -/
def laneOf (o : LaneOp) (a : Args) (s : State) (g : Grp) (m l : Nat) : LaneIn :=
  s.laneIn a (srcA a) (o.b a) (srcC a) (leaderOf g) m l

/-- An elementwise instruction completes wherever it issues: D holds the function of each lane's operands, the flags of
the lanes acted on are set in OVF_FLAGS, and nothing else changes. -/
def lanesComplete (o : LaneOp) : Prop :=
  ∀ (a : Args) (s : State) (g : Grp), s.IssuesPlain o.op a g →
    let s0 := s.opened o.op a g
    ∃ r, Completes (Instr.ofOp o.op a) a g s r ∧
      State.WroteD s0 r a (Args.vec a) g (s0.actedOf a) (fun m l => (o.f a (laneOf o a s0 g m l)).1)
        (fun m => flagsOf a (s0.actedOf a m) fun l =>
          (o.f a (laneOf o a s0 g (if a.scope = .warp then leaderOf g else m.1) l)).2)

end Sys2Proof.Claims

/-- Integer arithmetic completes with its result and frame, at every scope and operand form (R110, R111, R117). -/
def Sys2Proof.Claims.integerArithmetic : Prop := ∀ o ∈ Claims.arithOps, Claims.lanesComplete o

/-- Operations on bits complete with their result and frame (R110, R111, R116). -/
def Sys2Proof.Claims.integerBits : Prop := ∀ o ∈ Claims.bitOps, Claims.lanesComplete o

/-- Moves, immediates, address arithmetic, the wide product, the integer dot product and `SUBSW`
complete with their result and frame (R111, R114, R115, R118, R148). -/
def Sys2Proof.Claims.integerMoves : Prop :=
  (∀ o ∈ Claims.moveOps, Claims.lanesComplete o) ∧
  Claims.lanesComplete ⟨.subsw, fun a => srcB a (immOff a), fun a x => (subswWord a.ty x.a x.b, 0)⟩

/-- Floating-point instructions complete with their result, their flags and frame (R130 to R139). -/
def Sys2Proof.Claims.floatLanes : Prop := ∀ o ∈ Claims.floatOps, Claims.lanesComplete o

/-- R110, R111, R114 to R118, R130 to R139, R148: every elementwise integer and floating-point instruction completes
with its result, its flags and its frame, at every scope and operand form. What the rules leave to be read, or open, is
the model's choice, as notes/assumptions/9, notes/assumptions/16, notes/assumptions/40 (operand B of `SUBSW` under kind 0b11)
and notes/assumptions/41 (the NV flag of `FDOT`) say. -/
def Obligations.ElementwiseResults : Prop :=
  Claims.integerArithmetic ∧ Claims.integerBits ∧ Claims.integerMoves ∧ Claims.floatLanes

/-! ## What integer instructions compute (R111, R117) -/

namespace Sys2Proof.Claims

/-- The exact integer of Table 5.3 for elements a, b, c of width w. -/
def exactInt (o : Op) (w : Nat) (a b c : Int) : Int :=
  match o with
  | .add => a + b
  | .sub => a - b
  | .mul => a * b
  | .mulh => (a * b) / (2 ^ w : Nat)
  | .mad => a * b + c
  | .min => min a b
  | .max => max a b
  | _ => |a - b|

/-- Bit j of the result of Table 5.3 for a shift, a rotation or a reversal of element a, of width w, by b. -/
def shiftedBit (o : Op) (w a b j : Nat) : Bool :=
  match o with
  | .shl => b ≤ j && a.testBit (j - b)
  | .shr => j + b < w && a.testBit (j + b)
  | .sar => a.testBit (min (j + b) (w - 1))
  | .rot => a.testBit ((j + (w - b % w)) % w)
  | _ => a.testBit (w - 1 - j)

/-- Operand A, B or C of a lane as the instruction reads it in state s. -/
def inA (s : State) (a : Args) (g : Grp) (m l : Nat) : Word := s.val (leaderOf g) m l (srcA a)
def inB (s : State) (a : Args) (g : Grp) (m l : Nat) : Word := s.val (leaderOf g) m l (srcB a (immElems a.ty a.imm))
def inC (s : State) (a : Args) (g : Grp) (m l : Nat) : Word := s.val (leaderOf g) m l (srcC a)

/-- Element i of operand A, as bits. -/
def bitsA (s : State) (a : Args) (g : Grp) (m l i : Nat) : Nat := elemAt (inA s a g m l) a.ty.width i

/-- An instruction completes with a result whose every lane satisfies `P`, raising no flag and changing nothing else. -/
def integerResult (o : Op) (P : State → Args → Grp → Nat → Nat → Word → Prop) : Prop :=
  ∀ (a : Args) (s : State) (g : Grp), s.IssuesPlain o a g →
    ∃ r f, Completes (Instr.ofOp o a) a g s r ∧
      State.WroteD (s.opened o a g) r a (Args.vec a) g ((s.opened o a g).actedOf a) f (fun _ => 0) ∧
      ∀ m l, P s a g m l (f m l)

end Sys2Proof.Claims

/-- R111 for the arithmetic of Table 5.3: every element of D is the exact result of the elements of the operands, fitted
into TYPE: clamped with SAT where the table allows it, else wrapped. -/
def Obligations.IntegerElements : Prop :=
  ∀ o ∈ [Op.add, .sub, .mul, .mulh, .mad, .min, .max, .absd], Claims.integerResult o fun s a g m l x =>
    ∀ i < a.ty.count, elemAt x a.ty.width i =
      fitInt a.ty (a.sat && (rowOf o 0).sat) (Claims.exactInt o a.ty.width
        (intElem a.ty (Claims.inA s a g m l) i) (intElem a.ty (Claims.inB s a g m l) i)
        (intElem a.ty (Claims.inC s a g m l) i))

/-- R111 for the shifts, the rotation and the reversal of Table 5.3, bit by bit; `BREV` has no operand B. -/
def Obligations.ShiftBits : Prop :=
  ∀ o ∈ [Op.shl, .shr, .sar, .rot, .brev], Claims.integerResult o fun s a g m l x =>
    ∀ i < a.ty.count, ∀ j < a.ty.width, (elemAt x a.ty.width i).testBit j =
      Claims.shiftedBit o a.ty.width (Claims.bitsA s a g m l i) (elemAt (Claims.inB s a g m l) a.ty.width i) j

/-- R117: division by zero gives all ones and the dividend as remainder, and the lowest number divided by −1 gives the
lowest number, or with SAT the highest, and remainder 0; otherwise the quotient is truncated toward zero. -/
def Obligations.DivideRemainder : Prop :=
  (Claims.integerResult .div fun s a g m l x => ∀ i < a.ty.count,
    let p := intElem a.ty (Claims.inA s a g m l) i
    let q := intElem a.ty (Claims.inB s a g m l) i
    (q = 0 → elemAt x a.ty.width i = 2 ^ a.ty.width - 1) ∧
    (q = -1 → EType.signedInt a.ty = true → p = -(2 ^ (a.ty.width - 1) : Nat) →
      elemAt x a.ty.width i = if a.sat then 2 ^ (a.ty.width - 1) - 1 else 2 ^ (a.ty.width - 1)) ∧
    (q ≠ 0 → ¬(q = -1 ∧ p = -(2 ^ (a.ty.width - 1) : Nat)) →
      (elemAt x a.ty.width i : Int) = Int.tdiv p q % (2 ^ a.ty.width : Nat))) ∧
  (Claims.integerResult .rem fun s a g m l x => ∀ i < a.ty.count,
    let p := intElem a.ty (Claims.inA s a g m l) i
    let q := intElem a.ty (Claims.inB s a g m l) i
    (q = 0 → elemAt x a.ty.width i = Claims.bitsA s a g m l i) ∧
    (q ≠ 0 → (elemAt x a.ty.width i : Int) = (p - q * Int.tdiv p q) % (2 ^ a.ty.width : Nat)))

/-! ## Comparison, selection, cross-lane and predicate instructions -/

namespace Sys2Proof.Claims

/-- A lane written whole, or in the sub-element that SUB selects (R142). -/
def laneWritten (sub : BitVec 4) (old x : Word) : Word :=
  match subElem sub with
  | none => x
  | some (w, i) => setElem old w i (x.toNat % 2 ^ w)

/-- A comparison completes: pD holds the relation in the lanes acted on and its old bits elsewhere, or all ones or zero at
warp scope; the flags of the comparison are set; p0 stays all ones. -/
def compareComplete (o : Op) (rel : Args → LaneIn → Bool × Nat) : Prop :=
  ∀ (a : Args) (s : State) (g : Grp), s.IssuesPlain o a g →
    let s0 := s.opened o a g
    let x (m l : Nat) : Bool × Nat := rel a (s0.laneIn a (srcA a) (srcB a 0) ⟨.x, 0, 0⟩ (leaderOf g) m l)
    ∃ r pv fl, Completes (Instr.ofOp o a) a g s r ∧ State.WroteP s0 r a.d.toNat g pv fl ∧
      (a.scope = .warp → ∀ m ∈ g, pv m = (if (x (leaderOf g) 0).1 then BitVec.allOnes 32 else 0) ∧
        fl m = BitVec.ofNat 64 (x (leaderOf g) 0).2) ∧
      (a.scope ≠ .warp → ∀ m ∈ g,
        (∀ j < 32, (pv m).getLsbD j =
          if j ∈ s0.actedOf a m then (x m.1 j).1 else ((s0.warp m.1).pget a.d.toNat).getLsbD j) ∧
        fl m = BitVec.ofNat 64 ((s0.actedOf a m).foldl (fun acc l => acc ||| (x m.1 l).2) 0))

/-- A cross-lane move completes: each lane acted on takes the value at its source index of the concatenated register,
zero where the index is not below N. -/
def laneMoveComplete (o : Op) (poison : Args → State → Grp → Option Trap) (idx : Args → State → Grp → Nat → Nat) : Prop :=
  ∀ (a : Args) (s : State) (g : Grp), s.Issues o a (poison a) g →
    let s0 := s.opened o a g
    ∃ r, Completes (Instr.ofOp o a) a g s r ∧
      State.WroteD s0 r a true g (s0.actedOf a)
        (fun m l =>
          let j := idx a s0 g (s0.xbase g a m + l)
          laneWritten a.sub ((s0.warp m).vget a.d.toNat l) (if j < s0.xlanes g a then selSub a.sub (s0.xval g a j) else 0))
        (fun _ => 0)

end Sys2Proof.Claims

/-- R112, R133: `CMP` and `FCMP` write their relation into pD, with p0 discarding the write (R52). -/
def Sys2Proof.Claims.compare : Prop :=
  Claims.compareComplete .cmp (fun a x => (cmpRel a.ty a.func.toNat x.a x.b, 0)) ∧ Claims.compareComplete .fcmp fcmpRel

/-- R113: `SEL` writes every lane of EXEC, from A where its predicate is set and from B elsewhere. -/
def Sys2Proof.Claims.select : Prop :=
  ∀ (a : Args) (s : State) (g : Grp),
    s.Issues .sel a (fun s g => s.srcTraps g (fun m => lanesOf m.2) (namedOpnds (rowOf .sel 0) a)) g →
    let s0 := s.opened .sel a g
    ∃ r, Completes (.sel a) a g s r ∧
      State.WroteD s0 r a true g (fun m => lanesOf m.2)
        (fun m l => s0.val (leaderOf g) m l
          (if ((s0.warp m).pred a.p.toNat a.pn).getLsbD l then srcA a else srcB a 0))
        (fun _ => 0)

/-- R143: `LSHUF` takes the lane that B names, `LROT` the lane k below it modulo N, `LBC` lane k. -/
def Obligations.CrossLaneMoves : Prop :=
  Claims.laneMoveComplete .lshuf
    (fun a s g => s.xpoison g a .lshuf ((s.xacted g a).map (s.shufIdx g a)) (s.xacted g a)) (fun a s g L => (s.xB g a (immOff a) L).toNat % 2 ^ 16) ∧
  Claims.laneMoveComplete .lrot
    (fun a s g => s.xpoison g a .lrot ((s.xacted g a).map (s.rotIdx g a)) ((s.xacted g a).take 1))
    (fun a s g L => (((L : Int) - (s.xK g a (immOff a)).toInt) % (s.xlanes g a : Int)).toNat) ∧
  Claims.laneMoveComplete .lbc
    (fun a s g => s.xpoison g a .lbc (if (s.xacted g a).isEmpty then [] else [s.bcIdx g a]) ((s.xacted g a).take 1))
    (fun a s g _ => (s.xK g a (a.imm.setWidth 64)).toNat)

/-- R144, R145: `LRED` writes the reduction of the lanes acted on to each of them, or once to a scalar D; `LSCAN` writes
the prefix of each lane acted on; both set the flags raised in every member. What the rules leave to be read, or open,
is as notes/assumptions/41 says. -/
def Obligations.Reductions : Prop :=
  (∀ (a : Args) (s : State) (g : Grp), s.IssuesPlain .lred a g →
    let s0 := s.opened .lred a g
    let x := s0.lredWord g a
    ∃ r, Completes (.lred a) a g s r ∧
      State.WroteD s0 r a (a.kd == .v) g (s0.actedOf a)
        (fun m l => if a.kd = .v then Claims.laneWritten a.sub ((s0.warp m).vget a.d.toNat l) x.1 else scalarRed a x.1)
        (fun _ => BitVec.ofNat 64 x.2)) ∧
  (∀ (a : Args) (s : State) (g : Grp), s.IssuesPlain .lscan a g →
    let s0 := s.opened .lscan a g
    let ps := s0.xacted g a
    let x := scanWords a (s0.warp (leaderOf g)).fpmode (ps.map fun L => selSub a.sub (s0.xval g a L))
    ∃ r, Completes (.lscan a) a g s r ∧
      State.WroteD s0 r a true g (s0.actedOf a)
        (fun m l => Claims.laneWritten a.sub ((s0.warp m).vget a.d.toNat l)
          (((ps.zip x.1).find? fun e => e.1 == s0.xbase g a m + l).elim 0 (·.2)))
        (fun _ => BitVec.ofNat 64 x.2))

/-- R146, R147: `BALLOT` writes the 64 bits of group g that say which lanes acted on hold a non-zero value; `VOTE` writes
all ones or zero to pD of every member. -/
def Sys2Proof.Claims.ballotVote : Prop :=
  (∀ (a : Args) (s : State) (g : Grp), s.IssuesPlain .ballot a g →
    let s0 := s.opened .ballot a g
    a.imm.toNat < (s0.xlanes g a + 63) / 64 →
    ∃ r x, Completes (.ballot a) a g s r ∧
      State.WroteD s0 r a (a.kd == .v) g (s0.actedOf a) (fun _ _ => x) (fun _ => 0) ∧
      ∀ j < 64, x.getLsbD j =
        ((64 * a.imm.toNat + j ∈ s0.xacted g a) && selSub a.sub (s0.xval g a (64 * a.imm.toNat + j)) != 0)) ∧
  (∀ (a : Args) (s : State) (g : Grp), s.IssuesPlain .vote a g →
    let s0 := s.opened .vote a g
    ∃ r, Completes (.vote a) a g s r ∧
      State.WroteP s0 r a.d.toNat g
        (fun _ => if voteHolds a.func.toNat ((s0.xacted g a).map fun L => selSub a.sub (s0.xval g a L))
          then BitVec.allOnes 32 else 0) (fun _ => 0))

/-- R150: `PLOG` combines predicates; `PMOV` moves between predicates, scalars, EXEC and the live mask, and narrows EXEC to
the live lanes; `PCNT` counts the set bits, or finds the first or the last, 32 where there is none. -/
def Sys2Proof.Claims.predicateMoves : Prop :=
  (∀ (a : Args) (s : State) (g : Grp), s.IssuesPlain .plog a g →
    let s0 := s.opened .plog a g
    ∃ r, Completes (.plog a) a g s r ∧
      State.WroteP s0 r a.d.toNat g
        (fun m => plogMask a.func.toNat ((s0.warp m.1).pget a.a.toNat) ((s0.warp m.1).pget a.b.toNat)) (fun _ => 0)) ∧
  (∀ (a : Args) (s : State) (g : Grp), s.IssuesPlain .pmov a g → a.scope = .warp →
    let s0 := s.opened .pmov a g
    let x := s0.warp (leaderOf g)
    (∀ m, (a.func = 0 ∧ m = x.pget a.a.toNat) ∨ (a.func = 1 ∧ m = (x.sget a.a.toNat).setWidth 32) ∨
        (a.func = 3 ∧ m = x.exec) ∨ (a.func = 4 ∧ m = x.live) →
      ∃ r, Completes (.pmov a) a g s r ∧ State.WroteP s0 r a.d.toNat g (fun _ => m) (fun _ => 0)) ∧
    (a.func = 2 → ∃ r, Completes (.pmov a) a g s r ∧
      State.WroteD s0 r { a with kd := .s } false g (s0.actedOf a) (fun _ _ => (x.pget a.a.toNat).setWidth 64) (fun _ => 0)) ∧
    (a.func = 5 → x.pget a.a.toNat &&& x.live ≠ 0 → ∃ r, Completes (.pmov a) a g s r ∧
      State.Warps s0 r g fun _ w => { w with exec := x.pget a.a.toNat &&& x.live })) ∧
  (∀ (a : Args) (s : State) (g : Grp), s.IssuesPlain .pcnt a g → a.scope = .warp →
    let s0 := s.opened .pcnt a g
    ∃ r, Completes (.pcnt a) a g s r ∧
      State.WroteD s0 r { a with kd := .s } false g (s0.actedOf a)
        (fun _ _ => BitVec.ofNat 64 (pcntWord a.func.toNat ((s0.warp (leaderOf g)).pget a.a.toNat))) (fun _ => 0))

/-- R112, R113, R133: comparisons write their predicate, and `SEL` selects by one, each completing with its frame. -/
def Obligations.CompareSelect : Prop :=
  Claims.compare ∧ Claims.select

/-- R146, R147, R150: ballots, votes, and the operations on predicates complete with their result and frame. -/
def Obligations.PredicateResults : Prop :=
  Claims.ballotVote ∧ Claims.predicateMoves

/-! ## Control -/

namespace Sys2Proof.Claims

/-- The state of warp w changed by f. -/
def withWarp (s : State) (w : Nat) (f : Warp → Warp) : State := s.modWarp w f

/-- An instruction of the current warp ends with control at p, its results standing as in r. -/
def jumpsTo (i : Instr) (s r : State) (p : Word) : Prop := ∃ t, exec i s = .next t ∧ State.Jumped r t s.cur p

/-- An instruction raises a trap with none of its effect (R346). -/
def traps (i : Instr) (o : Op) (a : Args) (s : State) (x : Trap) : Prop :=
  exec i s = .next (State.finish s.cur s.alone o a (.trap (s.stood o a s.alone) x))

/-- After a step of structured control that leaves r: where EXEC is not zero, `P`; where it is zero and the warp settles
(R38), the settled state with the instruction accounted. -/
def settles (i : Instr) (o : Op) (a : Args) (s r : State) (P : Prop) : Prop :=
  ((r.warp s.cur).exec ≠ 0 → P) ∧
  (∀ r', (r.warp s.cur).exec = 0 → r.settle s.cur = (r', none) → exec i s = .next (s.movedTo r' o a))

/-- A token that lanes c leave (R37). -/
def leftBy (c : Mask) (k : Token) : Token := { k with saved := k.saved &&& ~~~c, pend := k.pend &&& ~~~c }

/-- The EXEC lanes exit (R37): they leave the live mask and every token, in a handler those of the saved stack too (R343), and
the warp settles; in a handler whose stack is empty it goes on with the lanes that are live. -/
def exits (i : Instr) (o : Op) (a : Args) (s : State) : Prop :=
  let s0 := s.opened o a s.alone
  let x := s0.warp s.cur
  let s1 := s0.modWarp s.cur fun y =>
    { y with live := y.live &&& ~~~x.exec, toks := y.toks.map (·.clear x.exec),
             savedToks := y.savedToks.map (·.clear x.exec), exec := 0 }
  (∀ r', ¬(x.inHandler = true ∧ x.toks = [] ∧ x.live &&& ~~~x.exec ≠ 0) → s1.settle s.cur = (r', none) →
    exec i s = .next (s.movedTo r' o a)) ∧
  (x.inHandler = true → x.toks = [] → x.live &&& ~~~x.exec ≠ 0 →
    Completes i a s.alone s (s1.setExec s.cur (x.live &&& ~~~x.exec)))

end Sys2Proof.Claims

open Claims in
/-- R103 to R106, R101, R62: `NOP` changes nothing; `BRA` jumps where its condition covers EXEC, goes on where it covers no
lane, and raises illegal-convergence where it diverges; `BRC` tests OVF_FLAGS or an operand; `JMPI` goes to an operand;
`YIELD` marks its warp. Control moves only to an aligned address. -/
def Obligations.Branches : Prop :=
  (∀ (a : Args) (s : State) (g : Grp), s.IssuesPlain .nop a g → Completes (.nop a) a g s (s.opened .nop a g)) ∧
  (∀ (a : Args) (s : State), s.IssuesPlain .yield a s.alone →
    Completes (.yield a) a s.alone s ((s.opened .yield a s.alone).modWarp s.cur fun w => { w with yielded := true })) ∧
  (∀ (a : Args) (s : State), s.IssuesPlain .bra a s.alone →
    let s0 := s.opened .bra a s.alone
    let x := s0.warp s.cur
    let c := condMask x a
    (c = x.exec → target a x.pc &&& 3 = 0 → jumpsTo (.bra a) s s0 (target a x.pc)) ∧
    (c ≠ x.exec → c = 0 → Completes (.bra a) a s.alone s s0) ∧
    (c ≠ x.exec → c ≠ 0 → traps (.bra a) .bra a s { code := 0x03, detail := 0x02 })) ∧
  (∀ (a : Args) (s : State), s.IssuesPlain .brcFlag a s.alone →
    let s0 := s.opened .brcFlag a s.alone
    let x := s0.warp s.cur
    s0.flagsWait s.cur = false →
    (brcFlagTaken a.p.toNat x.ovf = true → target a x.pc &&& 3 = 0 → jumpsTo (.brcFlag a) s s0 (target a x.pc)) ∧
    (brcFlagTaken a.p.toNat x.ovf = false → Completes (.brcFlag a) a s.alone s s0)) ∧
  (∀ (a : Args) (s : State), s.IssuesPlain .brcReg a s.alone →
    let s0 := s.opened .brcReg a s.alone
    let x := s0.warp s.cur
    let y := s0.sval s.alone (srcA a)
    (brcRegTaken a.p.toNat y = true → target a x.pc &&& 3 = 0 → jumpsTo (.brcReg a) s s0 (target a x.pc)) ∧
    (brcRegTaken a.p.toNat y = false → Completes (.brcReg a) a s.alone s s0)) ∧
  (∀ (a : Args) (s : State), s.IssuesPlain .jmpi a s.alone →
    let s0 := s.opened .jmpi a s.alone
    let p := s0.sval s.alone (srcA a)
    (p &&& 3 = 0 → jumpsTo (.jmpi a) s s0 p) ∧ (p &&& 3 ≠ 0 → traps (.jmpi a) .jmpi a s ⟨0x12, 0, p⟩))

open Claims in
/-- R37, R107: `IF` pushes its token with the mask before it, runs the lanes of its condition first, and goes to the else
path with every lane where the condition holds in none; `ELSE` runs the pending lanes, or restores the mask, pops the
token and jumps to the join; `ENDIF` restores the mask and pops the token. -/
def Obligations.IfElse : Prop :=
  (∀ (a : Args) (s s1 : State), s.IssuesPlain .ifc a s.alone →
    let s0 := s.opened .ifc a s.alone
    let x := s0.warp s.cur
    let c := condMask x a
    let aux := nearTarget a x.pc
    let join := if hasLit a then litTarget a x.pc else aux + 4
    aux &&& 3 = 0 → join &&& 3 = 0 →
    s0.pushTok s.cur { kind := .ifTok, join, aux, saved := x.exec, pend := if c = 0 then 0 else x.exec &&& ~~~c,
                       brk := 0, cont := 0 } = (s1, none) →
    (c ≠ 0 → Completes (.ifc a) a s.alone s (s1.setExec s.cur c)) ∧
    (c = 0 → jumpsTo (.ifc a) s (s1.setExec s.cur x.exec) aux)) ∧
  (∀ (a : Args) (s s1 : State) (k : Token) (ks : List Token), s.IssuesPlain .elsec a s.alone →
    let s0 := s.opened .elsec a s.alone
    (s0.warp s.cur).toks = k :: ks → k.kind = .ifTok →
    (k.pend ≠ 0 → k.aux &&& 3 = 0 →
      jumpsTo (.elsec a) s (s0.modWarp s.cur fun w => { w with toks := { k with pend := 0 } :: ks, exec := k.pend })
        k.aux) ∧
    (k.pend = 0 → k.join &&& 3 = 0 → (s0.setExec s.cur k.saved).popTok s.cur = (s1, none) →
      settles (.elsec a) .elsec a s (s1.jump s.cur k.join) (jumpsTo (.elsec a) s s1 k.join))) ∧
  (∀ (a : Args) (s s1 : State) (k : Token) (ks : List Token), s.IssuesPlain .endif a s.alone →
    let s0 := s.opened .endif a s.alone
    (s0.warp s.cur).toks = k :: ks → k.kind = .ifTok → (s0.setExec s.cur k.saved).popTok s.cur = (s1, none) →
    settles (.endif a) .endif a s s1 (Completes (.endif a) a s.alone s s1))

open Claims in
/-- R37, R107: `LOOP` pushes its token; `BREAK` and `CONT` move the lanes of their condition out of EXEC and of every IF
token above the nearest LOOP token, into its break or its continue mask; `ENDLOOP` repeats the body for the lanes that
stay, or pops the token and goes on with the lanes that left. That `BREAK` and `CONT` reach tokens which have been spilled is
the model's reading (notes/assumptions/10). -/
def Obligations.Loops : Prop :=
  (∀ (a : Args) (s s1 : State), s.IssuesPlain .loopc a s.alone →
    let s0 := s.opened .loopc a s.alone
    let x := s0.warp s.cur
    target a x.pc &&& 3 = 0 →
    s0.pushTok s.cur { kind := .loopTok, join := target a x.pc, aux := x.pc + BitVec.ofNat 64 (argBytes a),
                       saved := x.exec, pend := 0, brk := 0, cont := 0 } = (s1, none) →
    Completes (.loopc a) a s.alone s s1) ∧
  (∀ (a : Args) (s s1 : State), s.IssuesPlain .brk a s.alone →
    let s0 := s.opened .brk a s.alone
    let c := condMask (s0.warp s.cur) a
    s0.onToks s.cur (leaveToLoop c fun k => { k with brk := k.brk ||| c }) = (s1, .ok true) →
    let r := s1.modWarp s.cur fun w => { w with exec := (s1.warp s.cur).exec &&& ~~~c }
    settles (.brk a) .brk a s r (Completes (.brk a) a s.alone s r)) ∧
  (∀ (a : Args) (s : State) (k : Token) (above below : List Token), s.IssuesPlain .brk a s.alone →
    let s0 := s.opened .brk a s.alone
    let c := condMask (s0.warp s.cur) a
    (s0.warp s.cur).toks = above ++ k :: below → (∀ j ∈ above, j.kind = .ifTok) → k.kind = .loopTok →
    let r := s0.modWarp s.cur fun w =>
      { w with toks := above.map (leftBy c) ++ { k with brk := k.brk ||| c } :: below, exec := w.exec &&& ~~~c }
    settles (.brk a) .brk a s r (Completes (.brk a) a s.alone s r)) ∧
  (∀ (a : Args) (s s1 : State), s.IssuesPlain .cont a s.alone →
    let s0 := s.opened .cont a s.alone
    let c := condMask (s0.warp s.cur) a
    s0.onToks s.cur (leaveToLoop c fun k => { k with cont := k.cont ||| c }) = (s1, .ok true) →
    let r := s1.modWarp s.cur fun w => { w with exec := (s1.warp s.cur).exec &&& ~~~c }
    settles (.cont a) .cont a s r (Completes (.cont a) a s.alone s r)) ∧
  (∀ (a : Args) (s : State) (k : Token) (above below : List Token), s.IssuesPlain .cont a s.alone →
    let s0 := s.opened .cont a s.alone
    let c := condMask (s0.warp s.cur) a
    (s0.warp s.cur).toks = above ++ k :: below → (∀ j ∈ above, j.kind = .ifTok) → k.kind = .loopTok →
    let r := s0.modWarp s.cur fun w =>
      { w with toks := above.map (leftBy c) ++ { k with cont := k.cont ||| c } :: below, exec := w.exec &&& ~~~c }
    settles (.cont a) .cont a s r (Completes (.cont a) a s.alone s r)) ∧
  (∀ (a : Args) (s s1 : State) (k : Token) (ks : List Token), s.IssuesPlain .endloop a s.alone →
    let s0 := s.opened .endloop a s.alone
    let x := s0.warp s.cur
    let c := condMask x a
    x.toks = k :: ks → k.kind = .loopTok →
    (c ||| k.cont ≠ 0 → k.aux &&& 3 = 0 →
      jumpsTo (.endloop a) s (s0.modWarp s.cur fun w =>
        { w with toks := { k with brk := k.brk ||| (x.exec &&& ~~~c), cont := 0 } :: ks, exec := c ||| k.cont }) k.aux) ∧
    (c ||| k.cont = 0 → (s0.setExec s.cur (k.brk ||| (x.exec &&& ~~~c))).popTok s.cur = (s1, none) →
      settles (.endloop a) .endloop a s s1 (Completes (.endloop a) a s.alone s s1)))

open Claims in
/-- R37, R343: `CALL` pushes its token with the return address and jumps; `RET` marks the EXEC lanes on the nearest CALL token,
clears them from every token above it, and settles, or without a CALL token behaves as `EXIT`; `EXIT` takes the EXEC lanes out
of the live mask and of every token, and settles; in a handler whose stack is empty, the warp goes on with the lanes that are
live. That `RET` reaches tokens which have been spilled is the model's reading (notes/assumptions/10). -/
def Obligations.CallReturnExit : Prop :=
  (∀ (a : Args) (s s1 : State), s.IssuesPlain .call a s.alone →
    let s0 := s.opened .call a s.alone
    let x := s0.warp s.cur
    target a x.pc &&& 3 = 0 →
    s0.pushTok s.cur { kind := .callTok, join := x.pc + BitVec.ofNat 64 (argBytes a), aux := 0, saved := x.exec, pend := 0,
                       brk := 0, cont := 0 } = (s1, none) →
    jumpsTo (.call a) s s1 (target a x.pc)) ∧
  (∀ (a : Args) (s s1 r' : State), s.IssuesPlain .ret a s.alone →
    let s0 := s.opened .ret a s.alone
    s0.onToks s.cur (returnToCall (s0.warp s.cur).exec) = (s1, .ok true) → (mfind s1.warps s.cur).isSome →
    (s1.setExec s.cur 0).settle s.cur = (r', none) →
    exec (.ret a) s = .next (s.movedTo r' .ret a)) ∧
  (∀ (a : Args) (s r' : State) (k : Token) (above below : List Token), s.IssuesPlain .ret a s.alone →
    let s0 := s.opened .ret a s.alone
    let x := s0.warp s.cur
    x.toks = above ++ k :: below → (∀ j ∈ above, j.kind ≠ .callTok) → k.kind = .callTok →
    (s0.modWarp s.cur fun w =>
      { w with toks := above.map (·.clear x.exec) ++ { k with pend := k.pend ||| x.exec } :: below, exec := 0 }).settle s.cur =
      (r', none) →
    exec (.ret a) s = .next (s.movedTo r' .ret a)) ∧
  (∀ (a : Args) (s s1 r' : State), s.IssuesPlain .ret a s.alone →
    let s0 := s.opened .ret a s.alone
    s0.onToks s.cur (returnToCall (s0.warp s.cur).exec) = (s1, .ok false) → (s0.warp s.cur).late = none →
    s1.exitLanes s.cur = .moved r' → exec (.ret a) s = .next (s.movedTo r' .ret a)) ∧
  (∀ (a : Args) (s : State), s.IssuesPlain .ret a s.alone →
    let x := (s.opened .ret a s.alone).warp s.cur
    (∀ j ∈ x.toks, j.kind ≠ .callTok) → x.spilled = 0 ∨ x.inHandler = true → exits (.ret a) .ret a s) ∧
  (∀ (a : Args) (s : State), s.IssuesPlain .exit a s.alone → exits (.exit a) .exit a s)

/-- The lanes that wait in a token, and those that go on at its join once it is popped (R38). -/
def Sys2Proof.Claims.tokWaiting (k : Token) : Mask :=
  match k.kind with
  | .ifTok => k.pend | .loopTok => k.cont | .callTok => 0
def Sys2Proof.Claims.tokJoins (k : Token) : Mask :=
  match k.kind with
  | .ifTok => k.saved | .loopTok => k.brk | .callTok => k.pend

/-- R38, R108: a warp whose EXEC is zero goes on with the lanes that wait in its top token: those of the else path of an
IF token, those that continue a LOOP token; a token in which none waits is popped, and its lanes go on at its join, or where it
has none the warp looks at the token beneath; a warp with no live lane retires. -/
def Sys2Proof.Claims.settle : Prop :=
  ∀ (s : State) (w : Nat), (mfind s.warps w).isSome →
    let x := s.warp w
    (x.exec ≠ 0 → s.settle w = (s, none)) ∧
    (∀ k ks, x.exec = 0 → x.live ≠ 0 → x.toks = k :: ks → k.kind = .ifTok → k.pend ≠ 0 → k.aux &&& 3 = 0 →
      x.retired = false →
      s.settle w = ((s.modWarp w fun y => { y with exec := k.pend, toks := { k with pend := 0 } :: ks }).jump w k.aux, none)) ∧
    (∀ k ks, x.exec = 0 → x.live ≠ 0 → x.toks = k :: ks → k.kind = .loopTok → k.cont ≠ 0 → k.aux &&& 3 = 0 →
      x.retired = false →
      s.settle w = ((s.modWarp w fun y => { y with exec := k.cont, toks := { k with cont := 0 } :: ks }).jump w k.aux, none)) ∧
    (∀ k ks s1, x.exec = 0 → x.live ≠ 0 → x.toks = k :: ks → Claims.tokWaiting k = 0 → Claims.tokJoins k ≠ 0 →
      k.join &&& 3 = 0 → x.retired = false →
      (s.modWarp w fun y => { y with exec := Claims.tokJoins k, pc := k.join }).popTok w = (s1, none) →
      s.settle w = (({ s1 with warps := mins s1.warps w { s1.warp w with pc := x.pc } }).jump w k.join, none)) ∧
    (∀ k ks n, x.exec = 0 → x.live ≠ 0 → x.toks = k :: ks → Claims.tokWaiting k = 0 →
      s.settleLoop w (n + 1) =
        match (s.modWarp w fun y => { y with exec := Claims.tokJoins k, pc := k.join }).popTok w with
        | (s1, some e) => (s1, some e)
        | (s1, none) => s1.settleLoop w n) ∧
    (x.exec = 0 → x.live = 0 → ∃ r, s.settle w = (r, none) ∧ (r.warp w).retired = true)

/-- R40, R343: pushing a token onto a stack of fewer than 32 changes only that stack; onto a full one of 32 it first spills
the 8 oldest and lowers SSP by 256; a handler's stack holds 16, and pushing beyond that raises illegal-instruction with
DETAIL 0x01. -/
def Sys2Proof.Claims.pushToken : Prop :=
  ∀ (s : State) (w : Nat) (k : Token), (mfind s.warps w).isSome →
    let x := s.warp w
    (x.inHandler = false → x.toks.length < 32 →
      s.pushTok w k = (s.modWarp w fun y => { y with toks := k :: y.toks }, none)) ∧
    (x.inHandler = true → x.toks.length < 16 →
      s.pushTok w k = (s.modWarp w fun y => { y with toks := k :: y.toks }, none)) ∧
    (x.inHandler = true → 16 ≤ x.toks.length → s.pushTok w k = (s, some (illegal 0x01))) ∧
    (∀ s1 e, x.inHandler = false → 32 ≤ x.toks.length → s.locSpan w true (x.ssp - 256) 256 = (s1, .error e) →
      s.pushTok w k = (s1, some e)) ∧
    (∀ s1 ls, x.inHandler = false → 32 ≤ x.toks.length → s.locSpan w true (x.ssp - 256) 256 = (s1, .ok ls) →
      s.pushTok w k =
        ((((s1.store [w] 0 (x.ssp - 256) (ls.zip ((x.toks.drop 24).reverse.flatMap tokenImage))).modWarp w fun y =>
            { y with toks := y.toks.take 24, ssp := x.ssp - 256, spilled := y.spilled + 1 }).modWarp w fun y =>
            { y with toks := k :: y.toks }).endRun w, none))

/-- R40, R42, R343: popping a token lowers the stack by it; where that empties it and groups are spilled, the 8 tokens at SSP
are read back, the last image the new top, SSP rises by 256 and the count falls; an SSP that is no multiple of 32 or outside LOC
and every fault of the read trap, poison among the images traps at the first poisoned one, and an image of kind 0b11 raises
illegal-instruction. A handler's stack is never refilled. -/
def Sys2Proof.Claims.popToken : Prop :=
  ∀ (s : State) (w : Nat), (mfind s.warps w).isSome →
    let x := s.warp w
    let s0 := s.modWarp w fun y => { y with toks := y.toks.tail }
    (x.toks.tail ≠ [] ∨ x.spilled = 0 ∨ x.inHandler = true → s.popTok w = (s0, none)) ∧
    (x.toks.tail = [] → x.spilled ≠ 0 → x.inHandler = false →
      (x.ssp &&& 31 ≠ 0 → s.popTok w = (s0, some ⟨0x12, 0, x.ssp⟩)) ∧
      (x.ssp &&& 31 = 0 → spaceOf x.ssp ≠ 5 → s.popTok w = (s0, some ⟨0x13, 0, x.ssp⟩)) ∧
      (∀ s1 e, x.ssp &&& 31 = 0 → spaceOf x.ssp = 5 → s0.places w {} x.ssp 256 = (s1, .error e) →
        s.popTok w = (s1, some e.trap)) ∧
      (∀ s1 ps, x.ssp &&& 31 = 0 → spaceOf x.ssp = 5 → s0.places w {} x.ssp 256 = (s1, .ok ps) →
        let ls := memLocs ps
        let s2 := (s1.readNow w 0 ls).1
        let rd := (s1.readNow w 0 ls).2
        let image (i : Nat) : List Nat := (ls.drop (32 * i)).take 32
        (∀ i c, i < 8 → rd.poison (image i) = some c → (∀ j < i, rd.poison (image j) = none) →
          s.popTok w = (s2, some ⟨0x14, 16 * c, x.ssp + BitVec.ofNat 64 (32 * i)⟩)) ∧
        ((∀ i < 8, rd.poison (image i) = none) →
          (∀ i < 8, tokenOfImage x.live ((image i).map rd.byte) = none → s.popTok w = (s2, some (illegal 0x12))) ∧
          (∀ ks : List Token, ks.length = 8 →
            (∀ i < 8, tokenOfImage x.live ((image i).map rd.byte) = ks[7 - i]?) →
            s.popTok w = ((s2.modWarp w fun y =>
              { y with toks := ks, ssp := x.ssp + 256, spilled := x.spilled - 1 }).endRun w, none)))))

/-- R38, R40, R42, R108, R343: where a warp whose EXEC is zero settles, and how a token is pushed and popped. That the alignment
fault of SSP comes before its space fault is the model's choice (notes/assumptions/41). -/
def Obligations.TokenStack : Prop :=
  Claims.settle ∧ Claims.pushToken ∧ Claims.popToken
/-! ## Traps and system instructions -/

namespace Sys2Proof.Claims

/-- CAUSE, as Table 3.2 lays it out: CODE in bits 7:0, DETAIL in 15:8, ORIGIN in 20:16. -/
def causeOf (code detail origin : Nat) : Word := BitVec.ofNat 64 (code + 256 * detail + 65536 * origin)

/-- An instruction parks the warps of its group, in a state r. -/
def parks (i : Instr) (o : Op) (a : Args) (g : Grp) (s r : State) : Prop := exec i s = .next (s.parkedIn r g o a)

/-- A code written to scalar D of a system instruction, in a state r. -/
def answersIn (i : Instr) (a : Args) (g : Grp) (s r : State) (x : Word) : Prop :=
  ∃ t, Completes i a g s t ∧ r.WroteD t { a with kd := .s } false g (fun _ => []) (fun _ _ => x) (fun _ => 0)

/-- A writable special register: its instruction, its number, the values accepted, and the warp after the write. -/
structure Spr where
  op  : Op
  sel : Nat
  ok  : Word → Bool
  set : Word → Warp → Warp

/-- The special registers held per warp but EXEC, with the values that R56, R89, R97, R209 and R225 accept. -/
def sprs : List Spr := [
  ⟨.swr, 0x08, fun _ => true, fun x w => { w with ssp := x }⟩,
  ⟨.swr, 0x10, fun x => decide (x.toNat < 2 ^ 21), fun x w => { w with cause := x }⟩,
  ⟨.swr, 0x11, fun _ => true, fun x w => { w with epc := x }⟩,
  ⟨.swr, 0x12, fun _ => true, fun x w => { w with badaddr := x }⟩,
  ⟨.swrFpmode, 0x04, fpmodeOk, fun x w => { w with fpmode := x }⟩,
  ⟨.swrLossScale, 0x05, fun x => decide (x.toNat < 256), fun x w => { w with lossScale := x }⟩,
  ⟨.swrAshape, 0x07, ashapeOk, fun x w => { w with ashape := x }⟩]

end Sys2Proof.Claims

open Claims in
/-- R342: a trap that is not fatal sets CAUSE, EPC and BADADDR, saves EXEC and the token stack, and starts the handler that
TRAPVEC names with an empty stack on the live lanes; memory and every other warp are as reading TRAPVEC left them. -/
def Obligations.TrapEntry : Prop :=
  ∀ (s s1 : State) (w : Nat) (x : Trap) (epc h : Word) (origin : Nat), (mfind s1.warps w).isSome →
    (s.ctx (s.warp w).ctx).dead = false → (s.warp w).inHandler = false → s.readTrapVec w = (s1, some h) → h ≠ 0 →
    h &&& 3 = 0 → x.code < 256 → x.detail < 256 →
    let r := s.trapAt w x epc origin
    let y := s1.warp w
    r.warp w = { y with
      cause := causeOf x.code x.detail origin, epc := epc, badaddr := x.addr, savedExec := y.exec, savedToks := y.toks
      savedSpill := y.spilled, inHandler := true, hstart := s.clock, toks := [], spilled := 0, exec := y.live, pc := h
      park := .none, runCnt := 0, missed := false } ∧
    (∀ v, v ≠ w → r.warp v = s1.warp v) ∧ r.mem = s1.mem

open Claims in
/-- R341, R345, R350: a trap in a handler is the fatal double fault, which holds the inner CODE and address; one without
a handler is fatal with its own cause. A fatal trap stops its warp, sets its trap registers, and its context is to come
to rest; it does so, for ever, once the runs and the copies, near-bank operations and transforms of the context have
ended. What the rules leave to be read, or open, is as notes/assumptions/41 says. -/
def Obligations.FatalTrap : Prop :=
  ∀ (s : State) (w : Nat) (x : Trap) (epc : Word) (origin : Nat),
    (s.ctx (s.warp w).ctx).dead = false →
    ((s.warp w).inHandler = true →
      s.trapAt w x epc origin = s.fatalAt w ⟨0x31, x.code, x.addr⟩ (s.warp w).pc origin []) ∧
    (∀ s1 v, (s.warp w).inHandler = false → s.readTrapVec w = (s1, v) → (∀ h, v = some h → h = 0 ∨ h &&& 3 ≠ 0) →
      s.trapAt w x epc origin = s1.fatalAt w x epc origin []) ∧
    (∀ gone, (mfind s.warps w).isSome → (mfind s.ctxs (s.warp w).ctx).isSome →
      let r := s.fatalAt w x epc origin gone
      (r.warp w).stopped = true ∧ (r.warp w).cause = causeOf x.code x.detail origin ∧ (r.warp w).epc = epc ∧
      (r.warp w).badaddr = x.addr ∧
      r.ctx (s.warp w).ctx = { s.ctx (s.warp w).ctx with
        dead := true, freezing := !(s.ctx (s.warp w).ctx).frozen
        dying := some { w, clock := s.clock, timer := s.timer, cause := causeOf x.code x.detail origin, epc, badaddr := x.addr
                        core := s.coreOf w, slot := (s.warp w).slot, gone } }) ∧
    (∀ c d, (mfind s.ctxs c).isSome → (s.ctx c).dying = some d →
      let s1 := s.stopArrays c
      (((s1.warpsOf c).any s1.inRun = true ∨ s1.workDone c = false) → s.restCtx c = s1) ∧
      ((s1.warpsOf c).any s1.inRun = false → s1.workDone c = true →
        let r := (s.restCtx c).ctx c
        r.frozen = true ∧ r.dying = none ∧ r.log.getLast? = some (.fatalTrap d.cause)))

namespace Sys2Proof.Claims

/-- The current warp's instruction comes to its sources for a group: it passes the checks before, its budget lets it go, and no
member has a late trap due (R346, R306, R398). -/
structure ReachesSources (s : State) (o : Op) (a : Args) (g : Grp) : Prop where
  checks : s.precheck o a s.cur = .ok
  group  : (s.gather o a).2 = some g
  budget : (s.gather o a).1.budgetStalls (leaderOf g) a.ec = false
  late   : Args.together a = true → g.ws.filter (fun m => lateDue o a ((s.gather o a).1.warp m)) = []

/-- R346 (step 3), R368: an instruction whose first source operand that would trap is a marked register of the lanes acted on
takes the trap of that mark at its own address, with none of its effect: poison consumed with the address and the source class
of the marked unit, or a late fault of RMT or HST. It reads no register that a failed token stands in (R182). -/
def poisonConsumed : Prop :=
  ∀ (o : Op) (a : Args) (s : State) (g : Grp) (i : Nat) (q : Opnd) (k : Kind) (n : Nat) (x : Mark),
    o ∉ [Op.lshuf, .lrot, .lbc, .sel, .pushm, .popm, .xfftFwd, .xfftInv] → ReachesSources s o a g →
    let s0 := s.stood o a g
    let os := namedOpnds (rowOf o a.func.toNat) a
    os[i]? = some (q, k, n) → q.use ≠ .dst → q.cls ≠ .pred → s0.srcTraps g (s0.actedOf a) (os.take i) = none →
    (s0.warp (leaderOf g)).tokenErr = [] →
    (k = .s ∧ (s0.warp (leaderOf g)).smark n = some x ∨
      k = .v ∧ ∃ m ms, g = m :: ms ∧ (∃ l ∈ s0.actedOf a m, ((s0.warp m.1).vmark n l).isSome) ∧
        (s0.warp m.1).vmarkReg n = some x) →
    exec (Instr.ofOp o a) s = .next (State.finish s.cur g o a (.trap s0 ⟨x.code, x.detail, x.addr⟩))

/-- R398: a warp with a recorded late trap takes it where it comes to one of the trap's points, before any other check of that
instruction: for stores a `PHASE` that releases, a barrier's arrival, a `CSIG`, a `WAIT` that limits the store class, or
an exit of lanes; for the array an instruction of the array, a `PHASE`, a `WAIT` that limits the tile class, or an exit of
lanes. It is recorded no longer then. -/
def lateTaken : Prop :=
  ∀ (o : Op) (a : Args) (s : State) (l : LateTrap), (s.warp s.cur).late = some l →
    let leaves := o = .exit ∨
      (o = .ret ∧ (s.warp s.cur).spilled = 0 ∧ ∀ k ∈ (s.warp s.cur).toks, k.kind ≠ .callTok)
    (l.pt = .store ∧ (o ∈ [Op.barArv, .barMeet, .csig] ∨ o = .phase ∧ a.func ≠ 2 ∨ o = .wait ∧ a.a.toNat < 255 ∨ leaves) ∨
      l.pt = .array ∧ (o ∈ [Op.tshp, .wld, .mma, .smma, .tst, .tld, .tzero, .phase] ∨ o = .wait ∧ a.b.toNat < 255 ∨
        leaves)) →
    let r := s.trapAt s.cur ⟨l.code, l.detail, l.addr⟩ (s.warp s.cur).pc (s.warp s.cur).wid
    exec (Instr.ofOp o a) s = .next (r.modWarp s.cur fun x => { x with late := none })

end Sys2Proof.Claims

open Claims in
/-- R56, R76, R109, R346, R368, R398: `TRAP` takes the breakpoint trap with EPC past it and DETAIL from its immediate; a
reserved opcode takes illegal-instruction with DETAIL 0x01; a privileged instruction of a context without privilege takes it
with DETAIL 0x04; a marked source takes the trap of its mark; and a late trap is taken at its point. Which instructions are
such a point is as notes/assumptions/22 says. -/
def Obligations.TrapInstructions : Prop :=
  (∀ (a : Args) (s : State), s.IssuesPlain .trap a s.alone →
    let s0 := s.opened .trap a s.alone
    let x := s0.warp s.cur
    exec (.trap a) s = .next (s.movedTo (s0.trapAt s.cur ⟨0x20, a.imm.toNat % 256, 0⟩ (x.pc + BitVec.ofNat 64 (argBytes a))
      x.wid) .trap a)) ∧
  (∀ (w : IWord) (s : State), let r := s.trapAt s.cur ⟨0x01, 0x01, 0⟩ (s.warp s.cur).pc (s.warp s.cur).wid
    exec (.reservedOpcode w) s = .next r) ∧
  (∀ o ∈ [Op.tlbi, .ctxFreeze, .ctxSave, .ctxLoad, .halt, .swrEbudget, .swrTraceCtl], ∀ (a : Args) (s : State),
    (s.warp s.cur).late = none → (s.ctx (s.warp s.cur).ctx).crec.priv = false →
    (namedOpnds (rowOf o a.func.toNat) a).any (regBad (s.warp s.cur) (s.blk (s.warp s.cur).blk)) = false →
    let r := s.trapAt s.cur ⟨0x01, 0x04, 0⟩ (s.warp s.cur).pc (s.warp s.cur).wid
    exec (Instr.ofOp o a) s = .next (r.takeLate o a s.cur)) ∧
  poisonConsumed ∧ lateTaken

/-- R120, R25: `SRD` writes the special register that FUNC selects to D; LANEID is the lane's place in the concatenated
register. That every member of a set or block receives the value read for the leader is the model's reading
(notes/assumptions/41). -/
def Obligations.SpecialRead : Prop :=
  ∀ (a : Args) (s : State) (g : Grp), s.IssuesPlain .srd a g →
    let s0 := s.opened .srd a g
    ¬(a.func = 0x06 ∧ s0.flagsWait (leaderOf g) = true) →
    ∃ r, Completes (.srd a) a g s r ∧
      State.WroteD s0 r a (Args.vec a) g (s0.actedOf a)
        (fun m l =>
          if a.func = 0x24 ∧ a.scope ≠ .warp then
            BitVec.ofNat 64 (l + 32 * (if a.scope = .set then (s0.warp m).wid % (s0.blkOf (leaderOf g)).setw
              else if a.scope = .block then (s0.warp m).wid else 0))
          else s0.srdValue (leaderOf g) a.func.toNat)
        (fun _ => 0)

open Claims in
/-- R121, R56, R35, R97: `SWR` replaces a register held per warp where it accepts the value, and raises
illegal-instruction with DETAIL 0x13 where it does not. EXEC takes the value's live lanes, which may not be none. -/
def Sys2Proof.Claims.specialWrite : Prop :=
  (∀ e ∈ sprs, ∀ (a : Args) (s : State), s.IssuesPlain e.op a s.alone → a.func.toNat = e.sel →
    let s0 := s.opened e.op a s.alone
    let x := if a.ka = .v then immC a else s0.sval s.alone (srcA a)
    (e.ok x = true → Completes (Instr.ofOp e.op a) a s.alone s (s0.modWarp s.cur (e.set x))) ∧
    (e.ok x = false → traps (Instr.ofOp e.op a) e.op a s ⟨0x01, 0x13, 0⟩)) ∧
  (∀ (a : Args) (s : State), s.IssuesPlain .swrOvfFlags a s.alone →
    let s0 := s.opened .swrOvfFlags a s.alone
    let x := if a.ka = .v then immC a else s0.sval s.alone (srcA a)
    s0.flagsWait s.cur = false →
    (x &&& ~~~0x73F#64 = 0 →
      Completes (.swrOvfFlags a) a s.alone s (s0.modWarp s.cur fun w => { w with ovf := x })) ∧
    (x &&& ~~~0x73F#64 ≠ 0 → traps (.swrOvfFlags a) .swrOvfFlags a s ⟨0x01, 0x13, 0⟩)) ∧
  (∀ (a : Args) (s : State), s.IssuesPlain .swrExec a s.alone →
    let s0 := s.opened .swrExec a s.alone
    let x := if a.ka = .v then immC a else s0.sval s.alone (srcA a)
    let e := x.setWidth 32 &&& (s0.warp s.cur).live
    (x.toNat < 2 ^ 32 → e ≠ 0 →
      Completes (.swrExec a) a s.alone s (s0.modWarp s.cur fun w => { w with exec := e })) ∧
    (x.toNat < 2 ^ 32 → e = 0 → traps (.swrExec a) .swrExec a s ⟨0x01, 0x11, 0⟩) ∧
    (2 ^ 32 ≤ x.toNat → traps (.swrExec a) .swrExec a s ⟨0x01, 0x13, 0⟩))

open Claims in
/-- R121, R305, R57, R361: `SWR` of the registers held per context and per core. EBUDGET sets RATE and CAP of the context
and LEVEL of each of its cores, and refuses LEVEL above CAP; DUMP_BASE accepts zero and writable, 4 KiB aligned memory, and
raises the fault of any other value; TRACE_CTL takes its four control bits. Instructions of the same clock still read what each
held. That DUMP_BASE is checked for alignment, then space, then translation, and which spaces it refuses, is the model's reading
(notes/assumptions/41). -/
def Sys2Proof.Claims.sharedWrite : Prop :=
  (∀ (a : Args) (s : State), s.IssuesPlain .swrEbudget a s.alone →
    let s0 := s.opened .swrEbudget a s.alone
    let x := (if a.ka = .v then immC a else s0.sval s.alone (srcA a)).toNat
    (x % 2 ^ 24 ≤ x / 2 ^ 24 % 2 ^ 24 →
      let c := (s0.warp s.cur).ctx
      let s1 := s0.modCtx c fun k =>
        { k with ebRate := x / 2 ^ 48, ebCap := x / 2 ^ 24 % 2 ^ 24
                 ebWas := some (noteWas k.ebWas s0.clock (k.ebRate, k.ebCap)) }
      Completes (.swrEbudget a) a s.alone s
        ((s1.ctx c).crec.cores.foldl (fun t k => t.modCore k fun y =>
          { y with level := x % 2 ^ 24, levelWas := some (noteWas y.levelWas s0.clock y.level) }) s1)) ∧
    (x / 2 ^ 24 % 2 ^ 24 < x % 2 ^ 24 → traps (.swrEbudget a) .swrEbudget a s ⟨0x01, 0x13, 0⟩)) ∧
  (∀ (a : Args) (s : State), s.IssuesPlain .swrDumpBase a s.alone →
    let s0 := s.opened .swrDumpBase a s.alone
    let x := if a.ka = .v then immC a else s0.sval s.alone (srcA a)
    let set (r : State) : State := r.modCtx (r.warp s.cur).ctx fun c =>
      { c with dumpBase := x, dumpWas := some (noteWas c.dumpWas r.clock c.dumpBase) }
    (x = 0 → Completes (.swrDumpBase a) a s.alone s (set s0)) ∧
    (x.toNat % 4096 ≠ 0 → traps (.swrDumpBase a) .swrDumpBase a s ⟨0x12, 1, x⟩) ∧
    (x.toNat % 4096 = 0 → 3 < spaceOf x → traps (.swrDumpBase a) .swrDumpBase a s ⟨0x13, 1, x⟩) ∧
    (∀ s1 p, x ≠ 0 → x.toNat % 4096 = 0 → spaceOf x ≤ 3 → s0.place s.cur { write := true } x = (s1, .ok p) →
      (∀ w, (mfind s1.warps w).isSome = (mfind s0.warps w).isSome) →
      Completes (.swrDumpBase a) a s.alone s (set s1)) ∧
    (∀ s1 e, x ≠ 0 → x.toNat % 4096 = 0 → spaceOf x ≤ 3 → s0.place s.cur { write := true } x = (s1, .error e) →
      exec (.swrDumpBase a) s = .next (State.finish s.cur s.alone .swrDumpBase a
        (.trap ((s.stood .swrDumpBase a s.alone).keepErrors s1) e.trap)))) ∧
  (∀ (a : Args) (s : State), s.IssuesPlain .swrTraceCtl a s.alone →
    let s0 := s.opened .swrTraceCtl a s.alone
    let x := if a.ka = .v then immC a else s0.sval s.alone (srcA a)
    (x &&& ~~~0x1FF0000000F#64 = 0 →
      Completes (.swrTraceCtl a) a s.alone s (s0.modCore (s0.coreOf s.cur) fun c =>
        { c with traceCtl := x &&& 0xF, traceWas := some (noteWas c.traceWas s0.clock c.traceCtl) })) ∧
    (x &&& ~~~0x1FF0000000F#64 ≠ 0 → traps (.swrTraceCtl a) .swrTraceCtl a s ⟨0x01, 0x13, 0⟩))

open Claims in
/-- R125: `TRET` in a handler restores the saved token stack, and EXEC narrowed to the lanes still live, and goes to EPC,
or settles on that stack where none of them is live; outside a handler it raises illegal-instruction with DETAIL 0x14, and to a misaligned EPC an alignment fault. -/
def Obligations.TrapReturn : Prop :=
  ∀ (a : Args) (s : State), s.IssuesPlain .tret a s.alone →
    let s0 := s.opened .tret a s.alone
    let x := s0.warp s.cur
    (x.inHandler = true → x.epc &&& 3 = 0 → x.savedExec &&& x.live ≠ 0 →
      ∃ t, exec (.tret a) s = .next t ∧
        Warp.Kept { x with
          toks := x.savedToks, spilled := x.savedSpill, exec := x.savedExec &&& x.live, pc := x.epc, inHandler := false
          savedToks := [], savedExec := 0, savedSpill := 0 } (t.warp s.cur) ∧
        (∀ w, w ≠ s.cur → t.warp w = s0.warp w) ∧ t.mem = s0.mem) ∧
    (∀ r', x.inHandler = true → x.epc &&& 3 = 0 → x.savedExec &&& x.live = 0 →
      ((((s0.trace s.cur 3 x.epc).modWarp s.cur fun w =>
        { w with toks := w.savedToks, spilled := w.savedSpill, exec := 0, pc := w.epc, inHandler := false, savedToks := []
                 savedExec := 0, savedSpill := 0 }).endRun s.cur).rdvPause x.blk).settleBy s.cur
        (fun t p => (t.modWarp s.cur fun w => { w with pc := p }).endRun s.cur) = (r', none) →
      exec (.tret a) s = .next (s.movedTo r' .tret a)) ∧
    (x.inHandler = false → traps (.tret a) .tret a s ⟨0x01, 0x14, 0⟩) ∧
    (x.inHandler = true → x.epc &&& 3 ≠ 0 → traps (.tret a) .tret a s ⟨0x12, 0, x.epc⟩)

open Claims in
/-- R126: `SLEEP` parks its warp until TIMER reaches its value at issue and n ns more, and the warp then goes on past it;
`SLEEP` of 0 acts as `YIELD`. -/
def Sys2Proof.Claims.sleepWake : Prop :=
  (∀ (a : Args) (s : State), s.IssuesPlain .sleep a s.alone →
    let s0 := s.opened .sleep a s.alone
    let n := if a.ka = .v then immC a else s0.sval s.alone (srcA a)
    (n = 0 → Completes (.sleep a) a s.alone s
      (s0.modWarp s.cur fun w => { w with deadline := none, yielded := true })) ∧
    (n ≠ 0 → (s0.warp s.cur).deadline = none → parks (.sleep a) .sleep a s.alone s
      (s0.modWarp s.cur fun w => { w with deadline := none, park := .sleep (s0.timer + n.toNat) a }))) ∧
  (∀ (s : State) (w wake : Nat) (a : Args), (s.warp w).park = .sleep wake a → wake ≤ s.timer →
    s.waitKept w = false →
    exec (.sleepWake w) s = .next (s.modWarp w fun x =>
      { x with pc := x.pc + BitVec.ofNat 64 (argBytes a), park := .none }))

open Claims in
/-- R127, R123: `HALT` stops its core, on which no warp issues again; `TLBI` drops the cached translations that SUB selects,
once no access that may have used them is in flight; a `CWAIT` whose pinned line it unmaps keeps its line from then on for
1 ms at most (R378). -/
def Sys2Proof.Claims.haltTlbi : Prop :=
  (∀ (a : Args) (s : State), s.IssuesPlain .halt a s.alone →
    ∃ t, exec (.halt a) s = .next t ∧
      let s0 := s.opened .halt a s.alone
      let k := s0.coreOf s.cur
      (t.core k).halted = true ∧ (∀ j, j ≠ k → t.core j = s0.core j) ∧ t.mem = s0.mem ∧
      (∀ w, w ≠ s.cur → Warp.Kept (s0.warp w) (t.warp w)) ∧
      (t.warp s.cur).pc = (s0.warp s.cur).pc + BitVec.ofNat 64 (argBytes a)) ∧
  (∀ (a : Args) (s : State), s.IssuesPlain .tlbi a s.alone →
    let s0 := s.opened .tlbi a s.alone
    let p := s0.sval s.alone (srcA a)
    let c := (s0.sval s.alone (srcB a 0)).toNat
    s0.pend.any (s0.accessing · (tlbiCtx a.sub.toNat c)) = false → s0.actsLater (tlbiCtx a.sub.toNat c) = false →
    ∃ r, Completes (.tlbi a) a s.alone s r ∧
      r = { s0 with mem := r.mem, warps := r.warps } ∧
      r.mem = { s0.mem with tlb := r.mem.tlb } ∧
      (∀ e, e ∈ r.mem.tlb ↔ e ∈ s0.mem.tlb ∧ ¬(a.sub = 2 ∨ (e.ctx = c ∧ (a.sub = 1 ∨ p.toNat % 2 ^ 48 / e.size = e.vpage)))) ∧
      (∀ w, r.warp w = { s0.warp w with
        unmapAt := if s0.unmapsPin a.sub.toNat c (p.toNat % 2 ^ 48) (s0.warp w) = true
          then some ((s0.warp w).unmapAt.getD s0.timer) else (s0.warp w).unmapAt }))

open Claims in
/-- R124: `CTX` writes to D the code that refuses it, changing nothing else: 5 for its own context, 2 for none, 6 for
another operand of FREEZE, 7 to thaw a dead context, 1 to save one that is not frozen, 8 to load a resident one. A freeze
of stopped warps and idle engines, and a thaw, answer 0. -/
def Sys2Proof.Claims.contextControl : Prop :=
  (∀ o ∈ [Op.ctxFreeze, .ctxSave, .ctxLoad], ∀ (a : Args) (s : State), s.IssuesPlain o a s.alone →
    let s0 := s.opened o a s.alone
    let c := (s0.sval s.alone (srcA a)).toNat
    (c = (s0.warp s.cur).ctx → answersIn (Instr.ofOp o a) a s.alone s s0 5) ∧
    (c ≠ (s0.warp s.cur).ctx → mfind s0.ctxs c = none → answersIn (Instr.ofOp o a) a s.alone s s0 2)) ∧
  (∀ (a : Args) (s : State), s.IssuesPlain .ctxFreeze a s.alone →
    let s0 := s.opened .ctxFreeze a s.alone
    let c := (s0.sval s.alone (srcA a)).toNat
    let b := s0.sval s.alone (srcB a 0)
    c ≠ (s0.warp s.cur).ctx → (mfind s0.ctxs c).isSome →
    (b = 1 → (s0.ctx c).frozen = true → answersIn (.ctxFreeze a) a s.alone s s0 0) ∧
    (b = 1 → (s0.ctx c).frozen = false → s0.warpsStopped c = true → s0.enginesIdle c = true →
      ∃ s1, answersIn (.ctxFreeze a) a s.alone s s1 0 ∧ (s1.ctx c).frozen = true ∧
        (∀ w, Warp.Kept (s0.warp w) (s1.warp w)) ∧ s1.mem = s0.mem) ∧
    (b = 0 → (s0.ctx c).dead = true → answersIn (.ctxFreeze a) a s.alone s s0 7) ∧
    (b = 0 → (s0.ctx c).dead = false →
      ∃ s1, answersIn (.ctxFreeze a) a s.alone s s1 0 ∧ (s1.ctx c).frozen = false ∧ s1.mem = s0.mem ∧
        (∀ w, Warp.Kept { s0.warp w with age := (s1.warp w).age } (s1.warp w)) ∧
        ∀ w, (mfind s0.warps w).isSome → (s0.warp w).ctx = c → (s1.warp w).age = 0) ∧
    (b ≠ 1 → b ≠ 0 → answersIn (.ctxFreeze a) a s.alone s s0 6)) ∧
  (∀ (a : Args) (s : State), s.IssuesPlain .ctxSave a s.alone →
    let s0 := s.opened .ctxSave a s.alone
    let c := (s0.sval s.alone (srcA a)).toNat
    c ≠ (s0.warp s.cur).ctx → (mfind s0.ctxs c).isSome → (s0.ctx c).frozen = false →
    answersIn (.ctxSave a) a s.alone s s0 1) ∧
  (∀ (a : Args) (s : State), s.IssuesPlain .ctxLoad a s.alone →
    let s0 := s.opened .ctxLoad a s.alone
    let c := (s0.sval s.alone (srcA a)).toNat
    c ≠ (s0.warp s.cur).ctx → (mfind s0.ctxs c).isSome → (∃ w, (s0.warp w).ctx = c ∧ (mfind s0.warps w).isSome) →
    answersIn (.ctxLoad a) a s.alone s s0 8)

open Claims in
/-- R124, R292, R303: a save makes the releases of the context's warps and then writes its image; one that cannot write it
answers 4; one that succeeds answers 0, keeps the image, and takes the context's warps and blocks off its cores. A load whose
image is whole makes resident what its bytes hold. -/
def Sys2Proof.Claims.saveAndLoad : Prop :=
  (∀ (a : Args) (s s2 : State) (x : Option XFault), s.IssuesPlain .ctxSave a s.alone →
    let s0 := s.opened .ctxSave a s.alone
    let c := (s0.sval s.alone (srcA a)).toNat
    c ≠ (s0.warp s.cur).ctx → (mfind s0.ctxs c).isSome → (s0.ctx c).frozen = true → s0.enginesIdle c = true →
    s0.relWaits (s0.warpsOf c) .sys = false →
    let s1 := (s0.releaseAll c).checkStored c
    s1.fresh.2.writeImage s.cur c s1.nextId (s0.sval s.alone (srcB a 0)) = (s2, x) → (mfind s2.warps s.cur).isSome →
    (∀ e, x = some e → answersIn (.ctxSave a) a s.alone s s2 4) ∧
    (x = none → (mfind s2.ctxs c).isSome → (s2.warp s.cur).ctx ≠ c →
      ∃ t, exec (.ctxSave a) s = .next t ∧
        t.saves = s2.saveOf c s1.nextId (s1.fresh.2.contextBody c s1.nextId) :: s2.saves ∧
        t.warpsOf c = [] ∧ t.blocksOf c = [] ∧ (t.ctx c).saved = true ∧ (t.warp s.cur).sget a.d.toNat = 0)) ∧
  (∀ (a : Args) (s s1 s2 : State) (h body : List Byte) (v : Save), s.IssuesPlain .ctxLoad a s.alone →
    let s0 := s.opened .ctxLoad a s.alone
    let c := (s0.sval s.alone (srcA a)).toNat
    let base := s0.sval s.alone (srcB a 0)
    c ≠ (s0.warp s.cur).ctx → (mfind s0.ctxs c).isSome → s0.isResident c = false →
    s0.readArea s.cur base 0 4096 = (s1, some h) → headerOk h c = true →
    coresGranted h (s0.ctx c).crec.cores = true →
    s1.readArea s.cur base 4096 (hdrNat h 8 8 - 4096) = (s2, some body) →
    digestBytes (sha256 body) = (h.drop 16).take 32 → s2.imageOf c (hdrNat h 4 4) body = some v →
    (mfind (s2.restore v).warps s.cur).isSome →
    answersIn (.ctxLoad a) a s.alone s (s2.restore v) 0)

open Claims in
/-- R122: `LAUNCH` writes its status word, LNUM in bits 63:32 and CODE in bits 7:0; a stage that is accepted without
grid barriers and trigger is queued under the context's next launch number. What the rules leave to be read, or open, is
as notes/assumptions/32 says. -/
def Obligations.LaunchStatus : Prop :=
  (∀ (a : Args) (s s1 : State) (x : Word), s.IssuesPlain .launch a s.alone →
    let s0 := s.opened .launch a s.alone
    s0.ownWaits s.cur = false →
    s0.launchAt { c := (s0.warp s.cur).ctx, w := some s.cur } (s0.sval s.alone (srcA a)) = (s1, .ok x) →
    (mfind s1.warps s.cur).isSome →
    answersIn (.launch a) a s.alone s s1 x) ∧
  (∀ (a : Args) (s s1 : State) (x : Trap), s.IssuesPlain .launch a s.alone →
    let s0 := s.opened .launch a s.alone
    s0.ownWaits s.cur = false →
    s0.launchAt { c := (s0.warp s.cur).ctx, w := some s.cur } (s0.sval s.alone (srcA a)) = (s1, .error x) →
    exec (.launch a) s = .next (State.finish s.cur s.alone .launch a
      (.trap ((s.stood .launch a s.alone).keepErrors s1) x))) ∧
  (∀ (s s1 : State) (rd : Reader) (p : Word) (i : LaunchIn) (k : Nat), s.launchIn rd p = (s1, .ok i) →
    s1.launchCode rd.c i = some k → k < 256 → s.launchAt rd p = (s1, .ok (BitVec.ofNat 64 k))) ∧
  (∀ (s s1 : State) (rd : Reader) (p : Word) (i : LaunchIn), s.launchIn rd p = (s1, .ok i) → s1.launchCode rd.c i = none →
    (mfind s1.ctxs rd.c).isSome → (launchRec i.bs).gridbar = false → (launchRec i.bs).trig = false →
    let x := s1.ctx rd.c
    let n := (launchRec i.bs).clusters
    ∃ t, s.launchAt rd p = (t, .ok (BitVec.ofNat 64 ((x.lnum + 1) * 2 ^ 32))) ∧ t = { s1 with ctxs := t.ctxs } ∧
      (∀ k, k ≠ rd.c → t.ctx k = s1.ctx k) ∧
      t.ctx rd.c = { x with
        lnum := x.lnum + 1
        stages := x.stages ++ [{ stageOfIn i (x.lnum + 1) s1.mem.seq 0 with appended := n }]
        queue := x.queue ++ (List.range n).map fun k => (x.lnum + 1, k, s1.timer)
        headAt := if x.queue.isEmpty then s1.timer else x.headAt })

/-- R121, R35, R56, R57, R97, R305, R361: `SWR` of every writable special register, with the values it refuses. -/
def Obligations.SpecialWrites : Prop :=
  Claims.specialWrite ∧ Claims.sharedWrite

/-- R126, R127, R123: `SLEEP` and its wake, `HALT`, `TLBI`. What the rules leave to be read, or open, is as
notes/assumptions/28 says. -/
def Obligations.SleepHaltTlbi : Prop :=
  Claims.sleepWake ∧ Claims.haltTlbi

/-- R124, R303: `CTX` freezes, saves and loads a context, or answers the code that refuses it. What the rules leave to
be read, or open, is as notes/assumptions/27 and notes/assumptions/31 say. -/
def Obligations.ContextControl : Prop :=
  Claims.contextControl ∧ Claims.saveAndLoad
/-! ## Memory -/

namespace Sys2Proof.Claims

/-- No row's remap entry is lost in both copies, so that no access fences a bank (R375, R376). -/
def RowsKnown (s : State) : Prop :=
  ∀ k, ((mget (.clean, .clean) s.mem.tables k).1.lost && (mget (.clean, .clean) s.mem.tables k).2.lost) = false

/-- A location that a store of warp w reaches at once in state s, as its next operation: no pass and no earlier write of w
holds it, nothing that w issued before is still to read or write, its die answers, and its bank keeps what is written (R265,
R281, R383, R376). -/
structure Reached (s : State) (w l : Nat) : Prop where
  kerf : s.kerf w s.nextId (memRow l) = []
  die  : s.offline (homeDie l) = false
  held : ∀ h ∈ s.held, w ∉ h.wr.ws
  idle : ∀ e ∈ s.pend, ∀ x ∈ e.2.ownLocs, x.1 ≠ w
  bank : s.discards l = false
  rows : RowsKnown s
  way  : ¬s.OnItsWay l

/-- The byte that a store leaves at location l: byte i of the data of the highest-numbered lane that writes it. -/
structure Writes (ps : List (Nat × List Place)) (n l lane i : Nat) : Prop where
  here : ∃ e ∈ ps, e.1 = lane ∧ (memLocs e.2).length = n ∧ (memLocs e.2)[i]? = some l
  last : ∀ e ∈ ps, e.1 = lane → ∀ j, (memLocs e.2)[j]? = some l → j ≤ i
  top  : ∀ e ∈ ps, l ∈ memLocs e.2 → e.1 ≤ lane

end Sys2Proof.Claims

open Claims in
/-- R170, R172: a store checks every lane's bytes at A + IMM12 first, and the lowest lane that fails decides; otherwise it
completes, awaiting its acknowledgement. In memory it changes exactly the bytes of its lanes, to the data that SUB selects;
where lanes write one byte, the highest lane's stays. No register changes. -/
def Sys2Proof.Claims.stores : Prop :=
  ∀ (a : Args) (s s1 : State) (g : Grp), s.IssuesPlain .st a g →
    let s0 := s.opened .st a g
    let w := leaderOf g
    let n := accSize a
    (s0.warp w).stCnt < 255 →
    (∀ x, s0.accPlaces w a true true n (s0.accAddr g a) (s0.accLanes g a) = (s1, .error x) →
      exec (.st a) s = .next (State.finish s.cur g .st a (.trap ((s.stood .st a g).keepErrors s1) x))) ∧
    (∀ ps, s0.accPlaces w a true true n (s0.accAddr g a) (s0.accLanes g a) = (s1, .ok ps) →
      (∀ e ∈ ps, ∀ p ∈ e.2, s1.placeBusy p = false) → s1.nbBefore w s1.nextId (lanesLocs ps) = false →
      ∃ r far late rel, Completes (.st a) a g s r ∧ mfind r.pend s1.nextId = some (.store w far late rel) ∧
        (PlainPlaces ps →
          State.Accessed (fun l => s0.OnItsWay l ∨ l ∈ lanesLocs ps) (fun _ x => x) s0 r ∧
          ∀ l lane i, Writes ps n l lane i →
            (∀ e ∈ ps, ∀ k ∈ memLocs e.2, e.1 = lane ∨ k / 128 = l / 128 → Reached s1 w k) →
            r.mem.byte l =
              (selSub a.sub (s0.val w w lane (srcB a 0))).extractLsb' (8 * i) 8))

/-- R59, R60, R368: a store of one element through REG writes the bytes of the register window it names, but p0 reads as all ones
for ever; every other byte of the window and all of memory stay. A store over a whole lane or scalar register clears its mark. -/
def Sys2Proof.Claims.registerWindowStore : Prop :=
  ∀ (w : Warp) (off n : Nat) (x : Word), n ≤ 8 →
    (∀ i < n, regOffOk w.nregs (off + i) = true) → w.nregs ≤ 256 →
    let r := w.winPut off (bytesOf n x)
    (n = 8 → off % 8 = 0 → off < 0x10000 → r.vmark (off / 256) (off % 256 / 8) = none) ∧
    (n = 8 → off % 8 = 0 → 0x10000 ≤ off → off < 0x10200 → r.smark ((off - 0x10000) / 8) = none ∧
      mfind r.tokenErr ((off - 0x10000) / 8) = none) ∧
    ∀ o, regOffOk w.nregs o = true →
      r.winByte o =
        if 0x10200 ≤ o ∧ o < 0x10204 then 0xFF
        else if off ≤ o ∧ o < off + n then x.extractLsb' (8 * (o - off)) 8 else w.winByte o

open Claims in
/-- R171: a load checks every lane's bytes at A + IMM12 first, and the lowest lane that fails decides; otherwise it
completes, and its destination awaits the data. No register and no byte of memory changes by it. What the rules leave to
be read, or open, is as notes/assumptions/41 and notes/assumptions/44 say. -/
def Obligations.Loads : Prop :=
  ∀ (a : Args) (s s1 : State) (g : Grp), s.IssuesPlain .ld a g →
    let s0 := s.opened .ld a g
    let w := leaderOf g
    let n := accSize a
    (s0.warp w).ldCnt < 255 →
    (∀ x, s0.accPlaces w a true false n (s0.accAddr g a) (s0.accLanes g a) = (s1, .error x) →
      exec (.ld a) s = .next (State.finish s.cur g .ld a (.trap ((s.stood .ld a g).keepErrors s1) x))) ∧
    (∀ ps, s0.accPlaces w a true false n (s0.accAddr g a) (s0.accLanes g a) = (s1, .ok ps) →
      (∀ e ∈ ps, ∀ p ∈ e.2, s1.placeBusy p = false) →
      ∃ r id accs vals post fl, Completes (.ld a) a g s r ∧
        mfind r.pend id = some (.load w a accs vals [] [] post fl) ∧ (a.func ≠ 1 → post = [] ∧ fl = []) ∧
        (PlainPlaces ps →
          vals = [] ∧ accs.map (fun x => (x.lane, x.addr, x.locs)) =
            ps.map (fun e => (e.1, s0.accAddr g a e.1, memLocs e.2)) ∧
          State.Accessed s0.OnItsWay (onWarp w fun x =>
            { x with busy := dstReg a.kd a.d.toNat :: x.busy, ldCnt := x.ldCnt + 1 }) s0 r))

/-- R171: the data of a load that has read returns: each lane of D takes its value, the poison pattern where its memory gave
poison, narrower data as SUB and TYPE say; D no longer awaits it, and no other register and no byte of memory changes. -/
def Obligations.LoadReturn : Prop :=
  ∀ (s : State) (id w : Nat) (a : Args) (accs : List LaneAcc) (b : List (Nat × Nat × Byte) × List (Nat × Nat)) (fl : SMap Nat),
    mfind s.pend id = some (.load w a accs [] b.1 b.2 [] fl) → loadUnread accs b.1 = [] → s.farHeld id = false →
    (mfind s.warps w).isSome → (accs.map fun x => x.lane % 32).Nodup →
    let n := accSize a
    let data (x : LaneAcc) : Word :=
      if (Rd.poison ⟨b.1, b.2⟩ x.locs).isSome then BitVec.ofNat 64 ((poisonPattern n).toNat % 2 ^ (8 * n))
      else Rd.value ⟨b.1, b.2⟩ x.locs
    ∃ t, exec (.loadDataReturn id) s = .next t ∧ mfind t.pend id = none ∧ t.mem = s.mem ∧
      (∀ v, v ≠ w → t.warp v = s.warp v) ∧
      (t.warp w).busy = (s.warp w).busy.filter (· != dstReg a.kd a.d.toNat) ∧ (t.warp w).ldCnt = (s.warp w).ldCnt - 1 ∧
      (a.kd ≠ .s → a.kd ≠ .q → (∀ m, (t.warp w).sget m = (s.warp w).sget m) ∧
        (∀ x ∈ accs, (t.warp w).vget a.d.toNat (x.lane % 32) =
          loadValue a ((s.warp w).vget a.d.toNat (x.lane % 32)) (data x)) ∧
        (∀ m l, l < 32 → (m ≠ a.d.toNat ∨ ∀ x ∈ accs, x.lane % 32 ≠ l) → (t.warp w).vget m l = (s.warp w).vget m l)) ∧
      (a.kd = .s → (t.warp w).v = (s.warp w).v ∧ (∀ m, m ≠ a.d.toNat → (t.warp w).sget m = (s.warp w).sget m) ∧
        ∀ x, accs = [x] → (t.warp w).sget a.d.toNat = loadValue a ((s.warp w).sget a.d.toNat) (data x))

/-- R275, R276: a read gives each location the byte of one of its writes, at or above the reader's floor, and the newest one
where the reader's floors are at the newest writes of all it reads. -/
def Sys2Proof.Claims.readsSeeWrites : Prop :=
  ∀ (m : Mem) (fl : SMap Nat) (free n : Nat) (ls : List Nat), n ∣ 1024 →
    (m.readLocs fl free n ls).map (·.1) = ls ∧
    (∀ e ∈ m.readLocs fl free n ls, e.2 ∈ m.versions e.1) ∧
    (∀ e ∈ m.readLocs fl free n ls, ((m.versions e.1).map (·.1)).Pairwise (· > ·) →
      mget 0 fl e.1 ∈ (m.versions e.1).map (·.1) → mget 0 fl e.1 ≤ e.2.1) ∧
    ((∀ l ∈ ls, m.pos l ≤ mget 0 fl l) → ∀ e ∈ m.readLocs fl free n ls, e.2.2 = m.byte e.1)

/-- R275, R169: the bytes of one indivisible piece become the newest of their locations together, at a position above every
earlier one; no other location changes, and memory keeps its canonical form. -/
def Sys2Proof.Claims.writePiece : Prop :=
  ∀ (m : Mem) (rels : List Nat) (rmw : Bool) (bs : List (Nat × Byte)), (bs.map (·.1)).Nodup →
    let r := m.putPiece rels rmw bs
    r.seq = m.seq + 1 ∧
    (∀ e ∈ bs, r.byte e.1 = e.2 ∧ r.pos e.1 = m.seq + 1) ∧
    (∀ l, l ∉ bs.map (·.1) → r.byte l = m.byte l ∧ r.pos l = m.pos l) ∧
    (m.wf = true → r.wf = true)

/-- R184, R174, R173: an acknowledged store leaves the store class, its late fault is recorded unless one is held already,
and nothing else changes; a prefetch may change only the lines that L1 holds. -/
def Sys2Proof.Claims.storeAcknowledged : Prop :=
  (∀ (s : State) (id w : Nat) (far : Bool) (fault : Option (Nat × Nat × Word)), (mfind s.warps w).isSome →
    mfind s.pend id = some (.store w far fault none) → (∀ h ∈ s.held, h.id ≠ id) → s.farHeld id = false →
    exec (.storeAcknowledgement id) s = .next
      ({ s with pend := mdel s.pend id, far := mdel s.far id }.modWarp w fun x =>
        { x with stCnt := x.stCnt - 1,
                 late := match x.late, fault with
                   | some y, _ => some y
                   | none, some f => some ⟨f.1, f.2.1, f.2.2, .store⟩
                   | none, none => none })) ∧
  (∀ (a : Args) (s : State) (g : Grp), s.IssuesPlain .pref a g →
    let s0 := s.opened .pref a g
    ∃ r, Completes (.pref a) a g s r ∧ r = { s0 with cores := r.cores } ∧
      (∀ k, r.core k = { s0.core k with l1 := (r.core k).l1, l1Err := (r.core k).l1Err }) ∧ (a.func ≠ 0 → r = s0))

open Claims in
/-- R183: `PUSHM` lowers SSP by the range's size and stores the registers there, lowest first; `POPM` reads the range at SSP,
which its registers await, and raises SSP by its size. -/
def Obligations.SpillRange : Prop :=
  (∀ (a : Args) (s s1 : State) (ls : List Nat), s.Issues .pushm a (fun s g => s.rangeTrap a g true) s.alone →
    let s0 := s.opened .pushm a s.alone
    let x := s0.warp s.cur
    let n := if a.kd = .v then 256 * a.imm.toNat else (8 * a.imm.toNat + 31) / 32 * 32
    let p := x.ssp - BitVec.ofNat 64 n
    rangeBusy a x = false → x.stCnt < 255 → s0.locSpan s.cur true p n = (s1, .ok ls) →
    s1.nbBefore s.cur s1.nextId ls = false →
    ∃ r, Completes (.pushm a) a s.alone s r ∧ (r.warp s.cur).ssp = p ∧
      State.Accessed (fun l => s0.OnItsWay l ∨ l ∈ ls) (onWarp s.cur fun y => { y with ssp := p }) s0 r ∧
      (ls.Nodup → ls.length = n → ∀ i l, ls[i]? = some l → (∀ k ∈ ls, k / 128 = l / 128 → Reached s1 s.cur k) →
        r.mem.byte l =
          if a.kd = .v then (x.vget (a.d.toNat + i / 256) (i / 8 % 32)).extractLsb' (8 * (i % 8)) 8
          else if i < 8 * a.imm.toNat then (x.sget (a.d.toNat + i / 8)).extractLsb' (8 * (i % 8)) 8 else 0)) ∧
  (∀ (a : Args) (s s1 s2 : State) (ls : List Nat) (rd : Rd), s.Issues .popm a (fun s g => s.rangeTrap a g false) s.alone →
    let s0 := s.opened .popm a s.alone
    let x := s0.warp s.cur
    let n := if a.kd = .v then 256 * a.imm.toNat else (8 * a.imm.toNat + 31) / 32 * 32
    rangeBusy a x = false → x.ldCnt < 255 → s0.locSpan s.cur false x.ssp n = (s1, .ok ls) →
    s1.ownHeld [s.cur] ls = false → s1.blocked s.cur s1.nextId ls = false →
    s1.readNow s.cur 0 ls = (s2, rd) →
    ∃ r vals, Completes (.popm a) a s.alone s r ∧ mfind r.pend s2.nextId = some (.result s.cur vals 0 true) ∧
      State.Accessed s0.OnItsWay (onWarp s.cur fun y =>
        { y with ssp := x.ssp + BitVec.ofNat 64 n, ldCnt := y.ldCnt + 1, busy := (r.warp s.cur).busy }) s0 r ∧
      (∀ k < a.imm.toNat, dstReg a.kd (a.d.toNat + k) ∈ (r.warp s.cur).busy) ∧
      (rd.bad = [] → a.kd = .s → ∀ v ∈ vals, ∃ k < a.imm.toNat, v.reg = .s (a.d.toNat + k) ∧ v.mark = none ∧
        v.val = ofBytes (((ls.drop (8 * k)).take 8).map rd.byte)) ∧
      (rd.bad = [] → a.kd = .v → ∀ v ∈ vals, ∃ k < a.imm.toNat, v.reg = .v (a.d.toNat + k) ∧ v.lane < 32 ∧ v.mark = none ∧
        v.val = ofBytes (((ls.drop (8 * (32 * k + v.lane))).take 8).map rd.byte)))

namespace Sys2Proof.Claims

/-- The new value of an integer element of n bytes under `ATOM`: Table 6.4, and exchange and compare-and-swap (R198). -/
def atomicNew (a : Args) (old b c : Int) : Int :=
  if a.func = 0x10 then b
  else if a.func = 0x11 then (if old = c then b else old)
  else if a.func = 0x00 then old + b
  else if a.func = 0x01 then min old b
  else max old b

end Sys2Proof.Claims

open Claims in
/-- R197, R198: `ATOM` completes, its destination awaiting the old values; in memory it changes only the elements it
addresses. One element at home reads the old value and writes the new one of Table 6.4 in one indivisible step. -/
def Obligations.Atomics : Prop :=
  (∀ (a : Args) (s s1 : State) (g : Grp) (ps : List (Nat × List Place)), s.IssuesPlain .atom a g →
    let s0 := s.opened .atom a g
    let w := leaderOf g
    s0.atomPlaces g a = (s1, .ok ps) → (s0.warp w).ldCnt < 255 →
    s1.atomHeld w (lanesLocs ps) = false → PlainPlaces ps →
    ∃ r id vals fl, Completes (.atom a) a g s r ∧ mfind r.pend id = some (.result w vals fl true) ∧
      vals.map (·.lane) = ps.map (·.1 % 32) ∧
      State.Accessed (fun l => s0.OnItsWay l ∨ l ∈ lanesLocs ps) (onWarp w fun x =>
        { x with ldCnt := x.ldCnt + 1, busy := (r.warp w).busy }) s0 r ∧
      (ps ≠ [] → dstReg a.kd a.d.toNat ∈ (r.warp w).busy)) ∧
  (∀ (s : State) (w : Nat) (a : Args) (b c p : Word) (rmt : Bool) (l : Nat),
    s.pend = [] → (s.cores.all fun e => e.2.uLines.isEmpty) = true → l % 8 = 0 → 2 ^ 40 ≤ l → l < 2 ^ 50 →
    (s.colSt (l / 64 * 64) = .clean ∨ ∃ i, s.colSt (l / 64 * 64) = .single i) →
    s.offline (homeDie l) = false → a.ty = .i64 → a.func ∈ [0x00, 0x01, 0x02, 0x10, 0x11].map (BitVec.ofNat 8) →
    let old := ofBytes (s.mem.peek l 8)
    ∃ r, s.atomElem w a 8 b c p rmt (span l 8) = (r, old, none, 0) ∧
      ofBytes (r.mem.peek l 8) = BitVec.ofInt 64 (if a.sat ∧ a.func = 0 then max (-(2 ^ 63)) (min (2 ^ 63 - 1) (old.toInt + b.toInt))
        else atomicNew a old.toInt b.toInt c.toInt) ∧
      ∀ k, k ∉ span l 8 → r.mem.byte k = s.mem.byte k)

open Claims in
/-- R199, R200: `RED` completes without a result. A keep access to DEV or LOC is combined into the update-only line of
its core, which starts at the identity; any other at home. Memory changes only at the elements it addresses. What the
rules leave to be read, or open, is as notes/assumptions/18 says. -/
def Obligations.ReduceToMemory : Prop :=
  (∀ (a : Args) (s s1 : State) (g : Grp) (ps : List (Nat × List Place)), s.IssuesPlain .red a g →
    let s0 := s.opened .red a g
    let w := leaderOf g
    s0.atomPlaces g a = (s1, .ok ps) → (s0.warp w).stCnt < 255 →
    s1.blocked w s1.nextId (lanesLocs ps) = false → PlainPlaces ps →
    ∃ r id far late, Completes (.red a) a g s r ∧ mfind r.pend id = some (.store w far late none) ∧
      State.Accessed (fun l => s0.OnItsWay l ∨ l ∈ lanesLocs ps ∨
          ∃ e ∈ ps, l ∈ span ((memLocs e.2).headD 0) (atomSize a.ty)) (fun _ x => x) s0 r) ∧
  (∀ (s : State) (w : Nat) (a : Args) (n : Nat) (x : Word) (l : Nat), s.pend = [] →
    (∀ u ∈ (s.core (s.coreOf w)).uLines, u.line ≠ l / 128) →
    let r := s.redLine w a n x l
    ∃ u ∈ (r.core (s.coreOf w)).uLines, u.line = l / 128 ∧ u.func = a.func.toNat ∧ u.ty = a.ty ∧ u.by_ = [(l, [w])] ∧
      u.rnd = rndOf (s.warp w).fpmode a.rnd ∧ u.sat = a.sat ∧ u.fp = (s.warp w).fpmode ∧
      u.vals = [(l, (redValue a.func.toNat a.ty (s.warp w).fpmode a.rnd a.sat n
        (replicate a.ty.width (8 * n / a.ty.width) (redIdent a.func.toNat a.ty (s.warp w).fpmode)) x).1)])

/-- R170, R172, R174, R184, R59: a store, its acknowledgement, and one through the register window; a prefetch. What the
rules leave to be read, or open, is as notes/assumptions/44 says. -/
def Obligations.Stores : Prop :=
  Claims.stores ∧ Claims.storeAcknowledged ∧ Claims.registerWindowStore

/-- R275, R276, R169: what a read sees of the writes of a location, and what an indivisible write leaves. -/
def Obligations.CoherenceOrder : Prop :=
  Claims.readsSeeWrites ∧ Claims.writePiece
/-! ## Copies -/

namespace Sys2Proof.Claims

/-- The open batch of a register holds an operation. -/
def inOpenBatch (x : Warp) (reg id : Nat) : Prop := ∃ b ∈ x.batches, b.reg = reg ∧ b.sealed = false ∧ id ∈ b.ops

/-- A copy completes at issue: its parts, each a destination, a source and a length, are in flight in the open batch of D,
and no register and no byte of memory changes. -/
def copyStarts (o : Op) (red : Bool) (a : Args) (s : State) (g : Grp) (parts : List (Word × Word × Nat)) : Prop :=
  let s0 := s.opened o a g
  let w := leaderOf g
  ∃ r id fl, Completes (Instr.ofOp o a) a g s r ∧
    mfind r.pend id =
      some (.copy w a.d.toNat red a (s0.warp w).ctx parts fl (s0.warp w).rels (s0.warp w).fpmode) ∧
    inOpenBatch (r.warp w) a.d.toNat id ∧
    State.Accessed s0.OnItsWay (onWarp w fun x => { x with batches := (r.warp w).batches }) s0 { r with far := s0.far }

end Sys2Proof.Claims

open Claims in
/-- R175, R176, R178: a copy whose length, addresses, spaces and bounds pass its checks starts at issue; `CPYG` gathers
and `CPYS` scatters one element of e bytes for each lane acted on. A bad length or element size traps. What the rules
leave to be read, or open, is as notes/assumptions/14 says. -/
def Obligations.CopyStart : Prop :=
  (∀ o ∈ [(Op.cpy, false), (Op.cpyr, true)], ∀ (a : Args) (s : State) (g : Grp), s.IssuesPlain o.1 a g →
    let s0 := s.opened o.1 a g
    let n := if a.kc = .x then lenC a else s0.sval g (srcC a)
    let parts := [(s0.sval g (srcA a), s0.sval g (srcB a 0), n.toNat)]
    (n.toNat % 16 ≠ 0 ∨ 2 ^ 32 < n.toNat →
      exec (Instr.ofOp o.1 a) s = .next (State.finish s.cur g o.1 a (.trap (s.stood o.1 a g) ⟨0x12, 0, n⟩))) ∧
    (n.toNat % 16 = 0 → n.toNat ≤ 2 ^ 32 → s0.copyTrap (leaderOf g) 16 o.2 parts = none →
      (s0.warp (leaderOf g)).batchFull a.d.toNat = false → copyStarts o.1 o.2 a s g parts)) ∧
  (∀ o ∈ [Op.cpyg, .cpys], ∀ (a : Args) (s : State) (g : Grp), s.IssuesPlain o a g →
    let s0 := s.opened o a g
    let w := leaderOf g
    let e := (lenC a).toNat
    let parts := (s0.actedOf a (g.headD (0, 0))).map fun l =>
      if o = .cpyg then (s0.sval g (srcA a) + BitVec.ofNat 64 (e * l), s0.val w w l (srcB a 0), e)
      else (s0.val w w l (srcA a), s0.sval g (srcB a 0) + BitVec.ofNat 64 (e * l), e)
    (e ∉ [4, 8, 16, 32, 64, 128] →
      exec (Instr.ofOp o a) s = .next (State.finish s.cur g o a (.trap (s.stood o a g) ⟨0x01, 0x02, 0⟩))) ∧
    (e ∈ [4, 8, 16, 32, 64, 128] → s0.copyTrap w e false parts = none → (s0.warp w).batchFull a.d.toNat = false →
      copyStarts o false a s g parts))

/-- R178, R179: `CSEAL` gives the open batch of D the warp's next sequence number; with no open batch it makes an empty one,
whose token is written at once. -/
def Sys2Proof.Claims.copySeal : Prop :=
  ∀ (a : Args) (s : State) (g : Grp), s.IssuesPlain .cseal a g →
    let s0 := s.opened .cseal a g
    let w := leaderOf g
    let x := s0.warp w
    x.batchFull a.d.toNat = false →
    ∃ r, Completes (.cseal a) a g s r ∧ (r.warp w).openBatch a.d.toNat = false ∧
      (∀ v, v ≠ w → r.warp v = s0.warp v) ∧ r.mem = s0.mem ∧
      (r.warp w).nextSeq = (if x.nextSeq + 1 = 2 ^ 32 then 1 else x.nextSeq + 1) ∧
      (∀ b ∈ x.batches, b.reg = a.d.toNat → b.sealed = false → b.ops ≠ [] →
        (∀ c ∈ x.batches, c.sealed = true → c.seq ≠ x.nextSeq) → x.batches.filter (fun c => c.reg == b.reg && !c.sealed) = [b] →
        { b with sealed := true, seq := x.nextSeq } ∈ (r.warp w).batches) ∧
      (x.batches = [] → (r.warp w).sget a.d.toNat = BitVec.ofNat 64 x.nextSeq)

/-- R178, R182: when a sealed batch completes, its copies have moved and the token, SEQ with ERR in bit 63, is written to its
register, if the batches sealed before it on that register have been written. -/
def Sys2Proof.Claims.copyComplete : Prop :=
  ∀ (s : State) (w seq : Nat) (b : Batch), seq ≠ 0 →
    ((s.warp w).batches.find? fun b => b.sealed && b.seq == seq && b.value.isNone) = some b →
    (∀ id ∈ b.ops, ∃ v reg red a c parts fl rels fp, mfind s.pend id = some (.copy v reg red a c parts fl rels fp)) →
    b.ops.any s.farHeld = false →
    let c := s.moveBatch w b.ops
    c.wait = false → (mfind c.st.warps w).isSome → (c.st.warp w).retired = false →
    (c.st.warp w).batches.filter (fun e => e.reg == b.reg && e.sealed && !e.written) = [b] → b.value = none →
    (∀ e ∈ (c.st.warp w).batches, e.sealed = true → e.seq = seq → e = b) →
    ∃ t, exec (.copyBatchComplete w seq) s = .next t ∧ t.mem = c.st.mem ∧ (∀ v, v ≠ w → t.warp v = c.st.warp v) ∧
      (t.warp w).sget b.reg = BitVec.ofNat 64 (b.seq + (if b.err.isSome ∨ c.err.isSome then 2 ^ 63 else 0)) ∧
      (∀ n, n ≠ b.reg → (t.warp w).sget n = (c.st.warp w).sget n) ∧ (t.warp w).v = (c.st.warp w).v

/-- R176, R166: a piece of a copy that meets no fault, no poison and no wait gives each byte of its destination the byte that it
read of its source, under the policies of both pointers, and changes no other byte. -/
def Sys2Proof.Claims.copyPiece : Prop :=
  ∀ (id w : Nat) (a : Args) (fl : SMap Nat) (rels : List Nat) (fp : Word) (c : CopyAcc) (dst src : Word) (n : Nat)
    (dl sl : List Nat) (s1 s2 s3 : State) (rd : Rd),
    c.st.places w { write := true } dst n = (s1, .ok (dl.map .mem)) → s1.places w {} src n = (s2, .ok (sl.map .mem)) →
    (let s' := s2.flushOwn w id sl
     let s'' := if policyOf src a.cp = .bypass then s'.dropL1 (s2.coreOf w) (dramLines sl).contains else s'
     s''.readHome 4 8 (s''.bankFloors (some (s2.coreOf w)) fl sl) sl = (s3, rd)) →
    rd.bad = [] → dl ≠ [] → sl ≠ [] →
    let s4 := ((if policyOf src a.cp = .keep then s3.cacheL1 (s2.coreOf w) sl false else s3).flushOwn w id dl).carry w true dl
    s4.copyWaits w id fl dl = false → dl.any s4.lostLoc = false →
    let r := movePiece id w a false fl rels fp c dst src n
    r.err = c.err ∧ r.wait = c.wait ∧
    (∀ k, k ∉ dl → ¬s4.OnItsWay k → r.st.mem.byte k = s4.mem.byte k) ∧
    (dl.Nodup → RowsKnown s4 → ∀ (i l k : Nat), dl[i]? = some l → sl[i]? = some k → s4.discards l = false → r.st.mem.byte l = rd.byte k)

/-! ## Counters, phases, barriers and queues -/

open Claims in
/-- R192 to R194: `CSIG` posts its increment to the counter at A + IMM12 and completes, after a release where it has one; no
register and no byte of memory changes until the counter's home performs it. A counter in another space or not 8 B aligned,
and every other fault of its address, traps at issue. It stalls while 255 stores are outstanding or its release must wait. -/
def Sys2Proof.Claims.counterSignal : Prop :=
  ∀ (a : Args) (s : State) (g : Grp), s.IssuesPlain .csig a g →
    let s0 := s.opened .csig a g
    let w := leaderOf g
    let p := s0.sval g (srcA a) + immOff a
    let inc := (s0.sval g (srcC a)).toNat
    let fails (r : State) (x : Trap) : Prop :=
      exec (.csig a) s = .next (State.finish s.cur g .csig a (.trap ((s.stood .csig a g).keepErrors r) x))
    (2 < spaceOf p → spaceOf p ≠ 7 → fails s0 ⟨0x13, 0x01, p⟩) ∧
    (spaceOf p ≤ 2 ∨ spaceOf p = 7 → p &&& 7 ≠ 0 → fails s0 ⟨0x12, 0x01, p⟩) ∧
    (∀ s1 x, s0.counterPlace w true p = (s1, .error x) → fails s1 x) ∧
    ∀ s1 at_, s0.counterPlace w true p = (s1, .ok at_) →
      (255 ≤ (s0.warp w).stCnt ∨ (a.func = 1 ∧ s0.relWaits g.ws (scopeOf a.sub.toNat) = true) →
        ∃ t, exec (.csig a) s = .next t ∧ (t.warp s.cur).pc = (s0.warp s.cur).pc ∧ t.mem = s0.mem ∧ t.pend = s0.pend) ∧
      ((s0.warp w).stCnt < 255 → (a.func = 1 → s0.relWaits g.ws (scopeOf a.sub.toNat) = false) →
        ∃ r id q, Completes (.csig a) a g s r ∧ mfind r.pend id = some q ∧
          (match at_ with
            | .home l => q = .csig w (r.writer g.ws) p l inc
            | .loop _ => (∃ l, q = .csig w { r.writer g.ws with rmt := true } p l inc) ∨ ∃ c d, q = .store w true (some (c, d, p)) none
            | .far _ _ _ => ∃ late, q = .store w true late none ∧ ∀ x, late = some x → x.2.2 = p) ∧
          State.Accessed s0.OnItsWay (fun _ x => x) s0 { r with far := s0.far } ∧
          (a.func = 1 → ∃ n e, mfind r.mem.rels n = some e ∧ e.scope = scopeOf a.sub.toNat ∧ ∀ m ∈ g, n ∈ (r.warp m.1).rels))

/-- R194, R195, R371: a counter's home adds the increment, saturating at 2^64 − 1, where it records the late counter-overflow
trap in the warp that signalled; a poisoned counter is left as it is, with a late poison trap; the warp's store class ends. One
whose row a pass holds or whose die is off line is held. No other byte and no register changes. -/
def Sys2Proof.Claims.counterIncrement : Prop :=
  ∀ (s : State) (id w l inc : Nat) (wr : Writer) (addr : Word),
    s.pend = [(id, .csig w wr addr l inc)] → wr.ws.headD 0 = w → (mfind s.warps w).isSome →
    ((∃ v ∈ wr.ws, s.kerf v id (memRow l) ≠ []) ∨ s.offline (homeDie l) = true →
      ∃ t h, exec (.counterIncrement id) s = .next t ∧ t = { s with pend := [], held := s.held ++ [h] } ∧ h.id = id ∧
        h.wr = wr ∧ h.inc = some inc ∧ h.addr = addr) ∧
    ((∀ v ∈ wr.ws, s.kerf v id (memRow l) = []) → s.offline (homeDie l) = false → (s.cores.all fun e => e.2.uLines.isEmpty) = true → l % 8 = 0 →
      let old := (ofBytes (s.mem.peek l 8)).toNat
      let late (x : Trap) (t : State) : Prop := (s.warp w).late = none → (t.warp w).late = some ⟨x.code, x.detail, x.addr, .store⟩
      ∃ t, exec (.counterIncrement id) s = .next t ∧ t.pend = [] ∧ (t.warp w).stCnt = (s.warp w).stCnt - 1 ∧
        (t.warp w).s = (s.warp w).s ∧ (t.warp w).v = (s.warp w).v ∧
        ((s.checkReads 0 (span l 8)).2 = [] → RowsKnown s → (∀ i ∈ span l 8, s.discards i = false) →
          (ofBytes (t.mem.peek l 8)).toNat = min (old + inc) (2 ^ 64 - 1) ∧
          (∀ k, k ∉ span l 8 → t.mem.byte k = s.mem.byte k) ∧
          (2 ^ 64 ≤ old + inc → late ⟨0x18, 0x80, addr⟩ t) ∧ (old + inc < 2 ^ 64 → (t.warp w).late = (s.warp w).late)) ∧
        ((s.checkReads 0 (span l 8)).2 ≠ [] → (∀ k, t.mem.byte k = s.mem.byte k) ∧ late ⟨0x14, 0x81, addr⟩ t))

open Claims in
/-- R194: `CREAD` completes; with an acquire its D holds the value that the counter gave and it acquires; without one D
awaits the value, which the counter gives at some instant until D is written. What the rules leave to be read, or open,
is as notes/assumptions/21 says. -/
def Obligations.CounterRead : Prop :=
  (∀ (a : Args) (s s1 : State) (g : Grp) (l : Nat), s.IssuesPlain .cread a g →
    let s0 := s.opened .cread a g
    let w := leaderOf g
    let p := s0.sval g (srcA a) + immOff a
    s0.counterPlace w false p = (s1, .ok (.home l)) → s0.ctrWaits g a (.home l) = false →
    (a.func ≠ 2 → ∃ r id, Completes (.cread a) a g s r ∧ mfind r.pend id = some (.cread w p l a.d.toNat) ∧
      State.Accessed s0.OnItsWay (onWarp w fun x => { x with busy := .s a.d.toNat :: x.busy }) s0 r) ∧
    (a.func = 2 → ∀ s3 x, (s1.trace w 5 p).readCtr g p (.home l) = (s3, x, none) →
      ∃ r, Completes (.cread a) a g s r ∧ (∀ m ∈ g, (r.warp m.1).sget a.d.toNat = x) ∧
        (∀ m ∈ g, ∀ n, n ≠ a.d.toNat → (r.warp m.1).sget n = (s0.warp m.1).sget n) ∧
        (∀ k, ¬s0.OnItsWay k → r.mem.byte k = s0.mem.byte k))) ∧
  (∀ (s s1 : State) (id w l d : Nat) (addr x : Word), mfind s.pend id = some (.cread w addr l d) →
    s.blocked w id (span l 8) = false → (s.flushOwn w id (span l 8)).readCounter [w] addr l = (s1, x, none) → s1.farHeld id = false → (mfind s1.warps w).isSome →
    ∃ t, exec (.loadDataReturn id) s = .next t ∧ (t.warp w).sget d = x ∧ mfind t.pend id = none ∧
      (∀ n, n ≠ d → (t.warp w).sget n = (s1.warp w).sget n) ∧ (t.warp w).v = (s1.warp w).v ∧ t.mem = s1.mem)

open Claims in
/-- R194, R196: `CWAIT` completes with the counter's value in D where it has reached the target, unsigned, or the
deadline has passed; else it parks. A parked wait ends, past its instruction, when the counter reaches the target, when
TIMER reaches the deadline, or when a poll finds either; otherwise it goes on unchanged. What the rules leave to be
read, or open, is as notes/assumptions/21 says. -/
def Obligations.CounterWait : Prop :=
  (∀ (a : Args) (s s1 s3 : State) (g : Grp) (l : Nat) (x : Word), s.IssuesPlain .cwait a g →
    let s0 := s.opened .cwait a g
    let w := leaderOf g
    let p := s0.sval g (srcA a) + immOff a
    let deadline := if a.kb ≠ .v then some ((s0.warp w).deadline.getD (s0.timer + (s0.sval g (srcB a 0)).toNat)) else none
    s0.counterPlace w false p = (s1, .ok (.home l)) → s0.ctrWaits g a (.home l) = false →
    ((s1.trace w 5 p).modWarps g.ws fun y => { y with deadline := none }).readCtr g p (.home l) = (s3, x, none) →
    ((s0.sval g (srcC a)).toNat ≤ x.toNat ∨ (∃ d, deadline = some d ∧ d ≤ s0.timer) →
      ∃ r, Completes (.cwait a) a g s r ∧ (∀ m ∈ g, (r.warp m.1).sget a.d.toNat = x) ∧
        (∀ m ∈ g, ∀ n, n ≠ a.d.toNat → (r.warp m.1).sget n = (s0.warp m.1).sget n)) ∧
    (x.toNat < (s0.sval g (srcC a)).toNat → (∀ d, deadline = some d → s0.timer < d) →
      ∃ r, parks (.cwait a) .cwait a g s r ∧ (r.warp w).park = .cwait deadline g a p (s0.sval g (srcC a)) (.home l) ∧
        (∀ m ∈ g, (r.warp m.1).pc = (s0.warp m.1).pc ∧ (r.warp m.1).s = (s0.warp m.1).s) ∧
        ∀ m ∈ g, m.1 ≠ w → (r.warp m.1).park = .follow w)) ∧
  (∀ (s s1 : State) (w l : Nat) (deadline : Option Nat) (g : Grp) (a : Args) (p target x : Word),
    (s.warp w).park = .cwait deadline g a p target (.home l) → s.waitKept w = false → g.ws.Nodup →
    (∀ m ∈ g, (mfind s1.warps m.1).isSome) →
    s.readCtr g p (.home l) = (s1, x, none) →
    let reached := target.toNat ≤ x.toNat
    let late := ∃ d, deadline = some d ∧ d ≤ s.timer
    let wakes (i : Instr) : Prop := ∃ t, exec i s = .next t ∧ ∀ m ∈ g, (t.warp m.1).sget a.d.toNat = x ∧
      (t.warp m.1).pc = (s1.warp m.1).pc + BitVec.ofNat 64 (argBytes a) ∧ (t.warp m.1).park = .none
    (reached → wakes (.cwaitWake w)) ∧ (late → wakes (.cwaitTimeout w)) ∧ (reached ∨ late → wakes (.cwaitPoll w)) ∧
    (¬reached → exec (.cwaitWake w) s = .next s) ∧ (¬late → exec (.cwaitTimeout w) s = .next s) ∧
    (¬reached → ¬late → exec (.cwaitPoll w) s = .next s))

open Claims in
/-- R205, R277, R278: `PHASE` completes after its release and its acquire. The release covers every write at or below its
warps' floors; the acquire raises the floors to every release that its warps have observed and whose scope and its own
cover both parties. No register and no byte of memory changes but by reductions and increments on their way. -/
def Sys2Proof.Claims.phases : Prop :=
  ∀ (a : Args) (s : State) (g : Grp), s.IssuesPlain .phase a g →
    let s0 := s.opened .phase a g
    (a.func ≠ 2 → s0.relWaits g.ws (scopeOf a.sub.toNat) = false) → (a.func ≠ 1 → s0.acqWaits g.ws = false) →
    ∃ r, Completes (.phase a) a g s r ∧ State.Traffic s0.OnItsWay s0 r ∧
      (a.func ≠ 2 → ∃ n e, mfind r.mem.rels n = some e ∧ e.scope = scopeOf a.sub.toNat ∧
        ∀ m ∈ g, n ∈ (r.warp m.1).rels ∧ ∀ l, mget 0 (s0.warp m.1).floors l ≤ mget 0 e.view l) ∧
      (a.func ≠ 1 → ∀ m ∈ g, (∀ l, mget 0 (s0.warp m.1).floors l ≤ mget 0 (r.warp m.1).floors l) ∧
        ∀ m' ∈ g, ∀ n ∈ (s0.warp m'.1).seen, ∀ e, mfind s0.mem.rels n = some e → n < s0.nextId →
          covers (scopeOf a.sub.toNat) e.place (s0.coreOf (leaderOf g)) = true →
          covers e.scope e.place (s0.coreOf (leaderOf g)) = true →
          ∀ l, mget 0 e.view l ≤ mget 0 (r.warp m.1).floors l)

namespace Sys2Proof.Claims

/-- A unit that is a member of a barrier. -/
structure Member (s : State) (g : Grp) (a : Args) : Prop where
  grid   : s.gridUndeclared (leaderOf g) a = false
  member : (s.bar (s.warp (leaderOf g)).blk (barLevel a) (barId a)).mem.testBit (s.unitNo (leaderOf g) (barLevel a)) = true

/-- Whether the group's unit has arrived in the open generation. -/
def hasArrived (s : State) (g : Grp) (a : Args) : Bool :=
  (s.bar (s.warp (leaderOf g)).blk (barLevel a) (barId a)).arr.testBit (s.unitNo (leaderOf g) (barLevel a))

/-- A member that has not arrived in the open generation, and whose release waits for nothing. -/
structure MayArrive (s : State) (g : Grp) (a : Args) : Prop extends Member s g a where
  fresh  : hasArrived s g a = false
  held   : s.relWaits g.ws (levelScope (barLevel a)) = false
  keys   : (s.warps.map (·.1)).Nodup

/-- After an arrival by unit u at a barrier x: where it was not the last, the arrival stands and nothing else of the
barrier changed; where it was, the next generation is open, every warp that waited has gone on past its 12 B `BAR`, and
every warp that had come again may issue its `BAR` again. -/
def arrived (s r : State) (b lvl id u : Nat) : Prop :=
  let x := s.bar b lvl id
  let y := r.bar b lvl id
  y.mem = x.mem ∧
  (x.arr ||| 2 ^ u ≠ x.mem → y.arr = x.arr ||| 2 ^ u ∧ y.gen = x.gen) ∧
  (x.arr ||| 2 ^ u = x.mem → y.arr = 0 ∧ y.gen = (x.gen + 1) % 65536 ∧
    ∀ w ∈ s.barGroup b lvl,
      ((s.warp w).park = .bar lvl id → (r.warp w).park = .none ∧ (r.warp w).pc = (s.warp w).pc + 12) ∧
      ((s.warp w).park = .barAgain lvl id → (r.warp w).park = .none ∧ (r.warp w).pc = (s.warp w).pc))

/-- An arrival by a unit that has arrived already waits for the open generation, and then issues again (R188). -/
def comesAgain (o : Op) (a : Args) (s : State) (g : Grp) : Prop :=
  let s0 := s.opened o a g
  Member s0 g a → hasArrived s0 g a = true →
    parks (Instr.ofOp o a) o a g s (s0.modWarps g.ws fun y => { y with park := .barAgain (barLevel a) (barId a) })

end Sys2Proof.Claims

open Claims in
/-- R186, R188, R189: `BAR.ARV` arrives, and completes the generation where it is the last; a second arrival waits for the
next generation; `BAR.WT` parks while its unit's arrival stands, else completes; `BAR.MEET` does both, but one that a save
withdrew while it waited does the second only (R190; the model's reading, notes/assumptions/42); `BAR.MEMB` replaces MEM;
`BAR.QRY` reads GEN, the counts and MEM. That a count of more than 255 units reads as 255 is the model's choice
(notes/assumptions/15), and that those which waited resume behind their `BAR` in the event that completes the generation is its
reading (notes/assumptions/41). -/
def Obligations.Barriers : Prop :=
  (∀ (a : Args) (s : State) (g : Grp), s.IssuesPlain .barArv a g →
    let s0 := s.opened .barArv a g
    comesAgain .barArv a s g ∧
    (MayArrive s0 g a → ∃ r, Completes (.barArv a) a g s r ∧
      arrived s0 r (s0.warp (leaderOf g)).blk (barLevel a) (barId a) (s0.unitNo (leaderOf g) (barLevel a)))) ∧
  (∀ (a : Args) (s : State) (g : Grp), s.IssuesPlain .barWt a g →
    let s0 := s.opened .barWt a g
    s0.gridUndeclared (leaderOf g) a = false → s0.acqWaits g.ws = false →
    (hasArrived s0 g a = false → ∃ r, Completes (.barWt a) a g s r ∧ State.Traffic s0.OnItsWay s0 r) ∧
    (hasArrived s0 g a = true →
      parks (.barWt a) .barWt a g s (s0.modWarps g.ws fun y => { y with park := .bar (barLevel a) (barId a) }))) ∧
  (∀ (a : Args) (s : State) (g : Grp), s.IssuesPlain .barMeet a g →
    let s0 := s.opened .barMeet a g
    let x := s0.bar (s0.warp (leaderOf g)).blk (barLevel a) (barId a)
    let u := s0.unitNo (leaderOf g) (barLevel a)
    let again := (s0.warp (leaderOf g)).met = some (s0.warp (leaderOf g)).pc
    (again → s0.acqWaits g.ws = false →
      (hasArrived s0 g a = false → ∃ r, Completes (.barMeet a) a g s r ∧ ∀ m ∈ g, (r.warp m.1).met = none) ∧
      (hasArrived s0 g a = true → parks (.barMeet a) .barMeet a g s
        ((s0.modWarps g.ws fun y => { y with met := none }).modWarps g.ws fun y =>
          { y with park := .bar (barLevel a) (barId a) }))) ∧
    (¬again → comesAgain .barMeet a s g) ∧
    (¬again → MayArrive s0 g a → s0.acqWaits g.ws = false → x.arr ||| 2 ^ u = x.mem → ∃ r, Completes (.barMeet a) a g s r ∧
      arrived s0 r (s0.warp (leaderOf g)).blk (barLevel a) (barId a) u) ∧
    (¬again → MayArrive s0 g a → s0.acqWaits g.ws = false → x.arr ||| 2 ^ u ≠ x.mem → ∃ r, parks (.barMeet a) .barMeet a g s r ∧
      arrived s0 r (s0.warp (leaderOf g)).blk (barLevel a) (barId a) u ∧
      ∀ m ∈ g, (r.warp m.1).park = .bar (barLevel a) (barId a))) ∧
  (∀ (a : Args) (s : State) (g : Grp), s.IssuesPlain .barMemb a g →
    let s0 := s.opened .barMemb a g
    let b := (s0.warp (leaderOf g)).blk
    let m := (s0.sval g (srcA a)).toNat
    let x := s0.bar b (barLevel a) (barId a)
    s0.gridUndeclared (leaderOf g) a = false →
    barLevel a ≠ 2 → ¬(barLevel a = 0 ∧ barId a = 0) → x.arr = 0 → m ≠ 0 →
    m < (if barLevel a = 0 then 2 ^ 32 else 256) →
    m ||| s0.unitsAlive (leaderOf g) (barLevel a) = s0.unitsAlive (leaderOf g) (barLevel a) →
    Completes (.barMemb a) a g s (s0.setBar b (barLevel a) (barId a) { x with mem := m })) ∧
  (∀ (a : Args) (s : State) (g : Grp), s.IssuesPlain .barQry a g →
    let s0 := s.opened .barQry a g
    let x := s0.bar (s0.warp (leaderOf g)).blk (barLevel a) (barId a)
    s0.gridUndeclared (leaderOf g) a = false →
    ∃ r, Completes (.barQry a) a g s r ∧ s0.WroteD r { a with kd := .s } false g (fun _ => []) (fun _ _ =>
      BitVec.ofNat 64 (x.gen * 2 ^ 48 + min (unitsIn x.arr).length 255 * 2 ^ 40 + min (unitsIn x.mem).length 255 * 2 ^ 32 +
        (if barLevel a = 2 then 0 else x.mem % 2 ^ 32))) (fun _ => 0))

namespace Sys2Proof.Claims

/-- Where an `EQ` acts on its queue's control line: the line's location, its counts, the operands SQ and n. -/
structure OnQueue (s : State) (g : Grp) (o : Op) (a : Args) (s2 : State) (l : Nat) (q : QLine) : Prop where
  act : ∃ ent s1, s.eqQueue (leaderOf g) o a = .ok ent ∧ s.linePlace (leaderOf g) true ent.ctrl = (s1, .ok l) ∧
    s1.atomHeld (leaderOf g) (span l 64) = false ∧ (o = .eqPub ∨ o = .eqFree → s.relWaits g.ws .dev = false) ∧
    (o = .eqResv ∨ o = .eqTake → s.acqWaits g.ws = false) ∧
    s1.readLine g ent.ctrl l 64 = (s2, .ok q)
  good : q.bad = false

/-- An `EQ` completes: the count of its control line at `off` becomes `new`, and where it answers, D the old one. -/
def queueActs (o : Op) (a : Args) (s : State) (g : Grp) (s2 : State) (l off new : Nat) (old : Option Nat) : Prop :=
  ∃ r, Completes (Instr.ofOp o a) a g s r ∧
    (RowsKnown s2 → (∀ k ∈ span (l + off) 8, s2.discards k = false ∧ ¬s2.OnItsWay k) →
      ofBytes (r.mem.peek (l + off) 8) = BitVec.ofNat 64 new) ∧
    (∀ x, old = some x → ∀ m ∈ g, (r.warp m.1).sget a.d.toNat = BitVec.ofNat 64 x)

/-- An `EQ` waits for its queue: its leader holds the wait with what it read when it issued, the other members follow, and
all stand at the instruction. -/
def queueWaits (o : Op) (a : Args) (s : State) (g : Grp) (q : QLine) : Prop :=
  let s0 := s.opened o a g
  ∃ r, parks (Instr.ofOp o a) o a g s r ∧
    (r.warp (leaderOf g)).park =
      .eqWait g o a (s0.sval g (srcA a)).toNat (s0.sval g (srcB a 0)).toNat q.set_ ∧
    (∀ m ∈ g, m.1 ≠ leaderOf g → (r.warp m.1).park = .follow (leaderOf g)) ∧
    ∀ m ∈ g, (r.warp m.1).pc = ((s.opened o a g).warp m.1).pc

end Sys2Proof.Claims

open Claims in
/-- R201 to R204: `EQ.RESV` takes n slots once RES + n − FREED is at most NSLOT, and `EQ.TAKE` n items once TAKEN + n is at
most PUBH, answering the old count; `EQ.PUB` and `EQ.FREE` advance PUBH and FREED in order of sequence; each waits until
then. `EQ.STAT` reads a count. -/
def Sys2Proof.Claims.edgeQueues : Prop :=
  (∀ (a : Args) (s s2 : State) (g : Grp) (l : Nat) (q : QLine), s.IssuesPlain .eqResv a g →
    let s0 := s.opened .eqResv a g
    let n := (s0.sval g (srcB a 0)).toNat
    OnQueue s0 g .eqResv a s2 l q → 0 < n → n ≤ q.set_.nslot →
    (q.res + n ≤ q.set_.nslot + q.freed → queueActs .eqResv a s g s2 l 0 (q.res + n) (some q.res)) ∧
    (q.set_.nslot + q.freed < q.res + n → queueWaits .eqResv a s g q)) ∧
  (∀ (a : Args) (s s2 : State) (g : Grp) (l : Nat) (q : QLine), s.IssuesPlain .eqTake a g →
    let s0 := s.opened .eqTake a g
    let n := (s0.sval g (srcB a 0)).toNat
    OnQueue s0 g .eqTake a s2 l q → 0 < n → n ≤ q.set_.nslot →
    (q.taken + n ≤ q.pubh → queueActs .eqTake a s g s2 l 16 (q.taken + n) (some q.taken)) ∧
    (q.pubh < q.taken + n → queueWaits .eqTake a s g q)) ∧
  (∀ (a : Args) (s s2 : State) (g : Grp) (l : Nat) (q : QLine), s.IssuesPlain .eqPub a g →
    let s0 := s.opened .eqPub a g
    let sq := (s0.sval g (srcA a)).toNat
    let n := (s0.sval g (srcB a 0)).toNat
    OnQueue s0 g .eqPub a s2 l q → 0 < n → n ≤ q.set_.nslot → q.pubh ≤ sq → sq + n ≤ q.res →
    (q.pubh = sq → queueActs .eqPub a s g s2 l 8 (q.pubh + n) none) ∧ (q.pubh ≠ sq → queueWaits .eqPub a s g q)) ∧
  (∀ (a : Args) (s s2 : State) (g : Grp) (l : Nat) (q : QLine), s.IssuesPlain .eqFree a g →
    let s0 := s.opened .eqFree a g
    let sq := (s0.sval g (srcA a)).toNat
    let n := (s0.sval g (srcB a 0)).toNat
    OnQueue s0 g .eqFree a s2 l q → 0 < n → n ≤ q.set_.nslot → q.freed ≤ sq → sq + n ≤ q.taken →
    (q.freed = sq → queueActs .eqFree a s g s2 l 24 (q.freed + n) none) ∧ (q.freed ≠ sq → queueWaits .eqFree a s g q)) ∧
  (∀ (a : Args) (s s1 s2 : State) (g : Grp) (ent : QueueEnt) (l : Nat) (q : QLine), s.IssuesPlain .eqStat a g →
    let s0 := s.opened .eqStat a g
    s0.eqQueue (leaderOf g) .eqStat a = .ok ent → s0.linePlace (leaderOf g) false ent.ctrl = (s1, .ok l) →
    s0.ownHeld g.ws (span l 64) = false → s0.blocked (leaderOf g) s0.nextId (span l 64) = false →
    s1.readLine g ent.ctrl l 64 = (s2, .ok q) → q.bad = false →
    ∃ r, Completes (.eqStat a) a g s r ∧ ∀ m ∈ g, (r.warp m.1).sget a.d.toNat =
      (match a.sub.toNat with
       | 0 => BitVec.ofNat 64 q.res
       | 1 => BitVec.ofNat 64 q.pubh
       | 2 => BitVec.ofNat 64 q.taken
       | 3 => BitVec.ofNat 64 q.freed
       | 4 => BitVec.ofInt 64 ((q.set_.nslot : Int) - (q.res - q.freed))
       | _ => BitVec.ofInt 64 ((q.pubh : Int) - q.taken)))

/-- R201, R203: a waiting `EQ` acts, with the operands and the NSLOT of its issue, and goes on past its instruction once
the counts read anew allow it, and not before; a line that can no longer be read traps there. -/
def Sys2Proof.Claims.queueWake : Prop :=
  ∀ (s s1 : State) (w sq n : Nat) (g : Grp) (o : Op) (a : Args) (set_ : QSet),
    (s.warp w).park = .eqWait g o a sq n set_ → s.waitKept w = false →
    (∀ x, s.lineAgain g o a 32 = (s1, .error x) → exec (.eqWaitSatisfied w) s = .next (s1.trapSet g.ws x)) ∧
    ∀ l q0, s.lineAgain g o a 32 = (s1, .ok (l, q0)) → s.atomHeld w (span l 64) = false → g.ws.Nodup →
    (∀ m ∈ g, (mfind s1.warps m.1).isSome) → o ∈ [Op.eqResv, .eqPub, .eqTake, .eqFree] →
    let q := { q0 with set_ }
    (q.ready o sq n = false → exec (.eqWaitSatisfied w) s = .next s) ∧
    (q.ready o sq n = true →
      ∃ t, exec (.eqWaitSatisfied w) s = .next t ∧
        (∀ m ∈ g, (t.warp m.1).pc = (s1.warp m.1).pc + BitVec.ofNat 64 (argBytes a) ∧ (t.warp m.1).park = .none) ∧
        ((o = .eqResv ∨ o = .eqTake) → ∀ m ∈ g, (t.warp m.1).sget a.d.toNat =
          BitVec.ofNat 64 (if o = .eqResv then q.res else q.taken)))

open Claims in
/-- R206: `WAIT` completes once the warp's outstanding loads, stores, tile and bank operations are within its four limits,
and stalls until then; no register and no byte of memory changes. -/
def Sys2Proof.Claims.waits : Prop :=
  ∀ (a : Args) (s : State) (g : Grp), s.IssuesPlain .wait a g →
    let s0 := s.opened .wait a g
    let x := s0.warp (leaderOf g)
    let met := x.ldCnt ≤ a.d.toNat ∧ x.stCnt ≤ a.a.toNat ∧ x.tileCnt ≤ a.b.toNat ∧ x.bankCnt ≤ a.c.toNat
    (met → ∃ r, Completes (.wait a) a g s r ∧ r = { s0 with warps := r.warps } ∧
      ∀ w, r.warp w = { s0.warp w with floors := (r.warp w).floors, tileDone := (r.warp w).tileDone }) ∧
    (¬met → ∃ t, exec (.wait a) s = .next t ∧ (t.warp s.cur).pc = (s0.warp s.cur).pc ∧ t.mem = s0.mem)

/-- R176, R178, R179, R182: sealing and completing a batch of copies, and what a piece moves. What the rules leave to be
read, or open, is as notes/assumptions/14 says. -/
def Obligations.CopyBatches : Prop :=
  Claims.copySeal ∧ Claims.copyComplete ∧ Claims.copyPiece

/-- R192 to R195, R371: `CSIG`, and the increment that the counter's home performs. What the rules leave to be read, or
open, is as notes/assumptions/21 says. -/
def Obligations.CounterSignals : Prop :=
  Claims.counterSignal ∧ Claims.counterIncrement

/-- R201 to R204: the `EQ` instructions, and the end of their waits. What the rules leave to be read, or open, is as
notes/assumptions/25 says. -/
def Obligations.EdgeQueues : Prop :=
  Claims.edgeQueues ∧ Claims.queueWake

/-- R205, R206, R277, R278: `PHASE` releases and acquires; `WAIT` waits for the warp's outstanding operations. -/
def Obligations.PhasesWaits : Prop :=
  Claims.phases ∧ Claims.waits
/-! ## The matrix array, spectral mode and the transform pipes -/

namespace Sys2Proof.Claims

/-- An array operation completes at issue: it is the last of its core's path, with the modes of its warp, and counts in the
tile class of every member; no register changes, nor memory but by what was on its way. -/
def queuesOp (o : Op) (a : Args) (s : State) (g : Grp) (cmd : ArrCmd) : Prop :=
  let s0 := s.opened o a g
  let w := leaderOf g
  let k := s0.coreOf w
  ∃ r e, Completes (Instr.ofOp o a) a g s r ∧ (r.core k).arr = (s0.core k).arr ++ [e] ∧ e.cmd = cmd ∧ e.members = g.ws ∧
    e.fpmode = (s0.warp w).fpmode ∧ e.ashape = (s0.warp w).ashape ∧ e.blk = (s0.warp w).blk ∧
    (∀ m ∈ g, (r.warp m.1).tileCnt = (s0.warp m.1).tileCnt + 1 ∧ (r.warp m.1).s = (s0.warp m.1).s ∧
      (r.warp m.1).v = (s0.warp m.1).v) ∧
    (r.core k).tiles = (s0.core k).tiles ∧ (r.core k).latch = (s0.core k).latch ∧
    ∀ l, ¬s0.OnItsWay l → r.mem.byte l = s0.mem.byte l

/-- The members' tile class has room. -/
def pathOpen (s : State) (g : Grp) : Prop := ∀ m ∈ g, (s.warp m.1).tileCnt < 255

/-- Whether a band has failed that a product of the group enables. -/
def bandLost (s : State) (g : Grp) (b : Nat) : Prop :=
  bandOn (s.warp (leaderOf g)).ashape b = true ∧ ((s.core (s.coreOf (leaderOf g))).band b).failed = true

/-- A product completes at issue: it is queued where every band that it enables works; where one has failed it counts as
complete at once and each member records the late trap of the lowest such band (R358). -/
def queuesProduct (o : Op) (a : Args) (s : State) (g : Grp) (cmd : ArrCmd) : Prop :=
  let s0 := s.opened o a g
  ((∀ b < 4, ¬bandLost s0 g b) → queuesOp o a s g cmd) ∧
  ∀ b < 4, bandLost s0 g b → (∀ c < b, ¬bandLost s0 g c) →
    ∃ r, Completes (Instr.ofOp o a) a g s r ∧
      (r.core (s0.coreOf (leaderOf g))).arr = (s0.core (s0.coreOf (leaderOf g))).arr ∧
      ∀ m ∈ g, (r.warp m.1).tileCnt = (s0.warp m.1).tileCnt ∧
        ((s0.warp m.1).late = none → (r.warp m.1).late = some ⟨0x1C, 0x80 + b, 0, .array⟩)

/-- An array operation traps at issue with none of its effect. -/
def arrayTraps (o : Op) (a : Args) (s : State) (g : Grp) (x : Trap) : Prop :=
  exec (Instr.ofOp o a) s = .next (State.finish s.cur g o a (.trap (s.stood o a g) x))

/-- The same where the effect had come as far as a state r: what storage has reported of errors stays (R366, R371, R373). -/
def fallsAt (o : Op) (a : Args) (s : State) (g : Grp) (r : State) (x : Trap) : Prop :=
  exec (Instr.ofOp o a) s = .next (State.finish s.cur g o a (.trap ((s.stood o a g).keepErrors r) x))

end Sys2Proof.Claims

open Claims in
/-- R219 to R224, R241, R358: each array instruction raises the first fault that its checks find, else queues its
operation; a product that enables a failed band counts as complete with a late trap instead; `TSHP` writes its record, BASE
moved to the block's scratch. -/
def Obligations.ArrayIssue : Prop :=
  (∀ (a : Args) (s : State) (g : Grp), s.IssuesPlain .tshp a g →
    let s0 := s.opened .tshp a g
    let w := leaderOf g
    let r := s0.sval g (srcB a 0) ++ s0.sval g (srcA a)
    (∀ x, tshpTrap (s0.blkOf w) r = some x → arrayTraps .tshp a s g x) ∧
    (tshpTrap (s0.blkOf w) r = none →
      ∃ t, Completes (.tshp a) a g s t ∧ t = { s0 with cores := t.cores } ∧
        (t.record w a.d.toNat).extractLsb' 0 20 = r.extractLsb' 0 20 ∧
        (t.record w a.d.toNat).extractLsb' 42 86 = r.extractLsb' 42 86 ∧
        (shapeOf (t.record w a.d.toNat)).base = ((s0.blkOf w).scrBase + (shapeOf r).base) % 2 ^ 22 ∧
        ∀ k, t.core k = { s0.core k with recs := (t.core k).recs, recWas := (t.core k).recWas })) ∧
  (∀ (a : Args) (s : State) (g : Grp), s.IssuesPlain .wld a g →
    let s0 := s.opened .wld a g
    let w := leaderOf g
    let r := s0.record w a.d.toNat
    let x := s0.sval g (srcA a) + immOff a
    (∀ t, s0.wldTrap w a r x = some t → arrayTraps .wld a s g t) ∧
    (s0.wldTrap w a r x = none → pathOpen s0 g →
      queuesOp .wld a s g (.wld (x.toNat % 2 ^ 40) r (recFmt (s0.warp w).fpmode (shapeOf r).fmt) a.sub.toNat))) ∧
  (∀ (a : Args) (s : State) (g : Grp), s.IssuesPlain .mma a g →
    let s0 := s.opened .mma a g
    let w := leaderOf g
    let r := s0.record w a.a.toNat
    (∀ t, s0.mmaTrap w a r = some t → arrayTraps .mma a s g t) ∧
    (s0.mmaTrap w a r = none → pathOpen s0 g →
      queuesProduct .mma a s g (.mma a.d.toNat r (recFmt (s0.warp w).fpmode (shapeOf r).fmt) (a.func == 1) a.xp))) ∧
  (∀ (a : Args) (s : State) (g : Grp), s.IssuesPlain .smma a g →
    let s0 := s.opened .smma a g
    let w := leaderOf g
    let ra := s0.record w a.a.toNat
    let rc := s0.record w a.c.toNat
    let x := s0.sval g (srcB a 0) + immOff a
    (∀ t, s0.smmaTrap w a ra rc x = some t → arrayTraps .smma a s g t) ∧
    (s0.smmaTrap w a ra rc x = none → pathOpen s0 g →
      queuesProduct .smma a s g (.smma a.d.toNat ra rc (x.toNat % 2 ^ 40) (a.func == 1)))) ∧
  (∀ (a : Args) (s : State) (g : Grp), s.IssuesPlain .tst a g →
    let s0 := s.opened .tst a g
    let w := leaderOf g
    let r := s0.record w a.d.toNat
    let h := shapeOf r
    let f := a.func.toNat
    (∀ t, storeShapeTrap (s0.blkOf w) h a.a.toNat (f % 2 == 1) = some t → arrayTraps .tst a s g t) ∧
    (storeShapeTrap (s0.blkOf w) h a.a.toNat (f % 2 == 1) = none →
    (s0.tstTagBad (s0.blkOf w) h a.a.toNat = true → arrayTraps .tst a s g ⟨0x08, 0x03, 0⟩) ∧
    (s0.tstTagBad (s0.blkOf w) h a.a.toNat = false → pathOpen s0 g →
      queuesOp .tst a s g (.tst a.a.toNat r (recFmt (s0.warp w).fpmode h.fmt) f (rndOf (s0.warp w).fpmode a.rnd) a.sat
        (if 2 ≤ f then ((s0.warp w).lossScale.extractLsb' 0 8).toInt else 0))))) ∧
  (∀ (a : Args) (s : State) (g : Grp), s.IssuesPlain .tld a g →
    let s0 := s.opened .tld a g
    let w := leaderOf g
    let r := s0.record w a.a.toNat
    (∀ t, storeShapeTrap (s0.blkOf w) (shapeOf r) a.d.toNat false = some t → arrayTraps .tld a s g t) ∧
    (storeShapeTrap (s0.blkOf w) (shapeOf r) a.d.toNat false = none → pathOpen s0 g →
      queuesOp .tld a s g (.tld a.d.toNat r (recFmt (s0.warp w).fpmode (shapeOf r).fmt)))) ∧
  (∀ (a : Args) (s : State) (g : Grp), s.IssuesPlain .tzero a g → pathOpen (s.opened .tzero a g) g →
    queuesOp .tzero a s g (.tzero a.d.toNat a.imm.toNat))

namespace Sys2Proof.Claims

/-- The element of A that row i of a product takes at place k of K: the stored element, transposed by XP, times its block
scale where the format has one (R214, R221). -/
def elemOfA (x : Shape) (f : FFmt) (xp : Bool) (st : List (List FVal)) (sc : List (List Nat)) (i k : Nat) : FVal :=
  let e := if xp then (st.getD k []).getD i (.fin false 0 0) else (st.getD i []).getD k (.fin false 0 0)
  if f.width = 8 then product [e, scaleVal ((sc.getD i []).getD (k / x.blk) 0)] else e

/-- The oldest operation of a core has completed: it has left the path and its members' tile class. -/
structure OpLeft (s t : State) (core : Nat) (o : ArrOp) : Prop where
  path  : (t.core core).arr = (s.core core).arr.tail
  count : ∀ w ∈ o.members, (t.warp w).tileCnt = (s.warp w).tileCnt - 1
  regs  : ∀ w, (t.warp w).v = (s.warp w).v ∧ (t.warp w).s = (s.warp w).s ∧ (t.warp w).p = (s.warp w).p

/-- Exactly the tile elements that `sel` picks change, to `val`. -/
def tilesBecome (c d : Core) (sel : Nat → Nat → Nat → Prop) (val : Nat → Nat → Nat → Nat) : Prop :=
  ∀ t i j, i < 64 → j < 256 → (sel t i j → d.tileGet t i j = val t i j % 2 ^ 32) ∧ (¬sel t i j → d.tileGet t i j = c.tileGet t i j)

end Sys2Proof.Claims

open Claims in
/-- R207, R212, R215, R221, R99: the oldest operation of a core completes. An `MMA` whose exact sums agree with the checksum
column, and for which no comparison fails, adds to each element of its tiles, band by band, the promoted exact sum of its
products with the latched weights; every other element stays. A `WLD` latches its weights with their checksum column, or
records the late trap of its first wrong mask; a `TZERO` clears its tiles. No tile word is damaged (R366, notes/assumptions/36);
what the rules leave to be read, or open, is as notes/assumptions/23 says. -/
def Obligations.ArrayProducts : Prop :=
  (∀ (s s1 s2 : State) (core : Nat) (o : ArrOp) (ph t : Nat) (r : BitVec 128) (f : FFmt) (z xp : Bool)
      (st : List (List FVal)) (sc : List (List Nat)),
    s.arrHead core = some o → o.cmd = .mma t r f z xp → o.phase = .running ph → o.members.Nodup →
    (∀ w ∈ o.members, (mfind s.warps w).isSome) →
    let x := shapeOf r
    let m := if xp then x.cols else x.rows
    let k := if xp then x.rows else x.cols
    let s0 := s.modCore core id
    let fl := s0.arrFloors core o
    (∀ g ∈ s.sumsDiffer core o r f xp, g = []) → (s.core core).tileErr = [] →
    s0.readStored fl core x f (List.range x.rows) = (s1, st) →
    (if f.width = 8 then s1.readScales fl core x m ((k + x.blk - 1) / x.blk) else (s1, [])) = (s2, sc) →
    m % 64 = 0 → t + m / 64 ≤ 8 → (∀ i j, i < 8 → j < 8 → (s.blk o.blk).tileNo i = (s.blk o.blk).tileNo j → i = j) →
    let b := s.blk o.blk
    let c := s.core core
    ∃ u, exec (.arrayOpComplete core []) s = .next u ∧ OpLeft s u core o ∧ u.mem = s2.mem ∧
      tilesBecome c (u.core core)
        (fun n i j => (∃ q < m / 64, n = b.tileNo (t + q)) ∧ i < 64 ∧ j ∈ columnsOf o.ashape c.latch.n)
        (fun n i j => (bandLoop (bandsOf o.ashape) o.fpmode (fun band =>
          ((c.latch.column j).filter fun e => e.1 == band).map fun e =>
            ({ x := elemOfA x f xp st sc (64 * (((List.range 8).find? fun q => b.tileNo (t + q) == n).getD 0) + i) e.2.1
               y := e.2.2 } : PTerm)) (if z then 0 else c.tileGet n i j)).1)) ∧
  (∀ (s s1 : State) (core : Nat) (o : ArrOp) (x sparse : Nat) (r : BitVec 128) (f : FFmt) (cols : List (List Byte)),
    s.arrHead core = some o → o.cmd = .wld x r f sparse → o.phase = .queued → o.members.Nodup →
    (∀ w ∈ o.members, (mfind s.warps w).isSome) →
    let cs := sliceSize (shapeOf r).fmt sparse
    s.readSlices (s.arrFloors core o) core x (shapeOf r).cols cs = (s1, cols, none) →
    (badMask x cs sparse (shapeOf r).rows cols = none →
      ∃ u, exec (.wldComplete core) s = .next u ∧ OpLeft s u core o ∧ u.mem = s1.mem ∧
        (u.core core).latch = (latchOf r f sparse cols).withSums ∧ (u.core core).tiles = (s.core core).tiles) ∧
    (∀ p, badMask x cs sparse (shapeOf r).rows cols = some p →
      ∃ u, exec (.wldComplete core) s = .next u ∧ (u.core core).latch.valid = false ∧
        ∀ w ∈ o.members, (s.warp w).late = none → (u.warp w).late = some ⟨0x09, 0x08, vaultPtr core p, .array⟩)) ∧
  (∀ (s : State) (core : Nat) (o : ArrOp) (t n : Nat) (chk : List GroupCheck), s.arrHead core = some o → o.cmd = .tzero t n →
    o.phase = .queued → o.members.Nodup → (∀ w ∈ o.members, (mfind s.warps w).isSome) →
    let b := s.blk o.blk
    ∃ u, exec (.arrayOpComplete core chk) s = .next u ∧ OpLeft s u core o ∧ u.mem = s.mem ∧
      tilesBecome (s.core core) (u.core core) (fun k _ _ => ∃ q < n, k = b.tileNo (t + q)) (fun _ _ _ => 0) ∧
      ∀ q < n, mget .neutral (u.core core).tags (b.tileNo (t + q)) = .neutral)

open Claims in
/-- R222, R223, R242, R371: a `TST` that completes writes exactly its bytes of scratch; a `TLD` gives each element of
its tiles the stored value rounded to FP32; an `SMMA` adds to each element of its tiles, band by band, the promoted
exact sum of its bins' products, and leaves no valid weights; one whose weights hold poison writes no tile and records
the late trap. What the rules leave to be read, or open, is as notes/assumptions/23 says. -/
def Obligations.ArrayTransfers : Prop :=
  (∀ (s : State) (core : Nat) (o : ArrOp) (t : Nat) (r : BitVec 128) (f : FFmt) (mode : Nat) (rnd : Rnd) (sat : Bool)
      (se : Int) (bs : List (Nat × Byte)) (flags : Nat) (chk : List GroupCheck),
    s.arrHead core = some o → o.cmd = .tst t r f mode rnd sat se → o.phase = .queued → o.members.Nodup →
    (∀ w ∈ o.members, (mfind s.warps w).isSome) → (s.core core).tileErr = [] →
    tstBytes (s.core core) (s.blk o.blk) core t (shapeOf r) f mode rnd sat (fpNanp o.fpmode) se = (bs, flags) →
    ∃ u, exec (.arrayOpComplete core chk) s = .next u ∧ OpLeft s u core o ∧ (u.core core).tiles = (s.core core).tiles ∧
      (∀ l, l ∉ bs.map (·.1) → u.mem.byte l = s.mem.byte l) ∧
      ((bs.map (·.1)).Nodup → ∀ e ∈ bs, 2 ^ 50 ≤ e.1 → u.mem.byte e.1 = e.2) ∧
      ∀ w ∈ o.members, (u.warp w).ovf = (s.warp w).ovf ||| BitVec.ofNat 64 flags) ∧
  (∀ (s s1 : State) (core : Nat) (o : ArrOp) (t : Nat) (r : BitVec 128) (f : FFmt) (st : List (List FVal))
      (chk : List GroupCheck),
    s.arrHead core = some o → o.cmd = .tld t r f → o.phase = .queued → o.members.Nodup →
    (∀ w ∈ o.members, (mfind s.warps w).isSome) → (s.core core).tileErr = [] → f.width ≠ 8 →
    (shapeOf r).cols ≤ 256 →
    t + ((shapeOf r).rows + 63) / 64 ≤ 8 →
    (∀ i j, i < 8 → j < 8 → (s.blk o.blk).tileNo i = (s.blk o.blk).tileNo j → i = j) →
    s.readStored (s.arrFloors core o) core (shapeOf r) f (List.range (shapeOf r).rows) = (s1, st) →
    let b := s.blk o.blk
    let row (n i : Nat) : Nat := 64 * (((List.range 8).find? fun q => b.tileNo (t + q) == n).getD 0) + i
    ∃ u, exec (.arrayOpComplete core chk) s = .next u ∧ OpLeft s u core o ∧ u.mem = s1.mem ∧
      tilesBecome (s.core core) (u.core core)
        (fun n i j => (∃ q < ((shapeOf r).rows + 63) / 64, n = b.tileNo (t + q)) ∧ row n i < (shapeOf r).rows ∧
          j < (shapeOf r).cols)
        (fun n i j =>
          let e := (st.getD (row n i) []).getD j (.fin false 0 0)
          let v := (product [e, .fin false 1 0]).scale (if (shapeOf r).dom = 1 then (shapeOf r).sexp else 0)
          (roundTo .f32 .rne false false [e, v] v).1)) ∧
  (∀ (s s1 s2 : State) (core : Nat) (o : ArrOp) (ph t x : Nat) (ra rc : BitVec 128) (z : Bool) (bad : Option Nat)
      (raw : List (List (Byte × Bool))) (st : List (List FVal)),
    s.arrHead core = some o → o.cmd = .smma t ra rc x z → o.phase = .running ph → o.members.Nodup →
    (∀ w ∈ o.members, (mfind s.warps w).isSome) →
    let p := shapeOf ra
    let q := shapeOf rc
    let f := recFmt o.fpmode q.fmt
    let slabs := raw.map (slabVals f (fmtBytes q.fmt))
    let b := s.blk o.blk
    let s0 := s.modCore core id
    s0.readSlabs (s0.arrFloors core o) core x q = (s1, raw, bad) →
    (∀ v, bad = some v →
      ∃ u, exec (.arrayOpComplete core []) s = .next u ∧ OpLeft s u core o ∧ u.mem = s1.mem ∧
        (u.core core).tiles = (s.core core).tiles ∧ (u.core core).latch.valid = false ∧
        ∀ w ∈ o.members, (s.warp w).late = none → (u.warp w).late = some ⟨0x14, 0x80, vaultPtr core v, .array⟩) ∧
    (bad = none → (s.core core).tileErr = [] → p.rows % 64 = 0 → t + p.rows / 64 ≤ 8 → q.cols * q.b ≤ 256 →
      (∀ i j, i < 8 → j < 8 → b.tileNo i = b.tileNo j → i = j) →
      (s1.modCore core fun c => { c with latch := smmaLatch q f raw }).readStored (s0.arrFloors core o) core p
        (recFmt o.fpmode p.fmt) (List.range p.rows) = (s2, st) →
      ∃ u, exec (.arrayOpComplete core []) s = .next u ∧ OpLeft s u core o ∧ u.mem = s2.mem ∧
        (u.core core).latch.valid = false ∧
        tilesBecome (s.core core) (u.core core)
          (fun n i j => (∃ k < p.rows / 64, n = b.tileNo (t + k)) ∧ i < 64 ∧ j ∈ columnsOf o.ashape (q.cols * q.b))
          (fun n i j =>
            let row := st.getD (64 * (((List.range 8).find? fun k => b.tileNo (t + k) == n).getD 0) + i) []
            (bandLoop (bandsOf o.ashape) o.fpmode
              (smmaTerms q (p.sexp + q.sexp) (fun k => row.getD k (.fin false 0 0)) slabs (j / q.b) (j % q.b))
              (if z then 0 else (s.core core).tileGet n i j)).1)))

open Claims in
/-- R246: `TAG.SET` gives a record the domain, block size and exponent of its immediate, `TAG.ADJ` adds to the exponent of a
spectral record, and `TAG.QRY` reads bits 79:64 of a record; each changes nothing else, and refuses what its rule says. -/
def Obligations.Tags : Prop :=
  (∀ (a : Args) (s : State) (g : Grp), s.IssuesPlain .tagSet a g →
    let s0 := s.opened .tagSet a g
    let w := leaderOf g
    let i := a.imm.toNat
    let r := withDomain (s0.record w a.a.toNat) (i % 4) (i / 4 % 4) (i / 16 % 64)
    (∀ x, tagSetTrap (s0.blkOf w) r = some x → arrayTraps .tagSet a s g x) ∧
    (tagSetTrap (s0.blkOf w) r = none →
      ∃ t, Completes (.tagSet a) a g s t ∧ t = { s0 with cores := t.cores } ∧ t.record w a.d.toNat = r ∧
        r.extractLsb' 70 10 = BitVec.ofNat 10 (i % 1024) ∧
        r.extractLsb' 0 70 = (s0.record w a.a.toNat).extractLsb' 0 70 ∧
        r.extractLsb' 80 48 = (s0.record w a.a.toNat).extractLsb' 80 48)) ∧
  (∀ (a : Args) (s : State) (g : Grp), s.IssuesPlain .tagAdj a g →
    let s0 := s.opened .tagAdj a g
    let w := leaderOf g
    let x := shapeOf (s0.record w a.a.toNat)
    let e := x.sexp + a.imm.toInt
    ((e < -32 ∨ 31 < e) → arrayTraps .tagAdj a s g ⟨0x08, 0x04, 0⟩) ∧
    (x.dom = 0 → -32 ≤ e → e ≤ 31 → arrayTraps .tagAdj a s g ⟨0x08, 0x01, 0⟩) ∧
    (x.dom ≠ 0 → -32 ≤ e → e ≤ 31 →
      ∃ t, Completes (.tagAdj a) a g s t ∧ t = { s0 with cores := t.cores } ∧
        shapeOf (t.record w a.d.toNat) = { x with sexp := e })) ∧
  (∀ (a : Args) (s : State) (g : Grp), s.IssuesPlain .tagQry a g →
    let s0 := s.opened .tagQry a g
    let w := leaderOf g
    Completes (.tagQry a) a g s (s0.modWarp w fun x =>
      x.sset a.d.toNat (((s0.record w a.a.toNat).extractLsb' 64 16).setWidth 64)))

open Claims in
/-- R235 to R239: an `XFFT` reads its registers and enters the transform pipe of its partition, where one that the pipe can
serve is accepted; its destinations await the result, which is written 48 clocks after the last register was accepted. -/
def Obligations.Transforms : Prop :=
  (∀ o ∈ [(Op.xfftFwd, true), (Op.xfftInv, false)], ∀ (a : Args) (s : State) (g : Grp),
    s.Issues o.1 a (fun s g => s.xfftPoison a g) g →
    let s0 := s.opened o.1 a g
    let w := leaderOf g
    let x := s0.warp w
    let h := shapeOf (s0.record w a.b.toNat)
    let k := s0.coreOf w
    let n := max 1 (h.b * fmtBytes h.fmt / 256)
    (∀ t, xfftTrap (s0.blkOf w) h = some t → arrayTraps o.1 a s g t) ∧
    (xfftTrap (s0.blkOf w) h = none → a.d.toNat + n ≤ x.nregs → a.a.toNat + n ≤ x.nregs →
      (∀ m ∈ span a.a.toNat n ++ span a.d.toNat n, BusyReg.v m ∉ x.busy) → x.tileCnt < 255 →
      ((s0.core k).pipe x.pipe).wait = [] → ((s0.core k).pipe x.pipe).free s0.clock = true →
      ∃ r e, Completes (Instr.ofOp o.1 a) a g s r ∧ ((r.core k).pipe x.pipe).ops = ((s0.core k).pipe x.pipe).ops ++ [e] ∧
        e.w = w ∧ e.d = a.d.toNat ∧ e.r = n ∧ e.start = s0.clock ∧ r.mem = s0.mem ∧
        r.warp w = { x with
          tileCnt := x.tileCnt + 1, tileSeq := x.tileSeq + 1, busy := (span a.d.toNat n).map BusyReg.v ++ x.busy } ∧
        (h.b * fmtBytes h.fmt = 256 → e.res = xfftLanes e.d (fmtBytes h.fmt) (xfftBlock o.2 (recFmt x.fpmode h.fmt) (4 + h.bsz) h.sexp a.sat
          ((x.xfftElems a.a.toNat n (fmtBytes h.fmt)).map (decodeF (recFmt x.fpmode h.fmt)))).1))) ∧
  (∀ (s : State) (core pipe : Nat) (p : Nat) (e : PipeOp), ((s.core core).pipe pipe).free s.clock = true →
    ((s.core core).pipe pipe).wait = [(p, e)] → p / 4 = pipe →
    ∃ t, exec (.xfftAccept core pipe) s = .next t ∧ ((t.core core).pipe pipe).wait = [] ∧
      ((t.core core).pipe pipe).ops = ((s.core core).pipe pipe).ops ++ [{ e with start := s.clock }] ∧ t.warps = s.warps ∧
      t.mem = s.mem) ∧
  (∀ (s : State) (core pipe : Nat) (e : PipeOp) (es : List PipeOp), ((s.core core).pipe pipe).ops = e :: es →
    (s.clock < e.start + 4 * e.r + 48 → exec (.xfftComplete core pipe) s = .next s) ∧
    (e.start + 4 * e.r + 48 ≤ s.clock → (mfind s.warps e.w).isSome → (s.warp e.w).retired = false →
      (e.res.map (·.1)).Nodup →
      ∃ t, exec (.xfftComplete core pipe) s = .next t ∧ ((t.core core).pipe pipe).ops = es ∧ t.mem = s.mem ∧
        (∀ v, v ≠ e.w → t.warp v = s.warp v) ∧ (t.warp e.w).tileCnt = (s.warp e.w).tileCnt - 1 ∧
        (t.warp e.w).ovf = (s.warp e.w).ovf ||| BitVec.ofNat 64 e.flags ∧
        ∀ n l, l < 32 → (t.warp e.w).vget n l =
          match e.res.find? fun x => x.1 == 32 * n + l with
          | some x => x.2
          | none => (s.warp e.w).vget n l))
/-! ## Compute at the banks: near-bank operations, jigs, the journal -/

namespace Sys2Proof.Claims

/-- An engine operation of warp w has completed: the batch of its sequence number, which stood alone on its register, has
written `value` there; the warp's bank class counts one less, and no other register of the warp changed since s1. -/
structure TokenWritten (s1 t : State) (w : Nat) (b : Batch) (value : Word) (held : Nat) : Prop where
  token : (t.warp w).sget b.reg = value
  others : ∀ n, n ≠ b.reg → (t.warp w).sget n = (s1.warp w).sget n
  vregs : (t.warp w).v = (s1.warp w).v
  class_ : (t.warp w).bankCnt = (s1.warp w).bankCnt - held
  warps : ∀ v, v ≠ w → t.warp v = s1.warp v

/-- A warp's batch b is the only one that its register awaits, sealed and without a value yet. -/
structure LoneBatch (s : State) (w seq : Nat) (b : Batch) : Prop where
  here   : (mfind s.warps w).isSome
  live   : (s.warp w).retired = false
  mem    : b ∈ (s.warp w).batches
  sealed : b.sealed = true ∧ b.seq = seq ∧ b.value = none ∧ b.written = false
  alone  : ∀ c ∈ (s.warp w).batches, c.sealed = true → (c.seq = seq ∨ c.reg = b.reg ∧ c.written = false) → c = b
  once   : (s.warp w).batches.count b = 1

/-- The forms of `NB` by FUNC. -/
def nbForms : List (Op × Nat) :=
  [(.nbDot, 0), (.nbAxpy, 1), (.nbScale, 2), (.nbSum, 3), (.nbFill, 4), (.nbCmpz, 5)]

end Sys2Proof.Claims

open Claims in
/-- R248, R249, R251, R253, R270: `NB` traps as its range checks, the placement rule of AXPY or a full journal say; else it
completes at issue as a sealed batch on D with the warp's next sequence number, one more operation of the bank class, after
a release, and no register and no byte of memory changes; a writing form joins the context's open step. -/
def Sys2Proof.Claims.nearBankIssue : Prop :=
  ∀ e ∈ nbForms, ∀ (a : Args) (s : State) (g : Grp), s.IssuesPlain e.1 a g →
    let s0 := s.opened e.1 a g
    let w := leaderOf g
    let x := s0.warp w
    let wr := nbWrites e.2
    let pa := s0.sval g (srcA a)
    let pb := s0.sval g (srcB a 0)
    let len := if a.kc = .x then lenC a else s0.sval g (srcC a)
    let gs : List Rng := { p := pa, n := len.toNat, write := wr } ::
      (if e.2 ≤ 1 then [{ p := pb, n := len.toNat, write := false }] else [])
    (∀ s1 t, s0.rngCheck w gs (nbAlign wr gs len) = (s1, .error t) → fallsAt e.1 a s g s1 t) ∧
    (∀ s1 rs, s0.rngCheck w gs (nbAlign wr gs len) = (s1, .ok rs) →
      let ra := (rs.getD 0 ([], true)).1
      let rb := rs.getD 1 ([], true)
      let rows := if wr then rangeRows pa ra len.toNat else []
      let place := if e.2 = 1 then axpyPlace pa ra pb rb.1 rb.2 len.toNat else none
      (∀ t, place = some t → fallsAt e.1 a s g s1 t) ∧
      (place = none → ∀ t, s1.jrnTrap x.ctx rows = some t → fallsAt e.1 a s g s1 t) ∧
      (place = none → s1.jrnTrap x.ctx rows = none → x.bankCnt < 255 → x.outstanding < 8 →
        s1.relWaits [w] .dev = false →
        ∃ r id, Completes (Instr.ofOp e.1 a) a g s r ∧
          mfind r.pend id = some (.nb w x.nextSeq e.2 a pa pb ra rb.1 len.toNat (s0.sval g (srcD a)) x.fpmode
            (r.warp w).fl (r.warp w).rels) ∧
          { reg := a.d.toNat, seq := x.nextSeq, sealed := true, ops := [id] } ∈ (r.warp w).batches ∧
          State.Accessed s0.OnItsWay (onWarp w fun x => { x with
              batches := (r.warp w).batches, nextSeq := (r.warp w).nextSeq, bankCnt := x.bankCnt + 1 })
            s0 { r with ctxs := s0.ctxs } ∧
          r.ctxs = if wr then (s0.jrnAdd x.ctx id).ctxs else s0.ctxs))

open Claims in
/-- R252, R253, R254, R265, R383: `NB_COMPLETE` runs an operation column by column. `FILL` gives every element of its range
the constant's low bits and changes no other byte; a reading form writes its result to D and changes no byte, integer sums
and counts being exact over every element read; a writing form writes SEQ, with ERR where a column could not be corrected,
with CANC where a row's die is offline; one that meets rows held by a pass waits. Each column read or written charges the
issuing context 0.02 nJ (R268). -/
def Sys2Proof.Claims.nearBankComplete : Prop :=
  (∀ (s : State) (id w seq func len : Nat) (a : Args) (pa pb alpha fp : Word) (ra rb : List Nat) (fl : SMap Nat)
      (rels : List Nat) (b : Batch),
    mfind s.pend id = some (.nb w seq func a pa pb ra rb len alpha fp fl rels) → LoneBatch s w seq b →
    let rows := rangeRows pa ra len
    let off := rows.any fun r => s.offline (homeDie r.2)
    let c := (s.warp w).ctx
    let s1 := if nbWrites func then s.jrnAdd c id else s
    let n := 32 / (a.ty.width / 8)
    let acc := nbLoop w func c a alpha fp fl rels ((s1.ctx c).jrn.ops.contains id) pa pb ra rb (len / 32) 0
      { st := s1, p := List.replicate n 0, q := List.replicate n 0 }
    (nbWrites func = true → off = true →
      ∃ t, exec (.nbComplete id) s = .next t ∧ t.mem = s.mem ∧ mfind t.pend id = none ∧
        TokenWritten s t w b (BitVec.ofNat 64 (seq + 2 ^ 62)) 1) ∧
    (nbWrites func = true → off = false → s.nbHeld w id fl rows = true → exec (.nbComplete id) s = .next s) ∧
    (nbWrites func = true → off = false → s.nbHeld w id fl rows = false → LoneBatch acc.st w seq b →
      ∃ t, exec (.nbComplete id) s = .next t ∧ t.mem = acc.st.mem ∧ mfind t.pend id = none ∧
        TokenWritten acc.st t w b (BitVec.ofNat 64 (seq + if acc.err.isSome then 2 ^ 63 else 0)) 1) ∧
    (nbWrites func = false → LoneBatch acc.st w seq b →
      ∃ t, exec (.nbComplete id) s = .next t ∧ t.mem = acc.st.mem ∧ mfind t.pend id = none ∧
        TokenWritten acc.st t w b
          (if acc.err.isSome then (if func ≠ 5 ∧ a.ty.isFloat = true then 0x7FC00D0D else 0)
           else (nbResult func a.ty fp acc).1) 1 ∧
        (acc.err.isSome → (t.warp w).smark b.reg ≠ none))) ∧
  (∀ (w c : Nat) (a : Args) (alpha fp : Word) (fl : SMap Nat) (rels : List Nat) (pa pb : Word) (ra rb : List Nat) (n : Nat)
      (acc : NbAcc),
    acc.stop = false → (acc.st.cores.all fun e => e.2.uLines.isEmpty) = true → RowsKnown acc.st →
    let cols := (List.range n).map fun k => locAt pa ra (32 * k)
    (cols.flatMap fun l => span l 32).Nodup → (∀ l ∈ cols, ∀ k ∈ span l 32, acc.st.discards k = false) →
    let r := nbLoop w 4 c a alpha fp fl rels false pa pb ra rb n 0 acc
    r.err = acc.err ∧
    (∀ k < n, ∀ j < 32, r.st.mem.byte (locAt pa ra (32 * k) + j) =
      (alpha >>> (8 * (j % (a.ty.width / 8)))).setWidth 8) ∧
    ∀ l, (∀ c ∈ cols, l ∉ span c 32) → r.st.mem.byte l = acc.st.mem.byte l) ∧
  (∀ (w func c : Nat) (a : Args) (alpha fp : Word) (fl : SMap Nat) (rels : List Nat) (p q : Word) (la lb : Nat) (acc : NbAcc)
      (s1 : State) (col : List (Nat × Nat × Byte)), func = 3 ∨ func = 5 → (a.ty = .i32 ∨ a.ty = .i8x8) → acc.stop = false →
    acc.st.readCol fl la = (s1, .ok col) → acc.q.length = 256 / a.ty.width →
    let xs := colElems a.ty (col.map fun e => e.2.2)
    let r := nbColumn w func c a alpha fp fl rels false acc p q la lb
    r.st = (s1.charge c 20000).hasRead [w] { rs := col, bad := [] } ∧ r.st.ctxs = (acc.st.charge c 20000).ctxs ∧
    (∀ l, ¬acc.st.OnItsWay l → r.st.mem.byte l = acc.st.mem.byte l) ∧ r.err = acc.err ∧
    (func = 3 → r.q.sum = acc.q.sum + (xs.map (readInt true a.ty.width)).sum) ∧
    (func = 5 → r.cnt = acc.cnt + xs.countP (· ≠ 0)))

/-- R248 to R255, R265, R270: near-bank operations, at issue and at the bank. What the rules leave to be read, or open,
is as notes/assumptions/29 says. -/
def Obligations.NearBank : Prop := Claims.nearBankIssue ∧ Claims.nearBankComplete

open Claims in
/-- R257, R259: `JIG.DEF` writes the jig of a well-formed record to its slot and completes as one more operation of the bank
class, which ends when every channel has accepted it; a poisoned record, a slot in use or not granted and a malformed record
trap, and nothing changes. -/
def Sys2Proof.Claims.jigDefine : Prop :=
  (∀ (a : Args) (s s1 s2 : State) (g : Grp) (ps : List Place) (rd : Rd), s.IssuesPlain .jigDef a g →
    let s0 := s.opened .jigDef a g
    let w := leaderOf g
    let x := s0.warp w
    let p := s0.sval g (srcA a)
    let slot := a.imm.toNat % 16
    (3 < spaceOf p ∨ p.extractLsb' 48 12 ≠ 0 → arrayTraps .jigDef a s g ⟨0x13, 0, p⟩) ∧
    (spaceOf p ≤ 3 → p.extractLsb' 48 12 = 0 → p.toNat % 64 ≠ 0 → arrayTraps .jigDef a s g ⟨0x12, 0, p⟩) ∧
    (∀ f, spaceOf p ≤ 3 → p.extractLsb' 48 12 = 0 → p.toNat % 64 = 0 → s0.places w {} p 64 = (s1, .error f) →
      fallsAt .jigDef a s g s1 f.trap) ∧
    (spaceOf p ≤ 3 → p.extractLsb' 48 12 = 0 → p.toNat % 64 = 0 → s0.places w {} p 64 = (s1, .ok ps) →
      s1.ownHeld [w] (memLocs ps) = false → s1.blocked w s1.nextId (memLocs ps) = false →
      s1.readNow w 0 (memLocs ps) = (s2, rd) →
      let used := s0.regions.any fun q => q.ctx == x.ctx && q.passes.any fun y => y.slot == slot
      let jig := jigOf x.fpmode ((memLocs ps).map rd.byte)
      (∀ k, rd.poison (memLocs ps) = some k → fallsAt .jigDef a s g s2 ⟨0x14, 0, p⟩) ∧
      (rd.poison (memLocs ps) = none →
        (used = true → fallsAt .jigDef a s g s2 ⟨0x1B, 0x01, 0⟩) ∧
        (used = false → (s2.ctx x.ctx).crec.jigGrant.getLsbD slot = false → fallsAt .jigDef a s g s2 ⟨0x1B, 0x04, 0⟩) ∧
        (used = false → (s2.ctx x.ctx).crec.jigGrant.getLsbD slot = true → jig = none →
          fallsAt .jigDef a s g s2 ⟨0x1B, 0x06, 0⟩) ∧
        ∀ j, used = false → (s2.ctx x.ctx).crec.jigGrant.getLsbD slot = true → jig = some j → x.bankCnt < 255 →
          ∃ r id, Completes (.jigDef a) a g s r ∧ mget none r.jigs slot = some j ∧
            (∀ k, k ≠ slot → mget none r.jigs k = mget none s0.jigs k) ∧
            mfind r.pend id = some (.jigDef w) ∧
            State.Accessed s0.OnItsWay (onWarp w fun x => { x with bankCnt := x.bankCnt + 1 }) s0
              { r with jigs := s0.jigs }))) ∧
  (∀ (s : State) (id w : Nat), mfind s.pend id = some (.jigDef w) → (mfind s.warps w).isSome →
    exec (.jigDefAccepted id) s =
      .next ({ s with pend := mdel s.pend id }.modWarp w fun y => { y with bankCnt := y.bankCnt - 1 }))

open Claims in
/-- R261: `JIG.ARM` adds a pass of its slot's jig to the region of its exact bounds, with the region's next sequence number,
as a sealed batch on D and one more operation of the bank class; an overlap, a full table and an undefined or ungranted slot
trap. The controller's acceptance dates the pass and ends the bank class's operation. -/
def Sys2Proof.Claims.jigArm : Prop :=
  (∀ (a : Args) (s s1 s2 : State) (g : Grp) (rs : List (List Nat × Bool)) (ctr : Option Nat), s.IssuesPlain .jigArm a g →
    let s0 := s.opened .jigArm a g
    let w := leaderOf g
    let x := s0.warp w
    let p := s0.sval g (srcA a)
    let len := s0.sval g (srcB a 0)
    let slot := a.imm.toNat % 16
    s0.rngCheck w [{ p, n := len.toNat, write := true }] (armAlign p len) = (s1, .ok rs) →
    s1.armCounter g a = (s2, .ok ctr) →
    let rows := rangeRows p (rs.getD 0 ([], true)).1 len.toNat
    let locs := rows.map (·.2)
    let own := s2.regions.find? fun q => q.ctx == x.ctx && q.start == p && q.rows.length == locs.length
    (∀ q ∈ s2.regions, some q ≠ own → q.rows.any locs.contains = true → fallsAt .jigArm a s g s2 ⟨0x1B, 0x02, 0⟩) ∧
    ((∀ q ∈ s2.regions, some q ≠ own → q.rows.any locs.contains = false) →
      (own = none → 32 ≤ (s2.regions.filter fun q => q.ctx == x.ctx).length → fallsAt .jigArm a s g s2 ⟨0x1B, 0x03, 0⟩) ∧
      ((own = none → (s2.regions.filter fun q => q.ctx == x.ctx).length < 32) →
        (((s2.ctx x.ctx).crec.jigGrant.getLsbD slot = false ∨ mget none s2.jigs slot = none) →
          fallsAt .jigArm a s g s2 ⟨0x1B, 0x04, 0⟩) ∧
        ∀ j, (s2.ctx x.ctx).crec.jigGrant.getLsbD slot = true → mget none s2.jigs slot = some j →
          s2.jrnTrap x.ctx rows = none → (∀ q, own = some q → q.passes.length < 4) →
          x.bankCnt < 255 → x.outstanding < 8 → s2.relWaits [w] .dev = false →
          ∃ r id n, Completes (.jigArm a) a g s r ∧
            n = (own.elim 1 (·.nextSeq)) ∧
            (∃ q ∈ r.regions, q.ctx = x.ctx ∧ q.start = p ∧ q.nextSeq = n + 1 ∧
              (∀ o, own = some o → q.rows = o.rows ∧ q.lastAcc = o.lastAcc) ∧ (own = none → q.rows = locs ∧ q.lastAcc = 0) ∧
              q.passes = own.elim [] (·.passes) ++
                [{ id, seq := n, slot, jig := j, haste := a.imm.getLsbD 4, counter := ctr, w, batch := x.nextSeq }]) ∧
            mfind r.pend id = some (.arm w x.ctx p id) ∧
            { reg := a.d.toNat, seq := x.nextSeq, sealed := true, ops := [id] } ∈ (r.warp w).batches ∧
            (r.warp w).bankCnt = x.bankCnt + 1 ∧ (r.warp w).s = x.s ∧ (r.warp w).v = x.v ∧
            ∀ l, ¬s0.OnItsWay l → r.mem.byte l = s0.mem.byte l))) ∧
  (∀ (s : State) (id w c : Nat) (start : Word) (g : Region) (p : Pass), mfind s.pend id = some (.arm w c start id) →
    s.pass? id = some (g, p) → (mfind s.warps w).isSome → (∀ r ∈ g.rows, s.offline (homeDie r) = false) →
    ∃ t, exec (.jigArmAccept id) s = .next t ∧ mfind t.pend id = none ∧
      (t.warp w).bankCnt = (s.warp w).bankCnt - 1 ∧ (∃ h q, t.pass? id = some (h, q) ∧ q = { p with accepted := some s.timer } ∧
        h.lastAcc = max g.lastAcc p.seq) ∧
      t.ctxs = (s.jrnAdd g.ctx id).ctxs ∧ t.mem = s.mem)

/-- R258, R262, R264: a sweep of a row whose columns are good gives every byte of the row what the pass's jig makes of the
row, changes no other byte, and counts the row as swept; a row with a column that cannot be corrected is poisoned, and its
bytes are kept. A ride pass moves with refresh, a haste pass by its wave. The arming context is charged 0.3 nJ for each step
of the jig, and 3.1 nJ more for a haste row (R268). -/
def Sys2Proof.Claims.jigSweep : Prop :=
  ∀ e ∈ [(Instr.refreshRow, false), (Instr.hasteRowSweep, true)], ∀ (s : State) (n : Nat) (g : Region) (p : Pass),
    let row := n / 1024 * 1024
    s.regions = [g] → g.passes = [p] → row ∈ g.rows → p.haste = e.2 → (e.2 = true → hasteNext g p row = true) →
    row ∉ p.swept → (∀ t, p.accepted = some t → t + 800 ≤ s.timer) → p.accepted.isSome → p.id ∉ (s.ctx g.ctx).jrn.ops →
    s.offline (homeDie row) = false → p.counter = none → s.held = [] →
    (s.cores.all fun e => e.2.uLines.isEmpty) = true → RowsKnown s → (∀ l ∈ span row 1024, s.discards l = false) →
    ∃ t, exec (e.1 n) s = .next t ∧
      (∀ l, l ∉ span row 1024 → t.mem.byte l = s.mem.byte l) ∧
      ((s.checkReads 3 (span row 1024)).2 = [] → t.mem.peek row 1024 = p.jig.row (s.mem.peek row 1024) ∧
        ((mfind s.ctxs g.ctx).isSome → (t.ctx g.ctx).fineFj =
          (s.ctx g.ctx).fineFj + 300000 * p.jig.steps.length + if e.2 then 3100000 else 0)) ∧
      ((s.checkReads 3 (span row 1024)).2 ≠ [] → t.mem.peek row 1024 = s.mem.peek row 1024 ∧
        ∀ k < 32, t.colSt (colKey s.island.fw (row + 32 * k)) = .poison) ∧
      ((g.rows.all fun r => r == row || p.swept.contains r) = false →
        ∃ h q, t.pass? p.id = some (h, q) ∧ q.swept = p.swept ++ [row])

open Claims in
/-- R267, R328: `JIG.POS` and `JIG.QRY` answer of the region that starts at A and of the passes that its controller has
accepted, or 0 where there is no entry; `JIG.DISARM` cancels its unfinished passes, removes its entry and answers how many it
cancelled. -/
def Sys2Proof.Claims.jigAsk : Prop :=
  (∀ (a : Args) (s : State) (g : Grp), s.IssuesPlain .jigPos a g →
    let s0 := s.opened .jigPos a g
    let q := s0.regions.find? fun q =>
      q.ctx == (s0.warp (leaderOf g)).ctx && q.start == s0.sval g (srcA a) && q.lastAcc != 0
    (s0.warp (leaderOf g)).bankCnt < 255 →
    Completes (.jigPos a) a g s (s0.setScalar g .s a.d.toNat (match q with
      | none => 0
      | some q => match q.passes.find? fun p => p.accepted.isSome with
        | some p => BitVec.ofNat 64 (p.seq * 2 ^ 32 + p.swept.length)
        | none => BitVec.ofNat 64 (q.lastAcc * 2 ^ 32 + q.rows.length)))) ∧
  (∀ (a : Args) (s : State) (g : Grp), s.IssuesPlain .jigQry a g →
    let s0 := s.opened .jigQry a g
    let q := s0.regions.find? fun q =>
      q.ctx == (s0.warp (leaderOf g)).ctx && q.start == s0.sval g (srcA a) && q.lastAcc != 0
    (s0.warp (leaderOf g)).bankCnt < 255 →
    Completes (.jigQry a) a g s (s0.setScalar g .s a.d.toNat (match q with
      | none => 0
      | some q => BitVec.ofNat 64 (q.rows.length * 2 ^ 32 + q.passes.countP (·.accepted.isSome) +
          match q.passes.find? fun p => p.accepted.isSome with
          | some p => p.slot * 2 ^ 12 + (if p.haste then 2 ^ 8 else 0)
          | none => 0)))) ∧
  (∀ (a : Args) (s : State) (g : Grp), s.IssuesPlain .jigDisarm a g →
    let s0 := s.opened .jigDisarm a g
    let c := (s0.warp (leaderOf g)).ctx
    let p := s0.sval g (srcA a)
    (s0.warp (leaderOf g)).bankCnt < 255 →
    ∃ r, Completes (.jigDisarm a) a g s r ∧
      ((∀ q ∈ s0.regions, q.ctx = c → q.start = p → q.lastAcc = 0) → r = s0.setScalar g .s a.d.toNat 0) ∧
      ∀ q ∈ s0.regions, q.ctx = c → q.start = p → q.lastAcc ≠ 0 → (∀ h ∈ s0.regions, h.ctx = c → h.start = p → h = q) →
        (∀ m ∈ g, (r.warp m.1).sget a.d.toNat = BitVec.ofNat 64 (q.passes.countP (·.accepted.isSome))) ∧
        ∀ h ∈ r.regions, h.ctx = c → h.start = p → h.lastAcc = 0 ∧ ∀ y ∈ h.passes, y.accepted = none)

/-- R259, R261, R262, R264, R267: jigs. What the rules leave to be read, or open, is as notes/assumptions/29 says. -/
def Obligations.Jigs : Prop := Claims.jigDefine ∧ Claims.jigArm ∧ Claims.jigSweep ∧ Claims.jigAsk

namespace Sys2Proof.Claims

/-- A journal instruction answers at once: its status word, the step's number over `code`, is in D of the warp that issued
it; beside D, the journal `j` of its context and the trace, nothing changes. -/
def jrnAnswers (o : Op) (a : Args) (s : State) (g : Grp) (n code : Nat) (j : Journal) : Prop :=
  let s0 := s.opened o a g
  let c := (s0.warp (leaderOf g)).ctx
  ∃ r, Completes (Instr.ofOp o a) a g s r ∧
    r = { s0.setScalar g .s a.d.toNat (BitVec.ofNat 64 (n * 2 ^ 32 + code)) with cores := r.cores, ctxs := r.ctxs } ∧
    (∀ k, r.ctx k = if k = c then { s0.ctx k with jrn := j } else s0.ctx k) ∧
    ∀ k, r.core k = { s0.core k with ring := (r.core k).ring, head := (r.core k).head, traceAt := (r.core k).traceAt }

/-- A journal instruction begins to close the step: D awaits its status, no journalled byte has moved yet, and its class counts
nothing of it, since the controller has accepted it (R206, DEDUCED in notes/assumptions/29). -/
def jrnCloses (o : Op) (a : Args) (s : State) (g : Grp) (abort : Bool) : Prop :=
  let s0 := s.opened o a g
  let w := leaderOf g
  let c := (s0.warp w).ctx
  ∃ r, Completes (Instr.ofOp o a) a g s r ∧ r.mem = s0.mem ∧ (r.warp w).s = (s0.warp w).s ∧
    (r.warp w).busy = (s0.warp w).busy ++ [.s a.d.toNat] ∧ (r.warp w).bankCnt = (s0.warp w).bankCnt ∧
    (r.ctx c).jrn = { (s0.ctx c).jrn with closing := some (w, a.d.toNat, abort) }

end Sys2Proof.Claims

open Claims in
/-- R269 to R272: `JRN.BEGIN` opens the context's next step, or answers 0x01 where one is open; `JRN.COMMIT` and
`JRN.ABORT` close it, or answer 0x03 where none is open, a COMMIT 0x04 where hardware had aborted it. A COMMIT closes
once the step's operations have completed and frees the journal rows; an ABORT writes every journalled row back from its
copy. What the rules leave to be read, or open, is as notes/assumptions/29 says. -/
def Obligations.JournalSteps : Prop :=
  (∀ (a : Args) (s : State) (g : Grp), s.IssuesPlain .jrnBegin a g →
    let s0 := s.opened .jrnBegin a g
    let j := (s0.ctx (s0.warp (leaderOf g)).ctx).jrn
    (mfind s0.ctxs (s0.warp (leaderOf g)).ctx).isSome → (s0.warp (leaderOf g)).bankCnt < 255 →
    (j.isOpen = true → jrnAnswers .jrnBegin a s g j.n 1 j) ∧
    (j.isOpen = false → jrnAnswers .jrnBegin a s g (j.n + 1) 0 { j with n := j.n + 1, isOpen := true, aborted := false, ops := [] })) ∧
  (∀ (a : Args) (s : State) (g : Grp), s.IssuesPlain .jrnCommit a g →
    let s0 := s.opened .jrnCommit a g
    let j := (s0.ctx (s0.warp (leaderOf g)).ctx).jrn
    (mfind s0.ctxs (s0.warp (leaderOf g)).ctx).isSome → j.closing = none → (s0.warp (leaderOf g)).bankCnt < 255 →
    (j.isOpen = true → jrnCloses .jrnCommit a s g false) ∧
    (j.isOpen = false → j.aborted = true → jrnAnswers .jrnCommit a s g j.n 4 { j with aborted := false }) ∧
    (j.isOpen = false → j.aborted = false → jrnAnswers .jrnCommit a s g j.n 3 j)) ∧
  (∀ (a : Args) (s : State) (g : Grp), s.IssuesPlain .jrnAbort a g →
    let s0 := s.opened .jrnAbort a g
    let j := (s0.ctx (s0.warp (leaderOf g)).ctx).jrn
    (mfind s0.ctxs (s0.warp (leaderOf g)).ctx).isSome → j.closing = none → (s0.warp (leaderOf g)).bankCnt < 255 →
    (j.isOpen = true → jrnCloses .jrnAbort a s g true) ∧
    (j.isOpen = false → jrnAnswers .jrnAbort a s g j.n 3 j)) ∧
  (∀ (s : State) (c w d : Nat) (abort : Bool), (s.ctx c).jrn.closing = some (w, d, abort) → (mfind s.ctxs c).isSome →
    (mfind s.warps w).isSome → (s.warp w).retired = false →
    let j := (s.ctx c).jrn
    let done (t : State) (code : Nat) : Prop :=
      (t.warp w).sget d = BitVec.ofNat 64 (j.n * 2 ^ 32 + code) ∧ BusyReg.s d ∉ (t.warp w).busy ∧
      (t.warp w).bankCnt = (s.warp w).bankCnt ∧
      (t.ctx c).jrn.isOpen = false ∧ (t.ctx c).jrn.closing = none ∧ (t.ctx c).jrn.n = j.n
    (j.isOpen = true → abort = false → j.ops ≠ [] → exec (.journalCloseComplete c) s = .next s) ∧
    (j.isOpen = true → abort = false → j.ops = [] →
      ∃ t, exec (.journalCloseComplete c) s = .next t ∧ done t 0 ∧ (t.ctx c).jrn.rows = [] ∧ t.mem = s.mem) ∧
    (j.isOpen = true → abort = true → j.ops = [] → RowsKnown s → (s.cores.all fun e => e.2.uLines.isEmpty) = true →
      (∀ e ∈ j.rows, s.offline (homeDie e.1) = false ∧ s.fenced (physRM e.1) = false ∧ e.2.1.length = 1024 ∧ e.1 % 1024 = 0 ∧
        ∀ l ∈ span e.1 1024, s.discards l = false) → (j.rows.map (·.1)).Nodup →
      ∃ t, exec (.journalCloseComplete c) s = .next t ∧ done t 0 ∧ (t.ctx c).jrn.rows = [] ∧
        (∀ e ∈ j.rows, t.mem.peek e.1 1024 = e.2.1) ∧
        (∀ e, j.rows = [e] → ∀ u ∈ e.2.2, t.colSt (colKey s.island.fw (unitOf u).1) = .poison) ∧
        ∀ l, (∀ e ∈ j.rows, l ∉ span e.1 1024) → t.mem.byte l = s.mem.byte l) ∧
    (j.isOpen = false → ∃ t, exec (.journalCloseComplete c) s = .next t ∧ done t (if abort then 0 else 4) ∧ t.mem = s.mem))

/-! ## Power, clocks, energy -/

/-- R307, R308, R358: a free arbiter admits its die's oldest wake request for 650 clocks; a waking band is on 2,600 clocks
later, in HOLD where nothing uses it, and off after 20,000 ns of HOLD; one not on after 5,200 clocks has failed, and the
operations that wait for it leave the path with a late trap. Before its time each event changes nothing. -/
def Obligations.BandPower : Prop :=
  (∀ (s : State) (die clk core b : Nat) (rest : List (Nat × Nat × Nat)),
      (s.die die).wakes = (clk, core, b) :: rest →
    (s.clock < (s.die die).wakeFree → exec (.bandAdmit die) s = .next s) ∧
    ((s.die die).wakeFree ≤ s.clock → ∃ t, exec (.bandAdmit die) s = .next t ∧
      t = { s with dies := t.dies, cores := t.cores } ∧
      t.die die = { s.die die with wakes := rest, wakeFree := s.clock + 650 } ∧ (∀ d, d ≠ die → t.die d = s.die d) ∧
      (t.core core).band b = { (s.core core).band b with st := .waking s.clock } ∧
      ∀ k n, ¬(k = core ∧ n = b) → (t.core k).band n = (s.core k).band n)) ∧
  (∀ (s : State) (core b since : Nat), ((s.core core).band b).st = .waking since → b < 4 →
    (s.clock < since + 2600 → exec (.bandOn core b) s = .next s) ∧
    (since + 2600 ≤ s.clock → ∃ t, exec (.bandOn core b) s = .next t ∧ t = { s with cores := t.cores } ∧
      (t.core core).band b =
        { (s.core core).band b with st := if (s.core core).bandUsed b then .on else .hold s.timer } ∧
      t.core core = { s.core core with bands := (t.core core).bands } ∧ ∀ k, k ≠ core → t.core k = s.core k) ∧
    (s.clock < since + 5200 → exec (.bandWakeRefused core b) s = .next s) ∧
    (since + 5200 ≤ s.clock → ∃ t, exec (.bandWakeRefused core b) s = .next t ∧
      (t.core core).band b = { st := .off, failed := true } ∧ t.mem = s.mem ∧
      (t.core core).arr = (s.core core).arr.filter (fun o => !(o.usesBands && bandOn o.ashape b)) ∧
      ∀ o ∈ (s.core core).arr, o.usesBands = true → bandOn o.ashape b = true → ∀ w ∈ o.members, (mfind s.warps w).isSome →
        (s.warp w).late = none → (t.warp w).late = some ⟨0x1C, 0x80 + b, 0, .array⟩)) ∧
  (∀ (s : State) (core b since : Nat), ((s.core core).band b).st = .hold since →
    (s.timer < since + 20000 → exec (.bandHoldExpire core b) s = .next s) ∧
    (since + 20000 ≤ s.timer → ∃ t, exec (.bandHoldExpire core b) s = .next t ∧ t = { s with cores := t.cores } ∧
      (t.core core).band b = { (s.core core).band b with st := .off } ∧
      ∀ k n, ¬(k = core ∧ n = b) → (t.core k).band n = (s.core k).band n))

namespace Sys2Proof.Claims

/-- The load of a core's array in LU: that of the operation that runs, and its fillers. -/
def arrayLoad (s : State) (c : Nat) : Nat :=
  (match (s.core c).arr with
    | o :: _ => match o.phase with
      | .running _ => loadUnits o.ashape
      | _ => 0
    | [] => 0) + s.filler c

/-- The load of a die (R309). -/
def dieLoad (s : State) (d : Nat) : Nat := ((List.range 40).map fun i => arrayLoad s (40 * d + i)).sum

end Sys2Proof.Claims

open Claims in
/-- R309 to R311: at a step boundary the load of a die changes by at most 8 LU, up or down, whatever asks or leaves. An
operation that asks alone, its bands on, starts at the boundary where its load is at most 8 LU; a larger one first
raises 8 LU of fillers. What the rules leave to be read, or open, is as notes/assumptions/24 says. -/
def Obligations.SlewLimit : Prop :=
  (∀ (s t : State) (die : Nat), exec (.slewStep die) s = .next t →
    dieLoad t die ≤ dieLoad s die + 8 ∧ dieLoad s die ≤ dieLoad t die + 8) ∧
  (∀ (s : State) (c : Nat) (o : ArrOp), s.clock % 4 = 0 → (s.die (c / 40)).slewAt < s.clock / 4 → (s.core c).arr = [o] →
    s.arrReady c = some o → o.phase = .queued → s.filler c = 0 →
    (∀ k, k / 40 = c / 40 → k ≠ c → (s.core k).arr = [] ∧ s.filler k = 0) →
    ∃ t, exec (.slewStep (c / 40)) s = .next t ∧ (t.die (c / 40)).slewAt = s.clock / 4 ∧ t.mem = s.mem ∧
      t.warps = s.warps ∧
      (loadUnits o.ashape ≤ 8 → (t.core c).arr = [{ o with phase := .running s.clock }] ∧ t.filler c = 0) ∧
      (8 < loadUnits o.ashape → (t.core c).arr = [{ o with phase := .ramping (s.clock / 4) }] ∧ t.filler c = 8)) ∧
  (∀ (s : State) (die : Nat), s.clock % 4 ≠ 0 ∨ (s.clock / 4 ≤ (s.die die).slewAt ∧ s.clock / 4 ≠ 0) →
    exec (.slewStep die) s = .next s)

/-- R17, R312: a boost step goes up 25 MHz only where the package's power allows it and the die is below its ceiling, 12 steps
less 12 × WEAR ÷ WEAR_MAX; every millisecond run above 1.3 GHz adds its weight to WEAR, which never falls, and the boost
comes down to the new ceiling. -/
def Sys2Proof.Claims.clockBoost : Prop :=
  (∀ (s : State) (die : Nat) (powerOk : Bool),
    let d := s.die die
    let ceiling := 12 - 12 * d.wear / Config.wearMax die
    let run := d.wearNs + if d.boost = 0 then 0 else s.timer - d.wearAt
    (powerOk = true → d.boost < ceiling →
      exec (.boostStep die true powerOk) s =
        .next (s.modDie die fun d => { d with boost := d.boost + 1, wearNs := run, wearAt := s.timer })) ∧
    (powerOk = false ∨ ceiling ≤ d.boost → exec (.boostStep die true powerOk) s = .next s) ∧
    exec (.boostStep die false powerOk) s =
      .next (s.modDie die fun d => { d with boost := d.boost - 1, wearNs := run, wearAt := s.timer })) ∧
  (∀ (s : State) (die : Nat) (temp : TempClass),
    let d := s.die die
    let wear := d.wear + (match temp with
      | .below70 => 1
      | .upTo85 => 2
      | .above85 => 4)
    let run := d.wearNs + if d.boost = 0 then 0 else s.timer - d.wearAt
    (1000000 ≤ run →
      ∃ t, exec (.wearTick die temp) s = .next t ∧ t = { s with dies := t.dies } ∧ (∀ e, e ≠ die → t.die e = s.die e) ∧
        t.die die = { d with
          wear, wearNs := run - 1000000, wearAt := s.timer, boost := min d.boost (12 - 12 * wear / Config.wearMax die) }) ∧
    (run < 1000000 → exec (.wearTick die temp) s = .next s))

/-- R306, R313: at a multiple of 1,000 ns every core of a resident context gains RATE units, up to CAP, and at a multiple of
10^6 ns the system account and every context's total energy, neither of which falls, take what was used since, and the total
is copied in mJ to ENERGY; between them neither event changes anything. What the instructions, the refreshes and a part of the
traffic cost is free (DESIGN CHOICE, notes/assumptions/17). -/
def Sys2Proof.Claims.budgetEnergy : Prop :=
  (∀ (s : State), s.budgetAt / 1000 < s.timer / 1000 →
    ((s.ctxs.filter fun e => !e.2.saved).flatMap fun e => e.2.crec.cores).Nodup →
    ∃ t, exec .budgetRefill s = .next t ∧ t = { s with cores := t.cores, budgetAt := t.budgetAt } ∧
      t.budgetAt = (s.budgetAt / 1000 + 1) * 1000 ∧
      (∀ e ∈ s.ctxs, e.2.saved = false → ∀ k ∈ e.2.crec.cores,
        t.core k = { s.core k with level := min e.2.ebCap ((s.core k).level + e.2.ebRate) }) ∧
      ∀ k, (∀ e ∈ s.ctxs, e.2.saved = false → k ∉ e.2.crec.cores) → t.core k = s.core k) ∧
  (∀ (s : State), s.timer / 1000 ≤ s.budgetAt / 1000 → exec .budgetRefill s = .next s) ∧
  (∀ (s : State), s.energyAt / 1000000 < s.timer / 1000000 →
    ∃ t, exec .energyUpdate s = .next t ∧
      t = { s with ctxs := t.ctxs, cores := t.cores, energyAt := t.energyAt, free := t.free, sysFj := t.sysFj } ∧
      s.sysFj ≤ t.sysFj ∧
      (∀ k < 160, t.core k = { s.core k with events := [], luClocks := 0, idleFrom := s.timer }) ∧
      t.energyAt = (s.energyAt / 1000000 + 1) * 1000000 ∧
      ∀ c, (mfind s.ctxs c).isSome → (s.ctx c).fineFj ≤ (t.ctx c).fineFj ∧
        t.ctx c = { s.ctx c with
          fineFj := (t.ctx c).fineFj, movedWas := mget {} s.mem.moved c, energy := (t.ctx c).fineFj / 10 ^ 12 % 2 ^ 64 }) ∧
  (∀ (s : State), s.timer / 1000000 ≤ s.energyAt / 1000000 → exec .energyUpdate s = .next s)

/-- R17, R306, R312, R313: the die's clock, the energy budget and the energy account. -/
def Obligations.ClocksEnergy : Prop := Claims.clockBoost ∧ Claims.budgetEnergy

/-! ## Arbitration and the watchdogs -/

namespace Sys2Proof.Claims

/-- Warp v goes before warp w (R301): an age of 8 first, then, below it, the higher PRIO, then the higher age, then the
lower warp slot. -/
def goesBefore (s : State) (v w : Nat) : Prop :=
  let x := s.warp v
  let y := s.warp w
  (x.age = 8 ∧ y.age ≠ 8) ∨
  ((x.age = 8 ↔ y.age = 8) ∧
    ((x.age ≠ 8 ∧ s.prio w < s.prio v) ∨
      ((x.age = 8 ∨ s.prio v = s.prio w) ∧ (y.age < x.age ∨ (x.age = y.age ∧ x.slot < y.slot)))))

/-- A resident warp of a partition. -/
def dwells (s : State) (core part w : Nat) : Prop :=
  (mfind s.warps w).isSome ∧ (s.blkOf w).core = core ∧ (s.warp w).part = part

/-- A warp of a partition that is eligible for its slot. -/
def contends (s : State) (core part w : Nat) : Prop := dwells s core part w ∧ s.eligible w = true

/-- Warp v keeps everything, but that a run which waited at a rendezvous for its leader has ended (R31, R47). -/
def atMostEnded (s t : State) (v : Nat) : Prop :=
  t.warp v = s.warp v ∨
    ((s.warp v).atRdv = true ∧ s.inRun v = true ∧ t.warp v = { s.warp v with runCnt := 0, missed := false })

end Sys2Proof.Claims

open Claims in
/-- R300 to R302: a free slot goes to an eligible warp before which no other goes, one passed over by `YIELD` only where every
other was; its age becomes 0 and that of every other eligible warp rises by one, up to 8. The mark of `YIELD` ends with this
arbitration for every warp of the partition. A slot that runs, or for which no warp is eligible, is left as it is. Beside that
only the run of a warp of another partition may end, which waits at a rendezvous for its leader (R31, R47; DEDUCED,
notes/assumptions/42). -/
def Obligations.Arbitration : Prop :=
  ∀ (s : State) (core part : Nat), msorted s.warps = true →
    ((mget {} (s.core core).parts part).run.isSome → exec (.runArbitration core part) s = .next s) ∧
    ((mget {} (s.core core).parts part).run = none →
      ((∀ w, ¬contends s core part w) → ∃ t, exec (.runArbitration core part) s = .next t ∧
        t = { s with warps := t.warps, cores := t.cores } ∧ (mget {} (t.core core).parts part).run = none ∧
        (∀ v, dwells s core part v → t.warp v = s.warp v) ∧ ∀ v, atMostEnded s t v) ∧
      ((∃ w, contends s core part w) →
        ∃ t w, exec (.runArbitration core part) s = .next t ∧ contends s core part w ∧
          (mget {} (t.core core).parts part).run = some w ∧
          ((s.warp w).yielded = true → ∀ v, contends s core part v → (s.warp v).yielded = true) ∧
          (∀ v, contends s core part v → ((s.warp v).yielded = true → (s.warp w).yielded = true) → ¬goesBefore s v w) ∧
          t = { s with warps := t.warps, cores := t.cores } ∧
          t.warp w = { s.warp w with age := 0, yielded := false, runCnt := 0 } ∧
          (∀ v, contends s core part v → v ≠ w →
            t.warp v = { s.warp v with age := min 8 ((s.warp v).age + 1), yielded := false }) ∧
          (∀ v, dwells s core part v → ¬contends s core part v → t.warp v = { s.warp v with yielded := false }) ∧
          ∀ v, ¬dwells s core part v → atMostEnded s t v))

open Claims in
/-- R32, R348: when a rendezvous has been counted for its stage's period without every remaining member, each member that
waits takes the rendezvous-timeout trap with EPC at its own instruction and the number of members that had arrived. -/
def Sys2Proof.Claims.rendezvousExpiry : Prop :=
  (∀ (s : State) (b : Nat) (r : Rdv), (s.blk b).rdvs = [r] → r.stop = none → (mfind s.blocks b).isSome →
    2 ^ (s.stageOf (s.blk b)).lrec.wdog ≤ s.clock - r.first - r.paused → s.rdvWhole b r = false →
    (r.arrived.map (·.1)).Nodup → r.arrived.length ≤ 32 →
    (∀ e ∈ r.arrived, (mfind s.warps e.1).isSome ∧ (s.warp e.1).inHandler = false) →
    ∃ t, exec (.rendezvousTimeout b r.pc) s = .next t ∧ (t.blk b).rdvs = [] ∧
      ∀ e ∈ r.arrived, (t.warp e.1).cause = causeOf 4 r.arrived.length (s.warp e.1).wid ∧
        (t.warp e.1).epc = (s.warp e.1).pc ∧ (t.warp e.1).badaddr = 0) ∧
  (∀ (s : State) (b : Nat) (pc : Word), (∀ r ∈ (s.blk b).rdvs, r.pc = pc → s.rdvExpired b r = false) →
    exec (.rendezvousTimeout b pc) s = .next s)

/-- R344, R349: a warp whose next instruction has waited to issue for 2^28 clocks, the waits that R349 leaves out not
counted, and one that has been in its handler for 65,536 clocks, take their fatal traps at the instruction; before that
nothing happens. -/
def Sys2Proof.Claims.warpWatchdogs : Prop :=
  (∀ (s : State) (w from_ : Nat), (s.warp w).waitFrom = some from_ → s.mayIssue w = true →
    (s.ctx (s.warp w).ctx).dead = false →
    ((s.warp w).waited + (s.clock - from_) < 2 ^ 28 → exec (.watchdog w) s = .next s) ∧
    (2 ^ 28 ≤ (s.warp w).waited + (s.clock - from_) →
      exec (.watchdog w) s = .next (s.fatalAt w ⟨0x30, 0, 0⟩ (s.warp w).pc (s.warp w).wid []))) ∧
  (∀ (s : State) (w : Nat), (s.warp w).inHandler = true → (s.warp w).stopped = false → (s.ctx (s.warp w).ctx).dead = false →
    (s.clock < (s.warp w).hstart + 65536 → exec (.handlerOverrun w) s = .next s) ∧
    ((s.warp w).hstart + 65536 ≤ s.clock →
      exec (.handlerOverrun w) s = .next (s.fatalAt w ⟨0x32, 0, 0⟩ (s.warp w).pc (s.warp w).wid [])))

/-- R32, R344, R348, R349: the watchdogs. What the rules leave to be read, or open, is as notes/assumptions/41 and 42 say. -/
def Obligations.Watchdogs : Prop := Claims.rendezvousExpiry ∧ Claims.warpWatchdogs

/-! ## Stages: placement, the dispatcher, retirement -/

namespace Sys2Proof.Claims

/-- A warp as it becomes resident (R50, R294): its entry point and modes from the launch record, every register and special
register zero but SSP, EXEC and LIVE all ones. -/
structure FreshWarp (x : Warp) (c : Nat) (st : Stage) (cluster bid wid slot : Nat) : Prop where
  place : x.ctx = c ∧ x.wid = wid ∧ x.slot = slot ∧ x.nregs = st.lrec.nregs
  start : x.pc = st.lrec.entry ∧ x.exec = BitVec.allOnes 32 ∧ x.live = BitVec.allOnes 32 ∧ x.toks = []
  regs  : (∀ n l, x.vget n l = 0) ∧ (∀ n, x.sget n = 0) ∧ ∀ n, n ≠ 0 → x.pget n = 0
  sprs  : x.fpmode = st.lrec.fpmode ∧ x.lossScale = st.lrec.lossScale ∧ x.ovf = 0 ∧ x.ashape = 0xCF ∧ x.cause = 0 ∧ x.epc = 0 ∧
          x.badaddr = 0 ∧ x.deadline = none
  loc   : x.ssp = 0x5000000000000000 + BitVec.ofNat 64 st.lrec.locSize ∧
          x.locBase = st.lrec.locBase +
            BitVec.ofNat 64 (st.lrec.locSize * ((cluster * st.lrec.blocks + bid) * st.lrec.warps + wid))

end Sys2Proof.Claims

open Claims in
/-- R294, R297, R304: the placement scan places the cluster at the head of a context's queue where its cores can take it, one
block on each core chosen, each with its warps as they become resident; a cluster that does not fit stays queued, and a
context that is frozen, being frozen or saved places nothing. -/
def Sys2Proof.Claims.placement : Prop :=
  ∀ (s : State) (c : Nat) (x : Ctx), mfind s.ctxs c = some x →
    (x.frozen = true ∨ x.freezing = true ∨ x.saved = true → exec (.placement c) s = .next s) ∧
    ∀ (st : Stage) (cluster at_ : Nat), x.frozen = false → x.freezing = false → x.saved = false →
      x.stages = [st] → st.lrec.trig = false → x.queue = [(st.lnum, cluster, at_)] →
      (planCluster s.occOf x.crec.cores (l1Bytes x.crec.l1sz.toNat) st.lrec = none →
        ∃ t, exec (.placement c) s = .next t ∧ (t.ctx c).queue = x.queue ∧ t.blocks = s.blocks ∧ t.warps = s.warps ∧
          t.mem = s.mem) ∧
      ∀ xs, planCluster s.occOf x.crec.cores (l1Bytes x.crec.l1sz.toNat) st.lrec = some xs →
        (∀ e ∈ xs, e.1.slots.length ≤ 32) →
        ∃ t, exec (.placement c) s = .next t ∧ (t.ctx c).queue = [] ∧
          (∃ u, (t.ctx c).stage? st.lnum = some u ∧ u.placed = st.placed + 1) ∧
          (∀ b, b < s.nextId → mfind t.blocks b = mfind s.blocks b) ∧
          (∀ l, l < 2 ^ 50 → t.mem.byte l = s.mem.byte l) ∧
          ∀ (i : Nat) (e : Spot × Occ), xs[i]? = some e → ∃ b, mfind t.blocks (s.nextId + i) = some b ∧ b.ctx = c ∧
            b.lnum = st.lnum ∧ b.cluster = cluster ∧ b.bid = i ∧ b.core = e.1.core ∧ b.nwarps = st.lrec.warps ∧
            ∀ (j n : Nat), e.1.slots[j]? = some n → ∃ w, mfind t.warps (32 * (s.nextId + i) + j) = some w ∧
              w.blk = s.nextId + i ∧ FreshWarp w c st cluster i j n

open Claims in
/-- R296: where SUBMIT shows an entry not yet taken, the dispatcher decides its launch, writes its status, 0x01 for a fault,
and adds one to DONE_N as a release at sys; a SUBMIT that is no counter (R192), or that cannot be read, stops it. A busy launch has its status written and is tried again; a fault of the
submission area stops the dispatcher and is logged. While the status or DONE_N lies at an offline die the entry waits
(the model's choice, notes/assumptions/32). -/
def Sys2Proof.Claims.dispatch : Prop :=
  ∀ (s s1 : State) (c : Nat) (r : Option Word), (mfind s.ctxs c).isSome → (s.ctx c).crec.submit ≠ 0 →
    (s.ctx c).dispStop = false → (s.ctx c).dead = false → (s.ctx c).frozen = false → (s.ctx c).saved = false →
    let x := s.ctx c
    let k := x.dispN % max 1 x.crec.nent
    let base := x.crec.submit
    let entry := base + BitVec.ofNat 64 (64 + 8 * k)
    let slot := base + BitVec.ofNat 64 (64 + 8 * x.crec.nent + 8 * k)
    (2 < spaceOf base ∨ base.toNat % 8 ≠ 0 → ∃ t, exec (.dispatchEntry c) s = .next t ∧ (t.ctx c).dispStop = true ∧
      (t.ctx c).log = x.log ++ [.submissionFault base]) ∧
    (spaceOf base ≤ 2 → base.toNat % 8 = 0 → s.dispRead c base = (s1, r) →
    (r = none → ∃ t, exec (.dispatchEntry c) s = .next t ∧ (t.ctx c).dispStop = true ∧
      (t.ctx c).log = x.log ++ [.submissionFault base]) ∧
    (∀ sub, r = some sub → sub.toNat ≤ x.dispN → exec (.dispatchEntry c) s = .next s) ∧
    (s1.dispHeld c slot = true ∨ s1.dispHeld c (base + 8) = true → r.isSome → exec (.dispatchEntry c) s = .next s) ∧
    (∀ (sub : Word) (s2 s3 s4 : State) (bs : List Byte) (res : Except Trap Word) (l : Nat), r = some sub →
      x.dispN < sub.toNat → s1.dispHeld c slot = false → s1.dispHeld c (base + 8) = false →
      (s1.dispAcquire c).recRead { c, w := none } entry 8 = (s2, .ok bs) →
      s2.launchAt { c, w := none } (ofBytes bs) = (s3, res) →
      s3.recLocs c { write := true } slot 8 = (s4, .ok (span l 8)) → s4.lostLoc l = false → l % 8 = 0 →
      (s3.cores.all fun e => e.2.uLines.isEmpty) = true → RowsKnown s3 → (∀ i ∈ span l 8, s3.discards i = false) →
      let st := match res with
        | .ok v => v
        | .error _ => 0x01
      let s5 := (s4.recall (span l 8)).performWrite {} false 0 8 ((span l 8).zip (bytesOf 8 st))
      (st &&& 0xFF = 0x06 → ∃ t, exec (.dispatchEntry c) s = .next t ∧ (t.ctx c).dispN = x.dispN ∧
        ofBytes (t.mem.peek l 8) = st ∧ ∀ i, i ∉ span l 8 → t.mem.byte i = s3.mem.byte i) ∧
      (st &&& 0xFF ≠ 0x06 → ∀ (s6 : State) (d : Nat), s5.recLocs c { write := true } (base + 8) 8 = (s6, .ok (span d 8)) →
        (∀ i ∈ span d 8, s3.discards i = false ∧ i ∉ span l 8) → s6.offline (homeDie d) = false → d % 8 = 0 →
        (s6.checkReads 0 (span d 8)).2 = [] →
        ∃ t, exec (.dispatchEntry c) s = .next t ∧ (t.ctx c).dispN = x.dispN + 1 ∧
          ofBytes (t.mem.peek l 8) = st ∧
          (ofBytes (t.mem.peek d 8)).toNat = min ((ofBytes (s3.mem.peek d 8)).toNat + 1) (2 ^ 64 - 1) ∧
          (∀ i, i ∉ span l 8 → i ∉ span d 8 → t.mem.byte i = s3.mem.byte i) ∧
          mfind t.mem.rels s6.nextId = some
            { place := 160, scope := .sys
              view := raiseTo (s6.ctx c).dispFl ((span l 8).map fun i => (i, s6.mem.pos i)) })))

open Claims in
/-- R299, R304: a block whose warps have retired with nothing in flight leaves with its warps, its core's latched weights are
discarded where it held the array, and its stage counts it; the last one completes the stage. A block that is not done, or
whose context is frozen, stays. A completion signal for a home that is off line is held (R383). -/
def Sys2Proof.Claims.retirement : Prop :=
  (∀ (s : State) (b : Nat) (k : Block), mfind s.blocks b = some k →
    ((s.ctx k.ctx).frozen = true ∨ s.blockDone b = false → exec (.blockRetire b) s = .next s) ∧
    ∀ st, (s.ctx k.ctx).frozen = false → s.blockDone b = true → (mfind s.ctxs k.ctx).isSome →
      (s.ctx k.ctx).stage? k.lnum = some st →
      ∃ t, exec (.blockRetire b) s = .next t ∧ mfind t.blocks b = none ∧
        (∀ c, c ≠ b → (mfind t.blocks c).isSome = (mfind s.blocks c).isSome) ∧
        (∀ e ∈ t.warps, e.2.blk ≠ b) ∧
        (∀ w, (mfind s.warps w).isSome → (s.warp w).blk ≠ b → (mfind t.warps w).isSome) ∧
        (k.array = true → (t.core k.core).latch = {}) ∧
        ∃ u, (t.ctx k.ctx).stage? k.lnum = some u ∧ u.retired = st.retired + 1 ∧
          (st.appended = st.lrec.clusters → st.placed = st.lrec.clusters →
            st.retired + 1 = st.lrec.clusters * st.lrec.blocks → u.done = true)) ∧
  (∀ (s s1 : State) (c l : Nat) (p : Word) (view : SMap Nat), s.recLocs c { write := true } p 8 = (s1, .ok (span l 8)) →
    l % 8 = 0 → (s.cores.all fun e => e.2.uLines.isEmpty) = true → s1.offline (homeDie l) = false →
    (s1.checkReads 0 (span l 8)).2 = [] → RowsKnown s1 → (∀ i ∈ span l 8, s1.discards i = false) →
    let t := s.signalDone c p view
    (ofBytes (t.mem.peek l 8)).toNat = min ((ofBytes (s.mem.peek l 8)).toNat + 1) (2 ^ 64 - 1) ∧
    (∀ i, i ∉ span l 8 → t.mem.byte i = s.mem.byte i) ∧
    mfind t.mem.rels s1.nextId = some { place := 160, scope := .sys, view }) ∧
  (∀ (s s1 : State) (c l : Nat) (p : Word) (view : SMap Nat), s.recLocs c { write := true } p 8 = (s1, .ok (span l 8)) →
    s1.offline (homeDie l) = true → s1.lostLoc l = false →
    let t := s.signalDone c p view
    t.dones = s1.dones ++ [{ ctx := c, addr := p, loc := l, rels := [s1.nextId] }] ∧ t.mem.bytes = s1.mem.bytes)

/-- R294, R296, R297, R299, R304, R383: placement, the dispatcher, and the retirement of blocks. -/
def Obligations.StageLife : Prop := Claims.placement ∧ Claims.dispatch ∧ Claims.retirement

/-! ## The fabric and the parties outside the device -/

open Claims in
/-- R15, R380 to R383: a port that is up sends a failed flit again, and goes down with the eighth failure of one flit; a port that trains
comes up with its partner, and stays down after three failed trainings; the ports of a die that is off line do not train. A
UCIe link that has gone down is down, and the ports of a die that it leaves off line go down with it. Nothing else changes. -/
def Sys2Proof.Claims.ports : Prop :=
  (∀ (s : State) (n flit : Nat), let x := s.port n
    (x.up = false → exec (.girtFlitError ⟨n, flit⟩) s = .next s) ∧
    (x.up = true → ∃ t, exec (.girtFlitError ⟨n, flit⟩) s = .next t ∧ t = { s with ports := t.ports } ∧
      (∀ k, k ≠ n → t.port k = s.port k) ∧
      (mget 0 x.flits flit + 1 < 8 → t.port n = { x with flits := (t.port n).flits } ∧
        mget 0 (t.port n).flits flit = mget 0 x.flits flit + 1 ∧
        ∀ k, k ≠ flit → mget 0 (t.port n).flits k = mget 0 x.flits k) ∧
      (8 ≤ mget 0 x.flits flit + 1 → t.port n = { x with up := false, flits := [], downAt := s.timer }))) ∧
  (∀ (s : State) (n partner : Nat) (ok full comp : Bool), let x := s.port n
    (s.island.boot ≠ .running ∨ x.up = true ∨ x.down = true ∨ 18 ≤ n ∨ s.offline (portDie n) = true →
      exec (.linkTraining n partner ok full comp) s = .next s) ∧
    (s.island.boot = .running → x.up = false → x.down = false → n < 18 → s.offline (portDie n) = false →
      ∃ t, exec (.linkTraining n partner ok full comp) s = .next t ∧ t = { s with ports := t.ports } ∧
        (∀ k, k ≠ n → t.port k = s.port k) ∧ (t.port n).partner = some partner ∧
        (ok = true → (t.port n).up = true ∧ (t.port n).full = full ∧ (t.port n).comp = (comp && s.island.fw.thr < 16)) ∧
        (ok = false → (t.port n).up = false ∧ (t.port n).fails = x.fails + 1 ∧ (t.port n).down = decide (3 ≤ x.fails + 1)))) ∧
  ∀ (s : State) (n : Nat), ∃ t, exec (.ucieLinkDown n) s = .next t ∧ t = { s with links := t.links, ports := t.ports } ∧
    mget false t.links n = true ∧ (∀ k, k ≠ n → mget false t.links k = mget false s.links k) ∧
    ∀ k, (k < 18 → portDie k < 4 → t.offline (portDie k) = true → (t.port k).up = false) ∧
      (t.offline (portDie k) = false → t.port k = s.port k)

open Claims in
/-- R369, R381: packets held for 10 ms with no port to their partner fail: a lane that awaited data gets poison of source
class 0b01, and a store's late fault has DETAIL 0x91. Before that, or where a port is up, nothing happens. -/
def Sys2Proof.Claims.heldPackets : Prop :=
  (∀ (s : State) (partner : Nat), s.pathHeld partner = false ∨ s.timer < s.pathDownAt partner + 10000000 →
    exec (.girtHoldTimeout partner) s = .next s) ∧
  ∀ (s : State) (partner id : Nat) (f : FarAcc) (q : Pend), s.pathHeld partner = true →
    max f.at_ (s.pathDownAt partner) + 10000000 ≤ s.timer → f.partner = partner → s.far = [(id, [f])] → s.pend = [(id, q)] →
    (∀ e ∈ s.warps, ∀ t g a p v d l at_, e.2.park ≠ .cwait t g a p v (.far d l at_)) →
    (∀ w v fl cls, q = .result w [v] fl cls → v.lane = f.lane →
      exec (.girtHoldTimeout partner) s = .next { s with
        far := [], pend := [(id, .result w [{ v with val := 0x7FC00D0D, mark := some ⟨f.addr, 0x90, 0x14⟩ }] fl cls)] }) ∧
    ∀ w sp rel, q = .store w sp none rel →
      exec (.girtHoldTimeout partner) s = .next { s with
        far := [], pend := [(id, .store w sp (some (0x14, 0x91, f.addr)) rel)] }

namespace Sys2Proof.Claims

/-- A write of a party outside at locations `ls`, after s: its bytes are there, every other byte is as it was, and the
party's later signals and reads come after it. -/
structure WroteOutside (s t : State) (q : Nat) (ls : List Nat) (data : List Byte) : Prop where
  bytes : RowsKnown s → ls.Nodup → ls.length = data.length → ∀ (i l : Nat), ls[i]? = some l → s.discards l = false →
          some (t.mem.byte l) = data[i]?
  other : ∀ l, l ∉ ls → t.mem.byte l = s.mem.byte l
  view  : ∀ l ∈ ls, t.mem.pos l ≤ mget 0 (t.party q).view l
  party : ∀ p, p ≠ q → t.party p = s.party p

/-- A read of a party outside at locations `ls`, after s: where its floors are at every newest write, it has the newest
bytes; its floors never fall, and no byte changes. -/
structure ReadOutside (s t : State) (q : Nat) (ls : List Nat) : Prop where
  bytes  : (∀ l ∈ ls, s.mem.pos l ≤ mget 0 (s.party q).floors l ∧ s.offline (homeDie l) = false) →
           (∀ l ∈ ls, homeDie (unitOf l).1 = homeDie l) → (s.checkReads 0 ls).2 = [] →
           (t.party q).reply = ls.map s.mem.byte
  floors : ∀ l, mget 0 (s.party q).floors l ≤ mget 0 (t.party q).floors l
  mem    : t.mem.bytes = s.mem.bytes
  party  : ∀ p, p ≠ q → t.party p = s.party p

/-- An increment of a party outside at location l, after s: the counter has risen, saturating, and where it is a release,
one at sys with the snapshot `view` comes before it; no other byte changes. -/
structure SignalledOutside (s t : State) (q l inc : Nat) (rel : Bool) (view : SMap Nat) : Prop where
  value : RowsKnown s → l % 8 = 0 → s.offline (homeDie l) = false → (s.checkReads 0 (span l 8)).2 = [] →
          (∀ i ∈ span l 8, s.discards i = false) →
          (ofBytes (t.mem.peek l 8)).toNat = min ((ofBytes (s.mem.peek l 8)).toNat + inc) (2 ^ 64 - 1)
  other : ∀ i, i ∉ span l 8 → t.mem.byte i = s.mem.byte i
  rel   : rel = true → mfind t.mem.rels s.nextId = some { place := 161, scope := .sys, view } ∧
          s.nextId ∈ (t.party q).rels
  party : ∀ p, p ≠ q → t.party p = s.party p

/-- No core holds update-only copies. -/
def NoULines (s : State) : Prop := ∀ e ∈ s.cores, e.2.uLines = []

end Sys2Proof.Claims

open Claims in
/-- R15, R286: the writes, reads and signals of a host source queue act at their homes, through the tables of the context
that serves them, in the order of the queue, where the fabric has a port up; one whose rows a pass holds or whose home is off
line waits, and one that cannot be translated answers with no bytes. -/
def Sys2Proof.Claims.hosts : Prop :=
  (∀ (q c : Nat) (addr inc : Word) (data : List Byte) (n : Nat) (s : State), s.fabricUp = false →
    exec (.hostWrite q c addr data) s = .next s ∧ exec (.hostRead q c addr n) s = .next s ∧
    exec (.hostSignal q c addr inc) s = .next s) ∧
  ∀ (q c : Nat) (addr : Word) (s s1 : State), s.island.boot = .running → s.fabricUp = true → (mfind s.ctxs c).isSome →
    (∀ data, (∀ f, s.recLocs c { write := true } addr data.length = (s1, .error f) →
        ∃ t, exec (.hostWrite q c addr data) s = .next t ∧ (t.party q).reply = [] ∧ t.mem = s1.mem) ∧
      ∀ ls, s.recLocs c { write := true } addr data.length = (s1, .ok ls) →
        (s1.outsideWaits q ls true = true → exec (.hostWrite q c addr data) s = .next s) ∧
        (s1.outsideWaits q ls true = false → NoULines s1 →
          ∃ t, exec (.hostWrite q c addr data) s = .next t ∧ WroteOutside s1 t q ls data)) ∧
    (∀ n ls, s.recLocs c {} addr n = (s1, .ok ls) →
      (s1.outsideWaits q ls false = true → exec (.hostRead q c addr n) s = .next s) ∧
      (s1.outsideWaits q ls false = false → NoULines s1 →
        ∃ t, exec (.hostRead q c addr n) s = .next t ∧ ReadOutside s1 t q ls)) ∧
    (∀ (inc : Word) (l : Nat), addr.toNat % 8 = 0 → s.recLocs c { write := true } addr 8 = (s1, .ok (span l 8)) →
      (s1.outsideWaits q (span l 8) true = true → exec (.hostSignal q c addr inc) s = .next s) ∧
      (s1.outsideWaits q (span l 8) true = false → NoULines s1 →
        ∃ t, exec (.hostSignal q c addr inc) s = .next t ∧ SignalledOutside s1 t q l inc.toNat true (s1.party q).view))

open Claims in
/-- R156, R277, R278, R285: an access that a warp of another device sends, where a port to it is up, acts at its home, through
the tables bound to its device and context; one that has no tables bound answers with no bytes. Each warp is a party of its
own: its release at sys covers what it has written and read here, and its acquire lets its later reads follow the releases that
it has observed. -/
def Sys2Proof.Claims.remotes : Prop :=
  (∀ (dev c n : Nat) (addr : Word) (op : RemoteOp) (s : State), s.fabricUp = false ∨ s.pathHeld dev = true →
    (∀ rel acq, op ≠ .phase rel acq) → (∀ id, op ≠ .follow id) → exec (.remoteAccess dev ⟨c, n⟩ addr op) s = .next s) ∧
  (∀ (dev c n : Nat) (addr : Word) (s : State), let q := remoteParty dev c n
    (∃ t, exec (.remoteAccess dev ⟨c, n⟩ addr (.phase true false)) s = .next t ∧ t.mem.bytes = s.mem.bytes ∧
      mfind t.mem.rels s.nextId = some { place := 161, scope := .sys, view := (s.party q).floors } ∧
      t.party q = { s.party q with rels := (s.party q).rels ++ [s.nextId] } ∧ ∀ p, p ≠ q → t.party p = s.party p) ∧
    exec (.remoteAccess dev ⟨c, n⟩ addr (.phase false true)) s =
      .next (s.modParty q fun x => { x with floors := s.mem.acquired 161 .sys x.seen x.floors })) ∧
  ∀ (dev c w : Nat) (addr : Word) (s s1 : State), s.island.boot = .running → s.fabricUp = true → s.pathHeld dev = false →
    let q := remoteParty dev c w
    (∀ n acq, 0 < n → mfind s.bound (dev * 65536 + c) = none →
      ∃ t, exec (.remoteAccess dev ⟨c, w⟩ addr (.read n acq)) s = .next t ∧ (t.party q).reply = [] ∧ t.mem = s.mem) ∧
    (∀ n acq ls, s.remoteLocs dev c false addr n = (s1, some ls) → s1.outsideWaits q ls false = false → NoULines s1 →
      ∃ t, exec (.remoteAccess dev ⟨c, w⟩ addr (.read n acq)) s = .next t ∧ ReadOutside s1 t q ls) ∧
    (∀ data ls, s.remoteLocs dev c true addr data.length = (s1, some ls) → s1.outsideWaits q ls true = false → NoULines s1 →
      ∃ t, exec (.remoteAccess dev ⟨c, w⟩ addr (.write data)) s = .next t ∧ WroteOutside s1 t q ls data) ∧
    (∀ (inc : Word) (rel : Bool) (l : Nat), s.remoteLocs dev c true addr 8 = (s1, some (span l 8)) →
      s1.outsideWaits q (span l 8) true = false → NoULines s1 → addr.toNat % 8 = 0 →
      ∃ t, exec (.remoteAccess dev ⟨c, w⟩ addr (.signal inc rel)) s = .next t ∧
        SignalledOutside s1 t q l inc.toNat rel (s1.party q).floors) ∧
    (∀ (a : Args) (fp x y : Word) (s2 : State) (r : Rd) (ls : List Nat), addr.toNat % atomSize a.ty = 0 →
      s.remoteLocs dev c true addr (atomSize a.ty) = (s1, some ls) → s1.outsideWaits q ls true = false → NoULines s1 →
      s1.peekHome 0 ls = (s2, r) → r.poison ls = none →
      ∃ t, exec (.remoteAccess dev ⟨c, w⟩ addr (.atom a fp x y)) s = .next t ∧ (t.party q).reply = ls.map r.byte ∧
        ∀ l, l ∉ ls → t.mem.byte l = s1.mem.byte l)

/-- R15, R156, R285, R286, R380 to R382: links, held packets, hosts and other devices. What the rules leave to be read,
or open, is as notes/assumptions/37 and notes/assumptions/38 say. -/
def Obligations.Fabric : Prop := Claims.ports ∧ Claims.heldPackets ∧ Claims.hosts ∧ Claims.remotes

/-! ## The upkeep of memory -/

open Claims in
/-- R372, R374, R377: a store to INJ arms an injection or disarms it, and with a reserved bit set does nothing; a store to
BANK_ERR_STATUS clears it, and both change only their channel; a store to MARCH starts a test of a bank, whose rows are read
and then served by the pseudo-channel's spare bank until it ends, or does nothing where its rule says so. -/
def Sys2Proof.Claims.frameStores : Prop :=
  ∀ (s : State) (ch : Nat) (x : Word), let c := s.chan ch
    let only (i : Instr) (d : Chan) : Prop :=
      ∃ t, exec i s = .next t ∧ t = { s with chans := t.chans } ∧ t.chan ch = d ∧ ∀ k, k ≠ ch → t.chan k = s.chan k
    let pc := (x.extractLsb' 61 1).toNat
    let bank := (x.extractLsb' 56 5).toNat
    (x.extractLsb' 0 36 = 0 → only (.injStore ch x) { c with inj := if x.getLsbD 63 then x else 0 }) ∧
    (x.extractLsb' 0 36 ≠ 0 → exec (.injStore ch x) s = .next s) ∧
    only (.bankErrClear ch x) { c with bes := 0 } ∧
    (x.getLsbD 63 = false ∨ x &&& 0x40FFFFFFFFFFFFFF ≠ 0 ∨ (∃ k < 32, (s.chan (ch / 32 * 32 + k)).march.getLsbD 63 = true) ∨
        (∃ e ∈ c.spare, e.1 = pc) ∨ c.fence.getLsbD (32 * pc + bank) = true → exec (.marchStore ch x) s = .next s) ∧
    (x.getLsbD 63 = true → x &&& 0x40FFFFFFFFFFFFFF = 0 → (∀ k < 32, (s.chan (ch / 32 * 32 + k)).march.getLsbD 63 = false) →
      (∀ e ∈ c.spare, e.1 ≠ pc) → c.fence.getLsbD (32 * pc + bank) = false →
      ∃ t, exec (.marchStore ch x) s = .next t ∧ t = { s with mem := t.mem, chans := t.chans, dies := t.dies } ∧
        t.mem.bytes = s.mem.bytes ∧ (t.chan ch).march = x ||| (c.march &&& 0xFFFF) ∧ (t.chan ch).marchAt = s.timer ∧
        (t.chan ch).spare = c.spare ++ [(pc, bank, 32768)] ∧
        ∀ k, k ≠ ch → (t.chan k).march = (s.chan k).march ∧ (t.chan k).spare = (s.chan k).spare)

open Claims in
/-- R376, R377: a march that ends remaps each failing row that no spare row serves to a free one and poisons those for which
none is left; MARCH then says how many it remapped and whether one could not be, and the redirection ends. A fenced bank's rows are copied into
the spare bank in rising order, each redirected as it is copied; the other fenced banks of a pseudo-channel whose spare bank
is in use stay served by rebuild for good; no byte changes. The controllers of a die that is off line do neither (R384). -/
def Sys2Proof.Claims.bankRepair : Prop :=
  (∀ (s : State) (ch : Nat) (failing : List Nat), let c := s.chan ch
    (c.march.getLsbD 63 = false → exec (.marchComplete ch failing) s = .next s) ∧
    (s.offline (ch / 64) = true → exec (.marchComplete ch failing) s = .next s) ∧
    (c.march.getLsbD 63 = true → s.offline (ch / 64) = false → (∀ r ∈ failing, r < 32768) → failing.Nodup →
      let pc := (c.march.extractLsb' 61 1).toNat
      let bank := (c.march.extractLsb' 56 5).toNat
      let key := (ch * 2 + pc) * 32 + bank
      let rows := failing.filter fun r => !s.remapped.any fun e => e.1 == key && e.2.1 == r
      let n := min rows.length (s.freeSpares key).length
      ∃ t, exec (.marchComplete ch failing) s = .next t ∧ t.mem.bytes = s.mem.bytes ∧
        t.remapped = s.remapped ++ ((rows.take n).zip (s.freeSpares key)).map (fun e => (key, e.1, e.2)) ∧
        (t.chan ch).march = (c.march &&& 0x3F00000000000000) ||| (if n < rows.length then 0x4000000000000000 else 0) |||
          BitVec.ofNat 64 n ∧
        (t.chan ch).spare = c.spare.filter (fun e => !(e.1 == pc && e.2.1 == bank)) ∧
        ∀ r ∈ rows.drop n, ∀ col < 32,
          t.colSt ({ stack := ch / 32, ch := ch % 32, pc, bank, row := r, col } : Phys).key = .poison)) ∧
  (∀ (s : State) (ch pc b n : Nat), (s.chan ch).spare = [(pc, b, n)] → (s.chan ch).fencedBanks pc = [b] →
    (s.chan ch).lostSpare = [] → s.offline (ch / 64) = false →
    (n < 32768 → ∃ t, exec (.fenceCopyRow ch pc) s = .next t ∧ t.mem.bytes = s.mem.bytes ∧
      (t.chan ch).spare = [(pc, b, n + 1)] ∧ (t.chan ch).fence = (s.chan ch).fence) ∧
    (32768 ≤ n → ∃ t, exec (.fenceCopyRow ch pc) s = .next t ∧ t.mem = s.mem ∧ (t.chan ch).spare = [(pc, b, n)])) ∧
  (∀ (s : State) (ch pc b : Nat), (s.chan ch).spare = [] → (s.chan ch).fencedBanks pc = [b] → (s.chan ch).lostSpare = [] →
    s.offline (ch / 64) = false →
    ∃ t, exec (.fenceCopyRow ch pc) s = .next t ∧ t.mem.bytes = s.mem.bytes ∧ (t.chan ch).spare = [(pc, b, 1)]) ∧
  (∀ (s : State) (ch pc : Nat), ∃ t, exec (.fenceCopyRow ch pc) s = .next t ∧ t.mem.bytes = s.mem.bytes ∧
    (t.chan ch).fence = (s.chan ch).fence ∧
    ∀ b n, s.offline (ch / 64) = false → (s.chan ch).spare.find? (fun e => e.1 == pc) = some (pc, b, n) → ∀ k ∈ (s.chan ch).fencedBanks pc, k ≠ b →
      32 * pc + k ∈ (t.chan ch).lostSpare)

open Claims in
/-- R378: a `CWAIT` whose counter's page is no longer mapped ends 1 ms after the `TLBI` that unmapped it completed, as if it had
timed out: D holds the counter's value, the warp goes on, and the context's log records the counter's 128 B line. Before that
it waits. -/
def Sys2Proof.Claims.pinBreaks : Prop :=
  ∀ (s s1 : State) (w l at_ : Nat) (d : Option Nat) (g : Grp) (a : Args) (p v x : Word) (m : Option Mark),
    (s.warp w).park = .cwait d g a p v (.home l) → (s.warp w).unmapAt = some at_ →
    (s.leafAt (p.extractLsb' 0 48).toNat 3 (s.ctxOf w).crec.droot).isNone = true →
    (s.timer < at_ + 1000000 → exec (.pinBreak w) s = .next s) ∧
    (at_ + 1000000 ≤ s.timer → s.readCtr g p (.home l) = (s1, x, m) → g.ws.Nodup → (∀ v ∈ g.ws, (mfind s1.warps v).isSome) →
      (mfind s.ctxs (s.warp w).ctx).isSome →
      ∃ t, exec (.pinBreak w) s = .next t ∧
        (∀ v ∈ g.ws, (t.warp v).sget a.d.toNat = x ∧ (t.warp v).park = .none ∧
          (t.warp v).pc = (s1.warp v).pc + BitVec.ofNat 64 (argBytes a)) ∧
        (t.ctx (s.warp w).ctx).log = (s.ctx (s.warp w).ctx).log ++ [.pinBroken (p &&& ~~~0x7F)])

open Claims in
/-- R379: firmware moves a page of a frozen context to a free frame: every byte of the page stands in the frame, the leaf
names the frame, no cached translation of the page is left, and the context goes on. A page that a region, an open journal
step, a copy or an `NB` uses, and a vault window, is answered "busy" and nothing else changes; so is, by the model's reading,
one that a held write is for (DEDUCED, notes/assumptions/38). -/
def Sys2Proof.Claims.pageMoves : Prop :=
  (∀ (s : State) (c frame : Nat) (p : Word), s.fwRuns = true → spaceOf p = 3 →
    ∃ t, exec (.pageMigrate c p frame) s = .next t ∧ t = { s with island := { s.island with answer := t.island.answer } }) ∧
  ∀ (s : State) (c frame leaf lvl : Nat) (p e : Word), s.fwRuns = true → spaceOf p ≠ 3 → (mfind s.ctxs c).isSome →
    (s.ctx c).frozen = true →
    let va := (p.extractLsb' 0 48).toNat
    let size := pageSize lvl
    let lo := entryFrame e
    let leaf' := (e &&& ~~~(BitVec.ofNat 64 ((2 ^ 38 - 1) * 2 ^ 10))) ||| BitVec.ofNat 64 frame
    s.leafAt va 3 (s.ctx c).crec.droot = some (leaf, e, lvl) → frame % size = 0 → frame < 2 ^ 39 →
    leafLayoutBad s.island.fw lvl leaf' = false →
    (s.pageBusy c (va / size * size) size lo = true → ∃ t, exec (.pageMigrate c p frame) s = .next t ∧
      t = { s with island := { s.island with answer := t.island.answer } }) ∧
    (s.pageBusy c (va / size * size) size lo = false → s.pinned lo size = [] → s.mem.wf = true → (s.ctx c).dead = false →
      NoULines s → RowsKnown s →
      (∀ i < 8, leaf + i < frame ∨ frame + size ≤ leaf + i) → (∀ i < 8, s.discards (leaf + i) = false) →
      ∃ t, exec (.pageMigrate c p frame) s = .next t ∧
        (∀ i < size, t.mem.byte (frame + i) = s.mem.byte (lo + i)) ∧
        ofBytes (t.mem.peek leaf 8) = leaf' ∧
        (∀ l, (l < frame ∨ frame + size ≤ l) → l ∉ span leaf 8 → t.mem.byte l = s.mem.byte l) ∧
        (∀ u ∈ t.mem.tlb, ¬(u.ctx = c ∧ va / u.size = u.vpage)) ∧ (t.ctx c).frozen = false)

/-- R372, R374, R376 to R379: the memory controllers' words, bank repair, and pages that move. What the rules leave to be
read is as notes/assumptions/36 and notes/assumptions/38 say. -/
def Obligations.MemoryUpkeep : Prop :=
  Claims.frameStores ∧ Claims.bankRepair ∧ Claims.pinBreaks ∧ Claims.pageMoves

/-! ## The standby island: measurement, attestation, monitoring -/

namespace Sys2Proof.Claims

/-- The responder answers a request on transport t with `bytes`, and nothing else changes but that transport's connection
state. The numbers of the responses are the model's (notes/assumptions/34). -/
def responds (i : Instr) (t : Transport) (s : State) (bytes : List Byte) : Prop :=
  ∃ u, exec i s = .next u ∧ (u.island.spdm t).reply = bytes ∧ (u.island.spdm t).count = (s.island.spdm t).count + 1 ∧
    (∀ v, v ≠ t → u.island.spdm v = s.island.spdm v) ∧
    u = { s with island := { s.island with sill := u.island.sill, girt := u.island.girt } }

/-- Whether the responder serves every request on transport t: on the Sill port whenever the board has standby power, but in
recovery (R16, R317); on Girt while the device runs, where a port is up (R15). -/
def served (s : State) (t : Transport) : Prop :=
  t = .sill ∧ s.island.boot ≠ .recovery ∨ s.island.boot = .running ∧ s.fabricUp = true

/-- The state of a measurement register after an extension (R318). -/
def extended (old x : BitVec 256) : BitVec 256 := sha256 (digestBytes old ++ digestBytes x)

end Sys2Proof.Claims

open Claims in
/-- R16, R317, R319, R320: the responder answers each SPDM request on its own transport, and in recovery only
GET_VERSION and GET_CAPABILITIES on the Sill port. ALGORITHMS names SHA-256 as the measurement hash and as the hash, no
BaseAsymAlgo bit, and the extended entry where it was offered. CHALLENGE and signed GET_MEASUREMENTS receive UnexpectedRequest
where no asymmetric algorithm was selected; index n + 1 gives MR_n and 0xFF all 16 at one instant; any other request receives
UnsupportedRequest. -/
def Sys2Proof.Claims.spdm : Prop :=
  (∀ (t : Transport) (s : State), (served s t ∨ s.island.boot = .recovery ∧ t = .sill) →
    responds (.getVersion t) t s [0x04, 0x01, 0x00, 0x13] ∧ responds (.getCapabilities t) t s (0x61 :: leBytes 4 0x16)) ∧
  (∀ (t : Transport) (s : State), served s t →
    (∀ b, responds (.negotiateAlgorithms t b) t s
        (0x63 :: leBytes 4 2 ++ leBytes 4 0 ++ leBytes 4 1 ++ if b then [0x04, 0x00] ++ leBytes 2 1 else []) ∧
      ∀ u, exec (.negotiateAlgorithms t b) s = .next u → (u.island.spdm t).slh = some b) ∧
    responds (.getDigests t) t s (0x01 :: 0x01 :: digestBytes (sha256 Config.certChain)) ∧
    (∀ off n, let part := (Config.certChain.drop off).take n
      responds (.getCertificate t 0 off n) t s
        (0x02 :: 0x00 :: leBytes 2 part.length ++ leBytes 2 (Config.certChain.length - off - part.length) ++ part)) ∧
    (∀ slot off n, slot ≠ 0 → responds (.getCertificate t slot off n) t s [0x7F, 0x07]) ∧
    (∀ slot nonce, (s.island.spdm t).slh ≠ some true → responds (.challenge t slot nonce) t s [0x7F, 0x04]) ∧
    (∀ slot nonce, (s.island.spdm t).slh = some true → slot ≠ 0 → responds (.challenge t slot nonce) t s [0x7F, 0x07]) ∧
    (∀ nonce, (s.island.spdm t).slh = some true →
      let body := digestBytes (sha256 Config.certChain) ++ digestBytes nonce
      responds (.challenge t 0 nonce) t s (0x03 :: body ++ Config.slhSign body)) ∧
    (∀ index nonce, (s.island.spdm t).slh ≠ some true → responds (.getMeasurements t index true nonce) t s [0x7F, 0x04]) ∧
    (∀ n nonce, n < 16 →
      responds (.getMeasurements t (n + 1) false nonce) t s (0x60 :: digestBytes (s.island.mr n)) ∧
      ((s.island.spdm t).slh = some true →
        let body := digestBytes (s.island.mr n) ++ digestBytes nonce
        responds (.getMeasurements t (n + 1) true nonce) t s (0x60 :: body ++ Config.slhSign body))) ∧
    (let all := (List.range 16).flatMap fun n => digestBytes (s.island.mr n)
     (∀ nonce, responds (.getMeasurements t 0xFF false nonce) t s (0x60 :: all)) ∧
     (∀ nonce, (s.island.spdm t).slh = some true →
       let body := all ++ digestBytes nonce
       responds (.getMeasurements t 0xFF true nonce) t s (0x60 :: body ++ Config.slhSign body))) ∧
    (∀ index signed nonce, index ≠ 0xFF → (index = 0 ∨ 16 < index) → (signed = true → (s.island.spdm t).slh = some true) →
      responds (.getMeasurements t index signed nonce) t s [0x7F, 0x07]) ∧
    ∀ code, responds (.spdmUnsupported t code) t s [0x7F, 0x07]) ∧
  ∀ (t : Transport) (s : State),
    (t = .girt ∧ (s.island.boot ≠ .running ∨ s.fabricUp = false) →
      exec (.getVersion t) s = .next s ∧ exec (.getCapabilities t) s = .next s) ∧
    ((s.island.boot = .recovery ∨ t = .girt ∧ (s.island.boot ≠ .running ∨ s.fabricUp = false)) →
      exec (.getDigests t) s = .next s ∧ (∀ b, exec (.negotiateAlgorithms t b) s = .next s) ∧
      (∀ slot off n, exec (.getCertificate t slot off n) s = .next s) ∧ (∀ slot n, exec (.challenge t slot n) s = .next s) ∧
      (∀ x y n, exec (.getMeasurements t x y n) s = .next s) ∧ ∀ code, exec (.spdmUnsupported t code) s = .next s)

open Claims in
/-- R16, R318, R321, R325: running firmware extends one of MR_2, MR_3 and MR_8 to MR_15, MR_n := SHA-256(MR_n ∥ X), and no other write
to a measurement register exists. A health read reports temperatures, power, die states, wear with WEAR_MAX, and the flags of
the cores that have halted, and changes nothing but its answer; one from an address that may not manage the device has no
effect. The sensors' readings are free values (notes/assumptions/19). -/
def Sys2Proof.Claims.island : Prop :=
  (∀ (s : State) (n : Nat) (x : BitVec 256),
    (s.fwRuns = true → (n = 2 ∨ n = 3 ∨ 8 ≤ n ∧ n ≤ 15) → ∃ t, exec (.measurementExtend n x) s = .next t ∧
      t = { s with island := { s.island with mrs := t.island.mrs } } ∧ t.island.mr n = extended (s.island.mr n) x ∧
      ∀ k, k ≠ n → t.island.mr k = s.island.mr k) ∧
    (s.fwRuns = false ∨ ¬(n = 2 ∨ n = 3 ∨ 8 ≤ n ∧ n ≤ 15) → exec (.measurementExtend n x) s = .next s)) ∧
  ∀ (r : Requester) (s : State),
    (s.mayManage r = false → exec (.healthRead r) s = .next s) ∧
    (s.mayManage r = true → ∃ u, exec (.healthRead r) s = .next u ∧
      u = { s with island := { s.island with answer := u.island.answer }, free := s.free + 1 } ∧
      u.island.answer.length = 281 ∧
      (∀ i < 13, (u.island.answer.drop (1 + 4 * i)).take 4 = leBytes 4 (Config.sensor i s.free)) ∧
      u.island.answer.drop 121 = (List.range 160).map (fun k => if s.haltDone k then 1 else 0) ∧
      ∀ d < 4, (u.island.answer.drop (53 + 17 * d)).take 17 =
        leBytes 1 (s.die d).st.code ++ leBytes 8 (s.die d).wear ++ leBytes 8 (Config.wearMax d))

/-- R15, R16, R317 to R321, R325: attestation and monitoring. -/
def Obligations.Attestation : Prop := Claims.spdm ∧ Claims.island

/-! ## Start-up, resets and management -/

namespace Sys2Proof.Claims

/-- A management command is answered, and nothing else changes; which number an answer has is the model's
(notes/assumptions/33). -/
def answersOnly (i : Instr) (s : State) (x : Ans) (data : List Byte) : Prop :=
  exec i s = .next { s with island := { s.island with answer := x.code :: data } }

/-- A command from a requester that may not send it has no effect (R325). -/
def refusesOthers (i : Requester → Instr) : Prop := ∀ (r : Requester) (s : State), s.mayManage r = false → exec (i r) s = .next s

end Sys2Proof.Claims

open Claims in
/-- R315, R317, R318, R326: power-on measures the ROM, the image and the configuration, releases every die and makes context
0, or stays in recovery with every die in reset where a check fails. A recovery load keeps an image that passes the checks,
from the Sill bus only. A device reset empties every queue, context and warp, and boots again; TIMER and wear go on. -/
def Sys2Proof.Claims.startUp : Prop :=
  let booted (i : Instr) (s : State) (cfg : FwConfig) (mr : Nat → BitVec 256) (t : State) : Prop :=
    exec i s = .next t ∧ t.island.boot = .running ∧ t.island.fw = cfg ∧ (∀ d < 4, (t.die d).st = .online) ∧
    (∃ x, mfind t.ctxs 0 = some x ∧ x.crec.priv = true ∧ x.crec.ctx = 0) ∧
    t.island.mr 0 = extended (mr 0) Config.romDigest ∧ t.island.mr 1 = extended (mr 1) (imgDigest s.island.flash) ∧
    t.island.mr 2 = extended (mr 2) cfg.mr2 ∧ t.island.mr 3 = extended (mr 3) cfg.mr3 ∧
    (cfg.own.vgrantAt = 0 → cfg.own.peersAt = 0 → ∀ l, 2 ^ 40 ≤ l → l < 2 ^ 51 → l ∉ span cfg.recAt 256 →
      (∀ e ∈ cfg.init, l ∉ span e.1 e.2.length) → t.mem.byte l = 0)
  (∀ (s : State) (cfg : FwConfig), s.island.boot = .cold →
    (imgOk s.island.flash = true → ∃ t, booted (.powerOn cfg) s cfg s.island.mr t ∧ t.timer = s.timer) ∧
    (imgOk s.island.flash = false → exec (.powerOn cfg) s = .next { s with island := { s.island with boot := .recovery } })) ∧
  (∀ (s : State) (cfg : FwConfig), s.island.boot ≠ .cold → exec (.powerOn cfg) s = .next s) ∧
  (∀ (s : State) (img : List Byte),
    (imgOk img = true → exec (.recoveryLoad .sill img) s =
      .next { s with island := { s.island with flash := img, answer := [Ans.done.code] } }) ∧
    (imgOk img = false → answersOnly (.recoveryLoad .sill img) s .refused [])) ∧
  (∀ (s : State) (a : Nat) (img : List Byte), exec (.recoveryLoad (.girt a) img) s = .next s) ∧
  refusesOthers (.deviceReset · {}) ∧
  ∀ (r : Requester) (s : State) (cfg : FwConfig), s.mayManage r = true →
    ∃ t, exec (.deviceReset r cfg) s = .next t ∧ t.timer = s.timer ∧ t.warps = [] ∧ t.blocks = [] ∧ t.pend = [] ∧
      t.held = [] ∧ t.regions = [] ∧ t.island.resets = [] ∧ (∀ d, (t.die d).wear = (s.die d).wear) ∧
      (∀ c, c ≠ 0 → mfind t.ctxs c = none) ∧ (∀ n, 3 < n → t.island.mr n = 0) ∧
      (imgOk s.island.flash = true → booted (.deviceReset r cfg) s cfg (fun _ => 0) t) ∧
      (imgOk s.island.flash = false → t.island.boot = .recovery ∧ (∀ d, (t.die d).st = .reset) ∧ t.island.mr 0 = 0)

open Claims in
/-- R327, R384: a warm reset freezes the contexts of its die; once they can be saved they are, and the die is off line; it is
drained and reset, its links retrained, and re-admitted with its journal rows restored. A die already resetting is refused
"busy". -/
def Sys2Proof.Claims.warmResets : Prop :=
  refusesOthers (.warmReset · 0) ∧
  (∀ (r : Requester) (s : State) (d : Nat), s.mayManage r = true → s.island.boot = .running → d < 4 →
    ((s.die d).st ≠ .online ∨ d ∈ s.island.resets → answersOnly (.warmReset r d) s .busy []) ∧
    ((s.die d).st = .online → s.island.resets = [] → (∀ k < 4, (s.die k).st.resetting = false) →
      ∃ t, exec (.warmReset r d) s = .next t ∧ (t.die d).st = .saving ∧ (∀ k, k ≠ d → t.die k = s.die k) ∧
        t.mem = s.mem ∧ (∀ w, Warp.Kept (s.warp w) (t.warp w)) ∧
        ∀ c x, mfind s.ctxs c = some x → (x.crec.cores.any fun k => k / 40 == d) = true → x.frozen = false → x.saved = false →
          (t.ctx c).freezing = true)) ∧
  (∀ (s : State) (d : Nat), (s.die d).st = .saving →
    let cs := (s.ctxsOn d).filter fun c => !(s.ctx c).saved
    let ready (c : Nat) : Prop := s.enginesIdle c = true ∧ (s.warpsOf c).any (s.hasHeld · true) = false ∧
      ((s.ctx c).frozen = true ∨ s.warpsStopped c = true)
    ((∃ c ∈ cs, ¬ready c) → exec (.dieQuiesce d) s = .next s) ∧
    ((∀ c ∈ cs, ready c) → ∃ t, exec (.dieQuiesce d) s = .next t ∧ (t.die d).st = .offline s.timer ∧ t.timer = s.timer ∧
      (∀ c ∈ cs, (mfind s.ctxs c).isSome → (t.ctx c).saved = true ∧ (t.ctx c).frozen = true) ∧
      ∀ c ∈ cs, (∀ e ∈ t.warps, e.2.ctx ≠ c) ∧ (∀ e ∈ t.blocks, e.2.ctx ≠ c) ∧ ∃ v ∈ t.saves, v.ctx = c)) ∧
  (∀ (s : State) (d at_ : Nat), (s.die d).st = .offline at_ →
    ∃ t, exec (.dieDrain d) s = .next t ∧ (t.die d).st = .drained at_ ∧ t.timer = s.timer ∧
      (∀ g ∈ t.regions, (g.rows.any fun r => isDram r && homeDie r == d) = true → g.passes = []) ∧
      ∀ k, k / 40 = d → (∀ b, ((t.core k).band b).st = .off) ∧ (t.core k).halted = false ∧ (t.core k).tiles = []) ∧
  (∀ (s : State) (d at_ : Nat), d < 4 → (s.die d).st = .drained at_ →
    (∃ t, exec (.dieRetrain d true) s = .next t ∧ (t.die d).st = .retrained at_ ∧
      mget false t.links (d / 2) = false ∧ mget false t.links (2 + d % 2) = false ∧ t.mem = s.mem) ∧
    ((s.die d).fails + 1 < 3 → ∃ t, exec (.dieRetrain d false) s = .next t ∧
      t.die d = { s.die d with fails := (s.die d).fails + 1 } ∧ t.mem = s.mem)) ∧
  ∀ (s : State) (d at_ : Nat), (s.die d).st = .retrained at_ → (s.die d).kept = [] → s.held = [] → s.dones = [] →
    s.island.resets = [] → NoULines s → RowsKnown s →
    ∃ t, exec (.dieReadmit d) s = .next t ∧ (t.die d).st = .online ∧
      ∀ c x r bs, s.ctxs = [(c, x)] → x.jrn.owed = [(r, (bs, []))] → bs.length = 1024 → isDram r = true → homeDie r = d →
        s.fenced (physRM r) = false → (∀ l ∈ span r 1024, s.discards l = false) → t.mem.peek r 1024 = bs

open Claims in
/-- R380, R383, R385: a die that fails its third retraining, or is not back 100 ms after its quiesce, is lost: every context
that holds a core on it takes a fatal trap, and a write that was held for it is a late trap of its warp. A die that is neither,
also one with both its links down, is not. -/
def Sys2Proof.Claims.lostDies : Prop :=
  let lost (i : Instr) (s : State) (d : Nat) : Prop :=
    d ∉ s.island.resets → msorted s.warps = true →
    ∃ t, exec i s = .next t ∧ (t.die d).st = .lost ∧ t.timer = s.timer ∧
      (∀ c x, mfind s.ctxs c = some x → (x.crec.cores.any fun k => k / 40 == d) = true → (t.ctx c).dead = true) ∧
      ∀ h, s.held = [h] → s.regions = [] → s.ctxsOn d = [] → (∀ e ∈ s.ctxs, e.2.jrn.rows = [] ∧ e.2.jrn.isOpen = false) →
        ∀ w, h.wr.ws.head? = some w → (h.bytes.any fun b => homeDie b.1 == d) = true → (mfind s.warps w).isSome →
        (s.warp w).late = none → (t.warp w).late = some ⟨0x14, 0xA1, h.addr, .store⟩ ∧ t.held = []
  (∀ (s : State) (d at_ : Nat), (s.die d).st = .drained at_ → 3 ≤ (s.die d).fails + 1 → lost (.dieRetrain d false) s d) ∧
  (∀ (s : State) (d at_ : Nat), (s.die d).st = .offline at_ ∨ (s.die d).st = .drained at_ ∨ (s.die d).st = .retrained at_ →
    (at_ + 100000000 ≤ s.timer → lost (.dieLost d) s d) ∧ (s.timer < at_ + 100000000 → exec (.dieLost d) s = .next s)) ∧
  ∀ (s : State) (d : Nat), (s.die d).st = .online → exec (.dieLost d) s = .next s

open Claims in
/-- R127, R326, R365: a core restart starts a core that has reported itself halted; a dump trigger writes the device-level dump, which a dump fetch answers,
as it does the header alone of a tenant's dump. -/
def Sys2Proof.Claims.commands : Prop :=
  refusesOthers (.coreRestart · 0) ∧ refusesOthers (.dumpTrigger ·) ∧ refusesOthers (.dumpFetch · none) ∧
  (∀ (r : Requester) (s : State) (k : Nat), s.mayManage r = true →
    (s.island.boot ≠ .running → answersOnly (.coreRestart r k) s .notReady []) ∧
    (s.island.boot = .running → s.haltDone k = false → answersOnly (.coreRestart r k) s .refused []) ∧
    (s.island.boot = .running → s.haltDone k = true → ∃ t, exec (.coreRestart r k) s = .next t ∧
      t = { s with cores := t.cores, island := { s.island with answer := t.island.answer } } ∧
      t.core k = { s.core k with halted := false } ∧ ∀ n, n ≠ k → t.core n = s.core n)) ∧
  ∀ (r : Requester) (s : State), s.mayManage r = true →
    (s.fwRuns = false → answersOnly (.dumpTrigger r) s .notReady [] ∧ answersOnly (.dumpFetch r none) s .notReady []) ∧
    (s.fwRuns = true →
      exec (.dumpTrigger r) s = .next { s with island := { s.island with
        dump := some s.deviceDump, answer := [Ans.done.code] } } ∧
      (∀ d, s.island.dump = some d → answersOnly (.dumpFetch r none) s .done d) ∧
      ∀ c, (s.ctx c).dumpHead ≠ [] → answersOnly (.dumpFetch r (some c)) s .done (s.ctx c).dumpHead)

open Claims in
/-- R322, R323: firmware keeps a record's 256 bytes in its memory, and the tables at the record's pointers; where these are zero
it writes nothing else. -/
def Sys2Proof.Claims.recordKept : Prop :=
  (∀ (s : State) (x : CtxRec), x.vgrantAt = 0 → x.peersAt = 0 → RowsKnown s →
    (∀ l ∈ span (s.recordAt x.ctx) 256, s.discards l = false) →
    (s.keepRecord x).mem.peek (s.recordAt x.ctx) 256 = recordBytes x ∧
    ∀ l, l ∉ span (s.recordAt x.ctx) 256 → (s.keepRecord x).mem.byte l = s.mem.byte l) ∧
  (∀ (s s1 : State) (p : Word) (bs : List Byte) (ls : List Nat), p ≠ 0 →
    s.recLocs 0 { write := true } p bs.length = (s1, .ok ls) → NoULines s1 → RowsKnown s1 → ls.Nodup →
    (∀ l ∈ ls, s1.discards l = false) →
    (∀ (i l : Nat), ls[i]? = some l → some ((s.fwWrite p bs).mem.byte l) = bs[i]?) ∧
    ∀ l, l ∉ ls → (s.fwWrite p bs).mem.byte l = s1.mem.byte l) ∧
  ∀ r : CtxRec, (recordBytes r).length = 256 ∧ (vaultTable r).length = 640 ∧ (peerMask r).length = 128

open Claims in
/-- R322 to R324: firmware accepts a record without PRIV whose fields fit and whose windows, cores and slots meet no other
context's, and keeps it; a core, a window or a slot that leaves a context holds nothing of it. A destroyed context is gone with
its warps, its translations and its regions. That a change or a destroy is answered "busy" while blocks are resident on a core
that leaves, or writes are in flight, is the model's reading (notes/assumptions/38). -/
def Sys2Proof.Claims.tenants : Prop :=
  refusesOthers (.contextCreate · {}) ∧ refusesOthers (.contextChange · {}) ∧ refusesOthers (.contextDestroy · 1) ∧
  (∀ (r : Requester) (s : State) (x : CtxRec), s.mayManage r = true → s.fwRuns = true →
    ((x.priv = true ∨ x.ctx = 0 ∨ recordFits x = false ∨ (∃ e ∈ s.ctxs, e.1 ≠ x.ctx ∧ grantsMeet x e.2.crec = true)) →
      answersOnly (.contextCreate r x) s .refused []) ∧
    (s.recordOk x = true → mfind s.ctxs x.ctx = none → ∃ t, exec (.contextCreate r x) s = .next t ∧
      t.mem = ((({ s with ctxs := mins s.ctxs x.ctx (freshCtx x) } : State).grantCores x).keepRecord x).mem ∧
      (∀ c, c ≠ x.ctx → (mfind t.ctxs c).isSome = (mfind s.ctxs c).isSome ∧
        t.ctx c = { s.ctx c with fineFj := (t.ctx c).fineFj }) ∧
      (∃ y, mfind t.ctxs x.ctx = some y ∧ y.crec = x ∧ y.frozen = false ∧ y.dead = false ∧ y.stages = [] ∧ y.lnum = 0) ∧
      (∀ k ∈ x.cores, (t.core k).owner = some x.ctx ∧ (t.core k).l1sz = x.l1sz.toNat ∧
        (t.core k).level = (x.ebudget.extractLsb' 0 24).toNat ∧ (t.core k).tiles = (s.core k).tiles) ∧
      ∀ k, k ∉ x.cores → t.core k = { s.core k with
        uLines := (t.core k).uLines, l1 := (t.core k).l1, l1Err := (t.core k).l1Err })) ∧
  (∀ (r : Requester) (s : State) (x : CtxRec) (y : Ctx), s.mayManage r = true → s.fwRuns = true → mfind s.ctxs x.ctx = some y →
    s.recordOk x = true →
    (∀ k ∈ y.crec.cores, k ∉ x.cores → s.holdsCore x.ctx k = true → answersOnly (.contextChange r x) s .busy []) ∧
    ((∀ k ∈ y.crec.cores, k ∉ x.cores → s.holdsCore x.ctx k = false) → takesAway y.crec x = true → s.quiet x.ctx = false →
      answersOnly (.contextChange r x) s .busy []) ∧
    ((∀ k ∈ y.crec.cores, k ∉ x.cores → s.holdsCore x.ctx k = false) → (takesAway y.crec x = true → s.quiet x.ctx = true) →
      ∃ t, exec (.contextChange r x) s = .next t ∧
      (t.ctx x.ctx).crec = x ∧ (t.ctx x.ctx).dispStop = false ∧ (t.ctx x.ctx).stages = (s.ctx x.ctx).stages ∧
      (∀ k ∈ y.crec.cores, k ∉ x.cores → (t.core k).tiles = [] ∧ (t.core k).recs = [] ∧ (t.core k).ring = []))) ∧
  ∀ (r : Requester) (s : State) (c : Nat) (x : Ctx), s.mayManage r = true → s.fwRuns = true → c ≠ 0 → mfind s.ctxs c = some x →
    (s.enginesIdle c = false ∨ (s.warpsOf c).any (s.hasHeld · true) = true → answersOnly (.contextDestroy r c) s .busy []) ∧
    (s.enginesIdle c = true → (s.warpsOf c).any (s.hasHeld · true) = false → ∃ t, exec (.contextDestroy r c) s = .next t ∧
      mfind t.ctxs c = none ∧ (∀ e ∈ t.warps, e.2.ctx ≠ c) ∧ (∀ e ∈ t.blocks, e.2.ctx ≠ c) ∧
      (∀ u ∈ t.mem.tlb, u.ctx ≠ c) ∧
      ∀ k ∈ x.crec.cores, (t.core k).tiles = [] ∧ (t.core k).recs = [] ∧ (t.core k).owner = none ∧
        ∀ i < 2 ^ 22, t.mem.byte (ubsLoc k i) = 0)

/-- R315 to R318, R322 to R327, R380, R383 to R385: start-up, resets, lost dies, commands and tenants. What the rules leave to
be read, or open, is as notes/assumptions/33, 35, 37, 38 and 45 say. -/
def Obligations.Management : Prop :=
  Claims.startUp ∧ Claims.warmResets ∧ Claims.lostDies ∧ Claims.commands ∧ Claims.recordKept ∧ Claims.tenants

/-! ## The machine as a whole -/

/-- R61, R64 to R73: decoding and encoding agree. Every well-formed program instruction decodes from its own words,
whatever follows them; and words that decode to a program instruction are those of that instruction, which is well
formed. What the rules leave to be read, or open, is as notes/assumptions/40 says. -/
def Obligations.RoundTrip : Prop :=
  (∀ (i : Instr) (rest : List IWord), i.wf = true → i.op?.isSome → decodeWords (encode i ++ rest) = .ok i) ∧
  ∀ (w0 : IWord) (ws : List IWord) (i : Instr), ws.length + 1 = lengthOf w0 → decodeWords (w0 :: ws) = .ok i → i.op?.isSome →
    i.wf = true ∧ encode i = w0 :: ws

/-- R61, R64, R69 and the worked encodings of the spec: words written out there decode to the instructions they stand for. -/
def Obligations.DecodeWords : Prop :=
  decodeWords [0x03081200] = .ok (.add { d := 1, a := 2, b := 3 }) ∧
  decodeWords [0x101044AC] = .ok (.addi { scope := .warp, fin := true, kd := .s, ka := .s, kb := .s, kc := .s, d := 4, a := 4, imm := 0x10 }) ∧
  decodeWords [0x00010662, 0x07050282, 0x0000B019] = .ok (.ffma { form := .ext, kb := .s, d := 130, a := 2, b := 5, c := 7, ty := .f16x4, rnd := .rtz, p := 3, pn := true }) ∧
  decodeWords [0x000C0283, 0x00030201, 0, 0, 1] = .ok (.mad { form := .extLit, kc := .x, d := 1, a := 2, b := 3, lit := 0x100000000 }) ∧
  decodeWords [0x000220C1, 6] = .ok (.ifc { form := .baseLit, p := 2, off := 4, lit := 6 }) ∧
  decodeWords [0x00044B8A, 0x05000400, 0x20100000] = .ok (.csig { form := .ext, scope := .warp, ka := .s, kc := .s, a := 4, c := 5, func := 1, sub := 2 }) ∧
  decodeWords [0x0000FCAA, 0x00000100, 0x00100000] = .ok (.mma { form := .ext, scope := .warp, kd := .x, ka := .x, a := 1, func := 1 }) ∧
  decodeWords [0x800D5DAA, 0x00030208, 0x00000008] = .ok (.nbDot { form := .ext, scope := .warp, kd := .s, ka := .s, kb := .s, kc := .x, d := 8, a := 2, b := 3, imm := 0x800, ty := .f16 }) ∧
  (∃ e, decodeWords [0x00000A00] = .error e ∧ e.detail = 0x01)

namespace Sys2Proof.Claims

/-- The words of warp w's instruction are fetched after s1: word 0 at its pc, then as many as word 0 announces; s4 is the
state with the misses noted. -/
def Fetched (s1 : State) (w : Nat) (w0 : IWord) (ws : List IWord) (s4 : State) : Prop :=
  ∃ s2 s3, s1.fetchWord w (s1.warp w).pc = (s2, .ok w0) ∧
    s2.fetchWords w ((s1.warp w).pc + 4) (lengthOf w0 - 1) = (s3, ws, none) ∧ s4 = s3.noteMiss s1.mem w

/-- Warp w may issue in the clock in which the instruction before did: it is of a later partition, or the same warp, its run
is open, and its instruction waits for no fixed latency and no port (R46). -/
def sharesClock (s : State) (w : Nat) : Prop :=
  s.readyNow w = true ∧ ∃ j, s.joint = some j ∧
    (8 * j.core + j.part < 8 * s.coreOf w + (s.warp w).part ∨
      (8 * j.core + j.part = 8 * s.coreOf w + (s.warp w).part ∧ w = s.cur))

/-- The state in which a step that takes up warp w tries its instruction: one clock later, or in the clock of the instruction
before where the agenda asks for it and the warp may share that clock. -/
def Tried (s1 : State) (w : Nat) (x : Act) (s2 : State) : Prop :=
  (x = .issue w ∧ s2 = s1.elapse 1 0) ∨
  (x = .also w ∧ (sharesClock s1 w → s2 = s1) ∧ (¬sharesClock s1 w → s2 = s1.elapse 1 0))

/-- The step at a fetch or decode trap x of warp w, whose words fetched name an instruction or none, in state s4: the late trap
that is due there is taken instead (R346). -/
def trapsAtFetch (s s4 : State) (w : Nat) (names : Option (Op × Args)) (x : Trap) : Prop :=
  ((∀ o a l, names = some (o, a) → (s4.warp w).late = some l → lateDue o a (s4.warp w) = false) →
    step s = settled (.next { s4.trap w x with joint := none })) ∧
  ∀ o a l, names = some (o, a) → (s4.warp w).late = some l → lateDue o a (s4.warp w) = true →
    step s = settled (.next { (s4.trap w ⟨l.code, l.detail, l.addr⟩).takeLate o a w with joint := none })

/-- What a step that takes up a warp does: outcomes after which the device does what it does by itself. -/
def stepOfWarp : Prop :=
  ∀ (s s1 s2 : State) (w : Nat) (x : Act), s.takeAct = (x, s1) → Tried s1 w x s2 →
    (s2.takesUp w = false → step s = settled (.next s2)) ∧
    (s2.takesUp w = true →
      (∀ s4 w0 ws i, Fetched s2 w w0 ws s4 → decodeWords (w0 :: ws) = .ok i →
        (s4.waitOf w i = 0 → step s = settled (exec i { s4 with
          cur := w, joint := some { core := s4.coreOf w, part := (s4.warp w).part } })) ∧
        (1 ≤ s4.waitOf w i → s4.waitOf w i ≤ 2 → step s = settled (.next s4)) ∧
        (2 < s4.waitOf w i → step s = settled (.next (s4.stalled w)))) ∧
      (∀ s4 w0 ws e, Fetched s2 w w0 ws s4 → decodeWords (w0 :: ws) = .error e →
        trapsAtFetch s s4 w (namedBy (w0 :: ws)) ⟨0x01, e.detail, 0⟩) ∧
      (∀ s3 f, s2.fetchWord w (s2.warp w).pc = (s3, .error f) → trapsAtFetch s (s3.noteMiss s2.mem w) w none f.trap) ∧
      ∀ s3 s4 w0 ws f, s2.fetchWord w (s2.warp w).pc = (s3, .ok w0) →
        s3.fetchWords w ((s2.warp w).pc + 4) (lengthOf w0 - 1) = (s4, ws, some f) →
        trapsAtFetch s (s4.noteMiss s2.mem w) w (namedBy (w0 :: ws)) f)

/-- A storage error changes the stored form that it meets and nothing else: no byte, no register, no tile, no clock (R168). -/
def upsetKeeps : Prop :=
  ∀ (s : State) (u : Upset) (unc : Bool),
    let t := s.upset u unc
    t.mem = { s.mem with cols := t.mem.cols, sectors := t.mem.sectors, tables := t.mem.tables } ∧
    t.clock = s.clock ∧ t.timer = s.timer ∧ t.ctxs = s.ctxs ∧ t.pend = s.pend ∧ t.dies = s.dies ∧
    (∀ w, t.warp w = { s.warp w with words := (t.warp w).words }) ∧
    (∀ b, t.blk b = { s.blk b with qWords := (t.blk b).qWords }) ∧
    ∀ k, t.core k = { s.core k with tileErr := (t.core k).tileErr, l1Err := (t.core k).l1Err }

end Sys2Proof.Claims

open Claims in
/-- R1, R45 to R47, R61, R168, R346, R347: a step that takes up a warp whose run is open reads the words at its pc, four bytes each,
the first byte lowest; where they decode to an instruction it executes exactly that instruction for that warp, once no fixed
latency and no port keeps it from issuing, a longer wait than 2 clocks ending the run; where fetch or decode traps, the warp
takes that trap, or the late trap that is due there. A step that takes up an event executes the event. An instruction that the
agenda asks for in the clock of the one before shares that clock where it may (the model's agenda, notes/assumptions/4), and
time that passes moves the clock and TIMER together (notes/assumptions/39). A storage error that the agenda brings about (the
model's choice, notes/assumptions/36) changes only the stored form that it meets. -/
def Obligations.StepRunsDecoded : Prop :=
  (∀ (s : State) (x : Act) (xs : List Act), s.agenda = x :: xs → s.takeAct = (x, { s with agenda := xs })) ∧
  (∀ (s s1 : State) (i : Instr), s.takeAct = (.event i, s1) → step s = settled (exec i s1)) ∧
  (∀ (s s1 : State) (clk ns : Nat), s.takeAct = (.elapse clk ns, s1) → step s = settled (.next (s1.elapse clk ns))) ∧
  (∀ (s : State) (clk ns : Nat), (∀ d, s.slewWork d = false) →
    s.elapse clk ns = { s with clock := s.clock + clk, timer := s.timer + ns, joint := none }) ∧
  stepOfWarp ∧
  (∀ (s s1 : State) (u : Upset) (unc : Bool), s.takeAct = (.upset u unc, s1) → step s = settled (.next (s1.upset u unc))) ∧
  upsetKeeps ∧
  (∀ (s s1 s2 s3 s4 : State) (w : Nat) (p : Word) (b0 b1 b2 b3 : Byte), s.fetchByte w p p = (s1, .ok b0) →
    s1.fetchByte w p (p + 1) = (s2, .ok b1) → s2.fetchByte w p (p + 2) = (s3, .ok b2) → s3.fetchByte w p (p + 3) = (s4, .ok b3) →
    s.fetchWord w p = (s4, .ok (b3 ++ b2 ++ b1 ++ b0)))

/-- R12, R307, R315, R318: at reset every die is held in reset, TIMER and every measurement register are zero, no context,
block or warp is resident, memory lists nothing and is in its canonical form, and the first step is the boot. By the model's
choice INJ, BANK_ERR_STATUS and FENCE of every channel are zero (notes/assumptions/1), an unlisted byte reads as it does
(notes/assumptions/2), and an empty agenda begins with the boot (notes/assumptions/4). -/
def Obligations.ResetState : Prop :=
  (∀ d, (State.reset.die d).st = .reset) ∧ State.reset.timer = 0 ∧ (∀ n, State.reset.island.mr n = 0) ∧
  State.reset.ctxs = [] ∧ State.reset.blocks = [] ∧ State.reset.warps = [] ∧ State.reset.pend = [] ∧
  State.reset.mem.bytes = [] ∧ State.reset.mem.wf = true ∧ (∀ k b, ((State.reset.core k).band b).st = .off) ∧
  (∀ c, (State.reset.chan c).fence = 0 ∧ (State.reset.chan c).bes = 0 ∧ (State.reset.chan c).inj = 0) ∧
  State.reset.island.boot = .cold ∧ step State.reset = settled (exec (.powerOn State.reset.island.fw) State.reset)

namespace Sys2Proof.Claims

/-- What every step keeps: memory's canonical form, and measurement registers 4 to 7 at zero (R318). -/
def Steady (s : State) : Prop := s.mem.wf = true ∧ ∀ n, 4 ≤ n → n ≤ 7 → s.island.mr n = 0

end Sys2Proof.Claims

/-- R314, R318: every step of the device, from any state, gives a next state; it keeps memory in its canonical form and MR_4 to
MR_7 at zero, and TIMER never goes back. -/
def Obligations.StepKeeps : Prop :=
  ∀ s : State, (∃ t, step s = .next t) ∧
    ∀ t, step s = .next t → (Claims.Steady s → Claims.Steady t) ∧ s.timer ≤ t.timer
end

