-- ==== Sys2Proof/Laws/Map.lean ====
section
/-! SUPPORT. Laws of the finite maps: read after write, reads elsewhere, and the canonical form. -/

namespace Sys2Proof.Machine

variable {α : Type}

@[simp] theorem mget_mins_self (d : α) (m : SMap α) (k : Nat) (x : α) : mget d (mins m k x) k = x := by
  induction m with
  | nil => simp [mins, mget]
  | cons e m ih =>
    obtain ⟨k', y⟩ := e
    simp only [mins]
    split
    · simp [mget]
    · split
      · simp [mget]
      · simp [mget, *]

theorem mget_mins_ne (d : α) (m : SMap α) {k k' : Nat} (x : α) (h : k' ≠ k) : mget d (mins m k x) k' = mget d m k' := by
  induction m with
  | nil => simp [mins, mget, h]
  | cons e m ih =>
    obtain ⟨j, y⟩ := e
    simp only [mins]
    split
    · simp [mget, h]
    · split
      · subst_vars; simp [mget, h]
      · simp [mget, ih]

@[simp] theorem mfind_mins_self (m : SMap α) (k : Nat) (x : α) : mfind (mins m k x) k = some x := by
  induction m with
  | nil => simp [mins, mfind]
  | cons e m ih =>
    obtain ⟨k', y⟩ := e
    simp only [mins]
    split
    · simp [mfind]
    · split
      · simp [mfind]
      · simp [mfind, *]

theorem mfind_mins_ne (m : SMap α) {k k' : Nat} (x : α) (h : k' ≠ k) : mfind (mins m k x) k' = mfind m k' := by
  induction m with
  | nil => simp [mins, mfind, h]
  | cons e m ih =>
    obtain ⟨j, y⟩ := e
    simp only [mins]
    split
    · simp [mfind, h]
    · split
      · subst_vars; simp [mfind, h]
      · simp [mfind, ih]

theorem mget_eq_mfind (d : α) (m : SMap α) (k : Nat) : mget d m k = (mfind m k).getD d := by
  induction m with
  | nil => rfl
  | cons e m ih =>
    obtain ⟨j, y⟩ := e
    simp only [mget, mfind]
    split <;> simp [ih]

@[simp] theorem mfind_mdel_self (m : SMap α) (k : Nat) : mfind (mdel m k) k = none := by
  induction m with
  | nil => rfl
  | cons e m ih =>
    obtain ⟨j, y⟩ := e
    by_cases h : j = k
    · simpa [mdel, h] using ih
    · simp only [mdel] at ih
      simp [mdel, h, mfind, ih, Ne.symm h]

theorem mfind_mdel_ne (m : SMap α) {k k' : Nat} (h : k' ≠ k) : mfind (mdel m k) k' = mfind m k' := by
  induction m with
  | nil => rfl
  | cons e m ih =>
    obtain ⟨j, y⟩ := e
    simp only [mdel] at ih
    by_cases hj : j = k
    · simp [mdel, hj, mfind, ih, h]
    · simp [mdel, hj, mfind, ih]

@[simp] theorem mget_mdel_self (d : α) (m : SMap α) (k : Nat) : mget d (mdel m k) k = d := by
  simp [mget_eq_mfind]

theorem mget_mdel_ne (d : α) (m : SMap α) {k k' : Nat} (h : k' ≠ k) : mget d (mdel m k) k' = mget d m k' := by
  simp [mget_eq_mfind, mfind_mdel_ne m h]

@[simp] theorem mget_mset_self [DecidableEq α] (d : α) (m : SMap α) (k : Nat) (x : α) : mget d (mset d m k x) k = x := by
  unfold mset
  split <;> simp [*]

theorem mget_mset_ne [DecidableEq α] (d : α) (m : SMap α) {k k' : Nat} (x : α) (h : k' ≠ k) :
    mget d (mset d m k x) k' = mget d m k' := by
  unfold mset
  split
  · exact mget_mdel_ne d m h
  · exact mget_mins_ne d m x h

/-- Read after write, at any key. -/
theorem mget_mset [DecidableEq α] (d : α) (m : SMap α) (k k' : Nat) (x : α) :
    mget d (mset d m k x) k' = if k' = k then x else mget d m k' := by
  split
  · simp [*]
  · exact mget_mset_ne d m x ‹_›

theorem mget_mins (d : α) (m : SMap α) (k k' : Nat) (x : α) :
    mget d (mins m k x) k' = if k' = k then x else mget d m k' := by
  split
  · simp [*]
  · exact mget_mins_ne d m x ‹_›

/-- A change at a listed key. -/
theorem mget_mmod (d : α) (m : SMap α) (k k' : Nat) (f : α → α) (h : (mfind m k).isSome) :
    mget d (mmod m k f) k' = if k' = k then f (mget d m k) else mget d m k' := by
  unfold mmod
  cases hf : mfind m k with
  | none => simp [hf] at h
  | some x => simp [mget_mins, mget_eq_mfind d m k, hf]

theorem mget_mmod_ne (d : α) (m : SMap α) {k k' : Nat} (f : α → α) (h : k' ≠ k) :
    mget d (mmod m k f) k' = mget d m k' := by
  unfold mmod
  split
  · rfl
  · exact mget_mins_ne d m _ h

/-- Which keys are listed does not change. -/
@[simp] theorem mfind_mmod_isSome (m : SMap α) (k k' : Nat) (f : α → α) :
    (mfind (mmod m k f) k').isSome = (mfind m k').isSome := by
  unfold mmod
  cases hf : mfind m k with
  | none => rfl
  | some x =>
    by_cases h : k' = k
    · subst h; simp [hf]
    · rw [mfind_mins_ne _ _ h]

theorem mfind_mmod (m : SMap α) (k k' : Nat) (f : α → α) :
    mfind (mmod m k f) k' = if k' = k then (mfind m k).map f else mfind m k' := by
  by_cases h : k' = k
  · subst h
    unfold mmod
    cases hf : mfind m k' <;> simp [hf]
  · unfold mmod
    cases hf : mfind m k <;> simp [h, mfind_mins_ne]

/-! ## The canonical form -/

theorem mem_mins {m : SMap α} {k : Nat} {x : α} {e : Nat × α} (h : e ∈ mins m k x) : e = (k, x) ∨ e ∈ m := by
  induction m with
  | nil => simpa [mins] using h
  | cons j m ih =>
    obtain ⟨k', y⟩ := j
    simp only [mins] at h
    split at h
    · simpa using h
    · split at h
      · rcases List.mem_cons.1 h with h | h
        · exact .inl h
        · exact .inr (List.mem_cons_of_mem _ h)
      · rcases List.mem_cons.1 h with h | h
        · exact .inr (h ▸ List.mem_cons_self ..)
        · exact (ih h).imp id (List.mem_cons_of_mem _)

theorem msorted_mins {m : SMap α} (k : Nat) (x : α) (h : msorted m = true) : msorted (mins m k x) = true := by
  induction m with
  | nil => simp [mins, msorted]
  | cons j m ih =>
    obtain ⟨k', y⟩ := j
    simp only [msorted, Bool.and_eq_true, List.all_eq_true, decide_eq_true_eq] at h
    simp only [mins]
    split
    · simp only [msorted, Bool.and_eq_true, List.all_eq_true, decide_eq_true_eq, List.mem_cons]
      refine ⟨?_, h⟩
      rintro e (rfl | he)
      · assumption
      · exact Nat.lt_trans ‹_› (h.1 e he)
    · split
      · subst_vars
        simpa [msorted] using h
      · simp only [msorted, Bool.and_eq_true, List.all_eq_true, decide_eq_true_eq]
        refine ⟨fun e he => ?_, ih h.2⟩
        rcases mem_mins he with rfl | he
        · simp only; omega
        · exact h.1 e he

theorem msorted_filter {m : SMap α} (p : Nat × α → Bool) (h : msorted m = true) : msorted (m.filter p) = true := by
  induction m with
  | nil => simpa
  | cons j m ih =>
    obtain ⟨k', y⟩ := j
    simp only [msorted, Bool.and_eq_true, List.all_eq_true, decide_eq_true_eq] at h
    simp only [List.filter_cons]
    split
    · simp only [msorted, Bool.and_eq_true, List.all_eq_true, decide_eq_true_eq]
      exact ⟨fun e he => h.1 e (List.mem_filter.1 he).1, ih h.2⟩
    · exact ih h.2

theorem mwf_filter [DecidableEq α] {d : α} {m : SMap α} (p : Nat × α → Bool) (h : mwf d m = true) :
    mwf d (m.filter p) = true := by
  simp only [mwf, Bool.and_eq_true, List.all_eq_true] at h ⊢
  exact ⟨msorted_filter p h.1, fun e he => h.2 e (List.mem_filter.1 he).1⟩

/-- A write keeps the canonical form. -/
theorem mwf_mset [DecidableEq α] {d : α} {m : SMap α} (k : Nat) (x : α) (h : mwf d m = true) :
    mwf d (mset d m k x) = true := by
  unfold mset
  split
  · exact mwf_filter _ h
  · simp only [mwf, Bool.and_eq_true, List.all_eq_true] at h ⊢
    refine ⟨msorted_mins k x h.1, fun e he => ?_⟩
    rcases mem_mins he with rfl | he
    · simpa
    · exact h.2 e he

theorem mwf_mdelRange [DecidableEq α] {d : α} {m : SMap α} (lo hi : Nat) (h : mwf d m = true) :
    mwf d (mdelRange m lo hi) = true := mwf_filter _ h

end Sys2Proof.Machine
end

