-- ==== Sys2Proof/Laws/State.lean ====
section
/-! SUPPORT. What each update of the state leaves as it was: one lemma per field per update, and what reading back gives. -/

namespace Sys2Proof.Machine

/-! ## `modWarp` -/

@[simp] theorem State.modWarp_agenda (s : State) (w : Nat) (f : Warp → Warp) : (s.modWarp w f).agenda = s.agenda := rfl
@[simp] theorem State.modWarp_turn (s : State) (w : Nat) (f : Warp → Warp) : (s.modWarp w f).turn = s.turn := rfl
@[simp] theorem State.modWarp_cur (s : State) (w : Nat) (f : Warp → Warp) : (s.modWarp w f).cur = s.cur := rfl
@[simp] theorem State.modWarp_clock (s : State) (w : Nat) (f : Warp → Warp) : (s.modWarp w f).clock = s.clock := rfl
@[simp] theorem State.modWarp_timer (s : State) (w : Nat) (f : Warp → Warp) : (s.modWarp w f).timer = s.timer := rfl
@[simp] theorem State.modWarp_nextId (s : State) (w : Nat) (f : Warp → Warp) : (s.modWarp w f).nextId = s.nextId := rfl
@[simp] theorem State.modWarp_free (s : State) (w : Nat) (f : Warp → Warp) : (s.modWarp w f).free = s.free := rfl
@[simp] theorem State.modWarp_mem (s : State) (w : Nat) (f : Warp → Warp) : (s.modWarp w f).mem = s.mem := rfl
@[simp] theorem State.modWarp_ctxs (s : State) (w : Nat) (f : Warp → Warp) : (s.modWarp w f).ctxs = s.ctxs := rfl
@[simp] theorem State.modWarp_blocks (s : State) (w : Nat) (f : Warp → Warp) : (s.modWarp w f).blocks = s.blocks := rfl
@[simp] theorem State.modWarp_cores (s : State) (w : Nat) (f : Warp → Warp) : (s.modWarp w f).cores = s.cores := rfl
@[simp] theorem State.modWarp_dies (s : State) (w : Nat) (f : Warp → Warp) : (s.modWarp w f).dies = s.dies := rfl
@[simp] theorem State.modWarp_links (s : State) (w : Nat) (f : Warp → Warp) : (s.modWarp w f).links = s.links := rfl
@[simp] theorem State.modWarp_ports (s : State) (w : Nat) (f : Warp → Warp) : (s.modWarp w f).ports = s.ports := rfl
@[simp] theorem State.modWarp_chans (s : State) (w : Nat) (f : Warp → Warp) : (s.modWarp w f).chans = s.chans := rfl
@[simp] theorem State.modWarp_jigs (s : State) (w : Nat) (f : Warp → Warp) : (s.modWarp w f).jigs = s.jigs := rfl
@[simp] theorem State.modWarp_regions (s : State) (w : Nat) (f : Warp → Warp) : (s.modWarp w f).regions = s.regions := rfl
@[simp] theorem State.modWarp_held (s : State) (w : Nat) (f : Warp → Warp) : (s.modWarp w f).held = s.held := rfl
@[simp] theorem State.modWarp_pend (s : State) (w : Nat) (f : Warp → Warp) : (s.modWarp w f).pend = s.pend := rfl
@[simp] theorem State.modWarp_far (s : State) (w : Nat) (f : Warp → Warp) : (s.modWarp w f).far = s.far := rfl
@[simp] theorem State.modWarp_hostQs (s : State) (w : Nat) (f : Warp → Warp) : (s.modWarp w f).hostQs = s.hostQs := rfl
@[simp] theorem State.modWarp_bound (s : State) (w : Nat) (f : Warp → Warp) : (s.modWarp w f).bound = s.bound := rfl
@[simp] theorem State.modWarp_saves (s : State) (w : Nat) (f : Warp → Warp) : (s.modWarp w f).saves = s.saves := rfl
@[simp] theorem State.modWarp_sysFj (s : State) (w : Nat) (f : Warp → Warp) : (s.modWarp w f).sysFj = s.sysFj := rfl
@[simp] theorem State.modWarp_budgetAt (s : State) (w : Nat) (f : Warp → Warp) : (s.modWarp w f).budgetAt = s.budgetAt := rfl
@[simp] theorem State.modWarp_energyAt (s : State) (w : Nat) (f : Warp → Warp) : (s.modWarp w f).energyAt = s.energyAt := rfl
@[simp] theorem State.modWarp_island (s : State) (w : Nat) (f : Warp → Warp) : (s.modWarp w f).island = s.island := rfl
@[simp] theorem State.modWarp_remapped (s : State) (w : Nat) (f : Warp → Warp) : (s.modWarp w f).remapped = s.remapped := rfl
@[simp] theorem State.modWarp_joint (s : State) (w : Nat) (f : Warp → Warp) : (s.modWarp w f).joint = s.joint := rfl
@[simp] theorem State.modWarp_dones (s : State) (w : Nat) (f : Warp → Warp) : (s.modWarp w f).dones = s.dones := rfl
@[simp] theorem State.modWarp_badSpares (s : State) (w : Nat) (f : Warp → Warp) : (s.modWarp w f).badSpares = s.badSpares := rfl

@[simp] theorem State.modWarp_blk (s : State) (w : Nat) (f : Warp → Warp) (j : Nat) : (s.modWarp w f).blk j = s.blk j := rfl
@[simp] theorem State.modWarp_ctx (s : State) (w : Nat) (f : Warp → Warp) (j : Nat) : (s.modWarp w f).ctx j = s.ctx j := rfl
@[simp] theorem State.modWarp_core (s : State) (w : Nat) (f : Warp → Warp) (j : Nat) : (s.modWarp w f).core j = s.core j := rfl
@[simp] theorem State.modWarp_die (s : State) (w : Nat) (f : Warp → Warp) (j : Nat) : (s.modWarp w f).die j = s.die j := rfl
@[simp] theorem State.modWarp_chan (s : State) (w : Nat) (f : Warp → Warp) (j : Nat) : (s.modWarp w f).chan j = s.chan j := rfl

/-! ## `modBlk` -/

@[simp] theorem State.modBlk_agenda (s : State) (b : Nat) (f : Block → Block) : (s.modBlk b f).agenda = s.agenda := rfl
@[simp] theorem State.modBlk_turn (s : State) (b : Nat) (f : Block → Block) : (s.modBlk b f).turn = s.turn := rfl
@[simp] theorem State.modBlk_cur (s : State) (b : Nat) (f : Block → Block) : (s.modBlk b f).cur = s.cur := rfl
@[simp] theorem State.modBlk_clock (s : State) (b : Nat) (f : Block → Block) : (s.modBlk b f).clock = s.clock := rfl
@[simp] theorem State.modBlk_timer (s : State) (b : Nat) (f : Block → Block) : (s.modBlk b f).timer = s.timer := rfl
@[simp] theorem State.modBlk_nextId (s : State) (b : Nat) (f : Block → Block) : (s.modBlk b f).nextId = s.nextId := rfl
@[simp] theorem State.modBlk_free (s : State) (b : Nat) (f : Block → Block) : (s.modBlk b f).free = s.free := rfl
@[simp] theorem State.modBlk_mem (s : State) (b : Nat) (f : Block → Block) : (s.modBlk b f).mem = s.mem := rfl
@[simp] theorem State.modBlk_ctxs (s : State) (b : Nat) (f : Block → Block) : (s.modBlk b f).ctxs = s.ctxs := rfl
@[simp] theorem State.modBlk_warps (s : State) (b : Nat) (f : Block → Block) : (s.modBlk b f).warps = s.warps := rfl
@[simp] theorem State.modBlk_cores (s : State) (b : Nat) (f : Block → Block) : (s.modBlk b f).cores = s.cores := rfl
@[simp] theorem State.modBlk_dies (s : State) (b : Nat) (f : Block → Block) : (s.modBlk b f).dies = s.dies := rfl
@[simp] theorem State.modBlk_links (s : State) (b : Nat) (f : Block → Block) : (s.modBlk b f).links = s.links := rfl
@[simp] theorem State.modBlk_ports (s : State) (b : Nat) (f : Block → Block) : (s.modBlk b f).ports = s.ports := rfl
@[simp] theorem State.modBlk_chans (s : State) (b : Nat) (f : Block → Block) : (s.modBlk b f).chans = s.chans := rfl
@[simp] theorem State.modBlk_jigs (s : State) (b : Nat) (f : Block → Block) : (s.modBlk b f).jigs = s.jigs := rfl
@[simp] theorem State.modBlk_regions (s : State) (b : Nat) (f : Block → Block) : (s.modBlk b f).regions = s.regions := rfl
@[simp] theorem State.modBlk_held (s : State) (b : Nat) (f : Block → Block) : (s.modBlk b f).held = s.held := rfl
@[simp] theorem State.modBlk_pend (s : State) (b : Nat) (f : Block → Block) : (s.modBlk b f).pend = s.pend := rfl
@[simp] theorem State.modBlk_far (s : State) (b : Nat) (f : Block → Block) : (s.modBlk b f).far = s.far := rfl
@[simp] theorem State.modBlk_hostQs (s : State) (b : Nat) (f : Block → Block) : (s.modBlk b f).hostQs = s.hostQs := rfl
@[simp] theorem State.modBlk_bound (s : State) (b : Nat) (f : Block → Block) : (s.modBlk b f).bound = s.bound := rfl
@[simp] theorem State.modBlk_saves (s : State) (b : Nat) (f : Block → Block) : (s.modBlk b f).saves = s.saves := rfl
@[simp] theorem State.modBlk_sysFj (s : State) (b : Nat) (f : Block → Block) : (s.modBlk b f).sysFj = s.sysFj := rfl
@[simp] theorem State.modBlk_budgetAt (s : State) (b : Nat) (f : Block → Block) : (s.modBlk b f).budgetAt = s.budgetAt := rfl
@[simp] theorem State.modBlk_energyAt (s : State) (b : Nat) (f : Block → Block) : (s.modBlk b f).energyAt = s.energyAt := rfl
@[simp] theorem State.modBlk_island (s : State) (b : Nat) (f : Block → Block) : (s.modBlk b f).island = s.island := rfl
@[simp] theorem State.modBlk_remapped (s : State) (b : Nat) (f : Block → Block) : (s.modBlk b f).remapped = s.remapped := rfl
@[simp] theorem State.modBlk_joint (s : State) (b : Nat) (f : Block → Block) : (s.modBlk b f).joint = s.joint := rfl
@[simp] theorem State.modBlk_dones (s : State) (b : Nat) (f : Block → Block) : (s.modBlk b f).dones = s.dones := rfl
@[simp] theorem State.modBlk_badSpares (s : State) (b : Nat) (f : Block → Block) : (s.modBlk b f).badSpares = s.badSpares := rfl

@[simp] theorem State.modBlk_warp (s : State) (b : Nat) (f : Block → Block) (j : Nat) : (s.modBlk b f).warp j = s.warp j := rfl
@[simp] theorem State.modBlk_ctx (s : State) (b : Nat) (f : Block → Block) (j : Nat) : (s.modBlk b f).ctx j = s.ctx j := rfl
@[simp] theorem State.modBlk_core (s : State) (b : Nat) (f : Block → Block) (j : Nat) : (s.modBlk b f).core j = s.core j := rfl
@[simp] theorem State.modBlk_die (s : State) (b : Nat) (f : Block → Block) (j : Nat) : (s.modBlk b f).die j = s.die j := rfl
@[simp] theorem State.modBlk_chan (s : State) (b : Nat) (f : Block → Block) (j : Nat) : (s.modBlk b f).chan j = s.chan j := rfl

/-! ## `modCtx` -/

@[simp] theorem State.modCtx_agenda (s : State) (c : Nat) (f : Ctx → Ctx) : (s.modCtx c f).agenda = s.agenda := rfl
@[simp] theorem State.modCtx_turn (s : State) (c : Nat) (f : Ctx → Ctx) : (s.modCtx c f).turn = s.turn := rfl
@[simp] theorem State.modCtx_cur (s : State) (c : Nat) (f : Ctx → Ctx) : (s.modCtx c f).cur = s.cur := rfl
@[simp] theorem State.modCtx_clock (s : State) (c : Nat) (f : Ctx → Ctx) : (s.modCtx c f).clock = s.clock := rfl
@[simp] theorem State.modCtx_timer (s : State) (c : Nat) (f : Ctx → Ctx) : (s.modCtx c f).timer = s.timer := rfl
@[simp] theorem State.modCtx_nextId (s : State) (c : Nat) (f : Ctx → Ctx) : (s.modCtx c f).nextId = s.nextId := rfl
@[simp] theorem State.modCtx_free (s : State) (c : Nat) (f : Ctx → Ctx) : (s.modCtx c f).free = s.free := rfl
@[simp] theorem State.modCtx_mem (s : State) (c : Nat) (f : Ctx → Ctx) : (s.modCtx c f).mem = s.mem := rfl
@[simp] theorem State.modCtx_blocks (s : State) (c : Nat) (f : Ctx → Ctx) : (s.modCtx c f).blocks = s.blocks := rfl
@[simp] theorem State.modCtx_warps (s : State) (c : Nat) (f : Ctx → Ctx) : (s.modCtx c f).warps = s.warps := rfl
@[simp] theorem State.modCtx_cores (s : State) (c : Nat) (f : Ctx → Ctx) : (s.modCtx c f).cores = s.cores := rfl
@[simp] theorem State.modCtx_dies (s : State) (c : Nat) (f : Ctx → Ctx) : (s.modCtx c f).dies = s.dies := rfl
@[simp] theorem State.modCtx_links (s : State) (c : Nat) (f : Ctx → Ctx) : (s.modCtx c f).links = s.links := rfl
@[simp] theorem State.modCtx_ports (s : State) (c : Nat) (f : Ctx → Ctx) : (s.modCtx c f).ports = s.ports := rfl
@[simp] theorem State.modCtx_chans (s : State) (c : Nat) (f : Ctx → Ctx) : (s.modCtx c f).chans = s.chans := rfl
@[simp] theorem State.modCtx_jigs (s : State) (c : Nat) (f : Ctx → Ctx) : (s.modCtx c f).jigs = s.jigs := rfl
@[simp] theorem State.modCtx_regions (s : State) (c : Nat) (f : Ctx → Ctx) : (s.modCtx c f).regions = s.regions := rfl
@[simp] theorem State.modCtx_held (s : State) (c : Nat) (f : Ctx → Ctx) : (s.modCtx c f).held = s.held := rfl
@[simp] theorem State.modCtx_pend (s : State) (c : Nat) (f : Ctx → Ctx) : (s.modCtx c f).pend = s.pend := rfl
@[simp] theorem State.modCtx_far (s : State) (c : Nat) (f : Ctx → Ctx) : (s.modCtx c f).far = s.far := rfl
@[simp] theorem State.modCtx_hostQs (s : State) (c : Nat) (f : Ctx → Ctx) : (s.modCtx c f).hostQs = s.hostQs := rfl
@[simp] theorem State.modCtx_bound (s : State) (c : Nat) (f : Ctx → Ctx) : (s.modCtx c f).bound = s.bound := rfl
@[simp] theorem State.modCtx_saves (s : State) (c : Nat) (f : Ctx → Ctx) : (s.modCtx c f).saves = s.saves := rfl
@[simp] theorem State.modCtx_sysFj (s : State) (c : Nat) (f : Ctx → Ctx) : (s.modCtx c f).sysFj = s.sysFj := rfl
@[simp] theorem State.modCtx_budgetAt (s : State) (c : Nat) (f : Ctx → Ctx) : (s.modCtx c f).budgetAt = s.budgetAt := rfl
@[simp] theorem State.modCtx_energyAt (s : State) (c : Nat) (f : Ctx → Ctx) : (s.modCtx c f).energyAt = s.energyAt := rfl
@[simp] theorem State.modCtx_island (s : State) (c : Nat) (f : Ctx → Ctx) : (s.modCtx c f).island = s.island := rfl
@[simp] theorem State.modCtx_remapped (s : State) (c : Nat) (f : Ctx → Ctx) : (s.modCtx c f).remapped = s.remapped := rfl
@[simp] theorem State.modCtx_joint (s : State) (c : Nat) (f : Ctx → Ctx) : (s.modCtx c f).joint = s.joint := rfl
@[simp] theorem State.modCtx_dones (s : State) (c : Nat) (f : Ctx → Ctx) : (s.modCtx c f).dones = s.dones := rfl
@[simp] theorem State.modCtx_badSpares (s : State) (c : Nat) (f : Ctx → Ctx) : (s.modCtx c f).badSpares = s.badSpares := rfl

@[simp] theorem State.modCtx_warp (s : State) (c : Nat) (f : Ctx → Ctx) (j : Nat) : (s.modCtx c f).warp j = s.warp j := rfl
@[simp] theorem State.modCtx_blk (s : State) (c : Nat) (f : Ctx → Ctx) (j : Nat) : (s.modCtx c f).blk j = s.blk j := rfl
@[simp] theorem State.modCtx_core (s : State) (c : Nat) (f : Ctx → Ctx) (j : Nat) : (s.modCtx c f).core j = s.core j := rfl
@[simp] theorem State.modCtx_die (s : State) (c : Nat) (f : Ctx → Ctx) (j : Nat) : (s.modCtx c f).die j = s.die j := rfl
@[simp] theorem State.modCtx_chan (s : State) (c : Nat) (f : Ctx → Ctx) (j : Nat) : (s.modCtx c f).chan j = s.chan j := rfl

/-! ## `modCore` -/

@[simp] theorem State.modCore_agenda (s : State) (k : Nat) (f : Core → Core) : (s.modCore k f).agenda = s.agenda := rfl
@[simp] theorem State.modCore_turn (s : State) (k : Nat) (f : Core → Core) : (s.modCore k f).turn = s.turn := rfl
@[simp] theorem State.modCore_cur (s : State) (k : Nat) (f : Core → Core) : (s.modCore k f).cur = s.cur := rfl
@[simp] theorem State.modCore_clock (s : State) (k : Nat) (f : Core → Core) : (s.modCore k f).clock = s.clock := rfl
@[simp] theorem State.modCore_timer (s : State) (k : Nat) (f : Core → Core) : (s.modCore k f).timer = s.timer := rfl
@[simp] theorem State.modCore_nextId (s : State) (k : Nat) (f : Core → Core) : (s.modCore k f).nextId = s.nextId := rfl
@[simp] theorem State.modCore_free (s : State) (k : Nat) (f : Core → Core) : (s.modCore k f).free = s.free := rfl
@[simp] theorem State.modCore_mem (s : State) (k : Nat) (f : Core → Core) : (s.modCore k f).mem = s.mem := rfl
@[simp] theorem State.modCore_ctxs (s : State) (k : Nat) (f : Core → Core) : (s.modCore k f).ctxs = s.ctxs := rfl
@[simp] theorem State.modCore_blocks (s : State) (k : Nat) (f : Core → Core) : (s.modCore k f).blocks = s.blocks := rfl
@[simp] theorem State.modCore_warps (s : State) (k : Nat) (f : Core → Core) : (s.modCore k f).warps = s.warps := rfl
@[simp] theorem State.modCore_dies (s : State) (k : Nat) (f : Core → Core) : (s.modCore k f).dies = s.dies := rfl
@[simp] theorem State.modCore_links (s : State) (k : Nat) (f : Core → Core) : (s.modCore k f).links = s.links := rfl
@[simp] theorem State.modCore_ports (s : State) (k : Nat) (f : Core → Core) : (s.modCore k f).ports = s.ports := rfl
@[simp] theorem State.modCore_chans (s : State) (k : Nat) (f : Core → Core) : (s.modCore k f).chans = s.chans := rfl
@[simp] theorem State.modCore_jigs (s : State) (k : Nat) (f : Core → Core) : (s.modCore k f).jigs = s.jigs := rfl
@[simp] theorem State.modCore_regions (s : State) (k : Nat) (f : Core → Core) : (s.modCore k f).regions = s.regions := rfl
@[simp] theorem State.modCore_held (s : State) (k : Nat) (f : Core → Core) : (s.modCore k f).held = s.held := rfl
@[simp] theorem State.modCore_pend (s : State) (k : Nat) (f : Core → Core) : (s.modCore k f).pend = s.pend := rfl
@[simp] theorem State.modCore_far (s : State) (k : Nat) (f : Core → Core) : (s.modCore k f).far = s.far := rfl
@[simp] theorem State.modCore_hostQs (s : State) (k : Nat) (f : Core → Core) : (s.modCore k f).hostQs = s.hostQs := rfl
@[simp] theorem State.modCore_bound (s : State) (k : Nat) (f : Core → Core) : (s.modCore k f).bound = s.bound := rfl
@[simp] theorem State.modCore_saves (s : State) (k : Nat) (f : Core → Core) : (s.modCore k f).saves = s.saves := rfl
@[simp] theorem State.modCore_sysFj (s : State) (k : Nat) (f : Core → Core) : (s.modCore k f).sysFj = s.sysFj := rfl
@[simp] theorem State.modCore_budgetAt (s : State) (k : Nat) (f : Core → Core) : (s.modCore k f).budgetAt = s.budgetAt := rfl
@[simp] theorem State.modCore_energyAt (s : State) (k : Nat) (f : Core → Core) : (s.modCore k f).energyAt = s.energyAt := rfl
@[simp] theorem State.modCore_island (s : State) (k : Nat) (f : Core → Core) : (s.modCore k f).island = s.island := rfl
@[simp] theorem State.modCore_remapped (s : State) (k : Nat) (f : Core → Core) : (s.modCore k f).remapped = s.remapped := rfl
@[simp] theorem State.modCore_joint (s : State) (k : Nat) (f : Core → Core) : (s.modCore k f).joint = s.joint := rfl
@[simp] theorem State.modCore_dones (s : State) (k : Nat) (f : Core → Core) : (s.modCore k f).dones = s.dones := rfl
@[simp] theorem State.modCore_badSpares (s : State) (k : Nat) (f : Core → Core) : (s.modCore k f).badSpares = s.badSpares := rfl

@[simp] theorem State.modCore_warp (s : State) (k : Nat) (f : Core → Core) (j : Nat) : (s.modCore k f).warp j = s.warp j := rfl
@[simp] theorem State.modCore_blk (s : State) (k : Nat) (f : Core → Core) (j : Nat) : (s.modCore k f).blk j = s.blk j := rfl
@[simp] theorem State.modCore_ctx (s : State) (k : Nat) (f : Core → Core) (j : Nat) : (s.modCore k f).ctx j = s.ctx j := rfl
@[simp] theorem State.modCore_die (s : State) (k : Nat) (f : Core → Core) (j : Nat) : (s.modCore k f).die j = s.die j := rfl
@[simp] theorem State.modCore_chan (s : State) (k : Nat) (f : Core → Core) (j : Nat) : (s.modCore k f).chan j = s.chan j := rfl

/-! ## `modDie` -/

@[simp] theorem State.modDie_agenda (s : State) (d : Nat) (f : Die → Die) : (s.modDie d f).agenda = s.agenda := rfl
@[simp] theorem State.modDie_turn (s : State) (d : Nat) (f : Die → Die) : (s.modDie d f).turn = s.turn := rfl
@[simp] theorem State.modDie_cur (s : State) (d : Nat) (f : Die → Die) : (s.modDie d f).cur = s.cur := rfl
@[simp] theorem State.modDie_clock (s : State) (d : Nat) (f : Die → Die) : (s.modDie d f).clock = s.clock := rfl
@[simp] theorem State.modDie_timer (s : State) (d : Nat) (f : Die → Die) : (s.modDie d f).timer = s.timer := rfl
@[simp] theorem State.modDie_nextId (s : State) (d : Nat) (f : Die → Die) : (s.modDie d f).nextId = s.nextId := rfl
@[simp] theorem State.modDie_free (s : State) (d : Nat) (f : Die → Die) : (s.modDie d f).free = s.free := rfl
@[simp] theorem State.modDie_mem (s : State) (d : Nat) (f : Die → Die) : (s.modDie d f).mem = s.mem := rfl
@[simp] theorem State.modDie_ctxs (s : State) (d : Nat) (f : Die → Die) : (s.modDie d f).ctxs = s.ctxs := rfl
@[simp] theorem State.modDie_blocks (s : State) (d : Nat) (f : Die → Die) : (s.modDie d f).blocks = s.blocks := rfl
@[simp] theorem State.modDie_warps (s : State) (d : Nat) (f : Die → Die) : (s.modDie d f).warps = s.warps := rfl
@[simp] theorem State.modDie_cores (s : State) (d : Nat) (f : Die → Die) : (s.modDie d f).cores = s.cores := rfl
@[simp] theorem State.modDie_links (s : State) (d : Nat) (f : Die → Die) : (s.modDie d f).links = s.links := rfl
@[simp] theorem State.modDie_ports (s : State) (d : Nat) (f : Die → Die) : (s.modDie d f).ports = s.ports := rfl
@[simp] theorem State.modDie_chans (s : State) (d : Nat) (f : Die → Die) : (s.modDie d f).chans = s.chans := rfl
@[simp] theorem State.modDie_jigs (s : State) (d : Nat) (f : Die → Die) : (s.modDie d f).jigs = s.jigs := rfl
@[simp] theorem State.modDie_regions (s : State) (d : Nat) (f : Die → Die) : (s.modDie d f).regions = s.regions := rfl
@[simp] theorem State.modDie_held (s : State) (d : Nat) (f : Die → Die) : (s.modDie d f).held = s.held := rfl
@[simp] theorem State.modDie_pend (s : State) (d : Nat) (f : Die → Die) : (s.modDie d f).pend = s.pend := rfl
@[simp] theorem State.modDie_far (s : State) (d : Nat) (f : Die → Die) : (s.modDie d f).far = s.far := rfl
@[simp] theorem State.modDie_hostQs (s : State) (d : Nat) (f : Die → Die) : (s.modDie d f).hostQs = s.hostQs := rfl
@[simp] theorem State.modDie_bound (s : State) (d : Nat) (f : Die → Die) : (s.modDie d f).bound = s.bound := rfl
@[simp] theorem State.modDie_saves (s : State) (d : Nat) (f : Die → Die) : (s.modDie d f).saves = s.saves := rfl
@[simp] theorem State.modDie_sysFj (s : State) (d : Nat) (f : Die → Die) : (s.modDie d f).sysFj = s.sysFj := rfl
@[simp] theorem State.modDie_budgetAt (s : State) (d : Nat) (f : Die → Die) : (s.modDie d f).budgetAt = s.budgetAt := rfl
@[simp] theorem State.modDie_energyAt (s : State) (d : Nat) (f : Die → Die) : (s.modDie d f).energyAt = s.energyAt := rfl
@[simp] theorem State.modDie_island (s : State) (d : Nat) (f : Die → Die) : (s.modDie d f).island = s.island := rfl
@[simp] theorem State.modDie_remapped (s : State) (d : Nat) (f : Die → Die) : (s.modDie d f).remapped = s.remapped := rfl
@[simp] theorem State.modDie_joint (s : State) (d : Nat) (f : Die → Die) : (s.modDie d f).joint = s.joint := rfl
@[simp] theorem State.modDie_dones (s : State) (d : Nat) (f : Die → Die) : (s.modDie d f).dones = s.dones := rfl
@[simp] theorem State.modDie_badSpares (s : State) (d : Nat) (f : Die → Die) : (s.modDie d f).badSpares = s.badSpares := rfl

@[simp] theorem State.modDie_warp (s : State) (d : Nat) (f : Die → Die) (j : Nat) : (s.modDie d f).warp j = s.warp j := rfl
@[simp] theorem State.modDie_blk (s : State) (d : Nat) (f : Die → Die) (j : Nat) : (s.modDie d f).blk j = s.blk j := rfl
@[simp] theorem State.modDie_ctx (s : State) (d : Nat) (f : Die → Die) (j : Nat) : (s.modDie d f).ctx j = s.ctx j := rfl
@[simp] theorem State.modDie_core (s : State) (d : Nat) (f : Die → Die) (j : Nat) : (s.modDie d f).core j = s.core j := rfl
@[simp] theorem State.modDie_chan (s : State) (d : Nat) (f : Die → Die) (j : Nat) : (s.modDie d f).chan j = s.chan j := rfl

/-! ## `Warp.vset` -/

@[simp] theorem Warp.vset_ctx (w : Warp) (n l : Nat) (x : Word) : (w.vset n l x).ctx = w.ctx := rfl
@[simp] theorem Warp.vset_blk (w : Warp) (n l : Nat) (x : Word) : (w.vset n l x).blk = w.blk := rfl
@[simp] theorem Warp.vset_wid (w : Warp) (n l : Nat) (x : Word) : (w.vset n l x).wid = w.wid := rfl
@[simp] theorem Warp.vset_slot (w : Warp) (n l : Nat) (x : Word) : (w.vset n l x).slot = w.slot := rfl
@[simp] theorem Warp.vset_nregs (w : Warp) (n l : Nat) (x : Word) : (w.vset n l x).nregs = w.nregs := rfl
@[simp] theorem Warp.vset_pc (w : Warp) (n l : Nat) (x : Word) : (w.vset n l x).pc = w.pc := rfl
@[simp] theorem Warp.vset_exec (w : Warp) (n l : Nat) (x : Word) : (w.vset n l x).exec = w.exec := rfl
@[simp] theorem Warp.vset_live (w : Warp) (n l : Nat) (x : Word) : (w.vset n l x).live = w.live := rfl
@[simp] theorem Warp.vset_s (w : Warp) (n l : Nat) (x : Word) : (w.vset n l x).s = w.s := rfl
@[simp] theorem Warp.vset_p (w : Warp) (n l : Nat) (x : Word) : (w.vset n l x).p = w.p := rfl
@[simp] theorem Warp.vset_toks (w : Warp) (n l : Nat) (x : Word) : (w.vset n l x).toks = w.toks := rfl
@[simp] theorem Warp.vset_spilled (w : Warp) (n l : Nat) (x : Word) : (w.vset n l x).spilled = w.spilled := rfl
@[simp] theorem Warp.vset_fpmode (w : Warp) (n l : Nat) (x : Word) : (w.vset n l x).fpmode = w.fpmode := rfl
@[simp] theorem Warp.vset_lossScale (w : Warp) (n l : Nat) (x : Word) : (w.vset n l x).lossScale = w.lossScale := rfl
@[simp] theorem Warp.vset_ovf (w : Warp) (n l : Nat) (x : Word) : (w.vset n l x).ovf = w.ovf := rfl
@[simp] theorem Warp.vset_ashape (w : Warp) (n l : Nat) (x : Word) : (w.vset n l x).ashape = w.ashape := rfl
@[simp] theorem Warp.vset_ssp (w : Warp) (n l : Nat) (x : Word) : (w.vset n l x).ssp = w.ssp := rfl
@[simp] theorem Warp.vset_cause (w : Warp) (n l : Nat) (x : Word) : (w.vset n l x).cause = w.cause := rfl
@[simp] theorem Warp.vset_epc (w : Warp) (n l : Nat) (x : Word) : (w.vset n l x).epc = w.epc := rfl
@[simp] theorem Warp.vset_badaddr (w : Warp) (n l : Nat) (x : Word) : (w.vset n l x).badaddr = w.badaddr := rfl
@[simp] theorem Warp.vset_inHandler (w : Warp) (n l : Nat) (x : Word) : (w.vset n l x).inHandler = w.inHandler := rfl
@[simp] theorem Warp.vset_hstart (w : Warp) (n l : Nat) (x : Word) : (w.vset n l x).hstart = w.hstart := rfl
@[simp] theorem Warp.vset_savedExec (w : Warp) (n l : Nat) (x : Word) : (w.vset n l x).savedExec = w.savedExec := rfl
@[simp] theorem Warp.vset_savedToks (w : Warp) (n l : Nat) (x : Word) : (w.vset n l x).savedToks = w.savedToks := rfl
@[simp] theorem Warp.vset_savedSpill (w : Warp) (n l : Nat) (x : Word) : (w.vset n l x).savedSpill = w.savedSpill := rfl
@[simp] theorem Warp.vset_late (w : Warp) (n l : Nat) (x : Word) : (w.vset n l x).late = w.late := rfl
@[simp] theorem Warp.vset_tokenErr (w : Warp) (n l : Nat) (x : Word) : (w.vset n l x).tokenErr = w.tokenErr := rfl
@[simp] theorem Warp.vset_park (w : Warp) (n l : Nat) (x : Word) : (w.vset n l x).park = w.park := rfl
@[simp] theorem Warp.vset_retired (w : Warp) (n l : Nat) (x : Word) : (w.vset n l x).retired = w.retired := rfl
@[simp] theorem Warp.vset_stopped (w : Warp) (n l : Nat) (x : Word) : (w.vset n l x).stopped = w.stopped := rfl
@[simp] theorem Warp.vset_deadline (w : Warp) (n l : Nat) (x : Word) : (w.vset n l x).deadline = w.deadline := rfl
@[simp] theorem Warp.vset_locBase (w : Warp) (n l : Nat) (x : Word) : (w.vset n l x).locBase = w.locBase := rfl
@[simp] theorem Warp.vset_locSize (w : Warp) (n l : Nat) (x : Word) : (w.vset n l x).locSize = w.locSize := rfl
@[simp] theorem Warp.vset_nextSeq (w : Warp) (n l : Nat) (x : Word) : (w.vset n l x).nextSeq = w.nextSeq := rfl
@[simp] theorem Warp.vset_batches (w : Warp) (n l : Nat) (x : Word) : (w.vset n l x).batches = w.batches := rfl
@[simp] theorem Warp.vset_ldCnt (w : Warp) (n l : Nat) (x : Word) : (w.vset n l x).ldCnt = w.ldCnt := rfl
@[simp] theorem Warp.vset_stCnt (w : Warp) (n l : Nat) (x : Word) : (w.vset n l x).stCnt = w.stCnt := rfl
@[simp] theorem Warp.vset_tileCnt (w : Warp) (n l : Nat) (x : Word) : (w.vset n l x).tileCnt = w.tileCnt := rfl
@[simp] theorem Warp.vset_bankCnt (w : Warp) (n l : Nat) (x : Word) : (w.vset n l x).bankCnt = w.bankCnt := rfl
@[simp] theorem Warp.vset_tileSeq (w : Warp) (n l : Nat) (x : Word) : (w.vset n l x).tileSeq = w.tileSeq := rfl
@[simp] theorem Warp.vset_tileDone (w : Warp) (n l : Nat) (x : Word) : (w.vset n l x).tileDone = w.tileDone := rfl
@[simp] theorem Warp.vset_busy (w : Warp) (n l : Nat) (x : Word) : (w.vset n l x).busy = w.busy := rfl
@[simp] theorem Warp.vset_sMark (w : Warp) (n l : Nat) (x : Word) : (w.vset n l x).sMark = w.sMark := rfl
@[simp] theorem Warp.vset_pMark (w : Warp) (n l : Nat) (x : Word) : (w.vset n l x).pMark = w.pMark := rfl
@[simp] theorem Warp.vset_floors (w : Warp) (n l : Nat) (x : Word) : (w.vset n l x).floors = w.floors := rfl
@[simp] theorem Warp.vset_seen (w : Warp) (n l : Nat) (x : Word) : (w.vset n l x).seen = w.seen := rfl
@[simp] theorem Warp.vset_rels (w : Warp) (n l : Nat) (x : Word) : (w.vset n l x).rels = w.rels := rfl
@[simp] theorem Warp.vset_fetchFloor (w : Warp) (n l : Nat) (x : Word) : (w.vset n l x).fetchFloor = w.fetchFloor := rfl
@[simp] theorem Warp.vset_age (w : Warp) (n l : Nat) (x : Word) : (w.vset n l x).age = w.age := rfl
@[simp] theorem Warp.vset_yielded (w : Warp) (n l : Nat) (x : Word) : (w.vset n l x).yielded = w.yielded := rfl
@[simp] theorem Warp.vset_runCnt (w : Warp) (n l : Nat) (x : Word) : (w.vset n l x).runCnt = w.runCnt := rfl
@[simp] theorem Warp.vset_waitFrom (w : Warp) (n l : Nat) (x : Word) : (w.vset n l x).waitFrom = w.waitFrom := rfl
@[simp] theorem Warp.vset_rmtFl (w : Warp) (n l : Nat) (x : Word) : (w.vset n l x).rmtFl = w.rmtFl := rfl
@[simp] theorem Warp.vset_missed (w : Warp) (n l : Nat) (x : Word) : (w.vset n l x).missed = w.missed := rfl
@[simp] theorem Warp.vset_waited (w : Warp) (n l : Nat) (x : Word) : (w.vset n l x).waited = w.waited := rfl
@[simp] theorem Warp.vset_unmapAt (w : Warp) (n l : Nat) (x : Word) : (w.vset n l x).unmapAt = w.unmapAt := rfl
@[simp] theorem Warp.vset_met (w : Warp) (n l : Nat) (x : Word) : (w.vset n l x).met = w.met := rfl
@[simp] theorem Warp.vset_due (w : Warp) (n l : Nat) (x : Word) : (w.vset n l x).due = w.due := rfl
@[simp] theorem Warp.vset_next (w : Warp) (n l : Nat) (x : Word) : (w.vset n l x).next = w.next := rfl

/-! ## `Warp.sset` -/

@[simp] theorem Warp.sset_ctx (w : Warp) (n : Nat) (x : Word) : (w.sset n x).ctx = w.ctx := rfl
@[simp] theorem Warp.sset_blk (w : Warp) (n : Nat) (x : Word) : (w.sset n x).blk = w.blk := rfl
@[simp] theorem Warp.sset_wid (w : Warp) (n : Nat) (x : Word) : (w.sset n x).wid = w.wid := rfl
@[simp] theorem Warp.sset_slot (w : Warp) (n : Nat) (x : Word) : (w.sset n x).slot = w.slot := rfl
@[simp] theorem Warp.sset_nregs (w : Warp) (n : Nat) (x : Word) : (w.sset n x).nregs = w.nregs := rfl
@[simp] theorem Warp.sset_pc (w : Warp) (n : Nat) (x : Word) : (w.sset n x).pc = w.pc := rfl
@[simp] theorem Warp.sset_exec (w : Warp) (n : Nat) (x : Word) : (w.sset n x).exec = w.exec := rfl
@[simp] theorem Warp.sset_live (w : Warp) (n : Nat) (x : Word) : (w.sset n x).live = w.live := rfl
@[simp] theorem Warp.sset_v (w : Warp) (n : Nat) (x : Word) : (w.sset n x).v = w.v := rfl
@[simp] theorem Warp.sset_p (w : Warp) (n : Nat) (x : Word) : (w.sset n x).p = w.p := rfl
@[simp] theorem Warp.sset_toks (w : Warp) (n : Nat) (x : Word) : (w.sset n x).toks = w.toks := rfl
@[simp] theorem Warp.sset_spilled (w : Warp) (n : Nat) (x : Word) : (w.sset n x).spilled = w.spilled := rfl
@[simp] theorem Warp.sset_fpmode (w : Warp) (n : Nat) (x : Word) : (w.sset n x).fpmode = w.fpmode := rfl
@[simp] theorem Warp.sset_lossScale (w : Warp) (n : Nat) (x : Word) : (w.sset n x).lossScale = w.lossScale := rfl
@[simp] theorem Warp.sset_ovf (w : Warp) (n : Nat) (x : Word) : (w.sset n x).ovf = w.ovf := rfl
@[simp] theorem Warp.sset_ashape (w : Warp) (n : Nat) (x : Word) : (w.sset n x).ashape = w.ashape := rfl
@[simp] theorem Warp.sset_ssp (w : Warp) (n : Nat) (x : Word) : (w.sset n x).ssp = w.ssp := rfl
@[simp] theorem Warp.sset_cause (w : Warp) (n : Nat) (x : Word) : (w.sset n x).cause = w.cause := rfl
@[simp] theorem Warp.sset_epc (w : Warp) (n : Nat) (x : Word) : (w.sset n x).epc = w.epc := rfl
@[simp] theorem Warp.sset_badaddr (w : Warp) (n : Nat) (x : Word) : (w.sset n x).badaddr = w.badaddr := rfl
@[simp] theorem Warp.sset_inHandler (w : Warp) (n : Nat) (x : Word) : (w.sset n x).inHandler = w.inHandler := rfl
@[simp] theorem Warp.sset_hstart (w : Warp) (n : Nat) (x : Word) : (w.sset n x).hstart = w.hstart := rfl
@[simp] theorem Warp.sset_savedExec (w : Warp) (n : Nat) (x : Word) : (w.sset n x).savedExec = w.savedExec := rfl
@[simp] theorem Warp.sset_savedToks (w : Warp) (n : Nat) (x : Word) : (w.sset n x).savedToks = w.savedToks := rfl
@[simp] theorem Warp.sset_savedSpill (w : Warp) (n : Nat) (x : Word) : (w.sset n x).savedSpill = w.savedSpill := rfl
@[simp] theorem Warp.sset_late (w : Warp) (n : Nat) (x : Word) : (w.sset n x).late = w.late := rfl
@[simp] theorem Warp.sset_park (w : Warp) (n : Nat) (x : Word) : (w.sset n x).park = w.park := rfl
@[simp] theorem Warp.sset_retired (w : Warp) (n : Nat) (x : Word) : (w.sset n x).retired = w.retired := rfl
@[simp] theorem Warp.sset_stopped (w : Warp) (n : Nat) (x : Word) : (w.sset n x).stopped = w.stopped := rfl
@[simp] theorem Warp.sset_deadline (w : Warp) (n : Nat) (x : Word) : (w.sset n x).deadline = w.deadline := rfl
@[simp] theorem Warp.sset_locBase (w : Warp) (n : Nat) (x : Word) : (w.sset n x).locBase = w.locBase := rfl
@[simp] theorem Warp.sset_locSize (w : Warp) (n : Nat) (x : Word) : (w.sset n x).locSize = w.locSize := rfl
@[simp] theorem Warp.sset_nextSeq (w : Warp) (n : Nat) (x : Word) : (w.sset n x).nextSeq = w.nextSeq := rfl
@[simp] theorem Warp.sset_ldCnt (w : Warp) (n : Nat) (x : Word) : (w.sset n x).ldCnt = w.ldCnt := rfl
@[simp] theorem Warp.sset_stCnt (w : Warp) (n : Nat) (x : Word) : (w.sset n x).stCnt = w.stCnt := rfl
@[simp] theorem Warp.sset_tileCnt (w : Warp) (n : Nat) (x : Word) : (w.sset n x).tileCnt = w.tileCnt := rfl
@[simp] theorem Warp.sset_bankCnt (w : Warp) (n : Nat) (x : Word) : (w.sset n x).bankCnt = w.bankCnt := rfl
@[simp] theorem Warp.sset_tileSeq (w : Warp) (n : Nat) (x : Word) : (w.sset n x).tileSeq = w.tileSeq := rfl
@[simp] theorem Warp.sset_tileDone (w : Warp) (n : Nat) (x : Word) : (w.sset n x).tileDone = w.tileDone := rfl
@[simp] theorem Warp.sset_busy (w : Warp) (n : Nat) (x : Word) : (w.sset n x).busy = w.busy := rfl
@[simp] theorem Warp.sset_vMark (w : Warp) (n : Nat) (x : Word) : (w.sset n x).vMark = w.vMark := rfl
@[simp] theorem Warp.sset_pMark (w : Warp) (n : Nat) (x : Word) : (w.sset n x).pMark = w.pMark := rfl
@[simp] theorem Warp.sset_floors (w : Warp) (n : Nat) (x : Word) : (w.sset n x).floors = w.floors := rfl
@[simp] theorem Warp.sset_seen (w : Warp) (n : Nat) (x : Word) : (w.sset n x).seen = w.seen := rfl
@[simp] theorem Warp.sset_rels (w : Warp) (n : Nat) (x : Word) : (w.sset n x).rels = w.rels := rfl
@[simp] theorem Warp.sset_fetchFloor (w : Warp) (n : Nat) (x : Word) : (w.sset n x).fetchFloor = w.fetchFloor := rfl
@[simp] theorem Warp.sset_age (w : Warp) (n : Nat) (x : Word) : (w.sset n x).age = w.age := rfl
@[simp] theorem Warp.sset_yielded (w : Warp) (n : Nat) (x : Word) : (w.sset n x).yielded = w.yielded := rfl
@[simp] theorem Warp.sset_runCnt (w : Warp) (n : Nat) (x : Word) : (w.sset n x).runCnt = w.runCnt := rfl
@[simp] theorem Warp.sset_waitFrom (w : Warp) (n : Nat) (x : Word) : (w.sset n x).waitFrom = w.waitFrom := rfl
@[simp] theorem Warp.sset_rmtFl (w : Warp) (n : Nat) (x : Word) : (w.sset n x).rmtFl = w.rmtFl := rfl
@[simp] theorem Warp.sset_missed (w : Warp) (n : Nat) (x : Word) : (w.sset n x).missed = w.missed := rfl
@[simp] theorem Warp.sset_waited (w : Warp) (n : Nat) (x : Word) : (w.sset n x).waited = w.waited := rfl
@[simp] theorem Warp.sset_unmapAt (w : Warp) (n : Nat) (x : Word) : (w.sset n x).unmapAt = w.unmapAt := rfl
@[simp] theorem Warp.sset_met (w : Warp) (n : Nat) (x : Word) : (w.sset n x).met = w.met := rfl
@[simp] theorem Warp.sset_due (w : Warp) (n : Nat) (x : Word) : (w.sset n x).due = w.due := rfl
@[simp] theorem Warp.sset_next (w : Warp) (n : Nat) (x : Word) : (w.sset n x).next = w.next := rfl

/-! ## `Warp.setFlags` -/

@[simp] theorem Warp.setFlags_ctx (w : Warp) (f : Nat) : (w.setFlags f).ctx = w.ctx := rfl
@[simp] theorem Warp.setFlags_blk (w : Warp) (f : Nat) : (w.setFlags f).blk = w.blk := rfl
@[simp] theorem Warp.setFlags_wid (w : Warp) (f : Nat) : (w.setFlags f).wid = w.wid := rfl
@[simp] theorem Warp.setFlags_slot (w : Warp) (f : Nat) : (w.setFlags f).slot = w.slot := rfl
@[simp] theorem Warp.setFlags_nregs (w : Warp) (f : Nat) : (w.setFlags f).nregs = w.nregs := rfl
@[simp] theorem Warp.setFlags_pc (w : Warp) (f : Nat) : (w.setFlags f).pc = w.pc := rfl
@[simp] theorem Warp.setFlags_exec (w : Warp) (f : Nat) : (w.setFlags f).exec = w.exec := rfl
@[simp] theorem Warp.setFlags_live (w : Warp) (f : Nat) : (w.setFlags f).live = w.live := rfl
@[simp] theorem Warp.setFlags_v (w : Warp) (f : Nat) : (w.setFlags f).v = w.v := rfl
@[simp] theorem Warp.setFlags_s (w : Warp) (f : Nat) : (w.setFlags f).s = w.s := rfl
@[simp] theorem Warp.setFlags_p (w : Warp) (f : Nat) : (w.setFlags f).p = w.p := rfl
@[simp] theorem Warp.setFlags_toks (w : Warp) (f : Nat) : (w.setFlags f).toks = w.toks := rfl
@[simp] theorem Warp.setFlags_spilled (w : Warp) (f : Nat) : (w.setFlags f).spilled = w.spilled := rfl
@[simp] theorem Warp.setFlags_fpmode (w : Warp) (f : Nat) : (w.setFlags f).fpmode = w.fpmode := rfl
@[simp] theorem Warp.setFlags_lossScale (w : Warp) (f : Nat) : (w.setFlags f).lossScale = w.lossScale := rfl
@[simp] theorem Warp.setFlags_ashape (w : Warp) (f : Nat) : (w.setFlags f).ashape = w.ashape := rfl
@[simp] theorem Warp.setFlags_ssp (w : Warp) (f : Nat) : (w.setFlags f).ssp = w.ssp := rfl
@[simp] theorem Warp.setFlags_cause (w : Warp) (f : Nat) : (w.setFlags f).cause = w.cause := rfl
@[simp] theorem Warp.setFlags_epc (w : Warp) (f : Nat) : (w.setFlags f).epc = w.epc := rfl
@[simp] theorem Warp.setFlags_badaddr (w : Warp) (f : Nat) : (w.setFlags f).badaddr = w.badaddr := rfl
@[simp] theorem Warp.setFlags_inHandler (w : Warp) (f : Nat) : (w.setFlags f).inHandler = w.inHandler := rfl
@[simp] theorem Warp.setFlags_hstart (w : Warp) (f : Nat) : (w.setFlags f).hstart = w.hstart := rfl
@[simp] theorem Warp.setFlags_savedExec (w : Warp) (f : Nat) : (w.setFlags f).savedExec = w.savedExec := rfl
@[simp] theorem Warp.setFlags_savedToks (w : Warp) (f : Nat) : (w.setFlags f).savedToks = w.savedToks := rfl
@[simp] theorem Warp.setFlags_savedSpill (w : Warp) (f : Nat) : (w.setFlags f).savedSpill = w.savedSpill := rfl
@[simp] theorem Warp.setFlags_late (w : Warp) (f : Nat) : (w.setFlags f).late = w.late := rfl
@[simp] theorem Warp.setFlags_tokenErr (w : Warp) (f : Nat) : (w.setFlags f).tokenErr = w.tokenErr := rfl
@[simp] theorem Warp.setFlags_park (w : Warp) (f : Nat) : (w.setFlags f).park = w.park := rfl
@[simp] theorem Warp.setFlags_retired (w : Warp) (f : Nat) : (w.setFlags f).retired = w.retired := rfl
@[simp] theorem Warp.setFlags_stopped (w : Warp) (f : Nat) : (w.setFlags f).stopped = w.stopped := rfl
@[simp] theorem Warp.setFlags_deadline (w : Warp) (f : Nat) : (w.setFlags f).deadline = w.deadline := rfl
@[simp] theorem Warp.setFlags_locBase (w : Warp) (f : Nat) : (w.setFlags f).locBase = w.locBase := rfl
@[simp] theorem Warp.setFlags_locSize (w : Warp) (f : Nat) : (w.setFlags f).locSize = w.locSize := rfl
@[simp] theorem Warp.setFlags_nextSeq (w : Warp) (f : Nat) : (w.setFlags f).nextSeq = w.nextSeq := rfl
@[simp] theorem Warp.setFlags_batches (w : Warp) (f : Nat) : (w.setFlags f).batches = w.batches := rfl
@[simp] theorem Warp.setFlags_ldCnt (w : Warp) (f : Nat) : (w.setFlags f).ldCnt = w.ldCnt := rfl
@[simp] theorem Warp.setFlags_stCnt (w : Warp) (f : Nat) : (w.setFlags f).stCnt = w.stCnt := rfl
@[simp] theorem Warp.setFlags_tileCnt (w : Warp) (f : Nat) : (w.setFlags f).tileCnt = w.tileCnt := rfl
@[simp] theorem Warp.setFlags_bankCnt (w : Warp) (f : Nat) : (w.setFlags f).bankCnt = w.bankCnt := rfl
@[simp] theorem Warp.setFlags_tileSeq (w : Warp) (f : Nat) : (w.setFlags f).tileSeq = w.tileSeq := rfl
@[simp] theorem Warp.setFlags_tileDone (w : Warp) (f : Nat) : (w.setFlags f).tileDone = w.tileDone := rfl
@[simp] theorem Warp.setFlags_busy (w : Warp) (f : Nat) : (w.setFlags f).busy = w.busy := rfl
@[simp] theorem Warp.setFlags_vMark (w : Warp) (f : Nat) : (w.setFlags f).vMark = w.vMark := rfl
@[simp] theorem Warp.setFlags_sMark (w : Warp) (f : Nat) : (w.setFlags f).sMark = w.sMark := rfl
@[simp] theorem Warp.setFlags_pMark (w : Warp) (f : Nat) : (w.setFlags f).pMark = w.pMark := rfl
@[simp] theorem Warp.setFlags_floors (w : Warp) (f : Nat) : (w.setFlags f).floors = w.floors := rfl
@[simp] theorem Warp.setFlags_seen (w : Warp) (f : Nat) : (w.setFlags f).seen = w.seen := rfl
@[simp] theorem Warp.setFlags_rels (w : Warp) (f : Nat) : (w.setFlags f).rels = w.rels := rfl
@[simp] theorem Warp.setFlags_fetchFloor (w : Warp) (f : Nat) : (w.setFlags f).fetchFloor = w.fetchFloor := rfl
@[simp] theorem Warp.setFlags_age (w : Warp) (f : Nat) : (w.setFlags f).age = w.age := rfl
@[simp] theorem Warp.setFlags_yielded (w : Warp) (f : Nat) : (w.setFlags f).yielded = w.yielded := rfl
@[simp] theorem Warp.setFlags_runCnt (w : Warp) (f : Nat) : (w.setFlags f).runCnt = w.runCnt := rfl
@[simp] theorem Warp.setFlags_waitFrom (w : Warp) (f : Nat) : (w.setFlags f).waitFrom = w.waitFrom := rfl
@[simp] theorem Warp.setFlags_rmtFl (w : Warp) (f : Nat) : (w.setFlags f).rmtFl = w.rmtFl := rfl
@[simp] theorem Warp.setFlags_missed (w : Warp) (f : Nat) : (w.setFlags f).missed = w.missed := rfl
@[simp] theorem Warp.setFlags_waited (w : Warp) (f : Nat) : (w.setFlags f).waited = w.waited := rfl
@[simp] theorem Warp.setFlags_unmapAt (w : Warp) (f : Nat) : (w.setFlags f).unmapAt = w.unmapAt := rfl
@[simp] theorem Warp.setFlags_met (w : Warp) (f : Nat) : (w.setFlags f).met = w.met := rfl
@[simp] theorem Warp.setFlags_words (w : Warp) (f : Nat) : (w.setFlags f).words = w.words := rfl
@[simp] theorem Warp.setFlags_due (w : Warp) (f : Nat) : (w.setFlags f).due = w.due := rfl
@[simp] theorem Warp.setFlags_next (w : Warp) (f : Nat) : (w.setFlags f).next = w.next := rfl

/-! ## `Warp.advance` -/

@[simp] theorem Warp.advance_ctx (w : Warp) (n : Nat) : (w.advance n).ctx = w.ctx := rfl
@[simp] theorem Warp.advance_blk (w : Warp) (n : Nat) : (w.advance n).blk = w.blk := rfl
@[simp] theorem Warp.advance_wid (w : Warp) (n : Nat) : (w.advance n).wid = w.wid := rfl
@[simp] theorem Warp.advance_slot (w : Warp) (n : Nat) : (w.advance n).slot = w.slot := rfl
@[simp] theorem Warp.advance_nregs (w : Warp) (n : Nat) : (w.advance n).nregs = w.nregs := rfl
@[simp] theorem Warp.advance_exec (w : Warp) (n : Nat) : (w.advance n).exec = w.exec := rfl
@[simp] theorem Warp.advance_live (w : Warp) (n : Nat) : (w.advance n).live = w.live := rfl
@[simp] theorem Warp.advance_v (w : Warp) (n : Nat) : (w.advance n).v = w.v := rfl
@[simp] theorem Warp.advance_s (w : Warp) (n : Nat) : (w.advance n).s = w.s := rfl
@[simp] theorem Warp.advance_p (w : Warp) (n : Nat) : (w.advance n).p = w.p := rfl
@[simp] theorem Warp.advance_toks (w : Warp) (n : Nat) : (w.advance n).toks = w.toks := rfl
@[simp] theorem Warp.advance_spilled (w : Warp) (n : Nat) : (w.advance n).spilled = w.spilled := rfl
@[simp] theorem Warp.advance_fpmode (w : Warp) (n : Nat) : (w.advance n).fpmode = w.fpmode := rfl
@[simp] theorem Warp.advance_lossScale (w : Warp) (n : Nat) : (w.advance n).lossScale = w.lossScale := rfl
@[simp] theorem Warp.advance_ovf (w : Warp) (n : Nat) : (w.advance n).ovf = w.ovf := rfl
@[simp] theorem Warp.advance_ashape (w : Warp) (n : Nat) : (w.advance n).ashape = w.ashape := rfl
@[simp] theorem Warp.advance_ssp (w : Warp) (n : Nat) : (w.advance n).ssp = w.ssp := rfl
@[simp] theorem Warp.advance_cause (w : Warp) (n : Nat) : (w.advance n).cause = w.cause := rfl
@[simp] theorem Warp.advance_epc (w : Warp) (n : Nat) : (w.advance n).epc = w.epc := rfl
@[simp] theorem Warp.advance_badaddr (w : Warp) (n : Nat) : (w.advance n).badaddr = w.badaddr := rfl
@[simp] theorem Warp.advance_inHandler (w : Warp) (n : Nat) : (w.advance n).inHandler = w.inHandler := rfl
@[simp] theorem Warp.advance_hstart (w : Warp) (n : Nat) : (w.advance n).hstart = w.hstart := rfl
@[simp] theorem Warp.advance_savedExec (w : Warp) (n : Nat) : (w.advance n).savedExec = w.savedExec := rfl
@[simp] theorem Warp.advance_savedToks (w : Warp) (n : Nat) : (w.advance n).savedToks = w.savedToks := rfl
@[simp] theorem Warp.advance_savedSpill (w : Warp) (n : Nat) : (w.advance n).savedSpill = w.savedSpill := rfl
@[simp] theorem Warp.advance_late (w : Warp) (n : Nat) : (w.advance n).late = w.late := rfl
@[simp] theorem Warp.advance_tokenErr (w : Warp) (n : Nat) : (w.advance n).tokenErr = w.tokenErr := rfl
@[simp] theorem Warp.advance_park (w : Warp) (n : Nat) : (w.advance n).park = w.park := rfl
@[simp] theorem Warp.advance_retired (w : Warp) (n : Nat) : (w.advance n).retired = w.retired := rfl
@[simp] theorem Warp.advance_stopped (w : Warp) (n : Nat) : (w.advance n).stopped = w.stopped := rfl
@[simp] theorem Warp.advance_deadline (w : Warp) (n : Nat) : (w.advance n).deadline = w.deadline := rfl
@[simp] theorem Warp.advance_locBase (w : Warp) (n : Nat) : (w.advance n).locBase = w.locBase := rfl
@[simp] theorem Warp.advance_locSize (w : Warp) (n : Nat) : (w.advance n).locSize = w.locSize := rfl
@[simp] theorem Warp.advance_nextSeq (w : Warp) (n : Nat) : (w.advance n).nextSeq = w.nextSeq := rfl
@[simp] theorem Warp.advance_batches (w : Warp) (n : Nat) : (w.advance n).batches = w.batches := rfl
@[simp] theorem Warp.advance_ldCnt (w : Warp) (n : Nat) : (w.advance n).ldCnt = w.ldCnt := rfl
@[simp] theorem Warp.advance_stCnt (w : Warp) (n : Nat) : (w.advance n).stCnt = w.stCnt := rfl
@[simp] theorem Warp.advance_tileCnt (w : Warp) (n : Nat) : (w.advance n).tileCnt = w.tileCnt := rfl
@[simp] theorem Warp.advance_bankCnt (w : Warp) (n : Nat) : (w.advance n).bankCnt = w.bankCnt := rfl
@[simp] theorem Warp.advance_tileSeq (w : Warp) (n : Nat) : (w.advance n).tileSeq = w.tileSeq := rfl
@[simp] theorem Warp.advance_tileDone (w : Warp) (n : Nat) : (w.advance n).tileDone = w.tileDone := rfl
@[simp] theorem Warp.advance_busy (w : Warp) (n : Nat) : (w.advance n).busy = w.busy := rfl
@[simp] theorem Warp.advance_vMark (w : Warp) (n : Nat) : (w.advance n).vMark = w.vMark := rfl
@[simp] theorem Warp.advance_sMark (w : Warp) (n : Nat) : (w.advance n).sMark = w.sMark := rfl
@[simp] theorem Warp.advance_pMark (w : Warp) (n : Nat) : (w.advance n).pMark = w.pMark := rfl
@[simp] theorem Warp.advance_floors (w : Warp) (n : Nat) : (w.advance n).floors = w.floors := rfl
@[simp] theorem Warp.advance_seen (w : Warp) (n : Nat) : (w.advance n).seen = w.seen := rfl
@[simp] theorem Warp.advance_rels (w : Warp) (n : Nat) : (w.advance n).rels = w.rels := rfl
@[simp] theorem Warp.advance_fetchFloor (w : Warp) (n : Nat) : (w.advance n).fetchFloor = w.fetchFloor := rfl
@[simp] theorem Warp.advance_age (w : Warp) (n : Nat) : (w.advance n).age = w.age := rfl
@[simp] theorem Warp.advance_yielded (w : Warp) (n : Nat) : (w.advance n).yielded = w.yielded := rfl
@[simp] theorem Warp.advance_runCnt (w : Warp) (n : Nat) : (w.advance n).runCnt = w.runCnt := rfl
@[simp] theorem Warp.advance_waitFrom (w : Warp) (n : Nat) : (w.advance n).waitFrom = w.waitFrom := rfl
@[simp] theorem Warp.advance_rmtFl (w : Warp) (n : Nat) : (w.advance n).rmtFl = w.rmtFl := rfl
@[simp] theorem Warp.advance_missed (w : Warp) (n : Nat) : (w.advance n).missed = w.missed := rfl
@[simp] theorem Warp.advance_waited (w : Warp) (n : Nat) : (w.advance n).waited = w.waited := rfl
@[simp] theorem Warp.advance_unmapAt (w : Warp) (n : Nat) : (w.advance n).unmapAt = w.unmapAt := rfl
@[simp] theorem Warp.advance_met (w : Warp) (n : Nat) : (w.advance n).met = w.met := rfl
@[simp] theorem Warp.advance_words (w : Warp) (n : Nat) : (w.advance n).words = w.words := rfl
@[simp] theorem Warp.advance_due (w : Warp) (n : Nat) : (w.advance n).due = w.due := rfl
@[simp] theorem Warp.advance_next (w : Warp) (n : Nat) : (w.advance n).next = w.next := rfl

/-! ## `Warp.pset` (R52) -/

@[simp] theorem Warp.pset_ctx (w : Warp) (n : Nat) (x : Mask) : (w.pset n x).ctx = w.ctx := by unfold Warp.pset; split <;> rfl
@[simp] theorem Warp.pset_blk (w : Warp) (n : Nat) (x : Mask) : (w.pset n x).blk = w.blk := by unfold Warp.pset; split <;> rfl
@[simp] theorem Warp.pset_wid (w : Warp) (n : Nat) (x : Mask) : (w.pset n x).wid = w.wid := by unfold Warp.pset; split <;> rfl
@[simp] theorem Warp.pset_slot (w : Warp) (n : Nat) (x : Mask) : (w.pset n x).slot = w.slot := by unfold Warp.pset; split <;> rfl
@[simp] theorem Warp.pset_nregs (w : Warp) (n : Nat) (x : Mask) : (w.pset n x).nregs = w.nregs := by unfold Warp.pset; split <;> rfl
@[simp] theorem Warp.pset_pc (w : Warp) (n : Nat) (x : Mask) : (w.pset n x).pc = w.pc := by unfold Warp.pset; split <;> rfl
@[simp] theorem Warp.pset_exec (w : Warp) (n : Nat) (x : Mask) : (w.pset n x).exec = w.exec := by unfold Warp.pset; split <;> rfl
@[simp] theorem Warp.pset_live (w : Warp) (n : Nat) (x : Mask) : (w.pset n x).live = w.live := by unfold Warp.pset; split <;> rfl
@[simp] theorem Warp.pset_v (w : Warp) (n : Nat) (x : Mask) : (w.pset n x).v = w.v := by unfold Warp.pset; split <;> rfl
@[simp] theorem Warp.pset_s (w : Warp) (n : Nat) (x : Mask) : (w.pset n x).s = w.s := by unfold Warp.pset; split <;> rfl
@[simp] theorem Warp.pset_toks (w : Warp) (n : Nat) (x : Mask) : (w.pset n x).toks = w.toks := by unfold Warp.pset; split <;> rfl
@[simp] theorem Warp.pset_spilled (w : Warp) (n : Nat) (x : Mask) : (w.pset n x).spilled = w.spilled := by unfold Warp.pset; split <;> rfl
@[simp] theorem Warp.pset_fpmode (w : Warp) (n : Nat) (x : Mask) : (w.pset n x).fpmode = w.fpmode := by unfold Warp.pset; split <;> rfl
@[simp] theorem Warp.pset_lossScale (w : Warp) (n : Nat) (x : Mask) : (w.pset n x).lossScale = w.lossScale := by unfold Warp.pset; split <;> rfl
@[simp] theorem Warp.pset_ovf (w : Warp) (n : Nat) (x : Mask) : (w.pset n x).ovf = w.ovf := by unfold Warp.pset; split <;> rfl
@[simp] theorem Warp.pset_ashape (w : Warp) (n : Nat) (x : Mask) : (w.pset n x).ashape = w.ashape := by unfold Warp.pset; split <;> rfl
@[simp] theorem Warp.pset_ssp (w : Warp) (n : Nat) (x : Mask) : (w.pset n x).ssp = w.ssp := by unfold Warp.pset; split <;> rfl
@[simp] theorem Warp.pset_cause (w : Warp) (n : Nat) (x : Mask) : (w.pset n x).cause = w.cause := by unfold Warp.pset; split <;> rfl
@[simp] theorem Warp.pset_epc (w : Warp) (n : Nat) (x : Mask) : (w.pset n x).epc = w.epc := by unfold Warp.pset; split <;> rfl
@[simp] theorem Warp.pset_badaddr (w : Warp) (n : Nat) (x : Mask) : (w.pset n x).badaddr = w.badaddr := by unfold Warp.pset; split <;> rfl
@[simp] theorem Warp.pset_inHandler (w : Warp) (n : Nat) (x : Mask) : (w.pset n x).inHandler = w.inHandler := by unfold Warp.pset; split <;> rfl
@[simp] theorem Warp.pset_hstart (w : Warp) (n : Nat) (x : Mask) : (w.pset n x).hstart = w.hstart := by unfold Warp.pset; split <;> rfl
@[simp] theorem Warp.pset_savedExec (w : Warp) (n : Nat) (x : Mask) : (w.pset n x).savedExec = w.savedExec := by unfold Warp.pset; split <;> rfl
@[simp] theorem Warp.pset_savedToks (w : Warp) (n : Nat) (x : Mask) : (w.pset n x).savedToks = w.savedToks := by unfold Warp.pset; split <;> rfl
@[simp] theorem Warp.pset_savedSpill (w : Warp) (n : Nat) (x : Mask) : (w.pset n x).savedSpill = w.savedSpill := by unfold Warp.pset; split <;> rfl
@[simp] theorem Warp.pset_late (w : Warp) (n : Nat) (x : Mask) : (w.pset n x).late = w.late := by unfold Warp.pset; split <;> rfl
@[simp] theorem Warp.pset_tokenErr (w : Warp) (n : Nat) (x : Mask) : (w.pset n x).tokenErr = w.tokenErr := by unfold Warp.pset; split <;> rfl
@[simp] theorem Warp.pset_park (w : Warp) (n : Nat) (x : Mask) : (w.pset n x).park = w.park := by unfold Warp.pset; split <;> rfl
@[simp] theorem Warp.pset_retired (w : Warp) (n : Nat) (x : Mask) : (w.pset n x).retired = w.retired := by unfold Warp.pset; split <;> rfl
@[simp] theorem Warp.pset_stopped (w : Warp) (n : Nat) (x : Mask) : (w.pset n x).stopped = w.stopped := by unfold Warp.pset; split <;> rfl
@[simp] theorem Warp.pset_deadline (w : Warp) (n : Nat) (x : Mask) : (w.pset n x).deadline = w.deadline := by unfold Warp.pset; split <;> rfl
@[simp] theorem Warp.pset_locBase (w : Warp) (n : Nat) (x : Mask) : (w.pset n x).locBase = w.locBase := by unfold Warp.pset; split <;> rfl
@[simp] theorem Warp.pset_locSize (w : Warp) (n : Nat) (x : Mask) : (w.pset n x).locSize = w.locSize := by unfold Warp.pset; split <;> rfl
@[simp] theorem Warp.pset_nextSeq (w : Warp) (n : Nat) (x : Mask) : (w.pset n x).nextSeq = w.nextSeq := by unfold Warp.pset; split <;> rfl
@[simp] theorem Warp.pset_batches (w : Warp) (n : Nat) (x : Mask) : (w.pset n x).batches = w.batches := by unfold Warp.pset; split <;> rfl
@[simp] theorem Warp.pset_ldCnt (w : Warp) (n : Nat) (x : Mask) : (w.pset n x).ldCnt = w.ldCnt := by unfold Warp.pset; split <;> rfl
@[simp] theorem Warp.pset_stCnt (w : Warp) (n : Nat) (x : Mask) : (w.pset n x).stCnt = w.stCnt := by unfold Warp.pset; split <;> rfl
@[simp] theorem Warp.pset_tileCnt (w : Warp) (n : Nat) (x : Mask) : (w.pset n x).tileCnt = w.tileCnt := by unfold Warp.pset; split <;> rfl
@[simp] theorem Warp.pset_bankCnt (w : Warp) (n : Nat) (x : Mask) : (w.pset n x).bankCnt = w.bankCnt := by unfold Warp.pset; split <;> rfl
@[simp] theorem Warp.pset_tileSeq (w : Warp) (n : Nat) (x : Mask) : (w.pset n x).tileSeq = w.tileSeq := by unfold Warp.pset; split <;> rfl
@[simp] theorem Warp.pset_tileDone (w : Warp) (n : Nat) (x : Mask) : (w.pset n x).tileDone = w.tileDone := by unfold Warp.pset; split <;> rfl
@[simp] theorem Warp.pset_busy (w : Warp) (n : Nat) (x : Mask) : (w.pset n x).busy = w.busy := by unfold Warp.pset; split <;> rfl
@[simp] theorem Warp.pset_vMark (w : Warp) (n : Nat) (x : Mask) : (w.pset n x).vMark = w.vMark := by unfold Warp.pset; split <;> rfl
@[simp] theorem Warp.pset_sMark (w : Warp) (n : Nat) (x : Mask) : (w.pset n x).sMark = w.sMark := by unfold Warp.pset; split <;> rfl
@[simp] theorem Warp.pset_floors (w : Warp) (n : Nat) (x : Mask) : (w.pset n x).floors = w.floors := by unfold Warp.pset; split <;> rfl
@[simp] theorem Warp.pset_seen (w : Warp) (n : Nat) (x : Mask) : (w.pset n x).seen = w.seen := by unfold Warp.pset; split <;> rfl
@[simp] theorem Warp.pset_rels (w : Warp) (n : Nat) (x : Mask) : (w.pset n x).rels = w.rels := by unfold Warp.pset; split <;> rfl
@[simp] theorem Warp.pset_fetchFloor (w : Warp) (n : Nat) (x : Mask) : (w.pset n x).fetchFloor = w.fetchFloor := by unfold Warp.pset; split <;> rfl
@[simp] theorem Warp.pset_age (w : Warp) (n : Nat) (x : Mask) : (w.pset n x).age = w.age := by unfold Warp.pset; split <;> rfl
@[simp] theorem Warp.pset_yielded (w : Warp) (n : Nat) (x : Mask) : (w.pset n x).yielded = w.yielded := by unfold Warp.pset; split <;> rfl
@[simp] theorem Warp.pset_runCnt (w : Warp) (n : Nat) (x : Mask) : (w.pset n x).runCnt = w.runCnt := by unfold Warp.pset; split <;> rfl
@[simp] theorem Warp.pset_waitFrom (w : Warp) (n : Nat) (x : Mask) : (w.pset n x).waitFrom = w.waitFrom := by unfold Warp.pset; split <;> rfl
@[simp] theorem Warp.pset_rmtFl (w : Warp) (n : Nat) (x : Mask) : (w.pset n x).rmtFl = w.rmtFl := by unfold Warp.pset; split <;> rfl
@[simp] theorem Warp.pset_missed (w : Warp) (n : Nat) (x : Mask) : (w.pset n x).missed = w.missed := by unfold Warp.pset; split <;> rfl
@[simp] theorem Warp.pset_waited (w : Warp) (n : Nat) (x : Mask) : (w.pset n x).waited = w.waited := by unfold Warp.pset; split <;> rfl

/-! ## `Block.qset` -/

@[simp] theorem Block.qset_ctx (b : Block) (n : Nat) (x : Word) : (b.qset n x).ctx = b.ctx := rfl
@[simp] theorem Block.qset_lnum (b : Block) (n : Nat) (x : Word) : (b.qset n x).lnum = b.lnum := rfl
@[simp] theorem Block.qset_stage (b : Block) (n : Nat) (x : Word) : (b.qset n x).stage = b.stage := rfl
@[simp] theorem Block.qset_cluster (b : Block) (n : Nat) (x : Word) : (b.qset n x).cluster = b.cluster := rfl
@[simp] theorem Block.qset_bid (b : Block) (n : Nat) (x : Word) : (b.qset n x).bid = b.bid := rfl
@[simp] theorem Block.qset_core (b : Block) (n : Nat) (x : Word) : (b.qset n x).core = b.core := rfl
@[simp] theorem Block.qset_nwarps (b : Block) (n : Nat) (x : Word) : (b.qset n x).nwarps = b.nwarps := rfl
@[simp] theorem Block.qset_setw (b : Block) (n : Nat) (x : Word) : (b.qset n x).setw = b.setw := rfl
@[simp] theorem Block.qset_nregs (b : Block) (n : Nat) (x : Word) : (b.qset n x).nregs = b.nregs := rfl
@[simp] theorem Block.qset_wins (b : Block) (n : Nat) (x : Word) : (b.qset n x).wins = b.wins := rfl
@[simp] theorem Block.qset_scrBase (b : Block) (n : Nat) (x : Word) : (b.qset n x).scrBase = b.scrBase := rfl
@[simp] theorem Block.qset_scrKb (b : Block) (n : Nat) (x : Word) : (b.qset n x).scrKb = b.scrKb := rfl
@[simp] theorem Block.qset_ntiles (b : Block) (n : Nat) (x : Word) : (b.qset n x).ntiles = b.ntiles := rfl
@[simp] theorem Block.qset_nrec (b : Block) (n : Nat) (x : Word) : (b.qset n x).nrec = b.nrec := rfl
@[simp] theorem Block.qset_tmap (b : Block) (n : Nat) (x : Word) : (b.qset n x).tmap = b.tmap := rfl
@[simp] theorem Block.qset_rmap (b : Block) (n : Nat) (x : Word) : (b.qset n x).rmap = b.rmap := rfl
@[simp] theorem Block.qset_array (b : Block) (n : Nat) (x : Word) : (b.qset n x).array = b.array := rfl
@[simp] theorem Block.qset_bars (b : Block) (n : Nat) (x : Word) : (b.qset n x).bars = b.bars := rfl
@[simp] theorem Block.qset_rdvs (b : Block) (n : Nat) (x : Word) : (b.qset n x).rdvs = b.rdvs := rfl
@[simp] theorem Block.qset_qAt (b : Block) (n : Nat) (x : Word) : (b.qset n x).qAt = b.qAt := rfl
@[simp] theorem Block.qset_qWas (b : Block) (n : Nat) (x : Word) : (b.qset n x).qWas = b.qWas := rfl

/-! ## Reading back -/

theorem State.modWarp_warp (s : State) (w v : Nat) (f : Warp → Warp) (h : (mfind s.warps w).isSome) :
    (s.modWarp w f).warp v = if v = w then f (s.warp w) else s.warp v := mget_mmod _ _ _ _ _ h

theorem State.modWarp_warp_ne (s : State) {w v : Nat} (f : Warp → Warp) (h : v ≠ w) :
    (s.modWarp w f).warp v = s.warp v := mget_mmod_ne _ _ _ h

@[simp] theorem State.modWarp_listed (s : State) (w v : Nat) (f : Warp → Warp) :
    (mfind (s.modWarp w f).warps v).isSome = (mfind s.warps v).isSome := mfind_mmod_isSome _ _ _ _

theorem State.modBlk_blk (s : State) (b j : Nat) (f : Block → Block) (h : (mfind s.blocks b).isSome) :
    (s.modBlk b f).blk j = if j = b then f (s.blk b) else s.blk j := mget_mmod _ _ _ _ _ h

theorem State.modBlk_blk_ne (s : State) {b j : Nat} (f : Block → Block) (h : j ≠ b) :
    (s.modBlk b f).blk j = s.blk j := mget_mmod_ne _ _ _ h

theorem State.modCtx_ctx (s : State) (c j : Nat) (f : Ctx → Ctx) (h : (mfind s.ctxs c).isSome) :
    (s.modCtx c f).ctx j = if j = c then f (s.ctx c) else s.ctx j := mget_mmod _ _ _ _ _ h

theorem State.modCore_core (s : State) (k j : Nat) (f : Core → Core) :
    (s.modCore k f).core j = if j = k then f (s.core k) else s.core j := mget_mset _ _ _ _ _

theorem State.modDie_die (s : State) (d j : Nat) (f : Die → Die) :
    (s.modDie d f).die j = if j = d then f (s.die d) else s.die j := mget_mset _ _ _ _ _

/-- A lane written reads back; every other lane of every register keeps its value. -/
theorem Warp.vset_vget (w : Warp) (n l n' l' : Nat) (x : Word) :
    (w.vset n l x).vget n' l' = if 32 * n' + l' = 32 * n + l then x else w.vget n' l' := mget_mset _ _ _ _ _

theorem Warp.sset_sget (w : Warp) (n n' : Nat) (x : Word) :
    (w.sset n x).sget n' = if n' = n then x else w.sget n' := mget_mset _ _ _ _ _

/-- A predicate written reads back, but p0 stays all ones (R52). -/
theorem Warp.pset_pget (w : Warp) (n n' : Nat) (x : Mask) :
    (w.pset n x).pget n' = if n' = n ∧ n ≠ 0 then x else w.pget n' := by
  unfold Warp.pset Warp.pget
  by_cases h : n = 0
  · subst h; simp
  · by_cases h' : n' = n
    · subst h'; simp [h]
    · by_cases h0 : n' = 0
      · subst h0; simp [h, Ne.symm h]
      · simp [h, h', h0, mget_mset]

theorem Block.qput_eq (b : Block) (clk : Nat) (ws : List Nat) (n : Nat) (x : Word) :
    b.qput clk ws n x = { b with
      q := (b.qput clk ws n x).q, qMark := (b.qput clk ws n x).qMark, qWords := (b.qput clk ws n x).qWords, qAt := (b.qput clk ws n x).qAt,
      qWas := (b.qput clk ws n x).qWas } := by
  unfold Block.qput
  dsimp only
  generalize (if b.qAt = clk then b.qWas else []) = olds
  by_cases h : ws.headD 0 < b.qTop clk n
  · simp only [h, if_true]
  · simp only [h, if_false]
    rfl

/-- A block-shared register written in a clock holds the value, unless a higher-numbered warp has written it in that clock
(R55). -/
theorem Block.qput_qget (b : Block) (clk : Nat) (ws : List Nat) (n n' : Nat) (x : Word) :
    (b.qput clk ws n x).qget n' =
      if n' = n ∧ b.qTop clk n ≤ ws.headD 0 then x else b.qget n' := by
  unfold Block.qput
  dsimp only
  by_cases h : ws.headD 0 < b.qTop clk n
  · rw [if_pos h]
    exact (if_neg fun y : n' = n ∧ b.qTop clk n ≤ ws.headD 0 => Nat.not_lt.2 y.2 h).symm
  · rw [if_neg h]
    simp only [Nat.le_of_not_lt h, and_true]
    exact mget_mset _ _ _ _ _

/-- From the next clock on, a register reads as it was written last (R55). -/
theorem Block.qread_later (b : Block) {clk w n : Nat} (h : b.qAt ≠ clk) : b.qread clk w n = b.qget n := by
  simp [Block.qread, Block.qBefore, h]

theorem Block.qset_qget (b : Block) (n n' : Nat) (x : Word) :
    (b.qset n x).qget n' = if n' = n then x else b.qget n' := mget_mset _ _ _ _ _

@[simp] theorem Warp.pget_zero (w : Warp) : w.pget 0 = BitVec.allOnes 32 := rfl

end Sys2Proof.Machine
end

