-- ==== Sys2Proof/Laws/Issue.lean ====
section
/-! SUPPORT. What issuing an instruction does beside its effect: ending a run, accounting, passing the members on, the
group of a rendezvous, and the one law by which an effect reaches `exec`. -/

namespace Sys2Proof.Machine

/-! ## Warps under a fold -/

/-- Changing each member of a group in turn. -/
theorem State.foldWarps_warp (g : Grp) (F : Nat × Mask → Warp → Warp) (s : State) (hn : g.ws.Nodup)
    (hl : ∀ m ∈ g, (mfind s.warps m.1).isSome) :
    (∀ m ∈ g, (g.foldl (fun t m => t.modWarp m.1 (F m)) s).warp m.1 = F m (s.warp m.1)) ∧
    (∀ w, w ∉ g.ws → (g.foldl (fun t m => t.modWarp m.1 (F m)) s).warp w = s.warp w) := by
  induction g generalizing s with
  | nil => simp
  | cons e g ih =>
    simp only [Grp.ws, List.map_cons, List.nodup_cons] at hn
    obtain ⟨h1, h2⟩ := ih (s.modWarp e.1 (F e)) hn.2 (fun m hm => by
      simpa using hl m (List.mem_cons_of_mem _ hm))
    have hl0 := hl e (List.mem_cons_self ..)
    refine ⟨fun m hm => ?_, fun w hw => ?_⟩
    · rcases List.mem_cons.1 hm with rfl | hm
      · simp only [List.foldl_cons]
        rw [h2 _ hn.1, State.modWarp_warp _ _ _ _ hl0, if_pos rfl]
      · have hne : m.1 ≠ e.1 := fun h => hn.1 (h ▸ List.mem_map_of_mem hm)
        simp only [List.foldl_cons]
        rw [h1 m hm, State.modWarp_warp_ne _ _ hne]
    · simp only [Grp.ws, List.map_cons, List.mem_cons, not_or] at hw
      simp only [List.foldl_cons]
      rw [h2 w hw.2, State.modWarp_warp_ne _ _ hw.1]

theorem State.foldWarps_rest (g : Grp) (F : Nat × Mask → Warp → Warp) (s : State) :
    g.foldl (fun t m => t.modWarp m.1 (F m)) s =
      { s with warps := (g.foldl (fun t m => t.modWarp m.1 (F m)) s).warps } := by
  induction g generalizing s with
  | nil => rfl
  | cons e g ih =>
    simp only [List.foldl_cons]
    rw [ih]
    rfl

/-- A fold over a group changes the warps of the group, each by its own function. -/
theorem State.foldWarps (g : Grp) (F : Nat × Mask → Warp → Warp) (s : State) (hn : g.ws.Nodup)
    (hl : ∀ m ∈ g, (mfind s.warps m.1).isSome) :
    State.Warps s (g.foldl (fun t m => t.modWarp m.1 (F m)) s) g F :=
  ⟨foldWarps_rest g F s, (foldWarps_warp g F s hn hl).1, (foldWarps_warp g F s hn hl).2⟩

/-- Changing the warps of a group alike. -/
theorem State.modWarps_eq (s : State) (g : Grp) (f : Warp → Warp) :
    s.modWarps g.ws f = g.foldl (fun t m => t.modWarp m.1 f) s := by
  simp only [modWarps, Grp.ws, List.foldl_map]

theorem State.modWarps_group (g : Grp) (f : Warp → Warp) (s : State) (hn : g.ws.Nodup)
    (hl : ∀ m ∈ g, (mfind s.warps m.1).isSome) : State.Warps s (s.modWarps g.ws f) g (fun _ => f) := by
  rw [modWarps_eq]
  exact foldWarps g _ s hn hl

/-! ## The bookkeeping of runs and waits -/

theorem Warp.Kept.refl (x : Warp) : Warp.Kept x x := rfl

theorem Warp.Kept.trans {x y z : Warp} (h : Warp.Kept x y) (h' : Warp.Kept y z) : Warp.Kept x z := by
  unfold Kept at *
  rw [h] at h'
  exact h'

/-- Only the bookkeeping of the runs, waits and latencies of some warps, and of the ports and events of cores, differs. -/
structure State.Booked (ws : List Nat) (s r : State) : Prop where
  rest   : r = { s with warps := r.warps, cores := r.cores }
  core   : ∀ k, r.core k = { s.core k with parts := (r.core k).parts, events := (r.core k).events }
  warp   : ∀ v, Warp.Kept (s.warp v) (r.warp v)
  off    : ∀ v, v ∉ ws → r.warp v = s.warp v
  listed : ∀ v, (mfind r.warps v).isSome = (mfind s.warps v).isSome

theorem State.Booked.refl (ws : List Nat) (s : State) : State.Booked ws s s :=
  ⟨rfl, fun _ => rfl, fun _ => rfl, fun _ _ => rfl, fun _ => rfl⟩

theorem State.Booked.trans {ws : List Nat} {s r t : State} (h : State.Booked ws s r) (h' : State.Booked ws r t) :
    State.Booked ws s t where
  rest := by
    have e := h'.rest
    rw [h.rest] at e
    exact e
  core k := by
    have e := h'.core k
    rw [h.core k] at e
    exact e
  warp v := (h.warp v).trans (h'.warp v)
  off v hv := (h'.off v hv).trans (h.off v hv)
  listed v := (h'.listed v).trans (h.listed v)

theorem State.booked_modWarp {ws : List Nat} (s : State) (w : Nat) (f : Warp → Warp) (hw : w ∈ ws)
    (hf : ∀ x, Warp.Kept x (f x)) : State.Booked ws s (s.modWarp w f) where
  rest := rfl
  core _ := rfl
  warp v := by
    by_cases hl : (mfind s.warps w).isSome
    · rw [modWarp_warp _ _ _ _ hl]
      split
      · subst_vars; exact hf _
      · rfl
    · have e : (s.modWarp w f).warp v = s.warp v := by
        simp only [State.warp, modWarp, mmod]
        cases hm : mfind s.warps w <;> simp_all
      rw [e]
      rfl
  off v hv := modWarp_warp_ne _ _ fun h => hv (h ▸ hw)
  listed v := by simp

theorem State.booked_modWarps {ws : List Nat} (vs : List Nat) (f : Warp → Warp) (hw : ∀ v ∈ vs, v ∈ ws)
    (hf : ∀ x, Warp.Kept x (f x)) (s : State) : State.Booked ws s (s.modWarps vs f) := by
  induction vs generalizing s with
  | nil => exact .refl ..
  | cons v vs ih =>
    exact (booked_modWarp s v f (hw v (List.mem_cons_self ..)) hf).trans
      (ih (fun u hu => hw u (List.mem_cons_of_mem _ hu)) _)

theorem State.booked_modCore {ws : List Nat} (s : State) (k : Nat) (f : Core → Core)
    (hf : ∀ c, f c = { c with parts := (f c).parts, events := (f c).events }) : State.Booked ws s (s.modCore k f) := by
  refine ⟨rfl, fun j => ?_, fun _ => rfl, fun _ _ => rfl, fun _ => rfl⟩
  rw [modCore_core]
  split
  · subst_vars; exact hf _
  · rfl

theorem State.booked_endRun {ws : List Nat} (s : State) (w : Nat) (hw : w ∈ ws) : State.Booked ws s (s.endRun w) := by
  unfold endRun
  dsimp only
  refine State.Booked.trans (r := if (mget {} (s.core (s.coreOf w)).parts (s.warp w).part).run = some w then _ else s) ?_
    (booked_modWarp _ w _ hw fun _ => rfl)
  split
  · exact booked_modCore _ _ _ fun _ => rfl
  · exact .refl ..

theorem State.booked_noteMiss {ws : List Nat} (s : State) (m : Mem) (w : Nat) (hw : w ∈ ws) :
    State.Booked ws s (s.noteMiss m w) := by
  unfold noteMiss
  split
  · exact .refl ..
  · exact booked_modWarp _ _ _ hw fun _ => rfl

/-- What issuing leaves on the scoreboard of fixed latencies is bookkeeping of the group. -/
theorem State.booked_occupy {ws : List Nat} (s : State) (o : Op) (a : Args) (g : Grp) (hl : leaderOf g ∈ ws)
    (hg : ∀ v ∈ g.ws, v ∈ ws) : State.Booked ws s (s.occupy o a g) := by
  unfold occupy
  extract_lets row w n k used s1 s2
  have h1 : State.Booked ws s s1 := booked_modCore _ _ _ fun _ => rfl
  have h2 : State.Booked ws s1 (if a.fin then s1.endRun w else s1) := by
    split
    · exact booked_endRun _ _ hl
    · exact .refl ..
  refine State.Booked.trans (r := s2) ((h1.trans h2).trans ?_) ?_
  · refine booked_modWarps _ _ hg (fun x => ?_) _
    unfold Warp.Kept
    rfl
  · refine booked_modWarps _ _ (fun v hv => hg v (List.mem_filter.1 hv).1) (fun x => ?_) _
    unfold Warp.Kept
    rfl

/-- The accounting of an instruction is bookkeeping of the warp that issued it. -/
theorem State.booked_account {ws : List Nat} (s : State) (w : Nat) (a : Args) (e : Bool) (hw : w ∈ ws) :
    State.Booked ws s (s.account w a e) := by
  unfold account
  extract_lets on s1
  have h1 : State.Booked ws s s1 := by
    refine (booked_modWarp s w _ hw fun x => ?_).trans (booked_modCore _ _ _ fun _ => rfl)
    unfold Warp.Kept
    rfl
  split
  · exact h1.trans (booked_endRun _ _ hw)
  · exact h1

theorem State.endRun_rest (s : State) (w : Nat) :
    s.endRun w = { s with warps := (s.endRun w).warps, cores := (s.endRun w).cores } :=
  (booked_endRun s w (List.mem_singleton_self w)).rest

theorem Grp.leader_mem {g : Grp} {w : Nat} (h : w ∈ g.ws) : leaderOf g ∈ g.ws := by
  cases g with
  | nil => simp [Grp.ws] at h
  | cons m g => simp [leaderOf, Grp.ws]

/-! ## Completing -/

/-- An instruction that completes for a group that holds the warp that issued it. -/
theorem State.retired_pass (r : State) (g : Grp) (w : Nat) (o : Op) (a : Args) (n : Nat) (e : Bool) (m0 : Mem) (hw : w ∈ g.ws)
    (hn : g.ws.Nodup) (hl : ∀ m ∈ g, (mfind r.warps m.1).isSome) :
    State.Retired r (((((r.noteMiss m0 w).occupy o a g).pass g n).account w a e)) g.ws n := by
  have h0 : State.Booked g.ws r ((r.noteMiss m0 w).occupy o a g) :=
    (booked_noteMiss r m0 w hw).trans (booked_occupy _ o a g (Grp.leader_mem hw) fun _ h => h)
  generalize (r.noteMiss m0 w).occupy o a g = r0 at h0 ⊢
  have hl0 : ∀ m ∈ g, (mfind r0.warps m.1).isSome := fun m hm => by rw [h0.listed]; exact hl m hm
  have hp := modWarps_group g (fun x => { x.advance n with park := .none }) r0 hn hl0
  change State.Warps r0 (r0.pass g n) g _ at hp
  generalize r0.pass g n = r1 at hp ⊢
  have hb := booked_account r1 w a e hw
  generalize r1.account w a e = t at hb ⊢
  have hrest : t = { r with warps := t.warps, cores := t.cores } := by
    have e1 := hb.rest
    rw [hp.rest, h0.rest] at e1
    exact e1
  have hk : ∀ v, v ∈ g.ws → Warp.Kept { r.warp v with pc := (r.warp v).pc + BitVec.ofNat 64 n, park := .none } (t.warp v) := by
    intro v hv
    obtain ⟨m, hm, rfl⟩ := List.mem_map.1 hv
    have h1 := h0.warp m.1
    have h2 := hb.warp m.1
    rw [hp.on m hm] at h2
    refine Warp.Kept.trans ?_ h2
    unfold Warp.Kept at h1 ⊢
    rw [h1]
    rfl
  refine ⟨hrest, fun k => ?_, hk, fun v hv => ?_⟩
  · have e1 := hb.core k
    have e2 : r1.core k = r0.core k := by rw [hp.rest]; rfl
    rw [e2, h0.core k] at e1
    exact e1
  · exact (hb.off v hv).trans ((hp.off v hv).trans (h0.off v hv))

/-! ## The group -/

theorem State.trace_rest (s : State) (w k : Nat) (x : Word) :
    s.trace w k x = { s with cores := (s.trace w k x).cores } := by
  unfold trace
  simp only
  generalize (!BitVec.getLsbD _ 3 && _) = on
  cases on <;> rfl

@[simp] theorem State.trace_warps (s : State) (w k : Nat) (x : Word) : (s.trace w k x).warps = s.warps := by
  rw [trace_rest]

/-- The group of a rendezvous is the remaining members, in order; beside it at most a record of the ring is made and the
leader is given its slot. -/
theorem State.arrive_group {s : State} {w : Nat} {i : Instr} {sc : Scope} {g : Grp} (h : (s.arrive w i sc).2 = some g) :
    (∃ p : State, (p = s.trace w 8 (s.warp w).pc ∨ p = s) ∧
      ((s.arrive w i sc).1 = p ∨ (s.arrive w i sc).1 = p.grant (leaderOf g))) ∧
    g.ws = (s.liveWarps (s.warp w).blk).filter fun v =>
      (rdvRange sc (s.blk (s.warp w).blk) (s.warp w).wid).1 ≤ (s.warp v).wid &&
      (s.warp v).wid < (rdvRange sc (s.blk (s.warp w).blk) (s.warp w).wid).2 := by
  unfold arrive at h ⊢
  extract_lets x b at h
  extract_lets
  change _ ∧ g.ws = (s.liveWarps x.blk).filter fun v =>
      (rdvRange sc b x.wid).1 ≤ (s.warp v).wid && (s.warp v).wid < (rdvRange sc b x.wid).2
  generalize rdvRange sc b x.wid = q at h ⊢
  obtain ⟨lo, hi⟩ := q
  dsimp -zeta only at h ⊢
  extract_lets mine r0 arrived ms whole g0 s1 lead at h
  extract_lets
  have hs1 : s1 = s.trace w 8 (s.warp w).pc ∨ s1 = s := by
    unfold s1
    split
    · exact .inl rfl
    · exact .inr rfl
  have hg : whole = true → g0.ws = ms := by
    intro hw
    unfold whole at hw
    unfold g0
    simp only [List.all_eq_true] at hw
    clear h
    generalize ms = l at hw
    simp only [Grp.ws]
    induction l with
    | nil => rfl
    | cons v l ih =>
      have hv := hw v (List.mem_cons_self ..)
      rw [List.any_eq_true] at hv
      obtain ⟨e, he, hev⟩ := hv
      generalize hx : List.find? (fun e : Nat × Mask => e.1 == v) arrived = y
      cases y with
      | none => exact absurd hev (List.find?_eq_none.1 hx e he)
      | some y =>
        have hy : y.1 = v := by simpa using List.find?_some hx
        rw [List.filterMap_cons, hx]
        simp only [List.map_cons, hy]
        rw [ih fun u hu => hw u (List.mem_cons_of_mem _ hu)]
  split at h
  next hc =>
    rw [if_pos hc]
    simp only [Bool.and_eq_true] at hc
    simp only [Option.some.injEq] at h
    subst h
    exact ⟨⟨s1, hs1, .inl rfl⟩, hg hc.1⟩
  next hc =>
    rw [if_neg hc]
    split at h
    next hd =>
      rw [if_pos hd]
      simp only [Bool.and_eq_true] at hd
      simp only [Option.some.injEq] at h
      subst h
      exact ⟨⟨s1, hs1, .inr rfl⟩, hg hd.1.1.1⟩
    next => simp at h

theorem State.mem_liveWarps {s : State} {b w : Nat} (h : w ∈ s.liveWarps b) : (mfind s.warps w).isSome := by
  unfold liveWarps at h
  simp only [List.mem_filter] at h
  cases hf : mfind s.warps w
  · simp [hf] at h
  · rfl

theorem State.liveWarps_nodup (s : State) (b : Nat) : (s.liveWarps b).Nodup := by
  unfold liveWarps
  refine List.Nodup.filter _ (List.Nodup.map ?_ List.nodup_range)
  intro i j h
  simpa using h

/-- Where the checks before an instruction's own pass, its scope is one it may have (R24, R26). -/
theorem State.precheck_scope {s : State} {o : Op} {a : Args} {w : Nat} (h : s.precheck o a w = .ok) :
    scopeBad o (rowOf o a.func.toNat) a (s.warp w) (s.blk (s.warp w).blk) = false := by
  unfold precheck at h
  simp only at h
  split at h
  · cases h
  · split at h
    · cases h
    · split at h
      · cases h
      · split at h
        · cases h
        next hs => simpa using hs

/-- Gathering the group of an instruction that issues at most records it in the ring and gives its leader a slot. -/
theorem State.gather_eq {s : State} {o : Op} {a : Args} {g : Grp} (h : (s.gather o a).2 = some g) :
    ∃ p : State, (p = s.trace s.cur 8 (s.warp s.cur).pc ∨ p = s) ∧
      ((s.gather o a).1 = p ∨ (s.gather o a).1 = p.grant (leaderOf g)) := by
  unfold gather at h ⊢
  split at h
  next hs => rw [if_pos hs]; exact (arrive_group h).1
  next hs => rw [if_neg hs]; exact ⟨s, .inr rfl, .inl rfl⟩

theorem State.grant_rest (s : State) (w : Nat) :
    s.grant w = { s with warps := (s.grant w).warps, cores := (s.grant w).cores } := rfl

/-- What holds of the group of an instruction that issues. -/
theorem State.Issues.grp {s : State} {o : Op} {a : Args} {poison : State → Grp → Option Trap} {g : Grp}
    (h : s.Issues o a poison g) :
    g.ws.Nodup ∧ (∀ m ∈ g, (mfind s.warps m.1).isSome) ∧ s.cur ∈ g.ws := by
  obtain ⟨⟨hres, -, hret, hkey, hwid⟩, -, hp, hg, -, -, -⟩ := h
  unfold gather at hg
  split at hg
  next hs =>
    obtain ⟨-, h2⟩ := arrive_group hg
    refine ⟨?_, ?_, ?_⟩
    · rw [h2]
      exact (liveWarps_nodup _ _).filter _
    · intro m hm
      have hm' : m.1 ∈ g.ws := List.mem_map_of_mem hm
      rw [h2] at hm'
      exact mem_liveWarps (List.mem_filter.1 hm').1
    · rw [h2, List.mem_filter]
      refine ⟨?_, ?_⟩
      · unfold liveWarps
        rw [List.mem_filter]
        refine ⟨List.mem_map.2 ⟨(s.warp s.cur).wid, List.mem_range.2 hwid, hkey.symm⟩, ?_⟩
        unfold warp at hret
        rw [mget_eq_mfind] at hret
        cases hf : mfind s.warps s.cur with
        | none => simp [hf] at hres
        | some x => simpa [hf] using hret
      · unfold rdvRange
        split
        · simp only [Bool.and_eq_true, decide_eq_true_eq]
          refine ⟨Nat.div_mul_le_self _ _, Nat.lt_div_mul_add ?_⟩
          have hb := precheck_scope hp
          unfold scopeBad at hb
          simp only [Bool.or_eq_false_iff, Bool.and_eq_false_iff] at hb
          rcases hb.1.1.1.2 with h | h
          · rename_i hset
            simp [hset] at h
          · exact Nat.pos_of_ne_zero (by simpa using h)
        · simpa using hwid
  next hs =>
    simp only [Option.some.injEq] at hg
    subst hg
    simp [Grp.ws, hres]

/-! ## The effect -/

/-- A trap is taken with none of the instruction's effect but the records of the errors it met; of any other end a TLB miss is
noted. -/
def Res.undone (s : State) (m : Mem) (w : Nat) : Res → Res
  | .trap r t => .trap (s.keepErrors r) t
  | r => r.map fun t => t.noteMiss m w

/-- An instruction that issues has its effect on the state as opened: a completion, a transfer or a parking of the group
is the next state, and so is its trap on the state before it. -/
theorem State.Issues.finish {s : State} {o : Op} {a : Args} {poison : State → Grp → Option Trap} {g : Grp}
    (h : s.Issues o a poison g) (eff : State → Grp → Res) (hs : ∀ r, eff (s.opened o a g) g ≠ .stall r) :
    s.issueWith o a poison eff = State.finish s.cur g o a ((eff (s.opened o a g) g).undone (s.stood o a g) s.mem s.cur) := by
  obtain ⟨-, -, hp, hg, hb, hl, hc, hv, hbb⟩ := h
  have hm : (s.gather o a).1.mem = s.mem := by
    obtain ⟨p, hpp, e⟩ := gather_eq hg
    have hq : p.mem = s.mem := by
      rcases hpp with rfl | rfl
      · rw [trace_rest]
      · rfl
    rcases e with e | e <;> rw [e]
    · exact hq
    · exact hq
  have key : (s.gather o a).1.issueGrp o a s.cur g poison eff =
      State.finish s.cur g o a ((eff (s.opened o a g) g).undone (s.stood o a g) s.mem s.cur) := by
    unfold issueGrp
    have hsync : (a.scope == Scope.set || a.scope == Scope.block) = Args.together a := rfl
    have hst : (if Args.together a = true then (s.gather o a).1.closeRdv s.cur a.scope else (s.gather o a).1).checkWords g
        (wordRegs g o a) = s.stood o a g := by
      unfold stood gather
      cases Args.together a <;> rfl
    simp only [hsync, hb, hst, hc, hbb, hm]
    have hcv : ((rowOf o a.func.toNat).conv && (s.gather o a).1.unconverged g) = false := by
      cases hr : (rowOf o a.func.toNat).conv
      · rfl
      · simpa using hv hr
    simp only [hcv]
    change (match eff (s.opened o a g) g with
      | .stall s2 => _
      | .trap r t => _
      | r => State.finish s.cur g o a (r.map fun t => t.noteMiss s.mem s.cur)) = _
    cases he : eff (s.opened o a g) g with
    | stall r => exact absurd he (hs r)
    | _ => rfl
  unfold issueWith
  simp only [hp]
  unfold gather at hg key hl
  have hsync : (a.scope == Scope.set || a.scope == Scope.block) = Args.together a := rfl
  simp only [hsync]
  cases ht : Args.together a
  · simp only [ht] at hg key ⊢
    have hff : ¬(false = true) := by simp
    rw [if_neg hff] at hg key ⊢
    simp only [Option.some.injEq] at hg
    subst hg
    exact key
  · have hl2 := hl ht
    simp only [ht, if_true] at hg key hl2 ⊢
    generalize hA : s.arrive s.cur (Instr.ofOp o a) a.scope = A at hg key hl2 ⊢
    obtain ⟨s1, og⟩ := A
    simp only at hg
    subst hg
    dsimp only at hl2 ⊢
    rw [hl2]
    exact key

/-! ## What opening leaves -/

theorem State.trace_core (s : State) (w k : Nat) (x : Word) (j : Nat) :
    (s.trace w k x).core j = { s.core j with
      ring := ((s.trace w k x).core j).ring, head := ((s.trace w k x).core j).head,
      traceAt := ((s.trace w k x).core j).traceAt } := by
  unfold trace
  simp only
  generalize (!BitVec.getLsbD _ 3 && _) = on
  cases on
  · rfl
  · simp only [if_true, modCore_core]
    split
    · subst_vars; rfl
    · rfl

/-- What changes of a device before an instruction's own effect: a rendezvous closes and its leader may be given a slot; records of
the ring and the energy budget of a core; in the members what their tokens carried; and the register words that are read
have been checked, with the counts and reports of what that found. -/
structure State.Opened (s r : State) : Prop where
  rest  : r = { s with warps := r.warps, blocks := r.blocks, cores := r.cores, dies := r.dies }
  warp  : ∀ w, r.warp w = { s.warp w with
            floors := (r.warp w).floors, rmtFl := (r.warp w).rmtFl, batches := (r.warp w).batches
            age := (r.warp w).age, runCnt := (r.warp w).runCnt, words := (r.warp w).words
            v := (r.warp w).v, vMark := (r.warp w).vMark, s := (r.warp w).s, sMark := (r.warp w).sMark
            p := (r.warp w).p, pMark := (r.warp w).pMark }
  warps : ∀ w, (mfind r.warps w).isSome = (mfind s.warps w).isSome
  blk   : ∀ b, r.blk b = { s.blk b with
            rdvs := (r.blk b).rdvs, q := (r.blk b).q, qMark := (r.blk b).qMark, qWords := (r.blk b).qWords }
  blks  : ∀ b, (mfind r.blocks b).isSome = (mfind s.blocks b).isSome
  core  : ∀ k, r.core k = { s.core k with
            level := (r.core k).level, levelWas := (r.core k).levelWas, ring := (r.core k).ring, head := (r.core k).head,
            traceAt := (r.core k).traceAt, parts := (r.core k).parts }
  die   : ∀ d, r.die d = { s.die d with ecc := (r.die d).ecc }

theorem State.Opened.refl (s : State) : State.Opened s s := by constructor <;> intros <;> rfl

theorem State.Opened.trans {s r t : State} (h : State.Opened s r) (h' : State.Opened r t) : State.Opened s t where
  rest := by
    have e := h'.rest
    rw [h.rest] at e
    exact e
  warp w := by
    have e := h'.warp w
    rw [h.warp w] at e
    exact e
  warps w := (h'.warps w).trans (h.warps w)
  blk b := by
    have e := h'.blk b
    rw [h.blk b] at e
    exact e
  blks b := (h'.blks b).trans (h.blks b)
  core k := by
    have e := h'.core k
    rw [h.core k] at e
    exact e
  die d := by
    have e := h'.die d
    rw [h.die d] at e
    exact e

/-- What opening may change of a warp. -/
def Warp.OpenedTo (x y : Warp) : Prop :=
  y = { x with
    floors := y.floors, rmtFl := y.rmtFl, batches := y.batches, age := y.age, runCnt := y.runCnt, words := y.words
    v := y.v, vMark := y.vMark, s := y.s, sMark := y.sMark, p := y.p, pMark := y.pMark }

theorem State.opened_modWarp (s : State) (w : Nat) (f : Warp → Warp) (hf : ∀ x, Warp.OpenedTo x (f x)) :
    State.Opened s (s.modWarp w f) := by
  refine ⟨rfl, fun v => ?_, fun v => by simp, fun b => rfl, fun b => rfl, fun k => rfl, fun d => rfl⟩
  by_cases hl : (mfind s.warps w).isSome
  · rw [modWarp_warp _ _ _ _ hl]
    split
    · subst_vars; exact hf _
    · rfl
  · simp only [modWarp, mmod, warp]
    cases hm : mfind s.warps w
    · rfl
    · simp [hm] at hl

theorem State.opened_modBlk (s : State) (b : Nat) (f : Block → Block)
    (hf : ∀ x, f x = { x with rdvs := (f x).rdvs, q := (f x).q, qMark := (f x).qMark, qWords := (f x).qWords }) :
    State.Opened s (s.modBlk b f) := by
  refine ⟨rfl, fun v => rfl, fun v => rfl, fun j => ?_, fun j => mfind_mmod_isSome _ _ _ _, fun k => rfl, fun d => rfl⟩
  by_cases hl : (mfind s.blocks b).isSome
  · rw [modBlk_blk _ _ _ _ hl]
    split
    · subst_vars; exact hf _
    · rfl
  · simp only [modBlk, mmod, blk]
    cases hm : mfind s.blocks b
    · rfl
    · simp [hm] at hl

theorem State.opened_modEcc (s : State) (d : Nat) (f : EccLog → EccLog) : State.Opened s (s.modEcc d f) := by
  refine ⟨rfl, fun v => rfl, fun v => rfl, fun b => rfl, fun b => rfl, fun k => rfl, fun j => ?_⟩
  simp only [modEcc, die, mget_mset]
  split
  · subst_vars; rfl
  · rfl

theorem Warp.OpenedTo.trans {x y z : Warp} (h : Warp.OpenedTo x y) (h' : Warp.OpenedTo y z) : Warp.OpenedTo x z := by
  unfold OpenedTo at *
  rw [h] at h'
  exact h'

theorem Warp.pset_opened (x : Warp) (n : Nat) (m : Mask) (k : SMap (Option Mark)) :
    Warp.OpenedTo x { x.pset n m with pMark := k } := by
  unfold OpenedTo pset
  split <;> rfl

/-- Poison reaches the registers of the word. -/
theorem Warp.poisonWord_opened (x : Warp) (k : Nat) : Warp.OpenedTo x (x.poisonWord k) := by
  unfold poisonWord
  extract_lets p n m
  have hp : ∀ n y, Warp.OpenedTo y (p n y) := by
    intro n y
    unfold p
    split
    · rfl
    · exact pset_opened ..
  split
  · rfl
  · split
    · rfl
    · exact (hp _ _).trans (hp _ _)

/-- Checking a register word changes at most what the word holds. -/
theorem State.opened_checkWord (s : State) (w k : Nat) : State.Opened s (s.checkWord w k) := by
  unfold checkWord
  extract_lets x core
  have hd : ∀ (y : Warp) (m : SMap ColSt), Warp.OpenedTo y { y with words := m } := fun _ _ => rfl
  split
  · exact .refl s
  · exact (opened_modWarp s w _ fun _ => hd _ _).trans (opened_modEcc _ _ _)
  · exact (opened_modWarp s w _ fun y => (Warp.poisonWord_opened y k).trans (hd _ _)).trans (opened_modEcc _ _ _)

theorem State.opened_checkQ (s : State) (b n : Nat) : State.Opened s (s.checkQ b n) := by
  unfold checkQ
  extract_lets x
  split
  · exact .refl s
  · exact (opened_modBlk s b _ fun _ => rfl).trans (opened_modEcc _ _ _)
  · exact (opened_modBlk s b _ fun _ => rfl).trans (opened_modEcc _ _ _)

theorem State.Opened.foldl {α : Type} (xs : List α) (f : State → α → State) (h : ∀ s, ∀ x ∈ xs, State.Opened s (f s x)) (s : State) :
    State.Opened s (xs.foldl f s) := by
  induction xs generalizing s with
  | nil => exact .refl s
  | cons x xs ih =>
    exact (h s x (List.mem_cons_self ..)).trans (ih (fun t y hy => h t y (List.mem_cons_of_mem _ hy)) _)

theorem State.opened_checkWords (s : State) (g : Grp) (ks : List Nat × List Nat) : State.Opened s (s.checkWords g ks) := by
  unfold checkWords
  extract_lets s1 b
  have h1 : State.Opened s s1 := by
    unfold s1
    split
    · exact .refl s
    · exact .foldl _ _ (fun t w _ => .foldl _ _ (fun u k _ => opened_checkWord u w k) t) s
  split
  · exact h1
  · exact h1.trans (.foldl _ _ (fun u n _ => opened_checkQ u b n) s1)

theorem State.opened_grant (s : State) (w : Nat) : State.Opened s (s.grant w) := by
  unfold grant
  have hd : ∀ y : Warp, Warp.OpenedTo y { y with age := 0, runCnt := 0 } := fun _ => rfl
  refine (opened_modWarp s w _ hd).trans ⟨rfl, fun v => rfl, fun v => rfl, fun b => rfl, fun b => rfl, fun k => ?_, fun d => rfl⟩
  rw [modCore_core]
  split
  · subst_vars; rfl
  · rfl

theorem Warp.tokenRead_eq (x : Warp) (n : Nat) :
    x.tokenRead n = { x with
      floors := (x.tokenRead n).floors, rmtFl := (x.tokenRead n).rmtFl, batches := (x.tokenRead n).batches } := by
  unfold tokenRead
  generalize List.filter _ x.batches = bs
  induction bs generalizing x with
  | nil => rfl
  | cons b bs ih =>
    simp only [List.foldl_cons]
    rw [ih]

theorem Warp.tokenRead_opened (x : Warp) (n : Nat) : Warp.OpenedTo x (x.tokenRead n) := by
  have e := Warp.tokenRead_eq x n
  unfold OpenedTo
  generalize x.tokenRead n = y at e ⊢
  generalize y.floors = p at e
  generalize y.rmtFl = q at e
  generalize y.batches = r at e
  subst e
  rfl

theorem State.opened_readTokens (s : State) (g : Grp) (rs : List Nat) : State.Opened s (s.readTokens g rs) := by
  unfold readTokens
  induction rs generalizing s with
  | nil => exact .refl s
  | cons e rs ih => exact .trans (opened_modWarp _ _ _ fun x => Warp.tokenRead_opened x _) (ih _)

theorem Core.charge_eq (c : Core) (clk k : Nat) :
    c.charge clk k = { c with level := (c.charge clk k).level, levelWas := (c.charge clk k).levelWas } := by
  unfold charge
  split
  · split <;> rfl
  · rfl

theorem State.opened_charge (s : State) (w : Nat) (e : BitVec 2) : State.Opened s (s.chargeBudget w e) := by
  unfold chargeBudget
  simp only
  split
  · exact .refl s
  · refine ⟨rfl, fun v => rfl, fun v => rfl, fun b => rfl, fun b => rfl, fun k => ?_, fun d => rfl⟩
    rw [modCore_core]
    split
    · subst_vars
      have e := Core.charge_eq (s.core (s.coreOf w)) s.clock (ecCost e)
      generalize (s.core (s.coreOf w)).charge s.clock _ = y at e ⊢
      generalize y.level = p at e
      generalize y.levelWas = q at e
      subst e
      rfl
    · rfl

theorem State.opened_trace (s : State) (w k : Nat) (x : Word) : State.Opened s (s.trace w k x) := by
  refine ⟨?_, fun v => ?_, fun v => by simp, fun b => ?_, fun b => ?_, fun j => ?_, fun d => ?_⟩
  · rw [trace_rest]
  · rw [trace_rest]; rfl
  · rw [trace_rest]; rfl
  · rw [trace_rest]
  · have e := trace_core s w k x j
    have hl : ((s.trace w k x).core j).level = (s.core j).level := by rw [e]
    have hw : ((s.trace w k x).core j).levelWas = (s.core j).levelWas := by rw [e]
    have hp : ((s.trace w k x).core j).parts = (s.core j).parts := by rw [e]
    rw [hl, hw, hp]
    exact e
  · rw [trace_rest]; rfl

theorem State.opened_closeRdv (s : State) (w : Nat) (sc : Scope) : State.Opened s (s.closeRdv w sc) := by
  unfold closeRdv
  extract_lets x
  exact opened_modBlk _ _ _ fun _ => rfl

/-- What changes before the effect of an instruction that issues. -/
theorem State.Issues.opened {s : State} {o : Op} {a : Args} {poison : State → Grp → Option Trap} {g : Grp}
    (h : s.Issues o a poison g) : State.Opened s (s.opened o a g) := by
  unfold State.opened
  refine .trans (.trans ?_ (opened_charge _ _ _)) (opened_readTokens _ _ _)
  unfold stood
  refine .trans ?_ (opened_checkWords _ _ _)
  split
  · refine .trans ?_ (opened_closeRdv _ _ _)
    obtain ⟨p, hp, e⟩ := gather_eq h.group
    have hq : State.Opened s p := by
      rcases hp with rfl | rfl
      · exact opened_trace _ _ _ _
      · exact .refl _
    rcases e with e | e <;> rw [e]
    · exact hq
    · exact hq.trans (opened_grant _ _)
  · exact .refl s

/-- A transfer of control of a warp that issues alone, and the accounting of its instruction. -/
theorem State.jumped_account (r : State) (w : Nat) (e : Mask) (p : Word) (o : Op) (a : Args) (m : Mem)
    (h : (mfind r.warps w).isSome) :
    State.Jumped r ((((r.jump w p).noteMiss m w).occupy o a [(w, e)]).account w a false) w p := by
  unfold jump
  have h1 := trace_rest r w 1 p
  have h2 := trace_core r w 1 p
  generalize r.trace w 1 p = s1 at h1 h2 ⊢
  have hl : (mfind s1.warps w).isSome := by rw [h1]; exact h
  have hw := modWarp_warp s1 w w (fun x => { x with pc := p }) hl
  have hwn := fun v (hv : v ≠ w) => modWarp_warp_ne s1 (fun x : Warp => { x with pc := p }) hv
  have hr : s1.modWarp w (fun x => { x with pc := p }) =
      { s1 with warps := (s1.modWarp w (fun x => { x with pc := p })).warps } := rfl
  generalize s1.modWarp w (fun x => { x with pc := p }) = s2 at hw hwn hr ⊢
  have hm : w ∈ [w] := List.mem_singleton_self w
  have hb := (((booked_endRun s2 w hm).trans (booked_noteMiss _ m w hm)).trans
    (booked_occupy _ o a [(w, e)] hm fun _ hv => hv)).trans (booked_account _ w a false hm)
  generalize State.account _ w a false = t at hb ⊢
  have he : ∀ v, s1.warp v = r.warp v := by rw [h1]; intro v; rfl
  refine ⟨?_, fun k => ?_, ?_, fun v hv => ?_⟩
  · have e1 := hb.rest
    rw [hr, h1] at e1
    rw [e1]
  · have e1 := hb.core k
    have es : s2.core k = s1.core k := by rw [hr]; rfl
    rw [es, h2 k] at e1
    change t.core k = { r.core k with
      parts := (t.core k).parts, events := (t.core k).events, ring := (t.core k).ring, head := (t.core k).head
      traceAt := (t.core k).traceAt }
    generalize t.core k = z at e1 ⊢
    generalize (s1.core k).ring = q1 at e1
    generalize (s1.core k).head = q2 at e1
    generalize (s1.core k).traceAt = q3 at e1
    generalize z.parts = q4 at e1
    generalize z.events = q5 at e1
    subst e1
    rfl
  · have e1 := hb.warp w
    rw [hw, if_pos rfl, he] at e1
    exact e1
  · exact (hb.off v (by simpa using hv)).trans ((hwn v hv).trans (he v))

/-- An instruction that issues and whose effect moves control. -/
theorem State.Issues.moves {s r : State} {o : Op} {a : Args} {poison : State → Grp → Option Trap} {g : Grp}
    (h : s.Issues o a poison g) (eff : State → Grp → Res) (he : eff (s.opened o a g) g = .moved r) :
    s.issueWith o a poison eff = State.finish s.cur g o a (.moved (r.noteMiss s.mem s.cur)) := by
  rw [h.finish eff (by simp [he]), he]
  rfl

/-- An instruction that issues and whose own check fails: its trap, with none of its effect but the records of the errors that it
met (R346, R373). -/
theorem State.Issues.traps {s r : State} {o : Op} {a : Args} {poison : State → Grp → Option Trap} {g : Grp} {x : Trap}
    (h : s.Issues o a poison g) (eff : State → Grp → Res) (he : eff (s.opened o a g) g = .trap r x) :
    s.issueWith o a poison eff = State.finish s.cur g o a (.trap ((s.stood o a g).keepErrors r) x) := by
  rw [h.finish eff (by simp [he]), he]
  rfl

/-- An instruction that issues and whose effect completes retires its group. -/
theorem State.Issues.retires {s r : State} {o : Op} {a : Args} {poison : State → Grp → Option Trap} {g : Grp}
    (h : s.Issues o a poison g) (eff : State → Grp → Res) (he : eff (s.opened o a g) g = .next r)
    (hl : ∀ w, (mfind r.warps w).isSome = (mfind (s.opened o a g).warps w).isSome) :
    State.Retired r (s.issueWith o a poison eff) g.ws (argBytes a) := by
  obtain ⟨hn, hr, hc⟩ := h.grp
  rw [h.finish eff (by simp [he]), he]
  refine retired_pass r g s.cur o a _ false s.mem hc hn fun m hm => ?_
  rw [hl, h.opened.warps]
  exact hr m hm

end Sys2Proof.Machine
end

