-- ==== Sys2Proof/Laws/Lanes.lean ====
section
/-! SUPPORT. What the shared operations over lanes do: writing lanes, scalars and predicates. -/

namespace Sys2Proof.Machine

/-! ## Lanes of one warp -/

theorem mem_lanesOf {m : Mask} {l : Nat} : l ∈ lanesOf m ↔ l < 32 ∧ m.getLsbD l = true := by
  simp [lanesOf]

theorem lanesOf_nodup (m : Mask) : (lanesOf m).Nodup := List.nodup_range.filter _

theorem Warp.writeLanes_rest (w : Warp) (d : Nat) (ls : List Nat) (f : Nat → Word × Nat) :
    w.writeLanes d ls f = { w with
      v := (w.writeLanes d ls f).v, vMark := (w.writeLanes d ls f).vMark, words := (w.writeLanes d ls f).words,
      ovf := ls.foldl (fun x l => x ||| BitVec.ofNat 64 (f l).2) w.ovf } := by
  unfold writeLanes
  induction ls generalizing w with
  | nil => rfl
  | cons l ls ih =>
    simp only [List.foldl_cons]
    rw [ih]
    rfl

theorem Warp.writeLanes_vget (w : Warp) (d : Nat) (ls : List Nat) (f : Nat → Word × Nat) (n l : Nat) (hl : l < 32)
    (h : ∀ k ∈ ls, k < 32) :
    (w.writeLanes d ls f).vget n l = if n = d ∧ l ∈ ls then (f l).1 else w.vget n l := by
  unfold writeLanes
  induction ls generalizing w with
  | nil => simp
  | cons k ls ih =>
    simp only [List.foldl_cons]
    rw [ih _ fun j hj => h j (List.mem_cons_of_mem _ hj)]
    have hk := h k (List.mem_cons_self ..)
    change (if n = d ∧ l ∈ ls then (f l).1 else (w.vset d k (f k).1).vget n l) = _
    rw [vset_vget]
    by_cases hn : n = d
    · subst hn
      by_cases hm : l ∈ ls
      · simp [hm]
      · by_cases hlk : l = k
        · subst hlk; simp
        · simp [hm, hlk]
    · have : 32 * n + l ≠ 32 * d + k := by omega
      simp [hn, this]

theorem foldl_or_init (ls : List Nat) (f : Nat → Word) (x : Word) :
    ls.foldl (fun y l => y ||| f l) x = x ||| ls.foldl (fun y l => y ||| f l) 0 := by
  induction ls generalizing x with
  | nil => simp
  | cons l ls ih =>
    simp only [List.foldl_cons]
    rw [ih (x ||| f l), ih (0 ||| f l)]
    simp [BitVec.or_assoc]

theorem State.actedOf_lt {s : State} {a : Args} {m : Nat × Mask} : ∀ k ∈ s.actedOf a m, k < 32 := by
  intro k hk
  exact (mem_lanesOf.1 hk).1

/-! ## Elementwise instructions -/

/-- The members and their block, as `Issues` gives them for the opened state. -/
structure State.GrpOk (s : State) (g : Grp) : Prop where
  nodup  : g.ws.Nodup
  listed : ∀ m ∈ g, (mfind s.warps m.1).isSome
  block  : (mfind s.blocks (s.warp (leaderOf g)).blk).isSome

/-- Writing lanes of every member. -/
theorem State.writeLanes_wrote (s : State) (g : Grp) (a : Args) (on : Nat × Mask → List Nat) (F : Nat × Mask → Nat → Word × Nat)
    (h : s.GrpOk g) (hon : ∀ m, ∀ k ∈ on m, k < 32) (f : Nat → Nat → Word)
    (hf : ∀ m ∈ g, ∀ l, (F m l).1 = f m.1 l) :
    State.WroteD s (g.foldl (fun t m => t.modWarp m.1 fun w => w.writeLanes a.d.toNat (on m) (F m)) s) a true g on f
      (fun m => (on m).foldl (fun x l => x ||| BitVec.ofNat 64 (F m l).2) 0) := by
  obtain ⟨h1, h2, h3⟩ := foldWarps g (fun m w => w.writeLanes a.d.toNat (on m) (F m)) s h.nodup h.listed
  refine ⟨?_, ?_, h3, ?_, ?_, ?_, ?_⟩
  · rw [h1]
  · intro m hm
    rw [h2 m hm, Warp.writeLanes_rest, foldl_or_init _ (fun l => BitVec.ofNat 64 (F m l).2)]
  · intro m hm n l hl
    rw [h2 m hm, Warp.writeLanes_vget _ _ _ _ _ _ hl (hon m), hf m hm]
    simp
  · intro m hm n
    rw [h2 m hm, Warp.writeLanes_rest]
    simp [Warp.sget]
  · intro b
    rw [h1]
    rfl
  · intro b n
    rw [h1]
    simp
    rfl

/-- The warps of a state whose blocks changed. -/
@[simp] theorem State.blocks_warp (s : State) (b : SMap Block) (w : Nat) : ({ s with blocks := b }).warp w = s.warp w := rfl

@[simp] theorem State.warps_blk (s : State) (x : SMap Warp) (b : Nat) : ({ s with warps := x }).blk b = s.blk b := rfl

@[simp] theorem State.modWarps_listed (s : State) (ws : List Nat) (f : Warp → Warp) (v : Nat) :
    (mfind (s.modWarps ws f).warps v).isSome = (mfind s.warps v).isSome := by
  unfold modWarps
  induction ws generalizing s with
  | nil => rfl
  | cons w ws ih => simp only [List.foldl_cons, ih, modWarp_listed]

@[simp] theorem State.foldWarps_listed (s : State) (g : Grp) (F : Nat × Mask → Warp → Warp) (v : Nat) :
    (mfind (g.foldl (fun t m => t.modWarp m.1 (F m)) s).warps v).isSome = (mfind s.warps v).isSome := by
  induction g generalizing s with
  | nil => rfl
  | cons m g ih => simp only [List.foldl_cons, ih, modWarp_listed]

/-- Flags set in every member after a result is written. -/
theorem State.WroteD.flags {s r : State} {a : Args} {vec : Bool} {g : Grp} {on : Nat × Mask → List Nat}
    {f : Nat → Nat → Word} (h : State.WroteD s r a vec g on f (fun _ => 0)) (hg : r.GrpOk g) (x : Nat) :
    State.WroteD s (r.modWarps g.ws fun w => w.setFlags x) a vec g on f (fun _ => BitVec.ofNat 64 x) := by
  obtain ⟨k1, k2, k3⟩ := modWarps_group g (fun w => w.setFlags x) r hg.nodup hg.listed
  obtain ⟨h1, h2, h3, h4, h5, h6, h7⟩ := h
  refine ⟨?_, fun m hm => ?_, fun w hw => (k3 w hw).trans (h3 w hw), fun m hm n l hl => ?_, fun m hm n => ?_,
    fun b => ?_, fun b n => ?_⟩
  · rw [k1, h1]
  · have e := h2 m hm
    rw [k2 m hm]
    generalize r.warp m.1 = y at e ⊢
    have ho : y.ovf = (s.warp m.1).ovf := by rw [e]; simp
    rw [← ho]
    unfold Warp.setFlags
    rw [e]
  · rw [k2 m hm]; exact h4 m hm n l hl
  · rw [k2 m hm]; exact h5 m hm n
  · rw [k1]; exact h6 b
  · rw [k1]; exact h7 b n

theorem Grp.ws_head (g : Grp) : g.ws.headD 0 = leaderOf g := by cases g <;> rfl

/-- Writing the scalar destination. -/
theorem State.setScalar_only (s : State) (g : Grp) (a : Args) (on : Nat × Mask → List Nat) (x : Word) (h : s.GrpOk g)
    (f : Nat → Nat → Word) (hf : f (leaderOf g) 0 = x) :
    State.WroteD s (s.setScalar g a.kd a.d.toNat x) a false g on f (fun _ => 0) := by
  subst hf
  by_cases hk : a.kd = .s
  · simp only [hk, setScalar]
    obtain ⟨h1, h2, h3⟩ := modWarps_group g (fun w => w.sset a.d.toNat (f (leaderOf g) 0)) s h.nodup h.listed
    generalize s.modWarps g.ws (fun w => w.sset a.d.toNat (f (leaderOf g) 0)) = r at h1 h2 h3 ⊢
    refine ⟨?_, fun m hm => ?_, h3, fun m hm n l _ => ?_, fun m hm n => ?_, fun b => ?_, fun b n => ?_⟩
    · rw [h1]
    · rw [h2 m hm]
      simp [Warp.sset]
    · rw [h2 m hm]
      simp [Warp.vget]
    · rw [h2 m hm]
      simp only [hk, true_and]
      exact Warp.sset_sget _ _ _ _
    · rw [h1]; rfl
    · rw [h1]
      simp [hk]
  · by_cases hq : a.kd = .q
    · simp only [hq, setScalar]
      have hb := fun j => modBlk_blk s (s.warp (leaderOf g)).blk j (fun b => b.qput s.clock g.ws a.d.toNat (f (leaderOf g) 0)) h.block
      refine ⟨rfl, fun m hm => ?_, fun w _ => rfl, fun m hm n l _ => ?_, fun m hm n => ?_, fun b => ?_, fun b n => ?_⟩
      · simp
      · simp
      · simp [hq]
      · rw [hb]
        split
        · subst_vars; exact Block.qput_eq ..
        · rfl
      · simp only [hq, true_and]
        rw [hb]
        split
        · subst_vars
          rw [Block.qput_qget, Grp.ws_head]
          by_cases hn : n = a.d.toNat <;> simp [hn]
        · simp [*]
    · have e : s.setScalar g a.kd a.d.toNat (f (leaderOf g) 0) = s := by
        cases ha : a.kd <;> simp_all [setScalar]
      rw [e]
      refine ⟨rfl, fun m hm => ?_, fun w _ => rfl, fun m hm n l _ => ?_, fun m hm n => ?_, fun b => rfl, fun b n => ?_⟩
      · simp
      · simp
      · simp [hk]
      · simp [hq]

theorem State.setScalar_listed (s : State) (g : Grp) (k : Kind) (n : Nat) (x : Word) (v : Nat) :
    (mfind (s.setScalar g k n x).warps v).isSome = (mfind s.warps v).isSome := by
  unfold setScalar
  split
  · simp
  · rfl
  · rfl

/-- The group stands as before after its destination is written. -/
theorem State.WroteD.grpOk {s r : State} {a : Args} {vec : Bool} {g : Grp} {on : Nat × Mask → List Nat}
    {f : Nat → Nat → Word} {fl : Nat × Mask → Word} (h : State.WroteD s r a vec g on f fl) (hg : s.GrpOk g)
    (hw : ∀ v, (mfind r.warps v).isSome = (mfind s.warps v).isSome)
    (hb : ∀ v, (mfind r.blocks v).isSome = (mfind s.blocks v).isSome) : r.GrpOk g := by
  refine ⟨hg.nodup, fun m hm => by rw [hw]; exact hg.listed m hm, ?_⟩
  rw [hb]
  have : (r.warp (leaderOf g)).blk = (s.warp (leaderOf g)).blk := by
    cases g with
    | nil => rw [h.off _ (by simp [Grp.ws])]
    | cons m g =>
      change (r.warp m.1).blk = (s.warp m.1).blk
      rw [h.warp m (List.mem_cons_self ..)]
  rw [this]
  exact hg.block

theorem State.setScalar_blocks (s : State) (g : Grp) (k : Kind) (n : Nat) (x : Word) (v : Nat) :
    (mfind (s.setScalar g k n x).blocks v).isSome = (mfind s.blocks v).isSome := by
  unfold setScalar
  split
  · rw [modWarps_eq, foldWarps_rest]
  · exact mfind_mmod_isSome _ _ _ _
  · rfl

/-- Writing the scalar destination, and flags. -/
theorem State.setScalar_wrote (s : State) (g : Grp) (a : Args) (on : Nat × Mask → List Nat) (x : Word) (fl : Nat) (h : s.GrpOk g)
    (f : Nat → Nat → Word) (hf : f (leaderOf g) 0 = x) :
    State.WroteD s ((s.setScalar g a.kd a.d.toNat x).modWarps g.ws fun w => w.setFlags fl) a false g on f
      (fun _ => BitVec.ofNat 64 fl) := by
  have h1 := setScalar_only s g a on x h f hf
  exact h1.flags (h1.grpOk h (setScalar_listed s g _ _ _) (setScalar_blocks s g _ _ _)) fl

/-- An elementwise instruction writes its destination from a function of each lane's operands (R6, R27, R28). -/
theorem State.elementwise_wrote (s : State) (g : Grp) (a : Args) (sa sb sc : Src) (F : LaneIn → Word × Nat)
    (h : s.GrpOk g) :
    State.WroteD s (s.elementwise g a sa sb sc F) a (Args.vec a) g (s.actedOf a)
      (fun m l => (F (s.laneIn a sa sb sc (leaderOf g) m l)).1)
      (fun m => flagsOf a (s.actedOf a m) fun l =>
        (F (s.laneIn a sa sb sc (leaderOf g) (if a.scope = .warp then leaderOf g else m.1) l)).2) := by
  unfold elementwise
  simp only
  split
  next hs =>
    have := setScalar_wrote s g a (s.actedOf a) (F (s.laneIn a sa sb sc (leaderOf g) (leaderOf g) 0)).1
      (F (s.laneIn a sa sb sc (leaderOf g) (leaderOf g) 0)).2 h
      (fun m l => (F (s.laneIn a sa sb sc (leaderOf g) m l)).1) rfl
    simpa [flagsOf, hs, Args.vec] using this
  next hs =>
    have hv : Args.vec a = true := by simpa [Args.vec] using hs
    have := writeLanes_wrote s g a (s.actedOf a) (fun m l => F (s.laneIn a sa sb sc (leaderOf g) m.1 l)) h
      (fun m => actedOf_lt) (fun m l => (F (s.laneIn a sa sb sc (leaderOf g) m l)).1) (fun _ _ _ => rfl)
    simpa [flagsOf, hs, hv] using this

theorem State.elementwise_listed (s : State) (g : Grp) (a : Args) (sa sb sc : Src) (F : LaneIn → Word × Nat) (v : Nat) :
    (mfind (s.elementwise g a sa sb sc F).warps v).isSome = (mfind s.warps v).isSome := by
  unfold elementwise
  simp only
  split
  · rw [modWarps_listed]
    unfold setScalar
    split
    · simp
    · rfl
    · rfl
  · exact foldWarps_listed s g (fun m w => w.writeLanes a.d.toNat (s.actedOf a m) fun l =>
      F (s.laneIn a sa sb sc (leaderOf g) m.1 l)) v

/-- The group of an instruction that issues, in the state that its effect sees. -/
theorem State.Issues.grpOk {s : State} {o : Op} {a : Args} {poison : State → Grp → Option Trap} {g : Grp}
    (h : s.Issues o a poison g) : (s.opened o a g).GrpOk g := by
  obtain ⟨hn, hr, hc⟩ := h.grp
  have ho := h.opened
  refine ⟨hn, fun m hm => by rw [ho.warps]; exact hr m hm, ?_⟩
  rw [ho.blks, ho.warp]
  exact (h.home _ (Grp.leader_mem hc)).block

/-! ## Predicates -/

/-- Writing a predicate, and flags, in every member. -/
theorem State.pset_wrote (s : State) (g : Grp) (d : Nat) (pv : Nat × Mask → Warp → Mask) (fl : Nat × Mask → Nat)
    (h : s.GrpOk g) :
    State.WroteP s (g.foldl (fun t m => t.modWarp m.1 fun w => (w.pset d (pv m w)).setFlags (fl m)) s) d g
      (fun m => pv m (s.warp m.1)) (fun m => BitVec.ofNat 64 (fl m)) := by
  obtain ⟨h1, h2, h3⟩ := foldWarps g (fun m w => (w.pset d (pv m w)).setFlags (fl m)) s h.nodup h.listed
  refine ⟨h1, fun m hm => ?_, h3, fun m hm n => ?_⟩
  · rw [h2 m hm]
    unfold Warp.pset Warp.setFlags
    split <;> rfl
  · rw [h2 m hm]
    exact Warp.pset_pget _ _ _ _

/-- Bits of a predicate after lanes of it are written. -/
theorem pred_bits (x : Mask) (ls : List Nat) (r : Nat → Bool) (j : Nat) (hj : j < 32) (h : ∀ k ∈ ls, k < 32) :
    ((x &&& ~~~maskOf ls) ||| maskOf (ls.filter r)).getLsbD j = if j ∈ ls then r j else x.getLsbD j := by
  have hm : ∀ ls : List Nat, (∀ k ∈ ls, k < 32) → (maskOf ls).getLsbD j = decide (j ∈ ls) := by
    intro ls h
    have : ∀ (ls : List Nat) (m : Mask), (∀ k ∈ ls, k < 32) →
        (ls.foldl (fun (m : Mask) (l : Nat) => m ||| (1 <<< l)) m).getLsbD j = (m.getLsbD j || decide (j ∈ ls)) := by
      intro ls
      induction ls with
      | nil => simp
      | cons l ls ih =>
        intro m h
        simp only [List.foldl_cons]
        rw [ih _ fun k hk => h k (List.mem_cons_of_mem _ hk)]
        have hl := h l (List.mem_cons_self ..)
        have hb : (((1 <<< l : Nat) : Mask)).getLsbD j = decide (j = l) := by
          change (BitVec.ofNat 32 (1 <<< l)).getLsbD j = _
          rw [BitVec.getLsbD_ofNat, Nat.one_shiftLeft, Nat.testBit_two_pow]
          simp [hj, eq_comm]
        rw [BitVec.getLsbD_or, hb]
        by_cases e : j = l <;> simp [e]
    simpa [maskOf] using this ls 0 h
  have hf : ∀ k ∈ ls.filter r, k < 32 := fun k hk => h k (List.mem_filter.1 hk).1
  rw [BitVec.getLsbD_or, BitVec.getLsbD_and, BitVec.getLsbD_not, hm ls h, hm _ hf]
  by_cases hjl : j ∈ ls <;> simp [hjl, hj]

/-- A comparison writes the lanes acted on of pD, or all of it at warp scope (R112, R133). -/
theorem State.predwise_wrote (s : State) (g : Grp) (a : Args) (sa sb : Src) (F : LaneIn → Bool × Nat) (h : s.GrpOk g) :
    ∃ pv fl, State.WroteP s (s.predwise g a sa sb F) a.d.toNat g pv fl ∧
      (a.scope = .warp → ∀ m ∈ g,
        pv m = (if (F (s.laneIn a sa sb ⟨.x, 0, 0⟩ (leaderOf g) (leaderOf g) 0)).1 then BitVec.allOnes 32 else 0) ∧
        fl m = BitVec.ofNat 64 (F (s.laneIn a sa sb ⟨.x, 0, 0⟩ (leaderOf g) (leaderOf g) 0)).2) ∧
      (a.scope ≠ .warp → ∀ m ∈ g,
        (∀ j < 32, (pv m).getLsbD j = if j ∈ s.actedOf a m then (F (s.laneIn a sa sb ⟨.x, 0, 0⟩ (leaderOf g) m.1 j)).1
          else ((s.warp m.1).pget a.d.toNat).getLsbD j) ∧
        fl m = BitVec.ofNat 64 ((s.actedOf a m).foldl
          (fun acc l => acc ||| (F (s.laneIn a sa sb ⟨.x, 0, 0⟩ (leaderOf g) m.1 l)).2) 0)) := by
  unfold predwise
  simp only
  split
  next hs =>
    rw [modWarps_eq]
    exact ⟨_, _, pset_wrote s g _ (fun _ _ => _) (fun _ => _) h, fun _ m _ => ⟨rfl, rfl⟩, fun hn => absurd hs hn⟩
  next hs =>
    refine ⟨_, _, pset_wrote s g a.d.toNat
      (fun m w => (w.pget a.d.toNat &&& ~~~maskOf (s.actedOf a m)) |||
        maskOf ((s.actedOf a m).filter fun l => (F (s.laneIn a sa sb ⟨.x, 0, 0⟩ (leaderOf g) m.1 l)).1))
      (fun m => (s.actedOf a m).foldl
        (fun acc l => acc ||| (F (s.laneIn a sa sb ⟨.x, 0, 0⟩ (leaderOf g) m.1 l)).2) 0) h,
      fun hn => absurd hn hs, fun _ m _ => ⟨fun j hj => ?_, rfl⟩⟩
    exact pred_bits _ _ _ j hj actedOf_lt

@[simp] theorem flagsOf_zero (a : Args) (ls : List Nat) : flagsOf a ls (fun _ => 0) = 0 := by
  unfold flagsOf
  split
  · rfl
  · induction ls with
    | nil => rfl
    | cons l ls ih => simp

/-- An elementwise instruction completes wherever it issues, with the function of each lane's operands as its result. -/
theorem State.Issues.elementwise {s : State} {o : Op} {a : Args} {g : Grp} (h : s.IssuesPlain o a g) (sa sb sc : Src)
    (F : LaneIn → Word × Nat) (eff : State → Grp → Res)
    (he : ∀ s g, eff s g = .next (s.elementwise g a sa sb sc F)) (i : Instr) (hi : exec i s = s.issue o a eff) :
    ∃ r, Completes i a g s r ∧
      State.WroteD (s.opened o a g) r a (Args.vec a) g ((s.opened o a g).actedOf a)
        (fun m l => (F ((s.opened o a g).laneIn a sa sb sc (leaderOf g) m l)).1)
        (fun m => flagsOf a ((s.opened o a g).actedOf a m) fun l =>
          (F ((s.opened o a g).laneIn a sa sb sc (leaderOf g) (if a.scope = .warp then leaderOf g else m.1) l)).2) := by
  refine ⟨_, ⟨_, hi, h.retires eff (he _ _) fun w => elementwise_listed _ _ _ _ _ _ _ _⟩, ?_⟩
  exact elementwise_wrote _ _ _ _ _ _ _ h.grpOk

end Sys2Proof.Machine
end

