-- ==== Sys2Proof/Laws/Control.lean ====
section
/-! SUPPORT. What control instructions rest on: transfers, the token stack and settling. -/

namespace Sys2Proof.Machine

@[simp] theorem State.leaderOf_alone (s : State) : leaderOf s.alone = s.cur := rfl

/-- The warp of an instruction that issues alone is listed in the opened state. -/
theorem State.Issues.listed {s : State} {o : Op} {a : Args} {poison : State → Grp → Option Trap} {g : Grp}
    (h : s.Issues o a poison g) : (mfind (s.opened o a g).warps s.cur).isSome := by
  rw [h.opened.warps]
  exact h.placed.listed

theorem misaligned_none {p : Word} (h : p &&& 3 = 0) : misaligned p = none := if_neg (not_not.2 h)

theorem misaligned_some {p : Word} (h : p &&& 3 ≠ 0) : misaligned p = some ⟨0x12, 0, p⟩ := if_pos h

/-- A transfer to an aligned address moves control there (R62). -/
theorem State.Issues.jumps {s r : State} {o : Op} {a : Args} {poison : State → Grp → Option Trap} {p : Word}
    (h : s.Issues o a poison s.alone) (eff : State → Grp → Res) (he : eff (s.opened o a s.alone) s.alone = r.jumpRes s.cur p)
    (hp : p &&& 3 = 0) (hl : (mfind r.warps s.cur).isSome) :
    State.Jumped r (s.issueWith o a poison eff) s.cur p := by
  have e : eff (s.opened o a s.alone) s.alone = .moved (r.jump s.cur p) := by
    rw [he]
    unfold jumpRes
    rw [misaligned_none hp]
  rw [h.moves eff e]
  exact jumped_account r s.cur _ p o a s.mem hl

theorem mins_mins {α : Type} (m : SMap α) (k : Nat) (x y : α) : mins (mins m k x) k y = mins m k y := by
  induction m with
  | nil => simp [mins]
  | cons e m ih =>
    obtain ⟨j, z⟩ := e
    simp only [mins]
    split
    · simp [mins]
    · split
      · simp [mins]
      · simp only [mins]
        rw [if_neg ‹_›, if_neg ‹_›, ih]

/-- Pushing a token onto a stack that has room (R40, R343). -/
theorem State.pushTok_room (s : State) (w : Nat) (k : Token)
    (h : (s.warp w).toks.length < if (s.warp w).inHandler then 16 else 32) :
    s.pushTok w k = (s.modWarp w fun y => { y with toks := k :: y.toks }, none) := by
  unfold pushTok
  simp only
  split at h
  next hh => rw [if_pos hh, if_neg (by omega)]
  next hh => rw [if_neg hh, if_pos h]

end Sys2Proof.Machine
end

