-- ==== Sys2Proof/Laws/Cross.lean ====
section
/-! SUPPORT. What the cross-lane and predicate operations do. -/

namespace Sys2Proof.Machine

/-- A lane written whole, or in part. -/
def putValue (sub : BitVec 4) (old x : Word) : Word :=
  match subElem sub with
  | none => x
  | some (w, i) => setElem old w i (x.toNat % 2 ^ w)

theorem Warp.putLane_rest (w : Warp) (sub : BitVec 4) (d l : Nat) (x : Word) :
    w.putLane sub d l x = { w with v := (w.putLane sub d l x).v, vMark := (w.putLane sub d l x).vMark, words := (w.putLane sub d l x).words } := by
  unfold putLane
  split <;> rfl

theorem Warp.putLane_vget (w : Warp) (sub : BitVec 4) (d l : Nat) (x : Word) (n k : Nat) (hl : l < 32) (hk : k < 32) :
    (w.putLane sub d l x).vget n k = if n = d ∧ k = l then putValue sub (w.vget d l) x else w.vget n k := by
  have hc : (32 * n + k = 32 * d + l) ↔ (n = d ∧ k = l) := by omega
  unfold putLane putValue
  cases subElem sub
  · simp only [vset_vget, hc]
  · change mget 0 (mset 0 w.v (32 * d + l) _) (32 * n + k) = _
    rw [mget_mset]
    simp only [hc]
    rfl

theorem Warp.putLanes_rest (sub : BitVec 4) (d : Nat) (f : Nat → Word) (ls : List Nat) (w : Warp) :
    ls.foldl (fun w l => w.putLane sub d l (f l)) w = { w with
      v := (ls.foldl (fun w l => w.putLane sub d l (f l)) w).v,
      vMark := (ls.foldl (fun w l => w.putLane sub d l (f l)) w).vMark, words := (ls.foldl (fun w l => w.putLane sub d l (f l)) w).words } := by
  induction ls generalizing w with
  | nil => rfl
  | cons l ls ih =>
    simp only [List.foldl_cons]
    rw [ih, putLane_rest]

theorem Warp.putLanes_vget (sub : BitVec 4) (d : Nat) (f : Nat → Word) (ls : List Nat) (w : Warp) (hn : ls.Nodup)
    (h : ∀ k ∈ ls, k < 32) (n k : Nat) (hk : k < 32) :
    (ls.foldl (fun w l => w.putLane sub d l (f l)) w).vget n k =
      if n = d ∧ k ∈ ls then putValue sub (w.vget d k) (f k) else w.vget n k := by
  induction ls generalizing w with
  | nil => simp
  | cons l ls ih =>
    simp only [List.nodup_cons] at hn
    have hl := h l (List.mem_cons_self ..)
    simp only [List.foldl_cons]
    rw [ih _ hn.2 fun j hj => h j (List.mem_cons_of_mem _ hj), putLane_vget _ _ _ _ _ _ _ hl hk,
      putLane_vget _ _ _ _ _ _ _ hl hk]
    by_cases e : k = l
    · subst e
      simp [hn.1]
    · simp [e]

/-- A cross-lane result written to the lanes acted on of every member. -/
theorem State.xwrite_wrote (s : State) (g : Grp) (a : Args) (f : Nat → Word) (h : s.GrpOk g) :
    State.WroteD s (s.xwrite g a f) a true g (s.actedOf a)
      (fun m l => putValue a.sub ((s.warp m).vget a.d.toNat l) (f (s.xbase g a m + l))) (fun _ => 0) := by
  unfold xwrite
  obtain ⟨h1, h2, h3⟩ := foldWarps g (fun m w => (s.actedOf a m).foldl
    (fun w l => w.putLane a.sub a.d.toNat l (f (s.xbase g a m.1 + l))) w) s h.nodup h.listed
  refine ⟨?_, ?_, h3, ?_, ?_, ?_, ?_⟩
  · rw [h1]
  · intro m hm
    rw [h2 m hm, Warp.putLanes_rest a.sub a.d.toNat (fun l => f (s.xbase g a m.1 + l))]
    simp
  · intro m hm n l hl
    rw [h2 m hm, Warp.putLanes_vget a.sub a.d.toNat (fun l => f (s.xbase g a m.1 + l)) (s.actedOf a m) _
      (lanesOf_nodup _) actedOf_lt n l hl]
    simp
  · intro m hm n
    rw [h2 m hm, Warp.putLanes_rest a.sub a.d.toNat (fun l => f (s.xbase g a m.1 + l))]
    simp [Warp.sget]
  · intro b
    rw [h1]
    rfl
  · intro b n
    rw [h1]
    simp

theorem State.xwrite_listed (s : State) (g : Grp) (a : Args) (f : Nat → Word) (v : Nat) :
    (mfind (s.xwrite g a f).warps v).isSome = (mfind s.warps v).isSome :=
  foldWarps_listed s g (fun m w => (s.actedOf a m).foldl
    (fun w l => w.putLane a.sub a.d.toNat l (f (s.xbase g a m.1 + l))) w) v

end Sys2Proof.Machine
end

