-- ==== Sys2Proof/Laws/Elems.lean ====
section
/-! SUPPORT. Elements of a lane: what packing and fitting give back. -/

namespace Sys2Proof.Machine

theorem fitInt_lt (t : EType) (sat : Bool) (x : Int) : fitInt t sat x < 2 ^ t.width := by
  have h : (0 : Int) < (2 ^ t.width : Nat) := by exact_mod_cast Nat.two_pow_pos _
  unfold fitInt
  simp only
  generalize (if sat = true then _ else x) = y
  have h1 := Int.emod_lt_of_pos y h
  have h2 := Int.emod_nonneg y (Int.ne_of_gt h)
  omega

/-- The number that packed elements form. -/
def packNat (w : Nat) (xs : List Nat) : Nat := xs.foldr (fun x acc => acc * 2 ^ w + x % 2 ^ w) 0

theorem packNat_lt (w : Nat) (xs : List Nat) : packNat w xs < 2 ^ (w * xs.length) := by
  induction xs with
  | nil => simp [packNat]
  | cons x xs ih =>
    have hx : x % 2 ^ w < 2 ^ w := Nat.mod_lt _ (Nat.two_pow_pos w)
    change packNat w xs * 2 ^ w + x % 2 ^ w < _
    rw [List.length_cons, Nat.mul_succ, Nat.pow_add]
    calc packNat w xs * 2 ^ w + x % 2 ^ w < packNat w xs * 2 ^ w + 2 ^ w := by omega
      _ = (packNat w xs + 1) * 2 ^ w := by rw [Nat.add_mul, Nat.one_mul]
      _ ≤ 2 ^ (w * xs.length) * 2 ^ w := Nat.mul_le_mul_right _ ih

theorem packNat_elem (w : Nat) (xs : List Nat) (i : Nat) (h : i < xs.length) :
    packNat w xs / 2 ^ (w * i) % 2 ^ w = xs[i] % 2 ^ w := by
  induction xs generalizing i with
  | nil => simp at h
  | cons x xs ih =>
    have hx : x % 2 ^ w < 2 ^ w := Nat.mod_lt _ (Nat.two_pow_pos w)
    change (packNat w xs * 2 ^ w + x % 2 ^ w) / 2 ^ (w * i) % 2 ^ w = _
    cases i with
    | zero => simp [Nat.add_mod, Nat.mul_mod_left]
    | succ i =>
      have hi : i < xs.length := by simpa using h
      rw [Nat.mul_succ, Nat.add_comm (w * i) w, Nat.pow_add, ← Nat.div_div_eq_div_mul,
        Nat.add_comm, Nat.add_mul_div_right _ _ (Nat.two_pow_pos w), Nat.div_eq_of_lt hx, Nat.zero_add]
      simpa using ih i hi

/-- Reading back an element of a packed lane. -/
theorem elemAt_packElems (w : Nat) (xs : List Nat) (i : Nat) (h : i < xs.length) (hw : w * xs.length ≤ 64) :
    elemAt (packElems w xs) w i = xs[i] % 2 ^ w := by
  have hp : (packElems w xs).toNat = packNat w xs := by
    change (BitVec.ofNat 64 (packNat w xs)).toNat = _
    rw [BitVec.toNat_ofNat, Nat.mod_eq_of_lt]
    exact Nat.lt_of_lt_of_le (packNat_lt w xs) (Nat.pow_le_pow_right (by omega) hw)
  unfold elemAt
  rw [hp]
  exact packNat_elem w xs i h

theorem EType.width_count (t : EType) : t.width * t.count ≤ 64 := by cases t <;> decide

/-- The elements of an integer result are the fitted values (R111). -/
theorem elemAt_laneOfInt (t : EType) (f : Nat → Nat) (i : Nat) (h : i < t.count) :
    elemAt (laneOfInt t ((List.range t.count).map f)) t.width i = f i % 2 ^ t.width := by
  by_cases ht : t = .i32
  · subst ht
    have : i = 0 := by simpa [EType.count] using h
    subst this
    change elemAt ((BitVec.ofNat 32 (f 0)).signExtend 64) 32 0 = f 0 % 2 ^ 32
    unfold elemAt
    rw [BitVec.toNat_signExtend, BitVec.toNat_setWidth, BitVec.toNat_ofNat]
    split <;> omega
  · have hl : ∀ es, laneOfInt t es = packElems t.width es := by
      intro es
      unfold laneOfInt
      split
      · exact absurd rfl ht
      · rfl
    have hn : ((List.range t.count).map f).length = t.count := by simp
    rw [hl, elemAt_packElems _ _ _ (by rw [hn]; exact h) (by rw [hn]; exact EType.width_count t)]
    simp

/-! ## Integers of a width, and shifts bit by bit -/

theorem readInt_emod (b : Bool) (w x : Nat) (h : x < 2 ^ w) : (readInt b w x) % (2 ^ w : Nat) = x := by
  unfold readInt
  split
  · rw [Int.sub_emod_right]  
    exact Int.emod_eq_of_lt (by omega) (by exact_mod_cast h)
  · exact Int.emod_eq_of_lt (by omega) (by exact_mod_cast h)

theorem readInt_toInt (w : Nat) (x : BitVec w) (hw : 0 < w) : readInt true w x.toNat = x.toInt := by
  have hp : (2 : Nat) ^ w = 2 * 2 ^ (w - 1) := by
    rw [← Nat.pow_succ']; congr 1; omega
  have := x.isLt
  rw [BitVec.toInt_eq_toNat_cond]
  unfold readInt
  simp only [Bool.true_and, decide_eq_true_eq]
  split <;> split <;> omega

theorem shlBits_testBit (w a b j : Nat) (hj : j < w) :
    (shlBits w a b % 2 ^ w).testBit j = (b ≤ j && a.testBit (j - b)) := by
  unfold shlBits
  split
  · simp [Nat.testBit_mod_two_pow, Nat.testBit_mul_two_pow, hj]
  · have : ¬ b ≤ j := by omega
    simp [this]

theorem shrBits_testBit (w a b j : Nat) (ha : a < 2 ^ w) (hj : j < w) :
    (shrBits w a b % 2 ^ w).testBit j = (j + b < w && a.testBit (j + b)) := by
  unfold shrBits
  split
  · simp only [Nat.testBit_mod_two_pow, hj, Nat.testBit_div_two_pow, decide_true, Bool.true_and]
    by_cases h : j + b < w
    · simp [h]
    · simp only [h, decide_false, Bool.false_and]
      exact Nat.testBit_lt_two_pow (Nat.lt_of_lt_of_le ha (Nat.pow_le_pow_right (by omega) (by omega)))
  · have : ¬ j + b < w := by omega
    simp [this]

theorem sarBits_testBit (w a b j : Nat) (ha : a < 2 ^ w) (hj : j < w) :
    (sarBits w a b % 2 ^ w).testBit j = a.testBit (min (j + b) (w - 1)) := by
  have hp : (2 : Nat) ^ w = 2 * 2 ^ (w - 1) := by
    rw [← Nat.pow_succ']; congr 1; omega
  have hx : readInt true w a = (BitVec.ofNat w a).toInt := by
    rw [← readInt_toInt w _ (by omega), BitVec.toNat_ofNat, Nat.mod_eq_of_lt ha]
  have hd : (if b < w then readInt true w a / (2 ^ b : Nat) else if readInt true w a < 0 then -1 else 0) =
      readInt true w a / (2 ^ b : Nat) := by
    split
    · rfl
    · have hb : 2 ^ w ≤ 2 ^ b := Nat.pow_le_pow_right (by omega) (by omega)
      have h1 : -(2 ^ b : Nat) ≤ readInt true w a := by
        unfold readInt; split <;> omega
      have h2 : readInt true w a < (2 ^ b : Nat) := by
        unfold readInt; split <;> omega
      have hpos : (0 : Int) < (2 ^ b : Nat) := by exact_mod_cast Nat.two_pow_pos b
      split
      · symm
        rw [Int.ediv_eq_iff_of_pos hpos]
        omega
      · exact (Int.ediv_eq_zero_of_lt (by omega) h2).symm
  have hs : sarBits w a b = ((BitVec.ofNat w a).sshiftRight b).toNat := by
    unfold sarBits
    simp only
    have e : (BitVec.ofNat w a).toInt / (2 ^ b : Nat) = ((BitVec.ofNat w a).sshiftRight b).toInt := by
      rw [BitVec.toInt_sshiftRight, Int.shiftRight_eq_div_pow]
    rw [hd, hx, e, ← readInt_toInt w _ (by omega), readInt_emod _ _ _ (BitVec.isLt _)]
    rfl
  rw [hs, Nat.testBit_mod_two_pow]
  simp only [hj, decide_true, Bool.true_and]
  rw [BitVec.testBit_toNat, BitVec.getLsbD_sshiftRight]
  by_cases h : b + j < w
  · have hm : min (j + b) (w - 1) = b + j := by omega
    have hj' : ¬ w ≤ j := by omega
    rw [if_pos h, hm]
    simp only [hj', decide_false, Bool.not_false, Bool.true_and, BitVec.getLsbD_ofNat, h, decide_true]
  · have hm : min (j + b) (w - 1) = w - 1 := by omega
    have hj' : ¬ w ≤ j := by omega
    have hw : w - 1 < w := by omega
    rw [if_neg h, hm]
    simp only [hj', decide_false, Bool.not_false, Bool.true_and, BitVec.msb_eq_getLsbD_last, BitVec.getLsbD_ofNat, hw,
      decide_true]

theorem rotBits_testBit (w a b j : Nat) (ha : a < 2 ^ w) (hj : j < w) :
    (rotBits w a b % 2 ^ w).testBit j = a.testBit ((j + (w - b % w)) % w) := by
  have hk : b % w < w := Nat.mod_lt _ (by omega)
  unfold rotBits
  simp only
  generalize b % w = k at hk ⊢
  rw [Nat.mod_mod]
  have hsum : a * 2 ^ k + a / 2 ^ (w - k) = (a * 2 ^ k) ||| (a / 2 ^ (w - k)) := by
    rw [Nat.mul_comm, Nat.two_pow_add_eq_or_of_lt]
    refine Nat.div_lt_of_lt_mul ?_
    rw [← Nat.pow_add]
    have : w - k + k = w := by omega
    rwa [this]
  rw [hsum, Nat.testBit_mod_two_pow, Nat.testBit_or, Nat.testBit_mul_two_pow, Nat.testBit_div_two_pow]
  simp only [hj, decide_true, Bool.true_and]
  by_cases h : k ≤ j
  · have e : (j + (w - k)) % w = j - k := by
      have : j + (w - k) = (j - k) + w := by omega
      rw [this, Nat.add_mod_right, Nat.mod_eq_of_lt (by omega)]
    have z : a.testBit (j + (w - k)) = false :=
      Nat.testBit_lt_two_pow (Nat.lt_of_lt_of_le ha (Nat.pow_le_pow_right (by omega) (by omega)))
    simp [e, z, h]
  · have e : (j + (w - k)) % w = j + (w - k) := Nat.mod_eq_of_lt (by omega)
    simp [e, h]

theorem elemAt_lt (x : Word) (w i : Nat) : elemAt x w i < 2 ^ w := Nat.mod_lt _ (Nat.two_pow_pos w)

/-- Element i of a result made from the bits of the operands' elements. -/
theorem elemAt_mapB2 (t : EType) (f : Nat → Nat → Nat → Nat) (a b : Word) (i : Nat) (h : i < t.count) :
    elemAt (mapB2 t f a b) t.width i = f t.width (elemAt a t.width i) (elemAt b t.width i) % 2 ^ t.width := by
  unfold mapB2
  rw [elemAt_laneOfInt t _ i h, Nat.mod_mod]

theorem elemAt_mapI2 (t : EType) (sat : Bool) (f : Int → Int → Int) (a b : Word) (i : Nat) (h : i < t.count) :
    elemAt (mapI2 t sat f a b) t.width i = fitInt t sat (f (intElem t a i) (intElem t b i)) := by
  unfold mapI2
  rw [elemAt_laneOfInt t _ i h, Nat.mod_eq_of_lt (fitInt_lt _ _ _)]

theorem elemAt_mapI3 (t : EType) (sat : Bool) (f : Int → Int → Int → Int) (a b c : Word) (i : Nat) (h : i < t.count) :
    elemAt (mapI3 t sat f a b c) t.width i = fitInt t sat (f (intElem t a i) (intElem t b i) (intElem t c i)) := by
  unfold mapI3
  rw [elemAt_laneOfInt t _ i h, Nat.mod_eq_of_lt (fitInt_lt _ _ _)]

theorem elemAt_mapDiv (t : EType) (f : Int → Int → Nat) (a b : Word) (i : Nat) (h : i < t.count) :
    elemAt (mapDiv t f a b) t.width i = f (intElem t a i) (intElem t b i) % 2 ^ t.width := by
  unfold mapDiv
  rw [elemAt_laneOfInt t _ i h]

end Sys2Proof.Machine
end

