-- ==== Sys2Proof/Laws/Encode.lean ====
section
/-! SUPPORT. What every encoded instruction looks like: its length, and the opcode and form in its first word. -/

namespace Sys2Proof

/-- A bit below the seam of two bit vectors. -/
theorem getLsbD_append_low {n m : Nat} (x : BitVec n) (y : BitVec m) (i : Nat) (hi : i < m) :
    (x ++ y).getLsbD i = y.getLsbD i := by simp [BitVec.getLsbD_append, hi]

/-- A bit above the seam of two bit vectors. -/
theorem getLsbD_append_high {n m : Nat} (x : BitVec n) (y : BitVec m) (i : Nat) :
    (x ++ y).getLsbD (m + i) = x.getLsbD i := by simp [BitVec.getLsbD_append]

/-- The opcode stands in bits 11:5 of a header (R61). -/
theorem header_opc (opc : Nat) (a : Args) (i : Nat) :
    (header opc a).getLsbD (5 + i) = (BitVec.ofNat 7 opc).getLsbD i := by
  rw [show 5 + i = 2 + (1 + (2 + i)) by omega]
  exact ((getLsbD_append_high _ _ _).trans (getLsbD_append_high _ _ _)).trans (getLsbD_append_high _ _ _)

/-- The form stands in bits 1:0 of a header (R61). -/
theorem header_form (opc : Nat) (a : Args) (i : Nat) (hi : i < 2) :
    (header opc a).getLsbD i = a.form.code.getLsbD i := getLsbD_append_low _ _ _ hi

/-- Word 0 of a base form begins with the header. -/
theorem baseWord_low (fmt : BaseFmt) (opc : Nat) (a : Args) (i : Nat) (hi : i < 12) :
    (baseWord fmt opc a).getLsbD i = (header opc a).getLsbD i := by
  cases fmt <;> exact getLsbD_append_low _ _ _ hi

/-- Word 0 of an extended form begins with the header. -/
theorem extWord0_low (opc : Nat) (a : Args) (i : Nat) (hi : i < 12) :
    (extWord0 opc a).getLsbD i = (header opc a).getLsbD i := getLsbD_append_low _ _ _ hi

/-- A word that carries a header holds its opcode and its form. -/
theorem header_fields (opc : Nat) (a : Args) (w : IWord)
    (h : ∀ i, i < 12 → w.getLsbD i = (header opc a).getLsbD i) :
    opcField w = BitVec.ofNat 7 opc ∧ w.extractLsb' 0 2 = a.form.code := by
  constructor
  · ext i hi
    rw [← BitVec.getLsbD_eq_getElem, ← BitVec.getLsbD_eq_getElem, ← header_opc opc a i, ← h (5 + i) (by omega)]
    simp [opcField, hi]
  · ext i hi
    rw [← BitVec.getLsbD_eq_getElem, ← BitVec.getLsbD_eq_getElem, ← header_form opc a i hi, ← h i (by omega)]
    simp [hi]

/-- The words of an instruction: their number, and the opcode and form in the first. -/
theorem encodeArgs_shape (opc : Nat) (a : Args) :
    (encodeArgs opc a).length = a.form.len ∧
    ∀ w ∈ (encodeArgs opc a).head?, opcField w = BitVec.ofNat 7 opc ∧ w.extractLsb' 0 2 = a.form.code := by
  unfold encodeArgs
  cases h : a.form <;> simp only [List.head?_cons, Option.mem_def, Option.some.injEq, forall_eq', ← h] <;>
    refine ⟨by simp [Form.len, h], ?_⟩
  · exact header_fields opc a _ (baseWord_low _ opc a)
  · exact header_fields opc a _ (baseWord_low _ opc a)
  · exact header_fields opc a _ (extWord0_low opc a)
  · exact header_fields opc a _ (extWord0_low opc a)
/-- The name and the fields of a program instruction are those it is made of. -/
@[simp] theorem Instr.op?_ofOp (o : Op) (a : Args) : (Instr.ofOp o a).op? = some (o, a) := by cases o <;> rfl

/-- An instruction with a name and fields is made of them. -/
theorem Instr.ofOp_of_op? {i : Instr} {o : Op} {a : Args} (h : i.op? = some (o, a)) : Instr.ofOp o a = i := by
  cases i <;> cases h <;> rfl

/-- The words of a program instruction. -/
theorem encode_ofOp (o : Op) (a : Args) :
    encode (Instr.ofOp o a) = encodeArgs (rowOf o a.func.toNat).opc a := by simp [encode]

end Sys2Proof
end

