-- ==== Sys2Proof/Machine/Link.lean ====
section
/-! DEFINITION. The link compressor (spec/21 R382): the form in which a packet's payload crosses a link, and the bytes its
receiver delivers. Compression changes only timing, so no step of the machine depends on it. -/

namespace Sys2Proof.Machine

/-- Whether a word of 8 B is not zero. -/
def wordSet (w : List Byte) : Bool := w.any (· != 0)

/-- The mask byte of a unit: bit i is set where its word i is not zero. -/
def maskByte (bits : List Bool) : Byte := BitVec.ofNat 8 (bits.foldr (fun b m => b.toNat + 2 * m) 0)

/-- The eight words of a unit of 64 B. -/
def unitWords (u : List Byte) : List (List Byte) := (List.range 8).map fun i => (u.drop (8 * i)).take 8

/-- A unit compressed: its mask, then its words that are not zero. -/
def packUnit (u : List Byte) : List Byte :=
  maskByte ((unitWords u).map wordSet) :: ((unitWords u).filter wordSet).flatten

/-- A payload of n units compressed, unit by unit. -/
def pack : Nat → List Byte → List Byte
  | 0, _ => []
  | n + 1, bs => packUnit (bs.take 64) ++ pack n (bs.drop 64)

/-- The words that a mask announces, from the bytes that follow it, and the bytes left; none where they run out. -/
def unpackWords : List Bool → List Byte → Option (List Byte × List Byte)
  | [], bs => some ([], bs)
  | false :: ms, bs => (unpackWords ms bs).map fun r => (List.replicate 8 0 ++ r.1, r.2)
  | true :: ms, bs =>
    if bs.length < 8 then none else (unpackWords ms (bs.drop 8)).map fun r => (bs.take 8 ++ r.1, r.2)

/-- A payload of n units from its compressed form; none where it is not exactly one. -/
def unpack : Nat → List Byte → Option (List Byte)
  | 0, bs => if bs.isEmpty then some [] else none
  | _ + 1, [] => none
  | n + 1, m :: bs =>
    match unpackWords ((List.range 8).map m.getLsbD) bs with
    | none => none
    | some (u, rest) => (unpack n rest).map (u ++ ·)

/-- Whether a port compresses a packet whose transmission starts while its transmit queue of `cap` holds `used`: it was
enabled at training, and the queue holds at least THR sixteenths. -/
def Port18.compresses (x : Port18) (thr used cap : Nat) : Bool := x.comp && thr < 16 && thr * cap ≤ 16 * used

/-- The CMPR bit and the bytes of a payload as a port sends it: compressed only where that is shorter. A payload that is
not whole units is sent as it is (DESIGN CHOICE, notes/assumptions/46). -/
def linkForm (compress : Bool) (payload : List Byte) : Bool × List Byte :=
  let c := pack (payload.length / 64) payload
  if compress && payload.length % 64 == 0 && c.length < payload.length then (true, c) else (false, payload)

/-- The payload of a stated length that a receiver delivers; none, a link error that makes the flit bad, where it does
not decompress to that length. -/
def linkPayload (len : Nat) (f : Bool × List Byte) : Option (List Byte) :=
  if f.1 then (unpack (len / 64) f.2).filter (·.length == len) else some f.2

end Sys2Proof.Machine
end

