-- ==== Sys2Proof/Laws/Link.lean ====
section
/-! SUPPORT. The link compressor delivers exactly the bytes that were sent (spec/21 R382). -/

namespace Sys2Proof.Machine

/-- The bits of a mask byte are those it was made of. -/
theorem maskByte_bits (bs : List Bool) (h : bs.length = 8) :
    (List.range 8).map (maskByte bs).getLsbD = bs := by
  match bs, h with
  | [a, b, c, d, e, f, g, i], _ =>
    cases a <;> cases b <;> cases c <;> cases d <;> cases e <;> cases f <;> cases g <;> cases i <;> decide

/-- A word that is zero throughout is eight zero bytes. -/
theorem zeroWord {w : List Byte} (h : wordSet w = false) (hl : w.length = 8) : w = List.replicate 8 0 := by
  refine List.eq_replicate_iff.2 ⟨hl, fun b hb => ?_⟩
  simpa using (List.any_eq_false.1 h) b hb

/-- The words of a unit come back from its mask and its words that are not zero. -/
theorem unpackWords_pack : ∀ (ws : List (List Byte)) (rest : List Byte), (∀ w ∈ ws, w.length = 8) →
    unpackWords (ws.map wordSet) ((ws.filter wordSet).flatten ++ rest) = some (ws.flatten, rest)
  | [], rest, _ => by simp [unpackWords]
  | w :: ws, rest, h => by
    have hw := h w (by simp)
    have ih := unpackWords_pack ws rest fun x hx => h x (by simp [hx])
    cases hs : wordSet w with
    | false =>
      have z := zeroWord hs hw
      simp only [List.map_cons, hs, List.filter_cons, Bool.false_eq_true, if_false, unpackWords, ih, Option.map_some]
      rw [z]; rfl
    | true => simp [unpackWords, hs, hw, ih]

/-- A unit is its words. -/
theorem unitWords_flatten {u : List Byte} (h : u.length = 64) : (unitWords u).flatten = u := by
  have step (k : Nat) : (u.drop k).take 8 ++ u.drop (k + 8) = u.drop k := by
    rw [← List.drop_drop]; exact List.take_append_drop 8 _
  have e : u.drop 64 = [] := List.drop_of_length_le (by omega)
  have r : u = (u.drop 0).take 8 ++ ((u.drop 8).take 8 ++ ((u.drop 16).take 8 ++ ((u.drop 24).take 8 ++
      ((u.drop 32).take 8 ++ ((u.drop 40).take 8 ++ ((u.drop 48).take 8 ++ ((u.drop 56).take 8 ++ u.drop 64))))))) := by
    rw [step 56, step 48, step 40, step 32, step 24, step 16, step 8, step 0]; rfl
  conv_rhs => rw [r, e]
  simp [unitWords, List.range_succ]

/-- What a compressed payload of n whole units gives back. -/
theorem unpack_pack : ∀ (n : Nat) (bs : List Byte), bs.length = 64 * n → unpack n (pack n bs) = some bs
  | 0, bs, h => by
    have : bs = [] := List.length_eq_zero_iff.1 (by omega)
    simp [pack, unpack, this]
  | n + 1, bs, h => by
    have hl : (bs.take 64).length = 64 := by simp; omega
    have hw : ∀ w ∈ unitWords (bs.take 64), w.length = 8 := by
      intro w hw
      obtain ⟨i, hi, rfl⟩ := List.mem_map.1 hw
      have := List.mem_range.1 hi
      rw [List.length_take, List.length_drop, hl]; omega
    have hm : ((unitWords (bs.take 64)).map wordSet).length = 8 := by simp [unitWords]
    have ih := unpack_pack n (bs.drop 64) (by simp; omega)
    simp only [pack, packUnit, List.cons_append, unpack, maskByte_bits _ hm]
    rw [unpackWords_pack _ _ hw, unitWords_flatten hl]
    simp [ih]

/-- The receiver delivers exactly the bytes that were sent, compressed or not. -/
theorem linkPayload_linkForm (compress : Bool) (bs : List Byte) :
    linkPayload bs.length (linkForm compress bs) = some bs := by
  unfold linkForm
  dsimp only
  split
  next h =>
    have h64 : bs.length % 64 = 0 := by simp at h; omega
    simp [linkPayload, unpack_pack (bs.length / 64) bs (by omega)]
  next => simp [linkPayload]

end Sys2Proof.Machine
end

