-- ==== Sys2Proof/Laws/PerInstr.lean ====
section
/-! SUPPORT. Per instruction: a program instruction is made of its name and fields, and its words have the length, the
opcode and the form of its row; an event has no words, and a reserved opcode is one. -/

namespace Sys2Proof.Laws.Codec

/-- The shape of an instruction's words. -/
def Statement (i : Instr) : Prop :=
  match i.op? with
  | some (o, a) => Instr.ofOp o a = i ∧ (encode i).length = a.form.len ∧
      ∀ w ∈ (encode i).head?,
        opcField w = BitVec.ofNat 7 (rowOf o a.func.toNat).opc ∧ w.extractLsb' 0 2 = a.form.code
  | none => (encode i).length ≤ 1

/-- The statement for a program instruction. -/
theorem of_op (o : Op) (a : Args) : Statement (Instr.ofOp o a) := by
  simp only [Statement, Instr.op?_ofOp, encode_ofOp]
  exact ⟨trivial, encodeArgs_shape _ a⟩

theorem nop (a : Args) : Statement (.nop a) := of_op .nop a
theorem bra (a : Args) : Statement (.bra a) := of_op .bra a
theorem brcFlag (a : Args) : Statement (.brcFlag a) := of_op .brcFlag a
theorem brcReg (a : Args) : Statement (.brcReg a) := of_op .brcReg a
theorem call (a : Args) : Statement (.call a) := of_op .call a
theorem ret (a : Args) : Statement (.ret a) := of_op .ret a
theorem jmpi (a : Args) : Statement (.jmpi a) := of_op .jmpi a
theorem ifc (a : Args) : Statement (.ifc a) := of_op .ifc a
theorem elsec (a : Args) : Statement (.elsec a) := of_op .elsec a
theorem endif (a : Args) : Statement (.endif a) := of_op .endif a
theorem loopc (a : Args) : Statement (.loopc a) := of_op .loopc a
theorem brk (a : Args) : Statement (.brk a) := of_op .brk a
theorem cont (a : Args) : Statement (.cont a) := of_op .cont a
theorem endloop (a : Args) : Statement (.endloop a) := of_op .endloop a
theorem exit (a : Args) : Statement (.exit a) := of_op .exit a
theorem yield (a : Args) : Statement (.yield a) := of_op .yield a
theorem trap (a : Args) : Statement (.trap a) := of_op .trap a
theorem add (a : Args) : Statement (.add a) := of_op .add a
theorem sub (a : Args) : Statement (.sub a) := of_op .sub a
theorem mul (a : Args) : Statement (.mul a) := of_op .mul a
theorem mulh (a : Args) : Statement (.mulh a) := of_op .mulh a
theorem mad (a : Args) : Statement (.mad a) := of_op .mad a
theorem andc (a : Args) : Statement (.andc a) := of_op .andc a
theorem orc (a : Args) : Statement (.orc a) := of_op .orc a
theorem xorc (a : Args) : Statement (.xorc a) := of_op .xorc a
theorem andn (a : Args) : Statement (.andn a) := of_op .andn a
theorem shl (a : Args) : Statement (.shl a) := of_op .shl a
theorem shr (a : Args) : Statement (.shr a) := of_op .shr a
theorem sar (a : Args) : Statement (.sar a) := of_op .sar a
theorem rot (a : Args) : Statement (.rot a) := of_op .rot a
theorem min (a : Args) : Statement (.min a) := of_op .min a
theorem max (a : Args) : Statement (.max a) := of_op .max a
theorem absd (a : Args) : Statement (.absd a) := of_op .absd a
theorem cmp (a : Args) : Statement (.cmp a) := of_op .cmp a
theorem sel (a : Args) : Statement (.sel a) := of_op .sel a
theorem mov (a : Args) : Statement (.mov a) := of_op .mov a
theorem movi (a : Args) : Statement (.movi a) := of_op .movi a
theorem lea (a : Args) : Statement (.lea a) := of_op .lea a
theorem addi (a : Args) : Statement (.addi a) := of_op .addi a
theorem bfx (a : Args) : Statement (.bfx a) := of_op .bfx a
theorem bfi (a : Args) : Statement (.bfi a) := of_op .bfi a
theorem clz (a : Args) : Statement (.clz a) := of_op .clz a
theorem popc (a : Args) : Statement (.popc a) := of_op .popc a
theorem brev (a : Args) : Statement (.brev a) := of_op .brev a
theorem div (a : Args) : Statement (.div a) := of_op .div a
theorem rem (a : Args) : Statement (.rem a) := of_op .rem a
theorem mulw (a : Args) : Statement (.mulw a) := of_op .mulw a
theorem idot (a : Args) : Statement (.idot a) := of_op .idot a
theorem fadd (a : Args) : Statement (.fadd a) := of_op .fadd a
theorem fsub (a : Args) : Statement (.fsub a) := of_op .fsub a
theorem fmul (a : Args) : Statement (.fmul a) := of_op .fmul a
theorem ffma (a : Args) : Statement (.ffma a) := of_op .ffma a
theorem fmin (a : Args) : Statement (.fmin a) := of_op .fmin a
theorem fmax (a : Args) : Statement (.fmax a) := of_op .fmax a
theorem fcmp (a : Args) : Statement (.fcmp a) := of_op .fcmp a
theorem fclass (a : Args) : Statement (.fclass a) := of_op .fclass a
theorem cvt (a : Args) : Statement (.cvt a) := of_op .cvt a
theorem sfn (a : Args) : Statement (.sfn a) := of_op .sfn a
theorem fdot (a : Args) : Statement (.fdot a) := of_op .fdot a
theorem fscale (a : Args) : Statement (.fscale a) := of_op .fscale a
theorem frnd (a : Args) : Statement (.frnd a) := of_op .frnd a
theorem pack (a : Args) : Statement (.pack a) := of_op .pack a
theorem unpk (a : Args) : Statement (.unpk a) := of_op .unpk a
theorem lshuf (a : Args) : Statement (.lshuf a) := of_op .lshuf a
theorem lrot (a : Args) : Statement (.lrot a) := of_op .lrot a
theorem lbc (a : Args) : Statement (.lbc a) := of_op .lbc a
theorem lred (a : Args) : Statement (.lred a) := of_op .lred a
theorem lscan (a : Args) : Statement (.lscan a) := of_op .lscan a
theorem ballot (a : Args) : Statement (.ballot a) := of_op .ballot a
theorem vote (a : Args) : Statement (.vote a) := of_op .vote a
theorem subsw (a : Args) : Statement (.subsw a) := of_op .subsw a
theorem plog (a : Args) : Statement (.plog a) := of_op .plog a
theorem pmov (a : Args) : Statement (.pmov a) := of_op .pmov a
theorem pcnt (a : Args) : Statement (.pcnt a) := of_op .pcnt a
theorem ld (a : Args) : Statement (.ld a) := of_op .ld a
theorem st (a : Args) : Statement (.st a) := of_op .st a
theorem pref (a : Args) : Statement (.pref a) := of_op .pref a
theorem cpy (a : Args) : Statement (.cpy a) := of_op .cpy a
theorem cpyg (a : Args) : Statement (.cpyg a) := of_op .cpyg a
theorem cpys (a : Args) : Statement (.cpys a) := of_op .cpys a
theorem cpyr (a : Args) : Statement (.cpyr a) := of_op .cpyr a
theorem cseal (a : Args) : Statement (.cseal a) := of_op .cseal a
theorem pushm (a : Args) : Statement (.pushm a) := of_op .pushm a
theorem popm (a : Args) : Statement (.popm a) := of_op .popm a
theorem atom (a : Args) : Statement (.atom a) := of_op .atom a
theorem red (a : Args) : Statement (.red a) := of_op .red a
theorem csig (a : Args) : Statement (.csig a) := of_op .csig a
theorem cwait (a : Args) : Statement (.cwait a) := of_op .cwait a
theorem cread (a : Args) : Statement (.cread a) := of_op .cread a
theorem phase (a : Args) : Statement (.phase a) := of_op .phase a
theorem barArv (a : Args) : Statement (.barArv a) := of_op .barArv a
theorem barWt (a : Args) : Statement (.barWt a) := of_op .barWt a
theorem barMeet (a : Args) : Statement (.barMeet a) := of_op .barMeet a
theorem barMemb (a : Args) : Statement (.barMemb a) := of_op .barMemb a
theorem barQry (a : Args) : Statement (.barQry a) := of_op .barQry a
theorem eqResv (a : Args) : Statement (.eqResv a) := of_op .eqResv a
theorem eqPub (a : Args) : Statement (.eqPub a) := of_op .eqPub a
theorem eqTake (a : Args) : Statement (.eqTake a) := of_op .eqTake a
theorem eqFree (a : Args) : Statement (.eqFree a) := of_op .eqFree a
theorem eqStat (a : Args) : Statement (.eqStat a) := of_op .eqStat a
theorem wait (a : Args) : Statement (.wait a) := of_op .wait a
theorem tshp (a : Args) : Statement (.tshp a) := of_op .tshp a
theorem wld (a : Args) : Statement (.wld a) := of_op .wld a
theorem mma (a : Args) : Statement (.mma a) := of_op .mma a
theorem tst (a : Args) : Statement (.tst a) := of_op .tst a
theorem tld (a : Args) : Statement (.tld a) := of_op .tld a
theorem tzero (a : Args) : Statement (.tzero a) := of_op .tzero a
theorem xfftFwd (a : Args) : Statement (.xfftFwd a) := of_op .xfftFwd a
theorem xfftInv (a : Args) : Statement (.xfftInv a) := of_op .xfftInv a
theorem smma (a : Args) : Statement (.smma a) := of_op .smma a
theorem tagSet (a : Args) : Statement (.tagSet a) := of_op .tagSet a
theorem tagAdj (a : Args) : Statement (.tagAdj a) := of_op .tagAdj a
theorem tagQry (a : Args) : Statement (.tagQry a) := of_op .tagQry a
theorem nbDot (a : Args) : Statement (.nbDot a) := of_op .nbDot a
theorem nbAxpy (a : Args) : Statement (.nbAxpy a) := of_op .nbAxpy a
theorem nbScale (a : Args) : Statement (.nbScale a) := of_op .nbScale a
theorem nbSum (a : Args) : Statement (.nbSum a) := of_op .nbSum a
theorem nbFill (a : Args) : Statement (.nbFill a) := of_op .nbFill a
theorem nbCmpz (a : Args) : Statement (.nbCmpz a) := of_op .nbCmpz a
theorem jigDef (a : Args) : Statement (.jigDef a) := of_op .jigDef a
theorem jigArm (a : Args) : Statement (.jigArm a) := of_op .jigArm a
theorem jigDisarm (a : Args) : Statement (.jigDisarm a) := of_op .jigDisarm a
theorem jigPos (a : Args) : Statement (.jigPos a) := of_op .jigPos a
theorem jigQry (a : Args) : Statement (.jigQry a) := of_op .jigQry a
theorem jrnBegin (a : Args) : Statement (.jrnBegin a) := of_op .jrnBegin a
theorem jrnCommit (a : Args) : Statement (.jrnCommit a) := of_op .jrnCommit a
theorem jrnAbort (a : Args) : Statement (.jrnAbort a) := of_op .jrnAbort a
theorem srd (a : Args) : Statement (.srd a) := of_op .srd a
theorem swr (a : Args) : Statement (.swr a) := of_op .swr a
theorem swrExec (a : Args) : Statement (.swrExec a) := of_op .swrExec a
theorem swrFpmode (a : Args) : Statement (.swrFpmode a) := of_op .swrFpmode a
theorem swrOvfFlags (a : Args) : Statement (.swrOvfFlags a) := of_op .swrOvfFlags a
theorem swrAshape (a : Args) : Statement (.swrAshape a) := of_op .swrAshape a
theorem swrLossScale (a : Args) : Statement (.swrLossScale a) := of_op .swrLossScale a
theorem swrEbudget (a : Args) : Statement (.swrEbudget a) := of_op .swrEbudget a
theorem swrDumpBase (a : Args) : Statement (.swrDumpBase a) := of_op .swrDumpBase a
theorem swrTraceCtl (a : Args) : Statement (.swrTraceCtl a) := of_op .swrTraceCtl a
theorem launch (a : Args) : Statement (.launch a) := of_op .launch a
theorem tlbi (a : Args) : Statement (.tlbi a) := of_op .tlbi a
theorem ctxSave (a : Args) : Statement (.ctxSave a) := of_op .ctxSave a
theorem ctxLoad (a : Args) : Statement (.ctxLoad a) := of_op .ctxLoad a
theorem ctxFreeze (a : Args) : Statement (.ctxFreeze a) := of_op .ctxFreeze a
theorem tret (a : Args) : Statement (.tret a) := of_op .tret a
theorem sleep (a : Args) : Statement (.sleep a) := of_op .sleep a
theorem halt (a : Args) : Statement (.halt a) := of_op .halt a
theorem rendezvousTimeout (blk : Nat) (pc : Word) : Statement (.rendezvousTimeout blk pc) := Nat.zero_le 1
theorem runArbitration (core part : Nat) : Statement (.runArbitration core part) := Nat.zero_le 1
theorem watchdog (w : Nat) : Statement (.watchdog w) := Nat.zero_le 1
theorem handlerOverrun (w : Nat) : Statement (.handlerOverrun w) := Nat.zero_le 1
theorem loadDataReturn (id : Nat) : Statement (.loadDataReturn id) := Nat.zero_le 1
theorem fenceCopyRow (ch pc : Nat) : Statement (.fenceCopyRow ch pc) := Nat.zero_le 1
theorem copyBatchComplete (w seq : Nat) : Statement (.copyBatchComplete w seq) := Nat.zero_le 1
theorem counterIncrement (id : Nat) : Statement (.counterIncrement id) := Nat.zero_le 1
theorem cwaitWake (w : Nat) : Statement (.cwaitWake w) := Nat.zero_le 1
theorem cwaitTimeout (w : Nat) : Statement (.cwaitTimeout w) := Nat.zero_le 1
theorem cwaitPoll (w : Nat) : Statement (.cwaitPoll w) := Nat.zero_le 1
theorem sleepWake (w : Nat) : Statement (.sleepWake w) := Nat.zero_le 1
theorem eqWaitSatisfied (w : Nat) : Statement (.eqWaitSatisfied w) := Nat.zero_le 1
theorem xfftAccept (core pipe : Nat) : Statement (.xfftAccept core pipe) := Nat.zero_le 1
theorem xfftComplete (core pipe : Nat) : Statement (.xfftComplete core pipe) := Nat.zero_le 1
theorem wldComplete (core : Nat) : Statement (.wldComplete core) := Nat.zero_le 1
theorem arrayOpComplete (core : Nat) (chk : List GroupCheck) : Statement (.arrayOpComplete core chk) := Nat.zero_le 1
theorem bandAdmit (die : Nat) : Statement (.bandAdmit die) := Nat.zero_le 1
theorem bandOn (core band : Nat) : Statement (.bandOn core band) := Nat.zero_le 1
theorem bandHoldExpire (core band : Nat) : Statement (.bandHoldExpire core band) := Nat.zero_le 1
theorem bandWakeRefused (core band : Nat) : Statement (.bandWakeRefused core band) := Nat.zero_le 1
theorem slewStep (die : Nat) : Statement (.slewStep die) := Nat.zero_le 1
theorem nbComplete (id : Nat) : Statement (.nbComplete id) := Nat.zero_le 1
theorem jigArmAccept (id : Nat) : Statement (.jigArmAccept id) := Nat.zero_le 1
theorem refreshRow (row : Nat) : Statement (.refreshRow row) := Nat.zero_le 1
theorem hasteRowSweep (row : Nat) : Statement (.hasteRowSweep row) := Nat.zero_le 1
theorem journalCloseComplete (ctx : Nat) : Statement (.journalCloseComplete ctx) := Nat.zero_le 1
theorem blockRetire (blk : Nat) : Statement (.blockRetire blk) := Nat.zero_le 1
theorem placement (ctx : Nat) : Statement (.placement ctx) := Nat.zero_le 1
theorem dispatchEntry (ctx : Nat) : Statement (.dispatchEntry ctx) := Nat.zero_le 1
theorem budgetRefill : Statement .budgetRefill := Nat.zero_le 1
theorem energyUpdate : Statement .energyUpdate := Nat.zero_le 1
theorem wearTick (die : Nat) (temp : TempClass) : Statement (.wearTick die temp) := Nat.zero_le 1
theorem boostStep (die : Nat) (up powerOk : Bool) : Statement (.boostStep die up powerOk) := Nat.zero_le 1
theorem hostWrite (q ctx : Nat) (addr : Word) (data : List Byte) :
    Statement (.hostWrite q ctx addr data) := Nat.zero_le 1
theorem hostRead (q ctx : Nat) (addr : Word) (len : Nat) : Statement (.hostRead q ctx addr len) := Nat.zero_le 1
theorem hostSignal (q ctx : Nat) (addr inc : Word) : Statement (.hostSignal q ctx addr inc) := Nat.zero_le 1
theorem remoteAccess (dev : Nat) (who : RemoteWarp) (addr : Word) (op : RemoteOp) :
    Statement (.remoteAccess dev who addr op) := Nat.zero_le 1
theorem girtFlitError (x : FlitAt) : Statement (.girtFlitError x) := Nat.zero_le 1
theorem girtHoldTimeout (partner : Nat) : Statement (.girtHoldTimeout partner) := Nat.zero_le 1
theorem linkTraining (port partner : Nat) (ok full offerComp : Bool) :
    Statement (.linkTraining port partner ok full offerComp) := Nat.zero_le 1
theorem ucieLinkDown (link : Nat) : Statement (.ucieLinkDown link) := Nat.zero_le 1
theorem dieLost (die : Nat) : Statement (.dieLost die) := Nat.zero_le 1
theorem pinBreak (w : Nat) : Statement (.pinBreak w) := Nat.zero_le 1
theorem pageMigrate (ctx : Nat) (va : Word) (frame : Nat) : Statement (.pageMigrate ctx va frame) := Nat.zero_le 1
theorem injStore (ch : Nat) (val : Word) : Statement (.injStore ch val) := Nat.zero_le 1
theorem bankErrClear (ch : Nat) (val : Word) : Statement (.bankErrClear ch val) := Nat.zero_le 1
theorem marchStore (ch : Nat) (val : Word) : Statement (.marchStore ch val) := Nat.zero_le 1
theorem marchComplete (ch : Nat) (failing : List Nat) : Statement (.marchComplete ch failing) := Nat.zero_le 1
theorem powerOn (cfg : FwConfig) : Statement (.powerOn cfg) := Nat.zero_le 1
theorem measurementExtend (reg : Nat) (digest : BitVec 256) : Statement (.measurementExtend reg digest) := Nat.zero_le 1
theorem getVersion (t : Transport) : Statement (.getVersion t) := Nat.zero_le 1
theorem getCapabilities (t : Transport) : Statement (.getCapabilities t) := Nat.zero_le 1
theorem negotiateAlgorithms (t : Transport) (offersSlh : Bool) :
    Statement (.negotiateAlgorithms t offersSlh) := Nat.zero_le 1
theorem getDigests (t : Transport) : Statement (.getDigests t) := Nat.zero_le 1
theorem getCertificate (t : Transport) (slot off len : Nat) :
    Statement (.getCertificate t slot off len) := Nat.zero_le 1
theorem challenge (t : Transport) (slot : Nat) (nonce : BitVec 256) :
    Statement (.challenge t slot nonce) := Nat.zero_le 1
theorem getMeasurements (t : Transport) (index : Nat) (signed : Bool) (nonce : BitVec 256) :
    Statement (.getMeasurements t index signed nonce) := Nat.zero_le 1
theorem spdmUnsupported (t : Transport) (code : Nat) : Statement (.spdmUnsupported t code) := Nat.zero_le 1
theorem healthRead (r : Requester) : Statement (.healthRead r) := Nat.zero_le 1
theorem dumpTrigger (r : Requester) : Statement (.dumpTrigger r) := Nat.zero_le 1
theorem dumpFetch (r : Requester) (tenant : Option Nat) : Statement (.dumpFetch r tenant) := Nat.zero_le 1
theorem warmReset (r : Requester) (die : Nat) : Statement (.warmReset r die) := Nat.zero_le 1
theorem dieQuiesce (die : Nat) : Statement (.dieQuiesce die) := Nat.zero_le 1
theorem dieDrain (die : Nat) : Statement (.dieDrain die) := Nat.zero_le 1
theorem dieRetrain (die : Nat) (ok : Bool) : Statement (.dieRetrain die ok) := Nat.zero_le 1
theorem dieReadmit (die : Nat) : Statement (.dieReadmit die) := Nat.zero_le 1
theorem deviceReset (r : Requester) (cfg : FwConfig) : Statement (.deviceReset r cfg) := Nat.zero_le 1
theorem coreRestart (r : Requester) (core : Nat) : Statement (.coreRestart r core) := Nat.zero_le 1
theorem recoveryLoad (r : Requester) (image : List Byte) : Statement (.recoveryLoad r image) := Nat.zero_le 1
theorem contextCreate (r : Requester) (rec : CtxRec) : Statement (.contextCreate r rec) := Nat.zero_le 1
theorem contextChange (r : Requester) (rec : CtxRec) : Statement (.contextChange r rec) := Nat.zero_le 1
theorem contextDestroy (r : Requester) (ctx : Nat) : Statement (.contextDestroy r ctx) := Nat.zero_le 1
theorem reservedOpcode (w : IWord) : Statement (.reservedOpcode w) := Nat.le_refl 1
theorem storeAcknowledgement (id : Nat) : Statement (.storeAcknowledgement id) := Nat.zero_le 1
theorem jigDefAccepted (id : Nat) : Statement (.jigDefAccepted id) := Nat.zero_le 1

end Sys2Proof.Laws.Codec
end

