-- ==== Sys2Proof/Laws/Traffic.lean ====
section
/-! SUPPORT. Accesses to memory: what reads, writes, translations, releases and acquires may change, said once for each
shared operation. -/

namespace Sys2Proof.Machine

variable {P : Nat → Prop} {s r t : State}

/-! ## The relation -/

theorem State.Traffic.refl (s : State) : State.Traffic P s s :=
  ⟨rfl, fun _ => rfl, fun _ => rfl, fun _ => rfl, fun _ => rfl, fun _ _ => rfl, id, fun _ => id⟩

theorem State.Traffic.trans (h : State.Traffic P s r) (h' : State.Traffic P r t) : State.Traffic P s t where
  rest := by
    have e := h'.rest
    rw [h.rest] at e
    exact e
  warp w := by
    have e := h'.warp w
    rw [h.warp w] at e
    exact e
  listed w := (h'.listed w).trans (h.listed w)
  core k := by
    have e := h'.core k
    rw [h.core k] at e
    exact e
  die d := by
    have e := h'.die d
    rw [h.die d] at e
    exact e
  byte l hl := (h'.byte l hl).trans (h.byte l hl)
  wf x := h'.wf (h.wf x)
  way l x := h.way l (h'.way l x)

theorem State.Traffic.mono {Q : Nat → Prop} (h : State.Traffic P s r) (hq : ∀ l, P l → Q l) : State.Traffic Q s r :=
  { h with byte := fun l hl => h.byte l fun x => hl (hq l x) }

/-- A fold of steps each of which is traffic. -/
theorem State.Traffic.foldl {α : Type} (xs : List α) (f : State → α → State)
    (h : ∀ s, ∀ x ∈ xs, State.Traffic P s (f s x)) : ∀ s, State.Traffic P s (xs.foldl f s) := by
  induction xs with
  | nil => exact State.Traffic.refl
  | cons x xs ih =>
    intro s
    exact (h s x (List.mem_cons_self ..)).trans (ih (fun s y hy => h s y (List.mem_cons_of_mem _ hy)) _)

/-- Only the error state changes: the stored forms of columns, sectors and remap entries, the channels, what the die control
blocks know of errors, and counters of free values. -/
structure State.Checked (s r : State) : Prop where
  rest : r = { s with mem := r.mem, chans := r.chans, dies := r.dies, free := r.free }
  mem  : r.mem = { s.mem with cols := r.mem.cols, sectors := r.mem.sectors, tables := r.mem.tables }
  die  : ∀ d, r.die d = { s.die d with ecc := (r.die d).ecc }

theorem State.Checked.refl (s : State) : State.Checked s s := ⟨rfl, rfl, fun _ => rfl⟩

theorem State.Checked.trans (h : State.Checked s r) (h' : State.Checked r t) : State.Checked s t where
  rest := by
    have e := h'.rest
    rw [h.rest] at e
    exact e
  mem := by
    have e := h'.mem
    rw [h.mem] at e
    exact e
  die d := by
    have e := h'.die d
    rw [h.die d] at e
    exact e

theorem State.Checked.traffic (h : State.Checked s r) : State.Traffic P s r where
  rest := by rw [h.rest]
  warp w := by rw [h.rest]; rfl
  listed w := by rw [h.rest]
  core k := by rw [h.rest]; rfl
  die d := h.die d
  byte l _ := by rw [h.mem]; rfl
  wf x := by rw [h.mem]; exact x
  way l x := by rw [h.rest] at x; exact x

/-! ## Checks of stored forms -/

theorem State.checked_modEcc (s : State) (d : Nat) (f : EccLog → EccLog) : State.Checked s (s.modEcc d f) := by
  refine ⟨rfl, rfl, fun j => ?_⟩
  have e : (s.modEcc d f).die j = if j = d then { s.die d with ecc := f (s.die d).ecc } else s.die j := mget_mset ..
  rw [e]
  split
  · subst_vars; rfl
  · rfl

theorem State.checked_report (s : State) (d : Nat) (x : EccReport) : State.Checked s (s.report d x) := checked_modEcc ..

theorem State.checked_countCorr (s : State) (l : Nat) : State.Checked s (s.countCorr l) := checked_modEcc ..

theorem State.checked_logErr (s : State) (p : Phys) (a b : Nat) (i f : Bool) : State.Checked s (s.logErr p a b i f) := by
  unfold logErr
  refine State.Checked.trans ?_ (checked_modEcc ..)
  exact ⟨rfl, rfl, fun _ => rfl⟩

theorem State.checked_setCol (s : State) (k : Nat) (c : ColSt) : State.Checked s (s.setCol k c) := ⟨rfl, rfl, fun _ => rfl⟩

theorem State.checked_applyInj (s : State) (p : Phys) : State.Checked s (s.applyInj p) := by
  unfold applyInj
  dsimp only
  split
  · exact ⟨rfl, rfl, fun _ => rfl⟩
  · exact .refl _

theorem State.checked_setSector (s : State) (u : Nat) (c : ColSt) : State.Checked s (s.setSector u c) := ⟨rfl, rfl, fun _ => rfl⟩

theorem State.checked_countStack (s : State) (l : Nat) : State.Checked s (s.countStack l) := by
  unfold countStack; exact checked_modEcc ..

theorem State.checked_activate (s : State) (p : Phys) (src : Nat) : State.Checked s (s.activate p src) := by
  unfold activate
  split
  · exact .refl _
  · dsimp only
    split
    · refine State.Checked.trans ?_ (checked_report ..)
      exact ⟨rfl, rfl, fun _ => rfl⟩
    · split
      · refine State.Checked.trans ?_ (checked_logErr ..)
        exact ⟨rfl, rfl, fun _ => rfl⟩
      · split
        · exact .refl _
        · exact ⟨rfl, rfl, fun _ => rfl⟩

theorem State.checked_touch (s : State) (p : Phys) (src : Nat) : State.Checked s (s.touch p src) := by
  unfold touch
  dsimp only
  split
  · exact checked_activate ..
  · exact (checked_activate ..).trans (checked_applyInj ..)

theorem State.checked_readPartner (s : State) (q : Phys) (src : Nat) : State.Checked s (s.readPartner q src).1 := by
  refine (checked_touch s q src).trans ?_
  unfold readPartner
  dsimp only
  generalize s.touch q src = s1
  split
  · exact .refl _
  · split
    · exact (checked_setCol ..).trans (checked_logErr ..)
    · exact checked_logErr ..
    · exact (checked_setCol ..).trans (checked_logErr ..)
    · exact .refl _

theorem State.checked_partners (s : State) (p : Phys) (src : Nat) : State.Checked s (s.partnersOk p src).1 := by
  unfold partnersOk
  generalize p.partners = qs
  suffices h : ∀ acc : State × Bool, State.Checked acc.1 (qs.foldl (fun acc q =>
      let (s1, ok) := acc.1.readPartner q src
      (s1, acc.2 && ok)) acc).1 from h (s, true)
  induction qs with
  | nil => exact fun acc => .refl _
  | cons q qs ih =>
    intro acc
    rw [List.foldl_cons]
    exact (checked_readPartner acc.1 q src).trans (ih ((acc.1.readPartner q src).1, acc.2 && (acc.1.readPartner q src).2))

theorem State.checked_rebuildOnly (s : State) (p : Phys) (src : Nat) : State.Checked s (s.rebuildOnly p src).1 := by
  unfold rebuildOnly
  have h := checked_partners s p src
  generalize s.partnersOk p src = q at h ⊢
  obtain ⟨s1, ok⟩ := q
  dsimp only at h ⊢
  split
  · exact h.trans (checked_logErr ..)
  · exact h.trans (checked_logErr ..)

theorem State.checked_checkIL (s : State) (p : Phys) (src : Nat) : State.Checked s (s.checkIL p src).1 := by
  refine (checked_touch s p src).trans ?_
  unfold checkIL
  dsimp only
  generalize s.touch p src = s1
  split
  · exact checked_logErr ..
  · split
    · exact checked_rebuildOnly ..
    · exact (checked_setCol ..).trans (checked_logErr ..)
  · have h := checked_partners s1 p src
    generalize s1.partnersOk p src = q at h ⊢
    obtain ⟨s2, ok⟩ := q
    dsimp only at h ⊢
    split
    · exact (h.trans (checked_setCol ..)).trans (checked_logErr ..)
    · exact (h.trans (checked_setCol ..)).trans (checked_logErr ..)
  · split
    · exact checked_rebuildOnly ..
    · exact .refl _

theorem State.checked_checkRM (s : State) (p : Phys) (src : Nat) : State.Checked s (s.checkRM p src).1 := by
  refine (checked_touch s p src).trans ?_
  unfold checkRM
  dsimp only
  generalize s.touch p src = s1
  split
  · exact .refl _
  · split
    · exact checked_logErr ..
    · exact (checked_setCol ..).trans (checked_logErr ..)
    · exact (checked_setCol ..).trans (checked_logErr ..)
    · exact .refl _

theorem State.checked_checkCol (s : State) (src l : Nat) : State.Checked s (s.checkCol src l).1 := by
  unfold checkCol
  split
  · exact checked_checkRM ..
  · exact checked_checkIL ..

theorem State.checked_checkSector (s : State) (u : Nat) : State.Checked s (s.checkSector u).1 := by
  unfold checkSector
  split
  · exact .refl _
  · exact .refl _
  · exact (checked_setSector ..).trans (checked_countStack ..)
  · split
    · exact (checked_setSector ..).trans (checked_report ..)
    · exact (checked_setSector ..).trans (checked_countStack ..)

theorem State.checked_checkRead (s : State) (src l : Nat) : State.Checked s (s.checkRead src l).1 := by
  unfold checkRead
  split
  · have h := checked_checkSector s l
    split <;> rename_i e <;> rw [e] at h
    · exact h
    · exact h.trans (checked_checkCol ..)
  · dsimp only
    split
    · exact .refl _
    · exact .refl _
    · exact (checked_setCol ..).trans (checked_countCorr ..)
    · exact (checked_setCol ..).trans (checked_report ..)

theorem State.checked_checkWrite (s : State) (src l : Nat) (f : Bool) : State.Checked s (s.checkWrite src l f) := by
  unfold checkWrite
  dsimp only
  split
  · generalize h0 : (if f = true then s.setSector l .clean else (s.checkSector l).1) = s0
    have h : State.Checked s s0 := by
      subst h0
      split
      · exact checked_setSector ..
      · exact checked_checkSector ..
    generalize h1 : (if f = true then (s0.touch _ src).setCol _ .clean else (s0.checkCol src l).1) = s1
    have h2 : State.Checked s s1 := by
      subst h1
      refine h.trans ?_
      split
      · exact (checked_touch ..).trans (checked_setCol ..)
      · exact checked_checkCol ..
    split
    · exact h2
    · exact h2.trans (checked_checkIL ..)
  · split
    · exact checked_setCol ..
    · exact .refl _

theorem State.Checked.foldl {α : Type} (xs : List α) (f : State → α → State) (h : ∀ s x, State.Checked s (f s x)) :
    ∀ s, State.Checked s (xs.foldl f s) := by
  induction xs with
  | nil => exact State.Checked.refl
  | cons x xs ih => exact fun s => (h s x).trans (ih _)

theorem State.checked_checkReads (s : State) (src : Nat) (ls : List Nat) : State.Checked s (s.checkReads src ls).1 := by
  unfold checkReads
  generalize unitsOf ls = us
  suffices h : ∀ acc : State × List Nat, State.Checked acc.1 (us.foldl (fun acc u =>
      let (s', bad) := acc.1.checkRead src u
      (s', if bad then acc.2 ++ [u] else acc.2)) acc).1 from h (s, [])
  induction us with
  | nil => exact fun acc => .refl _
  | cons q qs ih =>
    intro acc
    rw [List.foldl_cons]
    exact (checked_checkRead acc.1 src q).trans (ih (_, _))

theorem State.checked_checkWrites (s : State) (src : Nat) (ls : List Nat) : State.Checked s (s.checkWrites src ls) :=
  State.Checked.foldl _ _ (fun _ _ => checked_checkWrite ..) _

theorem State.checked_poisonUnits (s : State) (ls : List Nat) : State.Checked s (s.poisonUnits ls) :=
  State.Checked.foldl _ _ (fun _ _ => checked_setCol ..) _

/-! ## Memory -/

theorem Mem.put_byte (m : Mem) (pos l : Nat) (b : Byte) (k : Nat) : (m.put pos l b).byte k = if k = l then b else m.byte k :=
  mget_mset ..

theorem Mem.put_wf {m : Mem} (pos l : Nat) (b : Byte) (h : m.wf = true) : (m.put pos l b).wf = true := mwf_mset _ _ h

theorem Mem.puts_byte (pos : Nat) (bs : List (Nat × Byte)) (k : Nat) : ∀ m : Mem, k ∉ bs.map (·.1) →
    (bs.foldl (fun m b => m.put pos b.1 b.2) m).byte k = m.byte k := by
  induction bs with
  | nil => exact fun m _ => rfl
  | cons b bs ih =>
    intro m h
    simp only [List.map_cons, List.mem_cons, not_or] at h
    rw [List.foldl_cons, ih _ h.2, put_byte, if_neg h.1]

theorem Mem.puts_byte_mem (pos : Nat) (bs : List (Nat × Byte)) (hn : (bs.map (·.1)).Nodup) : ∀ (m : Mem), ∀ e ∈ bs,
    (bs.foldl (fun m b => m.put pos b.1 b.2) m).byte e.1 = e.2 := by
  induction bs with
  | nil => simp
  | cons b bs ih =>
    intro m e he
    simp only [List.map_cons, List.nodup_cons] at hn
    rw [List.foldl_cons]
    rcases List.mem_cons.1 he with rfl | he
    · rw [puts_byte _ _ _ _ hn.1, put_byte, if_pos rfl]
    · exact ih hn.2 _ e he

theorem Mem.puts_wf (pos : Nat) (bs : List (Nat × Byte)) : ∀ m : Mem, m.wf = true →
    (bs.foldl (fun m b => m.put pos b.1 b.2) m).wf = true := by
  induction bs with
  | nil => exact fun m h => h
  | cons b bs ih => exact fun m h => ih _ (put_wf _ _ _ h)

theorem Mem.putPiece_byte (m : Mem) (rels : List Nat) (rmw : Bool) (bs : List (Nat × Byte)) (k : Nat)
    (h : k ∉ bs.map (·.1)) : (m.putPiece rels rmw bs).byte k = m.byte k := puts_byte _ _ _ _ h

theorem Mem.putPiece_byte_mem (m : Mem) (rels : List Nat) (rmw : Bool) (bs : List (Nat × Byte))
    (hn : (bs.map (·.1)).Nodup) (e : Nat × Byte) (he : e ∈ bs) : (m.putPiece rels rmw bs).byte e.1 = e.2 :=
  puts_byte_mem _ _ hn _ e he

theorem Mem.putPiece_wf {m : Mem} (rels : List Nat) (rmw : Bool) (bs : List (Nat × Byte)) (h : m.wf = true) :
    (m.putPiece rels rmw bs).wf = true := puts_wf _ _ _ h

/-! ## Warps -/

/-- A warp that differs only in what it has observed and in its store class. -/
structure Warp.Saw (x y : Warp) : Prop where
  eq : y = { x with
    floors := y.floors, rmtFl := y.rmtFl, seen := y.seen, rels := y.rels, stCnt := y.stCnt, late := y.late }

theorem State.traffic_modWarp (s : State) (w : Nat) (f : Warp → Warp) (h : ∀ x, Warp.Saw x (f x)) :
    State.Traffic P s (s.modWarp w f) where
  rest := rfl
  warp v := by
    by_cases hv : v = w
    · subst hv
      by_cases hl : (mfind s.warps v).isSome
      · rw [modWarp_warp _ _ _ _ hl, if_pos rfl]; exact (h _).eq
      · have e : (s.modWarp v f).warp v = s.warp v := by
          simp only [warp, modWarp, mget_eq_mfind, mfind_mmod]
          cases hm : mfind s.warps v <;> simp_all
        rw [e]
    · rw [modWarp_warp_ne _ _ hv]
  listed v := by simp
  core k := rfl
  die _ := rfl
  byte l _ := rfl
  wf := id
  way l := id

theorem State.traffic_modWarps (s : State) (ws : List Nat) (f : Warp → Warp) (h : ∀ x, Warp.Saw x (f x)) :
    State.Traffic P s (s.modWarps ws f) :=
  State.Traffic.foldl _ _ (fun s w _ => traffic_modWarp s w f h) s

theorem State.traffic_observe (s : State) (ws ids : List Nat) : State.Traffic P s (s.observe ws ids) :=
  traffic_modWarps _ _ _ fun _ => ⟨rfl⟩

theorem State.traffic_hasRead (s : State) (ws : List Nat) (d : Rd) : State.Traffic P s (s.hasRead ws d) :=
  traffic_modWarps _ _ _ fun _ => ⟨rfl⟩

/-- Changing what a core's L1 holds, and the stored form of its sectors. -/
theorem State.traffic_l1 (s : State) (k : Nat) (f : Core → Core) (h : ∀ c, f c = { c with l1 := (f c).l1, l1Err := (f c).l1Err }) :
    State.Traffic P s (s.modCore k f) where
  rest := rfl
  warp _ := rfl
  listed _ := rfl
  core j := by
    by_cases hj : j = k
    · subst hj; rw [modCore_core, if_pos rfl]
      have e := h (s.core j)
      generalize f (s.core j) = y at e ⊢
      generalize y.l1 = q at e
      generalize y.l1Err = q' at e
      subst e
      rfl
    · rw [modCore_core, if_neg hj]
  die _ := rfl
  byte _ _ := rfl
  wf := id
  way l x := by
    rcases x with ⟨j, u, hu, x⟩ | x
    · refine .inl ⟨j, u, ?_, x⟩
      rw [modCore_core] at hu
      split at hu
      · subst j; rw [h] at hu; exact hu
      · exact hu
    · exact .inr x

theorem State.traffic_cacheL1 (s : State) (k : Nat) (ls : List Nat) (b : Bool) : State.Traffic P s (s.cacheL1 k ls b) := by
  unfold cacheL1
  dsimp only
  split
  · exact .refl _
  · exact traffic_l1 _ _ _ fun _ => rfl

theorem State.traffic_dropL1 (s : State) (k : Nat) (f : Nat → Bool) : State.Traffic P s (s.dropL1 k f) := by
  unfold dropL1
  split
  · exact traffic_l1 _ _ _ fun _ => rfl
  · exact .refl _

/-! ## Writes -/

theorem State.traffic_ownWrite (s : State) (wr : Writer) (ls : List Nat) (pos : Nat) :
    State.Traffic P s (s.ownWrite wr ls pos) :=
  traffic_modWarps _ _ _ fun _ => by split <;> exact ⟨rfl⟩

theorem State.traffic_writePiece (s : State) (wr : Writer) (rmw : Bool) (bs : List (Nat × Byte)) (h : ∀ b ∈ bs, P b.1) :
    State.Traffic P s (s.writePiece wr rmw bs) := by
  unfold writePiece
  dsimp only
  refine State.Traffic.trans ?_ (traffic_ownWrite ..)
  refine ⟨rfl, fun _ => rfl, fun _ => rfl, fun _ => rfl, fun _ => rfl, fun l hl => ?_, fun x => Mem.putPiece_wf _ _ _ x,
    fun _ => id⟩
  refine Mem.putPiece_byte _ _ _ _ _ fun hm => hl ?_
  obtain ⟨b, hb, rfl⟩ := List.mem_map.1 hm
  exact h b (List.mem_filter.1 hb).1

theorem State.traffic_performPiece (s : State) (wr : Writer) (rmw : Bool) (src : Nat) (bs : List (Nat × Byte))
    (h : ∀ b ∈ bs, P b.1) : State.Traffic P s (s.performPiece wr rmw src bs) :=
  (checked_checkWrites ..).traffic.trans (traffic_writePiece _ _ _ _ h)

theorem mem_groupBy {α : Type} {key : α → Nat} {xs : List α} {g : Nat × List α} (hg : g ∈ groupBy key xs) {x : α}
    (hx : x ∈ g.2) : x ∈ xs := by
  obtain ⟨k, -, rfl⟩ := List.mem_map.1 hg
  exact (List.mem_filter.1 hx).1

theorem State.traffic_writePieces (s : State) (wr : Writer) (rmw : Bool) (n : Nat) (bs : List (Nat × Byte))
    (h : ∀ b ∈ bs, P b.1) : State.Traffic P s (s.writePieces wr rmw n bs) :=
  State.Traffic.foldl _ _ (fun _ _ hg => traffic_writePiece _ _ _ _ fun b hb => h b (mem_groupBy hg hb)) _

theorem State.traffic_performWrite (s : State) (wr : Writer) (rmw : Bool) (src n : Nat) (bs : List (Nat × Byte))
    (h : ∀ b ∈ bs, P b.1) : State.Traffic P s (s.performWrite wr rmw src n bs) :=
  (checked_checkWrites ..).traffic.trans (traffic_writePieces _ _ _ _ _ h)

/-! ## Update-only lines -/

/-- Counting what an access moves. -/
theorem State.traffic_moved (s : State) (m : SMap Moved) : State.Traffic P s { s with mem := { s.mem with moved := m } } :=
  ⟨rfl, fun _ => rfl, fun _ => rfl, fun _ => rfl, fun _ => rfl, fun _ _ => rfl, id, fun _ => id⟩

theorem State.traffic_carry (s : State) (w : Nat) (b : Bool) (ls : List Nat) : State.Traffic P s (s.carry w b ls) :=
  traffic_moved ..

theorem State.traffic_carryFar (s : State) (w n : Nat) (xs : List FarAcc) : State.Traffic P s (s.carryFar w n xs) :=
  traffic_moved ..

theorem mem_zip_left {α β : Type} {xs : List α} {ys : List β} {e : α × β} (h : e ∈ xs.zip ys) : e.1 ∈ xs :=
  (List.of_mem_zip (a := e.1) (b := e.2) h).1

theorem State.traffic_flushULine (s : State) (u : ULine) (h : ∀ e ∈ u.vals, ∀ l ∈ span e.1 (atomSize u.ty), P l) :
    State.Traffic P s (s.flushULine u) := by
  unfold flushULine
  refine State.Traffic.foldl _ _ (fun s e he => ?_) s
  dsimp only
  have hc := checked_checkReads s 0 (span e.1 (atomSize u.ty))
  generalize s.checkReads 0 (span e.1 (atomSize u.ty)) = q at hc ⊢
  obtain ⟨s1, bad⟩ := q
  dsimp only at hc ⊢
  split
  · exact hc.traffic.trans ((traffic_carry ..).trans
      (traffic_performWrite _ _ _ _ _ _ fun b hb => h e he _ (mem_zip_left hb)))
  · exact hc.traffic

/-- Removing U lines from a core. -/
theorem State.traffic_dropULines (s : State) (k : Nat) (p : ULine → Bool) :
    State.Traffic P s (s.modCore k fun c => { c with uLines := c.uLines.filter p }) where
  rest := rfl
  warp _ := rfl
  listed _ := rfl
  core j := by
    by_cases h : j = k
    · subst h; rw [modCore_core, if_pos rfl]
    · rw [modCore_core, if_neg h]
  die _ := rfl
  byte _ _ := rfl
  wf := id
  way l h := by
    rcases h with ⟨j, u, hu, x⟩ | h
    · refine .inl ⟨j, u, ?_, x⟩
      rw [modCore_core] at hu
      split at hu
      · subst j; exact (List.mem_filter.1 hu).1
      · exact hu
    · exact .inr h

theorem State.traffic_flushWhere (s : State) (sel : Nat → ULine → Bool) (h : ∀ l, s.OnItsWay l → P l) :
    State.Traffic P s (s.flushWhere sel) := by
  unfold flushWhere
  suffices hs : ∀ ks : List Nat, ∀ s1, State.Traffic P s s1 → State.Traffic P s (ks.foldl (fun s k =>
      let due (u : ULine) : Bool := sel k u && !s.offline (homeDie (128 * u.line))
      ((s.core k).uLines.filter due).foldl State.flushULine
        (s.modCore k fun c => { c with uLines := c.uLines.filter fun u => !due u })) s1) from
    hs _ _ ⟨rfl, fun _ => rfl, fun _ => rfl, fun _ => rfl, fun _ => rfl, fun _ _ => rfl, id, fun _ => id⟩
  intro ks
  induction ks with
  | nil => exact fun s1 h1 => h1
  | cons k ks ih =>
    intro s1 h1
    refine ih _ (h1.trans ((traffic_dropULines s1 k fun u => !(sel k u && !s1.offline (homeDie (128 * u.line)))).trans ?_))
    refine State.Traffic.foldl _ _ (fun s2 u hu => traffic_flushULine s2 u fun e he l hl => ?_) _
    exact h l (h1.way l (.inl ⟨k, u, (List.mem_filter.1 hu).1, e, he, hl⟩))

theorem State.traffic_recall (s : State) (ls : List Nat) (h : ∀ l, s.OnItsWay l → P l) :
    State.Traffic P s (s.recall ls) := by
  unfold State.recall
  split
  · exact .refl _
  · exact traffic_flushWhere s _ h

/-! ## Reads -/

theorem State.traffic_readHome (s : State) (src n : Nat) (fl : SMap Nat) (ls : List Nat) (h : ∀ l, s.OnItsWay l → P l) :
    State.Traffic P s (s.readHome src n fl ls).1 := by
  refine (traffic_recall s ls h).trans ?_
  have hc := checked_checkReads (s.recall ls) src (ls.filter fun l => !(s.recall ls).offline (homeDie l))
  have h2 : State.Checked _ (s.readHome src n fl ls).1 := hc.trans ⟨rfl, rfl, fun _ => rfl⟩
  exact h2.traffic

theorem State.traffic_peekHome (s : State) (src : Nat) (ls : List Nat) (h : ∀ l, s.OnItsWay l → P l) :
    State.Traffic P s (s.peekHome src ls).1 := by
  refine (traffic_recall s ls h).trans ?_
  have hc := checked_checkReads (s.recall ls) src (ls.filter fun l => !(s.recall ls).offline (homeDie l))
  exact hc.traffic

/-- What follows a step that is traffic, itself traffic where nothing outside `P` is on its way. -/
theorem State.Traffic.then (h : State.Traffic P s r) (hw : ∀ l, s.OnItsWay l → P l)
    (h' : (∀ l, r.OnItsWay l → P l) → State.Traffic P r t) : State.Traffic P s t :=
  h.trans (h' fun l hl => hw l (h.way l hl))

/-- What changes a core's L1 and error records, and so nothing that is on its way. -/
theorem State.traffic_checkL1 (s : State) (k u : Nat) : State.Traffic P s (s.checkL1 k u).1 := by
  have h1 (x : ColSt) : State.Traffic P s (s.modCore k fun c => { c with l1Err := mset .clean c.l1Err (u / 32) x }) :=
    traffic_l1 s k _ fun _ => rfl
  have h2 := (h1 .clean).trans (checked_countCorr _ (ubsLoc k 0)).traffic
  unfold checkL1
  dsimp only
  split
  · exact .refl _
  · exact .refl _
  · exact .refl _
  · exact h2
  · split
    · exact h2.trans (traffic_l1 _ k (fun c => { c with l1 := mdel c.l1 (u / 128) }) fun _ => rfl)
    · exact (h1 .poison).trans (checked_report ..).traffic

theorem State.traffic_checkL1s (s : State) (k : Nat) (ls : List Nat) : State.Traffic P s (s.checkL1s k ls).1 := by
  unfold checkL1s
  split
  · exact .refl _
  · generalize unitsOf (ls.filter isDram) = us
    suffices h : ∀ acc : State × List Nat, State.Traffic P acc.1 (us.foldl (fun acc u =>
        let (s1, bad) := acc.1.checkL1 k u
        (s1, if bad then acc.2 ++ [u] else acc.2)) acc).1 from h (s, [])
    induction us with
    | nil => exact fun acc => .refl _
    | cons q qs ih =>
      intro acc
      rw [List.foldl_cons]
      exact (traffic_checkL1 acc.1 k q).trans (ih (_, _))

theorem State.traffic_warpRead (s : State) (w src n : Nat) (ls : List Nat) (h : ∀ l, s.OnItsWay l → P l) :
    State.Traffic P s (s.warpRead w src n ls).1 := by
  unfold warpRead
  dsimp only
  have h1 := ((traffic_recall s ls h).trans (traffic_carry _ w false (s.beyondL1 (s.coreOf w) ls))).trans
    (traffic_checkL1s _ (s.coreOf w) ls)
  generalize ((s.recall ls).carry w false (s.beyondL1 (s.coreOf w) ls)).checkL1s (s.coreOf w) ls = q at h1 ⊢
  refine (h1.then h fun h2 => ?_).trans (traffic_hasRead ..)
  exact traffic_readHome q.1 src n _ ls h2

theorem State.traffic_readCounter (s : State) (ws : List Nat) (p : Word) (l : Nat) (h : ∀ l, s.OnItsWay l → P l) :
    State.Traffic P s (s.readCounter ws p l).1 := by
  unfold readCounter
  dsimp only
  split <;> exact ((traffic_carry s _ _ _).then h fun h1 => traffic_peekHome _ 0 _ h1).trans (traffic_hasRead ..)

theorem State.traffic_counterAdd (s : State) (wr : Writer) (l inc : Nat) (h : ∀ l, s.OnItsWay l → P l)
    (hl : ∀ k ∈ span l 8, P k) : State.Traffic P s (s.counterAdd wr l inc).1 := by
  unfold counterAdd
  dsimp only
  have h1 := traffic_peekHome s 0 (span l 8) h
  split
  · exact h1
  · exact h1.trans (traffic_performPiece _ _ _ _ _ fun b hb => hl _ (mem_zip_left hb))

theorem Warp.saw_record (x : Warp) (e : LateTrap) : Warp.Saw x (x.record e) := by
  unfold record
  split <;> exact ⟨rfl⟩

theorem State.traffic_countUp (s : State) (wr : Writer) (p : Word) (l inc : Nat) (h : ∀ l, s.OnItsWay l → P l)
    (hl : ∀ k ∈ span l 8, P k) : State.Traffic P s (s.countUp wr p l inc) := by
  unfold countUp
  dsimp only
  refine ((traffic_carry s _ _ _).then h fun h1 => traffic_counterAdd _ wr l inc h1 hl).trans (traffic_modWarp _ _ _ fun x => ?_)
  split
  · exact ⟨by rw [(Warp.saw_record _ _).eq]⟩
  · split
    · exact ⟨by rw [(Warp.saw_record _ _).eq]⟩
    · exact ⟨rfl⟩

/-! ## Operations in flight that take their place -/

theorem mem_mdel {α : Type} {m : SMap α} {k : Nat} {e : Nat × α} (h : e ∈ mdel m k) : e ∈ m :=
  (List.mem_filter.1 h).1

theorem mem_of_mfind {α : Type} {m : SMap α} {k : Nat} {x : α} (h : mfind m k = some x) : (k, x) ∈ m := by
  induction m with
  | nil => simp [mfind] at h
  | cons f m ih =>
    unfold mfind at h
    split at h
    · cases h; rename_i e; subst e; exact List.mem_cons_self ..
    · exact List.mem_cons_of_mem _ (ih h)

/-- Changing what is in flight, without a new `CSIG`. -/
theorem State.traffic_pend (s : State) (m : SMap Pend)
    (h : ∀ e ∈ m, e ∈ s.pend ∨ ∀ w wr p c i, e.2 ≠ .csig w wr p c i) : State.Traffic P s { s with pend := m } := by
  refine ⟨rfl, fun _ => rfl, fun _ => rfl, fun _ => rfl, fun _ => rfl, fun _ _ => rfl, id, fun l hl => ?_⟩
  rcases hl with hl | ⟨e, he, hl⟩
  · exact .inl hl
  · rcases h e he with he | hn
    · exact .inr ⟨e, he, hl⟩
    · obtain ⟨k, p⟩ := e
      cases p <;> first | exact absurd hl id | exact (hn _ _ _ _ _ rfl).elim

/-- Putting one operation that is no `CSIG` in flight. -/
theorem State.traffic_mins (s : State) (id : Nat) (p : Pend) (h : ∀ w wr a c i, p ≠ .csig w wr a c i) :
    State.Traffic P s { s with pend := mins s.pend id p } := by
  refine traffic_pend _ _ fun e he => ?_
  rcases mem_mins he with rfl | he
  · exact .inr h
  · exact .inl he

theorem State.traffic_held (s : State) (hs : List Held) : State.Traffic P s { s with held := hs } :=
  ⟨rfl, fun _ => rfl, fun _ => rfl, fun _ => rfl, fun _ => rfl, fun _ _ => rfl, id, fun _ => id⟩

theorem State.traffic_bindLoad (s : State) (id : Nat) (h : ∀ l, s.OnItsWay l → P l) :
    State.Traffic P s (s.bindLoad id) := by
  unfold bindLoad
  split
  · rename_i w a accs vals bound bad post fl hm
    dsimp only
    split
    · exact .refl _
    · generalize h0 : State.modWarp _ w _ = s0
      have h1 : State.Traffic P s s0 := by
        subst h0
        exact (traffic_dropL1 s _ _).trans (traffic_modWarp _ _ _ fun _ => ⟨rfl⟩)
      have h2 := h1.then h fun x => traffic_warpRead s0 w 0 (loadPiece accs) (loadDue accs bound post) x
      generalize s0.warpRead w 0 (loadPiece accs) (loadDue accs bound post) = q at h2 ⊢
      obtain ⟨s1, r⟩ := q
      dsimp only at h2 ⊢
      generalize h3 : State.cacheL1 s1 _ _ 0 = s2
      have h4 : State.Traffic P s s2 := by
        subst h3
        exact h2.trans (traffic_cacheL1 ..)
      exact h4.trans (traffic_mins _ _ _ (by simp))
  · exact .refl _

theorem State.traffic_performCread (s : State) (id : Nat) (h : ∀ l, s.OnItsWay l → P l) :
    State.Traffic P s (s.performCread id) := by
  unfold performCread
  split
  · rename_i w p l d hm
    have h1 := traffic_readCounter s [w] p l h
    generalize s.readCounter [w] p l = q at h1 ⊢
    exact h1.trans (traffic_mins _ _ _ (by simp))
  · exact .refl _

theorem State.traffic_performCsig (s : State) (id : Nat) (h : ∀ l, s.OnItsWay l → P l) :
    State.Traffic P s (s.performCsig id) := by
  unfold performCsig
  split
  · rename_i w wr p l inc hm
    have h1 : State.Traffic P s { s with pend := mdel s.pend id } := traffic_pend _ _ fun e he => .inl (mem_mdel he)
    refine h1.then h fun h2 => ?_
    dsimp only
    split
    · exact traffic_countUp _ wr p l inc h2 fun k hk => h k (.inr ⟨_, mem_of_mfind hm, hk⟩)
    · exact traffic_held { s with pend := mdel s.pend id } _
  · exact .refl _

theorem State.traffic_settlePend (s : State) (id : Nat) (h : ∀ l, s.OnItsWay l → P l) :
    State.Traffic P s (s.settlePend id) :=
  ((traffic_bindLoad s id h).then h fun h1 => traffic_performCread _ id h1).then h fun h1 => traffic_performCsig _ id h1

/-- A fold of steps each of which is traffic where nothing outside `P` is on its way. -/
theorem State.Traffic.folding {α : Type} (xs : List α) (f : State → α → State)
    (h : ∀ s, (∀ l, s.OnItsWay l → P l) → ∀ x ∈ xs, State.Traffic P s (f s x)) :
    ∀ s, (∀ l, s.OnItsWay l → P l) → State.Traffic P s (xs.foldl f s) := by
  induction xs with
  | nil => exact fun s _ => .refl s
  | cons x xs ih =>
    intro s hs
    exact (h s hs x (List.mem_cons_self ..)).then hs (ih (fun s hs y hy => h s hs y (List.mem_cons_of_mem _ hy)) _)

theorem State.traffic_flushOwn (s : State) (w id : Nat) (ls : List Nat) (h : ∀ l, s.OnItsWay l → P l) :
    State.Traffic P s (s.flushOwn w id ls) := by
  unfold flushOwn
  split
  · exact .refl _
  · exact State.Traffic.folding _ _ (fun s hs x _ => traffic_settlePend s x hs) s h

theorem State.traffic_settleReads (s : State) (w : Nat) (h : ∀ l, s.OnItsWay l → P l) :
    State.Traffic P s (s.settleReads w) := by
  unfold settleReads
  refine State.Traffic.folding _ _ (fun s hs e _ => ?_) s h
  split
  · split
    · exact ((traffic_flushOwn s w e.1 _ hs).then hs fun h1 => traffic_bindLoad _ _ h1).then hs fun h1 =>
        traffic_performCread _ _ h1
    · exact .refl _
  · exact .refl _

theorem State.traffic_settleAll (s : State) (ws : List Nat) (h : ∀ l, s.OnItsWay l → P l) :
    State.Traffic P s (s.settleAll ws) := by
  unfold settleAll
  split
  · exact .refl _
  · exact State.Traffic.folding _ _ (fun s hs w _ => traffic_settleReads s w hs) s h

theorem State.traffic_readNow (s : State) (w src : Nat) (ls : List Nat) (h : ∀ l, s.OnItsWay l → P l) :
    State.Traffic P s (s.readNow w src ls).1 := by
  unfold readNow
  dsimp only
  exact ((traffic_flushOwn s w s.nextId ls h).then h fun h1 => traffic_warpRead _ _ _ _ _ h1).trans (traffic_cacheL1 ..)

/-! ## Stores, releases and acquires -/

theorem State.traffic_noteRel (s : State) (id : Nat) (ls : List Nat) : State.Traffic P s (s.noteRel id ls) := by
  unfold noteRel
  split
  · exact traffic_mins _ _ _ (by simp)
  · exact .refl _

theorem State.traffic_storeUnits (s : State) (id : Nat) (wr : Writer) (src n : Nat) (us : List (Word × List (Nat × Byte)))
    (h : ∀ l, s.OnItsWay l → P l) (hb : ∀ u ∈ us, ∀ b ∈ u.2, P b.1) : State.Traffic P s (s.storeUnits id wr src n us) := by
  unfold storeUnits
  dsimp only
  refine (traffic_carry s (wr.ws.headD 0) true (us.flatMap fun u => u.2.map (·.1))).then h fun h => ?_
  generalize s.carry (wr.ws.headD 0) true (us.flatMap fun u => u.2.map (·.1)) = s at h ⊢
  refine State.Traffic.trans (State.Traffic.trans (State.Traffic.trans ?_
    (State.Traffic.foldl _ _ (fun s u hu => traffic_writePieces _ _ _ _ _ (hb u (List.mem_filter.1 hu).1)) _))
    (traffic_noteRel ..)) (traffic_held _ _)
  have hf := State.Traffic.folding wr.ws (fun s w => s.flushOwn w id (us.flatMap fun u => u.2.map (·.1)))
    (fun s hs w _ => traffic_flushOwn s w id _ hs) s h
  refine hf.then h fun h1 => ?_
  split
  · exact .refl _
  · exact (traffic_recall _ _ h1).trans (checked_checkWrites ..).traffic

theorem State.traffic_storeAs (s : State) (id : Nat) (wr : Writer) (src : Nat) (p : Word) (bs : List (Nat × Byte))
    (h : ∀ l, s.OnItsWay l → P l) (hb : ∀ b ∈ bs, P b.1) : State.Traffic P s (s.storeAs id wr src p bs) := by
  refine traffic_storeUnits s id wr src _ _ h fun u hu b hbu => hb b ?_
  obtain ⟨g, hg, rfl⟩ := List.mem_map.1 hu
  exact mem_groupBy hg hbu

theorem State.traffic_fresh (s : State) : State.Traffic P s s.fresh.2 :=
  ⟨rfl, fun _ => rfl, fun _ => rfl, fun _ => rfl, fun _ => rfl, fun _ _ => rfl, id, fun _ => id⟩

theorem State.traffic_store (s : State) (ws : List Nat) (src : Nat) (p : Word) (bs : List (Nat × Byte))
    (h : ∀ l, s.OnItsWay l → P l) (hb : ∀ b ∈ bs, P b.1) : State.Traffic P s (s.store ws src p bs) := by
  unfold store
  dsimp only
  exact ((traffic_fresh s).then h fun h1 => traffic_storeAs _ _ _ _ _ _ h1 hb).trans (traffic_cacheL1 ..)

theorem State.traffic_deviceRelease (s : State) (k : Nat) (sc : MScope) (v : SMap Nat) :
    State.Traffic P s (s.deviceRelease k sc v).1 :=
  ⟨rfl, fun _ => rfl, fun _ => rfl, fun _ => rfl, fun _ => rfl, fun _ _ => rfl, id, fun _ => id⟩

theorem State.traffic_flushReds (s : State) (ws : List Nat) (h : ∀ l, s.OnItsWay l → P l) :
    State.Traffic P s (s.flushReds ws) := by
  unfold flushReds
  split
  · exact .refl _
  · exact traffic_flushWhere _ _ h

theorem State.traffic_joinMembers (s : State) (ws : List Nat) : State.Traffic P s (s.joinMembers ws) := by
  unfold joinMembers
  split
  · exact .refl _
  · exact traffic_modWarps _ _ _ fun _ => ⟨rfl⟩

theorem State.traffic_cleanL1 (s : State) (k : Nat) (view : SMap Nat) : State.Traffic P s (s.cleanL1 k view) := by
  unfold cleanL1
  dsimp only
  refine State.Traffic.trans ?_ (State.Traffic.foldl _ _ (fun _ _ _ => (checked_setSector ..).traffic) _)
  exact traffic_l1 s k _ fun _ => rfl

theorem State.traffic_release (s : State) (ws : List Nat) (sc : MScope) (h : ∀ l, s.OnItsWay l → P l) :
    State.Traffic P s (s.release ws sc).1 := by
  unfold release
  dsimp only
  refine State.Traffic.trans ?_ (traffic_modWarps _ _ _ fun _ => ⟨rfl⟩)
  have h1 := ((traffic_settleAll s ws h).then h fun h1 => traffic_flushReds _ ws h1).trans (traffic_joinMembers _ ws)
  generalize (((s.settleAll ws).flushReds ws).joinMembers ws) = s2 at h1 ⊢
  refine h1.trans ?_
  generalize mins s2.mem.rels s2.nextId _ = m
  have h2 : State.Traffic P s2 { s2 with nextId := s2.nextId + 1, mem := { s2.mem with rels := m } } :=
    ⟨rfl, fun _ => rfl, fun _ => rfl, fun _ => rfl, fun _ => rfl, fun _ _ => rfl, id, fun _ => id⟩
  split
  · exact h2
  · exact h2.trans (traffic_cleanL1 ..)

theorem State.traffic_acquire (s : State) (ws : List Nat) (sc : MScope) (h : ∀ l, s.OnItsWay l → P l) :
    State.Traffic P s (s.acquire ws sc) := by
  unfold acquire
  dsimp only
  refine State.Traffic.trans ((traffic_settleAll s ws h).trans ((traffic_joinMembers _ ws).trans ?_))
    (traffic_modWarps _ _ _ fun _ => ⟨rfl⟩)
  split
  · exact .refl _
  · exact traffic_l1 _ _ _ fun _ => rfl

/-! ## Translations -/

theorem State.traffic_tableEntry (s : State) (host : Bool) (va lvl tab : Nat) (h : ∀ l, s.OnItsWay l → P l) :
    State.Traffic P s (s.tableEntry host va lvl tab).1 := by
  have h1 := traffic_peekHome s 0 (span (tab + 8 * walkIndex lvl va) 8) h
  unfold tableEntry
  dsimp only
  generalize s.peekHome 0 (span (tab + 8 * walkIndex lvl va) 8) = q at h1 ⊢
  split
  · exact h1.trans (checked_report ..).traffic
  · split <;> exact h1

theorem State.traffic_walk (host : Bool) (va : Nat) : ∀ (lvl : Nat) (s : State) (tab : Nat), (∀ l, s.OnItsWay l → P l) →
    State.Traffic P s (s.walk host va lvl tab).1 := by
  intro lvl
  induction lvl with
  | zero =>
    intro s tab h
    have h1 := traffic_tableEntry s host va 0 tab h
    unfold walk
    split <;> rename_i e <;> rw [e] at h1 <;> exact h1
  | succ n ih =>
    intro s tab h
    have h1 := traffic_tableEntry s host va (n + 1) tab h
    unfold walk
    split <;> rename_i e <;> rw [e] at h1
    · exact h1
    · split
      · exact h1
      · exact h1.trans (ih _ _ fun l hl => h l (h1.way l hl))

theorem State.traffic_tlb (s : State) (m : List Tlb) : State.Traffic P s { s with mem := { s.mem with tlb := m } } :=
  ⟨rfl, fun _ => rfl, fun _ => rfl, fun _ => rfl, fun _ => rfl, fun _ _ => rfl, id, fun _ => id⟩

theorem State.traffic_tlbFill (s : State) (c : Nat) (host : Bool) (va : Nat) (e : Word) (lvl : Nat) :
    State.Traffic P s { s with mem := s.mem.tlbFill c host va e lvl } := by
  unfold Mem.tlbFill
  dsimp only
  split
  · exact .refl _
  · exact traffic_tlb ..

theorem State.traffic_free (s : State) (n : Nat) : State.Traffic P s { s with free := n } :=
  ⟨rfl, fun _ => rfl, fun _ => rfl, fun _ => rfl, fun _ => rfl, fun _ _ => rfl, id, fun _ => id⟩

theorem State.traffic_walked (s : State) (c : Nat) (host : Bool) (w : How) (p : Word) (va : Nat)
    (x : Except (Nat × Nat) (Word × Nat)) : State.Traffic P s (s.walked c host w p va x).1 := by
  unfold walked
  split
  · exact traffic_tlbFill ..
  · exact .refl _
  · exact .refl _

theorem State.traffic_translate (s : State) (c : Nat) (host : Bool) (w : How) (p : Word) (va : Nat)
    (h : ∀ l, s.OnItsWay l → P l) : State.Traffic P s (s.translate c host w p va).1 := by
  have h1 := traffic_walk (P := P) host va 3 s (if host then (s.ctx c).crec.hroot else (s.ctx c).crec.droot) h
  unfold translate
  dsimp only
  generalize s.walk host va 3 (if host then (s.ctx c).crec.hroot else (s.ctx c).crec.droot) = q at h1 ⊢
  obtain ⟨s1, x⟩ := q
  dsimp only at h1 ⊢
  have hf : State.Traffic P s s1.freshFree.2 := h1.trans (traffic_free s1 (s1.free + 1))
  generalize (s1.mem.tlbHits c host va) = hits
  generalize List.all hits _ = all
  cases all
  · rw [if_neg (by simp)]
    split
    · exact hf
    · exact hf.trans (traffic_walked ..)
  · exact h1.trans (traffic_walked ..)

theorem State.traffic_devByte (s : State) (c : Nat) (w : How) (p : Word) (va : Nat) (h : ∀ l, s.OnItsWay l → P l) :
    State.Traffic P s (s.devByte c w p va).1 := by
  have h1 := traffic_translate s c false w p va h
  unfold devByte
  split <;> rename_i e <;> rw [e] at h1 <;> exact h1

theorem State.traffic_place (s : State) (w : Nat) (a : How) (p : Word) (h : ∀ l, s.OnItsWay l → P l) :
    State.Traffic P s (s.place w a p).1 := by
  unfold place
  dsimp only
  split
  · split
    · exact .refl _
    · exact traffic_devByte _ _ _ _ _ h
  · split
    · exact .refl _
    · exact traffic_devByte _ _ _ _ _ h
  · split
    · exact .refl _
    · exact traffic_devByte _ _ _ _ _ h
  · split
    · exact .refl _
    · split <;> exact .refl _
  · split <;> exact .refl _
  · split
    · exact .refl _
    · exact traffic_devByte _ _ _ _ _ h
  · exact .refl _
  · split
    · exact .refl _
    · split <;> exact .refl _
  · split
    · exact .refl _
    · have h1 := traffic_translate s (s.warp w).ctx true a p (p.extractLsb' 0 48).toNat h
      split <;> rename_i e <;> rw [e] at h1 <;> exact h1
  · exact .refl _

theorem State.traffic_places (w : Nat) (a : How) (p : Word) : ∀ (n : Nat) (s : State), (∀ l, s.OnItsWay l → P l) →
    State.Traffic P s (s.places w a p n).1 := by
  intro n
  induction n with
  | zero => exact fun s _ => .refl s
  | succ n ih =>
    intro s h
    have h1 := ih s h
    unfold places
    split
    · rename_i e; rw [e] at h1; exact h1
    · rename_i s1 ps e
      rw [e] at h1
      have h2 := h1.trans (traffic_place s1 w a (p + BitVec.ofNat 64 n) fun l hl => h l (h1.way l hl))
      split <;> rename_i e2 <;> rw [e2] at h2 <;> exact h2

end Sys2Proof.Machine
end

