-- ==== Sys2Proof/Tests/Slice0.lean ====
section
/-! SUPPORT. Tests: decoding against words of the spec, well-formedness, and for every statement with hypotheses a
concrete state and operands that meet them. -/

open Sys2Proof Sys2Proof.Machine

namespace Sys2Proof.Tests

-- The kernel evaluates these one after another: side by side they ask for more memory than the check gives.
set_option Elab.async false

/-! ## Helpers -/

/-- A booted device with one resident warp, standing at 0x10000 before empty memory. -/
def demo : State := State.reset.placeWords []

/-- The same with the warp changed. -/
def demoW (f : Warp → Warp) : State := demo.modWarp 0 f

/-- A warp of the device at its place. -/
def placedOk (s : State) (w : Nat) : Bool :=
  (mfind s.warps w).isSome && (mfind s.blocks (s.warp w).blk).isSome && !(s.warp w).retired &&
  w == 32 * (s.warp w).blk + (s.warp w).wid && decide ((s.warp w).wid < 32)

/-- The conditions of `State.Issues`, computed. -/
def issuesOk (s : State) (o : Op) (a : Args) (poison : State → Grp → Option Trap) (g : Grp) : Bool :=
  placedOk s s.cur && g.ws.all (placedOk s) && decide (s.precheck o a s.cur = .ok) &&
  decide ((s.gather o a).2 = some g) && !(s.gather o a).1.budgetStalls (leaderOf g) a.ec &&
  (!Args.together a || (g.ws.filter fun m => lateDue o a ((s.gather o a).1.warp m)).isEmpty) &&
  (poison (s.stood o a g) g).isNone && !((rowOf o a.func.toNat).conv && (s.gather o a).1.unconverged g) &&
  !(s.stood o a g).batchBad g o a

/-- The same with the sources of the instruction's operands. -/
abbrev plainOk (s : State) (o : Op) (a : Args) (g : Grp) : Bool := issuesOk s o a (fun s g => s.plainPoison o a g) g

theorem placed_of {s : State} {w : Nat} (h : placedOk s w = true) : s.Placed w := by
  simp only [placedOk, Bool.and_eq_true, Bool.not_eq_true', beq_iff_eq, decide_eq_true_eq] at h
  obtain ⟨⟨⟨⟨h1, h2⟩, h3⟩, h4⟩, h5⟩ := h
  exact ⟨h1, h2, h3, h4, h5⟩

/-- The computed conditions are those of the statements. -/
theorem issues_of {s : State} {o : Op} {a : Args} {p : State → Grp → Option Trap} {g : Grp}
    (h : issuesOk s o a p g = true) : s.Issues o a p g := by
  simp only [issuesOk, Bool.and_eq_true, Bool.not_eq_true', decide_eq_true_eq, Option.isNone_iff_eq_none,
    List.all_eq_true] at h
  obtain ⟨⟨⟨⟨⟨⟨⟨⟨h1, h2⟩, h3⟩, h4⟩, h5⟩, h6⟩, h7⟩, h8⟩, h9⟩ := h
  exact ⟨placed_of h1, fun w hw => placed_of (h2 w hw), h3, h4, h5, fun ht => by simpa [ht] using h6, h7,
    fun hc => by simpa [hc] using h8, h9⟩

/-- An access answers a value, and `p` holds of the state and the value. -/
def okAnd {ε α : Type} (x : State × Except ε α) (p : State → α → Bool) : Bool :=
  match x.2 with
  | .ok a => p x.1 a
  | .error _ => false

/-- An access fails. -/
def fails {ε α : Type} (x : State × Except ε α) : Bool :=
  match x.2 with
  | .ok _ => false
  | .error _ => true

/-- What `okAnd` says. -/
theorem of_okAnd {ε α : Type} {x : State × Except ε α} {p : State → α → Bool} (h : okAnd x p = true) :
    ∃ s a, x = (s, .ok a) ∧ p s a = true := by
  obtain ⟨s, r⟩ := x
  cases r with
  | error e => cases h
  | ok a => exact ⟨s, a, rfl, h⟩

/-- What `fails` says. -/
theorem of_fails {ε α : Type} {x : State × Except ε α} (h : fails x = true) : ∃ s e, x = (s, .error e) := by
  obtain ⟨s, r⟩ := x
  cases r with
  | error e => exact ⟨s, e, rfl⟩
  | ok a => cases h

/-- The kind an operand takes in the sample form below. -/
def sampleKind (o : Opnd) (sc : Scope) : Kind := if o.present && !o.opt then (o.kinds sc).headD .v else .v

/-- A legal extended form of every program instruction, with registers 0 and the first kinds and type that its row allows. -/
def sample (o : Op) : Args :=
  let func : BitVec 8 := match o with
    | .swr => 0x11 | .swrExec => 0x09 | .swrFpmode => 0x04 | .swrOvfFlags => 0x06 | .swrAshape => 0x07
    | .swrLossScale => 0x05 | .swrEbudget => 0x03 | .swrDumpBase => 0x14 | .swrTraceCtl => 0x15 | .srd => 0x24
    | _ => ((List.range 256).find? fun f => funcOk o f).getD 0
  let row := rowOf o func.toNat
  let sc := row.scopes.headD .warp
  let g : Args := { form := .ext, scope := sc, kd := sampleKind row.d sc, ka := sampleKind row.a sc, kb := sampleKind row.b sc,
                    kc := sampleKind row.c sc, func, ty := row.types.headD .i64 }
  match o with
  | .tzero | .pushm | .popm => { g with imm := 1 }
  | .cpyg | .cpys => { g with imm := 4 }
  | .swr | .swrExec | .swrFpmode | .swrOvfFlags | .swrAshape | .swrLossScale | .swrEbudget | .swrDumpBase | .swrTraceCtl
  | .sleep => { g with ka := .s }
  | _ => g

/-- Bytes that memory holds from the first, at a location. -/
def poke (s : State) (l : Nat) (bs : List Byte) : State :=
  { s with mem := { s.mem with bytes := msetRange 0 s.mem.bytes l bs } }

/-- A second context, of the given kind, without a core. -/
def demo2 (f : Ctx → Ctx) : State := { demo with ctxs := mins demo.ctxs 1 (f {}) }

/-- A warp-scope form with scalar operands. -/
def sForm : Args := { form := .ext, scope := .warp, kd := .s, ka := .s, kb := .s }

/-- The state in which the effect of an instruction of the current warp alone begins. -/
abbrev op0 (s : State) (o : Op) (a : Args) : State := s.opened o a s.alone

/-- `demo` with 1 MiB of vault 0 granted to its context. -/
def demoV : State := demo.modCtx 0 fun c => { c with crec := { c.crec with vgrant := [(0, 0, 16)] } }

/-! ## Decoding: words written out from the spec's encodings (R61 to R78 and the worked encodings) -/

/-- R64: a B3 word, `ADD v1, v2, v3`. -/
theorem test_decode_add : decodeWords [0x03081200] = .ok (.add { d := 1, a := 2, b := 3 }) := by decide

/-- R65: a BI word at warp scope with END, `ADDI s4, s4, 16`. -/
theorem test_decode_addi : decodeWords [0x101044AC] =
    .ok (.addi { scope := .warp, fin := true, kd := .s, ka := .s, kb := .s, kc := .s, d := 4, a := 4, imm := 16 }) := by decide

/-- R65: IMM8 is sign-extended, `MOVI s5, -1`. -/
theorem test_decode_movi : decodeWords [0xFF005468] =
    .ok (.movi { scope := .warp, kd := .s, ka := .s, kb := .s, kc := .s, d := 5, imm := 0xFFF }) := by decide

/-- R67: operand B is the literal word, `BFX v12, v11, 0x7C0` with END clear, at lane scope. -/
theorem test_decode_bfx : decodeWords [0x002CC4C1, 0x7C0] = .ok (.bfx { form := .baseLit, d := 12, a := 11, lit := 0x7C0 }) := by
  decide

/-- R69: an extended word, `FFMA` of halves under p3 inverted, rounding toward zero. -/
theorem test_decode_ffma : decodeWords [0x00010662, 0x07050282, 0x0000B019] =
    .ok (.ffma { form := .ext, kb := .s, d := 130, a := 2, b := 5, c := 7, ty := .f16x4, rnd := .rtz, p := 3, pn := true }) := by
  decide

/-- R69: the 64-bit literal in operand C, its low word first. -/
theorem test_decode_mad : decodeWords [0x000C0283, 0x00030201, 0, 0, 1] =
    .ok (.mad { form := .extLit, kc := .x, d := 1, a := 2, b := 3, lit := 0x100000000 }) := by decide

/-- R66: `IF p2` with its else path at OFF and its join in the literal. -/
theorem test_decode_if : decodeWords [0x000220C1, 6] = .ok (.ifc { form := .baseLit, p := 2, off := 4, lit := 6 }) := by decide

/-- R66: `LOOP` with a 17-bit offset. -/
theorem test_decode_loop : decodeWords [0x00058120] = .ok (.loopc { off := 11 }) := by decide

/-- R104: `BRC.REG` compares scalar 3 with zero. -/
theorem test_decode_brc : decodeWords [0xFF90404A, 0x300, 0x00101000] =
    .ok (.brcReg { form := .ext, scope := .warp, ka := .s, a := 3, imm := 0xFF9, p := 1, func := 1 }) := by decide

/-- R144: `LRED.FMAX` of FP32 into a register. -/
theorem test_decode_lred : decodeWords [0x862, 0x102, 0x00A00006] =
    .ok (.lred { form := .ext, d := 2, a := 1, func := 10, ty := .f32 }) := by decide

/-- R171: a load of 8 bytes through v1. -/
theorem test_decode_ld : decodeWords [0x0A02, 0x102, 0] = .ok (.ld { form := .ext, d := 2, a := 1 }) := by decide

/-- R175: a copy of 256 B. -/
theorem test_decode_cpy : decodeWords [0x100D5A6A, 0x00010208, 0] =
    .ok (.cpy { form := .ext, scope := .warp, kd := .s, ka := .s, kb := .s, kc := .x, d := 8, a := 2, b := 1, imm := 256 }) := by
  decide

/-- R194: `CSIG.rel.dev` and `CWAIT.acq.dev`. -/
theorem test_decode_csig : decodeWords [0x00044B8A, 0x05000400, 0x20100000] =
    .ok (.csig { form := .ext, scope := .warp, ka := .s, kc := .s, a := 4, c := 5, func := 1, sub := 2 }) := by decide

/-- R194. -/
theorem test_decode_cwait : decodeWords [0x00045BAA, 0x07000406, 0x20200000] =
    .ok (.cwait { form := .ext, scope := .warp, kd := .s, ka := .s, kc := .s, d := 6, a := 4, c := 7, func := 2, sub := 2 }) := by
  decide

/-- R186: `BAR.MEET 3` and `BAR.QRY` of a cluster barrier. -/
theorem test_decode_bar : decodeWords [0x00300C0A, 0, 0x00200000] = .ok (.barMeet { form := .ext, scope := .warp, imm := 3, func := 2 }) ∧
    decodeWords [0x01201C0A, 4, 0x00400000] =
      .ok (.barQry { form := .ext, scope := .warp, kd := .s, d := 4, imm := 0x12, func := 4 }) := by decide

/-- R206: `WAIT 0, 0, 255, 255`. -/
theorem test_decode_wait : decodeWords [0x000FFC4A, 0xFFFF0000, 0] =
    .ok (.wait { form := .ext, scope := .warp, kd := .x, ka := .x, kb := .x, kc := .x, b := 255, c := 255 }) := by decide

/-- R221: `MMA.Z t0, d1`. -/
theorem test_decode_mma : decodeWords [0xFCAA, 0x100, 0x00100000] =
    .ok (.mma { form := .ext, scope := .warp, kd := .x, ka := .x, a := 1, func := 1 }) := by decide

/-- R235: `XFFT.INV` with END. -/
theorem test_decode_xfft : decodeWords [0x00030D42, 0x00020809, 0x00100000] =
    .ok (.xfftInv { form := .ext, kb := .x, d := 9, a := 8, b := 2, func := 1 }) := by decide

/-- R246: `TAG.ADJ d4, d4, -3`. -/
theorem test_decode_tag : decodeWords [0xFFD0FD8A, 0x404, 0x00100000] =
    .ok (.tagAdj { form := .ext, scope := .warp, kd := .x, ka := .x, d := 4, a := 4, imm := 0xFFD, func := 1 }) := by decide

/-- R250: `NB.DOT.f16` of 2048 B. -/
theorem test_decode_nb : decodeWords [0x800D5DAA, 0x00030208, 8] =
    .ok (.nbDot { form := .ext, scope := .warp, kd := .s, ka := .s, kb := .s, kc := .x, d := 8, a := 2, b := 3, imm := 0x800,
                  ty := .f16 }) := by decide

/-- R258: `JIG.ARM.haste` of slot 1 with a counter. -/
theorem test_decode_jig : decodeWords [0x01155DCA, 0x04030208, 0x00100000] =
    .ok (.jigArm { form := .ext, scope := .warp, kd := .s, ka := .s, kb := .s, kc := .s, d := 8, a := 2, b := 3, c := 4,
                   imm := 17, func := 1 }) := by decide

/-- R271: `JRN.BEGIN s6`. -/
theorem test_decode_jrn : decodeWords [0x1DEA, 6, 0] = .ok (.jrnBegin { form := .ext, scope := .warp, kd := .s, d := 6 }) := by
  decide

/-- R120, R121: `SRD v1, LANEID` and `SWR EPC, s30`. -/
theorem test_decode_special : decodeWords [0x0E02, 1, 0x02400000] = .ok (.srd { form := .ext, d := 1, func := 0x24 }) ∧
    decodeWords [0x4E2A, 0x1E00, 0x01100000] = .ok (.swr { form := .ext, scope := .warp, ka := .s, a := 30, func := 0x11 }) := by
  decide

/-- R76: a reserved major opcode decodes to its row, at every LEN. -/
theorem test_decode_reserved : decodeWords [0x05E0] = .ok (.reservedOpcode 0x05E0) ∧
    decodeWords [0x0F03] = .ok (.reservedOpcode 0x0F03) := by decide

/-- R63, R76: an extended opcode in a base form, and fields that step 3 refuses. -/
theorem test_decode_refused : decodeWords [0x0A00] = .error .illegalLen ∧
    decodeWords [0x0A02, 0x102, 0x00200000] = .error .illegalField ∧
    decodeWords [0x0A02, 0x102, 0x0000000F] = .error .illegalField ∧
    decodeWords [0x0A02, 0x102] = .error .short := by decide

/-- The encoder writes a spec word back. -/
theorem test_encode : encode (.add { d := 1, a := 2, b := 3 }) = [0x03081200] ∧
    encode (.mad { form := .extLit, kc := .x, d := 1, a := 2, b := 3, lit := 0x100000000 }) = [0x000C0283, 0x00030201, 0, 0, 1] ∧
    encode (.ifc { form := .baseLit, p := 2, off := 4, lit := 6 }) = [0x000220C1, 6] := by decide

/-! ## Well-formedness -/

/-- Ill-formed program instructions: a FUNC, a TYPE, a rounding mode, a saturation, a predicate, a kind, a register field of
an absent operand, a sub-element, and a limit of `TZERO` that its rules refuse. -/
theorem test_wf_refuses_fields :
    (Instr.wf (.sfn { form := .ext, func := 11, ty := .f32 }) = false) ∧
    (Instr.wf (.fadd { form := .ext, ty := .i64 }) = false) ∧
    (Instr.wf (.add { form := .ext, rnd := .rtz }) = false) ∧
    (Instr.wf (.shl { form := .ext, sat := true }) = false) ∧
    (Instr.wf (.add { form := .ext, scope := .warp, kd := .s, ka := .s, kb := .s, p := 1 }) = false) ∧
    (Instr.wf (.add { form := .ext, kd := .s }) = false) ∧
    (Instr.wf (.clz { form := .ext, b := 1 }) = false) ∧
    (Instr.wf (.fadd { form := .ext, sub := 4, ty := .f32 }) = false) ∧
    (Instr.wf (.tzero { form := .ext, scope := .warp, kd := .x, d := 7, imm := 2 }) = false) := by decide

/-- Fields that no form holds: a base form with a modifier, with a register beyond 63, with a type that is not the default;
an extended form with an offset, or with a literal that its length lacks. -/
theorem test_wf_refuses_noncanonical :
    (Instr.wf (.add { sat := true }) = false) ∧ (Instr.wf (.add { d := 64 }) = false) ∧
    (Instr.wf (.add { ty := .i32 }) = false) ∧ (Instr.wf (.bra { off := 1, d := 1 }) = false) ∧
    (Instr.wf (.addi { imm := 0x80 }) = false) ∧ (Instr.wf (.add { form := .ext, off := 1 }) = false) ∧
    (Instr.wf (.add { form := .ext, lit := 1 }) = false) ∧ (Instr.wf (.add { lit := 1 }) = false) ∧
    (Instr.wf (.add { form := .baseLit, lit := 0x100000000 }) = false) := by decide

/-- Events whose operands name no part of the device. -/
theorem test_wf_refuses_events :
    ([Instr.runArbitration 160 0, .runArbitration 0 8, .fenceCopyRow 256 0, .fenceCopyRow 0 2, .xfftAccept 160 0,
      .xfftAccept 0 2, .xfftComplete 160 0, .xfftComplete 0 2, .wldComplete 160, .arrayOpComplete 160 []].all fun i => !i.wf) ∧
    ([Instr.bandAdmit 4, .slewStep 4, .wearTick 4 .below70, .boostStep 4 true true, .dieLost 4, .dieQuiesce 4, .dieDrain 4,
      .dieRetrain 4 true, .dieReadmit 4, .warmReset .sill 4].all fun i => !i.wf) ∧
    ([Instr.bandOn 160 0, .bandOn 0 4, .bandHoldExpire 160 0, .bandHoldExpire 0 4, .bandWakeRefused 160 0,
      .bandWakeRefused 0 4, .girtFlitError ⟨18, 0⟩, .linkTraining 18 0 true true true, .ucieLinkDown 4].all fun i => !i.wf) ∧
    ([Instr.injStore 256 0, .bankErrClear 256 0, .marchStore 256 0, .marchComplete 256 [], .measurementExtend 16 0,
      .measurementExtend 4 0, .measurementExtend 7 0, .coreRestart .sill 160].all fun i => !i.wf) ∧
    ([Instr.contextCreate .sill { ctx := 65536 }, .contextCreate .sill { cores := [160] }, .contextChange .sill { ctx := 65536 },
      .contextChange .sill { cores := [160] }, .reservedOpcode 0].all fun i => !i.wf) := by decide

/-- The same events at the last value in range are well formed. -/
theorem test_wf_accepts_bounds :
    ([Instr.runArbitration 159 7, .fenceCopyRow 255 1, .xfftAccept 159 1, .wldComplete 159, .bandAdmit 3, .bandOn 159 3,
      .girtFlitError ⟨17, 0⟩, .ucieLinkDown 3, .injStore 255 0, .measurementExtend 3 0, .measurementExtend 8 0,
      .measurementExtend 15 0, .contextCreate .sill { ctx := 65535, cores := [159] }, .reservedOpcode 0x05E0].all Instr.wf) := by
  decide

/-! ## Witnesses: where instructions issue -/

/-- Every instruction of a list is well formed and issues in `demo`. -/
def sampleIssues (os : List Op) : Bool :=
  os.all fun o => (Instr.ofOp o (sample o)).wf && plainOk demo o (sample o) demo.alone

/-- What a sample says. -/
theorem sample_issues {os : List Op} (h : sampleIssues os = true) {o : Op} (ho : o ∈ os) :
    (Instr.ofOp o (sample o)).wf = true ∧ demo.IssuesPlain o (sample o) demo.alone := by
  have := List.all_eq_true.1 h o ho
  simp only [Bool.and_eq_true] at this
  exact ⟨this.1, issues_of this.2⟩

theorem witness_issues0 : sampleIssues Op.all0 = true := by decide +kernel
theorem witness_issues1 : sampleIssues Op.all1 = true := by decide +kernel
theorem witness_issues2 : sampleIssues Op.all2 = true := by decide +kernel
theorem witness_issues3 : sampleIssues Op.all3 = true := by decide +kernel
theorem witness_issues4 : sampleIssues Op.all4 = true := by decide +kernel
theorem witness_issues5 : sampleIssues Op.all5 = true := by decide +kernel
theorem witness_issues6 : sampleIssues Op.all6 = true := by decide +kernel

/-! ## Witnesses: selection, cross-lane and predicate instructions -/

/-- Elementwise instructions issue at set and at block scope too, and at warp scope. -/
theorem witness_scopes : ([Scope.set, .block].all fun sc =>
      plainOk demo .add { form := .ext, scope := sc, d := 1, a := 2, b := 3 } demo.alone &&
      plainOk demo .fadd { form := .ext, scope := sc, d := 1, a := 2, b := 3, ty := .f32 } demo.alone &&
      plainOk demo .cmp { form := .ext, scope := sc, d := 1, a := 2, b := 3 } demo.alone) = true ∧
    plainOk demo .add { form := .ext, scope := .warp, kd := .s, ka := .s, kb := .x, imm := 7 } demo.alone = true ∧
    plainOk demo .cmp { form := .ext, scope := .warp, kd := .s, ka := .s, kb := .s, d := 1 } demo.alone = true := by decide +kernel

/-- `SEL`, and the moves between lanes with the poison that each reads. -/
theorem witness_select_moves :
    issuesOk demo .sel (sample .sel) (fun s g => s.srcTraps g (fun m => lanesOf m.2) (namedOpnds (rowOf .sel 0) (sample .sel)))
      demo.alone = true ∧
    issuesOk demo .lshuf (sample .lshuf)
      (fun s g => s.xpoison g (sample .lshuf) .lshuf ((s.xacted g (sample .lshuf)).map (s.shufIdx g (sample .lshuf)))
        (s.xacted g (sample .lshuf))) demo.alone = true ∧
    issuesOk demo .lrot (sample .lrot)
      (fun s g => s.xpoison g (sample .lrot) .lrot ((s.xacted g (sample .lrot)).map (s.rotIdx g (sample .lrot)))
        ((s.xacted g (sample .lrot)).take 1)) demo.alone = true ∧
    issuesOk demo .lbc (sample .lbc)
      (fun s g => s.xpoison g (sample .lbc) .lbc
        (if (s.xacted g (sample .lbc)).isEmpty then [] else [s.bcIdx g (sample .lbc)]) ((s.xacted g (sample .lbc)).take 1))
      demo.alone = true := by decide +kernel

/-- The last group of `BALLOT` at lane scope is 0. -/
theorem witness_ballot : demo.IssuesPlain .ballot (sample .ballot) demo.alone ∧
    (sample .ballot).imm.toNat < ((op0 demo .ballot (sample .ballot)).xlanes demo.alone (sample .ballot) + 63) / 64 :=
  ⟨issues_of (by decide +kernel), by decide +kernel⟩

/-- `PMOV` in each of its forms. -/
def pmovForm (f : BitVec 8) : Args :=
  { form := .ext, scope := .warp, kd := if f = 5 then .v else .s, ka := if f = 3 ∨ f = 4 then .v else .s,
    d := if f = 5 then 0 else 1, a := if f = 3 ∨ f = 4 then 0 else 1, func := f }

/-- Every form of `PMOV` issues; the last narrows EXEC to lanes that are live. -/
theorem witness_pmov : ([0, 1, 2, 3, 4, 5].all fun f =>
      (Instr.pmov (pmovForm f)).wf && plainOk (demoW fun w => w.pset 1 1) .pmov (pmovForm f) demo.alone) = true ∧
    (let x := (op0 (demoW fun w => w.pset 1 1) .pmov (pmovForm 5)).warp 0
     x.pget 1 &&& x.live ≠ 0) := by decide +kernel

/-! ## Witnesses: control -/

/-- `BRA` where its condition covers EXEC, covers no lane, and diverges. -/
theorem witness_bra :
    (demo.IssuesPlain .bra { off := 4 } demo.alone ∧
      condMask ((op0 demo .bra { off := 4 }).warp 0) { off := 4 } = ((op0 demo .bra { off := 4 }).warp 0).exec ∧
      target { off := 4 } ((op0 demo .bra { off := 4 }).warp 0).pc &&& 3 = 0) ∧
    (let s := demoW fun w => w.pset 1 1
     let t := demo
     plainOk s .bra { off := 4, p := 1 } s.alone = true ∧ plainOk t .bra { off := 4, p := 1 } t.alone = true ∧
      condMask ((op0 s .bra { off := 4, p := 1 }).warp 0) { off := 4, p := 1 } = 1 ∧
      condMask ((op0 t .bra { off := 4, p := 1 }).warp 0) { off := 4, p := 1 } = 0 ∧
      ((op0 s .bra { off := 4, p := 1 }).warp 0).exec ≠ 1) :=
  ⟨⟨issues_of (by decide +kernel), by decide +kernel, by decide +kernel⟩, by decide +kernel⟩

/-- `BRC` taken and not taken, and `JMPI` to an aligned and a misaligned address. -/
theorem witness_branches :
    (let a : Args := { off := 4, scope := .warp, p := 0 }
     let s := demoW fun w => { w with ovf := 0x100 }
     plainOk s .brcFlag a s.alone = true ∧ (op0 s .brcFlag a).flagsWait 0 = false ∧
      target a ((op0 s .brcFlag a).warp 0).pc &&& 3 = 0 ∧
      brcFlagTaken 0 ((op0 s .brcFlag a).warp 0).ovf ≠ brcFlagTaken 0 ((op0 demo .brcFlag a).warp 0).ovf) ∧
    (let a : Args := { form := .ext, scope := .warp, ka := .s, a := 3, imm := 4, func := 1 }
     let s := demoW fun w => w.sset 3 1
     plainOk s .brcReg a s.alone = true ∧ target a ((op0 s .brcReg a).warp 0).pc &&& 3 = 0 ∧
      brcRegTaken 0 ((op0 s .brcReg a).sval s.alone (srcA a)) ≠ brcRegTaken 0 ((op0 demo .brcReg a).sval demo.alone (srcA a))) ∧
    (let a : Args := { form := .ext, scope := .warp, ka := .s, a := 3 }
     let s := demoW fun w => w.sset 3 0x20002
     plainOk demo .jmpi a demo.alone = true ∧ plainOk s .jmpi a s.alone = true ∧
      (op0 demo .jmpi a).sval demo.alone (srcA a) &&& 3 = 0 ∧ (op0 s .jmpi a).sval s.alone (srcA a) &&& 3 ≠ 0) := by
  decide +kernel

/-- A token of each kind. -/
def ifTok (pend : Mask) : Token := { kind := .ifTok, join := 0x10040, aux := 0x10020, saved := 3, pend, brk := 0, cont := 0 }
def loopTok (cont brk : Mask) : Token :=
  { kind := .loopTok, join := 0x10040, aux := 0x10020, saved := 3, pend := 0, brk, cont }
def callTok : Token := { kind := .callTok, join := 0x10040, aux := 0, saved := 3, pend := 0, brk := 0, cont := 0 }

/-- `IF` where lanes take the first path and where none does. -/
theorem witness_if : ([(0 : BitVec 3), 1].all fun p =>
      let a : Args := { off := 4, p }
      plainOk demo .ifc a demo.alone && nearTarget a ((op0 demo .ifc a).warp 0).pc &&& 3 == 0 &&
        (condMask ((op0 demo .ifc a).warp 0) a == 0) == (p == 1) &&
        ((op0 demo .ifc a).pushTok 0 (ifTok 0)).2.isNone) = true := by decide +kernel

/-- `ELSE` and `ENDIF` before an IF token, with and without pending lanes; the mask that returns may be empty. -/
theorem witness_else : ([(ifTok 0), (ifTok 5), { ifTok 0 with saved := 0 }].all fun k =>
      let s := demoW fun w => { w with toks := [k] }
      plainOk s .elsec {} s.alone && plainOk s .endif {} s.alone && ((op0 s .elsec {}).warp 0).toks == [k] &&
        (((op0 s .elsec {}).setExec 0 k.saved).popTok 0).2.isNone &&
        (k.saved != 0 || ((((op0 s .endif {}).setExec 0 k.saved).popTok 0).1.settle 0).2.isNone)) = true := by decide +kernel

/-- `LOOP`; `BREAK` and `CONT` inside a loop, of one lane and of all; `ENDLOOP` that repeats and that leaves. -/
theorem witness_loop :
    (plainOk demo .loopc { off := 11 } demo.alone = true ∧
      target { off := 11 } ((op0 demo .loopc { off := 11 }).warp 0).pc &&& 3 = 0 ∧
      ((op0 demo .loopc { off := 11 }).pushTok 0 (loopTok 0 0)).2 = none) ∧
    ([(Op.brk, (0 : BitVec 3)), (.brk, 1), (.cont, 0), (.cont, 1)].all fun e =>
      let s := demoW fun w => { w.pset 1 1 with toks := [ifTok 0, loopTok 0 1] }
      let a : Args := { p := e.2 }
      plainOk s e.1 a s.alone &&
        okAnd ((op0 s e.1 a).onToks 0 (leaveToLoop (condMask ((op0 s e.1 a).warp 0) a) id)) fun _ b => b) = true ∧
    ([(0 : BitVec 3), 1].all fun p =>
      let s := demoW fun w => { w with toks := [loopTok 0 1] }
      let a : Args := { p }
      plainOk s .endloop a s.alone && (condMask ((op0 s .endloop a).warp 0) a ||| 0 == 0) == (p == 1) &&
        (((op0 s .endloop a).setExec 0 1).popTok 0).2.isNone) = true := by decide +kernel

/-- `CALL`; `RET` with a CALL token and without one; `EXIT` inside and outside a handler, with lanes left and with none. -/
theorem witness_call :
    (plainOk demo .call { off := 4 } demo.alone = true ∧ target { off := 4 } ((op0 demo .call { off := 4 }).warp 0).pc &&& 3 = 0 ∧
      ((op0 demo .call { off := 4 }).pushTok 0 callTok).2 = none) ∧
    (let s := demoW fun w => { w with toks := [callTok] }
     plainOk s .ret {} s.alone = true ∧ okAnd ((op0 s .ret {}).onToks 0 (returnToCall ((op0 s .ret {}).warp 0).exec)) (fun s1 b =>
        b && (mfind s1.warps 0).isSome && ((s1.setExec 0 0).settle 0).2.isNone) = true) ∧
    (plainOk demo .ret {} demo.alone = true ∧ ((op0 demo .ret {}).warp 0).late = none ∧
      okAnd ((op0 demo .ret {}).onToks 0 (returnToCall ((op0 demo .ret {}).warp 0).exec)) (fun s1 b =>
        !b && (match s1.exitLanes 0 with | .moved _ => true | _ => false)) = true) ∧
    (let s := demoW fun w => { w with exec := 1, inHandler := true }
     plainOk s .exit {} s.alone = true ∧ ((op0 s .exit {}).warp 0).toks = [] ∧
      ((op0 s .exit {}).warp 0).live &&& ~~~((op0 s .exit {}).warp 0).exec ≠ 0) ∧
    (plainOk demo .exit {} demo.alone = true ∧ ((op0 demo .exit {}).warp 0).inHandler = false) := by decide +kernel

/-- The same translations from one leaf of 1 GiB, of a row-mapped segment. -/
def big (s : State) : State :=
  { poke s 0x2000 [0x2F, 0] with island := { s.island with fw := { s.island.fw with rmSegs := [0] } } }

/-- A warp without EXEC that settles: on an else path, on a continue, and by retiring; past a token in which no lane waits, at
its join and beneath it; one with EXEC. -/
theorem witness_settle :
    (let s := demoW fun w => { w with exec := 0, toks := [ifTok 5] }
     let t := demoW fun w => { w with exec := 0, toks := [loopTok 5 0] }
     let u := demoW fun w => { w with exec := 0, live := 0 }
     (s.warp 0).live ≠ 0 ∧ (ifTok 5).pend ≠ 0 ∧ (ifTok 5).aux &&& 3 = 0 ∧ (s.warp 0).retired = false ∧
      (t.warp 0).toks = [loopTok 5 0] ∧ (loopTok 5 0).cont ≠ 0 ∧ (u.warp 0).live = 0 ∧ (u.warp 0).exec = 0 ∧
      (mfind u.warps 0).isSome = true ∧ (demo.warp 0).exec ≠ 0) ∧
    ([{ callTok with pend := 5 }, callTok, { ifTok 0 with saved := 0 }].all fun k =>
      let s := demoW fun w => { w with exec := 0, toks := [k, callTok] }
      (s.warp 0).exec == 0 && (s.warp 0).live != 0 && (s.warp 0).toks == [k, callTok] && Claims.tokWaiting k == 0 &&
        (Claims.tokJoins k != 0) == (k.pend == 5) && k.join &&& 3 == 0 && !(s.warp 0).retired &&
        ((s.modWarp 0 fun y => { y with exec := Claims.tokJoins k, pc := k.join }).popTok 0).2.isNone) = true := by decide +kernel

/-- `demo` with its last token on the stack and a group of 8 spilled at p. -/
def demoPop (p : Word) : State := big (demoW fun w => { w with toks := [callTok], spilled := 1, ssp := p })

/-- What a pop that empties the stack of s reads: image n alone is poisoned, and image m alone is of kind 0b11. -/
def popOk (s : State) (n m : Nat) : Bool :=
  okAnd (s.places 0 {} 0x5000000000001000 256) fun s1 ps =>
    let ls := memLocs ps
    let rd := (s1.readNow 0 0 ls).2
    let image (i : Nat) : List Nat := (ls.drop (32 * i)).take 32
    (List.range 8).all fun i => (rd.poison (image i)).isSome == (i == n) &&
      (tokenOfImage (s.warp 0).live ((image i).map rd.byte)).isSome == (i != m)

/-- A pop that empties the stack, with SSP misaligned, outside LOC and past its end. -/
theorem witness_pop_ssp : (0x5000000000001008 : Word) &&& 31 ≠ 0 ∧ spaceOf (0x3000000000000000 : Word) ≠ 5 ∧
    fails ((demoPop 0x5000000000010000).places 0 {} 0x5000000000010000 256) = true := by decide +kernel

/-- The same with a group that can be read. -/
theorem witness_pop_reads : popOk (demoPop 0x5000000000001000) 8 8 = true := by decide +kernel

/-- The same with a group whose second image is poisoned. -/
theorem witness_pop_poison : popOk ((demoPop 0x5000000000001000).poisonUnits [0x21020]) 1 8 = true := by decide +kernel

/-- The same with a group whose first image is of kind 0b11. -/
theorem witness_pop_kind : popOk (poke (demoPop 0x5000000000001000) 0x21000 [3]) 8 0 = true := by decide +kernel

/-- Token stacks at their bounds: 31 and 32 tokens, 15 and 16 in a handler; a full one spills, or its spill fails. -/
theorem witness_push :
    (let st (n : Nat) (h : Bool) (p : Word) := big (demoW fun w => { w with toks := List.replicate n callTok, inHandler := h, ssp := p })
     ((st 31 false 0).warp 0).toks.length < 32 ∧ ((st 15 true 0).warp 0).toks.length < 16 ∧
      16 ≤ ((st 16 true 0).warp 0).toks.length ∧ 32 ≤ ((st 32 false 0).warp 0).toks.length ∧
      fails ((st 32 false 0x5000000000000000).locSpan 0 true (0x5000000000000000 - 256) 256) = true ∧
      okAnd ((st 32 false 0x5000000000008000).locSpan 0 true (0x5000000000008000 - 256) 256) (fun _ ls => ls.length == 256) = true) := by
  decide +kernel

/-! ## Witnesses: traps and system instructions -/

/-- A trap that a handler takes: TRAPVEC names an aligned address. -/
theorem witness_trap_entry : (let s := poke demo 0x20000 (bytesOf 8 0x11000)
    (s.ctx (s.warp 0).ctx).dead = false ∧ (s.warp 0).inHandler = false ∧ (s.readTrapVec 0).2 = some 0x11000 ∧
      (mfind (s.readTrapVec 0).1.warps 0).isSome = true) := by decide +kernel

/-- Fatal traps: in a handler; with TRAPVEC zero, misaligned and unreadable. -/
theorem witness_fatal : (demoW fun w => { w with inHandler := true }).warp 0 = { demo.warp 0 with inHandler := true } ∧
    (demo.ctx 0).dead = false ∧ (demo.readTrapVec 0).2 = some 0 ∧
    ((poke demo 0x20000 (bytesOf 8 0x11002)).readTrapVec 0).2 = some 0x11002 ∧
    ((demoW fun w => { w with locBase := 0x40000000 }).readTrapVec 0).2 = none ∧
    (mfind demo.warps 0).isSome = true ∧ (mfind demo.ctxs (demo.warp 0).ctx).isSome = true := by decide +kernel

/-- Privileged instructions of a context without privilege. -/
theorem witness_privileged : ([Op.tlbi, .ctxFreeze, .ctxSave, .ctxLoad, .halt, .swrEbudget, .swrTraceCtl].all fun o =>
      let s := demo.modCtx 0 fun c => { c with crec := { c.crec with priv := false } }
      (s.warp 0).late.isNone && !(s.ctx (s.warp 0).ctx).crec.priv &&
        !(namedOpnds (rowOf o (sample o).func.toNat) (sample o)).any (regBad (s.warp 0) (s.blk (s.warp 0).blk))) = true := by
  decide +kernel

/-- Late traps that are due at a `CSIG`, and at an `MMA`. -/
theorem witness_late : ([LatePt.store, .array].all fun pt =>
    let l : LateTrap := { code := 0x14, detail := 0x81, addr := 0x40000, pt }
    ((demoW fun w => { w with late := some l }).warp 0).late == some l) = true := by decide +kernel

/-- An `ADD` whose second source is marked in a lane acted on, and one of scalar registers whose first is. -/
theorem witness_consumed :
    (let x : Mark := ⟨0x40000, 0x10, 0x14⟩
     [(demoW fun w => w.markV 3 0 x, ({ d := 1, a := 2, b := 3 } : Args), 1),
      (demoW fun w => w.markS 2 x, { sForm with d := 1, a := 2, b := 3 }, 0)].all fun e =>
      let s := e.1
      let a := e.2.1
      let g := s.alone
      let s0 := s.stood .add a g
      let os := namedOpnds (rowOf .add 0) a
      decide (s.precheck .add a 0 = .ok) && decide ((s.gather .add a).2 = some g) &&
        !(s.gather .add a).1.budgetStalls (leaderOf g) a.ec && (s0.srcTraps g (s0.actedOf a) (os.take e.2.2)).isNone &&
        (s0.warp 0).tokenErr.isEmpty && match os[e.2.2]? with
          | some (q, k, n) => decide (q.use ≠ .dst) && decide (q.cls ≠ .pred) &&
            (if k = .s then (s0.warp 0).smark n == some x
             else ((s0.actedOf a (g.headD (0, 0))).any fun l => ((s0.warp 0).vmark n l).isSome) && (s0.warp 0).vmarkReg n == some x)
          | none => false) = true := by decide +kernel

/-- `SRD` of LANEID and of OVF_FLAGS. -/
theorem witness_srd : demo.IssuesPlain .srd { sample .srd with func := 0x06 } demo.alone ∧
    (op0 demo .srd { sample .srd with func := 0x06 }).flagsWait 0 = false ∧ (sample .srd).func = 0x24 :=
  ⟨issues_of (by decide +kernel), by decide +kernel, by decide +kernel⟩

/-- `SWR` of an immediate. -/
def swrForm (func : BitVec 8) (x : Word) : Args := { form := .extLit, scope := .warp, kc := .x, lit := x, func }

/-- `SWR` of every register held per warp, with the last value it accepts and the first it refuses. -/
theorem witness_swr : ((Claims.sprs.zip [(0, none), (0x1FFFFF, some 0x200000), (0, none), (0, none), (0x304, some 0),
      (255, some (256 : Word)), (0xCF, some 0)]).all fun e =>
        let a := swrForm (BitVec.ofNat 8 e.1.sel) e.2.1
        (Instr.ofOp e.1.op a).wf && plainOk demo e.1.op a demo.alone && e.1.ok (immC a) &&
          e.2.2.all fun y => !e.1.ok (immC { a with lit := y })) = true ∧
    ([(0x73F : Word), 0x40].all fun x => plainOk demo .swrOvfFlags (swrForm 6 x) demo.alone &&
        !(op0 demo .swrOvfFlags (swrForm 6 x)).flagsWait 0 && (x &&& ~~~0x73F#64 == 0) == (x == 0x73F)) = true ∧
    ([(1 : Word), 0, 0x100000000].all fun x => plainOk demo .swrExec (swrForm 9 x) demo.alone) = true ∧
    (1 : Word).setWidth 32 &&& ((op0 demo .swrExec (swrForm 9 1)).warp 0).live ≠ 0 := by decide +kernel

/-- `SWR` of EBUDGET with LEVEL at CAP and above it, of DUMP_BASE with each kind of address, and of TRACE_CTL. -/
theorem witness_shared : ([(0x0001000005000005 : Word), 0x0001000005000006].all fun x =>
        plainOk demo .swrEbudget (swrForm 3 x) demo.alone) = true ∧
    (0x0001000005000005 : Nat) % 2 ^ 24 ≤ 0x0001000005000005 / 2 ^ 24 % 2 ^ 24 ∧
    (0x0001000005000006 : Nat) / 2 ^ 24 % 2 ^ 24 < 0x0001000005000006 % 2 ^ 24 ∧
    ([(0 : Word), 1, 0x5000000000001000, 0x40000].all fun x => plainOk demo .swrDumpBase (swrForm 0x14 x) demo.alone) = true ∧
    3 < spaceOf 0x5000000000001000 ∧ spaceOf 0x40000 ≤ 3 ∧
    okAnd ((op0 demo .swrDumpBase (swrForm 0x14 0x40000)).place 0 { write := true } 0x40000)
      (fun s1 _ => s1.warps == (op0 demo .swrDumpBase (swrForm 0x14 0x40000)).warps) = true ∧
    ([(0xF : Word), 0x10].all fun x => plainOk demo .swrTraceCtl (swrForm 0x15 x) demo.alone) = true ∧
    (0xF : Word) &&& ~~~0x1FF0000000F#64 = 0 ∧ (0x10 : Word) &&& ~~~0x1FF0000000F#64 ≠ 0 := by decide +kernel

/-- `TRET` in a handler, outside one, and to a misaligned EPC. -/
theorem witness_tret : ([(true, (0x10000 : Word)), (false, 0x10000), (true, 0x10002)].all fun e =>
      let s := demoW fun w => { w with inHandler := e.1, epc := e.2, savedExec := 1 }
      plainOk s .tret (sample .tret) s.alone && ((op0 s .tret (sample .tret)).warp 0).inHandler == e.1 &&
        (((op0 s .tret (sample .tret)).warp 0).savedExec &&& ((op0 s .tret (sample .tret)).warp 0).live) == 1) = true ∧
    (0x10000 : Word) &&& 3 = 0 ∧ (0x10002 : Word) &&& 3 ≠ 0 := by decide +kernel

/-- `TRET` with no lane of the saved EXEC live: the warp settles on the restored stack, here onto its else path. -/
theorem witness_tret_settles :
    (let k : Token := { kind := .ifTok, join := 0x40, aux := 0x20, saved := 0x3, pend := 0x2, brk := 0, cont := 0 }
     let s := demoW fun w => { w with inHandler := true, epc := 0x10000, savedExec := 1, live := 0x2, savedToks := [k] }
     let s0 := op0 s .tret (sample .tret)
     let r := ((((s0.trace 0 3 0x10000).modWarp 0 fun w =>
       { w with toks := w.savedToks, spilled := w.savedSpill, exec := 0, pc := w.epc, inHandler := false, savedToks := []
                savedExec := 0, savedSpill := 0 }).endRun 0).rdvPause (s0.warp 0).blk).settle 0
     plainOk s .tret (sample .tret) s.alone && (s0.warp 0).inHandler && (s0.warp 0).savedExec &&& (s0.warp 0).live == 0 &&
       r.2.isNone && (r.1.warp 0).pc == 0x20 && (r.1.warp 0).exec == 0x2) = true := by decide +kernel

/-- `SLEEP` of 0 and of 5 ns, and a wake at its time. -/
theorem witness_sleep : ([(0 : BitVec 12), 5].all fun n =>
      let a : Args := { form := .ext, scope := .warp, kc := .x, imm := n }
      plainOk demo .sleep a demo.alone && (immC a == 0) == (n == 0) && ((op0 demo .sleep a).warp 0).deadline.isNone) = true ∧
    (let s := { demoW fun w => { w with park := .sleep 5 {} } with timer := 5 }
     (s.warp 0).park = .sleep 5 {} ∧ 5 ≤ s.timer ∧ (s.ctxOf 0).frozen = false) := by decide +kernel

/-- `TLBI` with nothing in flight. -/
theorem witness_tlbi : (op0 demo .tlbi (sample .tlbi)).pend = [] ∧ (op0 demo .tlbi (sample .tlbi)).held = [] := by
  decide +kernel

/-- `CTX` on its own context, on none, and `CTX.FREEZE` of a second context in each of its states and by each operand. -/
theorem witness_ctx :
    (let s := demoW fun w => w.sset 0 7
     ([Op.ctxFreeze, .ctxSave, .ctxLoad].all fun o => plainOk demo o (sample o) demo.alone && plainOk s o (sample o) s.alone) = true ∧
      ((op0 demo .ctxSave sForm).sval demo.alone (srcA sForm)).toNat = 0 ∧
      ((op0 s .ctxSave sForm).sval s.alone (srcA sForm)).toNat = 7 ∧ mfind s.ctxs 7 = none) ∧
    ([((1 : Word), true, false), (1, false, false), (0, false, true), (0, false, false), (2, false, false)].all fun e =>
      let s := (demo2 fun c => { c with frozen := e.2.1, dead := e.2.2 }).modWarp 0 fun w => (w.sset 0 1).sset 1 e.1
      let a := { sForm with b := 1, func := 2 }
      let s0 := op0 s .ctxFreeze a
      plainOk s .ctxFreeze a s.alone && (s0.sval s.alone (srcA a)) == 1 && s0.sval s.alone (srcB a 0) == e.1 &&
        (mfind s0.ctxs 1).isSome && (s0.ctx 1).frozen == e.2.1 && (s0.ctx 1).dead == e.2.2 && s0.warpsStopped 1 &&
        s0.enginesIdle 1) = true ∧
    (let s := (demo2 id).modWarp 0 fun w => w.sset 0 1
     let t := { s with warps := mins s.warps 32 { ctx := 1, blk := 1 } }
     plainOk s .ctxSave sForm s.alone = true ∧ (s.ctx 1).frozen = false ∧
      plainOk t .ctxLoad { sForm with func := 1 } t.alone = true ∧ (t.warp 32).ctx = 1 ∧ (mfind t.warps 32).isSome = true) := by
  decide +kernel



/-- `LAUNCH` of a record of zeros in a vault, which its checks refuse with 0x01, and of a misaligned pointer. -/
theorem witness_launch :
    (let s := (poke demoV (vaultLoc 0 24) (bytesOf 8 0x3000000000000080)).modWarp 0 fun w => w.sset 0 0x3000000000000000
     let t := demoV.modWarp 0 fun w => w.sset 0 0x3000000000000001
     let rd : Reader := { c := 0, w := some 0 }
     plainOk s .launch (sample .launch) s.alone = true ∧ plainOk t .launch (sample .launch) t.alone = true ∧
      (op0 s .launch (sample .launch)).ownWaits 0 = false ∧ (op0 t .launch (sample .launch)).ownWaits 0 = false ∧
      okAnd ((op0 s .launch (sample .launch)).launchAt rd 0x3000000000000000) (fun s1 x => (mfind s1.warps 0).isSome && x == 1) = true ∧
      fails ((op0 t .launch (sample .launch)).launchAt rd 0x3000000000000001) = true ∧
      okAnd ((op0 s .launch (sample .launch)).launchIn rd 0x3000000000000000) (fun s1 i => s1.launchCode 0 i == some 1) = true) := by
  decide +kernel


/-! ## Witnesses: memory -/

/-- Every place that lanes access is plain memory, computed. -/
def plainPs (ps : List (Nat × List Place)) : Bool :=
  ps.all fun e => e.2.all fun p => match p with
    | .mem _ => true
    | _ => false

theorem plain_of {ps : List (Nat × List Place)} (h : plainPs ps = true) : PlainPlaces ps := by
  intro e he p hp
  have h1 := List.all_eq_true.1 (List.all_eq_true.1 h e he) p hp
  cases p with
  | mem l => exact ⟨l, rfl⟩
  | _ => cases h1

/-- The conditions of `Claims.Reached` but for what is on its way, computed. -/
def reachedOk (s : State) (w l : Nat) : Bool :=
  (s.kerf w s.nextId (memRow l)).isEmpty && !s.offline (homeDie l) && (s.held.all fun h => !h.wr.ws.contains w) &&
  (s.pend.all fun e => e.2.ownLocs.all fun x => x.1 != w) && !s.discards l && s.mem.tables.isEmpty

theorem mfind_mem {α : Type} {m : SMap α} {k : Nat} {x : α} (h : mfind m k = some x) : (k, x) ∈ m := by
  induction m with
  | nil => cases h
  | cons e m ih =>
    obtain ⟨j, y⟩ := e
    simp only [mfind] at h
    split at h
    · cases h; subst_vars; exact List.mem_cons_self ..
    · exact List.mem_cons_of_mem _ (ih h)

/-- Nothing is on its way where no core holds update-only lines and nothing is in flight. -/
theorem no_way {s : State} (hu : (s.cores.all fun e => e.2.uLines.isEmpty) = true) (hp : s.pend = []) (l : Nat) : ¬s.OnItsWay l := by
  rintro (⟨k, u, hk, -⟩ | ⟨e, he, -⟩)
  · unfold State.core at hk
    rw [mget_eq_mfind] at hk
    cases hf : mfind s.cores k with
    | none => simp [hf] at hk
    | some c =>
      have hm : (k, c) ∈ s.cores := mfind_mem hf
      have := List.all_eq_true.1 hu _ hm
      simp only [List.isEmpty_iff] at this
      simp [hf, this] at hk
  · simp [hp] at he

theorem reached_of {s : State} {w l : Nat} (h : reachedOk s w l = true) (hu : (s.cores.all fun e => e.2.uLines.isEmpty) = true)
    (hp : s.pend = []) : Claims.Reached s w l := by
  simp only [reachedOk, Bool.and_eq_true, List.isEmpty_iff, Bool.not_eq_true', List.all_eq_true, bne_iff_ne,
    List.contains_eq_mem, decide_eq_false_iff_not] at h
  obtain ⟨⟨⟨⟨⟨h1, h2⟩, h3⟩, h4⟩, h5⟩, h6⟩ := h
  exact ⟨h1, h2, h3, h4, h5, fun k => by rw [h6]; rfl, no_way hu hp l⟩

/-- A warp-scope access of s0, and one whose pointer is misaligned or unmapped. -/
def stForm : Args := { form := .ext, scope := .warp, ka := .s, kb := .s, b := 1 }
def ldForm : Args := { form := .ext, scope := .warp, kd := .s, ka := .s, d := 2 }

/-- `ST` to mapped memory, with its places free, and to an address without a translation. -/
theorem witness_store :
    (let s := demoW fun w => w.sset 0 0x40000
     let t := demoW fun w => w.sset 0 0x40000000
     let r := op0 s .st stForm
     plainOk s .st stForm s.alone = true ∧ plainOk t .st stForm t.alone = true ∧ (r.warp 0).stCnt < 255 ∧
      fails ((op0 t .st stForm).accPlaces 0 stForm true true 8 ((op0 t .st stForm).accAddr t.alone stForm)
        ((op0 t .st stForm).accLanes t.alone stForm)) = true ∧
      okAnd (r.accPlaces 0 stForm true true 8 (r.accAddr s.alone stForm) (r.accLanes s.alone stForm)) (fun s1 ps =>
        ps == [(32, (span 0x40000 8).map .mem)] && plainPs ps && (ps.all fun e => e.2.all fun p => !s1.placeBusy p) &&
          !s1.nbBefore 0 s1.nextId (lanesLocs ps) && reachedOk s1 0 0x40007 && (s1.cores.all fun e => e.2.uLines.isEmpty) && s1.pend.isEmpty) = true) := by decide +kernel

/-- The last byte of that store is written by its one lane. -/
theorem witness_store_lane : Claims.Writes [(32, (span 0x40000 8).map .mem)] 8 0x40007 32 7 := by
  refine ⟨⟨_, List.mem_singleton.2 rfl, rfl, by decide, by decide⟩, ?_, ?_⟩
  · simp only [List.mem_singleton]
    rintro e rfl - j hj
    have : j < 8 := by
      by_contra hc
      rw [List.getElem?_eq_none (by simpa [memLocs, span] using hc)] at hj
      cases hj
    omega
  · simp only [List.mem_singleton]
    rintro e rfl -
    exact Nat.le_refl _

/-- The last window offsets of a warp of 256 registers, and predicate 0. -/
theorem witness_window : (∀ i < 8, regOffOk 256 (0xFFF8 + i) = true) ∧ (∀ i < 4, regOffOk 256 (0x1021C + i) = true) ∧
    (∀ i < 4, regOffOk 256 (0x10200 + i) = true) ∧ regOffOk 256 0x10220 = false := by decide

/-- `LD` from mapped memory, and from an address without a translation. -/
theorem witness_load :
    (let s := demoW fun w => w.sset 0 0x40000
     let t := demoW fun w => w.sset 0 0x40000000
     let r := op0 s .ld ldForm
     plainOk s .ld ldForm s.alone = true ∧ plainOk t .ld ldForm t.alone = true ∧ (r.warp 0).ldCnt < 255 ∧
      fails ((op0 t .ld ldForm).accPlaces 0 ldForm true false 8 ((op0 t .ld ldForm).accAddr t.alone ldForm)
        ((op0 t .ld ldForm).accLanes t.alone ldForm)) = true ∧
      okAnd (r.accPlaces 0 ldForm true false 8 (r.accAddr s.alone ldForm) (r.accLanes s.alone ldForm)) (fun s1 ps =>
        plainPs ps && ps.all fun e => e.2.all fun p => !s1.placeBusy p) = true) := by decide +kernel

/-- A load whose data has been read: of one scalar, and of two lanes of a vector register, one of them poisoned. -/
def loadState (a : Args) (accs : List LaneAcc) (bad : List (Nat × Nat)) : State :=
  { demo with pend := [(9, .load 0 a accs [] (accs.flatMap fun x => x.locs.map fun l => (l, 0, 5)) bad [] [])] }

theorem witness_load_return : ([(ldForm, [32]), ({ form := .ext, d := 2, a := 1 }, [0, 31])].all fun e =>
      let accs := e.2.map fun l => ({ lane := l, addr := 0x40000, locs := span (0x40000 + 8 * l) 8 } : LaneAcc)
      let s := loadState e.1 accs [(0x40000 + 8 * 31, 1)]
      (mfind s.pend 9).isSome && !s.farHeld 9 && (mfind s.warps 0).isSome &&
        (loadUnread accs (accs.flatMap fun x => x.locs.map fun l => (l, 0, 5))).isEmpty && (accs.map fun x => x.lane % 32).dedup.length == accs.length) = true := by decide +kernel

/-- A location with two writes: a reader whose floor is at the first, and one whose floor is at the newest. -/
theorem witness_reads :
    (let m := (demo.mem.putPiece [] false [(0x40000, 1)]).putPiece [] false [(0x40000, 2)]
     ((m.versions 0x40000).map (·.1)).Pairwise (· > ·) ∧ 5 ∈ (m.versions 0x40000).map (·.1) ∧ m.pos 0x40000 = 6 ∧
      m.pos 0x40000 ≤ mget 0 [(0x40000, 6)] 0x40000 ∧ m.wf = true) := by decide +kernel

/-- A store in flight to acknowledge, with a late fault and without one. -/
theorem witness_ack : ([some (0x14, 0x91, 0), (none : Option (Nat × Nat × Word))].all fun f =>
      let s : State := { demo with pend := [(9, .store 0 false f none)] }
      (mfind s.warps 0).isSome && mfind s.pend 9 == some (.store 0 false f none) && s.held.isEmpty && !s.farHeld 9) = true := by
  decide +kernel

/-- A range of five scalar registers: pushed below SSP, and popped from it. -/
theorem witness_ranges : ([(Kind.s, (5 : BitVec 12), 64)].all fun e =>
      let a : Args := { form := .ext, scope := .warp, kd := e.1, d := 4, imm := e.2.1 }
      let t := demoW fun w => { w with ssp := 0x5000000000001000 }
      issuesOk demo .pushm a (fun s g => s.rangeTrap a g true) demo.alone &&
      issuesOk t .popm a (fun s g => s.rangeTrap a g false) t.alone &&
      !rangeBusy a ((op0 demo .pushm a).warp 0) && !rangeBusy a ((op0 t .popm a).warp 0) &&
      (okAnd ((op0 demo .pushm a).locSpan 0 true (0x5000000000008000 - BitVec.ofNat 64 e.2.2) e.2.2) fun s1 ls =>
        ls.length == e.2.2 && !s1.nbBefore 0 s1.nextId ls && reachedOk s1 0 (ls.getD 0 0) && s1.pend.isEmpty) &&
      (okAnd ((op0 t .popm a).locSpan 0 false 0x5000000000001000 e.2.2) fun s1 ls => ls.length == e.2.2 &&
        !s1.ownHeld [0] ls && !s1.blocked 0 s1.nextId ls && ((s1.readNow 0 0 (ls.take 8)).2.bad).isEmpty)) = true := by decide +kernel

/-- `ATOM` and `RED` on an element in mapped memory. -/
theorem witness_atomic :
    (let s := demoW fun w => w.sset 0 0x40000
     let a : Args := { form := .ext, scope := .warp, kd := .s, ka := .s, kb := .s, d := 2 }
     let b : Args := { a with kd := .v, d := 0 }
     let r := op0 s .atom a
     plainOk s .atom a s.alone = true ∧ plainOk s .red b s.alone = true ∧ (r.warp 0).ldCnt < 255 ∧
      okAnd (r.atomPlaces s.alone a) (fun s1 ps => !s1.atomHeld 0 (lanesLocs ps) && plainPs ps && !ps.isEmpty) = true ∧
      okAnd ((op0 s .red b).atomPlaces s.alone b) (fun s1 ps => !s1.blocked 0 s1.nextId (lanesLocs ps) && plainPs ps) = true) := by
  decide +kernel

/-- An element of a vault at home, for each integer operation of `ATOM`; a core without update-only lines. -/
theorem witness_atom_elem : demo.pend = [] ∧ (demo.cores.all fun e => e.2.uLines.isEmpty) = true ∧ vaultLoc 0 8 % 8 = 0 ∧
    2 ^ 40 ≤ vaultLoc 0 8 ∧ vaultLoc 159 0x2FFFFF8 < 2 ^ 50 ∧ demo.colSt (vaultLoc 0 8 / 64 * 64) ≠ .poison ∧
    demo.offline (homeDie (vaultLoc 0 8)) = false ∧ (demo.core (demo.coreOf 0)).uLines = [] := by decide +kernel

/-! ## Witnesses: copies, counters, phases, barriers and queues -/

/-- `CPY` and `CPYR` of 16 B from s1 to s0 into the batch of s8. -/
def cpyForm (n : BitVec 12) : Args := { form := .ext, scope := .warp, kd := .s, ka := .s, kb := .s, kc := .x, d := 8, b := 1, imm := n }

/-- Copies of 16 B, and of lengths that are no multiple of 16 or exceed 2^32; gathers of 4 B elements and of 5 B ones. -/
theorem witness_copy :
    (let s := demoW fun w => (w.sset 0 0x40000).sset 1 0x40400
     ([(Op.cpy, false), (.cpyr, true)].all fun o =>
        plainOk s o.1 (cpyForm 16) s.alone && plainOk s o.1 (cpyForm 8) s.alone &&
        plainOk s o.1 { cpyForm 0 with form := .extLit, lit := 0x100000010 } s.alone &&
        ((op0 s o.1 (cpyForm 16)).copyTrap 0 16 o.2 [(0x40000, 0x40400, 16)]).isNone &&
        !((op0 s o.1 (cpyForm 16)).warp 0).batchFull 8) = true ∧
      (let a : Args := { form := .ext, kd := .s, ka := .s, kb := .v, kc := .x, d := 8, b := 1, imm := 4, p := 1, pn := true }
       let b : Args := { a with ka := .v, kb := .s }
       ([(Op.cpyg, a), (.cpys, b)].all fun o => plainOk s o.1 o.2 s.alone && plainOk s o.1 { o.2 with imm := 5 } s.alone &&
          ((op0 s o.1 o.2).actedOf o.2 (s.alone.headD (0, 0))).length == 32 &&
          ((op0 s o.1 o.2).copyTrap 0 4 false (((op0 s o.1 o.2).actedOf o.2 (s.alone.headD (0, 0))).map fun l =>
            if o.1 = .cpyg then ((op0 s o.1 o.2).sval s.alone (srcA o.2) + BitVec.ofNat 64 (4 * l),
              (op0 s o.1 o.2).val 0 0 l (srcB o.2 0), 4)
            else ((op0 s o.1 o.2).val 0 0 l (srcA o.2), (op0 s o.1 o.2).sval s.alone (srcB o.2 0) + BitVec.ofNat 64 (4 * l), 4))).isNone) =
          true)) := by decide +kernel

/-- `CSEAL` with no batch, and with an open batch of one operation. -/
theorem witness_seal :
    (let a : Args := { form := .ext, scope := .warp, kd := .s, d := 8 }
     let s := demoW fun w => { w with batches := [{ reg := 8, ops := [9] }] }
     let x := (op0 s .cseal a).warp 0
     plainOk demo .cseal a demo.alone = true ∧ plainOk s .cseal a s.alone = true ∧ x.batchFull 8 = false ∧
      ((op0 demo .cseal a).warp 0).batches = [] ∧ x.batches = [{ reg := 8, ops := [9] }] ∧
      x.batches.filter (fun c => c.reg == 8 && !c.sealed) = [{ reg := 8, ops := [9] }]) := by decide +kernel

/-- A sealed batch of one copy of no bytes, in flight. -/
theorem witness_batch :
    (let b : Batch := { reg := 8, seq := 1, sealed := true, ops := [9] }
     let s := { demoW fun w => { w with batches := [b] } with pend := [(9, .copy 0 8 false {} 0 [(0x40000, 0x40400, 0)] [] [] 0)] }
     let c := s.moveBatch 0 b.ops
     ((s.warp 0).batches.find? fun b => b.sealed && b.seq == 1 && b.value.isNone) = some b ∧
      mfind s.pend 9 = some (.copy 0 8 false {} 0 [(0x40000, 0x40400, 0)] [] [] 0) ∧ b.ops.any s.farHeld = false ∧
      c.wait = false ∧ (mfind c.st.warps 0).isSome = true ∧ (c.st.warp 0).retired = false ∧
      (c.st.warp 0).batches = [b] ∧ (c.st.warp 0).batches.filter (fun e => e.reg == b.reg && e.sealed && !e.written) = [b]) := by
  decide +kernel

/-- A piece of 8 B between places of a vault. -/
theorem witness_piece :
    okAnd (demoV.places 0 { write := true } 0x3000000000000000 8) (fun s1 dl =>
      dl == (span (vaultLoc 0 0) 8).map .mem && okAnd (s1.places 0 {} 0x3000000000000040 8) fun s2 sl =>
        sl == (span (vaultLoc 0 64) 8).map .mem &&
        (let sls := span (vaultLoc 0 64) 8
         let s' := s2.flushOwn 0 9 sls
         let x := s'.readHome 4 8 (s'.bankFloors (some (s2.coreOf 0)) [] sls) sls
         let s4 := ((x.1.cacheL1 (s2.coreOf 0) sls false).flushOwn 0 9 (span (vaultLoc 0 0) 8)).carry 0 true (span (vaultLoc 0 0) 8)
         x.2.bad.isEmpty && !s4.copyWaits 0 9 [] (span (vaultLoc 0 0) 8) && s4.mem.tables.isEmpty && s4.pend.isEmpty &&
          (s4.cores.all fun e => e.2.uLines.isEmpty) &&
          !(span (vaultLoc 0 0) 8).any s4.lostLoc && (span (vaultLoc 0 0) 8).all fun l => !s4.discards l)) = true := by
  decide +kernel

/-- A counter instruction of s0. -/
def ctrForm : Args := { form := .ext, scope := .warp, ka := .s, kc := .s, c := 7 }

/-- `CSIG`, with a release and without, on a counter in mapped memory. -/
theorem witness_csig : ([(0 : BitVec 8), 1].all fun f =>
      let s := demoW fun w => w.sset 0 0x40000
      let a := { ctrForm with func := f }
      plainOk s .csig a s.alone && okAnd ((op0 s .csig a).counterPlace 0 true 0x40000) (fun _ p => p == .home 0x40000) &&
        ((op0 s .csig a).warp 0).stCnt < 255 && !(op0 s .csig a).relWaits s.alone.ws (scopeOf a.sub.toNat)) = true := by
  decide +kernel

/-- `CSIG` to a counter in LOC, a misaligned one and one without a translation; with 255 stores outstanding; and with a release
that waits for an earlier `CSIG` in flight. -/
theorem witness_csig_stops : ([(0x5000000000000100 : Word), 0x40004, 0x40000000].all fun p =>
      let s := demoW fun w => w.sset 0 p
      plainOk s .csig ctrForm s.alone && fails ((op0 s .csig ctrForm).counterPlace 0 true p)) = true ∧
    2 < spaceOf 0x5000000000000100 ∧ spaceOf 0x5000000000000100 ≠ 7 ∧ spaceOf 0x40004 ≤ 2 ∧ (0x40004 : Word) &&& 7 ≠ 0 ∧
    ([(255, (0 : BitVec 8)), (1, 1)].all fun e =>
      let s := { demoW fun w => { w.sset 0 0x40000 with stCnt := e.1 } with pend := [(9, .csig 0 { ws := [0] } 0 0x40008 1)] }
      let a := { ctrForm with func := e.2 }
      plainOk s .csig a s.alone && okAnd ((op0 s .csig a).counterPlace 0 true 0x40000) (fun _ p => p == .home 0x40000) &&
        (255 ≤ ((op0 s .csig a).warp 0).stCnt || (a.func == 1 && (op0 s .csig a).relWaits s.alone.ws (scopeOf a.sub.toNat)))) =
      true := by
  decide +kernel

/-- An increment on its way to a counter in DRAM, of 1 and of 1 past the highest value; to a poisoned one; to one whose die is
off line and to one whose row a pass holds. -/
theorem witness_increment : ([(0 : Word), 0xFFFFFFFFFFFFFFFF].all fun x =>
      let l := 0x20008
      let s : State := { poke demo l (bytesOf 8 x) with pend := [(9, .csig 0 { ws := [0] } 0 l 1)] }
      (s.kerf 0 9 (memRow l)).isEmpty && !s.offline (homeDie l) && (s.cores.all fun e => e.2.uLines.isEmpty) &&
        (s.checkReads 0 (span l 8)).2.isEmpty && ((span l 8).all fun i => !s.discards i) && s.mem.tables.isEmpty &&
        (mfind s.warps 0).isSome && (s.warp 0).late.isNone && ofBytes (s.mem.peek l 8) == x) = true ∧
    (let s : State := { demo with pend := [(9, .csig 0 { ws := [0] } 0 0x20008 1)] }
     !((s.poisonUnits [0x20008]).checkReads 0 (span 0x20008 8)).2.isEmpty &&
       (s.modDie 0 fun d => { d with st := .offline 0 }).offline (homeDie 0x20008) &&
       !(({ s with regions := [{ ctx := 0, start := 0x20000, rows := [0x20000], nextSeq := 2, passes :=
         [{ id := 3, seq := 1, slot := 2, jig := {}, haste := false, counter := none, w := 0, batch := 1, accepted := some 0 }] }] } :
           State).kerf 0 9 (memRow 0x20008)).isEmpty) = true := by decide +kernel

/-- `CREAD` with an acquire and without; and one in flight. -/
theorem witness_cread :
    ([(0 : BitVec 8), 2].all fun f =>
      let s := demoW fun w => w.sset 0 0x40000
      let a := { ctrForm with kc := .v, c := 0, kd := .s, d := 6, func := f }
      let s0 := op0 s .cread a
      plainOk s .cread a s.alone && okAnd (s0.counterPlace 0 false 0x40000) fun s1 p =>
        p == .home 0x40000 && !s0.ctrWaits s.alone a (.home 0x40000) &&
        ((s1.trace 0 5 0x40000).readCtr s.alone 0x40000 (.home 0x40000)).2.2.isNone) = true ∧
    (let s : State := { demo with pend := [(9, .cread 0 0x40000 0x40000 6)] }
     let x := (s.flushOwn 0 9 (span 0x40000 8)).readCounter [0] 0x40000 0x40000
     s.blocked 0 9 (span 0x40000 8) = false ∧
     x.2.2 = none ∧ x.1.farHeld 9 = false ∧ (mfind x.1.warps 0).isSome = true) := by decide +kernel

/-- `CWAIT` on a counter that holds 0: for 0; for 5 until its deadline is now, in 100 ns, and without one. -/
theorem witness_cwait : ([((0 : Word), Kind.v, (0 : Word)), (5, .s, 0), (5, .s, 100), (5, .v, 0)].all fun e =>
      let s := demoW fun w => ((w.sset 0 0x40000).sset 1 e.2.2).sset 7 e.1
      let a := { ctrForm with kd := .s, d := 6, kb := e.2.1, b := if e.2.1 = .s then 1 else 0, func := 2 }
      let s0 := op0 s .cwait a
      plainOk s .cwait a s.alone && okAnd (s0.counterPlace 0 false 0x40000) fun s1 p =>
        p == .home 0x40000 && !s0.ctrWaits s.alone a (.home 0x40000) &&
        (let x := ((s1.trace 0 5 0x40000).modWarps s.alone.ws fun y => { y with deadline := none }).readCtr s.alone 0x40000
            (.home 0x40000)
         x.2.2.isNone && x.2.1 == 0)) = true := by decide +kernel

/-- A parked `CWAIT` on a counter that holds 7: for 7 and for 8, with a deadline at TIMER and after it. -/
theorem witness_cwait_parked : ([((7 : Word), some 50), (8, some 50), (8, some 51)].all fun e =>
      let g : Grp := [(0, BitVec.allOnes 32)]
      let s : State := { (poke demo 0x40000 [7]).modWarp 0 fun w =>
          { (w.sset 0 0x40000).sset 7 e.1 with park := .cwait e.2 g { ctrForm with kd := .s, d := 6 } 0x40000 e.1 (.home 0x40000) } with timer := 50 }
      let x := s.readCtr g 0x40000 (.home 0x40000)
      !s.waitKept 0 && x.2.2.isNone && x.2.1 == 7 && (mfind x.1.warps 0).isSome && decide g.ws.Nodup) = true := by
  decide +kernel

/-- `PHASE` of each kind; a release that a warp has observed and whose scope covers it. -/
theorem witness_phase :
    ([(1 : BitVec 8), 2, 3].all fun f =>
      let a : Args := { form := .ext, scope := .warp, func := f, sub := 2 }
      plainOk demo .phase a demo.alone && !(op0 demo .phase a).relWaits demo.alone.ws (scopeOf a.sub.toNat) &&
        !(op0 demo .phase a).acqWaits demo.alone.ws) =
      true ∧
    (let s := { demoW fun w => { w with seen := [3] } with
        nextId := 4, mem := { demo.mem with rels := [(3, { place := 1, scope := .dev, view := [(0x40000, 1)] })] } }
     let e : Rel := { place := 1, scope := .dev, view := [(0x40000, 1)] }
     3 ∈ (s.warp 0).seen ∧ mfind s.mem.rels 3 = some e ∧ 3 < s.nextId ∧ covers (scopeOf 2) e.place (s.coreOf 0) = true ∧
      covers e.scope e.place (s.coreOf 0) = true) := by decide +kernel

/-- A barrier instruction, at the scope of its level. -/
def barForm (f : BitVec 8) (imm : BitVec 12) : Args :=
  { form := .ext, scope := if imm.toNat < 16 then .warp else .block, imm, func := f }

/-- The conditions of `Claims.MayArrive`, computed. -/
def mayArriveOk (s : State) (g : Grp) (a : Args) : Bool :=
  let x := s.bar (s.warp (leaderOf g)).blk (barLevel a) (barId a)
  let u := s.unitNo (leaderOf g) (barLevel a)
  !s.gridUndeclared (leaderOf g) a && x.mem.testBit u && !x.arr.testBit u && !s.relWaits g.ws (levelScope (barLevel a)) &&
  decide (s.warps.map (·.1)).Nodup

theorem mayArrive_of {s : State} {g : Grp} {a : Args} (h : mayArriveOk s g a = true) : Claims.MayArrive s g a := by
  simp only [mayArriveOk, Bool.and_eq_true, Bool.not_eq_true', decide_eq_true_eq] at h
  obtain ⟨⟨⟨⟨h1, h2⟩, h3⟩, h4⟩, h5⟩ := h
  exact ⟨⟨h1, h2⟩, h3, h4, h5⟩

/-- `demo` where block barrier 3 has two members. -/
def demoBar (arr : Nat) : State := demo.setBar 0 0 3 { mem := 3, arr }

/-- Arrivals that are the last and that are not, at block, cluster and grid barriers. -/
theorem witness_arrive : ([(demo, (3 : BitVec 12)), (demoBar 0, 3), (demo, 0x17), (demo, 0x23)].all fun e =>
      [(Op.barArv, (0 : BitVec 8)), (.barMeet, 2)].all fun o =>
        let a := barForm o.2 e.2
        plainOk e.1 o.1 a e.1.alone && mayArriveOk (op0 e.1 o.1 a) e.1.alone a && !(op0 e.1 o.1 a).acqWaits e.1.alone.ws) = true ∧
    ((demo.bar 0 0 3).arr ||| 2 ^ 0 = (demo.bar 0 0 3).mem) ∧ ((demoBar 0).bar 0 0 3).arr ||| 2 ^ 0 ≠ ((demoBar 0).bar 0 0 3).mem := by
  decide +kernel

/-- Arrivals of a unit that has arrived; a `BAR.MEET` that a save withdrew, and `BAR.WT`, before and after the
generation is complete; `BAR.MEMB` and `BAR.QRY`. -/
theorem witness_bar :
    ([(Op.barArv, (0 : BitVec 8)), (.barMeet, 2)].all fun o =>
      let a := barForm o.2 3
      let s0 := op0 (demoBar 1) o.1 a
      plainOk (demoBar 1) o.1 a (demoBar 1).alone && !s0.gridUndeclared 0 a && (s0.bar 0 0 3).mem.testBit (s0.unitNo 0 0) &&
        Claims.hasArrived s0 (demoBar 1).alone a) = true ∧
    ([0, 1].all fun n =>
      let a := barForm 2 3
      let s := (demoBar n).modWarp 0 fun w => { w with met := some w.pc }
      let s0 := op0 s .barMeet a
      plainOk s .barMeet a s.alone && !s0.gridUndeclared 0 a && !s0.acqWaits s.alone.ws &&
        (s0.warp 0).met == some (s0.warp 0).pc && Claims.hasArrived s0 s.alone a == (n == 1)) = true ∧
    ([0, 1].all fun n => plainOk (demoBar n) .barWt (barForm 1 3) (demoBar n).alone &&
        !(op0 (demoBar n) .barWt (barForm 1 3)).gridUndeclared 0 (barForm 1 3) &&
        !(op0 (demoBar n) .barWt (barForm 1 3)).acqWaits (demoBar n).alone.ws &&
        ((op0 (demoBar n) .barWt (barForm 1 3)).bar 0 0 3).arr.testBit 0 == (n == 1)) = true ∧
    (let s := demoW fun w => w.sset 0 1
     let a := { barForm 3 3 with ka := .s }
     let s0 := op0 s .barMemb a
     plainOk s .barMemb a s.alone = true ∧ s0.gridUndeclared 0 a = false ∧ barLevel a = 0 ∧ barId a = 3 ∧ (s0.bar 0 0 3).arr = 0 ∧
      s0.sval s.alone (srcA a) = 1 ∧ 1 ||| s0.unitsAlive 0 0 = s0.unitsAlive 0 0) ∧
    ([(3 : BitVec 12), 0x17, 0x23].all fun i => plainOk demo .barQry { barForm 4 i with kd := .s } demo.alone &&
        !(op0 demo .barQry { barForm 4 i with kd := .s }).gridUndeclared 0 (barForm 4 i)) = true := by decide +kernel

/-- `demo` with an edge queue of which its stage is both ends, its control line at 0x40000. -/
def demoQ (res pubh taken freed sq n : Word) : State :=
  ((poke demo 0x40000 ([res, pubh, taken, freed, 4, 16].flatMap (bytesOf 8))).modCtx 0 fun c =>
    { c with stages := c.stages.map fun st => { st with queues := [{ ctrl := 0x40000 }] } }).modWarp 0 fun w =>
      (w.sset 0 sq).sset 1 n

/-- An `EQ` that meets the conditions of `Claims.OnQueue`, computed, on a line that reads as `q`. -/
def onQueueOk (s : State) (o : Op) (a : Args) (q : QLine) : Bool :=
  let s0 := op0 s o a
  plainOk s o a s.alone &&
  (match s0.eqQueue 0 o a with
   | .error _ => false
   | .ok ent => okAnd (s0.linePlace 0 true ent.ctrl) fun s1 l => l == 0x40000 && !s1.atomHeld 0 (span l 64) &&
       !s0.relWaits s.alone.ws .dev && !s0.acqWaits s.alone.ws &&
       okAnd (s1.readLine s.alone ent.ctrl l 64) fun s2 r => r == q && !r.bad && s2.mem.tables.isEmpty)

/-- The forms of `EQ`. -/
def eqForm (o : Op) (f : BitVec 8) : Args :=
  { form := .ext, scope := .warp, func := f, kd := if o = .eqPub ∨ o = .eqFree then .v else .s,
    ka := if o = .eqPub ∨ o = .eqFree then .s else .v, kb := .s, d := if o = .eqPub ∨ o = .eqFree then 0 else 2, b := 1 }

/-- `EQ.RESV` and `EQ.TAKE` at the last count that lets them act and the first that does not; `EQ.PUB` and `EQ.FREE` in turn
and out of turn; `EQ.STAT`. -/
theorem witness_queue :
    ([(2 : Word), 3].all fun r => onQueueOk (demoQ r 1 1 1 0 3) .eqResv (eqForm .eqResv 0) ⟨r.toNat, 1, 1, 1, { nslot := 4, slotsz := 16 }⟩) = true ∧
    ([(3 : Word), 2].all fun p => onQueueOk (demoQ 4 p 1 1 0 2) .eqTake (eqForm .eqTake 2) ⟨4, p.toNat, 1, 1, { nslot := 4, slotsz := 16 }⟩) = true ∧
    ([(1 : Word), 2].all fun q => onQueueOk (demoQ 4 1 0 0 q 2) .eqPub (eqForm .eqPub 1) ⟨4, 1, 0, 0, { nslot := 4, slotsz := 16 }⟩) = true ∧
    ([(1 : Word), 2].all fun q => onQueueOk (demoQ 4 4 4 1 q 2) .eqFree (eqForm .eqFree 3) ⟨4, 4, 4, 1, { nslot := 4, slotsz := 16 }⟩) = true ∧
    (let a := { eqForm .eqStat 4 with kb := .v, b := 0, sub := 4 }
     okAnd ((op0 (demoQ 4 3 2 1 0 0) .eqStat a).linePlace 0 false 0x40000) (fun s1 l => l == 0x40000 &&
       !(op0 (demoQ 4 3 2 1 0 0) .eqStat a).ownHeld demo.alone.ws (span l 64) &&
       !(op0 (demoQ 4 3 2 1 0 0) .eqStat a).blocked 0 (op0 (demoQ 4 3 2 1 0 0) .eqStat a).nextId (span l 64) &&
       okAnd (s1.readLine demo.alone 0x40000 l 64) fun _ q => !q.bad) = true ∧
      plainOk (demoQ 4 3 2 1 0 0) .eqStat a (demoQ 4 3 2 1 0 0).alone = true) := by decide +kernel

/-- Waiting `EQ` instructions that may act and that may not, and one whose line has been poisoned. -/
theorem witness_queue_wait : ([(Op.eqResv, (2 : Word)), (.eqResv, 3), (.eqTake, 2), (.eqTake, 3), (.eqPub, 2), (.eqFree, 2)].all fun e =>
      let s := (demoQ 3 2 1 1 1 e.2).modWarp 0 fun w => { w with park := .eqWait demo.alone e.1 (eqForm e.1 0) 1 e.2.toNat { nslot := 4 } }
      !s.waitKept 0 && !s.atomHeld 0 (span 0x40000 64) &&
        okAnd (s.lineAgain demo.alone e.1 (eqForm e.1 0) 32) fun s1 lq => lq.1 == 0x40000 && (mfind s1.warps 0).isSome &&
          ({ lq.2 with set_ := { nslot := 4 } } : QLine).ready e.1 1 e.2.toNat ==
            (e.1 == .eqResv && e.2 == 2 || e.1 == .eqFree)) = true ∧
    (let s := ((demoQ 3 2 1 1 1 2).poisonUnits [0x40000]).modWarp 0 fun w =>
       { w with park := .eqWait demo.alone .eqResv (eqForm .eqResv 0) 1 2 { nslot := 4 } }
     s.waitKept 0 = false ∧ fails (s.lineAgain demo.alone .eqResv (eqForm .eqResv 0) 32) = true) := by decide +kernel

/-- `WAIT` whose limits are met, and with one load too many. -/
theorem witness_wait : ([1, 2].all fun n =>
      let s := demoW fun w => { w with ldCnt := n, stCnt := 255, tileCnt := 255, bankCnt := 255 }
      let a : Args := { form := .ext, scope := .warp, kd := .x, ka := .x, kb := .x, kc := .x, d := 1, a := 255, b := 255, c := 255 }
      plainOk s .wait a s.alone && (((op0 s .wait a).warp 0).ldCnt ≤ a.d.toNat) == (n == 1)) = true := by decide +kernel

/-! ## Witnesses: the matrix array -/

/-- A shape record. -/
def recOf (rows cols base stride fmt blkc dom bsz sexp : Nat) : BitVec 128 :=
  BitVec.ofNat 128 (rows - 1 + 2 ^ 10 * (cols - 1) + 2 ^ 20 * base + 2 ^ 42 * stride + 2 ^ 64 * fmt + 2 ^ 68 * blkc +
    2 ^ 70 * dom + 2 ^ 72 * bsz + 2 ^ 74 * sexp)

/-- A 64 × 16 FP16 record, and others. -/
def rA : BitVec 128 := recOf 64 16 0 32 8 0 0 0 0

/-- A device whose weights are latched for a logical K of 16, with records 0 and 1, and s0 to s1. -/
def demoA (r0 r1 : BitVec 128) (x0 x1 : Word) : State :=
  (demoV.modCore 0 fun c => { c with
    recs := [(0, r0), (1, r1)], latch := { valid := true, fmt := .f16, blk := 24, k := 16, n := 1 } }).modWarp 0 fun w =>
    { (w.sset 0 x0).sset 1 x1 with ashape := 0x1 }

/-- The condition of `Claims.pathOpen`, computed. -/
def pathOk (s : State) (o : Op) (a : Args) : Bool := s.alone.all fun m => decide (((op0 s o a).warp m.1).tileCnt < 255)

/-- The computed conditions are those of the statements. -/
theorem path_of {s : State} {o : Op} {a : Args} (h : pathOk s o a = true) : Claims.pathOpen (op0 s o a) s.alone := by
  simpa only [pathOk, List.all_eq_true, decide_eq_true_eq, Claims.pathOpen] using h

/-- A band that a product of the current warp enables, works or has failed. -/
theorem witness_bands : ([false, true].all fun failed =>
      let s := (demoA rA 0 0 0).modCore 0 fun c => { c with bands := [(0, { failed })] }
      let s0 := op0 s .mma (sample .mma)
      plainOk s .mma (sample .mma) s.alone && pathOk s .mma (sample .mma) && (s0.warp 0).late.isNone &&
        bandOn (s0.warp 0).ashape 0 && ((s0.core 0).band 0).failed == failed &&
        ([1, 2, 3].all fun b => !bandOn (s0.warp 0).ashape b)) = true := by decide +kernel

/-- `TSHP` of a legal image and of an illegal one; `WLD` of a granted image and of one that is not aligned; `TZERO`. -/
theorem witness_array1 :
    ([(recOf 64 16 0 32 8 0 0 0 0, true), (recOf 64 16 0 32 5 0 0 0 0, false)].all fun e =>
      let s := demoA 0 0 (e.1.extractLsb' 0 64) (e.1.extractLsb' 64 64)
      let a := { sample .tshp with ka := .s, kb := .s, b := 1 }
      let s0 := op0 s .tshp a
      plainOk s .tshp a s.alone && (tshpTrap (s0.blkOf 0) (s0.sval s.alone (srcB a 0) ++ s0.sval s.alone (srcA a))).isNone == e.2) = true ∧
    ([((0x3000000000000000 : Word), true), (0x3000000000000001, false)].all fun e =>
      let s := demoA rA rA e.1 0
      let a := { sample .wld with ka := .s }
      let s0 := op0 s .wld a
      plainOk s .wld a s.alone && pathOk s .wld a &&
        (s0.wldTrap 0 a (s0.record 0 a.d.toNat) (s0.sval s.alone (srcA a) + immOff a)).isNone == e.2) = true ∧
    plainOk demo .tzero (sample .tzero) demo.alone = true ∧ pathOk demo .tzero (sample .tzero) = true := by decide +kernel

/-- `MMA` and `SMMA` that pass their checks and that do not, `TST` with the tag it needs and without, and `TLD`. -/
theorem witness_array2 :
    ([(rA, true), (recOf 63 16 0 32 8 0 0 0 0, false)].all fun e =>
      let s := demoA e.1 0 0 0
      let a := sample .mma
      plainOk s .mma a s.alone && pathOk s .mma a && ((op0 s .mma a).mmaTrap 0 a ((op0 s .mma a).record 0 a.a.toNat)).isNone == e.2) = true ∧
    ([(recOf 64 16 0 32 8 0 1 0 0, true), (rA, false)].all fun e =>
      let s := demoA e.1 (recOf 1 1 0 2048 8 0 1 0 0) 0x3000000000000000 0
      let a := { sample .smma with kb := .s, c := 1 }
      let s0 := op0 s .smma a
      plainOk s .smma a s.alone && pathOk s .smma a &&
        (s0.smmaTrap 0 a (s0.record 0 a.a.toNat) (s0.record 0 a.c.toNat) (s0.sval s.alone (srcB a 0) + immOff a)).isNone == e.2) =
      true ∧
    ([(rA, false), (recOf 64 16 0 32 8 0 1 0 0, true)].all fun e =>
      let s := demoA e.1 0 0 0
      let a := sample .tst
      let s0 := op0 s .tst a
      let h := shapeOf (s0.record 0 a.d.toNat)
      plainOk s .tst a s.alone && pathOk s .tst a && (storeShapeTrap (s0.blkOf 0) h a.a.toNat false).isNone &&
        s0.tstTagBad (s0.blkOf 0) h a.a.toNat == e.2) = true ∧
    (let s := demoA rA 0 0 0
     let a := sample .tld
     let s0 := op0 s .tld a
     plainOk s .tld a s.alone = true ∧ pathOk s .tld a = true ∧
       storeShapeTrap (s0.blkOf 0) (shapeOf (s0.record 0 a.a.toNat)) a.d.toNat false = none) := by decide +kernel

/-- The operation of warp 0 alone in the path of core 0. -/
def demoOp (cmd : ArrCmd) (phase : ArrPhase) : State :=
  demo.modCore 0 fun c => { c with
    arr := [{ cmd, members := [0], nums := [1], blk := 0, ctx := 0, ashape := 1, phase }]
    latch := ({ valid := true, fmt := .f16, blk := 24, k := 1, n := 1, wts := [(1, 0x3C)] } : Latch).withSums }

/-- What the statements ask of the head of a path, computed. -/
def headOk (s : State) (cmd : ArrCmd) : Bool :=
  match s.arrHead 0 with
  | some o => o.cmd == cmd && o.members == [0] && (mfind s.warps 0).isSome &&
      (List.range 8).all fun i => (List.range 8).all fun j => i == j || (s.blk o.blk).tileNo i != (s.blk o.blk).tileNo j
  | none => false

/-- A running `MMA` of a 64 × 1 matrix; a `TZERO`; a `TST` and a `TLD` of one element; an `SMMA` whose weights are poisoned. -/
theorem witness_array3 :
    (let r := recOf 64 1 0 8 8 0 0 0 0
     let s := demoOp (.mma 0 r .f16 true false) (.running 0)
     headOk s (.mma 0 r .f16 true false) = true ∧ (s.core 0).tileErr = [] ∧
      (match s.arrHead 0 with
       | some o => (s.sumsDiffer 0 o r .f16 false).all (·.isEmpty)
       | none => false) = true ∧
      (shapeOf r).rows % 64 = 0 ∧ FFmt.f16.width ≠ 8) ∧
    headOk (demoOp (.tzero 2 3) .queued) (.tzero 2 3) = true ∧
    (let r := recOf 1 1 0 8 8 0 0 0 0
     headOk (demoOp (.tst 0 r .f16 0 .rne false 0) .queued) (.tst 0 r .f16 0 .rne false 0) = true ∧
      headOk (demoOp (.tld 0 r .f16) .queued) (.tld 0 r .f16) = true ∧ (shapeOf r).cols ≤ 256 ∧
      0 + ((shapeOf r).rows + 63) / 64 ≤ 8) := by decide +kernel

/-- An `SMMA` of one block by one block that runs; weights in a poisoned unit cancel it; a `WLD` of one dense column, and of one sparse column of empty masks. -/
theorem witness_array4 :
    (let ra := recOf 64 16 0 32 8 0 1 0 0
     let rc := recOf 1 1 0 2048 8 0 1 0 0
     let cmd : ArrCmd := .smma 0 ra rc 0 true
     let s := (demoOp cmd (.running 0)).setCol (vaultLoc 0 0) .poison
     headOk s cmd = true ∧
      (match (demoOp cmd (.running 0)).arrHead 0 with
       | some o => (((demoOp cmd (.running 0)).modCore 0 id).readSlabs
           (((demoOp cmd (.running 0)).modCore 0 id).arrFloors 0 o) 0 0 (shapeOf rc)).2.2 == none
       | none => false) = true ∧ headOk (demoOp cmd (.running 0)) cmd = true ∧ (shapeOf ra).rows % 64 = 0 ∧
      0 + (shapeOf ra).rows / 64 ≤ 8 ∧ (shapeOf rc).cols * (shapeOf rc).b ≤ 256 ∧
      (match s.arrHead 0 with
       | some o => ((s.modCore 0 id).readSlabs ((s.modCore 0 id).arrFloors 0 o) 0 0 (shapeOf rc)).2.2 == some 0
       | none => false) = true) ∧
    ([((8 : Nat), (0 : Nat), true), (0xC, 1, false)].all fun e =>
      let r := recOf 24 1 0 48 e.1 0 0 0 0
      let f : FFmt := recFmt 0x304 e.1
      let s := demoOp (.wld 0 r f e.2.1) .queued
      headOk s (.wld 0 r f e.2.1) &&
      match s.arrHead 0 with
      | some o =>
        let x := s.readSlices (s.arrFloors 0 o) 0 0 1 (sliceSize e.1 e.2.1)
        x.2.2.isNone && (badMask 0 (sliceSize e.1 e.2.1) e.2.1 24 x.2.1).isNone == e.2.2
      | none => false) = true := by decide +kernel

/-- `TAG.SET` of a legal field and of a reserved domain, `TAG.ADJ` of a spatial and of spectral records, and `TAG.QRY`. -/
theorem witness_tags :
    ([((0x1 : BitVec 12), true), (0x3, false)].all fun e =>
      let s := demoA rA (recOf 64 16 0 32 8 0 1 0 0) 0 0
      let a := { sample .tagSet with imm := e.1 }
      let s0 := op0 s .tagSet a
      let i := a.imm.toNat
      plainOk s .tagSet a s.alone && (tagSetTrap (s0.blkOf 0) (withDomain (s0.record 0 a.a.toNat) (i % 4) (i / 4 % 4)
        (i / 16 % 64))).isNone == e.2) = true ∧
    ([((1 : BitVec 12), rA), (32, rA), (31, recOf 64 16 0 32 8 0 1 0 0), (32, recOf 64 16 0 32 8 0 1 0 0)].all fun e =>
      let s := demoA e.2 0 0 0
      plainOk s .tagAdj { sample .tagAdj with imm := e.1 } s.alone) = true ∧
    plainOk demo .tagQry (sample .tagQry) demo.alone = true := by decide +kernel

/-! ## Witnesses: the transform pipes -/

/-- `XFFT` of a record that it takes, with the pipe free, and of one that it refuses. -/
theorem witness_xfft :
    ([(recOf 1 128 0 256 8 0 1 3 0, true), (rA, false)].all fun e => [Op.xfftFwd, .xfftInv].all fun o =>
      let s := demoA e.1 0 0 0
      let a := { sample o with kd := .v, ka := .v, d := 4, a := 0 }
      let s0 := op0 s o a
      let h := shapeOf (s0.record 0 a.b.toNat)
      let x := s0.warp 0
      issuesOk s o a (fun s g => s.xfftPoison a g) s.alone && (xfftTrap (s0.blkOf 0) h).isNone == e.2 &&
        (!e.2 || h.b * fmtBytes h.fmt == 256) && 4 + 1 ≤ x.nregs && x.busy.isEmpty && x.tileCnt < 255 &&
        ((s0.core 0).pipe x.pipe).wait.isEmpty && ((s0.core 0).pipe x.pipe).free s0.clock) = true := by decide +kernel

/-- A pipe that is free, with one `XFFT` waiting; and a result 48 clocks after its last register, and before. -/
theorem witness_pipe :
    (let e : PipeOp := { w := 0, start := 0, d := 4, res := [(128, 7)], flags := 1, r := 1 }
     let s := demo.modPipe 0 0 fun p => { p with wait := [(2, e)] }
     ((s.core 0).pipe 0).free s.clock = true ∧ ((s.core 0).pipe 0).wait = [(2, e)] ∧ 2 / 4 = 0 ∧
     ([51, 52].all fun n =>
        let s : State := { demo.modPipe 0 0 fun p => { p with ops := [e] } with clock := n }
        ((s.core 0).pipe 0).ops == [e] && decide (s.clock < e.start + 4 * e.r + 48) == (n == 51) &&
          (mfind s.warps e.w).isSome && !(s.warp e.w).retired && decide (e.res.map (·.1)).Nodup) = true) := by decide +kernel

/-! ## Witnesses: near-bank operations -/

/-- `demo` with its memory in a row-mapped segment. -/
def demoR : State :=
  { poke demo 0x3000 [0x2F] with island := { demo.island with fw := { demo.island.fw with rmSegs := [0] } } }

/-- A near-bank form over A = s0 and B = s1 with C = s2 as its length. -/
def nbForm (o : Op) (ty : EType) : Args :=
  { sample o with ka := .s, a := 0, kb := if (rowOf o 0).b.present then .s else (sample o).kb, b := 1, kc := .s, c := 2, kd := .s, d := 8, ty }

/-- `NB` in the state s with A, B and LEN. -/
def nbAt (s : State) (pa pb len : Word) : State := s.modWarp 0 fun w => ((w.sset 0 pa).sset 1 pb).sset 2 len

/-- The ranges of a form. -/
def nbRngs (f : Nat) (pa pb len : Word) : List Rng :=
  { p := pa, n := len.toNat, write := nbWrites f } :: (if f ≤ 1 then [{ p := pb, n := len.toNat, write := false }] else [])

/-- A near-bank form that passes its checks, and one at an address that is not aligned. -/
theorem witness_nb :
    (Claims.nbForms.all fun e => [((0x20000 : Word), true), (0x20001, false)].all fun p =>
      let s := nbAt demoR p.1 0x20400 32
      let a := nbForm e.1 .i32
      let s0 := op0 s e.1 a
      let gs := nbRngs e.2 p.1 0x20400 32
      let x := s0.rngCheck 0 gs (nbAlign (nbWrites e.2) gs 32)
      plainOk s e.1 a s.alone && s0.sval s.alone (srcA a) == p.1 && s0.sval s.alone (srcC a) == 32 &&
      if p.2 then okAnd x fun s1 rs =>
        (e.2 != 1 || (axpyPlace p.1 (rs.getD 0 ([], true)).1 0x20400 (rs.getD 1 ([], true)).1 (rs.getD 1 ([], true)).2 32).isNone) &&
        (s1.jrnTrap 0 (rangeRows p.1 (rs.getD 0 ([], true)).1 32)).isNone && (s0.warp 0).bankCnt < 255 && (s0.warp 0).outstanding < 8 &&
        !s1.relWaits [0] .dev
      else fails x) = true := by decide +kernel

/-- `AXPY` of ranges that overlap; and a step whose journal rows in the bank are all used. -/
theorem witness_nb_trap :
    (let s := nbAt demoR 0x20000 0x20020 64
     let a := nbForm .nbAxpy .i32
     let s0 := op0 s .nbAxpy a
     let gs := nbRngs 1 0x20000 0x20020 64
     plainOk s .nbAxpy a s.alone && okAnd (s0.rngCheck 0 gs (nbAlign true gs 64)) fun _ rs =>
       (axpyPlace 0x20000 (rs.getD 0 ([], true)).1 0x20020 (rs.getD 1 ([], true)).1 (rs.getD 1 ([], true)).2 64).isSome) = true ∧
    (let s := (nbAt demoR 0x20000 0 32).modCtx 0 fun c => { c with
       jrn := { n := 1, isOpen := true, rows := (List.range 256).map fun k => (1024 * (1000 + k), ([], [])) } }
     let a := nbForm .nbFill .i32
     let s0 := op0 s .nbFill a
     let gs := nbRngs 4 0x20000 0 32
     plainOk s .nbFill a s.alone && okAnd (s0.rngCheck 0 gs (nbAlign true gs 32)) fun s1 rs =>
       (s1.jrnTrap 0 (rangeRows 0x20000 (rs.getD 0 ([], true)).1 32)).isSome) = true := by decide +kernel

/-- The batch of the operation below. -/
def nbB : Batch := { reg := 8, seq := 1, sealed := true, ops := [9] }

/-- A near-bank operation of 32 B in flight. -/
def demoNb (func : Nat) : State :=
  { demoW fun w => { w with batches := [nbB], nextSeq := 2, bankCnt := 1 } with
    pend := [(9, .nb 0 1 func { ty := .i32 } 0x20000 0 [0x20000] [] 32 5 0x304 [] [])] }

/-- The conditions of `Claims.LoneBatch`, computed. -/
def loneOk (s : State) : Bool :=
  (mfind s.warps 0).isSome && !(s.warp 0).retired && (s.warp 0).batches == [nbB]

/-- The computed conditions are those of the statements. -/
theorem lone_of {s : State} (h : loneOk s = true) : Claims.LoneBatch s 0 1 nbB := by
  simp only [loneOk, Bool.and_eq_true, Bool.not_eq_true', beq_iff_eq] at h
  obtain ⟨⟨h1, h2⟩, h3⟩ := h
  refine ⟨h1, h2, by simp [h3], ⟨rfl, rfl, rfl, rfl⟩, fun c hc _ _ => ?_, by simp [h3]⟩
  simpa [h3] using hc

/-- A pass of core 0's region that holds row 0x20000. -/
def somePass : Pass :=
  { id := 3, seq := 1, slot := 2, jig := { ety := .i32, steps := [(2, 7)] }, haste := false, counter := none, w := 0, batch := 1,
    accepted := some 0 }

/-- A region of one row. -/
def someRegion (p : Pass) : Region := { ctx := 0, start := 0x20000, rows := [0x20000], nextSeq := 2, passes := [p] }

/-- A writing operation whose row's die is offline, one whose row a pass holds, one that runs, and a reading one. -/
theorem witness_nb_done :
    (let s := (demoNb 4).modDie 0 fun d => { d with st := .offline 0 }
     loneOk s && (rangeRows 0x20000 [0x20000] 32).any fun r => s.offline (homeDie r.2)) = true ∧
    (let s : State := { demoNb 4 with regions := [someRegion somePass] }
     loneOk s && !(rangeRows 0x20000 [0x20000] 32).any (fun r => s.offline (homeDie r.2)) &&
       s.nbHeld 0 9 [] (rangeRows 0x20000 [0x20000] 32)) = true ∧
    ([3, 4, 5].all fun f =>
      let s := demoNb f
      let acc := nbLoop 0 f 0 { ty := .i32 } 5 0x304 [] [] false 0x20000 0 [0x20000] [] 1 0 { st := s, p := List.replicate 8 0, q := List.replicate 8 0 }
      loneOk s && !s.nbHeld 0 9 [] (rangeRows 0x20000 [0x20000] 32) && loneOk acc.st) = true := by decide +kernel

/-- `FILL` over two columns that hold distinct bytes and are not in a fenced bank; a column read by `SUM` and `CMPZ`. -/
theorem witness_nb_loop :
    (demo.cores.all fun e => e.2.uLines.isEmpty) = true ∧
    (let cols := (List.range 2).map fun k => locAt 0x20000 [0x20000] (32 * k)
     (cols.flatMap fun l => span l 32).Nodup ∧ (cols.all fun l => (span l 32).all fun k => !demo.discards k) = true) ∧
    okAnd (demo.readCol [] 0x20000) (fun _ c => c.length == 32) = true := by decide +kernel

/-! ## Witnesses: jigs -/

/-- The record of a jig on I32 with one step that adds 7. -/
def jigRec : List Byte := [0x1, 1, 0, 0, 2, 0, 0, 0] ++ List.replicate 8 0 ++ bytesOf 8 7

/-- `demoV` with a jig record at the start of vault 0, and the slots that a mask grants. -/
def demoJ (grant : BitVec 16) (recd : List Byte) : State :=
  ((poke demoV (vaultLoc 0 0) recd).modCtx 0 fun c => { c with crec := { c.crec with jigGrant := grant } }).modWarp 0 fun w =>
    w.sset 0 0x3000000000000000

/-- `JIG.DEF` of a good record, of a malformed one, of a slot not granted, of a slot in use, and of a poisoned record; a bad
space, an address that is not aligned, and a place that is not granted. -/
theorem witness_jigDef :
    ([(demoJ 4 jigRec, false, true, true), (demoJ 4 [], false, true, false), (demoJ 0 jigRec, false, false, true),
      ({ demoJ 4 jigRec with regions := [someRegion somePass] }, true, true, true)].all fun e =>
      let s := e.1
      let a := { sample .jigDef with ka := .s, a := 0, imm := 2 }
      let s0 := op0 s .jigDef a
      plainOk s .jigDef a s.alone && (s0.warp 0).bankCnt < 255 && okAnd (s0.places 0 {} 0x3000000000000000 64) fun s1 ps =>
        let x := s1.readNow 0 0 (memLocs ps)
        !s1.ownHeld [0] (memLocs ps) && !s1.blocked 0 s1.nextId (memLocs ps) &&
        (x.2.poison (memLocs ps)).isNone && (x.1.regions.any fun q => q.ctx == 0 && q.passes.any fun y => y.slot == 2) == e.2.1 &&
          (x.1.ctx 0).crec.jigGrant.getLsbD 2 == e.2.2.1 && (jigOf (s0.warp 0).fpmode ((memLocs ps).map x.2.byte)).isSome == e.2.2.2) = true ∧
    (let s := (demoJ 4 jigRec).setCol (vaultLoc 0 0) .poison
     let a := { sample .jigDef with ka := .s, a := 0, imm := 2 }
     plainOk s .jigDef a s.alone && okAnd ((op0 s .jigDef a).places 0 {} 0x3000000000000000 64) fun s1 ps =>
       ((s1.readNow 0 0 (memLocs ps)).2.poison (memLocs ps)).isSome) = true ∧
    ([(0x7000000000000000 : Word), 0x3000000000000004, 0x3000010000000000].all fun p =>
      let s := (demoJ 4 jigRec).modWarp 0 fun w => w.sset 0 p
      let a := { sample .jigDef with ka := .s, a := 0, imm := 2 }
      plainOk s .jigDef a s.alone && (p != 0x3000010000000000 || fails ((op0 s .jigDef a).places 0 {} p 64))) = true ∧
    (let s : State := { demo with pend := [(9, .jigDef 0)] }
     mfind s.pend 9 = some (.jigDef 0) ∧ (mfind s.warps 0).isSome = true) := by decide +kernel

/-- `JIG.ARM` over one row at s0, of s1 bytes, in the state s. -/
def armForm : Args := { sample .jigArm with ka := .s, a := 0, kb := .s, b := 1, kc := .v, c := 0, kd := .s, d := 8, imm := 2 }

/-- `demoR` with jig slot 2 granted and defined, and regions. -/
def demoArm (grant : BitVec 16) (gs : List Region) : State :=
  let s := (nbAt demoR 0x20000 1024 0).modCtx 0 fun c => { c with crec := { c.crec with jigGrant := grant } }
  { s with jigs := [(2, some { ety := .i32, steps := [(2, 7)] })], regions := gs }

/-- `JIG.ARM` of a first pass, of a second pass of its region, of an ungranted slot, of rows that overlap, and with a full
table. -/
theorem witness_arm :
    ([(demoArm 4 [], 0), (demoArm 4 [someRegion somePass], 0), (demoArm 0 [], 1),
      (demoArm 4 [{ someRegion somePass with start := 0x1FC00, rows := [0x1FC00, 0x20000] }], 2),
      (demoArm 4 ((List.range 32).map fun k => { someRegion somePass with start := 0x40000, rows := [0x40000 + 1024 * k] }), 3)].all fun e =>
      let s := e.1
      let s0 := op0 s .jigArm armForm
      plainOk s .jigArm armForm s.alone && s0.sval s.alone (srcA armForm) == 0x20000 && s0.sval s.alone (srcB armForm 0) == 1024 &&
      okAnd (s0.rngCheck 0 [{ p := 0x20000, n := 1024, write := true }] (armAlign 0x20000 1024)) fun s1 rs =>
        okAnd (s1.armCounter s.alone armForm) fun s2 _ =>
          let rows := rangeRows 0x20000 (rs.getD 0 ([], true)).1 1024
          let own := s2.regions.find? fun q => q.ctx == 0 && q.start == 0x20000 && q.rows.length == (rows.map (·.2)).length
          let clash := s2.regions.any fun q => some q != own && q.rows.any (rows.map (·.2)).contains
          let full := own.isNone && 32 ≤ (s2.regions.filter fun q => q.ctx == 0).length
          clash == (e.2 == 2) && full == (e.2 == 3) && (s2.ctx 0).crec.jigGrant.getLsbD 2 == (e.2 != 1) && (s2.jrnTrap 0 rows).isNone &&
            (own.all fun q => q.passes.length < 4) && !s2.relWaits [0] .dev) = true ∧
    (let s : State := { demo with pend := [(3, .arm 0 0 0x20000 3)], regions := [someRegion somePass] }
     s.pass? 3 = some (someRegion somePass, somePass) ∧ ([0x20000].all fun r => !s.offline (homeDie r)) = true) := by decide +kernel

/-- A row that its pass may sweep, by refresh and by a wave, with good columns and with a poisoned one. -/
theorem witness_sweep :
    ([false, true].all fun h =>
      let p := { somePass with haste := h }
      let s : State := { demo with regions := [someRegion p], timer := 800 }
      hasteNext (someRegion p) p 0x20000 && s.held.isEmpty && (s.ctx 0).jrn.ops.isEmpty && (mfind s.ctxs 0).isSome && (s.cores.all fun e => e.2.uLines.isEmpty) &&
        !s.offline (homeDie 0x20000) && (span 0x20000 1024).all fun l => !s.discards l) = true ∧
    (let s : State := { demo with regions := [someRegion somePass], timer := 800 }
     (s.checkReads 3 (span 0x20000 1024)).2 = []) ∧
    (let s := ({ demo with regions := [someRegion somePass], timer := 800 } : State).setCol (colKey demo.island.fw 0x20000) .poison
     (s.checkReads 3 (span 0x20000 1024)).2 ≠ []) := by decide +kernel

/-- `JIG.POS`, `JIG.QRY` and `JIG.DISARM` of a region with an accepted pass, of one whose pass is not accepted yet, and of
none. -/
theorem witness_jigAsk : ([[{ someRegion somePass with lastAcc := 1 }],
      [someRegion { somePass with accepted := none }], []].all fun gs =>
      let s : State := { (demoW fun w => w.sset 0 0x20000) with regions := gs }
      [Op.jigPos, .jigQry, .jigDisarm].all fun o =>
        let a := { sample o with ka := .s, a := 0, kd := .s, d := 8 }
        plainOk s o a s.alone && (op0 s o a).sval s.alone (srcA a) == 0x20000 &&
          ((op0 s o a).warp 0).bankCnt < 255) = true := by decide +kernel

/-! ## Witnesses: the journal -/

/-- `demo` with a journal. -/
def demoJrn (j : Journal) : State := demo.modCtx 0 fun c => { c with jrn := j }

/-- The journal instructions with a step open, aborted by hardware, and none. -/
theorem witness_journal : ([({ n := 1, isOpen := true } : Journal), { n := 1, aborted := true }, {}].all fun j =>
      [Op.jrnBegin, .jrnCommit, .jrnAbort].all fun o =>
        let a := { sample o with kd := .s, d := 8 }
        plainOk (demoJrn j) o a demo.alone && (mfind (op0 (demoJrn j) o a).ctxs 0).isSome &&
          ((op0 (demoJrn j) o a).ctx 0).jrn == j &&
          ((op0 (demoJrn j) o a).warp 0).bankCnt < 255) = true := by decide +kernel

/-- Closing a step whose operations are in flight; a COMMIT and an ABORT with one row copied; a step that hardware aborted. -/
theorem witness_close :
    ([({ n := 1, isOpen := true, ops := [9], closing := some (0, 8, false) } : Journal),
      { n := 1, isOpen := true, rows := [(0x20000, (List.replicate 1024 7, []))], closing := some (0, 8, false) },
      { n := 1, isOpen := true, rows := [(0x20000, (List.replicate 1024 7, [0x20000]))], closing := some (0, 8, true) },
      { n := 1, aborted := true, closing := some (0, 8, false) }].all fun j =>
      let s := demoJrn j
      s.mem.tables.isEmpty &&
      (s.ctx 0).jrn == j && (mfind s.ctxs 0).isSome && (mfind s.warps 0).isSome && !(s.warp 0).retired &&
        (s.cores.all fun e => e.2.uLines.isEmpty) &&
        j.rows.all fun e => !s.offline (homeDie e.1) && !s.fenced (physRM e.1) && e.2.1.length == 1024 && e.1 % 1024 == 0 &&
          (span e.1 1024).all fun l => !s.discards l) = true := by decide +kernel

/-! ## Witnesses: power, clocks and energy -/

/-- `demo` with a band of core 0. -/
def demoBand (st : BandSt) : State := demo.modBand 0 1 fun x => { x with st }

/-- A wake request before and after its arbiter is free; bands waking and in HOLD. -/
theorem witness_bandPower :
    (let s := demo.modDie 0 fun d => { d with wakes := [(0, 1)], wakeFree := 5 }
     (s.die 0).wakes = [(0, 1)] ∧ ([4, 5].all fun n => decide (({ s with clock := n } : State).clock < (s.die 0).wakeFree) == (n == 4)) = true) ∧
    ([2599, 2600, 5199, 5200].all fun n => (({ demoBand (.waking 0) with clock := n } : State).core 0).band 1 == { st := .waking 0 }) = true ∧
    ([19999, 20000].all fun n => (({ demoBand (.hold 0) with timer := n } : State).core 0).band 1 == { st := .hold 0 }) = true := by
  decide +kernel

/-- A waking band that an operation of a live warp waits for. -/
theorem witness_bandFail :
    (let s := (demoOp (.mma 0 0 .f16 true false) .queued).modBand 0 0 fun x => { x with st := .waking 0 }
     (s.core 0).arr.any fun o => o.usesBands && bandOn o.ashape 0 && o.members.all fun w =>
       (mfind s.warps w).isSome && (s.warp w).late.isNone) = true := by decide +kernel

/-- An operation that asks alone with a load of 4 LU, and one with 16. -/
theorem witness_slew : ([((0xC1 : Word), true), (0xCF, false)].all fun e =>
      let s : State := { (demoOp (.mma 0 0 .f16 true false) .queued).modCore 0 fun c => { c with
        arr := c.arr.map fun o => { o with ashape := e.1 }, bands := (List.range 4).map fun b => (b, { st := .on }) } with clock := 8 }
      s.clock % 4 == 0 && (s.die 0).slewAt < s.clock / 4 && (match (s.core 0).arr with
        | [o] => s.arrReady 0 == some o && o.phase == .queued && decide (loadUnits o.ashape ≤ 8) == e.2
        | _ => false) && s.filler 0 == 0 &&
      (List.range 40).all fun k => k == 0 || (s.core k).arr.isEmpty && s.filler k == 0) = true := by decide +kernel

/-- A slew step that answers a next state; a clock between two boundaries, and a boundary that has been taken. -/
theorem witness_slew_taken :
    (∃ t, exec (.slewStep 0) demo = .next t) ∧
    (let s : State := { demo.modDie 0 fun d => { d with slewAt := 2 } with clock := 8 }
     ({ s with clock := 11 } : State).clock % 4 ≠ 0 ∧ s.clock % 4 = 0 ∧ s.clock / 4 ≤ (s.die 0).slewAt ∧ s.clock / 4 ≠ 0) := by
  constructor
  · exact ⟨_, rfl⟩
  · decide +kernel

/-- A boosted die before and after a millisecond, one that is not boosted, and one whose boost ended with time counted. -/
theorem witness_wear : ([((1 : Nat), (1000000 : Nat), (0 : Nat), true), (1, 999999, 0, false), (0, 1000000, 0, false),
      (0, 5, 1000000, true)].all fun e =>
      let s : State := { demo.modDie 0 fun d => { d with boost := e.1, wearNs := e.2.2.1 } with timer := e.2.1 }
      let d := s.die 0
      decide (1000000 ≤ d.wearNs + if d.boost = 0 then 0 else s.timer - d.wearAt) == e.2.2.2) = true := by decide +kernel

/-- A boost below and at the ceiling, which depends on a value that is free: the ceiling is at most 12. -/
theorem witness_boost :
    (let s := demo.modDie 0 fun d => { d with boost := 12 }
     12 - 12 * (s.die 0).wear / Config.wearMax 0 ≤ (s.die 0).boost) ∧
    (demo.die 0).boost < 12 - 12 * (demo.die 0).wear / Config.wearMax 0 := by
  constructor
  · exact Nat.sub_le _ _
  · have h : (demo.die 0).wear = 0 ∧ (demo.die 0).boost = 0 := by decide +kernel
    rw [h.1, h.2, Nat.mul_zero, Nat.zero_div]
    decide

/-- Refills and energy updates that are due, and not. -/
theorem witness_energy :
    ([999, 1000].all fun n => (decide (({ demo with timer := n } : State).budgetAt / 1000 < n / 1000)) == (n == 1000)) = true ∧
    ((demo.ctxs.filter fun e => !e.2.saved).flatMap fun e => e.2.crec.cores).Nodup ∧
    ([999999, 1000000].all fun n => (decide (({ demo with timer := n } : State).energyAt / 1000000 < n / 1000000)) == (n == 1000000)) =
      true ∧ (mfind demo.ctxs 0).isSome = true := by decide +kernel

/-! ## Witnesses: arbitration and the watchdogs -/

/-- A partition that runs a warp, one whose warp is eligible, one whose warp is not, and one with none. -/
theorem witness_arbitration :
    msorted demo.warps = true ∧ (mget {} (demo.core 0).parts 0).run.isSome = true ∧
    (let s := demo.modCore 0 fun c => { c with parts := [] }
     msorted s.warps = true ∧ (mget {} (s.core 0).parts 0).run = none ∧ (mfind s.warps 0).isSome = true ∧
      (s.blkOf 0).core = 0 ∧ (s.warp 0).part = 0 ∧ s.eligible 0 = true) ∧
    (let s := (demoW fun w => { w with yielded := true, retired := true }).modCore 0 fun c => { c with parts := [] }
     (mfind s.warps 0).isSome = true ∧ (s.blkOf 0).core = 0 ∧ (s.warp 0).part = 0 ∧ s.eligible 0 = false) ∧
    (mget {} (demo.core 0).parts 1).run = none ∧ (demo.warps.all fun e => e.2.part != 1) = true := by decide +kernel

/-- A rendezvous at which one of two members has waited for the period, and one clock less. -/
theorem witness_rendezvous : ([(2 ^ 26 : Nat), 2 ^ 26 - 1].all fun n =>
      let r : Rdv := { pc := 0x10000, lo := 0, hi := 2, instr := .nop {}, arrived := [(0, 1)], first := 0 }
      let s1 : State := { demo with
        warps := mins demo.warps 1 { demo.warp 0 with wid := 1, slot := 1 }
        blocks := mins demo.blocks 0 { demo.blk 0 with nwarps := 2, setw := 2, rdvs := [r] }, clock := n }
      let s : State := { s1 with ctxs := s1.ctxs.map fun e => (e.1, { e.2 with stages := e.2.stages.map fun st =>
        { st with lrec := { st.lrec with wdog := 26 } } }) }
      (s.blk 0).rdvs == [r] && (mfind s.blocks 0).isSome &&
        decide (2 ^ (s.stageOf (s.blk 0)).lrec.wdog ≤ s.clock - r.first - r.paused) == (n == 2 ^ 26) && !s.rdvWhole 0 r &&
        r.stop.isNone && (r.arrived.map (·.1) == [0]) && (s.rdvExpired 0 r == (n == 2 ^ 26)) && (mfind s.warps 0).isSome && !(s.warp 0).inHandler) = true := by decide +kernel

/-- A warp that has waited to issue, less than the period and the period, and one in its handler. -/
theorem witness_watchdog :
    ([(0 : Nat), 2 ^ 28 - 7].all fun n =>
      let s : State := { (demoW fun w => { w with waitFrom := some 0, waited := n }) with clock := 7 }
      (s.warp 0).waitFrom == some 0 && s.mayIssue 0 && !(s.ctx (s.warp 0).ctx).dead &&
        decide (2 ^ 28 ≤ (s.warp 0).waited + (s.clock - 0)) == (n != 0)) = true ∧
    (let s := demoW fun w => { w with inHandler := true }
     (s.warp 0).inHandler = true ∧ (s.warp 0).stopped = false ∧ (s.ctx (s.warp 0).ctx).dead = false) := by decide +kernel

/-! ## Witnesses: stages -/

/-- A context with one cluster of its stage to place, on a free core and on one that holds its array; a frozen context. -/
theorem witness_placement :
    ([true, false].all fun free =>
      let s0 := demo.modCtx 0 fun c => { c with queue := [(1, 0, 0)] }
      let s : State := if free then { s0 with blocks := [], warps := [] } else s0
      let x := s.ctx 0
      (mfind s.ctxs 0 == some x) && !x.frozen && !x.freezing && !x.saved &&
      (match x.stages with
        | [st] => !st.lrec.trig && x.queue == [(st.lnum, 0, 0)] &&
          (match planCluster s.occOf x.crec.cores (l1Bytes x.crec.l1sz.toNat) st.lrec with
            | none => !free
            | some xs => free && xs.all fun e => e.1.slots.length ≤ 32)
        | _ => false)) = true ∧
    (let s := demo.modCtx 0 fun c => { c with frozen := true }
     mfind s.ctxs 0 = some (s.ctx 0) ∧ (s.ctx 0).frozen = true) := by decide +kernel

/-- `demoV` with a submission area of two entries at 0x40000, and in vault 0 a launch record and its truss record. -/
def demoSub (flags sub : Word) : State :=
  let s := demoV.modCtx 0 fun c => { c with crec := { c.crec with submit := 0x40000, nent := 2 } }
  poke (poke (poke (poke (poke s 0x40000 (bytesOf 8 sub)) 0x40040 (bytesOf 8 0x3000000000000200)) (vaultLoc 0 0x200)
    ([0x1 + flags, 1, 0x10000, 0x3000000000000280, 8].flatMap (bytesOf 8))) (vaultLoc 0 0x238) (bytesOf 8 0x304))
    (vaultLoc 0 0x280) (bytesOf 8 1)

/-- The submission area: no new entry, and a new one; one that waits; an area that cannot be read. -/
theorem witness_dispatch :
    ([((0 : Word), (0 : Word)), (0, 1)].all fun e =>
      let s := demoSub e.1 e.2
      let x := s.ctx 0
      let r := s.dispRead 0 x.crec.submit
      x.crec.submit != 0 && decide (spaceOf x.crec.submit ≤ 2) && x.crec.submit.toNat % 8 == 0 && !x.dispStop && !x.dead && !x.frozen && !x.saved && (mfind s.ctxs 0).isSome && r.2 == some e.2 &&
        decide (e.2.toNat ≤ x.dispN) == (e.2 == 0)) = true ∧
    (let s := ((poke (poke demo 0x3008 (bytesOf 8 0x200000000F)) 0x1FFFC0 (bytesOf 8 1)).modCtx 0 fun c => { c with
       crec := { c.crec with submit := 0x1FFFC0, nent := 2 } }).modDie 1 fun d => { d with st := .offline 0 }
     (s.dispRead 0 0x1FFFC0).2 = some 1 ∧ (s.dispRead 0 0x1FFFC0).1.dispHeld 0 0x200010 = true) ∧
    (let s := demo.modCtx 0 fun c => { c with crec := { c.crec with submit := 0x40000000 } }
     (s.dispRead 0 0x40000000).2 = none) := by decide +kernel

/-- Places that are no counters. -/
theorem witness_no_counter : 2 < spaceOf (0x3000000000000000 : Word) ∧ (0x40004 : Word).toNat % 8 ≠ 0 := by decide

/-- The decision of an entry of `demoSub`, with the places of its status and of DONE_N: it meets the premises and answers st. -/
def decideOk (flags st0 : Word) : Bool :=
  let s1 := ((demoSub flags 1).dispRead 0 0x40000).1
  okAnd ((s1.dispAcquire 0).recRead { c := 0, w := none } 0x40040 8) fun s2 bs =>
    okAnd (s2.launchAt { c := 0, w := none } (ofBytes bs)) fun s3 st => st == st0 && !s1.dispHeld 0 0x40050 &&
      !s1.dispHeld 0 0x40008 && s3.mem.tables.isEmpty && (s3.cores.all fun e => e.2.uLines.isEmpty) &&
      okAnd (s3.recLocs 0 { write := true } 0x40050 8) fun s4 ls =>
        let l := ls.headD 0
        ls == span l 8 && l % 8 == 0 && !s4.lostLoc l && (ls.all fun i => !s3.discards i) &&
          okAnd (((s4.recall ls).performWrite {} false 0 8 (ls.zip (bytesOf 8 st))).recLocs 0 { write := true } 0x40008 8)
            fun s6 ds =>
              let d := ds.headD 0
              ds == span d 8 && d % 8 == 0 && (ds.all fun i => !s3.discards i && !ls.contains i) && !s6.offline (homeDie d) &&
                (s6.checkReads 0 ds).2.isEmpty

/-- A launch that is accepted, and a busy one. -/
theorem witness_decide : (decideOk 0 0x200000000 && decideOk 0xC00000 6) = true := by decide +kernel

/-- `LAUNCH` by a warp of the same record: accepted. -/
theorem witness_launch_status :
    (let s := (demoSub 0 0).modWarp 0 fun w => w.sset 0 0x3000000000000200
     let s0 := op0 s .launch (sample .launch)
     plainOk s .launch (sample .launch) s.alone && !s0.ownWaits 0 && okAnd (s0.launchAt { c := 0, w := some 0 } 0x3000000000000200)
       (fun s1 x => (mfind s1.warps 0).isSome && x == 0x200000000) &&
     okAnd (s0.launchIn { c := 0, w := some 0 } 0x3000000000000200) fun s1 i => (s1.launchCode 0 i).isNone && (mfind s1.ctxs 0).isSome &&
       !(launchRec i.bs).gridbar && !(launchRec i.bs).trig) = true := by decide +kernel

/-- A block that is done and one that is not; a DONE counter that can be signalled. -/
theorem witness_retire :
    ([true, false].all fun r =>
      let s := demoW fun w => { w with retired := r }
      (mfind s.blocks 0).isSome && s.blockDone 0 == r && !(s.ctx 0).frozen && (mfind s.ctxs 0).isSome &&
        ((s.ctx 0).stage? (s.blk 0).lnum).isSome) = true ∧
    okAnd (demoV.recLocs 0 { write := true } 0x3000000000000008 8) (fun s1 ls =>
      let l := vaultLoc 0 8
      ls == span l 8 && l % 8 == 0 && (demoV.cores.all fun e => e.2.uLines.isEmpty) && !s1.offline (homeDie l) &&
        (s1.checkReads 0 (span l 8)).2.isEmpty && (span l 8).all fun i => !s1.discards i) = true ∧
    okAnd ((demoV.modDie 0 fun d => { d with st := .offline 0 }).recLocs 0 { write := true } 0x3000000000000008 8) (fun s1 ls =>
      ls == span (vaultLoc 0 8) 8 && s1.offline (homeDie (vaultLoc 0 8)) && !s1.lostLoc (vaultLoc 0 8)) = true := by decide +kernel

/-! ## Witnesses: the fabric -/

/-- `demo` with port 3. -/
def demoPort (p : Port18) : State := { demo with ports := [(3, p)] }

/-- Ports up with and without a seventh failure behind them, down and training, and down for good; a port of a die that is
off line; and a second link that goes down and leaves its die off line. -/
theorem witness_ports :
    ([({ up := true } : Port18), { up := true, flits := [(9, 6)] }, { up := true, flits := [(9, 7)] }, {}, { fails := 2 }, { down := true }].all
      fun p => (demoPort p).port 3 == p && (demoPort p).island.boot == .running && !(demoPort p).offline (portDie 3)) = true ∧
    (let s := (demoPort {}).modDie 0 fun d => { d with st := .offline 0 }
     (s.port 3).up = false ∧ s.offline (portDie 3) = true) ∧
    (let s : State := { demoPort { up := true } with links := [(0, true)] }
     [1, 2, 3].any (fun n => ({ s with links := [(0, true), (n, true)] } : State).offline (portDie 3)) = true ∧
      s.offline (portDie 3) = false) := by decide +kernel

/-- Packets held for a partner whose only port is down: before 10 ms and at 10 ms, for a load's lane and for a store. -/
theorem witness_held :
    (let s : State := { demo with ports := [(3, { partner := some 5, downAt := 7 }), (4, { up := true, partner := some 4 })] }
     let f : FarAcc := ⟨5, 0, 0x40, 9⟩
     s.pathHeld 5 = true ∧ max f.at_ (s.pathDownAt 5) + 10000000 = 10000009 ∧ s.pathHeld 4 = false ∧
      (s.warps.all fun e => decide (e.2.park = .none)) = true ∧
      ([(Pend.result 0 [{ reg := .v 2, lane := 0, val := 0, mark := none }] 0 false), .store 0 0 none none].all fun q =>
        decide (mfind ({ s with far := [(9, [f])], pend := [(9, q)] } : State).pend 9 = some q)) = true) := by decide +kernel

/-- Accesses of a host: the fabric down; a place in a vault that is ready, one whose home is off line, and a place that is not
granted. -/
theorem witness_host :
    demoV.fabricUp = false ∧ ({ demoV with ports := [(3, { up := true })] } : State).fabricUp = true ∧
    (demoV.island.boot = .running) ∧ (demoV.cores.all fun e => e.2.uLines.isEmpty) = true ∧
    ([false, true].all fun w => okAnd (demoV.recLocs 0 { write := w } 0x3000000000000040 8) fun s1 ls =>
      ls == span (vaultLoc 0 64) 8 && !s1.outsideWaits 5 ls w && (s1.cores.all fun e => e.2.uLines.isEmpty)) = true ∧
    (let s := demoV.modDie 0 fun d => { d with st := .offline 0 }
     okAnd (s.recLocs 0 { write := true } 0x3000000000000040 8) fun s1 ls => s1.outsideWaits 5 ls true) = true ∧
    (let s : State := { demoV with held := [{ id := 9, bytes := [(vaultLoc 0 64, 1)], wr := { ws := [0] }, addr := 0, passes := [], off := true }] }
     okAnd (s.recLocs 0 {} 0x3000000000000040 8) fun s1 ls => s1.outsideWaits 5 ls false) = true ∧
    fails (demoV.recLocs 0 { write := true } 0x3000010000000000 8) = true := by decide +kernel

/-- Accesses of another device, with tables bound and without. -/
theorem witness_remote :
    (let s : State := { demo with bound := [(7 * 65536, 0)], ports := [(3, { up := true, partner := some 7 })] }
     s.island.boot = .running ∧ s.fabricUp = true ∧ s.pathHeld 7 = false ∧ mfind s.bound (6 * 65536 + 0) = none ∧
      ([false, true].all fun w =>
        let x := s.remoteLocs 7 0 w 0x40000 8
        x.2 == some (span 0x40000 8) && !x.1.outsideWaits (remoteParty 7 0 3) (span 0x40000 8) w &&
          ((x.1.peekHome 0 (span 0x40000 8)).2.poison (span 0x40000 8)).isNone && (x.1.cores.all fun e => e.2.uLines.isEmpty)) = true) := by
  decide +kernel

/-! ## Witnesses: the upkeep of memory -/

/-- `demo` with a channel. -/
def demoChan (c : Chan) : State := { demo with chans := [(0, c)] }

/-- Words stored to INJ and MARCH that are taken and that are not, for each reason. -/
theorem witness_frame :
    ((0xA100000000000000 : Word).extractLsb' 0 36 = 0 ∧ (0xA100000000000001 : Word).extractLsb' 0 36 ≠ 0) ∧
    (let x : Word := 0xA100000000000000
     x.getLsbD 63 = true ∧ x &&& 0x40FFFFFFFFFFFFFF = 0 ∧ ((List.range 32).all fun k => !(demo.chan k).march.getLsbD 63) = true ∧
      (demo.chan 0).spare = [] ∧ (demo.chan 0).fence.getLsbD 33 = false ∧
      ((demoChan { march := 0x8000000000000000 }).chan 0).march.getLsbD 63 = true ∧ (1, 3, 5).1 = (x.extractLsb' 61 1).toNat ∧
      ((demoChan { fence := 0x200000000 }).chan 0).fence.getLsbD (32 * (x.extractLsb' 61 1).toNat + (x.extractLsb' 56 5).toNat) = true) := by
  decide +kernel

/-- A march that runs, with two failing rows; a fenced bank before its first row, in the middle and at the end; and a second
fenced bank of its pseudo-channel. -/
theorem witness_repair :
    ((demoChan { march := 0xA100000000000000 }).chan 0).march.getLsbD 63 = true ∧ (demo.chan 0).march.getLsbD 63 = false ∧
    ([5, 32767].all fun r => r < 32768) = true ∧ ([5, 32767] : List Nat).Nodup ∧
    ([32767, 32768].all fun n => let c : Chan := { fence := 2, spare := [(0, 1, n)] }
      ((demoChan c).chan 0).spare == [(0, 1, n)] && ((demoChan c).chan 0).fencedBanks 0 == [1] && ((demoChan c).chan 0).lostSpare.isEmpty) =
      true ∧
    (let c : Chan := { fence := 2 }
     ((demoChan c).chan 0).spare = [] ∧ ((demoChan c).chan 0).fencedBanks 0 = [1] ∧ ((demoChan c).chan 0).lostSpare = []) ∧
    (let c : Chan := { fence := 6, spare := [(0, 1, 5)] }
     (((demoChan c).chan 0).spare.find? fun e => e.1 == 0) = some (0, 1, 5) ∧ ((demoChan c).chan 0).fencedBanks 0 = [1, 2]) := by
  decide +kernel

/-- A `CWAIT` whose page a `TLBI` has unmapped, 1 ms later and one nanosecond before. -/
theorem witness_pin : ([(1000000 : Nat), 999999].all fun n =>
      let a : Args := { ctrForm with kd := .s, d := 6 }
      let g := demo.alone
      let s : State := { (demo.modCtx 0 fun c => { c with crec := { c.crec with droot := 0x100000 } }).modWarp 0 fun w =>
        { w with unmapAt := some 0, park := .cwait none g a 0x40000 0 (.home 0x40000) } with timer := n }
      let p : Word := 0x40000
      decide ((s.warp 0).park = .cwait none g a p 0 (.home 0x40000)) && (s.warp 0).unmapAt == some 0 &&
        (s.leafAt (p.extractLsb' 0 48).toNat 3 (s.ctxOf 0).crec.droot).isNone && decide (g.ws.Nodup) &&
        (g.ws.all fun v => (mfind (s.readCtr g p (.home 0x40000)).1.warps v).isSome) && (mfind s.ctxs (s.warp 0).ctx).isSome) = true := by
  decide +kernel

/-- A page of a frozen context that can move to the next free frame, and one with a region. -/
theorem witness_migrate : ([([] : List Region), [someRegion somePass]].all fun gs =>
      let s : State := { demo.modCtx 0 fun c => { c with frozen := true } with regions := gs }
      s.fwRuns && (s.ctx 0).frozen && !(s.ctx 0).dead && spaceOf 0x40000 != 3 &&
      match s.leafAt 0x40000 3 (s.ctx 0).crec.droot with
      | none => false
      | some (leaf, e, lvl) =>
        let size := pageSize lvl
        let frame := 2 ^ 37
        leaf == 0x3000 && frame % size == 0 && decide (frame < 2 ^ 39) &&
          !leafLayoutBad s.island.fw lvl ((e &&& ~~~(BitVec.ofNat 64 ((2 ^ 38 - 1) * 2 ^ 10))) ||| BitVec.ofNat 64 frame) &&
          s.pageBusy 0 (0x40000 / size * size) size (entryFrame e) == !gs.isEmpty && (s.pinned (entryFrame e) size).isEmpty && s.mem.wf &&
          s.mem.tables.isEmpty && (s.cores.all fun e => e.2.uLines.isEmpty) &&
          (List.range 8).all fun i => leaf + i < frame && !s.discards (leaf + i)) = true := by decide +kernel

/-- A vault pointer that cannot move. -/
theorem witness_migrate_vault : demo.fwRuns = true ∧ spaceOf 0x3000000000000000 = 3 := by decide +kernel

/-! ## Witnesses: the standby island -/

/-- The island running with an asymmetric algorithm selected and without, in recovery and cold. -/
theorem witness_spdm :
    (demo.island.boot = .running ∧ demo.fabricUp = false ∧ (demo.island.spdm .girt).slh ≠ some true) ∧
    ({ demo with ports := [(3, { up := true })] } : State).fabricUp = true ∧
    (let s : State := { demo with island := { demo.island with girt := { demo.island.girt with slh := some true } } }
     s.island.boot = .running ∧ (s.island.spdm .girt).slh = some true) ∧
    ({ State.reset with island := { State.reset.island with boot := .recovery } } : State).island.boot = .recovery ∧
    State.reset.island.boot = .cold ∧ demo.fwRuns = true ∧ State.reset.fwRuns = false := by decide +kernel

/-- A boot that may start, with an image that fails its checks. Whether a given image passes depends on the fused key and the
signature scheme, which are free values: `imgOk` is a premise of the statement for an image that passes. -/
theorem witness_boot : State.reset.island.boot = .cold ∧ imgOk State.reset.island.flash = false ∧ demo.island.boot ≠ .cold ∧
    demo.mayManage .sill = true ∧ demo.mayManage (.girt 7) = false ∧
    State.reset.mayManage .sill = true := by decide +kernel

/-- Warm resets of an online die, of one that is resetting, and behind another; each stage of a reset; deaths of a die. -/
theorem witness_resets :
    ((demo.die 1).st = .online ∧ demo.island.resets = [] ∧ ((List.range 4).all fun k => !(demo.die k).st.resetting) = true) ∧
    ([DieSt.saving, .offline 5, .drained 5, .retrained 5].all fun st =>
      ((demo.modDie 1 fun d => { d with st }).die 1).st == st && ((demo.modDie 1 fun d => { d with st }).die 1).kept.isEmpty) = true ∧
    (let s := demo.modDie 1 fun d => { d with st := .saving }
     (s.ctxsOn 1) = []) ∧
    (let s := demo.modDie 0 fun d => { d with st := .saving }
     ((s.ctxsOn 0).filter fun c => !(s.ctx c).saved) = [0] ∧ s.enginesIdle 0 = true ∧ (s.warpsOf 0).any (s.hasHeld · true) = false ∧
      (s.ctx 0).frozen = false ∧ s.warpsStopped 0 = false) ∧
    (let s := (demo.modDie 0 fun d => { d with st := .saving }).modCtx 0 fun c => { c with frozen := true }
     ((s.ctxsOn 0).filter fun c => !(s.ctx c).saved) = [0] ∧ s.enginesIdle 0 = true ∧ (s.warpsOf 0).any (s.hasHeld · true) = false ∧
      (s.ctx 0).frozen = true) ∧
    demo.held.isEmpty = true ∧ msorted demo.warps = true ∧ (demo.cores.all fun e => e.2.uLines.isEmpty) = true := by decide +kernel

/-- A retrained die whose context has a copied row that it still owes; a lost die with a write held for it; a die with both
links down. -/
theorem witness_readmit :
    (let s := (demo.modDie 0 fun d => { d with st := .retrained 5 }).modCtx 0 fun c => { c with
        jrn := { owed := [(0x20000, (List.replicate 1024 7, []))] } }
     (s.die 0).st = .retrained 5 ∧ (s.die 0).kept = [] ∧ s.dones = [] ∧ s.mem.tables = [] ∧ s.ctxs = [(0, s.ctx 0)] ∧ isDram 0x20000 = true ∧ homeDie 0x20000 = 0 ∧
      s.fenced (physRM 0x20000) = false ∧ ((span 0x20000 1024).all fun l => !s.discards l) = true) ∧
    (let h : Held := { id := 9, bytes := [(0x20000, 1)], wr := { ws := [0] }, addr := 0, passes := [], off := true }
     let s : State := { (demo.modCtx 0 fun c => { c with crec := { c.crec with cores := [] } }).modDie 0 fun d =>
        { d with st := .drained 5, fails := 2 } with held := [h], timer := 100000005 }
     (s.die 0).st = .drained 5 ∧ 3 ≤ (s.die 0).fails + 1 ∧ 5 + 100000000 ≤ s.timer ∧ s.regions = [] ∧ s.ctxsOn 0 = [] ∧
      (s.ctxs.all fun e => e.2.jrn.rows.isEmpty && !e.2.jrn.isOpen) = true ∧ (h.bytes.any fun b => homeDie b.1 == 0) = true ∧
      h.wr.ws.head? = some 0 ∧ (mfind s.warps 0).isSome = true ∧ (s.warp 0).late = none ∧ s.island.resets = [] ∧
      msorted s.warps = true) ∧
    (let s : State := { demo with links := [(0, true), (2, true)] }
     (s.die 0).st = .online ∧ mget false s.links (0 / 2) = true ∧ mget false s.links (2 + 0 % 2) = true) := by decide +kernel

/-- A halted core with nothing in flight, one that runs, a device dump, and a context with a dump. -/
theorem witness_commands :
    (let s := demo.modCore 3 fun c => { c with halted := true }
     s.haltDone 3 = true ∧ demo.haltDone 3 = false) ∧
    (let s : State := { demo.modCtx 0 fun c => { c with dumpHead := [1] } with island := { demo.island with dump := some [2] } }
     s.fwRuns = true ∧ s.island.dump = some [2] ∧ (s.ctx 0).dumpHead ≠ []) := by decide +kernel

/-- Records that firmware accepts, that ask for PRIV and that meet a grant; a core that leaves a context empty and in use; a
context that can be destroyed and one with a write in flight. -/
theorem witness_tenants :
    (let x : CtxRec := { ctx := 1, cores := [7] }
     demo.recordOk x = true ∧ mfind demo.ctxs 1 = none ∧ ({ x with priv := true } : CtxRec).priv = true ∧
      (demo.ctxs.any fun e => e.1 != 1 && grantsMeet { x with cores := [0] } e.2.crec) = true) ∧
    (let s := demo2 fun c => { c with crec := { ctx := 1, cores := [7] } }
     let y : CtxRec := { ctx := 1, cores := [8] }
     s.fwRuns = true ∧ (mfind s.ctxs 1).isSome = true ∧ s.recordOk y = true ∧ s.holdsCore 1 7 = false ∧
      ({ s with blocks := mins s.blocks 9 { ctx := 1, core := 7 } } : State).holdsCore 1 7 = true ∧
      s.enginesIdle 1 = true ∧ (s.warpsOf 1).any (s.hasHeld · true) = false ∧
      (let h : Held := { id := 9, bytes := [], wr := { ws := [99] }, addr := 0, passes := [], off := true }
       let u : State := { s with warps := mins s.warps 99 { ctx := 1 }, held := [h] }
       (u.warpsOf 1).any (u.hasHeld · true) = true ∧ takesAway (s.ctx 1).crec y = true ∧ u.quiet 1 = false ∧ s.quiet 1 = true)) := by
  decide +kernel

/-- A record's place in firmware's memory, and a place for bytes that a pointer names. -/
theorem witness_record :
    demo.mem.tables = [] ∧ (demo.cores.all fun e => e.2.uLines.isEmpty) = true ∧
    ((span (demo.recordAt 1) 256).all fun l => !demo.discards l) = true ∧
    okAnd (demo.recLocs 0 { write := true } 0x40000 16) (fun s1 ls => ls == span 0x40000 16 && s1.mem.tables.isEmpty &&
      (s1.cores.all fun e => e.2.uLines.isEmpty) && ls.all fun l => !s1.discards l) = true := by decide +kernel

/-- R168, R366: a wrong bit of a register word is corrected and counted; with more of them the register reads as poison. -/
theorem test_word_error :
    (let t := (demo.upset (.word 0 8193) false).checkWord 0 8193
     (t.warp 0).smark 1 = none ∧ (t.warp 0).sget 1 = (demo.warp 0).sget 1 ∧ mget 0 (t.die 0).ecc.byCore 0 = 1) ∧
    (let t := (demo.upset (.word 0 8193) true).checkWord 0 8193
     ((t.warp 0).smark 1).isSome = true ∧ (t.warp 0).sget 1 = 0x7FC00D0D ∧
       (t.die 0).ecc.reports = [.uncorrectable 8193]) := by decide +kernel

/-! ## Witnesses: the machine as a whole -/

/-- An instruction that the round trip is about, and words that decode to one. -/
theorem witness_roundtrip :
    (Instr.add { d := 1, a := 2, b := 3 }).wf = true ∧ (Instr.add { d := 1, a := 2, b := 3 }).op?.isSome = true ∧
    ([] : List IWord).length + 1 = lengthOf 0x03081200 ∧ decodeWords [0x03081200] = .ok (.add { d := 1, a := 2, b := 3 }) := by decide +kernel

/-- No row's remap entry is lost, and no die has array work at a boundary. -/
theorem witness_calm : Claims.RowsKnown demo ∧ ∀ d < 4, demo.slewWork d = false := ⟨fun _ => rfl, by decide +kernel⟩

/-- What a step takes up: the head of the agenda; an event; the passing of time; a warp that may not go on. -/
theorem witness_step :
    (demo.agenda = [.issue 0]) ∧
    (({ demo with agenda := [.event (.bandAdmit 0)] } : State).takeAct.1 = .event (.bandAdmit 0)) ∧
    (({ demo with agenda := [.elapse 4 3] } : State).takeAct.1 = .elapse 4 3) ∧
    (({ demo with agenda := [.upset (.word 0 8193) true] } : State).takeAct.1 = .upset (.word 0 8193) true) ∧
    (let s := demoW fun w => { w with retired := true }
     s.takeAct.1 = .issue 0 ∧ s.takeAct.2.takesUp 0 = false) ∧
    (let s : State := { demo with agenda := [.also 0] }
     s.takeAct.1 = .also 0 ∧ s.takeAct.2.takesUp 0 = true ∧ s.takeAct.2.joint = none) := by decide +kernel

/-- `demo` before the word of an `ADD`, to be taken up in the clock of an instruction that warp `cur` has issued on partition
`part`, with the clocks at which its results are due and its ports are free. -/
def demoAlso (cur part : Nat) (due : SMap Nat) : State :=
  { State.reset.placeWords [0x03081200] with agenda := [.also 0], cur, joint := some { core := 0, part } }.modWarp 0 fun w =>
    { w with due }

/-- An instruction taken up in the clock of another: of the same warp, with its operands and its port ready, and with an
operand that a fixed latency still keeps; of another warp of its partition; and in a later partition. -/
theorem witness_also :
    ([((0 : Nat), (0 : Nat), ([] : SMap Nat), true), (0, 0, [(2, 3)], false), (7, 0, [], true), (7, 1, [], true)].all
      fun e =>
        let s := (demoAlso e.1 e.2.1 e.2.2.1).takeAct.2
        s.takesUp 0 && s.readyNow 0 == e.2.2.2 &&
          decide (8 * 0 + e.2.1 = 8 * s.coreOf 0 + (s.warp 0).part ∧ 0 = s.cur) == (e.1 == 0)) = true ∧
    (let s := ((demoAlso 7 0 []).modWarp 0 fun w => { w with slot := 16 }).modCore 0 fun c => { c with
       parts := [(2, { run := some 0 })] }
     s.takeAct.2.takesUp 0 = true ∧ s.takeAct.2.readyNow 0 = true ∧
       8 * 0 + 0 < 8 * s.takeAct.2.coreOf 0 + (s.takeAct.2.warp 0).part) := by decide +kernel

/-- Instructions of which a step waits: one ready, one ready in 2 clocks, and one in 3. -/
theorem witness_wait_of : ([((0 : Nat), (0 : Nat)), (2, 2), (3, 3)].all fun e =>
    (demoAlso 0 0 [(2, e.1)]).waitOf 0 (.add { d := 1, a := 2, b := 3 }) == e.2) = true := by decide +kernel

/-- R55's example: of the writes 7 and then 5 to q2 in clock 100, a read in clock 100 gives the value before, one in clock
101 gives 5. -/
theorem test_q_same_clock :
    (let b := ((({} : Block).qset 2 9).qput 100 [3] 2 7).qput 100 [4] 2 5
     b.qread 100 5 2 = 9 ∧ b.qread 101 5 2 = 5 ∧ b.qread 100 5 3 = 0) := by decide +kernel

/-- What a step fetches, computed: the first word, the words behind it, and whether they decode. -/
def fetchOk (s : State) (w0 : IWord) (n : Nat) (ok : Bool) : Bool :=
  let s1 := s.takeAct.2
  s.takeAct.1 == .issue 0 && s1.takesUp 0 && okAnd (s1.fetchWord 0 (s1.warp 0).pc) fun s2 x => x == w0 &&
    lengthOf w0 == n &&
    (let x := s2.fetchWords 0 ((s1.warp 0).pc + 4) (n - 1)
     x.2.2.isNone && match decodeWords (w0 :: x.2.1) with
      | .ok _ => ok
      | .error _ => !ok)

/-- Words that decode, of one word and of three, and words that do not. -/
theorem witness_fetch :
    fetchOk (State.reset.placeWords [0x03081200]) 0x03081200 1 true = true ∧
    fetchOk (State.reset.placeWords [0x0000FCAA, 0x00000100, 0x00100000]) 0x0000FCAA 3 true = true ∧
    fetchOk (State.reset.placeWords [0x00000A00]) 0x00000A00 1 false = true := by decide +kernel

/-- An `EXIT` with an undefined bit: words that do not decode, at a warp with a late trap that is due there and at one
without; and an instruction whose second word lies on a page that is not mapped. -/
theorem witness_refused :
    (let ws : List IWord := [0x001001A0]
     let s := (State.reset.placeWords ws).modWarp 0 fun w => { w with late := some ⟨0x14, 0x91, 0, .store⟩ }
     fetchOk s 0x001001A0 1 false = true ∧
      ((namedBy ws).all fun e => lateDue e.1 e.2 (s.warp 0)) = true ∧ (namedBy ws).isSome = true ∧
      ((namedBy ws).all fun e => !lateDue e.1 e.2 (demo.warp 0)) = true) ∧
    (let s := (poke demo 0x1FFFFC (bytesOfWord 0x0000FCAA)).modWarp 0 fun w => { w with pc := 0x1FFFFC }
     s.takeAct.1 = .issue 0 ∧ s.takeAct.2.takesUp 0 = true ∧
      okAnd (s.takeAct.2.fetchWord 0 0x1FFFFC) (fun s2 w0 => lengthOf w0 == 3 && (s2.fetchWords 0 0x200000 2).2.2.isSome) = true) := by
  decide +kernel

/-- A fetch at a place that is not mapped, and the bytes of a word. -/
theorem witness_fetchByte :
    (let s := demoW fun w => { w with pc := 0x40000000000 }
     s.takeAct.1 = .issue 0 ∧ s.takeAct.2.takesUp 0 = true ∧ fails (s.takeAct.2.fetchWord 0 0x40000000000) = true) ∧
    okAnd (demo.fetchByte 0 0x10000 0x10000) (fun s1 _ => okAnd (s1.fetchByte 0 0x10000 0x10001) fun s2 _ =>
      okAnd (s2.fetchByte 0 0x10000 0x10002) fun s3 _ => okAnd (s3.fetchByte 0 0x10000 0x10003) fun _ _ => true) = true := by
  decide +kernel

/-- A word placed where the next step fetches is the instruction that the step runs: an `ADD` of v2 and v3 into v1. -/
theorem test_step_runs :
    (match step (State.reset.withFetchWord 32 0x03081200) with
     | .next t => (t.warp 0).pc == 0x10004
     | _ => false) = true := by decide +kernel

/-- Memory at reset is in its canonical form, with MR_4 to MR_7 zero. -/
theorem witness_steady : Claims.Steady State.reset := ⟨by decide, fun n _ _ => rfl⟩

/-! ## Witnesses: a load of a saved context -/

/-- A context image of 4,096 B that is its header alone: the magic and version, the size, the digest of its empty body, the
context number and the device's architecture step, whose value is free; every other byte is zero. -/
def imgHead : List (Nat × Byte) :=
  [(0, (0x43 : Byte)), (1, 0x58), (2, 1), (9, 0x10)] ++ ((span 16 32).zip (digestBytes (sha256 []))) ++
    [(48, 1), (50, Config.archStep.setWidth 8), (51, (Config.archStep >>> 8).setWidth 8)]

/-- `demoV` with a frozen context 1 that is saved, its image at 0 of vault 0 alone in memory. -/
def demoL : State :=
  { demoV.modWarp 0 fun w => (w.sset 0 1).sset 1 0x3000000000000000 with
    mem := { bytes := imgHead.map fun e => (vaultLoc 0 0 + e.1, e.2) }
    ctxs := mins demoV.ctxs 1 { frozen := true, saved := true } }

/-- A device whose one warp x may read the first MiB of vault 0, where nothing is on its way and nothing has been written. -/
structure Quiet (s : State) (x : Warp) : Prop where
  lines  : s.cores.all (fun e => e.2.uLines.isEmpty) = true
  l1     : (s.core (s.coreOf 0)).l1Err = []
  pend   : s.pend = []
  online : s.offline 0 = false
  mem    : s.mem.cols = [] ∧ s.mem.newest = [] ∧ s.mem.older = [] ∧ s.mem.wrels = [] ∧ s.mem.passed = [] ∧ s.mem.sweeps = [] ∧ s.mem.bank = []
  warp   : s.warps = [(0, x)] ∧ x.floors = [] ∧ x.seen = [] ∧ x.rmtFl = []
  grant  : (s.ctx x.ctx).crec.vgrant = [(0, 0, 16)]

/-- What reads there change: the free values used, and the count of the bytes that moved. -/
def Alike (s r : State) : Prop := r = { s with free := r.free, mem := { s.mem with moved := r.mem.moved } }

theorem Quiet.alike {s r : State} {x : Warp} (h : Quiet s x) (e : Alike s r) : Quiet r x := by
  rw [Alike] at e
  rw [e]
  exact ⟨h.lines, h.l1, h.pend, h.online, h.mem, h.warp, h.grant⟩

/-- A byte of vault 0 read at its home: the byte of memory. -/
theorem quiet_home {s : State} {x : Warp} (h : Quiet s x) (l n : Nat) (hl : 2 ^ 40 ≤ l ∧ l < 2 ^ 40 + 2 ^ 26) :
    s.readHome 0 n [] [l] = ({ s with free := s.free + 2 }, { rs := [(l, 0, s.mem.byte l)], bad := [] }) := by
  obtain ⟨hu, -, -, ho, ⟨hc, hn, hv, -, -, hsw, -⟩, -, -⟩ := h
  have hd : isDram l = false := by simp [isDram]; omega
  have hk : (unitOf l).1 = l / 64 * 64 := by
    have : l < 2 ^ 50 := by omega
    rw [unitOf, hd, if_neg Bool.false_ne_true, if_pos this]
  have hh : homeDie l = 0 ∧ homeDie (l / 64 * 64) = 0 := by
    constructor <;> simp only [homeDie] <;> split <;> (try split) <;> omega
  have hd2 : isDram (l / 64 * 64) = false := by simp [isDram]; omega
  have hcs : ∀ k, s.colSt k = .clean := fun k => by simp [State.colSt, hc, mget]
  simp [State.readHome, State.recall, hu, unitsOf, hk, hh, ho, State.checkReads, State.checkRead, hd2, hcs, Mem.readLocs,
    Mem.versions, Mem.pos, hn, hv, hsw, mget, atCut]

/-- A byte of vault 0 read at once by the warp. -/
theorem quiet_read {s : State} {x : Warp} (h : Quiet s x) (l : Nat) (hl : 2 ^ 40 ≤ l ∧ l < 2 ^ 40 + 2 ^ 26) :
    ∃ r, s.readNow 0 0 [l] = (r, { rs := [(l, 0, s.mem.byte l)], bad := [] }) ∧ Alike s r := by
  have hd : isDram l = false := by simp [isDram]; omega
  have hx : s.warp 0 = x := by simp [State.warp, h.warp.1, mget]
  have hrec : s.recall [l] = s := by rw [State.recall, if_pos h.lines]
  have hfl : s.flushOwn 0 s.nextId [l] = s := by rw [State.flushOwn, h.pend, List.isEmpty_nil, if_pos rfl]
  have hl1 : ∀ (t : State) k p, t.cacheL1 k [l] p = t := fun t k p => by simp [State.cacheL1, dramLines, hd]
  let s0 := s.carry 0 false (s.beyondL1 (s.coreOf 0) [l])
  have h0 : Quiet s0 x := h.alike rfl
  have hck : s0.checkL1s (s.coreOf 0) [l] = (s0, []) := by
    rw [State.checkL1s, if_pos (by rw [show (s0.core (s.coreOf 0)).l1Err = [] from h0.l1]; rfl)]
  have hx0 : s0.warp 0 = x := hx
  have hbf : s0.bankFloors (some (s0.coreOf 0)) (s0.warp 0).fl [l] = [] := by
    rw [State.bankFloors, h0.mem.2.2.2.2.2.2, List.isEmpty_nil, if_pos rfl, hx0, Warp.fl, h.warp.2.2.2, List.isEmpty_nil,
      if_pos rfl, h.warp.2.1]
  have hx2 : ({ x with floors := [], seen := [] } : Warp) = x := by
    have h1 := h.warp.2.1
    have h2 := h.warp.2.2.1
    cases x
    cases h1
    cases h2
    rfl
  have hhr : ({ s0 with free := s0.free + 2 } : State).hasRead [0] { rs := [(l, 0, s0.mem.byte l)], bad := [] } =
      { s0 with free := s0.free + 2 } := by
    have hw : s0.warps = [(0, x)] := h0.warp.1
    have hr : s0.mem.wrels = [] ∧ s0.mem.passed = [] := ⟨h0.mem.2.2.2.1, h0.mem.2.2.2.2.1⟩
    simp [State.hasRead, Mem.relsOf, Mem.carried, hr, mget, State.modWarps, State.modWarp, mmod, mfind, hw, mins, raiseTo, h.warp.2.1,
      h.warp.2.2.1, mset, mdel]
    exact hx2
  refine ⟨{ s0 with free := s0.free + 2 }, ?_, rfl⟩
  rw [State.readNow, hfl, State.warpRead, hrec]
  simp only [show s.carry 0 false (s.beyondL1 (s.coreOf 0) [l]) = s0 from rfl, hck, hbf, quiet_home h0 l _ hl, hhr, hl1]
  rfl

/-- The places of the first MiB of vault 0 for a warp whose context is granted them. -/
theorem vault_place {s : State} (w : How) (h : (s.ctx (s.warp 0).ctx).crec.vgrant = [(0, 0, 16)]) (o : Nat) (ho : o < 2 ^ 20) :
    s.place 0 w (0x3000000000000000 + BitVec.ofNat 64 o) = (s, .ok (.mem (vaultLoc 0 o))) := by
  have hv : (0x3000000000000000 + BitVec.ofNat 64 o : Word).toNat = 0x3000000000000000 + o := by
    rw [BitVec.toNat_add, BitVec.toNat_ofNat]
    simp; omega
  have h1 : spaceOf (0x3000000000000000 + BitVec.ofNat 64 o) = 3 := by
    rw [spaceOf, BitVec.extractLsb'_toNat, hv]; simp [Nat.shiftRight_eq_div_pow]; omega
  have h2 : (0x3000000000000000 + BitVec.ofNat 64 o : Word).extractLsb' 48 12 = 0 := by
    apply BitVec.eq_of_toNat_eq
    rw [BitVec.extractLsb'_toNat, hv]; simp [Nat.shiftRight_eq_div_pow]; omega
  have h3 : ((0x3000000000000000 + BitVec.ofNat 64 o : Word).extractLsb' 0 48).toNat = o := by
    rw [BitVec.extractLsb'_toNat, hv]; simp; omega
  have hg : vaultGranted (s.ctx (s.warp 0).ctx).crec 0 o = true := by
    simp [vaultGranted, h]; omega
  have h4 : o / 2 ^ 40 = 0 ∧ o % 2 ^ 40 = o ∧ ¬(0x3000000 ≤ o) := by omega
  simp only [State.place, h1, h2, h3, h4, hg]
  simp

/-- Bytes of vault 0 read one by one. -/
theorem quiet_area {x : Warp} (n : Nat) : ∀ (s : State) (o : Nat), Quiet s x → o + n ≤ 4096 →
    ∃ r, s.readArea 0 0x3000000000000000 o n = (r, some ((List.range' o n).map fun i => s.mem.byte (vaultLoc 0 i))) ∧
      Alike s r := by
  induction n with
  | zero => intro s o _ _; exact ⟨s, rfl, rfl⟩
  | succ n ih =>
    intro s o h ho
    have hx : s.warp 0 = x := by simp [State.warp, h.warp.1, mget]
    have hpl := vault_place (s := s) {} (hx ▸ h.grant) o (by omega)
    obtain ⟨r, hq, hr⟩ := quiet_read h (vaultLoc 0 o) (by simp only [vaultLoc]; omega)
    obtain ⟨t, ht, htr⟩ := ih r (o + 1) (h.alike hr) (by omega)
    have hb : ∀ l, r.mem.byte l = s.mem.byte l := fun l => by rw [Alike] at hr; rw [hr]; rfl
    refine ⟨t, ?_, ?_⟩
    · simp only [State.readArea, hpl, hq, ht, hb, Rd.poison, List.find?_nil, Option.map_none, Option.isSome_none,
        Bool.false_eq_true, if_false, List.range'_succ, List.map_cons, Rd.byte, List.find?_cons, beq_self_eq_true]
    · rw [Alike] at hr htr ⊢
      rw [htr, hr]

/-- The form of `CTX.LOAD` below, and the state in which its effect begins. -/
def loadForm : Args := { sForm with b := 1 }

/-- The state in which its effect begins. -/
def demoL0 : State := op0 demoL .ctxLoad loadForm

theorem quiet_demoL0 : Quiet demoL0 (demoL0.warp 0) where
  lines := by decide +kernel
  l1 := by decide +kernel
  pend := by decide +kernel
  online := by decide +kernel
  mem := by decide +kernel
  warp := by decide +kernel
  grant := by decide +kernel

/-- The header that the load reads. -/
def loadHead : List Byte := (List.range' 0 4096).map fun i => demoL0.mem.byte (vaultLoc 0 i)

theorem two_bytes (x : BitVec 16) : natOfBytes [x.setWidth 8, (x >>> 8).setWidth 8] = x.toNat := by
  simp [natOfBytes, Nat.shiftRight_eq_div_pow]
  omega

theorem loadHead_ok : headerOk loadHead 1 = true := by
  have h1 : (hdrNat loadHead 0 2 == 0x5843 && hdrNat loadHead 2 2 == 1 && hdrNat loadHead 48 2 == 1 &&
      hdrNat loadHead 52 1 == 0 && 4096 ≤ hdrNat loadHead 8 8) = true := by decide +kernel
  have h2 : (loadHead.drop 50).take 2 = [Config.archStep.setWidth 8, (Config.archStep >>> 8).setWidth 8] := rfl
  have h3 : hdrNat loadHead 50 2 = Config.archStep.toNat := by
    rw [hdrNat, h2, two_bytes]
  simp only [Bool.and_eq_true, beq_iff_eq, decide_eq_true_eq] at h1
  simp only [headerOk, h3, h1.1.1.1.1, h1.1.1.1.2, h1.1.1.2, h1.1.2, decide_eq_true h1.2, beq_self_eq_true, Bool.and_self]

/-- An image without sections holds no warp and no block. -/
theorem empty_image {r : State} (h : r.saves = []) : r.imageOf 1 0 [] = some (foreignSave 1 r.nextId [] []) := by
  unfold State.imageOf
  rw [h]
  rfl

/-- `CTX.LOAD` of a context whose image is found. -/
theorem witness_ctxLoad :
    plainOk demoL .ctxLoad loadForm demoL.alone = true ∧ (demoL0.sval demoL.alone (srcA loadForm)).toNat = 1 ∧
    demoL0.sval demoL.alone (srcB loadForm 0) = 0x3000000000000000 ∧ 1 ≠ (demoL0.warp demoL.cur).ctx ∧
    (mfind demoL0.ctxs 1).isSome = true ∧ demoL0.isResident 1 = false ∧
    (∃ s1 s2 v, demoL0.readArea demoL.cur 0x3000000000000000 0 4096 = (s1, some loadHead) ∧ headerOk loadHead 1 = true ∧
      coresGranted loadHead (demoL0.ctx 1).crec.cores = true ∧
      s1.readArea demoL.cur 0x3000000000000000 4096 (hdrNat loadHead 8 8 - 4096) = (s2, some []) ∧
      digestBytes (sha256 []) = (loadHead.drop 16).take 32 ∧ s2.imageOf 1 (hdrNat loadHead 4 4) [] = some v ∧ (mfind (s2.restore v).warps demoL.cur).isSome) := by
  have hs : hdrNat loadHead 8 8 - 4096 = 0 := by decide +kernel
  refine ⟨by decide +kernel, by decide +kernel, by decide +kernel, by decide +kernel, by decide +kernel, by decide +kernel, ?_⟩
  obtain ⟨r, hr, hr1⟩ := quiet_area 4096 demoL0 0 quiet_demoL0 (by omega)
  rw [Alike] at hr1
  have hsv : r.saves = [] := by rw [hr1]; rfl
  have hc : (mfind demoL0.warps demoL.cur).isSome = true ∧ hdrNat loadHead 4 4 = 0 := by decide +kernel
  have hw : (mfind r.warps demoL.cur).isSome = true := by
    rw [hr1]
    exact hc.1
  exact ⟨r, r, foreignSave 1 r.nextId [] [], hr, loadHead_ok, by decide +kernel, by rw [hs]; rfl, by decide +kernel, by rw [hc.2]; exact empty_image hsv,
    hw⟩

/-! ## Witnesses: a save of a frozen context -/

/-- `demoV` with a frozen context 1 without warps, to be saved to 0 of vault 0. -/
def demoS : State :=
  { demoV.modWarp 0 fun w => (w.sset 0 1).sset 1 0x3000000000000000 with ctxs := mins demoV.ctxs 1 { frozen := true } }

/-- The state in which the save begins. -/
def demoS0 : State := op0 demoS .ctxSave loadForm

/-- The state in which its image is written: the releases are made and what is stored is checked. -/
def demoS1 : State := ((demoS0.releaseAll 1).checkStored 1).fresh.2

/-- A state that differs from that one only by what stores change. -/
abbrev FromS (s : State) : Prop := State.Traffic (fun _ => True) demoS1 s

theorem traffic_ctx {P : Nat → Prop} {s r : State} (h : State.Traffic P s r) : r.ctxs = s.ctxs ∧ ∀ w, (r.warp w).ctx = (s.warp w).ctx :=
  ⟨by rw [h.rest], fun w => by rw [h.warp w]⟩

theorem fromS_grant {s : State} (h : FromS s) : (s.ctx (s.warp 0).ctx).crec.vgrant = [(0, 0, 16)] := by
  have h1 := traffic_ctx h
  have h2 : (demoS1.ctx (demoS1.warp 0).ctx).crec.vgrant = [(0, 0, 16)] := by decide +kernel
  rw [h1.2 0, State.ctx, h1.1]
  exact h2

/-- Bytes written to the first MiB of vault 0. -/
theorem fromS_area (n : Nat) : ∀ (s : State) (o : Nat) (bs : List Byte), FromS s → o + bs.length ≤ 2 ^ 20 →
    ∃ t m, s.writeArea 0 [0] 0x3000000000000000 n o bs = (t, m, none) ∧ FromS t := by
  induction n with
  | zero => exact fun s _ _ h _ => ⟨s, 0, rfl, h⟩
  | succ n ih =>
    intro s o bs h ho
    by_cases hb : bs = []
    · exact ⟨s, 0, by simp [State.writeArea, hb], h⟩
    · have hl : 0 < bs.length := List.length_pos_iff.mpr hb
      have h1 := h.trans (State.traffic_store s [0] 0 (0x3000000000000000 + BitVec.ofNat 64 o)
        ((span (vaultLoc 0 o) (bs.take (256 - o % 256)).length).zip (bs.take (256 - o % 256))) (fun _ _ => trivial) fun _ _ => trivial)
      obtain ⟨t, m, ht, hf⟩ := ih _ (o + (256 - o % 256)) (bs.drop (256 - o % 256)) h1 (by rw [List.length_drop]; omega)
      refine ⟨t, m + 1, ?_, hf⟩
      simp only [State.writeArea, List.isEmpty_eq_false_iff.mpr hb, vault_place _ (fromS_grant h) o (by omega), ht,
        Bool.false_eq_true, if_false]

theorem fromS_at (s : State) (o : Nat) (bs : List Byte) (h : FromS s) (ho : o + bs.length ≤ 2 ^ 20) :
    ∃ t, s.writeAt 0 [0] 0x3000000000000000 o bs = (t, none) ∧ FromS t := by
  obtain ⟨t, m, ht, hf⟩ := fromS_area (bs.length / 256 + 2) s o bs h ho
  exact ⟨t, by rw [State.writeAt, ht], hf⟩

/-- The sections of the image, laid out: the CONTEXT section alone. -/
def laidS : List (Nat × Section_) := layoutSections (4096 + 16 * (demoS1.sections 1 1 false).length) (demoS1.sections 1 1 false)

/-- One section written behind the directory. -/
theorem fromS_sections (s : State) (n : Nat) (es : List (Nat × Section_)) (h : FromS s) (h1 : es.length = 1)
    (h2 : (es.all fun e => n + (zeros (e.1 - n) ++ e.2.body).length ≤ 2 ^ 20) = true) :
    ∃ t, s.writeSections 0 [0] 0x3000000000000000 n es = (t, es, none) ∧ FromS t := by
  obtain ⟨e, rfl⟩ := List.length_eq_one_iff.1 h1
  obtain ⟨t, ht, hf⟩ := fromS_at s n (zeros (e.1 - n) ++ e.2.body) h (by simpa using h2)
  exact ⟨t, by simp only [State.writeSections, ht], hf⟩

/-- An image whose parts can be written is written. -/
theorem writeImage_ok {s t1 t2 t : State} {w c num : Nat} {base : Word} {done : List (Nat × Section_)} (laid : List (Nat × Section_))
    (hl : layoutSections (4096 + 16 * (s.sections c num false).length) (s.sections c num false) = laid)
    (h1 : s.writeSections w [w] base (4096 + 16 * (s.sections c num false).length) laid = (t1, done, none))
    (h2 : t1.writeAt w [w] base 4096 (dirBytes (s.sections c num false).length laid) = (t2, none))
    (h3 : t2.writeAt w [w] base 0 (imageHeader (s.sections c num false).length (4096 + (imageBody laid).length)
      (sha256 (imageBody laid)) c (s.ctx c).dead (((s.sections c num false).filter fun e => e.type != 7).map (·.core))
      none) = (t, none)) :
    s.writeImage w c num base = (t, none) := by
  simp only [State.writeImage, hl, h1, h2, h3]

/-- `CTX.SAVE` of a context whose image is written. -/
theorem witness_ctxSave :
    plainOk demoS .ctxSave loadForm demoS.alone = true ∧ (demoS0.sval demoS.alone (srcA loadForm)).toNat = 1 ∧
    demoS0.sval demoS.alone (srcB loadForm 0) = 0x3000000000000000 ∧
    1 ≠ (demoS0.warp demoS.cur).ctx ∧ (mfind demoS0.ctxs 1).isSome = true ∧
    (demoS0.ctx 1).frozen = true ∧ demoS0.enginesIdle 1 = true ∧ demoS0.relWaits (demoS0.warpsOf 1) .sys = false ∧
    ((demoS0.releaseAll 1).checkStored 1).nextId = 1 ∧
    ∃ t, demoS1.writeImage demoS.cur 1 1 0x3000000000000000 = (t, none) ∧ (mfind t.warps demoS.cur).isSome ∧
      (mfind t.ctxs 1).isSome ∧ (t.warp demoS.cur).ctx ≠ 1 := by
  refine ⟨by decide +kernel, by decide +kernel, by decide +kernel, by decide +kernel, by decide +kernel, by decide +kernel,
    by decide +kernel, by decide +kernel, by decide +kernel, ?_⟩
  have hd : 4096 + (dirBytes (demoS1.sections 1 1 false).length laidS).length ≤ 2 ^ 20 := by decide +kernel
  have hs : laidS.length = 1 ∧ (laidS.all fun e => 4096 + 16 * (demoS1.sections 1 1 false).length +
      (zeros (e.1 - (4096 + 16 * (demoS1.sections 1 1 false).length)) ++ e.2.body).length ≤ 2 ^ 20) = true := by decide +kernel
  obtain ⟨t1, h1, f1⟩ := fromS_sections demoS1 _ laidS (.refl _) hs.1 hs.2
  obtain ⟨t2, h2, f2⟩ := fromS_at t1 4096 _ f1 hd
  let hdr := imageHeader (demoS1.sections 1 1 false).length (4096 + (imageBody laidS).length) (sha256 (imageBody laidS)) 1
    (demoS1.ctx 1).dead (((demoS1.sections 1 1 false).filter fun e => e.type != 7).map (·.core)) none
  have hh : hdr.length ≤ 2 ^ 20 := by decide +kernel
  obtain ⟨t, h3, f3⟩ := fromS_at t2 0 hdr f2 (by omega)
  have h5 : (mfind demoS1.ctxs 1).isSome = true ∧ (demoS1.warp 0).ctx ≠ 1 ∧ (mfind demoS1.warps 0).isSome = true ∧
    demoS.cur = 0 := by decide +kernel
  rw [h5.2.2.2]
  refine ⟨t, writeImage_ok laidS rfl h1 h2 h3, ?_, ?_, ?_⟩
  · rw [f3.listed]; exact h5.2.2.1
  · rw [(traffic_ctx f3).1]; exact h5.1
  · rw [(traffic_ctx f3).2]; exact h5.2.1

end Sys2Proof.Tests
end

/-! SUPPORT. What a step does: what it takes up, the warp whose instruction it tries, what fetching and decoding give, the
traps of fetch, the passing of time and storage errors. -/

namespace Sys2Proof.Machine

/-! ## What a step takes up -/

theorem State.takeAct_cons {s : State} {x : Act} {xs : List Act} (h : s.agenda = x :: xs) :
    s.takeAct = (x, { s with agenda := xs }) := by
  simp only [takeAct, h]

theorem step_of_event {s s1 : State} {i : Instr} (h : s.takeAct = (.event i, s1)) : step s = settled (exec i s1) := by
  simp only [step, h]

theorem step_of_elapse {s s1 : State} {clk ns : Nat} (h : s.takeAct = (.elapse clk ns, s1)) :
    step s = settled (.next (s1.elapse clk ns)) := by
  simp only [step, h]

theorem step_of_upset {s s1 : State} {u : Upset} {unc : Bool} (h : s.takeAct = (.upset u unc, s1)) :
    step s = settled (.next (s1.upset u unc)) := by
  simp only [step, h]

theorem step_of_issue {s s1 : State} {w : Nat} (h : s.takeAct = (.issue w, s1)) :
    step s = settled (stepWarp s1 w false) := by
  simp only [step, h]

theorem step_of_also {s s1 : State} {w : Nat} (h : s.takeAct = (.also w, s1)) :
    step s = settled (stepWarp s1 w true) := by
  simp only [step, h]

/-! ## The clock in which an instruction is tried (R46) -/

theorem State.follows_iff (s : State) (w : Nat) :
    s.follows w = true ↔ ∃ j, s.joint = some j ∧
      (8 * j.core + j.part < s.partNo w ∨ (8 * j.core + j.part = s.partNo w ∧ w = s.cur)) := by
  unfold follows
  cases s.joint <;> simp

/-- The condition of the statement is the one that the model tests. -/
theorem sharesClock_iff (s : State) (w : Nat) :
    Claims.sharesClock s w ↔ s.follows w = true ∧ s.readyNow w = true := by
  rw [State.follows_iff, and_comm]
  rfl

theorem stepWarp_issue (s : State) (w : Nat) : stepWarp s w false = tryWarp (s.elapse 1 0) w := rfl

theorem stepWarp_shares {s : State} {w : Nat} (h : Claims.sharesClock s w) : stepWarp s w true = tryWarp s w := by
  obtain ⟨hf, hr⟩ := (sharesClock_iff s w).1 h
  simp only [stepWarp, hf, hr, Bool.and_self, if_true]

theorem stepWarp_not_shares {s : State} {w : Nat} (h : ¬Claims.sharesClock s w) :
    stepWarp s w true = tryWarp (s.elapse 1 0) w := by
  rw [sharesClock_iff, ← Bool.and_eq_true] at h
  simp only [stepWarp, Bool.true_and, if_neg h]

/-- A step that takes up a warp tries its instruction, in the next clock or in the one that it shares. -/
theorem step_of_tried {s s1 s2 : State} {w : Nat} {x : Act} (hx : s.takeAct = (x, s1)) (ht : Claims.Tried s1 w x s2) :
    step s = settled (tryWarp s2 w) := by
  obtain ⟨rfl, rfl⟩ | ⟨rfl, hs, hn⟩ := ht
  · rw [step_of_issue hx, stepWarp_issue]
  · rw [step_of_also hx]
    by_cases h : Claims.sharesClock s1 w
    · rw [stepWarp_shares h, hs h]
    · rw [stepWarp_not_shares h, hn h]

/-! ## Fetching and decoding (R61, Table 3.8) -/

theorem State.fetchInstr_ok {s s4 : State} {w : Nat} {w0 : IWord} {ws : List IWord} {i : Instr}
    (hf : Claims.Fetched s w w0 ws s4) (hd : decodeWords (w0 :: ws) = .ok i) : s.fetchInstr w = (s4, .ok i) := by
  obtain ⟨s2, s3, h0, hs, rfl⟩ := hf
  simp only [fetchInstr, fetchNew, h0, hs, hd]

theorem State.fetchInstr_illegal {s s4 : State} {w : Nat} {w0 : IWord} {ws : List IWord} {e : DecodeError}
    (hf : Claims.Fetched s w w0 ws s4) (hd : decodeWords (w0 :: ws) = .error e) :
    s.fetchInstr w = (s4, .error { trap := illegal e.detail, names := namedBy (w0 :: ws) }) := by
  obtain ⟨s2, s3, h0, hs, rfl⟩ := hf
  simp only [fetchInstr, fetchNew, h0, hs, hd]

theorem State.fetchInstr_fault_first {s s3 : State} {w : Nat} {f : XFault}
    (h : s.fetchWord w (s.warp w).pc = (s3, .error f)) :
    s.fetchInstr w = (s3.noteMiss s.mem w, .error { trap := f.trap }) := by
  simp only [fetchInstr, fetchNew, h]

theorem State.fetchInstr_fault_later {s s3 s4 : State} {w : Nat} {w0 : IWord} {ws : List IWord} {f : Trap}
    (h0 : s.fetchWord w (s.warp w).pc = (s3, .ok w0))
    (hs : s3.fetchWords w ((s.warp w).pc + 4) (lengthOf w0 - 1) = (s4, ws, some f)) :
    s.fetchInstr w = (s4.noteMiss s.mem w, .error { trap := f, names := namedBy (w0 :: ws) }) := by
  simp only [fetchInstr, fetchNew, h0, hs]

/-- Bits put above others, within a word. -/
theorem setWidth_append_eq_or {m n : Nat} (hi : BitVec m) (lo : BitVec n) :
    (hi ++ lo).setWidth 32 = lo.setWidth 32 ||| (hi.setWidth 32 <<< n) := by
  ext k hk
  by_cases h : k < n
  · simp [BitVec.getLsbD_append, h]
  · simp [BitVec.getLsbD_append, h, BitVec.getLsbD_of_ge lo k (by omega)]

/-- Four bytes put together as `fetchWord` does, the first byte lowest. -/
theorem word_of_bytes (b0 b1 b2 b3 : Byte) :
    (b0.setWidth 32 ||| (b1.setWidth 32 <<< 8) ||| (b2.setWidth 32 <<< 16) ||| (b3.setWidth 32 <<< 24) : IWord) =
      b3 ++ b2 ++ b1 ++ b0 := by
  calc _ = (b3 ++ b2 ++ b1 ++ b0).setWidth 32 := by
        rw [setWidth_append_eq_or, setWidth_append_eq_or, setWidth_append_eq_or]
        simp only [BitVec.shiftLeft_or_distrib, ← BitVec.shiftLeft_add, BitVec.or_assoc, Nat.reduceAdd]
    _ = _ := BitVec.setWidth_eq _

theorem State.fetchWord_ok {s s1 s2 s3 s4 : State} {w : Nat} {p : Word} {b0 b1 b2 b3 : Byte}
    (h0 : s.fetchByte w p p = (s1, .ok b0)) (h1 : s1.fetchByte w p (p + 1) = (s2, .ok b1))
    (h2 : s2.fetchByte w p (p + 2) = (s3, .ok b2)) (h3 : s3.fetchByte w p (p + 3) = (s4, .ok b3)) :
    s.fetchWord w p = (s4, .ok (b3 ++ b2 ++ b1 ++ b0)) := by
  have hr : List.range 4 = [0, 1, 2, 3] := rfl
  simp only [BitVec.ofNat_eq_ofNat] at h1 h2 h3
  simp only [fetchWord, hr, List.foldl_cons, List.foldl_nil, BitVec.add_zero, h0, h1, h2, h3, ← word_of_bytes,
    BitVec.ofNat_eq_ofNat, BitVec.zero_or, Nat.reduceMul, BitVec.shiftLeft_zero]

/-! ## A warp's instruction in the present clock -/

theorem tryWarp_shut {s : State} {w : Nat} (h : s.takesUp w = false) : tryWarp s w = .next s := by
  simp only [tryWarp, h, Bool.not_false, if_true]

theorem tryWarp_ready {s s1 : State} {w : Nat} {i : Instr} (hu : s.takesUp w = true) (hf : s.fetchInstr w = (s1, .ok i))
    (h0 : s1.waitOf w i = 0) : tryWarp s w = exec i (s1.seat w) := by
  simp only [tryWarp, hu, hf, h0, Bool.not_true, Bool.false_eq_true, if_false]

theorem tryWarp_waits {s s1 : State} {w : Nat} {i : Instr} (hu : s.takesUp w = true) (hf : s.fetchInstr w = (s1, .ok i))
    (h1 : 1 ≤ s1.waitOf w i) : tryWarp s w = .next (s1.waits w (s1.waitOf w i)) := by
  obtain ⟨n, hn⟩ := Nat.exists_eq_add_of_le' h1
  simp only [tryWarp, hu, hf, hn, Bool.not_true, Bool.false_eq_true, if_false]

theorem tryWarp_traps {s s1 : State} {w : Nat} {r : Refused} (hu : s.takesUp w = true)
    (hf : s.fetchInstr w = (s1, .error r)) : tryWarp s w = .next { s1.fetchTrap w r with joint := none } := by
  simp only [tryWarp, hu, hf, Bool.not_true, Bool.false_eq_true, if_false]

theorem State.waits_short {s : State} {w n : Nat} (h : n ≤ 2) : s.waits w n = s := if_neg (by omega)

theorem State.waits_long {s : State} {w n : Nat} (h : 2 < n) : s.waits w n = s.stalled w := if_pos h

/-! ## Traps of fetch and decode (R346) -/

theorem State.fetchTrap_late {s : State} {w : Nat} {x : Trap} {o : Op} {a : Args} {l : LateTrap}
    (hl : (s.warp w).late = some l) (hd : lateDue o a (s.warp w) = true) :
    s.fetchTrap w { trap := x, names := some (o, a) } = (s.trap w ⟨l.code, l.detail, l.addr⟩).takeLate o a w := by
  simp only [fetchTrap, hl, hd, if_true]

theorem State.fetchTrap_now {s : State} {w : Nat} {r : Refused}
    (h : ∀ o a l, r.names = some (o, a) → (s.warp w).late = some l → lateDue o a (s.warp w) = false) :
    s.fetchTrap w r = s.trap w r.trap := by
  simp only [fetchTrap]
  split
  next o a l hn hl => rw [h o a l hn hl, if_neg Bool.false_ne_true]
  next => rfl

theorem trapsAtFetch_of_refused {s s2 s4 : State} {w : Nat} {x : Trap} {names : Option (Op × Args)}
    (ht : step s = settled (tryWarp s2 w)) (hu : s2.takesUp w = true)
    (hf : s2.fetchInstr w = (s4, .error { trap := x, names })) : Claims.trapsAtFetch s s4 w names x := by
  rw [tryWarp_traps hu hf] at ht
  constructor
  · intro hn
    rw [ht, State.fetchTrap_now hn]
  · rintro o a l rfl hl hd
    rw [ht, State.fetchTrap_late hl hd]

/-- The step that takes up a warp, by what fetching its instruction and its wait give. -/
theorem step_tries_warp : Claims.stepOfWarp := by
  intro s s1 s2 w x hx hs2
  have ht := step_of_tried hx hs2
  refine ⟨fun h => by rw [ht, tryWarp_shut h], fun hu => ⟨fun s4 w0 ws i hf hd => ?_, fun s4 w0 ws e hf hd => ?_,
    fun s3 f hf => ?_, fun s3 s4 w0 ws f h0 hf => ?_⟩⟩
  · have hi := State.fetchInstr_ok hf hd
    refine ⟨fun h => ?_, fun h1 h2 => ?_, fun h => ?_⟩
    · rw [ht, tryWarp_ready hu hi h, State.seat]
    · rw [ht, tryWarp_waits hu hi h1, State.waits_short h2]
    · rw [ht, tryWarp_waits hu hi (by omega), State.waits_long h]
  · exact trapsAtFetch_of_refused ht hu (State.fetchInstr_illegal hf hd)
  · exact trapsAtFetch_of_refused ht hu (State.fetchInstr_fault_first hf)
  · exact trapsAtFetch_of_refused ht hu (State.fetchInstr_fault_later h0 hf)

/-! ## The passing of time -/

theorem State.slewDies_calm {s : State} (h : ∀ d, s.slewWork d = false) : s.slewDies = [] := by
  simp [slewDies, h]

theorem State.elapse_calm {s : State} (clk ns : Nat) (h : ∀ d, s.slewWork d = false) :
    s.elapse clk ns = { s with clock := s.clock + clk, timer := s.timer + ns, joint := none } := by
  simp [elapse, slewDies_calm h]

/-! ## Storage errors (R168) -/

/-- A storage error leaves every field alone but the stored forms of memory, warps, blocks and cores. -/
theorem State.upset_frame (s : State) (u : Upset) (unc : Bool) :
    s.upset u unc = { s with
      mem := { s.mem with
        cols := (s.upset u unc).mem.cols, sectors := (s.upset u unc).mem.sectors, tables := (s.upset u unc).mem.tables }
      warps := (s.upset u unc).warps, blocks := (s.upset u unc).blocks, cores := (s.upset u unc).cores } := by
  cases u with
  | stored | remap => rfl
  | word | blockReg | tile | l1 | l2 => simp only [upset]; split <;> rfl

theorem State.upset_warp (s : State) (u : Upset) (unc : Bool) (v : Nat) :
    (s.upset u unc).warp v = { s.warp v with words := ((s.upset u unc).warp v).words } := by
  cases u with
  | word w k =>
    simp only [upset]
    split
    next h =>
      rw [modWarp_warp _ _ _ _ (Bool.and_eq_true_iff.1 h).1]
      split
      · subst v; rfl
      · rfl
    next => rfl
  | stored | remap => rfl
  | blockReg | tile | l1 | l2 => simp only [upset]; split <;> rfl

theorem State.upset_blk (s : State) (u : Upset) (unc : Bool) (j : Nat) :
    (s.upset u unc).blk j = { s.blk j with qWords := ((s.upset u unc).blk j).qWords } := by
  cases u with
  | blockReg b n =>
    simp only [upset]
    split
    next h =>
      rw [modBlk_blk _ _ _ _ (Bool.and_eq_true_iff.1 h).1]
      split
      · subst j; rfl
      · rfl
    next => rfl
  | stored | remap => rfl
  | word | tile | l1 | l2 => simp only [upset]; split <;> rfl

theorem State.upset_core (s : State) (u : Upset) (unc : Bool) (j : Nat) :
    (s.upset u unc).core j = { s.core j with
      tileErr := ((s.upset u unc).core j).tileErr, l1Err := ((s.upset u unc).core j).l1Err } := by
  cases u with
  | tile | l1 =>
    simp only [upset]
    split
    · rw [modCore_core]
      split
      · subst j; rfl
      · rfl
    · rfl
  | stored | remap => rfl
  | word | blockReg | l2 => simp only [upset]; split <;> rfl

theorem upset_keeps : Claims.upsetKeeps := by
  intro s u unc
  have h := s.upset_frame u unc
  exact ⟨congrArg (·.mem) h, congrArg (·.clock) h, congrArg (·.timer) h, congrArg (·.ctxs) h, congrArg (·.pend) h,
    congrArg (·.dies) h, s.upset_warp u unc, s.upset_blk u unc, s.upset_core u unc⟩

/-! ## The obligation -/

/-- Settles O58: a step tries the instruction of the warp that it takes up, and what fetching, decoding and waiting give
decides between executing it, waiting and the trap of fetch; every other item of the agenda is one operation. -/
theorem stepRunsDecoded : Obligations.StepRunsDecoded :=
  ⟨fun _ _ _ => State.takeAct_cons, fun _ _ _ => step_of_event, fun _ _ _ _ => step_of_elapse,
    fun _ => State.elapse_calm, step_tries_warp, fun _ _ _ _ => step_of_upset, upset_keeps,
    fun _ _ _ _ _ _ _ _ _ _ _ => State.fetchWord_ok⟩

end Sys2Proof.Machine

/-! SUPPORT. The standby island: the state at reset, what the SPDM responder answers, measurement registers and health reads. -/

namespace Sys2Proof.Machine

/-! ## The state at reset -/

/-- From reset the first step is the boot. -/
theorem step_reset : step State.reset = settled (exec (.powerOn State.reset.island.fw) State.reset) :=
  step_of_event rfl

/-- Settles O59: the state at reset lists nothing, and its empty agenda begins with the boot. -/
theorem resetState : Obligations.ResetState :=
  ⟨fun _ => rfl, rfl, fun _ => rfl, rfl, rfl, rfl, rfl, rfl, rfl, fun _ _ => rfl, fun _ => ⟨rfl, rfl, rfl⟩, rfl, step_reset⟩

/-! ## Which requests reach the responder (R15, R16, R317) -/

theorem State.spdmServed_of_served {s : State} {t : Transport} (h : Claims.served s t) (r : Bool) :
    s.spdmServed t r = true := by
  obtain ⟨rfl, hb⟩ | ⟨hb, hf⟩ := h
  · cases hc : s.island.boot <;> simp_all [spdmServed]
  · simp [spdmServed, hb, hf]

/-- In recovery the Sill port serves what recovery allows. -/
theorem State.spdmServed_recovery {s : State} {t : Transport}
    (h : Claims.served s t ∨ s.island.boot = .recovery ∧ t = .sill) : s.spdmServed t true = true := by
  obtain h | ⟨hb, rfl⟩ := h
  · exact spdmServed_of_served h true
  · simp [spdmServed, hb]

/-- No request comes over a fabric that does not run. -/
theorem State.spdmServed_girt {s : State} {t : Transport}
    (h : t = .girt ∧ (s.island.boot ≠ .running ∨ s.fabricUp = false)) (r : Bool) : s.spdmServed t r = false := by
  obtain ⟨rfl, h⟩ := h
  cases hb : s.island.boot <;> simp_all [spdmServed]

theorem State.spdmServed_shut {s : State} {t : Transport}
    (h : s.island.boot = .recovery ∨ t = .girt ∧ (s.island.boot ≠ .running ∨ s.fabricUp = false)) :
    s.spdmServed t false = false := by
  obtain hb | h := h
  · simp [spdmServed, hb]
  · exact spdmServed_girt h false

/-! ## Answers -/

theorem State.respond_shut (s : State) (t : Transport) (c : Byte) (bs : List Byte) : s.respond t false c bs = s := rfl

/-- A change of a connection's state that leaves its count, and then an answer on it, is a response. -/
theorem responds_of_modSpdm {i : Instr} {t : Transport} {s : State} {code : Byte} {fields bytes : List Byte} {f : Spdm → Spdm}
    (h : exec i s = .next ((s.modSpdm t f).respond t true code fields)) (hf : ∀ x, (f x).count = x.count)
    (hb : bytes = code :: fields := by rfl) : Claims.responds i t s bytes := by
  subst hb
  refine ⟨_, h, ?_⟩
  cases t
  · refine ⟨rfl, congrArg (· + 1) (hf _), fun v hv => ?_, rfl⟩
    cases v
    · exact absurd rfl hv
    · rfl
  · refine ⟨rfl, congrArg (· + 1) (hf _), fun v hv => ?_, rfl⟩
    cases v
    · rfl
    · exact absurd rfl hv

theorem State.modSpdm_id (s : State) (t : Transport) : s.modSpdm t id = s := by cases t <;> rfl

theorem responds_of_respond {i : Instr} {t : Transport} {s : State} {code : Byte} {fields bytes : List Byte}
    (h : exec i s = .next (s.respond t true code fields)) (hb : bytes = code :: fields := by rfl) :
    Claims.responds i t s bytes :=
  responds_of_modSpdm (f := id) (by rw [State.modSpdm_id]; exact h) (fun _ => rfl) hb

theorem State.slhOn_iff (s : State) (t : Transport) : s.slhOn t = true ↔ (s.island.spdm t).slh = some true := by
  simp [slhOn]

theorem State.slhOn_false {s : State} {t : Transport} (h : (s.island.spdm t).slh ≠ some true) : s.slhOn t = false := by
  simpa [slhOn] using h

/-! ## Each request (R319, R320) -/

section
variable {s : State} {t : Transport}

theorem exec_getVersion (h : s.spdmServed t true = true) :
    exec (.getVersion t) s =
      .next ((s.modSpdm t fun x => { x with version := true, slh := none }).respond t true 0x04 [0x01, 0x00, 0x13]) := by
  change execGetVersion t s = _
  simp only [execGetVersion, h, if_true]

theorem exec_getCapabilities (h : s.spdmServed t true = true) :
    exec (.getCapabilities t) s = .next (s.respond t true 0x61 (leBytes 4 0x16)) := by
  change execGetCapabilities t s = _
  simp only [execGetCapabilities, h]

theorem exec_negotiateAlgorithms (h : s.spdmServed t false = true) (b : Bool) :
    exec (.negotiateAlgorithms t b) s = .next ((s.modSpdm t fun x => { x with slh := some b }).respond t true 0x63
      (leBytes 4 2 ++ leBytes 4 0 ++ leBytes 4 1 ++ if b then [0x04, 0x00] ++ leBytes 2 1 else [])) := by
  change execNegotiateAlgorithms t b s = _
  simp only [execNegotiateAlgorithms, h, if_true]

theorem exec_getDigests (s : State) (t : Transport) : exec (.getDigests t) s =
    .next (s.respond t (s.spdmServed t false) 0x01 (0x01 :: digestBytes (sha256 Config.certChain))) := rfl

theorem exec_getCertificate_slot0 (s : State) (t : Transport) (off n : Nat) : exec (.getCertificate t 0 off n) s =
    .next (s.respond t (s.spdmServed t false) 0x02 (0x00 :: leBytes 2 ((Config.certChain.drop off).take n).length ++
      leBytes 2 (Config.certChain.length - off - ((Config.certChain.drop off).take n).length) ++
      (Config.certChain.drop off).take n)) := rfl

theorem exec_getCertificate_other {slot : Nat} (h : slot ≠ 0) (s : State) (t : Transport) (off n : Nat) :
    exec (.getCertificate t slot off n) s = .next (s.respond t (s.spdmServed t false) 0x7F [0x07]) := by
  change execGetCertificate t slot off n s = _
  simp only [execGetCertificate, if_neg h, spdmError, errUnsupported]

theorem exec_challenge_unselected (h : s.slhOn t = false) (slot : Nat) (nonce : BitVec 256) :
    exec (.challenge t slot nonce) s = .next (s.respond t (s.spdmServed t false) 0x7F [0x04]) := by
  change execChallenge t slot nonce s = _
  simp only [execChallenge, h, Bool.not_false, if_true, spdmError, errUnexpected]

theorem exec_challenge_slot {slot : Nat} (h : s.slhOn t = true) (h0 : slot ≠ 0) (nonce : BitVec 256) :
    exec (.challenge t slot nonce) s = .next (s.respond t (s.spdmServed t false) 0x7F [0x07]) := by
  change execChallenge t slot nonce s = _
  simp only [execChallenge, h, Bool.not_true, Bool.false_eq_true, if_false, ne_eq, h0, not_false_eq_true, if_true, spdmError,
    errUnsupported]

theorem exec_challenge_signed (h : s.slhOn t = true) (nonce : BitVec 256) :
    exec (.challenge t 0 nonce) s = .next (s.respond t (s.spdmServed t false) 0x03
      (digestBytes (sha256 Config.certChain) ++ digestBytes nonce ++
        Config.slhSign (digestBytes (sha256 Config.certChain) ++ digestBytes nonce))) := by
  change execChallenge t 0 nonce s = _
  simp only [execChallenge, h, Bool.not_true, Bool.false_eq_true, if_false, ne_eq, not_true_eq_false]

/-- The registers that an index of `GET_MEASUREMENTS` names (R320). -/
def measuredBy (index : Nat) : List Nat :=
  if index = 0xFF then List.range 16 else if 1 ≤ index ∧ index ≤ 16 then [index - 1] else []

theorem measuredBy_all : measuredBy 0xFF = List.range 16 := rfl

theorem measuredBy_succ {n : Nat} (h : n < 16) : measuredBy (n + 1) = [n] := by
  simp only [measuredBy, if_neg (show n + 1 ≠ 0xFF by omega), if_pos (show 1 ≤ n + 1 ∧ n + 1 ≤ 16 by omega), Nat.add_sub_cancel]

theorem measuredBy_other {index : Nat} (h : index ≠ 0xFF) (h' : index = 0 ∨ 16 < index) : measuredBy index = [] := by
  simp only [measuredBy, if_neg h, if_neg (show ¬(1 ≤ index ∧ index ≤ 16) by omega)]

/-- The bytes of the registers that an index names. -/
def State.measured (s : State) (index : Nat) : List Byte := (measuredBy index).flatMap fun n => digestBytes (s.island.mr n)

theorem State.measured_succ (s : State) {n : Nat} (h : n < 16) : s.measured (n + 1) = digestBytes (s.island.mr n) := by
  simp only [measured, measuredBy_succ h, List.flatMap_singleton]

theorem exec_getMeasurements_unselected (h : s.slhOn t = false) (index : Nat) (nonce : BitVec 256) :
    exec (.getMeasurements t index true nonce) s = .next (s.respond t (s.spdmServed t false) 0x7F [0x04]) := by
  change execGetMeasurements t index true nonce s = _
  simp only [execGetMeasurements, h, Bool.not_false, Bool.and_self, if_true, spdmError, errUnexpected]

/-- A signed request needs the asymmetric algorithm. -/
theorem signed_unselected {signed : Bool} (h : signed = true → s.slhOn t = true) : (signed && !s.slhOn t) = false := by
  cases signed
  · rfl
  · rw [h rfl]; rfl

theorem exec_getMeasurements_none {index : Nat} {signed : Bool} (h : signed = true → s.slhOn t = true)
    (hi : measuredBy index = []) (nonce : BitVec 256) :
    exec (.getMeasurements t index signed nonce) s = .next (s.respond t (s.spdmServed t false) 0x7F [0x07]) := by
  change execGetMeasurements t index signed nonce s = _
  unfold measuredBy at hi
  simp only [execGetMeasurements, signed_unselected h, hi, Bool.false_eq_true, List.isEmpty_nil, if_true, if_false, spdmError,
    errUnsupported]

theorem exec_getMeasurements {index : Nat} {signed : Bool} (h : signed = true → s.slhOn t = true)
    (hi : measuredBy index ≠ []) (nonce : BitVec 256) :
    exec (.getMeasurements t index signed nonce) s = .next (s.respond t (s.spdmServed t false) 0x60
      (if signed then s.measured index ++ digestBytes nonce ++ Config.slhSign (s.measured index ++ digestBytes nonce)
       else s.measured index)) := by
  change execGetMeasurements t index signed nonce s = _
  have he : (measuredBy index).isEmpty = false := by simpa using hi
  unfold measuredBy at he
  simp only [execGetMeasurements, signed_unselected h, he, Bool.false_eq_true, if_false]
  rfl

theorem exec_spdmUnsupported (s : State) (t : Transport) (code : Nat) :
    exec (.spdmUnsupported t code) s = .next (s.respond t (s.spdmServed t false) 0x7F [0x07]) := rfl

/-! ## Where a request does not reach the responder -/

theorem exec_getVersion_shut (h : s.spdmServed t true = false) : exec (.getVersion t) s = .next s := by
  change execGetVersion t s = _
  simp only [execGetVersion, h, Bool.false_eq_true, if_false, State.respond_shut]

theorem exec_getCapabilities_shut (h : s.spdmServed t true = false) : exec (.getCapabilities t) s = .next s := by
  change execGetCapabilities t s = _
  simp only [execGetCapabilities, h, State.respond_shut]

theorem exec_negotiateAlgorithms_shut (h : s.spdmServed t false = false) (b : Bool) :
    exec (.negotiateAlgorithms t b) s = .next s := by
  change execNegotiateAlgorithms t b s = _
  simp only [execNegotiateAlgorithms, h, Bool.false_eq_true, if_false, State.respond_shut]

theorem exec_getDigests_shut (h : s.spdmServed t false = false) : exec (.getDigests t) s = .next s := by
  rw [exec_getDigests, h, State.respond_shut]

theorem exec_getCertificate_shut (h : s.spdmServed t false = false) (slot off n : Nat) :
    exec (.getCertificate t slot off n) s = .next s := by
  change execGetCertificate t slot off n s = _
  simp only [execGetCertificate, h, State.respond_shut, ite_self]

theorem exec_challenge_shut (h : s.spdmServed t false = false) (slot : Nat) (nonce : BitVec 256) :
    exec (.challenge t slot nonce) s = .next s := by
  change execChallenge t slot nonce s = _
  simp only [execChallenge, h, State.respond_shut, ite_self]

theorem exec_getMeasurements_shut (h : s.spdmServed t false = false) (index : Nat) (signed : Bool) (nonce : BitVec 256) :
    exec (.getMeasurements t index signed nonce) s = .next s := by
  change execGetMeasurements t index signed nonce s = _
  simp only [execGetMeasurements, h, State.respond_shut, ite_self]

theorem exec_spdmUnsupported_shut (h : s.spdmServed t false = false) (code : Nat) :
    exec (.spdmUnsupported t code) s = .next s := by
  rw [exec_spdmUnsupported, h, State.respond_shut]

end

/-! ## The responder as a whole -/

/-- A request that does not reach the responder changes nothing. -/
theorem spdm_refused {s : State} {t : Transport}
    (h : s.island.boot = .recovery ∨ t = .girt ∧ (s.island.boot ≠ .running ∨ s.fabricUp = false)) :
    exec (.getDigests t) s = .next s ∧ (∀ b, exec (.negotiateAlgorithms t b) s = .next s) ∧
      (∀ slot off n, exec (.getCertificate t slot off n) s = .next s) ∧ (∀ slot n, exec (.challenge t slot n) s = .next s) ∧
      (∀ x y n, exec (.getMeasurements t x y n) s = .next s) ∧ ∀ code, exec (.spdmUnsupported t code) s = .next s :=
  have hs := State.spdmServed_shut h
  ⟨exec_getDigests_shut hs, exec_negotiateAlgorithms_shut hs, exec_getCertificate_shut hs, exec_challenge_shut hs,
    exec_getMeasurements_shut hs, exec_spdmUnsupported_shut hs⟩

theorem spdm_selects {s : State} {t : Transport} (h : s.spdmServed t false = true) (b : Bool) {u : State}
    (hu : exec (.negotiateAlgorithms t b) s = .next u) : (u.island.spdm t).slh = some b := by
  rw [exec_negotiateAlgorithms h] at hu
  cases hu
  cases t <;> rfl

theorem spdm_answers : Claims.spdm := by
  refine ⟨fun t s h => ?_, fun t s h => ?_, fun t s => ⟨fun h => ?_, spdm_refused⟩⟩
  · have hs := State.spdmServed_recovery h
    exact ⟨responds_of_modSpdm (exec_getVersion hs) fun _ => rfl, responds_of_respond (exec_getCapabilities hs)⟩
  · have hs : s.spdmServed t false = true := State.spdmServed_of_served h false
    refine ⟨fun b => ⟨responds_of_modSpdm (exec_negotiateAlgorithms hs b) fun _ => rfl, fun u => spdm_selects hs b⟩,
      ?_, fun off n => ?_, fun slot off n h0 => ?_, fun slot nonce hn => ?_, fun slot nonce hy h0 => ?_, fun nonce hy => ?_,
      fun index nonce hn => ?_, fun n nonce hlt => ⟨?_, fun hy => ?_⟩, ⟨fun nonce => ?_, fun nonce hy => ?_⟩,
      fun index signed nonce hff hi hy => ?_, fun code => ?_⟩
    · exact responds_of_respond (hs ▸ exec_getDigests s t)
    · exact responds_of_respond (hs ▸ exec_getCertificate_slot0 s t off n)
    · exact responds_of_respond (hs ▸ exec_getCertificate_other h0 s t off n)
    · exact responds_of_respond (hs ▸ exec_challenge_unselected (State.slhOn_false hn) slot nonce)
    · exact responds_of_respond (hs ▸ exec_challenge_slot ((s.slhOn_iff t).2 hy) h0 nonce)
    · exact responds_of_respond (hs ▸ exec_challenge_signed ((s.slhOn_iff t).2 hy) nonce)
    · exact responds_of_respond (hs ▸ exec_getMeasurements_unselected (State.slhOn_false hn) index nonce)
    · exact responds_of_respond (hs ▸ s.measured_succ hlt ▸
        exec_getMeasurements (signed := false) (by simp) (by simp [measuredBy_succ hlt]) nonce)
    · exact responds_of_respond (hs ▸ s.measured_succ hlt ▸
        exec_getMeasurements (signed := true) (fun _ => (s.slhOn_iff t).2 hy) (by simp [measuredBy_succ hlt]) nonce)
    · exact responds_of_respond (hs ▸ exec_getMeasurements (signed := false) (by simp) (by simp [measuredBy_all]) nonce)
    · exact responds_of_respond (hs ▸
        exec_getMeasurements (signed := true) (fun _ => (s.slhOn_iff t).2 hy) (by simp [measuredBy_all]) nonce)
    · exact responds_of_respond (hs ▸
        exec_getMeasurements_none (fun h => (s.slhOn_iff t).2 (hy h)) (measuredBy_other hff hi) nonce)
    · exact responds_of_respond (hs ▸ exec_spdmUnsupported s t code)
  · have hs := State.spdmServed_girt h true
    exact ⟨exec_getVersion_shut hs, exec_getCapabilities_shut hs⟩

/-! ## Measurement registers (R318) -/

theorem Island.extend_mr (i : Island) (n k : Nat) (x : BitVec 256) :
    (i.extend n x).mr k = if k = n then Claims.extended (i.mr n) x else i.mr k := mget_mset ..

theorem exec_measurementExtend {s : State} {n : Nat} (x : BitVec 256) (hr : s.fwRuns = true)
    (hn : n = 2 ∨ n = 3 ∨ 8 ≤ n ∧ n ≤ 15) :
    exec (.measurementExtend n x) s = .next { s with island := s.island.extend n x } := by
  change execMeasurementExtend n x s = _
  simp [execMeasurementExtend, hr, or_assoc, hn]

theorem exec_measurementExtend_refused {s : State} {n : Nat} (x : BitVec 256)
    (h : s.fwRuns = false ∨ ¬(n = 2 ∨ n = 3 ∨ 8 ≤ n ∧ n ≤ 15)) : exec (.measurementExtend n x) s = .next s := by
  change execMeasurementExtend n x s = _
  obtain h | h := h
  · simp [execMeasurementExtend, h]
  · simp [execMeasurementExtend, or_assoc, h]

/-! ## Health reads (R321, R325) -/

theorem exec_healthRead {r : Requester} {s : State} (h : s.mayManage r = true) :
    exec (.healthRead r) s =
      .next { s with island := { s.island with answer := Ans.done.code :: s.health }, free := s.free + 1 } := by
  change execHealthRead r s = _
  simp only [execHealthRead, State.manage, h, Bool.not_true, Bool.false_eq_true, if_false]
  rfl

theorem exec_healthRead_refused {r : Requester} {s : State} (h : s.mayManage r = false) : exec (.healthRead r) s = .next s := by
  change execHealthRead r s = _
  simp only [execHealthRead, State.manage, h, Bool.not_false, if_true]

theorem length_leBytes (n x : Nat) : (leBytes n x).length = n := by simp [leBytes]

theorem length_flatMap_range {α : Type} (f : Nat → List α) {n : Nat} (hf : ∀ i, (f i).length = n) (k : Nat) :
    ((List.range k).flatMap f).length = n * k := by
  induction k with
  | zero => rfl
  | succ k ih => simp [List.range_succ, ih, hf, Nat.mul_succ]

/-- Part i of parts of equal length, laid one behind another. -/
theorem take_drop_flatMap_range {α : Type} (f : Nat → List α) {n : Nat} (hf : ∀ i, (f i).length = n) {i k : Nat} (h : i < k)
    (rest : List α) : (((List.range k).flatMap f ++ rest).drop (n * i)).take n = f i := by
  induction k generalizing rest with
  | zero => omega
  | succ k ih =>
    rw [List.range_succ, List.flatMap_append, List.flatMap_singleton, List.append_assoc]
    rcases Nat.lt_succ_iff_lt_or_eq.1 h with h | rfl
    · exact ih h (f k ++ rest)
    · rw [List.drop_left' (length_flatMap_range f hf i), List.take_left' (hf i)]

/-- The report of die d in a health read. -/
def State.dieHealth (s : State) (d : Nat) : List Byte :=
  leBytes 1 (s.die d).st.code ++ leBytes 8 (s.die d).wear ++ leBytes 8 (Config.wearMax d)

theorem State.length_dieHealth (s : State) (d : Nat) : (s.dieHealth d).length = 17 := by
  simp [dieHealth, length_leBytes]

/-- A sensor's reading in a health read. -/
def State.sensed (s : State) (i : Nat) : List Byte := leBytes 4 (Config.sensor i s.free)

/-- The flags of the cores that have halted. -/
def State.haltFlags (s : State) : List Byte := (List.range 160).map fun k => if s.haltDone k then 1 else 0

theorem State.health_eq (s : State) :
    s.health = (List.range 13).flatMap s.sensed ++ ((List.range 4).flatMap s.dieHealth ++ s.haltFlags) :=
  List.append_assoc ..

theorem State.health_dies (s : State) : s.health.drop 52 = (List.range 4).flatMap s.dieHealth ++ s.haltFlags := by
  rw [health_eq, List.drop_left' (length_flatMap_range s.sensed (fun _ => length_leBytes ..) 13)]

theorem State.health_halts (s : State) : s.health.drop 120 = s.haltFlags := by
  rw [show 120 = 52 + 68 from rfl, ← List.drop_drop, health_dies,
    List.drop_left' (length_flatMap_range s.dieHealth s.length_dieHealth 4)]

theorem State.health_sensor (s : State) {i : Nat} (h : i < 13) : (s.health.drop (4 * i)).take 4 = s.sensed i := by
  rw [health_eq, take_drop_flatMap_range s.sensed (fun _ => length_leBytes ..) h]

theorem State.health_die (s : State) {d : Nat} (h : d < 4) : (s.health.drop (52 + 17 * d)).take 17 = s.dieHealth d := by
  rw [← List.drop_drop, health_dies, take_drop_flatMap_range s.dieHealth s.length_dieHealth h]

theorem State.length_health (s : State) : s.health.length = 280 := by
  rw [health_eq, List.length_append, List.length_append, length_flatMap_range s.sensed (fun _ => length_leBytes ..),
    length_flatMap_range s.dieHealth s.length_dieHealth]
  simp [haltFlags]

theorem island_reports : Claims.island := by
  refine ⟨fun s n x => ⟨fun hr hn => ⟨_, exec_measurementExtend x hr hn, rfl, ?_, fun k hk => ?_⟩,
    exec_measurementExtend_refused x⟩, fun r s => ⟨exec_healthRead_refused, fun h => ⟨_, exec_healthRead h, rfl, ?_,
    fun i hi => ?_, ?_, fun d hd => ?_⟩⟩⟩
  · exact (Island.extend_mr ..).trans (if_pos rfl)
  · exact (Island.extend_mr ..).trans (if_neg hk)
  · exact congrArg (· + 1) s.length_health
  · rw [Nat.add_comm 1]
    exact s.health_sensor hi
  · exact s.health_halts
  · rw [show 53 + 17 * d = 52 + 17 * d + 1 by omega]
    exact s.health_die hd

/-- Settles O54: the responder answers on the transport of a request that it serves, firmware extends the registers that it is
assigned, and a health read lays out its fields one behind another. -/
theorem attestation : Obligations.Attestation := ⟨spdm_answers, island_reports⟩

end Sys2Proof.Machine

/-! SUPPORT. The die's clock, the energy budget and the energy account: boost steps and wear, refills of cores, and what metering
the cores charges. -/

namespace Sys2Proof.Machine

/-! ## Boost and wear (R17, R312) -/

theorem exec_boostStep_up {s : State} {die : Nat} {powerOk : Bool}
    (h : powerOk = true ∧ (s.die die).boost < boostCeiling (s.die die).wear (Config.wearMax die)) :
    exec (.boostStep die true powerOk) s = .next (s.modDie die fun d => d.setBoost (d.boost + 1) s.timer) := by
  change execBoostStep die true powerOk s = _
  simp only [execBoostStep, h, decide_true, Bool.and_self, if_true]

theorem exec_boostStep_capped {s : State} {die : Nat} {powerOk : Bool}
    (h : powerOk = false ∨ boostCeiling (s.die die).wear (Config.wearMax die) ≤ (s.die die).boost) :
    exec (.boostStep die true powerOk) s = .next s := by
  change execBoostStep die true powerOk s = _
  have hc : (powerOk && decide ((s.die die).boost < boostCeiling (s.die die).wear (Config.wearMax die))) = false := by
    rw [Bool.and_eq_false_iff, decide_eq_false_iff_not, Nat.not_lt]; exact h
  simp only [execBoostStep, hc, Bool.false_eq_true, if_true, if_false]

/-- A die after a wear tick. -/
def Die.worn (d : Die) (timer weight wearMax : Nat) : Die :=
  { d with
    wear := d.wear + weight, wearNs := d.boosted timer - 1000000, wearAt := timer
    boost := min d.boost (boostCeiling (d.wear + weight) wearMax) }

theorem exec_wearTick {s : State} {die : Nat} (temp : TempClass) (h : 1000000 ≤ (s.die die).boosted s.timer) :
    exec (.wearTick die temp) s =
      .next (s.modDie die fun d => d.worn s.timer (tempWeight temp) (Config.wearMax die)) := by
  change execWearTick die temp s = _
  simp only [execWearTick, if_neg (Nat.not_lt.2 h)]
  rfl

theorem exec_wearTick_early {s : State} {die : Nat} (temp : TempClass) (h : (s.die die).boosted s.timer < 1000000) :
    exec (.wearTick die temp) s = .next s := by
  change execWearTick die temp s = _
  simp only [execWearTick, if_pos h]

theorem clock_boost : Claims.clockBoost := by
  refine ⟨fun s die powerOk => ⟨fun hp hc => exec_boostStep_up ⟨hp, hc⟩, exec_boostStep_capped, rfl⟩,
    fun s die temp => ⟨fun h => ⟨_, exec_wearTick temp h, rfl, fun e he => ?_, ?_⟩, exec_wearTick_early temp⟩⟩
  · rw [State.modDie_die, if_neg he]
  · rw [State.modDie_die, if_pos rfl]
    cases temp <;> rfl

/-! ## Refills (R306) -/

/-- Changing several cores alike, each once. -/
theorem State.foldl_modCore_core (f : Core → Core) (ks : List Nat) (hn : ks.Nodup) (s : State) (j : Nat) :
    (ks.foldl (fun s k => s.modCore k f) s).core j = if j ∈ ks then f (s.core j) else s.core j := by
  induction ks generalizing s with
  | nil => simp
  | cons k ks ih =>
    rw [List.nodup_cons] at hn
    rw [List.foldl_cons, ih hn.2, modCore_core]
    by_cases hj : j = k
    · subst hj; simp [hn.1]
    · simp [hj]

theorem State.foldl_modCore_rest (f : Core → Core) (ks : List Nat) (s : State) :
    ks.foldl (fun s k => s.modCore k f) s = { s with cores := (ks.foldl (fun s k => s.modCore k f) s).cores } := by
  induction ks generalizing s with
  | nil => rfl
  | cons k ks ih => rw [List.foldl_cons, ih]; rfl

/-- Every core of a context is refilled. -/
def State.refillCtx (s : State) (e : Nat × Ctx) : State :=
  e.2.crec.cores.foldl (fun s k => s.modCore k fun c => { c with level := Machine.refill e.2 c.level }) s

/-- A core that no context of a list has keeps its level, and one that a context has is refilled once. -/
structure State.Refilled (es : SMap Ctx) (s t : State) : Prop where
  rest : t = { s with cores := t.cores }
  on   : ∀ e ∈ es, ∀ k ∈ e.2.crec.cores, t.core k = { s.core k with level := Machine.refill e.2 (s.core k).level }
  off  : ∀ k, (∀ e ∈ es, k ∉ e.2.crec.cores) → t.core k = s.core k

theorem State.refilled_refillCtx (s : State) (e : Nat × Ctx) (hn : e.2.crec.cores.Nodup) :
    State.Refilled [e] s (s.refillCtx e) := by
  have hc (k : Nat) : (s.refillCtx e).core k =
      if k ∈ e.2.crec.cores then { s.core k with level := Machine.refill e.2 (s.core k).level } else s.core k :=
    foldl_modCore_core _ _ hn s k
  refine ⟨foldl_modCore_rest .., fun e' he k hk => ?_, fun k hk => ?_⟩
  · cases List.mem_singleton.1 he
    rw [hc, if_pos hk]
  · rw [hc, if_neg (hk e (List.mem_singleton_self e))]

/-- Contexts that share no core are refilled one after another. -/
theorem State.Refilled.cons {e : Nat × Ctx} {es : SMap Ctx} {s r t : State} (h : State.Refilled [e] s r)
    (h' : State.Refilled es r t) (hd : ∀ e' ∈ es, ∀ k ∈ e'.2.crec.cores, k ∉ e.2.crec.cores) :
    State.Refilled (e :: es) s t where
  rest := by
    have x := h'.rest
    rw [h.rest] at x
    exact x
  on e' he k hk := by
    rcases List.mem_cons.1 he with rfl | he
    · rw [h'.off k fun e2 h2 hk2 => hd e2 h2 k hk2 hk, h.on e' (List.mem_singleton_self e') k hk]
    · rw [h'.on e' he k hk, h.off k fun e2 h2 hk2 => hd e' he k hk (List.mem_singleton.1 h2 ▸ hk2)]
  off k hk := by
    rw [h'.off k fun e' he => hk e' (List.mem_cons_of_mem _ he),
      h.off k fun e' he => hk e' (List.mem_singleton.1 he ▸ List.mem_cons_self ..)]

theorem State.refilled_foldl (es : SMap Ctx) (hn : (es.flatMap fun e => e.2.crec.cores).Nodup) (s : State) :
    State.Refilled es s (es.foldl State.refillCtx s) := by
  induction es generalizing s with
  | nil => exact ⟨rfl, by simp, fun _ _ => rfl⟩
  | cons e es ih =>
    rw [List.flatMap_cons, List.nodup_append] at hn
    obtain ⟨he, hes, hd⟩ := hn
    exact (refilled_refillCtx s e he).cons (ih hes _) fun e' he' k hk hk1 =>
      hd k hk1 k (List.mem_flatMap.2 ⟨e', he', hk⟩) rfl

/-- The contexts that are resident and not saved. -/
def State.resident (s : State) : SMap Ctx := s.ctxs.filter fun e => !e.2.saved

theorem State.mem_resident {s : State} {e : Nat × Ctx} : e ∈ s.resident ↔ e ∈ s.ctxs ∧ e.2.saved = false := by
  simp [resident]

theorem exec_budgetRefill {s : State} (h : s.budgetAt / 1000 < s.timer / 1000) :
    exec .budgetRefill s =
      .next (s.resident.foldl State.refillCtx { s with budgetAt := (s.budgetAt / 1000 + 1) * 1000 }) := by
  change execBudgetRefill s = _
  simp only [execBudgetRefill, if_neg (Nat.not_le.2 h)]
  rfl

theorem exec_budgetRefill_early {s : State} (h : s.timer / 1000 ≤ s.budgetAt / 1000) : exec .budgetRefill s = .next s := by
  change execBudgetRefill s = _
  simp only [execBudgetRefill, if_pos h]

/-! ## Metering (R313) -/

/-- What metering some cores changes: their uses are charged to their contexts or to the system account, and none is left. -/
structure State.Metered (ks : List Nat) (s t : State) : Prop where
  rest   : t = { s with cores := t.cores, ctxs := t.ctxs, sysFj := t.sysFj }
  core   : ∀ k, t.core k = if k ∈ ks then { s.core k with events := [], luClocks := 0, idleFrom := s.timer } else s.core k
  sys    : s.sysFj ≤ t.sysFj
  listed : ∀ c, (mfind t.ctxs c).isSome = (mfind s.ctxs c).isSome
  fine   : ∀ c, (s.ctx c).fineFj ≤ (t.ctx c).fineFj
  ctx    : ∀ c, t.ctx c = { s.ctx c with fineFj := (t.ctx c).fineFj }

/-- A charge raises the total of its context and nothing else. -/
theorem State.charge_ctx (s : State) (x fj c : Nat) :
    (s.ctx c).fineFj ≤ ((s.charge x fj).ctx c).fineFj ∧
      (s.charge x fj).ctx c = { s.ctx c with fineFj := ((s.charge x fj).ctx c).fineFj } := by
  by_cases hx : (mfind s.ctxs x).isSome
  · rw [charge, modCtx_ctx _ _ _ _ hx]
    split
    · subst c; exact ⟨Nat.le_add_right .., rfl⟩
    · exact ⟨Nat.le_refl _, rfl⟩
  · have h : s.charge x fj = s := by
      simp only [charge, modCtx, mmod]
      cases hf : mfind s.ctxs x with
      | none => rfl
      | some _ => simp [hf] at hx
    rw [h]
    exact ⟨Nat.le_refl _, rfl⟩

theorem State.metered_meterCore (s : State) (k : Nat) : State.Metered [k] s (s.meterCore k) := by
  have hc (j : Nat) : (s.modCore k fun c => { c with events := [], luClocks := 0, idleFrom := s.timer }).core j =
      if j ∈ [k] then { s.core j with events := [], luClocks := 0, idleFrom := s.timer } else s.core j := by
    rw [modCore_core]
    by_cases hj : j = k
    · subst hj; simp
    · simp [hj]
  simp only [meterCore]
  cases (s.core k).owner with
  | some x =>
    exact ⟨rfl, hc, Nat.le_refl _, fun c => mfind_mmod_isSome ..,
      fun c => (charge_ctx (s.modCore k _) x _ c).1, fun c => (charge_ctx (s.modCore k _) x _ c).2⟩
  | none => exact ⟨rfl, hc, Nat.le_add_right .., fun _ => rfl, fun _ => Nat.le_refl _, fun _ => rfl⟩

theorem State.Metered.cons {k : Nat} {ks : List Nat} {s r t : State} (h : State.Metered [k] s r) (h' : State.Metered ks r t) :
    State.Metered (k :: ks) s t where
  rest := by
    have e := h'.rest
    rw [h.rest] at e
    exact e
  core j := by
    have ht : r.timer = s.timer := by rw [h.rest]
    rw [h'.core, h.core, ht]
    by_cases hk : j = k
    · subst hk
      by_cases hj : j ∈ ks <;> simp [hj]
    · simp [hk]
  sys := Nat.le_trans h.sys h'.sys
  listed c := (h'.listed c).trans (h.listed c)
  fine c := Nat.le_trans (h.fine c) (h'.fine c)
  ctx c := by
    have e := h'.ctx c
    rw [h.ctx c] at e
    exact e

theorem State.metered_foldl (ks : List Nat) (s : State) : State.Metered ks s (ks.foldl State.meterCore s) := by
  induction ks generalizing s with
  | nil => exact ⟨rfl, by simp, Nat.le_refl _, fun _ => rfl, fun _ => Nat.le_refl _, fun _ => rfl⟩
  | cons k ks ih => exact (metered_meterCore s k).cons (ih _)

/-- What a map holds at a listed key after every value has been changed, each by its key and place. -/
theorem mget_map_zipIdx {α β : Type} (d : β) (f : Nat → α → Nat → β) (m : SMap α) {c : Nat} {x : α} (h : mfind m c = some x) :
    ∀ n, ∃ i, mget d ((m.zipIdx n).map fun e => (e.1.1, f e.1.1 e.1.2 e.2)) c = f c x i := by
  induction m with
  | nil => simp [mfind] at h
  | cons e m ih =>
    intro n
    obtain ⟨k, y⟩ := e
    simp only [List.zipIdx_cons, List.map_cons, mget]
    by_cases hk : c = k
    · subst hk
      obtain rfl : y = x := by simpa [mfind] using h
      exact ⟨n, if_pos rfl⟩
    · obtain ⟨i, hi⟩ := ih (by simpa [mfind, hk] using h) (n + 1)
      exact ⟨i, by simpa only [if_neg hk] using hi⟩

/-- The state after an energy update, from the state `r` in which the cores of `s` have been metered. -/
def State.energized (s r : State) : State :=
  { r with
    energyAt := (s.energyAt / 1000000 + 1) * 1000000
    free := s.free + 8 * s.ctxs.length + 1
    sysFj := r.sysFj + Config.refreshFj (s.free + 8 * s.ctxs.length)
    ctxs := r.ctxs.zipIdx.map fun e =>
      (e.1.1, e.1.2.addEnergy (mget {} s.mem.moved e.1.1) (s.ran e.1.2) (s.free + 8 * e.2)) }

theorem exec_energyUpdate {s : State} (h : s.energyAt / 1000000 < s.timer / 1000000) :
    exec .energyUpdate s = .next (s.energized ((List.range 160).foldl State.meterCore s)) := by
  change execEnergyUpdate s = _
  simp only [execEnergyUpdate, if_neg (Nat.not_le.2 h), State.energized]

theorem exec_energyUpdate_early {s : State} (h : s.timer / 1000000 ≤ s.energyAt / 1000000) :
    exec .energyUpdate s = .next s := by
  change execEnergyUpdate s = _
  simp only [execEnergyUpdate, if_pos h]

section
variable {ks : List Nat} {s r : State}

theorem State.Metered.energized_rest (h : State.Metered ks s r) : s.energized r = { s with
    ctxs := (s.energized r).ctxs, cores := (s.energized r).cores, energyAt := (s.energized r).energyAt
    free := (s.energized r).free, sysFj := (s.energized r).sysFj } := by
  rw [h.rest]
  rfl

theorem State.Metered.energized_ctx (h : State.Metered ks s r) {c : Nat} (hc : (mfind s.ctxs c).isSome) :
    (s.ctx c).fineFj ≤ ((s.energized r).ctx c).fineFj ∧ (s.energized r).ctx c = { s.ctx c with
      fineFj := ((s.energized r).ctx c).fineFj, movedWas := mget {} s.mem.moved c
      energy := ((s.energized r).ctx c).fineFj / 10 ^ 12 % 2 ^ 64 } := by
  obtain ⟨x, hx⟩ := Option.isSome_iff_exists.1 ((h.listed c).trans hc)
  obtain ⟨i, hi⟩ := mget_map_zipIdx {} (fun c x i => x.addEnergy (mget {} s.mem.moved c) (s.ran x) (s.free + 8 * i))
    r.ctxs hx 0
  obtain rfl : r.ctx c = x := by rw [State.ctx, mget_eq_mfind, hx]; rfl
  have he : (s.energized r).ctx c =
      (r.ctx c).addEnergy (mget {} s.mem.moved c) (s.ran (r.ctx c)) (s.free + 8 * i) := hi
  have hx := h.ctx c
  rw [he]
  refine ⟨Nat.le_trans (h.fine c) (Nat.le_add_right ..), ?_⟩
  rw [hx]
  rfl

theorem State.Metered.energized_core (h : State.Metered (List.range 160) s r) {k : Nat} (hk : k < 160) :
    (s.energized r).core k = { s.core k with events := [], luClocks := 0, idleFrom := s.timer } :=
  (h.core k).trans (if_pos (List.mem_range.2 hk))

theorem State.Metered.energized_sys (h : State.Metered ks s r) : s.sysFj ≤ (s.energized r).sysFj :=
  Nat.le_trans h.sys (Nat.le_add_right ..)

end

theorem budget_energy : Claims.budgetEnergy := by
  refine ⟨fun s h hn => ?_, fun s => exec_budgetRefill_early, fun s h => ?_, fun s => exec_energyUpdate_early⟩
  · have hr := State.refilled_foldl s.resident hn { s with budgetAt := (s.budgetAt / 1000 + 1) * 1000 }
    refine ⟨_, exec_budgetRefill h, ?_, ?_, fun e he hs k hk => hr.on e (State.mem_resident.2 ⟨he, hs⟩) k hk,
      fun k hk => hr.off k fun e he => ?_⟩
    · have e := hr.rest
      generalize List.foldl State.refillCtx _ _ = t at e ⊢
      rw [e]
    · rw [hr.rest]
    · obtain ⟨hm, hs⟩ := State.mem_resident.1 he
      exact hk e hm hs
  · have hm := State.metered_foldl (List.range 160) s
    have hx := exec_energyUpdate h
    generalize (List.range 160).foldl State.meterCore s = r at hm hx
    exact ⟨_, hx, hm.energized_rest, hm.energized_sys, fun _ => hm.energized_core, rfl, fun _ => hm.energized_ctx⟩

/-- Settles O48: a boost step and a wear tick change their die alone, a refill every core of a resident context once, and an
energy update charges what was used since the last. -/
theorem clocksEnergy : Obligations.ClocksEnergy := ⟨clock_boost, budget_energy⟩

end Sys2Proof.Machine

/-! SUPPORT. What the checks of stored forms keep: which banks are fenced, where no row's remap entry is lost in both copies, and
that they do not look at releases or at parties outside the device. -/

namespace Sys2Proof.Machine

open Claims (RowsKnown)

/-! ## Fenced banks (R375, R376) -/

/-- Where no remap entry is lost in both copies, none is afterwards, and the same banks are fenced. -/
structure State.RowsKept (s r : State) : Prop where
  known : RowsKnown s → RowsKnown r
  fence : RowsKnown s → ∀ c, (r.chan c).fence = (s.chan c).fence
  fw    : r.island.fw = s.island.fw

theorem State.RowsKept.refl (s : State) : State.RowsKept s s := ⟨id, fun _ _ => rfl, rfl⟩

theorem State.RowsKept.trans {s r t : State} (h : State.RowsKept s r) (h' : State.RowsKept r t) : State.RowsKept s t :=
  ⟨fun x => h'.known (h.known x), fun x c => (h'.fence (h.known x) c).trans (h.fence x c), h'.fw.trans h.fw⟩

theorem State.RowsKept.discards {s r : State} (h : State.RowsKept s r) (hk : RowsKnown s) (l : Nat) :
    r.discards l = s.discards l := by
  have hf := h.fence hk (physRM l).chan
  simp only [State.chan] at hf
  simp only [State.discards, State.fenced, h.fw, hf]

/-- What leaves the remap entries and the channels alone. -/
theorem State.RowsKept.of_eq {s r : State} (ht : r.mem.tables = s.mem.tables) (hc : r.chans = s.chans)
    (hw : r.island.fw = s.island.fw) : State.RowsKept s r :=
  ⟨fun x k => by rw [ht]; exact x k, fun _ _ => by simp only [State.chan, hc], hw⟩

/-- A channel changes, but not in the banks that it fences. -/
theorem State.rowsKept_chan (s : State) (k : Nat) (c : Chan) (h : c.fence = (mget {} s.chans k).fence) :
    State.RowsKept s { s with chans := mset {} s.chans k c } := by
  refine ⟨id, fun _ j => ?_, rfl⟩
  simp only [State.chan, mget_mset]
  split
  · subst j; exact h
  · rfl

theorem State.rowsKept_modEcc (s : State) (d : Nat) (f : EccLog → EccLog) : State.RowsKept s (s.modEcc d f) := .of_eq rfl rfl rfl

theorem State.rowsKept_report (s : State) (d : Nat) (x : EccReport) : State.RowsKept s (s.report d x) := rowsKept_modEcc ..

theorem State.rowsKept_countCorr (s : State) (l : Nat) : State.RowsKept s (s.countCorr l) := rowsKept_modEcc ..

theorem State.rowsKept_countStack (s : State) (l : Nat) : State.RowsKept s (s.countStack l) := by
  unfold countStack; exact rowsKept_modEcc ..

theorem State.rowsKept_setCol (s : State) (k : Nat) (c : ColSt) : State.RowsKept s (s.setCol k c) := .of_eq rfl rfl rfl

theorem State.rowsKept_setSector (s : State) (u : Nat) (c : ColSt) : State.RowsKept s (s.setSector u c) := .of_eq rfl rfl rfl

theorem State.rowsKept_logErr (s : State) (p : Phys) (a b : Nat) (i f : Bool) : State.RowsKept s (s.logErr p a b i f) := by
  unfold logErr
  exact (rowsKept_chan s p.chan ((mget {} s.chans p.chan).record p a b i f) rfl).trans (rowsKept_modEcc ..)

theorem State.rowsKept_applyInj (s : State) (p : Phys) : State.RowsKept s (s.applyInj p) := by
  unfold applyInj
  dsimp only
  split
  · exact (rowsKept_chan s p.chan { mget {} s.chans p.chan with inj := 0 } rfl).trans (rowsKept_setCol ..)
  · exact .refl _

/-- A remap entry is written anew. -/
theorem State.rowsKept_fresh (s : State) (k : Nat) :
    State.RowsKept s { s with mem := { s.mem with tables := mset (.clean, .clean) s.mem.tables k (.clean, .clean) } } := by
  refine ⟨fun x j => ?_, fun _ _ => rfl, rfl⟩
  simp only [mget_mset]
  split
  · rfl
  · exact x j

theorem State.rowsKept_activate (s : State) (p : Phys) (src : Nat) : State.RowsKept s (s.activate p src) := by
  unfold activate
  split
  · exact .refl _
  · dsimp only
    split
    next h =>
      exact ⟨fun x => (Bool.false_ne_true ((x p.rowKey).symm.trans h)).elim,
        fun x => (Bool.false_ne_true ((x p.rowKey).symm.trans h)).elim, rfl⟩
    next =>
      split
      · exact (rowsKept_fresh ..).trans (rowsKept_logErr ..)
      · split
        · exact .refl _
        · exact rowsKept_fresh ..

theorem State.rowsKept_touch (s : State) (p : Phys) (src : Nat) : State.RowsKept s (s.touch p src) := by
  unfold touch
  dsimp only
  split
  · exact rowsKept_activate ..
  · exact (rowsKept_activate ..).trans (rowsKept_applyInj ..)

theorem State.rowsKept_readPartner (s : State) (q : Phys) (src : Nat) : State.RowsKept s (s.readPartner q src).1 := by
  refine (rowsKept_touch s q src).trans ?_
  unfold readPartner
  dsimp only
  generalize s.touch q src = s1
  split
  · exact .refl _
  · split
    · exact (rowsKept_setCol ..).trans (rowsKept_logErr ..)
    · exact rowsKept_logErr ..
    · exact (rowsKept_setCol ..).trans (rowsKept_logErr ..)
    · exact .refl _

/-- A fold that gathers an answer beside the state. -/
theorem State.RowsKept.gather {α β : Type} (xs : List α) (f : State × β → α → State × β)
    (h : ∀ a x, State.RowsKept a.1 (f a x).1) : ∀ a, State.RowsKept a.1 (xs.foldl f a).1 := by
  induction xs with
  | nil => exact fun a => .refl _
  | cons x xs ih => exact fun a => (h a x).trans (ih _)

theorem State.rowsKept_partners (s : State) (p : Phys) (src : Nat) : State.RowsKept s (s.partnersOk p src).1 :=
  State.RowsKept.gather p.partners
    (fun acc q =>
      let (s1, ok) := acc.1.readPartner q src
      (s1, acc.2 && ok)) (fun a q => rowsKept_readPartner a.1 q src) (s, true)

theorem State.rowsKept_rebuildOnly (s : State) (p : Phys) (src : Nat) : State.RowsKept s (s.rebuildOnly p src).1 := by
  refine (rowsKept_partners s p src).trans ?_
  unfold rebuildOnly
  dsimp only
  split <;> exact rowsKept_logErr ..

theorem State.rowsKept_checkIL (s : State) (p : Phys) (src : Nat) : State.RowsKept s (s.checkIL p src).1 := by
  refine (rowsKept_touch s p src).trans ?_
  unfold checkIL
  dsimp only
  generalize s.touch p src = s1
  split
  · exact rowsKept_logErr ..
  · split
    · exact rowsKept_rebuildOnly ..
    · exact (rowsKept_setCol ..).trans (rowsKept_logErr ..)
  · refine (rowsKept_partners s1 p src).trans ?_
    split <;> exact (rowsKept_setCol ..).trans (rowsKept_logErr ..)
  · split
    · exact rowsKept_rebuildOnly ..
    · exact .refl _

theorem State.rowsKept_checkRM (s : State) (p : Phys) (src : Nat) : State.RowsKept s (s.checkRM p src).1 := by
  refine (rowsKept_touch s p src).trans ?_
  unfold checkRM
  dsimp only
  generalize s.touch p src = s1
  split
  · exact .refl _
  · split
    · exact rowsKept_logErr ..
    · exact (rowsKept_setCol ..).trans (rowsKept_logErr ..)
    · exact (rowsKept_setCol ..).trans (rowsKept_logErr ..)
    · exact .refl _

theorem State.rowsKept_checkCol (s : State) (src l : Nat) : State.RowsKept s (s.checkCol src l).1 := by
  unfold checkCol
  split
  · exact rowsKept_checkRM ..
  · exact rowsKept_checkIL ..

theorem State.rowsKept_checkSector (s : State) (u : Nat) : State.RowsKept s (s.checkSector u).1 := by
  unfold checkSector
  split
  · exact .refl _
  · exact .refl _
  · exact (rowsKept_setSector ..).trans (rowsKept_countStack ..)
  · split
    · exact (rowsKept_setSector ..).trans (rowsKept_report ..)
    · exact (rowsKept_setSector ..).trans (rowsKept_countStack ..)

theorem State.rowsKept_checkRead (s : State) (src l : Nat) : State.RowsKept s (s.checkRead src l).1 := by
  unfold checkRead
  split
  · have h := rowsKept_checkSector s l
    split <;> rename_i e <;> rw [e] at h
    · exact h
    · exact h.trans (rowsKept_checkCol ..)
  · dsimp only
    split
    · exact .refl _
    · exact .refl _
    · exact (rowsKept_setCol ..).trans (rowsKept_countCorr ..)
    · exact (rowsKept_setCol ..).trans (rowsKept_report ..)

theorem State.rowsKept_checkWrite (s : State) (src l : Nat) (f : Bool) : State.RowsKept s (s.checkWrite src l f) := by
  have h0 : State.RowsKept s (if f = true then s.setSector l .clean else (s.checkSector l).1) := by
    split
    · exact rowsKept_setSector ..
    · exact rowsKept_checkSector ..
  unfold checkWrite
  dsimp only
  split
  · generalize (if f = true then s.setSector l .clean else (s.checkSector l).1) = s0 at h0 ⊢
    have h1 (p : Phys) (k : Nat) :
        State.RowsKept s0 (if f = true then (s0.touch p src).setCol k .clean else (s0.checkCol src l).1) := by
      split
      · exact (rowsKept_touch ..).trans (rowsKept_setCol ..)
      · exact rowsKept_checkCol ..
    split
    · exact h0.trans (h1 ..)
    · exact (h0.trans (h1 ..)).trans (rowsKept_checkIL ..)
  · split
    · exact rowsKept_setCol ..
    · exact .refl _

theorem State.rowsKept_checkReads (s : State) (src : Nat) (ls : List Nat) : State.RowsKept s (s.checkReads src ls).1 :=
  State.RowsKept.gather (unitsOf ls)
    (fun acc u =>
      let (s1, bad) := acc.1.checkRead src u
      (s1, if bad then acc.2 ++ [u] else acc.2)) (fun a u => rowsKept_checkRead a.1 src u) (s, [])

theorem State.rowsKept_checkWrites (s : State) (src : Nat) (ls : List Nat) : State.RowsKept s (s.checkWrites src ls) := by
  unfold checkWrites
  induction unitsOf ls generalizing s with
  | nil => exact .refl _
  | cons u us ih => exact (rowsKept_checkWrite s src u _).trans (ih _)

/-! ## Releases and parties outside do not matter to a check -/

/-- A state with other releases, another next name and other parties outside the device. -/
def State.noting (s : State) (n : Nat) (qs : SMap HostQ) (m : SMap Rel) : State :=
  { s with nextId := n, hostQs := qs, mem := { s.mem with rels := m } }

section
variable (s : State) (n : Nat) (qs : SMap HostQ) (m : SMap Rel)

theorem State.noting_fenced (p : Phys) : (s.noting n qs m).fenced p = s.fenced p := rfl

theorem State.noting_redirected (p : Phys) : (s.noting n qs m).redirected p = s.redirected p := rfl

theorem State.noting_colSt (k : Nat) : (s.noting n qs m).colSt k = s.colSt k := rfl

theorem State.noting_mayBeDirty (u : Nat) : (s.noting n qs m).mayBeDirty u = s.mayBeDirty u := rfl

theorem State.noting_ite (c : Prop) [Decidable c] (x y : State) :
    (if c then x else y).noting n qs m = if c then x.noting n qs m else y.noting n qs m :=
  apply_ite (fun x : State => x.noting n qs m) ..

theorem State.noting_applyInj (p : Phys) : (s.noting n qs m).applyInj p = (s.applyInj p).noting n qs m := by
  unfold applyInj
  simp only [noting_ite]
  rfl

theorem State.noting_activate (p : Phys) (src : Nat) :
    (s.noting n qs m).activate p src = (s.activate p src).noting n qs m := by
  unfold activate
  simp only [noting_ite]
  rfl

theorem State.noting_touch (p : Phys) (src : Nat) : (s.noting n qs m).touch p src = (s.touch p src).noting n qs m := by
  unfold touch
  simp only [noting_activate, noting_applyInj, noting_fenced, noting_redirected, noting_ite]

/-- An answer with its state so changed. -/
def State.notingIn {β : Type} (x : State × β) (n : Nat) (qs : SMap HostQ) (m : SMap Rel) : State × β := (x.1.noting n qs m, x.2)

theorem State.notingIn_ite {β : Type} (c : Prop) [Decidable c] (x y : State × β) :
    notingIn (if c then x else y) n qs m = if c then notingIn x n qs m else notingIn y n qs m :=
  apply_ite (fun x : State × β => notingIn x n qs m) ..

theorem State.noting_readPartner (q : Phys) (src : Nat) :
    (s.noting n qs m).readPartner q src = notingIn (s.readPartner q src) n qs m := by
  unfold readPartner
  simp only [noting_touch, noting_fenced, noting_redirected, noting_colSt, notingIn_ite]
  cases (s.touch q src).colSt q.key <;> rfl

/-- A fold that gathers an answer beside the state, step by step. -/
theorem State.noting_gather {α β : Type} (xs : List α) (f : State × β → α → State × β)
    (h : ∀ a x, f (notingIn a n qs m) x = notingIn (f a x) n qs m) :
    ∀ a, xs.foldl f (notingIn a n qs m) = notingIn (xs.foldl f a) n qs m := by
  induction xs with
  | nil => exact fun _ => rfl
  | cons x xs ih => exact fun a => by rw [List.foldl_cons, h, ih, List.foldl_cons]

theorem State.noting_partnersOk (p : Phys) (src : Nat) :
    (s.noting n qs m).partnersOk p src = notingIn (s.partnersOk p src) n qs m :=
  noting_gather n qs m p.partners
    (fun acc q =>
      let (s1, ok) := acc.1.readPartner q src
      (s1, acc.2 && ok))
    (fun a q => by simp only [notingIn, noting_readPartner]) (s, true)

theorem State.noting_rebuildOnly (p : Phys) (src : Nat) :
    (s.noting n qs m).rebuildOnly p src = notingIn (s.rebuildOnly p src) n qs m := by
  unfold rebuildOnly
  simp only [noting_partnersOk, notingIn_ite]
  rfl

theorem State.noting_checkIL (p : Phys) (src : Nat) :
    (s.noting n qs m).checkIL p src = notingIn (s.checkIL p src) n qs m := by
  unfold checkIL
  simp only [noting_touch, noting_fenced, noting_redirected, noting_colSt, noting_rebuildOnly, noting_partnersOk]
  cases (s.touch p src).colSt p.key with
  | poison => rfl
  | single | unc | clean => simp only [notingIn_ite]; rfl

theorem State.noting_checkRM (p : Phys) (src : Nat) :
    (s.noting n qs m).checkRM p src = notingIn (s.checkRM p src) n qs m := by
  unfold checkRM
  simp only [noting_touch, noting_fenced, noting_colSt, notingIn_ite]
  cases (s.touch p src).colSt p.key <;> rfl

theorem State.noting_checkCol (src l : Nat) : (s.noting n qs m).checkCol src l = notingIn (s.checkCol src l) n qs m := by
  unfold checkCol
  simp only [noting_checkRM, noting_checkIL, notingIn_ite]
  rfl

theorem State.noting_checkSector (u : Nat) : (s.noting n qs m).checkSector u = notingIn (s.checkSector u) n qs m := by
  have hs : (s.noting n qs m).mem.sectors = s.mem.sectors := rfl
  unfold checkSector
  simp only [hs, noting_mayBeDirty]
  cases mget .clean s.mem.sectors (u / 32) with
  | clean | poison | single => rfl
  | unc => simp only [notingIn_ite]; rfl

theorem State.noting_checkRead (src l : Nat) : (s.noting n qs m).checkRead src l = notingIn (s.checkRead src l) n qs m := by
  have hw : (s.noting n qs m).island.fw = s.island.fw := rfl
  unfold checkRead
  simp only [hw, noting_colSt, noting_checkSector, notingIn_ite]
  congr 1
  · obtain ⟨s1, bad⟩ := s.checkSector l
    cases bad
    · exact noting_checkCol s1 n qs m src l
    · rfl
  · cases s.colSt (colKey s.island.fw l) <;> rfl

/-- A check of a read finds what it does whatever is released and whoever is outside. -/
theorem State.noting_checkReads (src : Nat) (ls : List Nat) :
    (s.noting n qs m).checkReads src ls = notingIn (s.checkReads src ls) n qs m :=
  noting_gather n qs m (unitsOf ls)
    (fun acc u =>
      let (s1, bad) := acc.1.checkRead src u
      (s1, if bad then acc.2 ++ [u] else acc.2))
    (fun a u => by simp only [notingIn, noting_checkRead]) (s, [])

end

end Sys2Proof.Machine

/-! SUPPORT. Accesses at their homes where no core holds update-only lines: the bytes that a write leaves, and the newest bytes
that a read gives. -/

namespace Sys2Proof.Machine

open Claims (RowsKnown NoULines)

/-! ## Floors -/

/-- Raising floors lowers none. -/
theorem le_raiseTo (ps : List (Nat × Nat)) (fl : SMap Nat) (l : Nat) : mget 0 fl l ≤ mget 0 (raiseTo fl ps) l := by
  induction ps generalizing fl with
  | nil => exact Nat.le_refl _
  | cons p ps ih =>
    refine Nat.le_trans ?_ (ih (mset 0 fl p.1 (Nat.max (mget 0 fl p.1) p.2)))
    rw [mget_mset]
    split
    · subst l; exact Nat.le_max_left ..
    · exact Nat.le_refl _

/-- A raised floor is at or above every position that it was raised to. -/
theorem pos_le_raiseTo {ps : List (Nat × Nat)} {l p : Nat} (h : (l, p) ∈ ps) (fl : SMap Nat) :
    p ≤ mget 0 (raiseTo fl ps) l := by
  induction ps generalizing fl with
  | nil => cases h
  | cons x ps ih =>
    rcases List.mem_cons.1 h with rfl | h
    · refine Nat.le_trans ?_ (le_raiseTo ps _ l)
      rw [mget_mset_self]
      exact Nat.le_max_right ..
    · exact ih h _

/-- An acquire lowers no floor. -/
theorem Mem.le_acquired (m : Mem) (place : Nat) (sc : MScope) (seen : List Nat) (fl : SMap Nat) (l : Nat) :
    mget 0 fl l ≤ mget 0 (m.acquired place sc seen fl) l := by
  unfold acquired
  induction seen generalizing fl with
  | nil => exact Nat.le_refl _
  | cons id ids ih =>
    refine Nat.le_trans ?_ (ih _)
    dsimp only
    split
    · exact Nat.le_refl _
    · split
      · exact le_raiseTo ..
      · exact Nat.le_refl _

theorem le_foldl_max (f : Nat → Nat) (ls : List Nat) (a : Nat) : a ≤ ls.foldl (fun acc l => Nat.max acc (f l)) a := by
  induction ls generalizing a with
  | nil => exact Nat.le_refl _
  | cons x xs ih => exact Nat.le_trans (Nat.le_max_left ..) (ih _)

theorem le_maxFloor (fl : SMap Nat) {ls : List Nat} {l : Nat} (h : l ∈ ls) : mget 0 fl l ≤ maxFloor fl ls := by
  suffices hs : ∀ a, mget 0 fl l ≤ ls.foldl (fun acc l => Nat.max acc (mget 0 fl l)) a from hs 0
  intro a
  induction ls generalizing a with
  | nil => cases h
  | cons x xs ih =>
    rcases List.mem_cons.1 h with rfl | h
    · exact Nat.le_trans (Nat.le_max_right ..) (le_foldl_max ..)
    · exact ih h _

/-! ## The newest writes (R276) -/

theorem atCut_newest {cut : Nat} {v : Nat × Byte} (h : v.1 ≤ cut) (vs : List (Nat × Byte)) : atCut cut (v :: vs) = v := by
  cases vs with
  | nil => rfl
  | cons => exact if_pos h

section
variable {m : Mem} {fl : SMap Nat} {ls : List Nat}

/-- Where the floors are at the newest writes, a read is cut at or above them. -/
theorem Mem.pos_le_cutOf (h : ∀ l ∈ ls, m.pos l ≤ mget 0 fl l) (free : Nat) {l : Nat} (hl : l ∈ ls) :
    m.pos l ≤ m.cutOf fl free ls := by
  have hm : ∀ x ∈ ls, m.pos x ≤ maxFloor fl ls := fun x hx => Nat.le_trans (h x hx) (le_maxFloor fl hx)
  have ha : (ls.all fun l => m.pos l ≤ maxFloor fl ls) = true := by simpa using hm
  simp only [cutOf, ha, if_true]
  exact hm l hl

theorem inWindow_above {w : Nat × Option Nat} {p c : Nat} (hw : ∀ n, w.2 = some n → p < n) (hc : p ≤ c) : p ≤ inWindow w c := by
  obtain ⟨lo, hi⟩ := w
  cases hi with
  | none => exact Nat.le_trans hc (Nat.le_max_left ..)
  | some n =>
    have := hw n rfl
    exact Nat.le_min.2 ⟨Nat.le_trans hc (Nat.le_max_left ..), Nat.le_sub_one_of_lt this⟩

/-- No sweep that a read does not see comes before the newest writes. -/
theorem Mem.pos_lt_sweepWindow (h : ∀ l ∈ ls, m.pos l ≤ mget 0 fl l) (free row : Nat) {n : Nat}
    (hn : (m.sweepWindow fl free row ls).2 = some n) {l : Nat} (hl : l ∈ ls) : m.pos l < n := by
  unfold sweepWindow at hn
  split at hn
  · cases hn
  · have := List.find?_some hn
    exact Nat.lt_of_le_of_lt (pos_le_cutOf h free hl) (of_decide_eq_true this)

theorem mfind_map_keys {α : Type} (g : Nat → α) {ks : List Nat} {k : Nat} (h : k ∈ ks) :
    mfind (ks.map fun k => (k, g k)) k = some (g k) := by
  induction ks with
  | nil => cases h
  | cons j ks ih =>
    by_cases hj : k = j
    · subst hj; simp [mfind]
    · simpa [mfind, hj] using ih ((List.mem_cons.1 h).resolve_left hj)

theorem mfind_groupBy {α : Type} (key : α → Nat) {xs : List α} {x : α} (h : x ∈ xs) :
    mfind (groupBy key xs) (key x) = some (xs.filter fun y => key y == key x) :=
  mfind_map_keys (fun k => xs.filter fun y => key y == k) (List.mem_dedup.2 (List.mem_map_of_mem h))

/-- What is noted for each group, at the group of a member. -/
theorem mget_groupBy {α β : Type} (d : β) (key : α → Nat) (f : Nat → List α → Nat → β) {xs : List α} {x : α} (h : x ∈ xs) :
    ∃ i, mget d ((groupBy key xs).zipIdx.map fun g => (g.1.1, f g.1.1 g.1.2 g.2)) (key x) =
      f (key x) (xs.filter fun y => key y == key x) i :=
  mget_map_zipIdx d f _ (mfind_groupBy key h) 0

/-- What the sweeps leave to a read of locations, by row (R266). -/
def Mem.windows (m : Mem) (fl : SMap Nat) (free : Nat) (ls : List Nat) : SMap (Nat × Option Nat) :=
  if m.sweeps.isEmpty then []
  else (groupBy (· / 1024) ls).zipIdx.map fun g => (g.1.1, m.sweepWindow fl (free + ls.length + g.2) (1024 * g.1.1) g.1.2)

theorem Mem.pos_lt_windows (h : ∀ l ∈ ls, m.pos l ≤ mget 0 fl l) (free : Nat) {l : Nat} (hl : l ∈ ls) {n : Nat}
    (hn : (mget (0, none) (m.windows fl free ls) (l / 1024)).2 = some n) : m.pos l < n := by
  unfold windows at hn
  split at hn
  · cases hn
  · obtain ⟨i, hi⟩ := mget_groupBy (0, none) (· / 1024)
      (fun k xs i => m.sweepWindow fl (free + ls.length + i) (1024 * k) xs) hl
    rw [hi] at hn
    exact pos_lt_sweepWindow (fun x hx => h x (List.mem_filter.1 hx).1) _ _ hn
      (List.mem_filter.2 ⟨hl, beq_self_eq_true _⟩)

/-- A read whose floors are at the newest writes gives them (R276). -/
theorem Mem.readLocs_newest (h : ∀ l ∈ ls, m.pos l ≤ mget 0 fl l) (free : Nat) :
    m.readLocs fl free 8 ls = ls.map fun l => (l, m.pos l, m.byte l) := by
  refine List.map_congr_left fun l hl => ?_
  obtain ⟨i, hi⟩ := mget_groupBy 0 (· / 8)
    (fun k xs i => inWindow (mget (0, none) (m.windows fl free ls) (k * 8 / 1024)) (m.cutOf fl (free + i) xs)) hl
  have hp : m.pos l ≤ inWindow (mget (0, none) (m.windows fl free ls) (l / 8 * 8 / 1024))
      (m.cutOf fl (free + i) (ls.filter fun y => y / 8 == l / 8)) := by
    refine inWindow_above (fun n hn => pos_lt_windows h free hl ?_)
      (pos_le_cutOf (fun x hx => h x (List.mem_filter.1 hx).1) _ (List.mem_filter.2 ⟨hl, beq_self_eq_true _⟩))
    rwa [show l / 8 * 8 / 1024 = l / 1024 by omega] at hn
  exact congrArg (Prod.mk l) (atCut_newest (hi ▸ hp) _)

/-- The byte that a read holds at one of its locations. -/
theorem Rd.byte_map (f : Nat → Nat × Byte) (bad : List (Nat × Nat)) {l : Nat} (h : l ∈ ls) :
    ({ rs := ls.map fun l => (l, f l), bad } : Rd).byte l = (f l).2 := by
  have hf : (ls.map fun l => (l, f l)).find? (fun e => e.1 == l) = some (l, f l) := by
    induction ls with
    | nil => cases h
    | cons x xs ih =>
      by_cases hx : x = l
      · subst hx; simp
      · simpa [hx] using ih ((List.mem_cons.1 h).resolve_left (Ne.symm hx))
  simp only [Rd.byte, hf]

end

/-! ## Homes (R163, R166) -/

theorem all_isEmpty_of_noULines {s : State} (h : NoULines s) : (s.cores.all fun e => e.2.uLines.isEmpty) = true :=
  List.all_eq_true.2 fun e he => by rw [h e he]; rfl

/-- Where no core holds update-only lines there is nothing to recall (R199). -/
theorem State.recall_noULines {s : State} (h : NoULines s) (ls : List Nat) : s.recall ls = s := by
  simp only [State.recall, all_isEmpty_of_noULines h, if_true]

/-- A unit lies where its locations are. -/
theorem homeDie_unitOf (l : Nat) : homeDie (unitOf l).1 = homeDie l := by
  unfold unitOf isDram homeDie
  by_cases hd : l < 2 ^ 39
  · have h1 : l / 32 * 32 < 2 ^ 39 := by omega
    simp only [hd, h1, decide_true, if_true]
    omega
  · by_cases hv : l < 2 ^ 50
    · have h1 : ¬l / 64 * 64 < 2 ^ 39 := by omega
      have h2 : l / 64 * 64 < 2 ^ 50 := by omega
      simp only [hd, hv, h1, h2, decide_false, Bool.false_eq_true, if_true, if_false]
      omega
    · have h1 : ¬l / 8 * 8 < 2 ^ 39 := by omega
      have h2 : ¬l / 8 * 8 < 2 ^ 50 := by omega
      simp only [hd, hv, h1, h2, decide_false, Bool.false_eq_true, if_false]
      omega

section
variable {s : State} {ls : List Nat}

/-- No unit of locations whose homes answer lies on an offline die. -/
theorem unitsOf_online (h : ∀ l ∈ ls, s.offline (homeDie l) = false) :
    ((unitsOf ls).filter fun u => s.offline (homeDie u)) = [] := by
  refine List.filter_eq_nil_iff.2 fun u hu => ?_
  obtain ⟨l, hl, rfl⟩ := List.mem_map.1 (List.mem_dedup.1 hu)
  rw [homeDie_unitOf, h l hl]
  exact Bool.false_ne_true

theorem filter_online (h : ∀ l ∈ ls, s.offline (homeDie l) = false) :
    (ls.filter fun l => !s.offline (homeDie l)) = ls :=
  List.filter_eq_self.2 fun l hl => by rw [h l hl]; rfl

/-- What a party that is always current reads at homes that answer. -/
theorem State.peekHome_online (hu : NoULines s) (h : ∀ l ∈ ls, s.offline (homeDie l) = false) (src : Nat) :
    s.peekHome src ls = ((s.checkReads src ls).1,
      { rs := ls.map fun l => (l, s.mem.pos l, s.mem.byte l), bad := (s.checkReads src ls).2.map (·, 0) }) := by
  have hm := (checked_checkReads s src ls).mem
  simp only [peekHome, recall_noULines hu, unitsOf_online h, filter_online h, List.map_nil, List.nil_append]
  rw [hm]
  rfl

theorem State.readHome_newest (hu : NoULines s) (h : ∀ l ∈ ls, s.offline (homeDie l) = false) {fl : SMap Nat}
    (hf : ∀ l ∈ ls, s.mem.pos l ≤ mget 0 fl l) (src : Nat) :
    (s.readHome src 8 fl ls).2 =
      { rs := ls.map fun l => (l, s.mem.pos l, s.mem.byte l), bad := (s.checkReads src ls).2.map (·, 0) } := by
  have hm := (checked_checkReads s src ls).mem
  simp only [readHome, recall_noULines hu, unitsOf_online h, filter_online h, List.map_nil, List.nil_append]
  rw [Mem.readLocs_newest (m := (s.checkReads src ls).1.mem) (fl := fl) (by rw [hm]; exact hf), hm]
  rfl

/-- A read where no core holds update-only lines changes only the error state. -/
theorem State.checked_readHome (hu : NoULines s) (src n : Nat) (fl : SMap Nat) (ls : List Nat) :
    State.Checked s (s.readHome src n fl ls).1 := by
  have h := checked_checkReads s src (ls.filter fun l => !s.offline (homeDie l))
  simp only [readHome, recall_noULines hu]
  exact h.trans ⟨rfl, rfl, fun _ => rfl⟩

theorem State.checked_peekHome (hu : NoULines s) (src : Nat) (ls : List Nat) : State.Checked s (s.peekHome src ls).1 := by
  have h := checked_checkReads s src (ls.filter fun l => !s.offline (homeDie l))
  simp only [peekHome, recall_noULines hu]
  exact h

theorem State.rowsKept_peekHome (hu : NoULines s) (src : Nat) (ls : List Nat) : State.RowsKept s (s.peekHome src ls).1 := by
  have h := rowsKept_checkReads s src (ls.filter fun l => !s.offline (homeDie l))
  simp only [peekHome, recall_noULines hu]
  exact h

end

/-! ## Bytes written -/

theorem State.modWarps_rest (ws : List Nat) (f : Warp → Warp) (s : State) :
    s.modWarps ws f = { s with warps := (s.modWarps ws f).warps } := by
  unfold modWarps
  induction ws generalizing s with
  | nil => rfl
  | cons w ws ih => rw [List.foldl_cons, ih]; rfl

/-- Writing a piece puts the bytes that their banks keep into memory, and tells its warps. -/
theorem State.writePiece_rest (s : State) (wr : Writer) (rmw : Bool) (bs : List (Nat × Byte)) :
    s.writePiece wr rmw bs = { s with
      mem := s.mem.putPiece wr.rels rmw (bs.filter fun b => !s.discards b.1), warps := (s.writePiece wr rmw bs).warps } :=
  modWarps_rest ..

theorem State.writePiece_discards (s : State) (wr : Writer) (rmw : Bool) (bs : List (Nat × Byte)) (l : Nat) :
    (s.writePiece wr rmw bs).discards l = s.discards l := by
  rw [writePiece_rest]
  rfl

/-- A byte of a piece that its bank keeps is there once the piece is written. -/
theorem State.writePiece_byte_mem (s : State) (wr : Writer) (rmw : Bool) {bs : List (Nat × Byte)} (hn : (bs.map (·.1)).Nodup)
    {e : Nat × Byte} (he : e ∈ bs) (hd : s.discards e.1 = false) : (s.writePiece wr rmw bs).mem.byte e.1 = e.2 := by
  rw [writePiece_rest]
  exact Mem.putPiece_byte_mem _ _ _ _ (hn.sublist (List.filter_sublist.map _)) e
    (List.mem_filter.2 ⟨he, by rw [hd]; rfl⟩)

/-- A byte of no piece stays. -/
theorem State.writePiece_byte (s : State) (wr : Writer) (rmw : Bool) {bs : List (Nat × Byte)} {l : Nat}
    (hl : l ∉ bs.map (·.1)) : (s.writePiece wr rmw bs).mem.byte l = s.mem.byte l := by
  rw [writePiece_rest]
  exact Mem.putPiece_byte _ _ _ _ _ fun h => hl ((List.filter_sublist.map _).subset h)

/-- A byte of a write in pieces that its bank keeps is there once they are written: its own piece writes it, and no other
piece holds its location. -/
theorem State.writePieces_byte_mem (s : State) (wr : Writer) (rmw : Bool) (n : Nat) {bs : List (Nat × Byte)}
    (hn : (bs.map (·.1)).Nodup) {e : Nat × Byte} (he : e ∈ bs) (hd : s.discards e.1 = false) :
    (s.writePieces wr rmw n bs).mem.byte e.1 = e.2 := by
  unfold writePieces groupBy
  suffices h : ∀ ks : List Nat, e.1 / n ∈ ks ∨ s.mem.byte e.1 = e.2 →
      ((ks.map fun k => (k, bs.filter fun b => b.1 / n == k)).foldl (fun s g => s.writePiece wr rmw g.2) s).mem.byte e.1 = e.2 from
    h _ (.inl (List.mem_dedup.2 (List.mem_map_of_mem (f := fun b : Nat × Byte => b.1 / n) he)))
  intro ks
  induction ks generalizing s with
  | nil => exact fun h => h.resolve_left List.not_mem_nil
  | cons k ks ih =>
    intro h
    refine ih _ (by rw [writePiece_discards]; exact hd) ?_
    by_cases hk : e.1 / n = k
    · exact .inr (writePiece_byte_mem s wr rmw (hn.sublist (List.filter_sublist.map _))
        (List.mem_filter.2 ⟨he, beq_iff_eq.2 hk⟩) hd)
    · refine h.imp (fun h => (List.mem_cons.1 h).resolve_left hk) fun h => ?_
      rw [writePiece_byte]
      · exact h
      · intro hm
        obtain ⟨b, hb, hbe⟩ := List.mem_map.1 hm
        exact hk (hbe ▸ beq_iff_eq.1 (List.mem_filter.1 hb).2)

/-- A byte of a checked write, where no access fences a bank (R367, R376). -/
theorem State.performWrite_byte_mem {s : State} (hr : RowsKnown s) (wr : Writer) (rmw : Bool) (src n : Nat)
    {bs : List (Nat × Byte)} (hn : (bs.map (·.1)).Nodup) {e : Nat × Byte} (he : e ∈ bs) (hd : s.discards e.1 = false) :
    (s.performWrite wr rmw src n bs).mem.byte e.1 = e.2 :=
  writePieces_byte_mem _ wr rmw n hn he ((rowsKept_checkWrites ..).discards hr _ ▸ hd)

theorem State.performPiece_byte_mem {s : State} (hr : RowsKnown s) (wr : Writer) (rmw : Bool) (src : Nat)
    {bs : List (Nat × Byte)} (hn : (bs.map (·.1)).Nodup) {e : Nat × Byte} (he : e ∈ bs) (hd : s.discards e.1 = false) :
    (s.performPiece wr rmw src bs).mem.byte e.1 = e.2 :=
  writePiece_byte_mem _ wr rmw hn he ((rowsKept_checkWrites ..).discards hr _ ▸ hd)

theorem Mem.puts_rels (pos : Nat) (bs : List (Nat × Byte)) (m : Mem) :
    (bs.foldl (fun m b => m.put pos b.1 b.2) m).rels = m.rels := by
  induction bs generalizing m with
  | nil => rfl
  | cons b bs ih => exact ih _

/-- A write does not touch what has been released. -/
theorem State.performPiece_rels (s : State) (wr : Writer) (rmw : Bool) (src : Nat) (bs : List (Nat × Byte)) :
    (s.performPiece wr rmw src bs).mem.rels = s.mem.rels := by
  unfold performPiece
  rw [writePiece_rest]
  refine (Mem.puts_rels ..).trans ?_
  rw [(checked_checkWrites s src _).mem]

/-! ## Words and spans -/

theorem bytesOf_succ (n : Nat) (x : Word) : bytesOf (n + 1) x = x.setWidth 8 :: bytesOf n (x >>> 8) := by
  unfold bytesOf
  rw [List.range_succ_eq_map, List.map_cons, List.map_map]
  refine congrArg₂ List.cons (by ext; simp) (List.map_congr_left fun i _ => ?_)
  ext k hk
  simp only [Function.comp_apply, BitVec.getElem_extractLsb', BitVec.getLsbD_ushiftRight]
  congr 1
  omega

theorem getLsbD_ofBytes_bytesOf (n : Nat) (x : Word) (i : Nat) :
    (ofBytes (bytesOf n x)).getLsbD i = (decide (i < 8 * n) && x.getLsbD i) := by
  induction n generalizing x i with
  | zero => simp [bytesOf, ofBytes]
  | succ n ih =>
    have hc : ofBytes (bytesOf (n + 1) x) = (ofBytes (bytesOf n (x >>> 8)) <<< 8) ||| (x.setWidth 8).setWidth 64 := by
      rw [bytesOf_succ]; rfl
    rw [hc, BitVec.getLsbD_or, BitVec.getLsbD_shiftLeft, ih]
    by_cases h8 : i < 8
    · simp [h8, show i < 64 by omega, show i < 8 * (n + 1) by omega]
    · by_cases h64 : i < 64
      · simp [h8, h64, show i - 8 < 8 * n ↔ i < 8 * (n + 1) by omega, show 8 + (i - 8) = i by omega]
      · simp [h64, BitVec.getLsbD_of_ge x i (by omega)]

theorem ofBytes_bytesOf (x : Word) : ofBytes (bytesOf 8 x) = x := by
  refine BitVec.eq_of_getLsbD_eq fun i hi => ?_
  rw [getLsbD_ofBytes_bytesOf, decide_eq_true (by omega), Bool.true_and]

theorem mem_span {a n k : Nat} : k ∈ span a n ↔ a ≤ k ∧ k < a + n := by
  simp only [span, List.mem_map, List.mem_range]
  exact ⟨by rintro ⟨i, hi, rfl⟩; omega, fun h => ⟨k - a, by omega, by omega⟩⟩

theorem nodup_span (a n : Nat) : (span a n).Nodup := List.nodup_range.map fun _ _ => Nat.add_left_cancel

theorem length_span (a n : Nat) : (span a n).length = n := by simp [span]

theorem length_bytesOf (n : Nat) (x : Word) : (bytesOf n x).length = n := by simp [bytesOf]

/-- A function that pairs two lists maps the one to the other. -/
theorem map_eq_of_zip {α β : Type} {f : α → β} {xs : List α} {ys : List β} (hl : xs.length = ys.length)
    (h : ∀ e ∈ xs.zip ys, f e.1 = e.2) : xs.map f = ys := by
  induction xs generalizing ys with
  | nil => exact (List.length_eq_zero_iff.1 hl.symm).symm
  | cons x xs ih =>
    obtain _ | ⟨y, ys⟩ := ys
    · cases hl
    · exact congrArg₂ List.cons (h (x, y) (List.mem_cons_self ..))
        (ih (Nat.succ.inj hl) fun e he => h e (List.mem_cons_of_mem _ he))

/-- The bytes of an aligned word lie at one home. -/
theorem homeDie_span {l i : Nat} (h8 : l % 8 = 0) (h : i ∈ span l 8) : homeDie i = homeDie l := by
  obtain ⟨h1, h2⟩ := mem_span.1 h
  unfold homeDie
  by_cases hd : l < 2 ^ 39
  · have hi : i < 2 ^ 39 := by omega
    simp only [hd, hi, if_true]
    omega
  · by_cases hv : l < 2 ^ 50
    · have hi : i < 2 ^ 50 := by omega
      have hi' : ¬i < 2 ^ 39 := by omega
      simp only [hd, hv, hi, hi', if_true, if_false]
      omega
    · have hi : ¬i < 2 ^ 50 := by omega
      have hi' : ¬i < 2 ^ 39 := by omega
      simp only [hd, hv, hi, hi', if_false]
      omega

/-! ## Counters (R194) -/

section
variable {s : State} {l : Nat}

theorem State.counterAdd_poisoned (wr : Writer) (inc : Nat) {k : Nat} (h : (s.peekHome 0 (span l 8)).2.poison (span l 8) = some k) :
    s.counterAdd wr l inc = ((s.peekHome 0 (span l 8)).1, false, true) := by
  simp only [counterAdd, h]

/-- The value of a counter after an increment: it saturates. -/
def counterSum (old : Word) (inc : Nat) : Word :=
  if decide (2 ^ 64 ≤ old.toNat + inc) then BitVec.allOnes 64 else BitVec.ofNat 64 (old.toNat + inc)

theorem toNat_counterSum (old : Word) (inc : Nat) : (counterSum old inc).toNat = min (old.toNat + inc) (2 ^ 64 - 1) := by
  unfold counterSum
  by_cases h : 2 ^ 64 ≤ old.toNat + inc
  · rw [decide_eq_true h, if_pos rfl, BitVec.toNat_allOnes, Nat.min_eq_right (by omega)]
  · rw [decide_eq_false h, if_neg Bool.false_ne_true, BitVec.toNat_ofNat, Nat.mod_eq_of_lt (by omega), Nat.min_eq_left (by omega)]

theorem State.counterAdd_clean (wr : Writer) (inc : Nat) (h : (s.peekHome 0 (span l 8)).2.poison (span l 8) = none) :
    (s.counterAdd wr l inc).1 = (s.peekHome 0 (span l 8)).1.performPiece wr true 0
      ((span l 8).zip (bytesOf 8 (counterSum ((s.peekHome 0 (span l 8)).2.value (span l 8)) inc))) := by
  simp only [counterAdd, h, counterSum]

/-- Where no core holds update-only lines, an increment changes bytes of its counter only. -/
theorem State.traffic_increment (hu : NoULines s) (wr : Writer) (inc : Nat) :
    State.Traffic (· ∈ span l 8) s (s.counterAdd wr l inc).1 := by
  have hp := (checked_peekHome hu 0 (span l 8)).traffic (P := (· ∈ span l 8))
  cases h : (s.peekHome 0 (span l 8)).2.poison (span l 8) with
  | some k => rw [counterAdd_poisoned wr inc h]; exact hp
  | none =>
    rw [counterAdd_clean wr inc h]
    exact hp.trans (traffic_performPiece _ _ _ _ _ fun b hb => mem_zip_left hb)

theorem State.counterAdd_rels (hu : NoULines s) (wr : Writer) (inc : Nat) :
    (s.counterAdd wr l inc).1.mem.rels = s.mem.rels := by
  have hp : (s.peekHome 0 (span l 8)).1.mem.rels = s.mem.rels := by rw [(checked_peekHome hu 0 (span l 8)).mem]
  cases h : (s.peekHome 0 (span l 8)).2.poison (span l 8) with
  | some k => rw [counterAdd_poisoned wr inc h, hp]
  | none => rw [counterAdd_clean wr inc h, performPiece_rels, hp]

/-- A counter whose checks find nothing rises by the increment, saturating. -/
theorem State.counterAdd_value (hu : NoULines s) (hr : RowsKnown s) (h8 : l % 8 = 0) (ho : s.offline (homeDie l) = false)
    (hb : (s.checkReads 0 (span l 8)).2 = []) (hd : ∀ i ∈ span l 8, s.discards i = false) (wr : Writer) (inc : Nat) :
    (ofBytes ((s.counterAdd wr l inc).1.mem.peek l 8)).toNat = min ((ofBytes (s.mem.peek l 8)).toNat + inc) (2 ^ 64 - 1) := by
  have hp := peekHome_online hu (ls := span l 8) (fun i hi => by rw [homeDie_span h8 hi, ho]) 0
  rw [hb, List.map_nil] at hp
  have hv : (s.peekHome 0 (span l 8)).2.value (span l 8) = ofBytes (s.mem.peek l 8) := by
    rw [hp]
    exact congrArg ofBytes (List.map_congr_left fun i hi => Rd.byte_map _ _ hi)
  have hk := rowsKept_peekHome hu 0 (span l 8)
  rw [counterAdd_clean wr inc (by rw [hp]; rfl), hv, ← toNat_counterSum]
  refine congrArg BitVec.toNat ((congrArg ofBytes (map_eq_of_zip (by rw [length_span, length_bytesOf]) fun e he => ?_)).trans
    (ofBytes_bytesOf _))
  refine performPiece_byte_mem (hk.known hr) wr true 0 ?_ he ?_
  · rw [List.map_fst_zip (by rw [length_span, length_bytesOf])]
    exact nodup_span ..
  · rw [hk.discards hr]
    exact hd _ (mem_zip_left he)

end

end Sys2Proof.Machine

/-! SUPPORT. The fabric's links: failing flits, training, a UCIe link that goes down, and packets held for a path. -/

namespace Sys2Proof.Machine

/-! ## Ports -/

theorem State.modPort_port (s : State) (n k : Nat) (f : Port18 → Port18) :
    (s.modPort n f).port k = if k = n then f (s.port n) else s.port k := mget_mset ..

/-- A port after a failure of a flit (R381). -/
def Port18.failFlit (x : Port18) (flit timer : Nat) : Port18 :=
  if 8 ≤ mget 0 x.flits flit + 1 then { x with up := false, flits := [], downAt := timer }
  else { x with flits := mins x.flits flit (mget 0 x.flits flit + 1) }

theorem exec_girtFlitError_down {s : State} {n flit : Nat} (h : (s.port n).up = false) :
    exec (.girtFlitError ⟨n, flit⟩) s = .next s := by
  change execGirtFlitError ⟨n, flit⟩ s = _
  simp only [execGirtFlitError, h, Bool.not_false, if_true]

theorem exec_girtFlitError_up {s : State} {n flit : Nat} (h : (s.port n).up = true) :
    exec (.girtFlitError ⟨n, flit⟩) s = .next (s.modPort n fun x => x.failFlit flit s.timer) := by
  change execGirtFlitError ⟨n, flit⟩ s = _
  simp only [execGirtFlitError, h, Bool.not_true, Bool.false_eq_true, if_false, Port18.failFlit]

/-- A port after a training that brings it up (R381, R382). -/
def Port18.trainedUp (x : Port18) (partner : Nat) (full comp : Bool) : Port18 :=
  { x with up := true, partner := some partner, full, comp, flits := [], fails := 0 }

/-- A port after a training that fails (R381). -/
def Port18.trainedDown (x : Port18) (partner timer : Nat) : Port18 :=
  { x with partner := some partner, fails := x.fails + 1, down := 3 ≤ x.fails + 1
           downAt := if x.partner.isNone then timer else x.downAt }

/-- Whether a port trains: the device runs, and a port that is down, of those that the device has, is on a die that is there. -/
def State.trains (s : State) (n : Nat) : Prop :=
  s.island.boot = .running ∧ (s.port n).up = false ∧ (s.port n).down = false ∧ n < 18 ∧ s.offline (portDie n) = false

theorem State.trains_iff (s : State) (n : Nat) :
    (s.island.boot != .running || (s.port n).up || (s.port n).down || 18 ≤ n || s.offline (portDie n)) = false ↔ s.trains n := by
  simp [trains, and_assoc]

theorem exec_linkTraining_not {s : State} {n : Nat} (h : ¬s.trains n) (partner : Nat) (ok full comp : Bool) :
    exec (.linkTraining n partner ok full comp) s = .next s := by
  change execLinkTraining n partner ok full comp s = _
  rw [← s.trains_iff, Bool.not_eq_false] at h
  simp only [execLinkTraining, h, if_true]

theorem exec_linkTraining {s : State} {n : Nat} (h : s.trains n) (partner : Nat) (ok full comp : Bool) :
    exec (.linkTraining n partner ok full comp) s = .next (s.modPort n fun x =>
      if ok then x.trainedUp partner full (comp && s.island.fw.thr < 16) else x.trainedDown partner s.timer) := by
  change execLinkTraining n partner ok full comp s = _
  rw [← s.trains_iff] at h
  cases ok <;> simp only [execLinkTraining, h, Bool.false_eq_true, if_true, if_false] <;> rfl

/-! ## Ports that go down with their die -/

/-- The ports that `P` names are down; every other is as it was, and so is the rest of the device. -/
structure State.PortsShut (P : Nat → Prop) (s t : State) : Prop where
  rest : t = { s with ports := t.ports }
  on   : ∀ k, P k → (t.port k).up = false
  off  : ∀ k, ¬P k → t.port k = s.port k

theorem State.PortsShut.trans {P Q : Nat → Prop} {s r t : State} (h : State.PortsShut P s r) (h' : State.PortsShut Q r t) :
    State.PortsShut (fun k => P k ∨ Q k) s t where
  rest := by
    have e := h'.rest
    rw [h.rest] at e
    exact e
  on k hk := by
    by_cases hq : Q k
    · exact h'.on k hq
    · rw [h'.off k hq]
      exact h.on k (hk.resolve_right hq)
  off k hk := by
    rw [not_or] at hk
    rw [h'.off k hk.2, h.off k hk.1]

theorem State.PortsShut.congr {P Q : Nat → Prop} {s t : State} (h : State.PortsShut P s t) (hiff : ∀ k, P k ↔ Q k) :
    State.PortsShut Q s t :=
  ⟨h.rest, fun k hk => h.on k ((hiff k).2 hk), fun k hk => h.off k fun hp => hk ((hiff k).1 hp)⟩

theorem State.PortsShut.foldl {α : Type} {P : α → Nat → Prop} {f : State → α → State}
    (h : ∀ s x, State.PortsShut (P x) s (f s x)) (xs : List α) :
    ∀ s, State.PortsShut (fun k => ∃ x ∈ xs, P x k) s (xs.foldl f s) := by
  induction xs with
  | nil => exact fun s => ⟨rfl, by simp, fun _ _ => rfl⟩
  | cons x xs ih =>
    exact fun s => ((h s x).trans (ih (f s x))).congr fun k => by simp

theorem State.portsShut_one (s : State) (p : Nat) : State.PortsShut (· = p) s
    (if (s.port p).up then s.modPort p fun x => { x with up := false, flits := [], fails := 0, downAt := s.timer } else s) := by
  split
  next =>
    refine ⟨rfl, fun k hk => ?_, fun k hk => ?_⟩
    · rw [modPort_port, if_pos hk]
    · rw [modPort_port, if_neg hk]
  next h => exact ⟨rfl, fun k hk => hk ▸ Bool.not_eq_true _ ▸ h, fun _ _ => rfl⟩

theorem State.portsShut_portsDown (s : State) (d : Nat) :
    State.PortsShut (fun k => k < 18 ∧ portDie k = d) s (s.portsDown d) :=
  (State.PortsShut.foldl portsShut_one ((List.range 18).filter fun p => portDie p == d) s).congr fun k => by simp

/-- The ports of the dies that are off line go down with them. -/
theorem State.portsShut_offline (s : State) :
    State.PortsShut (fun k => k < 18 ∧ portDie k < 4 ∧ s.offline (portDie k) = true) s
      (((List.range 4).filter s.offline).foldl State.portsDown s) := by
  refine (State.PortsShut.foldl portsShut_portsDown ((List.range 4).filter s.offline) s).congr fun k => ?_
  simp only [List.mem_filter, List.mem_range]
  exact ⟨by rintro ⟨d, ⟨h4, ho⟩, hk, rfl⟩; exact ⟨hk, h4, ho⟩, fun ⟨hk, h4, ho⟩ => ⟨_, ⟨h4, ho⟩, hk, rfl⟩⟩

/-- A UCIe link is marked as down. -/
def State.linkDown (s : State) (n : Nat) : State := { s with links := mset false s.links n true }

theorem exec_ucieLinkDown (s : State) (n : Nat) : exec (.ucieLinkDown n) s =
    .next (((List.range 4).filter (s.linkDown n).offline).foldl State.portsDown (s.linkDown n)) := rfl

/-- Which dies are off line does not depend on the ports. -/
theorem State.PortsShut.offline {P : Nat → Prop} {s t : State} (h : State.PortsShut P s t) (d : Nat) :
    t.offline d = s.offline d := by
  rw [h.rest]
  rfl

theorem ports_links : Claims.ports := by
  refine ⟨fun s n flit => ⟨exec_girtFlitError_down, fun h => ⟨_, exec_girtFlitError_up h, rfl, fun k hk => ?_, fun h8 => ?_,
    fun h8 => ?_⟩⟩, fun s n partner ok full comp => ⟨fun h => exec_linkTraining_not (fun ht => ?_) .., fun h1 h2 h3 h4 h5 =>
    ⟨_, exec_linkTraining ⟨h1, h2, h3, h4, h5⟩ .., rfl, fun k hk => ?_, ?_, fun hok => ?_, fun hok => ?_⟩⟩, fun s n => ?_⟩
  · rw [State.modPort_port, if_neg hk]
  · rw [State.modPort_port, if_pos rfl, Port18.failFlit, if_neg (Nat.not_le.2 h8)]
    exact ⟨rfl, mget_mins_self .., fun k hk => mget_mins_ne _ _ _ hk⟩
  · rw [State.modPort_port, if_pos rfl, Port18.failFlit, if_pos h8]
  · obtain ⟨h1, h2, h3, h4, h5⟩ := ht
    simp [h1, h2, h3, h5, Nat.not_le.2 h4] at h
  · rw [State.modPort_port, if_neg hk]
  · rw [State.modPort_port, if_pos rfl]
    cases ok <;> rfl
  · rw [State.modPort_port, if_pos rfl, hok]
    exact ⟨rfl, rfl, rfl⟩
  · rw [State.modPort_port, if_pos rfl, hok]
    exact ⟨h2, rfl, rfl⟩
  · have h := (s.linkDown n).portsShut_offline
    have hl : (((List.range 4).filter (s.linkDown n).offline).foldl State.portsDown (s.linkDown n)).links =
        mset false s.links n true := by rw [h.rest]; rfl
    refine ⟨_, exec_ucieLinkDown s n, ?_, ?_, fun k hk => ?_, fun k => ⟨fun hk h4 ho => h.on k ⟨hk, h4, ?_⟩, fun ho =>
      h.off k fun hx => ?_⟩⟩
    · rw [h.rest]; rfl
    · rw [hl, mget_mset_self]
    · rw [hl, mget_mset_ne _ _ _ hk]
    · rw [← h.offline, ho]
    · rw [h.offline, hx.2.2] at ho
      cases ho

/-! ## Held packets (R381) -/

theorem State.expired_early {s : State} {partner : Nat} (h : s.timer < s.pathDownAt partner + 10000000) (f : FarAcc) :
    s.expired partner f = false := by
  rw [expired, Bool.and_eq_false_iff, decide_eq_false_iff_not, Nat.not_le]
  exact .inr (Nat.lt_of_lt_of_le h (Nat.add_le_add_right (Nat.le_max_right ..) _))

theorem State.failOp_early {s : State} {partner : Nat} (h : ∀ f, s.expired partner f = false) (e : Nat × List FarAcc) :
    s.failOp partner e = s := by
  have he : e.2.filter (s.expired partner) = [] := List.filter_eq_nil_iff.2 fun f _ => by rw [h f]; exact Bool.false_ne_true
  simp only [failOp, he]

theorem State.failWait_early {s : State} {partner : Nat} (h : ∀ f, s.expired partner f = false) (w : Nat) :
    s.failWait partner w = s := by
  unfold failWait
  split
  · rw [h, if_neg Bool.false_ne_true]
  · rfl

theorem exec_girtHoldTimeout_up {s : State} {partner : Nat} (h : s.pathHeld partner = false) :
    exec (.girtHoldTimeout partner) s = .next s := by
  change execGirtHoldTimeout partner s = _
  simp only [execGirtHoldTimeout, h, Bool.not_false, if_true]

theorem exec_girtHoldTimeout_held {s : State} {partner : Nat} (h : s.pathHeld partner = true) :
    exec (.girtHoldTimeout partner) s = .next
      (((s.far.foldl (fun s e => s.failOp partner e) s).warps.map (·.1)).foldl (fun s w => s.failWait partner w)
        (s.far.foldl (fun s e => s.failOp partner e) s)) := by
  change execGirtHoldTimeout partner s = _
  simp only [execGirtHoldTimeout, h, Bool.not_true, Bool.false_eq_true, if_false]

theorem exec_girtHoldTimeout_early {s : State} {partner : Nat} (h : s.timer < s.pathDownAt partner + 10000000) :
    exec (.girtHoldTimeout partner) s = .next s := by
  cases hp : s.pathHeld partner with
  | false => exact exec_girtHoldTimeout_up hp
  | true =>
    have hx := State.expired_early h
    have ho : s.far.foldl (fun s e => s.failOp partner e) s = s := List.foldl_fixed' (State.failOp_early hx) _
    rw [exec_girtHoldTimeout_held hp, ho, List.foldl_fixed' (State.failWait_early hx)]

/-- The one operation in flight, with its one access, fails. -/
theorem State.failOp_lone {s : State} {partner id : Nat} {f : FarAcc} {q : Pend} (hx : s.expired partner f = true)
    (hf : s.far = [(id, [f])]) (hp : s.pend = [(id, q)]) (hq : ∀ w reg red a c ps fl rs fp, q ≠ .copy w reg red a c ps fl rs fp) :
    s.failOp partner (id, [f]) = { s with far := [], pend := [(id, q.failFar [f])] } := by
  have hfind : mfind s.pend id = some q := by rw [hp]; exact if_pos rfl
  have hdel : mdel s.far id = [] := by simp [hf, mdel]
  have hmod : mmod s.pend id (Pend.failFar [f]) = [(id, q.failFar [f])] := by
    rw [mmod, hfind, hp]
    simp [mins]
  unfold failOp
  simp only [List.filter_cons, hx, if_true, List.filter_nil, Bool.not_true, Bool.false_eq_true, if_false, List.isEmpty_nil,
    hfind, hdel]
  cases q with
  | copy => exact (hq _ _ _ _ _ _ _ _ _ rfl).elim
  | load | result | store | csig | cread | nb | arm | jigDef =>
    exact congrArg (fun m => { s with far := [], pend := m }) hmod

/-- What a map gives is the value of unlisted keys, or listed. -/
theorem mget_mem {α : Type} (d : α) (m : SMap α) (k : Nat) : mget d m k = d ∨ ∃ e ∈ m, e.2 = mget d m k := by
  rw [mget_eq_mfind]
  cases h : mfind m k with
  | none => exact .inl rfl
  | some x => exact .inr ⟨_, mem_of_mfind h, rfl⟩

theorem State.failWait_not_far {s : State} (h : ∀ e ∈ s.warps, ∀ t g a p v d l at_, e.2.park ≠ .cwait t g a p v (.far d l at_))
    (partner w : Nat) : s.failWait partner w = s := by
  unfold failWait
  split
  next hp =>
    obtain hb | ⟨e, he, hw⟩ := mget_mem {} s.warps w
    · rw [State.warp, hb] at hp
      cases hp
    · rw [State.warp, ← hw] at hp
      exact (h e he _ _ _ _ _ _ _ _ hp).elim
  · rfl

theorem held_packets : Claims.heldPackets := by
  refine ⟨fun s partner h => h.elim exec_girtHoldTimeout_up exec_girtHoldTimeout_early,
    fun s partner id f q hp ht hf hfar hpend hw => ?_⟩
  have hx : s.expired partner f = true := by
    rw [State.expired, hf, beq_self_eq_true, Bool.true_and, decide_eq_true_eq]
    exact ht
  have he (hq : ∀ w reg red a c ps fl rs fp, q ≠ .copy w reg red a c ps fl rs fp) :
      exec (.girtHoldTimeout partner) s = .next { s with far := [], pend := [(id, q.failFar [f])] } := by
    have ho := State.failOp_lone hx hfar hpend hq
    rw [exec_girtHoldTimeout_held hp, hfar, List.foldl_cons, List.foldl_nil, ho,
      List.foldl_fixed' (State.failWait_not_far (s := { s with far := [], pend := [(id, q.failFar [f])] }) hw partner)]
  refine ⟨fun w v fl cls hq hv => ?_, fun w sp rel hq => ?_⟩
  · rw [he (by simp [hq]), hq]
    simp [Pend.failFar, RegVal.fail, hv]
  · rw [he (by simp [hq]), hq]
    rfl

end Sys2Proof.Machine

/-! SUPPORT. Parties outside the device: what the writes, reads and signals of a host source queue or of a warp of another device
leave, and the events that serve them. -/

namespace Sys2Proof.Machine

open Claims (RowsKnown NoULines WroteOutside ReadOutside SignalledOutside)

/-! ## Parties -/

theorem State.modParty_party (s : State) (q p : Nat) (f : HostQ → HostQ) :
    (s.modParty q f).party p = if p = q then f (s.party q) else s.party p := mget_mins ..

@[simp] theorem State.modParty_self (s : State) (q : Nat) (f : HostQ → HostQ) : (s.modParty q f).party q = f (s.party q) := by
  rw [modParty_party, if_pos rfl]

theorem State.modParty_ne (s : State) {q p : Nat} (f : HostQ → HostQ) (h : p ≠ q) : (s.modParty q f).party p = s.party p := by
  rw [modParty_party, if_neg h]

@[simp] theorem State.modParty_mem (s : State) (q : Nat) (f : HostQ → HostQ) : (s.modParty q f).mem = s.mem := rfl

/-- Accesses to memory do not concern the parties outside. -/
theorem State.Traffic.party {P : Nat → Prop} {s r : State} (h : State.Traffic P s r) (p : Nat) : r.party p = s.party p := by
  rw [h.rest]
  rfl

theorem State.Checked.party {s r : State} (h : State.Checked s r) (p : Nat) : r.party p = s.party p := by
  rw [h.rest]
  rfl

section
variable {s : State} {q l : Nat} {ls : List Nat}

/-! ## Writes (R286) -/

/-- The state in which a party's write has been performed at its homes. -/
def State.outsideWrote (s : State) (q : Nat) (ls : List Nat) (data : List Byte) : State :=
  (s.performWrite { rels := (s.party q).rels } false 0 8 (ls.zip data)).noteBank ls

theorem State.outsideWrite_eq (hu : NoULines s) (data : List Byte) :
    s.outsideWrite q ls data = (s.outsideWrote q ls data).modParty q fun x => { x with
      view := raiseTo x.view (ls.map fun l => (l, (s.outsideWrote q ls data).mem.pos l))
      floors := raiseTo x.floors (ls.map fun l => (l, (s.outsideWrote q ls data).mem.pos l)) } := by
  simp only [outsideWrite, recall_noULines hu, outsideWrote]

theorem State.traffic_noteBank {P : Nat → Prop} (s : State) (ls : List Nat) : State.Traffic P s (s.noteBank ls) :=
  ⟨rfl, fun _ => rfl, fun _ => rfl, fun _ => rfl, fun _ => rfl, fun _ _ => rfl, id, fun _ => id⟩

theorem State.traffic_outsideWrote (s : State) (q : Nat) (ls : List Nat) (data : List Byte) :
    State.Traffic (· ∈ ls) s (s.outsideWrote q ls data) :=
  (traffic_performWrite _ _ _ _ _ _ fun _ hb => mem_zip_left hb).trans (traffic_noteBank ..)

theorem wroteOutside_outsideWrite (hu : NoULines s) (data : List Byte) :
    WroteOutside s (s.outsideWrite q ls data) q ls data := by
  have ht := s.traffic_outsideWrote q ls data
  rw [State.outsideWrite_eq hu]
  refine ⟨fun hr hn hlen i l hl hd => ?_, fun l hl => ht.byte l hl, fun l hl => ?_, fun p hp => ?_⟩
  · obtain ⟨hi, rfl⟩ := List.getElem?_eq_some_iff.1 hl
    have hi' : i < data.length := hlen ▸ hi
    have hz : (ls[i], data[i]) ∈ ls.zip data :=
      List.mem_iff_getElem.2 ⟨i, by simpa using ⟨hi, hi'⟩, List.getElem_zip⟩
    rw [List.getElem?_eq_getElem hi']
    exact congrArg some (State.performWrite_byte_mem hr { rels := (s.party q).rels } false 0 8
      (by rw [List.map_fst_zip (Nat.le_of_eq hlen)]; exact hn) hz hd)
  · rw [State.modParty_self]
    exact pos_le_raiseTo (List.mem_map_of_mem (f := fun l => (l, (s.outsideWrote q ls data).mem.pos l)) hl) _
  · rw [State.modParty_ne _ _ hp, ht.party]

/-! ## Reads (R285, R286) -/

theorem readOutside_outsideRead (hu : NoULines s) : ReadOutside s (s.outsideRead q ls) q ls := by
  have hc := State.checked_readHome hu 0 8 (s.party q).floors ls
  refine ⟨fun hf _ hb => ?_, fun l => ?_, ?_, fun p hp => ?_⟩
  · have hr := State.readHome_newest hu (fun l hl => (hf l hl).2) (fun l hl => (hf l hl).1) 0
    rw [hb, List.map_nil] at hr
    simp only [State.outsideRead, State.modParty_self, hr]
    exact List.map_congr_left fun l hl => Rd.byte_map _ _ hl
  · simp only [State.outsideRead, State.modParty_self, hc.party]
    exact le_raiseTo ..
  · rw [show (s.outsideRead q ls).mem = (s.readHome 0 8 (s.party q).floors ls).1.mem from rfl, hc.mem]
  · exact (State.modParty_ne _ _ hp).trans (hc.party p)

/-- An acquire changes a party's floors alone, and lowers none. -/
theorem readOutside_outsideAcquire {t : State} (h : ReadOutside s t q ls) : ReadOutside s (t.outsideAcquire q) q ls where
  bytes hf hd hb := by
    simp only [State.outsideAcquire, State.modParty_self]
    exact h.bytes hf hd hb
  floors l := by
    simp only [State.outsideAcquire, State.modParty_self]
    exact Nat.le_trans (h.floors l) (Mem.le_acquired ..)
  mem := h.mem
  party p hp := (State.modParty_ne _ _ hp).trans (h.party p hp)

/-! ## Releases and signals (R194, R277, R286) -/

/-- A release of a party notes a release, and the party's own list of them. -/
theorem State.outsideRelease_eq (s : State) (q : Nat) (view : SMap Nat) : s.outsideRelease q view =
    s.noting (s.nextId + 1) (mins s.hostQs q { s.party q with rels := (s.party q).rels ++ [s.nextId] })
      (mins s.mem.rels s.nextId { place := 161, scope := .sys, view }) := rfl

theorem State.outsideRelease_party (s : State) (q p : Nat) (view : SMap Nat) : (s.outsideRelease q view).party p =
    if p = q then { s.party q with rels := (s.party q).rels ++ [s.nextId] } else s.party p := mget_mins ..

theorem State.outsideRelease_rel (s : State) (q : Nat) (view : SMap Nat) :
    mfind (s.outsideRelease q view).mem.rels s.nextId = some { place := 161, scope := .sys, view } := mfind_mins_self ..

theorem State.outsideRelease_checkReads (s : State) (q : Nat) (view : SMap Nat) (src : Nat) (ls : List Nat) :
    ((s.outsideRelease q view).checkReads src ls).2 = (s.checkReads src ls).2 := by
  rw [outsideRelease_eq, noting_checkReads]
  rfl

/-- A signal of a party is an increment, and its own floors. -/
theorem State.outsideSignal_eq (s : State) (q l : Nat) (inc : Word) : ∃ f : HostQ → HostQ, (∀ x, (f x).rels = x.rels) ∧
    s.outsideSignal q l inc = (s.counterAdd { rels := (s.party q).rels } l inc.toNat).1.modParty q f := by
  unfold outsideSignal
  obtain ⟨s1, ovf, bad⟩ := s.counterAdd { rels := (s.party q).rels } l inc.toNat
  refine ⟨_, ?_, rfl⟩
  exact fun _ => rfl

/-- A party's increment without a release. -/
theorem signalledOutside_outsideSignal (hu : NoULines s) (q l : Nat) (inc : Word) (view : SMap Nat) :
    SignalledOutside s (s.outsideSignal q l inc) q l inc.toNat false view := by
  obtain ⟨f, -, hs⟩ := s.outsideSignal_eq q l inc
  have ht := State.traffic_increment (l := l) hu { rels := (s.party q).rels } inc.toNat
  rw [hs]
  refine ⟨fun hr h8 ho hb hd => ?_, fun i hi => ?_, fun h => (Bool.false_ne_true h).elim, fun p hp => ?_⟩
  · rw [State.modParty_mem]
    exact State.counterAdd_value hu hr h8 ho hb hd _ _
  · rw [State.modParty_mem]
    exact ht.byte i hi
  · rw [State.modParty_ne _ _ hp, ht.party]

/-- A party's increment after a release: the counter and its checks do not see the release. -/
theorem signalledOutside_released (hu : NoULines s) (q l : Nat) (inc : Word) (view : SMap Nat) :
    SignalledOutside s ((s.outsideRelease q view).outsideSignal q l inc) q l inc.toNat true view := by
  have hu' : NoULines (s.outsideRelease q view) := hu
  have h := signalledOutside_outsideSignal hu' q l inc view
  obtain ⟨f, hf, hs⟩ := (s.outsideRelease q view).outsideSignal_eq q l inc
  refine ⟨fun hr h8 ho hb hd => h.value hr h8 ho ?_ hd, h.other, fun _ => ⟨?_, ?_⟩, fun p hp => ?_⟩
  · rw [State.outsideRelease_checkReads, hb]
  · rw [hs, State.modParty_mem, State.counterAdd_rels hu', State.outsideRelease_rel]
  · rw [hs, State.modParty_self, hf, (State.traffic_increment hu' _ _).party, State.outsideRelease_party, if_pos rfl]
    exact List.mem_append_right _ (List.mem_singleton_self _)
  · rw [h.party p hp, State.outsideRelease_party, if_neg hp]

/-! ## Atomics of another device (R156, R198) -/

/-- The state in which an atomic of a party outside has been performed: a poisoned element, and one that a compare does not
match, stay. -/
def State.outsideAtomed (s : State) (q : Nat) (a : Args) (fp b c : Word) (ls : List Nat) (r : Rd) : State :=
  if (r.poison ls).isSome || (a.func == 0x11 && lowBytes ls.length (r.value ls) != lowBytes ls.length c) then s
  else s.performPiece { rels := (s.party q).rels } true 0 (ls.zip (bytesOf ls.length (atomNew a fp ls.length (r.value ls) b c).1))

theorem State.traffic_outsideAtomed (s : State) (q : Nat) (a : Args) (fp b c : Word) (ls : List Nat) (r : Rd) :
    State.Traffic (· ∈ ls) s (s.outsideAtomed q a fp b c ls r) := by
  unfold outsideAtomed
  split
  · exact .refl s
  · exact traffic_performPiece _ _ _ _ _ fun _ hb => mem_zip_left hb

theorem State.outsideAtom_eq {s2 : State} {r : Rd} (hp : s.peekHome 0 ls = (s2, r)) (a : Args) (fp b c : Word) :
    s.outsideAtom q a fp b c ls = (s2.outsideAtomed q a fp b c ls r).modParty q fun y => { y with
      floors := raiseTo y.floors (ls.map fun l => (l, (s2.outsideAtomed q a fp b c ls r).mem.pos l))
      seen := (y.seen ++ s2.mem.relsOf r.rs).dedup
      reply := if (r.poison ls).isSome then [] else ls.map r.byte } := by
  simp only [outsideAtom, hp]
  rfl

end

/-! ## Host source queues (R15, R286) -/

section
variable {s s1 : State} {q c : Nat} {addr : Word} {ls : List Nat}

theorem State.hostReaches_false (h : s.fabricUp = false) (c : Nat) : s.hostReaches c = false := by
  simp [hostReaches, h]

theorem State.hostReaches_true (hb : s.island.boot = .running) (hf : s.fabricUp = true) (hc : (mfind s.ctxs c).isSome) :
    s.hostReaches c = true := by
  simp [hostReaches, hb, hf, hc]

theorem State.hostLocs_ok {w : Bool} {n : Nat} (h : s.recLocs c { write := w } addr n = (s1, .ok ls)) :
    s.hostLocs c w addr n = (s1, some ls) := by
  simp only [hostLocs, h]

theorem State.hostLocs_error {w : Bool} {n : Nat} {f : XFault} (h : s.recLocs c { write := w } addr n = (s1, .error f)) :
    s.hostLocs c w addr n = (s1, none) := by
  simp only [hostLocs, h]

theorem exec_hostWrite_error (hr : s.hostReaches c = true) {data : List Byte}
    (h : s.hostLocs c true addr data.length = (s1, none)) :
    exec (.hostWrite q c addr data) s = .next (s1.modParty q fun x => { x with reply := [] }) := by
  change execHostWrite q c addr data s = _
  simp only [execHostWrite, hr, h, Bool.not_true, Bool.false_eq_true, if_false]

theorem exec_hostWrite (hr : s.hostReaches c = true) {data : List Byte}
    (h : s.hostLocs c true addr data.length = (s1, some ls)) :
    exec (.hostWrite q c addr data) s =
      if s1.outsideWaits q ls true then .next s else .next (s1.outsideWrite q ls data) := by
  change execHostWrite q c addr data s = _
  simp only [execHostWrite, hr, h, Bool.not_true, Bool.false_eq_true, if_false]

theorem exec_hostRead (hr : s.hostReaches c = true) {n : Nat} (h : s.hostLocs c false addr n = (s1, some ls)) :
    exec (.hostRead q c addr n) s =
      if s1.outsideWaits q ls false then .next s else .next ((s1.outsideRead q ls).outsideAcquire q) := by
  change execHostRead q c addr n s = _
  simp only [execHostRead, hr, h, Bool.not_true, Bool.false_eq_true, if_false]

theorem exec_hostSignal (hr : s.hostReaches c = true) (h8 : addr.toNat % 8 = 0)
    (h : s.hostLocs c true addr 8 = (s1, some ls)) (inc : Word) :
    exec (.hostSignal q c addr inc) s =
      if s1.outsideWaits q ls true then .next s
      else .next ((s1.outsideRelease q (s1.party q).view).outsideSignal q (ls.headD 0) inc) := by
  change execHostSignal q c addr inc s = _
  simp only [execHostSignal, hr, h8, h, Bool.not_true, bne_self_eq_false, Bool.or_self, Bool.false_eq_true, if_false]

theorem exec_host_unreached (hr : s.hostReaches c = false) (data : List Byte) (n : Nat) (inc : Word) :
    exec (.hostWrite q c addr data) s = .next s ∧ exec (.hostRead q c addr n) s = .next s ∧
      exec (.hostSignal q c addr inc) s = .next s := by
  change execHostWrite q c addr data s = _ ∧ execHostRead q c addr n s = _ ∧ execHostSignal q c addr inc s = _
  simp only [execHostWrite, execHostRead, execHostSignal, hr, Bool.not_false, Bool.true_or, if_true, and_self]

end

theorem headD_span (l d : Nat) : (span l 8).headD d = l := rfl

theorem host_queues : Claims.hosts := by
  refine ⟨fun q c addr inc data n s hf => exec_host_unreached (State.hostReaches_false hf c) data n inc,
    fun q c addr s s1 hb hf hc => ?_⟩
  have hr := State.hostReaches_true hb hf hc
  refine ⟨fun data => ⟨fun f he => ?_, fun ls ho => ?_⟩, fun n ls ho => ?_, fun inc l h8 ho => ?_⟩
  · exact ⟨_, exec_hostWrite_error hr (State.hostLocs_error he), by rw [State.modParty_self], rfl⟩
  · have hx := exec_hostWrite (q := q) hr (State.hostLocs_ok ho)
    exact ⟨fun hw => by rw [hx, if_pos hw],
      fun hw hu => ⟨_, by rw [hx, hw, if_neg Bool.false_ne_true], wroteOutside_outsideWrite hu data⟩⟩
  · have hx := exec_hostRead (q := q) hr (State.hostLocs_ok ho)
    exact ⟨fun hw => by rw [hx, if_pos hw], fun hw hu =>
      ⟨_, by rw [hx, hw, if_neg Bool.false_ne_true], readOutside_outsideAcquire (readOutside_outsideRead hu)⟩⟩
  · have hx := exec_hostSignal (q := q) hr h8 (State.hostLocs_ok ho) inc
    rw [headD_span] at hx
    exact ⟨fun hw => by rw [hx, if_pos hw], fun hw hu =>
      ⟨_, by rw [hx, hw, if_neg Bool.false_ne_true], signalledOutside_released hu q l inc _⟩⟩

/-! ## Warps of other devices (R156, R277, R278, R285) -/

/-- Whether an operation needs a packet to this device: a release or an acquire alone needs none. -/
def sent (op : RemoteOp) : Bool :=
  match op with
  | .phase _ _ | .follow _ => false
  | _ => true

/-- Whether the address of an operation is one that it may have: of a signal or an atomic, aligned to its size. -/
def whole (op : RemoteOp) (addr : Word) : Bool :=
  match op with
  | .signal _ _ | .atom .. => addr.toNat % (remoteSpan op).1 == 0
  | _ => true

/-- Whether packets of a device reach this one. -/
def State.receives (s : State) (dev : Nat) : Prop :=
  s.island.boot = .running ∧ s.fabricUp = true ∧ s.pathHeld dev = false

section
variable {s s1 : State} {dev c w : Nat} {addr : Word} {op : RemoteOp} {ls : List Nat}

theorem exec_remoteAccess_unreached (ho : sent op = true) (h : s.fabricUp = false ∨ s.pathHeld dev = true) :
    exec (.remoteAccess dev ⟨c, w⟩ addr op) s = .next s := by
  change execRemoteAccess dev ⟨c, w⟩ addr op s = _
  have hx (b : Bool) : (s.island.boot != .running || !s.fabricUp || s.pathHeld dev || b) = true := by
    obtain h | h := h <;> simp [h]
  cases op with
  | read | write | signal | atom => simp only [execRemoteAccess, hx, if_true, Bool.false_eq_true, if_false]
  | phase | follow => cases ho

/-- An operation whose locations cannot be told answers with no bytes. -/
theorem exec_remoteAccess_lost (ho : sent op = true) (hr : s.receives dev) (ha : whole op addr = true)
    (h : s.remoteLocs dev c (remoteSpan op).2 addr (remoteSpan op).1 = (s1, none)) :
    exec (.remoteAccess dev ⟨c, w⟩ addr op) s = .next (s1.modParty (remoteParty dev c w) fun x => { x with reply := [] }) := by
  change execRemoteAccess dev ⟨c, w⟩ addr op s = _
  obtain ⟨hb, hf, hp⟩ := hr
  cases op with
  | read | write | signal | atom =>
    simp only [remoteSpan, whole] at h ha
    simp [execRemoteAccess, remoteSpan, hb, hf, hp, h, ha]
  | phase | follow => cases ho

theorem exec_remoteAccess_served (ho : sent op = true) (hr : s.receives dev) (ha : whole op addr = true)
    (h : s.remoteLocs dev c (remoteSpan op).2 addr (remoteSpan op).1 = (s1, some ls))
    (hw : s1.outsideWaits (remoteParty dev c w) ls (remoteSpan op).2 = false) :
    exec (.remoteAccess dev ⟨c, w⟩ addr op) s = .next (s1.remoteServe (remoteParty dev c w) ls op) := by
  change execRemoteAccess dev ⟨c, w⟩ addr op s = _
  obtain ⟨hb, hf, hp⟩ := hr
  cases op with
  | read | write | signal | atom =>
    simp only [remoteSpan, whole] at h ha hw
    simp [execRemoteAccess, remoteSpan, hb, hf, hp, h, ha, hw]
  | phase | follow => cases ho

theorem exec_remoteAccess_release (s : State) (dev c w : Nat) (addr : Word) :
    exec (.remoteAccess dev ⟨c, w⟩ addr (.phase true false)) s =
      .next (s.outsideRelease (remoteParty dev c w) (s.party (remoteParty dev c w)).floors) := rfl

theorem exec_remoteAccess_acquire (s : State) (dev c w : Nat) (addr : Word) :
    exec (.remoteAccess dev ⟨c, w⟩ addr (.phase false true)) s = .next (s.outsideAcquire (remoteParty dev c w)) := rfl

/-- A device and context with no tables bound reach no byte. -/
theorem State.remoteLocs_unbound (h : mfind s.bound (dev * 65536 + c) = none) (wr : Bool) (p : Word) {n : Nat} (hn : 0 < n) :
    s.remoteLocs dev c wr p n = (s, none) := by
  induction n with
  | zero => cases hn
  | succ n ih =>
    obtain rfl | hn := Nat.eq_zero_or_pos n
    · simp only [remoteLocs, remoteByte, h]
    · simp only [remoteLocs, ih hn]

end

/-! ## What a packet's operation leaves -/

section
variable {s : State} {q : Nat} {ls : List Nat}

theorem readOutside_remoteServe (hu : NoULines s) (n : Nat) (acq : Bool) :
    ReadOutside s (s.remoteServe q ls (.read n acq)) q ls := by
  have hr : s.remoteServe q ls (.read n acq) =
      if acq then (s.outsideRead q ls).outsideAcquire q else s.outsideRead q ls := rfl
  rw [hr]
  split
  · exact readOutside_outsideAcquire (readOutside_outsideRead hu)
  · exact readOutside_outsideRead hu

theorem signalledOutside_remoteServe (hu : NoULines s) (l : Nat) (inc : Word) (rel : Bool) :
    SignalledOutside s (s.remoteServe q (span l 8) (.signal inc rel)) q l inc.toNat rel (s.party q).floors := by
  have hs : s.remoteServe q (span l 8) (.signal inc rel) =
      (if rel then s.outsideRelease q (s.party q).floors else s).outsideSignal q l inc := rfl
  rw [hs]
  cases rel with
  | false => exact signalledOutside_outsideSignal hu q l inc _
  | true => exact signalledOutside_released hu q l inc _

theorem remoteServe_atom (hu : NoULines s) {s2 : State} {r : Rd} (hp : s.peekHome 0 ls = (s2, r)) (hr : r.poison ls = none)
    (a : Args) (fp x y : Word) :
    ((s.remoteServe q ls (.atom a fp x y)).party q).reply = ls.map r.byte ∧
      ∀ l, l ∉ ls → (s.remoteServe q ls (.atom a fp x y)).mem.byte l = s.mem.byte l := by
  have hs : State.Traffic (· ∈ ls) s s2 := by
    have h := State.checked_peekHome hu 0 ls
    rw [hp] at h
    exact h.traffic
  rw [show s.remoteServe q ls (.atom a fp x y) = s.outsideAtom q a fp x y ls from rfl, State.outsideAtom_eq hp]
  refine ⟨?_, fun l hl => ?_⟩
  · rw [State.modParty_self, hr]
    rfl
  · rw [State.modParty_mem, (s2.traffic_outsideAtomed ..).byte l hl, hs.byte l hl]

end

theorem remote_devices : Claims.remotes := by
  refine ⟨fun dev c n addr op s h hp hf => exec_remoteAccess_unreached ?_ h, fun dev c n addr s => ?_,
    fun dev c w addr s s1 hb hf hp => ?_⟩
  · cases op with
    | phase rel acq => exact absurd rfl (hp rel acq)
    | follow id => exact absurd rfl (hf id)
    | read | write | signal | atom => rfl
  · refine ⟨⟨_, exec_remoteAccess_release s dev c n addr, rfl, s.outsideRelease_rel .., ?_, fun p hp => ?_⟩,
      exec_remoteAccess_acquire s dev c n addr⟩
    · rw [State.outsideRelease_party, if_pos rfl]
    · rw [State.outsideRelease_party, if_neg hp]
  · have hr : s.receives dev := ⟨hb, hf, hp⟩
    refine ⟨fun n acq hn hu => ?_, fun n acq ls ho hw hu => ?_, fun data ls ho hw hu => ?_, fun inc rel l ho hw hu h8 => ?_,
      fun a fp x y s2 r ls ha ho hw hu hpk hgood => ?_⟩
    · exact ⟨_, exec_remoteAccess_lost (op := .read n acq) rfl hr rfl (State.remoteLocs_unbound hu _ _ hn),
        by rw [State.modParty_self], rfl⟩
    · exact ⟨_, exec_remoteAccess_served (op := .read n acq) rfl hr rfl ho hw, readOutside_remoteServe hu n acq⟩
    · exact ⟨_, exec_remoteAccess_served (op := .write data) rfl hr rfl ho hw, wroteOutside_outsideWrite hu data⟩
    · exact ⟨_, exec_remoteAccess_served (op := .signal inc rel) rfl hr (beq_iff_eq.2 h8) ho hw,
        signalledOutside_remoteServe hu l inc rel⟩
    · exact ⟨_, exec_remoteAccess_served (op := .atom a fp x y) rfl hr (beq_iff_eq.2 ha) ho hw,
        remoteServe_atom hu hpk hgood a fp x y⟩

/-- Settles O52: links, held packets, host source queues and warps of other devices each change what their rule names. -/
theorem fabric : Obligations.Fabric := ⟨ports_links, held_packets, host_queues, remote_devices⟩

end Sys2Proof.Machine

/-! SUPPORT. How an instruction of one warp ends: it completes, transfers control, settles or traps, each from the end of its
effect. -/

namespace Sys2Proof.Machine

/-! ## Changing one warp -/

theorem mmod_congr {α : Type} (d : α) (m : SMap α) (k : Nat) {f f' : α → α} (h : f (mget d m k) = f' (mget d m k)) :
    mmod m k f = mmod m k f' := by
  unfold mmod
  cases hm : mfind m k with
  | none => rfl
  | some x =>
    rw [mget_eq_mfind, hm] at h
    exact congrArg (mins m k) h

theorem mmod_mmod {α : Type} (m : SMap α) (k : Nat) (f f' : α → α) : mmod (mmod m k f) k f' = mmod m k fun x => f' (f x) := by
  unfold mmod
  cases hm : mfind m k with
  | none => simp only [hm]
  | some x => simp only [mfind_mins_self, mins_mins]

/-- Functions that agree on the warp change it alike. -/
theorem State.modWarp_congr {s : State} {w : Nat} {f f' : Warp → Warp} (h : f (s.warp w) = f' (s.warp w)) :
    s.modWarp w f = s.modWarp w f' :=
  congrArg (fun m => { s with warps := m }) (mmod_congr {} s.warps w h)

theorem State.modWarp_modWarp (s : State) (w : Nat) (f f' : Warp → Warp) :
    (s.modWarp w f).modWarp w f' = s.modWarp w fun x => f' (f x) :=
  congrArg (fun m => { s with warps := m }) (mmod_mmod s.warps w f f')

theorem State.modWarp_self {s : State} {w : Nat} (f : Warp → Warp) (h : (mfind s.warps w).isSome) :
    (s.modWarp w f).warp w = f (s.warp w) := by rw [modWarp_warp _ _ _ _ h, if_pos rfl]

@[simp] theorem State.setExec_listed (s : State) (w v : Nat) (e : Mask) :
    (mfind (s.setExec w e).warps v).isSome = (mfind s.warps v).isSome := modWarp_listed ..

theorem State.setExec_exec {s : State} {w : Nat} (e : Mask) (h : (mfind s.warps w).isSome) :
    ((s.setExec w e).warp w).exec = e := by rw [setExec, modWarp_self _ h]

/-! ## Ends of an effect -/

/-- Where only warps and cores differ, no record of an error differs. -/
theorem State.keepErrors_eq {s r : State} (h : r = { s with warps := r.warps, cores := r.cores }) : s.keepErrors r = s := by
  rw [h]
  rfl

theorem State.readTokens_rest (s : State) (g : Grp) (rs : List Nat) :
    s.readTokens g rs = { s with warps := (s.readTokens g rs).warps } := by
  unfold readTokens
  induction rs generalizing s with
  | nil => rfl
  | cons n rs ih =>
    rw [List.foldl_cons, ih]
    rfl

theorem State.chargeBudget_rest (s : State) (w : Nat) (e : BitVec 2) :
    s.chargeBudget w e = { s with cores := (s.chargeBudget w e).cores } := by
  unfold chargeBudget
  dsimp only
  split <;> rfl

/-- What is charged and read before an effect records no error. -/
theorem State.keepErrors_opened (s : State) (o : Op) (a : Args) (g : Grp) :
    (s.stood o a g).keepErrors (s.opened o a g) = s.stood o a g := by
  refine keepErrors_eq ?_
  unfold opened
  rw [readTokens_rest, chargeBudget_rest]

section
variable {s r : State} {o : Op} {a : Args} {g : Grp} {i : Instr} {eff : State → Grp → Res}

theorem State.Issues.completes (h : s.IssuesPlain o a g) (hi : exec i s = s.issue o a eff)
    (he : eff (s.opened o a g) g = .next r)
    (hl : ∀ w, (mfind r.warps w).isSome = (mfind (s.opened o a g).warps w).isSome) : Completes i a g s r :=
  ⟨_, hi, h.retires eff he hl⟩

/-- An effect that moves control itself. -/
theorem State.Issues.movesTo (h : s.IssuesPlain o a s.alone) (hi : exec i s = s.issue o a eff)
    (he : eff (s.opened o a s.alone) s.alone = .moved r) : exec i s = .next (s.movedTo r o a) :=
  hi.trans (congrArg _ (h.moves eff he))

theorem State.Issues.jumpsTo {p : Word} (h : s.IssuesPlain o a s.alone) (hi : exec i s = s.issue o a eff)
    (he : eff (s.opened o a s.alone) s.alone = .moved (r.jump s.cur p)) (hl : (mfind r.warps s.cur).isSome) :
    Claims.jumpsTo i s r p :=
  ⟨_, h.movesTo hi he, jumped_account r s.cur _ p o a s.mem hl⟩

/-- A transfer to an aligned address (R62). -/
theorem State.jumpRes_aligned {p : Word} (w : Nat) (hp : p &&& 3 = 0) : r.jumpRes w p = .moved (r.jump w p) := by
  unfold jumpRes
  rw [misaligned_none hp]

/-- A check of the effect's own that fails before anything has changed (R346). -/
theorem State.Issues.trapsAlone {x : Trap} (h : s.IssuesPlain o a s.alone) (hi : exec i s = s.issue o a eff)
    (he : eff (s.opened o a s.alone) s.alone = .trap (s.opened o a s.alone) x) : Claims.traps i o a s x := by
  refine hi.trans (congrArg Host.Outcome.next ?_)
  rw [h.traps eff he, keepErrors_opened]

/-! ## Settling (R38) -/

theorem State.settled_on {w : Nat} (h : (r.warp w).exec ≠ 0) (k : State → Res) : r.settled w k = k r := if_pos h

theorem State.settled_off {w : Nat} {r' : State} (h : (r.warp w).exec = 0) (hs : r.settle w = (r', none)) (k : State → Res) :
    r.settled w k = .moved r' := by
  unfold settled
  rw [if_neg (not_not.2 h), hs]

/-- An effect that ends by settling. -/
theorem State.Issues.settles {P : Prop} {k : State → Res} (h : s.IssuesPlain o a s.alone) (hi : exec i s = s.issue o a eff)
    (he : eff (s.opened o a s.alone) s.alone = r.settled s.cur k)
    (hk : eff (s.opened o a s.alone) s.alone = k r → P) : Claims.settles i o a s r P :=
  ⟨fun hx => hk (he.trans (settled_on hx k)), fun _ hx hs => h.movesTo hi (he.trans (settled_off hx hs k))⟩

/-- An effect that ends by settling, and completes where EXEC is not zero. -/
theorem State.Issues.settlesNext (h : s.IssuesPlain o a s.alone) (hi : exec i s = s.issue o a eff)
    (he : eff (s.opened o a s.alone) s.alone = r.settled s.cur fun t => .next t)
    (hl : ∀ w, (mfind r.warps w).isSome = (mfind (s.opened o a s.alone).warps w).isSome) :
    Claims.settles i o a s r (Completes i a s.alone s r) :=
  h.settles hi he fun hk => h.completes hi hk hl

end

end Sys2Proof.Machine

/-! SUPPORT. The token stack: what pushing, popping, refilling and changing tokens leaves of every warp. -/

namespace Sys2Proof.Machine

/-! ## What operations on the stack leave -/

/-- A warp keeps its registers and its place in the program; what it has observed, its stack and the bookkeeping of runs may
differ. -/
def Warp.Steady (x y : Warp) : Prop :=
  y = { x with
    floors := y.floors, rmtFl := y.rmtFl, seen := y.seen, rels := y.rels, stCnt := y.stCnt, late := y.late, toks := y.toks
    ssp := y.ssp, spilled := y.spilled, runCnt := y.runCnt, missed := y.missed, waitFrom := y.waitFrom, waited := y.waited
    due := y.due, next := y.next }

theorem Warp.Steady.trans {x y z : Warp} (h : Warp.Steady x y) (h' : Warp.Steady y z) : Warp.Steady x z := by
  unfold Steady at *
  rw [h] at h'
  exact h'

/-- Every warp is steady, and the same warps are resident. -/
structure State.Steady (s r : State) : Prop where
  warp   : ∀ v, Warp.Steady (s.warp v) (r.warp v)
  listed : ∀ v, (mfind r.warps v).isSome = (mfind s.warps v).isSome
  blocks : r.blocks = s.blocks
  ctxs   : r.ctxs = s.ctxs
  clock  : r.clock = s.clock

theorem State.Steady.refl (s : State) : State.Steady s s := ⟨fun _ => rfl, fun _ => rfl, rfl, rfl, rfl⟩

theorem State.Steady.trans {s r t : State} (h : State.Steady s r) (h' : State.Steady r t) : State.Steady s t :=
  ⟨fun v => (h.warp v).trans (h'.warp v), fun v => (h'.listed v).trans (h.listed v), h'.blocks.trans h.blocks,
    h'.ctxs.trans h.ctxs, h'.clock.trans h.clock⟩

theorem State.Traffic.steady {P : Nat → Prop} {s r : State} (h : State.Traffic P s r) : State.Steady s r where
  warp v := by
    have e := h.warp v
    generalize r.warp v = y at e ⊢
    unfold Warp.Steady
    rw [e]
  listed := h.listed
  blocks := by rw [h.rest]
  ctxs := by rw [h.rest]
  clock := by rw [h.rest]

theorem State.Booked.steady {ws : List Nat} {s r : State} (h : State.Booked ws s r) : State.Steady s r where
  warp v := by
    have e := h.warp v
    generalize r.warp v = y at e ⊢
    unfold Warp.Kept at e
    unfold Warp.Steady
    rw [e]
  listed := h.listed
  blocks := by rw [h.rest]
  ctxs := by rw [h.rest]
  clock := by rw [h.rest]

theorem State.steady_endRun (s : State) (w : Nat) : State.Steady s (s.endRun w) :=
  (booked_endRun s w (List.mem_singleton_self w)).steady

theorem State.steady_trace (s : State) (w k : Nat) (x : Word) : State.Steady s (s.trace w k x) := by
  rw [trace_rest]
  exact ⟨fun _ => rfl, fun _ => rfl, rfl, rfl, rfl⟩

theorem State.steady_modWarp (s : State) (w : Nat) {f : Warp → Warp} (hf : ∀ x, Warp.Steady x (f x) := by exact fun _ => rfl) :
    State.Steady s (s.modWarp w f) where
  warp v := by
    by_cases hv : v = w
    · subst hv
      by_cases hl : (mfind s.warps v).isSome
      · rw [modWarp_self _ hl]
        exact hf _
      · have e : mfind s.warps v = none := by simpa using hl
        rw [show s.modWarp v f = s by simp [modWarp, mmod, e]]
        rfl
    · rw [modWarp_warp_ne _ _ hv]
      rfl
  listed v := by simp
  blocks := rfl
  ctxs := rfl
  clock := rfl

/-- A read at its home, from the whole device. -/
theorem State.steady_places (s : State) (w : Nat) (a : How) (p : Word) (n : Nat) : State.Steady s (s.places w a p n).1 :=
  (traffic_places (P := fun _ => True) w a p n s fun _ _ => trivial).steady

theorem State.steady_readNow (s : State) (w src : Nat) (ls : List Nat) : State.Steady s (s.readNow w src ls).1 :=
  (traffic_readNow (P := fun _ => True) s w src ls fun _ _ => trivial).steady

theorem State.steady_store (s : State) (ws : List Nat) (src : Nat) (p : Word) (bs : List (Nat × Byte)) :
    State.Steady s (s.store ws src p bs) :=
  (traffic_store (P := fun _ => True) s ws src p bs (fun _ _ => trivial) fun _ _ => trivial).steady

theorem State.steady_locSpan (s : State) (w : Nat) (write : Bool) (p : Word) (n : Nat) :
    State.Steady s (s.locSpan w write p n).1 := by
  unfold locSpan
  split
  · exact .refl s
  · have h := s.steady_places w { write } p n
    split
    all_goals next he => rw [he] at h; exact h

theorem State.steady_pushTok (s : State) (w : Nat) (t : Token) : State.Steady s (s.pushTok w t).1 := by
  unfold pushTok
  extract_lets x push p
  have hp : ∀ r, State.Steady r (push r) := fun r => r.steady_modWarp w
  split
  · split
    · exact .refl s
    · exact hp s
  · split
    · exact hp s
    · have h := s.steady_locSpan w true p 256
      split
      next he => rw [he] at h; exact h
      next s1 ls he =>
        rw [he] at h
        exact ((h.trans (s1.steady_store ..)).trans (steady_modWarp _ w)).trans ((hp _).trans (steady_endRun _ w))

theorem State.steady_refill (s : State) (w : Nat) : State.Steady s (s.refill w).1 := by
  unfold refill
  extract_lets x
  split
  · exact .refl s
  · have h := s.steady_locSpan w false x.ssp 256
    split
    next he => rw [he] at h; exact h
    next s1 ls he =>
      rw [he] at h
      have h2 := h.trans (s1.steady_readNow w 0 ls)
      generalize s1.readNow w 0 ls = q at h2 ⊢
      obtain ⟨s2, rd⟩ := q
      dsimp only at h2 ⊢
      split
      · exact h2
      · split
        · exact h2
        · exact (h2.trans (steady_modWarp _ w)).trans (steady_endRun _ w)

theorem State.steady_popTok (s : State) (w : Nat) : State.Steady s (s.popTok w).1 :=
  (s.steady_modWarp w).trans (steady_refill _ w)

theorem State.steady_allToks (s : State) (w : Nat) : State.Steady s (s.allToks w).1 := by
  unfold allToks
  extract_lets x
  split
  · exact .refl s
  · have h := s.steady_locSpan w false x.ssp (256 * x.spilled)
    split
    next he => rw [he] at h; exact h
    next s1 ls he =>
      rw [he] at h
      have h2 := h.trans (s1.steady_readNow w 0 ls)
      generalize s1.readNow w 0 ls = q at h2 ⊢
      obtain ⟨s2, rd⟩ := q
      dsimp only at h2 ⊢
      split
      · exact h2
      · split <;> exact h2

/-- A fold that stops at the first trap is steady where each of its steps is. -/
theorem State.steady_foldTrap {α : Type} {f : State × Option Trap → α → State × Option Trap}
    (h : ∀ q e, State.Steady q.1 (f q e).1) (xs : List α) (q : State × Option Trap) : State.Steady q.1 (xs.foldl f q).1 := by
  induction xs generalizing q with
  | nil => exact .refl _
  | cons e xs ih => exact (h q e).trans (ih _)

theorem State.steady_putToks (s : State) (w : Nat) (old new : List Token) : State.Steady s (s.putToks w old new).1 := by
  unfold putToks
  extract_lets x n s1 changed
  refine (s.steady_modWarp w).trans (steady_foldTrap (fun q e => ?_) changed (s1, none))
  obtain ⟨t, o⟩ := q
  cases o with
  | some x => exact .refl t
  | none =>
    dsimp only
    have h := t.steady_locSpan w true (x.ssp + BitVec.ofNat 64 (256 * ((e.2 - n) / 8) + 32 * (7 - (e.2 - n) % 8))) 32
    split
    next he => rw [he] at h; exact h
    next t' ls he => rw [he] at h; exact h.trans (t'.steady_store ..)

theorem State.steady_onToks (s : State) (w : Nat) (f : List Token → Option (List Token)) :
    State.Steady s (s.onToks w f).1 := by
  unfold onToks
  split
  · exact s.steady_modWarp w
  · split
    · exact .refl s
    · have h := s.steady_allToks w
      split
      next he => rw [he] at h; exact h
      next s1 old he =>
        rw [he] at h
        split
        · exact h
        next new _ =>
          have h2 := h.trans (s1.steady_putToks w old new)
          split
          all_goals next hp => rw [hp] at h2; exact h2

end Sys2Proof.Machine

/-! SUPPORT. Structured control (spec/02 R37): the effects of `IF`, `ELSE`, `ENDIF`, `LOOP`, `BREAK`, `CONT`, `ENDLOOP`, `CALL`,
`RET` and `EXIT` on a warp that issues alone. -/

namespace Sys2Proof.Machine

/-! ## Effects that push, pop or replace tokens -/

section
variable {s s0 s1 : State} {w : Nat} {g : Grp} {k : Token} {ks : List Token}

theorem State.pushed_ok (h : s.pushTok w k = (s1, none)) (f : State → Res) : s.pushed w k f = f s1 := by
  unfold pushed
  rw [h]

theorem State.popped_ok (h : s.popTok w = (s1, none)) (f : State → Res) : s.popped w f = f s1 := by
  unfold popped
  rw [h]

theorem State.listed_pushTok (h : s.pushTok w k = (s1, none)) (v : Nat) :
    (mfind s1.warps v).isSome = (mfind s.warps v).isSome := by
  have e := (s.steady_pushTok w k).listed v
  rwa [h] at e

theorem State.listed_popTok (h : s.popTok w = (s1, none)) (v : Nat) :
    (mfind s1.warps v).isSome = (mfind s.warps v).isSome := by
  have e := (s.steady_popTok w).listed v
  rwa [h] at e

theorem State.listed_onToks {f : List Token → Option (List Token)} {x : Except Trap Bool}
    (h : s.onToks w f = (s1, x)) (v : Nat) : (mfind s1.warps v).isSome = (mfind s.warps v).isSome := by
  have e := (s.steady_onToks w f).listed v
  rwa [h] at e

/-- Replacing the top token and EXEC at once. -/
theorem State.setTop_setExec (h : (s.warp w).toks = k :: ks) (k' : Token) (e : Mask) :
    (s.setTop w k').setExec w e = s.modWarp w fun x => { x with toks := k' :: ks, exec := e } := by
  unfold setTop setExec
  rw [modWarp_modWarp]
  exact modWarp_congr (by simp [h])

end

/-! ## `IF`, `ELSE` and `ENDIF` -/

section
variable {s s1 : State} {a : Args} {g : Grp} {k : Token} {ks : List Token}

theorem and_three_or {p q : Word} (hp : p &&& 3 = 0) (hq : q &&& 3 = 0) : (p ||| q) &&& 3 = 0 := by
  rw [BitVec.and_comm, BitVec.and_or_distrib_left, BitVec.and_comm 3 p, BitVec.and_comm 3 q, hp, hq, BitVec.or_self]

/-- The address at which the paths of an `IF` at pc join, and the token that it pushes (R107). -/
def ifJoin (a : Args) (pc : Word) : Word := if hasLit a then litTarget a pc else nearTarget a pc + 4
def Warp.ifToken (x : Warp) (a : Args) : Token :=
  { kind := .ifTok, join := ifJoin a x.pc, aux := nearTarget a x.pc, saved := x.exec
    pend := if condMask x a = 0 then 0 else x.exec &&& ~~~condMask x a, brk := 0, cont := 0 }

/-- `IF` at aligned addresses whose token is pushed. -/
theorem effIfc_pushed (ha : nearTarget a (s.warp (leaderOf g)).pc &&& 3 = 0) (hj : ifJoin a (s.warp (leaderOf g)).pc &&& 3 = 0)
    (hp : s.pushTok (leaderOf g) ((s.warp (leaderOf g)).ifToken a) = (s1, none)) :
    effIfc a s g =
      if condMask (s.warp (leaderOf g)) a ≠ 0 then .next (s1.setExec (leaderOf g) (condMask (s.warp (leaderOf g)) a))
      else .moved ((s1.setExec (leaderOf g) (s.warp (leaderOf g)).exec).jump (leaderOf g)
        (nearTarget a (s.warp (leaderOf g)).pc)) := by
  unfold effIfc
  unfold ifJoin at hj
  unfold Warp.ifToken ifJoin at hp
  dsimp only
  rw [misaligned_none (and_three_or ha hj)]
  by_cases hc : condMask (s.warp (leaderOf g)) a = 0
  · rw [if_pos hc] at hp
    simp only [hc, ne_eq, not_true_eq_false, if_false]
    rw [State.pushed_ok hp, show ∀ m : Mask, m &&& ~~~0 = m from fun _ => BitVec.and_allOnes]
  · rw [if_neg hc] at hp
    simp only [hc, ne_eq, not_false_eq_true, if_true]
    rw [State.pushed_ok hp]

/-- `ELSE` where lanes wait for the else path. -/
theorem effElsec_pending (ht : (s.warp (leaderOf g)).toks = k :: ks) (hk : k.kind = .ifTok) (hp : k.pend ≠ 0)
    (ha : k.aux &&& 3 = 0) :
    effElsec s g = .moved ((s.modWarp (leaderOf g) fun x =>
      { x with toks := { k with pend := 0 } :: ks, exec := k.pend }).jump (leaderOf g) k.aux) := by
  unfold effElsec
  simp only [ht, hk, hp, ne_eq, not_false_eq_true, if_true]
  rw [State.setTop_setExec ht, State.jumpRes_aligned _ ha]

/-- `ELSE` where none waits: to the join. -/
theorem effElsec_join (ht : (s.warp (leaderOf g)).toks = k :: ks) (hk : k.kind = .ifTok) (hp : k.pend = 0)
    (hj : k.join &&& 3 = 0) (hs : (s.setExec (leaderOf g) k.saved).popTok (leaderOf g) = (s1, none)) :
    effElsec s g = (s1.jump (leaderOf g) k.join).settled (leaderOf g) fun t => .moved t := by
  unfold effElsec
  simp only [ht, hk, hp, ne_eq, not_true_eq_false, if_false, if_true, misaligned_none hj]
  rw [State.popped_ok hs]

theorem effEndif_popped (ht : (s.warp (leaderOf g)).toks = k :: ks) (hk : k.kind = .ifTok)
    (hs : (s.setExec (leaderOf g) k.saved).popTok (leaderOf g) = (s1, none)) :
    effEndif s g = s1.settled (leaderOf g) fun t => .next t := by
  unfold effEndif
  simp only [ht, hk, if_true]
  rw [State.popped_ok hs]

end

/-- Settles O10: each of the three instructions ends as its effect on the top token says. -/
theorem ifElse : Obligations.IfElse := by
  refine ⟨fun a s s1 h => ?_, fun a s s1 k ks h => ?_, fun a s s1 k ks h => ?_⟩
  · intro s0 x c aux join ha hj hp
    have he : effIfc a s0 s.alone = _ := effIfc_pushed ha hj hp
    refine ⟨fun hc => ?_, fun hc => ?_⟩
    · exact h.completes rfl (he.trans (if_pos hc)) fun w => (State.setExec_listed ..).trans (State.listed_pushTok hp w)
    · refine h.jumpsTo rfl (he.trans (if_neg (not_not.2 hc))) ?_
      rw [State.setExec_listed, State.listed_pushTok hp]
      exact h.listed
  · intro s0 ht hk
    refine ⟨fun hp ha => ?_, fun hp hj hs => ?_⟩
    · exact h.jumpsTo rfl (effElsec_pending (g := s.alone) ht hk hp ha) ((State.modWarp_listed ..).trans h.listed)
    · refine h.settles rfl (effElsec_join (g := s.alone) ht hk hp hj hs) fun hm => ?_
      refine h.jumpsTo rfl hm ?_
      rw [State.listed_popTok hs, State.setExec_listed]
      exact h.listed
  · intro s0 ht hk hs
    exact h.settlesNext rfl (effEndif_popped (g := s.alone) ht hk hs) fun w =>
      (State.listed_popTok hs w).trans (State.setExec_listed ..)

/-! ## `LOOP`, `BREAK`, `CONT` and `ENDLOOP` -/

section
variable {s s1 : State} {a : Args} {g : Grp} {k : Token} {ks : List Token} {c : Mask} {f : Token → Token} {w : Nat}

theorem effLoopc_pushed (ha : target a (s.warp (leaderOf g)).pc &&& 3 = 0)
    (hp : s.pushTok (leaderOf g)
      { kind := .loopTok, join := target a (s.warp (leaderOf g)).pc
        aux := (s.warp (leaderOf g)).pc + BitVec.ofNat 64 (argBytes a), saved := (s.warp (leaderOf g)).exec
        pend := 0, brk := 0, cont := 0 } = (s1, none)) : effLoopc a s g = .next s1 := by
  unfold effLoopc
  simp only [misaligned_none ha]
  rw [State.pushed_ok hp]

/-- The lanes c leave every IF token above the nearest LOOP token. -/
theorem leaveToLoop_append (c : Mask) (f : Token → Token) {above : List Token} (below : List Token)
    (ha : ∀ j ∈ above, j.kind = .ifTok) (hk : k.kind = .loopTok) :
    leaveToLoop c f (above ++ k :: below) = some (above.map (Claims.leftBy c) ++ f k :: below) := by
  induction above with
  | nil => simp [leaveToLoop, hk]
  | cons j above ih =>
    have hj := ha j (List.mem_cons_self ..)
    simp only [List.cons_append, leaveToLoop, hj, ih fun i hi => ha i (List.mem_cons_of_mem _ hi)]
    rw [← hj]
    rfl

theorem State.onToks_here {f : List Token → Option (List Token)} {ts : List Token} (h : f (s.warp w).toks = some ts) :
    s.onToks w f = (s.modWarp w fun x => { x with toks := ts }, .ok true) := by
  unfold onToks
  rw [h]

theorem State.leaveLoop_found (h : s.onToks w (leaveToLoop c f) = (s1, .ok true)) :
    s.leaveLoop w c f = (s1.modWarp w fun x => { x with exec := (s1.warp w).exec &&& ~~~c }).settled w fun t => .next t := by
  unfold leaveLoop
  rw [h]
  rfl

/-- Leaving a loop whose token is in hardware. -/
theorem State.leaveLoop_here {above below : List Token} (ht : (s.warp w).toks = above ++ k :: below)
    (ha : ∀ j ∈ above, j.kind = .ifTok) (hk : k.kind = .loopTok) (hl : (mfind s.warps w).isSome) :
    s.leaveLoop w c f = (s.modWarp w fun x =>
      { x with toks := above.map (Claims.leftBy c) ++ f k :: below, exec := x.exec &&& ~~~c }).settled w fun t => .next t := by
  rw [leaveLoop_found (onToks_here (by rw [ht, leaveToLoop_append c f below ha hk])), modWarp_modWarp, modWarp_self _ hl]
  exact congrArg (State.settled · w _) (modWarp_congr rfl)

/-- An instruction whose effect is to leave a loop. -/
theorem State.Issues.leavesLoop {o : Op} {i : Instr} {eff : State → Grp → Res} (h : s.IssuesPlain o a s.alone)
    (hi : exec i s = s.issue o a eff)
    (he : eff (s.opened o a s.alone) s.alone = (s.opened o a s.alone).leaveLoop s.cur c f)
    (hf : (s.opened o a s.alone).onToks s.cur (leaveToLoop c f) = (s1, .ok true)) :
    let r := s1.modWarp s.cur fun x => { x with exec := (s1.warp s.cur).exec &&& ~~~c }
    Claims.settles i o a s r (Completes i a s.alone s r) :=
  h.settlesNext hi (he.trans (leaveLoop_found hf)) fun v => (modWarp_listed ..).trans (listed_onToks hf v)

/-- The same where the token of the loop is in hardware. -/
theorem State.Issues.leavesLoopHere {o : Op} {i : Instr} {eff : State → Grp → Res} {above below : List Token}
    (h : s.IssuesPlain o a s.alone) (hi : exec i s = s.issue o a eff)
    (he : eff (s.opened o a s.alone) s.alone = (s.opened o a s.alone).leaveLoop s.cur c f)
    (ht : ((s.opened o a s.alone).warp s.cur).toks = above ++ k :: below) (ha : ∀ j ∈ above, j.kind = .ifTok)
    (hk : k.kind = .loopTok) :
    let r := (s.opened o a s.alone).modWarp s.cur fun x =>
      { x with toks := above.map (Claims.leftBy c) ++ f k :: below, exec := x.exec &&& ~~~c }
    Claims.settles i o a s r (Completes i a s.alone s r) :=
  h.settlesNext hi (he.trans (leaveLoop_here ht ha hk h.listed)) fun _ => modWarp_listed ..

/-- `ENDLOOP` where lanes stay in the loop. -/
theorem effEndloop_repeats (ht : (s.warp (leaderOf g)).toks = k :: ks) (hk : k.kind = .loopTok)
    (hc : condMask (s.warp (leaderOf g)) a ||| k.cont ≠ 0) (ha : k.aux &&& 3 = 0) :
    effEndloop a s g = .moved ((s.modWarp (leaderOf g) fun x =>
      { x with
        toks := { k with brk := k.brk ||| ((s.warp (leaderOf g)).exec &&& ~~~condMask (s.warp (leaderOf g)) a), cont := 0 } :: ks
        exec := condMask (s.warp (leaderOf g)) a ||| k.cont }).jump (leaderOf g) k.aux) := by
  unfold effEndloop
  simp only [ht, hk, hc, ne_eq, not_false_eq_true, if_true]
  rw [State.setTop_setExec ht, State.jumpRes_aligned _ ha]

/-- `ENDLOOP` where none stays. -/
theorem effEndloop_leaves (ht : (s.warp (leaderOf g)).toks = k :: ks) (hk : k.kind = .loopTok)
    (hc : condMask (s.warp (leaderOf g)) a ||| k.cont = 0)
    (hs : (s.setExec (leaderOf g) (k.brk ||| ((s.warp (leaderOf g)).exec &&& ~~~condMask (s.warp (leaderOf g)) a))).popTok
      (leaderOf g) = (s1, none)) :
    effEndloop a s g = s1.settled (leaderOf g) fun t => .next t := by
  unfold effEndloop
  simp only [ht, hk, hc, ne_eq, not_true_eq_false, if_false, if_true]
  rw [State.popped_ok hs]

end

/-- Settles O11: `BREAK` and `CONT` by the one effect that leaves a loop, `LOOP` and `ENDLOOP` by theirs on the top token. -/
theorem loops : Obligations.Loops := by
  refine ⟨fun a s s1 h => ?_, fun a s s1 h => ?_, fun a s k above below h => ?_, fun a s s1 h => ?_,
    fun a s k above below h => ?_, fun a s s1 k ks h => ?_⟩
  · intro s0 x ha hp
    exact h.completes rfl (effLoopc_pushed (g := s.alone) ha hp) (State.listed_pushTok hp)
  · intro s0 c hf
    exact h.leavesLoop rfl rfl hf
  · intro s0 c ht ha hk
    exact h.leavesLoopHere (f := fun k => { k with brk := k.brk ||| c }) rfl rfl ht ha hk
  · intro s0 c hf
    exact h.leavesLoop rfl rfl hf
  · intro s0 c ht ha hk
    exact h.leavesLoopHere (f := fun k => { k with cont := k.cont ||| c }) rfl rfl ht ha hk
  · intro s0 x c ht hk
    refine ⟨fun hc ha => ?_, fun hc hs => ?_⟩
    · exact h.jumpsTo rfl (effEndloop_repeats (g := s.alone) ht hk hc ha) ((State.modWarp_listed ..).trans h.listed)
    · exact h.settlesNext rfl (effEndloop_leaves (g := s.alone) ht hk hc hs) fun w =>
        (State.listed_popTok hs w).trans (State.setExec_listed ..)

end Sys2Proof.Machine

/-! SUPPORT. `CALL`, `RET` and `EXIT` (spec/02 R37, spec/20 R343). -/

namespace Sys2Proof.Machine

section
variable {s s1 r' : State} {a : Args} {g : Grp} {k : Token} {w : Nat} {m : Mask} {above below : List Token}

theorem effCall_pushed (ha : target a (s.warp (leaderOf g)).pc &&& 3 = 0)
    (hp : s.pushTok (leaderOf g)
      { kind := .callTok, join := (s.warp (leaderOf g)).pc + BitVec.ofNat 64 (argBytes a), aux := 0
        saved := (s.warp (leaderOf g)).exec, pend := 0, brk := 0, cont := 0 } = (s1, none)) :
    effCall a s g = .moved (s1.jump (leaderOf g) (target a (s.warp (leaderOf g)).pc)) := by
  unfold effCall
  simp only [misaligned_none ha]
  rw [State.pushed_ok hp]

/-! ## Returning -/

/-- The lanes m are marked on the nearest CALL token and leave every token above it. -/
theorem returnToCall_append (m : Mask) (below : List Token) (ha : ∀ j ∈ above, j.kind ≠ .callTok) (hk : k.kind = .callTok) :
    returnToCall m (above ++ k :: below) = some (above.map (·.clear m) ++ { k with pend := k.pend ||| m } :: below) := by
  induction above with
  | nil =>
    simp only [List.nil_append, returnToCall, hk]
    rw [← hk]
    rfl
  | cons j above ih =>
    have hj := ha j (List.mem_cons_self ..)
    have hi := ih fun i hi => ha i (List.mem_cons_of_mem _ hi)
    rw [List.cons_append, returnToCall]
    split
    · exact absurd ‹_› hj
    · rw [hi]
      rfl

theorem returnToCall_none (m : Mask) {ts : List Token} (h : ∀ j ∈ ts, j.kind ≠ .callTok) : returnToCall m ts = none := by
  induction ts with
  | nil => rfl
  | cons j ts ih =>
    rw [returnToCall]
    split
    · exact absurd ‹_› (h j (List.mem_cons_self ..))
    · rw [ih fun i hi => h i (List.mem_cons_of_mem _ hi)]
      rfl

theorem effRet_found (h : s.onToks (leaderOf g) (returnToCall (s.warp (leaderOf g)).exec) = (s1, .ok true)) :
    effRet s g = (s1.setExec (leaderOf g) 0).settled (leaderOf g) fun t => .next t := by
  unfold effRet
  simp only [h]

/-- `RET` that finds its CALL token and settles. -/
theorem effRet_settles (h : s.onToks (leaderOf g) (returnToCall (s.warp (leaderOf g)).exec) = (s1, .ok true))
    (hl : (mfind s1.warps (leaderOf g)).isSome) (hs : (s1.setExec (leaderOf g) 0).settle (leaderOf g) = (r', none)) :
    effRet s g = .moved r' :=
  (effRet_found h).trans (State.settled_off (State.setExec_exec 0 hl) hs _)

/-- `RET` without a CALL token. -/
theorem effRet_exits (h : s.onToks (leaderOf g) (returnToCall (s.warp (leaderOf g)).exec) = (s1, .ok false))
    (hl : (s.warp (leaderOf g)).late = none ∨ (s.warp (leaderOf g)).spilled = 0 ∨ (s.warp (leaderOf g)).inHandler = true) :
    effRet s g = s1.exitLanes (leaderOf g) := by
  unfold effRet
  simp only [h]
  split
  next t ht =>
    rw [if_pos]
    simpa [ht] using hl
  next => rfl

/-- A stack without a token to act on, none of it spilled. -/
theorem State.onToks_nowhere {f : List Token → Option (List Token)} (h : f (s.warp w).toks = none)
    (hs : (s.warp w).spilled = 0 ∨ (s.warp w).inHandler = true) : s.onToks w f = (s, .ok false) := by
  unfold onToks
  rw [h]
  dsimp only
  split
  · rfl
  · unfold allToks
    dsimp only
    rw [if_pos hs]
    simp only [h]

/-! ## Exiting -/

/-- The state once the EXEC lanes have left the live mask and every token. -/
def State.lanesGone (s : State) (w : Nat) : State :=
  s.modWarp w fun y =>
    { y with live := y.live &&& ~~~(s.warp w).exec, toks := y.toks.map (·.clear (s.warp w).exec),
             savedToks := y.savedToks.map (·.clear (s.warp w).exec), exec := 0 }

/-- Lanes that exit beside other live lanes of a handler whose stack is empty. -/
theorem State.exitLanes_goes (hl : (mfind s.warps w).isSome) (hh : (s.warp w).inHandler = true) (ht : (s.warp w).toks = [])
    (hv : (s.warp w).live &&& ~~~(s.warp w).exec ≠ 0) :
    s.exitLanes w = .next ((s.lanesGone w).setExec w ((s.warp w).live &&& ~~~(s.warp w).exec)) := by
  have hy : (s.lanesGone w).warp w = _ := modWarp_self _ hl
  change (if ((s.lanesGone w).warp w).inHandler && ((s.lanesGone w).warp w).toks.isEmpty && ((s.lanesGone w).warp w).live != 0
    then Res.next ((s.lanesGone w).setExec w ((s.lanesGone w).warp w).live) else _) = _
  rw [hy, if_pos]
  simpa [hh, ht] using hv

/-- Lanes that exit elsewhere: the warp settles. -/
theorem State.exitLanes_settles (hl : (mfind s.warps w).isSome)
    (hn : ¬((s.warp w).inHandler = true ∧ (s.warp w).toks = [] ∧ (s.warp w).live &&& ~~~(s.warp w).exec ≠ 0))
    (hs : (s.lanesGone w).settle w = (r', none)) : s.exitLanes w = .moved r' := by
  have hy : (s.lanesGone w).warp w = _ := modWarp_self _ hl
  change (if ((s.lanesGone w).warp w).inHandler && ((s.lanesGone w).warp w).toks.isEmpty && ((s.lanesGone w).warp w).live != 0
    then _ else (s.lanesGone w).settled w fun t => .next t) = _
  rw [if_neg, settled_off (by rw [hy]) hs]
  rw [hy]
  simpa [and_assoc] using hn

/-- An instruction whose effect is that the EXEC lanes exit. -/
theorem State.Issues.exits {o : Op} {i : Instr} {eff : State → Grp → Res} (h : s.IssuesPlain o a s.alone)
    (hi : exec i s = s.issue o a eff)
    (he : eff (s.opened o a s.alone) s.alone = (s.opened o a s.alone).exitLanes s.cur) : Claims.exits i o a s := by
  unfold Claims.exits
  intro s0 x s1
  refine ⟨fun r' hn hs => ?_, fun hh ht hv => ?_⟩
  · exact h.movesTo hi (he.trans (exitLanes_settles h.listed hn hs))
  · exact h.completes hi (he.trans (exitLanes_goes h.listed hh ht hv)) fun _ =>
      (setExec_listed ..).trans (modWarp_listed ..)

end

/-- Settles O12: `CALL` by the push of its token, `RET` by the token that it finds or as an exit, `EXIT` as an exit. -/
theorem callReturnExit : Obligations.CallReturnExit := by
  refine ⟨fun a s s1 h => ?_, fun a s s1 r' h => ?_, fun a s r' k above below h => ?_, fun a s s1 r' h => ?_,
    fun a s h => ?_, fun a s h => h.exits rfl rfl⟩
  · intro s0 x ha hp
    refine h.jumpsTo rfl (effCall_pushed (g := s.alone) ha hp) ?_
    rw [State.listed_pushTok hp]
    exact h.listed
  · intro s0 hf hl hs
    exact h.movesTo rfl (effRet_settles (g := s.alone) hf hl hs)
  · intro s0 x ht ha hk hs
    have hf : s0.onToks s.cur (returnToCall x.exec) = _ :=
      State.onToks_here (ht ▸ returnToCall_append x.exec below ha hk)
    refine h.movesTo rfl (effRet_settles (g := s.alone) hf ((State.modWarp_listed ..).trans h.listed) ?_)
    rw [State.leaderOf_alone, State.setExec, State.modWarp_modWarp]
    exact hs
  · intro s0 hf hl he
    exact h.movesTo rfl ((effRet_exits (g := s.alone) hf (.inl hl)).trans he)
  · intro x hn hs
    exact h.exits rfl (effRet_exits (g := s.alone) (State.onToks_nowhere (returnToCall_none _ hn) hs) (.inr hs))

end Sys2Proof.Machine

/-! SUPPORT. Where a warp settles (spec/02 R38, R108), and the bounds of the token stack (R40, R42, spec/20 R343). -/

namespace Sys2Proof.Machine

/-! ## Retiring -/

/-- The same warps have fully exited. -/
structure State.SameExits (s r : State) : Prop where
  retired : ∀ v, (r.warp v).retired = (s.warp v).retired

theorem State.SameExits.trans {s r t : State} (h : State.SameExits s r) (h' : State.SameExits r t) : State.SameExits s t :=
  ⟨fun v => (h'.retired v).trans (h.retired v)⟩

theorem State.SameExits.foldl {α : Type} {f : State → α → State} (h : ∀ s x, State.SameExits s (f s x)) (xs : List α)
    (s : State) : State.SameExits s (xs.foldl f s) := by
  induction xs generalizing s with
  | nil => exact ⟨fun _ => rfl⟩
  | cons x xs ih => exact (h s x).trans (ih _)

theorem State.Steady.sameExits {s r : State} (h : State.Steady s r) : State.SameExits s r := ⟨fun v => by rw [h.warp v]⟩

theorem State.sameExits_modWarp (s : State) (w : Nat) (f : Warp → Warp) (hf : ∀ x, (f x).retired = x.retired) :
    State.SameExits s (s.modWarp w f) := by
  refine ⟨fun v => ?_⟩
  by_cases hl : (mfind s.warps w).isSome
  · rw [modWarp_warp _ _ _ _ hl]
    split
    · subst_vars
      exact hf _
    · rfl
  · have e : mfind s.warps w = none := by simpa using hl
    simp [modWarp, mmod, e]

theorem State.sameExits_modWarps (s : State) (ws : List Nat) (f : Warp → Warp) (hf : ∀ x, (f x).retired = x.retired) :
    State.SameExits s (s.modWarps ws f) :=
  .foldl (fun s w => s.sameExits_modWarp w f hf) ws s

theorem State.sameExits_setBar (s : State) (b lvl id : Nat) (x : Bar) : State.SameExits s (s.setBar b lvl id x) := by
  unfold setBar
  dsimp only
  split <;> exact ⟨fun _ => rfl⟩

theorem State.sameExits_resumeBar (s : State) (lvl : Nat) (rels ws : List Nat) :
    State.SameExits s (s.resumeBar lvl rels ws) := by
  have h1 := (traffic_observe (P := fun _ => True) s ws rels).steady
  have h2 := (traffic_acquire (P := fun _ => True) (s.observe ws rels) ws (levelScope lvl) fun _ _ => trivial).steady
  exact (h1.trans h2).sameExits.trans (sameExits_modWarps _ ws _ fun _ => rfl)

theorem State.sameExits_barCheck (s : State) (b lvl id : Nat) (last : Option Nat) :
    State.SameExits s (s.barCheck b lvl id last) := by
  unfold barCheck
  extract_lets x past s1 ws groups again s2
  split
  · have h1 : State.SameExits s s1 := s.sameExits_setBar ..
    have h2 : State.SameExits s1 s2 := .foldl (fun t w => (t.steady_trace ..).sameExits) _ s1
    have h3 : State.SameExits s2 (groups.foldl (fun s g => s.resumeBar lvl x.rels g) s2) :=
      .foldl (fun t g => t.sameExits_resumeBar ..) _ s2
    exact ((h1.trans h2).trans h3).trans (sameExits_modWarps _ again _ fun _ => rfl)
  · exact ⟨fun _ => rfl⟩

theorem State.rdvPause_warps (s : State) (b : Nat) : (s.rdvPause b).warps = s.warps := by
  unfold rdvPause
  split <;> rfl

theorem State.sameExits_rdvReady (s : State) (b : Nat) (was : List Word) : State.SameExits s (s.rdvReady b was) := by
  unfold rdvReady
  exact .foldl (fun t w => (t.steady_trace ..).sameExits) _ s

/-- A warp that retires has fully exited. -/
theorem State.retire_retired {s : State} {w : Nat} (h : (mfind s.warps w).isSome) : ((s.retire w).warp w).retired = true := by
  unfold retire
  extract_lets b s1 s2 was s3
  have hl : (mfind (s.endRun w).warps w).isSome := by
    rw [(s.steady_endRun w).listed]
    exact h
  have h1 : (s1.warp w).retired = true := congrArg Warp.retired (modWarp_self _ hl)
  have h2 : State.SameExits s1 s2 :=
    .foldl (fun t id => (t.sameExits_setBar ..).trans (sameExits_barCheck ..)) (List.range 16) s1
  clear_value s2
  have h3 : State.SameExits s2 (s3.rdvPause b) :=
    ⟨fun v => congrArg (fun m => (mget {} m v).retired) (s3.rdvPause_warps b)⟩
  exact (((h2.trans h3).trans (sameExits_rdvReady ..)).retired w).trans h1

/-! ## Settling -/

section
variable {s s1 : State} {w n : Nat} {k : Token} {ks : List Token}

/-- Setting a resident warp is changing it. -/
theorem State.setWarp_eq_modWarp (f : Warp → Warp) (h : (mfind s.warps w).isSome) :
    { s with warps := mins s.warps w (f (s.warp w)) } = s.modWarp w f := by
  obtain ⟨x, hx⟩ := Option.isSome_iff_exists.1 h
  simp [modWarp, mmod, warp, mget_eq_mfind, hx]

theorem State.settleLoop_on (h : (s.warp w).exec ≠ 0) : s.settleLoop w n = (s, none) := by
  cases n with
  | zero => rfl
  | succ n =>
    unfold settleLoop
    exact if_pos h

theorem State.settleLoop_dead (hx : (s.warp w).exec = 0) (hv : (s.warp w).live = 0) :
    s.settleLoop w (n + 1) = (s.retire w, none) := by
  unfold settleLoop
  simp [hx, hv]

/-- Lanes that wait for the else path. -/
theorem State.settleLoop_if (hx : (s.warp w).exec = 0) (hv : (s.warp w).live ≠ 0) (ht : (s.warp w).toks = k :: ks)
    (hk : k.kind = .ifTok) (hp : k.pend ≠ 0) :
    s.settleLoop w (n + 1) =
      (s.modWarp w fun x => { x with exec := k.pend, pc := k.aux, toks := { k with pend := 0 } :: ks }, none) := by
  unfold settleLoop
  simp only [hx, hv, ht, hk, hp, ne_eq, not_true_eq_false, not_false_eq_true, if_false, if_true]

/-- Lanes that continue a loop. -/
theorem State.settleLoop_loop (hx : (s.warp w).exec = 0) (hv : (s.warp w).live ≠ 0) (ht : (s.warp w).toks = k :: ks)
    (hk : k.kind = .loopTok) (hp : k.cont ≠ 0) :
    s.settleLoop w (n + 1) =
      (s.modWarp w fun x => { x with exec := k.cont, pc := k.aux, toks := { k with cont := 0 } :: ks }, none) := by
  unfold settleLoop
  simp only [hx, hv, ht, hk, hp, ne_eq, not_true_eq_false, not_false_eq_true, if_false, if_true]

/-- What follows the pop of a token: the trap of its refill, or n more steps. -/
def State.settleOn (q : State × Option Trap) (w n : Nat) : State × Option Trap :=
  match q with
  | (s1, some e) => (s1, some e)
  | (s1, none) => s1.settleLoop w n

/-- A token in which no lane waits is popped, and its lanes go on at its join. -/
theorem State.settleLoop_pop (hx : (s.warp w).exec = 0) (hv : (s.warp w).live ≠ 0) (ht : (s.warp w).toks = k :: ks)
    (hk : Claims.tokWaiting k = 0) :
    s.settleLoop w (n + 1) =
      State.settleOn ((s.modWarp w fun y => { y with exec := Claims.tokJoins k, pc := k.join }).popTok w) w n := by
  rw [settleLoop]
  simp only [hx, hv, ht, ne_eq, not_true_eq_false, if_false]
  unfold Claims.tokWaiting at hk
  unfold Claims.tokJoins
  cases hc : k.kind <;> simp only [hc] at hk ⊢
  · rw [if_neg (not_not.2 hk)]
    rfl
  · rw [if_neg (not_not.2 hk)]
    rfl
  · rfl

theorem State.settle_on (h : (s.warp w).exec ≠ 0) : s.settle w = (s, none) := by
  unfold settle settleBy
  exact if_pos h

/-- A warp without EXEC whose next path begins at an aligned address goes there. -/
theorem State.settle_of_loop {x : Word} (hx : (s.warp w).exec = 0) (hl : ∀ n, s.settleLoop w (n + 1) = (s1, none))
    (hr : (s1.warp w).retired = false) (hp : (s1.warp w).pc = x) (hm : x &&& 3 = 0) :
    s.settle w = (({ s1 with warps := mins s1.warps w { s1.warp w with pc := (s.warp w).pc } }).jump w x, none) := by
  unfold settle settleBy
  simp [hx, hl, hr, hp, misaligned_none hm]

/-- The same where the path has only changed the warp. -/
theorem State.settle_modWarp {f : Warp → Warp} {x : Word} (hl : (mfind s.warps w).isSome) (hx : (s.warp w).exec = 0)
    (hn : ∀ n, s.settleLoop w (n + 1) = (s.modWarp w fun y => { f y with pc := x }, none))
    (hr : (f (s.warp w)).retired = false) (hp : (f (s.warp w)).pc = (s.warp w).pc) (hm : x &&& 3 = 0) :
    s.settle w = ((s.modWarp w f).jump w x, none) := by
  have hw : (s.modWarp w fun y => { f y with pc := x }).warp w = { f (s.warp w) with pc := x } := modWarp_self _ hl
  rw [settle_of_loop hx hn (by rw [hw]; exact hr) (by rw [hw]) hm,
    setWarp_eq_modWarp (fun y => { y with pc := (s.warp w).pc }) ((modWarp_listed ..).trans hl), modWarp_modWarp]
  refine congrArg (fun r : State => (r.jump w x, none)) (modWarp_congr ?_)
  rw [← hp]

theorem State.settle_dead (hl : (mfind s.warps w).isSome) (hx : (s.warp w).exec = 0) (hv : (s.warp w).live = 0) :
    s.settle w = (s.retire w, none) := by
  unfold settle settleBy
  simp [hx, settleLoop_dead hx hv, retire_retired hl]

end

theorem settle_paths : Claims.settle := by
  intro s w hl x
  refine ⟨State.settle_on, fun k ks hx hv ht hk hp ha hr => ?_, fun k ks hx hv ht hk hp ha hr => ?_,
    fun k ks s1 hx hv ht hk hj ha hr hp => ?_, fun k ks n hx hv ht hk => State.settleLoop_pop hx hv ht hk,
    fun hx hv => ⟨_, State.settle_dead hl hx hv, State.retire_retired hl⟩⟩
  · exact State.settle_modWarp hl hx (fun _ => State.settleLoop_if hx hv ht hk hp) hr rfl ha
  · exact State.settle_modWarp hl hx (fun _ => State.settleLoop_loop hx hv ht hk hp) hr rfl ha
  · have hs := ((State.steady_popTok (s.modWarp w fun y => { y with exec := Claims.tokJoins k, pc := k.join }) w).warp w)
    rw [hp, State.modWarp_self _ hl] at hs
    have he : (s1.warp w).exec = Claims.tokJoins k := by rw [hs]
    refine State.settle_of_loop hx (fun n => ?_) (by rw [hs]; exact hr) (by rw [hs]) ha
    rw [State.settleLoop_pop hx hv ht hk, hp]
    exact State.settleLoop_on (he ▸ hj)

/-! ## Pushing -/

section
variable {s s1 : State} {w : Nat} {k : Token}

theorem State.pushTok_handler_full (hh : (s.warp w).inHandler = true) (ht : 16 ≤ (s.warp w).toks.length) :
    s.pushTok w k = (s, some (illegal 0x01)) := by
  unfold pushTok
  simp [hh, ht]

theorem State.pushTok_spill_fails {e : Trap} (hh : (s.warp w).inHandler = false) (ht : 32 ≤ (s.warp w).toks.length)
    (hs : s.locSpan w true ((s.warp w).ssp - 256) 256 = (s1, .error e)) : s.pushTok w k = (s1, some e) := by
  unfold pushTok
  simp only [hh, Nat.not_lt.2 ht, hs, Bool.false_eq_true, if_false]

theorem State.pushTok_spills {ls : List Nat} (hh : (s.warp w).inHandler = false) (ht : 32 ≤ (s.warp w).toks.length)
    (hs : s.locSpan w true ((s.warp w).ssp - 256) 256 = (s1, .ok ls)) :
    s.pushTok w k =
      ((((s1.store [w] 0 ((s.warp w).ssp - 256) (ls.zip (((s.warp w).toks.drop 24).reverse.flatMap tokenImage))).modWarp w
        fun y => { y with toks := y.toks.take 24, ssp := (s.warp w).ssp - 256, spilled := y.spilled + 1 }).modWarp w fun y =>
        { y with toks := k :: y.toks }).endRun w, none) := by
  unfold pushTok
  simp only [hh, Nat.not_lt.2 ht, hs, Bool.false_eq_true, if_false]

end

theorem push_token : Claims.pushToken := by
  intro s w k _ x
  refine ⟨fun hh ht => State.pushTok_room s w k ?_, fun hh ht => State.pushTok_room s w k ?_, State.pushTok_handler_full,
    fun s1 e => State.pushTok_spill_fails, fun s1 ls => State.pushTok_spills⟩
  · change _ < if x.inHandler then _ else _
    simpa [hh] using ht
  · change _ < if x.inHandler then _ else _
    simpa [hh] using ht

/-! ## Popping -/

/-- The first value that a function finds below n. -/
theorem findSome?_range {α : Type} {f : Nat → Option α} {x : α} {i : Nat} (hi : f i = some x) (hn : ∀ j < i, f j = none) :
    ∀ n, i < n → (List.range n).findSome? f = some x := by
  intro n
  induction n with
  | zero => exact fun h => absurd h (Nat.not_lt_zero i)
  | succ n ih =>
    intro h
    rw [List.range_succ, List.findSome?_append]
    rcases Nat.lt_succ_iff_lt_or_eq.1 h with h | rfl
    · rw [ih h]
      rfl
    · have : (List.range i).findSome? f = none := by simpa using hn
      simp [this, hi]

/-- Eight values read from the last to the first. -/
theorem filterMap_range_rev {α : Type} {f : Nat → Option α} {xs : List α} {n : Nat} (hl : xs.length = n + 1)
    (h : ∀ i < n + 1, f i = xs[n - i]?) : (((List.range (n + 1)).map f).filterMap id).reverse = xs := by
  have e : (List.range (n + 1)).map f = xs.reverse.map some := by
    refine List.ext_getElem (by simp [hl]) fun i h1 h2 => ?_
    have hi : i < n + 1 := by simpa using h1
    simp only [List.getElem_map, List.getElem_range, List.getElem_reverse, h i hi]
    rw [List.getElem?_eq_getElem (by omega)]
    simp [hl]
  rw [e, List.filterMap_map]
  simp

section
variable {s s1 s2 : State} {w : Nat} {rd : Rd}

theorem State.refill_idle (h : (s.warp w).toks ≠ [] ∨ (s.warp w).spilled = 0 ∨ (s.warp w).inHandler = true) :
    s.refill w = (s, none) := by
  unfold refill
  exact if_pos (by simpa [or_assoc] using h)

/-- A warp whose hardware stack is empty, and of whose stack groups are spilled. -/
structure State.Refills (s : State) (w : Nat) : Prop where
  empty   : (s.warp w).toks = []
  spilled : (s.warp w).spilled ≠ 0
  outside : (s.warp w).inHandler = false

theorem State.Refills.fails {e : Trap} (h : s.Refills w) (hs : s.locSpan w false (s.warp w).ssp 256 = (s1, .error e)) :
    s.refill w = (s1, some e) := by
  obtain ⟨ht, hn, hh⟩ := h
  unfold refill
  simp [ht, hn, hh, hs]

/-- Location i of the images, where the 256 bytes at SSP are at the locations ls. -/
def imageLocs (ls : List Nat) (i : Nat) : List Nat := (ls.drop (32 * i)).take 32

variable {ls : List Nat}

/-- A refill whose first poisoned image is number i. -/
theorem State.Refills.poisoned {i c : Nat} (h : s.Refills w) (hs : s.locSpan w false (s.warp w).ssp 256 = (s1, .ok ls))
    (hr : s1.readNow w 0 ls = (s2, rd)) (hi : i < 8) (hp : rd.poison (imageLocs ls i) = some c)
    (hn : ∀ j < i, rd.poison (imageLocs ls j) = none) :
    s.refill w = (s2, some ⟨0x14, 16 * c, (s.warp w).ssp + BitVec.ofNat 64 (32 * i)⟩) := by
  have hf : (List.range 8).findSome? (fun i => (rd.poison ((ls.drop (32 * i)).take 32)).map fun c => (i, c)) = some (i, c) :=
    findSome?_range (congrArg (Option.map _) hp) (fun j hj => congrArg (Option.map _) (hn j hj)) 8 hi
  obtain ⟨ht, hz, hh⟩ := h
  unfold refill
  simp [ht, hz, hh, hs, hr, hf]

/-- A refill without poison: an image of kind 0b11 is refused, and tokens that can be read are put back. -/
theorem State.Refills.clean (h : s.Refills w) (hs : s.locSpan w false (s.warp w).ssp 256 = (s1, .ok ls))
    (hr : s1.readNow w 0 ls = (s2, rd)) (hn : ∀ i < 8, rd.poison (imageLocs ls i) = none) :
    s.refill w =
      let toks := (List.range 8).map fun i => tokenOfImage (s.warp w).live ((imageLocs ls i).map rd.byte)
      if toks.any Option.isNone then (s2, some (illegal 0x12))
      else
        ((s2.modWarp w fun x =>
          { x with toks := (toks.filterMap id).reverse, ssp := x.ssp + 256, spilled := x.spilled - 1 }).endRun w,
          none) := by
  have hf : (List.range 8).findSome? (fun i => (rd.poison ((ls.drop (32 * i)).take 32)).map fun c => (i, c)) = none := by
    rw [List.findSome?_eq_none_iff]
    exact fun i hi => congrArg (Option.map _) (hn i (List.mem_range.1 hi))
  obtain ⟨ht, hz, hh⟩ := h
  unfold refill
  simp only [ht, hz, hh, hs, hr, hf, List.isEmpty_nil, Bool.not_true, Bool.false_or, decide_false, Bool.false_eq_true, if_false]
  rfl

theorem State.traffic_locSpan (P : Nat → Prop) (s : State) (w : Nat) (write : Bool) (p : Word) (n : Nat)
    (h : ∀ l, s.OnItsWay l → P l) : State.Traffic P s (s.locSpan w write p n).1 := by
  unfold locSpan
  split
  · exact .refl s
  · have ht := traffic_places w { write } p n s h
    split
    all_goals next he => rw [he] at ht; exact ht

/-- Reading the images changes neither SSP nor the count of spilled groups. -/
theorem State.read_images_stack (hs : s.locSpan w false (s.warp w).ssp 256 = (s1, .ok ls)) (hr : s1.readNow w 0 ls = (s2, rd)) :
    (s2.warp w).ssp = (s.warp w).ssp ∧ (s2.warp w).spilled = (s.warp w).spilled := by
  have h1 := traffic_locSpan (fun _ => True) s w false (s.warp w).ssp 256 fun _ _ => trivial
  have h2 := traffic_readNow (P := fun _ => True) s1 w 0 ls fun _ _ => trivial
  rw [hs] at h1
  rw [hr] at h2
  have e := (h1.trans h2).warp w
  exact ⟨(congrArg Warp.ssp e :), (congrArg Warp.spilled e :)⟩

/-- LOC at an aligned SSP. -/
theorem State.locSpan_reads {p : Word} {ps : List Place} (ha : p &&& 31 = 0) (hp : spaceOf p = 5)
    (hs : s.places w {} p 256 = (s1, .ok ps)) : s.locSpan w false p 256 = (s1, .ok (memLocs ps)) := by
  unfold locSpan sspBad
  simp only [ha, hp, hs, ne_eq, not_true_eq_false, if_false]

theorem State.locSpan_faults {p : Word} {e : XFault} (ha : p &&& 31 = 0) (hp : spaceOf p = 5)
    (hs : s.places w {} p 256 = (s1, .error e)) : s.locSpan w false p 256 = (s1, .error e.trap) := by
  unfold locSpan sspBad
  simp only [ha, hp, hs, ne_eq, not_true_eq_false, if_false]

theorem State.locSpan_misaligned {p : Word} (ha : p &&& 31 ≠ 0) : s.locSpan w false p 256 = (s, .error ⟨0x12, 0, p⟩) := by
  unfold locSpan sspBad
  simp only [ha, ne_eq, not_false_eq_true, if_true]
  rfl

theorem State.locSpan_elsewhere {p : Word} (ha : p &&& 31 = 0) (hp : spaceOf p ≠ 5) :
    s.locSpan w false p 256 = (s, .error ⟨0x13, 0, p⟩) := by
  unfold locSpan sspBad
  simp only [ha, hp, ne_eq, not_true_eq_false, not_false_eq_true, if_false, if_true]
  rfl

end

theorem pop_token : Claims.popToken := by
  intro s w hl x s0
  have hx : s0.warp w = { x with toks := x.toks.tail } := State.modWarp_self _ hl
  refine ⟨fun h => State.refill_idle (by rw [hx]; exact h), fun ht hn hh => ?_⟩
  have hf : s0.Refills w := by
    constructor <;> rw [hx]
    exacts [ht, hn, hh]
  have hp : (s0.warp w).ssp = x.ssp := by rw [hx]
  have hv : (s0.warp w).live = x.live := by rw [hx]
  refine ⟨fun ha => ?_, fun ha h5 => ?_, fun s1 e ha h5 hs => ?_, fun s1 ps ha h5 hs => ?_⟩
  · exact hf.fails (hp.symm ▸ State.locSpan_misaligned ha)
  · exact hf.fails (hp.symm ▸ State.locSpan_elsewhere ha h5)
  · exact hf.fails (hp.symm ▸ State.locSpan_faults ha h5 hs)
  · intro ls s2 rd image
    have hs' : s0.locSpan w false (s0.warp w).ssp 256 = (s1, .ok ls) := hp.symm ▸ State.locSpan_reads ha h5 hs
    have hr : s1.readNow w 0 ls = (s2, rd) := rfl
    refine ⟨fun i c hi hc hj => hp ▸ hf.poisoned hs' hr hi hc hj, fun hc => ?_⟩
    have he := hf.clean hs' hr hc
    dsimp only at he
    rw [hv] at he
    refine ⟨fun i hi hk => he.trans (if_pos ?_), fun ks hks hk => he.trans ((if_neg ?_).trans ?_)⟩
    · rw [List.any_map, List.any_eq_true]
      exact ⟨i, List.mem_range.2 hi, congrArg Option.isNone hk⟩
    · rw [List.any_map, List.any_eq_true]
      rintro ⟨i, hi, hn⟩
      have hi := List.mem_range.1 hi
      have hm : (tokenOfImage x.live ((imageLocs ls i).map rd.byte)).isNone := hn
      have hs := hk i hi
      rw [List.getElem?_eq_getElem (by omega)] at hs
      rw [show tokenOfImage x.live ((imageLocs ls i).map rd.byte) = _ from hs] at hm
      cases hm
    · rw [filterMap_range_rev (f := fun i => tokenOfImage x.live ((imageLocs ls i).map rd.byte)) hks hk]
      obtain ⟨h1, h2⟩ := State.read_images_stack hs' hr
      refine congrArg (fun r : State => (r.endRun w, none)) (State.modWarp_congr ?_)
      rw [h1, h2, hx]

/-- Settles O13: settling by the first step of its loop, and the stack by its bounds. -/
theorem tokenStack : Obligations.TokenStack := ⟨settle_paths, push_token, pop_token⟩

end Sys2Proof.Machine

/-! SUPPORT. Special registers (spec/05 R120, R121): what `SRD` reads, and what each `SWR` accepts and changes. -/

namespace Sys2Proof.Machine

/-! ## `SRD` -/

/-- What `SRD` writes to a lane (R25, R120). -/
def State.srdWrites (s : State) (a : Args) (g : Grp) (m l : Nat) : Word :=
  if a.func = 0x24 ∧ a.scope ≠ .warp then
    BitVec.ofNat 64 (l + 32 * (if a.scope = .set then (s.warp m).wid % (s.blkOf (leaderOf g)).setw
      else if a.scope = .block then (s.warp m).wid else 0))
  else s.srdValue (leaderOf g) a.func.toNat

theorem State.srdWrites_warp (s : State) {a : Args} (g : Grp) (m l : Nat) (h : a.scope = .warp) :
    s.srdWrites a g m l = s.srdValue (leaderOf g) a.func.toNat := if_neg fun x => x.2 h

theorem State.srdLane_eq (s : State) {a : Args} (g : Grp) (m l : Nat) (h : a.scope ≠ .warp) :
    s.srdLane g a m l = s.srdWrites a g m l := by
  unfold srdLane srdWrites
  dsimp only
  by_cases hf : a.func = 0x24
  · rw [if_pos hf, if_pos ⟨hf, h⟩, Nat.add_comm]
    cases hs : a.scope <;> simp
  · rw [if_neg hf, if_neg fun x => hf x.1]

/-- Where the flags do not keep it waiting, `SRD` writes its destination. -/
theorem effSrd_wrote {s : State} {a : Args} {g : Grp} (hg : s.GrpOk g)
    (hw : ¬(a.func = 0x06 ∧ s.flagsWait (leaderOf g) = true)) :
    ∃ r, effSrd a s g = .next r ∧ (∀ w, (mfind r.warps w).isSome = (mfind s.warps w).isSome) ∧
      State.WroteD s r a (Args.vec a) g (s.actedOf a) (s.srdWrites a g) (fun _ => 0) := by
  by_cases hs : a.scope = .warp
  · refine ⟨_, (if_neg hw).trans (if_pos hs), s.setScalar_listed g _ _ _, ?_⟩
    have hv : Args.vec a = false := by simp [Args.vec, hs]
    rw [hv]
    exact s.setScalar_only g a _ _ hg _ (s.srdWrites_warp g _ _ hs)
  · refine ⟨_, (if_neg hw).trans (if_neg hs), s.foldWarps_listed g
      (fun m x => x.writeLanes a.d.toNat (s.actedOf a m) fun l => (s.srdLane g a m.1 l, 0)), ?_⟩
    have hv : Args.vec a = true := by simpa [Args.vec] using hs
    have h := s.writeLanes_wrote g a (s.actedOf a) (fun m l => (s.srdLane g a m.1 l, 0)) hg (fun _ => State.actedOf_lt)
      (s.srdWrites a g) fun m _ l => s.srdLane_eq g m.1 l hs
    have hz : (fun m => (s.actedOf a m).foldl (fun x _ => x ||| BitVec.ofNat 64 0) 0) = fun _ => (0 : Word) := by
      funext m
      simp
    rw [hv]
    rwa [hz] at h

/-- Settles O17: every lane receives the register read for the leader, and LANEID its own place. -/
theorem specialRead : Obligations.SpecialRead := by
  intro a s g h s0 hw
  obtain ⟨r, he, hl, hr⟩ := effSrd_wrote h.grpOk hw
  exact ⟨r, h.completes rfl he hl, hr⟩

/-! ## Values that `SWR` accepts -/

theorem shiftRight_eq_zero_iff (x : Word) (n : Nat) : x >>> n = 0 ↔ x.toNat < 2 ^ n := by
  rw [← BitVec.toNat_inj, BitVec.toNat_ushiftRight, Nat.shiftRight_eq_div_pow]
  simp [Nat.div_eq_zero_iff]

theorem shiftRight_bne_zero (x : Word) (n : Nat) : (x >>> n != 0) = !decide (x.toNat < 2 ^ n) := by
  rw [bne, beq_eq_decide, decide_eq_decide.2 (shiftRight_eq_zero_iff x n)]

section
variable {s : State} {o : Op} {a : Args} {i : Instr} {eff : State → Grp → Res} {bad : Bool} {f : Warp → Warp}

/-- A write to a register of the warp whose value is accepted or refused. -/
theorem State.Issues.swrWarp (h : s.IssuesPlain o a s.alone) (hi : exec i s = s.issue o a eff)
    (he : eff (s.opened o a s.alone) s.alone = (s.opened o a s.alone).swrWarp s.alone bad f) :
    (bad = false → Completes i a s.alone s ((s.opened o a s.alone).modWarp s.cur f)) ∧
    (bad = true → Claims.traps i o a s ⟨0x01, 0x13, 0⟩) := by
  refine ⟨fun hb => ?_, fun hb => ?_⟩
  · subst hb
    exact h.completes hi he fun w => State.modWarp_listed ..
  · subst hb
    exact h.trapsAlone hi he

/-- The same with the values that are accepted. -/
theorem State.Issues.swrWarp_ok {ok : Bool} (h : s.IssuesPlain o a s.alone) (hi : exec i s = s.issue o a eff)
    (he : eff (s.opened o a s.alone) s.alone = (s.opened o a s.alone).swrWarp s.alone (!ok) f) :
    (ok = true → Completes i a s.alone s ((s.opened o a s.alone).modWarp s.cur f)) ∧
    (ok = false → Claims.traps i o a s ⟨0x01, 0x13, 0⟩) := by
  obtain ⟨h1, h2⟩ := h.swrWarp hi he
  exact ⟨fun hk => h1 (by rw [hk]; rfl), fun hk => h2 (by rw [hk]; rfl)⟩

end

/-! ## Registers of the warp -/

section
variable {s : State} {a : Args} {g : Grp}

theorem effSwr_ssp (h : a.func.toNat = 0x08) :
    effSwr a s g = s.swrWarp g (!true) fun w => { w with ssp := s.swrVal g a } := by
  unfold effSwr
  rw [h]
  rfl

theorem effSwr_cause (h : a.func.toNat = 0x10) :
    effSwr a s g = s.swrWarp g (!decide ((s.swrVal g a).toNat < 2 ^ 21)) fun w => { w with cause := s.swrVal g a } := by
  unfold effSwr
  rw [h, ← shiftRight_bne_zero]
  rfl

theorem effSwr_epc (h : a.func.toNat = 0x11) :
    effSwr a s g = s.swrWarp g (!true) fun w => { w with epc := s.swrVal g a } := by
  unfold effSwr
  rw [h]
  rfl

theorem effSwr_badaddr (h : a.func.toNat = 0x12) :
    effSwr a s g = s.swrWarp g (!true) fun w => { w with badaddr := s.swrVal g a } := by
  unfold effSwr
  rw [h]
  rfl

theorem effSwrLossScale_eq (a : Args) (s : State) (g : Grp) :
    effSwrLossScale a s g =
      s.swrWarp g (!decide ((s.swrVal g a).toNat < 256)) fun w => { w with lossScale := s.swrVal g a } := by
  rw [show (256 : Nat) = 2 ^ 8 from rfl, ← shiftRight_bne_zero]
  rfl

end

theorem special_write : Claims.specialWrite := by
  refine ⟨fun e he a s h hf => ?_, fun a s h => ?_, fun a s h => ?_⟩
  · intro s0 x
    simp only [Claims.sprs, List.mem_cons, List.not_mem_nil, or_false] at he
    rcases he with rfl | rfl | rfl | rfl | rfl | rfl | rfl
    · exact h.swrWarp_ok rfl (effSwr_ssp hf)
    · exact h.swrWarp_ok rfl (effSwr_cause hf)
    · exact h.swrWarp_ok rfl (effSwr_epc hf)
    · exact h.swrWarp_ok rfl (effSwr_badaddr hf)
    · exact h.swrWarp_ok rfl rfl
    · exact h.swrWarp_ok rfl (effSwrLossScale_eq ..)
    · exact h.swrWarp_ok rfl rfl
  · intro s0 x hw
    have he : effSwrOvfFlags a s0 s.alone = s0.swrWarp s.alone (x &&& ~~~0x73F#64 != 0) fun w => { w with ovf := x } :=
      if_neg (by rw [State.leaderOf_alone, hw]; exact Bool.false_ne_true)
    obtain ⟨h1, h2⟩ := h.swrWarp (i := .swrOvfFlags a) rfl he
    exact ⟨fun hx => h1 (by simpa using hx), fun hx => h2 (by simpa using hx)⟩
  · intro s0 x e
    refine ⟨fun hx hz => ?_, fun hx hz => ?_, fun hx => ?_⟩
    · have hx := not_not.2 ((shiftRight_eq_zero_iff x 32).2 hx)
      exact h.completes rfl ((if_neg hx).trans (if_neg hz)) fun w => State.modWarp_listed ..
    · have hx := not_not.2 ((shiftRight_eq_zero_iff x 32).2 hx)
      exact h.trapsAlone rfl ((if_neg hx).trans (if_pos hz))
    · exact h.trapsAlone rfl (if_pos fun hz => Nat.not_lt.2 hx ((shiftRight_eq_zero_iff x 32).1 hz))

/-! ## Registers of the context and of the core -/

/-- A new level in each of some cores, which instructions of clock clk do not see yet (R121). -/
def State.setLevels (s : State) (clk l : Nat) (ks : List Nat) : State :=
  ks.foldl (fun t k => t.modCore k fun y => { y with level := l, levelWas := some (noteWas y.levelWas clk y.level) }) s

theorem State.setLevels_warps (clk l : Nat) (ks : List Nat) : ∀ s : State, (s.setLevels clk l ks).warps = s.warps := by
  induction ks with
  | nil => exact fun _ => rfl
  | cons k ks ih => exact fun s => ih _

/-- The clock of the device is that of every level set. -/
theorem State.foldl_setLevel (l : Nat) (ks : List Nat) : ∀ s : State,
    ks.foldl (fun t k => t.modCore k fun y => { y with level := l, levelWas := some (noteWas y.levelWas t.clock y.level) }) s =
      s.setLevels s.clock l ks := by
  induction ks with
  | nil => exact fun _ => rfl
  | cons k ks ih => exact fun s => ih _

theorem ebudget_rate (x : Word) : (x.extractLsb' 48 16).toNat = x.toNat / 2 ^ 48 := by
  rw [BitVec.extractLsb'_toNat, Nat.shiftRight_eq_div_pow]
  exact Nat.mod_eq_of_lt (by have := x.isLt; omega)

theorem ebudget_cap (x : Word) : (x.extractLsb' 24 24).toNat = x.toNat / 2 ^ 24 % 2 ^ 24 := by
  rw [BitVec.extractLsb'_toNat, Nat.shiftRight_eq_div_pow]

theorem ebudget_level (x : Word) : (x.extractLsb' 0 24).toNat = x.toNat % 2 ^ 24 := by
  rw [BitVec.extractLsb'_toNat, Nat.shiftRight_zero]

/-- A write of EBUDGET, in the numbers of its fields (R305). -/
theorem State.setBudget_eq (s : State) (c : Nat) (x : Word) : s.setBudget c x =
    let s1 := s.modCtx c fun k =>
      { k with ebRate := x.toNat / 2 ^ 48, ebCap := x.toNat / 2 ^ 24 % 2 ^ 24
               ebWas := some (noteWas k.ebWas s.clock (k.ebRate, k.ebCap)) }
    s1.setLevels s.clock (x.toNat % 2 ^ 24) (s1.ctx c).crec.cores := by
  unfold setBudget
  rw [ebudget_rate, ebudget_cap, ebudget_level]
  exact foldl_setLevel ..

theorem State.setBudget_warps (s : State) (c : Nat) (x : Word) : (s.setBudget c x).warps = s.warps := by
  rw [setBudget_eq]
  exact setLevels_warps ..

section
variable {s s1 : State} {a : Args} {g : Grp}

/-- A value of DUMP_BASE that names memory. -/
theorem effSwrDumpBase_ok {p : Place} (hz : s.swrVal g a ≠ 0) (hx : (s.swrVal g a).toNat % 4096 = 0)
    (hs : spaceOf (s.swrVal g a) ≤ 3) (hp : s.place (leaderOf g) { write := true } (s.swrVal g a) = (s1, .ok p)) :
    effSwrDumpBase a s g = .next (s1.modCtx (s1.warp (leaderOf g)).ctx fun c =>
      { c with dumpBase := s.swrVal g a, dumpWas := some (noteWas c.dumpWas s1.clock c.dumpBase) }) := by
  unfold effSwrDumpBase
  simp only [hz, hx, Nat.not_lt.2 hs, hp, ne_eq, not_true_eq_false, if_false]

/-- One whose translation fails. -/
theorem effSwrDumpBase_error {e : XFault} (hz : s.swrVal g a ≠ 0) (hx : (s.swrVal g a).toNat % 4096 = 0)
    (hs : spaceOf (s.swrVal g a) ≤ 3) (hp : s.place (leaderOf g) { write := true } (s.swrVal g a) = (s1, .error e)) :
    effSwrDumpBase a s g = .trap s1 e.trap := by
  unfold effSwrDumpBase
  simp only [hz, hx, Nat.not_lt.2 hs, hp, ne_eq, not_true_eq_false, if_false]

end

theorem shared_write : Claims.sharedWrite := by
  refine ⟨fun a s h => ?_, fun a s h => ?_, fun a s h => ?_⟩
  · intro s0 x
    have hc : ((s0.swrVal s.alone a).extractLsb' 24 24).toNat = x / 2 ^ 24 % 2 ^ 24 := ebudget_cap _
    have hl : ((s0.swrVal s.alone a).extractLsb' 0 24).toNat = x % 2 ^ 24 := ebudget_level _
    refine ⟨fun hx => ?_, fun hx => h.trapsAlone rfl (if_pos (by rw [hc, hl]; exact hx))⟩
    intro c s1
    have he : effSwrEbudget a s0 s.alone = .next (s0.setBudget c (s0.swrVal s.alone a)) :=
      if_neg (by rw [hc, hl]; exact Nat.not_lt.2 hx)
    have hb := h.completes (i := .swrEbudget a) rfl he fun w => by rw [State.setBudget_warps]
    rwa [State.setBudget_eq] at hb
  · intro s0 x set
    have h0 : x.toNat % 4096 ≠ 0 → x ≠ 0 := fun hx hz => hx (by rw [hz]; rfl)
    have h1 : 3 < spaceOf x → x ≠ 0 := fun hx hz => by rw [hz] at hx; exact absurd hx (by decide)
    refine ⟨fun hx => ?_, fun hx => ?_, fun hx hs => ?_, fun s1 p hz hx hs hp hw => ?_, fun s1 e hz hx hs hp => ?_⟩
    · exact h.completes rfl (if_pos hx) fun _ => rfl
    · exact h.trapsAlone rfl ((if_neg (h0 hx)).trans (if_pos hx))
    · exact h.trapsAlone rfl ((if_neg (h1 hs)).trans ((if_neg (not_not.2 hx)).trans (if_pos hs)))
    · exact h.completes rfl (effSwrDumpBase_ok (g := s.alone) hz hx hs hp) hw
    · exact congrArg Host.Outcome.next (h.traps _ (effSwrDumpBase_error (g := s.alone) hz hx hs hp))
  · intro s0 x
    refine ⟨fun hx => ?_, fun hx => ?_⟩
    · exact h.completes rfl (if_neg (not_not.2 hx)) fun _ => rfl
    · exact h.trapsAlone rfl (if_pos hx)

/-- Settles O20: each `SWR` by the values its register accepts. -/
theorem specialWrites : Obligations.SpecialWrites := ⟨special_write, shared_write⟩

end Sys2Proof.Machine

/-! SUPPORT. The watchdogs (spec/02 R32, spec/20 R344, R348, R349), and what taking a trap leaves of the warps beside the one that
takes it. -/

namespace Sys2Proof.Machine

/-! ## Lists in slot order -/

theorem insertBy_perm {α : Type} (key : α → Nat) (x : α) (xs : List α) : (insertBy key x xs).Perm (x :: xs) := by
  induction xs with
  | nil => exact .refl _
  | cons y ys ih =>
    unfold insertBy
    split
    · exact .refl _
    · exact (ih.cons y).trans (.swap x y ys)

theorem sortBy_perm {α : Type} (key : α → Nat) (xs : List α) : (sortBy key xs).Perm xs := by
  have h : ∀ acc, (xs.foldl (fun acc x => insertBy key x acc) acc).Perm (xs ++ acc) := by
    induction xs with
    | nil => exact fun acc => .refl acc
    | cons x xs ih => exact fun acc => (ih _).trans (((insertBy_perm key x acc).append_left xs).trans List.perm_middle)
  exact (h []).trans (.of_eq xs.append_nil)

/-! ## What a trap leaves -/

/-- Every warp is steady, and no rendezvous opens where a block has none. -/
structure State.Calm (s r : State) : Prop where
  warp   : ∀ v, Warp.Steady (s.warp v) (r.warp v)
  listed : ∀ v, (mfind r.warps v).isSome = (mfind s.warps v).isSome
  rdvs   : ∀ b, (s.blk b).rdvs = [] → (r.blk b).rdvs = []

theorem State.Calm.refl (s : State) : State.Calm s s := ⟨fun _ => rfl, fun _ => rfl, fun _ => id⟩

theorem State.Calm.trans {s r t : State} (h : State.Calm s r) (h' : State.Calm r t) : State.Calm s t :=
  ⟨fun v => (h.warp v).trans (h'.warp v), fun v => (h'.listed v).trans (h.listed v), fun b hb => h'.rdvs b (h.rdvs b hb)⟩

theorem State.Calm.foldl {α : Type} {f : State → α → State} (h : ∀ s x, State.Calm s (f s x)) (xs : List α) (s : State) :
    State.Calm s (xs.foldl f s) := by
  induction xs generalizing s with
  | nil => exact .refl s
  | cons x xs ih => exact (h s x).trans (ih _)

theorem State.Steady.calm {s r : State} (h : State.Steady s r) : State.Calm s r :=
  ⟨h.warp, h.listed, fun b hb => by rwa [blk, h.blocks]⟩

theorem State.calm_modCtx (s : State) (c : Nat) (f : Ctx → Ctx) : State.Calm s (s.modCtx c f) :=
  ⟨fun _ => rfl, fun _ => rfl, fun _ => id⟩

theorem State.calm_modCore (s : State) (k : Nat) (f : Core → Core) : State.Calm s (s.modCore k f) :=
  ⟨fun _ => rfl, fun _ => rfl, fun _ => id⟩

theorem State.calm_rdvPause (s : State) (b : Nat) : State.Calm s (s.rdvPause b) := by
  refine ⟨fun v => ?_, fun v => by rw [rdvPause_warps], fun j hj => ?_⟩
  · rw [show (s.rdvPause b).warp v = s.warp v by rw [warp, rdvPause_warps]; rfl]
    rfl
  · by_cases hb : j = b
    · subst hb
      unfold rdvPause
      rw [hj]
      exact hj
    · unfold rdvPause
      split
      · exact hj
      · rw [modBlk_blk_ne _ _ hb]
        exact hj

theorem State.calm_pauseRdvs (s : State) (c : Nat) : State.Calm s (s.pauseRdvs c) := by
  unfold pauseRdvs
  exact (State.Calm.foldl calm_rdvPause _ s).trans (.foldl (fun t w => (t.steady_endRun w).calm) _ _)

/-- Warp w has taken a trap with these registers; every other warp is steady. -/
structure State.TookTrap (w : Nat) (cause epc badaddr : Word) (s r : State) : Prop where
  regs   : (r.warp w).cause = cause ∧ (r.warp w).epc = epc ∧ (r.warp w).badaddr = badaddr
  others : ∀ v, v ≠ w → Warp.Steady (s.warp v) (r.warp v)
  listed : ∀ v, (mfind r.warps v).isSome = (mfind s.warps v).isSome
  rdvs   : ∀ b, (s.blk b).rdvs = [] → (r.blk b).rdvs = []

section
variable {s s1 r : State} {w : Nat} {cause epc badaddr : Word} {t : Trap} {origin : Nat}

theorem State.Calm.tookTrap (h : State.Calm s s1) (h' : State.TookTrap w cause epc badaddr s1 r) :
    State.TookTrap w cause epc badaddr s r :=
  ⟨h'.regs, fun v hv => (h.warp v).trans (h'.others v hv), fun v => (h'.listed v).trans (h.listed v),
    fun b hb => h'.rdvs b (h.rdvs b hb)⟩

/-- The trap registers are set, and all that follows leaves every warp steady. -/
theorem State.tookTrap_modWarp {f : Warp → Warp} (hl : (mfind s.warps w).isSome)
    (hf : (f (s.warp w)).cause = cause ∧ (f (s.warp w)).epc = epc ∧ (f (s.warp w)).badaddr = badaddr)
    (h : State.Calm (s.modWarp w f) r) : State.TookTrap w cause epc badaddr s r := by
  refine ⟨?_, fun v hv => ?_, fun v => (h.listed v).trans (modWarp_listed ..), h.rdvs⟩
  · have hw := h.warp w
    rw [modWarp_self f hl] at hw
    exact ⟨(congrArg Warp.cause hw :).trans hf.1, (congrArg Warp.epc hw :).trans hf.2.1,
      (congrArg Warp.badaddr hw :).trans hf.2.2⟩
  · have hw := h.warp v
    rwa [modWarp_warp_ne _ _ hv] at hw

theorem State.tookTrap_fatalAt (t : Trap) (epc : Word) (origin : Nat) (gone : List Nat) (hl : (mfind s.warps w).isSome) :
    State.TookTrap w (causeWord t origin) epc t.addr s (s.fatalAt w t epc origin gone) := by
  unfold fatalAt
  extract_lets s0 s1 c d s2 s3
  have h0 : State.Calm s s0 := (s.steady_endRun w).calm
  refine h0.tookTrap (tookTrap_modWarp (f := fun x => { x.setTrapRegs t epc origin with stopped := true, park := .none })
    ((h0.listed w).trans hl) ⟨rfl, rfl, rfl⟩ ?_)
  change State.Calm s1 _
  split
  · exact calm_modCtx ..
  · have h2 : State.Calm s1 s2 := (s1.steady_trace ..).calm
    have h3 : State.Calm s2 s3 := .foldl (fun u k => calm_modCore ..) _ s2
    exact ((h2.trans h3).trans (calm_modCtx ..)).trans (calm_pauseRdvs ..)

theorem State.steady_readTrapVec (s : State) (w : Nat) : State.Steady s (s.readTrapVec w).1 := by
  unfold readTrapVec
  have h := s.steady_places w {} 0x5000000000000000 8
  split
  next he => rw [he] at h; exact h
  next s1 ps he =>
    rw [he] at h
    have h2 := h.trans (s1.steady_readNow w 0 (memLocs ps))
    extract_lets ls
    change State.Steady s (s1.readNow w 0 ls).1 at h2
    generalize s1.readNow w 0 ls = q at h2 ⊢
    obtain ⟨s2, rd⟩ := q
    dsimp -zeta only at h2 ⊢
    extract_lets
    split <;> exact h2

/-- A trap of a warp outside a handler (R342, R341, R350): its registers are set, whether it enters its handler or stops. -/
theorem State.tookTrap_trapAt (t : Trap) (epc : Word) (origin : Nat) (hl : (mfind s.warps w).isSome)
    (hh : (s.warp w).inHandler = false) :
    State.TookTrap w (causeWord t origin) epc t.addr s (s.trapAt w t epc origin) := by
  have hv := s.steady_readTrapVec w
  have hfatal : ∀ s1 v, s.readTrapVec w = (s1, v) →
      State.TookTrap w (causeWord t origin) epc t.addr s (s1.fatalAt w t epc origin []) := fun s1 v he => by
    rw [he] at hv
    exact hv.calm.tookTrap (tookTrap_fatalAt t epc origin [] ((hv.listed w).trans hl))
  unfold trapAt
  extract_lets x
  rw [if_neg (by rw [hh]; exact Bool.false_ne_true)]
  split
  · split
    next s1 h he =>
      split
      · exact hfatal s1 _ he
      · rw [he] at hv
        have h1 := hv.calm.trans (s1.steady_endRun w).calm
        exact h1.tookTrap (tookTrap_modWarp ((h1.listed w).trans hl) ⟨rfl, rfl, rfl⟩ (.refl _))
    next s1 he => exact hfatal s1 _ he
  · split
    next s1 he => exact hfatal s1 _ he
    next s1 h he =>
      split
      · exact hfatal s1 _ he
      · extract_lets s2 s3
        rw [he] at hv
        have h2 : State.Calm s1 s2 := by
          unfold s2
          split
          · exact (s1.steady_trace ..).calm
          · exact .refl s1
        have h3 := ((hv.calm.trans h2).trans (s2.steady_trace w 2 (causeWord t origin)).calm).trans (s3.steady_endRun w).calm
        exact h3.tookTrap (tookTrap_modWarp ((h3.listed w).trans hl) ⟨rfl, rfl, rfl⟩ (calm_rdvPause ..))

end

/-- Warps outside handlers that trap one after another: each with its own registers. -/
theorem State.trap_each (t : Trap) (ws : List Nat) : ∀ s : State, ws.Nodup →
    (∀ w ∈ ws, (mfind s.warps w).isSome ∧ (s.warp w).inHandler = false) →
    let r := ws.foldl (fun s w => s.trap w t) s
    (∀ w ∈ ws, (r.warp w).cause = causeWord t (s.warp w).wid ∧ (r.warp w).epc = (s.warp w).pc ∧ (r.warp w).badaddr = t.addr) ∧
    (∀ v, v ∉ ws → Warp.Steady (s.warp v) (r.warp v)) ∧ ∀ b, (s.blk b).rdvs = [] → (r.blk b).rdvs = [] := by
  induction ws with
  | nil => exact fun s _ _ => ⟨fun w hw => absurd hw List.not_mem_nil, fun _ _ => rfl, fun _ => id⟩
  | cons w ws ih =>
    intro s hn hs
    obtain ⟨hw, hn⟩ := List.nodup_cons.1 hn
    obtain ⟨hl, hh⟩ := hs w (List.mem_cons_self ..)
    have h1 : State.TookTrap w (causeWord t (s.warp w).wid) (s.warp w).pc t.addr s (s.trap w t) :=
      tookTrap_trapAt t _ _ hl hh
    have hv : ∀ v ∈ ws, Warp.Steady (s.warp v) ((s.trap w t).warp v) := fun v hv => h1.others v fun e => hw (e ▸ hv)
    obtain ⟨ha, hb, hc⟩ := ih (s.trap w t) hn fun v hm => by
      obtain ⟨hl, hh⟩ := hs v (List.mem_cons_of_mem _ hm)
      exact ⟨(h1.listed v).trans hl, (congrArg Warp.inHandler (hv v hm) :).trans hh⟩
    refine ⟨fun v hm => ?_, fun v hm => ?_, fun b h => hc b (h1.rdvs b h)⟩
    · rcases List.mem_cons.1 hm with rfl | hm
      · have hk := hb v hw
        obtain ⟨r1, r2, r3⟩ := h1.regs
        exact ⟨(congrArg Warp.cause hk :).trans r1, (congrArg Warp.epc hk :).trans r2, (congrArg Warp.badaddr hk :).trans r3⟩
      · have hk := ha v hm
        rwa [(congrArg Warp.wid (hv v hm) :), (congrArg Warp.pc (hv v hm) :)] at hk
    · obtain ⟨hv1, hv2⟩ := not_or.1 (mt List.mem_cons.2 hm)
      exact (h1.others v hv1).trans (hb v hv2)

/-! ## The rendezvous watchdog -/

theorem State.rdvExpired_counted {s : State} {b : Nat} {r : Rdv} (hs : r.stop = none)
    (hc : 2 ^ (s.stageOf (s.blk b)).lrec.wdog ≤ s.clock - r.first - r.paused) (hw : s.rdvWhole b r = false) :
    s.rdvExpired b r = true := by
  unfold rdvExpired rdvCount
  simp [hs, hw, hc]

/-- The state in which the members of an expired rendezvous trap: it is open no longer. -/
def State.rdvGone (s : State) (b : Nat) (r : Rdv) : State :=
  s.modBlk b fun k => { k with rdvs := k.rdvs.filter (· != r) }

theorem rendezvous_expiry : Claims.rendezvousExpiry := by
  refine ⟨fun s b r hb hs hl hc hw hn _ hm => ?_, fun s b pc h => ?_⟩
  · have hx := State.rdvExpired_counted hs hc hw
    have hp := sortBy_perm (fun w => ((s.rdvGone b r).warp w).slot) (r.arrived.map (·.1))
    have hg : ((s.rdvGone b r).blk b).rdvs = [] := by
      rw [State.rdvGone, State.modBlk_blk _ _ _ _ hl, if_pos rfl]
      simp [hb]
    obtain ⟨ha, -, hc⟩ := State.trap_each { code := 0x04, detail := r.arrived.length } _ (s.rdvGone b r) (hp.nodup_iff.2 hn)
      fun w hw => by
        obtain ⟨e, he, rfl⟩ := List.mem_map.1 (hp.mem_iff.1 hw)
        exact hm e he
    refine ⟨_, ?_, hc b hg, fun e he => ?_⟩
    · change execRendezvousTimeout b r.pc s = _
      unfold execRendezvousTimeout
      rw [hb]
      simp only [List.filter_cons, List.filter_nil, hx, beq_self_eq_true, Bool.and_true, if_true, List.foldl_cons,
        List.foldl_nil]
      rfl
    · obtain ⟨h1, h2, h3⟩ := ha e.1 (hp.mem_iff.2 (List.mem_map_of_mem he))
      refine ⟨h1.trans ?_, h2, h3⟩
      unfold causeWord Claims.causeOf
      congr 1
      change 4 + r.arrived.length * 2 ^ 8 + (s.warp e.1).wid * 2 ^ 16 = _
      omega
  · have he : (s.blk b).rdvs.filter (fun r => r.pc == pc && s.rdvExpired b r) = [] := by
      rw [List.filter_eq_nil_iff]
      intro r hr hx
      rw [Bool.and_eq_true, beq_iff_eq] at hx
      exact absurd hx.2 (by rw [h r hr hx.1]; exact Bool.false_ne_true)
    change execRendezvousTimeout b pc s = _
    unfold execRendezvousTimeout
    rw [he]
    rfl

/-! ## Watchdogs of a warp -/

theorem Warp.overdue_eq {x : Warp} {n : Nat} (h : x.waitFrom = some n) (clock : Nat) :
    x.overdue clock = decide (2 ^ 28 ≤ x.waited + (clock - n)) := by
  unfold overdue
  rw [h]

theorem warp_watchdogs : Claims.warpWatchdogs := by
  refine ⟨fun s w n hf hm hd => ?_, fun s w hh hs hd => ?_⟩
  · have ho := Warp.overdue_eq hf s.clock
    refine ⟨fun hn => if_neg fun hx => ?_, fun hn => if_pos ?_⟩
    · rw [ho, Bool.and_eq_true, decide_eq_true_eq] at hx
      exact absurd hx.2 (Nat.not_le.2 hn)
    · rw [ho, hm, decide_eq_true hn]
      simp [State.ctxOf, hd]
  · refine ⟨fun hn => if_neg fun hx => ?_, fun hn => if_pos ?_⟩
    · rw [Bool.and_eq_true, decide_eq_true_eq] at hx
      exact absurd hx.2 (Nat.not_le.2 hn)
    · simp [hh, hs, hd, hn]

/-- Settles O50: a rendezvous expires by the traps of its members in turn, a warp by its fatal trap. -/
theorem watchdogs : Obligations.Watchdogs := ⟨rendezvous_expiry, warp_watchdogs⟩

end Sys2Proof.Machine

/-! SUPPORT. Arbitration (spec/13 R300 to R302): the order in which warps are chosen, the runs that wait for a leader, and the
grant of a slot. -/

namespace Sys2Proof.Machine

/-! ## Listed keys -/

theorem mfind_of_mem {α : Type} {m : SMap α} (h : msorted m = true) {e : Nat × α} (he : e ∈ m) : mfind m e.1 = some e.2 := by
  induction m with
  | nil => cases he
  | cons j m ih =>
    obtain ⟨k, x⟩ := j
    simp only [msorted, Bool.and_eq_true, List.all_eq_true, decide_eq_true_eq] at h
    unfold mfind
    rcases List.mem_cons.1 he with rfl | he
    · exact if_pos rfl
    · rw [if_neg (Nat.ne_of_gt (h.1 e he))]
      exact ih h.2 he

theorem nodup_keys {α : Type} {m : SMap α} (h : msorted m = true) : (m.map (·.1)).Nodup := by
  induction m with
  | nil => exact List.nodup_nil
  | cons j m ih =>
    obtain ⟨k, x⟩ := j
    simp only [msorted, Bool.and_eq_true, List.all_eq_true, decide_eq_true_eq] at h
    refine List.nodup_cons.2 ⟨fun hk => ?_, ih h.2⟩
    obtain ⟨e, he, hek⟩ := List.mem_map.1 hk
    exact absurd (h.1 e he) (Nat.not_lt.2 (Nat.le_of_eq hek))

/-- The warps that a filter over the entries keeps. -/
theorem State.mem_filter_warps {s : State} (h : msorted s.warps = true) (p : Nat → Warp → Bool) (v : Nat) :
    v ∈ (s.warps.filter fun e => p e.1 e.2).map (·.1) ↔ (mfind s.warps v).isSome ∧ p v (s.warp v) = true := by
  have hw : ∀ e ∈ s.warps, s.warp e.1 = e.2 := fun e he => by rw [warp, mget_eq_mfind, mfind_of_mem h he]; rfl
  rw [List.mem_map]
  constructor
  · rintro ⟨e, he, rfl⟩
    obtain ⟨he, hp⟩ := List.mem_filter.1 he
    exact ⟨by rw [mfind_of_mem h he]; rfl, by rw [hw e he]; exact hp⟩
  · rintro ⟨hl, hp⟩
    obtain ⟨x, hx⟩ := Option.isSome_iff_exists.1 hl
    have hm := mem_of_mfind hx
    exact ⟨_, List.mem_filter.2 ⟨hm, hw _ hm ▸ hp⟩, rfl⟩

/-- Changing warps alike, each once. -/
theorem State.modWarps_warp {f : Warp → Warp} {ws : List Nat} (hn : ws.Nodup) : ∀ s : State,
    (∀ w ∈ ws, (mfind s.warps w).isSome) → ∀ v, (s.modWarps ws f).warp v = if v ∈ ws then f (s.warp v) else s.warp v := by
  induction ws with
  | nil => exact fun _ _ _ => (if_neg List.not_mem_nil).symm
  | cons w ws ih =>
    intro s hl v
    obtain ⟨hw, hn⟩ := List.nodup_cons.1 hn
    change ((s.modWarp w f).modWarps ws f).warp v = _
    rw [ih hn _ (fun u hu => (modWarp_listed ..).trans (hl u (List.mem_cons_of_mem _ hu)))]
    by_cases hv : v = w
    · subst hv
      rw [if_neg hw, if_pos (List.mem_cons_self ..), modWarp_self _ (hl v (List.mem_cons_self ..))]
    · rw [modWarp_warp_ne _ _ hv]
      simp [hv]

/-! ## The order of R301 -/

theorem State.beats_iff (s : State) (v w : Nat) : s.beats v w = true ↔ Claims.goesBefore s v w := by
  unfold beats Claims.goesBefore
  dsimp only
  by_cases hv : (s.warp v).age = 8 <;> by_cases hw : (s.warp w).age = 8
  · simp [hv, hw]
  · simp [hv, hw]
  · simp [hv, hw]
  · by_cases hp : s.prio v = s.prio w
    · by_cases ha : (s.warp v).age = (s.warp w).age
      · simp [hw, hp, ha]
      · simp [hv, hw, hp, ha]
    · simp [hv, hw, hp]

/-- Of two warps at most one goes before the other. -/
theorem goesBefore_asymm {s : State} {v w : Nat} (h : Claims.goesBefore s v w) : ¬Claims.goesBefore s w v := by
  unfold Claims.goesBefore at *
  omega

/-- What goes before a warp goes before every warp that does not. -/
theorem goesBefore_of_not {s : State} {u v w : Nat} (h : Claims.goesBefore s u w) (hv : ¬Claims.goesBefore s v w) :
    Claims.goesBefore s u v := by
  unfold Claims.goesBefore at *
  omega

theorem State.chosen_none {s : State} {ws : List Nat} (h : s.chosen ws = none) : ws = [] := by
  cases ws with
  | nil => rfl
  | cons w ws =>
    unfold chosen at h
    split at h
    · cases h
    · split at h <;> cases h

/-- The warp chosen is one before which no other goes. -/
theorem State.chosen_first {s : State} {ws : List Nat} {c : Nat} (h : s.chosen ws = some c) :
    c ∈ ws ∧ ∀ v ∈ ws, ¬Claims.goesBefore s v c := by
  have irrefl : ∀ v, ¬Claims.goesBefore s v v := fun v hv => goesBefore_asymm hv hv
  induction ws generalizing c with
  | nil => cases h
  | cons w ws ih =>
    unfold chosen at h
    split at h
    next hn =>
      obtain rfl := State.chosen_none hn
      cases h
      exact ⟨List.mem_cons_self .., fun v hv => by rw [List.mem_singleton.1 hv]; exact irrefl _⟩
    next d hd =>
      obtain ⟨hm, hb⟩ := ih hd
      split at h
      next hdw =>
        cases h
        refine ⟨List.mem_cons_of_mem _ hm, fun v hv => ?_⟩
        rcases List.mem_cons.1 hv with rfl | hv
        · exact goesBefore_asymm ((s.beats_iff _ _).1 hdw)
        · exact hb v hv
      next hdw =>
        cases h
        refine ⟨List.mem_cons_self .., fun v hv => ?_⟩
        rcases List.mem_cons.1 hv with rfl | hv
        · exact irrefl _
        · exact fun hvw => hb v hv (goesBefore_of_not hvw fun hx => hdw ((s.beats_iff _ _).2 hx))

/-! ## Runs that end -/

/-- Only runs have ended, of warps of which P holds. -/
structure State.EndsRuns (P : Nat → Prop) (s r : State) : Prop where
  rest   : r = { s with warps := r.warps, cores := r.cores }
  warp   : ∀ v, r.warp v = s.warp v ∨ (P v ∧ r.warp v = { s.warp v with runCnt := 0, missed := false })
  free   : ∀ k p, (mget {} (s.core k).parts p).run = none → (mget {} (r.core k).parts p).run = none
  listed : ∀ v, (mfind r.warps v).isSome = (mfind s.warps v).isSome

theorem State.EndsRuns.refl (P : Nat → Prop) (s : State) : State.EndsRuns P s s :=
  ⟨rfl, fun _ => .inl rfl, fun _ _ => id, fun _ => rfl⟩

theorem State.EndsRuns.trans {P : Nat → Prop} {s r t : State} (h : State.EndsRuns P s r) (h' : State.EndsRuns P r t) :
    State.EndsRuns P s t where
  rest := by
    have e := h'.rest
    rw [h.rest] at e
    exact e
  warp v := by
    rcases h'.warp v with e' | ⟨hp, e'⟩ <;> rcases h.warp v with e | ⟨hp, e⟩
    · exact .inl (e'.trans e)
    · exact .inr ⟨hp, e'.trans e⟩
    all_goals exact .inr ⟨hp, by rw [e', e]⟩
  free k p hk := h'.free k p (h.free k p hk)
  listed v := (h'.listed v).trans (h.listed v)

theorem State.endsRuns_endRun {P : Nat → Prop} (s : State) {w : Nat} (hp : P w) : State.EndsRuns P s (s.endRun w) := by
  refine ⟨endRun_rest s w, fun v => ?_, fun k p hk => ?_, (s.steady_endRun w).listed⟩
  · have hr : ∀ u : State, u.warps = s.warps → (u.modWarp w fun x => { x with runCnt := 0, missed := false }).warp v = s.warp v ∨
        (P v ∧ (u.modWarp w fun x => { x with runCnt := 0, missed := false }).warp v =
          { s.warp v with runCnt := 0, missed := false }) := by
      intro u hu
      have huw : u.warp v = s.warp v := by unfold State.warp; rw [hu]
      by_cases hv : v = w
      · subst hv
        cases hl : mfind u.warps v with
        | none => exact .inl (by rw [← huw]; simp [State.warp, modWarp, mmod, hl])
        | some x => exact .inr ⟨hp, by rw [modWarp_self _ (by rw [hl]; rfl), huw]⟩
      · exact .inl ((modWarp_warp_ne _ _ hv).trans huw)
    unfold endRun
    dsimp only
    split
    · exact hr _ rfl
    · exact hr _ rfl
  · unfold endRun
    dsimp only
    split
    · rw [modWarp_core, modCore_core]
      split
      next e =>
        subst e
        dsimp only
        rw [mget_mset]
        split
        · rfl
        · exact hk
      next => exact hk
    · exact hk

theorem State.EndsRuns.foldl {P : Nat → Prop} {ws : List Nat} (h : ∀ w ∈ ws, P w) : ∀ s : State,
    State.EndsRuns P s (ws.foldl State.endRun s) := by
  induction ws with
  | nil => exact .refl P
  | cons w ws ih =>
    exact fun s => (s.endsRuns_endRun (h w (List.mem_cons_self ..))).trans (ih (fun v hv => h v (List.mem_cons_of_mem _ hv)) _)

/-- A warp that waits at a rendezvous in an open run. -/
def State.Waits (s : State) (v : Nat) : Prop := (s.warp v).atRdv = true ∧ s.inRun v = true

theorem State.endsRuns_endAwaiting {s : State} (h : msorted s.warps = true) (here : List Nat) (w : Option Nat) :
    State.EndsRuns s.Waits s (s.endAwaiting here w) := by
  refine State.EndsRuns.foldl (fun v hv => ?_) s
  have hv := (List.mem_filter.1 hv).1
  unfold awaiting at hv
  obtain ⟨-, hp⟩ := (mem_filter_warps h (fun v x => x.atRdv && s.inRun v &&
    (s.blk x.blk).rdvs.any fun r => r.arrived.any (fun y => y.1 == v) &&
      (s.rdvMembers x.blk r).head?.any fun u => u != v && here.contains u) v).1 hv
  simp only [Bool.and_eq_true] at hp
  exact hp.1

/-! ## Arbitration -/

section
variable {s : State} {core part : Nat}

/-- The resident warps of a partition, those that are eligible, and those of them that the choice is made among. -/
def State.dwellers (s : State) (core part : Nat) : List Nat :=
  (s.warps.filter fun e => (s.blk e.2.blk).core == core && e.2.part == part).map (·.1)
def State.contenders (s : State) (core part : Nat) : List Nat := (s.dwellers core part).filter s.eligible
def State.pool (s : State) (core part : Nat) : List Nat :=
  if ((s.contenders core part).filter fun w => !(s.warp w).yielded).isEmpty then s.contenders core part
  else (s.contenders core part).filter fun w => !(s.warp w).yielded

theorem State.mem_dwellers (h : msorted s.warps = true) (v : Nat) :
    v ∈ s.dwellers core part ↔ Claims.dwells s core part v := by
  refine (mem_filter_warps h (fun _ x => (s.blk x.blk).core == core && x.part == part) v).trans ?_
  rw [Bool.and_eq_true, beq_iff_eq, beq_iff_eq]
  rfl

theorem State.mem_contenders (h : msorted s.warps = true) (v : Nat) :
    v ∈ s.contenders core part ↔ Claims.contends s core part v := by
  unfold contenders Claims.contends
  rw [List.mem_filter, mem_dwellers h]

theorem State.nodup_dwellers (h : msorted s.warps = true) : (s.dwellers core part).Nodup := nodup_keys (msorted_filter _ h)

theorem State.nodup_contenders (h : msorted s.warps = true) : (s.contenders core part).Nodup := (nodup_dwellers h).filter _

/-- One passed over by `YIELD` is in the pool only where every contender was. -/
theorem State.mem_pool (v : Nat) : v ∈ s.pool core part ↔ v ∈ s.contenders core part ∧
    ((s.warp v).yielded = true → ∀ u ∈ s.contenders core part, (s.warp u).yielded = true) := by
  unfold pool
  split
  next he =>
    rw [List.isEmpty_iff, List.filter_eq_nil_iff] at he
    exact ⟨fun hv => ⟨hv, fun _ u hu => by simpa using he u hu⟩, And.left⟩
  next he =>
    rw [List.mem_filter]
    refine and_congr_right fun _ => ⟨fun hy hn => by simp [hn] at hy, fun hy => ?_⟩
    by_contra hn
    refine he (List.isEmpty_iff.2 (List.filter_eq_nil_iff.2 fun u hu => ?_))
    simpa using hy (by simpa using hn) u hu

theorem State.pool_ne_nil {v : Nat} (h : v ∈ s.contenders core part) : s.pool core part ≠ [] := by
  unfold pool
  split
  · exact List.ne_nil_of_mem h
  next he => exact fun hn => he (List.isEmpty_iff.2 hn)

theorem execRunArbitration_idle (h : (mget {} (s.core core).parts part).run = none) (hc : s.chosen (s.pool core part) = none) :
    execRunArbitration core part s = .next (s.endAwaiting (s.dwellers core part) none) := by
  unfold execRunArbitration
  rw [if_neg (by rw [h]; exact Bool.false_ne_true)]
  extract_lets here can fresh
  have hc : s.chosen (if fresh.isEmpty then can else fresh) = none := hc
  rw [hc]
  rfl

/-- The mark of `YIELD` ends, and a warp that waits for its slot grows older. -/
def Warp.unmarked (x : Warp) : Warp := { x with yielded := false }
def Warp.older (x : Warp) : Warp := { x with age := Nat.min 8 (x.age + 1) }

/-- The state once warp w has been chosen: runs have ended, and the marks and ages of the partition have moved. -/
def State.arbitrated (s : State) (core part w : Nat) : State :=
  ((s.endAwaiting (s.dwellers core part) (some w)).modWarps (s.dwellers core part) Warp.unmarked).modWarps
    (s.contenders core part) Warp.older

theorem execRunArbitration_grants {w : Nat} (h : (mget {} (s.core core).parts part).run = none)
    (hc : s.chosen (s.pool core part) = some w) :
    execRunArbitration core part s = .next ((s.arbitrated core part w).grant w) := by
  unfold execRunArbitration
  rw [if_neg (by rw [h]; exact Bool.false_ne_true)]
  extract_lets here can fresh
  have hc : s.chosen (if fresh.isEmpty then can else fresh) = some w := hc
  rw [hc]
  rfl

/-- No run of a partition whose slot is free can end. -/
theorem State.not_waits_of_dwells (h : (mget {} (s.core core).parts part).run = none) {v : Nat}
    (hv : Claims.dwells s core part v) : ¬s.Waits v := by
  rintro ⟨-, hr⟩
  obtain ⟨-, rfl, rfl⟩ := hv
  have hn : s.slotOf v = none := h
  unfold inRun at hr
  rw [hn] at hr
  cases hr

theorem State.EndsRuns.dwells {r : State} (hr : State.EndsRuns s.Waits s r) (h : (mget {} (s.core core).parts part).run = none)
    {v : Nat} (hv : Claims.dwells s core part v) : r.warp v = s.warp v :=
  (hr.warp v).resolve_right fun hp => State.not_waits_of_dwells h hv hp.1

theorem State.EndsRuns.atMostEnded {r : State} (hr : State.EndsRuns s.Waits s r) (v : Nat) : Claims.atMostEnded s r v :=
  (hr.warp v).imp id fun hp => ⟨hp.1.1, hp.1.2, hp.2⟩

/-- What the choice leaves of a warp, by its part in it. -/
theorem State.arbitrated_warp (hs : msorted s.warps = true) (h : (mget {} (s.core core).parts part).run = none) (w v : Nat) :
    (Claims.contends s core part v → (s.arbitrated core part w).warp v =
      { s.warp v with age := min 8 ((s.warp v).age + 1), yielded := false }) ∧
    (Claims.dwells s core part v → ¬Claims.contends s core part v →
      (s.arbitrated core part w).warp v = { s.warp v with yielded := false }) ∧
    (¬Claims.dwells s core part v → Claims.atMostEnded s (s.arbitrated core part w) v) := by
  have hr := endsRuns_endAwaiting hs (s.dwellers core part) (some w)
  have hl : ∀ u ∈ s.dwellers core part, (mfind s.warps u).isSome := fun u hu => ((mem_dwellers hs u).1 hu).1
  have e0 := modWarps_warp (f := Warp.unmarked) (nodup_dwellers hs (core := core) (part := part)) _
    (fun u hu => (hr.listed u).trans (hl u hu)) v
  have e1 : (s.arbitrated core part w).warp v = _ := modWarps_warp (nodup_contenders hs) _
    (fun u hu => (modWarps_listed ..).trans ((hr.listed u).trans (hl u (List.mem_filter.1 hu).1))) v
  rw [e0] at e1
  refine ⟨fun hv => ?_, fun hd hv => ?_, fun hd => ?_⟩
  · rw [if_pos ((mem_contenders hs v).2 hv), if_pos ((mem_dwellers hs v).2 hv.1), hr.dwells h hv.1] at e1
    exact e1
  · rw [if_neg fun x => hv ((mem_contenders hs v).1 x), if_pos ((mem_dwellers hs v).2 hd), hr.dwells h hd] at e1
    exact e1
  · rw [if_neg fun x => hd ((mem_contenders hs v).1 x).1, if_neg fun x => hd ((mem_dwellers hs v).1 x)] at e1
    unfold Claims.atMostEnded
    rw [e1]
    exact hr.atMostEnded v

theorem State.arbitrated_rest (hs : msorted s.warps = true) (w : Nat) : s.arbitrated core part w =
    { s with warps := (s.arbitrated core part w).warps, cores := (s.arbitrated core part w).cores } := by
  unfold arbitrated
  rw [modWarps_rest, modWarps_rest, (endsRuns_endAwaiting hs (s.dwellers core part) (some w)).rest]

theorem State.arbitrated_listed (hs : msorted s.warps = true) (w v : Nat) :
    (mfind (s.arbitrated core part w).warps v).isSome = (mfind s.warps v).isSome :=
  (modWarps_listed ..).trans ((modWarps_listed ..).trans ((endsRuns_endAwaiting hs ..).listed v))

/-- The slot of a warp that is granted it. -/
theorem State.grant_run (t : State) (w : Nat) :
    (mget {} ((t.grant w).core (t.coreOf w)).parts (t.warp w).part).run = some w := by
  unfold grant
  rw [modCore_core, if_pos rfl]
  dsimp only
  rw [mget_mins_self]

/-- The grant of a free slot of a partition to a contender. -/
theorem State.grant_arbitrated_run (hs : msorted s.warps = true) (h : (mget {} (s.core core).parts part).run = none) {w : Nat}
    (hw : Claims.contends s core part w) :
    (mget {} (((s.arbitrated core part w).grant w).core core).parts part).run = some w := by
  have hx := (s.arbitrated_warp hs h w w).1 hw
  have hb := congrArg State.blocks (s.arbitrated_rest (core := core) (part := part) hs w)
  obtain ⟨⟨-, hk, hp⟩, -⟩ := hw
  have hk' : (s.arbitrated core part w).coreOf w = core := by
    unfold coreOf blkOf blk
    rw [hx, hb]
    exact hk
  have hp' : ((s.arbitrated core part w).warp w).part = part := by
    rw [hx]
    exact hp
  have hg := (s.arbitrated core part w).grant_run w
  rwa [hk', hp'] at hg

end

/-- Settles O49: a contender is chosen by R301 among the pool, and the grant moves marks, ages and the slot. -/
theorem arbitration : Obligations.Arbitration := by
  intro s core part hs
  refine ⟨fun h => if_pos h, fun h => ⟨fun hn => ?_, fun ⟨u, hu⟩ => ?_⟩⟩
  · have hc : s.chosen (s.pool core part) = none := by
      have hp : s.pool core part = [] := List.eq_nil_iff_forall_not_mem.2 fun v hv =>
        hn v ((State.mem_contenders hs v).1 ((State.mem_pool v).1 hv).1)
      rw [hp]
      rfl
    have hr := State.endsRuns_endAwaiting hs (s.dwellers core part) none
    exact ⟨_, execRunArbitration_idle h hc, hr.rest, hr.free core part h, fun v hv => hr.dwells h hv, hr.atMostEnded⟩
  · obtain ⟨w, hc⟩ : ∃ w, s.chosen (s.pool core part) = some w :=
      Option.ne_none_iff_exists'.1 fun hn =>
        State.pool_ne_nil ((State.mem_contenders hs u).2 hu) (State.chosen_none hn)
    obtain ⟨hm, hb⟩ := State.chosen_first hc
    obtain ⟨hm, hy⟩ := (State.mem_pool w).1 hm
    have hw := (State.mem_contenders hs w).1 hm
    have hl : (mfind (s.arbitrated core part w).warps w).isSome := (State.arbitrated_listed hs w w).trans hw.1.1
    have hg : ∀ v, v ≠ w → ((s.arbitrated core part w).grant w).warp v = (s.arbitrated core part w).warp v :=
      fun v hv => State.modWarp_warp_ne _ _ hv
    refine ⟨_, w, execRunArbitration_grants h hc, hw, State.grant_arbitrated_run hs h hw, fun hyw v hv => ?_, fun v hv hyv => ?_,
      ?_, ?_, fun v hv hne => ?_, fun v hv hnc => ?_, fun v hv => ?_⟩
    · exact hy hyw v ((State.mem_contenders hs v).2 hv)
    · exact hb v ((State.mem_pool v).2 ⟨(State.mem_contenders hs v).2 hv, fun hx => hy (hyv hx)⟩)
    · rw [State.grant_rest, State.arbitrated_rest hs]
    · have hx : ((s.arbitrated core part w).grant w).warp w = { (s.arbitrated core part w).warp w with age := 0, runCnt := 0 } :=
        State.modWarp_self _ hl
      rw [hx, (s.arbitrated_warp hs h w w).1 hw]
    · rw [hg v hne, (s.arbitrated_warp hs h w v).1 hv]
    · rw [hg v fun e => hnc (e ▸ hw), (s.arbitrated_warp hs h w v).2.1 hv hnc]
    · unfold Claims.atMostEnded
      rw [hg v fun e => hv (e ▸ hw.1)]
      exact (s.arbitrated_warp hs h w v).2.2 hv

end Sys2Proof.Machine

/-! SUPPORT. Decoding and encoding agree (spec/03 R61 to R73): the codes of the fields, the opcode of every instruction, the
fields of a word, and from these the two directions of the round trip. -/

namespace Sys2Proof

/-! ## Codes -/

@[simp] theorem Scope.ofCode_code (sc : Scope) : Scope.ofCode sc.code = sc := by cases sc <;> rfl
@[simp] theorem Scope.code_ofCode (c : BitVec 2) : (Scope.ofCode c).code = c := by revert c; decide
@[simp] theorem Kind.ofCode_code (k : Kind) : Kind.ofCode k.code = k := by cases k <;> rfl
@[simp] theorem Kind.code_ofCode (c : BitVec 2) : (Kind.ofCode c).code = c := by revert c; decide
@[simp] theorem Form.ofCode_code (f : Form) : Form.ofCode f.code = f := by cases f <;> rfl
@[simp] theorem Form.code_ofCode (c : BitVec 2) : (Form.ofCode c).code = c := by revert c; decide
@[simp] theorem EType.ofCode_code (t : EType) : EType.ofCode t.code = some t := by cases t <;> rfl
@[simp] theorem Rnd.ofCode_code (r : Rnd) : Rnd.ofCode r.code = some r := by cases r <;> rfl

theorem EType.code_of_ofCode {c : BitVec 4} {x : EType} (h : EType.ofCode c = some x) : x.code = c := by
  have hc : ∀ c : BitVec 4, (EType.ofCode c).all (fun x => x.code == c) = true := by decide
  simpa [h] using hc c

theorem Rnd.code_of_ofCode {c : BitVec 3} {x : Rnd} (h : Rnd.ofCode c = some x) : x.code = c := by
  have hc : ∀ c : BitVec 3, (Rnd.ofCode c).all (fun x => x.code == c) = true := by decide
  simpa [h] using hc c

/-! ## Opcodes -/

/-- An instruction's opcode and base format do not depend on its FUNC. -/
theorem rowOf_opc_base (o : Op) (f : Nat) : (rowOf o f).opc = (rowOf o 0).opc ∧ (rowOf o f).base = (rowOf o 0).base := by
  cases o <;> exact ⟨rfl, rfl⟩

/-- An instruction's opcode fits its field and is not reserved, and a base form has an opcode below 0x50 (R65, R76). -/
theorem rowOf_zero_opc (o : Op) : (rowOf o 0).opc < 128 ∧ reservedOpc (rowOf o 0).opc = false ∧
    ((rowOf o 0).base ≠ .none → (rowOf o 0).opc < 0x50) := by cases o <;> decide

/-- The opcode of an instruction and a FUNC that it may have name that instruction (R77). -/
theorem opOf_rowOf {o : Op} {f : Nat} (h : funcOk o f = true) : opOf (rowOf o f).opc f = some o := by
  cases o
  case brcFlag | brcReg | barArv | barWt | barMeet | barMemb | barQry | eqResv | eqPub | eqTake | eqFree | eqStat | xfftFwd | xfftInv |
      tagSet | tagAdj | tagQry | nbDot | nbAxpy | nbScale | nbSum | nbFill | nbCmpz | jigDef | jigArm | jigDisarm | jigPos | jigQry |
      jrnBegin | jrnCommit | jrnAbort | swrExec | swrFpmode | swrOvfFlags | swrAshape | swrLossScale | swrEbudget | swrDumpBase |
      swrTraceCtl | ctxSave | ctxLoad | ctxFreeze =>
    rw [beq_iff_eq.1 h]
    rfl
  case swr =>
    have hf : f = 0x08 ∨ f = 0x10 ∨ f = 0x11 ∨ f = 0x12 := by simpa [funcOk] using h
    rcases hf with rfl | rfl | rfl | rfl <;> rfl
  all_goals rfl

/-- The opcode that names an instruction is the one of its row. -/
theorem opc_of_opOf {opc f : Nat} {o : Op} (h : opOf opc f = some o) : (rowOf o f).opc = opc := by
  unfold opOf at h
  repeat' split at h
  all_goals cases h <;> rfl

/-! ## Fields of a word -/

/-- Words that agree in two adjacent fields agree in both together. -/
theorem extract_grow {n : Nat} {x y : BitVec n} {i k j : Nat} (h : x.extractLsb' i k = y.extractLsb' i k)
    (h' : x.extractLsb' (i + k) j = y.extractLsb' (i + k) j) : x.extractLsb' i (k + j) = y.extractLsb' i (k + j) := by
  ext l hl
  simp only [BitVec.getElem_extractLsb']
  by_cases hk : l < k
  · simpa [hk] using congrArg (BitVec.getLsbD · l) h
  · have e := congrArg (BitVec.getLsbD · (l - k)) h'
    simp only [BitVec.getLsbD_extractLsb', show l - k < j by omega, decide_true, Bool.true_and] at e
    rwa [show i + k + (l - k) = i + l by omega] at e

theorem eq_of_extract {n : Nat} {x y : BitVec n} (h : x.extractLsb' 0 n = y.extractLsb' 0 n) : x = y := by
  simpa using h

/-- A single bit is a field of one bit. -/
theorem ofBool_getLsbD {n : Nat} (x : BitVec n) (i : Nat) : BitVec.ofBool (x.getLsbD i) = x.extractLsb' i 1 := by
  ext j hj
  obtain rfl : j = 0 := by omega
  simp [BitVec.getElem_ofBool]

theorem extract_one {n : Nat} {x y : BitVec n} {i : Nat} (h : x.getLsbD i = y.getLsbD i) :
    x.extractLsb' i 1 = y.extractLsb' i 1 := by rw [← ofBool_getLsbD, h, ofBool_getLsbD]

/-- A word that carries a header holds its scope and its END bit (R61). -/
theorem header_scope_fin (opc : Nat) (a : Args) (w : IWord) (h : ∀ i, i < 12 → w.getLsbD i = (header opc a).getLsbD i) :
    w.extractLsb' 3 2 = a.scope.code ∧ w.getLsbD 2 = a.fin := by
  constructor
  · ext i hi
    rw [← BitVec.getLsbD_eq_getElem, ← BitVec.getLsbD_eq_getElem]
    have e : (header opc a).getLsbD (2 + (1 + i)) = a.scope.code.getLsbD i :=
      ((getLsbD_append_high _ _ _).trans (getLsbD_append_high _ _ _)).trans (getLsbD_append_low _ _ _ hi)
    rw [← e, ← h _ (by omega)]
    simp [hi, show 3 + i = 2 + (1 + i) by omega]
  · rw [h 2 (by omega)]
    exact (getLsbD_append_high _ _ 0).trans ((getLsbD_append_low _ _ 0 (by omega)).trans (by simp))

/-- Words with equal opcode, scope, END and form have equal headers. -/
theorem header_bits {x y : IWord} (hf : x.extractLsb' 0 2 = y.extractLsb' 0 2) (he : x.getLsbD 2 = y.getLsbD 2)
    (hs : x.extractLsb' 3 2 = y.extractLsb' 3 2) (ho : opcField x = opcField y) : x.extractLsb' 0 12 = y.extractLsb' 0 12 :=
  extract_grow (extract_grow (extract_grow hf (extract_one he)) hs) ho

/-- The fields of word 0 in the base format BJ (R64). -/
theorem baseWord_bj (opc : Nat) (a : Args) :
    (baseWord .bj opc a).extractLsb' 12 3 = a.p ∧ (baseWord .bj opc a).extractLsb' 15 17 = a.off := by
  refine ⟨?_, ?_⟩ <;> simp only [baseWord] <;> repeat rw [BitVec.extractLsb'_append_eq_of_le (by decide)]
  · exact BitVec.extractLsb'_append_eq_right
  · exact BitVec.extractLsb'_eq_self

/-- The fields of word 0 in the base format BI (R64). -/
theorem baseWord_bi (opc : Nat) (a : Args) :
    (baseWord .bi opc a).extractLsb' 12 6 = a.d.setWidth 6 ∧ (baseWord .bi opc a).extractLsb' 18 6 = a.a.setWidth 6 ∧
      (baseWord .bi opc a).extractLsb' 24 8 = a.imm.setWidth 8 := by
  refine ⟨?_, ?_, ?_⟩ <;> simp only [baseWord] <;> repeat rw [BitVec.extractLsb'_append_eq_of_le (by decide)]
  · exact BitVec.extractLsb'_append_eq_right
  · exact BitVec.extractLsb'_append_eq_right
  · exact BitVec.extractLsb'_eq_self

/-- The fields of word 0 in the base format B3 (R64). -/
theorem baseWord_b3 (opc : Nat) (a : Args) :
    (baseWord .b3 opc a).extractLsb' 12 6 = a.d.setWidth 6 ∧ (baseWord .b3 opc a).extractLsb' 18 6 = a.a.setWidth 6 ∧
      (baseWord .b3 opc a).extractLsb' 24 6 = a.b.setWidth 6 ∧ (baseWord .b3 opc a).extractLsb' 30 2 = a.p.setWidth 2 := by
  refine ⟨?_, ?_, ?_, ?_⟩ <;> simp only [baseWord] <;> repeat rw [BitVec.extractLsb'_append_eq_of_le (by decide)]
  · exact BitVec.extractLsb'_append_eq_right
  · exact BitVec.extractLsb'_append_eq_right
  · exact BitVec.extractLsb'_append_eq_right
  · exact BitVec.extractLsb'_eq_self

/-- The fields of word 0 of an extended form above its header (R69). -/
theorem extWord0_fields (opc : Nat) (a : Args) :
    (extWord0 opc a).extractLsb' 12 2 = a.kd.code ∧ (extWord0 opc a).extractLsb' 14 2 = a.ka.code ∧
      (extWord0 opc a).extractLsb' 16 2 = a.kb.code ∧ (extWord0 opc a).extractLsb' 18 2 = a.kc.code ∧
      (extWord0 opc a).extractLsb' 20 12 = a.imm := by
  refine ⟨?_, ?_, ?_, ?_, ?_⟩ <;> simp only [extWord0] <;> repeat rw [BitVec.extractLsb'_append_eq_of_le (by decide)]
  · exact BitVec.extractLsb'_append_eq_right
  · exact BitVec.extractLsb'_append_eq_right
  · exact BitVec.extractLsb'_append_eq_right
  · exact BitVec.extractLsb'_append_eq_right
  · exact BitVec.extractLsb'_eq_self

/-- The fields of word 1 of an extended form (R69). -/
theorem extWord1_fields (a : Args) :
    (extWord1 a).extractLsb' 0 8 = a.d ∧ (extWord1 a).extractLsb' 8 8 = a.a ∧ (extWord1 a).extractLsb' 16 8 = a.b ∧
      (extWord1 a).extractLsb' 24 8 = a.c := by
  refine ⟨?_, ?_, ?_, ?_⟩ <;> simp only [extWord1] <;> repeat rw [BitVec.extractLsb'_append_eq_of_le (by decide)]
  · exact BitVec.extractLsb'_append_eq_right
  · exact BitVec.extractLsb'_append_eq_right
  · exact BitVec.extractLsb'_append_eq_right
  · exact BitVec.extractLsb'_eq_self

/-- The fields of word 2 of an extended form (R69), its single bits as fields of one bit. -/
theorem extWord2_fields (a : Args) :
    (extWord2 a).extractLsb' 0 4 = a.ty.code ∧ (extWord2 a).extractLsb' 4 3 = a.rnd.code ∧
      (extWord2 a).extractLsb' 7 1 = .ofBool a.sat ∧ (extWord2 a).extractLsb' 8 1 = .ofBool a.na ∧
      (extWord2 a).extractLsb' 9 1 = .ofBool a.nb ∧ (extWord2 a).extractLsb' 10 1 = .ofBool a.abs ∧
      (extWord2 a).extractLsb' 11 1 = .ofBool a.xp ∧ (extWord2 a).extractLsb' 12 3 = a.p ∧
      (extWord2 a).extractLsb' 15 1 = .ofBool a.pn ∧ (extWord2 a).extractLsb' 16 2 = a.ec ∧
      (extWord2 a).extractLsb' 18 2 = a.cp ∧ (extWord2 a).extractLsb' 20 8 = a.func ∧
      (extWord2 a).extractLsb' 28 4 = a.sub := by
  refine ⟨?_, ?_, ?_, ?_, ?_, ?_, ?_, ?_, ?_, ?_, ?_, ?_, ?_⟩ <;> simp only [extWord2] <;>
    repeat rw [BitVec.extractLsb'_append_eq_of_le (by decide)]
  on_goal 13 => exact BitVec.extractLsb'_eq_self
  all_goals exact BitVec.extractLsb'_append_eq_right

/-! ## Decoding what is encoded -/

theorem setWidth_back {n m : Nat} {x : BitVec n} (h : x.toNat < 2 ^ m) : (x.setWidth m).setWidth n = x :=
  BitVec.eq_of_toNat_eq (by simp [Nat.mod_eq_of_lt h])

theorem ofBool_back {n : Nat} {x : BitVec n} {i : Nat} {b : Bool} (h : x.extractLsb' i 1 = .ofBool b) : x.getLsbD i = b := by
  rw [← ofBool_getLsbD] at h
  exact BitVec.ofBool_eq_iff_eq.1 h

/-- What a base form leaves at the defaults of R68, beside the fields of its own format. -/
structure BaseDefaults (opc : Nat) (a : Args) : Prop where
  kinds : a.kd = defKind a.scope ∧ a.ka = defKind a.scope ∧ a.kb = defKind a.scope ∧ a.kc = defKind a.scope
  codes : a.sub = 0 ∧ a.func = 0 ∧ a.cp = 0 ∧ a.ec = 0
  flags : a.pn = false ∧ a.xp = false ∧ a.abs = false ∧ a.nb = false ∧ a.na = false ∧ a.sat = false
  ty    : a.ty = if decide (0x30 ≤ opc ∧ opc ≤ 0x3E) then .f32 else .i64
  rnd   : a.rnd = if decide (0x30 ≤ opc ∧ opc ≤ 0x3E) then .dyn else .rne
  lit   : if a.form = .base then a.lit = 0 else a.lit.toNat < 2 ^ 32

/-- What the format of a base form has no bits for, and what its bits can hold (R64). -/
def BaseFields (opc : Nat) (a : Args) : BaseFmt → Prop
  | .bj => a.d = 0 ∧ a.a = 0 ∧ a.b = 0 ∧ a.c = 0 ∧ a.imm = 0
  | .bi => a.d.toNat < 64 ∧ a.a.toNat < 64 ∧ a.b = 0 ∧ a.c = 0 ∧ a.off = 0 ∧ a.p = 0 ∧ a.imm = (a.imm.setWidth 8).signExtend 12
  | _ => a.d.toNat < 64 ∧ a.a.toNat < 64 ∧ a.b.toNat < 64 ∧ a.off = 0 ∧ a.imm = 0 ∧ a.p.toNat < 4 ∧
      a.c = if opc = 0x14 ∨ opc = 0x33 ∨ opc = 0x3A then a.d else 0

/-- A record that a base form can hold has the defaults of R68 and fields that fit its format. -/
theorem baseCanon_iff (opc : Nat) (a : Args) :
    baseCanon opc a = true ↔ BaseDefaults opc a ∧ BaseFields opc a (baseFmtOf opc) := by
  unfold baseCanon plainMods
  constructor
  · intro h
    simp only [Bool.and_eq_true, beq_iff_eq, Bool.not_eq_true'] at h
    obtain ⟨⟨⟨⟨⟨⟨⟨⟨hkd, hka⟩, hkb⟩, hkc⟩, hm⟩, hty⟩, hrnd⟩, hlit⟩, hf⟩ := h
    obtain ⟨⟨⟨⟨⟨⟨⟨⟨⟨hsub, hfunc⟩, hcp⟩, hec⟩, hpn⟩, hxp⟩, habs⟩, hnb⟩, hna⟩, hsat⟩ := hm
    refine ⟨⟨⟨hkd, hka, hkb, hkc⟩, ⟨hsub, hfunc, hcp, hec⟩, ⟨hpn, hxp, habs, hnb, hna, hsat⟩, hty, hrnd, ?_⟩, ?_⟩
    · split at hlit <;> simpa [*] using hlit
    · cases hb : baseFmtOf opc <;> rw [hb] at hf <;> simpa [BaseFields, and_assoc] using hf
  · rintro ⟨⟨⟨hkd, hka, hkb, hkc⟩, ⟨hsub, hfunc, hcp, hec⟩, ⟨hpn, hxp, habs, hnb, hna, hsat⟩, hty, hrnd, hlit⟩, hf⟩
    simp only [Bool.and_eq_true, beq_iff_eq, Bool.not_eq_true']
    refine ⟨⟨⟨⟨⟨⟨⟨⟨hkd, hka⟩, hkb⟩, hkc⟩, ⟨⟨⟨⟨⟨⟨⟨⟨⟨hsub, hfunc⟩, hcp⟩, hec⟩, hpn⟩, hxp⟩, habs⟩, hnb⟩, hna⟩, hsat⟩⟩, hty⟩, hrnd⟩, ?_⟩, ?_⟩
    · split at hlit
      · simp [*]
      · simpa [*] using hlit
    · cases hb : baseFmtOf opc <;> rw [hb] at hf <;> simpa [BaseFields, and_assoc] using hf

/-- A base form consists of its header, the fields of its format and the defaults. -/
theorem BaseDefaults.eq {opc : Nat} {a : Args} (h : BaseDefaults opc a) :
    a = { form := a.form, scope := a.scope, fin := a.fin, kd := defKind a.scope, ka := defKind a.scope, kb := defKind a.scope,
          kc := defKind a.scope, d := a.d, a := a.a, b := a.b, c := a.c, imm := a.imm, off := a.off, lit := a.lit, p := a.p,
          ty := if decide (0x30 ≤ opc ∧ opc ≤ 0x3E) then .f32 else .i64
          rnd := if decide (0x30 ≤ opc ∧ opc ≤ 0x3E) then .dyn else .rne } := by
  obtain ⟨⟨hkd, hka, hkb, hkc⟩, ⟨hsub, hfunc, hcp, hec⟩, ⟨hpn, hxp, habs, hnb, hna, hsat⟩, hty, hrnd, -⟩ := h
  rw [← hty, ← hrnd]
  cases a
  simp_all

theorem BaseDefaults.literal {opc : Nat} {a : Args} (h : BaseDefaults opc a) : (a.lit.setWidth 32).setWidth 64 = a.lit := by
  have hl := h.lit
  refine setWidth_back ?_
  split at hl
  · simp [hl]
  · exact hl

/-- The fields of a base form are read back from its words. -/
theorem baseArgs_encoded {opc : Nat} {a : Args} {fmt : BaseFmt} (h : BaseDefaults opc a) (hf : BaseFields opc a fmt) :
    baseArgs fmt opc a.form (baseWord fmt opc a) (a.lit.setWidth 32) = a := by
  obtain ⟨hs, hfin⟩ := header_scope_fin opc a _ (baseWord_low fmt opc a)
  refine Eq.trans ?_ h.eq.symm
  cases fmt with
  | bj =>
    obtain ⟨wp, woff⟩ := baseWord_bj opc a
    obtain ⟨hd, ha, hb, hc, himm⟩ := hf
    simp only [baseArgs, hs, hfin, h.literal, wp, woff, Scope.ofCode_code, hd, ha, hb, hc, himm]
  | bi =>
    obtain ⟨wd, wa, wimm⟩ := baseWord_bi opc a
    obtain ⟨hd, ha, hb, hc, hoff, hp, himm⟩ := hf
    simp only [baseArgs, hs, hfin, h.literal, wd, wa, wimm, setWidth_back (m := 6) hd, setWidth_back (m := 6) ha, ← himm,
      Scope.ofCode_code, hb, hc, hoff, hp]
  | b3 | none =>
    obtain ⟨wd, wa, wb, wp⟩ := baseWord_b3 opc a
    obtain ⟨hd, ha, hb, hoff, himm, hp, hc⟩ := hf
    change (baseWord .b3 opc a).extractLsb' 3 2 = _ at hs
    change (baseWord .b3 opc a).getLsbD 2 = _ at hfin
    change baseArgs .b3 opc a.form (baseWord .b3 opc a) (a.lit.setWidth 32) = _
    simp only [baseArgs, hs, hfin, h.literal, wd, wa, wb, wp, setWidth_back (m := 6) hd, setWidth_back (m := 6) ha,
      setWidth_back (m := 6) hb, setWidth_back (m := 2) hp, Scope.ofCode_code, hc, hoff, himm]

/-- The fields of an extended form are read back from its words. -/
theorem extArgs_encoded (opc : Nat) (a : Args) (h : a.off = 0) :
    extArgs a.form (extWord0 opc a) (extWord1 a) (extWord2 a) a.lit = some a := by
  obtain ⟨hs, hfin⟩ := header_scope_fin opc a _ (extWord0_low opc a)
  obtain ⟨hkd, hka, hkb, hkc, himm⟩ := extWord0_fields opc a
  obtain ⟨hd, ha, hb, hc⟩ := extWord1_fields a
  obtain ⟨hty, hrnd, hsat, hna, hnb, habs, hxp, hp, hpn, hec, hcp, hfunc, hsub⟩ := extWord2_fields a
  unfold extArgs
  simp only [hty, hrnd, EType.ofCode_code, Rnd.ofCode_code, hs, hfin, hkd, hka, hkb, hkc, himm, hd, ha, hb, hc, ofBool_back hsat,
    ofBool_back hna, ofBool_back hnb, ofBool_back habs, ofBool_back hxp, hp, ofBool_back hpn, hec, hcp, hfunc, hsub,
    Scope.ofCode_code, Kind.ofCode_code]
  cases a
  cases h
  rfl

theorem legal_funcOk {o : Op} {a : Args} (h : legal o a = true) : funcOk o a.func.toNat = true := by
  unfold legal at h
  simp only [Bool.and_eq_true] at h
  exact h.1.1.1

/-- A base form is legal only for an opcode that has one (R65). -/
theorem legal_base {o : Op} {a : Args} (h : legal o a = true) (hf : a.form = .base ∨ a.form = .baseLit) :
    (rowOf o a.func.toNat).opc < 0x50 := by
  obtain ⟨ho, hb⟩ := rowOf_opc_base o a.func.toNat
  rw [ho]
  refine (rowOf_zero_opc o).2.2 fun hn => ?_
  rw [hn] at hb
  unfold legal baseOk at h
  rcases hf with hf | hf <;> simp [hf, hb] at h

theorem select_legal {o : Op} {a : Args} (h : legal o a = true) :
    select (rowOf o a.func.toNat).opc a = .ok (Instr.ofOp o a) := by
  simp only [select, opOf_rowOf (legal_funcOk h), h, if_true]

theorem opcField_toNat {o : Op} {f : Nat} {w : IWord} (h : opcField w = BitVec.ofNat 7 (rowOf o f).opc) :
    (opcField w).toNat = (rowOf o f).opc := by
  rw [h, BitVec.toNat_ofNat, (rowOf_opc_base o f).1]
  exact Nat.mod_eq_of_lt (rowOf_zero_opc o).1

theorem rowOf_not_reserved (o : Op) (f : Nat) : reservedOpc (rowOf o f).opc = false := by
  rw [(rowOf_opc_base o f).1]
  exact (rowOf_zero_opc o).2.1

/-- The 64-bit literal is its two words, the first the lower (R69). -/
theorem append_halves (x : BitVec 64) : x.extractLsb' 32 32 ++ x.setWidth 32 = x := by
  rw [BitVec.setWidth_eq_extractLsb' (by decide)]
  exact BitVec.extractLsb'_append_extractLsb'

/-- A well-formed program instruction decodes from its own words, whatever follows them. -/
theorem decodeWords_encodeArgs {o : Op} {a : Args} (rest : List IWord) (hl : legal o a = true)
    (hc : canon (rowOf o a.func.toNat).opc a = true) :
    decodeWords (encodeArgs (rowOf o a.func.toNat).opc a ++ rest) = .ok (Instr.ofOp o a) := by
  have hs := select_legal hl
  have hr := rowOf_not_reserved o a.func.toNat
  have hb := legal_base hl
  have hw := (encodeArgs_shape (rowOf o a.func.toNat).opc a).2
  have ho {w : IWord} := @opcField_toNat o a.func.toNat w
  generalize (rowOf o a.func.toNat).opc = opc at *
  have hcode := Form.ofCode_code a.form
  unfold canon at hc
  cases hf : a.form
  all_goals
    simp only [encodeArgs, hf, List.head?_cons, Option.mem_def, Option.some.injEq, forall_eq'] at hw hc ⊢
    obtain ⟨hw, hwf⟩ := hw
    simp only [List.cons_append, List.nil_append, decodeWords, ho hw, hwf, hr, Bool.false_eq_true, if_false, Form.ofCode_code]
  · obtain ⟨hd, hf'⟩ := (baseCanon_iff opc a).1 hc
    have e := baseArgs_encoded hd hf'
    have hlit : a.lit.setWidth 32 = 0 := by
      have := hd.lit
      simp [hf] at this
      simp [this]
    rw [hf, hlit] at e
    rw [if_pos (hb (.inl hf)), e, hs]
  · obtain ⟨hd, hf'⟩ := (baseCanon_iff opc a).1 hc
    have e := baseArgs_encoded hd hf'
    rw [hf] at e
    rw [if_pos (hb (.inr hf)), e, hs]
  · simp only [extCanon, hf, Bool.and_eq_true, Bool.or_eq_true, beq_iff_eq] at hc
    have e := extArgs_encoded opc a hc.1
    have hlit : a.lit = 0 := by simpa using hc.2
    rw [hf, hlit] at e
    rw [e]
    exact hs
  · simp only [extCanon, hf, Bool.and_eq_true, Bool.or_eq_true, beq_iff_eq] at hc
    have e := extArgs_encoded opc a hc.1
    rw [hf] at e
    rw [append_halves, e]
    exact hs

/-! ## Encoding what is decoded -/

theorem toNat_setWidth_lt {n m : Nat} (x : BitVec n) : (x.setWidth m).toNat < 2 ^ n := by
  rw [BitVec.toNat_setWidth]
  exact (Nat.mod_le _ _).trans_lt x.isLt

theorem setWidth_up_down {n m : Nat} (x : BitVec n) (h : n ≤ m) : (x.setWidth m).setWidth n = x := by
  rw [BitVec.setWidth_setWidth_of_le _ h, BitVec.setWidth_eq]

theorem signExtend_back {n m : Nat} {x : BitVec n} (h : n ≤ m) : (x.signExtend m).setWidth n = x := by
  ext i hi
  rw [BitVec.getElem_setWidth, BitVec.getLsbD_signExtend, if_pos hi, decide_eq_true (hi.trans_le h), Bool.true_and,
    BitVec.getLsbD_eq_getElem hi]

/-- A word that carries the header read from another has its low bits (R61). -/
theorem header_read {a : Args} {x y : IWord} (h : ∀ i, i < 12 → x.getLsbD i = (header (opcField y).toNat a).getLsbD i)
    (hf : a.form = Form.ofCode (y.extractLsb' 0 2)) (hs : a.scope = Scope.ofCode (y.extractLsb' 3 2)) (he : a.fin = y.getLsbD 2) :
    x.extractLsb' 0 12 = y.extractLsb' 0 12 := by
  obtain ⟨ho, hform⟩ := header_fields _ a x h
  obtain ⟨hscope, hfin⟩ := header_scope_fin _ a x h
  refine header_bits ?_ (hfin.trans he) ?_ ?_
  · rw [hform, hf, Form.code_ofCode]
  · rw [hscope, hs, Scope.code_ofCode]
  · rw [ho, BitVec.ofNat_toNat, BitVec.setWidth_eq]

theorem low_half (x y : BitVec 32) : (x ++ y).setWidth 32 = y := BitVec.setWidth_append_eq_right

theorem high_half (x y : BitVec 32) : (x ++ y).extractLsb' 32 32 = x := BitVec.extractLsb'_append_eq_left

/-- A base form is read with the defaults of R68. -/
theorem baseArgs_defaults (fmt : BaseFmt) (opc : Nat) {form : Form} (w0 : IWord) {lit : IWord} (h : form = .base → lit = 0) :
    BaseDefaults opc (baseArgs fmt opc form w0 lit) := by
  have hl : if form = .base then lit.setWidth 64 = 0 else (lit.setWidth 64).toNat < 2 ^ 32 := by
    split
    next hf => rw [h hf]; rfl
    next => exact toNat_setWidth_lt lit
  cases fmt <;> exact ⟨⟨rfl, rfl, rfl, rfl⟩, ⟨rfl, rfl, rfl, rfl⟩, ⟨rfl, rfl, rfl, rfl, rfl, rfl⟩, rfl, rfl, hl⟩

/-- The fields that a base form is read into are those that its format can hold (R64). -/
theorem baseArgs_fields (fmt : BaseFmt) (opc : Nat) (form : Form) (w0 lit : IWord) :
    BaseFields opc (baseArgs fmt opc form w0 lit) fmt := by
  have h6 (x : BitVec 6) : (x.setWidth 8).toNat < 64 := toNat_setWidth_lt x
  have h2 (x : BitVec 2) : (x.setWidth 3).toNat < 4 := toNat_setWidth_lt x
  cases fmt with
  | bj => exact ⟨rfl, rfl, rfl, rfl, rfl⟩
  | bi =>
    refine ⟨h6 _, h6 _, rfl, rfl, rfl, rfl, ?_⟩
    change BitVec.signExtend 12 _ = ((BitVec.signExtend 12 _).setWidth 8).signExtend 12
    rw [signExtend_back (by decide)]
  | b3 | none => exact ⟨h6 _, h6 _, h6 _, rfl, rfl, h2 _, rfl⟩

/-- Word 0 of what a base form is read into is that form's word 0. -/
theorem baseWord_decoded (fmt : BaseFmt) (w0 lit : IWord) :
    baseWord fmt (opcField w0).toNat (baseArgs fmt (opcField w0).toNat (Form.ofCode (w0.extractLsb' 0 2)) w0 lit) = w0 := by
  generalize hopc : (opcField w0).toNat = opc
  generalize ha : baseArgs fmt opc (Form.ofCode (w0.extractLsb' 0 2)) w0 lit = a
  have h0 : (baseWord fmt opc a).extractLsb' 0 12 = w0.extractLsb' 0 12 := by
    subst hopc ha
    exact header_read (baseWord_low fmt _ _) (by cases fmt <;> rfl) (by cases fmt <;> rfl) (by cases fmt <;> rfl)
  refine eq_of_extract ?_
  cases fmt with
  | bj =>
    obtain ⟨hp, hoff⟩ := baseWord_bj opc a
    subst ha
    exact extract_grow (extract_grow h0 hp) hoff
  | bi =>
    obtain ⟨hd, haa, himm⟩ := baseWord_bi opc a
    subst ha
    exact extract_grow (extract_grow (extract_grow h0 (hd.trans (setWidth_up_down _ (by decide))))
      (haa.trans (setWidth_up_down _ (by decide)))) (himm.trans (signExtend_back (by decide)))
  | b3 | none =>
    obtain ⟨hd, haa, hb, hp⟩ := baseWord_b3 opc a
    subst ha
    exact extract_grow (extract_grow (extract_grow (extract_grow h0 (hd.trans (setWidth_up_down _ (by decide))))
      (haa.trans (setWidth_up_down _ (by decide)))) (hb.trans (setWidth_up_down _ (by decide))))
      (hp.trans (setWidth_up_down _ (by decide)))

/-- The words of an extended form are those that its fields were read from. -/
theorem extWords_decoded {w0 w1 w2 : IWord} {lit : Word} {a : Args}
    (h : extArgs (Form.ofCode (w0.extractLsb' 0 2)) w0 w1 w2 lit = some a) :
    extWord0 (opcField w0).toNat a = w0 ∧ extWord1 a = w1 ∧ extWord2 a = w2 ∧ a.lit = lit ∧ a.off = 0 ∧
      a.form = Form.ofCode (w0.extractLsb' 0 2) := by
  unfold extArgs at h
  split at h
  next ty rnd hty hrnd =>
    have ha := Option.some.inj h
    generalize hopc : (opcField w0).toNat = opc
    have h0 : (extWord0 opc a).extractLsb' 0 12 = w0.extractLsb' 0 12 := by
      subst hopc ha
      exact header_read (extWord0_low _ _) rfl rfl rfl
    obtain ⟨hkd, hka, hkb, hkc, himm⟩ := extWord0_fields opc a
    obtain ⟨hd, haa, hb, hc⟩ := extWord1_fields a
    obtain ⟨ht, hr, hsat, hna, hnb, habs, hxp, hp, hpn, hec, hcp, hfunc, hsub⟩ := extWord2_fields a
    subst ha
    refine ⟨eq_of_extract ?_, eq_of_extract ?_, eq_of_extract ?_, rfl, rfl, rfl⟩
    · have kind (c : BitVec 2) : (Kind.ofCode c).code = c := Kind.code_ofCode c
      exact extract_grow (extract_grow (extract_grow (extract_grow (extract_grow h0 (hkd.trans (kind _))) (hka.trans (kind _)))
        (hkb.trans (kind _))) (hkc.trans (kind _))) himm
    · exact extract_grow (extract_grow (extract_grow hd haa) hb) hc
    · have bit (i : Nat) : BitVec.ofBool (w2.getLsbD i) = w2.extractLsb' i 1 := ofBool_getLsbD w2 i
      have h7 := extract_grow (extract_grow (ht.trans (EType.code_of_ofCode hty)) (hr.trans (Rnd.code_of_ofCode hrnd)))
        (hsat.trans (bit _))
      have h12 := extract_grow (extract_grow (extract_grow (extract_grow h7 (hna.trans (bit _))) (hnb.trans (bit _)))
        (habs.trans (bit _))) (hxp.trans (bit _))
      exact extract_grow (extract_grow (extract_grow (extract_grow (extract_grow (extract_grow h12 hp) (hpn.trans (bit _))) hec)
        hcp) hfunc) hsub
  next => cases h

/-- What is selected is a legal instruction of its major opcode (R77). -/
theorem select_ok {opc : Nat} {a : Args} {i : Instr} (h : select opc a = .ok i) :
    ∃ o, (rowOf o a.func.toNat).opc = opc ∧ legal o a = true ∧ i = Instr.ofOp o a := by
  unfold select at h
  split at h
  · cases h
  next o ho =>
    split at h
    next hl => cases h; exact ⟨o, opc_of_opOf ho, hl, rfl⟩
    next => cases h

/-- Words from which an instruction was selected, once its fields are known to be canonical and to give these words. -/
theorem selected_wf {opc : Nat} {a : Args} {i : Instr} {ws : List IWord} (h : select opc a = .ok i) (hc : canon opc a = true)
    (he : encodeArgs opc a = ws) : i.wf = true ∧ encode i = ws := by
  obtain ⟨o, rfl, hl, rfl⟩ := select_ok h
  refine ⟨?_, (encode_ofOp o a).trans he⟩
  simp only [Instr.wf, Instr.op?_ofOp, hl, hc, Bool.and_self]


/-- Words that decode to a program instruction are those of that instruction, which is well formed. -/
theorem decoded_wf {w0 : IWord} {ws : List IWord} {i : Instr} (hn : ws.length + 1 = lengthOf w0)
    (h : decodeWords (w0 :: ws) = .ok i) (ho : i.op?.isSome) : i.wf = true ∧ encode i = w0 :: ws := by
  unfold lengthOf at hn
  simp only [decodeWords] at h
  split at h
  · cases h
    cases ho
  have hw := baseWord_decoded (baseFmtOf (opcField w0).toNat) w0
  have hx {w1 w2 : IWord} {lit : Word} {a : Args} := extWords_decoded (w0 := w0) (w1 := w1) (w2 := w2) (lit := lit) (a := a)
  generalize Form.ofCode (w0.extractLsb' 0 2) = form at *
  generalize (opcField w0).toNat = opc at *
  have hcanon (form : Form) (lit : IWord) (h : form = .base → lit = 0) :
      baseCanon opc (baseArgs (baseFmtOf opc) opc form w0 lit) = true :=
    (baseCanon_iff _ _).2 ⟨baseArgs_defaults _ opc w0 h, baseArgs_fields _ opc form w0 lit⟩
  have hform (form : Form) (lit : IWord) : (baseArgs (baseFmtOf opc) opc form w0 lit).form = form := by
    cases baseFmtOf opc <;> rfl
  have hlit (form : Form) (lit : IWord) : (baseArgs (baseFmtOf opc) opc form w0 lit).lit = lit.setWidth 64 := by
    cases baseFmtOf opc <;> rfl
  cases form with
  | base =>
    obtain rfl : ws = [] := List.eq_nil_of_length_eq_zero (by simpa [Form.len] using hn)
    dsimp only at h
    split at h
    · refine selected_wf h ?_ ?_
      · simpa only [canon, hform] using hcanon .base 0 fun _ => rfl
      · simp only [encodeArgs, hform, hw]
    · cases h
  | baseLit =>
    obtain ⟨l, rfl⟩ : ∃ l, ws = [l] := List.length_eq_one_iff.1 (by simpa [Form.len] using hn)
    dsimp only at h
    split at h
    · refine selected_wf h ?_ ?_
      · simpa only [canon, hform] using hcanon .baseLit l nofun
      · simp only [encodeArgs, hform, hw, hlit, setWidth_up_down l (show 32 ≤ 64 by decide)]
    · cases h
  | ext =>
    obtain ⟨w1, w2, rfl⟩ : ∃ w1 w2, ws = [w1, w2] := List.length_eq_two.1 (by simpa [Form.len] using hn)
    dsimp only at h
    split at h
    next a ha =>
      obtain ⟨h0, h1, h2, hl, hoff, hf⟩ := hx ha
      refine selected_wf h ?_ ?_
      · simp only [canon, hf, extCanon, hoff, hl]; rfl
      · simp only [encodeArgs, hf, h0, h1, h2]
    next => cases h
  | extLit =>
    obtain ⟨w1, w2, l0, l1, rfl⟩ : ∃ w1 w2 l0 l1, ws = [w1, w2, l0, l1] := by
      cases ws with
      | nil => cases hn
      | cons w1 ws =>
        obtain ⟨w2, l0, l1, rfl⟩ := List.length_eq_three.1 (by simpa [Form.len] using hn)
        exact ⟨w1, w2, l0, l1, rfl⟩
    dsimp only at h
    split at h
    next a ha =>
      obtain ⟨h0, h1, h2, hl, hoff, hf⟩ := hx ha
      refine selected_wf h ?_ ?_
      · simp only [canon, hf, extCanon, hoff]; rfl
      · simp only [encodeArgs, hf, h0, h1, h2, hl, low_half, high_half]
    next => cases h

end Sys2Proof

namespace Sys2Proof.Encoding

/-- Settles O56: encoding then decoding by the fields of each form, decoding then encoding by the words that the fields give. -/
theorem roundTrip : Obligations.RoundTrip := by
  refine ⟨fun i rest hw ho => ?_, fun _ _ _ hn h ho => decoded_wf hn h ho⟩
  obtain ⟨⟨o, a⟩, hop⟩ := Option.isSome_iff_exists.1 ho
  obtain rfl := Instr.ofOp_of_op? hop
  simp only [Instr.wf, Instr.op?_ofOp, Bool.and_eq_true] at hw
  rw [encode_ofOp]
  exact decodeWords_encodeArgs rest hw.1 hw.2

/-- Settles O57: each word by running the decoder. -/
theorem decodeWords : Obligations.DecodeWords :=
  ⟨rfl, rfl, rfl, rfl, rfl, rfl, rfl, rfl, _, rfl, rfl⟩

end Sys2Proof.Encoding

/-! SUPPORT. Comparisons, selection and branches: each effect ends by a law of its shared operation. -/

namespace Sys2Proof.Machine

/-! ## Comparisons and selection (spec/05 R112, R113, spec/06 R133) -/

@[simp] theorem State.predwise_listed (s : State) (g : Grp) (a : Args) (sa sb : Src) (f : LaneIn → Bool × Nat) (v : Nat) :
    (mfind (s.predwise g a sa sb f).warps v).isSome = (mfind s.warps v).isSome := by
  unfold predwise
  dsimp only
  split
  · rw [modWarps_listed]
  · exact foldWarps_listed s g (fun m w => (w.pset a.d.toNat ((w.pget a.d.toNat &&& ~~~maskOf (s.actedOf a m)) |||
      maskOf ((s.actedOf a m).filter fun l => (f (s.laneIn a sa sb ⟨.x, 0, 0⟩ (leaderOf g) m.1 l)).1))).setFlags
        ((s.actedOf a m).foldl (fun acc l => acc ||| (f (s.laneIn a sa sb ⟨.x, 0, 0⟩ (leaderOf g) m.1 l)).2) 0)) v

/-- An instruction that writes a predicate completes wherever it issues. -/
theorem State.Issues.compares {o : Op} {rel : Args → LaneIn → Bool × Nat} {eff : Args → State → Grp → Res}
    (hi : ∀ a s, exec (Instr.ofOp o a) s = s.issue o a (eff a))
    (he : ∀ a s g, eff a s g = .next (s.predwise g a (srcA a) (srcB a 0) (rel a))) : Claims.compareComplete o rel := by
  intro a s g h
  obtain ⟨pv, fl, hw, hwarp, hlane⟩ := (s.opened o a g).predwise_wrote g a (srcA a) (srcB a 0) (rel a) h.grpOk
  exact ⟨_, pv, fl, h.completes (hi a s) (he a _ g) (predwise_listed _ g a _ _ _), hw, hwarp, hlane⟩

theorem compares : Claims.compare := ⟨State.Issues.compares (fun _ _ => rfl) fun _ _ _ => rfl,
  State.Issues.compares (fun _ _ => rfl) fun _ _ _ => rfl⟩

theorem foldl_or_zero (ls : List Nat) : ls.foldl (fun (x : Word) _ => x ||| BitVec.ofNat 64 0) 0 = 0 := by
  induction ls with
  | nil => rfl
  | cons l ls ih => exact ih

/-- What `SEL` gives a lane of a member: operand A where its predicate is set, else operand B (R113). -/
def State.selected (s : State) (a : Args) (lead m l : Nat) : Word :=
  s.val lead m l (if ((s.warp m).pred a.p.toNat a.pn).getLsbD l then srcA a else srcB a 0)

theorem selects : Claims.select := by
  intro a s g h
  have hw := (s.opened .sel a g).writeLanes_wrote g a (fun m => lanesOf m.2)
    (fun m l => ((s.opened .sel a g).selected a (leaderOf g) m.1 l, 0)) h.grpOk (fun m k hk => (mem_lanesOf.1 hk).1)
    ((s.opened .sel a g).selected a (leaderOf g)) fun _ _ _ => rfl
  simp only [foldl_or_zero] at hw
  exact ⟨_, ⟨_, rfl, h.retires (effSel a) rfl (State.foldWarps_listed _ g _)⟩, hw⟩

/-- Settles O7: the comparisons by the predicate that they write, `SEL` by the lanes that it writes. -/
theorem compareSelect : Obligations.CompareSelect := ⟨compares, selects⟩

/-! ## Branches (spec/05 R103 to R106) -/

/-- An effect with which the run ends. -/
theorem State.Issues.completesLast {s r : State} {o : Op} {a : Args} {g : Grp} {i : Instr} {eff : State → Grp → Res}
    (h : s.IssuesPlain o a g) (hi : exec i s = s.issue o a eff) (he : eff (s.opened o a g) g = .last r)
    (hl : ∀ w, (mfind r.warps w).isSome = (mfind (s.opened o a g).warps w).isSome) : Completes i a g s r := by
  obtain ⟨hn, hr, hc⟩ := h.grp
  refine ⟨_, hi, ?_⟩
  rw [h.finish eff (by simp [he]), he]
  refine retired_pass r g s.cur o a _ true s.mem hc hn fun m hm => ?_
  rw [hl, h.opened.warps]
  exact hr m hm

/-- An effect that transfers control to an aligned address (R62). -/
theorem State.Issues.jumpsAligned {s : State} {o : Op} {a : Args} {i : Instr} {eff : State → Grp → Res} {p : Word}
    (h : s.IssuesPlain o a s.alone) (hi : exec i s = s.issue o a eff)
    (he : eff (s.opened o a s.alone) s.alone = (s.opened o a s.alone).jumpRes s.cur p) (hp : p &&& 3 = 0) :
    Claims.jumpsTo i s (s.opened o a s.alone) p :=
  h.jumpsTo hi (he.trans (State.jumpRes_aligned _ hp)) h.listed

theorem effBra_eq (a : Args) (s : State) (g : Grp) :
    effBra a s g = if condMask (s.warp (leaderOf g)) a = (s.warp (leaderOf g)).exec
      then s.jumpRes (leaderOf g) (target a (s.warp (leaderOf g)).pc)
      else if condMask (s.warp (leaderOf g)) a = 0 then .next s else .trap s { code := 0x03, detail := 0x02 } := rfl

theorem effBrcFlag_eq {a : Args} {s : State} {g : Grp} (h : s.flagsWait (leaderOf g) = false) :
    effBrcFlag a s g = if brcFlagTaken a.p.toNat (s.warp (leaderOf g)).ovf
      then s.jumpRes (leaderOf g) (target a (s.warp (leaderOf g)).pc) else .next s := by
  unfold effBrcFlag
  dsimp only
  rw [h, if_neg Bool.false_ne_true]

theorem effBrcReg_eq (a : Args) (s : State) (g : Grp) :
    effBrcReg a s g = if brcRegTaken a.p.toNat (s.sval g (srcA a))
      then s.jumpRes (leaderOf g) (target a (s.warp (leaderOf g)).pc) else .next s := rfl

theorem effJmpi_eq (a : Args) (s : State) (g : Grp) : effJmpi a s g = s.jumpRes (leaderOf g) (s.sval g (srcA a)) := rfl

theorem jumpRes_misaligned {s : State} {w : Nat} {p : Word} (h : p &&& 3 ≠ 0) : s.jumpRes w p = .trap s ⟨0x12, 0, p⟩ := by
  unfold State.jumpRes
  rw [misaligned_some h]

/-- Settles O9: each branch by the end that its condition chooses. -/
theorem branches : Obligations.Branches := by
  refine ⟨fun a s g h => ?_, fun a s h => ?_, fun a s h => ?_, fun a s h => ?_, fun a s h => ?_, fun a s h => ?_⟩
  · exact h.completes rfl rfl fun _ => rfl
  · exact h.completesLast rfl rfl fun _ => State.modWarp_listed ..
  · refine ⟨fun hc hp => ?_, fun hne hz => ?_, fun hne hz => ?_⟩
    · exact h.jumpsAligned (eff := effBra a) rfl ((effBra_eq ..).trans (if_pos hc)) hp
    · exact h.completes (eff := effBra a) rfl ((effBra_eq ..).trans ((if_neg hne).trans (if_pos hz))) fun _ => rfl
    · exact h.trapsAlone (eff := effBra a) rfl ((effBra_eq ..).trans ((if_neg hne).trans (if_neg hz)))
  · refine fun hw => ⟨fun ht hp => ?_, fun ht => ?_⟩
    · exact h.jumpsAligned (eff := effBrcFlag a) rfl ((effBrcFlag_eq (g := s.alone) hw).trans (if_pos ht)) hp
    · exact h.completes (eff := effBrcFlag a) rfl ((effBrcFlag_eq (g := s.alone) hw).trans (if_neg (by simp [ht]))) fun _ => rfl
  · refine ⟨fun ht hp => ?_, fun ht => ?_⟩
    · exact h.jumpsAligned (eff := effBrcReg a) rfl ((effBrcReg_eq ..).trans (if_pos ht)) hp
    · exact h.completes (eff := effBrcReg a) rfl ((effBrcReg_eq ..).trans (if_neg (by simp [ht]))) fun _ => rfl
  · refine ⟨fun hp => ?_, fun hp => ?_⟩
    · exact h.jumpsAligned (eff := effJmpi a) rfl (effJmpi_eq ..) hp
    · exact h.trapsAlone (eff := effJmpi a) rfl ((effJmpi_eq ..).trans (jumpRes_misaligned hp))

end Sys2Proof.Machine

/-! SUPPORT. The refutation of O16. Its clause on marked sources speaks of every state. Where an instruction traps on a
marked source, the model goes on to clear the failed token that its leader read, and where there is no such token it enters
the leader's record again unchanged. A map of warps in the order of its keys keeps its form by that; one out of order, which
the model's operations never make, gets a second entry. -/
namespace Sys2Proof.Machine.UnsortedWarps

/-- A fully exited warp whose scalar register 2 is marked. -/
def exited : Warp := { retired := true, sMark := [(2, some ⟨0, 0, 0x14⟩)] }

/-- The exited warp is the current one, and the map of warps is out of the order of its keys. -/
def unsorted : State := { State.reset with warps := [(100, {}), (0, exited)] }

/-- A `CSIG` at block scope whose first source is scalar register 2. -/
def signal : Args := { scope := .block, ka := .s, a := 2, kc := .x }

/-- No member of the block is left, so the group of the instruction is empty. -/
theorem gather_group : (unsorted.gather .csig signal).2 = some [] := by decide

theorem reachesSources : Claims.ReachesSources unsorted .csig signal [] where
  checks := by decide
  group := gather_group
  budget := by decide
  late := fun _ => rfl

/-- The instruction leaves three entries in the map of warps. -/
theorem exec_enters : ∃ t, exec (Instr.ofOp .csig signal) unsorted = .next t ∧ t.warps.length = 3 := by
  refine ⟨_, rfl, ?_⟩
  decide

/-- Taking the trap of the mark for the empty group leaves two. -/
theorem finish_keeps : (State.finish unsorted.cur [] .csig signal
    (.trap (unsorted.stood .csig signal []) ⟨0x14, 0, 0⟩)).warps.length = 2 := by decide

end Sys2Proof.Machine.UnsortedWarps

namespace Sys2Proof.Machine
open UnsortedWarps

/-- Refutes O16: its clause on marked sources fails in a state whose map of warps is not in the order of its keys, where
the instruction enters its leader's record a second time. -/
theorem not_trapInstructions : ¬ Obligations.TrapInstructions := by
  rintro ⟨-, -, -, hmark, -⟩
  have h := hmark .csig signal unsorted [] 0 _ _ _ ⟨0, 0, 0x14⟩ (by decide) reachesSources rfl (by decide) (by decide)
    (by decide) (by decide) (.inl (by decide))
  obtain ⟨t, ht, hlen⟩ := exec_enters
  rw [ht] at h
  injection h with h
  have : t.warps.length = 2 := by rw [h]; exact finish_keeps
  omega

end Sys2Proof.Machine

/-! SUPPORT. The register window (spec/03 R59, R60): what a store of bytes leaves of a window, byte by byte. -/

namespace Sys2Proof.Machine

/-! ## Bytes of a value -/

theorem getLsbD_setByte (x : Word) (i : Nat) (b : Byte) {k : Nat} (hk : k < 64) :
    (setByte x i b).getLsbD k = if 8 * i ≤ k ∧ k < 8 * i + 8 then b.getLsbD (k - 8 * i) else x.getLsbD k := by
  have hm : ((2 ^ 8 - 1) * 2 ^ (8 * i)).testBit k = (decide (8 * i ≤ k) && decide (k - 8 * i < 8)) := by
    rw [Nat.testBit_mul_two_pow, Nat.testBit_two_pow_sub_one]
  have hv : (b.toNat % 2 ^ 8 * 2 ^ (8 * i)).testBit k = (decide (8 * i ≤ k) && b.getLsbD (k - 8 * i)) := by
    rw [Nat.testBit_mul_two_pow, Nat.mod_eq_of_lt b.isLt]
    rfl
  simp only [setByte, setElem, BitVec.getLsbD_or, BitVec.getLsbD_and, BitVec.getLsbD_not, BitVec.getLsbD_ofNat, hm, hv, hk]
  by_cases h : 8 * i ≤ k ∧ k < 8 * i + 8
  · simp [h, show k - 8 * i < 8 by omega]
  · by_cases h1 : 8 * i ≤ k
    · have h2 : 8 ≤ k - 8 * i := by omega
      simp [h, Nat.not_lt.2 h2, BitVec.getLsbD_of_ge b _ h2]
    · simp [h1]

/-- Replacing byte i of a value leaves its other bytes. -/
theorem setByte_extract (x : Word) {i j : Nat} (b : Byte) (hj : j < 8) :
    (setByte x i b).extractLsb' (8 * j) 8 = if j = i then b else x.extractLsb' (8 * j) 8 := by
  refine BitVec.eq_of_getLsbD_eq fun k hk => ?_
  rw [BitVec.getLsbD_extractLsb', getLsbD_setByte x i b (by omega)]
  by_cases h : j = i
  · subst h
    simp [hk]
  · rw [if_neg (by omega), if_neg h, BitVec.getLsbD_extractLsb']

theorem extract_setWidth {m n : Nat} (x : BitVec m) {k : Nat} (h : k + 8 ≤ n) :
    (x.setWidth n).extractLsb' k 8 = x.extractLsb' k 8 := by
  refine BitVec.eq_of_getLsbD_eq fun i hi => ?_
  simp only [BitVec.getLsbD_extractLsb', BitVec.getLsbD_setWidth, show k + i < n by omega, decide_true, Bool.true_and]

/-! ## Bytes of a window -/

theorem Warp.winByte_vector (w : Warp) {o : Nat} (h : o < 0x10000) :
    w.winByte o = (mget 0 w.v (o / 8)).extractLsb' (8 * (o % 8)) 8 := by
  have e : 32 * (o / 256) + o % 256 / 8 = o / 8 := by omega
  simp only [winByte, h, if_true, vget, e]

theorem Warp.winByte_scalar (w : Warp) {o : Nat} (h : 0x10000 ≤ o) (h' : o < 0x10200) :
    w.winByte o = (w.sget ((o - 0x10000) / 8)).extractLsb' (8 * (o % 8)) 8 := by
  simp only [winByte, Nat.not_lt.2 h, h', if_true, if_false]

theorem Warp.winByte_pred (w : Warp) {o : Nat} (h : 0x10200 ≤ o) :
    w.winByte o = (w.pget ((o - 0x10200) / 4)).extractLsb' (8 * (o % 4)) 8 := by
  have h' : ¬o < 0x10000 := by omega
  simp only [winByte, h', Nat.not_lt.2 h, if_false]

/-- p0 reads as all ones (R52). -/
theorem Warp.winByte_p0 (w : Warp) {o : Nat} (h1 : 0x10200 ≤ o) (h2 : o < 0x10204) : w.winByte o = 0xFF := by
  have e : (o - 0x10200) / 4 = 0 := by omega
  rw [winByte_pred w h1, e, pget_zero]
  have h4 : o % 4 < 4 := Nat.mod_lt _ (by omega)
  generalize o % 4 = i at h4
  interval_cases i <;> decide

/-- A window is what the three files of registers hold. -/
theorem Warp.winByte_congr {w y : Warp} {o : Nat} (hv : o < 0x10000 → mget 0 y.v (o / 8) = mget 0 w.v (o / 8))
    (hs : 0x10000 ≤ o → o < 0x10200 → mget 0 y.s ((o - 0x10000) / 8) = mget 0 w.s ((o - 0x10000) / 8))
    (hp : 0x10204 ≤ o → mget 0 y.p ((o - 0x10200) / 4) = mget 0 w.p ((o - 0x10200) / 4)) : y.winByte o = w.winByte o := by
  by_cases h1 : o < 0x10000
  · rw [winByte_vector _ h1, winByte_vector _ h1, hv h1]
  by_cases h2 : o < 0x10200
  · rw [winByte_scalar _ (by omega) h2, winByte_scalar _ (by omega) h2, sget, sget, hs (by omega) h2]
  by_cases h3 : o < 0x10204
  · rw [winByte_p0 _ (by omega) h3, winByte_p0 _ (by omega) h3]
  · rw [winByte_pred _ (by omega), winByte_pred _ (by omega), pget, pget, hp (by omega)]

section
variable (w : Warp) {off : Nat} (b : Byte) (o : Nat)

theorem Warp.winStore_vector (h : off < 0x10000) :
    w.winStore off b = { w with v := mset 0 w.v (off / 8) (setByte (mget 0 w.v (off / 8)) (off % 8) b) } := by
  have e : 32 * (off / 256) + off % 256 / 8 = off / 8 := by omega
  simp only [winStore, h, if_true, vsetPart, vget, e]

theorem Warp.winStore_scalar (h : 0x10000 ≤ off) (h' : off < 0x10200) : w.winStore off b =
    { w with s := mset 0 w.s ((off - 0x10000) / 8) (setByte (w.sget ((off - 0x10000) / 8)) (off % 8) b) } := by
  rw [winStore, if_neg (by omega), if_pos h']

theorem Warp.winStore_pred (h : 0x10204 ≤ off) : w.winStore off b =
    { w with
      p := mset 0 w.p ((off - 0x10200) / 4) ((setByte ((w.pget ((off - 0x10200) / 4)).setWidth 64) (off % 4) b).setWidth 32) } := by
  simp only [winStore, show ¬off < 0x10000 by omega, show ¬off < 0x10200 by omega,
    show ¬(off - 0x10200) / 4 = 0 by omega, if_false]

/-- A byte stored is there, but for one of p0, and every other byte of the window stays. -/
theorem Warp.winStore_winByte : (w.winStore off b).winByte o =
    if o = off ∧ ¬(0x10200 ≤ o ∧ o < 0x10204) then b else w.winByte o := by
  by_cases hv : off < 0x10000
  · rw [winStore_vector w b hv]
    by_cases hk : o < 0x10000 ∧ o / 8 = off / 8
    · rw [winByte_vector _ hk.1, winByte_vector _ hk.1]
      simp only [hk.2, mget_mset_self]
      rw [setByte_extract _ _ (by omega)]
      exact if_congr (by omega) rfl rfl
    · rw [if_neg (by omega)]
      exact winByte_congr (fun h => mget_mset_ne _ _ _ (by omega)) (fun _ _ => rfl) fun _ => rfl
  by_cases hs : off < 0x10200
  · rw [winStore_scalar w b (by omega) hs]
    by_cases hk : (0x10000 ≤ o ∧ o < 0x10200) ∧ (o - 0x10000) / 8 = (off - 0x10000) / 8
    · rw [winByte_scalar _ hk.1.1 hk.1.2, winByte_scalar _ hk.1.1 hk.1.2]
      simp only [hk.2, sget, mget_mset_self]
      rw [setByte_extract _ _ (by omega)]
      exact if_congr (by omega) rfl rfl
    · rw [if_neg (by omega)]
      exact winByte_congr (fun _ => rfl) (fun h h' => mget_mset_ne _ _ _ (by omega)) fun _ => rfl
  by_cases h0 : off < 0x10204
  · have he : w.winStore off b = w := by
      simp only [winStore, hv, hs, show (off - 0x10200) / 4 = 0 by omega, if_true, if_false]
    rw [he, if_neg (by omega)]
  · rw [winStore_pred w b (by omega)]
    by_cases hk : 0x10200 ≤ o ∧ (o - 0x10200) / 4 = (off - 0x10200) / 4
    · rw [winByte_pred _ hk.1, winByte_pred _ hk.1]
      simp only [pget, hk.2, show ¬(off - 0x10200) / 4 = 0 by omega, if_false, mget_mset_self]
      rw [extract_setWidth _ (by omega), setByte_extract _ _ (by omega), extract_setWidth _ (by omega)]
      exact if_congr (by omega) rfl rfl
    · rw [if_neg (by omega)]
      exact winByte_congr (fun _ => rfl) (fun _ _ => rfl) fun h => mget_mset_ne _ _ _ (by omega)

/-- Clearing the mark of what has been overwritten leaves every value. -/
theorem Warp.winWhole_winByte (top : Nat) : (w.winWhole top off).winByte o = w.winByte o := by
  unfold winWhole
  split
  · split
    · rfl
    · split
      · refine winByte_congr (fun _ => (mget_mset ..).trans ?_) (fun _ _ => rfl) fun _ => rfl
        split
        next h => rw [h, vget]
        next => rfl
      · refine winByte_congr (fun _ => rfl) (fun _ _ => (mget_mset ..).trans ?_) fun _ => rfl
        split
        next h => rw [h, sget]
        next => rfl
  · split
    · rfl
    · unfold pset
      split
      · rfl
      next hz =>
        refine winByte_congr (fun _ => rfl) (fun _ _ => rfl) fun _ => (mget_mset ..).trans ?_
        split
        next h => rw [h, pget, if_neg hz]
        next => rfl

end

/-! ## A store through the window -/

/-- Bytes stored one after another: each stands at its offset, but for those of p0, and the rest of the window stays. -/
theorem Warp.winStores_winByte (bs : List Byte) (w : Warp) (off k o : Nat) :
    ((bs.zipIdx k).foldl (fun y b => y.winStore (off + b.2) b.1) w).winByte o =
      if h : (off + k ≤ o ∧ o < off + k + bs.length) ∧ ¬(0x10200 ≤ o ∧ o < 0x10204) then bs[o - (off + k)]
      else w.winByte o := by
  induction bs generalizing w k with
  | nil => simp [show ¬(off + k ≤ o ∧ o < off + k) by omega]
  | cons b bs ih =>
    rw [List.zipIdx_cons, List.foldl_cons, ih, winStore_winByte]
    by_cases hp : 0x10200 ≤ o ∧ o < 0x10204
    · simp only [hp, not_true, and_false, and_self, dite_false, if_false]
    by_cases hk : o = off + k
    · rw [dif_neg (by omega), if_pos ⟨hk, hp⟩, dif_pos ⟨by simp only [List.length_cons]; omega, hp⟩]
      simp only [hk, Nat.sub_self, List.getElem_cons_zero]
    · rw [if_neg fun h => hk h.1]
      by_cases ho : off + k ≤ o ∧ o < off + k + (b :: bs).length
      · have hi : o - (off + k) = o - (off + (k + 1)) + 1 := by omega
        rw [dif_pos ⟨by simp only [List.length_cons] at ho; omega, hp⟩, dif_pos ⟨ho, hp⟩]
        simp only [hi, List.getElem_cons_succ]
      · rw [dif_neg (by simp only [List.length_cons] at ho; omega), dif_neg fun h => ho h.1]

theorem Warp.winWholes_winByte (os : List Nat) (w : Warp) (top o : Nat) :
    (os.foldl (fun y o => y.winWhole top o) w).winByte o = w.winByte o := by
  induction os generalizing w with
  | nil => rfl
  | cons x xs ih => rw [List.foldl_cons, ih, winWhole_winByte]

/-- The window after a store of bytes. -/
theorem Warp.winPut_winByte (w : Warp) (off : Nat) (bs : List Byte) (o : Nat) :
    (w.winPut off bs).winByte o =
      if h : (off ≤ o ∧ o < off + bs.length) ∧ ¬(0x10200 ≤ o ∧ o < 0x10204) then bs[o - off] else w.winByte o :=
  (winWholes_winByte ..).trans (winStores_winByte bs w off 0 o)

/-- What one step of a fold establishes, and no step undoes, holds at its end. -/
theorem foldl_establishes {α β : Type} {P : β → Prop} {f : β → α → β} {xs : List α} {x : α} (hx : x ∈ xs)
    (he : ∀ y, P (f y x)) (hk : ∀ y z, P y → P (f y z)) (y : β) : P (xs.foldl f y) := by
  have keep (zs : List α) : ∀ y, P y → P (zs.foldl f y) := by
    induction zs with
    | nil => exact fun _ h => h
    | cons z zs ih => exact fun y h => ih _ (hk y z h)
  obtain ⟨us, vs, rfl⟩ := List.append_of_mem hx
  rw [List.foldl_append, List.foldl_cons]
  exact keep _ _ (he _)

/-- A lane that a store overwrites whole is unmarked, and one that is unmarked stays so. -/
theorem Warp.winWhole_vmark (w : Warp) (top off n l : Nat) :
    (w.vmark n l = none → (w.winWhole top off).vmark n l = none) ∧
    (off < 0x10000 → off % 8 = 0 → off + 8 ≤ top → 32 * n + l = off / 8 → (w.winWhole top off).vmark n l = none) := by
  unfold winWhole
  split
  · split
    next h =>
      refine ⟨id, fun _ h8 ht _ => ?_⟩
      simp [h8, Nat.not_lt.2 ht] at h
    next =>
      split
      next =>
        have hm (x : Word) : (w.vset (off / 256) (off % 256 / 8) x).vmark n l =
          if 32 * n + l = 32 * (off / 256) + off % 256 / 8 then none else w.vmark n l := by
          rw [vmark, vset, mget_mset, vmark]
        rw [hm]
        exact ⟨fun h => by rw [h, ite_self], fun _ _ _ h => if_pos (by omega)⟩
      next h => exact ⟨id, fun h' => absurd h' h⟩
  next h =>
    refine ⟨fun hm => ?_, fun h' => absurd h' (by omega)⟩
    split
    · exact hm
    · rwa [vmark, pset_vMark]

/-- The same of a scalar register, and of what a token in it had to report (R182). -/
theorem Warp.winWhole_smark (w : Warp) (top off n : Nat) :
    (w.smark n = none ∧ mfind w.tokenErr n = none →
      (w.winWhole top off).smark n = none ∧ mfind (w.winWhole top off).tokenErr n = none) ∧
    (0x10000 ≤ off → off < 0x10200 → off % 8 = 0 → off + 8 ≤ top → n = (off - 0x10000) / 8 →
      (w.winWhole top off).smark n = none ∧ mfind (w.winWhole top off).tokenErr n = none) := by
  unfold winWhole
  split
  · split
    next h =>
      refine ⟨id, fun _ _ h8 ht _ => ?_⟩
      simp [h8, Nat.not_lt.2 ht] at h
    next =>
      split
      next h => exact ⟨id, fun h' => absurd h (by omega)⟩
      next =>
        have hm (x : Word) : (w.sset ((off - 0x10000) / 8) x).smark n =
          if n = (off - 0x10000) / 8 then none else w.smark n := by
          rw [smark, sset, mget_mset, smark]
        have ht (x : Word) : (w.sset ((off - 0x10000) / 8) x).tokenErr = mdel w.tokenErr ((off - 0x10000) / 8) := rfl
        rw [hm, ht]
        refine ⟨fun h => ?_, fun _ _ _ _ h => ⟨if_pos h, by rw [h, mfind_mdel_self]⟩⟩
        by_cases hn : n = (off - 0x10000) / 8
        · exact ⟨if_pos hn, by rw [hn, mfind_mdel_self]⟩
        · rwa [if_neg hn, mfind_mdel_ne _ hn]
  next h =>
    refine ⟨fun hm => ?_, fun _ h' => absurd h' h⟩
    split
    · exact hm
    · rwa [smark, pset_sMark, pset_tokenErr]

theorem registerWindowStore : Claims.registerWindowStore := by
  intro w off n x _ _ _
  have hl := length_bytesOf n x
  refine ⟨fun hn h8 hv => ?_, fun hn h8 hs hs' => ?_, fun o _ => ?_⟩
  · subst hn
    refine foldl_establishes (P := fun y : Warp => y.vmark (off / 256) (off % 256 / 8) = none) (x := off)
      (mem_span.2 (by omega)) (fun y => (y.winWhole_vmark _ off _ _).2 hv h8 (by omega) (by omega))
      (fun y z => (y.winWhole_vmark _ z _ _).1) _
  · subst hn
    exact foldl_establishes
      (P := fun y : Warp => y.smark ((off - 0x10000) / 8) = none ∧ mfind y.tokenErr ((off - 0x10000) / 8) = none) (x := off)
      (mem_span.2 (by omega)) (fun y => (y.winWhole_smark _ off _).2 hs hs' h8 (by omega) rfl)
      (fun y z => (y.winWhole_smark _ z _).1) _
  · rw [Warp.winPut_winByte]
    by_cases hp : 0x10200 ≤ o ∧ o < 0x10204
    · rw [dif_neg fun h => h.2 hp, if_pos hp, Warp.winByte_p0 w hp.1 hp.2]
    · rw [if_neg hp]
      by_cases ho : off ≤ o ∧ o < off + n
      · rw [dif_pos ⟨by rwa [hl], hp⟩, if_pos ho]
        simp only [bytesOf, List.getElem_map, List.getElem_range]
      · rw [dif_neg fun h => ho (by rw [← hl]; exact h.1), if_neg ho]

end Sys2Proof.Machine

/-! SUPPORT. What acknowledges a store, and what a prefetch may change. -/

namespace Sys2Proof.Machine

/-! ## Acknowledgements and prefetches (spec/07 R173, R174, R184) -/

/-- A late fault is recorded where none is held (R398). -/
theorem Warp.record_eq (x : Warp) (t : LateTrap) : x.record t = { x with late := x.late.or (some t) } := by
  unfold record
  split
  next h =>
    obtain ⟨y, hy⟩ := Option.isSome_iff_exists.1 h
    have e : x.late.or (some t) = x.late := by rw [hy]; rfl
    rw [e]
  next h => rw [Option.not_isSome_iff_eq_none.1 h]; rfl

/-- A prefetch changes what its core's L1 holds, or nothing. -/
theorem effPref_eq (a : Args) (s : State) (g : Grp) : ∃ r, effPref a s g = .next r ∧
    (r = s ∨ a.func = 0 ∧ ∃ k ls, r = s.cacheL1 k ls false) := by
  unfold effPref
  dsimp only
  split
  next h => exact ⟨_, rfl, .inr ⟨h, _, _, rfl⟩⟩
  next => exact ⟨_, rfl, .inl rfl⟩

theorem State.cacheL1_rest (s : State) (k : Nat) (ls : List Nat) (b : Bool) :
    s.cacheL1 k ls b = { s with cores := (s.cacheL1 k ls b).cores } := by
  unfold cacheL1
  dsimp only
  split <;> rfl

theorem State.cacheL1_core (s : State) (k : Nat) (ls : List Nat) (b : Bool) (j : Nat) : (s.cacheL1 k ls b).core j =
    { s.core j with l1 := ((s.cacheL1 k ls b).core j).l1, l1Err := ((s.cacheL1 k ls b).core j).l1Err } := by
  unfold cacheL1
  dsimp only
  split
  · rfl
  · rw [modCore_core]
    split
    · subst j; rfl
    · rfl

theorem storeAcknowledged : Claims.storeAcknowledged := by
  refine ⟨fun s id w far fault _ hp hh hf => ?_, fun a s g h => ?_⟩
  · have hany : s.held.any (fun h => h.id == id) = false := by simpa using hh
    change execStoreAcknowledgement id s = _
    unfold execStoreAcknowledgement
    simp only [hp, hany, hf, Bool.or_self, Bool.false_eq_true, if_false, List.append_nil]
    refine congrArg _ (State.modWarp_congr ?_)
    generalize State.warp _ w = x
    cases fault with
    | none => cases h : x.late <;> simp only [← h]
    | some f => exact (Warp.record_eq ..).trans (by cases x.late <;> rfl)
  · obtain ⟨r, he, hr⟩ := effPref_eq a (s.opened .pref a g) g
    have hc : Completes (.pref a) a g s r := h.completes rfl he fun w => by
      obtain rfl | ⟨-, k, ls, rfl⟩ := hr
      · rfl
      · rw [State.cacheL1_rest]
    refine ⟨r, hc, ?_⟩
    obtain rfl | ⟨ha, k, ls, rfl⟩ := hr
    · exact ⟨rfl, fun _ => rfl, fun _ => rfl⟩
    · refine ⟨State.cacheL1_rest .., fun j => ?_, fun h => absurd ha h⟩
      exact State.cacheL1_core ..

end Sys2Proof.Machine

/-! SUPPORT. What a store keeps in flight while it is performed: accesses to memory leave what is in flight, and operations before
a store that take their place leave its own entry. -/

namespace Sys2Proof.Machine

/-! ## Accesses leave what is in flight -/

theorem State.foldl_pend {α : Type} {f : State → α → State} (h : ∀ s x, (f s x).pend = s.pend) (xs : List α) (s : State) :
    (xs.foldl f s).pend = s.pend := by
  induction xs generalizing s with
  | nil => rfl
  | cons x xs ih => exact (ih _).trans (h s x)

theorem State.Checked.pend {s r : State} (h : State.Checked s r) : r.pend = s.pend := by rw [h.rest]

@[simp] theorem State.modWarps_pend (s : State) (ws : List Nat) (f : Warp → Warp) : (s.modWarps ws f).pend = s.pend := by
  rw [modWarps_rest]

@[simp] theorem State.writePieces_pend (s : State) (wr : Writer) (rmw : Bool) (n : Nat) (bs : List (Nat × Byte)) :
    (s.writePieces wr rmw n bs).pend = s.pend :=
  foldl_pend (fun s g => by rw [writePiece_rest]) _ s

theorem State.performWrite_pend (s : State) (wr : Writer) (rmw : Bool) (src n : Nat) (bs : List (Nat × Byte)) :
    (s.performWrite wr rmw src n bs).pend = s.pend :=
  (writePieces_pend ..).trans (checked_checkWrites ..).pend

theorem State.performPiece_pend (s : State) (wr : Writer) (rmw : Bool) (src : Nat) (bs : List (Nat × Byte)) :
    (s.performPiece wr rmw src bs).pend = s.pend := by
  unfold performPiece
  rw [writePiece_rest]
  exact (checked_checkWrites ..).pend

theorem State.flushULine_pend (s : State) (u : ULine) : (s.flushULine u).pend = s.pend := by
  refine foldl_pend (fun s e => ?_) u.vals s
  have hc := (checked_checkReads s 0 (span e.1 (atomSize u.ty))).pend
  dsimp only
  split
  · exact (performWrite_pend ..).trans hc
  · exact hc

theorem State.flushWhere_pend (s : State) (sel : Nat → ULine → Bool) : (s.flushWhere sel).pend = s.pend := by
  unfold flushWhere
  refine (foldl_pend (fun s k => ?_) _ _).trans rfl
  rw [foldl_pend flushULine_pend]
  rfl

theorem State.pend_recall (s : State) (ls : List Nat) : (State.recall s ls).pend = s.pend := by
  unfold State.recall
  split
  · rfl
  · exact flushWhere_pend ..

theorem State.peekHome_pend (s : State) (src : Nat) (ls : List Nat) : (s.peekHome src ls).1.pend = s.pend :=
  (checked_checkReads ..).pend.trans (pend_recall ..)

theorem State.readHome_pend (s : State) (src n : Nat) (fl : SMap Nat) (ls : List Nat) :
    (s.readHome src n fl ls).1.pend = s.pend :=
  Eq.trans (b := (s.recall ls).pend) (checked_checkReads ..).pend (pend_recall ..)

theorem State.checkL1_pend (s : State) (k u : Nat) : (s.checkL1 k u).1.pend = s.pend := by
  unfold checkL1
  dsimp only
  split
  · rfl
  · rfl
  · rfl
  · rfl
  · split <;> rfl

theorem State.checkL1s_pend (s : State) (k : Nat) (ls : List Nat) : (s.checkL1s k ls).1.pend = s.pend := by
  unfold checkL1s
  split
  · rfl
  · generalize unitsOf (ls.filter isDram) = us
    suffices h : ∀ acc : State × List Nat, (us.foldl (fun acc u =>
        let (s1, bad) := acc.1.checkL1 k u
        (s1, if bad then acc.2 ++ [u] else acc.2)) acc).1.pend = acc.1.pend from h (s, [])
    induction us with
    | nil => exact fun _ => rfl
    | cons u us ih => exact fun acc => (ih _).trans (checkL1_pend acc.1 k u)

theorem State.warpRead_pend (s : State) (w src n : Nat) (ls : List Nat) : (s.warpRead w src n ls).1.pend = s.pend := by
  unfold warpRead hasRead
  dsimp only
  rw [modWarps_pend, readHome_pend, checkL1s_pend]
  exact pend_recall ..

theorem State.readCounter_pend (s : State) (ws : List Nat) (p : Word) (l : Nat) : (s.readCounter ws p l).1.pend = s.pend := by
  unfold readCounter hasRead
  dsimp only
  split <;> exact (modWarps_pend ..).trans (peekHome_pend ..)

theorem State.counterAdd_pend (s : State) (wr : Writer) (l inc : Nat) : (s.counterAdd wr l inc).1.pend = s.pend := by
  unfold counterAdd
  dsimp only
  split
  · exact peekHome_pend ..
  · exact (performPiece_pend ..).trans (peekHome_pend ..)

theorem State.countUp_pend (s : State) (wr : Writer) (p : Word) (l inc : Nat) : (s.countUp wr p l inc).pend = s.pend := by
  unfold countUp
  dsimp only
  rw [modWarp_pend, counterAdd_pend]
  rfl

theorem State.cacheL1_pend (s : State) (k : Nat) (ls : List Nat) (b : Bool) : (s.cacheL1 k ls b).pend = s.pend := by
  unfold cacheL1
  dsimp only
  split <;> rfl

theorem State.dropL1_pend (s : State) (k : Nat) (f : Nat → Bool) : (s.dropL1 k f).pend = s.pend := by
  unfold dropL1
  split <;> rfl

/-! ## A store in flight -/

/-- Operation `id` is a store of warp w in flight. -/
def State.Storing (id w : Nat) (s : State) : Prop := ∃ far late rel, mfind s.pend id = some (.store w far late rel)

/-- The same warps are listed, and a store in flight stays so. -/
structure State.KeepsStore (id w : Nat) (s r : State) : Prop where
  listed  : ∀ v, (mfind r.warps v).isSome = (mfind s.warps v).isSome
  storing : s.Storing id w → r.Storing id w

section
variable {id w : Nat} {s r t : State}

theorem State.KeepsStore.refl (s : State) : State.KeepsStore id w s s := ⟨fun _ => rfl, fun h => h⟩

theorem State.KeepsStore.trans (h : State.KeepsStore id w s r) (h' : State.KeepsStore id w r t) : State.KeepsStore id w s t :=
  ⟨fun v => (h'.listed v).trans (h.listed v), fun x => h'.storing (h.storing x)⟩

/-- An access that does not touch what is in flight. -/
theorem State.Traffic.keepsStore (h : State.Traffic (fun _ => True) s r) (hp : mfind r.pend id = mfind s.pend id) :
    State.KeepsStore id w s r :=
  ⟨h.listed, fun ⟨far, late, rel, x⟩ => ⟨far, late, rel, hp.trans x⟩⟩

theorem State.Checked.keepsStore (h : State.Checked s r) : State.KeepsStore id w s r :=
  h.traffic.keepsStore (by rw [h.pend])

theorem State.KeepsStore.foldl {α : Type} (xs : List α) (f : State → α → State)
    (h : ∀ s, ∀ x ∈ xs, State.KeepsStore id w s (f s x)) (s : State) : State.KeepsStore id w s (xs.foldl f s) := by
  induction xs generalizing s with
  | nil => exact .refl s
  | cons x xs ih =>
    exact (h s x (List.mem_cons_self ..)).trans (ih (fun s y hy => h s y (List.mem_cons_of_mem _ hy)) _)

theorem State.keepsStore_modWarp (s : State) (v : Nat) (f : Warp → Warp) : State.KeepsStore id w s (s.modWarp v f) :=
  ⟨fun _ => modWarp_listed .., fun h => h⟩

end

/-! ## Operations that take their place before a store -/

section
variable (s : State) {x id : Nat}

theorem State.bindLoad_pend (h : id ≠ x) : mfind (s.bindLoad x).pend id = mfind s.pend id := by
  unfold bindLoad
  split
  · dsimp only
    split
    · rfl
    · rw [mfind_mins_ne _ _ h, cacheL1_pend, warpRead_pend]
      exact congrArg (mfind · id) (dropL1_pend ..)
  · rfl

theorem State.performCread_pend (h : id ≠ x) : mfind (s.performCread x).pend id = mfind s.pend id := by
  unfold performCread
  split
  · dsimp only
    rw [mfind_mins_ne _ _ h, readCounter_pend]
  · rfl

theorem State.performCsig_pend (h : id ≠ x) : mfind (s.performCsig x).pend id = mfind s.pend id := by
  unfold performCsig
  split
  · dsimp only
    split
    · rw [countUp_pend]
      exact mfind_mdel_ne _ h
    · exact mfind_mdel_ne _ h
  · rfl

theorem State.settlePend_pend (h : id ≠ x) : mfind (s.settlePend x).pend id = mfind s.pend id :=
  (performCsig_pend _ h).trans ((performCread_pend _ h).trans (bindLoad_pend s h))

/-- The operations that an access must follow are issued before it. -/
theorem State.lt_of_mem_chain {w : Nat} {ls : List Nat} (h : x ∈ (s.chain w id ls).1) : x < id := by
  unfold chain at h
  have hm : ∀ e ∈ (s.pend.filter fun e => e.1 < id && !e.2.ownLocs.isEmpty).reverse, e.1 < id := by
    simp only [List.mem_reverse, List.mem_filter, Bool.and_eq_true, decide_eq_true_eq]
    exact fun e he => he.2.1
  generalize (s.pend.filter fun e => e.1 < id && !e.2.ownLocs.isEmpty).reverse = es at h hm
  dsimp only at h
  suffices hs : ∀ acc : List Nat × List (Nat × Nat), (∀ y ∈ acc.1, y < id) → ∀ y ∈ (es.foldl (fun acc e =>
      if e.2.ownLocs.any acc.2.contains then (e.1 :: acc.1, acc.2 ++ e.2.ownLocs) else acc) acc).1, y < id from
    hs _ (by simp) _ h
  clear h
  induction es with
  | nil => exact fun _ h => h
  | cons e es ih =>
    intro acc ha
    refine ih (fun e' he' => hm e' (List.mem_cons_of_mem _ he')) _ ?_
    dsimp only
    split
    · exact List.forall_mem_cons.2 ⟨hm e (List.mem_cons_self ..), ha⟩
    · exact ha

end

section
variable {id w : Nat} (s : State)

theorem State.keepsStore_flushOwn (v : Nat) (ls : List Nat) : State.KeepsStore id w s (s.flushOwn v id ls) := by
  unfold flushOwn
  split
  · exact .refl _
  · exact .foldl _ _ (fun r x hx => (traffic_settlePend r x fun _ _ => trivial).keepsStore
      (settlePend_pend r (Nat.ne_of_gt (s.lt_of_mem_chain hx)))) s

theorem State.keepsStore_noteRel (ls : List Nat) : State.KeepsStore id w s (s.noteRel id ls) := by
  unfold noteRel
  split
  next v far f rel h =>
    refine ⟨fun _ => rfl, fun ⟨far', late, rel', x⟩ => ?_⟩
    obtain ⟨rfl, -⟩ : v = w ∧ _ := by simpa using h.symm.trans x
    exact ⟨_, _, _, mfind_mins_self ..⟩
  next => exact .refl _

/-- A change of a store's entry that leaves it one of its warp. -/
theorem State.keepsStore_mmod {f : Pend → Pend}
    (h : ∀ far late rel, ∃ far' late' rel', f (.store w far late rel) = .store w far' late' rel') :
    State.KeepsStore id w s { s with pend := mmod s.pend id f } := by
  refine ⟨fun _ => rfl, fun ⟨far, late, rel, x⟩ => ?_⟩
  obtain ⟨far', late', rel', e⟩ := h far late rel
  exact ⟨far', late', rel', by rw [mfind_mmod, if_pos rfl, x, Option.map_some, e]⟩

theorem State.keepsStore_relFor (ls : List Nat) : State.KeepsStore id w s (s.relFor id ls) :=
  keepsStore_mmod s fun far late rel => by
    cases rel with
    | none => exact ⟨_, _, _, rfl⟩
    | some v => exact ⟨_, _, _, rfl⟩

theorem State.keepsStore_recall (ls : List Nat) : State.KeepsStore id w s (s.recall ls) :=
  (traffic_recall s ls fun _ _ => trivial).keepsStore (by rw [pend_recall])

theorem State.keepsStore_storeUnits (wr : Writer) (src n : Nat) (us : List (Word × List (Nat × Byte))) :
    State.KeepsStore id w s (s.storeUnits id wr src n us) := by
  unfold storeUnits
  dsimp only
  have hc : State.KeepsStore id w s (s.carry (wr.ws.headD 0) true (us.flatMap fun u => u.2.map (·.1))) := ⟨fun _ => rfl, fun h => h⟩
  have hf := hc.trans (.foldl wr.ws (fun s v => s.flushOwn v id (us.flatMap fun u => u.2.map (·.1)))
    (fun s v _ => keepsStore_flushOwn s v _) _)
  generalize wr.ws.foldl _ _ = s0 at hf ⊢
  refine State.KeepsStore.trans (r := State.noteRel _ id _) ?_ ⟨fun _ => rfl, fun h => h⟩
  refine State.KeepsStore.trans ?_ (keepsStore_noteRel ..)
  refine State.KeepsStore.trans ?_ (.foldl _ _ (fun s u _ =>
    (traffic_writePieces s wr false n u.2 fun _ _ => trivial).keepsStore (by rw [writePieces_pend])) _)
  split
  · exact hf
  · exact (hf.trans (keepsStore_recall ..)).trans (checked_checkWrites ..).keepsStore

end

/-! ## Lanes that write no plain memory -/

theorem State.tableEntry_pend (s : State) (host : Bool) (va lvl tab : Nat) : (s.tableEntry host va lvl tab).1.pend = s.pend := by
  unfold tableEntry
  dsimp only
  split
  · exact (checked_report ..).pend.trans (peekHome_pend ..)
  · split <;> exact peekHome_pend ..

theorem State.walk_pend (host : Bool) (va lvl : Nat) (s : State) (tab : Nat) : (s.walk host va lvl tab).1.pend = s.pend := by
  induction lvl generalizing s tab with
  | zero =>
    have h := tableEntry_pend s host va 0 tab
    unfold walk
    split <;> rename_i e <;> rw [e] at h <;> exact h
  | succ n ih =>
    have h := tableEntry_pend s host va (n + 1) tab
    unfold walk
    split <;> rename_i e <;> rw [e] at h
    · exact h
    · split
      · exact h
      · exact (ih ..).trans h

theorem State.walked_pend (s : State) (c : Nat) (host : Bool) (w : How) (p : Word) (va : Nat)
    (x : Except (Nat × Nat) (Word × Nat)) : (s.walked c host w p va x).1.pend = s.pend := by
  unfold walked
  split <;> rfl

theorem State.translate_pend (s : State) (c : Nat) (host : Bool) (h : How) (p : Word) (va : Nat) :
    (s.translate c host h p va).1.pend = s.pend := by
  have hw := walk_pend host va 3 s (if host then (s.ctx c).crec.hroot else (s.ctx c).crec.droot)
  unfold translate
  dsimp only
  generalize s.walk host va 3 (if host then (s.ctx c).crec.hroot else (s.ctx c).crec.droot) = q at hw ⊢
  generalize List.all (q.1.mem.tlbHits c host va) _ = all
  cases all
  · rw [if_neg Bool.false_ne_true]
    split
    · exact hw
    · exact (walked_pend ..).trans hw
  · exact (walked_pend ..).trans hw

theorem State.devByte_pend (s : State) (c : Nat) (h : How) (p : Word) (va : Nat) : (s.devByte c h p va).1.pend = s.pend := by
  have ht := translate_pend s c false h p va
  unfold devByte
  split <;> rename_i e <;> rw [e] at ht <;> exact ht

section
variable {id w : Nat}

theorem State.keepsStore_devByte (s : State) (c : Nat) (h : How) (p : Word) (va : Nat) :
    State.KeepsStore id w s (s.devByte c h p va).1 :=
  (traffic_devByte s c h p va fun _ _ => trivial).keepsStore (by rw [devByte_pend])

theorem State.keepsStore_remoteByte (s : State) (dev c : Nat) (h : How) (p : Word) (va : Nat) :
    State.KeepsStore id w s (s.remoteByte dev c h p va).1 := by
  unfold remoteByte
  split
  · exact .refl _
  · exact keepsStore_devByte ..

theorem State.keepsStore_loopPlaces (c : Nat) (wr : Bool) (p : Word) (vas : List Nat) (s : State) :
    State.KeepsStore id w s (s.loopPlaces c wr p vas).1 := by
  induction vas generalizing s with
  | nil => exact .refl _
  | cons va vas ih =>
    have h := keepsStore_remoteByte (id := id) (w := w) s s.island.fw.deviceNum c { write := wr } p va
    unfold loopPlaces
    split <;> rename_i s1 _ e <;> rw [e] at h
    · exact h
    · have h2 := h.trans (ih s1)
      split <;> rename_i e2 <;> rw [e2] at h2 <;> exact h2
    · exact h

theorem State.checked_modChan (s : State) (c : Nat) (f : Chan → Chan) : State.Checked s (s.modChan c f) :=
  ⟨rfl, rfl, fun _ => rfl⟩

theorem State.checked_frameStore (s : State) (stack off : Nat) (x : Word) : State.Checked s (s.frameStore stack off x) := by
  unfold frameStore
  dsimp only
  split
  · exact .refl _
  · split
    · unfold setInj
      split
      · exact .refl _
      · exact checked_modChan ..
    · exact checked_modChan ..
    · unfold marchStart
      dsimp only
      split
      · refine State.Checked.trans (State.Checked.foldl _ _ (fun s p => ?_) s) (checked_modChan ..)
        split
        · exact checked_checkRM ..
        · exact checked_checkIL ..
      · exact .refl _
    · exact .refl _

theorem State.keepsStore_sideWrite (s : State) (free v : Nat) (p : Word) (n : Nat) (x : Word) (ps : List Place) :
    State.KeepsStore id w s (s.sideWrite free id v p n x ps).1 := by
  unfold sideWrite
  split
  · exact keepsStore_modWarp ..
  · exact (checked_frameStore ..).keepsStore
  · exact .refl _
  next d va rest =>
    split
    · have h := keepsStore_loopPlaces (id := id) (w := w) (s.warp v).ctx true p
        ((remoteVas (.remote d va :: rest)).getD (0, [])).2 s
      split <;> rename_i e <;> rw [e] at h
      · exact h
      · exact (h.trans (keepsStore_relFor ..)).trans (keepsStore_storeUnits ..)
    · exact .refl _
  · exact .refl _

theorem State.keepsStore_storeLanes (free v n : Nat) (addr data : Nat → Word) (ps : List (Nat × List Place)) (s : State) :
    State.KeepsStore id w s (s.storeLanes free id v n addr data ps).1 := by
  induction ps generalizing s with
  | nil => exact .refl _
  | cons e ps ih => exact (keepsStore_sideWrite s free v (addr e.1) n (data e.1) e.2).trans (ih _)

end

end Sys2Proof.Machine

/-! SUPPORT. The effect of `ST` in steps (spec/07 R172): the store goes into flight, writes memory, fills L1 and performs the
lanes that write no plain memory. -/

namespace Sys2Proof.Machine

/-! ## The steps of a store -/

section
variable (s s1 : State) (a : Args) (g : Grp) (ps : List (Nat × List Place))

/-- The locations of lanes that access under a policy. -/
def State.stLocs (pol : Policy) : List Nat :=
  ps.flatMap fun e => if policyOf (s.accAddr g a e.1) a.cp == pol then memLocs e.2 else []

/-- A store in flight. -/
def State.stEntry : Pend :=
  .store (leaderOf g) ((s.accLanes g a).any fun l => spaceOf (s.accAddr g a l) == 7 || spaceOf (s.accAddr g a l) == 8) none
    (if (s.accLanes g a).any fun l => policyOf (s.accAddr g a l) a.cp == .bypass then
      some ((s.stLocs a g ps .bypass).map (·, 0)) else none)

/-- The store has gone into flight. -/
def State.stSent : State :=
  { s1 with nextId := s1.nextId + 1, free := s1.free + 1, pend := mins s1.pend s1.nextId (s.stEntry a g ps) }

/-- The units of its lanes that lie in plain memory. -/
def State.stUnits : List (Word × List (Nat × Byte)) := memUnits (accSize a) (s.accAddr g a) (s.storeData g a) ps

/-- The store has written what it can to memory. -/
def State.stWrote : State :=
  if (s.stUnits a g ps).isEmpty then s.stSent s1 a g ps
  else (s.stSent s1 a g ps).storeUnits s1.nextId ((s.stSent s1 a g ps).writer [leaderOf g]) 0 (pieceSize (lanesLocs ps))
    (if wholeLine (lanesLocs ps) then lineUnits (s.stUnits a g ps) else s.stUnits a g ps)

/-- L1 holds what it keeps. -/
def State.stKept : State :=
  (s.stWrote s1 a g ps).cacheL1 ((s.stWrote s1 a g ps).coreOf (leaderOf g)) (s.stLocs a g ps .keep) true

/-- The lanes that write no plain memory are performed. -/
def State.stSides : State × Option (Nat × Nat × Word) :=
  (s.stKept s1 a g ps).storeLanes s1.free s1.nextId (leaderOf g) (accSize a) (s.accAddr g a) (s.storeData g a) ps

/-- What a store leaves. -/
def State.stDone : State :=
  let t := ((s.stSides s1 a g ps).1.traceLane (leaderOf g) 7 g a).noteFar (leaderOf g) (accSize a) s1.nextId
    (s.farOf (s.accAddr g a) ps)
  { t with pend := mmod t.pend s1.nextId (Pend.withFault (s.stSides s1 a g ps).2) }.modWarp (leaderOf g) fun x =>
    { x with stCnt := x.stCnt + 1 }

end

section
variable {s s1 : State} {a : Args} {g : Grp} {ps : List (Nat × List Place)}

theorem effSt_error {x : Trap} (hc : (s.warp (leaderOf g)).stCnt < 255)
    (h : s.accPlaces (leaderOf g) a true true (accSize a) (s.accAddr g a) (s.accLanes g a) = (s1, .error x)) :
    effSt a s g = .trap s1 x := by
  simp only [effSt, Nat.not_le.2 hc, if_false, h]

theorem effSt_done (hc : (s.warp (leaderOf g)).stCnt < 255)
    (h : s.accPlaces (leaderOf g) a true true (accSize a) (s.accAddr g a) (s.accLanes g a) = (s1, .ok ps))
    (hb : ∀ e ∈ ps, ∀ p ∈ e.2, s1.placeBusy p = false) (hn : s1.nbBefore (leaderOf g) s1.nextId (lanesLocs ps) = false) :
    effSt a s g = .next (s.stDone s1 a g ps) := by
  have hany : (ps.any fun e => e.2.any s1.placeBusy) = false := by simpa using hb
  have hn' : (s1.nbBefore (leaderOf g) s1.nextId (ps.flatMap fun e => memLocs e.2)) = false := hn
  simp only [effSt, Nat.not_le.2 hc, if_false, h, hany, hn', Bool.or_self, Bool.false_eq_true]
  rfl

end

/-! ## What every store leaves -/

section
variable {s s1 : State} {a : Args} {g : Grp} {ps : List (Nat × List Place)}

theorem State.traceLane_rest (s : State) (w k : Nat) (g : Grp) (a : Args) :
    s.traceLane w k g a = { s with cores := (s.traceLane w k g a).cores } := by
  unfold traceLane
  split
  · rfl
  · exact trace_rest ..

theorem State.traceLane_core (s : State) (w k : Nat) (g : Grp) (a : Args) (j : Nat) : (s.traceLane w k g a).core j =
    { s.core j with
      ring := ((s.traceLane w k g a).core j).ring, head := ((s.traceLane w k g a).core j).head,
      traceAt := ((s.traceLane w k g a).core j).traceAt } := by
  unfold traceLane
  split
  · rfl
  · exact trace_core ..

/-- Translating the bytes of every lane. -/
theorem State.traffic_accPlaces {P : Nat → Prop} (w : Nat) (a : Args) (fr wr : Bool) (n : Nat) (addr : Nat → Word) (ls : List Nat)
    (s : State) (h : ∀ l, s.OnItsWay l → P l) : State.Traffic P s (s.accPlaces w a fr wr n addr ls).1 := by
  induction ls generalizing s with
  | nil => exact .refl s
  | cons l ls ih =>
    have h1 := traffic_places w (accHow a fr wr n l (addr l)) (addr l) n s h
    unfold accPlaces
    split <;> rename_i e <;> rw [e] at h1
    · exact h1
    · have h2 := h1.then h fun h => ih _ h
      split <;> rename_i e2 <;> rw [e2] at h2 <;> exact h2

theorem State.storing_stSent : (s.stSent s1 a g ps).Storing s1.nextId (leaderOf g) := ⟨_, _, _, mfind_mins_self ..⟩

theorem State.traffic_stSent {P : Nat → Prop} : State.Traffic P s1 (s.stSent s1 a g ps) :=
  State.Traffic.trans (r := { s1 with nextId := s1.nextId + 1, free := s1.free + 1 })
    ⟨rfl, fun _ => rfl, fun _ => rfl, fun _ => rfl, fun _ => rfl, fun _ _ => rfl, id, fun _ => id⟩
    (traffic_mins _ s1.nextId (s.stEntry a g ps) fun _ _ _ _ _ => by simp [stEntry])

theorem State.keepsStore_stDone :
    State.KeepsStore s1.nextId (leaderOf g) (s.stSent s1 a g ps) (s.stDone s1 a g ps) := by
  have hw : State.KeepsStore s1.nextId (leaderOf g) (s.stSent s1 a g ps) (s.stWrote s1 a g ps) := by
    unfold stWrote
    split
    · exact .refl _
    · exact keepsStore_storeUnits ..
  have hk : State.KeepsStore s1.nextId (leaderOf g) (s.stSent s1 a g ps) (s.stKept s1 a g ps) :=
    hw.trans ((traffic_cacheL1 ..).keepsStore (by rw [cacheL1_pend]))
  have hs : State.KeepsStore s1.nextId (leaderOf g) (s.stSent s1 a g ps) (s.stSides s1 a g ps).1 :=
    hk.trans (keepsStore_storeLanes ..)
  unfold stDone
  generalize (s.stSides s1 a g ps) = q at hs ⊢
  dsimp only
  have ht : State.KeepsStore s1.nextId (leaderOf g) (s.stSent s1 a g ps) (q.1.traceLane (leaderOf g) 7 g a) :=
    hs.trans (by rw [traceLane_rest]; exact ⟨fun _ => rfl, fun h => h⟩)
  generalize q.1.traceLane (leaderOf g) 7 g a = t at ht ⊢
  have hn : State.KeepsStore s1.nextId (leaderOf g) t
      (t.noteFar (leaderOf g) (accSize a) s1.nextId (s.farOf (s.accAddr g a) ps)) := by
    unfold noteFar
    split
    · exact .refl _
    · exact ⟨fun _ => rfl, fun h => h⟩
  exact (ht.trans hn).trans ((keepsStore_mmod _ fun _ _ _ => ⟨_, _, _, rfl⟩).trans (keepsStore_modWarp ..))

/-! ## What a store to plain memory changes -/

/-- Lanes in plain memory are no others. -/
theorem State.storeLanes_plain (hp : PlainPlaces ps) (t : State) (free id w n : Nat) (addr data : Nat → Word) :
    t.storeLanes free id w n addr data ps = (t, none) := by
  induction ps generalizing t with
  | nil => rfl
  | cons e ps ih =>
    have hs : t.sideWrite free id w (addr e.1) n (data e.1) e.2 = (t, none) := by
      obtain ⟨l, _ | ⟨p, qs⟩⟩ := e
      · rfl
      · obtain ⟨k, rfl⟩ := hp _ (List.mem_cons_self ..) p (List.mem_cons_self ..)
        rfl
    simp only [storeLanes, hs, ih fun e he => hp e (List.mem_cons_of_mem _ he)]
    rfl

theorem State.farOf_plain (hp : PlainPlaces ps) (addr : Nat → Word) : s.farOf addr ps = [] := by
  refine List.filterMap_eq_nil_iff.2 fun e he => ?_
  obtain ⟨l, _ | ⟨p, qs⟩⟩ := e
  · rfl
  · obtain ⟨k, rfl⟩ := hp _ he p (List.mem_cons_self ..)
    rfl

theorem State.stDone_plain (hp : PlainPlaces ps) : s.stDone s1 a g ps =
    { (s.stKept s1 a g ps).traceLane (leaderOf g) 7 g a with
      pend := mmod ((s.stKept s1 a g ps).traceLane (leaderOf g) 7 g a).pend s1.nextId (Pend.withFault none) }.modWarp (leaderOf g)
      fun x => { x with stCnt := x.stCnt + 1 } := by
  simp only [stDone, stSides, storeLanes_plain hp, farOf_plain hp]
  rfl

/-- The bytes that a lane of a store to plain memory writes. -/
def laneBytes (n : Nat) (data : Nat → Word) (e : Nat × List Place) : List (Nat × Byte) :=
  if (memLocs e.2).length = n then (memLocs e.2).zip (bytesOf n (data e.1)) else []

/-- The bytes of a lane that no higher lane's units write. -/
def untaken (us : List (Word × List (Nat × Byte))) (bs : List (Nat × Byte)) : List (Nat × Byte) :=
  bs.filter fun b => !(us.flatMap fun u => u.2.map (·.1)).contains b.1

theorem memUnits_cons (n : Nat) (addr data : Nat → Word) (e : Nat × List Place) (ps : List (Nat × List Place)) :
    memUnits n addr data (e :: ps) =
      if (untaken (memUnits n addr data ps) (laneBytes n data e)).isEmpty then memUnits n addr data ps
      else (addr e.1, untaken (memUnits n addr data ps) (laneBytes n data e)) :: memUnits n addr data ps := rfl

theorem mem_memUnits_cons {n : Nat} {addr data : Nat → Word} {e : Nat × List Place} {u : Word × List (Nat × Byte)}
    (h : u ∈ memUnits n addr data (e :: ps)) :
    u ∈ memUnits n addr data ps ∨ u.2 = untaken (memUnits n addr data ps) (laneBytes n data e) := by
  rw [memUnits_cons] at h
  split at h
  · exact .inl h
  · exact (List.mem_cons.1 h).elim (fun h => .inr (congrArg Prod.snd h)) .inl

theorem mem_laneBytes {n : Nat} {data : Nat → Word} {e : Nat × List Place} {b : Nat × Byte} (h : b ∈ laneBytes n data e) :
    b.1 ∈ memLocs e.2 := by
  unfold laneBytes at h
  split at h
  · exact mem_zip_left h
  · cases h

/-- The bytes of a unit of a store lie where one of its lanes accesses. -/
theorem mem_memUnits {n : Nat} {addr data : Nat → Word} {u : Word × List (Nat × Byte)} (h : u ∈ memUnits n addr data ps) :
    ∃ e ∈ ps, ∀ b ∈ u.2, b.1 ∈ memLocs e.2 := by
  induction ps with
  | nil => cases h
  | cons e ps ih =>
    rcases mem_memUnits_cons h with h | h
    · obtain ⟨e', he, hb⟩ := ih h
      exact ⟨e', List.mem_cons_of_mem _ he, hb⟩
    · exact ⟨e, List.mem_cons_self .., fun b hb => mem_laneBytes (List.mem_filter.1 (h ▸ hb)).1⟩

theorem mem_lineUnits {us : List (Word × List (Nat × Byte))} {u : Word × List (Nat × Byte)} (h : u ∈ lineUnits us)
    {b : Nat × Byte} (hb : b ∈ u.2) : ∃ v ∈ us, b ∈ v.2 := by
  obtain ⟨x, hx, rfl⟩ := List.mem_map.1 h
  exact List.mem_flatMap.1 (mem_groupBy hx hb)

theorem State.mem_stUnits {u : Word × List (Nat × Byte)}
    (h : u ∈ (if wholeLine (lanesLocs ps) then lineUnits (s.stUnits a g ps) else s.stUnits a g ps)) {b : Nat × Byte}
    (hb : b ∈ u.2) : b.1 ∈ lanesLocs ps := by
  obtain ⟨v, hv, hbv⟩ : ∃ v ∈ s.stUnits a g ps, b ∈ v.2 := by
    split at h
    · exact mem_lineUnits h hb
    · exact ⟨u, h, hb⟩
  obtain ⟨e, he, h'⟩ := mem_memUnits hv
  exact List.mem_flatMap.2 ⟨e, he, h' b hbv⟩

theorem State.traffic_stKept {P : Nat → Prop} (h : ∀ l, s1.OnItsWay l → P l) (hl : ∀ l ∈ lanesLocs ps, P l) :
    State.Traffic P s1 (s.stKept s1 a g ps) := by
  refine State.Traffic.trans (State.Traffic.then (traffic_stSent (s := s) (a := a) (g := g) (ps := ps)) h fun h => ?_)
    (traffic_cacheL1 ..)
  unfold stWrote
  split
  · exact .refl _
  · exact traffic_storeUnits _ _ _ _ _ _ h fun u hu b hb => hl _ (mem_stUnits hu hb)

/-- What is traffic but for a record of the trace ring, what is in flight, and what a warp has observed. -/
theorem State.Traffic.accessed {P : Nat → Prop} {s t : State} (h : State.Traffic P s t) (w k v : Nat) (g : Grp) (a : Args)
    (m : SMap Pend) (f : Warp → Warp) (hf : ∀ x, Warp.Saw x (f x)) :
    State.Accessed P (fun _ x => x) s ({ t.traceLane w k g a with pend := m }.modWarp v f) where
  rest := by
    rw [traceLane_rest, h.rest]
    rfl
  warp j := by
    rw [traceLane_rest]
    exact (h.trans (traffic_modWarp t v f hf)).warp j
  core j := by
    have e := traceLane_core t w k g a j
    have hc := h.core j
    change ((t.traceLane w k g a).core j) = _
    generalize hr : State.core (State.modWarp _ v f) j = c
    obtain rfl : (t.traceLane w k g a).core j = c := hr
    generalize (t.traceLane w k g a).core j = c at e ⊢
    generalize t.core j = c1 at e hc
    rw [e, hc]
  die d := by
    rw [traceLane_rest]
    exact h.die d
  byte l hl := by
    rw [traceLane_rest]
    exact h.byte l hl
  wf x := by
    rw [traceLane_rest]
    exact h.wf x

end

end Sys2Proof.Machine

/-! SUPPORT. The bytes that a store leaves in memory (spec/07 R172): writes one after another, in pieces and in units, leave at a
location the last byte written there. -/

namespace Sys2Proof.Machine

open Claims (RowsKnown Reached Writes)

/-! ## Writes one after another -/

/-- The byte at a location after writes one after another. -/
def overlaid (bs : List (Nat × Byte)) (l : Nat) (y : Byte) : Byte := bs.foldl (fun y b => if b.1 = l then b.2 else y) y

/-- The writes to one location. -/
def writesTo (l : Nat) (bs : List (Nat × Byte)) : List (Nat × Byte) := bs.filter fun b => b.1 == l

theorem overlaid_append (bs cs : List (Nat × Byte)) (l : Nat) (y : Byte) :
    overlaid (bs ++ cs) l y = overlaid cs l (overlaid bs l y) := List.foldl_append

theorem overlaid_writesTo (bs : List (Nat × Byte)) (l : Nat) (y : Byte) : overlaid (writesTo l bs) l y = overlaid bs l y := by
  induction bs generalizing y with
  | nil => rfl
  | cons b bs ih =>
    by_cases h : b.1 = l
    · simp only [writesTo, List.filter_cons, beq_iff_eq, h, if_true]
      exact ih _
    · simp only [writesTo, List.filter_cons, beq_iff_eq, h, if_false]
      exact (ih _).trans (congrArg (overlaid bs l) (if_neg h).symm)

/-- Only the writes to a location matter to it. -/
theorem overlaid_congr {bs cs : List (Nat × Byte)} {l : Nat} (h : writesTo l bs = writesTo l cs) (y : Byte) :
    overlaid bs l y = overlaid cs l y := by
  rw [← overlaid_writesTo bs, h, overlaid_writesTo]

theorem writesTo_append (l : Nat) (bs cs : List (Nat × Byte)) : writesTo l (bs ++ cs) = writesTo l bs ++ writesTo l cs :=
  List.filter_append ..

theorem writesTo_eq_nil {l : Nat} {bs : List (Nat × Byte)} : writesTo l bs = [] ↔ ∀ b ∈ bs, b.1 ≠ l := by
  simp only [writesTo, List.filter_eq_nil_iff, beq_iff_eq, ne_eq]

/-- Writes to a location that a filter keeps. -/
theorem writesTo_filter {l : Nat} {bs : List (Nat × Byte)} {p : Nat × Byte → Bool} (h : ∀ b ∈ bs, b.1 = l → p b = true) :
    writesTo l (bs.filter p) = writesTo l bs := by
  rw [writesTo, writesTo, List.filter_filter]
  refine List.filter_congr fun b hb => ?_
  by_cases hl : b.1 = l
  · rw [h b hb hl, Bool.and_true]
  · rw [beq_eq_false_iff_ne.2 hl, Bool.false_and]

/-- Of lists under distinct keys, one alone holds writes to a location. -/
theorem writesTo_flatMap_key (l : Nat) (f : Nat → List (Nat × Byte)) {k : Nat} (hf : ∀ j, j ≠ k → writesTo l (f j) = [])
    {ks : List Nat} (hn : ks.Nodup) (hk : k ∈ ks) : writesTo l (ks.flatMap f) = writesTo l (f k) := by
  have none (js : List Nat) (h : k ∉ js) : writesTo l (js.flatMap f) = [] := by
    rw [writesTo_eq_nil]
    intro b hb
    obtain ⟨j, hj, hb⟩ := List.mem_flatMap.1 hb
    exact writesTo_eq_nil.1 (hf j fun e => h (e ▸ hj)) b hb
  induction ks with
  | nil => cases hk
  | cons j ks ih =>
    rw [List.nodup_cons] at hn
    rw [List.flatMap_cons, writesTo_append]
    rcases List.mem_cons.1 hk with rfl | hk
    · rw [none ks hn.1, List.append_nil]
    · rw [hf j fun e => hn.1 (e ▸ hk), List.nil_append, ih hn.2 hk]

/-- Grouping by pieces keeps the writes to each location in order. -/
theorem writesTo_groupBy (l n : Nat) (bs : List (Nat × Byte)) :
    writesTo l ((groupBy (fun b : Nat × Byte => b.1 / n) bs).flatMap (·.2)) = writesTo l bs := by
  have hf : (groupBy (fun b : Nat × Byte => b.1 / n) bs).flatMap (·.2) =
      (bs.map fun b => b.1 / n).dedup.flatMap fun k => bs.filter fun b => b.1 / n == k := List.flatMap_map ..
  rw [hf]
  by_cases hm : l / n ∈ (bs.map fun b => b.1 / n).dedup
  · rw [writesTo_flatMap_key l _ (k := l / n) (fun j hj => ?_) (List.nodup_dedup _) hm]
    · exact writesTo_filter fun b _ hb => by rw [hb]; exact beq_self_eq_true _
    · refine writesTo_eq_nil.2 fun b hb e => hj ?_
      rw [← e]
      exact (beq_iff_eq.1 (List.mem_filter.1 hb).2).symm
  · have hb : ∀ b ∈ bs, b.1 ≠ l := fun b hb e =>
      hm (List.mem_dedup.2 (e ▸ List.mem_map_of_mem (f := fun b : Nat × Byte => b.1 / n) hb))
    rw [writesTo_eq_nil.2 hb, writesTo_eq_nil]
    intro b hbf
    obtain ⟨k, -, h⟩ := List.mem_flatMap.1 hbf
    exact hb b (List.mem_filter.1 h).1

theorem Mem.puts_overlaid (pos : Nat) (bs : List (Nat × Byte)) (l : Nat) (m : Mem) :
    (bs.foldl (fun m b => m.put pos b.1 b.2) m).byte l = overlaid bs l (m.byte l) := by
  induction bs generalizing m with
  | nil => rfl
  | cons b bs ih =>
    rw [List.foldl_cons, ih, put_byte, overlaid, overlaid, List.foldl_cons]
    exact congrArg (overlaid bs l) (if_congr eq_comm rfl rfl)

section
variable {s : State} {l : Nat} (wr : Writer) (rmw : Bool)

/-- The byte at a location whose bank keeps it, after a piece is written. -/
theorem State.writePiece_overlaid (hd : s.discards l = false) (bs : List (Nat × Byte)) :
    (s.writePiece wr rmw bs).mem.byte l = overlaid bs l (s.mem.byte l) := by
  rw [writePiece_rest]
  refine (Mem.puts_overlaid ..).trans (overlaid_congr (writesTo_filter fun b _ hb => ?_) _)
  rw [hb, hd]
  rfl

/-- The byte at a location after a write in pieces. -/
theorem State.writePieces_overlaid (hd : s.discards l = false) (n : Nat) (bs : List (Nat × Byte)) :
    (s.writePieces wr rmw n bs).mem.byte l = overlaid bs l (s.mem.byte l) := by
  rw [← overlaid_congr (writesTo_groupBy l n bs)]
  unfold writePieces
  generalize groupBy (fun b : Nat × Byte => b.1 / n) bs = gs
  induction gs generalizing s with
  | nil => rfl
  | cons x gs ih =>
    rw [List.foldl_cons, ih (by rw [writePiece_discards, hd]), writePiece_overlaid wr rmw hd, List.flatMap_cons, overlaid_append]

theorem State.writePieces_discards (s : State) (n : Nat) (bs : List (Nat × Byte)) :
    (s.writePieces wr rmw n bs).discards l = s.discards l := by
  unfold writePieces
  induction groupBy (fun b : Nat × Byte => b.1 / n) bs generalizing s with
  | nil => rfl
  | cons x gs ih => rw [List.foldl_cons, ih, writePiece_discards]

/-- The byte at a location after units are written one after another. -/
theorem State.writeUnits_overlaid (hd : s.discards l = false) (n : Nat) (us : List (Word × List (Nat × Byte))) :
    (us.foldl (fun s u => s.writePieces wr rmw n u.2) s).mem.byte l = overlaid (us.flatMap (·.2)) l (s.mem.byte l) := by
  induction us generalizing s with
  | nil => rfl
  | cons u us ih =>
    rw [List.foldl_cons, ih (by rw [writePieces_discards, hd]), writePieces_overlaid wr rmw hd, List.flatMap_cons, overlaid_append]

end

/-! ## What is on its way to its home fences no bank -/

theorem State.rowsKept_carry (s : State) (w : Nat) (b : Bool) (ls : List Nat) : State.RowsKept s (s.carry w b ls) :=
  .of_eq rfl rfl rfl

theorem Mem.puts_tables (pos : Nat) (bs : List (Nat × Byte)) (m : Mem) :
    (bs.foldl (fun m b => m.put pos b.1 b.2) m).tables = m.tables := by
  induction bs generalizing m with
  | nil => rfl
  | cons b bs ih => exact ih _

theorem State.RowsKept.foldl {α : Type} (xs : List α) (f : State → α → State) (h : ∀ s x, State.RowsKept s (f s x)) (s : State) :
    State.RowsKept s (xs.foldl f s) := by
  induction xs generalizing s with
  | nil => exact .refl s
  | cons x xs ih => exact (h s x).trans (ih _)

theorem State.rowsKept_writePieces (s : State) (wr : Writer) (rmw : Bool) (n : Nat) (bs : List (Nat × Byte)) :
    State.RowsKept s (s.writePieces wr rmw n bs) :=
  .foldl _ _ (fun s g => by rw [writePiece_rest]; exact .of_eq (Mem.puts_tables ..) rfl rfl) s

theorem State.rowsKept_flushULine (s : State) (u : ULine) : State.RowsKept s (s.flushULine u) := by
  refine .foldl _ _ (fun s e => ?_) s
  refine (rowsKept_checkReads s 0 (span e.1 (atomSize u.ty))).trans ?_
  dsimp only
  split
  · exact ((rowsKept_carry ..).trans (rowsKept_checkWrites ..)).trans (rowsKept_writePieces ..)
  · exact .refl _

theorem State.rowsKept_recall (s : State) (ls : List Nat) : State.RowsKept s (State.recall s ls) := by
  unfold State.recall
  split
  · exact .refl _
  · unfold flushWhere
    refine State.RowsKept.trans (r := { s with free := s.free + s.uCores.length }) (.of_eq rfl rfl rfl)
      (.foldl _ _ (fun s k => ?_) _)
    dsimp only
    refine State.RowsKept.trans ?_ (.foldl _ _ rowsKept_flushULine _)
    exact .of_eq rfl rfl rfl

/-! ## The units of a store that are performed at once -/

section
variable {s : State} {id w l : Nat} {wr : Writer}

/-- Where nothing that a warp issued before is still to read or write, an access of it waits for nothing. -/
theorem State.flushOwn_idle (h : ∀ e ∈ s.pend, e.1 < id → ∀ x ∈ e.2.ownLocs, x.1 ≠ w) (ls : List Nat) : s.flushOwn w id ls = s := by
  have hc : s.chain w id ls = ([], ls.map (w, ·)) := by
    unfold chain
    have hm : ∀ e ∈ (s.pend.filter fun e => e.1 < id && !e.2.ownLocs.isEmpty).reverse,
        e.2.ownLocs.any (ls.map (w, ·)).contains = false := by
      intro e he
      obtain ⟨he, hi⟩ := List.mem_filter.1 (List.mem_reverse.1 he)
      rw [List.any_eq_false]
      intro x hx hc
      obtain ⟨k, -, rfl⟩ := List.mem_map.1 (List.contains_iff_mem.1 hc)
      exact h e he (of_decide_eq_true (Bool.and_eq_true_iff.1 hi).1) _ hx rfl
    dsimp only
    generalize (s.pend.filter fun e => e.1 < id && !e.2.ownLocs.isEmpty).reverse = es at hm ⊢
    induction es with
    | nil => rfl
    | cons e es ih =>
      rw [List.foldl_cons, hm e (List.mem_cons_self ..)]
      exact ih fun e he => hm e (List.mem_cons_of_mem _ he)
  unfold flushOwn
  split
  · rfl
  · rw [hc]
    rfl

/-- A unit that no pass, no offline die and no earlier held write of its warp holds. -/
theorem State.unitHeld_none (hws : wr.ws = [w]) {ls : List Nat} (hk : ∀ k ∈ ls, s.kerf w id (memRow k) = [])
    (ho : ∀ k ∈ ls, s.offline (homeDie k) = false) (hh : ∀ h ∈ s.held, w ∉ h.wr.ws) : s.unitHeld id wr ls = none := by
  have h1 : s.kerfPairs (wr.ws.headD 0) id ls = [] := by
    unfold kerfPairs
    split
    · rfl
    · rw [List.flatMap_eq_nil_iff]
      intro r hr
      obtain ⟨k, hk', rfl⟩ := List.mem_map.1 (List.mem_dedup.1 hr)
      rw [hws]
      exact (congrArg _ (hk k hk')).trans rfl
  have h2 : (ls.any fun k => s.offline (homeDie k)) = false := by simpa using ho
  have h3 : (s.held.any fun h => h.wr.ws.any wr.ws.contains && h.bytes.any fun x => ls.contains x.1) = false := by
    rw [List.any_eq_false]
    intro h hm hc
    obtain ⟨v, hv, hvw⟩ := List.any_eq_true.1 (Bool.and_eq_true_iff.1 hc).1
    rw [hws] at hvw
    obtain rfl : v = w := by simpa using hvw
    exact hh h hm hv
  simp only [unitHeld, h1, h2, h3]
  rfl

theorem State.noteRel_mem (s : State) (id : Nat) (ls : List Nat) : (s.noteRel id ls).mem = s.mem := by
  unfold noteRel
  split <;> rfl

/-- Units that do not hold a location may be left out. -/
theorem writesTo_units {p : Word × List (Nat × Byte) → Bool} {us : List (Word × List (Nat × Byte))}
    (h : ∀ u ∈ us, l ∈ u.2.map (·.1) → p u = true) :
    writesTo l ((us.filter p).flatMap (·.2)) = writesTo l (us.flatMap (·.2)) := by
  induction us with
  | nil => rfl
  | cons u us ih =>
    have ih := ih fun u hu => h u (List.mem_cons_of_mem _ hu)
    rw [List.flatMap_cons, writesTo_append, ← ih]
    cases hp : p u with
    | true => rw [List.filter_cons_of_pos hp, List.flatMap_cons, writesTo_append]
    | false =>
      have h0 : writesTo l u.2 = [] := writesTo_eq_nil.2 fun b hb e =>
        Bool.false_ne_true (hp.symm.trans (h u (List.mem_cons_self ..) (e ▸ List.mem_map_of_mem hb)))
      rw [List.filter_cons_of_neg (by rw [hp]; exact Bool.false_ne_true), h0, List.nil_append]

/-- Homes recall their update-only lines and check their units before a write: no other byte changes. -/
theorem State.recallChecked_byte (hw : ¬s.OnItsWay l) (src : Nat) (ls : List Nat) :
    ((State.recall s ls).checkWrites src ls).mem.byte l = s.mem.byte l :=
  ((traffic_recall (P := (· ≠ l)) s ls fun _ hk e => hw (e ▸ hk)).trans (checked_checkWrites ..).traffic).byte l fun h => h rfl

/-- The byte that a store leaves at a location whose units are performed at once. -/
theorem State.storeUnits_byte (hws : wr.ws = [w]) (hi : ∀ e ∈ s.pend, e.1 < id → ∀ x ∈ e.2.ownLocs, x.1 ≠ w)
    (hw : ¬s.OnItsWay l) (hr : RowsKnown s) (hd : s.discards l = false) (src n : Nat) {us : List (Word × List (Nat × Byte))}
    (hf : ∀ u ∈ us, l ∈ u.2.map (·.1) → s.unitHeld id wr (u.2.map (·.1)) = none) :
    (s.storeUnits id wr src n us).mem.byte l = overlaid (us.flatMap (·.2)) l (s.mem.byte l) := by
  unfold storeUnits
  dsimp only
  rw [hws, List.foldl_cons, List.foldl_nil]
  generalize hc : s.carry _ true _ = c
  have hcs : c.mem.byte l = s.mem.byte l ∧ (∀ ls, c.unitHeld id wr ls = s.unitHeld id wr ls) ∧ ¬c.OnItsWay l ∧ RowsKnown c ∧
      c.discards l = false ∧ c.pend = s.pend := by
    subst hc
    exact ⟨rfl, fun _ => rfl, hw, hr, hd, rfl⟩
  obtain ⟨hb, hu, hw, hr, hd, hp⟩ := hcs
  rw [flushOwn_idle (by rw [hp]; exact hi), noteRel_mem]
  generalize hfree : us.filter _ = free
  have hfree : writesTo l (free.flatMap (·.2)) = writesTo l (us.flatMap (·.2)) := by
    subst hfree
    exact writesTo_units fun u hm hl => by rw [hu, hf u hm hl]; rfl
  rw [writeUnits_overlaid]
  · rw [overlaid_congr hfree]
    refine congrArg _ ?_
    split
    · exact hb
    · exact (recallChecked_byte hw ..).trans hb
  · split
    · exact hd
    · exact (((rowsKept_recall ..).trans (rowsKept_checkWrites ..)).discards hr l).trans hd

end

/-! ## The bytes of lanes -/

section
variable {n l : Nat} {addr data : Nat → Word} {ps : List (Nat × List Place)}

theorem writesTo_laneBytes_ne_nil {e : Nat × List Place} (hn : (memLocs e.2).length = n) (hl : l ∈ memLocs e.2) :
    writesTo l (laneBytes n data e) ≠ [] := by
  have hm : (laneBytes n data e).map (·.1) = memLocs e.2 := by
    rw [laneBytes, if_pos hn]
    exact List.map_fst_zip (by rw [length_bytesOf, hn])
  rw [← hm] at hl
  obtain ⟨b, hb, rfl⟩ := List.mem_map.1 hl
  exact fun h => writesTo_eq_nil.1 h b hb rfl

/-- A location is taken where a unit writes it. -/
theorem taken_iff {us : List (Word × List (Nat × Byte))} :
    (us.flatMap fun u => u.2.map (·.1)).contains l = true ↔ writesTo l (us.flatMap (·.2)) ≠ [] := by
  rw [← List.map_flatMap, List.contains_iff_mem, List.mem_map, ne_eq, writesTo_eq_nil]
  push Not
  rfl

theorem memUnits_bytes (e : Nat × List Place) : (memUnits n addr data (e :: ps)).flatMap (·.2) =
    untaken (memUnits n addr data ps) (laneBytes n data e) ++ (memUnits n addr data ps).flatMap (·.2) := by
  rw [memUnits_cons]
  split
  next h => rw [List.isEmpty_iff.1 h, List.nil_append]
  next => rfl

/-- Of the lanes that write a location the highest one's bytes stay (R172). -/
theorem writesTo_memUnits_cons (e : Nat × List Place) : writesTo l ((memUnits n addr data (e :: ps)).flatMap (·.2)) =
    if writesTo l ((memUnits n addr data ps).flatMap (·.2)) = [] then writesTo l (laneBytes n data e)
    else writesTo l ((memUnits n addr data ps).flatMap (·.2)) := by
  rw [memUnits_bytes, writesTo_append]
  split
  next h =>
    rw [h, List.append_nil]
    refine writesTo_filter fun b _ hb => ?_
    rw [hb, Bool.not_eq_true', ← Bool.not_eq_true, taken_iff]
    exact fun h' => h' h
  next h =>
    have h0 : writesTo l (untaken (memUnits n addr data ps) (laneBytes n data e)) = [] := writesTo_eq_nil.2 fun b hb hbl => by
      have hu := (List.mem_filter.1 hb).2
      rw [hbl, taken_iff.2 h] at hu
      exact Bool.false_ne_true hu
    rw [h0, List.nil_append]

theorem writesTo_memUnits_none (h : ∀ e ∈ ps, l ∉ memLocs e.2) : writesTo l ((memUnits n addr data ps).flatMap (·.2)) = [] := by
  rw [writesTo_eq_nil]
  intro b hb hbl
  obtain ⟨u, hu, hb⟩ := List.mem_flatMap.1 hb
  obtain ⟨e, he, hm⟩ := mem_memUnits hu
  exact h e he (hbl ▸ hm b hb)

/-- Lane e is the highest of rising lanes that writes a location, and it writes whole. -/
structure TopLane (ps : List (Nat × List Place)) (n l : Nat) (e : Nat × List Place) : Prop where
  rising : ps.Pairwise fun x y => x.1 < y.1
  mem    : e ∈ ps
  whole  : (memLocs e.2).length = n
  writes : l ∈ memLocs e.2
  top    : ∀ x ∈ ps, l ∈ memLocs x.2 → x.1 ≤ e.1

/-- It is the first of them, and no other writes the location, or it is among the others. -/
theorem TopLane.cons {d e : Nat × List Place} (h : TopLane (d :: ps) n l e) :
    (e = d ∧ ∀ x ∈ ps, l ∉ memLocs x.2) ∨ TopLane ps n l e := by
  obtain ⟨hr, hm, hn, hl, ht⟩ := h
  obtain ⟨hd, hr⟩ := List.pairwise_cons.1 hr
  rcases List.mem_cons.1 hm with rfl | hm
  · exact .inl ⟨rfl, fun x hx hxl => Nat.lt_irrefl _ (Nat.lt_of_lt_of_le (hd x hx) (ht x (List.mem_cons_of_mem _ hx) hxl))⟩
  · exact .inr ⟨hr, hm, hn, hl, fun x hx => ht x (List.mem_cons_of_mem _ hx)⟩

theorem TopLane.writesTo {e : Nat × List Place} (h : TopLane ps n l e) :
    writesTo l ((memUnits n addr data ps).flatMap (·.2)) = writesTo l (laneBytes n data e) := by
  induction ps with
  | nil => cases h.mem
  | cons d ps ih =>
    rw [writesTo_memUnits_cons]
    rcases h.cons with ⟨rfl, hno⟩ | ht
    · rw [if_pos (writesTo_memUnits_none hno)]
    · rw [ih ht, if_neg (writesTo_laneBytes_ne_nil ht.whole ht.writes)]

/-- The unit that holds the location is that lane's. -/
theorem TopLane.unit {e : Nat × List Place} (h : TopLane ps n l e) {u : Word × List (Nat × Byte)}
    (hu : u ∈ memUnits n addr data ps) (hl : l ∈ u.2.map (·.1)) : ∀ b ∈ u.2, b.1 ∈ memLocs e.2 := by
  induction ps with
  | nil => cases hu
  | cons d ps ih =>
    rcases h.cons with ⟨rfl, hno⟩ | ht
    · rcases mem_memUnits_cons hu with hu | hu
      · obtain ⟨b, hb, rfl⟩ := List.mem_map.1 hl
        exact absurd rfl (writesTo_eq_nil.1 (writesTo_memUnits_none hno) b (List.mem_flatMap.2 ⟨u, hu, hb⟩))
      · exact fun b hb => mem_laneBytes (List.mem_filter.1 (hu ▸ hb)).1
    · rcases mem_memUnits_cons hu with hu | hu
      · exact ih ht hu
      · obtain ⟨b, hb, rfl⟩ := List.mem_map.1 hl
        have hnt := (List.mem_filter.1 (hu ▸ hb)).2
        rw [taken_iff.2 (by rw [ht.writesTo]; exact writesTo_laneBytes_ne_nil ht.whole ht.writes)] at hnt
        cases hnt

theorem lineUnits_bytes (us : List (Word × List (Nat × Byte))) : (lineUnits us).flatMap (·.2) =
    (groupBy (fun b : Nat × Byte => b.1 / 128) (us.flatMap (·.2))).flatMap (·.2) := List.flatMap_map ..

/-- A whole line is a unit. -/
theorem lineUnits_line {us : List (Word × List (Nat × Byte))} {u : Word × List (Nat × Byte)} (hu : u ∈ lineUnits us)
    (hl : l ∈ u.2.map (·.1)) : ∀ b ∈ u.2, b.1 / 128 = l / 128 := by
  obtain ⟨g, hg, rfl⟩ := List.mem_map.1 hu
  obtain ⟨k, -, rfl⟩ := List.mem_map.1 hg
  obtain ⟨c, hc, rfl⟩ := List.mem_map.1 hl
  have key (b : Nat × Byte) (hb : b ∈ (us.flatMap (·.2)).filter fun b => b.1 / 128 == k) : b.1 / 128 = k :=
    beq_iff_eq.1 (List.mem_filter.1 hb).2
  exact fun b hb => (key b hb).trans (key c hc).symm

/-- The last of some writes to a location decides. -/
theorem overlaid_last {zs : List (Nat × Byte)} {i : Nat} {v : Byte} (h : zs[i]? = some (l, v))
    (hi : ∀ j b, zs[j]? = some (l, b) → j ≤ i) (y : Byte) : overlaid zs l y = v := by
  induction zs generalizing i y with
  | nil => simp at h
  | cons z zs ih =>
    cases i with
    | zero =>
      obtain rfl : z = (l, v) := by simpa using h
      have hno : writesTo l zs = [] := writesTo_eq_nil.2 fun b hb e => by
        obtain ⟨j, hj⟩ := List.mem_iff_getElem?.1 hb
        exact absurd (hi (j + 1) b.2 (by rw [List.getElem?_cons_succ, hj, ← e])) (by omega)
      exact (overlaid_congr (cs := []) hno _).trans (if_pos rfl)
    | succ i =>
      rw [List.getElem?_cons_succ] at h
      exact ih h (fun j b hj => Nat.le_of_succ_le_succ (hi (j + 1) b (by rw [List.getElem?_cons_succ, hj]))) _

theorem overlaid_laneBytes {e : Nat × List Place} {i : Nat} (hn : (memLocs e.2).length = n) (hl : (memLocs e.2)[i]? = some l)
    (hi : ∀ j, (memLocs e.2)[j]? = some l → j ≤ i) (y : Byte) :
    overlaid (laneBytes n data e) l y = (data e.1).extractLsb' (8 * i) 8 := by
  rw [laneBytes, if_pos hn]
  refine overlaid_last (i := i) (List.getElem?_zip_eq_some.2 ⟨hl, ?_⟩) (fun j b hj => hi j (List.getElem?_zip_eq_some.1 hj).1) y
  have hin : i < n := by
    obtain ⟨h, -⟩ := List.getElem?_eq_some_iff.1 hl
    omega
  simp [bytesOf, hin]

end

/-! ## The byte that a store leaves (spec/07 R172) -/

section
variable {s s1 : State} {a : Args} {g : Grp} {ps : List (Nat × List Place)} {n l : Nat} {e : Nat × List Place}

theorem State.accPlaces_lanes {w : Nat} {fr wr : Bool} {addr : Nat → Word} {ls : List Nat} :
    ∀ {s s1 : State} {ps : List (Nat × List Place)}, s.accPlaces w a fr wr n addr ls = (s1, .ok ps) → ps.map (·.1) = ls := by
  induction ls with
  | nil =>
    intro s s1 ps h
    cases h
    rfl
  | cons l ls ih =>
    intro s s1 ps h
    unfold accPlaces at h
    split at h
    · cases h
    · split at h
      · cases h
      next h2 =>
        cases h
        exact congrArg (l :: ·) (ih h2)

theorem State.accLanes_rising (s : State) (g : Grp) (a : Args) : (s.accLanes g a).Pairwise (· < ·) := by
  unfold accLanes
  split
  · exact List.pairwise_singleton ..
  · exact List.Pairwise.filter _ List.pairwise_lt_range

/-- What its highest writing lane is to a location. -/
theorem topLane {w : Nat} {fr wr : Bool} {addr : Nat → Word}
    (hp : s.accPlaces w a fr wr n addr (s.accLanes g a) = (s1, .ok ps)) (he : e ∈ ps) (hn : (memLocs e.2).length = n)
    {i : Nat} (hl : (memLocs e.2)[i]? = some l) (ht : ∀ x ∈ ps, l ∈ memLocs x.2 → x.1 ≤ e.1) : TopLane ps n l e where
  rising := by
    have h := s.accLanes_rising g a
    rw [← State.accPlaces_lanes hp, List.pairwise_map] at h
    exact h
  mem := he
  whole := hn
  writes := List.mem_iff_getElem?.2 ⟨i, hl⟩
  top := ht

/-- Every unit that holds a location is performed at once, where the locations of its lane and of its line are reached. -/
theorem State.unitHeld_reached (ht : TopLane ps (accSize a) l e)
    (hr : ∀ x ∈ ps, ∀ k ∈ memLocs x.2, x.1 = e.1 ∨ k / 128 = l / 128 → Reached s1 (leaderOf g) k) {u : Word × List (Nat × Byte)}
    (hu : u ∈ (if wholeLine (lanesLocs ps) then lineUnits (s.stUnits a g ps) else s.stUnits a g ps)) (hl : l ∈ u.2.map (·.1)) :
    (s.stSent s1 a g ps).unitHeld s1.nextId ((s.stSent s1 a g ps).writer [leaderOf g]) (u.2.map (·.1)) = none := by
  have hk : ∀ k ∈ u.2.map (·.1), Reached s1 (leaderOf g) k := by
    intro k hk
    obtain ⟨b, hb, rfl⟩ := List.mem_map.1 hk
    obtain ⟨x, hx, hxk⟩ := List.mem_flatMap.1 (mem_stUnits hu hb)
    split at hu
    · exact hr x hx _ hxk (.inr (lineUnits_line hu hl b hb))
    · exact hr e ht.mem _ (ht.unit hu hl b hb) (.inl rfl)
  exact unitHeld_none rfl (fun k h => (hk k h).kerf) (fun k h => (hk k h).die) (hk l hl).held

/-- The byte at a location after the store has written: its highest lane's. -/
theorem State.stWrote_byte (ht : TopLane ps (accSize a) l e)
    (hr : ∀ x ∈ ps, ∀ k ∈ memLocs x.2, x.1 = e.1 ∨ k / 128 = l / 128 → Reached s1 (leaderOf g) k) :
    (s.stWrote s1 a g ps).mem.byte l = overlaid (laneBytes (accSize a) (s.storeData g a) e) l (s1.mem.byte l) := by
  have hl := hr e ht.mem l ht.writes (.inl rfl)
  have hb := ht.writesTo (addr := s.accAddr g a) (data := s.storeData g a)
  unfold stWrote
  split
  next hem =>
    rw [stUnits, List.isEmpty_iff] at hem
    rw [hem] at hb
    exact absurd hb.symm (writesTo_laneBytes_ne_nil ht.whole ht.writes)
  next =>
    have hi : ∀ x ∈ (s.stSent s1 a g ps).pend, x.1 < s1.nextId → ∀ y ∈ x.2.ownLocs, y.1 ≠ leaderOf g := by
      intro x hx hid y hy
      rcases mem_mins hx with rfl | hx
      · exact absurd hid (Nat.lt_irrefl _)
      · exact hl.idle x hx y hy
    have hway : ¬(s.stSent s1 a g ps).OnItsWay l := fun h => hl.way ((traffic_stSent (P := fun _ => True)).way l h)
    refine (storeUnits_byte rfl hi hway hl.rows hl.bank 0 _ fun u hu hlu => unitHeld_reached ht hr hu hlu).trans
      (overlaid_congr (Eq.trans ?_ hb) _)
    split
    · rw [lineUnits_bytes, writesTo_groupBy]
      rfl
    · rfl

theorem State.stDone_byte (hp : PlainPlaces ps) (l : Nat) :
    (s.stDone s1 a g ps).mem.byte l = (s.stWrote s1 a g ps).mem.byte l := by
  rw [stDone_plain hp, traceLane_rest, stKept, cacheL1_rest]
  rfl

end

theorem lanes_stored : Claims.stores := by
  intro a s s1 g h
  dsimp only
  intro hc
  refine ⟨fun x hx => ?_, fun ps hps hb hn => ?_⟩
  · exact congrArg Host.Outcome.next (h.traps (effSt a) (effSt_error hc hx))
  · generalize hs0 : s.opened .st a g = s0 at hc hps ⊢
    have he : effSt a s0 g = .next (s0.stDone s1 a g ps) := effSt_done hc hps hb hn
    have hk := State.keepsStore_stDone (s := s0) (s1 := s1) (a := a) (g := g) (ps := ps)
    have htr : State.Traffic s0.OnItsWay s0 s1 := by
      have h := State.traffic_accPlaces (leaderOf g) a true true (accSize a) (s0.accAddr g a) (s0.accLanes g a) s0 fun _ => id
      rwa [hps] at h
    obtain ⟨far, late, rel, hst⟩ := hk.storing State.storing_stSent
    subst hs0
    refine ⟨_, far, late, rel, h.completes rfl he fun v => (hk.listed v).trans (htr.listed v), hst,
      fun hp => ⟨?_, fun l lane i hw hr => ?_⟩⟩
    · rw [State.stDone_plain hp]
      refine State.Traffic.accessed ?_ _ _ _ _ _ _ _ fun _ => ⟨rfl⟩
      exact (htr.mono fun _ => .inl).trans (State.traffic_stKept (fun l hl => .inl (htr.way l hl)) fun _ => .inr)
    · obtain ⟨⟨e, hm, rfl, hlen, hli⟩, hlast, htop⟩ := hw
      rw [State.stDone_byte hp, State.stWrote_byte (topLane hps hm hlen hli htop) hr,
        overlaid_laneBytes hlen hli (hlast e hm rfl)]
      rfl

/-- Settles O28: a store by the steps of its effect, its acknowledgement and a prefetch by theirs, and the register window byte by
byte. -/
theorem stores : Obligations.Stores := ⟨lanes_stored, storeAcknowledged, registerWindowStore⟩

end Sys2Proof.Machine

/-! SUPPORT. The refutation of O39. Its clause on `MMA` speaks of every state, and says that an element outside the product's
tiles keeps its value. Writing tile elements leaves out the entries that are 0, as the canonical form of a map has none; in a map
that lists one key twice, which the model's operations never make, that uncovers the second entry of the key. The other
hypotheses of the clause hold in the state below. -/
namespace Sys2Proof.Machine.RepeatedTile

/-- A stored FP16 matrix of one row of 64 elements: transposed by XP, the rows of a product with a K of 1. -/
def row64 : BitVec 128 := BitVec.ofNat 128 (63 * 2 ^ 10 + 8 * 2 ^ 64)

/-- A running `MMA` of tile 0 in band 0, with QLO = QHI = 1: it selects columns 64 to 127. -/
def secondQuarter : ArrOp :=
  { cmd := .mma 0 row64 .f16 false true, members := [0], blk := 0, ctx := 0, ashape := 0x51, phase := .running 0 }

/-- A core that runs the product with one column latched, so that no column is selected. Its tiles list the first element of
tile 7 twice, as 0 and then as 1. -/
def listsTwice : Core :=
  { arr := [secondQuarter], latch := Latch.withSums { valid := true, k := 1, n := 1, wts := [(1, 0x3C)] }
    tiles := [(tileKey 7 0 0, 0), (tileKey 7 0 0, 1)] }

/-- Warp 0 is resident, and core 0 runs its product. -/
def repeated : State := { State.reset with warps := [(0, {})], cores := [(0, listsTwice)] }

theorem arrHead_repeated : repeated.arrHead 0 = some secondQuarter := by decide

/-- The checksum column agrees with every row (R355). -/
theorem sums_agree : ∀ g ∈ repeated.sumsDiffer 0 secondQuarter row64 .f16 true, g = [] := by decide +kernel

/-- The first element of tile 7, as an outcome leaves it. -/
def leftInTile7 : Host.Outcome State Fault Refusal → Nat
  | .next u => (u.core 0).tileGet 7 0 0
  | _ => 0

/-- The product drops the entry that is 0, and leaves the second. -/
theorem exec_uncovers : leftInTile7 (exec (.arrayOpComplete 0 []) repeated) = 1 := by decide +kernel

end Sys2Proof.Machine.RepeatedTile

namespace Sys2Proof.Machine
open RepeatedTile

/-- Refutes O39: its clause on `MMA` fails in a state whose map of tiles lists an element of tile 7 twice, first as 0. A product
of tile 0 drops the entry that is 0, and the element reads as the second one. -/
theorem not_arrayProducts : ¬ Obligations.ArrayProducts := by
  rintro ⟨hmma, -, -⟩
  obtain ⟨u, hu, -, -, htiles⟩ := hmma repeated _ _ 0 secondQuarter 0 0 row64 .f16 false true _ _ arrHead_repeated rfl rfl
    (by decide) (by decide) sums_agree rfl rfl rfl (by decide) (by decide) fun _ _ _ _ h => h
  have hkept : (u.core 0).tileGet 7 0 0 = (repeated.core 0).tileGet 7 0 0 :=
    (htiles 7 0 0 (by decide) (by decide)).2 (by decide)
  have hleft := exec_uncovers
  rw [hu] at hleft
  exact absurd (hkept.symm.trans hleft) (by decide)

end Sys2Proof.Machine

/-! SUPPORT. The elementwise instructions: each issues the shared operation over lanes with its own lane function. -/

namespace Sys2Proof.Machine
open Claims

/-- An instruction that does nothing but the shared operation over lanes has that operation's result, flags and frame. -/
theorem lanesComplete_of_exec {c : LaneOp} (eff : Args → State → Grp → Res)
    (he : ∀ a s g, eff a s g = .next (s.elementwise g a (srcA a) (c.b a) (srcC a) (c.f a)))
    (hi : ∀ a s, exec (Instr.ofOp c.op a) s = s.issue c.op a (eff a)) : lanesComplete c := by
  intro a s g h
  exact h.elementwise (srcA a) (c.b a) (srcC a) (c.f a) (eff a) (he a) _ (hi a s)

theorem integerArithmetic_holds : Claims.integerArithmetic := by
  intro o ho
  simp only [arithOps, List.mem_cons, List.not_mem_nil, or_false] at ho
  rcases ho with rfl | rfl | rfl | rfl | rfl | rfl | rfl | rfl | rfl | rfl <;>
    exact lanesComplete_of_exec _ (fun _ _ _ => rfl) fun _ _ => rfl

theorem integerBits_holds : Claims.integerBits := by
  intro o ho
  simp only [bitOps, List.mem_cons, List.not_mem_nil, or_false] at ho
  rcases ho with rfl | rfl | rfl | rfl | rfl | rfl | rfl | rfl | rfl | rfl | rfl | rfl | rfl <;>
    exact lanesComplete_of_exec _ (fun _ _ _ => rfl) fun _ _ => rfl

theorem integerMoves_holds : Claims.integerMoves := by
  refine ⟨fun o ho => ?_, lanesComplete_of_exec _ (fun _ _ _ => rfl) fun _ _ => rfl⟩
  simp only [moveOps, List.mem_cons, List.not_mem_nil, or_false] at ho
  rcases ho with rfl | rfl | rfl | rfl | rfl | rfl <;>
    exact lanesComplete_of_exec _ (fun _ _ _ => rfl) fun _ _ => rfl

theorem floatLanes_holds : Claims.floatLanes := by
  intro o ho
  simp only [floatOps, List.mem_cons, List.not_mem_nil, or_false] at ho
  rcases ho with rfl | rfl | rfl | rfl | rfl | rfl | rfl | rfl | rfl | rfl | rfl | rfl | rfl | rfl <;>
    exact lanesComplete_of_exec _ (fun _ _ _ => rfl) fun _ _ => rfl

/-- Settles O1: every instruction of the four tables issues the shared operation over lanes with the function that the claim
names for it, which completes with its result, flags and frame. -/
theorem elementwiseResults : Obligations.ElementwiseResults :=
  ⟨integerArithmetic_holds, integerBits_holds, integerMoves_holds, floatLanes_holds⟩

end Sys2Proof.Machine

/-! SUPPORT. `TRET` (R125): the return from a handler, and what follows an effect that moved control itself. -/

namespace Sys2Proof.Machine

/-- What follows an effect that moved control itself is bookkeeping. -/
theorem State.booked_movedTo (s r : State) (o : Op) (a : Args) : State.Booked [s.cur] r (s.movedTo r o a) :=
  have hm : s.cur ∈ [s.cur] := List.mem_singleton_self _
  ((booked_noteMiss r s.mem _ hm).trans (booked_occupy _ o a s.alone hm fun _ h => h)).trans
    (booked_account _ _ a false hm)

/-- What `TRET` restores of a warp (R125). -/
def Warp.returned (e : Mask) (x : Warp) : Warp :=
  { x with toks := x.savedToks, spilled := x.savedSpill, exec := e, pc := x.epc, inHandler := false, savedToks := [],
           savedExec := 0, savedSpill := 0 }

/-- The state in which a return from a handler settles. -/
def State.returned (s : State) (w : Nat) (e : Mask) : State :=
  (((s.trace w 3 (s.warp w).epc).modWarp w (Warp.returned e)).endRun w).rdvPause (s.warp w).blk

theorem State.trace_warp (s : State) (w k : Nat) (p : Word) (v : Nat) : (s.trace w k p).warp v = s.warp v := by
  rw [trace_rest]; rfl

/-- A return changes the warp as `Warp.returned` says, no other warp, and no memory. -/
theorem State.returned_warps {s : State} {w : Nat} (e : Mask) (h : (mfind s.warps w).isSome) :
    Warp.Kept (Warp.returned e (s.warp w)) ((s.returned w e).warp w) ∧
    (∀ v, v ≠ w → (s.returned w e).warp v = s.warp v) ∧ (s.returned w e).mem = s.mem := by
  have hp (t : State) (v : Nat) : (t.rdvPause (s.warp w).blk).warp v = t.warp v :=
    by
    rw [warp, rdvPause_warps]; rfl
  have hb := booked_endRun (ws := [w]) ((s.trace w 3 (s.warp w).epc).modWarp w (Warp.returned e)) w (List.mem_singleton_self w)
  refine ⟨?_, fun v hv => ?_, ?_⟩
  · have hw := hb.warp w
    rw [modWarp_self _ (by simpa using h), trace_warp] at hw
    rw [returned, hp]
    exact hw
  · rw [returned, hp, hb.off v (by simpa using hv), modWarp_warp_ne _ _ hv, trace_warp]
  · have hm (t : State) : (t.rdvPause (s.warp w).blk).mem = t.mem := by unfold rdvPause; split <;> rfl
    rw [returned, hm, endRun_rest]
    change (s.trace w 3 (s.warp w).epc).mem = s.mem
    rw [trace_rest]

/-- `TRET` in a handler, to an aligned EPC, returns and settles where no lane is left. -/
theorem State.tretOp_eq {s : State} {w : Nat} {e : Mask} (he : (s.warp w).savedExec &&& (s.warp w).live = e) :
    s.tretOp w = if ((s.returned w e).warp w).exec ≠ 0 then (s.returned w e, none)
      else (s.returned w e).settleBy w fun t pc => (t.modWarp w fun x => { x with pc }).endRun w := by
  have hc : (s.trace w 3 (s.warp w).epc).modWarp w (Warp.returned e) =
      (s.trace w 3 (s.warp w).epc).modWarp w (fun x => Warp.returned (x.savedExec &&& x.live) x) :=
    modWarp_congr (by rw [trace_warp, he])
  unfold returned
  rw [hc]
  rfl

theorem State.returned_exec {s : State} {w : Nat} (e : Mask) (h : (mfind s.warps w).isSome) :
    ((s.returned w e).warp w).exec = e := by
  have hk := (returned_warps e h).1
  unfold Warp.Kept at hk
  rw [hk]
  rfl

/-- Outside a handler, and to a misaligned EPC, `TRET` traps. -/
theorem effTret_eq (s : State) (g : Grp) :
    effTret s g = if !(s.warp (leaderOf g)).inHandler then .trap s (illegal 0x14)
      else if (s.warp (leaderOf g)).epc &&& 3 ≠ 0 then .trap s ⟨0x12, 0, (s.warp (leaderOf g)).epc⟩
      else match s.tretOp (leaderOf g) with
        | (s1, none) => .moved s1
        | (s1, some t) => .moved (s1.trap (leaderOf g) t) := rfl

/-- Settles O18: `TRET` traps where its checks fail, else it is `State.returned`, which settles where no lane is left. -/
theorem trapReturn : Obligations.TrapReturn := by
  intro a s h
  have hi : exec (.tret a) s = s.issue .tret a effTret := rfl
  have hl := h.listed
  have he := effTret_eq (s.opened .tret a s.alone) s.alone
  rw [State.leaderOf_alone] at he
  refine ⟨fun hh hp hx => ?_, fun r' hh hp hx hs => ?_, fun hh => ?_, fun hh hp => ?_⟩
  · rw [if_neg (by simp [hh]), if_neg (not_not.2 hp), State.tretOp_eq rfl, State.returned_exec _ hl, if_pos hx] at he
    refine ⟨_, h.movesTo hi he, ?_⟩
    obtain ⟨hk, ho, hm⟩ := State.returned_warps
      (((s.opened .tret a s.alone).warp s.cur).savedExec &&& ((s.opened .tret a s.alone).warp s.cur).live) hl
    have hb := State.booked_movedTo s ((s.opened .tret a s.alone).returned s.cur
      (((s.opened .tret a s.alone).warp s.cur).savedExec &&& ((s.opened .tret a s.alone).warp s.cur).live)) .tret a
    refine ⟨hk.trans (hb.warp _), fun w hw => (hb.off w (by simpa using hw)).trans (ho w hw), ?_⟩
    rw [hb.rest]
    exact hm
  · rw [if_neg (by simp [hh]), if_neg (not_not.2 hp), State.tretOp_eq hx, State.returned_exec _ hl,
      if_neg (not_not.2 rfl)] at he
    change ((s.opened .tret a s.alone).returned s.cur 0).settleBy s.cur _ = (r', none) at hs
    rw [hs] at he
    exact h.movesTo hi he
  · rw [if_pos (by simp [hh])] at he
    exact h.trapsAlone hi he
  · rw [if_neg (by simp [hh]), if_pos hp] at he
    exact h.trapsAlone hi he

end Sys2Proof.Machine

/-! SUPPORT. `LAUNCH` (R122): a system instruction that answers a code in scalar D and with which the run ends, and what
an accepted stage leaves. -/

namespace Sys2Proof.Machine
open Claims

/-- Writing a scalar of the warp that issued alone. -/
theorem State.setScalar_alone (s r : State) (a : Args) (x : Word) (hl : (mfind r.warps s.cur).isSome) :
    r.WroteD (r.setScalar s.alone .s a.d.toNat x) { a with kd := .s } false s.alone (fun _ => []) (fun _ _ => x)
      (fun _ => 0) := by
  have hm : ∀ m ∈ s.alone, (mfind r.warps m.1).isSome := fun m hm => by
    rw [List.mem_singleton.1 hm]; exact hl
  obtain ⟨hrest, hon, hoff⟩ := modWarps_group s.alone (fun w => w.sset a.d.toNat x) r (by simp [Grp.ws, alone]) hm
  change r.WroteD (r.modWarps s.alone.ws fun w => w.sset a.d.toNat x) _ _ _ _ _ _
  generalize r.modWarps s.alone.ws (fun w => w.sset a.d.toNat x) = t at hrest hon hoff ⊢
  refine ⟨by rw [hrest], fun m hm => ?_, hoff, fun m hm n l _ => ?_, fun m hm n => ?_, fun b => by rw [hrest]; rfl,
    fun b n => by rw [hrest]; rfl⟩
  · rw [hon m hm]
    simp [Warp.sset]
  · rw [hon m hm]
    simp [Warp.vget]
  · rw [hon m hm]
    simp only [true_and]
    exact Warp.sset_sget _ _ _ _

/-- An effect with which the run ends, and which keeps the members of its group. -/
theorem State.retired_last {s r : State} {o : Op} {a : Args} {g : Grp} {i : Instr} {eff : State → Grp → Res}
    (h : s.IssuesPlain o a g) (hi : exec i s = s.issue o a eff) (he : eff (s.opened o a g) g = .last r)
    (hl : ∀ m ∈ g, (mfind r.warps m.1).isSome) : Completes i a g s r := by
  obtain ⟨hn, -, hc⟩ := h.grp
  refine ⟨_, hi, ?_⟩
  rw [h.finish eff (by simp [he]), he]
  exact retired_pass r g s.cur o a _ true s.mem hc hn hl

/-- An effect that writes scalar D of the warp that issued alone, and with which the run ends. -/
theorem State.answers_last {s r : State} {o : Op} {a : Args} {i : Instr} {eff : State → Grp → Res} {x : Word}
    (h : s.IssuesPlain o a s.alone) (hi : exec i s = s.issue o a eff)
    (he : eff (s.opened o a s.alone) s.alone = .last (r.setScalar s.alone .s a.d.toNat x))
    (hl : (mfind r.warps s.cur).isSome) : answersIn i a s.alone s r x := by
  refine ⟨_, retired_last h hi he fun m hm => ?_, s.setScalar_alone r a x hl⟩
  rw [setScalar_listed, List.mem_singleton.1 hm]
  exact hl

/-- `LAUNCH` where no access of its warp must come first (R281). -/
theorem effLaunch_ready {a : Args} {s : State} {g : Grp} {w : Nat} (hw : leaderOf g = w) (h : s.ownWaits w = false) :
    effLaunch a s g =
      match s.launchAt { c := (s.warp w).ctx, w := some w } (s.sval g (srcA a)) with
      | (s1, .error t) => .trap s1 t
      | (s1, .ok x) => .last (s1.setScalar g .s a.d.toNat x) := by
  subst hw
  unfold effLaunch
  exact if_neg (by simp [h])

/-- A stage that places nothing at once is queued (R297). -/
theorem State.acceptStage_queued (s : State) (c : Nat) (st : Stage) (ht : st.lrec.trig = false)
    (hc : (mfind s.ctxs c).isSome) :
    s.acceptStage c st none = { s with ctxs := (s.acceptStage c st none).ctxs } ∧
    (∀ k, k ≠ c → (s.acceptStage c st none).ctx k = s.ctx k) ∧
    (s.acceptStage c st none).ctx c = { s.ctx c with
      lnum := st.lnum
      stages := (s.ctx c).stages ++ [{ st with appended := st.lrec.clusters }]
      queue := (s.ctx c).queue ++ (List.range st.lrec.clusters).map fun k => (st.lnum, k, s.timer)
      headAt := if (s.ctx c).queue.isEmpty then s.timer else (s.ctx c).headAt } := by
  have hc' : ∀ f : Ctx → Ctx, (mfind (s.modCtx c f).ctxs c).isSome := fun f => by
    exact (mfind_mmod_isSome _ _ _ _).trans hc
  refine ⟨rfl, fun k hk => ?_, ?_⟩
  · unfold acceptStage
    simp only [ht]
    rw [modCtx_ctx _ _ _ _ (hc' _), if_neg hk, modCtx_ctx _ _ _ _ hc, if_neg hk]
  · unfold acceptStage
    simp only [ht]
    rw [modCtx_ctx _ _ _ _ (hc' _), if_pos rfl, modCtx_ctx _ _ _ _ hc, if_pos rfl]
    rfl

/-- A launch that a code refuses changes nothing beside what reading its record did. -/
theorem State.launchAt_refused {s s1 : State} {rd : Reader} {p : Word} {i : LaunchIn} {k : Nat}
    (hin : s.launchIn rd p = (s1, .ok i)) (hk : s1.launchCode rd.c i = some k) :
    s.launchAt rd p = (s1, .ok (launchStatus 0 k)) := by
  unfold launchAt
  simp only [hin, hk]

/-- A launch without grid barriers and trigger that no code refuses. -/
theorem State.launchAt_accepted {s s1 : State} {rd : Reader} {p : Word} {i : LaunchIn}
    (hin : s.launchIn rd p = (s1, .ok i)) (hk : s1.launchCode rd.c i = none)
    (hg : (launchRec i.bs).gridbar = false) (ht : (launchRec i.bs).trig = false) :
    s.launchAt rd p = (s1.acceptStage rd.c (stageOfIn i ((s1.ctx rd.c).lnum + 1) s1.mem.seq 0) none,
      .ok (launchStatus ((s1.ctx rd.c).lnum + 1) 0)) := by
  have hg' : (stageOfIn i ((s1.ctx rd.c).lnum + 1) s1.mem.seq 0).lrec.gridbar = false := hg
  have ht' : (stageOfIn i ((s1.ctx rd.c).lnum + 1) s1.mem.seq 0).lrec.trig = false := ht
  unfold launchAt
  simp only [hin, hk, hg', ht', Bool.false_and, Bool.false_eq_true, if_false]
  congr 1

theorem launchStatus_lnum (n : Nat) : launchStatus n 0 = BitVec.ofNat 64 (n * 2 ^ 32) := by
  rw [launchStatus, Nat.add_zero]

theorem launchStatus_code (k : Nat) : launchStatus 0 k = BitVec.ofNat 64 k := by
  rw [launchStatus, Nat.zero_mul, Nat.zero_add]

/-- Settles O19: `LAUNCH` writes the status word that `launchAt` gives, which is the code that refuses the launch or the number
under which the stage is queued. -/
theorem launchStatus_holds : Obligations.LaunchStatus := by
  refine ⟨fun a s s1 x h hw hd hl => ?_, fun a s s1 x h hw hd => ?_, fun s s1 rd p i k hin hk _ => ?_,
    fun s s1 rd p i hin hk hc hg ht => ?_⟩
  · have he : effLaunch a (s.opened .launch a s.alone) s.alone = .last (s1.setScalar s.alone .s a.d.toNat x) := by
      rw [effLaunch_ready s.leaderOf_alone hw, hd]
    exact State.answers_last h rfl he hl
  · have he : effLaunch a (s.opened .launch a s.alone) s.alone = .trap s1 x := by
      rw [effLaunch_ready s.leaderOf_alone hw, hd]
    exact congrArg Host.Outcome.next (h.traps (effLaunch a) he)
  · rw [State.launchAt_refused hin hk, launchStatus_code]
  · obtain ⟨hrest, hoff, hon⟩ := s1.acceptStage_queued rd.c (stageOfIn i ((s1.ctx rd.c).lnum + 1) s1.mem.seq 0) ht hc
    have hat := State.launchAt_accepted hin hk hg ht
    rw [launchStatus_lnum] at hat
    exact ⟨_, hat, hrest, hoff, hon⟩

end Sys2Proof.Machine

/-! SUPPORT. The refutation of O21. Its clause on `HALT` speaks of every state and says that no other core changes. The model
ends the run of every entry of the map of warps whose block is on the core, and looks the warp up by its key: where a key
is listed twice, which the model's operations never make, the run that ends may be one of another core. -/
namespace Sys2Proof.Machine.DoubledWarp

/-- Core 1, whose first partition runs warp 32. -/
def running : Core := { parts := [(0, { run := some 32 })] }

/-- Warp 0 is the current one, on core 0. Warp 32 is listed twice, first in block 1 on core 1, then in block 0 on core 0. -/
def doubled : State := { State.reset with
  ctxs := [(0, { crec := { priv := true } })], blocks := [(0, {}), (1, { core := 1 })]
  warps := [(0, {}), (32, { blk := 1 }), (32, {})], cores := [(1, running)] }

/-- `HALT` at warp scope. -/
def halt : Args := { scope := .warp }

theorem placed : doubled.Placed 0 := ⟨by decide, by decide, by decide, by decide, by decide⟩

/-- `HALT` issues. -/
theorem issues : doubled.IssuesPlain .halt halt doubled.alone where
  placed := placed
  home := by
    intro w hw
    obtain rfl : w = doubled.cur := by simpa [Grp.ws, State.alone] using hw
    exact placed
  checks := by decide
  group := by decide
  budget := by decide
  late := by decide
  clean := by decide
  conv := by decide
  batch := by decide

/-- Whether the first partition of core 1 runs a warp. -/
def runsOn1 : Host.Outcome State Fault Refusal → Option Nat
  | .next t => (mget {} (t.core 1).parts 0).run
  | _ => none

/-- `HALT` of core 0 ends the run on core 1. -/
theorem exec_ends : runsOn1 (exec (.halt halt) doubled) = none := by decide

end Sys2Proof.Machine.DoubledWarp

namespace Sys2Proof.Machine
open DoubledWarp

/-- Refutes O21: its clause on `HALT` fails in a state whose map of warps lists a warp twice, on two cores. `HALT` of the one core
ends the warp's run on the other. -/
theorem not_sleepHaltTlbi : ¬ Obligations.SleepHaltTlbi := by
  rintro ⟨-, hhalt, -⟩
  obtain ⟨t, ht, -, hcores, -⟩ := hhalt halt doubled issues
  have hrun : t.core 1 = (doubled.opened .halt halt doubled.alone).core 1 := hcores 1 (by decide)
  have hends := exec_ends
  rw [ht] at hends
  have hruns : (mget {} ((doubled.opened .halt halt doubled.alone).core 1).parts 0).run = some 32 := by decide
  rw [← hrun] at hruns
  exact absurd (hruns.symm.trans hends) (by decide)

end Sys2Proof.Machine

/-! SUPPORT. What the checks of register words (R366) leave of the registers that an instruction reads: a lane or a scalar that
is not marked with poison keeps its value, so where no source is poisoned an instruction reads what stood there before. -/

namespace Sys2Proof.Machine

/-- A register keeps its value and mark, or, where `p`, is marked. -/
def KeptOrMarked (p : Prop) (x y : Word × Option Mark) : Prop := y = x ∨ p ∧ y.2.isSome

theorem KeptOrMarked.refl (p : Prop) (x : Word × Option Mark) : KeptOrMarked p x x := .inl rfl

theorem KeptOrMarked.trans {p : Prop} {x y z : Word × Option Mark} (h : KeptOrMarked p x y) (h' : KeptOrMarked p y z) :
    KeptOrMarked p x z := by
  rcases h' with rfl | h'
  · exact h
  · exact .inr h'

/-- An unmarked register has kept its value. -/
theorem KeptOrMarked.val {p : Prop} {x y : Word × Option Mark} (h : KeptOrMarked p x y) (hm : p → y.2 = none) : y.1 = x.1 := by
  rcases h with rfl | ⟨hp, h⟩
  · rfl
  · rw [hm hp] at h
    cases h

/-- What stands in a vector register lane by its number, with its mark. -/
def Warp.vcell (x : Warp) (k : Nat) : Word × Option Mark := (mget 0 x.v k, mget none x.vMark k)

/-- What stands in a scalar register, with its mark. -/
def Warp.scell (x : Warp) (n : Nat) : Word × Option Mark := (x.sget n, x.smark n)

/-- What warp `w` reads in a block-shared register in clock `clk`, with its mark. -/
def Block.qcell (b : Block) (clk w n : Nat) : Word × Option Mark := (b.qread clk w n, b.qreadMark clk w n)

/-- Every register of a warp keeps its value and mark or is marked, a lane only where `K` holds of its number. -/
structure Warp.Poisoned (K : Nat → Prop) (x y : Warp) : Prop where
  blk  : y.blk = x.blk
  lane : ∀ k, KeptOrMarked (K k) (x.vcell k) (y.vcell k)
  scal : ∀ n, KeptOrMarked True (x.scell n) (y.scell n)

theorem Warp.Poisoned.refl (K : Nat → Prop) (x : Warp) : Warp.Poisoned K x x := ⟨rfl, fun _ => .refl .., fun _ => .refl ..⟩

theorem Warp.Poisoned.trans {K : Nat → Prop} {x y z : Warp} (h : Warp.Poisoned K x y) (h' : Warp.Poisoned K y z) :
    Warp.Poisoned K x z :=
  ⟨h'.blk.trans h.blk, fun k => (h.lane k).trans (h'.lane k), fun n => (h.scal n).trans (h'.scal n)⟩

/-- The same of every warp and block of a device. -/
structure State.Poisoned (K : Nat → Prop) (s r : State) : Prop where
  clock : r.clock = s.clock
  warp  : ∀ w, Warp.Poisoned K (s.warp w) (r.warp w)
  blk   : ∀ b clk w n, KeptOrMarked True ((s.blk b).qcell clk w n) ((r.blk b).qcell clk w n)

section
variable {K : Nat → Prop}

theorem State.Poisoned.refl (s : State) : State.Poisoned K s s := ⟨rfl, fun _ => .refl .., fun _ _ _ _ => .refl ..⟩

theorem State.Poisoned.trans {s r t : State} (h : State.Poisoned K s r) (h' : State.Poisoned K r t) : State.Poisoned K s t :=
  ⟨h'.clock.trans h.clock, fun w => (h.warp w).trans (h'.warp w), fun b clk w n => (h.blk b clk w n).trans (h'.blk b clk w n)⟩

theorem State.Poisoned.foldl {α : Type} (xs : List α) (f : State → α → State)
    (h : ∀ s, ∀ x ∈ xs, State.Poisoned K s (f s x)) (s : State) : State.Poisoned K s (xs.foldl f s) := by
  induction xs generalizing s with
  | nil => exact .refl s
  | cons x xs ih =>
    exact (h s x (List.mem_cons_self ..)).trans (ih (fun t y hy => h t y (List.mem_cons_of_mem _ hy)) _)

theorem State.modWarp_warp_or (s : State) (w v : Nat) (f : Warp → Warp) :
    (s.modWarp w f).warp v = f (s.warp v) ∨ (s.modWarp w f).warp v = s.warp v := by
  by_cases hv : v = w
  · subst hv
    by_cases hl : (mfind s.warps v).isSome
    · exact .inl (modWarp_self f hl)
    · right
      simp only [modWarp, mmod, warp]
      cases hm : mfind s.warps v
      · rfl
      · simp [hm] at hl
  · exact .inr (modWarp_warp_ne s f hv)

theorem State.modBlk_blk_or (s : State) (b c : Nat) (f : Block → Block) :
    (s.modBlk b f).blk c = f (s.blk c) ∨ (s.modBlk b f).blk c = s.blk c := by
  by_cases hc : c = b
  · subst hc
    by_cases hl : (mfind s.blocks c).isSome
    · exact .inl (by rw [modBlk_blk _ _ _ _ hl, if_pos rfl])
    · right
      simp only [modBlk, mmod, blk]
      cases hm : mfind s.blocks c
      · rfl
      · simp [hm] at hl
  · exact .inr (modBlk_blk_ne s f hc)

theorem State.poisoned_modWarp (s : State) (w : Nat) (f : Warp → Warp) (hf : ∀ x, Warp.Poisoned K x (f x)) :
    State.Poisoned K s (s.modWarp w f) := by
  refine ⟨rfl, fun v => ?_, fun _ _ _ _ => .refl ..⟩
  rcases s.modWarp_warp_or w v f with e | e <;> rw [e]
  · exact hf _
  · exact .refl ..

theorem State.poisoned_modBlk (s : State) (b : Nat) (f : Block → Block)
    (hf : ∀ x clk w n, KeptOrMarked True (x.qcell clk w n) ((f x).qcell clk w n)) : State.Poisoned K s (s.modBlk b f) := by
  refine ⟨rfl, fun _ => .refl .., fun c clk w n => ?_⟩
  rcases s.modBlk_blk_or b c f with e | e <;> rw [e]
  · exact hf _ _ _ _
  · exact .refl ..

/-- Only parts of a device that hold no registers differ. -/
theorem State.poisoned_rest {s r : State} (hc : r.clock = s.clock) (hw : ∀ w, r.warp w = s.warp w) (hb : ∀ b, r.blk b = s.blk b) :
    State.Poisoned K s r :=
  ⟨hc, fun w => by rw [hw]; exact .refl .., fun b _ _ _ => by rw [hb]; exact .refl ..⟩

/-! ## The checks -/

theorem Warp.pset_cells (x : Warp) (n : Nat) (m : Mask) (k : SMap (Option Mark)) :
    Warp.Poisoned K x { x.pset n m with pMark := k } := by
  unfold pset
  split <;> exact ⟨rfl, fun _ => .refl .., fun _ => .refl ..⟩

theorem Warp.poisoned_lane (x : Warp) (n l : Nat) (y : Word) (m : Mark) (hk : K (32 * n + l)) :
    Warp.Poisoned K x ((x.vset n l y).markV n l m) := by
  refine ⟨rfl, fun j => ?_, fun _ => .refl ..⟩
  unfold vcell markV vset
  by_cases hj : j = 32 * n + l
  · subst hj
    exact .inr ⟨hk, by simp⟩
  · exact .inl (by simp [mget_mset, hj])

theorem Warp.poisoned_scal (x : Warp) (n : Nat) (y : Word) (m : Mark) :
    Warp.Poisoned K x ({ x with s := mset 0 x.s n y }.markS n m) := by
  refine ⟨rfl, fun _ => .refl .., fun j => ?_⟩
  unfold scell markS sget smark
  by_cases hj : j = n
  · subst hj
    exact .inr ⟨trivial, by simp⟩
  · exact .inl (by simp [mget_mset, hj])

/-- The poison of a word marks the lane or the scalar that the word holds. -/
theorem Warp.poisoned_poisonWord (x : Warp) (k : Nat) (hk : k < 8192 → K k) : Warp.Poisoned K x (x.poisonWord k) := by
  unfold poisonWord
  extract_lets p n m
  have hp : ∀ n y, Warp.Poisoned K y (p n y) := by
    intro n y
    unfold p
    split
    · exact .refl ..
    · exact pset_cells ..
  split
  next hlt => exact poisoned_lane _ _ _ _ _ (by rw [Nat.div_add_mod]; exact hk hlt)
  · split
    · exact poisoned_scal ..
    · exact (hp _ _).trans (hp _ _)

/-- The poison of a block-shared register marks it for whoever reads the value of now. -/
theorem Block.poisoned_qset (b : Block) (n : Nat) (x : Word) (m : Mark) (d : SMap ColSt) (clk w j : Nat) :
    KeptOrMarked True (b.qcell clk w j)
      (Block.qcell { b.qset n x with qMark := mset none b.qMark n (some m), qWords := d } clk w j) := by
  unfold qcell qread qreadMark
  have e : Block.qBefore { b.qset n x with qMark := mset none b.qMark n (some m), qWords := d } clk j = b.qBefore clk j := rfl
  rw [e]
  have key : KeptOrMarked True (b.qget j, mget none b.qMark j)
      (Block.qget { b.qset n x with qMark := mset none b.qMark n (some m), qWords := d } j,
        mget none (mset none b.qMark n (some m)) j) := by
    by_cases hj : j = n
    · subst hj
      exact .inr ⟨trivial, by simp⟩
    · exact .inl (by simp [mget_mset, hj, qget, qset])
  cases b.qBefore clk j with
  | none => exact key
  | some q =>
    by_cases hq : q.by_.contains w = true
    · simpa only [hq, if_true] using key
    · simp only [hq]
      exact .refl ..

theorem State.poisoned_checkWord (s : State) (w k : Nat) (hk : k < 8192 → K k) : State.Poisoned K s (s.checkWord w k) := by
  have hd (x : Warp) (m : SMap ColSt) : Warp.Poisoned K x { x with words := m } :=
    ⟨rfl, fun _ => .refl .., fun _ => .refl ..⟩
  unfold checkWord
  extract_lets x core
  split
  · exact .refl s
  · exact (s.poisoned_modWarp w _ fun _ => hd ..).trans (poisoned_rest rfl (fun _ => rfl) fun _ => rfl)
  · exact (s.poisoned_modWarp w _ fun y => (y.poisoned_poisonWord k hk).trans (hd ..)).trans
      (poisoned_rest rfl (fun _ => rfl) fun _ => rfl)

theorem State.poisoned_checkQ (s : State) (b n : Nat) : State.Poisoned K s (s.checkQ b n) := by
  unfold checkQ
  extract_lets x
  split
  · exact .refl s
  · refine .trans (s.poisoned_modBlk b _ ?_) (poisoned_rest rfl (fun _ => rfl) fun _ => rfl)
    exact fun _ _ _ _ => .refl ..
  · exact (s.poisoned_modBlk b _ fun y _ _ _ => y.poisoned_qset ..).trans (poisoned_rest rfl (fun _ => rfl) fun _ => rfl)

theorem State.poisoned_checkWords (s : State) (g : Grp) (ks : List Nat × List Nat) (hk : ∀ k ∈ ks.1, k < 8192 → K k) :
    State.Poisoned K s (s.checkWords g ks) := by
  unfold checkWords
  extract_lets s1 b
  have h1 : State.Poisoned K s s1 := by
    unfold s1
    split
    · exact .refl s
    · exact .foldl _ _ (fun t w _ => .foldl _ _ (fun u k hm => u.poisoned_checkWord w k (hk k hm)) t) s
  split
  · exact h1
  · exact h1.trans (.foldl _ _ (fun u n _ => u.poisoned_checkQ b n) s1)

/-! ## Before the effect -/

theorem State.poisoned_trace (s : State) (w k : Nat) (x : Word) : State.Poisoned K s (s.trace w k x) := by
  rw [trace_rest]
  exact poisoned_rest rfl (fun _ => rfl) fun _ => rfl

theorem State.poisoned_grant (s : State) (w : Nat) : State.Poisoned K s (s.grant w) :=
  .trans (s.poisoned_modWarp w (fun x => { x with age := 0, runCnt := 0 }) fun _ => ⟨rfl, fun _ => .refl .., fun _ => .refl ..⟩)
    (poisoned_rest rfl (fun _ => rfl) fun _ => rfl)

theorem State.poisoned_closeRdv (s : State) (w : Nat) (sc : Scope) : State.Poisoned K s (s.closeRdv w sc) := by
  unfold closeRdv
  extract_lets x
  exact s.poisoned_modBlk _ _ fun _ _ _ _ => .refl ..

end

/-- Of a lane or scalar whose word is checked, an unmarked one is as it was. -/
theorem State.Issues.poisoned {s : State} {o : Op} {a : Args} {poison : State → Grp → Option Trap} {g : Grp}
    (h : s.Issues o a poison g) : State.Poisoned (· ∈ (wordRegs g o a).1) s (s.stood o a g) := by
  unfold State.stood
  refine .trans ?_ (State.poisoned_checkWords _ _ _ fun k hk _ => hk)
  split
  · refine .trans ?_ (State.poisoned_closeRdv _ _ _)
    obtain ⟨p, hp, e⟩ := State.gather_eq h.group
    have hq : State.Poisoned (· ∈ (wordRegs g o a).1) s p := by
      rcases hp with rfl | rfl
      · exact State.poisoned_trace ..
      · exact .refl _
    rcases e with e | e <;> rw [e]
    · exact hq
    · exact hq.trans (State.poisoned_grant _ _)
  · exact .refl s

/-- Reading tokens and charging the cost leave every register. -/
theorem State.opened_warp (s : State) (o : Op) (a : Args) (g : Grp) (w : Nat) :
    (s.opened o a g).warp w = { (s.stood o a g).warp w with
      floors := ((s.opened o a g).warp w).floors, rmtFl := ((s.opened o a g).warp w).rmtFl
      batches := ((s.opened o a g).warp w).batches } := by
  have key (rs : List Nat) (t : State) : (t.readTokens g rs).warp w = { t.warp w with
      floors := ((t.readTokens g rs).warp w).floors, rmtFl := ((t.readTokens g rs).warp w).rmtFl
      batches := ((t.readTokens g rs).warp w).batches } := by
    unfold readTokens
    induction rs generalizing t with
    | nil => rfl
    | cons r rs ih =>
      have e := ih (t.modWarp (leaderOf g) fun x => x.tokenRead r)
      rw [List.foldl_cons]
      rcases t.modWarp_warp_or (leaderOf g) w fun x => x.tokenRead r with e' | e' <;> rw [e'] at e
      · rw [Warp.tokenRead_eq] at e
        exact e
      · exact e
  have hc : ((s.stood o a g).chargeBudget (leaderOf g) a.ec).warp w = (s.stood o a g).warp w := by
    rw [chargeBudget_rest]
    rfl
  unfold opened
  have e := key ((s.stood o a g).tokenRegs g o a) ((s.stood o a g).chargeBudget (leaderOf g) a.ec)
  rw [hc] at e
  exact e

theorem State.opened_blk (s : State) (o : Op) (a : Args) (g : Grp) (b : Nat) :
    (s.opened o a g).blk b = (s.stood o a g).blk b := by
  unfold opened
  rw [readTokens_rest, chargeBudget_rest]
  rfl

theorem State.opened_clock (s : State) (o : Op) (a : Args) (g : Grp) : (s.opened o a g).clock = (s.stood o a g).clock := by
  unfold opened
  rw [readTokens_rest, chargeBudget_rest]

/-- Operands are read in the opened state as once their words have been checked. -/
theorem State.opened_val (s : State) (o : Op) (a : Args) (g : Grp) (lead m l : Nat) (x : Src) :
    (s.opened o a g).val lead m l x = (s.stood o a g).val lead m l x := by
  have hv : ((s.opened o a g).warp m).vget x.reg l = ((s.stood o a g).warp m).vget x.reg l := by rw [opened_warp]; rfl
  have hs : ((s.opened o a g).warp lead).sget x.reg = ((s.stood o a g).warp lead).sget x.reg := by rw [opened_warp]; rfl
  have hb : ((s.opened o a g).warp lead).blk = ((s.stood o a g).warp lead).blk := by rw [opened_warp]
  unfold val blkOf
  rw [hv, hs, hb, opened_blk, opened_clock]

/-- So are the lanes acted on. -/
theorem State.opened_actedOf (s : State) (o : Op) (a : Args) (g : Grp) (m : Nat × Mask) :
    (s.opened o a g).actedOf a m = (s.stood o a g).actedOf a m := by
  unfold actedOf
  rw [opened_warp]
  rfl

end Sys2Proof.Machine

/-! SUPPORT. What an elementwise integer instruction reads: where none of its sources is poisoned, the values that stood in
its operands when it issued. -/

namespace Sys2Proof.Machine

theorem State.srcTraps_none {t : State} {o : Op} {a : Args} {g : Grp} (h : t.plainPoison o a g = none) :
    t.srcTraps g (t.actedOf a) (namedOpnds (rowOf o a.func.toNat) a) = none := by
  unfold plainPoison at h
  cases hs : t.srcTraps g (t.actedOf a) (namedOpnds (rowOf o a.func.toNat) a) with
  | none => rfl
  | some x =>
    rw [hs] at h
    cases h

/-- No source that an instruction names is poisoned. -/
theorem State.srcTrap_none {t : State} {o : Op} {a : Args} {g : Grp} (h : t.plainPoison o a g = none) {x : Opnd × Kind × Nat}
    (hx : x ∈ namedOpnds (rowOf o a.func.toNat) a) (hu : x.1.use ≠ .dst) (hc : x.1.cls ≠ .pred) :
    t.srcTrap g (t.actedOf a) x.2.1 x.2.2 = none := by
  have hn := List.findSome?_eq_none_iff.1 (srcTraps_none h) x hx
  simpa [hu, hc] using hn

/-- A lane acted on of a vector source that is not poisoned has no mark. -/
theorem State.vmark_none {t : State} {g : Grp} {acted : Nat × Mask → List Nat} {r l : Nat} {m : Nat × Mask}
    (h : t.srcTrap g acted .v r = none) (hm : m ∈ g) (hl : l ∈ acted m) (hlt : l < 32) : (t.warp m.1).vmark r l = none := by
  have hn := List.findSome?_eq_none_iff.1 h m hm
  by_contra hs
  have hany : (acted m).any (fun l => ((t.warp m.1).vmark r l).isSome) = true :=
    List.any_eq_true.2 ⟨l, hl, Option.isSome_iff_ne_none.2 hs⟩
  rw [if_pos hany, Option.map_eq_none_iff] at hn
  exact hs (List.findSome?_eq_none_iff.1 hn l (List.mem_range.2 hlt))

/-- An operand whose source is not poisoned reads as before its word was checked. -/
theorem State.Poisoned.val_eq {K : Nat → Prop} {s t : State} (hp : State.Poisoned K s t) {g : Grp}
    {acted : Nat × Mask → List Nat} {x : Src} (h : t.srcTrap g acted x.kind x.reg = none) {m : Nat × Mask} {l : Nat}
    (hv : x.kind = .v → m ∈ g ∧ l ∈ acted m ∧ l < 32) :
    t.val (leaderOf g) m.1 l x = s.val (leaderOf g) m.1 l x := by
  obtain ⟨kind, r, v⟩ := x
  cases kind with
  | v =>
    obtain ⟨hm, hl, hlt⟩ := hv rfl
    exact ((hp.warp m.1).lane (32 * r + l)).val fun _ => vmark_none h hm hl hlt
  | s =>
    refine ((hp.warp (leaderOf g)).scal r).val fun _ => ?_
    change (match mfind (t.warp (leaderOf g)).tokenErr r with
      | some e => some _
      | none => ((t.warp (leaderOf g)).smark r).map _) = none at h
    split at h
    · cases h
    · exact Option.map_eq_none_iff.1 h
  | q =>
    change (t.blk _).qread t.clock _ r = (s.blk _).qread s.clock _ r
    rw [(hp.warp (leaderOf g)).blk, hp.clock]
    refine (hp.blk (s.warp (leaderOf g)).blk s.clock (leaderOf g) r).val fun _ => ?_
    have hq := Option.map_eq_none_iff.1 h
    rw [hp.clock, blkOf, (hp.warp (leaderOf g)).blk] at hq
    exact hq
  | x => rfl

/-- The operands of an elementwise integer instruction of Table 5.3: A, B if it has one, C if it has one. -/
structure IntegerRow (row : Row) : Prop where
  d : row.d = dR
  a : row.a = sR
  b : row.b = sRI ∨ row.b = {}
  c : row.c = sRL ∨ row.c = {}
  target : row.target = false

section
variable {row : Row} {a : Args}

/-- An operand that must be there is named where its kind is one that it may have. -/
theorem names_kind {p : Opnd} {k : Kind} {r : Nat} (hp : p.present = true) (ho : p.opt = false) (hk : k ∈ p.kinds a.scope) :
    (p.present && !(p.opt && k == .v && r == 0) && (p.cls == .pred || (p.kinds a.scope).contains k)) = true := by
  simp [hp, ho, hk]

theorem IntegerRow.named_a (h : IntegerRow row) (hk : a.ka ∈ sR.kinds a.scope) :
    (sR, a.ka, a.a.toNat) ∈ namedOpnds row a := by
  refine List.mem_filter.2 ⟨?_, names_kind rfl rfl hk⟩
  simp [h.a]

theorem named_b (hb : row.b = sRI) (hf : a.form ≠ .baseLit) (hk : a.kb ∈ sRI.kinds a.scope) :
    (sRI, a.kb, a.b.toNat) ∈ namedOpnds row a := by
  refine List.mem_filter.2 ⟨?_, names_kind rfl rfl hk⟩
  simp [hb, hf]

theorem IntegerRow.named_c (h : IntegerRow row) (hc : row.c = sRL) (hk : a.kc ∈ sRL.kinds a.scope) :
    (sRL, a.kc, a.c.toNat) ∈ namedOpnds row a := by
  refine List.mem_filter.2 ⟨?_, names_kind rfl rfl hk⟩
  simp [hc, h.target]

/-- At warp scope no source is a vector register. -/
theorem IntegerRow.named_warp (h : IntegerRow row) (hw : a.scope = .warp) {x : Opnd × Kind × Nat} (hx : x ∈ namedOpnds row a)
    (hu : x.1.use ≠ .dst) (hc : x.1.cls ≠ .pred) : x.2.1 ≠ .v := by
  have hmem := List.mem_filter.1 hx
  have hk : x.2.1 ∈ x.1.wk := by
    have := hmem.2
    simp only [Bool.and_eq_true, Bool.or_eq_true] at this
    simpa [hc, Opnd.kinds, hw] using this.2
  have hcases : x.1 = row.a ∨ x.1 = row.b ∨ x.1 = row.c := by
    have hm := hmem.1
    simp only [List.mem_append] at hm
    rcases hm with ((hm | hm) | hm) | hm
    · exact .inl (by rw [List.mem_singleton.1 hm])
    · refine .inr (.inl ?_)
      split at hm
      · cases hm
      · rw [List.mem_singleton.1 hm]
    · refine .inr (.inr ?_)
      split at hm
      · cases hm
      · rw [List.mem_singleton.1 hm]
    · exfalso
      rw [List.mem_singleton.1 hm] at hu
      dsimp only at hu
      split at hu
      · exact hu rfl
      · rw [h.d] at hu
        exact hu rfl
  intro hv
  rw [hv] at hk
  rcases hcases with e | e | e <;> rw [e] at hk
  · rw [h.a] at hk
    simp [sR] at hk
  · rcases h.b with e | e <;> rw [e] at hk <;> simp [sRI] at hk
  · rcases h.c with e | e <;> rw [e] at hk <;> simp [sRL, sRI] at hk

end

/-- At warp scope an elementwise integer instruction has no word of a vector register checked. -/
theorem wordRegs_warp {o : Op} {a : Args} (g : Grp) (h : IntegerRow (rowOf o a.func.toNat)) (hw : a.scope = .warp)
    (ho : o ≠ .pushm ∧ o ≠ .xfftFwd ∧ o ≠ .xfftInv) {k : Nat} (hk : k < 8192) : k ∉ (wordRegs g o a).1 := by
  intro hm
  unfold wordRegs at hm
  simp only [ho.1, ho.2.1, ho.2.2, if_false, or_self, List.append_nil] at hm
  split at hm
  · cases hm
  rcases List.mem_append.1 hm with hm | hm
  · obtain ⟨x, hx, hxk⟩ := List.mem_flatMap.1 hm
    split at hxk
    · rw [List.mem_singleton.1 hxk] at hk
      omega
    · split at hxk
      · cases hxk
      · next hc hu =>
        have hv := h.named_warp hw hx (by simpa using hu) (by simpa using hc)
        split at hxk
        · exact hv ‹_›
        · rw [List.mem_singleton.1 hxk] at hk
          omega
        · cases hxk
  · split at hm
    · cases hm
    · rw [List.mem_singleton.1 hm] at hk
      omega

/-- Whether an instruction reads a lane of a member: at warp scope lane 0 of the leader, else the lanes acted on. -/
def State.Reads (t : State) (a : Args) (g : Grp) (m l : Nat) : Prop :=
  (a.scope = .warp ∧ l = 0) ∨ (a.scope ≠ .warp ∧ ∃ e ∈ g, e.1 = m ∧ l ∈ t.actedOf a e)

section
variable {s : State} {o : Op} {a : Args} {g : Grp} {m l : Nat}

/-- An operand that an elementwise integer instruction names where its kind is one that the operand may have. -/
theorem State.Issues.val_eq (h : s.IssuesPlain o a g) (hr : IntegerRow (rowOf o a.func.toNat))
    (ho : o ≠ .pushm ∧ o ≠ .xfftFwd ∧ o ≠ .xfftInv) (hl : (s.opened o a g).Reads a g m l) {p : Opnd} {x : Src}
    (hp : p = sR ∨ p = sRI ∨ p = sRL) (hreg : x.reg < 256)
    (hn : x.kind ∈ p.kinds a.scope → (p, x.kind, x.reg) ∈ namedOpnds (rowOf o a.func.toNat) a) :
    (s.opened o a g).val (leaderOf g) m l x = s.val (leaderOf g) m l x := by
  have hu : p.use ≠ .dst := by rcases hp with rfl | rfl | rfl <;> decide
  have hc : p.cls ≠ .pred := by rcases hp with rfl | rfl | rfl <;> decide
  rw [State.opened_val]
  by_cases hk : x.kind ∈ p.kinds a.scope
  · have ht : (s.stood o a g).srcTrap g ((s.stood o a g).actedOf a) x.kind x.reg = none :=
      State.srcTrap_none h.clean (hn hk) hu hc
    rcases hl with ⟨hw, rfl⟩ | ⟨-, e, he, rfl, hacted⟩
    · refine h.poisoned.val_eq ht (m := (m, 0)) fun hv => ?_
      rw [hv, Opnd.kinds, if_pos hw] at hk
      rcases hp with rfl | rfl | rfl <;> simp [sR, sRI, sRL] at hk
    · rw [State.opened_actedOf] at hacted
      exact h.poisoned.val_eq ht fun _ => ⟨he, hacted, State.actedOf_lt _ hacted⟩
  · obtain ⟨kind, r, v⟩ := x
    dsimp only at hk hreg
    cases kind with
    | v =>
      rcases hl with ⟨hw, rfl⟩ | ⟨hw, -⟩
      · exact ((h.poisoned.warp m).lane (32 * r + 0)).val fun hK => absurd hK (wordRegs_warp g hr hw ho (by omega))
      · rw [Opnd.kinds, if_neg hw] at hk
        rcases hp with rfl | rfl | rfl <;> simp [sR, sRI, sRL] at hk
    | s => 
      unfold Opnd.kinds at hk
      rcases hp with rfl | rfl | rfl <;> split at hk <;> simp [sR, sRI, sRL] at hk
    | q => 
      unfold Opnd.kinds at hk
      rcases hp with rfl | rfl | rfl <;> split at hk <;> simp [sR, sRI, sRL] at hk
    | x => rfl

theorem State.Issues.inA_eq (h : s.IssuesPlain o a g) (hr : IntegerRow (rowOf o a.func.toNat))
    (ho : o ≠ .pushm ∧ o ≠ .xfftFwd ∧ o ≠ .xfftInv) (hl : (s.opened o a g).Reads a g m l) :
    Claims.inA (s.opened o a g) a g m l = Claims.inA s a g m l :=
  h.val_eq hr ho hl (.inl rfl) a.a.isLt hr.named_a

theorem State.Issues.inB_eq (h : s.IssuesPlain o a g) (hr : IntegerRow (rowOf o a.func.toNat))
    (ho : o ≠ .pushm ∧ o ≠ .xfftFwd ∧ o ≠ .xfftInv) (hl : (s.opened o a g).Reads a g m l)
    (hb : (rowOf o a.func.toNat).b = sRI) :
    Claims.inB (s.opened o a g) a g m l = Claims.inB s a g m l := by
  unfold Claims.inB srcB
  split
  · rfl
  · exact h.val_eq hr ho hl (.inr (.inl rfl)) a.b.isLt (named_b hb ‹_›)

theorem State.Issues.inC_eq (h : s.IssuesPlain o a g) (hr : IntegerRow (rowOf o a.func.toNat))
    (ho : o ≠ .pushm ∧ o ≠ .xfftFwd ∧ o ≠ .xfftInv) (hl : (s.opened o a g).Reads a g m l)
    (hc : (rowOf o a.func.toNat).c = sRL) :
    Claims.inC (s.opened o a g) a g m l = Claims.inC s a g m l :=
  h.val_eq hr ho hl (.inr (.inr rfl)) a.c.isLt (hr.named_c hc)

end

end Sys2Proof.Machine

/-! SUPPORT. Integer results element by element (R111, R117). -/

namespace Sys2Proof.Machine
open Claims

/-- What is written is a function only of what the destination takes: lanes acted on, or the one scalar. -/
theorem State.WroteD.congr {s r : State} {a : Args} {vec : Bool} {g : Grp} {on : Nat × Mask → List Nat}
    {f f' : Nat → Nat → Word} {fl : Nat × Mask → Word} (h : State.WroteD s r a vec g on f fl)
    (hv : vec = true → ∀ m ∈ g, ∀ l ∈ on m, f m.1 l = f' m.1 l)
    (hs : vec = false → f (leaderOf g) 0 = f' (leaderOf g) 0) : State.WroteD s r a vec g on f' fl := by
  refine ⟨h.rest, h.warp, h.off, fun m hm n l hl => ?_, fun m hm n => ?_, h.blk, fun b n => ?_⟩
  · rw [h.vreg m hm n l hl]
    by_cases hc : vec = true ∧ n = a.d.toNat ∧ l ∈ on m
    · rw [if_pos hc, if_pos hc, hv hc.1 m hm l hc.2.2]
    · rw [if_neg hc, if_neg hc]
  · rw [h.sreg m hm n]
    by_cases hc : vec = false ∧ a.kd = .s ∧ n = a.d.toNat
    · rw [if_pos hc, if_pos hc, hs hc.1]
    · rw [if_neg hc, if_neg hc]
  · rw [h.qreg b n]
    by_cases hc : vec = false ∧ a.kd = .q ∧ b = (s.warp (leaderOf g)).blk ∧ n = a.d.toNat ∧
        (s.blk b).qTop s.clock n ≤ leaderOf g
    · rw [if_pos hc, if_pos hc, hs hc.1]
    · rw [if_neg hc, if_neg hc]

/-- An elementwise instruction whose lanes hold `G` of the state in which it issued. -/
theorem integerResult_of {o : Op} {P : State → Args → Grp → Nat → Nat → Word → Prop} {sb : Args → Src} {F : Args → LaneIn → Word}
    (eff : Args → State → Grp → Res)
    (he : ∀ a s g, eff a s g = .next (s.elementwise g a (srcA a) (sb a) (srcC a) fun x => (F a x, 0)))
    (hi : ∀ a s, exec (Instr.ofOp o a) s = s.issue o a (eff a)) (G : State → Args → Grp → Nat → Nat → Word)
    (hG : ∀ a s g m l, s.IssuesPlain o a g → (s.opened o a g).Reads a g m l →
      F a ((s.opened o a g).laneIn a (srcA a) (sb a) (srcC a) (leaderOf g) m l) = G s a g m l)
    (hP : ∀ s a g m l, P s a g m l (G s a g m l)) : integerResult o P := by
  intro a s g h
  obtain ⟨r, hr, hw⟩ := h.elementwise (srcA a) (sb a) (srcC a) (fun x => (F a x, 0)) (eff a) (he a) _ (hi a s)
  simp only [flagsOf_zero] at hw
  refine ⟨r, G s a g, hr, hw.congr (fun hv m hm l hl => hG a s g m.1 l h (.inr ⟨?_, m, hm, rfl, hl⟩)) fun hv =>
    hG a s g _ 0 h (.inl ⟨?_, rfl⟩), hP s a g⟩
  · simpa [Args.vec] using hv
  · simpa [Args.vec] using hv

/-- An instruction of Table 5.3 with operands A and B, which reads no register beside its operands. -/
structure TableOp (o : Op) : Prop where
  single : o ≠ .pushm ∧ o ≠ .xfftFwd ∧ o ≠ .xfftInv
  row    : ∀ f, IntegerRow (rowOf o f)
  b      : ∀ f, (rowOf o f).b = sRI

theorem tableOp_of_rInt {o : Op} {opc : Nat} {ts : List EType} {sat : Bool} (h : ∀ f, rowOf o f = rInt opc ts sat)
    (hs : o ≠ .pushm ∧ o ≠ .xfftFwd ∧ o ≠ .xfftInv) : TableOp o :=
  ⟨hs, fun f => by rw [h]; exact ⟨rfl, rfl, .inl rfl, .inr rfl, rfl⟩, fun f => by rw [h]; rfl⟩

/-- The result of a function of operands A and B. -/
theorem TableOp.result {o : Op} {P : State → Args → Grp → Nat → Nat → Word → Prop} (h : TableOp o)
    (F : Args → Word → Word → Word) (eff : Args → State → Grp → Res)
    (he : ∀ a s g, eff a s g = .next (s.elementwise g a (srcA a) (srcB a (immElems a.ty a.imm)) (srcC a)
      fun x => (F a x.a x.b, 0)))
    (hi : ∀ a s, exec (Instr.ofOp o a) s = s.issue o a (eff a))
    (hP : ∀ s a g m l, P s a g m l (F a (inA s a g m l) (inB s a g m l))) : integerResult o P := by
  refine integerResult_of eff he hi (fun s a g m l => F a (inA s a g m l) (inB s a g m l)) (fun a s g m l hs hl => ?_) hP
  rw [← hs.inA_eq (h.row _) h.single hl, ← hs.inB_eq (h.row _) h.single hl (h.b _)]
  rfl

/-! ## Exact integers (R111) -/

/-- Every element is the exact result of Table 5.3, fitted into TYPE. -/
def exactElements (o : Op) (s : State) (a : Args) (g : Grp) (m l : Nat) (x : Word) : Prop :=
  ∀ i < a.ty.count, elemAt x a.ty.width i =
    fitInt a.ty (a.sat && (rowOf o 0).sat) (exactInt o a.ty.width
      (intElem a.ty (inA s a g m l) i) (intElem a.ty (inB s a g m l) i) (intElem a.ty (inC s a g m l) i))

/-- A function of two exact integers on each element. -/
theorem TableOp.exact {o : Op} (h : TableOp o) (sat : Args → Bool) (f : Args → Int → Int → Int) (eff : Args → State → Grp → Res)
    (he : ∀ a s g, eff a s g = .next (s.elementwise g a (srcA a) (srcB a (immElems a.ty a.imm)) (srcC a)
      fun x => (mapI2 a.ty (sat a) (f a) x.a x.b, 0)))
    (hi : ∀ a s, exec (Instr.ofOp o a) s = s.issue o a (eff a)) (hs : ∀ a, sat a = (a.sat && (rowOf o 0).sat))
    (hf : ∀ a p q r, f a p q = exactInt o a.ty.width p q r) : integerResult o (exactElements o) :=
  h.result _ eff he hi fun s a g m l i hlt => by rw [elemAt_mapI2 a.ty _ _ _ _ i hlt, hs, hf]

/-- `MAD` reads its operand C too. -/
theorem mad_exact : integerResult .mad (exactElements .mad) := by
  have hrow (f : Nat) : IntegerRow (rowOf .mad f) := ⟨rfl, rfl, .inl rfl, .inl rfl, rfl⟩
  refine integerResult_of effMad (fun _ _ _ => rfl) (fun _ _ => rfl)
    (fun s a g m l => mapI3 a.ty a.sat (fun p q r => p * q + r) (inA s a g m l) (inB s a g m l) (inC s a g m l))
    (fun a s g m l h hl => ?_) fun s a g m l i hi => ?_
  · rw [← h.inA_eq (hrow _) (by decide) hl, ← h.inB_eq (hrow _) (by decide) hl rfl, ← h.inC_eq (hrow _) (by decide) hl rfl]
    rfl
  · rw [elemAt_mapI3 a.ty a.sat _ _ _ _ i hi, show (rowOf .mad 0).sat = true from rfl, Bool.and_true]
    rfl

theorem sat_true (a : Args) : a.sat = (a.sat && true) := (Bool.and_true _).symm

theorem sat_false (a : Args) : false = (a.sat && false) := (Bool.and_false _).symm

/-- Settles O2: each instruction maps the exact function of Table 5.3 over the elements of its operands, which are read as they
stood when it issued. -/
theorem integerElements : Obligations.IntegerElements := by
  intro o ho
  simp only [List.mem_cons, List.not_mem_nil, or_false] at ho
  have hop {o : Op} {opc : Nat} {ts : List EType} {sat : Bool} := @tableOp_of_rInt o opc ts sat
  rcases ho with rfl | rfl | rfl | rfl | rfl | rfl | rfl | rfl
  · exact (hop (fun _ => rfl) (by decide)).exact _ (fun _ => (· + ·)) effAdd (fun _ _ _ => rfl) (fun _ _ => rfl) sat_true
      fun _ _ _ _ => rfl
  · exact (hop (fun _ => rfl) (by decide)).exact _ (fun _ => (· - ·)) effSub (fun _ _ _ => rfl) (fun _ _ => rfl) sat_true
      fun _ _ _ _ => rfl
  · exact (hop (fun _ => rfl) (by decide)).exact _ (fun _ => (· * ·)) effMul (fun _ _ _ => rfl) (fun _ _ => rfl) sat_true
      fun _ _ _ _ => rfl
  · exact (hop (fun _ => rfl) (by decide)).exact _ (fun a => mulhElem a.ty.width) effMulh (fun _ _ _ => rfl) (fun _ _ => rfl)
      sat_false fun _ _ _ _ => rfl
  · exact mad_exact
  · exact (hop (fun _ => rfl) (by decide)).exact _ (fun _ => Min.min) effMin (fun _ _ _ => rfl) (fun _ _ => rfl) sat_false
      fun _ _ _ _ => rfl
  · exact (hop (fun _ => rfl) (by decide)).exact _ (fun _ => Max.max) effMax (fun _ _ _ => rfl) (fun _ _ => rfl) sat_false
      fun _ _ _ _ => rfl
  · exact (hop (fun _ => rfl) (by decide)).exact _ (fun _ p q => |p - q|) effAbsd (fun _ _ _ => rfl) (fun _ _ => rfl) sat_true
      fun _ _ _ _ => rfl

/-! ## Bits (R111) -/

/-- Bits of a number reversed bit by bit: the first k steps have placed the topmost k bits. -/
theorem brev_steps (w a k : Nat) (hk : k ≤ w) :
    2 ^ (w - k) ∣ (List.range k).foldl (fun acc i => if a.testBit i then acc + 2 ^ (w - 1 - i) else acc) 0 ∧
    ∀ j < w, ((List.range k).foldl (fun acc i => if a.testBit i then acc + 2 ^ (w - 1 - i) else acc) 0).testBit j =
      (decide (w - 1 - j < k) && a.testBit (w - 1 - j)) := by
  induction k with
  | zero => simp
  | succ k ih =>
    obtain ⟨hd, hb⟩ := ih (by omega)
    rw [List.range_succ, List.foldl_append]
    simp only [List.foldl_cons, List.foldl_nil]
    generalize (List.range k).foldl (fun acc i => if a.testBit i then acc + 2 ^ (w - 1 - i) else acc) 0 = x at hd hb ⊢
    have hpow : 2 ^ (w - k) = 2 * 2 ^ (w - 1 - k) := by rw [← Nat.pow_succ']; congr 1; omega
    have hle : 2 ^ (w - (k + 1)) ∣ 2 ^ (w - k) := Nat.pow_dvd_pow 2 (by omega)
    have hlast (j : Nat) (hj : j < w) : (w - 1 - j < k + 1) ↔ (w - 1 - j < k ∨ j = w - 1 - k) := by omega
    split
    next ha =>
      refine ⟨Nat.dvd_add (hle.trans hd) (by rw [show w - (k + 1) = w - 1 - k by omega]), fun j hj => ?_⟩
      obtain ⟨q, rfl⟩ := hd
      rw [Nat.two_pow_add_eq_or_of_lt (by rw [hpow]; have := Nat.two_pow_pos (w - 1 - k); omega), Nat.testBit_or, hb j hj,
        Nat.testBit_two_pow]
      by_cases e : w - 1 - k = j
      · subst e
        rw [show w - 1 - (w - 1 - k) = k by omega, ha]
        simp
      · simp only [e, decide_false, Bool.or_false, hlast j hj]
        simp [Ne.symm e]
    next ha =>
      refine ⟨hle.trans hd, fun j hj => ?_⟩
      rw [hb j hj]
      by_cases e : j = w - 1 - k
      · subst e
        rw [show w - 1 - (w - 1 - k) = k by omega]
        simp [ha]
      · simp [hlast j hj, e]

theorem brevBits_testBit (w a j : Nat) (hj : j < w) : (brevBits w a % 2 ^ w).testBit j = a.testBit (w - 1 - j) := by
  rw [Nat.testBit_mod_two_pow, brevBits, (brev_steps w a w (Nat.le_refl w)).2 j hj]
  simp [hj, show w - 1 - j < w by omega]

/-- Every element is the shift, the rotation or the reversal of Table 5.3, bit by bit. -/
def shiftedElements (o : Op) (s : State) (a : Args) (g : Grp) (m l : Nat) (x : Word) : Prop :=
  ∀ i < a.ty.count, ∀ j < a.ty.width, (elemAt x a.ty.width i).testBit j =
    shiftedBit o a.ty.width (bitsA s a g m l i) (elemAt (inB s a g m l) a.ty.width i) j

theorem TableOp.shifted {o : Op} (h : TableOp o) (f : Nat → Nat → Nat → Nat) (eff : Args → State → Grp → Res)
    (he : ∀ a s g, eff a s g = .next (s.elementwise g a (srcA a) (srcB a (immElems a.ty a.imm)) (srcC a)
      fun x => (mapB2 a.ty f x.a x.b, 0)))
    (hi : ∀ a s, exec (Instr.ofOp o a) s = s.issue o a (eff a))
    (hf : ∀ w p q j, p < 2 ^ w → j < w → (f w p q % 2 ^ w).testBit j = shiftedBit o w p q j) :
    integerResult o (shiftedElements o) :=
  h.result _ eff he hi fun s a g m l i hlt j hj => by
    rw [elemAt_mapB2 a.ty _ _ _ i hlt, hf _ _ _ _ (elemAt_lt ..) hj]
    rfl

theorem brev_shifted : integerResult .brev (shiftedElements .brev) := by
  refine integerResult_of effBrev (fun _ _ _ => rfl) (fun _ _ => rfl)
    (fun s a g m l => mapB2 a.ty (fun w p _ => brevBits w p) (inA s a g m l) 0) (fun a s g m l h hl => ?_)
    fun s a g m l i hi j hj => ?_
  · rw [← h.inA_eq ⟨rfl, rfl, .inr rfl, .inr rfl, rfl⟩ (by decide) hl]
    rfl
  · rw [elemAt_mapB2 a.ty _ _ _ i hi]
    exact brevBits_testBit _ _ j hj

/-- Settles O3: each instruction maps its function of the bits over the elements of its operands, which are read as they stood when
it issued. -/
theorem shiftBits : Obligations.ShiftBits := by
  intro o ho
  simp only [List.mem_cons, List.not_mem_nil, or_false] at ho
  have hop {o : Op} {opc : Nat} {ts : List EType} {sat : Bool} := @tableOp_of_rInt o opc ts sat
  rcases ho with rfl | rfl | rfl | rfl | rfl
  · exact (hop (fun _ => rfl) (by decide)).shifted shlBits effShl (fun _ _ _ => rfl) (fun _ _ => rfl)
      fun w p q j _ hj => shlBits_testBit w p q j hj
  · exact (hop (fun _ => rfl) (by decide)).shifted shrBits effShr (fun _ _ _ => rfl) (fun _ _ => rfl)
      shrBits_testBit
  · exact (hop (fun _ => rfl) (by decide)).shifted sarBits effSar (fun _ _ _ => rfl) (fun _ _ => rfl)
      sarBits_testBit
  · exact (hop (fun _ => rfl) (by decide)).shifted rotBits effRot (fun _ _ _ => rfl) (fun _ _ => rfl)
      rotBits_testBit
  · exact brev_shifted

end Sys2Proof.Machine

/-! SUPPORT. Division and remainder of elements (R117). -/

namespace Sys2Proof.Machine
open Claims

theorem width_pos (t : EType) : 0 < t.width := by cases t <;> decide

theorem two_pow_width (t : EType) : 2 ^ t.width = 2 * 2 ^ (t.width - 1) := by
  rw [← Nat.pow_succ']
  congr 1
  have := width_pos t
  omega

/-- An element read as an integer lies in the range of its TYPE. -/
theorem intElem_range (t : EType) (x : Word) (i : Nat) :
    (EType.signedInt t = true → -(2 ^ (t.width - 1) : Nat) ≤ intElem t x i ∧ intElem t x i < (2 ^ (t.width - 1) : Nat)) ∧
    (EType.signedInt t = false → 0 ≤ intElem t x i ∧ intElem t x i < (2 ^ t.width : Nat)) := by
  have hlt := elemAt_lt x t.width i
  have hp := two_pow_width t
  unfold intElem readInt
  refine ⟨fun hs => ?_, fun hs => ?_⟩
  · rw [hs]
    split
    next h =>
      simp only [Bool.true_and, decide_eq_true_eq] at h
      omega
    next h =>
      simp only [Bool.true_and, decide_eq_true_eq] at h
      omega
  · rw [hs]
    simp only [Bool.false_and, Bool.false_eq_true, if_false]
    omega

/-- A number that TYPE holds is fitted, with SAT and without, by its bits. -/
theorem fitInt_of_range (t : EType) (sat : Bool) (y : Int)
    (hs : EType.signedInt t = true → -(2 ^ (t.width - 1) : Nat) ≤ y ∧ y < (2 ^ (t.width - 1) : Nat))
    (hu : EType.signedInt t = false → 0 ≤ y ∧ y < (2 ^ t.width : Nat)) :
    (fitInt t sat y : Int) = y % (2 ^ t.width : Nat) := by
  have hpos : (0 : Int) < (2 ^ t.width : Nat) := by exact_mod_cast Nat.two_pow_pos _
  have hy : (if sat = true then min (max y (if EType.signedInt t = true then -(2 ^ (t.width - 1) : Nat) else 0))
      (if EType.signedInt t = true then (2 ^ (t.width - 1) : Nat) - 1 else (2 ^ t.width : Nat) - 1) else y) = y := by
    split
    · cases hsi : EType.signedInt t
      · obtain ⟨h1, h2⟩ := hu hsi
        simp only [Bool.false_eq_true, if_false]
        omega
      · obtain ⟨h1, h2⟩ := hs hsi
        simp only [if_true]
        omega
    · rfl
  unfold fitInt
  simp only
  rw [hy, Int.toNat_of_nonneg (Int.emod_nonneg _ (Int.ne_of_gt hpos))]

/-- Without SAT a number is cut to the element. -/
theorem fitInt_wrap (t : EType) (y : Int) : (fitInt t false y : Int) = y % (2 ^ t.width : Nat) := by
  have hpos : (0 : Int) < (2 ^ t.width : Nat) := by exact_mod_cast Nat.two_pow_pos _
  exact Int.toNat_of_nonneg (Int.emod_nonneg _ (Int.ne_of_gt hpos))

/-- A quotient that does not overflow lies in the range of the dividend. -/
theorem tdiv_range {p q n : Int} (hq : q ≠ 0) (hp : -n ≤ p ∧ p < n) (ho : ¬(q = -1 ∧ p = -n)) :
    -n ≤ Int.tdiv p q ∧ Int.tdiv p q < n := by
  have habs : (Int.tdiv p q).natAbs = p.natAbs / q.natAbs := Int.natAbs_tdiv ..
  have hle : p.natAbs / q.natAbs ≤ p.natAbs := Nat.div_le_self ..
  by_cases h1 : q.natAbs = 1
  · rcases Int.natAbs_eq_iff.1 h1 with h | h
    · have : q = 1 := by simpa using h
      subst this
      simpa using hp
    · have : q = -1 := by simpa using h
      subst this
      rw [Int.tdiv_neg, Int.tdiv_one]
      omega
  · have hlt : p ≠ 0 → p.natAbs / q.natAbs < p.natAbs := fun h =>
      Nat.div_lt_self (by omega) (by omega)
    omega

theorem tdiv_nonneg_lt {p q n : Int} (hp : 0 ≤ p ∧ p < n) (hq : 0 ≤ q) : 0 ≤ Int.tdiv p q ∧ Int.tdiv p q < n :=
  ⟨Int.tdiv_nonneg hp.1 hq, Int.lt_of_le_of_lt (Int.tdiv_le_self _ hp.1) hp.2⟩

/-- The quotient of elements, where the divisor is not zero and it does not overflow. -/
theorem fitInt_tdiv (t : EType) (sat : Bool) (x y : Word) (i : Nat) (hq : intElem t y i ≠ 0)
    (ho : ¬(intElem t y i = -1 ∧ intElem t x i = -(2 ^ (t.width - 1) : Nat))) :
    (fitInt t sat (Int.tdiv (intElem t x i) (intElem t y i)) : Int) =
      Int.tdiv (intElem t x i) (intElem t y i) % (2 ^ t.width : Nat) := by
  refine fitInt_of_range t sat _ (fun hs => tdiv_range hq ((intElem_range t x i).1 hs) ho) fun hu => ?_
  exact tdiv_nonneg_lt ((intElem_range t x i).2 hu) ((intElem_range t y i).2 hu).1

/-- The lowest number divided by −1: one more than the highest. -/
theorem fitInt_overflow (t : EType) (sat : Bool) (hs : EType.signedInt t = true) :
    fitInt t sat (2 ^ (t.width - 1) : Nat) = if sat then 2 ^ (t.width - 1) - 1 else 2 ^ (t.width - 1) := by
  have hp := two_pow_width t
  have hpos := Nat.two_pow_pos (t.width - 1)
  have hm {k : Nat} (h : k < 2 ^ t.width) : ((k : Int) % (2 ^ t.width : Nat)).toNat = k := by
    rw [← Int.natCast_emod, Nat.mod_eq_of_lt h]
    rfl
  unfold fitInt
  simp only [hs, if_true]
  cases sat
  · simp only [Bool.false_eq_true, if_false]
    exact hm (by omega)
  · simp only [if_true]
    rw [show min (max ((2 ^ (t.width - 1) : Nat) : Int) (-(2 ^ (t.width - 1) : Nat))) ((2 ^ (t.width - 1) : Nat) - 1) =
      ((2 ^ (t.width - 1) - 1 : Nat) : Int) by omega]
    exact hm (by omega)

/-- Settles O4: the quotient and the remainder of each element by the cases of R117. -/
theorem divideRemainder : Obligations.DivideRemainder := by
  have hop {o : Op} {opc : Nat} {ts : List EType} {sat : Bool} := @tableOp_of_rInt o opc ts sat
  refine ⟨(hop (fun _ => rfl) (by decide)).result (fun a => mapDiv a.ty (divElem a.ty a.sat)) effDiv (fun _ _ _ => rfl)
      (fun _ _ => rfl) fun s a g m l i hi => ?_,
    (hop (fun _ => rfl) (by decide)).result (fun a => mapDiv a.ty (remElem a.ty)) effRem (fun _ _ _ => rfl)
      (fun _ _ => rfl) fun s a g m l i hi => ?_⟩
  · have hw := two_pow_width a.ty
    have hpos := Nat.two_pow_pos (a.ty.width - 1)
    simp only
    rw [elemAt_mapDiv a.ty _ _ _ i hi]
    unfold divElem
    refine ⟨fun hq => ?_, fun hq hs hp => ?_, fun hq ho => ?_⟩
    · rw [if_pos hq, Nat.mod_eq_of_lt (by omega)]
    · rw [if_neg (by omega), Nat.mod_eq_of_lt (fitInt_lt ..), hq, hp, Int.tdiv_neg, Int.tdiv_one, Int.neg_neg]
      exact fitInt_overflow a.ty a.sat hs
    · rw [if_neg hq, Nat.mod_eq_of_lt (fitInt_lt ..)]
      exact fitInt_tdiv _ _ _ _ _ hq ho
  · simp only
    rw [elemAt_mapDiv a.ty _ _ _ i hi]
    unfold remElem
    refine ⟨fun hq => ?_, fun hq => ?_⟩
    · rw [if_pos hq, Nat.mod_eq_of_lt (fitInt_lt ..)]
      have h := fitInt_wrap a.ty (intElem a.ty (inA s a g m l) i)
      rw [intElem, readInt_emod _ _ _ (elemAt_lt ..)] at h
      exact_mod_cast h
    · rw [if_neg hq, Nat.mod_eq_of_lt (fitInt_lt ..), fitInt_wrap, Int.tmod_def]

end Sys2Proof.Machine

/-! SUPPORT. What stopping arrays, pausing rendezvous watchdogs and changing warps leave, as lists of warps too. -/

namespace Sys2Proof.Machine

/-! ## Lists of warps -/

/-- Every warp of a list stands in another under the same key, with the same context; and the order of keys is kept. -/
structure SameHolders (m m' : SMap Warp) : Prop where
  sorted : msorted m = true → msorted m' = true
  ctx    : ∀ e ∈ m', ∃ x, (e.1, x) ∈ m ∧ x.ctx = e.2.ctx

theorem SameHolders.refl (m : SMap Warp) : SameHolders m m := ⟨id, fun e he => ⟨e.2, he, rfl⟩⟩

theorem SameHolders.trans {m m' m'' : SMap Warp} (h : SameHolders m m') (h' : SameHolders m' m'') : SameHolders m m'' := by
  refine ⟨fun hs => h'.sorted (h.sorted hs), fun e he => ?_⟩
  obtain ⟨y, hy, e1⟩ := h'.ctx e he
  obtain ⟨x, hx, e2⟩ := h.ctx (e.1, y) hy
  exact ⟨x, hx, e2.trans e1⟩

/-- No warp of a context is listed where none was. -/
theorem SameHolders.none {m m' : SMap Warp} {c : Nat} (h : SameHolders m m') (hm : ∀ e ∈ m, e.2.ctx ≠ c) :
    ∀ e ∈ m', e.2.ctx ≠ c := by
  intro e he
  obtain ⟨x, hx, e1⟩ := h.ctx e he
  rw [← e1]
  exact hm _ hx

theorem sameHolders_mmod (m : SMap Warp) (k : Nat) {f : Warp → Warp} (hf : ∀ x, (f x).ctx = x.ctx) :
    SameHolders m (mmod m k f) := by
  unfold mmod
  cases hx : mfind m k with
  | none => exact .refl m
  | some x =>
    refine ⟨fun hs => msorted_mins k (f x) hs, fun e he => ?_⟩
    rcases mem_mins he with rfl | he
    · exact ⟨x, mem_of_mfind hx, (hf x).symm⟩
    · exact ⟨e.2, he, rfl⟩

theorem State.sameHolders_modWarps (vs : List Nat) {f : Warp → Warp} (hf : ∀ x, (f x).ctx = x.ctx) (s : State) :
    SameHolders s.warps (s.modWarps vs f).warps := by
  unfold modWarps
  induction vs generalizing s with
  | nil => exact .refl _
  | cons v vs ih => exact (sameHolders_mmod s.warps v hf).trans (ih (s.modWarp v f))

theorem State.sameHolders_endRun (s : State) (w : Nat) : SameHolders s.warps (s.endRun w).warps := by
  unfold endRun
  dsimp only
  split
  · exact sameHolders_mmod s.warps w fun _ => rfl
  · exact sameHolders_mmod s.warps w fun _ => rfl

theorem State.sameHolders_noteMiss (s : State) (m : Mem) (w : Nat) : SameHolders s.warps (s.noteMiss m w).warps := by
  unfold noteMiss
  split
  · exact .refl _
  · exact sameHolders_mmod s.warps w fun _ => rfl

theorem State.sameHolders_occupy (s : State) (o : Op) (a : Args) (g : Grp) : SameHolders s.warps (s.occupy o a g).warps := by
  unfold occupy
  extract_lets row w n k used s1 s2
  have h2 : SameHolders s.warps s2.warps := by
    refine SameHolders.trans ?_ (sameHolders_modWarps (f := fun x => { x with
      due := (dueDsts row a).foldl (fun m k => mins m k (s.clock + resultAfter row a n)) (x.due.filter fun e => s.clock < e.2)
      next := if row.opc < 0x10 then s.clock + 1 else x.next }) g.ws (fun _ => rfl) (if a.fin then s1.endRun w else s1))
    split
    · exact s1.sameHolders_endRun w
    · exact .refl _
  refine h2.trans (sameHolders_modWarps _ ?_ s2)
  exact fun _ => rfl

theorem State.sameHolders_account (s : State) (w : Nat) (a : Args) (e : Bool) : SameHolders s.warps (s.account w a e).warps := by
  unfold account
  extract_lets on s1
  have h1 : SameHolders s.warps s1.warps :=
    sameHolders_mmod s.warps w (f := fun x => { x with runCnt := if on then x.runCnt + 1 else 0, waitFrom := none, waited := 0 })
      fun _ => rfl
  split
  · exact h1.trans (s1.sameHolders_endRun w)
  · exact h1

/-- What follows an effect with which the run ends lists no warp of another context. -/
theorem State.sameHolders_last (w : Nat) (g : Grp) (o : Op) (a : Args) (s : State) :
    SameHolders s.warps (State.finish w g o a (.last s)).warps :=
  ((s.sameHolders_occupy o a g).trans
      (sameHolders_modWarps (f := fun x => { x.advance (argBytes a) with park := .none }) g.ws (fun _ => rfl) (s.occupy o a g))).trans
    (((s.occupy o a g).pass g (argBytes a)).sameHolders_account w a true)

/-! ## Arrays that stop (R226, R311) -/

/-- Only cores and dies differ. -/
def State.CoresOnly (s r : State) : Prop := r = { s with cores := r.cores, dies := r.dies }

theorem State.CoresOnly.refl (s : State) : State.CoresOnly s s := rfl

theorem State.CoresOnly.trans {s r t : State} (h : State.CoresOnly s r) (h' : State.CoresOnly r t) : State.CoresOnly s t := by
  unfold CoresOnly at *
  rw [h] at h'
  exact h'

theorem State.CoresOnly.foldl {α : Type} {f : State → α → State} (h : ∀ s x, State.CoresOnly s (f s x)) (xs : List α) (s : State) :
    State.CoresOnly s (xs.foldl f s) := by
  induction xs generalizing s with
  | nil => exact .refl s
  | cons x xs ih => exact (h s x).trans (ih _)

theorem State.coresOnly_cutLoop (cs : List Nat) : ∀ (n : Nat) (s : State), State.CoresOnly s (cutLoop cs n s) := by
  induction cs with
  | nil => exact fun _ s => .refl s
  | cons c cs ih => exact fun n s => State.CoresOnly.trans (r := s.setFiller c _) rfl (ih _ _)

theorem State.coresOnly_shed (s : State) (d : Nat) : State.CoresOnly s (s.shed d) :=
  (coresOnly_cutLoop _ _ s).trans rfl

theorem State.coresOnly_leaveLoad (s : State) (k : Nat) (o : ArrOp) : State.CoresOnly s (s.leaveLoad k o) := by
  unfold leaveLoad
  split <;> exact rfl

theorem State.coresOnly_stopArr (s : State) (k : Nat) : State.CoresOnly s (s.stopArr k) := by
  unfold stopArr
  split
  · exact (s.coresOnly_leaveLoad k _).trans rfl
  · exact .refl s

theorem State.coresOnly_stopCores (s : State) (ks : List Nat) : State.CoresOnly s (s.stopCores ks) :=
  (State.CoresOnly.foldl coresOnly_stopArr ks s).trans (.foldl coresOnly_shed _ _)

theorem State.coresOnly_idleBands (s : State) (k : Nat) : State.CoresOnly s (s.idleBands k) := by
  refine .foldl (fun t b => ?_) _ s
  split <;> exact rfl

theorem State.coresOnly_clearCore (s : State) (k : Nat) : State.CoresOnly s (s.clearCore k) :=
  .trans (r := (s.stopCores [k]).modCore k fun c => { c with tiles := [], tags := [], recs := [], latch := {}, arr := [], arrFl := [] })
    ((s.coresOnly_stopCores [k]).trans rfl) (coresOnly_idleBands _ k)

theorem State.CoresOnly.warp {s r : State} (h : State.CoresOnly s r) (w : Nat) : r.warp w = s.warp w := by
  rw [h]
  rfl

theorem State.coresOnly_stopArrays (s : State) (c : Nat) : State.CoresOnly s (s.stopArrays c) := s.coresOnly_stopCores _

/-! ## Runs that end, and pauses -/

/-- Only blocks, cores and dies, and the runs of warps, differ. -/
structure State.Paused (s r : State) : Prop where
  rest    : r = { s with warps := r.warps, blocks := r.blocks, cores := r.cores, dies := r.dies }
  warp    : ∀ w, Warp.Kept (s.warp w) (r.warp w)
  listed  : ∀ w, (mfind r.warps w).isSome = (mfind s.warps w).isSome
  holders : SameHolders s.warps r.warps

theorem State.Paused.refl (s : State) : State.Paused s s := ⟨rfl, fun _ => rfl, fun _ => rfl, .refl _⟩

theorem State.Paused.trans {s r t : State} (h : State.Paused s r) (h' : State.Paused r t) : State.Paused s t where
  rest := by
    have e := h'.rest
    rw [h.rest] at e
    exact e
  warp w := (h.warp w).trans (h'.warp w)
  listed w := (h'.listed w).trans (h.listed w)
  holders := h.holders.trans h'.holders

theorem State.Paused.foldl {α : Type} {f : State → α → State} (h : ∀ s x, State.Paused s (f s x)) (xs : List α) (s : State) :
    State.Paused s (xs.foldl f s) := by
  induction xs generalizing s with
  | nil => exact .refl s
  | cons x xs ih => exact (h s x).trans (ih _)

theorem State.paused_endRun (s : State) (w : Nat) : State.Paused s (s.endRun w) :=
  have hb := booked_endRun (ws := [w]) s w (List.mem_singleton_self w)
  ⟨by rw [hb.rest], hb.warp, hb.listed, s.sameHolders_endRun w⟩

theorem State.paused_rdvPause (s : State) (b : Nat) : State.Paused s (s.rdvPause b) := by
  have hw := s.rdvPause_warps b
  refine ⟨?_, fun w => ?_, fun w => by rw [hw], by rw [hw]; exact .refl _⟩
  · unfold rdvPause
    split <;> rfl
  · rw [show (s.rdvPause b).warp w = s.warp w by unfold warp; rw [hw]]
    exact .refl _

theorem State.paused_pauseRdvs (s : State) (c : Nat) : State.Paused s (s.pauseRdvs c) :=
  (State.Paused.foldl paused_rdvPause _ s).trans (.foldl paused_endRun _ _)

theorem State.CoresOnly.paused {s r : State} (h : State.CoresOnly s r) : State.Paused s r :=
  ⟨by rw [h], fun w => by rw [h.warp]; rfl, fun w => by rw [h], by rw [h]; exact .refl _⟩

end Sys2Proof.Machine

/-! SUPPORT. `CTX` (spec/05 R124, spec/13 R303): the codes that refuse it, freezing and thawing, saving and loading. -/

namespace Sys2Proof.Machine
open Claims

/-! ## Codes -/

theorem State.ctxCode_own {s : State} {g : Grp} {c : Nat} (h : c = (s.warp (leaderOf g)).ctx) : s.ctxCode g c = some 5 :=
  if_pos h

theorem State.ctxCode_none {s : State} {g : Grp} {c : Nat} (h : c ≠ (s.warp (leaderOf g)).ctx) (hc : mfind s.ctxs c = none) :
    s.ctxCode g c = some 2 := by
  unfold ctxCode
  rw [if_neg h, hc]
  rfl

theorem State.ctxCode_ok {s : State} {g : Grp} {c : Nat} (h : c ≠ (s.warp (leaderOf g)).ctx) (hc : (mfind s.ctxs c).isSome) :
    s.ctxCode g c = none := by
  unfold ctxCode
  rw [if_neg h, if_neg]
  simpa using Option.ne_none_iff_isSome.2 hc

section
variable {a : Args} {s : State} {g : Grp} {k : Nat}

theorem effCtxFreeze_refused (h : s.ctxCode g (s.sval g (srcA a)).toNat = some k) : effCtxFreeze a s g = s.ctxAnswer g a k := by
  unfold effCtxFreeze
  simp only [h]

theorem effCtxSave_refused (h : s.ctxCode g (s.sval g (srcA a)).toNat = some k) : effCtxSave a s g = s.ctxAnswer g a k := by
  unfold effCtxSave
  simp only [h]

theorem effCtxLoad_refused (h : s.ctxCode g (s.sval g (srcA a)).toNat = some k) : effCtxLoad a s g = s.ctxAnswer g a k := by
  unfold effCtxLoad
  simp only [h]

/-- `CTX.FREEZE` of another context that exists. -/
theorem effCtxFreeze_ok (h : s.ctxCode g (s.sval g (srcA a)).toNat = none) :
    effCtxFreeze a s g =
      let c := (s.sval g (srcA a)).toNat
      if s.sval g (srcB a 0) = 1 then
        if (s.ctx c).frozen then s.ctxAnswer g a 0
        else if s.warpsStopped c && s.enginesIdle c then (s.freezeCtx c).ctxAnswer g a 0
        else .stall (((s.stopArrays c).modCtx c fun x => { x with freezing := true }).pauseRdvs c)
      else if s.sval g (srcB a 0) = 0 then
        if (s.ctx c).dead then s.ctxAnswer g a 7 else (s.thawCtx c).ctxAnswer g a 0
      else s.ctxAnswer g a 6 := by
  unfold effCtxFreeze
  simp only [h]

end

/-- A `CTX` that answers a code with the device as in r. -/
theorem State.Issues.ctxAnswers {s r : State} {o : Op} {a : Args} {i : Instr} {eff : State → Grp → Res} {k : Nat}
    (h : s.IssuesPlain o a s.alone) (hi : exec i s = s.issue o a eff)
    (he : eff (s.opened o a s.alone) s.alone = r.ctxAnswer s.alone a k) (hl : (mfind r.warps s.cur).isSome) :
    answersIn i a s.alone s r (BitVec.ofNat 64 k) :=
  State.answers_last h hi he hl

/-- The three `CTX` refuse the context that issues them, and one that does not exist. -/
theorem ctx_refused (o : Op) (ho : o ∈ [Op.ctxFreeze, .ctxSave, .ctxLoad]) (a : Args) (s : State) (h : s.IssuesPlain o a s.alone)
    (k : Nat) (hk : (s.opened o a s.alone).ctxCode s.alone ((s.opened o a s.alone).sval s.alone (srcA a)).toNat = some k) :
    answersIn (Instr.ofOp o a) a s.alone s (s.opened o a s.alone) (BitVec.ofNat 64 k) := by
  simp only [List.mem_cons, List.not_mem_nil, or_false] at ho
  rcases ho with rfl | rfl | rfl
  · exact h.ctxAnswers (eff := effCtxFreeze a) rfl (effCtxFreeze_refused hk) h.listed
  · exact h.ctxAnswers (eff := effCtxSave a) rfl (effCtxSave_refused hk) h.listed
  · exact h.ctxAnswers (eff := effCtxLoad a) rfl (effCtxLoad_refused hk) h.listed

/-! ## Freezing and thawing -/

theorem State.paused_ctx {s r : State} (h : State.Paused s r) (c : Nat) : r.ctx c = s.ctx c := by
  rw [h.rest]
  rfl

theorem State.paused_mem {s r : State} (h : State.Paused s r) : r.mem = s.mem := by rw [h.rest]

/-- Freezing leaves every warp, up to the runs that end, and memory. -/
theorem State.freezeCtx_frozen {s : State} {c : Nat} (hc : (mfind s.ctxs c).isSome) :
    ((s.freezeCtx c).ctx c).frozen = true ∧ (∀ w, Warp.Kept (s.warp w) ((s.freezeCtx c).warp w)) ∧
    (s.freezeCtx c).mem = s.mem ∧ ∀ w, (mfind (s.freezeCtx c).warps w).isSome = (mfind s.warps w).isSome := by
  have h1 := (s.coresOnly_stopArrays c).paused
  have h2 := ((s.stopArrays c).modCtx c fun x => { x with frozen := true, freezing := false }).paused_pauseRdvs c
  have hc1 : (mfind (s.stopArrays c).ctxs c).isSome := by rw [s.coresOnly_stopArrays c]; exact hc
  refine ⟨?_, fun w => (h1.warp w).trans (h2.warp w), ?_, fun w => (h2.listed w).trans (h1.listed w)⟩
  · rw [freezeCtx, paused_ctx h2, modCtx_ctx _ _ _ _ hc1, if_pos rfl]
  · rw [freezeCtx, paused_mem h2, modCtx_mem, paused_mem h1]

/-- A property that `f` gives a warp, and keeps, holds of every warp that it is applied to. -/
theorem State.modWarps_gives {P : Warp → Prop} {f : Warp → Warp} (hf : ∀ x, P (f x)) (ws : List Nat) (s : State) :
    (∀ w ∈ ws, (mfind s.warps w).isSome → P ((s.modWarps ws f).warp w)) ∧ ∀ w, P (s.warp w) → P ((s.modWarps ws f).warp w) := by
  unfold modWarps
  induction ws generalizing s with
  | nil => exact ⟨fun _ hw => absurd hw List.not_mem_nil, fun _ => id⟩
  | cons v ws ih =>
    obtain ⟨h1, h2⟩ := ih (s.modWarp v f)
    have hv (w : Nat) : P (s.warp w) → P ((s.modWarp v f).warp w) := by
      rcases s.modWarp_warp_or v w f with e | e <;> rw [e]
      · exact fun _ => hf _
      · exact id
    refine ⟨fun w hw hl => ?_, fun w hp => h2 w (hv w hp)⟩
    rcases List.mem_cons.1 hw with rfl | hw
    · exact h2 w (by rw [modWarp_self f hl]; exact hf _)
    · exact h1 w hw ((modWarp_listed ..).trans hl)

/-- Changing warps leaves every warp in a relation to what it was in which each change leaves it. -/
theorem State.modWarps_keeps {R : Warp → Warp → Prop} (hr : ∀ x, R x x) (ht : ∀ {x y z}, R x y → R y z → R x z)
    {f : Warp → Warp} (hf : ∀ x, R x (f x)) (ws : List Nat) (w : Nat) (s : State) : R (s.warp w) ((s.modWarps ws f).warp w) := by
  unfold modWarps
  induction ws generalizing s with
  | nil => exact hr _
  | cons v ws ih =>
    refine ht ?_ (ih (s.modWarp v f))
    rcases s.modWarp_warp_or v w f with e | e <;> rw [e]
    · exact hf _
    · exact hr _

theorem State.mem_warpsOf {s : State} {w c : Nat} (hl : (mfind s.warps w).isSome) (hc : (s.warp w).ctx = c) : w ∈ s.warpsOf c := by
  obtain ⟨x, hx⟩ := Option.isSome_iff_exists.1 hl
  have hw : s.warp w = x := by rw [warp, mget_eq_mfind, hx]; rfl
  refine List.mem_map.2 ⟨(w, x), List.mem_filter.2 ⟨mem_of_mfind hx, ?_⟩, rfl⟩
  rw [← hc, hw]
  exact beq_self_eq_true _

theorem Warp.Kept.withAge {x y z : Warp} (h : Warp.Kept x y) (h' : z = { y with age := z.age }) :
    Warp.Kept { x with age := z.age } z := by
  unfold Kept at h ⊢
  generalize y.runCnt = a1 at h
  generalize y.missed = a2 at h
  generalize y.waitFrom = a3 at h
  generalize y.waited = a4 at h
  generalize y.due = a5 at h
  generalize y.next = a6 at h
  subst h
  generalize z.age = n at h' ⊢
  subst h'
  rfl

/-- Thawing leaves every warp but its AGE, up to the runs that end, and memory; the warps of the context have AGE 0. -/
theorem State.thawCtx_thawed {s : State} {c : Nat} (hc : (mfind s.ctxs c).isSome) :
    ((s.thawCtx c).ctx c).frozen = false ∧ (s.thawCtx c).mem = s.mem ∧
    (∀ w, Warp.Kept { s.warp w with age := ((s.thawCtx c).warp w).age } ((s.thawCtx c).warp w)) ∧
    (∀ w, (mfind s.warps w).isSome → (s.warp w).ctx = c → ((s.thawCtx c).warp w).age = 0) ∧
    ∀ w, (mfind (s.thawCtx c).warps w).isSome = (mfind s.warps w).isSome := by
  unfold thawCtx
  extract_lets s1
  have h1 : State.Paused (s.modCtx c fun x => { x with frozen := false, freezing := false }) s1 := paused_pauseRdvs _ c
  have hw (w : Nat) : Warp.Kept (s.warp w) (s1.warp w) := h1.warp w
  have hl (w : Nat) : (mfind s1.warps w).isSome = (mfind s.warps w).isSome := h1.listed w
  have hr := modWarps_rest (s1.warpsOf c) (fun w => { w with age := 0 }) s1
  refine ⟨?_, ?_, fun w => ?_, fun w hlw hcw => ?_, fun w => (modWarps_listed ..).trans (hl w)⟩
  · rw [hr]
    change (s1.ctx c).frozen = false
    rw [paused_ctx h1, modCtx_ctx _ _ _ _ hc, if_pos rfl]
  · rw [hr]
    exact (paused_mem h1).trans rfl
  · have ha := s1.modWarps_keeps (R := fun x y => y = { x with age := y.age }) (fun _ => rfl)
      (fun {x y z} h h' => by rw [h] at h'; exact h') (f := fun w => { w with age := 0 }) (fun _ => rfl) (s1.warpsOf c) w
    exact (hw w).withAge ha
  · refine (modWarps_gives (P := fun x => x.age = 0) (fun _ => rfl) (s1.warpsOf c) s1).1 w ?_ ((hl w).trans hlw)
    refine mem_warpsOf ((hl w).trans hlw) ?_
    have hk := hw w
    unfold Warp.Kept at hk
    rw [hk]
    exact hcw

end Sys2Proof.Machine

/-! SUPPORT. `CTX`: the statement on its codes, and what a save and a load leave. -/

namespace Sys2Proof.Machine
open Claims

theorem ctx_freezes (a : Args) (s : State) (h : s.IssuesPlain .ctxFreeze a s.alone) :
    let s0 := s.opened .ctxFreeze a s.alone
    let c := (s0.sval s.alone (srcA a)).toNat
    let b := s0.sval s.alone (srcB a 0)
    c ≠ (s0.warp s.cur).ctx → (mfind s0.ctxs c).isSome →
    (b = 1 → (s0.ctx c).frozen = true → answersIn (.ctxFreeze a) a s.alone s s0 0) ∧
    (b = 1 → (s0.ctx c).frozen = false → s0.warpsStopped c = true → s0.enginesIdle c = true →
      ∃ s1, answersIn (.ctxFreeze a) a s.alone s s1 0 ∧ (s1.ctx c).frozen = true ∧
        (∀ w, Warp.Kept (s0.warp w) (s1.warp w)) ∧ s1.mem = s0.mem) ∧
    (b = 0 → (s0.ctx c).dead = true → answersIn (.ctxFreeze a) a s.alone s s0 7) ∧
    (b = 0 → (s0.ctx c).dead = false →
      ∃ s1, answersIn (.ctxFreeze a) a s.alone s s1 0 ∧ (s1.ctx c).frozen = false ∧ s1.mem = s0.mem ∧
        (∀ w, Warp.Kept { s0.warp w with age := (s1.warp w).age } (s1.warp w)) ∧
        ∀ w, (mfind s0.warps w).isSome → (s0.warp w).ctx = c → (s1.warp w).age = 0) ∧
    (b ≠ 1 → b ≠ 0 → answersIn (.ctxFreeze a) a s.alone s s0 6) := by
  intro s0 c b hc hl
  have he := effCtxFreeze_ok (a := a) (State.ctxCode_ok (g := s.alone) hc hl)
  change effCtxFreeze a s0 s.alone = if b = 1 then _ else if b = 0 then _ else _ at he
  have answers {r : State} {k : Nat} (he : effCtxFreeze a s0 s.alone = r.ctxAnswer s.alone a k)
      (hr : (mfind r.warps s.cur).isSome) : answersIn (.ctxFreeze a) a s.alone s r (BitVec.ofNat 64 k) :=
    h.ctxAnswers rfl he hr
  refine ⟨fun hb hf => ?_, fun hb hf hs hi => ?_, fun hb hd => ?_, fun hb hd => ?_, fun h1 h0 => ?_⟩
  · exact answers (he.trans ((if_pos hb).trans (if_pos hf))) h.listed
  · obtain ⟨hfr, hw, hm, hlist⟩ := State.freezeCtx_frozen hl
    refine ⟨_, answers (he.trans ((if_pos hb).trans ((if_neg (by rw [hf]; simp)).trans (if_pos ?_)))) ?_, hfr, hw, hm⟩
    · rw [hs, hi]; rfl
    · rw [hlist]; exact h.listed
  · have hb1 : b ≠ 1 := by rw [hb]; decide
    exact answers (he.trans ((if_neg hb1).trans ((if_pos hb).trans (if_pos hd)))) h.listed
  · have hb1 : b ≠ 1 := by rw [hb]; decide
    obtain ⟨hfr, hm, hw, hage, hlist⟩ := State.thawCtx_thawed hl
    refine ⟨_, answers (he.trans ((if_neg hb1).trans ((if_pos hb).trans (if_neg (by rw [hd]; simp))))) ?_, hfr, hm, hw, hage⟩
    rw [hlist]; exact h.listed
  · exact answers (he.trans ((if_neg h1).trans (if_neg h0))) h.listed

theorem context_control : Claims.contextControl := by
  refine ⟨fun o ho a s h => ⟨fun hc => ?_, fun hc hn => ?_⟩, ctx_freezes, fun a s h hc hl hf => ?_, fun a s h hc hl hw => ?_⟩
  · exact ctx_refused o ho a s h 5 (State.ctxCode_own hc)
  · exact ctx_refused o ho a s h 2 (State.ctxCode_none hc hn)
  · have he : effCtxSave a (s.opened .ctxSave a s.alone) s.alone = (s.opened .ctxSave a s.alone).ctxAnswer s.alone a 1 := by
      unfold effCtxSave
      simp only [State.ctxCode_ok (g := s.alone) hc hl, hf]
      rfl
    exact h.ctxAnswers rfl he h.listed
  · obtain ⟨w, hcw, hlw⟩ := hw
    have hres : (s.opened .ctxLoad a s.alone).isResident ((s.opened .ctxLoad a s.alone).sval s.alone (srcA a)).toNat = true := by
      have hm := State.mem_warpsOf hlw hcw
      unfold State.isResident
      rw [Bool.or_eq_true]
      left
      cases hwo : (s.opened .ctxLoad a s.alone).warpsOf ((s.opened .ctxLoad a s.alone).sval s.alone (srcA a)).toNat with
      | nil => rw [hwo] at hm; cases hm
      | cons => rfl
    have he : effCtxLoad a (s.opened .ctxLoad a s.alone) s.alone = (s.opened .ctxLoad a s.alone).ctxAnswer s.alone a 8 := by
      unfold effCtxLoad
      simp only [State.ctxCode_ok (g := s.alone) hc hl, hres, if_true]
    exact h.ctxAnswers rfl he h.listed

/-! ## Saving (R292, R303) -/

theorem mfind_filter {α : Type} {m : SMap α} {k : Nat} {x : α} {p : Nat × α → Bool} (h : mfind m k = some x) (hp : p (k, x) = true) :
    mfind (m.filter p) k = some x := by
  induction m with
  | nil => cases h
  | cons e m ih =>
    obtain ⟨j, y⟩ := e
    unfold mfind at h
    by_cases hk : k = j
    · rw [if_pos hk, Option.some.injEq] at h
      subst hk h
      rw [List.filter_cons_of_pos hp, mfind, if_pos rfl]
    · rw [if_neg hk] at h
      rw [List.filter_cons]
      split
      · rw [mfind, if_neg hk]
        exact ih h
      · exact ih h

/-- The state in which a context's runs have ended and its cores are clear. -/
def State.cleared (s : State) (c : Nat) : State :=
  (s.ctx c).crec.cores.foldl State.clearCore ((s.warpsOf c).foldl State.endRun s)

theorem State.paused_cleared (s : State) (c : Nat) : State.Paused s (s.cleared c) :=
  (State.Paused.foldl paused_endRun _ s).trans (State.CoresOnly.foldl coresOnly_clearCore _ _).paused

theorem State.evict_eq (s : State) (c : Nat) :
    s.evict c = { s.cleared c with
      warps := (s.cleared c).warps.filter fun e => e.2.ctx != c
      blocks := (s.cleared c).blocks.filter fun e => e.2.ctx != c } := rfl

/-- A context that is evicted has left, and warps of other contexts stay. -/
theorem State.evict_gone (s : State) (c : Nat) :
    (∀ e ∈ (s.evict c).warps, e.2.ctx ≠ c) ∧ (s.evict c).blocksOf c = [] ∧ (s.evict c).ctxs = s.ctxs ∧
    (s.evict c).saves = s.saves ∧
    ∀ w, (mfind s.warps w).isSome → (s.warp w).ctx ≠ c → (mfind (s.evict c).warps w).isSome := by
  have h := s.paused_cleared c
  rw [evict_eq]
  refine ⟨fun e he => by simpa using (List.mem_filter.1 he).2, ?_, by rw [h.rest], by rw [h.rest], fun w hl hc => ?_⟩
  · simp [blocksOf, List.filter_filter]
  · obtain ⟨x, hx⟩ := Option.isSome_iff_exists.1 ((h.listed w).trans hl)
    have hk := h.warp w
    have hxc : x.ctx ≠ c := by
      have hwx : (s.cleared c).warp w = x := by rw [warp, mget_eq_mfind, hx]; rfl
      unfold Warp.Kept at hk
      rw [hwx] at hk
      rw [hk]
      exact hc
    exact Option.isSome_iff_exists.2 ⟨x, mfind_filter hx (by simpa using hxc)⟩

/-- `CTX.SAVE` of a frozen context whose engines are idle and whose releases need not wait. -/
theorem effCtxSave_ready {a : Args} {s : State} {g : Grp} (hc : s.ctxCode g (s.sval g (srcA a)).toNat = none)
    (hf : (s.ctx (s.sval g (srcA a)).toNat).frozen = true) (hi : s.enginesIdle (s.sval g (srcA a)).toNat = true)
    (hr : s.relWaits (s.warpsOf (s.sval g (srcA a)).toNat) .sys = false) :
    effCtxSave a s g =
      let c := (s.sval g (srcA a)).toNat
      let s1 := (s.releaseAll c).checkStored c
      match s1.fresh.2.writeImage (leaderOf g) c s1.nextId (s.sval g (srcB a 0)) with
      | (s2, some _) => s2.ctxAnswer g a 4
      | (s2, none) =>
        ((({ s2 with saves := s2.saveOf c s1.nextId (s1.fresh.2.contextBody c s1.nextId) :: s2.saves }).evict c).modCtx c
          fun x => { x with saved := true }).ctxAnswer g a 0 := by
  unfold effCtxSave
  simp only [hc, hf, hi, hr]
  rfl

/-- An effect with which the run ends lists no warp of another context when it completes. -/
theorem State.Issues.lastHolders {s r t : State} {o : Op} {a : Args} {g : Grp} {i : Instr} {eff : State → Grp → Res}
    (h : s.IssuesPlain o a g) (hi : exec i s = s.issue o a eff) (he : eff (s.opened o a g) g = .last r)
    (ht : exec i s = .next t) : SameHolders r.warps t.warps := by
  have e : s.issueWith o a (fun s g => s.plainPoison o a g) eff = t := by
    have := hi.symm.trans ht
    injection this
  rw [h.finish eff (by simp [he]), he] at e
  rw [← e]
  exact (r.sameHolders_noteMiss s.mem s.cur).trans (State.sameHolders_last s.cur g o a (r.noteMiss s.mem s.cur))

/-- What a `CTX` that answers a code leaves, as a whole device. -/
theorem State.Issues.ctxLeaves {s u : State} {o : Op} {a : Args} {i : Instr} {eff : State → Grp → Res} {k : Nat}
    (h : s.IssuesPlain o a s.alone) (hi : exec i s = s.issue o a eff)
    (he : eff (s.opened o a s.alone) s.alone = u.ctxAnswer s.alone a k) (hl : (mfind u.warps s.cur).isSome) :
    ∃ t, exec i s = .next t ∧ t = { u with warps := t.warps, cores := t.cores } ∧ SameHolders u.warps t.warps ∧
      (t.warp s.cur).sget a.d.toNat = BitVec.ofNat 64 k := by
  have hd := (s.setScalar_alone u a (BitVec.ofNat 64 k) hl).sreg (s.cur, (s.warp s.cur).exec) (List.mem_singleton_self _) a.d.toNat
  have hr : u.setScalar s.alone .s a.d.toNat (BitVec.ofNat 64 k) =
      { u with warps := (u.setScalar s.alone .s a.d.toNat (BitVec.ofNat 64 k)).warps } := rfl
  have hs : SameHolders u.warps (u.setScalar s.alone .s a.d.toNat (BitVec.ofNat 64 k)).warps :=
    State.sameHolders_modWarps s.alone.ws (f := fun w => w.sset a.d.toNat (BitVec.ofNat 64 k)) (fun _ => rfl) u
  have hlr : ∀ m ∈ s.alone, (mfind (u.setScalar s.alone .s a.d.toNat (BitVec.ofNat 64 k)).warps m.1).isSome := fun m hm => by
    rw [State.setScalar_listed, List.mem_singleton.1 hm]
    exact hl
  obtain ⟨t, ht, hret⟩ := State.retired_last h hi he hlr
  refine ⟨t, ht, ?_, hs.trans (h.lastHolders hi he ht), ?_⟩
  · have e := hret.rest
    rw [hr] at e
    exact e
  · have hon := hret.on s.cur (List.mem_singleton_self _)
    unfold Warp.Kept at hon
    rw [hon]
    exact hd.trans (if_pos ⟨rfl, rfl, rfl⟩)

theorem State.warpsOf_nil {s : State} {c : Nat} (h : ∀ e ∈ s.warps, e.2.ctx ≠ c) : s.warpsOf c = [] := by
  refine List.map_eq_nil_iff.2 (List.filter_eq_nil_iff.2 fun e he => ?_)
  simpa using h e he

theorem ctx_saves (a : Args) (s s2 : State) (x : Option XFault) (h : s.IssuesPlain .ctxSave a s.alone) :
    let s0 := s.opened .ctxSave a s.alone
    let c := (s0.sval s.alone (srcA a)).toNat
    c ≠ (s0.warp s.cur).ctx → (mfind s0.ctxs c).isSome → (s0.ctx c).frozen = true → s0.enginesIdle c = true →
    s0.relWaits (s0.warpsOf c) .sys = false →
    let s1 := (s0.releaseAll c).checkStored c
    s1.fresh.2.writeImage s.cur c s1.nextId (s0.sval s.alone (srcB a 0)) = (s2, x) → (mfind s2.warps s.cur).isSome →
    (∀ e, x = some e → answersIn (.ctxSave a) a s.alone s s2 4) ∧
    (x = none → (mfind s2.ctxs c).isSome → (s2.warp s.cur).ctx ≠ c →
      ∃ t, exec (.ctxSave a) s = .next t ∧
        t.saves = s2.saveOf c s1.nextId (s1.fresh.2.contextBody c s1.nextId) :: s2.saves ∧
        t.warpsOf c = [] ∧ t.blocksOf c = [] ∧ (t.ctx c).saved = true ∧ (t.warp s.cur).sget a.d.toNat = 0) := by
  intro s0 c hc hl hf hi hr s1 hw hcur
  have he := effCtxSave_ready (a := a) (State.ctxCode_ok (g := s.alone) hc hl) hf hi hr
  simp only [s.leaderOf_alone] at he
  rw [hw] at he
  refine ⟨fun e hx => ?_, fun hx hcs hcc => ?_⟩
  · subst hx
    exact h.ctxAnswers rfl he hcur
  · subst hx
    dsimp only at he
    generalize hs3 : ({ s2 with saves := s2.saveOf c s1.nextId (s1.fresh.2.contextBody c s1.nextId) :: s2.saves } : State) = s3 at he
    obtain ⟨hgone, hblk, hctxs, hsaves, hstay⟩ := s3.evict_gone c
    have hlv : (mfind (s3.evict c).warps s.cur).isSome := hstay s.cur (by rw [← hs3]; exact hcur) (by rw [← hs3]; exact hcc)
    obtain ⟨t, ht, hrest, hhold, hd⟩ := h.ctxLeaves (i := .ctxSave a) rfl he hlv
    refine ⟨t, ht, ?_, State.warpsOf_nil (hhold.none hgone), ?_, ?_, hd⟩
    · rw [hrest]
      exact hsaves.trans (congrArg State.saves hs3.symm)
    · rw [hrest]
      exact hblk
    · rw [hrest]
      change (((s3.evict c).modCtx c fun x => { x with saved := true }).ctx c).saved = true
      rw [State.modCtx_ctx _ _ _ _ (by rw [hctxs, ← hs3]; exact hcs), if_pos rfl]

/-! ## Loading (R303) -/

/-- `CTX.LOAD` of an image that is whole. -/
theorem effCtxLoad_restores {a : Args} {s s1 s2 : State} {g : Grp} {w : Nat} {hd body : List Byte} {v : Save} (hw : leaderOf g = w)
    (hk : s.ctxCode g (s.sval g (srcA a)).toNat = none) (hr : s.isResident (s.sval g (srcA a)).toNat = false)
    (h1 : s.readArea w (s.sval g (srcB a 0)) 0 4096 = (s1, some hd)) (hok : headerOk hd (s.sval g (srcA a)).toNat = true)
    (hg : coresGranted hd (s.ctx (s.sval g (srcA a)).toNat).crec.cores = true)
    (h2 : s1.readArea w (s.sval g (srcB a 0)) 4096 (hdrNat hd 8 8 - 4096) = (s2, some body))
    (hdg : digestBytes (sha256 body) = (hd.drop 16).take 32)
    (hv : s2.imageOf (s.sval g (srcA a)).toNat (hdrNat hd 4 4) body = some v) :
    effCtxLoad a s g = (s2.restore v).ctxAnswer g a 0 := by
  subst hw
  unfold effCtxLoad
  simp only [hk, hr, h1, hok, hg, h2, hv, Bool.not_true, Bool.or_self, Bool.false_eq_true, if_false, if_pos hdg]

theorem ctx_loads (a : Args) (s s1 s2 : State) (hd body : List Byte) (v : Save) (h : s.IssuesPlain .ctxLoad a s.alone) :
    let s0 := s.opened .ctxLoad a s.alone
    let c := (s0.sval s.alone (srcA a)).toNat
    let base := s0.sval s.alone (srcB a 0)
    c ≠ (s0.warp s.cur).ctx → (mfind s0.ctxs c).isSome → s0.isResident c = false →
    s0.readArea s.cur base 0 4096 = (s1, some hd) → headerOk hd c = true →
    coresGranted hd (s0.ctx c).crec.cores = true →
    s1.readArea s.cur base 4096 (hdrNat hd 8 8 - 4096) = (s2, some body) →
    digestBytes (sha256 body) = (hd.drop 16).take 32 → s2.imageOf c (hdrNat hd 4 4) body = some v →
    (mfind (s2.restore v).warps s.cur).isSome →
    answersIn (.ctxLoad a) a s.alone s (s2.restore v) 0 := by
  intro s0 c base hc hl hr h1 hok hg h2 hdg hv hcur
  have hk : s0.ctxCode s.alone c = none := State.ctxCode_ok (g := s.alone) hc hl
  exact h.ctxAnswers rfl (effCtxLoad_restores s.leaderOf_alone hk hr h1 hok hg h2 hdg hv) hcur

/-- Settles O22: the codes and the frames of `CTX.FREEZE`, and a save and a load by the states in which they answer. -/
theorem contextControl : Obligations.ContextControl :=
  ⟨context_control, ctx_saves, ctx_loads⟩

end Sys2Proof.Machine

/-! SUPPORT. Accesses to memory, as lists of warps: none appears under a new context, and a late trap once recorded stays. -/

namespace Sys2Proof.Machine

/-! ## The relation -/

/-- Every warp of a list stands in another under the same key with the same context, and one that holds a late trap keeps it. -/
structure Kin (m m' : SMap Warp) : Prop extends SameHolders m m' where
  late : ∀ w x, mfind m w = some x → x.late.isSome → ∃ y, mfind m' w = some y ∧ y.late = x.late

theorem Kin.refl (m : SMap Warp) : Kin m m := ⟨.refl m, fun _ x h _ => ⟨x, h, rfl⟩⟩

theorem Kin.trans {m m' m'' : SMap Warp} (h : Kin m m') (h' : Kin m' m'') : Kin m m'' := by
  refine ⟨h.toSameHolders.trans h'.toSameHolders, fun w x hx hl => ?_⟩
  obtain ⟨y, hy, e⟩ := h.late w x hx hl
  obtain ⟨z, hz, e'⟩ := h'.late w y hy (e ▸ hl)
  exact ⟨z, hz, e'.trans e⟩

theorem Kin.foldl {α : Type} {f : State → α → State} (h : ∀ s x, Kin s.warps (f s x).warps) (xs : List α) (s : State) :
    Kin s.warps (xs.foldl f s).warps := by
  induction xs generalizing s with
  | nil => exact .refl _
  | cons x xs ih => exact (h s x).trans (ih _)

/-- A change of a warp that keeps its context, and a late trap where it holds one. -/
def Warp.KeepsLate (f : Warp → Warp) : Prop := ∀ x, (f x).ctx = x.ctx ∧ (x.late.isSome → (f x).late = x.late)

theorem Warp.keepsLate_record (t : LateTrap) : Warp.KeepsLate fun x => x.record t := by
  intro x
  dsimp only [record]
  split
  · exact ⟨rfl, fun _ => rfl⟩
  · exact ⟨rfl, fun h => absurd h ‹_›⟩

theorem kin_mmod (m : SMap Warp) (w : Nat) {f : Warp → Warp} (hf : Warp.KeepsLate f) : Kin m (mmod m w f) := by
  refine ⟨sameHolders_mmod m w fun x => (hf x).1, fun v x hx hl => ?_⟩
  rw [mfind_mmod]
  by_cases hv : v = w
  · subst hv
    exact ⟨f x, by simp [hx], (hf x).2 hl⟩
  · exact ⟨x, by simp [hv, hx], rfl⟩

theorem State.kin_modWarp (s : State) (w : Nat) {f : Warp → Warp} (hf : Warp.KeepsLate f) : Kin s.warps (s.modWarp w f).warps :=
  kin_mmod _ _ hf

theorem State.kin_modWarps (s : State) (ws : List Nat) {f : Warp → Warp} (hf : Warp.KeepsLate f) :
    Kin s.warps (s.modWarps ws f).warps :=
  .foldl (fun s w => s.kin_modWarp w hf) ws s

theorem State.Checked.warps {s r : State} (h : State.Checked s r) : r.warps = s.warps := by rw [h.rest]

theorem State.Checked.kin {s r : State} (h : State.Checked s r) : Kin s.warps r.warps := h.warps ▸ .refl _

/-! ## Writes -/

theorem State.kin_ownWrite (s : State) (wr : Writer) (ls : List Nat) (pos : Nat) : Kin s.warps (s.ownWrite wr ls pos).warps :=
  kin_modWarps s _ fun _ => by split <;> exact ⟨rfl, fun _ => rfl⟩

theorem State.kin_writePiece (s : State) (wr : Writer) (rmw : Bool) (bs : List (Nat × Byte)) :
    Kin s.warps (s.writePiece wr rmw bs).warps :=
  kin_ownWrite { s with mem := s.mem.putPiece wr.rels rmw (bs.filter fun b => !s.discards b.1) } ..

theorem State.kin_performPiece (s : State) (wr : Writer) (rmw : Bool) (src : Nat) (bs : List (Nat × Byte)) :
    Kin s.warps (s.performPiece wr rmw src bs).warps :=
  (checked_checkWrites ..).kin.trans (kin_writePiece ..)

theorem State.kin_writePieces (s : State) (wr : Writer) (rmw : Bool) (n : Nat) (bs : List (Nat × Byte)) :
    Kin s.warps (s.writePieces wr rmw n bs).warps :=
  Kin.foldl (fun s g => s.kin_writePiece wr rmw g.2) (groupBy (fun b => b.1 / n) bs) s

theorem State.kin_performWrite (s : State) (wr : Writer) (rmw : Bool) (src n : Nat) (bs : List (Nat × Byte)) :
    Kin s.warps (s.performWrite wr rmw src n bs).warps :=
  (checked_checkWrites ..).kin.trans (kin_writePieces ..)

/-! ## Update-only lines and reads -/

theorem State.kin_flushULine (s : State) (u : ULine) : Kin s.warps (s.flushULine u).warps := by
  unfold flushULine
  refine .foldl (fun s e => ?_) _ s
  dsimp only
  have hc := (checked_checkReads s 0 (span e.1 (atomSize u.ty))).kin
  generalize s.checkReads 0 (span e.1 (atomSize u.ty)) = q at hc ⊢
  obtain ⟨s1, bad⟩ := q
  split
  · exact hc.trans (kin_performWrite (s1.carry _ true _) ..)
  · exact hc

theorem State.kin_flushWhere (s : State) (sel : Nat → ULine → Bool) : Kin s.warps (s.flushWhere sel).warps := by
  unfold flushWhere
  exact Kin.foldl (fun t k => Kin.foldl kin_flushULine _ (t.modCore k _)) _ { s with free := s.free + s.uCores.length }

theorem State.kin_recall (s : State) (ls : List Nat) : Kin s.warps (s.recall ls).warps := by
  unfold State.recall
  split
  · exact .refl _
  · exact kin_flushWhere ..

theorem State.kin_readHome (s : State) (src n : Nat) (fl : SMap Nat) (ls : List Nat) :
    Kin s.warps (s.readHome src n fl ls).1.warps :=
  (kin_recall s ls).trans
    (checked_checkReads (s.recall ls) src (ls.filter fun l => !(s.recall ls).offline (homeDie l))).kin

theorem State.kin_peekHome (s : State) (src : Nat) (ls : List Nat) : Kin s.warps (s.peekHome src ls).1.warps :=
  (kin_recall s ls).trans
    (checked_checkReads (s.recall ls) src (ls.filter fun l => !(s.recall ls).offline (homeDie l))).kin

theorem State.kin_hasRead (s : State) (ws : List Nat) (d : Rd) : Kin s.warps (s.hasRead ws d).warps :=
  kin_modWarps s _ fun _ => ⟨rfl, fun _ => rfl⟩

theorem State.kin_cacheL1 (s : State) (k : Nat) (ls : List Nat) (b : Bool) : Kin s.warps (s.cacheL1 k ls b).warps := by
  unfold cacheL1
  dsimp only
  split <;> exact .refl _

theorem State.kin_dropL1 (s : State) (k : Nat) (f : Nat → Bool) : Kin s.warps (s.dropL1 k f).warps := by
  unfold dropL1
  split <;> exact .refl _

theorem State.kin_checkL1 (s : State) (k u : Nat) : Kin s.warps (s.checkL1 k u).1.warps := by
  unfold checkL1
  dsimp only
  split
  · exact .refl _
  · exact .refl _
  · exact .refl _
  · exact .refl _
  · split <;> exact .refl _

theorem State.kin_checkL1s (s : State) (k : Nat) (ls : List Nat) : Kin s.warps (s.checkL1s k ls).1.warps := by
  unfold checkL1s
  split
  · exact .refl _
  · generalize unitsOf (ls.filter isDram) = us
    suffices h : ∀ acc : State × List Nat, Kin acc.1.warps (us.foldl (fun acc u =>
        let (s1, bad) := acc.1.checkL1 k u
        (s1, if bad then acc.2 ++ [u] else acc.2)) acc).1.warps from h (s, [])
    induction us with
    | nil => exact fun acc => .refl _
    | cons q qs ih =>
      intro acc
      rw [List.foldl_cons]
      exact (kin_checkL1 acc.1 k q).trans (ih (_, _))

theorem State.kin_warpRead (s : State) (w src n : Nat) (ls : List Nat) : Kin s.warps (s.warpRead w src n ls).1.warps := by
  unfold warpRead
  dsimp only
  have h1 := kin_checkL1s ((s.recall ls).carry w false (s.beyondL1 (s.coreOf w) ls)) (s.coreOf w) ls
  generalize ((s.recall ls).carry w false (s.beyondL1 (s.coreOf w) ls)).checkL1s (s.coreOf w) ls = q at h1 ⊢
  exact (((kin_recall s ls).trans h1).trans (kin_readHome q.1 src n _ ls)).trans (kin_hasRead ..)

theorem State.kin_readCounter (s : State) (ws : List Nat) (p : Word) (l : Nat) :
    Kin s.warps (s.readCounter ws p l).1.warps := by
  unfold readCounter
  dsimp only
  split <;> exact (kin_peekHome (s.carry (ws.headD 0) false (span l 8)) ..).trans (kin_hasRead ..)

theorem State.kin_counterAdd (s : State) (wr : Writer) (l inc : Nat) : Kin s.warps (s.counterAdd wr l inc).1.warps := by
  unfold counterAdd
  dsimp only
  split
  · exact kin_peekHome ..
  · exact (kin_peekHome s 0 (span l 8)).trans (kin_performPiece ..)

theorem State.kin_countUp (s : State) (wr : Writer) (p : Word) (l inc : Nat) : Kin s.warps (s.countUp wr p l inc).warps := by
  unfold countUp
  dsimp only
  refine (kin_counterAdd (s.carry (wr.ws.headD 0) true (span l 8)) wr l inc).trans (kin_modWarp _ _ fun x => ?_)
  have hr (t : LateTrap) := Warp.keepsLate_record t { x with stCnt := x.stCnt - 1 }
  split
  · exact hr _
  · split
    · exact hr _
    · exact ⟨rfl, fun _ => rfl⟩

/-! ## Operations in flight that take their place -/

theorem State.kin_bindLoad (s : State) (id : Nat) : Kin s.warps (s.bindLoad id).warps := by
  unfold bindLoad
  split
  · rename_i w a accs vals bound bad post fl hm
    dsimp only
    split
    · exact .refl _
    · generalize h0 : State.modWarp _ w _ = s0
      have h1 : Kin s.warps s0.warps := by
        subst h0
        exact (kin_dropL1 s _ _).trans (kin_modWarp _ _ fun _ => ⟨rfl, fun _ => rfl⟩)
      have h2 := h1.trans (kin_warpRead s0 w 0 (loadPiece accs) (loadDue accs bound post))
      generalize s0.warpRead w 0 (loadPiece accs) (loadDue accs bound post) = q at h2 ⊢
      generalize h3 : State.cacheL1 q.1 _ _ false = s2
      subst h3
      exact h2.trans (kin_cacheL1 ..)
  · exact .refl _

theorem State.kin_performCread (s : State) (id : Nat) : Kin s.warps (s.performCread id).warps := by
  unfold performCread
  split
  · rename_i w p l d hm
    have h1 := kin_readCounter s [w] p l
    generalize s.readCounter [w] p l = q at h1 ⊢
    exact h1
  · exact .refl _

theorem State.kin_performCsig (s : State) (id : Nat) : Kin s.warps (s.performCsig id).warps := by
  unfold performCsig
  split
  · dsimp only
    split
    · exact kin_countUp { s with pend := mdel s.pend id } ..
    · exact .refl _
  · exact .refl _

theorem State.kin_settlePend (s : State) (id : Nat) : Kin s.warps (s.settlePend id).warps :=
  ((kin_bindLoad s id).trans (kin_performCread _ id)).trans (kin_performCsig _ id)

theorem State.kin_flushOwn (s : State) (w id : Nat) (ls : List Nat) : Kin s.warps (s.flushOwn w id ls).warps := by
  unfold flushOwn
  split
  · exact .refl _
  · exact .foldl kin_settlePend _ s

theorem State.kin_settleReads (s : State) (w : Nat) : Kin s.warps (s.settleReads w).warps := by
  unfold settleReads
  refine .foldl (fun s e => ?_) _ s
  split
  · split
    · exact ((kin_flushOwn ..).trans (kin_bindLoad ..)).trans (kin_performCread ..)
    · exact .refl _
  · exact .refl _

theorem State.kin_settleAll (s : State) (ws : List Nat) : Kin s.warps (s.settleAll ws).warps := by
  unfold settleAll
  split
  · exact .refl _
  · exact .foldl kin_settleReads ws s

/-! ## Stores and releases -/

theorem State.kin_noteRel (s : State) (id : Nat) (ls : List Nat) : Kin s.warps (s.noteRel id ls).warps := by
  unfold noteRel
  split <;> exact .refl _

theorem State.kin_storeUnits (s : State) (id : Nat) (wr : Writer) (src n : Nat) (us : List (Word × List (Nat × Byte))) :
    Kin s.warps (s.storeUnits id wr src n us).warps := by
  unfold storeUnits
  dsimp only
  generalize us.flatMap (fun u => u.2.map (·.1)) = all
  generalize hs0 : List.foldl (fun s w => State.flushOwn s w id all) _ wr.ws = s0
  have h0 : Kin s.warps s0.warps := by
    subst hs0
    exact Kin.foldl (fun s w => kin_flushOwn s w id all) wr.ws (s.carry (wr.ws.headD 0) true all)
  refine h0.trans ((Kin.trans ?_ (Kin.foldl (fun s (u : Word × List (Nat × Byte)) => kin_writePieces s wr false n u.2) _ _)).trans (kin_noteRel ..))
  split
  · exact .refl _
  · exact (kin_recall ..).trans (checked_checkWrites ..).kin

theorem State.kin_store (s : State) (ws : List Nat) (src : Nat) (p : Word) (bs : List (Nat × Byte)) :
    Kin s.warps (s.store ws src p bs).warps := by
  unfold store
  dsimp only
  exact Kin.trans (kin_storeUnits s.fresh.2 ..) (kin_cacheL1 ..)

theorem State.kin_flushReds (s : State) (ws : List Nat) : Kin s.warps (s.flushReds ws).warps := by
  unfold flushReds
  split
  · exact .refl _
  · exact kin_flushWhere ..

theorem State.kin_joinMembers (s : State) (ws : List Nat) : Kin s.warps (s.joinMembers ws).warps := by
  unfold joinMembers
  split
  · exact .refl _
  · exact kin_modWarps _ _ fun _ => ⟨rfl, fun _ => rfl⟩

theorem State.cleanL1_warps (s : State) (k : Nat) (view : SMap Nat) : (s.cleanL1 k view).warps = s.warps := by
  unfold cleanL1
  dsimp only
  generalize List.map _ _ = us
  refine (State.Checked.foldl us (fun s u => s.setSector (32 * u) .poison) (fun s u => checked_setSector s _ _) _).warps

theorem State.kin_release (s : State) (ws : List Nat) (sc : MScope) : Kin s.warps (s.release ws sc).1.warps := by
  unfold release
  dsimp only
  refine Kin.trans ?_ (kin_modWarps _ _ fun _ => ⟨rfl, fun _ => rfl⟩)
  have h1 := ((kin_settleAll s ws).trans (kin_flushReds _ ws)).trans (kin_joinMembers _ ws)
  split
  · exact h1
  · rw [cleanL1_warps]
    exact h1

/-! ## Translations -/

theorem State.kin_tableEntry (s : State) (host : Bool) (va lvl tab : Nat) : Kin s.warps (s.tableEntry host va lvl tab).1.warps := by
  have h1 := kin_peekHome s 0 (span (tab + 8 * walkIndex lvl va) 8)
  unfold tableEntry
  dsimp only
  generalize s.peekHome 0 (span (tab + 8 * walkIndex lvl va) 8) = q at h1 ⊢
  split
  · exact h1.trans (checked_report ..).kin
  · split <;> exact h1

theorem State.kin_walk (host : Bool) (va : Nat) : ∀ (lvl : Nat) (s : State) (tab : Nat),
    Kin s.warps (s.walk host va lvl tab).1.warps := by
  intro lvl
  induction lvl with
  | zero =>
    intro s tab
    have h1 := kin_tableEntry s host va 0 tab
    unfold walk
    split <;> rename_i e <;> rw [e] at h1 <;> exact h1
  | succ n ih =>
    intro s tab
    have h1 := kin_tableEntry s host va (n + 1) tab
    unfold walk
    split <;> rename_i e <;> rw [e] at h1
    · exact h1
    · split
      · exact h1
      · exact h1.trans (ih _ _)

theorem State.kin_walked (s : State) (c : Nat) (host : Bool) (w : How) (p : Word) (va : Nat)
    (x : Except (Nat × Nat) (Word × Nat)) : Kin s.warps (s.walked c host w p va x).1.warps := by
  unfold walked
  split <;> exact .refl _

theorem State.kin_translate (s : State) (c : Nat) (host : Bool) (w : How) (p : Word) (va : Nat) :
    Kin s.warps (s.translate c host w p va).1.warps := by
  have h1 := kin_walk host va 3 s (if host then (s.ctx c).crec.hroot else (s.ctx c).crec.droot)
  unfold translate
  dsimp only
  generalize s.walk host va 3 (if host then (s.ctx c).crec.hroot else (s.ctx c).crec.droot) = q at h1 ⊢
  obtain ⟨s1, x⟩ := q
  dsimp only at h1 ⊢
  generalize s1.mem.tlbHits c host va = hits
  generalize List.all hits _ = all
  cases all
  · rw [if_neg (by simp)]
    split
    · exact h1
    · exact h1.trans (kin_walked s1.freshFree.2 ..)
  · exact h1.trans (kin_walked ..)

theorem State.kin_devByte (s : State) (c : Nat) (w : How) (p : Word) (va : Nat) : Kin s.warps (s.devByte c w p va).1.warps := by
  have h1 := kin_translate s c false w p va
  unfold devByte
  split <;> rename_i e <;> rw [e] at h1 <;> exact h1

end Sys2Proof.Machine

/-! SUPPORT. What cancelling passes, performing held writes and aborting journal steps may change (R265, R267, R272). -/

namespace Sys2Proof.Machine

/-! ## Tokens -/

@[simp] theorem Warp.writeToken_ctx (w : Warp) (b : Batch) : (w.writeToken b).ctx = w.ctx := by
  unfold writeToken
  cases b.mark <;> cases b.err <;> rfl

@[simp] theorem Warp.deliverAll_ctx (bs : List Batch) (w : Warp) : (w.deliverAll bs).ctx = w.ctx := by
  induction bs generalizing w with
  | nil => rfl
  | cons b bs ih =>
    unfold deliverAll
    split
    · rw [ih, writeToken_ctx]
    · rfl

@[simp] theorem Warp.complete_ctx (w : Warp) (seq : Nat) (f : Batch → Batch) : (w.complete seq f).ctx = w.ctx := by
  unfold complete
  split
  · rfl
  · dsimp only
    split
    · rfl
    · exact deliverAll_ctx ..

/-! ## The relation -/

/-- What firmware's and the engines' clean-up changes: memory with what is on its way to it, passes of regions, journals, and
warps wherever they are held, of which none appears under a new context. -/
structure State.Tended (s r : State) : Prop where
  rest    : r = { s with nextId := r.nextId, free := r.free, mem := r.mem, warps := r.warps, cores := r.cores, dies := r.dies
                         chans := r.chans, held := r.held, pend := r.pend, regions := r.regions, ctxs := r.ctxs, saves := r.saves }
  holders : SameHolders s.warps r.warps
  die     : ∀ d, r.die d = { s.die d with ecc := (r.die d).ecc }
  listed  : ∀ c, (mfind r.ctxs c).isSome = (mfind s.ctxs c).isSome
  ctx     : ∀ c, r.ctx c = { s.ctx c with jrn := (r.ctx c).jrn }
  regions : ∀ g ∈ r.regions, ∃ g' ∈ s.regions, g'.rows = g.rows ∧ g'.ctx = g.ctx ∧ ∀ p ∈ g.passes, ∃ p' ∈ g'.passes, p'.id = p.id
  saves   : r.saves.map (·.ctx) = s.saves.map (·.ctx)

section
variable {s r t : State}

theorem State.Tended.refl (s : State) : State.Tended s s :=
  ⟨rfl, .refl _, fun _ => rfl, fun _ => rfl, fun _ => rfl, fun g hg => ⟨g, hg, rfl, rfl, fun p hp => ⟨p, hp, rfl⟩⟩, rfl⟩

theorem State.Tended.trans (h : State.Tended s r) (h' : State.Tended r t) : State.Tended s t where
  rest := by
    have e := h'.rest
    rw [h.rest] at e
    exact e
  holders := h.holders.trans h'.holders
  die d := by
    have e := h'.die d
    rw [h.die d] at e
    exact e
  listed c := (h'.listed c).trans (h.listed c)
  ctx c := by
    have e := h'.ctx c
    rw [h.ctx c] at e
    exact e
  regions g hg := by
    obtain ⟨g1, hg1, e1, e2, hp1⟩ := h'.regions g hg
    obtain ⟨g2, hg2, e3, e4, hp2⟩ := h.regions g1 hg1
    refine ⟨g2, hg2, e3.trans e1, e4.trans e2, fun p hp => ?_⟩
    obtain ⟨p1, hp1, i1⟩ := hp1 p hp
    obtain ⟨p2, hp2, i2⟩ := hp2 p1 hp1
    exact ⟨p2, hp2, i2.trans i1⟩
  saves := h'.saves.trans h.saves

theorem State.Tended.foldl {α : Type} {f : State → α → State} (h : ∀ s x, State.Tended s (f s x)) (xs : List α) (s : State) :
    State.Tended s (xs.foldl f s) := by
  induction xs generalizing s with
  | nil => exact .refl s
  | cons x xs ih => exact (h s x).trans (ih _)

/-- Traffic whose warps are known as a list. -/
theorem State.Traffic.tended {P : Nat → Prop} (h : State.Traffic P s r) (hk : Kin s.warps r.warps) : State.Tended s r := by
  have hc : r.ctxs = s.ctxs := by rw [h.rest]
  refine ⟨?_, hk.toSameHolders, h.die, fun c => by rw [hc], fun c => ?_, fun g hg => ⟨g, ?_, rfl, rfl, fun p hp => ⟨p, hp, rfl⟩⟩, ?_⟩
  · have e := h.rest
    have hr : r.regions = s.regions := by rw [e]
    have hs : r.saves = s.saves := by rw [e]
    rw [hr, hc, hs]
    exact e
  · unfold State.ctx
    rw [hc]
  · rw [h.rest] at hg
    exact hg
  · rw [h.rest]

theorem State.Checked.tended (h : State.Checked s r) : State.Tended s r :=
  (h.traffic (P := fun _ => True)).tended h.kin

/-- Only memory and counters, and what is held or in flight, differ. -/
theorem State.Tended.of_mem (h : r = { s with nextId := r.nextId, free := r.free, mem := r.mem, held := r.held, pend := r.pend }) :
    State.Tended s r := by
  rw [h]
  exact ⟨rfl, .refl _, fun _ => rfl, fun _ => rfl, fun _ => rfl, fun g hg => ⟨g, hg, rfl, rfl, fun p hp => ⟨p, hp, rfl⟩⟩, rfl⟩

end

/-! ## Contexts, regions and warps -/

theorem State.tended_ctxs (s : State) (m : SMap Ctx) (hl : ∀ c, (mfind m c).isSome = (mfind s.ctxs c).isSome)
    (hc : ∀ c, mget {} m c = { s.ctx c with jrn := (mget {} m c : Ctx).jrn }) : State.Tended s { s with ctxs := m } :=
  ⟨rfl, .refl _, fun _ => rfl, hl, hc, fun g hg => ⟨g, hg, rfl, rfl, fun p hp => ⟨p, hp, rfl⟩⟩, rfl⟩

theorem State.tended_modCtx (s : State) (c : Nat) (f : Ctx → Ctx) (hf : ∀ x, f x = { x with jrn := (f x).jrn }) :
    State.Tended s (s.modCtx c f) := by
  refine tended_ctxs s _ (fun k => mfind_mmod_isSome ..) fun k => ?_
  rw [mget_eq_mfind, mfind_mmod, ctx, mget_eq_mfind]
  by_cases hk : k = c
  · subst hk
    rw [if_pos rfl]
    cases mfind s.ctxs k with
    | none => rfl
    | some x => exact hf x
  · rw [if_neg hk]

theorem mfind_map {α β : Type} (g : α → β) (m : SMap α) (k : Nat) :
    mfind (m.map fun e => (e.1, g e.2)) k = (mfind m k).map g := by
  induction m with
  | nil => rfl
  | cons e m ih =>
    obtain ⟨j, x⟩ := e
    simp only [List.map_cons, mfind]
    split
    · rfl
    · exact ih

theorem State.tended_mapCtxs (s : State) (f : Ctx → Ctx) (hf : ∀ x, f x = { x with jrn := (f x).jrn }) :
    State.Tended s { s with ctxs := s.ctxs.map fun e => (e.1, f e.2) } := by
  refine tended_ctxs s _ (fun k => by rw [mfind_map, Option.isSome_map]) fun k => ?_
  rw [mget_eq_mfind, mfind_map, ctx, mget_eq_mfind]
  cases mfind s.ctxs k with
  | none => rfl
  | some x => exact hf x

theorem State.tended_regions (s : State) (f : Region → Region)
    (hf : ∀ g, (f g).rows = g.rows ∧ (f g).ctx = g.ctx ∧ ∀ p ∈ (f g).passes, ∃ p' ∈ g.passes, p'.id = p.id) :
    State.Tended s { s with regions := s.regions.map f } := by
  refine ⟨rfl, .refl _, fun _ => rfl, fun _ => rfl, fun _ => rfl, fun g hg => ?_, rfl⟩
  obtain ⟨g', hg', rfl⟩ := List.mem_map.1 hg
  obtain ⟨e1, e2, hp⟩ := hf g'
  exact ⟨g', hg', e1.symm, e2.symm, hp⟩

theorem State.tended_modWarp (s : State) (w : Nat) {f : Warp → Warp} (hf : ∀ x, (f x).ctx = x.ctx) :
    State.Tended s (s.modWarp w f) :=
  ⟨rfl, sameHolders_mmod _ _ hf, fun _ => rfl, fun _ => rfl, fun _ => rfl, fun g hg => ⟨g, hg, rfl, rfl, fun p hp => ⟨p, hp, rfl⟩⟩, rfl⟩

theorem State.tended_modWarpAny (s : State) (w : Nat) {f : Warp → Warp} (hf : ∀ x, (f x).ctx = x.ctx) :
    State.Tended s (s.modWarpAny w f) := by
  unfold modWarpAny
  split
  · exact tended_modWarp s w hf
  · exact ⟨rfl, .refl _, fun _ => rfl, fun _ => rfl, fun _ => rfl, fun g hg => ⟨g, hg, rfl, rfl, fun p hp => ⟨p, hp, rfl⟩⟩,
      by simp only [List.map_map]; rfl⟩

/-! ## Held writes (R265) -/

theorem State.tended_flushOwn (s : State) (w id : Nat) (ls : List Nat) : State.Tended s (s.flushOwn w id ls) :=
  (traffic_flushOwn (P := fun _ => True) s w id ls fun _ _ => trivial).tended (kin_flushOwn ..)

theorem State.tended_recall (s : State) (ls : List Nat) : State.Tended s (s.recall ls) :=
  (traffic_recall (P := fun _ => True) s ls fun _ _ => trivial).tended (kin_recall ..)

theorem State.tended_performPiece (s : State) (wr : Writer) (rmw : Bool) (src : Nat) (bs : List (Nat × Byte)) :
    State.Tended s (s.performPiece wr rmw src bs) :=
  (traffic_performPiece (P := fun _ => True) s wr rmw src bs fun _ _ => trivial).tended (kin_performPiece ..)

theorem State.tended_performWrite (s : State) (wr : Writer) (rmw : Bool) (src n : Nat) (bs : List (Nat × Byte)) :
    State.Tended s (s.performWrite wr rmw src n bs) :=
  (traffic_performWrite (P := fun _ => True) s wr rmw src n bs fun _ _ => trivial).tended (kin_performWrite ..)

theorem State.tended_countUp (s : State) (wr : Writer) (p : Word) (l inc : Nat) : State.Tended s (s.countUp wr p l inc) :=
  (traffic_countUp (P := fun _ => True) s wr p l inc (fun _ _ => trivial) fun _ _ => trivial).tended (kin_countUp ..)

theorem State.tended_combineHome (s : State) (wr : Writer) (a : Args) (fp x : Word) (ls : List Nat) :
    State.Tended s (s.combineHome wr a fp x ls) := by
  have h1 : State.Tended s ((s.carry (wr.ws.headD 0) true ls).peekHome 0 ls).1 :=
    ((traffic_carry (P := fun _ => True) s _ true ls).trans (traffic_peekHome _ 0 ls fun _ _ => trivial)).tended
      (kin_peekHome (s.carry (wr.ws.headD 0) true ls) 0 ls)
  unfold combineHome
  dsimp only
  split
  · exact h1
  · exact h1.trans (tended_performPiece ..)

theorem State.tended_noteRel (s : State) (id : Nat) (ls : List Nat) : State.Tended s (s.noteRel id ls) := by
  unfold noteRel
  split
  · exact .of_mem rfl
  · exact .refl s

theorem State.tended_performHeld (s : State) (h : Held) : State.Tended s (s.performHeld h) := by
  unfold performHeld
  have h0 := State.Tended.foldl (fun s w => tended_flushOwn s w h.id (h.bytes.map (·.1))) h.wr.ws s
  dsimp only
  split
  · exact h0.trans (tended_countUp ..)
  · exact h0.trans (tended_combineHome ..)
  · exact ((h0.trans (tended_recall ..)).trans (tended_performWrite ..)).trans (tended_noteRel ..)

theorem State.tended_noteViews (s : State) (ids ls : List Nat) : State.Tended s (s.noteViews ids ls) := by
  unfold noteViews
  split
  · exact .refl s
  · refine tended_regions s _ fun g => ⟨rfl, rfl, fun p hp => ?_⟩
    obtain ⟨p', hp', rfl⟩ := List.mem_map.1 hp
    refine ⟨p', hp', ?_⟩
    split <;> rfl

theorem State.tended_releaseHeld (s : State) : State.Tended s s.releaseHeld := by
  unfold releaseHeld
  refine State.Tended.trans ?_ (.foldl (fun s h => (tended_performHeld s h).trans (tended_noteViews ..)) _ _)
  exact .of_mem rfl

theorem State.tended_unhold (s : State) (id : Nat) (row : Nat → Bool) : State.Tended s (s.unhold id row) := by
  unfold unhold
  refine State.Tended.trans ?_ (tended_releaseHeld _)
  exact .of_mem rfl

/-! ## Passes (R267) -/

theorem State.tended_dropPass (s : State) (id : Nat) : State.Tended s (s.dropPass id) :=
  tended_regions s _ fun _ => ⟨rfl, rfl, fun p hp => ⟨p, (List.mem_filter.1 hp).1, rfl⟩⟩

theorem State.tended_jrnDone (s : State) (id : Nat) : State.Tended s (s.jrnDone id) :=
  tended_mapCtxs s (fun x => { x with jrn := { x.jrn with ops := x.jrn.ops.filter (· != id) } }) fun _ => rfl

/-- Cancelling a pass, after the pass has left its region. -/
theorem State.tended_cancelRest (s : State) (p : Pass) : State.Tended (s.dropPass p.id) (s.cancelPass p) := by
  unfold cancelPass
  extract_lets s1 s2
  have h1 : State.Tended (s.dropPass p.id) s1 :=
    State.Tended.trans (r := (s.dropPass p.id).unpost p.id (fun _ => true) []) (.of_mem rfl) (tended_unhold ..)
  have h2 : State.Tended s1 s2 := .of_mem rfl
  exact ((h1.trans h2).trans (tended_modWarpAny s2 p.w fun x => by simp only [Warp.complete_ctx])).trans (tended_jrnDone ..)

theorem State.tended_cancelPass (s : State) (p : Pass) : State.Tended s (s.cancelPass p) :=
  (tended_dropPass s p.id).trans (tended_cancelRest s p)

/-! ## The journal (R272) -/

theorem State.tended_bankWrote (s : State) (ls : List Nat) : State.Tended s (s.bankWrote ls) := .of_mem rfl

theorem State.tended_jrnRestoreRow (s : State) (row : Nat) (x : List Byte × List Nat) : State.Tended s (s.jrnRestoreRow row x) := by
  unfold jrnRestoreRow
  dsimp only
  split
  · exact (checked_poisonUnits ..).tended
  · exact (((tended_recall ..).trans (tended_performPiece ..)).trans (checked_poisonUnits ..).tended).trans (tended_bankWrote ..)

theorem State.tended_jrnRestore (s : State) (c : Nat) : State.Tended s (s.jrnRestore c) := by
  unfold jrnRestore
  refine State.Tended.trans (.foldl (fun t e => ?_) _ s) (tended_modCtx _ c _ fun _ => rfl)
  split
  · exact .refl t
  · exact tended_jrnRestoreRow ..

theorem State.tended_jrnCancel (s : State) (c : Nat) : State.Tended s (s.jrnCancel c) := by
  unfold jrnCancel
  refine State.Tended.trans (.foldl tended_cancelPass _ s) (.foldl (fun t e => ?_) _ _)
  split
  · split
    · refine State.Tended.trans (r := { t with pend := mdel t.pend e.1 }) (.of_mem rfl) ?_
      exact State.Tended.trans (tended_modWarpAny _ _ fun x => by simp only [Warp.complete_ctx]) (tended_jrnDone ..)
    · exact .refl t
  · exact .refl t

theorem State.tended_jrnHwAbort (s : State) (c : Nat) : State.Tended s (s.jrnHwAbort c) := by
  unfold jrnHwAbort
  split
  · exact ((tended_jrnCancel s c).trans (tended_jrnRestore ..)).trans (tended_modCtx _ c _ fun _ => rfl)
  · exact .refl s

end Sys2Proof.Machine

/-! SUPPORT. What firmware writes on its own account: no warp of the device is its writer (R315, R322). -/

namespace Sys2Proof.Machine
open Claims (NoULines RowsKnown)

variable {P : Nat → Prop} {s r t : State}

/-! ## The relation -/

/-- Only memory with its error records and cached translations, and counters of free values, differ; bytes only at `P`. -/
structure State.Stored (P : Nat → Prop) (s r : State) : Prop where
  rest : r = { s with mem := r.mem, chans := r.chans, dies := r.dies, free := r.free }
  die  : ∀ d, r.die d = { s.die d with ecc := (r.die d).ecc }
  byte : ∀ l, ¬P l → r.mem.byte l = s.mem.byte l

theorem State.Stored.refl (s : State) : State.Stored P s s := ⟨rfl, fun _ => rfl, fun _ _ => rfl⟩

theorem State.Stored.trans (h : State.Stored P s r) (h' : State.Stored P r t) : State.Stored P s t where
  rest := by
    have e := h'.rest
    rw [h.rest] at e
    exact e
  die d := by
    have e := h'.die d
    rw [h.die d] at e
    exact e
  byte l hl := (h'.byte l hl).trans (h.byte l hl)

theorem State.Stored.foldl {α : Type} (xs : List α) (f : State → α → State) (h : ∀ s, ∀ x ∈ xs, State.Stored P s (f s x)) (s : State) :
    State.Stored P s (xs.foldl f s) := by
  induction xs generalizing s with
  | nil => exact .refl s
  | cons x xs ih => exact (h s x (List.mem_cons_self ..)).trans (ih (fun s y hy => h s y (List.mem_cons_of_mem _ hy)) _)

theorem State.Checked.stored (h : State.Checked s r) : State.Stored P s r :=
  ⟨h.rest, h.die, fun l _ => by rw [h.mem]; rfl⟩

theorem State.Stored.noULines (h : State.Stored P s r) (hu : NoULines s) : NoULines r := by
  rw [h.rest]
  exact hu

/-! ## Writes -/

theorem State.stored_writePiece (s : State) (rmw : Bool) {bs : List (Nat × Byte)} (h : ∀ b ∈ bs, P b.1) :
    State.Stored P s (s.writePiece {} rmw bs) := by
  refine ⟨rfl, fun _ => rfl, fun l hl => writePiece_byte s {} rmw fun hm => hl ?_⟩
  obtain ⟨b, hb, rfl⟩ := List.mem_map.1 hm
  exact h b hb

theorem State.stored_performWrite (s : State) (rmw : Bool) (src n : Nat) {bs : List (Nat × Byte)} (h : ∀ b ∈ bs, P b.1) :
    State.Stored P s (s.performWrite {} rmw src n bs) :=
  (checked_checkWrites ..).stored.trans
    (State.Stored.foldl _ _ (fun s _ hg => stored_writePiece s rmw fun b hb => h b (mem_groupBy hg hb)) _)

/-! ## Translations where no core holds update-only lines -/

theorem State.stored_tableEntry (hu : NoULines s) (host : Bool) (va lvl tab : Nat) :
    State.Stored P s (s.tableEntry host va lvl tab).1 := by
  have h1 := checked_peekHome hu 0 (span (tab + 8 * walkIndex lvl va) 8)
  unfold tableEntry
  dsimp only
  generalize s.peekHome 0 (span (tab + 8 * walkIndex lvl va) 8) = q at h1 ⊢
  split
  · exact (h1.trans (checked_report ..)).stored
  · split <;> exact h1.stored

theorem State.stored_walk (host : Bool) (va : Nat) : ∀ (lvl : Nat) (s : State) (tab : Nat), NoULines s →
    State.Stored P s (s.walk host va lvl tab).1 := by
  intro lvl
  induction lvl with
  | zero =>
    intro s tab hu
    have h1 := stored_tableEntry (P := P) hu host va 0 tab
    unfold walk
    split <;> rename_i e <;> rw [e] at h1 <;> exact h1
  | succ n ih =>
    intro s tab hu
    have h1 := stored_tableEntry (P := P) hu host va (n + 1) tab
    unfold walk
    split <;> rename_i e <;> rw [e] at h1
    · exact h1
    · split
      · exact h1
      · exact h1.trans (ih _ _ (h1.noULines hu))

theorem State.stored_walked (s : State) (c : Nat) (host : Bool) (h : How) (p : Word) (va : Nat)
    (x : Except (Nat × Nat) (Word × Nat)) : State.Stored P s (s.walked c host h p va x).1 := by
  unfold walked
  split
  · refine ⟨rfl, fun _ => rfl, fun l _ => ?_⟩
    unfold Mem.tlbFill
    dsimp only
    split <;> rfl
  · exact .refl _
  · exact .refl _

theorem State.stored_translate (hu : NoULines s) (c : Nat) (host : Bool) (h : How) (p : Word) (va : Nat) :
    State.Stored P s (s.translate c host h p va).1 := by
  have h1 := stored_walk (P := P) host va 3 s (if host then (s.ctx c).crec.hroot else (s.ctx c).crec.droot) hu
  unfold translate
  dsimp only
  generalize s.walk host va 3 (if host then (s.ctx c).crec.hroot else (s.ctx c).crec.droot) = q at h1 ⊢
  obtain ⟨s1, x⟩ := q
  dsimp only at h1 ⊢
  generalize s1.mem.tlbHits c host va = hits
  generalize List.all hits _ = all
  have hf : State.Stored P s s1.freshFree.2 := h1.trans ⟨rfl, fun _ => rfl, fun _ _ => rfl⟩
  cases all
  · rw [if_neg (by simp)]
    split
    · exact hf
    · exact hf.trans (stored_walked ..)
  · exact h1.trans (stored_walked ..)

theorem State.stored_devByte (hu : NoULines s) (c : Nat) (h : How) (p : Word) (va : Nat) :
    State.Stored P s (s.devByte c h p va).1 := by
  have h1 := stored_translate (P := P) hu c false h p va
  unfold devByte
  split <;> rename_i e <;> rw [e] at h1 <;> exact h1

theorem State.stored_recByte (hu : NoULines s) (c : Nat) (h : How) (p : Word) : State.Stored P s (s.recByte c h p).1 := by
  have h1 := stored_devByte (P := P) hu c h p (p.extractLsb' 0 48).toNat
  unfold recByte
  dsimp only
  split
  · exact .refl _
  · split
    · split
      · exact .refl _
      · split <;> exact .refl _
    · split <;> rename_i e <;> rw [e] at h1 <;> exact h1

theorem State.stored_recLocs (hu : NoULines s) (c : Nat) (h : How) (p : Word) (n : Nat) :
    State.Stored P s (s.recLocs c h p n).1 := by
  induction n with
  | zero => exact .refl _
  | succ n ih =>
    unfold recLocs
    split <;> rename_i e <;> rw [e] at ih
    · exact ih
    · rename_i s1 ls
      have h2 := ih.trans (stored_recByte (ih.noULines hu) c h (p + BitVec.ofNat 64 n))
      split <;> rename_i e2 <;> rw [e2] at h2 <;> exact h2

/-! ## Records (R322, R323) -/

theorem State.fwWrite_zero (s : State) {p : Word} (hp : p = 0) (bs : List Byte) : s.fwWrite p bs = s := by
  subst hp
  rfl

theorem State.fwWrite_ok {p : Word} {bs : List Byte} {ls : List Nat} {s1 : State} (hp : p ≠ 0)
    (h : s.recLocs 0 { write := true } p bs.length = (s1, .ok ls)) :
    s.fwWrite p bs = (s1.recall ls).performWrite {} false 4 8 (ls.zip bs) := by
  unfold fwWrite
  rw [if_neg (by simpa using hp), h]

theorem State.stored_fwWrite (hu : NoULines s) (p : Word) (bs : List Byte) : State.Stored (fun _ => True) s (s.fwWrite p bs) := by
  have h1 := stored_recLocs (P := fun _ => True) hu 0 { write := true } p bs.length
  unfold fwWrite
  split
  · exact .refl _
  · split <;> rename_i e <;> rw [e] at h1
    · rename_i s1 ls
      rw [recall_noULines (h1.noULines hu)]
      exact h1.trans (stored_performWrite _ _ _ _ fun _ _ => trivial)
    · exact h1

/-- Writing the record itself. -/
def State.putRecord (s : State) (x : CtxRec) : State :=
  s.performWrite {} false 4 8 ((span (s.recordAt x.ctx) 256).zip (recordBytes x))

theorem State.stored_putRecord (s : State) (x : CtxRec) :
    State.Stored (· ∈ span (s.recordAt x.ctx) 256) s (s.putRecord x) :=
  stored_performWrite s false 4 8 fun _ hb => mem_zip_left hb

theorem State.Stored.mono {Q : Nat → Prop} (h : State.Stored P s r) (hq : ∀ l, P l → Q l) : State.Stored Q s r :=
  ⟨h.rest, h.die, fun l hl => h.byte l fun hp => hl (hq l hp)⟩

theorem State.keepRecord_plain (s : State) {x : CtxRec} (hv : x.vgrantAt = 0) (hp : x.peersAt = 0) :
    s.keepRecord x = s.putRecord x := by
  unfold keepRecord
  rw [fwWrite_zero _ hp, fwWrite_zero _ hv]
  rfl

theorem State.stored_keepRecord (hu : NoULines s) (x : CtxRec) : State.Stored (fun _ => True) s (s.keepRecord x) := by
  have h1 := (s.stored_putRecord x).mono (Q := fun _ => True) fun _ _ => trivial
  have h2 := h1.trans (stored_fwWrite (h1.noULines hu) x.vgrantAt (vaultTable x))
  exact h2.trans (stored_fwWrite (h2.noULines hu) x.peersAt (peerMask x))

end Sys2Proof.Machine

/-! SUPPORT. Granting cores, and what the boot leaves (R305, R315, R324). -/

namespace Sys2Proof.Machine
open Claims (NoULines RowsKnown)

/-! ## Granting cores -/

/-- What a core is for the context that a record grants it to. -/
def Core.granted (x : CtxRec) (timer : Nat) (c : Core) : Core :=
  { c with events := [], luClocks := 0, idleFrom := timer, owner := some x.ctx, l1sz := x.l1sz.toNat
           level := (x.ebudget.extractLsb' 0 24).toNat }

/-- Granting some cores to a record's context changes them alone, and what contexts have used. -/
structure State.Granted (x : CtxRec) (ks : List Nat) (s r : State) : Prop where
  rest   : r = { s with cores := r.cores, ctxs := r.ctxs, sysFj := r.sysFj }
  core   : ∀ k, r.core k = if k ∈ ks then (s.core k).granted x s.timer else s.core k
  listed : ∀ c, (mfind r.ctxs c).isSome = (mfind s.ctxs c).isSome
  ctx    : ∀ c, r.ctx c = { s.ctx c with fineFj := (r.ctx c).fineFj }
  uLines : NoULines s → NoULines r

theorem mem_mset {α : Type} [DecidableEq α] {d : α} {m : SMap α} {k : Nat} {x : α} {e : Nat × α} (h : e ∈ mset d m k x) :
    e = (k, x) ∨ e ∈ m := by
  unfold mset at h
  split at h
  · exact .inr (mem_mdel h)
  · exact mem_mins h

theorem mget_mem_or {α : Type} (d : α) (m : SMap α) (k : Nat) : mget d m k = d ∨ (k, mget d m k) ∈ m := by
  rw [mget_eq_mfind]
  cases h : mfind m k with
  | none => exact .inl rfl
  | some x => exact .inr (mem_of_mfind h)

theorem noULines_core {s : State} (h : NoULines s) (k : Nat) : (s.core k).uLines = [] := by
  rcases mget_mem_or {} s.cores k with e | e
  · unfold State.core
    rw [e]
  · exact h _ e

theorem noULines_modCore {s : State} (h : NoULines s) (k : Nat) {f : Core → Core} (hf : (f (s.core k)).uLines = (s.core k).uLines) :
    NoULines (s.modCore k f) := by
  intro e he
  rcases mem_mset he with rfl | he
  · exact hf.trans (noULines_core h k)
  · exact h e he

theorem noULines_meterCore {s : State} (h : NoULines s) (k : Nat) : NoULines (s.meterCore k) := by
  have h1 := noULines_modCore h k (f := fun c => { c with events := [], luClocks := 0, idleFrom := s.timer }) rfl
  unfold State.meterCore
  dsimp only
  split <;> exact h1

/-- One core is granted. -/
def State.grantCore (s : State) (x : CtxRec) (k : Nat) : State :=
  (s.meterCore k).modCore k fun c =>
    { c with owner := some x.ctx, l1sz := x.l1sz.toNat, level := (x.ebudget.extractLsb' 0 24).toNat }

theorem State.granted_grantCore (s : State) (x : CtxRec) (k : Nat) : State.Granted x [k] s (s.grantCore x k) := by
  have hm := s.metered_meterCore k
  refine ⟨?_, fun j => ?_, hm.listed, hm.ctx, fun h => noULines_modCore (noULines_meterCore h k) k rfl⟩
  · have e := hm.rest
    unfold grantCore modCore
    rw [e]
  · unfold grantCore
    rw [modCore_core]
    by_cases hj : j = k
    · subst hj
      rw [if_pos rfl, if_pos (List.mem_singleton_self _), hm.core, if_pos (List.mem_singleton_self _)]
      rfl
    · rw [if_neg hj, if_neg (by simpa using hj), hm.core, if_neg (by simpa using hj)]

theorem State.Granted.cons {x : CtxRec} {k : Nat} {ks : List Nat} {s r t : State} (h : State.Granted x [k] s r)
    (h' : State.Granted x ks r t) : State.Granted x (k :: ks) s t where
  rest := by
    have e := h'.rest
    rw [h.rest] at e
    exact e
  core j := by
    have ht : r.timer = s.timer := by rw [h.rest]
    rw [h'.core, h.core, ht]
    by_cases hk : j = k
    · subst hk
      by_cases hj : j ∈ ks <;> simp [hj, Core.granted]
    · simp [hk]
  listed c := (h'.listed c).trans (h.listed c)
  ctx c := by
    have e := h'.ctx c
    rw [h.ctx c] at e
    exact e
  uLines h0 := h'.uLines (h.uLines h0)

theorem State.granted_foldl (x : CtxRec) (ks : List Nat) (s : State) :
    State.Granted x ks s (ks.foldl (fun s k => s.grantCore x k) s) := by
  induction ks generalizing s with
  | nil => exact ⟨rfl, fun _ => (if_neg List.not_mem_nil).symm, fun _ => rfl, fun _ => rfl, id⟩
  | cons k ks ih => exact (granted_grantCore s x k).cons (ih _)

theorem State.granted_grantCores (s : State) (x : CtxRec) : State.Granted x x.cores s (s.grantCores x) := granted_foldl x x.cores s

/-! ## Zeroing (R324) -/

theorem mfind_mdelRange {α : Type} (m : SMap α) (lo hi k : Nat) :
    mfind (mdelRange m lo hi) k = if lo ≤ k ∧ k < hi then none else mfind m k := by
  induction m with
  | nil => simp [mdelRange, mfind]
  | cons e m ih =>
    obtain ⟨j, x⟩ := e
    unfold mdelRange at ih ⊢
    by_cases hj : lo ≤ j ∧ j < hi
    · rw [List.filter_cons_of_neg (by simpa using hj), ih]
      by_cases hk : k = j
      · subst hk
        rw [if_pos hj, if_pos hj]
      · simp only [mfind, if_neg hk]
    · rw [List.filter_cons_of_pos (by simpa [imp_iff_not_or] using hj)]
      by_cases hk : k = j
      · subst hk
        simp only [mfind, if_pos, if_neg hj]
      · simp only [mfind, if_neg hk, ih]

theorem Mem.scrub_byte (m : Mem) (lo n l : Nat) : (m.scrub lo n).byte l = if lo ≤ l ∧ l < lo + n then 0 else m.byte l := by
  unfold byte scrub
  dsimp only
  rw [mget_eq_mfind, mfind_mdelRange]
  split
  · rfl
  · exact (mget_eq_mfind ..).symm

theorem State.noULines_zeroAll (s : State) : NoULines s.zeroAll := by
  intro e he
  obtain ⟨e', -, rfl⟩ := List.mem_map.1 he
  rfl

/-! ## The memory of the boot -/

theorem State.stored_writeInit (s : State) (xs : List (Nat × List Byte)) :
    State.Stored (fun l => ∃ e ∈ xs, l ∈ span e.1 e.2.length) s (s.writeInit xs) := by
  unfold writeInit
  refine State.Stored.foldl _ _ (fun s e he => ?_) s
  split
  · exact .refl s
  · refine ⟨rfl, fun _ => rfl, fun l hl => Mem.putPiece_byte s.mem [] false _ l fun hm => hl ⟨e, he, ?_⟩⟩
    obtain ⟨b, hb, rfl⟩ := List.mem_map.1 hm
    exact mem_zip_left hb

/-! ## The dies -/

theorem State.modDie_die_eq (s : State) (d : Nat) (f : Die → Die) (k : Nat) :
    (s.modDie d f).die k = if k = d then f (s.die d) else s.die k := mget_mset ..

/-- Putting dies on line. -/
theorem State.online_foldl (ds : List Nat) (s : State) :
    let t := ds.foldl (fun s d => s.modDie d fun x => { x with st := .online }) s
    t = { s with dies := t.dies } ∧ ∀ d, t.die d = if d ∈ ds then { s.die d with st := .online } else s.die d := by
  induction ds generalizing s with
  | nil => exact ⟨rfl, fun _ => (if_neg List.not_mem_nil).symm⟩
  | cons d ds ih =>
    obtain ⟨hr, hd⟩ := ih (s.modDie d fun x => { x with st := .online })
    rw [List.foldl_cons]
    generalize List.foldl _ _ ds = t at hr hd
    refine ⟨hr, fun k => ?_⟩
    rw [hd, modDie_die_eq]
    by_cases hk : k = d
    · subst hk
      by_cases hm : k ∈ ds <;> simp [hm]
    · simp [hk]

/-! ## The boot (R315) -/

/-- The record of context 0. -/
def ownRec (cfg : FwConfig) : CtxRec := { cfg.own with ctx := 0, priv := true }

/-- The state of a boot whose image has passed, before anything is written to memory. -/
def State.bootStart (s : State) (cfg : FwConfig) : State :=
  let s1 := { s with
    island := { s.island.measureBoot cfg with boot := .running, fw := cfg }
    bound := cfg.bound.foldl (fun (m : SMap Nat) (e : Nat × Nat) => mins m e.1 e.2) [] }
  let s2 := (List.range 4).foldl (fun s d => s.modDie d fun x => { x with st := .online }) s1.zeroAll
  { s2 with ctxs := mins s2.ctxs 0 (freshCtx (ownRec cfg)) }

theorem State.boot_ok {s : State} {cfg : FwConfig} (h : imgOk s.island.flash = true) :
    s.boot cfg = (((s.bootStart cfg).grantCores (ownRec cfg)).writeInit cfg.init).keepRecord (ownRec cfg) := by
  unfold boot
  rw [if_pos h]
  rfl

theorem State.boot_recovery {s : State} {cfg : FwConfig} (h : imgOk s.island.flash = false) :
    s.boot cfg = { s with island := { s.island with boot := .recovery } } := by
  unfold boot
  rw [h]
  rfl

/-- What a boot leaves whose image has passed: its cold parts stand, every die is on line, context 0 exists, and UBS and vaults
hold zeros but for what firmware writes. -/
structure State.Booted (cfg : FwConfig) (s t : State) : Prop where
  rest  : t = { s with
    island := { s.island.measureBoot cfg with boot := .running, fw := cfg }
    bound := t.bound, mem := t.mem, cores := t.cores, ctxs := t.ctxs, sysFj := t.sysFj, dies := t.dies, chans := t.chans, free := t.free }
  die   : ∀ d, (t.die d).st = (if d < 4 then .online else (s.die d).st) ∧ (t.die d).wear = (s.die d).wear
  own   : ∃ x, mfind t.ctxs 0 = some x ∧ x.crec = (ownRec cfg)
  ctxs  : ∀ c, c ≠ 0 → (mfind t.ctxs c).isSome = (mfind s.ctxs c).isSome
  zeros : cfg.own.vgrantAt = 0 → cfg.own.peersAt = 0 → ∀ l, 2 ^ 40 ≤ l → l < 2 ^ 51 → l ∉ span cfg.recAt 256 →
    (∀ e ∈ cfg.init, l ∉ span e.1 e.2.length) → t.mem.byte l = 0

theorem State.bootStart_rest (s : State) (cfg : FwConfig) :
    let t := s.bootStart cfg
    t = { s with
      island := { s.island.measureBoot cfg with boot := .running, fw := cfg }
      bound := t.bound, mem := s.mem.scrub (2 ^ 40) (2 ^ 51 - 2 ^ 40), cores := s.cores.map fun e => (e.1, e.2.scrubbed)
      ctxs := mins s.ctxs 0 (freshCtx (ownRec cfg)), dies := t.dies } ∧
    ∀ d, t.die d = if d < 4 then { s.die d with st := .online } else s.die d := by
  intro t
  obtain ⟨hr, hd⟩ := online_foldl (List.range 4) ({ s with
    island := { s.island.measureBoot cfg with boot := .running, fw := cfg }
    bound := cfg.bound.foldl (fun (m : SMap Nat) (e : Nat × Nat) => mins m e.1 e.2) [] } : State).zeroAll
  refine ⟨?_, fun d => (hd d).trans (by simp only [List.mem_range]; rfl)⟩
  subst t
  unfold bootStart
  dsimp only
  rw [hr]
  rfl

theorem State.booted_boot {s : State} {cfg : FwConfig} (h : imgOk s.island.flash = true) : State.Booted cfg s (s.boot cfg) := by
  obtain ⟨hr, hd⟩ := s.bootStart_rest cfg
  rw [boot_ok h]
  have hg := granted_grantCores (s.bootStart cfg) (ownRec cfg)
  have hw := stored_writeInit ((s.bootStart cfg).grantCores (ownRec cfg)) cfg.init
  have hu0 : NoULines (s.bootStart cfg) := by
    rw [hr]
    exact noULines_zeroAll s
  have hu := hw.noULines (hg.uLines hu0)
  have hk := stored_keepRecord hu (ownRec cfg)
  have hz : cfg.own.vgrantAt = 0 → cfg.own.peersAt = 0 →
      State.Stored (· ∈ span cfg.recAt 256) (((s.bootStart cfg).grantCores (ownRec cfg)).writeInit cfg.init)
        ((((s.bootStart cfg).grantCores (ownRec cfg)).writeInit cfg.init).keepRecord (ownRec cfg)) := fun hv hp => by
    rw [keepRecord_plain _ (x := (ownRec cfg)) hv hp]
    refine (stored_putRecord _ (ownRec cfg)).mono fun l hl => ?_
    have hf : (((s.bootStart cfg).grantCores (ownRec cfg)).writeInit cfg.init).island.fw = cfg := by
      rw [hw.rest, hg.rest, hr]
    unfold recordAt at hl
    rw [hf] at hl
    exact hl
  generalize s.bootStart cfg = s1 at *
  generalize s1.grantCores (ownRec cfg) = s2 at *
  generalize s2.writeInit cfg.init = s3 at *
  generalize s3.keepRecord (ownRec cfg) = t at *
  refine ⟨?_, fun d => ?_, ?_, fun c hc => ?_, fun hv hp l h1 h2 h3 h4 => ?_⟩
  · rw [hk.rest, hw.rest, hg.rest, hr]
  · have e2 : s2.die d = s1.die d := by rw [hg.rest]; rfl
    rw [hk.die, hw.die, e2, hd]
    split <;> exact ⟨rfl, rfl⟩
  · have e1 : t.ctxs = s2.ctxs := by rw [hk.rest, hw.rest]
    have h0 : mfind s1.ctxs 0 = some (freshCtx (ownRec cfg)) := by
      rw [hr]
      exact mfind_mins_self ..
    obtain ⟨x, hx⟩ := Option.isSome_iff_exists.1 ((hg.listed 0).trans (by rw [h0]; rfl))
    refine ⟨x, by rw [e1, hx], ?_⟩
    have e2 := hg.ctx 0
    unfold ctx at e2
    rw [mget_eq_mfind, mget_eq_mfind, hx, h0] at e2
    exact congrArg Ctx.crec e2
  · have e1 : t.ctxs = s2.ctxs := by rw [hk.rest, hw.rest]
    rw [e1, hg.listed, hr]
    exact congrArg _ (mfind_mins_ne _ _ hc)
  · rw [(hz hv hp).byte l h3, hw.byte l fun ⟨e, he, hl⟩ => h4 e he hl]
    have e1 : s2.mem = s.mem.scrub (2 ^ 40) (2 ^ 51 - 2 ^ 40) := by rw [hg.rest, hr]
    rw [e1, Mem.scrub_byte, if_pos ⟨h1, by omega⟩]

end Sys2Proof.Machine

/-! SUPPORT. Start-up: the measurements, the cold boot, a recovery load and a device reset (R315, R317, R318, R326). -/

namespace Sys2Proof.Machine
open Claims

/-! ## Measurements (R318) -/

theorem Island.measureBoot_mr (i : Island) (cfg : FwConfig) :
    (i.measureBoot cfg).mr 0 = extended (i.mr 0) Config.romDigest ∧ (i.measureBoot cfg).mr 1 = extended (i.mr 1) (imgDigest i.flash) ∧
    (i.measureBoot cfg).mr 2 = extended (i.mr 2) cfg.mr2 ∧ (i.measureBoot cfg).mr 3 = extended (i.mr 3) cfg.mr3 ∧
    ∀ n, 3 < n → (i.measureBoot cfg).mr n = i.mr n := by
  unfold measureBoot
  refine ⟨by simp [extend_mr], by simp [extend_mr], by simp [extend_mr], by simp [extend_mr], fun n hn => ?_⟩
  have h0 : n ≠ 0 := by omega
  have h1 : n ≠ 1 := by omega
  have h2 : n ≠ 2 := by omega
  have h3 : n ≠ 3 := by omega
  simp only [extend_mr, if_neg h0, if_neg h1, if_neg h2, if_neg h3]

/-! ## Power-on (R315) -/

theorem exec_powerOn {s : State} (h : s.island.boot = .cold) (cfg : FwConfig) : exec (.powerOn cfg) s = .next (s.boot cfg) := by
  change execPowerOn cfg s = _
  unfold execPowerOn
  rw [if_pos h]

theorem exec_powerOn_warm {s : State} (h : s.island.boot ≠ .cold) (cfg : FwConfig) : exec (.powerOn cfg) s = .next s := by
  change execPowerOn cfg s = _
  unfold execPowerOn
  rw [if_neg h]

/-! ## A device reset (R326) -/

/-- The state in which a device reset and its boot have been answered. -/
theorem exec_deviceReset {r : Requester} {s : State} (h : s.mayManage r = true) (cfg : FwConfig) :
    exec (.deviceReset r cfg) s = .next ((s.afterDeviceReset.boot cfg).reply .done []) := by
  change execDeviceReset r cfg s = _
  unfold execDeviceReset
  rw [h]
  rfl

theorem exec_deviceReset_other {r : Requester} {s : State} (h : s.mayManage r = false) (cfg : FwConfig) :
    exec (.deviceReset r cfg) s = .next s := by
  change execDeviceReset r cfg s = _
  unfold execDeviceReset
  rw [h]
  rfl

theorem State.afterDeviceReset_die (s : State) (d : Nat) :
    (s.afterDeviceReset.die d).st = .reset ∧ (s.afterDeviceReset.die d).wear = (s.die d).wear := by
  unfold die afterDeviceReset
  dsimp only
  rw [mget_eq_mfind, mget_eq_mfind, mfind_map (fun x : Die => ({ wear := x.wear, wearAt := s.timer, wearNs := x.boosted s.timer } : Die))]
  cases mfind s.dies d <;> exact ⟨rfl, rfl⟩

/-- What every boot after a device reset leaves empty or as it was. -/
theorem State.deviceReset_empties (s : State) (cfg : FwConfig) :
    let t := (s.afterDeviceReset.boot cfg).reply .done []
    t.timer = s.timer ∧ t.warps = [] ∧ t.blocks = [] ∧ t.pend = [] ∧ t.held = [] ∧ t.regions = [] ∧ t.island.resets = [] ∧
    (∀ d, (t.die d).wear = (s.die d).wear) ∧ (∀ c, c ≠ 0 → mfind t.ctxs c = none) ∧ ∀ n, 3 < n → t.island.mr n = 0 := by
  intro t
  cases hf : imgOk s.afterDeviceReset.island.flash with
  | false =>
    have e : t = ({ s.afterDeviceReset with island := { s.afterDeviceReset.island with boot := .recovery } } : State).reply .done [] :=
      congrArg (State.reply · .done []) (boot_recovery hf)
    rw [e]
    exact ⟨rfl, rfl, rfl, rfl, rfl, rfl, rfl, fun d => (s.afterDeviceReset_die d).2, fun _ _ => rfl, fun _ _ => rfl⟩
  | true =>
    have hb := State.booted_boot (cfg := cfg) hf
    have hr := hb.rest
    have hi : t.island = { (s.afterDeviceReset.boot cfg).island with answer := [Ans.done.code] } := rfl
    have hc (c : Nat) (h : c ≠ 0) : mfind t.ctxs c = none := Option.isNone_iff_eq_none.1 (Option.isSome_eq_false_iff.1 (hb.ctxs c h))
    have hd (d : Nat) : (t.die d).wear = (s.die d).wear := (hb.die d).2.trans (s.afterDeviceReset_die d).2
    have hm := (s.afterDeviceReset.island.measureBoot_mr cfg).2.2.2.2
    subst t
    generalize s.afterDeviceReset.boot cfg = t at *
    refine ⟨?_, ?_, ?_, ?_, ?_, ?_, ?_, hd, hc, fun n hn => ?_⟩
    · change t.timer = _; rw [hr]; rfl
    · change t.warps = _; rw [hr]; rfl
    · change t.blocks = _; rw [hr]; rfl
    · change t.pend = _; rw [hr]; rfl
    · change t.held = _; rw [hr]; rfl
    · change t.regions = _; rw [hr]; rfl
    · change t.island.resets = _; rw [hr]; rfl
    · change t.island.mr n = 0; rw [hr]; exact hm n hn

theorem exec_recoveryLoad_other (s : State) (a : Nat) (img : List Byte) : exec (.recoveryLoad (.girt a) img) s = .next s := by
  change execRecoveryLoad (.girt a) img s = _
  unfold execRecoveryLoad
  rw [if_pos (by simp)]

theorem exec_recoveryLoad_ok (s : State) {img : List Byte} (h : imgOk img = true) : exec (.recoveryLoad .sill img) s =
    .next { s with island := { s.island with flash := img, answer := [Ans.done.code] } } := by
  change execRecoveryLoad .sill img s = _
  unfold execRecoveryLoad
  rw [if_neg (by simp), if_pos h]
  rfl

theorem exec_recoveryLoad_bad (s : State) {img : List Byte} (h : imgOk img = false) :
    answersOnly (.recoveryLoad .sill img) s .refused [] := by
  change execRecoveryLoad .sill img s = _
  unfold execRecoveryLoad
  rw [if_neg (by simp), if_neg (by simp [h])]
  rfl

theorem State.Booted.island {cfg : FwConfig} {s t : State} (h : State.Booted cfg s t) :
    t.island = { s.island.measureBoot cfg with boot := .running, fw := cfg } := by rw [h.rest]

theorem start_up : Claims.startUp := by
  unfold Claims.startUp
  intro booted
  have boots (i : Instr) (s s0 : State) (cfg : FwConfig) (t : State) (he : exec i s = .next t) (hf : s0.island.flash = s.island.flash)
      {mr : Nat → BitVec 256} (hm : ∀ n, s0.island.mr n = mr n) (hok : imgOk s0.island.flash = true)
      (ht : ∃ x, t = { s0.boot cfg with island := { (s0.boot cfg).island with answer := x } }) :
      booted i s cfg mr t := by
    obtain ⟨x, ht⟩ := ht
    have hb := State.booted_boot (cfg := cfg) hok
    obtain ⟨m0, m1, m2, m3, -⟩ := s0.island.measureBoot_mr cfg
    have hi : t.island = { s0.island.measureBoot cfg with boot := .running, fw := cfg, answer := x } := by rw [ht, hb.island]
    refine ⟨he, by rw [hi], by rw [hi], fun d hd => ?_, ?_, ?_, ?_, ?_, ?_, fun hv hp l h1 h2 h3 h4 => ?_⟩
    · rw [ht]
      exact (hb.die d).1.trans (if_pos hd)
    · obtain ⟨y, hy, hc⟩ := hb.own
      refine ⟨y, by rw [ht]; exact hy, by rw [hc]; rfl, by rw [hc]; rfl⟩
    · rw [hi, ← hm]; exact m0
    · rw [hi, ← hf, ← hm]; exact m1
    · rw [hi, ← hm]; exact m2
    · rw [hi, ← hm]; exact m3
    · rw [ht]
      exact hb.zeros hv hp l h1 h2 h3 h4
  refine ⟨fun s cfg hc => ⟨fun hok => ⟨s.boot cfg, boots _ s s cfg _ (exec_powerOn hc cfg) rfl (fun _ => rfl) hok ⟨_, rfl⟩, ?_⟩,
      fun hno => ?_⟩,
    fun s cfg hc => exec_powerOn_warm hc cfg, fun s img => ⟨exec_recoveryLoad_ok s, exec_recoveryLoad_bad s⟩, exec_recoveryLoad_other,
    fun r s hr => exec_deviceReset_other hr {}, fun r s cfg hr => ?_⟩
  · rw [(State.booted_boot hok).rest]
  · rw [exec_powerOn hc, State.boot_recovery hno]
  · have hfl : s.afterDeviceReset.island.flash = s.island.flash := rfl
    obtain ⟨h1, h2, h3, h4, h5, h6, h7, h8, h9, h10⟩ := s.deviceReset_empties cfg
    refine ⟨_, exec_deviceReset hr cfg, h1, h2, h3, h4, h5, h6, h7, h8, h9, h10, fun hok => ?_, fun hno => ?_⟩
    · exact boots _ s s.afterDeviceReset cfg _ (exec_deviceReset hr cfg) hfl (fun _ => rfl) (hfl ▸ hok) ⟨_, rfl⟩
    · rw [State.boot_recovery (s := s.afterDeviceReset) (hfl ▸ hno)]
      exact ⟨rfl, fun d => (s.afterDeviceReset_die d).1, rfl⟩

end Sys2Proof.Machine

/-! SUPPORT. The record that firmware keeps, and the tables at its pointers (R322, R323). -/

namespace Sys2Proof.Machine
open Claims (NoULines RowsKnown)

/-! ## Lengths -/

theorem recordBytes_length (r : CtxRec) : (recordBytes r).length = 256 := by
  simp [recordBytes, length_leBytes]

theorem vaultTable_length (r : CtxRec) : (vaultTable r).length = 640 := by
  simp [vaultTable, length_leBytes, List.length_flatMap]

theorem peerMask_length (r : CtxRec) : (peerMask r).length = 128 := by
  simp [peerMask, length_leBytes]

theorem State.recLocs_length {c : Nat} {h : How} {p : Word} : ∀ {n : Nat} {s s1 : State} {ls : List Nat},
    s.recLocs c h p n = (s1, .ok ls) → ls.length = n
  | 0, s, s1, ls, e => by
    unfold recLocs at e
    cases e
    rfl
  | n + 1, s, s1, ls, e => by
    unfold recLocs at e
    split at e
    · cases e
    · rename_i s2 ls2 e2
      split at e
      · cases e
      · cases e
        rw [List.length_append, recLocs_length e2]
        rfl

/-! ## Bytes -/

/-- Firmware's write puts each byte at its location. -/
theorem State.performWrite_zip {s : State} (hr : RowsKnown s) (wr : Writer) (rmw : Bool) (src n : Nat) {ls : List Nat} {bs : List Byte}
    (hl : ls.length = bs.length) (hn : ls.Nodup) (hd : ∀ l ∈ ls, s.discards l = false) {i l : Nat} (hi : ls[i]? = some l) :
    some ((s.performWrite wr rmw src n (ls.zip bs)).mem.byte l) = bs[i]? := by
  obtain ⟨hlt, rfl⟩ := List.getElem?_eq_some_iff.1 hi
  have hb : i < bs.length := hl ▸ hlt
  have hm : (ls[i], bs[i]) ∈ ls.zip bs := by
    have := List.getElem_mem (l := ls.zip bs) (n := i) (by rw [List.length_zip]; omega)
    rwa [List.getElem_zip] at this
  have hz : (ls.zip bs).map (·.1) = ls := List.map_fst_zip (by omega)
  rw [List.getElem?_eq_getElem hb]
  exact congrArg some (performWrite_byte_mem hr wr rmw src n (by rw [hz]; exact hn) hm (hd _ (List.getElem_mem hlt)))

theorem record_kept : Claims.recordKept := by
  refine ⟨fun s x hv hp hr hd => ?_, fun s s1 p bs ls hp hs hu hr hn hd => ?_, fun r =>
    ⟨recordBytes_length r, vaultTable_length r, peerMask_length r⟩⟩
  · rw [State.keepRecord_plain s hv hp]
    refine ⟨?_, (s.stored_putRecord x).byte⟩
    have hlen : (span (s.recordAt x.ctx) 256).length = (recordBytes x).length := by
      rw [recordBytes_length, length_span]
    unfold Mem.peek
    refine List.ext_getElem? fun i => ?_
    rw [List.getElem?_map]
    cases hi : (span (s.recordAt x.ctx) 256)[i]? with
    | none =>
      rw [List.getElem?_eq_none_iff] at hi
      exact (List.getElem?_eq_none (by omega)).symm
    | some l => exact State.performWrite_zip hr {} false 4 8 hlen (nodup_span _ _) hd hi
  · have hlen := State.recLocs_length hs
    rw [State.fwWrite_ok hp hs, State.recall_noULines hu]
    exact ⟨fun i l hi => State.performWrite_zip hr {} false 4 8 hlen hn hd hi,
      (State.stored_performWrite (P := (· ∈ ls)) s1 false 4 8 fun _ hb => mem_zip_left hb).byte⟩

end Sys2Proof.Machine

/-! SUPPORT. Management commands (spec/15 R325, R326): who may send them, and what they answer. -/

namespace Sys2Proof.Machine
open Claims

section
variable {s : State} {r : Requester} {ready : Bool} {f : State → State}

theorem State.manage_other (h : s.mayManage r = false) : s.manage r ready f = s := by
  unfold manage
  rw [h]
  rfl

theorem State.manage_notReady (h : s.mayManage r = true) (hr : ready = false) : s.manage r ready f = s.reply .notReady [] := by
  unfold manage
  rw [h, hr]
  rfl

theorem State.manage_ready (h : s.mayManage r = true) (hr : ready = true) : s.manage r ready f = f s := by
  unfold manage
  rw [h, hr]
  rfl

end

/-- An event that is a management command has no effect from a requester that may not send it. -/
theorem refusesOthers_of_manage {i : Requester → Instr} {ready : State → Bool} {f : State → State}
    (h : ∀ r s, exec (i r) s = .next (s.manage r (ready s) f)) : refusesOthers i := by
  intro r s hr
  rw [h, State.manage_other hr]

theorem exec_coreRestart (r : Requester) (k : Nat) (s : State) :
    exec (.coreRestart r k) s = .next (s.manage r (s.island.boot == .running) fun s =>
      if s.haltDone k then (s.modCore k fun c => { c with halted := false }).reply .done [] else s.reply .refused []) := rfl

theorem exec_dumpTrigger (r : Requester) (s : State) :
    exec (.dumpTrigger r) s = .next (s.manage r s.fwRuns fun s =>
      { s with island := { s.island with dump := some s.deviceDump } }.reply .done []) := rfl

/-- What a dump fetch answers (R326, R365). -/
def State.fetchDump (s : State) : Option Nat → State
  | none => match s.island.dump with
    | some d => s.reply .done d
    | none => s.reply .refused []
  | some c => if (s.ctx c).dumpHead.isEmpty then s.reply .refused [] else s.reply .done (s.ctx c).dumpHead

theorem exec_dumpFetch (r : Requester) (tenant : Option Nat) (s : State) :
    exec (.dumpFetch r tenant) s = .next (s.manage r s.fwRuns fun s => s.fetchDump tenant) := by
  cases tenant <;> rfl

theorem core_restart (r : Requester) (s : State) (k : Nat) (hm : s.mayManage r = true) :
    (s.island.boot ≠ .running → answersOnly (.coreRestart r k) s .notReady []) ∧
    (s.island.boot = .running → s.haltDone k = false → answersOnly (.coreRestart r k) s .refused []) ∧
    (s.island.boot = .running → s.haltDone k = true → ∃ t, exec (.coreRestart r k) s = .next t ∧
      t = { s with cores := t.cores, island := { s.island with answer := t.island.answer } } ∧
      t.core k = { s.core k with halted := false } ∧ ∀ n, n ≠ k → t.core n = s.core n) := by
  unfold answersOnly
  rw [exec_coreRestart]
  refine ⟨fun hb => ?_, fun hb hh => ?_, fun hb hh => ?_⟩
  · rw [State.manage_notReady hm (by simpa using hb)]
    rfl
  · rw [State.manage_ready hm (by simpa using hb), hh]
    rfl
  · rw [State.manage_ready hm (by simpa using hb), if_pos hh]
    refine ⟨_, rfl, rfl, ?_, fun n hn => ?_⟩
    · exact (State.modCore_core s k k fun c => { c with halted := false }).trans (if_pos rfl)
    · exact (State.modCore_core s k n fun c => { c with halted := false }).trans (if_neg hn)

theorem dump_commands (r : Requester) (s : State) (hm : s.mayManage r = true) :
    (s.fwRuns = false → answersOnly (.dumpTrigger r) s .notReady [] ∧ answersOnly (.dumpFetch r none) s .notReady []) ∧
    (s.fwRuns = true →
      exec (.dumpTrigger r) s = .next { s with island := { s.island with
        dump := some s.deviceDump, answer := [Ans.done.code] } } ∧
      (∀ d, s.island.dump = some d → answersOnly (.dumpFetch r none) s .done d) ∧
      ∀ c, (s.ctx c).dumpHead ≠ [] → answersOnly (.dumpFetch r (some c)) s .done (s.ctx c).dumpHead) := by
  refine ⟨fun hf => ⟨?_, ?_⟩, fun hf => ⟨?_, fun d hd => ?_, fun c hc => ?_⟩⟩
  · exact (exec_dumpTrigger r s).trans (by rw [State.manage_notReady hm hf]; rfl)
  · exact (exec_dumpFetch r none s).trans (by rw [State.manage_notReady hm hf]; rfl)
  · rw [exec_dumpTrigger, State.manage_ready hm hf]
    rfl
  · refine (exec_dumpFetch r none s).trans ?_
    rw [State.manage_ready hm hf, State.fetchDump, hd]
    rfl
  · refine (exec_dumpFetch r (some c) s).trans ?_
    rw [State.manage_ready hm hf, State.fetchDump, if_neg (by simpa using hc)]
    rfl

theorem commands_holds : Claims.commands :=
  ⟨refusesOthers_of_manage fun r s => exec_coreRestart r 0 s, refusesOthers_of_manage exec_dumpTrigger,
    refusesOthers_of_manage fun r s => exec_dumpFetch r none s, fun r s k hm => core_restart r s k hm, dump_commands⟩

end Sys2Proof.Machine

/-! SUPPORT. Scrubbing between tenants, and keeping a record where caches may hold more (R322, R324). -/

namespace Sys2Proof.Machine
open Claims (NoULines RowsKnown)

variable {P : Nat → Prop} {s r t : State}

/-! ## Records as traffic -/

theorem State.traffic_recByte (s : State) (c : Nat) (h : How) (p : Word) : State.Traffic (fun _ => True) s (s.recByte c h p).1 := by
  have h1 := traffic_devByte (P := fun _ => True) s c h p (p.extractLsb' 0 48).toNat fun _ _ => trivial
  unfold recByte
  dsimp only
  split
  · exact .refl _
  · split
    · split
      · exact .refl _
      · split <;> exact .refl _
    · split <;> rename_i e <;> rw [e] at h1 <;> exact h1

theorem State.traffic_recLocs (s : State) (c : Nat) (h : How) (p : Word) (n : Nat) :
    State.Traffic (fun _ => True) s (s.recLocs c h p n).1 := by
  induction n with
  | zero => exact .refl _
  | succ n ih =>
    unfold recLocs
    split <;> rename_i e <;> rw [e] at ih
    · exact ih
    · rename_i s1 ls
      have h2 := ih.trans (traffic_recByte s1 c h (p + BitVec.ofNat 64 n))
      split <;> rename_i e2 <;> rw [e2] at h2 <;> exact h2

theorem State.traffic_fwWrite (s : State) (p : Word) (bs : List Byte) : State.Traffic (fun _ => True) s (s.fwWrite p bs) := by
  have h1 := traffic_recLocs s 0 { write := true } p bs.length
  unfold fwWrite
  split
  · exact .refl _
  · split <;> rename_i e <;> rw [e] at h1
    · exact (h1.trans (traffic_recall _ _ fun _ _ => trivial)).trans (traffic_performWrite _ _ _ _ _ _ fun _ _ => trivial)
    · exact h1

theorem State.keepRecord_eq (s : State) (x : CtxRec) :
    s.keepRecord x = ((s.putRecord x).fwWrite x.vgrantAt (vaultTable x)).fwWrite x.peersAt (peerMask x) := by
  unfold keepRecord putRecord
  rfl

theorem State.traffic_keepRecord (s : State) (x : CtxRec) : State.Traffic (fun _ => True) s (s.keepRecord x) := by
  have h1 : State.Traffic (fun _ => True) s (s.putRecord x) := traffic_performWrite s {} false 4 8 _ fun _ _ => trivial
  have h2 := h1.trans (traffic_fwWrite (s.putRecord x) x.vgrantAt (vaultTable x))
  rw [keepRecord_eq]
  exact h2.trans (traffic_fwWrite _ x.peersAt (peerMask x))

/-! ## What leaves with a grant -/

/-- What releasing grants, or a context, leaves: nothing in the device but memory, caches, journals and what contexts have used,
passes and the slots of jigs, cores and dies; and no warp appears under a new context. -/
structure State.Released (s r : State) : Prop where
  rest    : r = { s with nextId := r.nextId, free := r.free, mem := r.mem, warps := r.warps, cores := r.cores, dies := r.dies
                         chans := r.chans, held := r.held, pend := r.pend, regions := r.regions, ctxs := r.ctxs, saves := r.saves
                         sysFj := r.sysFj, jigs := r.jigs }
  holders : SameHolders s.warps r.warps
  listed  : ∀ c, (mfind r.ctxs c).isSome = (mfind s.ctxs c).isSome
  ctx     : ∀ c, r.ctx c = { s.ctx c with jrn := (r.ctx c).jrn, fineFj := (r.ctx c).fineFj }

theorem State.Released.refl (s : State) : State.Released s s := ⟨rfl, .refl _, fun _ => rfl, fun _ => rfl⟩

theorem State.Released.trans (h : State.Released s r) (h' : State.Released r t) : State.Released s t where
  rest := by
    have e := h'.rest
    rw [h.rest] at e
    exact e
  holders := h.holders.trans h'.holders
  listed c := (h'.listed c).trans (h.listed c)
  ctx c := by
    have e := h'.ctx c
    rw [h.ctx c] at e
    exact e

theorem State.Released.foldl {α : Type} {f : State → α → State} (h : ∀ s x, State.Released s (f s x)) (xs : List α) (s : State) :
    State.Released s (xs.foldl f s) := by
  induction xs generalizing s with
  | nil => exact .refl s
  | cons x xs ih => exact (h s x).trans (ih _)

/-- What leaves warps and contexts alone. -/
theorem State.Released.of_rest (h : r = { s with nextId := r.nextId, free := r.free, mem := r.mem, cores := r.cores, dies := r.dies
                                                 chans := r.chans, held := r.held, pend := r.pend, regions := r.regions
                                                 saves := r.saves, sysFj := r.sysFj, jigs := r.jigs }) : State.Released s r := by
  rw [h]
  exact ⟨rfl, .refl _, fun _ => rfl, fun _ => rfl⟩

theorem State.Tended.released (h : State.Tended s r) : State.Released s r := by
  refine ⟨?_, h.holders, h.listed, fun c => ?_⟩
  · have e := h.rest
    rw [e]
  · rw [h.ctx c]

theorem State.CoresOnly.released (h : State.CoresOnly s r) : State.Released s r := by
  refine ⟨?_, ?_, fun c => ?_, fun c => ?_⟩ <;> rw [h]
  · exact .refl _
  · rfl

theorem State.Metered.released {ks : List Nat} (h : State.Metered ks s r) : State.Released s r := by
  refine ⟨?_, ?_, h.listed, fun c => ?_⟩
  · have e := h.rest
    rw [e]
  · rw [h.rest]
    exact .refl _
  · rw [h.ctx c]

/-- A state in which the UBS of a core holds zeros. -/
def State.blankUbs (s : State) (k : Nat) : State := { s with mem := s.mem.scrub (ubsLoc k 0) (2 ^ 22) }

theorem State.scrubCore_eq (s : State) (k : Nat) :
    s.scrubCore k = ((((s.blankUbs k).stopCores [k]).meterCore k).modCore k Core.scrubbed).idleBands k := by
  unfold scrubCore blankUbs
  rfl

theorem State.released_blankUbs (s : State) (k : Nat) : State.Released s (s.blankUbs k) := .of_rest rfl

theorem State.released_modCore (s : State) (k : Nat) (f : Core → Core) : State.Released s (s.modCore k f) := .of_rest rfl

theorem State.released_scrubCore (s : State) (k : Nat) : State.Released s (s.scrubCore k) := by
  rw [scrubCore_eq]
  have h2 := (s.released_blankUbs k).trans (coresOnly_stopCores _ [k]).released
  have h3 := (h2.trans (metered_meterCore _ k).released).trans (released_modCore _ k Core.scrubbed)
  exact h3.trans (coresOnly_idleBands _ k).released

theorem State.released_mem (s : State) (m : Mem) : State.Released s { s with mem := m } := .of_rest rfl

theorem State.released_scrubVaults (s : State) (g : List (Nat × Nat × Nat)) : State.Released s (s.scrubVaults g) := by
  unfold scrubVaults
  exact .foldl (fun s _ => s.released_mem _) g s

theorem State.tended_endBankside (s : State) (c : Nat) : State.Tended s (s.endBankside c) := by
  unfold endBankside
  extract_lets mine s1
  have h1 : State.Tended s s1 := .foldl tended_cancelPass _ s
  refine State.Tended.trans (State.Tended.trans h1 ?_) (tended_jrnHwAbort ..)
  exact ⟨rfl, .refl _, fun _ => rfl, fun _ => rfl, fun _ => rfl,
    fun g hg => ⟨g, (List.mem_filter.1 hg).1, rfl, rfl, fun p hp => ⟨p, hp, rfl⟩⟩, rfl⟩

theorem State.released_releaseGrants (s : State) (old new : CtxRec) : State.Released s (s.releaseGrants old new) := by
  unfold releaseGrants
  dsimp only
  split
  · exact .refl s
  · have h1 := (tended_endBankside s old.ctx).released.trans (released_scrubVaults _ (windowsGone old.vgrant new.vgrant))
    have h2 := h1.trans (State.Released.foldl released_scrubCore (old.cores.filter fun k => !new.cores.contains k) _)
    exact h2.trans (.of_rest rfl)

/-! ## Cores that hold nothing -/

/-- A core on which no tenant has left anything that can be read. -/
structure Core.Bare (c : Core) : Prop where
  tiles : c.tiles = []
  recs  : c.recs = []
  ring  : c.ring = []
  owner : c.owner = none

theorem State.bare_modCore {k : Nat} (h : (s.core k).Bare) (j : Nat) {f : Core → Core} (hf : ∀ c, c.Bare → (f c).Bare) :
    ((s.modCore j f).core k).Bare := by
  rw [modCore_core]
  split
  · subst k
    exact hf _ h
  · exact h

theorem State.bare_foldl {α : Type} {k : Nat} {f : State → α → State} (hf : ∀ s x, (s.core k).Bare → ((f s x).core k).Bare)
    (xs : List α) (h : (s.core k).Bare) : ((xs.foldl f s).core k).Bare := by
  induction xs generalizing s with
  | nil => exact h
  | cons x xs ih => exact ih (hf s x h)

theorem cutLoop_cores (cs : List Nat) : ∀ (n : Nat) (s : State), (cutLoop cs n s).cores = s.cores := by
  induction cs with
  | nil => exact fun _ _ => rfl
  | cons c cs ih => exact fun n s => ih _ _

theorem State.shed_cores (s : State) (d : Nat) : (s.shed d).cores = s.cores := cutLoop_cores _ _ s

theorem State.bare_stopArr {k : Nat} (h : (s.core k).Bare) (j : Nat) : ((s.stopArr j).core k).Bare := by
  unfold stopArr
  split
  · refine bare_modCore ?_ j fun c hc => ⟨hc.tiles, hc.recs, hc.ring, hc.owner⟩
    unfold leaveLoad
    split
    · exact bare_modCore (s := s.setFiller _ _) h j fun c hc => ⟨hc.tiles, hc.recs, hc.ring, hc.owner⟩
    · exact h
  · exact h

theorem State.bare_stopCores {k : Nat} (h : (s.core k).Bare) (js : List Nat) : ((s.stopCores js).core k).Bare := by
  unfold stopCores
  refine bare_foldl (fun s d hs => ?_) _ (bare_foldl (fun s j hs => bare_stopArr hs j) js h)
  unfold core
  rw [shed_cores]
  exact hs

theorem State.bare_idleBands {k : Nat} (h : (s.core k).Bare) (j : Nat) : ((s.idleBands j).core k).Bare := by
  refine bare_foldl (fun s b hs => ?_) _ h
  split
  · exact bare_modCore hs j fun c hc => ⟨hc.tiles, hc.recs, hc.ring, hc.owner⟩
  · exact hs

theorem State.bare_meterCore {k : Nat} (h : (s.core k).Bare) (j : Nat) : ((s.meterCore j).core k).Bare := by
  rw [(s.metered_meterCore j).core]
  split
  · exact ⟨h.tiles, h.recs, h.ring, h.owner⟩
  · exact h

theorem Core.bare_scrubbed (c : Core) : c.scrubbed.Bare := ⟨rfl, rfl, rfl, rfl⟩

theorem State.bare_scrubCore_self (s : State) (k : Nat) : ((s.scrubCore k).core k).Bare := by
  rw [scrubCore_eq]
  refine bare_idleBands ?_ k
  rw [modCore_core, if_pos rfl]
  exact Core.bare_scrubbed _

theorem State.bare_scrubCore {k : Nat} (h : (s.core k).Bare) (j : Nat) : ((s.scrubCore j).core k).Bare := by
  rw [scrubCore_eq]
  refine bare_idleBands (bare_modCore (bare_meterCore (bare_stopCores ?_ [j]) j) j fun c _ => c.bare_scrubbed) j
  exact h

/-- A core's UBS holds zeros. -/
def State.UbsBlank (s : State) (k : Nat) : Prop := ∀ i < 2 ^ 22, s.mem.byte (ubsLoc k i) = 0

theorem State.scrubCore_mem (s : State) (k : Nat) : (s.scrubCore k).mem = (s.blankUbs k).mem := by
  have h1 := coresOnly_stopCores (s.blankUbs k) [k]
  have h2 := State.metered_meterCore ((s.blankUbs k).stopCores [k]) k
  rw [scrubCore_eq]
  generalize (s.blankUbs k).stopCores [k] = s1 at *
  generalize s1.meterCore k = s2 at *
  rw [coresOnly_idleBands _ k]
  change s2.mem = _
  rw [h2.rest, h1]

theorem State.blankUbs_byte (s : State) (k l : Nat) :
    (s.blankUbs k).mem.byte l = if ubsLoc k 0 ≤ l ∧ l < ubsLoc k 0 + 2 ^ 22 then 0 else s.mem.byte l := Mem.scrub_byte ..

theorem State.ubsBlank_scrubCore_self (s : State) (k : Nat) : (s.scrubCore k).UbsBlank k := by
  intro i hi
  rw [scrubCore_mem, blankUbs_byte, if_pos]
  unfold ubsLoc
  omega

theorem State.ubsBlank_scrubCore {k : Nat} (h : s.UbsBlank k) (j : Nat) : (s.scrubCore j).UbsBlank k := by
  intro i hi
  rw [scrubCore_mem, blankUbs_byte]
  split
  · rfl
  · exact h i hi

/-- Every core that is scrubbed holds nothing, and its UBS zeros. -/
theorem State.scrubbed_foldl (ks : List Nat) (s : State) : ∀ k ∈ ks,
    ((ks.foldl State.scrubCore s).core k).Bare ∧ (ks.foldl State.scrubCore s).UbsBlank k := by
  suffices h : ∀ k, k ∈ ks ∨ (s.core k).Bare ∧ s.UbsBlank k →
      ((ks.foldl State.scrubCore s).core k).Bare ∧ (ks.foldl State.scrubCore s).UbsBlank k from fun k hk => h k (.inl hk)
  induction ks generalizing s with
  | nil => exact fun k h => h.resolve_left List.not_mem_nil
  | cons j ks ih =>
    intro k h
    rw [List.foldl_cons]
    refine ih (s.scrubCore j) k ?_
    by_cases hj : k = j
    · subst hj
      exact .inr ⟨s.bare_scrubCore_self k, s.ubsBlank_scrubCore_self k⟩
    · exact h.imp (fun h => (List.mem_cons.1 h).resolve_left hj) fun ⟨hb, hu⟩ => ⟨bare_scrubCore hb j, ubsBlank_scrubCore hu j⟩

/-- A core that leaves a record holds nothing any more. -/
theorem State.bare_releaseGrants (s : State) (old new : CtxRec) {k : Nat} (hk : k ∈ old.cores) (hn : k ∉ new.cores) :
    ((s.releaseGrants old new).core k).Bare ∧ (s.releaseGrants old new).UbsBlank k := by
  have hm : k ∈ old.cores.filter fun k => !new.cores.contains k := List.mem_filter.2 ⟨hk, by simpa using hn⟩
  unfold releaseGrants
  dsimp only
  rw [if_neg]
  · have h := scrubbed_foldl _ ((s.endBankside old.ctx).scrubVaults (windowsGone old.vgrant new.vgrant)) k hm
    generalize List.foldl State.scrubCore _ _ = t at h ⊢
    exact ⟨h.1, fun i hi => h.2 i hi⟩
  · rw [List.isEmpty_eq_false_iff.2 (List.ne_nil_of_mem hm)]
    simp

end Sys2Proof.Machine

/-! SUPPORT. Tenants: creating, changing and destroying a context (R322 to R324). -/

namespace Sys2Proof.Machine
open Claims

/-! ## The commands -/

theorem exec_contextCreate (r : Requester) (x : CtxRec) (s : State) :
    exec (.contextCreate r x) s = .next (s.manage r s.fwRuns fun s =>
      if !s.recordOk x || (mfind s.ctxs x.ctx).isSome then s.reply .refused []
      else (({ s with ctxs := mins s.ctxs x.ctx (freshCtx x) }.grantCores x).keepRecord x).reply .done []) := rfl

/-- What a change of a record does once it is not refused. -/
def State.changeRecord (s : State) (old new : CtxRec) : State :=
  (((s.releaseGrants old new).modCtx new.ctx fun y => { y with crec := new, dispStop := false }).grantCores
    { new with cores := new.cores.filter fun k => !old.cores.contains k }).keepRecord new

theorem exec_contextChange {r : Requester} {x : CtxRec} {s : State} {y : Ctx} (hm : s.mayManage r = true) (hf : s.fwRuns = true)
    (hy : mfind s.ctxs x.ctx = some y) (hok : s.recordOk x = true) :
    exec (.contextChange r x) s = .next (
      if y.crec.cores.any fun k => !x.cores.contains k && s.holdsCore x.ctx k then s.reply .busy []
      else if takesAway y.crec x && !s.quiet x.ctx then s.reply .busy []
      else (s.changeRecord y.crec x).reply .done []) := by
  change execContextChange r x s = _
  unfold execContextChange
  rw [State.manage_ready hm hf, hy]
  simp only [hok]
  rfl

/-- What destroying a context does once it is not refused. -/
def State.forgetCtx (s : State) (c : Nat) (old : CtxRec) : State :=
  let s2 := (s.evict c).releaseGrants old { ctx := c }
  { s2 with
    ctxs := mdel s2.ctxs c
    mem := { s2.mem with moved := mdel s2.mem.moved c, tlb := s2.mem.tlb.filter fun t => t.ctx != c }
    bound := s2.bound.filter fun e => e.2 != c }

/-- Zeros in the place of a context's record. -/
def State.clearRecord (s : State) (c : Nat) : State :=
  s.performWrite {} false 4 8 ((span (s.recordAt c) 256).map fun l => (l, 0))

theorem exec_contextDestroy {r : Requester} {c : Nat} {s : State} {x : Ctx} (hm : s.mayManage r = true) (hf : s.fwRuns = true)
    (hc : c ≠ 0) (hx : mfind s.ctxs c = some x) :
    exec (.contextDestroy r c) s = .next (
      if !s.quiet c then s.reply .busy [] else ((s.forgetCtx c x.crec).clearRecord c).reply .done []) := by
  change execContextDestroy r c s = _
  unfold execContextDestroy
  rw [State.manage_ready hm hf, hx]
  simp only [if_neg hc]
  rfl

/-! ## Creating -/

theorem recordOk_parts {s : State} {x : CtxRec} (h : s.recordOk x = true) :
    recordFits x = true ∧ x.ctx ≠ 0 ∧ x.priv = false ∧ ∀ e ∈ s.ctxs, e.1 = x.ctx ∨ grantsMeet x e.2.crec = false := by
  unfold State.recordOk at h
  simp only [Bool.and_eq_true, bne_iff_ne, Bool.not_eq_true', List.all_eq_true, Bool.or_eq_true, beq_iff_eq] at h
  obtain ⟨⟨⟨⟨⟨⟨⟨⟨⟨h1, h2⟩, h3⟩, -⟩, -⟩, -⟩, -⟩, -⟩, -⟩, h4⟩ := h
  exact ⟨h1, h2, h3, h4⟩

theorem create_refused (r : Requester) (s : State) (x : CtxRec) (hm : s.mayManage r = true) (hf : s.fwRuns = true)
    (h : x.priv = true ∨ x.ctx = 0 ∨ recordFits x = false ∨ ∃ e ∈ s.ctxs, e.1 ≠ x.ctx ∧ grantsMeet x e.2.crec = true) :
    answersOnly (.contextCreate r x) s .refused [] := by
  have hno : s.recordOk x = false := by
    by_contra hok
    obtain ⟨h1, h2, h3, h4⟩ := recordOk_parts (by simpa using hok)
    rcases h with h | h | h | ⟨e, he, hne, hg⟩
    · exact Bool.false_ne_true (h3.symm.trans h)
    · exact h2 h
    · exact Bool.false_ne_true (h.symm.trans h1)
    · exact (h4 e he).elim hne fun h => Bool.false_ne_true (h.symm.trans hg)
  unfold answersOnly
  rw [exec_contextCreate, State.manage_ready hm hf, hno]
  rfl

/-- The context that a record makes is there, and no other changes but in what it has used. -/
theorem create_done (r : Requester) (s : State) (x : CtxRec) (hm : s.mayManage r = true) (hf : s.fwRuns = true)
    (hok : s.recordOk x = true) (hx : mfind s.ctxs x.ctx = none) : ∃ t, exec (.contextCreate r x) s = .next t ∧
      t.mem = ((({ s with ctxs := mins s.ctxs x.ctx (freshCtx x) } : State).grantCores x).keepRecord x).mem ∧
      (∀ c, c ≠ x.ctx → (mfind t.ctxs c).isSome = (mfind s.ctxs c).isSome ∧
        t.ctx c = { s.ctx c with fineFj := (t.ctx c).fineFj }) ∧
      (∃ y, mfind t.ctxs x.ctx = some y ∧ y.crec = x ∧ y.frozen = false ∧ y.dead = false ∧ y.stages = [] ∧ y.lnum = 0) ∧
      (∀ k ∈ x.cores, (t.core k).owner = some x.ctx ∧ (t.core k).l1sz = x.l1sz.toNat ∧
        (t.core k).level = (x.ebudget.extractLsb' 0 24).toNat ∧ (t.core k).tiles = (s.core k).tiles) ∧
      ∀ k, k ∉ x.cores → t.core k = { s.core k with
        uLines := (t.core k).uLines, l1 := (t.core k).l1, l1Err := (t.core k).l1Err } := by
  have he : exec (.contextCreate r x) s =
      .next (((({ s with ctxs := mins s.ctxs x.ctx (freshCtx x) } : State).grantCores x).keepRecord x).reply .done []) := by
    rw [exec_contextCreate, State.manage_ready hm hf, hok, hx]
    rfl
  refine ⟨_, he, rfl, ?_⟩
  have hg := State.granted_grantCores { s with ctxs := mins s.ctxs x.ctx (freshCtx x) } x
  generalize State.grantCores _ x = s1 at hg ⊢
  have ht := State.traffic_keepRecord s1 x
  generalize s1.keepRecord x = s2 at ht ⊢
  have hc : s2.ctxs = s1.ctxs := by rw [ht.rest]
  have hcc (c : Nat) : (s2.reply .done []).ctx c = s1.ctx c := by
    change mget {} s2.ctxs c = _
    rw [hc]
    rfl
  refine ⟨fun c hne => ⟨?_, ?_⟩, ?_, fun k hk => ?_, fun k hk => ?_⟩
  · change (mfind s2.ctxs c).isSome = _
    rw [hc, hg.listed]
    exact congrArg _ (mfind_mins_ne _ _ hne)
  · rw [hcc]
    have e := hg.ctx c
    have e1 : State.ctx { s with ctxs := mins s.ctxs x.ctx (freshCtx x) } c = s.ctx c := mget_mins_ne _ _ _ hne
    rw [e1] at e
    exact e
  · have hl : (mfind s1.ctxs x.ctx).isSome := by
      rw [hg.listed]
      change (mfind (mins s.ctxs x.ctx (freshCtx x)) x.ctx).isSome = true
      rw [mfind_mins_self]
      rfl
    obtain ⟨y, hy⟩ := Option.isSome_iff_exists.1 hl
    have e := hg.ctx x.ctx
    have e1 : State.ctx { s with ctxs := mins s.ctxs x.ctx (freshCtx x) } x.ctx = freshCtx x := by
      unfold State.ctx
      rw [mget_eq_mfind, mfind_mins_self]
      rfl
    have e2 : s1.ctx x.ctx = y := by
      unfold State.ctx
      rw [mget_eq_mfind, hy]
      rfl
    rw [e1, e2] at e
    refine ⟨y, ?_, ?_⟩
    · change mfind s2.ctxs x.ctx = _
      rw [hc, hy]
    · rw [e]
      exact ⟨rfl, rfl, rfl, rfl, rfl⟩
  · have e : (s2.reply .done []).core k = s2.core k := rfl
    rw [e, ht.core, hg.core, if_pos hk]
    exact ⟨rfl, rfl, rfl, rfl⟩
  · have e := ht.core k
    rw [hg.core, if_neg hk] at e
    exact e

/-! ## Changing -/

theorem change_done (r : Requester) (s : State) (x : CtxRec) (y : Ctx) (hm : s.mayManage r = true) (hf : s.fwRuns = true)
    (hy : mfind s.ctxs x.ctx = some y) (hok : s.recordOk x = true)
    (hh : ∀ k ∈ y.crec.cores, k ∉ x.cores → s.holdsCore x.ctx k = false) (hq : takesAway y.crec x = true → s.quiet x.ctx = true) :
    ∃ t, exec (.contextChange r x) s = .next t ∧
      (t.ctx x.ctx).crec = x ∧ (t.ctx x.ctx).dispStop = false ∧ (t.ctx x.ctx).stages = (s.ctx x.ctx).stages ∧
      ∀ k ∈ y.crec.cores, k ∉ x.cores → (t.core k).tiles = [] ∧ (t.core k).recs = [] ∧ (t.core k).ring = [] := by
  have h1 : ¬(y.crec.cores.any fun k => !x.cores.contains k && s.holdsCore x.ctx k) = true := by
    simp only [List.any_eq_true, Bool.and_eq_true, Bool.not_eq_true', not_exists, not_and]
    intro k hk hn
    rw [hh k hk (by simpa using hn)]
    exact Bool.false_ne_true
  have h2 : ¬(takesAway y.crec x && !s.quiet x.ctx) = true := by
    cases ht : takesAway y.crec x with
    | false => exact Bool.false_ne_true
    | true => rw [hq ht]; exact Bool.false_ne_true
  refine ⟨_, (exec_contextChange hm hf hy hok).trans (by rw [if_neg h1, if_neg h2]), ?_⟩
  have hr := s.released_releaseGrants y.crec x
  have hb : ∀ k ∈ y.crec.cores, k ∉ x.cores → ((s.releaseGrants y.crec x).core k).Bare := fun k hk hn =>
    (s.bare_releaseGrants y.crec x hk hn).1
  unfold State.changeRecord
  generalize s.releaseGrants y.crec x = s1 at hr hb ⊢
  generalize hs2 : s1.modCtx x.ctx (fun y => { y with crec := x, dispStop := false }) = s2
  have hg := State.granted_grantCores s2 { x with cores := x.cores.filter fun k => !y.crec.cores.contains k }
  generalize s2.grantCores _ = s3 at hg ⊢
  have ht := State.traffic_keepRecord s3 x
  generalize s3.keepRecord x = s4 at ht ⊢
  have hc : (s4.reply .done []).ctx x.ctx = s3.ctx x.ctx := by
    change mget {} s4.ctxs x.ctx = _
    rw [ht.rest]
    rfl
  have hl : (mfind s1.ctxs x.ctx).isSome := by rw [hr.listed, hy]; rfl
  have h2c : s2.ctx x.ctx = { s1.ctx x.ctx with crec := x, dispStop := false } := by
    rw [← hs2, State.modCtx_ctx _ _ _ _ hl, if_pos rfl]
  rw [hc, hg.ctx, h2c, hr.ctx]
  refine ⟨rfl, rfl, rfl, fun k hk hn => ?_⟩
  have hcore : (s4.reply .done []).core k = s4.core k := rfl
  have hne : k ∉ (x.cores.filter fun k => !y.crec.cores.contains k) := fun h => hn (List.mem_filter.1 h).1
  have h2k : s2.core k = s1.core k := by rw [← hs2]; rfl
  rw [hcore, ht.core, hg.core, if_neg hne, h2k]
  obtain ⟨b1, b2, b3, -⟩ := hb k hk hn
  exact ⟨b1, b2, b3⟩

/-! ## Destroying -/

/-- A location that holds zero still does after a write of zeros. -/
theorem Mem.puts_zero (pos : Nat) (bs : List (Nat × Byte)) (hz : ∀ b ∈ bs, b.2 = 0) (m : Mem) {l : Nat} (h : m.byte l = 0) :
    (bs.foldl (fun m b => m.put pos b.1 b.2) m).byte l = 0 := by
  induction bs generalizing m with
  | nil => exact h
  | cons b bs ih =>
    refine ih (fun b hb => hz b (List.mem_cons_of_mem _ hb)) (m.put pos b.1 b.2) ?_
    rw [Mem.put_byte]
    split
    · exact hz b (List.mem_cons_self ..)
    · exact h

theorem State.writePiece_zero {s : State} {l : Nat} (h : s.mem.byte l = 0) (rmw : Bool) {bs : List (Nat × Byte)}
    (hz : ∀ b ∈ bs, b.2 = 0) : (s.writePiece {} rmw bs).mem.byte l = 0 :=
  Mem.puts_zero _ (bs.filter fun b => !s.discards b.1) (fun b hb => hz b (List.mem_filter.1 hb).1) s.mem h

theorem Mem.puts_tlb (pos : Nat) (bs : List (Nat × Byte)) (m : Mem) :
    (bs.foldl (fun m b => m.put pos b.1 b.2) m).tlb = m.tlb := by
  induction bs generalizing m with
  | nil => rfl
  | cons b bs ih => exact ih _

theorem State.writePiece_tlb (s : State) (rmw : Bool) (bs : List (Nat × Byte)) : (s.writePiece {} rmw bs).mem.tlb = s.mem.tlb :=
  Mem.puts_tlb ..

theorem State.performWrite_zero {s : State} {l : Nat} (h : s.mem.byte l = 0) (rmw : Bool) (src n : Nat) {bs : List (Nat × Byte)}
    (hz : ∀ b ∈ bs, b.2 = 0) : (s.performWrite {} rmw src n bs).mem.byte l = 0 := by
  have h0 : (s.checkWrites src (bs.map (·.1))).mem.byte l = 0 := by
    rw [(checked_checkWrites ..).mem]
    exact h
  unfold performWrite writePieces
  have hg : ∀ g ∈ groupBy (fun b : Nat × Byte => b.1 / n) bs, ∀ b ∈ g.2, b.2 = 0 := fun g hg b hb => hz b (mem_groupBy hg hb)
  generalize groupBy (fun b : Nat × Byte => b.1 / n) bs = gs at hg ⊢
  generalize s.checkWrites src (bs.map (·.1)) = s1 at h0 ⊢
  induction gs generalizing s1 with
  | nil => exact h0
  | cons g gs ih =>
    exact ih (fun g' hg' => hg g' (List.mem_cons_of_mem _ hg')) _ (writePiece_zero h0 rmw (hg g (List.mem_cons_self ..)))

theorem State.performWrite_tlb (s : State) (rmw : Bool) (src n : Nat) (bs : List (Nat × Byte)) :
    (s.performWrite {} rmw src n bs).mem.tlb = s.mem.tlb := by
  have h0 : (s.checkWrites src (bs.map (·.1))).mem.tlb = s.mem.tlb := by rw [(checked_checkWrites ..).mem]
  unfold performWrite writePieces
  rw [← h0]
  generalize groupBy (fun b : Nat × Byte => b.1 / n) bs = gs
  generalize s.checkWrites src (bs.map (·.1)) = s1
  induction gs generalizing s1 with
  | nil => rfl
  | cons g gs ih => exact (ih _).trans (writePiece_tlb ..)

/-- Clearing a record leaves everything but memory, and there cached translations and zeros. -/
theorem State.clearRecord_rest (t : State) (c : Nat) :
    t.clearRecord c = { t with mem := (t.clearRecord c).mem, chans := (t.clearRecord c).chans
                               dies := (t.clearRecord c).dies, free := (t.clearRecord c).free } ∧
    (t.clearRecord c).mem.tlb = t.mem.tlb ∧ ∀ l, t.mem.byte l = 0 → (t.clearRecord c).mem.byte l = 0 := by
  unfold clearRecord
  have hz : ∀ b ∈ (span (t.recordAt c) 256).map (fun l => (l, (0 : Byte))), b.2 = 0 := fun b hb => by
    obtain ⟨l, -, rfl⟩ := List.mem_map.1 hb
    rfl
  generalize (span (t.recordAt c) 256).map (fun l => (l, (0 : Byte))) = bs at hz ⊢
  exact ⟨(stored_performWrite (P := fun _ => True) t false 4 8 fun _ _ => trivial).rest, performWrite_tlb ..,
    fun l h => performWrite_zero h false 4 8 hz⟩

/-- A context that is forgotten has left the device: its warps and blocks, its cached translations, and its cores. -/
theorem State.forgetCtx_gone (s : State) (c : Nat) (x : Ctx) :
    let t := s.forgetCtx c x.crec
    mfind t.ctxs c = none ∧ (∀ e ∈ t.warps, e.2.ctx ≠ c) ∧ (∀ e ∈ t.blocks, e.2.ctx ≠ c) ∧ (∀ u ∈ t.mem.tlb, u.ctx ≠ c) ∧
    ∀ k ∈ x.crec.cores, (t.core k).Bare ∧ t.UbsBlank k := by
  intro t
  have hr := (s.evict c).released_releaseGrants x.crec { ctx := c }
  have hb : ∀ k ∈ x.crec.cores, _ := fun k hk => (s.evict c).bare_releaseGrants x.crec { ctx := c } hk List.not_mem_nil
  have hw := (s.evict_gone c).1
  have hk : ∀ e ∈ (s.evict c).blocks, e.2.ctx ≠ c := fun e he => by
    rw [evict_eq] at he
    simpa using (List.mem_filter.1 he).2
  subst t
  unfold forgetCtx
  generalize s.evict c = s1 at hr hb hw hk ⊢
  generalize s1.releaseGrants x.crec { ctx := c } = s2 at hr hb ⊢
  refine ⟨mfind_mdel_self .., hr.holders.none hw, fun e he => hk e ?_, fun u hu => by simpa using (List.mem_filter.1 hu).2,
    fun k hk => ⟨(hb k hk).1, fun i hi => (hb k hk).2 i hi⟩⟩
  have hbl : s2.blocks = s1.blocks := by rw [hr.rest]
  rw [← hbl]
  exact he

theorem destroy_done (r : Requester) (s : State) (c : Nat) (x : Ctx) (hm : s.mayManage r = true) (hf : s.fwRuns = true) (hc : c ≠ 0)
    (hx : mfind s.ctxs c = some x) (hq : s.quiet c = true) : ∃ t, exec (.contextDestroy r c) s = .next t ∧
      mfind t.ctxs c = none ∧ (∀ e ∈ t.warps, e.2.ctx ≠ c) ∧ (∀ e ∈ t.blocks, e.2.ctx ≠ c) ∧
      (∀ u ∈ t.mem.tlb, u.ctx ≠ c) ∧
      ∀ k ∈ x.crec.cores, (t.core k).tiles = [] ∧ (t.core k).recs = [] ∧ (t.core k).owner = none ∧
        ∀ i < 2 ^ 22, t.mem.byte (ubsLoc k i) = 0 := by
  have he : exec (.contextDestroy r c) s = .next (((s.forgetCtx c x.crec).clearRecord c).reply .done []) := by
    rw [exec_contextDestroy hm hf hc hx, hq]
    rfl
  refine ⟨_, he, ?_⟩
  obtain ⟨h1, h2, h3, h4, h5⟩ := s.forgetCtx_gone c x
  generalize s.forgetCtx c x.crec = t at h1 h2 h3 h4 h5 ⊢
  obtain ⟨hr, hl, hb⟩ := t.clearRecord_rest c
  generalize t.clearRecord c = u at hr hl hb ⊢
  refine ⟨?_, ?_, ?_, ?_, fun k hk => ?_⟩
  · change mfind u.ctxs c = none; rw [hr]; exact h1
  · change ∀ e ∈ u.warps, _; rw [hr]; exact h2
  · change ∀ e ∈ u.blocks, _; rw [hr]; exact h3
  · change ∀ e ∈ u.mem.tlb, _; rw [hl]; exact h4
  · obtain ⟨⟨b1, b2, -, b4⟩, hu⟩ := h5 k hk
    have hcore : (u.reply .done []).core k = t.core k := by
      change mget {} u.cores k = _
      rw [hr]
      rfl
    rw [hcore]
    exact ⟨b1, b2, b4, fun i hi => hb _ (hu i hi)⟩

theorem quiet_iff (s : State) (c : Nat) :
    s.quiet c = (s.enginesIdle c && !(s.warpsOf c).any (s.hasHeld · true)) := by
  unfold State.quiet
  rw [List.not_any_eq_all_not]

theorem tenants_holds : Claims.tenants := by
  refine ⟨refusesOthers_of_manage fun r s => rfl, refusesOthers_of_manage fun r s => rfl, refusesOthers_of_manage fun r s => rfl,
    fun r s x hm hf => ⟨create_refused r s x hm hf, create_done r s x hm hf⟩, fun r s x y hm hf hy hok => ⟨fun k hk hn hh => ?_,
      fun hh ht hq => ?_, change_done r s x y hm hf hy hok⟩, fun r s c x hm hf hc hx => ⟨fun h => ?_, fun hi hh => ?_⟩⟩
  · refine (exec_contextChange hm hf hy hok).trans ?_
    rw [if_pos]
    · rfl
    · exact List.any_eq_true.2 ⟨k, hk, by simp [hn, hh]⟩
  · refine (exec_contextChange hm hf hy hok).trans ?_
    rw [if_neg, if_pos]
    · rfl
    · rw [ht, hq]; rfl
    · simp only [List.any_eq_true, Bool.and_eq_true, Bool.not_eq_true', not_exists, not_and]
      intro k hk hn
      rw [hh k hk (by simpa using hn)]
      exact Bool.false_ne_true
  · refine (exec_contextDestroy hm hf hc hx).trans ?_
    rw [if_pos]
    · rfl
    · rw [quiet_iff]
      rcases h with h | h <;> simp [h]
  · exact destroy_done r s c x hm hf hc hx (by rw [quiet_iff, hi, hh]; rfl)

end Sys2Proof.Machine

/-! SUPPORT. Freezing, saving and evicting the contexts of a die that is reset (R384, steps 1 and 2). -/

namespace Sys2Proof.Machine
open Claims

/-! ## Pauses, with what they leave of dies and blocks -/

/-- Every block of a list stands in another under the same key, with the same context. -/
def SameOwners (m m' : SMap Block) : Prop := ∀ e ∈ m', ∃ x, (e.1, x) ∈ m ∧ x.ctx = e.2.ctx

theorem SameOwners.refl (m : SMap Block) : SameOwners m m := fun e he => ⟨e.2, he, rfl⟩

theorem SameOwners.trans {m m' m'' : SMap Block} (h : SameOwners m m') (h' : SameOwners m' m'') : SameOwners m m'' := by
  intro e he
  obtain ⟨y, hy, e1⟩ := h' e he
  obtain ⟨x, hx, e2⟩ := h (e.1, y) hy
  exact ⟨x, hx, e2.trans e1⟩

theorem SameOwners.none {m m' : SMap Block} {c : Nat} (h : SameOwners m m') (hm : ∀ e ∈ m, e.2.ctx ≠ c) :
    ∀ e ∈ m', e.2.ctx ≠ c := by
  intro e he
  obtain ⟨x, hx, e1⟩ := h e he
  rw [← e1]
  exact hm _ hx

theorem sameOwners_mmod (m : SMap Block) (k : Nat) {f : Block → Block} (hf : ∀ x, (f x).ctx = x.ctx) : SameOwners m (mmod m k f) := by
  unfold mmod
  cases hx : mfind m k with
  | none => exact .refl m
  | some x =>
    intro e he
    rcases mem_mins he with rfl | he
    · exact ⟨x, mem_of_mfind hx, (hf x).symm⟩
    · exact ⟨e.2, he, rfl⟩

/-- Only the runs of warps, the rendezvous of blocks, and cores differ. -/
structure State.Idled (s r : State) : Prop where
  rest    : r = { s with warps := r.warps, blocks := r.blocks, cores := r.cores }
  warp    : ∀ w, Warp.Kept (s.warp w) (r.warp w)
  holders : SameHolders s.warps r.warps
  owners  : SameOwners s.blocks r.blocks

section
variable {s r t : State}

theorem State.Idled.refl (s : State) : State.Idled s s := ⟨rfl, fun _ => rfl, .refl _, .refl _⟩

theorem State.Idled.trans (h : State.Idled s r) (h' : State.Idled r t) : State.Idled s t where
  rest := by
    have e := h'.rest
    rw [h.rest] at e
    exact e
  warp w := (h.warp w).trans (h'.warp w)
  holders := h.holders.trans h'.holders
  owners := h.owners.trans h'.owners

theorem State.Idled.foldl {α : Type} {f : State → α → State} (h : ∀ s x, State.Idled s (f s x)) (xs : List α) (s : State) :
    State.Idled s (xs.foldl f s) := by
  induction xs generalizing s with
  | nil => exact .refl s
  | cons x xs ih => exact (h s x).trans (ih _)

end

theorem State.idled_endRun (s : State) (w : Nat) : State.Idled s (s.endRun w) := by
  have hb := booked_endRun (ws := [w]) s w (List.mem_singleton_self w)
  refine ⟨?_, hb.warp, s.sameHolders_endRun w, ?_⟩
  · have e := hb.rest
    rw [e]
  · rw [hb.rest]
    exact .refl _

theorem State.idled_rdvPause (s : State) (b : Nat) : State.Idled s (s.rdvPause b) := by
  have hp := s.paused_rdvPause b
  refine ⟨?_, hp.warp, hp.holders, ?_⟩
  · unfold rdvPause
    split <;> rfl
  · unfold rdvPause
    split
    · exact .refl _
    · exact sameOwners_mmod _ _ fun _ => rfl

theorem State.idled_pauseRdvs (s : State) (c : Nat) : State.Idled s (s.pauseRdvs c) :=
  (State.Idled.foldl idled_rdvPause _ s).trans (.foldl idled_endRun _ _)

/-! ## A warm reset starts (R327) -/

/-- What starting a reset does to a context that holds a core on the die. -/
def Ctx.freezes (x : Ctx) : Ctx := if x.frozen || x.saved then x else { x with freezing := true }

theorem Ctx.freezes_eq (x : Ctx) : x.freezes = { x with freezing := x.freezes.freezing } := by
  unfold freezes
  split <;> rfl

theorem Ctx.freezing_freezes {x : Ctx} (hf : x.frozen = false) (hs : x.saved = false) : x.freezes.freezing = true := by
  unfold freezes
  rw [hf, hs]
  rfl

/-- Contexts that are being frozen for a reset: nothing else but runs, rendezvous and cores changes. -/
structure State.Freezing (s r : State) : Prop where
  rest   : r = { s with warps := r.warps, blocks := r.blocks, cores := r.cores, ctxs := r.ctxs }
  warp   : ∀ w, Warp.Kept (s.warp w) (r.warp w)
  listed : ∀ c, (mfind r.ctxs c).isSome = (mfind s.ctxs c).isSome
  ctx    : ∀ c, r.ctx c = { s.ctx c with freezing := (r.ctx c).freezing }
  stays  : ∀ c, (s.ctx c).freezing = true → (r.ctx c).freezing = true

theorem State.Freezing.trans {s r t : State} (h : State.Freezing s r) (h' : State.Freezing r t) : State.Freezing s t where
  rest := by
    have e := h'.rest
    rw [h.rest] at e
    exact e
  warp w := (h.warp w).trans (h'.warp w)
  listed c := (h'.listed c).trans (h.listed c)
  ctx c := by
    have e := h'.ctx c
    rw [h.ctx c] at e
    exact e
  stays c hc := h'.stays c (h.stays c hc)

/-- One context is being frozen for a reset. -/
def State.beginFreeze (s : State) (c : Nat) : State := (s.modCtx c Ctx.freezes).pauseRdvs c

theorem State.beginFreeze_ctx (s : State) (c k : Nat) :
    (s.beginFreeze c).ctx k = if k = c ∧ (mfind s.ctxs c).isSome then (s.ctx c).freezes else s.ctx k := by
  have e : (s.beginFreeze c).ctx k = (s.modCtx c Ctx.freezes).ctx k := by
    unfold beginFreeze
    rw [(idled_pauseRdvs (s.modCtx c Ctx.freezes) c).rest]
    rfl
  rw [e]
  unfold ctx modCtx
  rw [mget_eq_mfind, mfind_mmod]
  by_cases hk : k = c
  · subst hk
    rw [if_pos rfl, mget_eq_mfind]
    cases mfind s.ctxs k <;> simp
  · rw [if_neg hk, if_neg fun h => hk h.1, mget_eq_mfind]

theorem State.freezing_beginFreeze (s : State) (c : Nat) : State.Freezing s (s.beginFreeze c) := by
  have hp := idled_pauseRdvs (s.modCtx c Ctx.freezes) c
  refine ⟨?_, hp.warp, fun k => ?_, fun k => ?_, fun k hk => ?_⟩
  · have e := hp.rest
    unfold beginFreeze
    rw [e]
    rfl
  · unfold beginFreeze
    rw [hp.rest]
    exact mfind_mmod_isSome ..
  · rw [beginFreeze_ctx]
    split
    · rename_i h
      rw [h.1]
      exact Ctx.freezes_eq _
    · rfl
  · rw [beginFreeze_ctx]
    split
    · rename_i h
      rw [← h.1]
      unfold Ctx.freezes
      split
      · exact hk
      · rfl
    · exact hk

theorem State.freezing_foldl (cs : List Nat) (s : State) :
    State.Freezing s (cs.foldl State.beginFreeze s) ∧ ∀ c ∈ cs, (mfind s.ctxs c).isSome → (s.ctx c).frozen = false →
      (s.ctx c).saved = false → ((cs.foldl State.beginFreeze s).ctx c).freezing = true := by
  induction cs generalizing s with
  | nil => exact ⟨⟨rfl, fun _ => rfl, fun _ => rfl, fun _ => rfl, fun _ => id⟩, fun _ h => absurd h List.not_mem_nil⟩
  | cons k cs ih =>
    have h1 := freezing_beginFreeze s k
    obtain ⟨h2, hf⟩ := ih (s.beginFreeze k)
    rw [List.foldl_cons]
    refine ⟨h1.trans h2, fun c hc hl hz hs => ?_⟩
    by_cases hk : c = k
    · subst hk
      refine h2.stays c ?_
      rw [beginFreeze_ctx, if_pos ⟨rfl, hl⟩]
      exact Ctx.freezing_freezes hz hs
    · have e := h1.ctx c
      exact hf c ((List.mem_cons.1 hc).resolve_left hk) ((h1.listed c).trans hl) (by rw [e]; exact hz) (by rw [e]; exact hs)

theorem State.startReset_eq (s : State) (d : Nat) :
    s.startReset d = (s.ctxsOn d).foldl State.beginFreeze (s.modDie d fun x => { x with st := .saving, fails := 0, kept := [] }) := rfl

theorem State.mem_ctxsOn {s : State} {d c : Nat} {x : Ctx} (hx : mfind s.ctxs c = some x)
    (hk : (x.crec.cores.any fun k => k / 40 == d) = true) : c ∈ s.ctxsOn d :=
  List.mem_map.2 ⟨(c, x), List.mem_filter.2 ⟨mem_of_mfind hx, hk⟩, rfl⟩

theorem exec_warmReset {r : Requester} {s : State} (hm : s.mayManage r = true) (hb : s.island.boot = .running) (d : Nat) :
    exec (.warmReset r d) s = .next (
      if (s.die d).st != .online || s.island.resets.contains d then s.reply .busy []
      else (({ s with island := { s.island with resets := s.island.resets ++ [d] } }).nextReset).reply .done []) := by
  change execWarmReset r d s = _
  unfold execWarmReset
  rw [State.manage_ready hm (by rw [hb]; rfl)]

theorem warmReset_busy (r : Requester) (s : State) (d : Nat) (hm : s.mayManage r = true) (hb : s.island.boot = .running)
    (h : (s.die d).st ≠ .online ∨ d ∈ s.island.resets) : answersOnly (.warmReset r d) s .busy [] := by
  refine (exec_warmReset hm hb d).trans ?_
  rw [if_pos]
  · rfl
  · rcases h with h | h <;> simp [h]

theorem warmReset_starts (r : Requester) (s : State) (d : Nat) (hm : s.mayManage r = true) (hb : s.island.boot = .running)
    (ho : (s.die d).st = .online) (hr : s.island.resets = []) (hn : ∀ k < 4, (s.die k).st.resetting = false) :
    ∃ t, exec (.warmReset r d) s = .next t ∧ (t.die d).st = .saving ∧ (∀ k, k ≠ d → t.die k = s.die k) ∧
      t.mem = s.mem ∧ (∀ w, Warp.Kept (s.warp w) (t.warp w)) ∧
      ∀ c x, mfind s.ctxs c = some x → (x.crec.cores.any fun k => k / 40 == d) = true → x.frozen = false → x.saved = false →
        (t.ctx c).freezing = true := by
  have hi : s.island.resets ++ [d] = [d] := by rw [hr]; rfl
  have he : exec (.warmReset r d) s =
      .next ((({ s with island := { s.island with resets := [] } } : State).startReset d).reply .done []) := by
    rw [exec_warmReset hm hb, if_neg (by simp [ho, hr]), hi]
    unfold State.nextReset
    dsimp only
    rw [if_neg]
    simp only [List.any_eq_true, List.mem_range, not_exists, not_and]
    intro k hk
    exact (Bool.eq_false_iff.1 (hn k hk))
  refine ⟨_, he, ?_⟩
  generalize hs0 : ({ s with island := { s.island with resets := [] } } : State) = s0
  rw [State.startReset_eq]
  obtain ⟨hf, hfz⟩ := State.freezing_foldl (s0.ctxsOn d) (s0.modDie d fun x => { x with st := .saving, fails := 0, kept := [] })
  generalize List.foldl State.beginFreeze _ _ = t at hf hfz ⊢
  have hd (k : Nat) : (t.reply .done []).die k =
      if k = d then { s.die d with st := .saving, fails := 0, kept := [] } else s.die k := by
    change mget {} t.dies k = _
    rw [hf.rest, ← hs0]
    exact s.modDie_die_eq d (fun x => { x with st := .saving, fails := 0, kept := [] }) k
  refine ⟨by rw [hd, if_pos rfl], fun k hk => by rw [hd, if_neg hk], ?_, fun w => ?_, fun c x hx hc hz hsv => ?_⟩
  · change t.mem = _
    rw [hf.rest, ← hs0]
    rfl
  · have e := hf.warp w
    rw [← hs0] at e
    exact e
  · have hx0 : mfind s0.ctxs c = some x := by rw [← hs0]; exact hx
    have hcx : State.ctx (s0.modDie d fun x => { x with st := .saving, fails := 0, kept := [] }) c = x := by
      change mget {} s0.ctxs c = x
      rw [mget_eq_mfind, hx0]
      rfl
    refine hfz c (State.mem_ctxsOn hx0 hc) ?_ (by rw [hcx]; exact hz) (by rw [hcx]; exact hsv)
    change (mfind s0.ctxs c).isSome = true
    rw [hx0]
    rfl

end Sys2Proof.Machine

/-! SUPPORT. A die is quiesced: the contexts that hold a core on it are saved and evicted (R384, steps 1 and 2). -/

namespace Sys2Proof.Machine
open Claims

/-! ## The relation -/

/-- What saving contexts for a reset leaves: no warp or block of another context appears, images stay, and what is frozen or saved
stays so. -/
structure State.Saving (s r : State) : Prop where
  timer   : r.timer = s.timer
  holders : SameHolders s.warps r.warps
  owners  : SameOwners s.blocks r.blocks
  saves   : ∀ v ∈ s.saves, ∃ v' ∈ r.saves, v'.ctx = v.ctx
  listed  : ∀ c, (mfind r.ctxs c).isSome = (mfind s.ctxs c).isSome
  saved   : ∀ c, (s.ctx c).saved = true → (r.ctx c).saved = true
  frozen  : ∀ c, (s.ctx c).frozen = true → (r.ctx c).frozen = true

section
variable {s r t : State}

theorem State.Saving.refl (s : State) : State.Saving s s :=
  ⟨rfl, .refl _, .refl _, fun v hv => ⟨v, hv, rfl⟩, fun _ => rfl, fun _ => id, fun _ => id⟩

theorem State.Saving.trans (h : State.Saving s r) (h' : State.Saving r t) : State.Saving s t where
  timer := h'.timer.trans h.timer
  holders := h.holders.trans h'.holders
  owners := h.owners.trans h'.owners
  saves v hv := by
    obtain ⟨v1, hv1, e1⟩ := h.saves v hv
    obtain ⟨v2, hv2, e2⟩ := h'.saves v1 hv1
    exact ⟨v2, hv2, e2.trans e1⟩
  listed c := (h'.listed c).trans (h.listed c)
  saved c hc := h'.saved c (h.saved c hc)
  frozen c hc := h'.frozen c (h.frozen c hc)

theorem State.Saving.foldl {α : Type} {f : State → α → State} (h : ∀ s x, State.Saving s (f s x)) (xs : List α) (s : State) :
    State.Saving s (xs.foldl f s) := by
  induction xs generalizing s with
  | nil => exact .refl s
  | cons x xs ih => exact (h s x).trans (ih _)

/-- What leaves contexts and images alone. -/
theorem State.Saving.of_same (ht : r.timer = s.timer) (hw : SameHolders s.warps r.warps) (hb : SameOwners s.blocks r.blocks)
    (hv : r.saves = s.saves) (hc : r.ctxs = s.ctxs) : State.Saving s r := by
  have hx (c : Nat) : r.ctx c = s.ctx c := by
    unfold State.ctx
    rw [hc]
  exact ⟨ht, hw, hb, fun v h => ⟨v, hv ▸ h, rfl⟩, fun c => by rw [hc], fun c h => by rw [hx]; exact h, fun c h => by rw [hx]; exact h⟩

theorem State.Idled.saving (h : State.Idled s r) : State.Saving s r :=
  .of_same (by rw [h.rest]) h.holders h.owners (by rw [h.rest]) (by rw [h.rest])

theorem State.CoresOnly.saving (h : State.CoresOnly s r) : State.Saving s r :=
  .of_same (by rw [h]) (by rw [h]; exact .refl _) (by rw [h]; exact .refl _) (by rw [h]) (by rw [h])

theorem State.saving_modCtx (s : State) (c : Nat) (f : Ctx → Ctx) (hs : ∀ x, x.saved = true → (f x).saved = true)
    (hf : ∀ x, x.frozen = true → (f x).frozen = true) : State.Saving s (s.modCtx c f) := by
  have hx (k : Nat) : (s.modCtx c f).ctx k = f (s.ctx k) ∨ (s.modCtx c f).ctx k = s.ctx k := by
    by_cases hl : (mfind s.ctxs c).isSome
    · rw [modCtx_ctx _ _ _ _ hl]
      by_cases hk : k = c
      · subst hk
        exact .inl (if_pos rfl)
      · exact .inr (if_neg hk)
    · refine .inr ?_
      unfold ctx modCtx mmod
      rw [Option.not_isSome_iff_eq_none.1 hl]
  refine ⟨rfl, .refl _, .refl _, fun v hv => ⟨v, hv, rfl⟩, fun k => mfind_mmod_isSome .., fun k hk => ?_, fun k hk => ?_⟩
  · rcases hx k with e | e <;> rw [e]
    · exact hs _ hk
    · exact hk
  · rcases hx k with e | e <;> rw [e]
    · exact hf _ hk
    · exact hk

end

/-! ## Steps -/

theorem State.saving_freezeCtx (s : State) (c : Nat) : State.Saving s (s.freezeCtx c) :=
  (((s.coresOnly_stopArrays c).saving).trans
    (saving_modCtx _ c (fun x => { x with frozen := true, freezing := false }) (fun _ => id) fun _ _ => rfl)).trans
    (idled_pauseRdvs _ c).saving

theorem State.saving_release (s : State) (w : Nat) : State.Saving s (s.release [w] .sys).1 := by
  have ht := traffic_release (P := fun _ => True) s [w] .sys fun _ _ => trivial
  have hk := (kin_release s [w] .sys).toSameHolders
  exact .of_same (by rw [ht.rest]) hk (by rw [ht.rest]; exact .refl _) (by rw [ht.rest]) (by rw [ht.rest])

theorem State.saving_releaseAll (s : State) (c : Nat) : State.Saving s (s.releaseAll c) := .foldl saving_release _ s

theorem State.saving_evict (s : State) (c : Nat) : State.Saving s (s.evict c) := by
  have h1 : State.Saving s (s.cleared c) :=
    (State.Saving.foldl (fun s w => (idled_endRun s w).saving) _ s).trans
      (.foldl (fun s k => (coresOnly_clearCore s k).saving) _ _)
  rw [evict_eq]
  refine h1.trans ?_
  generalize s.cleared c = t
  exact .of_same rfl ⟨msorted_filter _, fun e he => ⟨e.2, (List.mem_filter.1 he).1, rfl⟩⟩
    (fun e he => ⟨e.2, (List.mem_filter.1 he).1, rfl⟩) rfl rfl

theorem State.evict_blocks_gone (s : State) (c : Nat) : ∀ e ∈ (s.evict c).blocks, e.2.ctx ≠ c := by
  rw [evict_eq]
  intro e he
  simpa using (List.mem_filter.1 he).2

/-! ## One context -/

/-- A context that is about to be saved for a reset: frozen, with its releases made. -/
def State.readied (s : State) (c : Nat) (was : Bool) : State := (if was then s else s.freezeCtx c).releaseAll c

/-- The image of a context is kept. -/
def State.keepImage (s : State) (c : Nat) : State := { s with saves := s.saveOf c 0 [] :: s.saves }

theorem State.saveForReset_eq (s : State) (d c : Nat) (was : Bool) :
    s.saveForReset d c was = ((((s.readied c was).keepImage c).evict c).modCtx c fun x => { x with saved := true }).modDie d
      fun x => { x with kept := x.kept ++ [(c, was)] } := rfl

theorem State.saving_readied (s : State) (c : Nat) (was : Bool) : State.Saving s (s.readied c was) := by
  unfold readied
  refine State.Saving.trans ?_ (saving_releaseAll _ c)
  split
  · exact .refl s
  · exact saving_freezeCtx s c

theorem State.saving_keepImage (s : State) (c : Nat) : State.Saving s (s.keepImage c) :=
  ⟨rfl, .refl _, .refl _, fun v hv => ⟨v, List.mem_cons_of_mem _ hv, rfl⟩, fun _ => rfl, fun _ => id, fun _ => id⟩

theorem State.saving_modDie (s : State) (d : Nat) (f : Die → Die) : State.Saving s (s.modDie d f) :=
  .of_same rfl (.refl _) (.refl _) rfl rfl

theorem State.saving_markSaved (s : State) (c : Nat) : State.Saving s (s.modCtx c fun x => { x with saved := true }) :=
  saving_modCtx s c _ (fun _ _ => rfl) fun _ => id

theorem State.saving_saveForReset (s : State) (d c : Nat) (was : Bool) : State.Saving s (s.saveForReset d c was) := by
  rw [saveForReset_eq]
  exact ((((saving_readied s c was).trans (saving_keepImage _ c)).trans (saving_evict _ c)).trans (saving_markSaved _ c)).trans
    (saving_modDie _ d _)

/-- A context that has been saved for a reset: an image of it is kept, it counts as saved and as frozen, and it has left. -/
structure State.SavedAway (s : State) (c : Nat) : Prop where
  warps  : ∀ e ∈ s.warps, e.2.ctx ≠ c
  blocks : ∀ e ∈ s.blocks, e.2.ctx ≠ c
  image  : ∃ v ∈ s.saves, v.ctx = c
  marks  : (mfind s.ctxs c).isSome → (s.ctx c).saved = true ∧ (s.ctx c).frozen = true

theorem State.SavedAway.later {s r : State} {c : Nat} (h : s.SavedAway c) (hr : State.Saving s r) : r.SavedAway c := by
  refine ⟨hr.holders.none h.warps, hr.owners.none h.blocks, ?_, fun hl => ?_⟩
  · obtain ⟨v, hv, e⟩ := h.image
    obtain ⟨v', hv', e'⟩ := hr.saves v hv
    exact ⟨v', hv', e'.trans e⟩
  · obtain ⟨h1, h2⟩ := h.marks ((hr.listed c).symm.trans hl)
    exact ⟨hr.saved c h1, hr.frozen c h2⟩

theorem State.savedAway_saveForReset (s : State) (d c : Nat) : (s.saveForReset d c (s.ctx c).frozen).SavedAway c := by
  have h1 := saving_readied s c (s.ctx c).frozen
  have hz : (mfind s.ctxs c).isSome → ((s.readied c (s.ctx c).frozen).ctx c).frozen = true := fun hl => by
    unfold readied
    refine (saving_releaseAll _ c).frozen c ?_
    cases hf : (s.ctx c).frozen with
    | true => exact hf
    | false => exact (freezeCtx_frozen hl).1
  rw [saveForReset_eq]
  generalize s.readied c (s.ctx c).frozen = s1 at h1 hz ⊢
  have h2 := (saving_keepImage s1 c).trans (saving_evict (s1.keepImage c) c)
  have hw := ((s1.keepImage c).evict_gone c).1
  have hb := (s1.keepImage c).evict_blocks_gone c
  have hv : ∃ v ∈ ((s1.keepImage c).evict c).saves, v.ctx = c :=
    (saving_evict (s1.keepImage c) c).saves (s1.saveOf c 0 []) (List.mem_cons_self ..)
  generalize (s1.keepImage c).evict c = s2 at h2 hw hb hv ⊢
  have h3 := saving_markSaved s2 c
  have ha : (s2.modCtx c fun x => { x with saved := true }).SavedAway c := ⟨hw, hb, hv, fun hl => ⟨?_, ?_⟩⟩
  · exact ha.later (saving_modDie ..)
  · rw [modCtx_ctx _ _ _ _ ((h3.listed c).symm.trans hl), if_pos rfl]
  · refine h3.frozen c (h2.frozen c (hz ?_))
    rw [← h1.listed, ← h2.listed, ← h3.listed]
    exact hl

/-- Every context of a list is saved away. -/
theorem State.savedAway_foldl (d : Nat) (cs : List Nat) (s : State) :
    State.Saving s (cs.foldl (fun s c => s.saveForReset d c (s.ctx c).frozen) s) ∧
    ∀ c ∈ cs, (cs.foldl (fun s c => s.saveForReset d c (s.ctx c).frozen) s).SavedAway c := by
  induction cs generalizing s with
  | nil => exact ⟨.refl s, fun _ h => absurd h List.not_mem_nil⟩
  | cons k cs ih =>
    obtain ⟨h1, h2⟩ := ih (s.saveForReset d k (s.ctx k).frozen)
    rw [List.foldl_cons]
    refine ⟨(saving_saveForReset s d k _).trans h1, fun c hc => ?_⟩
    rcases List.mem_cons.1 hc with rfl | hc
    · exact (s.savedAway_saveForReset d c).later h1
    · exact h2 c hc

/-! ## The step -/

theorem State.portsDown_rest (s : State) (d : Nat) : s.portsDown d = { s with ports := (s.portsDown d).ports } := by
  unfold portsDown
  generalize List.filter _ _ = ps
  induction ps generalizing s with
  | nil => rfl
  | cons p ps ih =>
    rw [List.foldl_cons]
    split
    · rw [ih]; rfl
    · exact ih s

theorem die_quiesce (s : State) (d : Nat) (hs : (s.die d).st = .saving) :
    let cs := (s.ctxsOn d).filter fun c => !(s.ctx c).saved
    let ready (c : Nat) : Prop := s.enginesIdle c = true ∧ (s.warpsOf c).any (s.hasHeld · true) = false ∧
      ((s.ctx c).frozen = true ∨ s.warpsStopped c = true)
    ((∃ c ∈ cs, ¬ready c) → exec (.dieQuiesce d) s = .next s) ∧
    ((∀ c ∈ cs, ready c) → ∃ t, exec (.dieQuiesce d) s = .next t ∧ (t.die d).st = .offline s.timer ∧ t.timer = s.timer ∧
      (∀ c ∈ cs, (mfind s.ctxs c).isSome → (t.ctx c).saved = true ∧ (t.ctx c).frozen = true) ∧
      ∀ c ∈ cs, (∀ e ∈ t.warps, e.2.ctx ≠ c) ∧ (∀ e ∈ t.blocks, e.2.ctx ≠ c) ∧ ∃ v ∈ t.saves, v.ctx = c) := by
  intro cs ready
  have he : exec (.dieQuiesce d) s = if cs.all fun c => s.enginesIdle c && !(s.warpsOf c).any (s.hasHeld · true) &&
        ((s.ctx c).frozen || s.warpsStopped c) then
      .next (((cs.foldl (fun s c => s.saveForReset d c (s.ctx c).frozen) s).modDie d
        fun x => { x with st := .offline s.timer }).portsDown d)
      else .next s := by
    change execDieQuiesce d s = _
    unfold execDieQuiesce
    rw [hs]
    rfl
  have hready (c : Nat) : (s.enginesIdle c && !(s.warpsOf c).any (s.hasHeld · true) &&
      ((s.ctx c).frozen || s.warpsStopped c)) = true ↔ ready c := by
    simp only [Bool.and_eq_true, Bool.not_eq_true', Bool.or_eq_true, and_assoc]
    exact Iff.rfl
  constructor
  · rintro ⟨c, hc, hn⟩
    rw [he, if_neg]
    intro h
    exact hn ((hready c).1 (List.all_eq_true.1 h c hc))
  · intro h
    rw [he, if_pos (List.all_eq_true.2 fun c hc => (hready c).2 (h c hc))]
    refine ⟨_, rfl, ?_⟩
    obtain ⟨hsv, haway⟩ := State.savedAway_foldl d cs s
    generalize List.foldl _ s cs = s1 at hsv haway ⊢
    have hp := State.portsDown_rest (s1.modDie d fun x => { x with st := .offline s.timer }) d
    have h2 := State.saving_modDie s1 d fun x => { x with st := .offline s.timer }
    have hd := s1.modDie_die_eq d (fun x => { x with st := .offline s.timer }) d
    generalize (s1.modDie d fun x => { x with st := .offline s.timer }) = s2 at hp h2 hd ⊢
    rw [hp]
    refine ⟨?_, h2.timer.trans hsv.timer, fun c hc hl => ?_, fun c hc => ?_⟩
    · change (s2.die d).st = _
      rw [hd, if_pos rfl]
    · exact ((haway c hc).later h2).marks ((h2.listed c).trans ((hsv.listed c).trans hl))
    · have h := (haway c hc).later h2
      exact ⟨h.warps, h.blocks, h.image⟩

end Sys2Proof.Machine

/-! SUPPORT. A die is drained, its links retrained, and it is re-admitted (R384, steps 3 to 7). -/

namespace Sys2Proof.Machine
open Claims

/-! ## Draining -/

theorem State.tended_free (s : State) (n : Nat) : State.Tended s { s with free := n } := .of_mem rfl

theorem State.tended_writeBackUnit (s : State) (u : Nat) : State.Tended s (s.writeBackUnit u) := by
  unfold writeBackUnit
  dsimp only
  split
  · exact (((checked_setSector s u .clean).trans (checked_checkWrite ..)).trans (checked_poisonUnits ..)).tended
  · split
    · split
      · exact (s.tended_free (s.free + 1)).trans (checked_checkWrite ..).tended
      · exact s.tended_free (s.free + 1)
    · exact .refl s

theorem State.tended_writeBack (s : State) (mine : Nat → Bool) : State.Tended s (s.writeBack mine) := by
  unfold writeBack
  dsimp only
  generalize List.dedup (α := Nat) _ = us
  have h1 := State.Tended.foldl tended_writeBackUnit us s
  generalize us.foldl State.writeBackUnit s = s1 at h1 ⊢
  exact h1.trans (.of_mem rfl)

theorem State.tended_cancelOn (s : State) (d : Nat) : State.Tended s (s.cancelOn d) := .foldl tended_cancelPass _ s

theorem State.tended_abortOn (s : State) (d : Nat) : State.Tended s (s.abortOn d) :=
  .foldl (fun s (e : Nat × Ctx) => tended_jrnHwAbort s e.1) _ s

theorem State.tended_flushWhere (s : State) (sel : Nat → ULine → Bool) : State.Tended s (s.flushWhere sel) :=
  (traffic_flushWhere (P := fun _ => True) s sel fun _ _ => trivial).tended (kin_flushWhere ..)

/-- A pass that is cancelled is in no region any more, and no pass appears. -/
theorem State.cancelPass_gone (ps : List Pass) (s : State) :
    ∀ g ∈ (ps.foldl State.cancelPass s).regions, ∀ p ∈ g.passes, p.id ∉ ps.map (·.id) := by
  induction ps generalizing s with
  | nil => exact fun _ _ _ _ => List.not_mem_nil
  | cons q ps ih =>
    intro g hg p hp hm
    rw [List.foldl_cons] at hg
    rcases List.mem_cons.1 hm with e | hm
    · have h := (tended_cancelRest s q).trans (State.Tended.foldl tended_cancelPass ps (s.cancelPass q))
      obtain ⟨g', hg', -, -, hps⟩ := h.regions g hg
      obtain ⟨p', hp', e'⟩ := hps p hp
      obtain ⟨g0, -, rfl⟩ := List.mem_map.1 hg'
      have := (List.mem_filter.1 hp').2
      rw [e', e] at this
      simp at this
    · exact ih _ g hg p hp hm

/-- No region with rows on a die has a pass. -/
def State.Quelled (s : State) (d : Nat) : Prop := ∀ g ∈ s.regions, g.rows.any (onDie d) = true → g.passes = []

theorem State.quelled_cancelOn (s : State) (d : Nat) : (s.cancelOn d).Quelled d := by
  intro g hg hr
  refine List.eq_nil_iff_forall_not_mem.2 fun p hp => ?_
  obtain ⟨g', hg', e1, -, hps⟩ := (s.tended_cancelOn d).regions g hg
  obtain ⟨p', hp', e2⟩ := hps p hp
  refine cancelPass_gone _ s g hg p hp (e2 ▸ List.mem_map_of_mem (List.mem_flatMap.2 ⟨g', List.mem_filter.2 ⟨hg', ?_⟩, hp'⟩))
  rw [e1]
  exact hr

theorem State.Quelled.later {s r : State} {d : Nat} (h : s.Quelled d) (hr : State.Tended s r) : r.Quelled d := by
  intro g hg ho
  refine List.eq_nil_iff_forall_not_mem.2 fun p hp => ?_
  obtain ⟨g', hg', e1, -, hps⟩ := hr.regions g hg
  obtain ⟨p', hp', -⟩ := hps p hp
  rw [h g' hg' (by rw [e1]; exact ho)] at hp'
  exact List.not_mem_nil hp'

/-- The caches of a die are written back, and what engines do there ends. -/
def State.settledOn (s : State) (d : Nat) : State :=
  (((s.writeBack fun l => homeDie l == d).cancelOn d).abortOn d).flushWhere fun k _ => k / 40 == d

theorem State.settledOn_spec (s : State) (d : Nat) : State.Tended s (s.settledOn d) ∧ (s.settledOn d).Quelled d := by
  have h1 := s.tended_writeBack fun l => homeDie l == d
  unfold settledOn
  generalize s.writeBack _ = s1 at h1 ⊢
  have h2 := ((s1.cancelOn d).tended_abortOn d).trans (tended_flushWhere _ fun k _ => k / 40 == d)
  exact ⟨(h1.trans (s1.tended_cancelOn d)).trans h2, (s1.quelled_cancelOn d).later h2⟩

/-- A core as the reset of its die leaves it, if it lies on the die. -/
def resetCore (d k : Nat) (c : Core) : Core := if k / 40 == d then { c.afterReset with uLines := c.uLines } else c

theorem mfind_mapKey {α β : Type} (g : Nat → α → β) (m : SMap α) (k : Nat) :
    mfind (m.map fun e => (e.1, g e.1 e.2)) k = (mfind m k).map (g k) := by
  induction m with
  | nil => rfl
  | cons e m ih =>
    obtain ⟨j, x⟩ := e
    simp only [List.map_cons, mfind]
    split
    · subst k; rfl
    · exact ih

/-- A core that its die's reset has cleared: its bands are off, and it neither stands halted nor holds tiles. -/
theorem Core.afterReset_clear (c : Core) (u : List ULine) (b : Nat) :
    (({ c.afterReset with uLines := u } : Core).band b).st = .off := by
  unfold band afterReset
  dsimp only
  rw [mget_eq_mfind, mfind_map fun _ : Band => ({ st := .off, failed := true } : Band)]
  cases mfind (c.bands.filter fun e => e.2.failed) b <;> rfl

theorem exec_dieDrain {s : State} {d at_ : Nat} (h : (s.die d).st = .offline at_) :
    ∃ chans, exec (.dieDrain d) s = .next (({ s.settledOn d with
      cores := (s.settledOn d).cores.map fun e => (e.1, resetCore d e.1 e.2), chans } : State).modDie d fun x =>
        { x.setBoost 0 s.timer with st := .drained at_, wakes := [], wakeFree := 0, fillers := [] }) := by
  refine ⟨(s.settledOn d).chans.map fun (e : Nat × Chan) => if e.1 / 64 == d then (e.1, e.2.afterReset) else e, ?_⟩
  have hc : ((s.settledOn d).cores.map fun (e : Nat × Core) =>
      if e.1 / 40 == d then (e.1, { e.2.afterReset with uLines := e.2.uLines }) else e) =
      (s.settledOn d).cores.map fun e => (e.1, resetCore d e.1 e.2) := by
    refine List.map_congr_left fun e _ => ?_
    unfold resetCore
    split <;> rfl
  rw [← hc]
  change execDieDrain d s = _
  unfold execDieDrain
  rw [h]
  rfl

theorem die_drain (s : State) (d at_ : Nat) (h : (s.die d).st = .offline at_) :
    ∃ t, exec (.dieDrain d) s = .next t ∧ (t.die d).st = .drained at_ ∧ t.timer = s.timer ∧
      (∀ g ∈ t.regions, (g.rows.any fun r => isDram r && homeDie r == d) = true → g.passes = []) ∧
      ∀ k, k / 40 = d → (∀ b, ((t.core k).band b).st = .off) ∧ (t.core k).halted = false ∧ (t.core k).tiles = [] := by
  obtain ⟨chans, he⟩ := exec_dieDrain h
  refine ⟨_, he, ?_⟩
  obtain ⟨ht, hq⟩ := s.settledOn_spec d
  generalize s.settledOn d = s2 at ht hq ⊢
  generalize hs3 : ({ s2 with cores := s2.cores.map fun e => (e.1, resetCore d e.1 e.2), chans } : State) = s3
  have hc (k : Nat) : s3.core k = ((mfind s2.cores k).map (resetCore d k)).getD {} := by
    subst hs3
    unfold State.core
    rw [mget_eq_mfind, mfind_mapKey]
  refine ⟨?_, ?_, ?_, fun k hk => ?_⟩
  · rw [s3.modDie_die_eq, if_pos rfl]
  · subst hs3
    change s2.timer = _
    rw [ht.rest]
  · subst hs3
    exact hq
  · rw [State.modDie_core, hc]
    cases mfind s2.cores k with
    | none => exact ⟨fun b => rfl, rfl, rfl⟩
    | some c =>
      have e : ((some c).map (resetCore d k)).getD {} = { c.afterReset with uLines := c.uLines } := by
        change resetCore d k c = _
        unfold resetCore
        rw [if_pos (by simpa using hk)]
      rw [e]
      exact ⟨fun b => c.afterReset_clear c.uLines b, rfl, rfl⟩

/-! ## Retraining -/

theorem exec_dieRetrain_ok {s : State} {d at_ : Nat} (h : (s.die d).st = .drained at_) :
    exec (.dieRetrain d true) s = .next { s.modDie d fun x => { x with st := .retrained at_ } with
      links := (dieLinks d).foldl (fun m l => mset false m l false) s.links } := by
  change execDieRetrain d true s = _
  unfold execDieRetrain
  rw [h]
  rfl

theorem exec_dieRetrain_fails {s : State} {d at_ : Nat} (h : (s.die d).st = .drained at_) :
    exec (.dieRetrain d false) s =
      if 3 ≤ (s.die d).fails + 1 then .next ((s.modDie d fun x => { x with fails := x.fails + 1 }).loseDie d)
      else .next (s.modDie d fun x => { x with fails := x.fails + 1 }) := by
  change execDieRetrain d false s = _
  unfold execDieRetrain
  rw [h]
  rfl

theorem die_retrain (s : State) (d at_ : Nat) (h : (s.die d).st = .drained at_) :
    (∃ t, exec (.dieRetrain d true) s = .next t ∧ (t.die d).st = .retrained at_ ∧
      mget false t.links (d / 2) = false ∧ mget false t.links (2 + d % 2) = false ∧ t.mem = s.mem) ∧
    ((s.die d).fails + 1 < 3 → ∃ t, exec (.dieRetrain d false) s = .next t ∧
      t.die d = { s.die d with fails := (s.die d).fails + 1 } ∧ t.mem = s.mem) := by
  refine ⟨⟨_, exec_dieRetrain_ok h, ?_, ?_, ?_, rfl⟩, fun hf => ?_⟩
  · change ((s.modDie d fun x => { x with st := .retrained at_ }).die d).st = _
    rw [s.modDie_die_eq, if_pos rfl]
  · change mget false (mset false (mset false s.links (d / 2) false) (2 + d % 2) false) (d / 2) = false
    rw [mget_mset, mget_mset, if_pos rfl, ite_self]
  · exact mget_mset_self false (mset false s.links (d / 2) false) (2 + d % 2) false
  · refine ⟨_, (exec_dieRetrain_fails h).trans (if_neg (by omega)), ?_, rfl⟩
    rw [s.modDie_die_eq, if_pos rfl]

/-! ## Coming back -/

section
variable {s : State}

theorem State.releaseHeld_nil (h : s.held = []) : s.releaseHeld = s := by
  unfold releaseHeld
  simp only [h, List.filter_nil, List.foldl_nil]
  rw [← h]

theorem State.flushWhere_noULines (h : NoULines s) (sel : Nat → ULine → Bool) : s.flushWhere sel = s := by
  have hu : s.uCores = [] := by
    unfold uCores
    rw [List.filter_eq_nil_iff.2 fun e he => by rw [h e he]; simp]
    rfl
  unfold flushWhere
  rw [hu]
  rfl

theorem State.settleDones_nil (h : s.dones = []) : s.settleDones = s := by
  unfold settleDones
  simp only [h, List.filter_nil, List.foldl_nil]
  rw [← h]

theorem State.nextReset_nil (h : s.island.resets = []) : s.nextReset = s := by
  unfold nextReset
  rw [h]

end

theorem State.tended_restoreOn (s : State) (d : Nat) : State.Tended s (s.restoreOn d) := by
  unfold restoreOn
  refine .foldl (fun t e => ?_) _ s
  refine State.Tended.trans (.foldl (fun u r => ?_) _ t) (tended_modCtx _ _ _ fun _ => rfl)
  split
  · exact tended_jrnRestoreRow ..
  · exact .refl u

/-- The die that comes back. -/
def State.readmitted (s : State) (d : Nat) : State := s.modDie d fun x => { x with st := .online, kept := [] }

theorem exec_dieReadmit {s : State} {d at_ : Nat} (h : (s.die d).st = .retrained at_) (hk : (s.die d).kept = []) :
    exec (.dieReadmit d) s = .next ((((((s.readmitted d).restoreOn d).releaseHeld).flushWhere
      fun _ u => homeDie (128 * u.line) == d).settleDones).nextReset) := by
  change execDieReadmit d s = _
  unfold execDieReadmit
  rw [h]
  dsimp only
  rw [hk]
  rfl

/-- A row that is restored whole while nothing else is on its way to it. -/
theorem State.jrnRestoreRow_clean {s : State} (hu : NoULines s) {row : Nat} {bs : List Byte} (hf : s.fenced (physRM row) = false) :
    s.jrnRestoreRow row (bs, []) = (s.performPiece {} false 6 ((span row 1024).zip bs)).bankWrote (span row 1024) := by
  unfold jrnRestoreRow
  generalize span row 1024 = ls
  dsimp only
  rw [hf, recall_noULines hu]
  rfl

theorem State.stored_performPiece (s : State) (rmw : Bool) (src : Nat) (bs : List (Nat × Byte)) :
    State.Stored (fun _ => True) s (s.performPiece {} rmw src bs) :=
  (checked_checkWrites ..).stored.trans (stored_writePiece _ rmw fun _ _ => trivial)

theorem State.Stored.unheld {P : Nat → Prop} {s r : State} (h : State.Stored P s r) : r.held = s.held ∧ r.cores = s.cores := by
  rw [h.rest]
  exact ⟨rfl, rfl⟩

theorem State.bankWrote_unheld (s : State) (ls : List Nat) : (s.bankWrote ls).held = s.held ∧ (s.bankWrote ls).cores = s.cores :=
  ⟨rfl, rfl⟩

theorem State.jrnRestoreRow_unheld {s : State} (hu : NoULines s) {row : Nat} {bs : List Byte} (hf : s.fenced (physRM row) = false) :
    (s.jrnRestoreRow row (bs, [])).held = s.held ∧ (s.jrnRestoreRow row (bs, [])).cores = s.cores := by
  obtain ⟨h1, h2⟩ := (stored_performPiece s false 6 ((span row 1024).zip bs)).unheld
  rw [jrnRestoreRow_clean hu hf]
  obtain ⟨h3, h4⟩ := bankWrote_unheld (s.performPiece {} false 6 ((span row 1024).zip bs)) (span row 1024)
  exact ⟨h3.trans h1, h4.trans h2⟩

theorem State.performPiece_peek {s : State} (hr : RowsKnown s) (rmw : Bool) (src : Nat) {lo n : Nat} {bs : List Byte} (hl : bs.length = n)
    (hd : ∀ l ∈ span lo n, s.discards l = false) : (s.performPiece {} rmw src ((span lo n).zip bs)).mem.peek lo n = bs := by
  have hz : (span lo n).length = bs.length := by rw [length_span, hl]
  have hn : (span lo n).Nodup := nodup_span ..
  unfold Mem.peek
  generalize span lo n = ls at hz hn hd ⊢
  refine List.ext_getElem (by rw [List.length_map, hz]) fun i h1 h2 => ?_
  have h3 : i < ls.length := hz ▸ h2
  have hm : (ls[i], bs[i]) ∈ ls.zip bs := by
    have := List.getElem_mem (l := ls.zip bs) (n := i) (by rw [List.length_zip]; omega)
    rwa [List.getElem_zip] at this
  rw [List.getElem_map]
  exact performPiece_byte_mem hr {} rmw src (by rw [List.map_fst_zip (by omega)]; exact hn) hm (hd _ (List.getElem_mem h3))

theorem State.bankWrote_peek (s : State) (ls : List Nat) (lo n : Nat) : (s.bankWrote ls).mem.peek lo n = s.mem.peek lo n := rfl

theorem State.jrnRestoreRow_peek {s : State} (hu : NoULines s) (hr : RowsKnown s) {row : Nat} {bs : List Byte} (hl : bs.length = 1024)
    (hf : s.fenced (physRM row) = false) (hd : ∀ l ∈ span row 1024, s.discards l = false) :
    (s.jrnRestoreRow row (bs, [])).mem.peek row 1024 = bs := by
  rw [jrnRestoreRow_clean hu hf, bankWrote_peek]
  exact performPiece_peek hr false 6 hl hd

/-- A restore of the one row that one context is owed, where no core holds update-only lines. -/
theorem State.restoreOn_one {s : State} {d c r : Nat} {x : Ctx} {bs : List Byte} (hc : s.ctxs = [(c, x)])
    (ho : x.jrn.owed = [(r, (bs, []))]) (hd : onDie d r = true) :
    ∃ f, s.restoreOn d = (s.jrnRestoreRow r (bs, [])).modCtx c f := by
  have hx : (s.ctx c).jrn.owed = [(r, (bs, []))] := by
    unfold ctx
    rw [hc]
    simp only [mget, if_true]
    exact ho
  refine ⟨fun x => { x with jrn := { x.jrn with owed := ((s.ctx c).jrn.owed).filter fun r => !onDie d r.1 } }, ?_⟩
  unfold restoreOn
  rw [hc]
  simp only [List.foldl_cons, List.foldl_nil]
  rw [hx]
  simp only [List.foldl_cons, List.foldl_nil, hd, if_true]

/-- What the re-admission of a die restores, where one context is owed one row. -/
theorem State.restoreOn_peek {s : State} {d : Nat} (hu : NoULines s) (hr : RowsKnown s) {c r : Nat} {x : Ctx} {bs : List Byte}
    (hc : s.ctxs = [(c, x)]) (ho : x.jrn.owed = [(r, (bs, []))]) (hl : bs.length = 1024) (hi : isDram r = true) (hd : homeDie r = d)
    (hf : s.fenced (physRM r) = false) (hdis : ∀ l ∈ span r 1024, s.discards l = false) :
    (s.restoreOn d).mem.peek r 1024 = bs ∧ (s.restoreOn d).held = s.held ∧ NoULines (s.restoreOn d) := by
  obtain ⟨f, e⟩ := restoreOn_one hc ho (d := d) (by unfold onDie; rw [hi, hd]; simp)
  have hp := jrnRestoreRow_peek hu hr hl hf hdis
  obtain ⟨hh, hcores⟩ := jrnRestoreRow_unheld (bs := bs) hu hf
  rw [e]
  generalize s.jrnRestoreRow r (bs, []) = t at hp hh hcores ⊢
  refine ⟨hp, hh, ?_⟩
  change ∀ e ∈ t.cores, _
  rw [hcores]
  exact hu

theorem die_readmit (s : State) (d at_ : Nat) (h : (s.die d).st = .retrained at_) (hk : (s.die d).kept = []) (hh : s.held = [])
    (hdn : s.dones = []) (hrs : s.island.resets = []) (hu : NoULines s) (hr : RowsKnown s) :
    ∃ t, exec (.dieReadmit d) s = .next t ∧ (t.die d).st = .online ∧
      ∀ c x r bs, s.ctxs = [(c, x)] → x.jrn.owed = [(r, (bs, []))] → bs.length = 1024 → isDram r = true → homeDie r = d →
        s.fenced (physRM r) = false → (∀ l ∈ span r 1024, s.discards l = false) → t.mem.peek r 1024 = bs := by
  have hd1 : ((s.readmitted d).die d).st = .online := by
    unfold State.readmitted
    rw [s.modDie_die_eq, if_pos rfl]
  have h1 := (s.readmitted d).tended_restoreOn d
  have h2 := (h1.trans (State.tended_releaseHeld _)).trans (State.tended_flushWhere _ fun _ u => homeDie (128 * u.line) == d)
  have he := exec_dieReadmit h hk
  have hp := fun c x r bs hc ho hl hi hd hf hdis =>
    State.restoreOn_peek (s := s.readmitted d) (d := d) hu hr (c := c) (x := x) (r := r) (bs := bs) hc ho hl hi hd hf hdis
  generalize (s.readmitted d).restoreOn d = s2 at h2 he hp
  have hz : s2.held = [] → NoULines s2 → (s2.releaseHeld.flushWhere fun _ u => homeDie (128 * u.line) == d) = s2 := fun hh hu => by
    rw [State.releaseHeld_nil hh, State.flushWhere_noULines hu]
  generalize (s2.releaseHeld.flushWhere fun _ u => homeDie (128 * u.line) == d) = u at h2 he hz
  have hdu : u.dones = [] := by rw [h2.rest]; exact hdn
  have hru : u.island.resets = [] := by rw [h2.rest]; exact hrs
  rw [State.settleDones_nil hdu, State.nextReset_nil hru] at he
  refine ⟨u, he, by rw [h2.die]; exact hd1, fun c x r bs hc ho hl hi hd hf hdis => ?_⟩
  obtain ⟨p1, p2, p3⟩ := hp c x r bs hc ho hl hi hd hf hdis
  rw [hz (p2.trans hh) p3]
  exact p1

theorem warm_resets : Claims.warmResets :=
  ⟨refusesOthers_of_manage fun _ _ => rfl,
    fun r s d hm hb _ => ⟨warmReset_busy r s d hm hb, warmReset_starts r s d hm hb⟩, die_quiesce, die_drain,
    fun s d at_ _ h => die_retrain s d at_ h, die_readmit⟩

end Sys2Proof.Machine

/-! SUPPORT. A die that is lost: the traps of its contexts, and the writes that were held for it (R380, R383, R385). -/

namespace Sys2Proof.Machine
open Claims

/-! ## The relation -/

/-- What losing a die keeps: time, what the dies are at, which contexts there are with their records, and a dead one dead. -/
structure State.Mourned (s r : State) : Prop where
  timer  : r.timer = s.timer
  resets : r.island.resets = s.island.resets
  die    : ∀ k, (r.die k).st = (s.die k).st
  sorted : msorted s.warps = true → msorted r.warps = true
  listed : ∀ c, (mfind r.ctxs c).isSome = (mfind s.ctxs c).isSome
  crec   : ∀ c, (r.ctx c).crec = (s.ctx c).crec
  dead   : ∀ c, (s.ctx c).dead = true → (r.ctx c).dead = true

section
variable {s r t : State}

theorem State.Mourned.refl (s : State) : State.Mourned s s :=
  ⟨rfl, rfl, fun _ => rfl, id, fun _ => rfl, fun _ => rfl, fun _ => id⟩

theorem State.Mourned.trans (h : State.Mourned s r) (h' : State.Mourned r t) : State.Mourned s t where
  timer := h'.timer.trans h.timer
  resets := h'.resets.trans h.resets
  die k := (h'.die k).trans (h.die k)
  sorted hs := h'.sorted (h.sorted hs)
  listed c := (h'.listed c).trans (h.listed c)
  crec c := (h'.crec c).trans (h.crec c)
  dead c hc := h'.dead c (h.dead c hc)

theorem State.Mourned.foldl {α : Type} {f : State → α → State} (h : ∀ s x, State.Mourned s (f s x)) (xs : List α) (s : State) :
    State.Mourned s (xs.foldl f s) := by
  induction xs generalizing s with
  | nil => exact .refl s
  | cons x xs ih => exact (h s x).trans (ih _)

theorem State.Tended.mourned (h : State.Tended s r) : State.Mourned s r where
  timer := by rw [h.rest]
  resets := by rw [h.rest]
  die k := by rw [h.die]
  sorted := h.holders.sorted
  listed := h.listed
  crec c := by rw [h.ctx]
  dead c hc := by rw [h.ctx]; exact hc

/-- What leaves contexts alone. -/
theorem State.Mourned.of_same (ht : r.timer = s.timer) (hi : r.island = s.island) (hd : r.dies = s.dies)
    (hw : msorted s.warps = true → msorted r.warps = true) (hc : r.ctxs = s.ctxs) : State.Mourned s r := by
  have hx (c : Nat) : r.ctx c = s.ctx c := by
    unfold State.ctx
    rw [hc]
  exact ⟨ht, by rw [hi], fun k => by unfold State.die; rw [hd], hw, fun c => by rw [hc], fun c => by rw [hx],
    fun c h => by rw [hx]; exact h⟩

theorem State.Idled.mourned (h : State.Idled s r) : State.Mourned s r :=
  .of_same (by rw [h.rest]) (by rw [h.rest]) (by rw [h.rest]) h.holders.sorted (by rw [h.rest])

theorem State.mourned_modCtx (s : State) (c : Nat) (f : Ctx → Ctx) (hr : ∀ x, (f x).crec = x.crec)
    (hd : ∀ x, x.dead = true → (f x).dead = true) : State.Mourned s (s.modCtx c f) := by
  have hx (k : Nat) : (s.modCtx c f).ctx k = f (s.ctx k) ∨ (s.modCtx c f).ctx k = s.ctx k := by
    by_cases hl : (mfind s.ctxs c).isSome
    · rw [modCtx_ctx _ _ _ _ hl]
      by_cases hk : k = c
      · subst hk
        exact .inl (if_pos rfl)
      · exact .inr (if_neg hk)
    · refine .inr ?_
      unfold ctx modCtx mmod
      rw [Option.not_isSome_iff_eq_none.1 hl]
  refine ⟨rfl, rfl, fun _ => rfl, id, fun k => mfind_mmod_isSome .., fun k => ?_, fun k hk => ?_⟩
  · rcases hx k with e | e <;> rw [e]
    exact hr _
  · rcases hx k with e | e <;> rw [e]
    · exact hd _ hk
    · exact hk

end

/-! ## The dump of a context that is not resident (R363) -/

theorem State.kin_place (s : State) (w : Nat) (a : How) (p : Word) : Kin s.warps (s.place w a p).1.warps := by
  unfold place
  dsimp only
  split
  · split
    · exact .refl _
    · exact kin_devByte ..
  · split
    · exact .refl _
    · exact kin_devByte ..
  · split
    · exact .refl _
    · exact kin_devByte ..
  · split
    · exact .refl _
    · split <;> exact .refl _
  · split <;> exact .refl _
  · split
    · exact .refl _
    · exact kin_devByte ..
  · exact .refl _
  · split
    · exact .refl _
    · split <;> exact .refl _
  · split
    · exact .refl _
    · have h1 := kin_translate s (s.warp w).ctx true a p (p.extractLsb' 0 48).toNat
      split <;> rename_i e <;> rw [e] at h1 <;> exact h1
  · exact .refl _

theorem State.tended_place (s : State) (w : Nat) (a : How) (p : Word) : State.Tended s (s.place w a p).1 :=
  (traffic_place (P := fun _ => True) s w a p fun _ _ => trivial).tended (kin_place ..)

theorem State.tended_store (s : State) (ws : List Nat) (src : Nat) (p : Word) (bs : List (Nat × Byte)) :
    State.Tended s (s.store ws src p bs) :=
  (traffic_store (P := fun _ => True) s ws src p bs (fun _ _ => trivial) fun _ _ => trivial).tended (kin_store ..)

theorem State.tended_writeArea (w : Nat) (ws : List Nat) (base : Word) : ∀ (n : Nat) (s : State) (off : Nat) (bs : List Byte),
    State.Tended s (s.writeArea w ws base n off bs).1 := by
  intro n
  induction n with
  | zero => exact fun s _ _ => .refl s
  | succ n ih =>
    intro s off bs
    unfold writeArea
    split
    · exact .refl s
    · have h1 := tended_place s w { write := true } (base + BitVec.ofNat 64 off)
      dsimp only
      split <;> rename_i e <;> rw [e] at h1
      · exact h1
      · exact (h1.trans (tended_store ..)).trans (ih ..)
      · exact h1

theorem State.tended_writeAt (s : State) (w : Nat) (ws : List Nat) (base : Word) (off : Nat) (bs : List Byte) :
    State.Tended s (s.writeAt w ws base off bs).1 := by
  unfold writeAt
  exact tended_writeArea w ws base (bs.length / 256 + 2) s off bs

theorem State.tended_writeSections (w : Nat) (ws : List Nat) (base : Word) : ∀ (es : List (Nat × Section_)) (s : State) (n : Nat),
    State.Tended s (s.writeSections w ws base n es).1 := by
  intro es
  induction es with
  | nil => exact fun s _ => .refl s
  | cons e es ih =>
    intro s n
    have h1 := tended_writeAt s w ws base n (zeros (e.1 - n) ++ e.2.body)
    unfold writeSections
    split <;> rename_i q <;> rw [q] at h1
    · exact h1
    · exact h1.trans (ih ..)

/-- p`n` of a warp becomes poisoned. -/
def Warp.poisonP (w : Warp) (n : Nat) : Warp :=
  if n = 0 then w
  else { w.pset n ((poisonPattern 4).setWidth 32) with pMark := mset none w.pMark n (some (wordMark (0x10200 + 4 * n))) }

theorem Warp.poisonP_ctx (w : Warp) (n : Nat) : (w.poisonP n).ctx = w.ctx := by
  unfold poisonP
  split
  · rfl
  · exact w.pset_ctx n _

theorem Warp.poisonWord_ctx (w : Warp) (k : Nat) : (w.poisonWord k).ctx = w.ctx := by
  unfold poisonWord
  dsimp only
  split
  · rfl
  · split
    · rfl
    · exact (poisonP_ctx (w.poisonP (2 * (k - 8256))) (2 * (k - 8256) + 1)).trans (w.poisonP_ctx _)

theorem State.mourned_checkWord (s : State) (w k : Nat) : State.Mourned s (s.checkWord w k) := by
  unfold checkWord
  dsimp only
  have hw (f : Warp → Warp) (hf : ∀ x, (f x).ctx = x.ctx) := tended_modWarp s w hf
  split
  · exact .refl s
  · exact ((hw (fun y => { y with words := mdel y.words k }) fun _ => rfl).trans (checked_countCorr ..).tended).mourned
  · exact ((hw (fun y => { y.poisonWord k with words := mdel y.words k }) fun x => x.poisonWord_ctx k).trans
      (checked_report ..).tended).mourned

theorem State.mourned_checkQ (s : State) (b n : Nat) : State.Mourned s (s.checkQ b n) := by
  unfold checkQ
  dsimp only
  have hb (f : Block → Block) : State.Mourned s (s.modBlk b f) := .of_same rfl rfl rfl id rfl
  split
  · exact .refl s
  · exact (hb _).trans (checked_countCorr ..).tended.mourned
  · exact (hb _).trans (checked_report ..).tended.mourned

theorem State.mourned_checkAllWords (s : State) (c : Nat) : State.Mourned s (s.checkAllWords c) :=
  (State.Mourned.foldl (fun s (e : Nat × Warp) => .foldl (fun s k => mourned_checkWord s e.1 k) _ s) _ s).trans
    (.foldl (fun s (e : Nat × Block) => .foldl (fun s n => mourned_checkQ s e.1 n) _ s) _ _)

theorem State.mourned_writeDump (s : State) (c : Nat) (d : Dying) : State.Mourned s (s.writeDump c d) := by
  unfold writeDump
  dsimp only
  split
  · exact .refl s
  · have h1 : State.Mourned s (s.checkAllWords c).fresh.2 := (mourned_checkAllWords s c).trans (.of_same rfl rfl rfl id rfl)
    refine ((h1.trans (tended_writeSections ..).mourned).trans (tended_writeAt ..).mourned).trans
      ((tended_writeAt ..).mourned.trans (mourned_modCtx _ c _ (fun x => ?_) fun x hx => ?_))
    · generalize Option.isSome _ = b
      cases b <;> rfl
    · generalize Option.isSome _ = b
      cases b <;> exact hx

end Sys2Proof.Machine

/-! SUPPORT. Losing a die: every context that holds a core on it ends, and held writes fail (R383, R385). -/

namespace Sys2Proof.Machine
open Claims

/-! ## Contexts that end -/

theorem State.mourned_modCore (s : State) (k : Nat) (f : Core → Core) : State.Mourned s (s.modCore k f) :=
  .of_same rfl rfl rfl id rfl

theorem State.mourned_trace (s : State) (w kind : Nat) (v : Word) : State.Mourned s (s.trace w kind v) := by
  unfold trace
  extract_lets k c ctl on
  split
  · exact mourned_modCore ..
  · exact .refl s

theorem State.dead_of_modCtx {s : State} {c : Nat} {f : Ctx → Ctx} (hl : (mfind s.ctxs c).isSome) (hf : ∀ x, (f x).dead = true) :
    ((s.modCtx c f).ctx c).dead = true := by
  rw [modCtx_ctx _ _ _ _ hl, if_pos rfl]
  exact hf _

/-- A fatal trap ends the context of its warp. -/
theorem State.fatalAt_ends {s : State} {w c : Nat} (hw : (s.warp w).ctx = c) (hl : (mfind s.ctxs c).isSome) (t : Trap) (epc : Word)
    (origin : Nat) (gone : List Nat) :
    State.Mourned s (s.fatalAt w t epc origin gone) ∧ ((s.fatalAt w t epc origin gone).ctx c).dead = true := by
  have h1 : State.Mourned s ((s.endRun w).modWarp w fun x => { x.setTrapRegs t epc origin with stopped := true, park := .none }) :=
    (idled_endRun s w).mourned.trans (tended_modWarp (s.endRun w) w
      (f := fun x => { x.setTrapRegs t epc origin with stopped := true, park := .none }) fun _ => rfl).mourned
  unfold fatalAt
  dsimp only
  rw [hw]
  generalize ((s.endRun w).modWarp w fun x => { x.setTrapRegs t epc origin with stopped := true, park := .none }) = s1 at h1 ⊢
  split
  · rename_i hd
    have h2 := h1.trans (mourned_modCtx s1 c (fun x => { x with dying := x.dying.map fun y => y.first (s.dyingOf w t epc origin gone) })
      (fun _ => rfl) fun _ => id)
    exact ⟨h2, h2.dead c hd⟩
  · have h2 := (h1.trans (mourned_trace s1 w 9 (causeWord t origin))).trans
      (.foldl (fun s k => mourned_modCore s k fun x => { x with traceCtl := x.traceCtl ||| 8 }) (s.ctx c).crec.cores _)
    generalize List.foldl _ (s1.trace w 9 (causeWord t origin)) _ = s3 at h2 ⊢
    have h3 := mourned_modCtx s3 c (fun x => { x with dead := true, freezing := !x.frozen, dying := some (s.dyingOf w t epc origin gone) })
      (fun _ => rfl) fun _ _ => rfl
    have hd : ((s3.modCtx c fun x => { x with dead := true, freezing := !x.frozen, dying := some (s.dyingOf w t epc origin gone) }).ctx
        c).dead = true := dead_of_modCtx ((h2.listed c).trans hl) fun _ => rfl
    have h4 := (idled_pauseRdvs (s3.modCtx c fun x =>
      { x with dead := true, freezing := !x.frozen, dying := some (s.dyingOf w t epc origin gone) }) c).mourned
    exact ⟨(h2.trans h3).trans h4, h4.dead c hd⟩

/-- A context that is not resident counts as dead and frozen. -/
def State.buried (s : State) (c : Nat) : State :=
  (s.fresh.2.modCtx c fun x => { x with dead := true, frozen := true, freezing := false }).jrnHwAbort c

/-- The dump of a context that is not resident is written, through a warp that stands for it meanwhile, and logged. -/
def State.dumpFor (s : State) (c w : Nat) (d : Dying) : State :=
  (((s.setWarp w { ctx := c, retired := true }).writeDump c d).modCtx c fun x => { x with log := x.log ++ [.fatalTrap d.cause] })

theorem State.endAbsent_eq (s : State) (c : Nat) (gone : List Nat) : ∃ d, s.endAbsent c gone =
    { (s.buried c).dumpFor c (32 * s.nextId) d with warps := mdel ((s.buried c).dumpFor c (32 * s.nextId) d).warps (32 * s.nextId) } :=
  ⟨{ w := 32 * s.nextId, clock := s.clock, timer := s.timer, cause := causeWord { code := 0x30 } 0, epc := 0,
     badaddr := 0, core := gone.headD 0, slot := 0, gone }, rfl⟩

theorem State.mourned_dumpFor (s : State) (c w : Nat) (d : Dying) : State.Mourned s (s.dumpFor c w d) := by
  have h1 : State.Mourned s (s.setWarp w { ctx := c, retired := true }) := .of_same rfl rfl rfl (msorted_mins w _) rfl
  exact (h1.trans (mourned_writeDump ..)).trans (mourned_modCtx _ c _ (fun _ => rfl) fun _ => id)

theorem State.endAbsent_ends {s : State} {c : Nat} (hl : (mfind s.ctxs c).isSome) (gone : List Nat) :
    State.Mourned s (s.endAbsent c gone) ∧ ((s.endAbsent c gone).ctx c).dead = true := by
  obtain ⟨d, e⟩ := s.endAbsent_eq c gone
  rw [e]
  have h0 : State.Mourned s s.fresh.2 := .of_same rfl rfl rfl id rfl
  have h1 := mourned_modCtx s.fresh.2 c (fun x => { x with dead := true, frozen := true, freezing := false }) (fun _ => rfl)
    fun _ _ => rfl
  have hd : ((s.fresh.2.modCtx c fun x => { x with dead := true, frozen := true, freezing := false }).ctx c).dead = true :=
    dead_of_modCtx hl fun _ => rfl
  have h2 : State.Mourned (s.fresh.2.modCtx c fun x => { x with dead := true, frozen := true, freezing := false }) (s.buried c) :=
    (tended_jrnHwAbort _ c).mourned
  have h3 := h2.trans (mourned_dumpFor (s.buried c) c (32 * s.nextId) d)
  generalize (s.buried c).dumpFor c (32 * s.nextId) d = t at h3 ⊢
  have h4 : State.Mourned t { t with warps := mdel t.warps (32 * s.nextId) } := .of_same rfl rfl rfl (msorted_filter _) rfl
  exact ⟨(h0.trans h1).trans (h3.trans h4), (h3.trans h4).dead c hd⟩

theorem State.firstWarp_mem {s : State} {ws : List Nat} {w : Nat} (h : s.firstWarp ws = some w) : w ∈ ws := by
  unfold firstWarp at h
  suffices hs : ∀ (ws : List Nat) (b : Option Nat), ws.foldl (fun best w =>
      match best with
      | none => some w
      | some b => if s.coreOf w * 64 + (s.warp w).slot < s.coreOf b * 64 + (s.warp b).slot then some w else some b) b = some w →
      w ∈ ws ∨ b = some w from (hs ws none h).resolve_right (by simp)
  intro ws
  induction ws with
  | nil => exact fun b h => .inr h
  | cons v ws ih =>
    intro b h
    rcases ih _ h with h | h
    · exact .inl (List.mem_cons_of_mem _ h)
    · cases b with
      | none => exact .inl (by rw [Option.some.inj h]; exact List.mem_cons_self ..)
      | some u =>
        dsimp only at h
        split at h
        · exact .inl (by rw [Option.some.inj h]; exact List.mem_cons_self ..)
        · exact .inr h

theorem State.warpsOf_ctx {s : State} (hs : msorted s.warps = true) {w c : Nat} (h : w ∈ s.warpsOf c) : (s.warp w).ctx = c := by
  obtain ⟨e, he, rfl⟩ := List.mem_map.1 h
  obtain ⟨hm, hc⟩ := List.mem_filter.1 he
  unfold warp
  rw [mget_eq_mfind, mfind_of_mem hs hm]
  simpa using hc

theorem State.endLost_ends {s : State} (hs : msorted s.warps = true) {c : Nat} (hl : (mfind s.ctxs c).isSome) (d : Nat) :
    State.Mourned s (s.endLost d c) ∧ ((s.endLost d c).ctx c).dead = true := by
  unfold endLost
  extract_lets gone ws here
  split
  · rename_i w hw
    have hm : w ∈ s.warpsOf c := by
      have h1 : w ∈ ws := by
        have h2 := firstWarp_mem hw
        split at h2
        · exact h2
        · exact (List.mem_filter.1 h2).1
      exact (List.mem_filter.1 h1).1
    have hi := State.Idled.foldl idled_endRun here s
    have hwc : ((here.foldl State.endRun s).warp w).ctx = c := by
      have hk := hi.warp w
      unfold Warp.Kept at hk
      rw [hk]
      exact warpsOf_ctx hs hm
    obtain ⟨h1, h2⟩ := fatalAt_ends hwc ((hi.mourned.listed c).trans hl) { code := 0x30 } (s.warp w).pc (s.warp w).wid gone
    exact ⟨hi.mourned.trans h1, h2⟩
  · split
    · exact ⟨.refl s, ‹_›⟩
    · exact endAbsent_ends hl gone

theorem State.endLost_foldl (d : Nat) (cs : List Nat) (s : State) (hs : msorted s.warps = true)
    (hl : ∀ c ∈ cs, (mfind s.ctxs c).isSome) :
    State.Mourned s (cs.foldl (fun s c => s.endLost d c) s) ∧
    ∀ c ∈ cs, ((cs.foldl (fun s c => s.endLost d c) s).ctx c).dead = true := by
  induction cs generalizing s with
  | nil => exact ⟨.refl s, fun _ h => absurd h List.not_mem_nil⟩
  | cons k cs ih =>
    obtain ⟨h1, hd⟩ := endLost_ends hs (hl k (List.mem_cons_self ..)) d
    obtain ⟨h2, hds⟩ := ih (s.endLost d k) (h1.sorted hs) fun c hc => (h1.listed c).trans (hl c (List.mem_cons_of_mem _ hc))
    rw [List.foldl_cons]
    refine ⟨h1.trans h2, fun c hc => ?_⟩
    rcases List.mem_cons.1 hc with rfl | hc
    · exact h2.dead _ hd
    · exact hds c hc

/-! ## Held writes and signals -/

theorem State.foldl_held {α : Type} {f : State → α → State} (h : ∀ s x, (f s x).held = s.held) (xs : List α) (s : State) :
    (xs.foldl f s).held = s.held := by
  induction xs generalizing s with
  | nil => rfl
  | cons x xs ih => exact (ih _).trans (h s x)

theorem State.Checked.held {s r : State} (h : State.Checked s r) : r.held = s.held := by rw [h.rest]

theorem State.writePiece_held (s : State) (wr : Writer) (rmw : Bool) (bs : List (Nat × Byte)) :
    (s.writePiece wr rmw bs).held = s.held := by
  rw [writePiece_rest]

theorem State.performPiece_held (s : State) (wr : Writer) (rmw : Bool) (src : Nat) (bs : List (Nat × Byte)) :
    (s.performPiece wr rmw src bs).held = s.held :=
  (writePiece_held ..).trans (checked_checkWrites ..).held

theorem State.performWrite_held (s : State) (wr : Writer) (rmw : Bool) (src n : Nat) (bs : List (Nat × Byte)) :
    (s.performWrite wr rmw src n bs).held = s.held :=
  (foldl_held (fun s (g : Nat × List (Nat × Byte)) => s.writePiece_held wr rmw g.2) _ _).trans (checked_checkWrites ..).held

theorem State.flushULine_held (s : State) (u : ULine) : (s.flushULine u).held = s.held := by
  refine foldl_held (fun s e => ?_) u.vals s
  have hc := (checked_checkReads s 0 (span e.1 (atomSize u.ty))).held
  dsimp only
  split
  · exact (performWrite_held ..).trans hc
  · exact hc

theorem State.flushWhere_held (s : State) (sel : Nat → ULine → Bool) : (s.flushWhere sel).held = s.held := by
  unfold flushWhere
  refine (foldl_held (fun s k => ?_) _ _).trans rfl
  rw [foldl_held flushULine_held]
  rfl

theorem State.held_recall (s : State) (ls : List Nat) : (State.recall s ls).held = s.held := by
  unfold State.recall
  split
  · rfl
  · exact flushWhere_held ..

theorem State.peekHome_held (s : State) (src : Nat) (ls : List Nat) : (s.peekHome src ls).1.held = s.held :=
  (checked_checkReads (s.recall ls) src (ls.filter fun l => !(s.recall ls).offline (homeDie l))).held.trans (held_recall s ls)

theorem State.counterAdd_held (s : State) (wr : Writer) (l inc : Nat) : (s.counterAdd wr l inc).1.held = s.held := by
  have h1 : (s.peekHome 0 (span l 8)).1.held = s.held := peekHome_held ..
  unfold counterAdd
  dsimp only
  split
  · exact h1
  · exact (performPiece_held ..).trans h1

/-- What settling signals leaves: nothing new is held, a late trap once recorded stays, and contexts only log. -/
structure State.Signalled (s r : State) : Prop where
  mourned : State.Mourned s r
  kin     : Kin s.warps r.warps
  held    : r.held = s.held

theorem State.Signalled.trans {s r t : State} (h : State.Signalled s r) (h' : State.Signalled r t) : State.Signalled s t :=
  ⟨h.mourned.trans h'.mourned, h.kin.trans h'.kin, h'.held.trans h.held⟩

theorem State.Signalled.foldl {α : Type} {f : State → α → State} (h : ∀ s x, State.Signalled s (f s x)) (xs : List α) (s : State) :
    State.Signalled s (xs.foldl f s) := by
  induction xs generalizing s with
  | nil => exact ⟨.refl s, .refl _, rfl⟩
  | cons x xs ih => exact (h s x).trans (ih _)

theorem State.signalled_performDone (s : State) (d : DoneSig) : State.Signalled s (s.performDone d) := by
  have h1 : State.Signalled s (s.counterAdd { rels := d.rels } d.loc 1).1 :=
    ⟨((traffic_counterAdd (P := fun _ => True) s { rels := d.rels } d.loc 1 (fun _ _ => trivial) fun _ _ => trivial).tended
      (kin_counterAdd ..)).mourned, kin_counterAdd .., counterAdd_held ..⟩
  unfold performDone
  generalize s.counterAdd { rels := d.rels } d.loc 1 = q at h1 ⊢
  obtain ⟨s1, ovf, bad⟩ := q
  dsimp only at h1 ⊢
  split
  · refine h1.trans ⟨mourned_modCtx s1 d.ctx (fun x => { x with log := x.log ++ [.doneDropped d.addr] }) (fun _ => rfl) fun _ => id, ?_, rfl⟩
    exact .refl _
  · exact h1

theorem State.signalled_settleDones (s : State) : State.Signalled s s.settleDones := by
  unfold settleDones
  dsimp only
  generalize (s.dones.filter fun d => !s.awaitsDie d.loc) = due
  have h0 : State.Signalled s { s with dones := s.dones.filter fun d => s.awaitsDie d.loc } :=
    ⟨.of_same rfl rfl rfl id rfl, .refl _, rfl⟩
  exact h0.trans (.foldl signalled_performDone due _)

end Sys2Proof.Machine

/-! SUPPORT. A die that is not back in time, or that fails its retraining, is lost (R380, R383, R385). -/

namespace Sys2Proof.Machine
open Claims

/-! ## What fails with the die -/

theorem State.kin_modWarpAny (s : State) (w : Nat) {f : Warp → Warp} (hf : Warp.KeepsLate f) : Kin s.warps (s.modWarpAny w f).warps := by
  unfold modWarpAny
  split
  · exact kin_modWarp s w hf
  · exact .refl _

theorem State.modWarpAny_rest (s : State) (w : Nat) (f : Warp → Warp) :
    s.modWarpAny w f = { s with warps := (s.modWarpAny w f).warps, saves := (s.modWarpAny w f).saves } := by
  unfold modWarpAny
  split <;> rfl

/-- Late traps are recorded in warps, wherever they are held. -/
structure State.Blamed (s r : State) : Prop where
  rest : r = { s with warps := r.warps, saves := r.saves }
  kin  : Kin s.warps r.warps

section
variable {s r t : State}

theorem State.Blamed.trans (h : State.Blamed s r) (h' : State.Blamed r t) : State.Blamed s t where
  rest := by
    have e := h'.rest
    rw [h.rest] at e
    exact e
  kin := h.kin.trans h'.kin

theorem State.Blamed.foldl {α : Type} {f : State → α → State} (h : ∀ s x, State.Blamed s (f s x)) (xs : List α) (s : State) :
    State.Blamed s (xs.foldl f s) := by
  induction xs generalizing s with
  | nil => exact ⟨rfl, .refl _⟩
  | cons x xs ih => exact (h s x).trans (ih _)

theorem State.Blamed.signalled (h : State.Blamed s r) : State.Signalled s r :=
  ⟨.of_same (by rw [h.rest]) (by rw [h.rest]) (by rw [h.rest]) h.kin.sorted (by rw [h.rest]), h.kin, by rw [h.rest]⟩

end

theorem State.blamed_modWarpAny (s : State) (w : Nat) {f : Warp → Warp} (hf : Warp.KeepsLate f) : State.Blamed s (s.modWarpAny w f) :=
  ⟨modWarpAny_rest .., kin_modWarpAny s w hf⟩

/-- A write that was held for a lost die fails at its warp: its store counts as complete, and a late trap is recorded. -/
def Warp.failStore (h : Held) (x : Warp) : Warp :=
  { x with stCnt := if h.inc.isSome then x.stCnt - 1 else x.stCnt }.record (lostLate h.addr)

theorem Warp.keepsLate_failStore (h : Held) : Warp.KeepsLate (Warp.failStore h) := fun x =>
  Warp.keepsLate_record (lostLate h.addr) { x with stCnt := if h.inc.isSome then x.stCnt - 1 else x.stCnt }

theorem Warp.failStore_late {x : Warp} (hx : x.late = none) (h : Held) : (x.failStore h).late = some (lostLate h.addr) := by
  unfold failStore record
  dsimp only
  rw [hx]
  rfl

/-- Whether a held write has bytes on a die. -/
def Held.reaches (d : Nat) (h : Held) : Bool := h.bytes.any fun b => homeDie b.1 == d

theorem State.failHeld_eq (s : State) (d : Nat) : ∃ r, State.Blamed s r ∧
    r = (s.held.filter (Held.reaches d)).foldl (fun s h => s.modWarpAny (h.wr.ws.headD 0) (Warp.failStore h)) s ∧
    s.failHeld d = { r with held := s.held.filter fun h => !h.reaches d } := by
  have h1 : State.Blamed s ((s.held.filter (Held.reaches d)).foldl (fun s h => s.modWarpAny (h.wr.ws.headD 0) (Warp.failStore h)) s) :=
    .foldl (fun s h => blamed_modWarpAny s _ (Warp.keepsLate_failStore h)) _ s
  refine ⟨_, h1, rfl, ?_⟩
  generalize hr : List.foldl _ s _ = r at h1 ⊢
  have hh : r.held = s.held := by rw [h1.rest]
  rw [← hh, ← hr]
  rfl

theorem State.mourned_failHeld (s : State) (d : Nat) : State.Mourned s (s.failHeld d) := by
  obtain ⟨r, hr, -, e⟩ := s.failHeld_eq d
  rw [e]
  exact hr.signalled.mourned.trans (.of_same rfl rfl rfl id rfl)

theorem State.failHeld_ctxs (s : State) (d : Nat) : (s.failHeld d).ctxs = s.ctxs := by
  obtain ⟨r, hr, -, e⟩ := s.failHeld_eq d
  rw [e, hr.rest]

/-- The one write that is held for a lost die fails at the warp that issued it. -/
theorem State.failHeld_one {s : State} {d w : Nat} {h : Held} {x : Warp} (hh : s.held = [h]) (hd : h.reaches d = true)
    (hw : h.wr.ws.head? = some w) (hx : mfind s.warps w = some x) (hl : x.late = none) :
    (s.failHeld d).held = [] ∧ ∃ y, mfind (s.failHeld d).warps w = some y ∧ y.late = some (lostLate h.addr) := by
  obtain ⟨r, -, e1, e⟩ := s.failHeld_eq d
  have hn : h.wr.ws.headD 0 = w := by rw [List.headD_eq_head?_getD, hw]; rfl
  rw [hh, List.filter_cons_of_pos hd, List.filter_nil, List.foldl_cons, List.foldl_nil, hn] at e1
  rw [e, hh]
  refine ⟨(List.filter_cons_of_neg (p := fun h => !Held.reaches d h) (by simp [hd])).trans rfl, x.failStore h, ?_, Warp.failStore_late hl h⟩
  have hm : s.modWarpAny w (Warp.failStore h) = s.modWarp w (Warp.failStore h) := if_pos (by rw [hx]; rfl)
  rw [e1, hm]
  change mfind (mmod s.warps w (Warp.failStore h)) w = _
  rw [mfind_mmod, if_pos rfl, hx]
  rfl

theorem State.signalled_failULines (s : State) (d : Nat) : State.Signalled s (s.failULines d) := by
  unfold failULines
  dsimp only
  generalize List.filter _ (s.cores.flatMap _) = us
  have h1 := (State.Blamed.foldl (fun s (u : ULine) => .foldl (fun s w => blamed_modWarpAny s w
    (Warp.keepsLate_record (lostLate (BitVec.ofNat 64 (128 * u.line))))) u.warps s) us s).signalled
  generalize List.foldl _ s us = r at h1 ⊢
  exact ⟨h1.mourned.trans (.of_same rfl rfl rfl id rfl), h1.kin, h1.held⟩

theorem State.failULines_ctxs (s : State) (d : Nat) : (s.failULines d).ctxs = s.ctxs := by
  unfold failULines
  dsimp only
  generalize List.filter _ (s.cores.flatMap _) = us
  rw [(State.Blamed.foldl (fun s (u : ULine) => .foldl (fun s w => blamed_modWarpAny s w
    (Warp.keepsLate_record (lostLate (BitVec.ofNat 64 (128 * u.line))))) u.warps s) us s).rest]

/-! ## The next reset (R327) -/

/-- What the start of the next reset leaves of another die, of held writes, and of contexts that are dead. -/
structure State.Resumed (d : Nat) (s r : State) : Prop where
  timer : r.timer = s.timer
  die   : r.die d = s.die d
  held  : r.held = s.held
  late  : ∀ w, (r.warp w).late = (s.warp w).late
  dead  : ∀ c, (s.ctx c).dead = true → (r.ctx c).dead = true

theorem State.resumed_nextReset {s : State} {d : Nat} (hd : d ∉ s.island.resets) : State.Resumed d s s.nextReset := by
  have hs : State.Resumed d s s := ⟨rfl, rfl, rfl, fun _ => rfl, fun _ => id⟩
  unfold nextReset
  split
  · exact hs
  · rename_i k ks hk
    split
    · exact hs
    · generalize hs0 : ({ s with island := { s.island with resets := ks } } : State) = s0
      have hne : d ≠ k := fun e => hd (by rw [hk, e]; exact List.mem_cons_self ..)
      have hd0 := s0.modDie_die_eq k (fun x => { x with st := .saving, fails := 0, kept := [] }) d
      rw [if_neg hne] at hd0
      have hf := (freezing_foldl (s0.ctxsOn k) (s0.modDie k fun x => { x with st := .saving, fails := 0, kept := [] })).1
      rw [startReset_eq]
      generalize List.foldl State.beginFreeze _ _ = r at hf ⊢
      have hr := hf.rest
      refine ⟨by rw [hr, ← hs0]; rfl, ?_, by rw [hr, ← hs0]; rfl, fun w => ?_, fun c hc => ?_⟩
      · refine Eq.trans ?_ (hd0.trans (by rw [← hs0]; rfl))
        unfold die
        rw [hr]
      · have e := hf.warp w
        unfold Warp.Kept at e
        rw [e, ← hs0]
        rfl
      · rw [hf.ctx c, ← hs0]
        exact hc

/-! ## The die -/

/-- The die is marked lost, and its ports are down. -/
def State.dieGone (s : State) (d : Nat) : State := (s.modDie d fun x => { x with st := .lost, kept := [] }).portsDown d

/-- Work on the die ends: passes and journal steps there are cancelled, and rows that were owed to it are not restored. -/
def State.unowed (s : State) (d : Nat) : State :=
  { (s.cancelOn d).abortOn d with ctxs := ((s.cancelOn d).abortOn d).ctxs.map fun (e : Nat × Ctx) =>
    (e.1, { e.2 with jrn := { e.2.jrn with owed := e.2.jrn.owed.filter fun r => !onDie d r.1 } }) }

/-- What was on its way to the die fails. -/
def State.dieFailed (s : State) (d : Nat) : State := (((s.dieGone d).unowed d).failHeld d).failULines d

theorem State.loseDie_eq (s : State) (d : Nat) : s.loseDie d =
    (((s.dieFailed d).ctxsOn d).foldl (fun s c => s.endLost d c) (s.dieFailed d).settleDones).nextReset := rfl

theorem State.dieGone_rest (s : State) (d : Nat) : s.dieGone d =
    { s.modDie d fun x => { x with st := .lost, kept := [] } with ports := (s.dieGone d).ports } := portsDown_rest ..

theorem State.dieGone_st (s : State) (d : Nat) : ((s.dieGone d).die d).st = .lost := by
  have h := s.modDie_die_eq d (fun x => { x with st := .lost, kept := [] }) d
  rw [if_pos rfl] at h
  rw [dieGone_rest]
  change ((s.modDie d fun x => { x with st := .lost, kept := [] }).die d).st = _
  rw [h]

theorem State.mourned_unowed (s : State) (d : Nat) : State.Mourned s (s.unowed d) :=
  (((tended_cancelOn s d).trans (tended_abortOn _ d)).trans
    (tended_mapCtxs _ (fun x => { x with jrn := { x.jrn with owed := x.jrn.owed.filter fun r => !onDie d r.1 } }) fun _ => rfl)).mourned

theorem State.mourned_dieFailed (s : State) (d : Nat) : State.Mourned (s.dieGone d) (s.dieFailed d) :=
  ((mourned_unowed (s.dieGone d) d).trans (mourned_failHeld _ d)).trans (signalled_failULines _ d).mourned

theorem mfind_isSome_of_mem {α : Type} {m : SMap α} {e : Nat × α} (h : e ∈ m) : (mfind m e.1).isSome := by
  induction m with
  | nil => cases h
  | cons j m ih =>
    unfold mfind
    split
    · rfl
    · rename_i hj
      rcases List.mem_cons.1 h with rfl | h
      · exact absurd rfl hj
      · exact ih h

theorem State.listed_of_ctxsOn {s : State} {d c : Nat} (h : c ∈ s.ctxsOn d) : (mfind s.ctxs c).isSome := by
  obtain ⟨e, he, rfl⟩ := List.mem_map.1 h
  exact mfind_isSome_of_mem (List.mem_filter.1 he).1

/-- Before the next reset starts, the die is lost and the contexts that hold a core on it are dead. -/
theorem State.mourned_beforeReset {s : State} (hs : msorted s.warps = true) (d : Nat) :
    State.Mourned (s.dieGone d) (((s.dieFailed d).ctxsOn d).foldl (fun s c => s.endLost d c) (s.dieFailed d).settleDones) ∧
    ∀ c ∈ (s.dieFailed d).ctxsOn d,
      ((((s.dieFailed d).ctxsOn d).foldl (fun s c => s.endLost d c) (s.dieFailed d).settleDones).ctx c).dead = true := by
  have h1 := s.mourned_dieFailed d
  have h2 := (signalled_settleDones (s.dieFailed d)).mourned
  have hg : msorted (s.dieGone d).warps = true := by rw [dieGone_rest]; exact hs
  obtain ⟨h3, hd⟩ := endLost_foldl d ((s.dieFailed d).ctxsOn d) (s.dieFailed d).settleDones (h2.sorted (h1.sorted hg))
    fun c hc => (h2.listed c).trans (listed_of_ctxsOn hc)
  exact ⟨(h1.trans h2).trans h3, hd⟩

/-- A context that holds a core on the die still does once what was on its way there has failed. -/
theorem State.mem_ctxsOn_dieFailed {s : State} {d c : Nat} {x : Ctx} (hx : mfind s.ctxs c = some x)
    (hk : (x.crec.cores.any fun k => k / 40 == d) = true) : c ∈ (s.dieFailed d).ctxsOn d := by
  have h := s.mourned_dieFailed d
  have hg : (s.dieGone d).ctxs = s.ctxs := by rw [dieGone_rest]; rfl
  obtain ⟨y, hy⟩ := Option.isSome_iff_exists.1 (((h.listed c).trans (by rw [hg, hx]; rfl)) : (mfind (s.dieFailed d).ctxs c).isSome = true)
  have e := h.crec c
  unfold ctx at e
  rw [mget_eq_mfind, mget_eq_mfind, hy, hg, hx] at e
  change y.crec = x.crec at e
  exact mem_ctxsOn hy (by rw [e]; exact hk)

/-! ## The write that was held -/

theorem State.cancelOn_noRegions {s : State} (h : s.regions = []) (d : Nat) : s.cancelOn d = s := by
  unfold cancelOn
  rw [h]
  rfl

theorem State.abortOn_noRows {s : State} (h : ∀ e ∈ s.ctxs, e.2.jrn.rows = []) (d : Nat) : s.abortOn d = s := by
  unfold abortOn
  rw [List.filter_eq_nil_iff.2 fun e he => by rw [h e he]; simp]
  rfl

theorem State.unowed_quiet {s : State} (hg : s.regions = []) (hj : ∀ e ∈ s.ctxs, e.2.jrn.rows = []) (d : Nat) : s.unowed d =
    { s with ctxs := s.ctxs.map fun (e : Nat × Ctx) =>
      (e.1, { e.2 with jrn := { e.2.jrn with owed := e.2.jrn.owed.filter fun r => !onDie d r.1 } }) } := by
  unfold unowed
  rw [cancelOn_noRegions hg, abortOn_noRows hj]

/-- Where nothing else was at work on the die, its one held write fails at its warp, and no context ends. -/
theorem State.dieFailed_quiet {s : State} {d w : Nat} {h : Held} {x : Warp} (hg : s.regions = []) (hc : s.ctxsOn d = [])
    (hj : ∀ e ∈ s.ctxs, e.2.jrn.rows = []) (hh : s.held = [h]) (hd : h.reaches d = true) (hw : h.wr.ws.head? = some w)
    (hx : mfind s.warps w = some x) (hl : x.late = none) : (s.dieFailed d).ctxsOn d = [] ∧ (s.dieFailed d).held = [] ∧
      ∃ y, mfind (s.dieFailed d).warps w = some y ∧ y.late = some (lostLate h.addr) := by
  have e : (s.dieGone d).unowed d = { s.dieGone d with ctxs := (s.dieGone d).ctxs.map fun (e : Nat × Ctx) =>
      (e.1, { e.2 with jrn := { e.2.jrn with owed := e.2.jrn.owed.filter fun r => !onDie d r.1 } }) } :=
    unowed_quiet (by rw [dieGone_rest]; exact hg) (by rw [dieGone_rest]; exact hj) d
  have hu := signalled_failULines (((s.dieGone d).unowed d).failHeld d) d
  obtain ⟨h1, y, hy, hyl⟩ := failHeld_one (s := (s.dieGone d).unowed d) (d := d) (by rw [e, dieGone_rest]; exact hh) hd hw
    (by rw [e, dieGone_rest]; exact hx) hl
  obtain ⟨z, hz, hzl⟩ := hu.kin.late w y hy (by rw [hyl]; rfl)
  refine ⟨?_, hu.held.trans h1, z, hz, hzl.trans hyl⟩
  unfold ctxsOn dieFailed
  rw [failULines_ctxs, failHeld_ctxs, e, dieGone_rest]
  unfold ctxsOn at hc
  change List.map _ (List.filter _ (s.ctxs.map _)) = []
  rw [List.filter_map, List.map_map]
  exact hc

theorem State.loseDie_held {s : State} {d w : Nat} {h : Held} (hr : d ∉ s.island.resets) (hg : s.regions = []) (hc : s.ctxsOn d = [])
    (hj : ∀ e ∈ s.ctxs, e.2.jrn.rows = []) (hh : s.held = [h]) (hd : h.reaches d = true) (hw : h.wr.ws.head? = some w)
    (hx : (mfind s.warps w).isSome) (hl : (s.warp w).late = none) :
    ((s.loseDie d).warp w).late = some (lostLate h.addr) ∧ (s.loseDie d).held = [] := by
  obtain ⟨x, hx⟩ := Option.isSome_iff_exists.1 hx
  have hlx : x.late = none := by
    unfold warp at hl
    rw [mget_eq_mfind, hx] at hl
    exact hl
  obtain ⟨h1, h2, y, hy, hyl⟩ := dieFailed_quiet hg hc hj hh hd hw hx hlx
  have hs := signalled_settleDones (s.dieFailed d)
  obtain ⟨z, hz, hzl⟩ := hs.kin.late w y hy (by rw [hyl]; rfl)
  have hres : (s.dieFailed d).settleDones.island.resets = s.island.resets := by
    rw [hs.mourned.resets, (s.mourned_dieFailed d).resets, dieGone_rest]
    rfl
  have hn := resumed_nextReset (s := (s.dieFailed d).settleDones) (d := d) (by rw [hres]; exact hr)
  rw [loseDie_eq, h1, List.foldl_nil]
  refine ⟨?_, hn.held.trans (hs.held.trans h2)⟩
  rw [hn.late]
  unfold warp
  rw [mget_eq_mfind, hz]
  exact hzl.trans hyl

/-! ## The events -/

/-- What losing a die does (R383, R385). -/
theorem State.loseDie_spec {s : State} {d : Nat} (hr : d ∉ s.island.resets) (hs : msorted s.warps = true) :
    ((s.loseDie d).die d).st = .lost ∧ (s.loseDie d).timer = s.timer ∧
    ∀ c x, mfind s.ctxs c = some x → (x.crec.cores.any fun k => k / 40 == d) = true → ((s.loseDie d).ctx c).dead = true := by
  obtain ⟨hm, hd⟩ := mourned_beforeReset hs d
  rw [loseDie_eq]
  generalize List.foldl _ _ _ = r at hm hd ⊢
  have hres : r.island.resets = s.island.resets := by
    rw [hm.resets, dieGone_rest]
    rfl
  have hn := resumed_nextReset (s := r) (d := d) (by rw [hres]; exact hr)
  refine ⟨?_, ?_, fun c x hx hk => hn.dead c (hd c (mem_ctxsOn_dieFailed hx hk))⟩
  · rw [hn.die, hm.die, dieGone_st]
  · rw [hn.timer, hm.timer, dieGone_rest]
    rfl

theorem exec_dieLost (d : Nat) (s : State) : exec (.dieLost d) s = if s.overdue d then .next (s.loseDie d) else .next s := rfl

theorem State.overdue_iff {s : State} {d at_ : Nat}
    (h : (s.die d).st = .offline at_ ∨ (s.die d).st = .drained at_ ∨ (s.die d).st = .retrained at_) :
    s.overdue d = decide (at_ + 100000000 ≤ s.timer) := by
  unfold overdue
  rcases h with h | h | h <;> rw [h]

theorem lost_dies : Claims.lostDies := by
  refine ⟨fun s d at_ hst hf hr hs => ?_, fun s d at_ hst => ⟨fun ht hr hs => ?_, fun ht => ?_⟩, fun s d hst => ?_⟩
  · have he := (exec_dieRetrain_fails hst).trans (if_pos hf)
    obtain ⟨h1, h2, h3⟩ := State.loseDie_spec (s := s.modDie d fun x => { x with fails := x.fails + 1 }) (d := d) hr hs
    exact ⟨_, he, h1, h2, h3, fun h hh hg hc hj w hw hd hx hl =>
      State.loseDie_held (s := s.modDie d fun x => { x with fails := x.fails + 1 }) hr hg hc (fun e he => (hj e he).1) hh hd hw hx hl⟩
  · have he : exec (.dieLost d) s = .next (s.loseDie d) := by
      rw [exec_dieLost, State.overdue_iff hst, if_pos (decide_eq_true ht)]
    obtain ⟨h1, h2, h3⟩ := State.loseDie_spec hr hs
    exact ⟨_, he, h1, h2, h3, fun h hh hg hc hj w hw hd hx hl =>
      State.loseDie_held hr hg hc (fun e he => (hj e he).1) hh hd hw hx hl⟩
  · rw [exec_dieLost, State.overdue_iff hst, if_neg (by simp; omega)]
  · rw [exec_dieLost]
    unfold State.overdue
    rw [hst]
    rfl

/-- Settles O55: start-up, warm resets, lost dies, commands, the kept record and tenants, each in its own lemma. -/
theorem management : Obligations.Management :=
  ⟨start_up, warm_resets, lost_dies, commands_holds, record_kept, tenants_holds⟩

end Sys2Proof.Machine

/-! SUPPORT. The cross-lane and predicate instructions (spec/06 R142 to R150): the frame of each from the law of the shared
operation by which it writes, and the bits of a ballot from the positions of the lanes acted on. -/

namespace Sys2Proof.Machine

/-! ## Moves (R143) -/

/-- A cross-lane move completes wherever it issues, each lane acted on taking the value at its source index. -/
theorem laneMoveComplete_of_exec {o : Op} {poison : Args → State → Grp → Option Trap} {idx : Args → State → Grp → Nat → Nat}
    (eff : Args → State → Grp → Res)
    (he : ∀ a s g, eff a s g = .next (s.xwrite g a fun L => s.moved g a (idx a s g L)))
    (hi : ∀ a s, exec (Instr.ofOp o a) s = .next (s.issueWith o a (poison a) (eff a))) :
    Claims.laneMoveComplete o poison idx := by
  intro a s g h
  exact ⟨_, ⟨_, hi a s, h.retires (eff a) (he a _ g) (State.xwrite_listed _ g a _)⟩, State.xwrite_wrote _ g a _ h.grpOk⟩

/-- Settles O5: each move writes the value at its own source index to the lanes acted on. -/
theorem crossLaneMoves : Obligations.CrossLaneMoves :=
  ⟨laneMoveComplete_of_exec effLshuf (fun _ _ _ => rfl) fun _ _ => rfl,
    laneMoveComplete_of_exec effLrot (fun _ _ _ => rfl) fun _ _ => rfl,
    laneMoveComplete_of_exec effLbc (fun _ _ _ => rfl) fun _ _ => rfl⟩

/-! ## Reductions and prefixes (R144, R145) -/

theorem State.xwrite_blocks (s : State) (g : Grp) (a : Args) (f : Nat → Word) : (s.xwrite g a f).blocks = s.blocks := by
  unfold xwrite
  rw [foldWarps_rest g (fun m w => (s.actedOf a m).foldl
    (fun w l => w.putLane a.sub a.d.toNat l (f (s.xbase g a m.1 + l))) w)]

/-- A cross-lane result written to the lanes acted on, and flags set in every member. -/
theorem State.xwrite_setFlags_wrote (s : State) (g : Grp) (a : Args) (f : Nat → Word) (fl : Nat) (h : s.GrpOk g) :
    State.WroteD s ((s.xwrite g a f).modWarps g.ws fun w => w.setFlags fl) a true g (s.actedOf a)
      (fun m l => Claims.laneWritten a.sub ((s.warp m).vget a.d.toNat l) (f (s.xbase g a m + l)))
      (fun _ => BitVec.ofNat 64 fl) := by
  have hw := s.xwrite_wrote g a f h
  exact hw.flags (hw.grpOk h (xwrite_listed s g a f) fun _ => by rw [xwrite_blocks]) fl

theorem State.xresult_listed (s : State) (g : Grp) (a : Args) (x : Word) (v : Nat) :
    (mfind (s.xresult g a x).warps v).isSome = (mfind s.warps v).isSome := by
  unfold xresult
  split
  · exact xwrite_listed s g a _ v
  · exact setScalar_listed s g a.kd _ _ v

/-- The result of a reduction in every lane acted on, or once in a scalar D, and flags set in every member. -/
theorem State.xresult_setFlags_wrote (s : State) (g : Grp) (a : Args) (x : Word) (fl : Nat) (h : s.GrpOk g) :
    State.WroteD s ((s.xresult g a x).modWarps g.ws fun w => w.setFlags fl) a (a.kd == .v) g (s.actedOf a)
      (fun m l => if a.kd = .v then Claims.laneWritten a.sub ((s.warp m).vget a.d.toNat l) x else scalarRed a x)
      (fun _ => BitVec.ofNat 64 fl) := by
  unfold xresult
  by_cases hk : a.kd = .v
  · simpa [hk] using s.xwrite_setFlags_wrote g a (fun _ => x) fl h
  · simp only [if_neg hk, beq_false_of_ne hk]
    exact s.setScalar_wrote g a (s.actedOf a) (scalarRed a x) fl h (fun _ _ => scalarRed a x) rfl

/-- Settles O6: the reduction by the write of its one result, the prefixes by the write of each position's. -/
theorem reductions : Obligations.Reductions := by
  refine ⟨fun a s g h => ?_, fun a s g h => ?_⟩
  · refine ⟨_, h.completes rfl (eff := effLred a) rfl fun v => ?_, State.xresult_setFlags_wrote _ g a _ _ h.grpOk⟩
    rw [State.modWarps_listed, State.xresult_listed]
  · refine ⟨_, h.completes rfl (eff := effLscan a) rfl fun v => ?_, State.xwrite_setFlags_wrote _ g a _ _ h.grpOk⟩
    rw [State.modWarps_listed, State.xwrite_listed]

/-! ## Positions of the lanes acted on (R29) -/

/-- A placed warp that is live in a block has that block, and stands where its WARPID says. -/
theorem State.Placed.of_liveWarps {s : State} {v b : Nat} (h : s.Placed v) (hv : v ∈ s.liveWarps b) :
    (s.warp v).blk = b ∧ v = 32 * b + (s.warp v).wid := by
  obtain ⟨i, hi, rfl⟩ := List.mem_map.1 (List.mem_filter.1 hv).1
  have hkey := h.key
  have hwid := h.wid
  have hi' := List.mem_range.1 hi
  omega

/-- The members of the group that executes an instruction differ in their WARPIDs, none of which is below the first of their
set or block. -/
structure State.WidsOk (s : State) (g : Grp) (a : Args) : Prop where
  first : ∀ m ∈ g, (s.xspan g a).1 ≤ (s.warp m.1).wid
  inj   : ∀ m ∈ g, ∀ m' ∈ g, (s.warp m.1).wid = (s.warp m'.1).wid → m.1 = m'.1

/-- The first WARPID of a set is one for all its members. -/
theorem div_mul_of_mem_set {c n v : Nat} (hlo : c / n * n ≤ v) (hhi : v < c / n * n + n) : v / n * n = c / n * n := by
  rw [Nat.div_eq_of_lt_le hlo (by rwa [Nat.add_one_mul])]

/-- The members that gather at a rendezvous. -/
theorem State.widsOk_arrive {s : State} {a : Args} {g : Grp} {i : Instr} (ha : Args.together a = true)
    (hp : ∀ v ∈ g.ws, s.Placed v) (hg : (s.arrive s.cur i a.scope).2 = some g) : s.WidsOk g a := by
  obtain ⟨-, hws⟩ := arrive_group hg
  have hmem (v : Nat) (hv : v ∈ g.ws) := hws ▸ hv
  simp only [List.mem_filter, Bool.and_eq_true, decide_eq_true_eq] at hmem
  have hplace (v : Nat) (hv : v ∈ g.ws) := (hp v hv).of_liveWarps (hmem v hv).1
  refine ⟨fun m hm => ?_, fun m hm m' hm' he => ?_⟩
  · have hm1 : m.1 ∈ g.ws := List.mem_map_of_mem hm
    have hl := Grp.leader_mem hm1
    obtain ⟨-, hlo, hhi⟩ := hmem _ hl
    obtain ⟨-, hmlo, -⟩ := hmem _ hm1
    unfold xspan
    dsimp only
    rw [(hplace _ hl).1]
    cases hs : a.scope with
    | set =>
      simp only [hs, rdvRange, if_pos] at hlo hhi hmlo
      dsimp only
      rwa [div_mul_of_mem_set hlo hhi]
    | block => exact Nat.zero_le _
    | lane => simp [Args.together, hs] at ha
    | warp => simp [Args.together, hs] at ha
  · rw [(hplace _ (List.mem_map_of_mem hm)).2, (hplace _ (List.mem_map_of_mem hm')).2, he]

/-- A warp alone. -/
theorem State.widsOk_alone {s : State} {a : Args} (ha : Args.together a = false) : s.WidsOk s.alone a := by
  simp only [Args.together, Bool.or_eq_false_iff, beq_eq_false_iff_ne] at ha
  refine ⟨fun m hm => ?_, fun m hm m' hm' _ => ?_⟩
  · rw [List.mem_singleton.1 hm]
    unfold xspan
    cases hs : a.scope with
    | set => exact absurd hs ha.1
    | block => exact absurd hs ha.2
    | lane => exact Nat.le_refl _
    | warp => exact Nat.le_refl _
  · rw [List.mem_singleton.1 hm, List.mem_singleton.1 hm']

section
variable {s : State} {o : Op} {a : Args} {poison : State → Grp → Option Trap} {g : Grp}

/-- Beside sets and blocks an instruction executes for its warp alone. -/
theorem State.Issues.group_alone (h : s.Issues o a poison g) (ha : Args.together a = false) : g = s.alone := by
  have hg := h.group
  unfold gather at hg
  rw [ha, if_neg Bool.false_ne_true] at hg
  exact (Option.some.inj hg).symm

/-- At warp scope the group is the current warp alone. -/
theorem State.Issues.group_warp (h : s.Issues o a poison g) (hs : a.scope = .warp) : g = s.alone :=
  h.group_alone (by simp [Args.together, hs])

theorem State.Issues.widsOk (h : s.Issues o a poison g) : (s.opened o a g).WidsOk g a := by
  have hs : s.WidsOk g a := by
    cases ha : Args.together a with
    | false => rw [h.group_alone ha]; exact widsOk_alone ha
    | true =>
      have hg := h.group
      unfold gather at hg
      rw [if_pos ha] at hg
      exact widsOk_arrive ha h.home hg
  have hwid (v : Nat) : ((s.opened o a g).warp v).wid = (s.warp v).wid := by rw [h.opened.warp]
  have hspan : (s.opened o a g).xspan g a = s.xspan g a := by
    unfold xspan
    dsimp only
    rw [h.opened.warp, h.opened.blk]
  exact ⟨fun m hm => by rw [hspan, hwid]; exact hs.first m hm,
    fun m hm m' hm' => by rw [hwid, hwid]; exact hs.inj m hm m' hm'⟩

end

/-- No position is acted on twice. -/
theorem State.xacted_nodup {s : State} {g : Grp} {a : Args} (h : s.WidsOk g a) (hn : g.ws.Nodup) : (s.xacted g a).Nodup := by
  unfold xacted
  rw [List.nodup_flatMap]
  refine ⟨fun m _ => (lanesOf_nodup _).map fun _ _ => Nat.add_left_cancel,
    (List.pairwise_map.1 hn).imp_of_mem fun {m m'} hm hm' hne => ?_⟩
  rintro L hL hL'
  obtain ⟨l, hl, rfl⟩ := List.mem_map.1 hL
  obtain ⟨l', hl', he⟩ := List.mem_map.1 hL'
  have hlt := actedOf_lt l hl
  have hlt' := actedOf_lt l' hl'
  have hfirst := h.first m hm
  have hfirst' := h.first m' hm'
  unfold xbase at he
  exact hne (h.inj m hm m' hm' (by omega))

/-! ## Ballots and votes (R146, R147) -/

/-- A sum of different powers of two has the bits of its exponents. -/
theorem testBit_foldl_two_pow {f : Nat → Nat} {ls : List Nat} (hn : (ls.map f).Nodup) (j : Nat) :
    (ls.foldl (fun acc L => acc + 2 ^ f L) 0).testBit j = decide (j ∈ ls.map f) := by
  have hsum : ls.foldl (fun acc L => acc + 2 ^ f L) 0 = ∑ i ∈ (ls.map f).toFinset, 2 ^ i := by
    rw [List.sum_toFinset _ hn, List.sum_eq_foldl, List.foldl_map, List.foldl_map]
  rw [Bool.eq_iff_iff, ← Nat.mem_bitIndices, decide_eq_true_iff, hsum, ← List.mem_toFinset,
    Finset.toFinset_bitIndices_sum_two_pow, List.mem_toFinset]

/-- The bits of group k of a ballot over positions `ps`. -/
theorem ballot_bits {ps : List Nat} (hn : ps.Nodup) (k : Nat) (q : Nat → Bool) {j : Nat} (hj : j < 64) :
    (BitVec.ofNat 64 ((ps.filter fun L => L / 64 == k && q L).foldl (fun acc L => acc + 2 ^ (L % 64)) 0)).getLsbD j =
      ((64 * k + j ∈ ps) && q (64 * k + j)) := by
  have hnd : ((ps.filter fun L => L / 64 == k && q L).map (· % 64)).Nodup := by
    refine List.Nodup.map_on (fun L hL L' hL' he => ?_) (hn.filter _)
    simp only [List.mem_filter, Bool.and_eq_true, beq_iff_eq] at hL hL'
    omega
  rw [BitVec.getLsbD_ofNat, testBit_foldl_two_pow hnd, decide_eq_true hj, Bool.true_and, Bool.eq_iff_iff,
    decide_eq_true_iff, Bool.and_eq_true, decide_eq_true_iff]
  simp only [List.mem_map, List.mem_filter, Bool.and_eq_true, beq_iff_eq]
  constructor
  · rintro ⟨L, ⟨hL, hk, hq⟩, hm⟩
    have : 64 * k + j = L := by omega
    rw [this]
    exact ⟨hL, hq⟩
  · rintro ⟨hL, hq⟩
    exact ⟨64 * k + j, ⟨hL, by omega, hq⟩, by omega⟩

/-- The 64 bits of group k of a ballot over the lanes acted on. -/
def State.ballotWord (s : State) (g : Grp) (a : Args) : Word :=
  BitVec.ofNat 64 (((s.xacted g a).filter fun L => L / 64 == a.imm.toNat && selSub a.sub (s.xval g a L) != 0).foldl
    (fun acc L => acc + 2 ^ (L % 64)) 0)

/-- D of a ballot, written whole. -/
def State.ballotResult (s : State) (g : Grp) (a : Args) (x : Word) : State :=
  if a.kd = .v then s.xwrite g { a with sub := 0 } fun _ => x else s.setScalar g a.kd a.d.toNat x

theorem effBallot_inRange {a : Args} {s : State} {g : Grp} (h : a.imm.toNat < (s.xlanes g a + 63) / 64) :
    effBallot a s g = .next (s.ballotResult g a (s.ballotWord g a)) := if_neg (Nat.not_le.2 h)

theorem State.ballotResult_listed (s : State) (g : Grp) (a : Args) (x : Word) (v : Nat) :
    (mfind (s.ballotResult g a x).warps v).isSome = (mfind s.warps v).isSome := by
  unfold ballotResult
  split
  · exact xwrite_listed s g _ _ v
  · exact setScalar_listed s g a.kd _ _ v

theorem State.ballotResult_wrote (s : State) (g : Grp) (a : Args) (x : Word) (h : s.GrpOk g) :
    State.WroteD s (s.ballotResult g a x) a (a.kd == .v) g (s.actedOf a) (fun _ _ => x) (fun _ => 0) := by
  unfold ballotResult
  by_cases hk : a.kd = .v
  · rw [if_pos hk, hk]
    obtain ⟨h1, h2, h3, h4, h5, h6, h7⟩ := s.xwrite_wrote g { a with sub := 0 } (fun _ => x) h
    exact ⟨h1, h2, h3, h4, h5, h6, h7⟩
  · rw [if_neg hk, beq_false_of_ne hk]
    exact s.setScalar_only g a (s.actedOf a) x h (fun _ _ => x) rfl

@[simp] theorem Warp.setFlags_zero (w : Warp) : w.setFlags 0 = w := by simp [setFlags]

/-- A predicate written in every member, with no flag set. -/
theorem State.modWarps_pset_wrote (s : State) (g : Grp) (d : Nat) (pv : Warp → Mask) (h : s.GrpOk g) :
    State.WroteP s (s.modWarps g.ws fun w => w.pset d (pv w)) d g (fun m => pv (s.warp m.1)) (fun _ => 0) := by
  rw [modWarps_eq]
  simpa using s.pset_wrote g d (fun _ => pv) (fun _ => 0) h

theorem ballots_votes : Claims.ballotVote := by
  refine ⟨fun a s g h hk => ?_, fun a s g h => ?_⟩
  · exact ⟨_, _, h.completes rfl (effBallot_inRange hk) (State.ballotResult_listed _ g a _),
      State.ballotResult_wrote _ g a _ h.grpOk,
      fun j hj => ballot_bits (State.xacted_nodup h.widsOk h.grpOk.nodup) _ _ hj⟩
  · exact ⟨_, h.completes rfl (eff := effVote a) rfl (State.modWarps_listed _ g.ws _),
      State.modWarps_pset_wrote _ g _ (fun _ => _) h.grpOk⟩

/-! ## Operations on predicates (R150) -/

/-- At warp scope the scalar register sD of the leader alone is written. -/
theorem State.sset_alone_wrote (s : State) (a : Args) (v : Nat) (e : Mask) (on : Nat × Mask → List Nat) (x : Warp → Word)
    (h : s.GrpOk [(v, e)]) :
    State.WroteD s (s.modWarp v fun w => w.sset a.d.toNat (x w)) { a with kd := .s } false [(v, e)] on
      (fun _ _ => x (s.warp v)) (fun _ => 0) := by
  have hx : s.modWarp v (fun w => w.sset a.d.toNat (x w)) = s.modWarp v fun w => w.sset a.d.toNat (x (s.warp v)) :=
    modWarp_congr rfl
  rw [hx]
  exact s.setScalar_only [(v, e)] { a with kd := .s } on (x (s.warp v)) h (fun _ _ => x (s.warp v)) rfl

/-- A write of EXEC that leaves lanes (R35). -/
theorem State.writeExec_next {s : State} {v : Nat} {m : Mask} (h : m &&& (s.warp v).live ≠ 0) :
    s.writeExec v m = .next (s.modWarp v fun x => { x with exec := m &&& (s.warp v).live }) := if_neg h

/-- The forms of `PMOV` that write a predicate, each by what it reads of the warp. -/
theorem effPmov_toPred {a : Args} {s : State} {g : Grp} {m : Mask}
    (h : (a.func = 0 ∧ m = (s.warp (leaderOf g)).pget a.a.toNat) ∨
      (a.func = 1 ∧ m = ((s.warp (leaderOf g)).sget a.a.toNat).setWidth 32) ∨
      (a.func = 3 ∧ m = (s.warp (leaderOf g)).exec) ∨ (a.func = 4 ∧ m = (s.warp (leaderOf g)).live)) :
    effPmov a s g = .next (s.modWarp (leaderOf g) fun x => x.pset a.d.toNat m) := by
  unfold effPmov
  rcases h with ⟨hf, rfl⟩ | ⟨hf, rfl⟩ | ⟨hf, rfl⟩ | ⟨hf, rfl⟩ <;> rw [hf] <;> exact congrArg Res.next (State.modWarp_congr rfl)

theorem effPmov_toScalar {a : Args} {s : State} {g : Grp} (h : a.func = 2) :
    effPmov a s g = .next (s.modWarp (leaderOf g) fun x => x.sset a.d.toNat ((x.pget a.a.toNat).setWidth 64)) := by
  unfold effPmov
  rw [h]
  rfl

theorem effPmov_toExec {a : Args} {s : State} {g : Grp} (h : a.func = 5) :
    effPmov a s g = s.writeExec (leaderOf g) ((s.warp (leaderOf g)).pget a.a.toNat) := by
  unfold effPmov
  rw [h]
  rfl

theorem predicates_move : Claims.predicateMoves := by
  refine ⟨fun a s g h => ?_, fun a s g h hs => ?_, fun a s g h hs => ?_⟩
  · exact ⟨_, h.completes rfl (eff := effPlog a) rfl (State.modWarps_listed _ g.ws _),
      State.modWarps_pset_wrote _ g _ (fun w => plogMask a.func.toNat (w.pget a.a.toNat) (w.pget a.b.toNat)) h.grpOk⟩
  · obtain rfl := h.group_warp hs
    refine ⟨fun m hm => ?_, fun hf => ?_, fun hf hne => ?_⟩
    · exact ⟨_, h.completes rfl (effPmov_toPred hm) fun _ => State.modWarp_listed ..,
        State.modWarps_pset_wrote _ s.alone _ (fun _ => m) h.grpOk⟩
    · exact ⟨_, h.completes rfl (effPmov_toScalar hf) fun _ => State.modWarp_listed ..,
        State.sset_alone_wrote _ _ _ _ _ _ h.grpOk⟩
    · exact ⟨_, h.completes rfl ((effPmov_toExec hf).trans (State.writeExec_next hne)) fun _ => State.modWarp_listed ..,
        State.modWarps_group s.alone _ _ h.grpOk.nodup h.grpOk.listed⟩
  · obtain rfl := h.group_warp hs
    exact ⟨_, h.completes rfl (eff := effPcnt a) rfl fun _ => State.modWarp_listed ..,
      State.sset_alone_wrote _ _ _ _ _ _ h.grpOk⟩

/-- Settles O8: ballots and votes by the bits and the predicate that they write, the operations on predicates each by its
own write. -/
theorem predicateResults : Obligations.PredicateResults := ⟨ballots_votes, predicates_move⟩

end Sys2Proof.Machine

/-! SUPPORT. The coherence order of a location (spec/12 R275, R276): what a read sees of its writes, and what an indivisible piece
leaves of them. -/

namespace Sys2Proof.Machine

/-! ## The write at a cut -/

theorem atCut_cons_cons (cut : Nat) (v u : Nat × Byte) (us : List (Nat × Byte)) :
    atCut cut (v :: u :: us) = if v.1 ≤ cut then v else atCut cut (u :: us) := rfl

/-- A cut shows one of the writes. -/
theorem atCut_mem (cut : Nat) {vs : List (Nat × Byte)} (h : vs ≠ []) : atCut cut vs ∈ vs := by
  induction vs with
  | nil => exact absurd rfl h
  | cons v vs ih =>
    cases vs with
    | nil => exact List.mem_cons_self ..
    | cons u us =>
      rw [atCut_cons_cons]
      split
      · exact List.mem_cons_self ..
      · exact List.mem_cons_of_mem _ (ih (List.cons_ne_nil _ _))

/-- Of writes that are listed newest first, a cut shows none older than one at or below it. -/
theorem le_atCut {cut p : Nat} {vs : List (Nat × Byte)} (hs : (vs.map (·.1)).Pairwise (· > ·)) (hp : p ∈ vs.map (·.1))
    (hc : p ≤ cut) : p ≤ (atCut cut vs).1 := by
  induction vs with
  | nil => cases hp
  | cons v vs ih =>
    rw [List.map_cons, List.pairwise_cons] at hs
    rcases List.mem_cons.1 hp with rfl | hp
    · rw [atCut_newest hc]
    · cases vs with
      | nil => cases hp
      | cons u us =>
        rw [atCut_cons_cons]
        split
        · exact Nat.le_of_lt (hs.1 _ hp)
        · exact ih hs.2 hp

/-! ## What a read sees (R276) -/

section
variable {m : Mem} {fl : SMap Nat} {ls : List Nat} {l : Nat}

/-- A read is cut at or above its floors. -/
theorem Mem.floor_le_cutOf (m : Mem) (free : Nat) (hl : l ∈ ls) : mget 0 fl l ≤ m.cutOf fl free ls := by
  have hm := le_maxFloor fl hl
  unfold cutOf
  dsimp only
  split
  · exact hm
  · exact Nat.le_trans hm (Nat.le_max_right ..)

/-- No sweep of a row that a read does not see comes at or before its floors. -/
theorem Mem.floor_lt_sweepWindow {free row n : Nat} (hl : l ∈ ls) (hn : (m.sweepWindow fl free row ls).2 = some n) :
    mget 0 fl l < n := by
  unfold sweepWindow at hn
  split at hn
  · cases hn
  · have := List.find?_some hn
    exact Nat.lt_of_le_of_lt (floor_le_cutOf m free hl) (of_decide_eq_true this)

theorem Mem.floor_lt_windows (free : Nat) (hl : l ∈ ls) {n : Nat}
    (hn : (mget (0, none) (m.windows fl free ls) (l / 1024)).2 = some n) : mget 0 fl l < n := by
  unfold windows at hn
  split at hn
  · cases hn
  · obtain ⟨i, hi⟩ := mget_groupBy (0, none) (· / 1024)
      (fun k xs i => m.sweepWindow fl (free + ls.length + i) (1024 * k) xs) hl
    rw [hi] at hn
    refine floor_lt_sweepWindow ?_ hn
    exact List.mem_filter.2 ⟨hl, beq_self_eq_true _⟩

/-- The row of the piece of a location is the location's. -/
theorem piece_row {n : Nat} (hn : n ∣ 1024) (l : Nat) : l / n * n / 1024 = l / 1024 := by
  obtain ⟨k, hk⟩ := hn
  have h0 : 0 < n := Nat.pos_of_ne_zero fun h => by rw [h, Nat.zero_mul] at hk; cases hk
  rw [hk, ← Nat.div_div_eq_div_mul, Nat.mul_div_cancel _ h0, Nat.div_div_eq_div_mul]

/-- A read gives each of its locations the write at a cut at or above the floor there. -/
theorem Mem.mem_readLocs {n : Nat} (hn : n ∣ 1024) {free : Nat} {e : Nat × Nat × Byte} (he : e ∈ m.readLocs fl free n ls) :
    e.1 ∈ ls ∧ ∃ cut, mget 0 fl e.1 ≤ cut ∧ e.2 = atCut cut (m.versions e.1) := by
  obtain ⟨l, hl, rfl⟩ := List.mem_map.1 he
  refine ⟨hl, _, ?_, rfl⟩
  obtain ⟨i, hi⟩ := mget_groupBy 0 (· / n)
    (fun k xs i => inWindow (mget (0, none) (m.windows fl free ls) (k * n / 1024)) (m.cutOf fl (free + i) xs)) hl
  refine Nat.le_trans ?_ (Nat.le_of_eq hi.symm)
  refine inWindow_above (fun k hk => floor_lt_windows (m := m) free hl ?_) (floor_le_cutOf m _ (List.mem_filter.2 ⟨hl, beq_self_eq_true _⟩))
  rwa [piece_row hn] at hk

end

theorem reads_see_writes : Claims.readsSeeWrites := by
  intro m fl free n ls hn
  refine ⟨?_, fun e he => ?_, fun e he hs hp => ?_, fun h e he => ?_⟩
  · exact (List.map_map ..).trans (List.map_id _)
  · obtain ⟨-, cut, -, hc⟩ := Mem.mem_readLocs hn he
    rw [hc]
    exact atCut_mem cut (List.cons_ne_nil _ _)
  · obtain ⟨-, cut, hf, hc⟩ := Mem.mem_readLocs hn he
    rw [hc]
    exact le_atCut hs hp hf
  · obtain ⟨hl, cut, hf, hc⟩ := Mem.mem_readLocs hn he
    have hnew := atCut_newest (v := (m.pos e.1, m.byte e.1)) (Nat.le_trans (h _ hl) hf) (mget [] m.older e.1)
    exact congrArg Prod.snd (hc.trans hnew)

/-! ## What a piece leaves (R169, R275) -/

theorem Mem.put_pos (m : Mem) (pos l : Nat) (b : Byte) (k : Nat) : (m.put pos l b).pos k = if k = l then pos else m.pos k :=
  mget_mset ..

/-- Bytes put at one position: their locations' newest writes stand there, and no other location's changes. -/
theorem Mem.puts_pos (pos : Nat) (bs : List (Nat × Byte)) (m : Mem) (k : Nat) :
    (bs.foldl (fun m b => m.put pos b.1 b.2) m).pos k = if k ∈ bs.map (·.1) then pos else m.pos k := by
  induction bs generalizing m with
  | nil => rfl
  | cons b bs ih =>
    rw [List.foldl_cons, ih, put_pos, List.map_cons]
    by_cases hk : k ∈ bs.map (·.1)
    · rw [if_pos hk, if_pos (List.mem_cons_of_mem _ hk)]
    · rw [if_neg hk]
      exact if_congr (by simp only [List.mem_cons, hk, or_false]) rfl rfl

theorem Mem.putPiece_pos (m : Mem) (rels : List Nat) (rmw : Bool) (bs : List (Nat × Byte)) (k : Nat) :
    (m.putPiece rels rmw bs).pos k = if k ∈ bs.map (·.1) then m.seq + 1 else m.pos k := puts_pos (m.seq + 1) bs m k

theorem write_piece : Claims.writePiece := by
  intro m rels rmw bs hn
  refine ⟨rfl, fun e he => ⟨Mem.putPiece_byte_mem m rels rmw bs hn e he, ?_⟩, fun l hl =>
    ⟨Mem.putPiece_byte m rels rmw bs l hl, ?_⟩, Mem.putPiece_wf rels rmw bs⟩
  · rw [Mem.putPiece_pos, if_pos (List.mem_map_of_mem he)]
  · rw [Mem.putPiece_pos, if_neg hl]

/-- Settles O29: a read by the cut at which each location is seen, an indivisible piece by the position that its bytes share. -/
theorem coherenceOrder : Obligations.CoherenceOrder := ⟨reads_see_writes, write_piece⟩

end Sys2Proof.Machine

/-! SUPPORT. Batches of copies (spec/07 R178, R179, R182): what writing a token, completing a batch and sealing one leave of a warp. -/

namespace Sys2Proof.Machine

/-! ## Tokens -/

theorem Warp.writeToken_sget (w : Warp) (b : Batch) (n : Nat) :
    (w.writeToken b).sget n = if n = b.reg then b.value.getD 0 else w.sget n := by
  have h (m : Option Mark) (e : Option (Nat × Nat × Word)) : (w.writeToken b).s = (w.sset b.reg (b.value.getD 0)).s := by
    unfold writeToken
    cases b.mark <;> cases b.err <;> rfl
  rw [sget, h b.mark b.err]
  exact sset_sget ..

theorem Warp.writeToken_v (w : Warp) (b : Batch) : (w.writeToken b).v = w.v := by
  unfold writeToken
  cases b.mark <;> cases b.err <;> rfl

theorem Warp.writeToken_nextSeq (w : Warp) (b : Batch) : (w.writeToken b).nextSeq = w.nextSeq := by
  unfold writeToken
  cases b.mark <;> cases b.err <;> rfl

theorem Warp.writeToken_batches (w : Warp) (b : Batch) : (w.writeToken b).batches =
    (w.batches.filter fun c => !(c.reg == b.reg && c.written)).map fun c =>
      if c.seq == b.seq && c.sealed then { c with written := true } else c := by
  unfold writeToken
  cases b.mark <;> cases b.err <;> rfl

/-! ## Open batches -/

theorem Warp.openBatch_eq_false {w : Warp} {n : Nat} :
    w.openBatch n = false ↔ ∀ b ∈ w.batches, b.reg = n → b.sealed = true := by
  simp [openBatch]

/-- What makes no batch, unseals none and changes no register of one opens none. -/
theorem Warp.openBatch_of_mem {w y : Warp} {n : Nat}
    (hy : ∀ c ∈ y.batches, ∃ b ∈ w.batches, c.reg = b.reg ∧ (b.sealed = true → c.sealed = true)) (h : w.openBatch n = false) :
    y.openBatch n = false := by
  rw [openBatch_eq_false] at h ⊢
  intro c hc hr
  obtain ⟨b, hb, hreg, hs⟩ := hy c hc
  exact hs (h b hb (hreg ▸ hr))

theorem Warp.writeToken_openBatch {w : Warp} {n : Nat} (b : Batch) (h : w.openBatch n = false) :
    (w.writeToken b).openBatch n = false := by
  refine openBatch_of_mem (fun c hc => ?_) h
  rw [writeToken_batches] at hc
  obtain ⟨d, hd, rfl⟩ := List.mem_map.1 hc
  refine ⟨d, (List.mem_filter.1 hd).1, ?_⟩
  split
  · exact ⟨rfl, id⟩
  · exact ⟨rfl, id⟩

/-- Delivering tokens writes some of them, one after another. -/
theorem Warp.deliverAll_keeps {P : Warp → Prop} (h : ∀ w b, P w → P (w.writeToken b)) (bs : List Batch) :
    ∀ w : Warp, P w → P (w.deliverAll bs) := by
  induction bs with
  | nil => exact fun w hw => hw
  | cons b bs ih =>
    intro w hw
    unfold deliverAll
    split
    · exact ih _ (h w b hw)
    · exact hw

/-- Completing a batch opens none. -/
theorem Warp.complete_openBatch {w : Warp} {n seq : Nat} {f : Batch → Batch}
    (hf : ∀ b, (f b).reg = b.reg ∧ (f b).sealed = b.sealed) (h : w.openBatch n = false) :
    (w.complete seq f).openBatch n = false := by
  unfold complete
  split
  · exact h
  next b _ =>
    dsimp only
    have h1 : Warp.openBatch { w with batches := w.batches.map fun (c : Batch) =>
        if c.sealed && c.seq == seq && c.value.isNone then f c else c } n = false := by
      refine openBatch_of_mem (fun c hc => ?_) h
      obtain ⟨d, hd, rfl⟩ := List.mem_map.1 hc
      refine ⟨d, hd, ?_⟩
      split
      · exact ⟨(hf d).1, fun hs => (hf d).2.trans hs⟩
      · exact ⟨rfl, id⟩
    split
    · rw [openBatch_eq_false] at h1 ⊢
      exact fun c hc => h1 c (List.mem_filter.1 hc).1
    · exact deliverAll_keeps (P := fun y => y.openBatch n = false) (fun y c => writeToken_openBatch c) _ _ h1

theorem Warp.complete_nextSeq (w : Warp) (seq : Nat) (f : Batch → Batch) : (w.complete seq f).nextSeq = w.nextSeq := by
  unfold complete
  split
  · rfl
  · dsimp only
    split
    · rfl
    · exact deliverAll_keeps (P := fun y => y.nextSeq = w.nextSeq) (fun y c hy => (writeToken_nextSeq y c).trans hy) _ _ rfl

/-! ## Completing the batch whose token is due (R178, R182) -/

/-- The one sealed batch of its sequence number completes, and its token is the next that is due on its register: it is written. -/
theorem Warp.complete_due {w : Warp} {seq : Nat} {f : Batch → Batch} {b : Batch} (hr : w.retired = false) (hs : b.seq = seq)
    (hv : b.value = none) (hone : ∀ e ∈ w.batches, e.sealed = true → e.seq = seq → e = b)
    (hdue : w.batches.filter (fun e => e.reg == b.reg && e.sealed && !e.written) = [b])
    (hf : ∀ c, (f c).reg = c.reg ∧ (f c).sealed = c.sealed ∧ (f c).written = c.written ∧ (f c).value.isSome) :
    w.complete seq f = Warp.writeToken { w with batches := w.batches.map fun (c : Batch) =>
      if c.sealed && c.seq == seq && c.value.isNone then f c else c } (f b) := by
  have hb : b ∈ w.batches ∧ b.sealed = true := by
    have := List.mem_filter.1 (hdue ▸ List.mem_singleton_self b)
    simp only [Bool.and_eq_true] at this
    exact ⟨this.1, this.2.1.2⟩
  have hcond : (b.sealed && b.seq == seq && b.value.isNone) = true := by simp [hb.2, hs, hv]
  have hfind : (w.batches.find? fun b => b.sealed && b.seq == seq && b.value.isNone) = some b := by
    cases h : w.batches.find? fun b => b.sealed && b.seq == seq && b.value.isNone with
    | none => exact absurd hcond (List.find?_eq_none.1 h b hb.1)
    | some e =>
      have he := List.find?_some h
      simp only [Bool.and_eq_true, beq_iff_eq] at he
      rw [hone e (List.mem_of_find?_eq_some h) he.1.1 he.1.2]
  unfold complete
  rw [hfind]
  simp only [hr, Bool.false_eq_true, if_false]
  unfold deliver
  rw [List.filter_map, List.filter_congr (q := fun e => e.reg == b.reg && e.sealed && !e.written), hdue, List.map_singleton,
    if_pos hcond]
  · unfold deliverAll
    rw [if_pos (hf b).2.2.2]
    rfl
  · intro c _
    dsimp only [Function.comp]
    split
    · rw [(hf c).1, (hf c).2.1, (hf c).2.2.1]
    · rfl

/-! ## Sealing a batch (R178, R179) -/

/-- The batches with the open one of a register sealed, or an empty one beside them. -/
def Warp.sealed (w : Warp) (reg : Nat) : List Batch :=
  if w.openBatch reg then
    w.batches.map fun (b : Batch) => if b.reg == reg && !b.sealed then { b with sealed := true, seq := w.nextSeq } else b
  else w.batches ++ [{ reg, seq := w.nextSeq, sealed := true }]

/-- A warp whose batch is sealed, before an empty one completes. -/
def Warp.sealing (w : Warp) (reg : Nat) : Warp :=
  { w with nextSeq := if w.nextSeq + 1 = 2 ^ 32 then 1 else w.nextSeq + 1, batches := w.sealed reg }

theorem Warp.seal_eq (w : Warp) (reg : Nat) : w.seal reg =
    if ((w.sealed reg).find? fun b => b.sealed && b.seq == w.nextSeq).elim false fun b => b.ops.isEmpty then
      (w.sealing reg).complete w.nextSeq fun b => { b with value := some (copyToken b b.err.isSome) }
    else w.sealing reg := by
  have e : w.takeSeq.2.openBatch reg = w.openBatch reg := rfl
  unfold Warp.seal sealing Warp.sealed
  dsimp only
  rw [e]
  cases w.openBatch reg <;> rfl

theorem Warp.sealing_openBatch (w : Warp) (reg : Nat) : (w.sealing reg).openBatch reg = false := by
  rw [openBatch_eq_false]
  change ∀ b ∈ w.sealed reg, _
  unfold Warp.sealed
  split
  · intro c hc hr
    obtain ⟨b, hb, rfl⟩ := List.mem_map.1 hc
    split
    · rfl
    next h =>
      rw [if_neg h] at hr
      simpa [hr] using h
  next h =>
    have h := openBatch_eq_false.1 (Bool.not_eq_true _ ▸ h)
    intro c hc hr
    rcases List.mem_append.1 hc with hc | hc
    · exact h c hc hr
    · rw [List.mem_singleton.1 hc]

theorem Warp.seal_openBatch (w : Warp) (reg : Nat) : (w.seal reg).openBatch reg = false := by
  rw [seal_eq]
  split
  · exact complete_openBatch (fun _ => ⟨rfl, rfl⟩) (sealing_openBatch w reg)
  · exact sealing_openBatch w reg

theorem Warp.seal_nextSeq (w : Warp) (reg : Nat) :
    (w.seal reg).nextSeq = if w.nextSeq + 1 = 2 ^ 32 then 1 else w.nextSeq + 1 := by
  rw [seal_eq]
  split
  · exact complete_nextSeq ..
  · rfl

/-- The open batch of a register that holds operations is sealed and does not complete. -/
theorem Warp.mem_seal {w : Warp} {b : Batch} (hb : b ∈ w.batches) (ho : b.sealed = false) (hops : b.ops ≠ [])
    (hseq : ∀ c ∈ w.batches, c.sealed = true → c.seq ≠ w.nextSeq)
    (hone : w.batches.filter (fun c => c.reg == b.reg && !c.sealed) = [b]) :
    { b with sealed := true, seq := w.nextSeq } ∈ (w.seal b.reg).batches := by
  have hopen : w.openBatch b.reg = true := List.any_eq_true.2 ⟨b, hb, by simp [ho]⟩
  have hs : w.sealed b.reg = w.batches.map fun (c : Batch) =>
      if c.reg == b.reg && !c.sealed then { c with sealed := true, seq := w.nextSeq } else c := if_pos hopen
  have hm : { b with sealed := true, seq := w.nextSeq } ∈ w.sealed b.reg := by
    rw [hs]
    exact List.mem_map.2 ⟨b, hb, if_pos (by simp [ho])⟩
  have hne : (((w.sealed b.reg).find? fun c => c.sealed && c.seq == w.nextSeq).elim false fun c => c.ops.isEmpty) = false := by
    cases h : (w.sealed b.reg).find? fun c => c.sealed && c.seq == w.nextSeq with
    | none => rfl
    | some e =>
      have he := List.find?_some h
      simp only [Bool.and_eq_true, beq_iff_eq] at he
      have hmem := List.mem_of_find?_eq_some h
      rw [hs] at hmem
      obtain ⟨c, hc, rfl⟩ := List.mem_map.1 hmem
      split at he
      next hcb =>
        obtain rfl : c = b := List.mem_singleton.1 (hone ▸ List.mem_filter.2 ⟨hc, hcb⟩)
        rw [if_pos hcb]
        exact List.isEmpty_eq_false_iff.2 hops
      next => exact absurd he.2 (hseq c hc he.1)
  rw [seal_eq, hne, if_neg Bool.false_ne_true]
  exact hm

/-- With no batch at all an empty one is made, and its token is written at once. -/
theorem Warp.seal_empty {w : Warp} (reg : Nat) (h : w.batches = []) (hr : w.retired = false) :
    (w.seal reg).sget reg = BitVec.ofNat 64 w.nextSeq := by
  have hs : w.sealed reg = [{ reg, seq := w.nextSeq, sealed := true }] := by
    unfold Warp.sealed openBatch
    rw [h]
    rfl
  have he : (((w.sealed reg).find? fun c => c.sealed && c.seq == w.nextSeq).elim false fun c => c.ops.isEmpty) = true := by
    rw [hs]
    simp
  have hb : (w.sealing reg).batches = [{ reg, seq := w.nextSeq, sealed := true }] := hs
  rw [seal_eq, he, if_pos rfl, complete_due (w := w.sealing reg) (seq := w.nextSeq)
    (b := { reg, seq := w.nextSeq, sealed := true }) hr rfl rfl, writeToken_sget, if_pos rfl]
  · rfl
  · rw [hb]
    exact fun e he _ _ => List.mem_singleton.1 he
  · rw [hb]
    simp
  · exact fun c => ⟨rfl, rfl, rfl, rfl⟩

theorem State.Issues.alive {s : State} {o : Op} {a : Args} {poison : State → Grp → Option Trap} {g : Grp}
    (h : s.Issues o a poison g) : ((s.opened o a g).warp (leaderOf g)).retired = false := by
  have e := h.opened.warp (leaderOf g)
  have hm : leaderOf g ∈ g.ws := Grp.leader_mem h.grp.2.2
  rw [e]
  exact (h.home _ hm).live

/-- The leader of an instruction that issues is listed in the opened state. -/
theorem State.Issues.leader_listed {s : State} {o : Op} {a : Args} {poison : State → Grp → Option Trap} {g : Grp}
    (h : s.Issues o a poison g) : (mfind (s.opened o a g).warps (leaderOf g)).isSome := by
  obtain ⟨m, hm, e⟩ := List.mem_map.1 (Grp.leader_mem h.grp.2.2)
  rw [h.opened.warps, ← e]
  exact h.grp.2.1 m hm

theorem copy_seal : Claims.copySeal := by
  intro a s g h
  dsimp only
  intro hfull
  have hl := h.leader_listed
  have halive := h.alive
  generalize hs0 : s.opened .cseal a g = s0 at hfull hl halive ⊢
  have he : effCseal a s0 g = .next ((s0.trace (leaderOf g) 6 (BitVec.ofNat 64 (s0.warp (leaderOf g)).nextSeq)).modWarp
      (leaderOf g) fun x => x.seal a.d.toNat) := by
    simp only [effCseal, hfull, Bool.false_eq_true, if_false]
  generalize ht : s0.trace (leaderOf g) 6 _ = t at he
  have hrest := State.trace_rest s0 (leaderOf g) 6 (BitVec.ofNat 64 (s0.warp (leaderOf g)).nextSeq)
  rw [ht] at hrest
  have hw : ∀ v, t.warp v = s0.warp v := fun v => by rw [hrest]; rfl
  have hlt : (mfind t.warps (leaderOf g)).isSome := by rw [hrest]; exact hl
  have hself : (t.modWarp (leaderOf g) fun x => x.seal a.d.toNat).warp (leaderOf g) =
      (s0.warp (leaderOf g)).seal a.d.toNat := by rw [State.modWarp_self _ hlt, hw]
  refine ⟨_, h.completes rfl (hs0 ▸ he) fun v => ?_, ?_, fun v hv => ?_, ?_, ?_, fun b hb hreg ho hops hseq hone => ?_, fun hb => ?_⟩
  · rw [State.modWarp_listed, hrest, hs0]
  · rw [hself, Warp.seal_openBatch]
  · rw [State.modWarp_warp_ne _ _ hv, hw]
  · rw [State.modWarp_mem, hrest]
  · rw [hself, Warp.seal_nextSeq]
  · rw [hself, ← hreg]
    exact Warp.mem_seal hb ho hops hseq hone
  · rw [hself, Warp.seal_empty _ hb halive]

/-! ## Completing a batch of copies (R178, R182) -/

theorem copy_complete : Claims.copyComplete := by
  intro s w seq b h0 hfind hops hfar
  dsimp only
  intro hwait hl hret hdue hv hone
  have hseq : b.seq = seq := by
    have := List.find?_some hfind
    simp only [Bool.and_eq_true, beq_iff_eq] at this
    exact this.1.2
  generalize hc : s.moveBatch w b.ops = c at hwait hl hret hdue hone ⊢
  have he : exec (.copyBatchComplete w seq) s = .next (c.st.modWarp w fun x => x.complete seq fun b =>
      { b.moved c with value := some (copyToken b (b.moved c).err.isSome) }) := by
    change execCopyBatchComplete w seq s = _
    unfold execCopyBatchComplete
    rw [if_neg h0, hfind]
    dsimp only
    rw [hc]
    refine (if_neg ?_).trans (if_neg (Bool.not_eq_true _ ▸ hwait))
    rw [hfar, Bool.or_false, Bool.not_eq_true', Bool.not_eq_false, List.all_eq_true]
    intro id hid
    obtain ⟨v, reg, red, a, c, parts, fl, rels, fp, e⟩ := hops id hid
    rw [e]
  have hself := Warp.complete_due (f := fun b => { b.moved c with value := some (copyToken b (b.moved c).err.isSome) })
    hret hseq hv hone hdue fun _ => ⟨rfl, rfl, rfl, rfl⟩
  refine ⟨_, he, rfl, fun v hv => State.modWarp_warp_ne _ _ hv, ?_, fun n hn => ?_, ?_⟩
  · rw [State.modWarp_self _ hl, hself, Warp.writeToken_sget]
    refine (if_pos rfl).trans ?_
    change BitVec.ofNat 64 (b.seq + if (b.err.orElse fun _ => c.err).isSome then 2 ^ 63 else 0) = _
    cases b.err <;> simp
  · rw [State.modWarp_self _ hl, hself, Warp.writeToken_sget]
    exact if_neg hn
  · rw [State.modWarp_self _ hl, hself, Warp.writeToken_v]

/-! ## Moving a piece (R166, R176) -/

theorem map_fst_zip_sublist {α β : Type} (xs : List α) (ys : List β) : ((xs.zip ys).map (·.1)).Sublist xs := by
  induction xs generalizing ys with
  | nil => exact .slnil
  | cons x xs ih =>
    cases ys with
    | nil => exact List.nil_sublist _
    | cons y ys => exact (ih ys).cons_cons x

theorem memLocs_map_mem (ls : List Nat) : memLocs (ls.map .mem) = ls := by
  induction ls with
  | nil => rfl
  | cons l ls ih => exact congrArg (l :: ·) ih

theorem State.copyDest_plain {s s1 : State} {w n : Nat} {p : Word} {ls : List Nat} (a : Args)
    (h : s.places w { write := true } p n = (s1, .ok (ls.map .mem))) : s.copyDest w a p n = (s1, .ok (.here ls false)) := by
  unfold copyDest
  rw [h]
  cases ls with
  | nil => rfl
  | cons l ls => exact congrArg (fun x => (s1, Except.ok (CopyTo.here x false))) (memLocs_map_mem (l :: ls))

theorem State.copyRead_plain {s s1 : State} {w n : Nat} {p : Word} {ls : List Nat} (id : Nat) (fl : SMap Nat) (cp : BitVec 2)
    (h : s.places w {} p n = (s1, .ok (ls.map .mem))) : s.copyRead w id fl cp p n = s1.copyLocal w id fl cp p ls := by
  unfold copyRead
  rw [h]
  cases ls with
  | nil => rfl
  | cons l ls => exact congrArg (s1.copyLocal w id fl cp p) (memLocs_map_mem (l :: ls))

/-- A read without poison gives poison nowhere. -/
theorem Rd.poison_of_good {r : Rd} (h : r.bad = []) (ls : List Nat) : r.poison ls = none := by
  unfold poison
  rw [h]
  rfl

/-- The source's bytes, where none is poisoned. -/
theorem State.copyLocal_good {s s3 : State} {w id : Nat} {fl : SMap Nat} {cp : BitVec 2} {p : Word} {ls : List Nat} {rd : Rd}
    (h : (let s' := s.flushOwn w id ls
      let s'' := if policyOf p cp = .bypass then s'.dropL1 (s.coreOf w) (dramLines ls).contains else s'
      s''.readHome 4 8 (s''.bankFloors (some (s.coreOf w)) fl ls) ls = (s3, rd))) (hg : rd.bad = []) :
    s.copyLocal w id fl cp p ls =
      (if policyOf p cp = .keep then s3.cacheL1 (s.coreOf w) ls false else s3, .ok (ls.map rd.byte)) := by
  have hn : (ls.zipIdx.findSome? fun l => (rd.poison [l.1]).map fun c => (l.2, c)) = none := by
    rw [List.findSome?_eq_none_iff]
    intro x _
    rw [Rd.poison_of_good hg]
    rfl
  unfold copyLocal
  simp only [beq_iff_eq]
  rw [h]
  simp only [hn]

/-- Noting the positions of writes leaves the rest of what a move has made. -/
theorem CopyAcc.wrote_rest (c : CopyAcc) (rmt : Bool) (ls : List Nat) :
    (c.wrote rmt ls).st = c.st ∧ (c.wrote rmt ls).err = c.err ∧ (c.wrote rmt ls).wait = c.wait := by
  unfold wrote
  dsimp only
  split <;> exact ⟨rfl, rfl, rfl⟩

/-- A piece whose source gives good bytes and whose destination nothing holds is written at once. -/
theorem movePiece_writes {id w n : Nat} {a : Args} {fl : SMap Nat} {rels : List Nat} {fp : Word} {c : CopyAcc} {dst src : Word}
    {s1 s2 s4 : State} {ls : List Nat} {bs : List Byte} (hd : c.st.copyDest w a dst n = (s1, .ok (.here ls false)))
    (hs : s1.copyRead w id fl a.cp src n = (s2, .ok bs)) (h4 : (s2.flushOwn w id ls).carry w true ls = s4)
    (hw : s4.copyWaits w id fl ls = false) (hl : ls.any s4.lostLoc = false) :
    let s5 := (s4.recall ls).performWrite { rels } false 4 8 (ls.zip bs)
    movePiece id w a false fl rels fp c dst src n =
      CopyAcc.wrote { c with st := if policyOf dst a.cp = .keep then s5.cacheL1 (s5.coreOf w) ls true else s5 } false ls := by
  unfold movePiece
  rw [hd]
  dsimp only
  rw [hs]
  dsimp only
  rw [h4, hw, hl]
  simp only [Bool.false_eq_true, if_false, beq_iff_eq]

theorem State.cacheL1_ite_mem (s : State) (c : Prop) [Decidable c] (k : Nat) (ls : List Nat) (b : Bool) :
    (if c then s.cacheL1 k ls b else s).mem = s.mem := by
  split
  · rw [cacheL1_rest]
  · rfl

theorem copy_piece : Claims.copyPiece := by
  intro id w a fl rels fp c dst src n dl sl s1 s2 s3 rd hd hs hr hg _ _
  dsimp only
  intro hw hl
  generalize h4 : State.carry _ w true dl = s4 at hw hl ⊢
  have hm := movePiece_writes (fp := fp) (rels := rels) (State.copyDest_plain a hd)
    ((State.copyRead_plain id fl a.cp hs).trans (State.copyLocal_good hr hg)) h4 hw hl
  dsimp only at hm
  generalize hs5 : (s4.recall dl).performWrite { rels } false 4 8 (dl.zip (sl.map rd.byte)) = s5 at hm
  have hrest := CopyAcc.wrote_rest
    { c with st := if policyOf dst a.cp = .keep then s5.cacheL1 (s5.coreOf w) dl true else s5 } false dl
  rw [← hm] at hrest
  obtain ⟨hst, herr, hwait⟩ := hrest
  have hmem := (congrArg State.mem hst).trans (State.cacheL1_ite_mem ..)
  rw [← hs5] at hmem
  refine ⟨herr, hwait, fun k hk ho => ?_, fun hn hk i l k hi hj hdis => ?_⟩
  · have ht := (State.traffic_recall (P := (· ≠ k)) s4 dl fun _ hx e => ho (e ▸ hx)).trans
      (State.traffic_performWrite _ { rels } false 4 8 (dl.zip (sl.map rd.byte)) fun b hb e => hk (e ▸ mem_zip_left hb))
    rw [hmem]
    exact ht.byte k fun h => h rfl
  · have hz : (l, rd.byte k) ∈ dl.zip (sl.map rd.byte) :=
      List.mem_iff_getElem?.2 ⟨i, List.getElem?_zip_eq_some.2 ⟨hi, by rw [List.getElem?_map, hj]; rfl⟩⟩
    have hnd : ((dl.zip (sl.map rd.byte)).map (·.1)).Nodup :=
      hn.sublist (map_fst_zip_sublist ..)
    have hkept := State.rowsKept_recall s4 dl
    rw [hmem]
    exact State.performWrite_byte_mem (hkept.known hk) { rels } false 4 8 hnd hz ((hkept.discards hk l).trans hdis)

/-- Settles O34: sealing by what it leaves of the warp's batches, completion by the one token that is due, a piece by its read at the
source and its write at home. -/
theorem copyBatches : Obligations.CopyBatches := ⟨copy_seal, copy_complete, copy_piece⟩

end Sys2Proof.Machine

/-! SUPPORT. What an instruction that accesses memory leaves, once its result is in flight: the state of its accesses, a record of the
trace ring, and the change of its own warp. -/

namespace Sys2Proof.Machine

/-- Only the trace rings of cores differ. -/
structure State.Traced (t u : State) : Prop where
  rest : u = { t with cores := u.cores }
  core : ∀ j, u.core j = { t.core j with ring := (u.core j).ring, head := (u.core j).head, traceAt := (u.core j).traceAt }

theorem State.Traced.refl (t : State) : State.Traced t t := ⟨rfl, fun _ => rfl⟩

theorem State.traced_traceLane (t : State) (w k : Nat) (g : Grp) (a : Args) : State.Traced t (t.traceLane w k g a) :=
  ⟨traceLane_rest .., traceLane_core t w k g a⟩

/-- What is traffic but for trace records, what is in flight, and the change of one warp that stands in the state. -/
theorem State.Traffic.accessedOn {P : Nat → Prop} {s t u : State} {w : Nat} {F f : Warp → Warp} (h : State.Traffic P s t)
    (hu : State.Traced t u) (m : SMap Pend) (hl : (mfind s.warps w).isSome) (hf : Warp.Saw (F (s.warp w)) (f (t.warp w))) :
    State.Accessed P (onWarp w F) s ({ u with pend := m }.modWarp w f) where
  rest := by
    rw [hu.rest, h.rest]
    rfl
  warp j := by
    have hw : u.warps = t.warps := by rw [hu.rest]
    have hwarp (v : Nat) : State.warp { u with pend := m } v = t.warp v := by rw [hu.rest]; rfl
    by_cases hj : j = w
    · subst hj
      have e : (State.modWarp { u with pend := m } j f).warp j = f (t.warp j) := by
        rw [modWarp_self _ (by rw [hw, h.listed]; exact hl)]
        exact congrArg f (hwarp j)
      rw [e]
      exact hf.eq.trans (by rw [onWarp, if_pos rfl])
    · have e : (State.modWarp { u with pend := m } w f).warp j = t.warp j :=
        (modWarp_warp_ne _ _ hj).trans (hwarp j)
      rw [e, onWarp, if_neg hj]
      exact h.warp j
  core j := by
    have e := hu.core j
    have hc := h.core j
    change u.core j = _
    generalize hr : State.core (State.modWarp { u with pend := m } w f) j = c
    obtain rfl : u.core j = c := hr
    generalize u.core j = c at e ⊢
    rw [e, hc]
  die d := by
    rw [hu.rest]
    exact h.die d
  byte l hl := by
    rw [hu.rest]
    exact h.byte l hl
  wf x := by
    rw [hu.rest]
    exact h.wf x

end Sys2Proof.Machine

/-! SUPPORT. What a warp's reads that take their place leave of the releases after which warps write (spec/12 R278): a copy keeps
those of its issue. -/

namespace Sys2Proof.Machine

/-- Every warp has the same releases before its writes. -/
structure SameRels (m m' : SMap Warp) : Prop where
  rels : ∀ v, (mget {} m' v).rels = (mget {} m v).rels

section
variable {m m' m'' : SMap Warp}

theorem SameRels.refl (m : SMap Warp) : SameRels m m := ⟨fun _ => rfl⟩

theorem SameRels.trans (h : SameRels m m') (h' : SameRels m' m'') : SameRels m m'' := ⟨fun v => (h'.rels v).trans (h.rels v)⟩

theorem SameRels.of_eq (h : m' = m) : SameRels m m' := h ▸ .refl m

theorem SameRels.foldl {α : Type} {f : State → α → State} (h : ∀ s x, SameRels s.warps (f s x).warps) (xs : List α) (s : State) :
    SameRels s.warps (xs.foldl f s).warps := by
  induction xs generalizing s with
  | nil => exact .refl _
  | cons x xs ih => exact (h s x).trans (ih _)

end

theorem State.Checked.sameRels {s r : State} (h : State.Checked s r) : SameRels s.warps r.warps := .of_eq h.warps

section
variable (s : State)

theorem State.sameRels_modWarp (w : Nat) {f : Warp → Warp} (hf : ∀ x, (f x).rels = x.rels) : SameRels s.warps (s.modWarp w f).warps := by
  refine ⟨fun v => ?_⟩
  change ((s.modWarp w f).warp v).rels = (s.warp v).rels
  by_cases hv : v = w
  · subst hv
    cases hl : mfind s.warps v with
    | none => rw [show s.modWarp v f = s by simp [modWarp, mmod, hl]]
    | some x => rw [modWarp_self _ (by simp [hl]), hf]
  · rw [modWarp_warp_ne _ _ hv]

theorem State.sameRels_modWarps (ws : List Nat) {f : Warp → Warp} (hf : ∀ x, (f x).rels = x.rels) :
    SameRels s.warps (s.modWarps ws f).warps := .foldl (fun s w => sameRels_modWarp s w hf) ws s

/-! ## Writes and reads at home -/

theorem State.sameRels_writePiece (wr : Writer) (rmw : Bool) (bs : List (Nat × Byte)) :
    SameRels s.warps (s.writePiece wr rmw bs).warps :=
  sameRels_modWarps { s with mem := s.mem.putPiece wr.rels rmw (bs.filter fun b => !s.discards b.1) } wr.ws
    fun _ => by split <;> rfl

theorem State.sameRels_performPiece (wr : Writer) (rmw : Bool) (src : Nat) (bs : List (Nat × Byte)) :
    SameRels s.warps (s.performPiece wr rmw src bs).warps := (checked_checkWrites ..).sameRels.trans (sameRels_writePiece ..)

theorem State.sameRels_performWrite (wr : Writer) (rmw : Bool) (src n : Nat) (bs : List (Nat × Byte)) :
    SameRels s.warps (s.performWrite wr rmw src n bs).warps :=
  (checked_checkWrites ..).sameRels.trans
    (.foldl (fun s (g : Nat × List (Nat × Byte)) => sameRels_writePiece s wr rmw g.2) _ _)

theorem State.sameRels_flushULine (u : ULine) : SameRels s.warps (s.flushULine u).warps := by
  refine .foldl (fun s e => ?_) u.vals s
  have hc := (checked_checkReads s 0 (span e.1 (atomSize u.ty))).sameRels
  dsimp only
  split
  · exact hc.trans (sameRels_performWrite (State.carry _ _ true _) ..)
  · exact hc

theorem State.sameRels_recall (ls : List Nat) : SameRels s.warps (s.recall ls).warps := by
  unfold State.recall
  split
  · exact .refl _
  · exact SameRels.foldl (fun t k => SameRels.foldl sameRels_flushULine _ (t.modCore k _)) _
      { s with free := s.free + s.uCores.length }

theorem State.sameRels_readHome (src n : Nat) (fl : SMap Nat) (ls : List Nat) : SameRels s.warps (s.readHome src n fl ls).1.warps :=
  (sameRels_recall s ls).trans
    (checked_checkReads (s.recall ls) src (ls.filter fun l => !(s.recall ls).offline (homeDie l))).sameRels

theorem State.sameRels_peekHome (src : Nat) (ls : List Nat) : SameRels s.warps (s.peekHome src ls).1.warps :=
  (sameRels_recall s ls).trans
    (checked_checkReads (s.recall ls) src (ls.filter fun l => !(s.recall ls).offline (homeDie l))).sameRels

theorem State.sameRels_hasRead (ws : List Nat) (d : Rd) : SameRels s.warps (s.hasRead ws d).warps :=
  sameRels_modWarps s ws fun _ => rfl

theorem State.cacheL1_warps (k : Nat) (ls : List Nat) (b : Bool) : (s.cacheL1 k ls b).warps = s.warps := by
  rw [cacheL1_rest]

theorem State.dropL1_warps (k : Nat) (f : Nat → Bool) : (s.dropL1 k f).warps = s.warps := by
  unfold dropL1
  split <;> rfl

theorem State.checkL1_warps (k u : Nat) : (s.checkL1 k u).1.warps = s.warps := by
  unfold checkL1
  dsimp only
  split
  · rfl
  · rfl
  · rfl
  · rfl
  · split <;> rfl

theorem State.checkL1s_warps (k : Nat) (ls : List Nat) : (s.checkL1s k ls).1.warps = s.warps := by
  unfold checkL1s
  split
  · rfl
  · generalize unitsOf (ls.filter isDram) = us
    suffices h : ∀ acc : State × List Nat, (us.foldl (fun acc u =>
        let (s1, bad) := acc.1.checkL1 k u
        (s1, if bad then acc.2 ++ [u] else acc.2)) acc).1.warps = acc.1.warps from h (s, [])
    induction us with
    | nil => exact fun _ => rfl
    | cons u us ih => exact fun acc => (ih _).trans (checkL1_warps acc.1 k u)

theorem State.sameRels_warpRead (w src n : Nat) (ls : List Nat) : SameRels s.warps (s.warpRead w src n ls).1.warps := by
  have h1 : SameRels s.warps (((s.recall ls).carry w false (s.beyondL1 (s.coreOf w) ls)).checkL1s (s.coreOf w) ls).1.warps :=
    (sameRels_recall s ls).trans (.of_eq (checkL1s_warps ((s.recall ls).carry w false _) ..))
  unfold warpRead
  dsimp only
  generalize ((s.recall ls).carry w false (s.beyondL1 (s.coreOf w) ls)).checkL1s (s.coreOf w) ls = q at h1 ⊢
  exact (h1.trans (sameRels_readHome q.1 src n _ ls)).trans (sameRels_hasRead ..)

theorem State.sameRels_readCounter (ws : List Nat) (p : Word) (l : Nat) : SameRels s.warps (s.readCounter ws p l).1.warps := by
  unfold readCounter
  dsimp only
  split <;> exact (sameRels_peekHome (s.carry (ws.headD 0) false (span l 8)) ..).trans (sameRels_hasRead ..)

theorem State.sameRels_counterAdd (wr : Writer) (l inc : Nat) : SameRels s.warps (s.counterAdd wr l inc).1.warps := by
  unfold counterAdd
  dsimp only
  split
  · exact sameRels_peekHome ..
  · exact (sameRels_peekHome s 0 (span l 8)).trans (sameRels_performPiece ..)

theorem Warp.record_rels (x : Warp) (t : LateTrap) : (x.record t).rels = x.rels := by rw [record_eq]

theorem State.sameRels_countUp (wr : Writer) (p : Word) (l inc : Nat) : SameRels s.warps (s.countUp wr p l inc).warps := by
  unfold countUp
  dsimp only
  refine (sameRels_counterAdd (s.carry (wr.ws.headD 0) true (span l 8)) wr l inc).trans (sameRels_modWarp _ _ fun x => ?_)
  split
  · exact Warp.record_rels ..
  · split
    · exact Warp.record_rels ..
    · rfl

/-! ## Operations in flight that take their place -/

theorem State.sameRels_bindLoad (id : Nat) : SameRels s.warps (s.bindLoad id).warps := by
  unfold bindLoad
  split
  next w a accs vals bound bad post fl _ =>
    dsimp only
    split
    · exact .refl _
    · generalize h0 : State.modWarp _ _ _ = s0
      have h1 : SameRels s.warps s0.warps := by
        subst h0
        exact (SameRels.of_eq (dropL1_warps ..)).trans (sameRels_modWarp _ _ fun _ => rfl)
      have h2 := h1.trans (sameRels_warpRead s0 w 0 (loadPiece accs) (loadDue accs bound post))
      generalize s0.warpRead w 0 (loadPiece accs) (loadDue accs bound post) = q at h2 ⊢
      exact h2.trans (.of_eq (cacheL1_warps ..))
  next => exact .refl _

theorem State.sameRels_performCread (id : Nat) : SameRels s.warps (s.performCread id).warps := by
  unfold performCread
  split
  next w p l d _ =>
    have h1 := sameRels_readCounter s [w] p l
    generalize s.readCounter [w] p l = q at h1 ⊢
    exact h1
  next => exact .refl _

theorem State.sameRels_performCsig (id : Nat) : SameRels s.warps (s.performCsig id).warps := by
  unfold performCsig
  split
  · dsimp only
    split
    · exact sameRels_countUp { s with pend := mdel s.pend id } ..
    · exact .refl _
  · exact .refl _

theorem State.sameRels_settlePend (id : Nat) : SameRels s.warps (s.settlePend id).warps :=
  ((sameRels_bindLoad s id).trans (sameRels_performCread _ id)).trans (sameRels_performCsig _ id)

theorem State.sameRels_flushOwn (w id : Nat) (ls : List Nat) : SameRels s.warps (s.flushOwn w id ls).warps := by
  unfold flushOwn
  split
  · exact .refl _
  · exact .foldl sameRels_settlePend _ s

theorem State.sameRels_settleReads (w : Nat) : SameRels s.warps (s.settleReads w).warps := by
  unfold settleReads
  refine .foldl (fun s e => ?_) _ s
  split
  · split
    · exact ((sameRels_flushOwn ..).trans (sameRels_bindLoad ..)).trans (sameRels_performCread ..)
    · exact .refl _
  · exact .refl _

end

end Sys2Proof.Machine

/-! SUPPORT. Copies at issue (spec/07 R175, R176, R178): their checks, and what a copy that starts leaves. -/

namespace Sys2Proof.Machine

open Claims (inOpenBatch copyStarts)

/-! ## What starting a copy leaves -/

theorem Warp.addCopy_rest (x : Warp) (reg id : Nat) : x.addCopy reg id = { x with batches := (x.addCopy reg id).batches } := by
  unfold addCopy
  split <;> rfl

/-- An operation that joins a register's open batch, or a new one, is in it. -/
theorem Warp.addCopy_open (x : Warp) (reg id : Nat) : inOpenBatch (x.addCopy reg id) reg id := by
  unfold addCopy
  split
  next h =>
    obtain ⟨b, hb, hbr⟩ := List.any_eq_true.1 h
    simp only [Bool.and_eq_true, beq_iff_eq, Bool.not_eq_true'] at hbr
    refine ⟨{ b with ops := b.ops ++ [id] }, List.mem_map.2 ⟨b, hb, if_pos (by simp [hbr])⟩, hbr.1, hbr.2, ?_⟩
    exact List.mem_append_right _ (List.mem_singleton_self _)
  next =>
    exact ⟨{ reg, ops := [id] }, List.mem_append_right _ (List.mem_singleton_self _), rfl, rfl, List.mem_singleton_self _⟩

theorem State.noteFar_warps (s : State) (w n id : Nat) (xs : List FarAcc) : (s.noteFar w n id xs).warps = s.warps := by
  unfold noteFar
  split <;> rfl

/-- Noting the paths of an operation is traffic but for the list of paths itself. -/
theorem State.traffic_noteFar {P : Nat → Prop} (s : State) (w n id : Nat) (xs : List FarAcc) :
    State.Traffic P s { s.noteFar w n id xs with far := s.far } := by
  unfold noteFar
  split
  · exact .refl s
  · exact traffic_carryFar ..

/-- A copy before it joins its batch: the warp's earlier loads have read (R281), and the copy's paths are noted. -/
def State.copyNoted (s : State) (w : Nat) (parts : List (Word × Word × Nat)) : State :=
  (s.settleReads w).fresh.2.noteFar w ((parts.map (·.2.2)).foldl Nat.max 0) (s.settleReads w).nextId
    ((s.settleReads w).fresh.2.copyTargets w parts)

theorem State.startCopy_eq (s : State) (w : Nat) (red : Bool) (a : Args) (parts : List (Word × Word × Nat)) :
    s.startCopy w red a parts =
      { s.copyNoted w parts with pend := mins (s.copyNoted w parts).pend (s.settleReads w).nextId (.copy w a.d.toNat red a
          ((s.copyNoted w parts).warp w).ctx parts ((s.copyNoted w parts).warp w).fl ((s.copyNoted w parts).warp w).rels
          ((s.copyNoted w parts).warp w).fpmode) }.modWarp w
        fun x => x.addCopy a.d.toNat (s.settleReads w).nextId := rfl

theorem State.traffic_copyNoted (s : State) (w : Nat) (parts : List (Word × Word × Nat)) :
    State.Traffic s.OnItsWay s { s.copyNoted w parts with far := s.far } := by
  have h := State.traffic_settleReads (P := s.OnItsWay) s w fun _ => id
  have hf : (s.settleReads w).far = s.far := by rw [h.rest]
  rw [← hf]
  exact (h.trans (traffic_fresh _)).trans (traffic_noteFar ..)

theorem State.copyNoted_rels (s : State) (w : Nat) (parts : List (Word × Word × Nat)) :
    ((s.copyNoted w parts).warp w).rels = (s.warp w).rels := by
  have h := (sameRels_settleReads s w).rels w
  refine Eq.trans ?_ h
  unfold warp copyNoted
  rw [noteFar_warps]
  rfl

theorem State.copyNoted_ctx (s : State) (w : Nat) (parts : List (Word × Word × Nat)) :
    ((s.copyNoted w parts).warp w).ctx = (s.warp w).ctx := 
  (congrArg Warp.ctx ((s.traffic_copyNoted w parts).warp w) :)

theorem State.copyNoted_fpmode (s : State) (w : Nat) (parts : List (Word × Word × Nat)) :
    ((s.copyNoted w parts).warp w).fpmode = (s.warp w).fpmode := 
  (congrArg Warp.fpmode ((s.traffic_copyNoted w parts).warp w) :)

/-- An effect that starts a copy leaves what the copy's claim states. -/
theorem State.Issues.copyStarts {s : State} {o : Op} {a : Args} {g : Grp} {eff : State → Grp → Res} {red : Bool}
    {parts : List (Word × Word × Nat)} (h : s.IssuesPlain o a g) (hi : exec (Instr.ofOp o a) s = s.issue o a eff)
    (he : eff (s.opened o a g) g = .next ((s.opened o a g).startCopy (leaderOf g) red a parts)) :
    copyStarts o red a s g parts := by
  have hl := h.leader_listed
  have hc (r : State) := h.completes (r := r) hi
  unfold Claims.copyStarts
  dsimp only
  generalize s.opened o a g = s0 at he hl hc ⊢
  have ht := s0.traffic_copyNoted (leaderOf g) parts
  rw [State.startCopy_eq, State.copyNoted_ctx, State.copyNoted_rels, State.copyNoted_fpmode] at he
  generalize s0.copyNoted (leaderOf g) parts = t at *
  generalize (s0.settleReads (leaderOf g)).nextId = id at he
  have hlt : (mfind t.warps (leaderOf g)).isSome := (ht.listed (leaderOf g)).trans hl
  have hself (m : SMap Pend) : (State.modWarp { t with pend := m } (leaderOf g) fun x => x.addCopy a.d.toNat id).warp (leaderOf g) =
      (t.warp (leaderOf g)).addCopy a.d.toNat id := State.modWarp_self _ hlt
  refine ⟨_, id, (t.warp (leaderOf g)).fl, hc _ he fun v => ?_, mfind_mins_self .., ?_, ?_⟩
  · rw [State.modWarp_listed]
    exact ht.listed v
  · rw [hself]
    exact Warp.addCopy_open ..
  · rw [hself]
    refine ht.accessedOn (.refl _) _ hl ⟨?_⟩
    have e := Warp.addCopy_rest (t.warp (leaderOf g)) a.d.toNat id
    have hw := ht.warp (leaderOf g)
    generalize hx : State.warp { t with far := s0.far } (leaderOf g) = x at hw ⊢
    obtain rfl : t.warp (leaderOf g) = x := hx
    generalize (t.warp (leaderOf g)).addCopy a.d.toNat id = y at e ⊢
    rw [hw] at e
    generalize y.batches = bs at e
    subst e
    rfl

/-! ## The checks of a copy (R175) -/

section
variable {s : State} {g : Grp} {a : Args} {red : Bool}

theorem State.copyRange_badLength {n : Word} (hn : n = if a.kc = .x then lenC a else s.sval g (srcC a))
    (h : n.toNat % 16 ≠ 0 ∨ 2 ^ 32 < n.toNat) : s.copyRange g a red = .trap s ⟨0x12, 0, n⟩ := by
  subst hn
  exact if_pos h

theorem State.copyRange_starts {n : Word} (hn : n = if a.kc = .x then lenC a else s.sval g (srcC a)) (h : n.toNat % 16 = 0)
    (h32 : n.toNat ≤ 2 ^ 32)
    (ht : s.copyTrap (leaderOf g) 16 red [(s.sval g (srcA a), s.sval g (srcB a 0), n.toNat)] = none)
    (hf : (s.warp (leaderOf g)).batchFull a.d.toNat = false) :
    s.copyRange g a red = .next (s.startCopy (leaderOf g) red a [(s.sval g (srcA a), s.sval g (srcB a 0), n.toNat)]) := by
  subst hn
  unfold copyRange
  dsimp only
  rw [if_neg fun e => e.elim (· h) fun e => absurd h32 (Nat.not_le.2 e), ht, hf]
  rfl

theorem State.copyLanes_badSize {part : Nat → Nat → Word × Word} (h : (lenC a).toNat ∉ [4, 8, 16, 32, 64, 128]) :
    s.copyLanes g a part = .trap s (illegal 0x02) := by
  unfold copyLanes
  dsimp only
  rw [if_pos]
  simpa using h

theorem State.copyLanes_starts {part : Nat → Nat → Word × Word} {parts : List (Word × Word × Nat)}
    (hp : parts = (s.actedOf a (g.headD (0, 0))).map fun l =>
      ((part (lenC a).toNat l).1, (part (lenC a).toNat l).2, (lenC a).toNat))
    (h : (lenC a).toNat ∈ [4, 8, 16, 32, 64, 128]) (ht : s.copyTrap (leaderOf g) (lenC a).toNat false parts = none)
    (hf : (s.warp (leaderOf g)).batchFull a.d.toNat = false) :
    s.copyLanes g a part = .next (s.startCopy (leaderOf g) false a parts) := by
  subst hp
  unfold copyLanes
  dsimp only
  rw [List.contains_iff_mem.2 h, Bool.not_true, if_neg Bool.false_ne_true, ht, hf]
  rfl

end

/-- A check of a copy that fails before anything has changed (R346). -/
theorem State.Issues.copyTraps {s : State} {o : Op} {a : Args} {g : Grp} {eff : State → Grp → Res} {i : Instr} {x : Trap}
    (h : s.IssuesPlain o a g) (hi : exec i s = s.issue o a eff)
    (he : eff (s.opened o a g) g = .trap (s.opened o a g) x) :
    exec i s = .next (State.finish s.cur g o a (.trap (s.stood o a g) x)) := by
  refine hi.trans (congrArg Host.Outcome.next ?_)
  rw [h.traps eff he, State.keepErrors_opened]

/-! ## The four copies -/

/-- `CPY` and `CPYR`: one range. -/
theorem copyRange_claim {s : State} {o : Op} {a : Args} {g : Grp} {red : Bool} (h : s.IssuesPlain o a g)
    (hi : exec (Instr.ofOp o a) s = s.issue o a fun s g => s.copyRange g a red) :
    let s0 := s.opened o a g
    let n := if a.kc = .x then lenC a else s0.sval g (srcC a)
    let parts := [(s0.sval g (srcA a), s0.sval g (srcB a 0), n.toNat)]
    (n.toNat % 16 ≠ 0 ∨ 2 ^ 32 < n.toNat →
      exec (Instr.ofOp o a) s = .next (State.finish s.cur g o a (.trap (s.stood o a g) ⟨0x12, 0, n⟩))) ∧
    (n.toNat % 16 = 0 → n.toNat ≤ 2 ^ 32 → s0.copyTrap (leaderOf g) 16 red parts = none →
      (s0.warp (leaderOf g)).batchFull a.d.toNat = false → Claims.copyStarts o red a s g parts) :=
  ⟨fun hb => h.copyTraps hi (State.copyRange_badLength rfl hb),
    fun hn h32 ht hf => h.copyStarts hi (State.copyRange_starts rfl hn h32 ht hf)⟩

/-- `CPYG` and `CPYS`: an element of each lane. -/
theorem copyLanes_claim {s : State} {o : Op} {a : Args} {g : Grp} {part : State → Grp → Nat → Nat → Word × Word} (h : s.IssuesPlain o a g)
    (hi : exec (Instr.ofOp o a) s = s.issue o a fun s g => s.copyLanes g a (part s g)) :
    let s0 := s.opened o a g
    let e := (lenC a).toNat
    let parts := (s0.actedOf a (g.headD (0, 0))).map fun l => ((part s0 g e l).1, (part s0 g e l).2, e)
    (e ∉ [4, 8, 16, 32, 64, 128] →
      exec (Instr.ofOp o a) s = .next (State.finish s.cur g o a (.trap (s.stood o a g) ⟨0x01, 0x02, 0⟩))) ∧
    (e ∈ [4, 8, 16, 32, 64, 128] → s0.copyTrap (leaderOf g) e false parts = none →
      (s0.warp (leaderOf g)).batchFull a.d.toNat = false → Claims.copyStarts o false a s g parts) :=
  ⟨fun hb => h.copyTraps hi (State.copyLanes_badSize hb),
    fun hm ht hf => h.copyStarts hi (State.copyLanes_starts rfl hm ht hf)⟩

/-- Settles O30, by what starting a copy leaves: the reads that take their place are traffic that keeps the releases, and the copy
joins the open batch of D. -/
theorem copyStart : Obligations.CopyStart := by
  refine ⟨fun o ho a s g h => ?_, fun o ho a s g h => ?_⟩
  · simp only [List.mem_cons, List.not_mem_nil, or_false] at ho
    obtain rfl | rfl := ho
    · exact copyRange_claim h rfl
    · exact copyRange_claim h rfl
  · simp only [List.mem_cons, List.not_mem_nil, or_false] at ho
    obtain rfl | rfl := ho
    · simp only [if_true]
      exact copyLanes_claim (part := fun s g e l =>
        (s.sval g (srcA a) + BitVec.ofNat 64 (e * l), s.val (leaderOf g) (leaderOf g) l (srcB a 0))) h rfl
    · simp only [reduceCtorEq, if_false]
      exact copyLanes_claim (part := fun s g e l =>
        (s.val (leaderOf g) (leaderOf g) l (srcA a), s.sval g (srcB a 0) + BitVec.ofNat 64 (e * l))) h rfl

end Sys2Proof.Machine

/-! SUPPORT. Loads at issue (spec/07 R171): what checking the lanes, reading what is read at once, and putting the load in flight
leave. -/

namespace Sys2Proof.Machine

/-! ## What stays listed -/

section
variable (s : State) (v : Nat)

theorem State.checkWindow_listed (w off n : Nat) : (mfind (s.checkWindow w off n).warps v).isSome = (mfind s.warps v).isSome := by
  unfold checkWindow
  split
  · rfl
  · have h : State.Opened s ((((span off n).map (· / 8)).dedup).foldl (fun s k => s.checkWord w k) s) :=
      .foldl _ _ (fun t k _ => opened_checkWord t w k) s
    exact h.warps v

theorem State.loopPlaces_listed (c : Nat) (wr : Bool) (p : Word) (vas : List Nat) :
    (mfind (s.loopPlaces c wr p vas).1.warps v).isSome = (mfind s.warps v).isSome :=
  (keepsStore_loopPlaces (id := 0) (w := 0) c wr p vas s).listed v

theorem State.sideRead_listed (free w : Nat) (p : Word) (n : Nat) (ps : List Place) :
    (mfind (s.sideRead free w p n ps).1.warps v).isSome = (mfind s.warps v).isSome := by
  unfold sideRead
  split
  · dsimp only
    split <;> exact checkWindow_listed ..
  · rfl
  · rfl
  · split
    · split <;> rename_i e <;> exact (congrArg (fun q => (mfind q.1.warps v).isSome) e).symm.trans (loopPlaces_listed ..)
    · rfl
  · rfl

theorem State.loadLanes_listed (free w : Nat) (a : Args) (n : Nat) (addr : Nat → Word) (ps : List (Nat × List Place)) :
    (mfind (s.loadLanes free w a n addr ps).1.warps v).isSome = (mfind s.warps v).isSome := by
  induction ps generalizing s with
  | nil => rfl
  | cons e ps ih =>
    obtain ⟨l, qs⟩ := e
    have h := sideRead_listed s v free w (addr l) n qs
    unfold loadLanes
    split <;> rename_i e <;> rw [e] at h <;> exact (ih _).trans h

end

/-! ## Lanes in plain memory -/

theorem State.sideRead_plain (s : State) {qs : List Place} (h : ∀ p ∈ qs, ∃ l, p = .mem l) (free w : Nat) (p : Word) (n : Nat) :
    s.sideRead free w p n qs = (s, .mem (memLocs qs)) := by
  cases qs with
  | nil => rfl
  | cons q qs =>
    obtain ⟨k, rfl⟩ := h q (List.mem_cons_self ..)
    rfl

/-- Lanes in plain memory all read memory, and nothing at once. -/
theorem State.loadLanes_plain {ps : List (Nat × List Place)} (hp : PlainPlaces ps) (s : State) (free w : Nat) (a : Args) (n : Nat)
    (addr : Nat → Word) :
    s.loadLanes free w a n addr ps = (s, ps.map fun e => ⟨e.1, addr e.1, memLocs e.2⟩, []) := by
  induction ps with
  | nil => rfl
  | cons e ps ih =>
    obtain ⟨l, qs⟩ := e
    unfold loadLanes
    simp only [sideRead_plain s (hp _ (List.mem_cons_self ..)), ih fun e he => hp e (List.mem_cons_of_mem _ he)]
    rfl

/-! ## The load in flight -/

/-- What the lanes of a load read: the accesses to memory, and the values read at once. -/
def State.ldRead (s s1 : State) (a : Args) (g : Grp) (ps : List (Nat × List Place)) : State × List LaneAcc × List RegVal :=
  s1.freshFree.2.loadLanes s1.free (leaderOf g) a (accSize a) (s.accAddr g a) ps

/-- A load once its lanes are known: the record of the trace ring and the paths of its accesses. -/
def State.ldNoted (s s1 : State) (a : Args) (g : Grp) (ps : List (Nat × List Place)) : State :=
  ((s.ldRead s1 a g ps).1.fresh.2.traceLane (leaderOf g) 7 g a).noteFar (leaderOf g) (accSize a) (s.ldRead s1 a g ps).1.nextId
    (s.farOf (s.accAddr g a) ps)

/-- The pairs of a post load's rows under passes (R265). -/
def State.ldPost (s : State) (a : Args) (w id : Nat) (ls : List Nat) : List (Nat × Nat) :=
  if a.func = 1 then s.kerfPairs w id ls else []

/-- The floors of a post load (R265). -/
def State.ldFl (s : State) (a : Args) (ls : List Nat) : SMap Nat := if a.func = 1 then s.postFl ls else []

/-- What a load leaves at issue, once its checks have passed. -/
def State.ldDone (s s1 : State) (a : Args) (g : Grp) (ps : List (Nat × List Place)) : State :=
  let q := s.ldRead s1 a g ps
  let ls := q.2.1.flatMap (·.locs)
  let p : Pend :=
    .load (leaderOf g) a q.2.1 q.2.2 [] [] (q.1.fresh.2.ldPost a (leaderOf g) q.1.nextId ls) (q.1.fresh.2.ldFl a ls)
  { s.ldNoted s1 a g ps with pend := mins (s.ldNoted s1 a g ps).pend q.1.nextId p }.modWarp (leaderOf g) fun x =>
    { x.await (dstReg a.kd a.d.toNat) with ldCnt := x.ldCnt + 1 }

section
variable {s s1 : State} {a : Args} {g : Grp} {ps : List (Nat × List Place)}

theorem effLd_error {x : Trap} (hc : (s.warp (leaderOf g)).ldCnt < 255)
    (h : s.accPlaces (leaderOf g) a true false (accSize a) (s.accAddr g a) (s.accLanes g a) = (s1, .error x)) :
    effLd a s g = .trap s1 x := by
  simp only [effLd, Nat.not_le.2 hc, if_false, h]

theorem effLd_done (hc : (s.warp (leaderOf g)).ldCnt < 255)
    (h : s.accPlaces (leaderOf g) a true false (accSize a) (s.accAddr g a) (s.accLanes g a) = (s1, .ok ps))
    (hb : ∀ e ∈ ps, ∀ p ∈ e.2, s1.placeBusy p = false) : effLd a s g = .next (s.ldDone s1 a g ps) := by
  have hany : (ps.any fun e => e.2.any s1.placeBusy) = false := by simpa using hb
  simp only [effLd, Nat.not_le.2 hc, if_false, h, hany, Bool.false_eq_true]
  rfl

theorem State.ldDone_listed (v : Nat) : (mfind (s.ldDone s1 a g ps).warps v).isSome = (mfind s1.warps v).isSome := by
  unfold ldDone
  dsimp only
  rw [modWarp_listed]
  change (mfind (s.ldNoted s1 a g ps).warps v).isSome = _
  unfold ldNoted
  rw [noteFar_warps, traceLane_rest]
  exact loadLanes_listed ..

/-- Lanes in plain memory are accessed with no change of memory or of a register. -/
theorem State.ldDone_plain (hp : PlainPlaces ps) : s.ldDone s1 a g ps =
    { s1.freshFree.2.fresh.2.traceLane (leaderOf g) 7 g a with pend := (s.ldDone s1 a g ps).pend }.modWarp (leaderOf g)
      fun x => { x.await (dstReg a.kd a.d.toNat) with ldCnt := x.ldCnt + 1 } := by
  unfold ldDone ldNoted ldRead
  rw [loadLanes_plain hp, farOf_plain hp]
  rfl

end

/-- Settles O23: a load that fails by the check of its lanes, and one that passes by what it leaves in flight; over plain memory
nothing is read at once. -/
theorem loads : Obligations.Loads := by
  intro a s s1 g h
  dsimp only
  intro hc
  refine ⟨fun x hx => congrArg Host.Outcome.next (h.traps (effLd a) (effLd_error hc hx)), fun ps hps hb => ?_⟩
  have hl := h.leader_listed
  have he := effLd_done hc hps hb
  have hcomp (r : State) := h.completes (i := .ld a) (eff := effLd a) (r := r) rfl
  generalize s.opened .ld a g = s0 at hps hl he hcomp ⊢
  have ht : State.Traffic s0.OnItsWay s0 s1 := by
    have h := State.traffic_accPlaces (leaderOf g) a true false (accSize a) (s0.accAddr g a) (s0.accLanes g a) s0 fun _ => id
    rwa [hps] at h
  refine ⟨s0.ldDone s1 a g ps, _, _, _, _, _, hcomp _ he fun v => (State.ldDone_listed v).trans (ht.listed v),
    mfind_mins_self .., fun hf => ⟨if_neg hf, if_neg hf⟩, fun hp => ⟨?_, ?_, ?_⟩⟩
  · unfold State.ldRead
    rw [State.loadLanes_plain hp]
  · unfold State.ldRead
    rw [State.loadLanes_plain hp, List.map_map]
    rfl
  · rw [State.ldDone_plain hp]
    have ht4 := (ht.trans (State.traffic_free s1 (s1.free + 1))).trans (State.traffic_fresh _)
    refine ht4.accessedOn (State.traced_traceLane ..) _ hl ?_
    rw [ht4.warp]
    exact ⟨rfl⟩

end Sys2Proof.Machine

/-! SUPPORT. The data of a load that has read (spec/07 R171): what writing a register that a result was awaited for leaves, and what
writing the lanes of a load leaves. -/

namespace Sys2Proof.Machine

/-! ## Writing an awaited register -/

/-- Results land in registers of warp w or of its block. -/
structure State.Landed (w : Nat) (s t : State) : Prop where
  rest : t = { s with warps := t.warps, blocks := t.blocks }
  off : ∀ v, v ≠ w → t.warp v = s.warp v
  listed : (mfind t.warps w).isSome = (mfind s.warps w).isSome
  kept : t.warp w = { s.warp w with
    v := (t.warp w).v, vMark := (t.warp w).vMark, s := (t.warp w).s, sMark := (t.warp w).sMark
    words := (t.warp w).words, tokenErr := (t.warp w).tokenErr, batches := (t.warp w).batches }

theorem State.Landed.refl (w : Nat) (s : State) : State.Landed w s s := ⟨rfl, fun _ _ => rfl, rfl, rfl⟩

theorem State.Landed.trans {w : Nat} {s t u : State} (h : State.Landed w s t) (h' : State.Landed w t u) : State.Landed w s u where
  rest := by
    have e := h'.rest
    rw [h.rest] at e
    exact e
  off v hv := (h'.off v hv).trans (h.off v hv)
  listed := h'.listed.trans h.listed
  kept := by
    have e := h'.kept
    rw [h.kept] at e
    exact e

/-- A lane of a vector register as a result leaves it: whole or in part, and marked. -/
def Warp.putV (y : Warp) (n lane : Nat) (x : Word) (whole : Bool) (m : Option Mark) : Warp :=
  let z := if whole then y.vset n lane x else y.vsetPart n lane x
  m.elim z (z.markV n lane)

/-- A scalar register as a result leaves it. -/
def Warp.putS (y : Warp) (n : Nat) (x : Word) (whole : Bool) (m : Option Mark) : Warp :=
  let z := if whole then y.sset n x else { y with s := mset 0 y.s n x }
  m.elim z (z.markS n)

section
variable (y : Warp) (n lane : Nat) (x : Word) (whole : Bool) (m : Option Mark)

theorem Warp.putV_rest : y.putV n lane x whole m =
    { y with v := mset 0 y.v (32 * n + lane) x, vMark := (y.putV n lane x whole m).vMark, words := (y.putV n lane x whole m).words } := by
  unfold putV
  cases whole <;> cases m <;> rfl

theorem Warp.putS_rest : y.putS n x whole m =
    { y with s := mset 0 y.s n x, sMark := (y.putS n x whole m).sMark, words := (y.putS n x whole m).words
             tokenErr := (y.putS n x whole m).tokenErr, batches := (y.putS n x whole m).batches } := by
  unfold putS
  cases whole <;> cases m <;> rfl

theorem Warp.putV_vget (n' l : Nat) :
    (y.putV n lane x whole m).vget n' l = if 32 * n' + l = 32 * n + lane then x else y.vget n' l := by
  unfold vget
  rw [putV_rest]
  exact mget_mset ..

theorem Warp.putV_sget (k : Nat) : (y.putV n lane x whole m).sget k = y.sget k := by
  unfold sget
  rw [putV_rest]

theorem Warp.putS_sget (k : Nat) : (y.putS n x whole m).sget k = if k = n then x else y.sget k := by
  unfold sget
  rw [putS_rest]
  exact mget_mset ..

theorem Warp.putS_v : (y.putS n x whole m).v = y.v := by rw [putS_rest]

end

section
variable (s : State) (w n lane : Nat) (x : Word) (whole : Bool) (m : Option Mark)

theorem State.regPut_v : s.regPut w (.v n) lane x whole m = s.modWarp w fun y => y.putV n lane x whole m := by
  cases m <;> rfl

theorem State.regPut_s : s.regPut w (.s n) lane x whole m = s.modWarp w fun y => y.putS n x whole m := by
  cases m <;> rfl

theorem State.landed_modWarp {f : Warp → Warp} (hl : (mfind s.warps w).isSome)
    (h : f (s.warp w) = { s.warp w with
      v := (f (s.warp w)).v, vMark := (f (s.warp w)).vMark, s := (f (s.warp w)).s, sMark := (f (s.warp w)).sMark
      words := (f (s.warp w)).words, tokenErr := (f (s.warp w)).tokenErr, batches := (f (s.warp w)).batches }) :
    State.Landed w s (s.modWarp w f) where
  rest := rfl
  off v hv := modWarp_warp_ne _ _ hv
  listed := modWarp_listed ..
  kept := by rw [modWarp_self _ hl]; exact h

theorem State.landed_regPut (r : BusyReg) (hl : (mfind s.warps w).isSome) : State.Landed w s (s.regPut w r lane x whole m) := by
  cases r with
  | v n =>
    rw [regPut_v]
    refine landed_modWarp s w hl ?_
    rw [Warp.putV_rest]
  | s n =>
    rw [regPut_s]
    refine landed_modWarp s w hl ?_
    rw [Warp.putS_rest]
  | q n => exact ⟨rfl, fun _ _ => rfl, rfl, rfl⟩

end

/-! ## Writing the lanes of a load -/

/-- What memory gave a lane of a load of n bytes: its bytes, or the poison pattern. -/
def Rd.lane (r : Rd) (n : Nat) (x : LaneAcc) : Word :=
  if (r.poison x.locs).isSome then lowBytes n (poisonPattern n) else r.value x.locs

/-- The mark of a lane of a load, where its memory gave poison. -/
def Rd.laneMark (r : Rd) (x : LaneAcc) : Option Mark := (r.poison x.locs).map fun c => ⟨x.addr, 0x80 + 16 * c, 0x14⟩

/-- One lane of a load is written. -/
def State.landLane (s : State) (w : Nat) (a : Args) (r : Rd) (x : LaneAcc) : State :=
  s.regPut w (dstReg a.kd a.d.toNat) (x.lane % 32)
    (loadValue a (s.regGet w (dstReg a.kd a.d.toNat) (x.lane % 32)) (r.lane (accSize a) x)) (subElem a.sub).isNone (r.laneMark x)

/-- A load with nothing read at issue lands lane by lane. -/
theorem State.landLoad_lanes (s : State) (w : Nat) (a : Args) (accs : List LaneAcc) (r : Rd) :
    s.landLoad w a accs [] r = accs.foldl (fun s x => s.landLane w a r x) s := by
  refine congrArg (fun f => accs.foldl f s) (funext fun s => funext fun x => ?_)
  unfold landLane Rd.lane Rd.laneMark
  cases r.poison x.locs <;> rfl

section
variable {s : State} {w : Nat} {a : Args} {r : Rd} {accs : List LaneAcc}

theorem State.landed_lanes (hl : (mfind s.warps w).isSome) : State.Landed w s (accs.foldl (fun s x => s.landLane w a r x) s) := by
  induction accs generalizing s with
  | nil => exact .refl ..
  | cons x accs ih =>
    have h : State.Landed w s (s.landLane w a r x) := landed_regPut s w _ _ _ _ _ hl
    exact h.trans (ih (h.listed.trans hl))

theorem State.landLane_v (hl : (mfind s.warps w).isSome) (hd : dstReg a.kd a.d.toNat = .v a.d.toNat) (x : LaneAcc) :
    (s.landLane w a r x).warp w = (s.warp w).putV a.d.toNat (x.lane % 32)
      (loadValue a ((s.warp w).vget a.d.toNat (x.lane % 32)) (r.lane (accSize a) x)) (subElem a.sub).isNone (r.laneMark x) := by
  unfold landLane
  rw [hd, regPut_v, modWarp_self _ hl]
  rfl

theorem State.landLane_s (hl : (mfind s.warps w).isSome) (hd : dstReg a.kd a.d.toNat = .s a.d.toNat) (x : LaneAcc) :
    (s.landLane w a r x).warp w = (s.warp w).putS a.d.toNat
      (loadValue a ((s.warp w).sget a.d.toNat) (r.lane (accSize a) x)) (subElem a.sub).isNone (r.laneMark x) := by
  unfold landLane
  rw [hd, regPut_s, modWarp_self _ hl]
  rfl

theorem State.landLane_listed (hl : (mfind s.warps w).isSome) (x : LaneAcc) : (mfind (s.landLane w a r x).warps w).isSome :=
  (landed_regPut s w _ _ _ _ _ hl).listed.trans hl

/-! ### A vector destination -/

theorem State.landLanes_sget (hl : (mfind s.warps w).isSome) (hd : dstReg a.kd a.d.toNat = .v a.d.toNat) (k : Nat) :
    ((accs.foldl (fun s x => s.landLane w a r x) s).warp w).sget k = (s.warp w).sget k := by
  induction accs generalizing s with
  | nil => rfl
  | cons x accs ih => rw [List.foldl_cons, ih (landLane_listed hl x), landLane_v hl hd, Warp.putV_sget]

/-- A lane that the load does not have keeps its value, and so does every other register. -/
theorem State.landLanes_vget_other (hl : (mfind s.warps w).isSome) (hd : dstReg a.kd a.d.toNat = .v a.d.toNat) {k l : Nat} (hl32 : l < 32)
    (h : k ≠ a.d.toNat ∨ ∀ x ∈ accs, x.lane % 32 ≠ l) :
    ((accs.foldl (fun s x => s.landLane w a r x) s).warp w).vget k l = (s.warp w).vget k l := by
  induction accs generalizing s with
  | nil => rfl
  | cons x accs ih =>
    have hx : 32 * k + l ≠ 32 * a.d.toNat + x.lane % 32 := by
      have := h.imp_right fun h => h x (List.mem_cons_self ..)
      omega
    rw [List.foldl_cons, ih (landLane_listed hl x) (h.imp_right fun h y hy => h y (List.mem_cons_of_mem _ hy)), landLane_v hl hd,
      Warp.putV_vget, if_neg hx]

/-- Each lane of the load takes its value. -/
theorem State.landLanes_vget (hl : (mfind s.warps w).isSome) (hd : dstReg a.kd a.d.toNat = .v a.d.toNat)
    (hn : (accs.map fun x => x.lane % 32).Nodup) {x : LaneAcc} (hx : x ∈ accs) :
    ((accs.foldl (fun s x => s.landLane w a r x) s).warp w).vget a.d.toNat (x.lane % 32) =
      loadValue a ((s.warp w).vget a.d.toNat (x.lane % 32)) (r.lane (accSize a) x) := by
  induction accs generalizing s with
  | nil => cases hx
  | cons y accs ih =>
    obtain ⟨hy, hn⟩ := List.nodup_cons.1 hn
    have hne : ∀ z ∈ accs, z.lane % 32 ≠ y.lane % 32 := fun z hz e => hy (List.mem_map.2 ⟨z, hz, e⟩)
    rw [List.foldl_cons]
    obtain rfl | hx := List.mem_cons.1 hx
    · rw [landLanes_vget_other (landLane_listed hl x) hd (Nat.mod_lt _ (by decide)) (.inr hne), landLane_v hl hd, Warp.putV_vget,
        if_pos rfl]
    · have hxy : 32 * a.d.toNat + x.lane % 32 ≠ 32 * a.d.toNat + y.lane % 32 := by
        have := hne x hx
        omega
      rw [ih (landLane_listed hl y) hn hx, landLane_v hl hd, Warp.putV_vget, if_neg hxy]

/-! ### A scalar destination -/

theorem State.landLanes_v (hl : (mfind s.warps w).isSome) (hd : dstReg a.kd a.d.toNat = .s a.d.toNat) :
    ((accs.foldl (fun s x => s.landLane w a r x) s).warp w).v = (s.warp w).v := by
  induction accs generalizing s with
  | nil => rfl
  | cons x accs ih => rw [List.foldl_cons, ih (landLane_listed hl x), landLane_s hl hd, Warp.putS_v]

theorem State.landLanes_sget_other (hl : (mfind s.warps w).isSome) (hd : dstReg a.kd a.d.toNat = .s a.d.toNat) {k : Nat}
    (hk : k ≠ a.d.toNat) : ((accs.foldl (fun s x => s.landLane w a r x) s).warp w).sget k = (s.warp w).sget k := by
  induction accs generalizing s with
  | nil => rfl
  | cons x accs ih => rw [List.foldl_cons, ih (landLane_listed hl x), landLane_s hl hd, Warp.putS_sget, if_neg hk]

end

/-! ## The return of the data -/

/-- No operation in flight comes before an access to no location. -/
theorem State.chain_nil (s : State) (w id : Nat) : s.chain w id [] = ([], []) := by
  unfold chain
  dsimp only
  generalize (s.pend.filter _).reverse = es
  induction es with
  | nil => rfl
  | cons e es ih =>
    rw [List.foldl_cons, if_neg]
    · exact ih
    · simp

theorem State.blocked_nil (s : State) (w id : Nat) : s.blocked w id [] = false := by
  unfold blocked
  split
  · rfl
  · dsimp only
    rw [chain_nil, Bool.or_eq_false_iff]
    refine ⟨rfl, List.any_eq_false.2 fun e _ => ?_⟩
    split <;> simp

theorem State.flushOwn_nil (s : State) (w id : Nat) : s.flushOwn w id [] = s := by
  unfold flushOwn
  rw [chain_nil]
  exact ite_self _

section
variable {s : State} {id w : Nat} {a : Args} {accs : List LaneAcc} {vals : List RegVal} {b : List (Nat × Nat × Byte) × List (Nat × Nat)}
  {fl : SMap Nat}

theorem State.loadReady_read (hu : loadUnread accs b.1 = []) : s.loadReady id w a accs b.1 [] = true := by
  unfold loadReady
  dsimp only
  rw [hu, blocked_nil]
  simp

theorem State.bindLoad_read (hp : mfind s.pend id = some (.load w a accs vals b.1 b.2 [] fl)) (hu : loadUnread accs b.1 = []) :
    s.bindLoad id = s := by
  unfold bindLoad loadDue
  rw [hp]
  dsimp only
  rw [hu]
  rfl

/-- The data of a load has arrived for its destination. -/
def Warp.loaded (x : Warp) (d : BusyReg) : Warp := { x.arrived d with ldCnt := x.ldCnt - 1 }

/-- The state once the data of a load that has read has returned. -/
def State.loadReturned (s : State) (id w : Nat) (a : Args) (accs : List LaneAcc) (r : Rd) : State :=
  let s1 := s.landLoad w a accs [] r
  { s1 with pend := mdel s1.pend id, far := mdel s1.far id }.modWarp w (·.loaded (dstReg a.kd a.d.toNat))

theorem exec_loadDataReturn_read (hp : mfind s.pend id = some (.load w a accs [] b.1 b.2 [] fl)) (hu : loadUnread accs b.1 = [])
    (hf : s.farHeld id = false) : exec (.loadDataReturn id) s = .next (s.loadReturned id w a accs ⟨b.1, b.2⟩) := by
  change execLoadDataReturn id s = _
  unfold execLoadDataReturn
  simp only [hp, hu, hf, State.loadReady_read hu, State.flushOwn_nil, State.bindLoad_read hp hu, Bool.not_true, Bool.or_self,
    Bool.false_eq_true, if_false]
  rfl

end

theorem dstReg_v {k : Kind} (n : Nat) (hs : k ≠ .s) (hq : k ≠ .q) : dstReg k n = .v n := by
  unfold dstReg
  rw [if_neg hs, if_neg hq]

theorem dstReg_s (n : Nat) : dstReg .s n = .s n := rfl

/-- Settles O24: a load that has read waits for nothing more, and its data lands lane by lane. -/
theorem loadReturn : Obligations.LoadReturn := by
  intro s id w a accs b fl hp hu hf hl hn
  dsimp only
  have hland := State.landed_lanes (a := a) (r := ⟨b.1, b.2⟩) (accs := accs) hl
  refine ⟨_, exec_loadDataReturn_read hp hu hf, ?_⟩
  unfold State.loadReturned
  rw [State.landLoad_lanes]
  dsimp only
  generalize ht : accs.foldl _ s = t at hland ⊢
  have hself : (State.modWarp { t with pend := mdel t.pend id, far := mdel t.far id } w (·.loaded (dstReg a.kd a.d.toNat))).warp w =
      (t.warp w).loaded (dstReg a.kd a.d.toNat) := State.modWarp_self _ (hland.listed.trans hl)
  refine ⟨mfind_mdel_self .., (congrArg State.mem hland.rest :), fun v hv => (State.modWarp_warp_ne _ _ hv).trans (hland.off v hv),
    ?_, ?_, fun hs hq => ⟨fun m => ?_, fun x hx => ?_, fun m l hl32 hm => ?_⟩, fun hs => ⟨?_, fun m hm => ?_, fun x hx => ?_⟩⟩ <;>
    rw [hself]
  · exact (congrArg (fun y : Warp => y.busy.filter (· != dstReg a.kd a.d.toNat)) hland.kept :)
  · exact (congrArg (fun y : Warp => y.ldCnt - 1) hland.kept :)
  · subst ht
    exact State.landLanes_sget hl (dstReg_v _ hs hq) m
  · subst ht
    exact State.landLanes_vget hl (dstReg_v _ hs hq) hn hx
  · subst ht
    exact State.landLanes_vget_other hl (dstReg_v _ hs hq) hl32 hm
  · subst ht
    exact State.landLanes_v hl (hs ▸ dstReg_s _)
  · subst ht
    exact State.landLanes_sget_other hl (hs ▸ dstReg_s _) hm
  · subst ht hx
    refine (congrArg (fun y : Warp => y.sget a.d.toNat) (State.landLane_s hl (hs ▸ dstReg_s _) x)).trans ?_
    exact (Warp.putS_sget ..).trans (if_pos rfl)

end Sys2Proof.Machine

/-! SUPPORT. Ranges of registers on the stack (spec/07 R183): their image byte by byte, storing it, and what reading it back awaits. -/

namespace Sys2Proof.Machine

open Claims (RowsKnown Reached)

/-! ## The image of a range -/

/-- A list of blocks of one length, entry by entry. -/
theorem getElem?_flatMap_blocks {α β : Type} {f : α → List β} {m : Nat} (hm : 0 < m) (hf : ∀ x, (f x).length = m) (xs : List α) (i : Nat) :
    (xs.flatMap f)[i]? = xs[i / m]?.bind fun x => (f x)[i % m]? := by
  induction xs generalizing i with
  | nil => simp
  | cons x xs ih =>
    rw [List.flatMap_cons, List.getElem?_append, hf]
    split
    next h => rw [Nat.div_eq_of_lt h, Nat.mod_eq_of_lt h]; rfl
    next h =>
      have e : i / m = (i - m) / m + 1 := Nat.div_eq_sub_div hm (Nat.le_of_not_lt h)
      rw [ih, e, Nat.mod_eq_sub_mod (Nat.le_of_not_lt h)]
      rfl

theorem length_flatMap_blocks {α β : Type} {f : α → List β} {m : Nat} (hf : ∀ x, (f x).length = m) (xs : List α) :
    (xs.flatMap f).length = xs.length * m := by
  simp [List.length_flatMap, hf]

theorem getElem?_span {d n i : Nat} (h : i < n) : (span d n)[i]? = some (d + i) := by
  simp [span, h]

theorem getElem?_bytesOf {n i : Nat} (x : Word) (h : i < n) : (bytesOf n x)[i]? = some (x.extractLsb' (8 * i) 8) := by
  simp [bytesOf, h]

/-- The image of a vector register: its 32 lanes. -/
def Warp.vImage (x : Warp) (r : Nat) : List Byte := (List.range 32).flatMap fun l => bytesOf 8 (x.vget r l)

theorem Warp.length_vImage (x : Warp) (r : Nat) : (x.vImage r).length = 256 :=
  length_flatMap_blocks (m := 8) (fun _ => length_bytesOf ..) _

theorem Warp.getElem?_vImage (x : Warp) (r : Nat) {i : Nat} (h : i < 256) :
    (x.vImage r)[i]? = some ((x.vget r (i / 8)).extractLsb' (8 * (i % 8)) 8) := by
  have hi : i / 8 < 32 := by omega
  unfold vImage
  rw [getElem?_flatMap_blocks (m := 8) (by decide) (fun _ => length_bytesOf ..), List.getElem?_range hi]
  exact getElem?_bytesOf _ (Nat.mod_lt _ (by decide))

section
variable {x : Warp} {a : Args}

theorem Warp.rangeImage_v (h : a.kd = .v) : x.rangeImage a = (rangeRegs a).flatMap x.vImage := by
  have hl : ((rangeRegs a).flatMap x.vImage).length = rangeSize a := by
    rw [length_flatMap_blocks x.length_vImage, rangeRegs, length_span, rangeSize, if_pos h, Nat.mul_comm]
  unfold rangeImage
  simp only [h, if_true]
  change (rangeRegs a).flatMap x.vImage ++ List.replicate (rangeSize a - ((rangeRegs a).flatMap x.vImage).length) 0 = _
  rw [hl, Nat.sub_self, List.replicate_zero, List.append_nil]

theorem Warp.rangeImage_s (h : a.kd ≠ .v) : x.rangeImage a =
    ((rangeRegs a).flatMap fun r => bytesOf 8 (x.sget r)) ++ List.replicate (rangeSize a - 8 * a.imm.toNat) 0 := by
  have hl : ((rangeRegs a).flatMap fun r => bytesOf 8 (x.sget r)).length = 8 * a.imm.toNat := by
    rw [length_flatMap_blocks (m := 8) fun _ => length_bytesOf .., rangeRegs, length_span, Nat.mul_comm]
  unfold rangeImage
  simp only [h, if_false]
  rw [hl]

/-- The byte of a range's image at each place: lowest register, lowest lane and lowest byte first, and zeros beyond. -/
theorem Warp.getElem?_rangeImage {i : Nat} (h : i < rangeSize a) : (x.rangeImage a)[i]? = some
    (if a.kd = .v then (x.vget (a.d.toNat + i / 256) (i / 8 % 32)).extractLsb' (8 * (i % 8)) 8
     else if i < 8 * a.imm.toNat then (x.sget (a.d.toNat + i / 8)).extractLsb' (8 * (i % 8)) 8 else 0) := by
  by_cases hv : a.kd = .v
  · have hs : rangeSize a = 256 * a.imm.toNat := if_pos hv
    have hr : i / 256 < a.imm.toNat := by omega
    have e1 : i % 256 / 8 = i / 8 % 32 := by omega
    have e2 : i % 256 % 8 = i % 8 := by omega
    rw [rangeImage_v hv, if_pos hv, getElem?_flatMap_blocks (m := 256) (by decide) x.length_vImage, rangeRegs, getElem?_span hr,
      Option.bind_some, getElem?_vImage _ _ (Nat.mod_lt _ (by decide)), e1, e2]
  · have hl : ((rangeRegs a).flatMap fun r => bytesOf 8 (x.sget r)).length = 8 * a.imm.toNat := by
      rw [length_flatMap_blocks (m := 8) fun _ => length_bytesOf .., rangeRegs, length_span, Nat.mul_comm]
    rw [rangeImage_s hv, if_neg hv, List.getElem?_append, hl]
    split
    next hi =>
      have hr : i / 8 < a.imm.toNat := by omega
      rw [getElem?_flatMap_blocks (m := 8) (by decide) (fun _ => length_bytesOf ..), rangeRegs, getElem?_span hr, Option.bind_some,
        getElem?_bytesOf _ (Nat.mod_lt _ (by decide))]
    next hi => exact List.getElem?_replicate_of_lt (by omega)

end

/-! ## Storing bytes one after another -/

/-- The last byte of distinct locations' writes is the one at their place. -/
theorem overlaid_zip {ls : List Nat} {img : List Byte} {i l : Nat} {v : Byte} (hn : ls.Nodup) (hl : ls[i]? = some l)
    (hv : img[i]? = some v) (y : Byte) : overlaid (ls.zip img) l y = v := by
  refine overlaid_last (List.getElem?_zip_eq_some.2 ⟨hl, hv⟩) (fun j b hj => ?_) y
  obtain ⟨hi, hil⟩ := List.getElem?_eq_some_iff.1 hl
  obtain ⟨hj, hjl⟩ := List.getElem?_eq_some_iff.1 (List.getElem?_zip_eq_some.1 hj).1
  exact Nat.le_of_eq ((List.Nodup.getElem_inj_iff hn).1 (hjl.trans hil.symm))

theorem pieceSize_line {ls : List Nat} {k l : Nat} (h : k / pieceSize ls = l / pieceSize ls) : k / 128 = l / 128 := by
  unfold pieceSize at h
  split at h
  · exact h
  · omega

/-- The byte that stored bytes leave at a location, where all of its line are reached. -/
theorem State.storeAs_byte {s : State} {id w l : Nat} {wr : Writer} {bs : List (Nat × Byte)} (hws : wr.ws = [w])
    (hi : ∀ e ∈ s.pend, e.1 < id → ∀ x ∈ e.2.ownLocs, x.1 ≠ w) (hw : ¬s.OnItsWay l) (hr : RowsKnown s) (hd : s.discards l = false)
    (hk : ∀ b ∈ bs, b.1 / 128 = l / 128 → s.kerf w id (memRow b.1) = [])
    (ho : ∀ b ∈ bs, b.1 / 128 = l / 128 → s.offline (homeDie b.1) = false) (hh : ∀ h ∈ s.held, w ∉ h.wr.ws) (src : Nat) (p : Word) :
    (s.storeAs id wr src p bs).mem.byte l = overlaid bs l (s.mem.byte l) := by
  unfold storeAs
  dsimp only
  generalize hn : pieceSize (bs.map (·.1)) = n
  refine (storeUnits_byte hws hi hw hr hd src n fun u hu hl => ?_).trans (overlaid_congr ?_ _)
  · obtain ⟨g, hg, rfl⟩ := List.mem_map.1 hu
    obtain ⟨k, -, rfl⟩ := List.mem_map.1 hg
    obtain ⟨c, hc, rfl⟩ := List.mem_map.1 hl
    have line (b : Nat × Byte) (hb : b ∈ bs.filter fun b => b.1 / n == k) : b ∈ bs ∧ b.1 / 128 = c.1 / 128 := by
      obtain ⟨hm, hbk⟩ := List.mem_filter.1 hb
      have e := (beq_iff_eq.1 hbk).trans (beq_iff_eq.1 (List.mem_filter.1 hc).2).symm
      exact ⟨hm, pieceSize_line (ls := bs.map (·.1)) (hn ▸ e)⟩
    refine unitHeld_none hws (fun j hj => ?_) (fun j hj => ?_) hh
    · obtain ⟨b, hb, rfl⟩ := List.mem_map.1 hj
      exact hk b (line b hb).1 (line b hb).2
    · obtain ⟨b, hb, rfl⟩ := List.mem_map.1 hj
      exact ho b (line b hb).1 (line b hb).2
  · rw [List.flatMap_map]
    exact writesTo_groupBy l n bs

/-! ## `PUSHM` -/

section
variable {s s1 s2 : State} {a : Args} {g : Grp} {ls : List Nat} {rd : Rd}

/-- What a range pushed to some locations leaves of memory. -/
def State.pushedRange (s1 : State) (w : Nat) (p : Word) (bs : List (Nat × Byte)) (ls : List Nat) : State :=
  let s3 := s1.fresh.2.storeAs s1.nextId (s1.fresh.2.writer [w]) 0 p bs
  s3.cacheL1 (s3.coreOf w) ls true

/-- What `PUSHM` leaves, once its checks have passed. -/
def State.pushDone (s1 : State) (w : Nat) (p : Word) (bs : List (Nat × Byte)) (ls : List Nat) : State :=
  let t := s1.pushedRange w p bs ls
  { t with pend := mins t.pend s1.nextId (.store w false none none) }.modWarp w fun y => { y with ssp := p, stCnt := y.stCnt + 1 }

theorem effPushm_done (hb : rangeBusy a (s.warp (leaderOf g)) = false) (hc : (s.warp (leaderOf g)).stCnt < 255) {p : Word}
    (hp : p = (s.warp (leaderOf g)).ssp - BitVec.ofNat 64 (rangeSize a))
    (h : s.locSpan (leaderOf g) true p (rangeSize a) = (s1, .ok ls)) (hn : s1.nbBefore (leaderOf g) s1.nextId ls = false) :
    effPushm a s g = .next (s1.pushDone (leaderOf g) p (ls.zip ((s.warp (leaderOf g)).rangeImage a)) ls) := by
  subst hp
  simp only [effPushm, hb, Nat.not_le.2 hc, decide_false, Bool.or_self, Bool.false_eq_true, if_false, h, hn]
  rfl

theorem State.traffic_pushedRange {P : Nat → Prop} (w : Nat) (p : Word) {bs : List (Nat × Byte)} (hw : ∀ l, s1.OnItsWay l → P l)
    (hb : ∀ b ∈ bs, P b.1) : State.Traffic P s1 (s1.pushedRange w p bs ls) :=
  ((State.traffic_fresh s1).then hw fun h => traffic_storeAs _ _ _ _ _ _ h hb).trans (traffic_cacheL1 ..)

/-- The byte that a pushed range leaves at a location: the byte of its image there. -/
theorem State.pushedRange_byte {w i l : Nat} {p : Word} {img : List Byte} {v : Byte} (hn : ls.Nodup) (hl : ls[i]? = some l)
    (hv : img[i]? = some v) (hr : ∀ k ∈ ls, k / 128 = l / 128 → Reached s1 w k) :
    (s1.pushedRange w p (ls.zip img) ls).mem.byte l = v := by
  have h := hr l (List.mem_of_getElem? hl) rfl
  unfold pushedRange
  dsimp only
  rw [cacheL1_rest]
  refine (storeAs_byte (s := s1.fresh.2) rfl (fun e he _ => h.idle e he) h.way h.rows h.bank (fun b hb e => ?_) (fun b hb e => ?_)
    h.held 0 p).trans (overlaid_zip hn hl hv _)
  · exact (hr _ (mem_zip_left hb) e).kerf
  · exact (hr _ (mem_zip_left hb) e).die

theorem State.pushDone_mem (w : Nat) (p : Word) (bs : List (Nat × Byte)) :
    (s1.pushDone w p bs ls).mem = (s1.pushedRange w p bs ls).mem := rfl

section
variable {w : Nat} {p : Word} {bs : List (Nat × Byte)} (hs : s.locSpan w true p (rangeSize a) = (s1, .ok ls))
  (hb : ∀ b ∈ bs, b.1 ∈ ls)
include hs hb

theorem State.traffic_pushed : State.Traffic (fun l => s.OnItsWay l ∨ l ∈ ls) s (s1.pushedRange w p bs ls) := by
  have h1 := traffic_locSpan s.OnItsWay s w true p (rangeSize a) fun _ => id
  rw [hs] at h1
  exact (h1.mono fun _ => .inl).trans (traffic_pushedRange w p (fun l hw => .inl (h1.way l hw)) fun b h => .inr (hb b h))

theorem State.pushDone_listed (v : Nat) : (mfind (s1.pushDone w p bs ls).warps v).isSome = (mfind s.warps v).isSome := by
  unfold pushDone
  dsimp only
  rw [modWarp_listed]
  exact (traffic_pushed hs hb).listed v

theorem State.pushDone_ssp (hl : (mfind s.warps w).isSome) : ((s1.pushDone w p bs ls).warp w).ssp = p :=
  congrArg Warp.ssp (modWarp_self _ (((traffic_pushed hs hb).listed w).trans hl))

theorem State.accessed_pushDone (hl : (mfind s.warps w).isSome) :
    State.Accessed (fun l => s.OnItsWay l ∨ l ∈ ls) (onWarp w fun y => { y with ssp := p }) s (s1.pushDone w p bs ls) := by
  have h := traffic_pushed hs hb
  refine h.accessedOn (.refl _) _ hl ?_
  rw [h.warp]
  exact ⟨rfl⟩

end

/-! ## `POPM` -/

/-- A register lane read back with good data, from its place in the image. -/
def Rd.popped (rd : Rd) (ls : List Nat) (reg : BusyReg) (lane i : Nat) : RegVal :=
  { reg, lane, val := rd.value ((ls.drop (8 * i)).take 8), mark := none }

theorem popVals_good (h : rd.bad = []) (p : Word) : popVals a p ls rd = (rangeRegs a).zipIdx.flatMap fun e =>
    if a.kd = .v then (List.range 32).map fun l => rd.popped ls (.v e.1) l (32 * e.2 + l) else [rd.popped ls (.s e.1) 0 e.2] := by
  unfold popVals
  simp only [Rd.poison_of_good h]
  rfl

theorem mem_rangeRegs_zipIdx {r k : Nat} (h : (r, k) ∈ (rangeRegs a).zipIdx) : k < a.imm.toNat ∧ r = a.d.toNat + k := by
  have h : (rangeRegs a)[k]? = some r := List.mem_zipIdx_iff_getElem?.1 h
  have hlt : k < a.imm.toNat := by
    obtain ⟨h, -⟩ := List.getElem?_eq_some_iff.1 h
    rwa [rangeRegs, length_span] at h
  rw [rangeRegs, getElem?_span hlt] at h
  exact ⟨hlt, (Option.some.inj h).symm⟩

theorem popVals_s (hg : rd.bad = []) (hk : a.kd = .s) {p : Word} {v : RegVal} (hv : v ∈ popVals a p ls rd) :
    ∃ k < a.imm.toNat, v = rd.popped ls (.s (a.d.toNat + k)) 0 k := by
  rw [popVals_good hg, hk] at hv
  obtain ⟨⟨r, k⟩, he, hv⟩ := List.mem_flatMap.1 hv
  obtain ⟨hlt, rfl⟩ := mem_rangeRegs_zipIdx he
  exact ⟨k, hlt, List.mem_singleton.1 hv⟩

theorem popVals_v (hg : rd.bad = []) (hk : a.kd = .v) {p : Word} {v : RegVal} (hv : v ∈ popVals a p ls rd) :
    ∃ k < a.imm.toNat, ∃ l < 32, v = rd.popped ls (.v (a.d.toNat + k)) l (32 * k + l) := by
  rw [popVals_good hg, hk] at hv
  obtain ⟨⟨r, k⟩, he, hv⟩ := List.mem_flatMap.1 hv
  obtain ⟨hlt, rfl⟩ := mem_rangeRegs_zipIdx he
  obtain ⟨l, hl, rfl⟩ := List.mem_map.1 hv
  exact ⟨k, hlt, l, List.mem_range.1 hl, rfl⟩

/-- The registers of a range are awaited. -/
def Warp.awaitRange (y : Warp) (a : Args) : Warp := (rangeRegs a).foldl (fun (y : Warp) r => y.await (dstReg a.kd r)) y

theorem Warp.awaitRange_eq (y : Warp) (a : Args) :
    y.awaitRange a = { y with busy := ((rangeRegs a).map (dstReg a.kd)).reverse ++ y.busy } := by
  unfold awaitRange
  induction rangeRegs a generalizing y with
  | nil => rfl
  | cons r rs ih =>
    rw [List.foldl_cons, ih, List.map_cons, List.reverse_cons, List.append_assoc]
    rfl

/-- What `POPM` leaves, once its checks have passed: the range has been read. -/
def State.popDone (s2 : State) (w : Nat) (a : Args) (ssp : Word) (vals : List RegVal) : State :=
  { s2.fresh.2 with pend := mins s2.pend s2.nextId (.result w vals 0 true) }.modWarp w fun y =>
    { y.awaitRange a with ssp := ssp + BitVec.ofNat 64 (rangeSize a), ldCnt := y.ldCnt + 1 }

theorem effPopm_done (hb : rangeBusy a (s.warp (leaderOf g)) = false) (hc : (s.warp (leaderOf g)).ldCnt < 255)
    (h : s.locSpan (leaderOf g) false (s.warp (leaderOf g)).ssp (rangeSize a) = (s1, .ok ls))
    (ho : s1.ownHeld [leaderOf g] ls = false) (hbl : s1.blocked (leaderOf g) s1.nextId ls = false)
    (hr : s1.readNow (leaderOf g) 0 ls = (s2, rd)) :
    effPopm a s g =
      .next (s2.popDone (leaderOf g) a (s.warp (leaderOf g)).ssp (popVals a (s.warp (leaderOf g)).ssp ls rd)) := by
  simp only [effPopm, hb, Nat.not_le.2 hc, decide_false, Bool.or_self, Bool.false_eq_true, if_false, h, ho, hbl, hr]
  rfl

section
variable {w : Nat} {p : Word} (vals : List RegVal) (hs : s.locSpan w false p (rangeSize a) = (s1, .ok ls))
  (hr : s1.readNow w 0 ls = (s2, rd))
include hs hr

theorem State.traffic_popped : State.Traffic s.OnItsWay s s2.fresh.2 := by
  have h1 := traffic_locSpan s.OnItsWay s w false p (rangeSize a) fun _ => id
  rw [hs] at h1
  have h2 := traffic_readNow (P := s.OnItsWay) s1 w 0 ls fun l hw => h1.way l hw
  rw [hr] at h2
  exact (h1.trans h2).trans (traffic_fresh s2)

theorem State.popDone_listed (v : Nat) : (mfind (s2.popDone w a p vals).warps v).isSome = (mfind s.warps v).isSome := by
  unfold popDone
  rw [modWarp_listed]
  exact (traffic_popped hs hr).listed v

theorem State.popDone_busy (hl : (mfind s.warps w).isSome) : ((s2.popDone w a p vals).warp w).busy =
    ((rangeRegs a).map (dstReg a.kd)).reverse ++ (s.warp w).busy := by
  have h := traffic_popped hs hr
  refine (congrArg Warp.busy (modWarp_self _ ((h.listed w).trans hl))).trans ?_
  change ((s2.fresh.2.warp w).awaitRange a).busy = _
  rw [Warp.awaitRange_eq]
  exact congrArg (_ ++ ·) (congrArg Warp.busy (h.warp w) :)

theorem State.accessed_popDone (hl : (mfind s.warps w).isSome) :
    State.Accessed s.OnItsWay (onWarp w fun y => { y with
      ssp := p + BitVec.ofNat 64 (rangeSize a), ldCnt := y.ldCnt + 1, busy := ((s2.popDone w a p vals).warp w).busy }) s
      (s2.popDone w a p vals) := by
  have h := traffic_popped hs hr
  refine h.accessedOn (.refl _) _ hl ?_
  rw [popDone_busy vals hs hr hl, Warp.awaitRange_eq, h.warp]
  exact ⟨rfl⟩

end

end

/-! ## The obligation -/

/-- Settles O25: the image of a range byte by byte, stored at once where its lines are reached; and the registers that its read
awaits. -/
theorem spillRange : Obligations.SpillRange := by
  refine ⟨fun a s s1 ls h => ?_, fun a s s1 s2 ls rd h => ?_⟩
  · have hl := h.leader_listed
    have hcomp (r : State) := h.retires (r := r) (effPushm a)
    intro s0 x n p hb hc hs hn
    have hin : ∀ b ∈ ls.zip (x.rangeImage a), b.1 ∈ ls := fun _ => mem_zip_left
    have he : effPushm a s0 s.alone = .next (s1.pushDone s.cur p (ls.zip (x.rangeImage a)) ls) :=
      effPushm_done (g := s.alone) hb hc rfl hs hn
    refine ⟨_, ⟨_, rfl, hcomp _ he (State.pushDone_listed hs hin)⟩, State.pushDone_ssp hs hin hl,
      State.accessed_pushDone hs hin hl, fun hnd hlen i l hi hr => ?_⟩
    obtain ⟨hlt, -⟩ := List.getElem?_eq_some_iff.1 hi
    have hv := Warp.getElem?_rangeImage (x := x) (a := a) (Nat.lt_of_lt_of_eq hlt hlen)
    rw [State.pushDone_mem, State.pushedRange_byte hnd hi hv hr]
  · have hl := h.leader_listed
    have hcomp (r : State) := h.retires (r := r) (effPopm a)
    intro s0 x n hb hc hs ho hbl hr
    have he : effPopm a s0 s.alone = .next (s2.popDone s.cur a x.ssp (popVals a x.ssp ls rd)) :=
      effPopm_done (g := s.alone) hb hc hs ho hbl hr
    refine ⟨_, popVals a x.ssp ls rd, ⟨_, rfl, hcomp _ he (State.popDone_listed _ hs hr)⟩,
      mfind_mins_self .., State.accessed_popDone _ hs hr hl, fun k hk => ?_, fun hg hs v hv => ?_, fun hg hv v hm => ?_⟩
    · rw [State.popDone_busy _ hs hr hl]
      exact List.mem_append_left _ (List.mem_reverse.2 (List.mem_map_of_mem (mem_span.2 ⟨by omega, by omega⟩)))
    · obtain ⟨k, hk, rfl⟩ := popVals_s hg hs hv
      exact ⟨k, hk, rfl, rfl, rfl⟩
    · obtain ⟨k, hk, l, hl, rfl⟩ := popVals_v hg hv hm
      exact ⟨k, hk, rfl, hl, rfl, rfl⟩

end Sys2Proof.Machine

/-! SUPPORT. What reads, writes and the settling of what is in flight leave, said once for every relation that the primitive
accesses keep: the checks of units, a piece written, a change in caches or in what is on its way, and a rise of what a warp has
observed. Two such relations follow: that no bank is fenced, and that floors only rise and no release is made or lost. -/

namespace Sys2Proof.Machine

/-- A warp has observed more. -/
structure Warp.Rises (x y : Warp) : Prop where
  floors : ∀ l, mget 0 x.floors l ≤ mget 0 y.floors l
  seen   : ∀ n ∈ x.seen, n ∈ y.seen

theorem Warp.Rises.refl (x : Warp) : Warp.Rises x x := ⟨fun _ => le_rfl, fun _ hn => hn⟩

theorem Warp.Rises.trans {x y z : Warp} (h : Warp.Rises x y) (h' : Warp.Rises y z) : Warp.Rises x z :=
  ⟨fun l => (h.floors l).trans (h'.floors l), fun n hn => h'.seen n (h.seen n hn)⟩

theorem Warp.Rises.of_eq {x y : Warp} (hf : y.floors = x.floors) (hs : y.seen = x.seen) : Warp.Rises x y :=
  ⟨fun l => by rw [hf], fun _ hn => by rw [hs]; exact hn⟩

/-- A relation between states that every primitive access keeps. -/
structure Settling (R : State → State → Prop) : Prop where
  refl   : ∀ s, R s s
  trans  : ∀ {s r t}, R s r → R r t → R s t
  reads  : ∀ s src ls, R s (s.checkReads src ls).1
  writes : ∀ s src ls, R s (s.checkWrites src ls)
  piece  : ∀ s wr rmw bs, R s (s.writePiece wr rmw bs)
  ecc    : ∀ s d f, R s (s.modEcc d f)
  aside  : ∀ (s : State) cores free pend held tlb moved, R s { s with cores, free, pend, held, mem := { s.mem with tlb, moved } }
  warp   : ∀ (s : State) w {f : Warp → Warp}, (∀ x, Warp.Rises x (f x)) → (∀ x, (f x).rels = x.rels ∧ (f x).blk = x.blk) → R s (s.modWarp w f)

namespace Settling
variable {R : State → State → Prop} (h : Settling R)
include h

theorem foldl {α : Type} {f : State → α → State} (hf : ∀ s x, R s (f s x)) (xs : List α) (s : State) : R s (xs.foldl f s) := by
  induction xs generalizing s with
  | nil => exact h.refl s
  | cons x xs ih => exact h.trans (hf s x) (ih _)

theorem warps (s : State) (ws : List Nat) {f : Warp → Warp} (hf : ∀ x, Warp.Rises x (f x))
    (hr : ∀ x, (f x).rels = x.rels ∧ (f x).blk = x.blk) : R s (s.modWarps ws f) := h.foldl (fun s w => h.warp s w hf hr) ws s

theorem carry (s : State) (w : Nat) (b : Bool) (ls : List Nat) : R s (s.carry w b ls) := h.aside s s.cores s.free s.pend s.held s.mem.tlb _

theorem modCore (s : State) (k : Nat) (f : Core → Core) : R s (s.modCore k f) := h.aside s _ s.free s.pend s.held s.mem.tlb s.mem.moved

theorem setPend (s : State) (m : SMap Pend) : R s { s with pend := m } := h.aside s s.cores s.free m s.held s.mem.tlb s.mem.moved

theorem setFree (s : State) (n : Nat) : R s { s with free := n } := h.aside s s.cores n s.pend s.held s.mem.tlb s.mem.moved

theorem countCorr (s : State) (l : Nat) : R s (s.countCorr l) := h.ecc ..

theorem report (s : State) (d : Nat) (x : EccReport) : R s (s.report d x) := h.ecc ..

/-! ## Writes and reads at home -/

theorem performPiece (s : State) (wr : Writer) (rmw : Bool) (src : Nat) (bs : List (Nat × Byte)) :
    R s (s.performPiece wr rmw src bs) := h.trans (h.writes ..) (h.piece ..)

theorem performWrite (s : State) (wr : Writer) (rmw : Bool) (src n : Nat) (bs : List (Nat × Byte)) :
    R s (s.performWrite wr rmw src n bs) := h.trans (h.writes ..) (h.foldl (fun s (g : Nat × List (Nat × Byte)) => h.piece s wr rmw g.2) _ _)

theorem flushULine (s : State) (u : ULine) : R s (s.flushULine u) := by
  refine h.foldl (fun s e => ?_) u.vals s
  dsimp only
  split
  · exact h.trans (h.reads ..) (h.trans (h.carry ..) (h.performWrite ..))
  · exact h.reads ..

theorem flushWhere (s : State) (sel : Nat → ULine → Bool) : R s (s.flushWhere sel) :=
  h.trans (h.setFree s _) (h.foldl (fun s k => h.trans (h.modCore s k _) (h.foldl h.flushULine _ _)) _ _)

theorem recalls (s : State) (ls : List Nat) : R s (s.recall ls) := by
  unfold State.recall
  split
  · exact h.refl s
  · exact h.flushWhere ..

theorem readHome (s : State) (src n : Nat) (fl : SMap Nat) (ls : List Nat) : R s (s.readHome src n fl ls).1 :=
  h.trans (h.recalls s ls) (h.trans (h.reads _ src (ls.filter fun l => !(s.recall ls).offline (homeDie l))) (h.setFree ..))

theorem peekHome (s : State) (src : Nat) (ls : List Nat) : R s (s.peekHome src ls).1 :=
  h.trans (h.recalls s ls) (h.reads _ src (ls.filter fun l => !(s.recall ls).offline (homeDie l)))

theorem hasRead (s : State) (ws : List Nat) (r : Rd) : R s (s.hasRead ws r) :=
  h.warps s ws (fun _ => ⟨fun _ => le_raiseTo _ _ _, fun _ hn => List.mem_dedup.2 (List.mem_append_left _ hn)⟩) fun _ => ⟨rfl, rfl⟩

theorem checkL1 (s : State) (k u : Nat) : R s (s.checkL1 k u).1 := by
  have hset (x : ColSt) : R s (s.modCore k fun c => { c with l1Err := mset .clean c.l1Err (u / 32) x }) := h.modCore ..
  have hcorr := h.trans (hset .clean) (h.countCorr _ (ubsLoc k 0))
  unfold State.checkL1
  dsimp only
  split
  · exact h.refl s
  · exact h.refl s
  · exact h.refl s
  · exact hcorr
  · split <;> dsimp only
    · exact h.trans hcorr (h.modCore ..)
    · exact h.trans (hset .poison) (h.report ..)

theorem checkL1s (s : State) (k : Nat) (ls : List Nat) : R s (s.checkL1s k ls).1 := by
  unfold State.checkL1s
  split
  · exact h.refl s
  · generalize unitsOf (ls.filter isDram) = us
    suffices hs : ∀ acc : State × List Nat, R acc.1 (us.foldl (fun acc u =>
        let (s1, bad) := acc.1.checkL1 k u
        (s1, if bad then acc.2 ++ [u] else acc.2)) acc).1 from hs (s, [])
    induction us with
    | nil => exact fun _ => h.refl _
    | cons u us ih => exact fun acc => h.trans (h.checkL1 acc.1 k u) (ih ((acc.1.checkL1 k u).1, _))

theorem warpRead (s : State) (w src n : Nat) (ls : List Nat) : R s (s.warpRead w src n ls).1 := by
  have h1 := h.trans (h.recalls s ls) (h.trans (h.carry _ w false (s.beyondL1 (s.coreOf w) ls)) (h.checkL1s _ (s.coreOf w) ls))
  unfold State.warpRead
  dsimp only
  generalize ((s.recall ls).carry w false (s.beyondL1 (s.coreOf w) ls)).checkL1s (s.coreOf w) ls = q at h1 ⊢
  exact h.trans (h.trans h1 (h.readHome ..)) (h.hasRead ..)

theorem readCounter (s : State) (ws : List Nat) (p : Word) (l : Nat) : R s (s.readCounter ws p l).1 := by
  unfold State.readCounter
  dsimp only
  split <;> exact h.trans (h.trans (h.carry ..) (h.peekHome ..)) (h.hasRead ..)

theorem counterAdd (s : State) (wr : Writer) (l inc : Nat) : R s (s.counterAdd wr l inc).1 := by
  unfold State.counterAdd
  dsimp only
  split
  · exact h.peekHome ..
  · exact h.trans (h.peekHome s 0 (span l 8)) (h.performPiece ..)

theorem countUp (s : State) (wr : Writer) (p : Word) (l inc : Nat) : R s (s.countUp wr p l inc) := by
  unfold State.countUp
  dsimp only
  refine h.trans (h.trans (h.carry s (wr.ws.headD 0) true (span l 8)) (h.counterAdd _ wr l inc))
    (h.warp _ _ (fun x => ?_) fun x => ?_)
  · have hr (y : Warp) (t : LateTrap) : Warp.Rises y (y.record t) := by
      rw [Warp.record_eq]
      exact .of_eq rfl rfl
    have hc : Warp.Rises x { x with stCnt := x.stCnt - 1 } := .of_eq rfl rfl
    split
    · exact hc.trans (hr ..)
    · split
      · exact hc.trans (hr ..)
      · exact hc
  · have hk (y : Warp) (t : LateTrap) : (y.record t).rels = y.rels ∧ (y.record t).blk = y.blk := by
      rw [Warp.record_eq]
      exact ⟨rfl, rfl⟩
    split
    · exact hk ..
    · split
      · exact hk ..
      · exact ⟨rfl, rfl⟩

/-! ## Operations in flight that take their place -/

theorem cacheL1 (s : State) (k : Nat) (ls : List Nat) (b : Bool) : R s (s.cacheL1 k ls b) := by
  unfold State.cacheL1
  dsimp only
  split
  · exact h.refl s
  · exact h.modCore ..

theorem dropL1 (s : State) (k : Nat) (f : Nat → Bool) : R s (s.dropL1 k f) := by
  unfold State.dropL1
  split
  · exact h.modCore ..
  · exact h.refl s

theorem bindLoad (s : State) (id : Nat) : R s (s.bindLoad id) := by
  unfold State.bindLoad
  split
  next w a accs vals bound bad post fl _ =>
    dsimp only
    split
    · exact h.refl s
    · generalize h0 : State.modWarp _ _ _ = s0
      have h1 : R s s0 := by
        subst h0
        exact h.trans (h.dropL1 ..) (h.warp _ _ (fun _ => ⟨fun _ => le_raiseTo _ _ _, fun _ hn => hn⟩) fun _ => ⟨rfl, rfl⟩)
      have h2 := h.trans h1 (h.warpRead s0 w 0 (loadPiece accs) (loadDue accs bound post))
      generalize s0.warpRead w 0 (loadPiece accs) (loadDue accs bound post) = q at h2 ⊢
      exact h.trans (h.trans h2 (h.cacheL1 ..)) (h.setPend ..)
  next => exact h.refl s

theorem performCread (s : State) (id : Nat) : R s (s.performCread id) := by
  unfold State.performCread
  split
  next w p l d _ =>
    have h1 := h.readCounter s [w] p l
    generalize s.readCounter [w] p l = q at h1 ⊢
    exact h.trans h1 (h.setPend ..)
  next => exact h.refl s

theorem performCsig (s : State) (id : Nat) : R s (s.performCsig id) := by
  unfold State.performCsig
  split
  · dsimp only
    split
    · exact h.trans (h.setPend s _) (h.countUp ..)
    · exact h.aside s s.cores s.free _ _ s.mem.tlb s.mem.moved
  · exact h.refl s

theorem settlePend (s : State) (id : Nat) : R s (s.settlePend id) :=
  h.trans (h.trans (h.bindLoad s id) (h.performCread _ id)) (h.performCsig _ id)

theorem flushOwn (s : State) (w id : Nat) (ls : List Nat) : R s (s.flushOwn w id ls) := by
  unfold State.flushOwn
  split
  · exact h.refl s
  · exact h.foldl h.settlePend _ s

theorem settleReads (s : State) (w : Nat) : R s (s.settleReads w) := by
  unfold State.settleReads
  refine h.foldl (fun s e => ?_) _ s
  split
  · split
    · exact h.trans (h.trans (h.flushOwn ..) (h.bindLoad ..)) (h.performCread ..)
    · exact h.refl s
  · exact h.refl s

theorem settleAll (s : State) (ws : List Nat) : R s (s.settleAll ws) := by
  unfold State.settleAll
  split
  · exact h.refl s
  · exact h.foldl h.settleReads ws s

theorem flushReds (s : State) (ws : List Nat) : R s (s.flushReds ws) := by
  unfold State.flushReds
  split
  · exact h.refl s
  · exact h.flushWhere ..

/-! ## Translations -/

theorem tableEntry (s : State) (host : Bool) (va lvl tab : Nat) : R s (s.tableEntry host va lvl tab).1 := by
  have h1 := h.peekHome s 0 (span (tab + 8 * walkIndex lvl va) 8)
  unfold State.tableEntry
  dsimp only
  generalize s.peekHome 0 (span (tab + 8 * walkIndex lvl va) 8) = q at h1 ⊢
  split
  · exact h.trans h1 (h.report ..)
  · split <;> exact h1

theorem walk (host : Bool) (va lvl : Nat) (s : State) (tab : Nat) : R s (s.walk host va lvl tab).1 := by
  induction lvl generalizing s tab with
  | zero =>
    have h1 := h.tableEntry s host va 0 tab
    unfold State.walk
    split <;> rename_i e <;> rw [e] at h1 <;> exact h1
  | succ n ih =>
    have h1 := h.tableEntry s host va (n + 1) tab
    unfold State.walk
    split <;> rename_i e <;> rw [e] at h1
    · exact h1
    · split
      · exact h1
      · exact h.trans h1 (ih ..)

theorem walked (s : State) (c : Nat) (host : Bool) (w : How) (p : Word) (va : Nat) (r : Except (Nat × Nat) (Word × Nat)) :
    R s (s.walked c host w p va r).1 := by
  unfold State.walked
  split
  · unfold Mem.tlbFill
    dsimp only
    split
    · exact h.refl s
    · exact h.aside s s.cores s.free s.pend s.held _ s.mem.moved
  · exact h.refl s
  · exact h.refl s

theorem translate (s : State) (c : Nat) (host : Bool) (w : How) (p : Word) (va : Nat) : R s (s.translate c host w p va).1 := by
  have h1 := h.walk host va 3 s (if host then (s.ctx c).crec.hroot else (s.ctx c).crec.droot)
  unfold State.translate
  dsimp only
  generalize s.walk host va 3 (if host then (s.ctx c).crec.hroot else (s.ctx c).crec.droot) = q at h1 ⊢
  obtain ⟨s1, x⟩ := q
  dsimp only at h1 ⊢
  have h2 : R s s1.freshFree.2 := h.trans h1 (h.setFree s1 _)
  generalize List.all (s1.mem.tlbHits c host va) _ = all
  cases all
  · rw [if_neg Bool.false_ne_true]
    split
    · exact h2
    · exact h.trans h2 (h.walked ..)
  · exact h.trans h1 (h.walked ..)

theorem devByte (s : State) (c : Nat) (w : How) (p : Word) (va : Nat) : R s (s.devByte c w p va).1 := by
  have h1 := h.translate s c false w p va
  unfold State.devByte
  split <;> rename_i e <;> rw [e] at h1 <;> exact h1

theorem remoteByte (s : State) (dev c : Nat) (w : How) (p : Word) (va : Nat) : R s (s.remoteByte dev c w p va).1 := by
  unfold State.remoteByte
  split
  · exact h.refl s
  · exact h.devByte ..

theorem loopPlaces (c : Nat) (b : Bool) (p : Word) (vas : List Nat) (s : State) : R s (s.loopPlaces c b p vas).1 := by
  induction vas generalizing s with
  | nil => exact h.refl s
  | cons va vas ih =>
    have h1 := h.remoteByte s s.island.fw.deviceNum c { write := b } p va
    unfold State.loopPlaces
    split <;> rename_i e <;> rw [e] at h1
    · exact h1
    · have h2 := h.trans h1 (ih _)
      split <;> rename_i e2 <;> rw [e2] at h2 <;> exact h2
    · exact h1

end Settling

theorem settling_rowsKept : Settling State.RowsKept where
  refl := .refl
  trans := .trans
  reads := State.rowsKept_checkReads
  writes := State.rowsKept_checkWrites
  piece s wr rmw bs := by rw [State.writePiece_rest]; exact .of_eq (Mem.puts_tables ..) rfl rfl
  ecc := State.rowsKept_modEcc
  aside _ _ _ _ _ _ _ := .of_eq rfl rfl rfl
  warp _ _ _ _ _ := .of_eq rfl rfl rfl

/-- Floors rise and warps have seen more; no release is made or lost, and warps write after the same ones. -/
structure State.Raised (s r : State) : Prop where
  rels   : r.mem.rels = s.mem.rels
  nextId : r.nextId = s.nextId
  warp   : ∀ v, Warp.Rises (s.warp v) (r.warp v)
  writes : ∀ v, (r.warp v).rels = (s.warp v).rels

theorem State.Checked.raised {s r : State} (h : State.Checked s r) : State.Raised s r where
  rels := by rw [h.mem]
  nextId := by rw [h.rest]
  warp v := .of_eq (by rw [State.warp, h.warps]; rfl) (by rw [State.warp, h.warps]; rfl)
  writes v := by rw [State.warp, h.warps]; rfl

theorem State.modWarp_rises (s : State) (w : Nat) {f : Warp → Warp} (hf : ∀ x, Warp.Rises x (f x)) (v : Nat) :
    Warp.Rises (s.warp v) ((s.modWarp w f).warp v) := by
  by_cases hv : v = w
  · subst hv
    cases hl : mfind s.warps v with
    | none => rw [show s.modWarp v f = s by simp [modWarp, mmod, hl]]; exact .refl _
    | some x => rw [modWarp_self _ (by simp [hl])]; exact hf _
  · rw [modWarp_warp_ne _ _ hv]; exact .refl _

theorem settling_raised : Settling State.Raised where
  refl s := ⟨rfl, rfl, fun _ => .refl _, fun _ => rfl⟩
  trans h h' := ⟨h'.rels.trans h.rels, h'.nextId.trans h.nextId, fun v => (h.warp v).trans (h'.warp v),
    fun v => (h'.writes v).trans (h.writes v)⟩
  reads s src ls := (State.checked_checkReads s src ls).raised
  writes s src ls := (State.checked_checkWrites s src ls).raised
  piece s wr rmw bs := by
    refine ⟨by rw [State.writePiece_rest]; exact Mem.puts_rels .., by rw [State.writePiece_rest], fun v => ?_,
      (State.sameRels_writePiece s wr rmw bs).rels⟩
    exact State.modWarps_keeps Warp.Rises.refl Warp.Rises.trans
      (fun x => by
        split
        · exact .of_eq rfl rfl
        · exact ⟨fun _ => le_raiseTo _ _ _, fun _ hn => hn⟩)
      wr.ws v { s with mem := s.mem.putPiece wr.rels rmw (bs.filter fun b => !s.discards b.1) }
  ecc s d f := ⟨rfl, rfl, fun _ => .refl _, fun _ => rfl⟩
  aside s _ _ _ _ _ _ := ⟨rfl, rfl, fun _ => .refl _, fun _ => rfl⟩
  warp s w f hf hr := ⟨rfl, rfl, s.modWarp_rises w hf, (s.sameRels_modWarp w fun x => (hr x).1).rels⟩

end Sys2Proof.Machine

/-! SUPPORT. An instruction that stalls (spec/01 R47): its warps stand where they stood, and what its effect left is kept. -/

namespace Sys2Proof.Machine

/-- Only warps, blocks and cores differ, and every warp stands where it stood. -/
structure State.Rests (s r : State) : Prop where
  rest : r = { s with warps := r.warps, blocks := r.blocks, cores := r.cores }
  pc   : ∀ v, (r.warp v).pc = (s.warp v).pc

theorem State.Rests.refl (s : State) : State.Rests s s := ⟨rfl, fun _ => rfl⟩

theorem State.Rests.trans {s r t : State} (h : State.Rests s r) (h' : State.Rests r t) : State.Rests s t where
  rest := by
    have e := h'.rest
    rw [h.rest] at e
    exact e
  pc v := (h'.pc v).trans (h.pc v)

theorem State.rests_modCore (s : State) (k : Nat) (f : Core → Core) : State.Rests s (s.modCore k f) := ⟨rfl, fun _ => rfl⟩

theorem State.rests_modBlk (s : State) (b : Nat) (f : Block → Block) : State.Rests s (s.modBlk b f) := ⟨rfl, fun _ => rfl⟩

theorem State.rests_modWarps (s : State) (ws : List Nat) {f : Warp → Warp} (hf : ∀ x, (f x).pc = x.pc) :
    State.Rests s (s.modWarps ws f) where
  rest := by rw [modWarps_rest]
  pc v := modWarps_keeps (R := fun x y => y.pc = x.pc) (fun _ => rfl) (fun h h' => h'.trans h) hf ws v s

theorem State.rests_endRun (s : State) (w : Nat) : State.Rests s (s.endRun w) := by
  have hf : ∀ r : State, State.Rests r (r.modWarp w fun x => { x with runCnt := 0, missed := false }) := fun r =>
    rests_modWarps r [w] fun _ => rfl
  unfold endRun
  dsimp only
  split
  · exact (rests_modCore s _ _).trans (hf _)
  · exact hf _

theorem State.rests_keepRdv (s : State) (w : Nat) (i : Instr) (sc : Scope) (g : Grp) (r : Option Rdv) :
    State.Rests s (s.keepRdv w i sc g r) := by
  refine (rests_endRun s (leaderOf g)).trans (State.Rests.trans ?_ ((rests_modBlk _ _ _).trans (rests_modWarps _ _ fun _ => rfl)))
  exact rests_modBlk ..

/-- An instruction that issues is issued for its group. -/
theorem State.Issues.issued {s : State} {o : Op} {a : Args} {poison : State → Grp → Option Trap} {g : Grp}
    (h : s.Issues o a poison g) (eff : State → Grp → Res) :
    s.issueWith o a poison eff = (s.gather o a).1.issueGrp o a s.cur g poison eff := by
  have hp := h.checks
  have hg := h.group
  have hl := h.late
  have hsync : (a.scope == Scope.set || a.scope == Scope.block) = Args.together a := rfl
  unfold issueWith
  simp only [hp, hsync]
  unfold gather at hg hl ⊢
  cases ht : Args.together a with
  | false =>
    simp only [ht, Bool.false_eq_true, if_false, Option.some.injEq] at hg ⊢
    rw [hg]
  | true =>
    have hl := hl ht
    simp only [ht, if_true] at hg hl ⊢
    generalize s.arrive s.cur (Instr.ofOp o a) a.scope = A at hg hl ⊢
    obtain ⟨s1, og⟩ := A
    obtain rfl : og = some g := hg
    dsimp only at hl ⊢
    rw [hl]

/-- An instruction whose effect stalls. -/
theorem State.Issues.stalls {s r : State} {o : Op} {a : Args} {g : Grp} {i : Instr} {eff : State → Grp → Res}
    (h : s.IssuesPlain o a g) (hi : exec i s = s.issue o a eff) (he : eff (s.opened o a g) g = .stall r) :
    ∃ t, exec i s = .next t ∧ State.Rests r t := by
  refine ⟨_, hi, ?_⟩
  rw [h.issued]
  obtain ⟨-, -, -, -, hb, -, hc, hv, hbb⟩ := h
  have hsync : (a.scope == Scope.set || a.scope == Scope.block) = Args.together a := rfl
  have hst : (if Args.together a = true then (s.gather o a).1.closeRdv s.cur a.scope else (s.gather o a).1).checkWords g
      (wordRegs g o a) = s.stood o a g := by
    unfold stood gather
    cases Args.together a <;> rfl
  have hcv : ((rowOf o a.func.toNat).conv && (s.gather o a).1.unconverged g) = false := by
    cases hr : (rowOf o a.func.toNat).conv with
    | false => rfl
    | true => exact hv hr
  unfold issueGrp
  simp only [hsync, hb, hst, hc, hbb, hcv, Bool.false_eq_true, if_false]
  change State.Rests r (match eff (s.opened o a g) g with | .stall _ => _ | .trap _ _ => _ | _ => _)
  rw [he]
  refine State.Rests.trans ?_ (rests_endRun ..)
  split
  · exact (rests_modCore ..).trans (rests_keepRdv ..)
  · exact rests_modCore ..

end Sys2Proof.Machine

/-! SUPPORT. The refutation of O33. Its clauses on arrivals speak of every state in which no key of the map of warps is listed
twice, but not only of maps in the order of their keys. In a map out of order, which the model's operations never make, the
release of an arrival enters the warp a second time; the barrier's completion then finds it twice, and where it waits
there it goes on past its `BAR` twice. -/
namespace Sys2Proof.Machine.TwiceResumed

/-- Warp 0, the current one, stands as one that waits at barrier 1 of its block, whose only member it is. It is listed
behind warp 1. -/
def waiting : State := { State.reset with
  ctxs := [(0, { crec := { priv := true } })], blocks := [(0, { bars := [{}, { mem := 1 }] })]
  warps := [(1, { wid := 1 }), (0, { park := .bar 0 1 })] }

/-- `BAR.ARV` at warp scope, at barrier 1 of the block. -/
def arrival : Args := { form := .ext, scope := .warp, imm := 1 }

theorem placed : waiting.Placed 0 := ⟨by decide, by decide, by decide, by decide, by decide⟩

/-- `BAR.ARV` issues. -/
theorem issues : waiting.IssuesPlain .barArv arrival waiting.alone where
  placed := placed
  home := by
    intro w hw
    obtain rfl : w = waiting.cur := by simpa [Grp.ws, State.alone] using hw
    exact placed
  checks := by decide
  group := by decide
  budget := by decide
  late := by decide
  clean := by decide
  conv := by decide
  batch := by decide

/-- The state in which the arrival begins. -/
def begun : State := waiting.opened .barArv arrival waiting.alone

theorem mayArrive : Claims.MayArrive begun waiting.alone arrival where
  grid := by decide
  member := by decide
  fresh := by decide
  held := by decide
  keys := by decide

/-- The pc of warp 0 after an instruction. -/
def pcOf0 : Host.Outcome State Fault Refusal → Word
  | .next t => (t.warp 0).pc
  | _ => 0

/-- The arrival moves the warp by three instructions. -/
theorem exec_moves : pcOf0 (exec (.barArv arrival) waiting) = (begun.warp 0).pc + 36 := by decide

end Sys2Proof.Machine.TwiceResumed

namespace Sys2Proof.Machine
open TwiceResumed

/-- Refutes O33: its clause on `BAR.ARV` fails in a state whose map of warps is not in the order of its keys. The warp that
completes the generation stands as one that waits there, and goes on past its `BAR` twice before it retires. -/
theorem not_barriers : ¬ Obligations.Barriers := by
  rintro ⟨harv, -⟩
  obtain ⟨r, ⟨t, ht, -, -, hon, -⟩, -, -, hlast⟩ := (harv arrival waiting waiting.alone issues).2 mayArrive
  obtain ⟨-, -, hwarps⟩ := hlast (by decide)
  obtain ⟨-, hpc⟩ := (hwarps 0 (by decide)).1 (by decide)
  have hkept : (t.warp 0).pc = (r.warp 0).pc + 12 := congrArg Warp.pc (hon 0 (by decide))
  have hmoves := exec_moves
  rw [ht] at hmoves
  have hsum : (begun.warp 0).pc + 12 + 12 = (begun.warp 0).pc + 36 := by
    rw [← hmoves]
    show _ = (t.warp 0).pc
    rw [hkept, hpc]
    rfl
  exact absurd hsum (by decide)

end Sys2Proof.Machine

/-! SUPPORT. What releases and acquires do to floors (spec/12 R276 to R278): the snapshot of a release is at or above every floor of
its warps, and an acquire raises their floors to the snapshots that they have seen. -/

namespace Sys2Proof.Machine

/-! ## Floors -/

theorem le_raiseTo_map (v fl : SMap Nat) (l : Nat) : mget 0 v l ≤ mget 0 (raiseTo fl v) l := by
  suffices h : mget 0 v l = 0 ∨ (l, mget 0 v l) ∈ v by
    rcases h with h | h
    · omega
    · exact pos_le_raiseTo h fl
  induction v with
  | nil => exact .inl rfl
  | cons e v ih =>
    unfold mget
    split
    next hl => exact .inr (hl ▸ List.mem_cons_self ..)
    next => exact ih.imp id (List.mem_cons_of_mem _)

theorem le_joinFloors {fs : List (SMap Nat)} {f : SMap Nat} (hf : f ∈ fs) (l : Nat) : mget 0 f l ≤ mget 0 (joinFloors fs) l := by
  have hmono (fs : List (SMap Nat)) (x : SMap Nat) : mget 0 x l ≤ mget 0 (fs.foldl raiseTo x) l := by
    induction fs generalizing x with
    | nil => exact le_rfl
    | cons y fs ih => exact (le_raiseTo y x l).trans (ih _)
  unfold joinFloors
  generalize ([] : SMap Nat) = x
  induction fs generalizing x with
  | nil => cases hf
  | cons y fs ih =>
    rcases List.mem_cons.1 hf with rfl | hf
    · exact (le_raiseTo_map f x l).trans (hmono fs _)
    · exact ih hf _

theorem Warp.floors_le_fl (x : Warp) (l : Nat) : mget 0 x.floors l ≤ mget 0 x.fl l := by
  unfold Warp.fl
  split
  · exact le_rfl
  · exact le_raiseTo ..

/-- A release that was seen, and covers and is covered, is below the floors after an acquire (R278). -/
theorem Mem.view_le_acquired {m : Mem} {place n : Nat} {sc : MScope} {seen : List Nat} {e : Rel} (hn : n ∈ seen)
    (he : mfind m.rels n = some e) (hc : covers sc e.place place = true) (hc' : covers e.scope e.place place = true)
    (fl : SMap Nat) (l : Nat) : mget 0 e.view l ≤ mget 0 (m.acquired place sc seen fl) l := by
  induction seen generalizing fl with
  | nil => cases hn
  | cons x seen ih =>
    rcases List.mem_cons.1 hn with rfl | hn
    · refine (le_raiseTo_map e.view fl l).trans ?_
      unfold acquired
      rw [List.foldl_cons, he]
      dsimp only
      rw [hc, hc', Bool.and_self, if_pos rfl]
      exact m.le_acquired place sc seen (raiseTo fl e.view) l
    · exact ih hn _

/-! ## Members together -/

section
variable {s : State} {ws : List Nat} (hn : ws.Nodup) (hl : ∀ w ∈ ws, (mfind s.warps w).isSome)
include hn hl

/-- Members together have the highest of their floors. -/
theorem State.joinMembers_floors {v w : Nat} (hv : v ∈ ws) (hw : w ∈ ws) (l : Nat) :
    mget 0 (s.warp v).floors l ≤ mget 0 ((s.joinMembers ws).warp w).floors l := by
  unfold joinMembers
  split
  next h1 =>
    obtain ⟨x, rfl⟩ := List.length_eq_one_iff.1 (le_antisymm h1 (List.length_pos_of_mem hv))
    rw [List.mem_singleton.1 hv, List.mem_singleton.1 hw]
  next =>
    rw [modWarps_warp hn s hl, if_pos hw]
    exact le_joinFloors (List.mem_map_of_mem (f := fun w => (s.warp w).floors) hv) l

theorem State.joinMembers_raised : State.Raised s (s.joinMembers ws) where
  rels := by
    unfold joinMembers
    split
    · rfl
    · rw [modWarps_rest]
  nextId := by
    unfold joinMembers
    split
    · rfl
    · rw [modWarps_rest]
  warp v := by
    by_cases hv : v ∈ ws
    · refine ⟨joinMembers_floors hn hl hv hv, ?_⟩
      unfold joinMembers
      split
      · exact fun _ hx => hx
      · rw [modWarps_warp hn s hl, if_pos hv]
        exact fun _ hx => hx
    · unfold joinMembers
      split
      · exact .refl _
      · rw [modWarps_warp hn s hl, if_neg hv]
        exact .refl _
  writes v := by
    unfold joinMembers
    split
    · rfl
    · rw [modWarps_warp hn s hl]
      split <;> rfl

end

/-! ## Releases -/

theorem State.cleanL1_mem (s : State) (k : Nat) (view : SMap Nat) :
    (s.cleanL1 k view).mem.rels = s.mem.rels ∧ (s.cleanL1 k view).nextId = s.nextId := by
  unfold cleanL1
  dsimp only
  generalize (List.map _ _ : List Nat) = bad
  suffices h : ∀ t : State, (bad.foldl (fun s u => s.setSector (32 * u) .poison) t).mem.rels = t.mem.rels ∧
      (bad.foldl (fun s u => s.setSector (32 * u) .poison) t).nextId = t.nextId from h _
  induction bad with
  | nil => exact fun _ => ⟨rfl, rfl⟩
  | cons u bad ih => exact fun t => ih (t.setSector (32 * u) .poison)

/-- A state in which warps have made release n of scope sc after a state s: the release is there with every earlier one, its
snapshot is at or above the floors of the warps, and they write after it. -/
structure State.ReleasedBy (s r : State) (ws : List Nat) (sc : MScope) (n : Nat) : Prop where
  made   : ∃ e, r.mem.rels = mins s.mem.rels n e ∧ e.scope = sc ∧
             ∀ w ∈ ws, ∀ l, mget 0 (s.warp w).floors l ≤ mget 0 e.view l
  nextId : r.nextId = n + 1
  warp   : ∀ v, Warp.Rises (s.warp v) (r.warp v)
  writes : ∀ w ∈ ws, n ∈ (r.warp w).rels

theorem State.release_released {s : State} {ws : List Nat} (hn : ws.Nodup) (hl : ∀ w ∈ ws, (mfind s.warps w).isSome)
    (sc : MScope) : State.ReleasedBy s (s.release ws sc).1 ws sc s.nextId := by
  have hsettled := settling_raised.trans (settling_raised.settleAll s ws) (settling_raised.flushReds _ ws)
  have ht : State.Traffic (fun _ => True) s ((s.settleAll ws).flushReds ws) :=
    (traffic_settleAll s ws fun _ _ => trivial).trans (traffic_flushReds _ ws fun _ _ => trivial)
  unfold release
  dsimp only
  generalize (s.settleAll ws).flushReds ws = s1 at hsettled ht ⊢
  have hl1 : ∀ w ∈ ws, (mfind s1.warps w).isSome := fun w hw => by rw [ht.listed]; exact hl w hw
  have hjoined := joinMembers_raised hn hl1
  have hr := settling_raised.trans hsettled hjoined
  have hfl : ∀ w ∈ ws, ∀ l, mget 0 (s.warp w).floors l ≤ mget 0 ((s1.joinMembers ws).warp (ws.headD 0)).floors l := by
    intro w hw l
    have hh : ws.headD 0 ∈ ws := by
      cases ws with
      | nil => cases hw
      | cons x ws => exact List.mem_cons_self ..
    exact ((hsettled.warp w).floors l).trans (joinMembers_floors hn hl1 hw hh l)
  have hl2 : ∀ w ∈ ws, (mfind (s1.joinMembers ws).warps w).isSome := fun w hw => by
    rw [(traffic_joinMembers (P := fun _ => True) s1 ws).listed]
    exact hl1 w hw
  generalize s1.joinMembers ws = s2 at hjoined hr hfl hl2 ⊢
  set view := if sc = .sys then (s2.warp (ws.headD 0)).fl else (s2.warp (ws.headD 0)).floors with hview
  set e : Rel := { place := s2.placeOf (ws.headD 0), scope := sc, view } with he
  set s3 : State := { s2 with nextId := s2.nextId + 1, mem := { s2.mem with rels := mins s2.mem.rels s2.nextId e } } with hs3
  have hle : ∀ w ∈ ws, ∀ l, mget 0 (s.warp w).floors l ≤ mget 0 e.view l := by
    intro w hw l
    refine (hfl w hw l).trans ?_
    show _ ≤ mget 0 view l
    rw [hview]
    split
    · exact Warp.floors_le_fl ..
    · exact le_rfl
  obtain ⟨s4, hs4⟩ : ∃ s4, s4 = if sc = .blk then s3 else s3.cleanL1 (s3.coreOf (ws.headD 0)) view := ⟨_, rfl⟩
  have h4 : s4.warps = s2.warps ∧ s4.mem.rels = mins s.mem.rels s.nextId e ∧ s4.nextId = s.nextId + 1 := by
    rw [hs4, ← hr.rels, ← hr.nextId]
    split
    · exact ⟨rfl, rfl, rfl⟩
    · exact ⟨cleanL1_warps .., cleanL1_mem ..⟩
  rw [← hs4]
  obtain ⟨hwarps, hrels, hid⟩ := h4
  have hw4 : ∀ v, s4.warp v = s2.warp v := fun v => by rw [State.warp, hwarps]; rfl
  have hl4 : ∀ w ∈ ws, (mfind s4.warps w).isSome := fun w hw => by rw [hwarps]; exact hl2 w hw
  refine ⟨⟨e, by rw [modWarps_rest]; exact hrels, rfl, hle⟩, by rw [modWarps_rest]; exact hid, fun v => ?_, fun w hw => ?_⟩
  · rw [modWarps_warp hn s4 hl4, hw4]
    split
    · exact (hr.warp v).trans (.of_eq rfl rfl)
    · exact hr.warp v
  · rw [modWarps_warp hn s4 hl4, if_pos hw, ← hr.nextId]
    exact List.mem_append_right _ (List.mem_singleton_self _)

/-! ## Acquires -/

theorem State.Traffic.coreOf {P : Nat → Prop} {s r : State} (h : State.Traffic P s r) (w : Nat) : r.coreOf w = s.coreOf w := by
  simp only [State.coreOf, State.blkOf, State.blk]
  rw [h.warp w, h.rest]

/-- An acquire by warps raises their floors to every release that one of them has seen, and which it covers and which covers it. -/
theorem State.acquire_acquires {s : State} {ws : List Nat} (hn : ws.Nodup) (hl : ∀ w ∈ ws, (mfind s.warps w).isSome)
    (sc : MScope) : State.Raised s (s.acquire ws sc) ∧
      ∀ w ∈ ws, ∀ v ∈ ws, ∀ n ∈ (s.warp v).seen, ∀ e, mfind s.mem.rels n = some e →
        covers sc e.place (s.coreOf (ws.headD 0)) = true → covers e.scope e.place (s.coreOf (ws.headD 0)) = true →
        ∀ l, mget 0 e.view l ≤ mget 0 ((s.acquire ws sc).warp w).floors l := by
  have hsettled := settling_raised.settleAll s ws
  have ht : State.Traffic (fun _ => True) s (s.settleAll ws) := traffic_settleAll s ws fun _ _ => trivial
  unfold acquire
  dsimp only
  generalize s.settleAll ws = s1 at hsettled ht ⊢
  have hl1 : ∀ w ∈ ws, (mfind s1.warps w).isSome := fun w hw => by rw [ht.listed]; exact hl w hw
  have hr := settling_raised.trans hsettled (joinMembers_raised hn hl1)
  have hfl : ∀ v ∈ ws, ∀ l, mget 0 (s.warp v).floors l ≤ mget 0 ((s1.joinMembers ws).warp (ws.headD 0)).floors l := by
    intro v hv l
    have hh : ws.headD 0 ∈ ws := by
      cases ws with
      | nil => cases hv
      | cons x ws => exact List.mem_cons_self ..
    exact ((hsettled.warp v).floors l).trans (joinMembers_floors hn hl1 hv hh l)
  have ht2 := ht.trans (traffic_joinMembers s1 ws)
  generalize s1.joinMembers ws = s2 at hr hfl ht2 ⊢
  obtain ⟨s3, hs3⟩ : ∃ s3, s3 = if sc = .blk then s2
    else s2.modCore (s2.coreOf (ws.headD 0)) fun c => { c with l1 := c.l1.filter fun e => !e.2.isEmpty } := ⟨_, rfl⟩
  have h3 : s3.warps = s2.warps ∧ s3.mem = s2.mem ∧ s3.nextId = s2.nextId ∧ s3.placeOf (ws.headD 0) = s2.placeOf (ws.headD 0) := by
    rw [hs3]
    split <;> exact ⟨rfl, rfl, rfl, rfl⟩
  rw [← hs3]
  obtain ⟨hwarps, hmem, hid, hplace⟩ := h3
  have hw3 : ∀ v, s3.warp v = s2.warp v := fun v => by rw [State.warp, hwarps]; rfl
  have hl3 : ∀ w ∈ ws, (mfind s3.warps w).isSome := fun w hw => by rw [hwarps, ht2.listed]; exact hl w hw
  have hp : s3.placeOf (ws.headD 0) = s.coreOf (ws.headD 0) := hplace.trans (ht2.coreOf _)
  have hseen {v n : Nat} (hv : v ∈ ws) (hnv : n ∈ (s.warp v).seen) : n ∈ (ws.flatMap fun w => (s3.warp w).seen).dedup :=
    List.mem_dedup.2 (List.mem_flatMap.2 ⟨v, hv, by rw [hw3]; exact (hr.warp v).seen n hnv⟩)
  refine ⟨⟨by rw [modWarps_rest, ← hr.rels, ← hmem], by rw [modWarps_rest, ← hr.nextId, ← hid], fun v => ?_, fun v => ?_⟩,
    fun w hw v hv n hnv e he hc hc' l => ?_⟩
  · rw [modWarps_warp hn s3 hl3]
    split
    next hv => exact ⟨fun l => (hfl v hv l).trans (by rw [← hw3]; exact Mem.le_acquired ..), fun _ => hseen hv⟩
    next => rw [hw3]; exact hr.warp v
  · rw [← hr.writes v, ← hw3, modWarps_warp hn s3 hl3]
    split <;> rfl
  · rw [modWarps_warp hn s3 hl3, if_pos hw]
    refine Mem.view_le_acquired (hseen hv hnv) (by rw [hmem, hr.rels]; exact he) ?_ ?_ _ l
    · rw [hp]; exact hc
    · rw [hp]; exact hc'

/-! ## `PHASE` and `WAIT` -/

/-- `PHASE` where its release and its acquire wait for nothing. -/
theorem effPhase_ready {a : Args} {s : State} {g : Grp} (hr : a.func ≠ 2 → s.relWaits g.ws (scopeOf a.sub.toNat) = false)
    (ha : a.func ≠ 1 → s.acqWaits g.ws = false) :
    effPhase a s g = .next
      (if a.func ≠ 1 then (if a.func ≠ 2 then (s.release g.ws (scopeOf a.sub.toNat)).1 else s).acquire g.ws (scopeOf a.sub.toNat)
        else if a.func ≠ 2 then (s.release g.ws (scopeOf a.sub.toNat)).1 else s) := by
  unfold effPhase
  by_cases h2 : a.func = 2 <;> by_cases h1 : a.func = 1 <;> simp_all

theorem phases_holds : Claims.phases := by
  intro a s g h s0 hrel hacq
  set sc := scopeOf a.sub.toNat
  obtain ⟨hn, hl, -⟩ := h.grpOk
  have hl0 : ∀ w ∈ g.ws, (mfind s0.warps w).isSome := fun w hw => by
    obtain ⟨m, hm, rfl⟩ := List.mem_map.1 hw
    exact hl m hm
  have hhead : g.ws.headD 0 = leaderOf g := Grp.ws_head g
  have hmem {m : Nat × Mask} (hm : m ∈ g) : m.1 ∈ g.ws := List.mem_map_of_mem hm
  obtain ⟨s1, hs1⟩ : ∃ s1, s1 = if a.func ≠ 2 then (s0.release g.ws sc).1 else s0 := ⟨_, rfl⟩
  obtain ⟨r, hr⟩ : ∃ r, r = if a.func ≠ 1 then s1.acquire g.ws sc else s1 := ⟨_, rfl⟩
  have he : effPhase a s0 g = .next r := by rw [effPhase_ready hrel hacq, hr, hs1]
  -- what the release leaves
  have ht1 : State.Traffic s0.OnItsWay s0 s1 := by
    rw [hs1]
    split
    · exact State.traffic_release _ _ _ fun _ => id
    · exact .refl _
  have hup1 : ∀ v, Warp.Rises (s0.warp v) (s1.warp v) := by
    rw [hs1]
    split
    · exact (State.release_released hn hl0 sc).warp
    · exact fun _ => .refl _
  have hold : ∀ n e, n < s0.nextId → mfind s0.mem.rels n = some e → mfind s1.mem.rels n = some e := by
    intro n e hlt he
    rw [hs1]
    split
    · obtain ⟨x, hx, -⟩ := (State.release_released hn hl0 sc).made
      rw [hx, mfind_mins_ne _ _ hlt.ne]
      exact he
    · exact he
  -- what the acquire leaves
  have hl1 : ∀ w ∈ g.ws, (mfind s1.warps w).isSome := fun w hw => by rw [ht1.listed]; exact hl0 w hw
  have ht : State.Traffic s0.OnItsWay s0 r := by
    rw [hr]
    split
    · exact ht1.trans (State.traffic_acquire _ _ _ ht1.way)
    · exact ht1
  have hrr : State.Raised s1 r := by
    rw [hr]
    split
    · exact (State.acquire_acquires hn hl1 sc).1
    · exact settling_raised.refl _
  refine ⟨r, h.completes rfl he ht.listed, ht, fun h2 => ?_, fun h1 m hm => ⟨fun l => ?_, fun m' hm' n hnv e he hlt hc hc' l => ?_⟩⟩
  · have hby := State.release_released hn hl0 sc
    rw [if_pos h2] at hs1
    rw [← hs1] at hby
    obtain ⟨e, hx, hsc, hle⟩ := hby.made
    refine ⟨s0.nextId, e, by rw [hrr.rels, hx, mfind_mins_self], hsc, fun m hm => ⟨?_, hle m.1 (hmem hm)⟩⟩
    rw [hrr.writes]
    exact hby.writes m.1 (hmem hm)
  · exact ((hup1 m.1).floors l).trans ((hrr.warp m.1).floors l)
  · rw [if_pos h1] at hr
    rw [hr]
    refine (State.acquire_acquires hn hl1 sc).2 m.1 (hmem hm) m'.1 (hmem hm') n ((hup1 m'.1).seen n hnv) e (hold n e hlt he) ?_ ?_ l
    · rw [hhead, ht1.coreOf]
      exact hc
    · rw [hhead, ht1.coreOf]
      exact hc'

/-- `WAIT` where the outstanding operations are within its limits. -/
theorem effWait_met {a : Args} {s : State} {g : Grp} (h : waitMet a (s.warp (leaderOf g)) = true) :
    effWait a s g = .next (s.modWarp (leaderOf g) fun x => x.tileFloors a.b.toNat) := by
  unfold effWait
  dsimp only
  rw [h]
  rfl

theorem effWait_unmet {a : Args} {s : State} {g : Grp} (h : waitMet a (s.warp (leaderOf g)) = false) :
    effWait a s g = .stall s := by
  unfold effWait
  dsimp only
  rw [h]
  rfl

theorem waits_holds : Claims.waits := by
  intro a s g h s0 x met
  have hiff : waitMet a x = true ↔ met := by simp [waitMet, met, and_assoc]
  refine ⟨fun hmet => ?_, fun hmet => ?_⟩
  · have he := effWait_met (hiff.2 hmet)
    refine ⟨_, h.completes rfl he fun w => State.modWarp_listed .., rfl, fun w => ?_⟩
    by_cases hw : w = leaderOf g
    · subst hw
      rw [State.modWarp_self _ h.leader_listed]
      rfl
    · rw [State.modWarp_warp_ne _ _ hw]
  · obtain ⟨t, ht, hrest⟩ := h.stalls (i := .wait a) (eff := effWait a) rfl (effWait_unmet (Bool.not_eq_true _ ▸ mt hiff.1 hmet))
    exact ⟨t, ht, hrest.pc _, by rw [hrest.rest]⟩

/-- Settles O37: `PHASE` by its release and its acquire, `WAIT` by whether its limits are met. -/
theorem phasesWaits : Obligations.PhasesWaits := ⟨phases_holds, waits_holds⟩

end Sys2Proof.Machine

/-! SUPPORT. Counters that are read (spec/08 R194, R196): what `CREAD` and `CWAIT` do with the value that a counter gives, at issue and
when a wait ends. -/

namespace Sys2Proof.Machine

/-! ## The place and the value of a counter -/

theorem State.traffic_counterPlace {P : Nat → Prop} (s : State) (w : Nat) (write : Bool) (p : Word) (h : ∀ l, s.OnItsWay l → P l) :
    State.Traffic P s (s.counterPlace w write p).1 := by
  have ht := traffic_places (P := P) w { write } p 8 s h
  unfold counterPlace
  split
  · exact .refl s
  · split
    next heq => rw [heq] at ht; exact ht
    next heq =>
      rw [heq] at ht
      split <;> exact ht

theorem State.traffic_readCtr_home {P : Nat → Prop} (s : State) (g : Grp) (p : Word) (l : Nat) (h : ∀ l, s.OnItsWay l → P l) :
    State.Traffic P s (s.readCtr g p (.home l)).1 := by
  unfold readCtr
  exact (traffic_flushOwn s _ _ _ h).then h fun h1 => traffic_readCounter _ _ _ _ h1

theorem State.trace_onItsWay (s : State) (w k : Nat) (x : Word) {l : Nat} (h : (s.trace w k x).OnItsWay l) : s.OnItsWay l := by
  rcases h with ⟨j, hj⟩ | hp
  · rw [trace_core] at hj
    exact .inl ⟨j, hj⟩
  · rw [trace_rest] at hp
    exact .inr hp

/-- What a counter instruction saw is written to scalar d of every member. -/
theorem State.putSeen_eq (s : State) (g : Grp) (d : Nat) (x : Word) (m : Option Mark) :
    s.putSeen g d x m = s.modWarps g.ws fun y => y.putS d x true m := by
  unfold putSeen modWarps
  simp only [regPut_s]

theorem State.putSeen_mem (s : State) (g : Grp) (d : Nat) (x : Word) (m : Option Mark) : (s.putSeen g d x m).mem = s.mem := by
  rw [putSeen_eq, modWarps_rest]

theorem State.putSeen_warp {s : State} {g : Grp} (hn : g.ws.Nodup) (hl : ∀ w ∈ g.ws, (mfind s.warps w).isSome) (d : Nat) (x : Word)
    (v : Nat) : (s.putSeen g d x none).warp v = if v ∈ g.ws then (s.warp v).putS d x true none else s.warp v := by
  rw [putSeen_eq, modWarps_warp hn s hl]

theorem State.putSeen_listed (s : State) (g : Grp) (d : Nat) (x : Word) (m : Option Mark) (v : Nat) :
    (mfind (s.putSeen g d x m).warps v).isSome = (mfind s.warps v).isSome := by
  rw [putSeen_eq, modWarps_listed]

theorem State.putSeen_onItsWay (s : State) (g : Grp) (d : Nat) (x : Word) (m : Option Mark) {l : Nat}
    (h : (s.putSeen g d x m).OnItsWay l) : s.OnItsWay l := by
  rwa [putSeen_eq, modWarps_rest] at h

theorem State.traffic_ctrAcquire {P : Nat → Prop} (s : State) (g : Grp) (a : Args) (h : ∀ l, s.OnItsWay l → P l) :
    State.Traffic P s (s.ctrAcquire g a) := by
  unfold ctrAcquire
  split
  · exact traffic_acquire _ _ _ h
  · exact .refl s

/-- A counter instruction that has seen a value: D holds it in every member, no other scalar changes, and then it acquires. -/
def State.seen (s : State) (g : Grp) (a : Args) (x : Word) : State := (s.putSeen g a.d.toNat x none).ctrAcquire g a

section
variable {s : State} {g : Grp} (a : Args) (x : Word)

theorem State.seen_listed (v : Nat) : (mfind (s.seen g a x).warps v).isSome = (mfind s.warps v).isSome := by
  rw [State.seen, (traffic_ctrAcquire (P := fun _ => True) _ g a fun _ _ => trivial).listed, putSeen_listed]

theorem State.seen_byte {k : Nat} (hk : ¬s.OnItsWay k) : (s.seen g a x).mem.byte k = s.mem.byte k := by
  have h := traffic_ctrAcquire (P := s.OnItsWay) (s.putSeen g a.d.toNat x none) g a fun _ hl => putSeen_onItsWay _ _ _ _ _ hl
  rw [State.seen, h.byte k hk, putSeen_mem]

variable (hn : g.ws.Nodup) (hl : ∀ w ∈ g.ws, (mfind s.warps w).isSome)
include hn hl

theorem State.seen_warp {v : Nat} (hv : v ∈ g.ws) : ((s.seen g a x).warp v).s = ((s.warp v).putS a.d.toNat x true none).s ∧
    ((s.seen g a x).warp v).pc = (s.warp v).pc := by
  have h := (traffic_ctrAcquire (P := fun _ => True) (s.putSeen g a.d.toNat x none) g a fun _ _ => trivial).warp v
  have hp : (s.putSeen g a.d.toNat x none).warp v = (s.warp v).putS a.d.toNat x true none := by
    rw [putSeen_warp hn hl, if_pos hv]
  rw [State.seen, h, hp]
  exact ⟨rfl, by rw [Warp.putS_rest]⟩

theorem State.seen_sget {v : Nat} (hv : v ∈ g.ws) (n : Nat) :
    ((s.seen g a x).warp v).sget n = if n = a.d.toNat then x else (s.warp v).sget n := by
  rw [Warp.sget, (seen_warp a x hn hl hv).1]
  exact Warp.putS_sget ..

end

/-- Between the start of a counter instruction in state s and its read of the counter: the counter's place is found and recorded,
and no register, no pc and no byte that nothing is on its way to has changed. -/
structure State.CtrFound (s t : State) : Prop where
  listed : ∀ v, (mfind t.warps v).isSome = (mfind s.warps v).isSome
  warp   : ∀ v, (t.warp v).s = (s.warp v).s ∧ (t.warp v).pc = (s.warp v).pc
  byte   : ∀ k, ¬s.OnItsWay k → t.mem.byte k = s.mem.byte k
  way    : ∀ k, t.OnItsWay k → s.OnItsWay k

theorem State.Traffic.ctrFound {s t : State} (h : State.Traffic s.OnItsWay s t) : State.CtrFound s t :=
  ⟨h.listed, fun v => by rw [h.warp v]; exact ⟨rfl, rfl⟩, h.byte, h.way⟩

theorem State.CtrFound.trace {s t : State} (h : State.CtrFound s t) (w k : Nat) (x : Word) : State.CtrFound s (t.trace w k x) where
  listed v := by rw [trace_warps]; exact h.listed v
  warp v := by rw [trace_warp]; exact h.warp v
  byte k hk := by rw [trace_rest]; exact h.byte k hk
  way _ hk := h.way _ (trace_onItsWay _ _ _ _ hk)

theorem State.CtrFound.modWarps {s t : State} (h : State.CtrFound s t) (ws : List Nat) {f : Warp → Warp}
    (hf : ∀ x, (f x).s = x.s ∧ (f x).pc = x.pc) : State.CtrFound s (t.modWarps ws f) where
  listed v := by rw [modWarps_listed]; exact h.listed v
  warp v := by
    obtain ⟨h1, h2⟩ := modWarps_keeps (R := fun x y => y.s = x.s ∧ y.pc = x.pc) (fun _ => ⟨rfl, rfl⟩)
      (fun a b => ⟨b.1.trans a.1, b.2.trans a.2⟩) hf ws v t
    exact ⟨h1.trans (h.warp v).1, h2.trans (h.warp v).2⟩
  byte k hk := by rw [modWarps_rest]; exact h.byte k hk
  way k hk := by
    rw [modWarps_rest] at hk
    exact h.way k hk

theorem State.CtrFound.read {s t r : State} (h : State.CtrFound s t) {g : Grp} {p x : Word} {l : Nat} {m : Option Mark}
    (hr : t.readCtr g p (.home l) = (r, x, m)) : State.CtrFound s r := by
  have ht := traffic_readCtr_home (P := s.OnItsWay) t g p l h.way
  rw [hr] at ht
  exact ⟨fun v => (ht.listed v).trans (h.listed v), fun v => by rw [ht.warp v]; exact h.warp v,
    fun k hk => (ht.byte k hk).trans (h.byte k hk), fun k hk => h.way k (ht.way k hk)⟩

theorem State.ctrFound_place {s s1 : State} {w : Nat} {b : Bool} {p : Word} {e : Except Trap CtrPlace}
    (hp : s.counterPlace w b p = (s1, e)) : State.Traffic s.OnItsWay s s1 := by
  have h := traffic_counterPlace (P := s.OnItsWay) s w b p fun _ => id
  rwa [hp] at h

/-- What a counter instruction that completes leaves of its members' scalars. -/
theorem State.CtrFound.seen_sget {s r : State} (h : State.CtrFound s r) {g : Grp} (hg : s.GrpOk g) (a : Args) (x : Word)
    {m : Nat × Mask} (hm : m ∈ g) (n : Nat) :
    ((r.seen g a x).warp m.1).sget n = if n = a.d.toNat then x else (s.warp m.1).sget n := by
  have hl : ∀ v ∈ g.ws, (mfind r.warps v).isSome := fun v hv => by
    obtain ⟨m, hm, rfl⟩ := List.mem_map.1 hv
    rw [h.listed]
    exact hg.listed m hm
  rw [State.seen_sget a x hg.nodup hl (List.mem_map_of_mem hm), Warp.sget, (h.warp m.1).1]
  rfl

/-! ## `CREAD` -/

/-- A `CREAD` without an acquire is in flight. -/
def State.creadPosted (s : State) (w : Nat) (p : Word) (l d : Nat) : State :=
  { s.fresh.2 with pend := mins s.pend s.nextId (.cread w p l d) }.modWarp w fun x => x.await (.s d)

section
variable {a : Args} {s s1 s3 : State} {g : Grp} {l : Nat} {x : Word}
  (hp : s.counterPlace (leaderOf g) false (s.counterAddr g a) = (s1, .ok (.home l))) (hw : s.ctrWaits g a (.home l) = false)
include hp hw

theorem effCread_awaits (hf : a.func ≠ 2) :
    effCread a s g = .next ((s1.trace (leaderOf g) 5 (s.counterAddr g a)).creadPosted (leaderOf g) (s.counterAddr g a) l a.d.toNat) := by
  unfold effCread
  simp only [hp, hw, hf]
  rfl

theorem effCread_acquires (hf : a.func = 2)
    (hr : (s1.trace (leaderOf g) 5 (s.counterAddr g a)).readCtr g (s.counterAddr g a) (.home l) = (s3, x, none)) :
    effCread a s g = .next (s3.seen g a x) := by
  unfold effCread
  simp only [hp, hw, hf, hr]
  rfl

end

theorem State.flushOwn_pend (s : State) (w id : Nat) (ls : List Nat) : mfind (s.flushOwn w id ls).pend id = mfind s.pend id := by
  unfold flushOwn
  split
  · rfl
  · have h : ∀ x ∈ (s.chain w id ls).1, id ≠ x := fun x hx => (lt_of_mem_chain s hx).ne'
    generalize (s.chain w id ls).1 = xs at h
    clear * - h
    induction xs generalizing s with
    | nil => rfl
    | cons x xs ih =>
      rw [List.foldl_cons, ih _ fun y hy => h y (List.mem_cons_of_mem _ hy)]
      exact settlePend_pend s (h x (List.mem_cons_self ..))

/-- The value of a counter that a `CREAD` in flight has read is in D. -/
def State.creadReturned (s : State) (id w d : Nat) (x : Word) : State :=
  let s1 := s.regPut w (.s d) 0 x true none
  { s1 with pend := mdel (mins s.pend id (.result w [{ reg := .s d, lane := 0, val := x, mark := none }] 0 false)) id
            far := mdel s.far id }.modWarp w fun y => (y.arrived (.s d)).setFlags 0

/-- The return of a `CREAD` in flight: its counter is read, and the value is written. -/
theorem exec_loadDataReturn_cread {s s1 : State} {id w l d : Nat} {addr x : Word} (hp : mfind s.pend id = some (.cread w addr l d))
    (hb : s.blocked w id (span l 8) = false)
    (hr : (s.flushOwn w id (span l 8)).readCounter [w] addr l = (s1, x, none)) (hf : s1.farHeld id = false) :
    exec (.loadDataReturn id) s = .next (s1.creadReturned id w d x) := by
  have hpc : (s.flushOwn w id (span l 8)).performCread id =
      { s1 with pend := mins s1.pend id (.result w [{ reg := .s d, lane := 0, val := x, mark := none }] 0 false) } := by
    unfold State.performCread
    simp only [State.flushOwn_pend, hp, hr]
  change execLoadDataReturn id s = _
  unfold execLoadDataReturn
  simp only [hp, hb, hpc, Bool.false_eq_true, if_false, mfind_mins_self]
  refine (if_neg ?_).trans rfl
  change ¬s1.farHeld id = true
  rw [hf]
  exact Bool.false_ne_true

theorem State.creadReturned_warp {s : State} {w : Nat} (hl : (mfind s.warps w).isSome) (id d : Nat) (x : Word) :
    (s.creadReturned id w d x).warp w = (((s.warp w).putS d x true none).arrived (.s d)).setFlags 0 := by
  unfold creadReturned
  dsimp only
  rw [regPut_s, modWarp_self]
  · exact congrArg (fun y : Warp => (y.arrived (.s d)).setFlags 0) (modWarp_self (f := fun y => y.putS d x true none) hl)
  · rw [modWarp_listed]
    exact hl

/-- A `CREAD` without an acquire. -/
theorem State.Issues.creadAwaits {s s1 : State} {a : Args} {g : Grp} {l : Nat} (h : s.IssuesPlain .cread a g)
    (hp : (s.opened .cread a g).counterPlace (leaderOf g) false ((s.opened .cread a g).counterAddr g a) = (s1, .ok (.home l)))
    (hw : (s.opened .cread a g).ctrWaits g a (.home l) = false) (hf : a.func ≠ 2) :
    ∃ r id, Completes (.cread a) a g s r ∧
      mfind r.pend id = some (.cread (leaderOf g) ((s.opened .cread a g).counterAddr g a) l a.d.toNat) ∧
      State.Accessed (s.opened .cread a g).OnItsWay (onWarp (leaderOf g) fun x => { x with busy := .s a.d.toNat :: x.busy })
        (s.opened .cread a g) r := by
  have ht := State.ctrFound_place hp
  refine ⟨_, _, h.completes rfl (effCread_awaits hp hw hf) fun v => ?_, mfind_mins_self .., ?_⟩
  · exact (State.modWarp_listed ..).trans ((congrArg (fun m => (mfind m v).isSome) (State.trace_warps ..)).trans (ht.listed v))
  · refine State.Traffic.accessedOn (u := (s1.trace (leaderOf g) 5 _).fresh.2) (ht.trans (State.traffic_fresh s1)) ⟨?_, ?_⟩ _
      h.leader_listed ⟨by rw [show s1.fresh.2.warp (leaderOf g) = s1.warp (leaderOf g) from rfl, ht.warp]; rfl⟩
    · exact congrArg (fun t : State => t.fresh.2) (State.trace_rest ..)
    · exact State.trace_core s1 (leaderOf g) 5 _

/-- Settles O31: `CREAD` by whether it acquires, and the return of its value. -/
theorem counterRead : Obligations.CounterRead := by
  refine ⟨?_, fun s s1 id w l d addr x hp hb hr hf hl => ?_⟩
  · intro a s s1 g l h s0 w p hp hw
    refine ⟨h.creadAwaits hp hw, fun hf s3 x hr => ?_⟩
    have hread := ((State.ctrFound_place hp).ctrFound.trace w 5 p).read hr
    refine ⟨_, h.completes rfl (effCread_acquires hp hw hf hr) fun v => (State.seen_listed ..).trans (hread.listed v), fun m hm => ?_,
      fun m hm n hn => ?_, fun k hk => ?_⟩
    · rw [hread.seen_sget h.grpOk a x hm, if_pos rfl]
    · rw [hread.seen_sget h.grpOk a x hm, if_neg hn]
    · rw [State.seen_byte a x fun hk' => hk (hread.way k hk'), hread.byte k hk]
  · have hw := State.creadReturned_warp hl id d x
    refine ⟨_, exec_loadDataReturn_cread hp hb hr hf, ?_, mfind_mdel_self .., fun n hn => ?_, ?_, ?_⟩
    · rw [hw]
      exact (Warp.putS_sget ..).trans (if_pos rfl)
    · rw [hw]
      exact (Warp.putS_sget ..).trans (if_neg hn)
    · rw [hw]
      exact Warp.putS_v ..
    · unfold State.creadReturned
      dsimp only
      rw [State.regPut_s]
      rfl

/-! ## `CWAIT` -/

/-- The deadline of a `CWAIT` that issues. -/
def State.cwaitDeadline (s : State) (a : Args) (g : Grp) : Option Nat :=
  if a.kb ≠ .v then some ((s.warp (leaderOf g)).deadline.getD (s.timer + (s.sval g (srcB a 0)).toNat)) else none

/-- The state in which a `CWAIT` reads its counter. -/
def State.cwaitFound (s1 s : State) (a : Args) (g : Grp) : State :=
  (s1.trace (leaderOf g) 5 (s.counterAddr g a)).modWarps g.ws fun x => { x with deadline := none }

section
variable {a : Args} {s s1 s3 : State} {g : Grp} {l : Nat} {x : Word}
  (hp : s.counterPlace (leaderOf g) false (s.counterAddr g a) = (s1, .ok (.home l))) (hw : s.ctrWaits g a (.home l) = false)
  (hr : (s1.cwaitFound s a g).readCtr g (s.counterAddr g a) (.home l) = (s3, x, none))
include hp hw hr

theorem effCwait_home : effCwait a s g = if s.cwaitMet (s.sval g (srcC a)) x none (s.cwaitDeadline a g) then .next (s3.seen g a x)
    else .parked (s3.parkOn g a (s.cwaitDeadline a g) (s.counterAddr g a) (s.sval g (srcC a)) (.home l)) := by
  have hd : (if (a.kb != Kind.v) = true then
      some ((s.warp (leaderOf g)).deadline.getD (s.timer + (s.sval g (srcB a 0)).toNat)) else none) = s.cwaitDeadline a g := by
    simp [State.cwaitDeadline]
  unfold effCwait
  simp only [hp, hw, hd]
  have hh : s.ctrHeld (.home l) = false := rfl
  simp only [hh, Bool.false_eq_true, if_false, Bool.not_false, Bool.true_and]
  unfold State.cwaitFound at hr
  rw [hr]
  rfl

end

theorem State.cwaitMet_iff {s : State} {target x : Word} {d : Option Nat} :
    s.cwaitMet target x none d = true ↔ target.toNat ≤ x.toNat ∨ ∃ e, d = some e ∧ e ≤ s.timer := by
  cases d <;> simp [cwaitMet]

/-- Members wait at a counter: each stands with its registers, the leader with what it waits for. -/
theorem State.parkOn_warp {s : State} {g : Grp} (hn : g.ws.Nodup) (hl : ∀ w ∈ g.ws, (mfind s.warps w).isSome) (a : Args)
    (d : Option Nat) (p target : Word) (at_ : CtrPlace) {v : Nat} (hv : v ∈ g.ws) :
    ((s.parkOn g a d p target at_).warp v).park = (if v = leaderOf g then .cwait d g a p target at_ else .follow (leaderOf g)) ∧
    ((s.parkOn g a d p target at_).warp v).pc = (s.warp v).pc ∧ ((s.parkOn g a d p target at_).warp v).s = (s.warp v).s := by
  unfold parkOn
  by_cases h : v = leaderOf g
  · subst h
    rw [modWarp_self _ (by rw [modWarps_listed]; exact hl _ hv), modWarps_warp hn s hl, if_pos hv]
    simp
  · rw [modWarp_warp_ne _ _ h, modWarps_warp hn s hl, if_pos hv]
    simp [h]

/-- An effect that parks its group. -/
theorem State.Issues.parks {s r : State} {o : Op} {a : Args} {g : Grp} {i : Instr} {eff : State → Grp → Res}
    (h : s.IssuesPlain o a g) (hi : exec i s = s.issue o a eff) (he : eff (s.opened o a g) g = .parked r) :
    Claims.parks i o a g s r := by
  refine hi.trans (congrArg Host.Outcome.next ?_)
  rw [h.finish eff (by simp [he]), he]
  rfl

theorem State.ctrFound_cwait {s s1 : State} {a : Args} {w : Nat} {b : Bool} {p : Word} {e : Except Trap CtrPlace}
    (hp : s.counterPlace w b p = (s1, e)) (g : Grp) : State.CtrFound s (s1.cwaitFound s a g) :=
  ((ctrFound_place hp).ctrFound.trace (leaderOf g) 5 (s.counterAddr g a)).modWarps g.ws
    (f := fun x => { x with deadline := none }) fun _ => ⟨rfl, rfl⟩

/-- A wait that a test ends goes on past its instruction with the value in D. -/
theorem State.cwaitTry_ends {s s1 : State} {w l : Nat} {deadline : Option Nat} {g : Grp} {a : Args} {p target x : Word}
    (hp : (s.warp w).park = .cwait deadline g a p target (.home l)) (hk : s.waitKept w = false)
    (hr : s.readCtr g p (.home l) = (s1, x, none)) (test : Word → Word → Option Mark → Option Nat → Bool) :
    s.cwaitTry w test = if test target x none deadline then (s1.seen g a x).pass g (argBytes a) else s := by
  have hh : s.ctrHeld (.home l) = false := rfl
  unfold cwaitTry
  simp only [hp, hk, hh, hr]
  rfl

/-- The group after it went on. -/
theorem State.seen_pass {s : State} {g : Grp} (a : Args) (x : Word) (hn : g.ws.Nodup)
    (hl : ∀ w ∈ g.ws, (mfind s.warps w).isSome) {v : Nat} (hv : v ∈ g.ws) :
    (((s.seen g a x).pass g (argBytes a)).warp v).sget a.d.toNat = x ∧
    (((s.seen g a x).pass g (argBytes a)).warp v).pc = (s.warp v).pc + BitVec.ofNat 64 (argBytes a) ∧
    (((s.seen g a x).pass g (argBytes a)).warp v).park = .none := by
  have hw : ((s.seen g a x).pass g (argBytes a)).warp v = { ((s.seen g a x).warp v).advance (argBytes a) with park := .none } := by
    unfold pass
    rw [modWarps_warp hn _ fun w hw => by rw [seen_listed]; exact hl w hw, if_pos hv]
  rw [hw]
  refine ⟨?_, congrArg (· + BitVec.ofNat 64 (argBytes a)) (seen_warp a x hn hl hv).2, rfl⟩
  exact (seen_sget a x hn hl hv _).trans (if_pos rfl)

/-- Settles O32: `CWAIT` by whether what it reads ends its wait, at issue and when it reads again. -/
theorem counterWait : Obligations.CounterWait := by
  refine ⟨?_, ?_⟩
  · intro a s s1 s3 g l x h s0 w p deadline hp hw hr
    have hread := (State.ctrFound_cwait (a := a) hp g).read hr
    have heff := effCwait_home hp hw hr
    refine ⟨fun hmet => ?_, fun hlt hlate => ?_⟩
    · have hmet : s0.cwaitMet (s0.sval g (srcC a)) x none (s0.cwaitDeadline a g) = true := State.cwaitMet_iff.2 hmet
      rw [if_pos hmet] at heff
      refine ⟨_, h.completes rfl heff fun v => (State.seen_listed ..).trans (hread.listed v), fun m hm => ?_, fun m hm n hn => ?_⟩
      · rw [hread.seen_sget h.grpOk a x hm, if_pos rfl]
      · rw [hread.seen_sget h.grpOk a x hm, if_neg hn]
    · have hnot : ¬s0.cwaitMet (s0.sval g (srcC a)) x none (s0.cwaitDeadline a g) = true := by
        rw [State.cwaitMet_iff]
        rintro (hle | ⟨d, hd, hle⟩)
        · omega
        · exact absurd (hlate d hd) (by omega)
      rw [if_neg hnot] at heff
      obtain ⟨hn, hl, -⟩ := h.grpOk
      have hl3 : ∀ v ∈ g.ws, (mfind s3.warps v).isSome := fun v hv => by
        obtain ⟨m, hm, rfl⟩ := List.mem_map.1 hv
        rw [hread.listed]
        exact hl m hm
      have hpark {v : Nat} (hv : v ∈ g.ws) :=
        State.parkOn_warp hn hl3 a (s0.cwaitDeadline a g) p (s0.sval g (srcC a)) (.home l) hv
      refine ⟨_, h.parks rfl heff, ?_, fun m hm => ?_, fun m hm hne => ?_⟩
      · exact (hpark (Grp.leader_mem h.grp.2.2)).1.trans (if_pos rfl)
      · obtain ⟨-, hpc, hs⟩ := hpark (List.mem_map_of_mem hm)
        exact ⟨hpc.trans (hread.warp m.1).2, hs.trans (hread.warp m.1).1⟩
      · exact (hpark (List.mem_map_of_mem hm)).1.trans (if_neg hne)
  · intro s s1 w l deadline g a p target x hp hk hn hl hr reached late wakes
    have hl1 : ∀ v ∈ g.ws, (mfind s1.warps v).isSome := fun v hv => by
      obtain ⟨m, hm, rfl⟩ := List.mem_map.1 hv
      exact hl m hm
    have htry := State.cwaitTry_ends hp hk hr
    have hends {i : Instr} {test : Word → Word → Option Mark → Option Nat → Bool} (hi : exec i s = .next (s.cwaitTry w test))
        (ht : test target x none deadline = true) : wakes i :=
      ⟨_, hi.trans (congrArg _ ((htry test).trans (if_pos ht))),
        fun m hm => State.seen_pass a x hn hl1 (List.mem_map_of_mem hm)⟩
    have hstays {i : Instr} {test : Word → Word → Option Mark → Option Nat → Bool} (hi : exec i s = .next (s.cwaitTry w test))
        (ht : ¬test target x none deadline = true) : exec i s = .next s :=
      hi.trans (congrArg _ ((htry test).trans (if_neg ht)))
    have hwake : s.cwaitMet target x none none = true ↔ reached := by
      rw [State.cwaitMet_iff]
      simp [reached]
    have htime : deadline.elim false (· ≤ s.timer) = true ↔ late := by
      cases deadline <;> simp [late]
    have hpoll : s.cwaitMet target x none deadline = true ↔ reached ∨ late := State.cwaitMet_iff
    exact ⟨fun h => hends (i := .cwaitWake w) rfl (hwake.2 h), fun h => hends (i := .cwaitTimeout w) rfl (htime.2 h),
      fun h => hends (i := .cwaitPoll w) rfl (hpoll.2 h), fun h => hstays (i := .cwaitWake w) rfl (mt hwake.1 h),
      fun h => hstays (i := .cwaitTimeout w) rfl (mt htime.1 h),
      fun h h' => hstays (i := .cwaitPoll w) rfl fun hm => (hpoll.1 hm).elim h h'⟩

end Sys2Proof.Machine

/-! SUPPORT. Edge queues (spec/08 R201 to R204): an `EQ` on its control line, at issue and when its wait ends. -/

namespace Sys2Proof.Machine

open Claims (RowsKnown NoULines OnQueue queueActs queueWaits)

/-! ## Releases fence no bank -/

theorem State.rowsKept_modWarps (s : State) (ws : List Nat) (f : Warp → Warp) : State.RowsKept s (s.modWarps ws f) := by
  rw [modWarps_rest]
  exact .of_eq rfl rfl rfl

theorem State.rowsKept_cleanL1 (s : State) (k : Nat) (view : SMap Nat) : State.RowsKept s (s.cleanL1 k view) := by
  unfold cleanL1
  dsimp only
  refine State.RowsKept.trans ?_ (State.RowsKept.foldl _ _ (fun s u => rowsKept_setSector s (32 * u) .poison) _)
  exact .of_eq rfl rfl rfl

theorem State.rowsKept_release (s : State) (ws : List Nat) (sc : MScope) : State.RowsKept s (s.release ws sc).1 := by
  have h1 := (settling_rowsKept.settleAll s ws).trans (settling_rowsKept.flushReds (s.settleAll ws) ws)
  unfold release
  dsimp only
  generalize (s.settleAll ws).flushReds ws = s1 at h1 ⊢
  have h2 : State.RowsKept s1 (s1.joinMembers ws) := by
    unfold joinMembers
    split
    · exact .refl _
    · exact rowsKept_modWarps ..
  refine (h1.trans h2).trans (State.RowsKept.trans ?_ (rowsKept_modWarps ..))
  generalize s1.joinMembers ws = s2
  generalize mins s2.mem.rels s2.nextId _ = m
  have h3 : State.RowsKept s2 { s2 with nextId := s2.nextId + 1, mem := { s2.mem with rels := m } } := .of_eq rfl rfl rfl
  split
  · exact h3
  · exact h3.trans (rowsKept_cleanL1 ..)

/-! ## Eight bytes written as one piece -/

/-- Eight bytes written as one piece, where their banks keep them. -/
theorem State.writePiece_value {s : State} (wr : Writer) (rmw : Bool) {l : Nat} (x : Word) (hd : ∀ k ∈ span l 8, s.discards k = false) :
    ofBytes ((s.writePiece wr rmw ((span l 8).zip (bytesOf 8 x))).mem.peek l 8) = x := by
  refine (congrArg ofBytes (map_eq_of_zip (by rw [length_span, length_bytesOf]) fun e he => ?_)).trans (ofBytes_bytesOf x)
  refine writePiece_byte_mem s wr rmw ?_ he (hd _ (mem_zip_left he))
  rw [List.map_fst_zip (by rw [length_span, length_bytesOf])]
  exact nodup_span ..

/-- The same with the check before it, where no access fences a bank. -/
theorem State.performPiece_value {s : State} (hr : RowsKnown s) (wr : Writer) (rmw : Bool) (src : Nat) {l : Nat} (x : Word)
    (hd : ∀ k ∈ span l 8, s.discards k = false) :
    ofBytes ((s.performPiece wr rmw src ((span l 8).zip (bytesOf 8 x))).mem.peek l 8) = x :=
  writePiece_value wr rmw x fun k hk => ((rowsKept_checkWrites ..).discards hr k).trans (hd k hk)

/-! ## The update of a count -/

/-- The new value of the count that an `EQ` advances, written home as one piece. -/
def State.countWritten (s : State) (g : Grp) (o : Op) (l : Nat) (q : QLine) (n : Nat) : State :=
  s.performPiece (s.writer g.ws) true 0 ((span (l + (q.count o).1) 8).zip (bytesOf 8 (BitVec.ofNat 64 ((q.count o).2 + n))))

/-- The four `EQ` that act on their queue. -/
def EqActs (o : Op) : Prop := o = .eqResv ∨ o = .eqPub ∨ o = .eqTake ∨ o = .eqFree

/-- Those of them that answer the old count, and acquire. -/
def EqAnswers (o : Op) : Prop := o = .eqResv ∨ o = .eqTake

section
variable (s : State) (g : Grp) {o : Op} (a : Args) (l : Nat) (q : QLine) (n : Nat)

/-- An `EQ` that answers acts by its update, then D, then its acquire. -/
theorem State.eqAct_answers (h : EqAnswers o) : s.eqAct g o a l q n =
    ((s.countWritten g o l q n).putSeen g a.d.toNat (BitVec.ofNat 64 (q.count o).2) none).acquire g.ws .dev := by
  rw [putSeen_eq]
  rcases h with rfl | rfl <;> rfl

/-- An `EQ` that does not answer acts by its update, and what the truss scheduler makes of it. -/
theorem State.eqAct_silent (h : o = .eqPub ∨ o = .eqFree) :
    s.eqAct g o a l q n = { s.countWritten g o l q n with ctxs := (s.eqAct g o a l q n).ctxs } := by
  rcases h with rfl | rfl <;> rfl

theorem State.traffic_countWritten {P : Nat → Prop} (h : ∀ k ∈ span (l + (q.count o).1) 8, P k) :
    State.Traffic P s (s.countWritten g o l q n) :=
  traffic_performPiece _ _ _ _ _ fun _ hb => h _ (mem_zip_left hb)

theorem EqActs.cases {o : Op} (h : EqActs o) : EqAnswers o ∨ (o = .eqPub ∨ o = .eqFree) := by
  rcases h with h | h | h | h
  · exact .inl (.inl h)
  · exact .inr (.inl h)
  · exact .inl (.inr h)
  · exact .inr (.inr h)

/-- What an `EQ` that acts leaves of the warps. -/
structure State.EqActed (s r : State) (g : Grp) (o : Op) (a : Args) (q : QLine) : Prop where
  listed : ∀ v, (mfind r.warps v).isSome = (mfind s.warps v).isSome
  pc     : ∀ v, (r.warp v).pc = (s.warp v).pc
  answer : EqAnswers o → ∀ v ∈ g.ws, (r.warp v).sget a.d.toNat = BitVec.ofNat 64 (q.count o).2

theorem State.eqAct_acted (ho : EqActs o) (hn : g.ws.Nodup) (hl : ∀ w ∈ g.ws, (mfind s.warps w).isSome) :
    State.EqActed s (s.eqAct g o a l q n) g o a q := by
  have hw := s.traffic_countWritten (P := fun _ => True) g l q n (o := o) fun _ _ => trivial
  rcases ho.cases with h | h
  · have hp := putSeen_listed (s.countWritten g o l q n) g a.d.toNat (BitVec.ofNat 64 (q.count o).2) none
    have hput := putSeen_warp (s := s.countWritten g o l q n) hn (fun w hw' => by rw [hw.listed]; exact hl w hw') a.d.toNat
      (BitVec.ofNat 64 (q.count o).2)
    rw [eqAct_answers s g a l q n h]
    have ha := traffic_acquire (P := fun _ => True) ((s.countWritten g o l q n).putSeen g a.d.toNat
      (BitVec.ofNat 64 (q.count o).2) none) g.ws .dev fun _ _ => trivial
    refine ⟨fun v => by rw [ha.listed, hp, hw.listed], fun v => ?_, fun _ v hv => ?_⟩
    · rw [ha.warp]
      refine Eq.trans (b := ((s.countWritten g o l q n).warp v).pc) ?_ (by rw [hw.warp])
      rw [hput]
      split
      · rw [Warp.putS_rest]
      · rfl
    · have e : ∀ y z : Warp, y.s = z.s → y.sget a.d.toNat = z.sget a.d.toNat := fun y z h => by rw [Warp.sget, h]; rfl
      rw [e _ (((s.countWritten g o l q n).putSeen g a.d.toNat (BitVec.ofNat 64 (q.count o).2) none).warp v) (by rw [ha.warp]),
        hput, if_pos hv, Warp.putS_sget, if_pos rfl]
  · have hs := eqAct_silent s g a l q n h
    refine ⟨fun v => ?_, fun v => ?_, fun h' => ?_⟩
    · rw [hs]
      exact hw.listed v
    · rw [hs]
      exact (congrArg Warp.pc (hw.warp v)).trans rfl
    · rcases h with rfl | rfl <;> rcases h' with h' | h' <;> cases h'

/-- The count once an `EQ` has acted, where its bank keeps it and nothing is on its way to it. -/
theorem State.eqAct_peek (ho : EqActs o) (hr : RowsKnown s)
    (hk : ∀ k ∈ span (l + (q.count o).1) 8, s.discards k = false ∧ ¬s.OnItsWay k) :
    ofBytes ((s.eqAct g o a l q n).mem.peek (l + (q.count o).1) 8) = BitVec.ofNat 64 ((q.count o).2 + n) := by
  have hv : ofBytes ((s.countWritten g o l q n).mem.peek (l + (q.count o).1) 8) = BitVec.ofNat 64 ((q.count o).2 + n) :=
    performPiece_value hr _ true 0 _ fun k h => (hk k h).1
  rcases ho.cases with h | h
  · have hw := s.traffic_countWritten (P := fun _ => True) g l q n (o := o) fun _ _ => trivial
    rw [eqAct_answers s g a l q n h]
    refine (congrArg ofBytes (List.map_congr_left fun k hkm => ?_)).trans hv
    have ha := traffic_acquire (P := s.OnItsWay) ((s.countWritten g o l q n).putSeen g a.d.toNat
      (BitVec.ofNat 64 (q.count o).2) none) g.ws .dev fun j hj => hw.way j (putSeen_onItsWay _ _ _ _ _ hj)
    rw [ha.byte k (hk k hkm).2, putSeen_mem]
  · rw [eqAct_silent s g a l q n h]
    exact hv

end

/-! ## Reaching the control line -/

theorem State.traffic_linePlace {P : Nat → Prop} (s : State) (w : Nat) (b : Bool) (p : Word) (h : ∀ l, s.OnItsWay l → P l) :
    State.Traffic P s (s.linePlace w b p).1 := by
  have ht := traffic_places (P := P) w { write := b } p 8 s h
  unfold linePlace
  dsimp only
  split
  · exact .refl s
  · split
    · exact .refl s
    · split
      next heq => rw [heq] at ht; exact ht
      next heq => rw [heq] at ht; exact ht

theorem State.traffic_readLine {P : Nat → Prop} (s : State) (g : Grp) (p : Word) (l n : Nat) (h : ∀ l, s.OnItsWay l → P l) :
    State.Traffic P s (s.readLine g p l n).1 := by
  have ht := ((traffic_flushOwn s (leaderOf g) s.nextId (span l n) h).then h fun h1 => traffic_peekHome _ 0 (span l n) h1)
  unfold readLine
  dsimp only
  generalize (s.flushOwn (leaderOf g) s.nextId (span l n)).peekHome 0 (span l n) = q at ht ⊢
  split <;> exact ht.trans (traffic_hasRead ..)

/-- The state in which an `EQ` acts or parks: after its release, where it has one. -/
def State.eqBegun (s : State) (g : Grp) (o : Op) : State :=
  if o = .eqPub ∨ o = .eqFree then (s.release g.ws .dev).1 else s

theorem State.traffic_eqBegun {P : Nat → Prop} (s : State) (g : Grp) (o : Op) (h : ∀ l, s.OnItsWay l → P l) :
    State.Traffic P s (s.eqBegun g o) := by
  unfold eqBegun
  split
  · exact traffic_release _ _ _ h
  · exact .refl s

theorem State.rowsKept_eqBegun (s : State) (g : Grp) (o : Op) : State.RowsKept s (s.eqBegun g o) := by
  unfold eqBegun
  split
  · exact rowsKept_release ..
  · exact .refl s

/-- Members wait for their queue. -/
def State.eqParked (s : State) (g : Grp) (o : Op) (a : Args) (sq n : Nat) (set_ : QSet) : State :=
  (s.modWarps g.ws fun x => { x with park := .follow (leaderOf g) }).modWarp (leaderOf g) fun x =>
    { x with park := .eqWait g o a sq n set_ }

theorem State.eqParked_warp {s : State} {g : Grp} (hn : g.ws.Nodup) (hl : ∀ w ∈ g.ws, (mfind s.warps w).isSome) (o : Op) (a : Args)
    (sq n : Nat) (set_ : QSet) {v : Nat} (hv : v ∈ g.ws) :
    ((s.eqParked g o a sq n set_).warp v).park = (if v = leaderOf g then .eqWait g o a sq n set_ else .follow (leaderOf g)) ∧
    ((s.eqParked g o a sq n set_).warp v).pc = (s.warp v).pc := by
  unfold eqParked
  by_cases h : v = leaderOf g
  · subst h
    rw [modWarp_self _ (by rw [modWarps_listed]; exact hl _ hv), modWarps_warp hn s hl, if_pos hv]
    simp
  · rw [modWarp_warp_ne _ _ h, modWarps_warp hn s hl, if_pos hv]
    simp [h]

/-- An `EQ` on its queue, whose operands are in order, acts or parks. -/
theorem State.eqOp_onQueue {s s2 : State} {g : Grp} {o : Op} {a : Args} {l : Nat} {q : QLine} (ho : EqActs o)
    (hq : OnQueue s g o a s2 l q) (hb : eqBad o q (s.sval g (srcA a)).toNat (s.sval g (srcB a 0)).toNat = none) :
    s.eqOp g o a =
      if q.ready o (s.sval g (srcA a)).toNat (s.sval g (srcB a 0)).toNat then
        .next ((s2.eqBegun g o).eqAct g o a l q (s.sval g (srcB a 0)).toNat)
      else .parked ((s2.eqBegun g o).eqParked g o a (s.sval g (srcA a)).toNat (s.sval g (srcB a 0)).toNat q.set_) := by
  obtain ⟨⟨ent, s1, hent, hplace, hheld, hrel, hacq, hread⟩, -⟩ := hq
  unfold eqOp
  simp only [hent, hplace, hheld, hread, hb, Bool.false_or]
  rcases ho with rfl | rfl | rfl | rfl
  · simp only [hacq (.inl rfl)]; rfl
  · simp only [hrel (.inl rfl)]; rfl
  · simp only [hacq (.inr rfl)]; rfl
  · simp only [hrel (.inr rfl)]; rfl

theorem State.onQueue_traffic {s s2 : State} {g : Grp} {o : Op} {a : Args} {l : Nat} {q : QLine} (hq : OnQueue s g o a s2 l q) :
    State.Traffic s.OnItsWay s s2 := by
  obtain ⟨⟨ent, s1, -, hplace, -, -, -, hread⟩, -⟩ := hq
  have h1 := traffic_linePlace (P := s.OnItsWay) s (leaderOf g) true ent.ctrl fun _ => id
  rw [hplace] at h1
  have h2 := traffic_readLine (P := s.OnItsWay) s1 g ent.ctrl l 64 h1.way
  rw [hread] at h2
  exact h1.trans h2

/-- An `EQ` on its queue, whose operands are in order: it acts where the counts let it, else it waits (R203). -/
theorem State.Issues.eqActsOrWaits {s s2 : State} {g : Grp} {o : Op} {a : Args} {l : Nat} {q : QLine} (ho : EqActs o)
    (h : s.IssuesPlain o a g) (hi : exec (Instr.ofOp o a) s = s.issue o a fun s g => s.eqOp g o a)
    (hq : OnQueue (s.opened o a g) g o a s2 l q) {sq n : Nat} (hsq : ((s.opened o a g).sval g (srcA a)).toNat = sq)
    (hnn : ((s.opened o a g).sval g (srcB a 0)).toNat = n) (hb : eqBad o q sq n = none) (old : Option Nat)
    (hold : ∀ x, old = some x → EqAnswers o ∧ x = (q.count o).2) :
    (q.ready o sq n = true → queueActs o a s g s2 l (q.count o).1 ((q.count o).2 + n) old) ∧
    (q.ready o sq n = false → queueWaits o a s g q) := by
  subst hsq hnn
  have he := State.eqOp_onQueue ho hq hb
  have ht2 := State.onQueue_traffic hq
  have htb := State.traffic_eqBegun (P := (s.opened o a g).OnItsWay) s2 g o ht2.way
  have ht := ht2.trans htb
  obtain ⟨hn, hl, -⟩ := h.grpOk
  have hl3 : ∀ v ∈ g.ws, (mfind (s2.eqBegun g o).warps v).isSome := fun v hv => by
    obtain ⟨m, hm, rfl⟩ := List.mem_map.1 hv
    rw [ht.listed]
    exact hl m hm
  refine ⟨fun hr => ?_, fun hr => ?_⟩
  · rw [if_pos hr] at he
    have hacted := State.eqAct_acted (s2.eqBegun g o) g a l q ((s.opened o a g).sval g (srcB a 0)).toNat ho hn hl3
    refine ⟨_, h.completes hi he fun v => (hacted.listed v).trans (ht.listed v), fun hrk hk => ?_, fun x hx m hm => ?_⟩
    · have hkept := State.rowsKept_eqBegun s2 g o
      have hway := State.traffic_eqBegun (P := s2.OnItsWay) s2 g o fun _ => id
      refine State.eqAct_peek _ g a l q _ ho (hkept.known hrk) fun k hkm => ?_
      exact ⟨(hkept.discards hrk k).trans (hk k hkm).1, fun h' => (hk k hkm).2 (hway.way k h')⟩
    · obtain ⟨hans, rfl⟩ := hold x hx
      exact hacted.answer hans m.1 (List.mem_map_of_mem hm)
  · rw [if_neg (by rw [hr]; exact Bool.false_ne_true)] at he
    have hpark {v : Nat} (hv : v ∈ g.ws) := State.eqParked_warp hn hl3 o a ((s.opened o a g).sval g (srcA a)).toNat
      ((s.opened o a g).sval g (srcB a 0)).toNat q.set_ hv
    refine ⟨_, h.parks hi he, ?_, fun m hm hne => ?_, fun m hm => ?_⟩
    · exact (hpark (Grp.leader_mem h.grp.2.2)).1.trans (if_pos rfl)
    · exact (hpark (List.mem_map_of_mem hm)).1.trans (if_neg hne)
    · exact (hpark (List.mem_map_of_mem hm)).2.trans (by rw [ht.warp])

/-! ## The instructions -/

theorem eqBad_none {o : Op} {q : QLine} {sq n : Nat} (hq : q.bad = false) (h0 : 0 < n) (hn : n ≤ q.set_.nslot)
    (hp : o = .eqPub → q.pubh ≤ sq ∧ sq + n ≤ q.res) (hf : o = .eqFree → q.freed ≤ sq ∧ sq + n ≤ q.taken) :
    eqBad o q sq n = none := by
  unfold eqBad
  have hpub : ¬(o = .eqPub ∧ (sq < q.pubh ∨ q.res < sq + n)) := fun h => by
    obtain ⟨h1, h2⟩ := hp h.1
    omega
  have hfree : ¬(o = .eqFree ∧ (sq < q.freed ∨ q.taken < sq + n)) := fun h => by
    obtain ⟨h1, h2⟩ := hf h.1
    omega
  rw [if_neg (by simp [hq]), if_neg (by omega), if_neg hpub, if_neg hfree]

theorem edgeQueues_holds : Claims.edgeQueues := by
  refine ⟨?_, ?_, ?_, ?_, ?_⟩
  · intro a s s2 g l q h s0 n hq h0 hn
    have hb : eqBad .eqResv q (s0.sval g (srcA a)).toNat n = none :=
      eqBad_none hq.good h0 hn (fun h => by cases h) fun h => by cases h
    obtain ⟨hacts, hwaits⟩ := h.eqActsOrWaits (.inl rfl) rfl hq rfl rfl hb (some q.res) fun x hx =>
      ⟨.inl rfl, (Option.some.inj hx).symm⟩
    exact ⟨fun h => hacts (decide_eq_true h), fun h => hwaits (decide_eq_false (Nat.not_le.2 h))⟩
  · intro a s s2 g l q h s0 n hq h0 hn
    have hb : eqBad .eqTake q (s0.sval g (srcA a)).toNat n = none :=
      eqBad_none hq.good h0 hn (fun h => by cases h) fun h => by cases h
    obtain ⟨hacts, hwaits⟩ := h.eqActsOrWaits (.inr (.inr (.inl rfl))) rfl hq rfl rfl hb (some q.taken) fun x hx =>
      ⟨.inr rfl, (Option.some.inj hx).symm⟩
    exact ⟨fun h => hacts (decide_eq_true h), fun h => hwaits (decide_eq_false (Nat.not_le.2 h))⟩
  · intro a s s2 g l q h s0 sq n hq h0 hn hlo hhi
    have hb : eqBad .eqPub q sq n = none := eqBad_none hq.good h0 hn (fun _ => ⟨hlo, hhi⟩) fun h => by cases h
    obtain ⟨hacts, hwaits⟩ := h.eqActsOrWaits (.inr (.inl rfl)) rfl hq rfl rfl hb none fun x hx => by cases hx
    exact ⟨fun h => hacts (beq_iff_eq.2 h), fun h => hwaits (beq_eq_false_iff_ne.2 h)⟩
  · intro a s s2 g l q h s0 sq n hq h0 hn hlo hhi
    have hb : eqBad .eqFree q sq n = none := eqBad_none hq.good h0 hn (fun h => by cases h) fun _ => ⟨hlo, hhi⟩
    obtain ⟨hacts, hwaits⟩ := h.eqActsOrWaits (.inr (.inr (.inr rfl))) rfl hq rfl rfl hb none fun x hx => by cases hx
    exact ⟨fun h => hacts (beq_iff_eq.2 h), fun h => hwaits (beq_eq_false_iff_ne.2 h)⟩
  · intro a s s1 s2 g ent l q h s0 hent hplace hown hblk hread hq
    have he : effEqStat a s0 g = .next (s2.putSeen g a.d.toNat (q.stat a.sub.toNat) none) := by
      rw [State.putSeen_eq]
      unfold effEqStat
      simp only [hent, hplace, hown, hblk, hread, hq]
      rfl
    have h1 := State.traffic_linePlace (P := fun _ => True) s0 (leaderOf g) false ent.ctrl fun _ _ => trivial
    rw [hplace] at h1
    have h2 := State.traffic_readLine (P := fun _ => True) s1 g ent.ctrl l 64 fun _ _ => trivial
    rw [hread] at h2
    have ht := h1.trans h2
    obtain ⟨hn, hl, -⟩ := h.grpOk
    have hl2 : ∀ v ∈ g.ws, (mfind s2.warps v).isSome := fun v hv => by
      obtain ⟨m, hm, rfl⟩ := List.mem_map.1 hv
      rw [ht.listed]
      exact hl m hm
    refine ⟨_, h.completes rfl he fun v => (State.putSeen_listed ..).trans (ht.listed v), fun m hm => ?_⟩
    have hmem : m.1 ∈ g.ws := List.mem_map_of_mem hm
    rw [State.putSeen_warp hn hl2, if_pos hmem, Warp.putS_sget, if_pos rfl]
    rfl

/-! ## The end of a wait -/

section
variable {s s1 : State} {w sq n : Nat} {g : Grp} {o : Op} {a : Args} {set_ : QSet}
  (hp : (s.warp w).park = .eqWait g o a sq n set_) (hk : s.waitKept w = false)
include hp hk

theorem exec_eqWaitSatisfied_traps {x : Trap} (hl : s.lineAgain g o a 32 = (s1, .error x)) :
    exec (.eqWaitSatisfied w) s = .next (s1.trapSet g.ws x) := by
  change execEqWaitSatisfied w s = _
  unfold execEqWaitSatisfied
  simp only [hp, hk, hl]
  rfl

theorem exec_eqWaitSatisfied {l : Nat} {q0 : QLine} (hl : s.lineAgain g o a 32 = (s1, .ok (l, q0)))
    (hh : s.atomHeld w (span l 64) = false) :
    exec (.eqWaitSatisfied w) s = if QLine.ready { q0 with set_ } o sq n then
      .next ((s1.eqAct g o a l { q0 with set_ } n).pass g (argBytes a)) else .next s := by
  change execEqWaitSatisfied w s = _
  unfold execEqWaitSatisfied
  simp only [hp, hk, hl, hh, Bool.not_false, Bool.and_true]
  rfl

end

theorem queueWake_holds : Claims.queueWake := by
  intro s s1 w sq n g o a set_ hp hk
  refine ⟨fun x hl => exec_eqWaitSatisfied_traps hp hk hl, ?_⟩
  intro l q0 hl hh hn hlist ho q
  have he := exec_eqWaitSatisfied hp hk hl hh
  refine ⟨fun hr => ?_, fun hr => ?_⟩
  · rw [if_neg (by rw [hr]; exact Bool.false_ne_true)] at he
    exact he
  · rw [if_pos hr] at he
    have hl1 : ∀ v ∈ g.ws, (mfind s1.warps v).isSome := fun v hv => by
      obtain ⟨m, hm, rfl⟩ := List.mem_map.1 hv
      exact hlist m hm
    have ho : EqActs o := by simpa [EqActs] using ho
    have hacted := State.eqAct_acted s1 g a l q n ho hn hl1
    have hw : ∀ v ∈ g.ws, ((s1.eqAct g o a l q n).pass g (argBytes a)).warp v =
        { ((s1.eqAct g o a l q n).warp v).advance (argBytes a) with park := .none } := fun v hv => by
      unfold State.pass
      rw [State.modWarps_warp hn _ fun w hw => by rw [hacted.listed]; exact hl1 w hw, if_pos hv]
    refine ⟨_, he, fun m hm => ?_, fun hans m hm => ?_⟩
    · rw [hw m.1 (List.mem_map_of_mem hm)]
      exact ⟨congrArg (· + BitVec.ofNat 64 (argBytes a)) (hacted.pc m.1), rfl⟩
    · rw [hw m.1 (List.mem_map_of_mem hm)]
      refine (hacted.answer hans m.1 (List.mem_map_of_mem hm)).trans ?_
      rcases hans with rfl | rfl <;> rfl

/-- Settles O36: the `EQ` instructions by whether the counts let them act, at issue and when their wait ends. -/
theorem edgeQueues : Obligations.EdgeQueues := ⟨edgeQueues_holds, queueWake_holds⟩

end Sys2Proof.Machine

/-! SUPPORT. `ATOM` (spec/08 R197, R198): what its lanes leave, and one element at home. -/

namespace Sys2Proof.Machine

open Claims (RowsKnown NoULines atomicNew)

/-! ## One element at home -/

/-- The state in which an atomic's element is read at its home. -/
def State.atomHome (s : State) (w : Nat) (ls : List Nat) : State :=
  ((s.flushOwn w s.nextId ls).dropL1 (s.coreOf w) (dramLines ls).contains).carry w true ls

theorem State.traffic_atomHome {P : Nat → Prop} (s : State) (w : Nat) (ls : List Nat) (h : ∀ l, s.OnItsWay l → P l) :
    State.Traffic P s (s.atomHome w ls) :=
  (traffic_flushOwn s w s.nextId ls h).trans ((traffic_dropL1 _ (s.coreOf w) (dramLines ls).contains).trans (traffic_carry _ w true ls))

/-- An atomic on one element: what it reads at home decides what it writes there and answers. -/
theorem State.atomElem_eq (s : State) (w : Nat) (a : Args) (n : Nat) (b c p : Word) (rmt : Bool) (ls : List Nat) :
    s.atomElem w a n b c p rmt ls =
      (let q := (s.atomHome w ls).peekHome 0 ls
      let s2 := q.1.hasRead [w] q.2
      match q.2.poison ls with
      | some k => (s2, lowBytes n (poisonPattern n), some ⟨p, 0x80 + 16 * k, 0x14⟩, 0)
      | none =>
        let x := atomNew a (s.warp w).fpmode n (q.2.value ls) b c
        if a.func == 0x11 && lowBytes n (q.2.value ls) != lowBytes n c then (s2, atomOld a n (q.2.value ls), none, x.2)
        else (s2.performPiece { s2.writer [w] with rmt } true 0 (ls.zip (bytesOf n x.1)), atomOld a n (q.2.value ls), none, x.2)) :=
  rfl

theorem State.traffic_atomElem {P : Nat → Prop} (s : State) (w : Nat) (a : Args) (n : Nat) (b c p : Word) (rmt : Bool) (ls : List Nat)
    (h : ∀ l, s.OnItsWay l → P l) (hl : ∀ l ∈ ls, P l) : State.Traffic P s (s.atomElem w a n b c p rmt ls).1 := by
  have h1 := s.traffic_atomHome w ls h
  rw [atomElem_eq]
  dsimp only
  generalize s.atomHome w ls = s0 at h1 ⊢
  have h2 := (h1.then h fun h1 => traffic_peekHome s0 0 ls h1).trans (traffic_hasRead _ [w] (s0.peekHome 0 ls).2)
  split
  · exact h2
  · split
    · exact h2
    · exact h2.trans (traffic_performPiece _ _ _ _ _ fun e he => hl _ (mem_zip_left he))

/-! ## The lanes -/

/-- A lane of an atomic that acts in plain memory. -/
def plainAt (e : Nat × List Place) : Nat × AtomAt := (e.1, .here (memLocs e.2) false)

theorem State.atomAts_plain {ps : List (Nat × List Place)} (hp : PlainPlaces ps) (s : State) (w : Nat) (addr : Nat → Word) :
    s.atomAts w addr ps = (s, ps.map plainAt) := by
  induction ps with
  | nil => rfl
  | cons e ps ih =>
    obtain ⟨l, qs⟩ := e
    have ih := ih fun e he => hp e (List.mem_cons_of_mem _ he)
    cases qs with
    | nil =>
      unfold atomAts
      simp only [ih]
      rfl
    | cons q qs =>
      obtain ⟨k, rfl⟩ := hp _ (List.mem_cons_self ..) q (List.mem_cons_self ..)
      unfold atomAts
      simp only [ih]
      rfl

theorem atomLocs_plain (ps : List (Nat × List Place)) : atomLocs (ps.map plainAt) = lanesLocs ps := by
  rw [atomLocs, List.flatMap_map]
  rfl

theorem State.traffic_atomLanes {P : Nat → Prop} (free w : Nat) (a : Args) (n : Nat) (addr b c : Nat → Word)
    {ps : List (Nat × List Place)} (hl : ∀ l ∈ lanesLocs ps, P l) (s : State) (h : ∀ l, s.OnItsWay l → P l) :
    State.Traffic P s (s.atomLanes free w a n addr b c (ps.map plainAt)).1 ∧
      (s.atomLanes free w a n addr b c (ps.map plainAt)).2.1.map (·.lane) = ps.map (·.1 % 32) := by
  induction ps generalizing s with
  | nil => exact ⟨.refl s, rfl⟩
  | cons e ps ih =>
    have he := s.traffic_atomElem (P := P) w a n (b e.1) (c e.1) (addr e.1) false (memLocs e.2) h fun l hm =>
      hl l (List.mem_flatMap.2 ⟨e, List.mem_cons_self .., hm⟩)
    obtain ⟨ht, hv⟩ := ih (fun l hm => hl l (List.mem_flatMap.2 (by
      obtain ⟨x, hx, hm⟩ := List.mem_flatMap.1 hm
      exact ⟨x, List.mem_cons_of_mem _ hx, hm⟩))) _ fun l hw => h l (he.way l hw)
    rw [List.map_cons]
    unfold plainAt atomLanes
    exact ⟨he.trans ht, congrArg (e.1 % 32 :: ·) hv⟩

/-! ## The instruction -/

theorem State.traffic_atomPlaces {P : Nat → Prop} (s : State) (g : Grp) (a : Args) (h : ∀ l, s.OnItsWay l → P l) :
    State.Traffic P s (s.atomPlaces g a).1 := by
  have ht := traffic_accPlaces (P := P) (leaderOf g) a false true (atomSize a.ty) (s.accAddr g a)
    ((s.accLanes g a).takeWhile fun l => (atomTrap (atomSize a.ty) (s.accAddr g a l)).isNone) s h
  unfold atomPlaces
  dsimp only
  split
  next heq => rw [heq] at ht; exact ht
  next heq =>
    rw [heq] at ht
    split <;> exact ht

/-- What the lanes of an `ATOM` in plain memory leave, with their results. -/
def State.atomRead (s s1 : State) (a : Args) (g : Grp) (ps : List (Nat × List Place)) : State × List RegVal × Nat :=
  s1.freshFree.2.atomLanes s1.free (leaderOf g) a (atomSize a.ty) (s.accAddr g a)
    (fun l => s.val (leaderOf g) (leaderOf g) l (srcB a 0)) (fun l => s.val (leaderOf g) (leaderOf g) l (srcC a)) (ps.map plainAt)

/-- The warp of an `ATOM` that awaits the old values. -/
def Warp.atomAwait (x : Warp) (a : Args) (vals : List RegVal) : Warp :=
  { (if vals.isEmpty then x else x.await (dstReg a.kd a.d.toNat)) with ldCnt := x.ldCnt + 1 }

theorem Warp.atomAwait_eq (x : Warp) (a : Args) (vals : List RegVal) :
    x.atomAwait a vals = { x with ldCnt := x.ldCnt + 1, busy := (x.atomAwait a vals).busy } := by
  unfold atomAwait
  split <;> rfl

/-- What an `ATOM` in plain memory leaves at issue. -/
def State.atomDone (s s1 : State) (a : Args) (g : Grp) (ps : List (Nat × List Place)) : State :=
  let q := s.atomRead s1 a g ps
  { q.1.fresh.2.traceLane (leaderOf g) 5 g a with
    pend := mins (q.1.fresh.2.traceLane (leaderOf g) 5 g a).pend q.1.nextId (.result (leaderOf g) q.2.1 q.2.2 true)
    }.modWarp (leaderOf g) fun x => x.atomAwait a q.2.1

theorem effAtom_plain {s s1 : State} {a : Args} {g : Grp} {ps : List (Nat × List Place)} (h : s.atomPlaces g a = (s1, .ok ps))
    (hc : (s.warp (leaderOf g)).ldCnt < 255) (hh : s1.atomHeld (leaderOf g) (lanesLocs ps) = false) (hp : PlainPlaces ps) :
    effAtom a s g = .next (s.atomDone s1 a g ps) := by
  unfold effAtom
  simp only [h, State.atomAts_plain hp, atomLocs_plain, hh, Nat.not_le.2 hc, decide_false, Bool.or_self, Bool.false_eq_true, if_false,
    State.farOf_plain hp]
  rfl

/-- `ATOM` in plain memory: it awaits the old values of its lanes, and changes only their elements. -/
theorem atomics_issue {a : Args} {s s1 : State} {g : Grp} {ps : List (Nat × List Place)} (h : s.IssuesPlain .atom a g)
    (hps : (s.opened .atom a g).atomPlaces g a = (s1, .ok ps)) (hc : ((s.opened .atom a g).warp (leaderOf g)).ldCnt < 255)
    (hh : s1.atomHeld (leaderOf g) (lanesLocs ps) = false) (hp : PlainPlaces ps) :
    ∃ r id vals fl, Completes (.atom a) a g s r ∧ mfind r.pend id = some (.result (leaderOf g) vals fl true) ∧
      vals.map (·.lane) = ps.map (·.1 % 32) ∧
      State.Accessed (fun l => (s.opened .atom a g).OnItsWay l ∨ l ∈ lanesLocs ps) (onWarp (leaderOf g) fun x =>
        { x with ldCnt := x.ldCnt + 1, busy := (r.warp (leaderOf g)).busy }) (s.opened .atom a g) r ∧
      (ps ≠ [] → dstReg a.kd a.d.toNat ∈ (r.warp (leaderOf g)).busy) := by
  have hl := h.leader_listed
  have he := effAtom_plain hps hc hh hp
  have hcomp (r : State) := h.completes (i := .atom a) (eff := effAtom a) (r := r) rfl
  generalize s.opened .atom a g = s0 at hps hl he hcomp ⊢
  set P : Nat → Prop := fun l => s0.OnItsWay l ∨ l ∈ lanesLocs ps
  have h1 : State.Traffic P s0 s1 := by
    have := s0.traffic_atomPlaces (P := P) g a fun _ => .inl
    rwa [hps] at this
  obtain ⟨hread, hlanes⟩ := State.traffic_atomLanes (P := P) s1.free (leaderOf g) a (atomSize a.ty) (s0.accAddr g a)
    (fun l => s0.val (leaderOf g) (leaderOf g) l (srcB a 0)) (fun l => s0.val (leaderOf g) (leaderOf g) l (srcC a))
    (ps := ps) (fun _ => .inr) s1.freshFree.2 fun l hw => .inl (h1.way l hw)
  have ht : State.Traffic P s0 (s0.atomRead s1 a g ps).1.fresh.2 :=
    ((h1.trans (State.traffic_free s1 (s1.free + 1))).trans hread).trans (State.traffic_fresh _)
  have hlr : (mfind ((s0.atomRead s1 a g ps).1.fresh.2.traceLane (leaderOf g) 5 g a).warps (leaderOf g)).isSome := by
    rw [State.traceLane_rest]
    exact (ht.listed _).trans hl
  have hwarp : (s0.atomDone s1 a g ps).warp (leaderOf g) =
      ((s0.atomRead s1 a g ps).1.fresh.2.warp (leaderOf g)).atomAwait a (s0.atomRead s1 a g ps).2.1 := by
    refine (State.modWarp_self _ hlr).trans ?_
    rw [State.traceLane_rest]
    rfl
  refine ⟨_, _, _, _, hcomp _ he fun v => ?_, mfind_mins_self .., hlanes, ?_, fun hne => ?_⟩
  · refine (State.modWarp_listed ..).trans ?_
    rw [State.traceLane_rest]
    exact ht.listed v
  · refine ht.accessedOn (State.traced_traceLane ..) _ hl ⟨?_⟩
    rw [hwarp, Warp.atomAwait_eq, ht.warp]
  · rw [hwarp]
    unfold Warp.atomAwait
    have hv : (s0.atomRead s1 a g ps).2.1.isEmpty = false := by
      have hlen := congrArg List.length hlanes
      rw [List.length_map, List.length_map] at hlen
      rw [Bool.eq_false_iff, ne_eq, List.isEmpty_iff]
      intro h0
      refine hne (List.length_eq_zero_iff.1 (hlen.symm.trans ?_))
      exact congrArg List.length h0
    rw [hv]
    exact List.mem_cons_self ..

/-! ## An integer element in a vault -/

theorem lowBytes_eight (x : Word) : lowBytes 8 x = x := by
  unfold lowBytes
  rw [Nat.mod_eq_of_lt x.isLt]
  exact BitVec.ofNat_toNat .. |>.trans (BitVec.setWidth_eq x)

theorem elemAt_whole (x : Word) : elemAt x 64 0 = x.toNat := by
  unfold elemAt
  rw [Nat.mul_zero, Nat.pow_zero, Nat.div_one, Nat.mod_eq_of_lt x.isLt]

theorem ofNat_fitInt_i64 (sat : Bool) (y : Int) :
    BitVec.ofNat 64 (fitInt .i64 sat y) = BitVec.ofInt 64 (if sat then max (-(2 ^ 63)) (min (2 ^ 63 - 1) y) else y) := by
  have hw (z : Int) : BitVec.ofNat 64 ((z % (2 ^ 64 : Nat)).toNat) = BitVec.ofInt 64 z := by
    refine BitVec.eq_of_toNat_eq ?_
    rw [BitVec.toNat_ofNat, BitVec.toNat_ofInt]
    omega
  have hm : min (max y (-(2 ^ 63 : Nat))) ((2 ^ 63 : Nat) - 1) = max (-(2 ^ 63)) (min (2 ^ 63 - 1) y) := by omega
  unfold fitInt
  cases sat with
  | false => exact hw y
  | true => exact (hw _).trans (congrArg _ hm)

/-- The combination of two I64 elements by an integer operation of Table 6.4. -/
theorem redValue_i64 {f : Nat} {op : Int → Int → Int} {fp : Word} {rnd : Rnd} {sat : Bool}
    (h : ∀ x y, redElem f .i64 fp rnd sat x y = (fitInt .i64 sat (op (readInt true 64 x) (readInt true 64 y)), 0)) (x y : Word) :
    redValue f .i64 fp rnd sat 8 x y = (BitVec.ofNat 64 (fitInt .i64 sat (op x.toInt y.toInt)), 0) := by
  have hlt := fitInt_lt .i64 sat (op x.toInt y.toInt)
  unfold redValue
  dsimp only
  change (packElems 64 [(redElem f .i64 fp rnd sat (elemAt x 64 0) (elemAt y 64 0)).1],
    (0 : Nat) ||| (redElem f .i64 fp rnd sat (elemAt x 64 0) (elemAt y 64 0)).2) = _
  rw [h, elemAt_whole, elemAt_whole, readInt_toInt 64 x (by decide), readInt_toInt 64 y (by decide)]
  refine Prod.ext ?_ (Nat.zero_or 0)
  unfold packElems
  dsimp only
  rw [List.foldr_cons, List.foldr_nil, Nat.zero_mul, Nat.zero_add]
  exact congrArg _ (Nat.mod_eq_of_lt hlt)

theorem atomNew_exchanges {a : Args} (h : a.func.toNat = 0x10) (fp : Word) (n : Nat) (old b c : Word) :
    atomNew a fp n old b c = (b, 0) := by
  simp only [atomNew, h]

theorem atomNew_compares {a : Args} (h : a.func.toNat = 0x11) (fp : Word) (n : Nat) (old b c : Word) :
    atomNew a fp n old b c = (if lowBytes n old = lowBytes n c then b else old, 0) := by
  simp only [atomNew, h]

theorem atomNew_reduces {a : Args} {f : Nat} (h : a.func.toNat = f) (h1 : f ≠ 0x10) (h2 : f ≠ 0x11) (fp : Word) (n : Nat) (old b c : Word) :
    atomNew a fp n old b c = redValue f a.ty fp a.rnd a.sat n old b := by
  subst h
  unfold atomNew
  split
  · exact absurd ‹_› h1
  · exact absurd ‹_› h2
  · rfl

/-- The functions of `ATOM` on integers. -/
theorem atomNew_i64 {a : Args} (hty : a.ty = .i64) (hf : a.func ∈ [0x00, 0x01, 0x02, 0x10, 0x11].map (BitVec.ofNat 8)) (fp old b c : Word) :
    atomNew a fp 8 old b c = (BitVec.ofInt 64
      (if a.sat ∧ a.func = 0 then max (-(2 ^ 63)) (min (2 ^ 63 - 1) (old.toInt + b.toInt)) else atomicNew a old.toInt b.toInt c.toInt), 0) := by
  have hb := b.toInt_lt
  have hb' := b.le_toInt
  have ho := old.toInt_lt
  have ho' := old.le_toInt
  simp only [List.map_cons, List.map_nil, List.mem_cons, List.not_mem_nil, or_false] at hf
  rcases hf with h | h | h | h | h
  · rw [atomNew_reduces (f := 0) (by rw [h]; rfl) (by decide) (by decide), hty, redValue_i64 (op := (· + ·)) fun _ _ => rfl,
      ofNat_fitInt_i64]
    cases a.sat <;> simp [h, atomicNew]
  · have hm : max (-(2 ^ 63)) (min (2 ^ 63 - 1) (min old.toInt b.toInt)) = min old.toInt b.toInt := by omega
    rw [atomNew_reduces (f := 1) (by rw [h]; rfl) (by decide) (by decide), hty, redValue_i64 (op := min) fun _ _ => rfl,
      ofNat_fitInt_i64, hm]
    simp [h, atomicNew]
  · have hm : max (-(2 ^ 63)) (min (2 ^ 63 - 1) (max old.toInt b.toInt)) = max old.toInt b.toInt := by omega
    rw [atomNew_reduces (f := 2) (by rw [h]; rfl) (by decide) (by decide), hty, redValue_i64 (op := max) fun _ _ => rfl,
      ofNat_fitInt_i64, hm]
    simp [h, atomicNew]
  · rw [atomNew_exchanges (by rw [h]; rfl)]
    simp [h, atomicNew]
  · rw [atomNew_compares (by rw [h]; rfl), lowBytes_eight, lowBytes_eight]
    by_cases he : old = c
    · simp [h, atomicNew, he]
    · have hi : old.toInt ≠ c.toInt := fun hi => he (BitVec.eq_of_toInt_eq hi)
      simp [h, atomicNew, he, hi]

/-- Locations of one vault unit: none lies in device memory, and all have the same unit. -/
theorem unitsOf_vault {l : Nat} (h8 : l % 8 = 0) (hlo : 2 ^ 40 ≤ l) (hhi : l < 2 ^ 50) : unitsOf (span l 8) = [l / 64 * 64] := by
  have hu : (span l 8).map (fun k => (unitOf k).1) = List.replicate 8 (l / 64 * 64) := by
    refine List.eq_replicate_iff.2 ⟨by rw [List.length_map, length_span], fun b hb => ?_⟩
    obtain ⟨k, hk, rfl⟩ := List.mem_map.1 hb
    obtain ⟨h1, h2⟩ := mem_span.1 hk
    have hd : isDram k = false := decide_eq_false (by omega)
    rw [unitOf, hd, if_neg Bool.false_ne_true, if_pos (by omega)]
    dsimp only
    omega
  rw [unitsOf, hu, List.replicate_dedup (by decide)]

/-- A vault unit without an error that its code cannot correct gives no poison. -/
theorem State.checkReads_vault {s : State} {l : Nat} (h8 : l % 8 = 0) (hlo : 2 ^ 40 ≤ l) (hhi : l < 2 ^ 50)
    (hc : s.colSt (l / 64 * 64) = .clean ∨ ∃ i, s.colSt (l / 64 * 64) = .single i) : (s.checkReads 0 (span l 8)).2 = [] := by
  have hd : isDram (l / 64 * 64) = false := decide_eq_false (by omega)
  have hk : colKey s.island.fw (l / 64 * 64) = l / 64 * 64 := by
    rw [colKey, hd, if_neg Bool.false_ne_true, if_pos (by omega)]
    omega
  have hr : (s.checkRead 0 (l / 64 * 64)).2 = false := by
    unfold checkRead
    simp only [hd, Bool.false_eq_true, if_false, hk]
    rcases hc with hc | ⟨i, hc⟩ <;> rw [hc]
  rw [checkReads, unitsOf_vault h8 hlo hhi]
  simp [hr]

theorem State.discards_vault (s : State) {l : Nat} (h : 2 ^ 39 ≤ l) : s.discards l = false := by
  have hd : isDram l = false := decide_eq_false (by omega)
  rw [discards, hd]
  rfl

theorem State.performPiece_vault (s : State) (wr : Writer) (rmw : Bool) (src : Nat) {l : Nat} (x : Word) (h : 2 ^ 40 ≤ l) :
    ofBytes ((s.performPiece wr rmw src ((span l 8).zip (bytesOf 8 x))).mem.peek l 8) = x :=
  writePiece_value wr rmw x fun k hk => discards_vault _ (by have := (mem_span.1 hk).1; omega)

theorem dramLines_vault {l : Nat} (h : 2 ^ 40 ≤ l) : dramLines (span l 8) = [] := by
  have hf : (span l 8).filter isDram = [] := List.filter_eq_nil_iff.2 fun k hk => by
    have := (mem_span.1 hk).1
    simp [isDram]
    omega
  rw [dramLines, hf]
  rfl

/-- Where nothing is in flight, an atomic in a vault reads its element at home at once. -/
theorem State.atomHome_idle {s : State} (hp : s.pend = []) (w : Nat) {l : Nat} (h : 2 ^ 40 ≤ l) :
    s.atomHome w (span l 8) = s.carry w true (span l 8) := by
  have hf : s.flushOwn w s.nextId (span l 8) = s := by
    unfold flushOwn
    rw [if_pos (by rw [hp]; rfl)]
  have hd : s.dropL1 (s.coreOf w) ([] : List Nat).contains = s := by
    unfold dropL1
    exact if_neg (by simp)
  rw [atomHome, hf, dramLines_vault h, hd]

section
variable {s : State} {w l : Nat} {a : Args} (hp : s.pend = []) (hu : NoULines s) (h8 : l % 8 = 0) (hlo : 2 ^ 40 ≤ l) (hhi : l < 2 ^ 50)
  (hc : s.colSt (l / 64 * 64) = .clean ∨ ∃ i, s.colSt (l / 64 * 64) = .single i) (ho : s.offline (homeDie l) = false)
  (hty : a.ty = .i64)
include hp hu h8 hlo hhi hc ho hty

/-- One I64 element in a vault: the old value is answered, and the new one stands in its place (R198). -/
theorem State.atomElem_vault (hf : a.func ∈ [0x00, 0x01, 0x02, 0x10, 0x11].map (BitVec.ofNat 8)) (b c p : Word) (rmt : Bool) :
    ∃ r, s.atomElem w a 8 b c p rmt (span l 8) = (r, ofBytes (s.mem.peek l 8), none, 0) ∧
      ofBytes (r.mem.peek l 8) = (atomNew a (s.warp w).fpmode 8 (ofBytes (s.mem.peek l 8)) b c).1 := by
  obtain ⟨s0, hs0⟩ : ∃ s0, s0 = s.carry w true (span l 8) := ⟨_, rfl⟩
  have hu0 : NoULines s0 := hs0 ▸ hu
  have hb0 (k : Nat) : s0.mem.byte k = s.mem.byte k := by rw [hs0]; rfl
  have hbad : (s0.checkReads 0 (span l 8)).2 = [] := checkReads_vault h8 hlo hhi (by rw [hs0]; exact hc)
  have hq := peekHome_online hu0 (ls := span l 8) (fun k hk => by rw [homeDie_span h8 hk, hs0]; exact ho) 0
  rw [hbad, List.map_nil] at hq
  have hpoison : (s0.peekHome 0 (span l 8)).2.poison (span l 8) = none := by rw [hq]; rfl
  have hval : (s0.peekHome 0 (span l 8)).2.value (span l 8) = ofBytes (s.mem.peek l 8) := by
    rw [hq]
    exact congrArg ofBytes (List.map_congr_left fun i hi => (Rd.byte_map _ _ hi).trans (hb0 i))
  have hread (k : Nat) : ((s0.peekHome 0 (span l 8)).1.hasRead [w] (s0.peekHome 0 (span l 8)).2).mem.byte k = s.mem.byte k :=
    (((checked_peekHome hu0 0 (span l 8)).traffic.trans (traffic_hasRead (P := fun _ => False) ..)).byte k id).trans (hb0 k)
  have hold (x : Word) : atomOld a 8 x = x := by
    rw [atomOld, hty, if_neg (by decide), lowBytes_eight]
  have hnew := atomNew_i64 hty hf (s.warp w).fpmode (ofBytes (s.mem.peek l 8)) b c
  rw [atomElem_eq, atomHome_idle hp w hlo, ← hs0]
  simp only [hpoison, hval, hold, lowBytes_eight]
  split
  next hcas =>
    refine ⟨_, by rw [hnew], ?_⟩
    obtain ⟨hfunc, hne⟩ : a.func = 0x11 ∧ ofBytes (s.mem.peek l 8) ≠ c := by simpa using hcas
    rw [atomNew_compares (by rw [hfunc]; rfl), lowBytes_eight, lowBytes_eight, if_neg hne]
    exact congrArg ofBytes (List.map_congr_left fun k _ => hread k)
  next =>
    refine ⟨_, by rw [hnew], ?_⟩
    rw [hnew]
    exact performPiece_vault _ _ true 0 _ hlo

end

theorem noULines_of_all {s : State} (h : (s.cores.all fun e => e.2.uLines.isEmpty) = true) : NoULines s := fun e he =>
  List.isEmpty_iff.1 (List.all_eq_true.1 h e he)

theorem atomics_home {s : State} {w : Nat} {a : Args} {b c p : Word} {rmt : Bool} {l : Nat} (hp : s.pend = []) (hu : NoULines s)
    (h8 : l % 8 = 0) (hlo : 2 ^ 40 ≤ l) (hhi : l < 2 ^ 50)
    (hc : s.colSt (l / 64 * 64) = .clean ∨ ∃ i, s.colSt (l / 64 * 64) = .single i) (ho : s.offline (homeDie l) = false)
    (hty : a.ty = .i64) (hf : a.func ∈ [0x00, 0x01, 0x02, 0x10, 0x11].map (BitVec.ofNat 8)) :
    ∃ r, s.atomElem w a 8 b c p rmt (span l 8) = (r, ofBytes (s.mem.peek l 8), none, 0) ∧
      ofBytes (r.mem.peek l 8) = BitVec.ofInt 64
        (if a.sat ∧ a.func = 0 then max (-(2 ^ 63)) (min (2 ^ 63 - 1) ((ofBytes (s.mem.peek l 8)).toInt + b.toInt))
        else atomicNew a (ofBytes (s.mem.peek l 8)).toInt b.toInt c.toInt) ∧
      ∀ k, k ∉ span l 8 → r.mem.byte k = s.mem.byte k := by
  obtain ⟨r, hr, hv⟩ := State.atomElem_vault hp hu h8 hlo hhi hc ho hty hf (w := w) b c p rmt
  refine ⟨r, hr, by rw [hv, atomNew_i64 hty hf], fun k hk => ?_⟩
  have hway (j : Nat) : ¬s.OnItsWay j := by
    rintro (⟨i, u, hu', -⟩ | ⟨e, he, -⟩)
    · rw [noULines_core hu] at hu'
      cases hu'
    · rw [hp] at he
      cases he
  have ht := s.traffic_atomElem (P := (· ∈ span l 8)) w a 8 b c p rmt (span l 8) (fun j hj => absurd hj (hway j)) fun _ => id
  rw [hr] at ht
  exact ht.byte k hk

/-- Settles O26: `ATOM` at issue by what its lanes leave, and one element at home by the value that it reads there. -/
theorem atomics : Obligations.Atomics := by
  refine ⟨?_, ?_⟩
  · intro a s s1 g ps h s0 w hps hc hh hp
    exact atomics_issue h hps hc hh hp
  · intro s w a b c p rmt l hp hu h8 hlo hhi hc ho hty hf
    exact atomics_home hp (noULines_of_all hu) h8 hlo hhi hc ho hty hf

end Sys2Proof.Machine

/-! SUPPORT. `RED` (spec/08 R199, R200): what its lanes leave, in update-only lines or at home. -/

namespace Sys2Proof.Machine

/-! ## Traffic that may put more on its way -/

/-- What reductions change: as `Traffic`, but that more may be on its way afterwards, to the locations `P` only. -/
structure State.Reduces (P : Nat → Prop) (s r : State) : Prop where
  rest   : r = { s with nextId := r.nextId, free := r.free, mem := r.mem, warps := r.warps, cores := r.cores,
                        dies := r.dies, chans := r.chans, held := r.held, pend := r.pend }
  warp   : ∀ w, r.warp w = { s.warp w with
             floors := (r.warp w).floors, rmtFl := (r.warp w).rmtFl, seen := (r.warp w).seen, rels := (r.warp w).rels,
             stCnt := (r.warp w).stCnt, late := (r.warp w).late }
  listed : ∀ w, (mfind r.warps w).isSome = (mfind s.warps w).isSome
  core   : ∀ k, r.core k = { s.core k with uLines := (r.core k).uLines, l1 := (r.core k).l1, l1Err := (r.core k).l1Err }
  die    : ∀ d, r.die d = { s.die d with ecc := (r.die d).ecc }
  byte   : ∀ l, ¬P l → r.mem.byte l = s.mem.byte l
  wf     : s.mem.wf = true → r.mem.wf = true
  way    : (∀ l, s.OnItsWay l → P l) → ∀ l, r.OnItsWay l → P l

section
variable {P : Nat → Prop} {s r t u : State}

theorem State.Traffic.reduces (h : State.Traffic P s r) : State.Reduces P s r :=
  { h with way := fun hp l hl => hp l (h.way l hl) }

theorem State.Reduces.trans (h : State.Reduces P s r) (h' : State.Reduces P r t) : State.Reduces P s t where
  rest := by
    have e := h'.rest
    rw [h.rest] at e
    exact e
  warp w := by
    have e := h'.warp w
    rw [h.warp w] at e
    exact e
  listed w := (h'.listed w).trans (h.listed w)
  core k := by
    have e := h'.core k
    rw [h.core k] at e
    exact e
  die d := by
    have e := h'.die d
    rw [h.die d] at e
    exact e
  byte l hl := (h'.byte l hl).trans (h.byte l hl)
  wf x := h'.wf (h.wf x)
  way hp := h'.way (h.way hp)

theorem State.modWarp_stCnt (s : State) (w : Nat) (f : Nat → Nat) (v : Nat) :
    (s.modWarp w fun x => { x with stCnt := f x.stCnt }).warp v =
      { s.warp v with stCnt := ((s.modWarp w fun x => { x with stCnt := f x.stCnt }).warp v).stCnt } :=
  modWarps_keeps (R := fun x y => y = { x with stCnt := y.stCnt }) (fun _ => rfl)
    (fun h h' => by rw [h] at h'; exact h') (f := fun x => { x with stCnt := f x.stCnt }) (fun _ => rfl) [w] v s

/-- Reductions with a record of the trace ring, and what is in flight counted in a warp. -/
theorem State.Reduces.accessed (h : State.Reduces P s t) (hu : State.Traced t u) (m : SMap Pend) (w : Nat) :
    State.Accessed P (fun _ x => x) s ({ u with pend := m }.modWarp w fun x => { x with stCnt := x.stCnt + 1 }) where
  rest := by
    rw [hu.rest, h.rest]
    rfl
  warp j := by
    have e := modWarp_stCnt { u with pend := m } w (· + 1) j
    have hw : State.warp { u with pend := m } j = t.warp j := by rw [hu.rest]; rfl
    rw [hw] at e
    have hj := h.warp j
    generalize State.warp (State.modWarp { u with pend := m } w _) j = x at e ⊢
    rw [e, hj]
  core j := by
    have e := hu.core j
    have hc := h.core j
    change u.core j = _
    generalize hr : State.core (State.modWarp { u with pend := m } w _) j = c
    obtain rfl : u.core j = c := hr
    generalize u.core j = c at e ⊢
    rw [e, hc]
  die d := by
    rw [hu.rest]
    exact h.die d
  byte l hl := by
    rw [hu.rest]
    exact h.byte l hl
  wf x := by
    rw [hu.rest]
    exact h.wf x

end

/-! ## One element -/

/-- The state in which an element is combined into a U line: other copies of the line have gone home. -/
def State.redReady (s : State) (w : Nat) (a : Args) (n l : Nat) : State :=
  let s := s.flushOwn w s.nextId (span l n)
  s.flushWhere fun c u => u.line == l / 128 &&
    !((u.line == l / 128 && u.func == a.func.toNat && u.ty == a.ty) && !(c == s.coreOf w && Config.redPick s.free % 2 == 1))

/-- Whether a U line takes the reductions of an instruction to a line. -/
def ULine.takes (u : ULine) (a : Args) (l : Nat) : Bool := u.line == l / 128 && u.func == a.func.toNat && u.ty == a.ty

/-- The U line that an element is combined into: the core's own, else a fresh one. -/
def State.redInto (s : State) (k : Nat) (a : Args) (l : Nat) : ULine :=
  ((s.core k).uLines.find? (·.takes a l)).getD { line := l / 128, func := a.func.toNat, ty := a.ty, rnd := a.rnd, sat := a.sat }

/-- A U line with one more contribution. -/
def ULine.combine (u : ULine) (w : Nat) (a : Args) (fp : Word) (n : Nat) (x : Word) (l : Nat) : ULine :=
  let old := (mfind u.vals l).getD (replicate a.ty.width (8 * n / a.ty.width) (redIdent a.func.toNat a.ty fp))
  { u with
    vals := mins u.vals l (redValue a.func.toNat a.ty fp a.rnd a.sat n old x).1
    by_ := mins u.by_ l (mget [] u.by_ l ++ [w]).dedup, rnd := rndOf fp a.rnd, sat := a.sat, fp }

theorem State.redLine_eq (s : State) (w : Nat) (a : Args) (n : Nat) (x : Word) (l : Nat) :
    s.redLine w a n x l =
      (s.redReady w a n l).modCore ((s.flushOwn w s.nextId (span l n)).coreOf w) fun c =>
        { c with uLines := c.uLines.filter (fun v => !v.takes a l) ++
          [((s.redReady w a n l).redInto ((s.flushOwn w s.nextId (span l n)).coreOf w) a l).combine w a
            ((s.redReady w a n l).warp w).fpmode n x l] } := rfl

theorem State.traffic_redReady {P : Nat → Prop} (s : State) (w : Nat) (a : Args) (n l : Nat) (h : ∀ l, s.OnItsWay l → P l) :
    State.Traffic P s (s.redReady w a n l) :=
  (traffic_flushOwn s w s.nextId (span l n) h).then h fun h1 => traffic_flushWhere _ _ h1

/-- The U line that takes an element is of the instruction's type, and its own elements are on their way already. -/
theorem State.redInto_way {s : State} {k : Nat} {a : Args} {l : Nat} :
    (s.redInto k a l).ty = a.ty ∧ ∀ e ∈ (s.redInto k a l).vals, ∀ j ∈ span e.1 (atomSize a.ty), s.OnItsWay j := by
  unfold redInto
  cases hf : (s.core k).uLines.find? (·.takes a l) with
  | none => exact ⟨rfl, fun _ he => absurd he List.not_mem_nil⟩
  | some u =>
    have hty : u.ty = a.ty := by
      have ht := List.find?_some hf
      simp only [ULine.takes, Bool.and_eq_true, beq_iff_eq] at ht
      exact ht.2
    refine ⟨hty, fun e he j hj => .inl ⟨k, u, List.mem_of_find?_eq_some hf, e, he, ?_⟩⟩
    rw [hty]
    exact hj

/-- Combining an element into a U line puts it on its way, and changes the line of its core only. -/
theorem State.reduces_combined {P : Nat → Prop} {s : State} (k : Nat) (a : Args) (l w n : Nat) (fp x : Word)
    (h : ∀ l, s.OnItsWay l → P l) (hl : ∀ j ∈ span l (atomSize a.ty), P j) :
    State.Reduces P s (s.modCore k fun c =>
      { c with uLines := c.uLines.filter (fun v => !v.takes a l) ++ [(s.redInto k a l).combine w a fp n x l] }) where
  rest := rfl
  warp _ := rfl
  listed _ := rfl
  core j := by
    rw [modCore_core]
    split
    · subst j
      rfl
    · rfl
  die _ := rfl
  byte _ _ := rfl
  wf := id
  way _ j hj := by
    rcases hj with ⟨i, u, hu, e, he, hje⟩ | hp
    · rw [modCore_core] at hu
      split at hu
      next hi =>
        subst hi
        rcases List.mem_append.1 hu with hu | hu
        · exact h j (.inl ⟨i, u, (List.mem_filter.1 hu).1, e, he, hje⟩)
        · obtain rfl := List.mem_singleton.1 hu
          obtain ⟨hty, hway⟩ := s.redInto_way (k := i) (a := a) (l := l)
          have hje : j ∈ span e.1 (atomSize a.ty) := by
            rw [← hty]
            exact hje
          rcases mem_mins he with rfl | he
          · exact hl j hje
          · exact h j (hway e he j hje)
      next => exact h j (.inl ⟨i, u, hu, e, he, hje⟩)
    · exact h j (.inr hp)

theorem State.reduces_redLine {P : Nat → Prop} (s : State) (w : Nat) (a : Args) (x : Word) (l : Nat)
    (h : ∀ l, s.OnItsWay l → P l) (hl : ∀ j ∈ span l (atomSize a.ty), P j) :
    State.Reduces P s (s.redLine w a (atomSize a.ty) x l) := by
  have ht := s.traffic_redReady (P := P) w a (atomSize a.ty) l h
  rw [redLine_eq]
  exact ht.reduces.trans (reduces_combined _ a l w _ _ x (fun j hj => h j (ht.way j hj)) hl)

theorem State.traffic_combineHome {P : Nat → Prop} (s : State) (wr : Writer) (a : Args) (fp x : Word) (ls : List Nat)
    (h : ∀ l, s.OnItsWay l → P l) (hl : ∀ l ∈ ls, P l) : State.Traffic P s (s.combineHome wr a fp x ls) := by
  have h1 := (traffic_carry s (wr.ws.headD 0) true ls).then h fun h1 => traffic_peekHome _ 0 ls h1
  unfold combineHome
  dsimp only
  generalize (s.carry (wr.ws.headD 0) true ls).peekHome 0 ls = q at h1 ⊢
  split
  · exact h1
  · exact h1.trans (traffic_performPiece _ _ _ _ _ fun e he => hl _ (mem_zip_left he))

theorem State.traffic_redHome {P : Nat → Prop} (s : State) (id w : Nat) (a : Args) (x p : Word) (rmt : Bool) (ls : List Nat)
    (h : ∀ l, s.OnItsWay l → P l) (hl : ∀ l ∈ ls, P l) : State.Traffic P s (s.redHome id w a x p rmt ls) := by
  have h1 := traffic_flushOwn s w id ls h
  unfold redHome
  dsimp only
  split
  · exact h1.then h fun h1 => traffic_combineHome _ _ a _ x ls h1 hl
  · exact h1.trans (traffic_held ..)

/-! ## The lanes -/

theorem State.reduces_redLanes {P : Nat → Prop} (free id w : Nat) (a : Args) (addr b : Nat → Word) {ps : List (Nat × List Place)}
    (hl : ∀ e ∈ ps, ∀ l, l ∈ memLocs e.2 ∨ l ∈ span ((memLocs e.2).headD 0) (atomSize a.ty) → P l) (s : State)
    (h : ∀ l, s.OnItsWay l → P l) :
    State.Reduces P s (s.redLanes free id w a (atomSize a.ty) addr b (ps.map plainAt)).1 := by
  induction ps generalizing s with
  | nil => exact (State.Traffic.refl s).reduces
  | cons e ps ih =>
    have he := hl e (List.mem_cons_self ..)
    have ih := ih fun e he => hl e (List.mem_cons_of_mem _ he)
    rw [List.map_cons]
    unfold plainAt redLanes
    dsimp only
    split
    · exact ih s h
    · split
      · have h1 := s.reduces_redLine (P := P) w a (b e.1) ((memLocs e.2).headD 0) h fun j hj => he j (.inr hj)
        exact h1.trans (ih _ (h1.way h))
      · have h1 := (s.traffic_redHome (P := P) id w a (b e.1) (addr e.1) false (memLocs e.2) h fun j hj => he j (.inl hj)).reduces
        exact h1.trans (ih _ (h1.way h))

/-! ## The instruction -/

/-- What the lanes of a `RED` in plain memory leave, with their late fault. -/
def State.redMade (s s1 : State) (a : Args) (g : Grp) (ps : List (Nat × List Place)) : State × Option (Nat × Nat × Word) :=
  s1.freshFree.2.fresh.2.redLanes s1.free s1.nextId (leaderOf g) a (atomSize a.ty) (s.accAddr g a)
    (fun l => s.val (leaderOf g) (leaderOf g) l (srcB a 0)) (ps.map plainAt)

/-- What a `RED` in plain memory leaves at issue. -/
def State.redDone (s s1 : State) (a : Args) (g : Grp) (ps : List (Nat × List Place)) : State :=
  let u := (s.redMade s1 a g ps).1.traceLane (leaderOf g) 5 g a
  { u with
    pend := mins u.pend s1.nextId (.store (leaderOf g) ((s.accLanes g a).any fun l => spaceOf (s.accAddr g a l) == 7)
      (s.redMade s1 a g ps).2 none) }.modWarp (leaderOf g) fun x => { x with stCnt := x.stCnt + 1 }

theorem effRed_plain {s s1 : State} {a : Args} {g : Grp} {ps : List (Nat × List Place)} (h : s.atomPlaces g a = (s1, .ok ps))
    (hc : (s.warp (leaderOf g)).stCnt < 255) (hb : s1.blocked (leaderOf g) s1.nextId (lanesLocs ps) = false) (hp : PlainPlaces ps) :
    effRed a s g = .next (s.redDone s1 a g ps) := by
  unfold effRed
  simp only [h, State.atomAts_plain hp, atomLocs_plain, hb, Nat.not_le.2 hc, decide_false, Bool.or_self, Bool.false_eq_true, if_false,
    State.farOf_plain hp]
  rfl

/-- `RED` in plain memory: it awaits no result, and changes only the elements that it addresses. -/
theorem reduceToMemory_issue {a : Args} {s s1 : State} {g : Grp} {ps : List (Nat × List Place)} (h : s.IssuesPlain .red a g)
    (hps : (s.opened .red a g).atomPlaces g a = (s1, .ok ps)) (hc : ((s.opened .red a g).warp (leaderOf g)).stCnt < 255)
    (hb : s1.blocked (leaderOf g) s1.nextId (lanesLocs ps) = false) (hp : PlainPlaces ps) :
    ∃ r id far late, Completes (.red a) a g s r ∧ mfind r.pend id = some (.store (leaderOf g) far late none) ∧
      State.Accessed (fun l => (s.opened .red a g).OnItsWay l ∨ l ∈ lanesLocs ps ∨
          ∃ e ∈ ps, l ∈ span ((memLocs e.2).headD 0) (atomSize a.ty)) (fun _ x => x) (s.opened .red a g) r := by
  have he := effRed_plain hps hc hb hp
  have hcomp (r : State) := h.completes (i := .red a) (eff := effRed a) (r := r) rfl
  generalize s.opened .red a g = s0 at hps he hcomp ⊢
  set P : Nat → Prop := fun l => s0.OnItsWay l ∨ l ∈ lanesLocs ps ∨ ∃ e ∈ ps, l ∈ span ((memLocs e.2).headD 0) (atomSize a.ty)
  have h1 : State.Traffic P s0 s1 := by
    have := s0.traffic_atomPlaces (P := P) g a fun _ => .inl
    rwa [hps] at this
  have h2 : State.Traffic P s0 s1.freshFree.2.fresh.2 := (h1.trans (State.traffic_free s1 (s1.free + 1))).trans (State.traffic_fresh _)
  have hr : State.Reduces P s0 (s0.redMade s1 a g ps).1 := by
    refine h2.reduces.trans (State.reduces_redLanes _ _ _ a _ _ (fun e he l hl => ?_) _ fun l hl => .inl (h2.way l hl))
    rcases hl with hl | hl
    · exact .inr (.inl (List.mem_flatMap.2 ⟨e, he, hl⟩))
    · exact .inr (.inr ⟨e, he, hl⟩)
  refine ⟨_, _, _, _, hcomp _ he fun v => ?_, mfind_mins_self .., hr.accessed (State.traced_traceLane ..) _ _⟩
  refine (State.modWarp_listed ..).trans ?_
  rw [State.traceLane_rest]
  exact hr.listed v

/-! ## A fresh update-only line -/

theorem State.flushULine_cores (s : State) (u : ULine) : (s.flushULine u).cores = s.cores := by
  unfold flushULine
  generalize u.vals = vs
  induction vs generalizing s with
  | nil => rfl
  | cons e vs ih =>
    rw [List.foldl_cons, ih]
    have hc : (s.checkReads 0 (span e.1 (atomSize u.ty))).1.cores = s.cores := by rw [(checked_checkReads s 0 _).rest]
    have hw (t : State) (wr : Writer) (n : Nat) (bs : List (Nat × Byte)) : (t.performWrite wr true 0 n bs).cores = t.cores := by
      unfold performWrite writePieces
      generalize groupBy (fun b : Nat × Byte => b.1 / n) bs = gs
      have ht : (t.checkWrites 0 (bs.map (·.1))).cores = t.cores := by rw [(checked_checkWrites t 0 _).rest]
      generalize t.checkWrites 0 (bs.map (·.1)) = t1 at ht ⊢
      rw [← ht]
      clear ht
      induction gs generalizing t1 with
      | nil => rfl
      | cons x gs ih =>
        rw [List.foldl_cons, ih, writePiece_rest]
    dsimp only
    split
    · rw [hw]
      exact hc
    · exact hc

theorem State.flushULines_cores (us : List ULine) (s : State) : (us.foldl State.flushULine s).cores = s.cores := by
  induction us generalizing s with
  | nil => rfl
  | cons u us ih => rw [List.foldl_cons, ih, flushULine_cores]

/-- A core sends the update-only lines that a test selects home. -/
def State.sendLines (s : State) (sel : Nat → ULine → Bool) (k : Nat) : State :=
  ((s.core k).uLines.filter fun u => sel k u && !s.offline (homeDie (128 * u.line))).foldl State.flushULine
    (s.modCore k fun c => { c with uLines := c.uLines.filter fun u => !(sel k u && !s.offline (homeDie (128 * u.line))) })

theorem State.flushWhere_eq (s : State) (sel : Nat → ULine → Bool) :
    s.flushWhere sel = s.uCores.foldl (fun t k => t.sendLines sel k) { s with free := s.free + s.uCores.length } := rfl

/-- Update-only lines that go home leave their cores; none comes. -/
theorem State.flushWhere_uLines (s : State) (sel : Nat → ULine → Bool) (k : Nat) {u : ULine}
    (h : u ∈ ((s.flushWhere sel).core k).uLines) : u ∈ (s.core k).uLines := by
  have hone (t : State) (i : Nat) (h : u ∈ ((t.sendLines sel i).core k).uLines) : u ∈ (t.core k).uLines := by
    unfold sendLines at h
    rw [State.core, flushULines_cores] at h
    change u ∈ ((t.modCore i _).core k).uLines at h
    rw [modCore_core] at h
    split at h
    next hi =>
      subst hi
      exact (List.mem_filter.1 h).1
    next => exact h
  have hall (ks : List Nat) : ∀ t : State, u ∈ ((ks.foldl (fun t k => t.sendLines sel k) t).core k).uLines → u ∈ (t.core k).uLines := by
    induction ks with
    | nil => exact fun _ => id
    | cons i ks ih => exact fun t h => hone t i (ih _ h)
  have hfree := hall _ { s with free := s.free + s.uCores.length } (flushWhere_eq s sel ▸ h)
  exact hfree

/-- A reduction to a line that its core holds no copy of starts one at the identity (R199). -/
theorem redLine_fresh {s : State} {w : Nat} {a : Args} {n l : Nat} (x : Word) (hp : s.pend = [])
    (hu : ∀ u ∈ (s.core (s.coreOf w)).uLines, u.line ≠ l / 128) :
    ∃ u ∈ ((s.redLine w a n x l).core (s.coreOf w)).uLines, u.line = l / 128 ∧ u.func = a.func.toNat ∧ u.ty = a.ty ∧
      u.by_ = [(l, [w])] ∧ u.rnd = rndOf (s.warp w).fpmode a.rnd ∧ u.sat = a.sat ∧ u.fp = (s.warp w).fpmode ∧
      u.vals = [(l, (redValue a.func.toNat a.ty (s.warp w).fpmode a.rnd a.sat n
        (replicate a.ty.width (8 * n / a.ty.width) (redIdent a.func.toNat a.ty (s.warp w).fpmode)) x).1)] := by
  have hf : s.flushOwn w s.nextId (span l n) = s := by
    unfold State.flushOwn
    rw [if_pos (by rw [hp]; rfl)]
  have hready : ∀ u ∈ ((s.redReady w a n l).core (s.coreOf w)).uLines, ¬u.takes a l = true := by
    intro u hm ht
    unfold State.redReady at hm
    dsimp only at hm
    rw [hf] at hm
    simp only [ULine.takes, Bool.and_eq_true, beq_iff_eq] at ht
    exact hu u (State.flushWhere_uLines s _ _ hm) ht.1.1
  have hinto : (s.redReady w a n l).redInto (s.coreOf w) a l =
      { line := l / 128, func := a.func.toNat, ty := a.ty, rnd := a.rnd, sat := a.sat } := by
    rw [State.redInto, List.find?_eq_none.2 hready]
    rfl
  have hfp : ((s.redReady w a n l).warp w).fpmode = (s.warp w).fpmode := by
    rw [(s.traffic_redReady (P := fun _ => True) w a n l fun _ _ => trivial).warp]
  rw [State.redLine_eq, hf, hinto, hfp, State.modCore_core, if_pos rfl]
  exact ⟨_, List.mem_append_right _ (List.mem_singleton_self _), rfl, rfl, rfl, rfl, rfl, rfl, rfl, rfl⟩

/-- Settles O27: `RED` at issue by what its lanes leave, and a fresh update-only line by its first element. -/
theorem reduceToMemory : Obligations.ReduceToMemory := by
  refine ⟨?_, fun s w a n x l hp hu => redLine_fresh x hp hu⟩
  intro a s s1 g ps h s0 w hps hc hb hp
  exact reduceToMemory_issue h hps hc hb hp

end Sys2Proof.Machine

/-! SUPPORT. Increments of counters (spec/08 R192 to R195, spec/21 R371): what `CSIG` leaves on its way to its counter, and what its
home performs. -/

namespace Sys2Proof.Machine

/-! ## Accesses one after another -/

section
variable {P : Nat → Prop} {s r t : State}

theorem State.Accessed.trans (h : State.Accessed P (fun _ x => x) s r) (h' : State.Accessed P (fun _ x => x) r t) :
    State.Accessed P (fun _ x => x) s t where
  rest := by
    have e := h'.rest
    rw [h.rest] at e
    exact e
  warp w := by
    have e := h'.warp w
    rw [h.warp w] at e
    exact e
  core k := by
    have e := h'.core k
    rw [h.core k] at e
    exact e
  die d := by
    have e := h'.die d
    rw [h.die d] at e
    exact e
  byte l hl := (h'.byte l hl).trans (h.byte l hl)
  wf x := h'.wf (h.wf x)

theorem State.Traffic.accesses (h : State.Traffic P s r) : State.Accessed P (fun _ x => x) s r where
  rest := h.rest
  warp := h.warp
  core k := by
    have e := h.core k
    generalize r.core k = c at e ⊢
    rw [e]
  die := h.die
  byte := h.byte
  wf := h.wf

theorem State.Traced.accesses (h : State.Traced s r) : State.Accessed P (fun _ x => x) s r where
  rest := by rw [h.rest]
  warp w := by rw [h.rest]; rfl
  core k := by
    have e := h.core k
    generalize r.core k = c at e ⊢
    rw [e]
  die d := by rw [h.rest]; rfl
  byte l _ := by rw [h.rest]
  wf x := by rw [h.rest]; exact x

end

/-! ## Posting -/

/-- No release is made, and warps write after the same ones. -/
structure State.Unreleased (s r : State) : Prop where
  rels   : r.mem.rels = s.mem.rels
  writes : ∀ v, (r.warp v).rels = (s.warp v).rels

theorem State.Raised.unreleased {s r : State} (h : State.Raised s r) : State.Unreleased s r := ⟨h.rels, h.writes⟩

theorem State.Unreleased.trans {s r t : State} (h : State.Unreleased s r) (h' : State.Unreleased r t) : State.Unreleased s t :=
  ⟨h'.rels.trans h.rels, fun v => (h'.writes v).trans (h.writes v)⟩

theorem State.Unreleased.writer {s r : State} (h : State.Unreleased s r) (ws : List Nat) : r.writer ws = s.writer ws := by
  simp only [State.writer, State.relsOfWarps, h.writes]

/-- An operation that counts in the store class of a warp is in flight. -/
def State.posted (s : State) (w id : Nat) (q : Pend) : State :=
  { s with pend := mins s.pend id q }.modWarp w fun x => { x with stCnt := x.stCnt + 1 }

theorem State.posted_pend (s : State) (w id : Nat) (q : Pend) : mfind (s.posted w id q).pend id = some q := mfind_mins_self ..

theorem State.posted_listed (s : State) (w id : Nat) (q : Pend) (v : Nat) :
    (mfind (s.posted w id q).warps v).isSome = (mfind s.warps v).isSome := modWarp_listed ..

theorem State.posted_unreleased (s : State) (w id : Nat) (q : Pend) : State.Unreleased s (s.posted w id q) :=
  ⟨rfl, (sameRels_modWarp w (s := { s with pend := mins s.pend id q }) (f := fun x => { x with stCnt := x.stCnt + 1 })
    fun _ => rfl).rels⟩

theorem State.posted_accessed {P : Nat → Prop} (s : State) (w id : Nat) (q : Pend) :
    State.Accessed P (fun _ x => x) s (s.posted w id q) :=
  (State.Traffic.refl s).reduces.accessed (.refl s) _ w

theorem State.postCsig_home (s : State) (g : Grp) (p inc : Word) (l : Nat) :
    s.postCsig g p inc (.home l) = s.fresh.2.posted (leaderOf g) s.nextId (.csig (leaderOf g) (s.writer g.ws) p l inc.toNat) := rfl

theorem State.postCsig_loop_error {s s2 : State} {g : Grp} {p : Word} {vas : List Nat} {e : XFault}
    (h : s.fresh.2.loopPlaces (s.warp (leaderOf g)).ctx true p vas = (s2, .error e)) (inc : Word) :
    s.postCsig g p inc (.loop vas) =
      s2.posted (leaderOf g) s.nextId (.store (leaderOf g) true (some (e.code, e.detail ||| 1, p)) none) := by
  unfold postCsig
  dsimp only
  change (match s.fresh.2.loopPlaces (s.warp (leaderOf g)).ctx true p vas with | (s2, .error e) => _ | (s2, .ok ls) => _) = _
  rw [h]
  rfl

theorem State.postCsig_loop_ok {s s2 : State} {g : Grp} {p : Word} {vas ls : List Nat}
    (h : s.fresh.2.loopPlaces (s.warp (leaderOf g)).ctx true p vas = (s2, .ok ls)) (inc : Word) :
    s.postCsig g p inc (.loop vas) =
      s2.posted (leaderOf g) s.nextId (.csig (leaderOf g) { s.writer g.ws with rmt := true } p (ls.headD 0) inc.toNat) := by
  unfold postCsig
  dsimp only
  change (match s.fresh.2.loopPlaces (s.warp (leaderOf g)).ctx true p vas with | (s2, .error e) => _ | (s2, .ok ls) => _) = _
  rw [h]
  rfl

/-- The state in which an increment to a counter on another device is posted: its path is noted. -/
def State.csigNoted (s : State) (w d : Nat) (p : Word) : State :=
  s.fresh.2.freshFree.2.noteFar w 8 s.nextId [⟨d, 0, p, s.timer⟩]

theorem State.postCsig_far (s : State) (g : Grp) (p inc : Word) (d va x : Nat) :
    s.postCsig g p inc (.far d va x) =
      (s.csigNoted (leaderOf g) d p).posted (leaderOf g) s.nextId (.store (leaderOf g) true (farSignal s.free p d va) none) := rfl

/-- A late fault of a `CSIG` to a counter on another device names its address. -/
theorem farSignal_addr {free d va : Nat} {p : Word} {x : Nat × Nat × Word} (h : farSignal free p d va = some x) : x.2.2 = p := by
  unfold farSignal at h
  split at h
  · obtain rfl := Option.some.inj h
    rfl
  · obtain ⟨f, -, rfl⟩ := Option.map_eq_some_iff.1 h
    rfl

/-- What is posted to a counter for the members of a group, by where the counter lies. -/
def PostsTo (g : Grp) (wr : Writer) (p : Word) (inc : Nat) (q : Pend) : CtrPlace → Prop
  | .home l => q = .csig (leaderOf g) wr p l inc
  | .loop _ => (∃ l, q = .csig (leaderOf g) { wr with rmt := true } p l inc) ∨ ∃ c d, q = .store (leaderOf g) true (some (c, d, p)) none
  | .far _ _ _ => ∃ late, q = .store (leaderOf g) true late none ∧ ∀ x, late = some x → x.2.2 = p

theorem State.traffic_remoteByte {P : Nat → Prop} (s : State) (dev c : Nat) (w : How) (p : Word) (va : Nat)
    (h : ∀ l, s.OnItsWay l → P l) : State.Traffic P s (s.remoteByte dev c w p va).1 := by
  unfold remoteByte
  split
  · exact .refl s
  · exact traffic_devByte _ _ _ _ _ h

theorem State.traffic_loopPlaces {P : Nat → Prop} (c : Nat) (b : Bool) (p : Word) (vas : List Nat) (s : State)
    (h : ∀ l, s.OnItsWay l → P l) : State.Traffic P s (s.loopPlaces c b p vas).1 := by
  induction vas generalizing s with
  | nil => exact .refl s
  | cons va vas ih =>
    have h1 := traffic_remoteByte (P := P) s s.island.fw.deviceNum c { write := b } p va h
    unfold loopPlaces
    split <;> rename_i e <;> rw [e] at h1
    · exact h1
    · have h2 := h1.trans (ih _ fun l hl => h l (h1.way l hl))
      split <;> rename_i e2 <;> rw [e2] at h2 <;> exact h2
    · exact h1

/-- A state in which an operation is posted after a state s. -/
structure State.PostedAs (P : Nat → Prop) (s r : State) (id : Nat) (q : Pend) : Prop where
  pend       : mfind r.pend id = some q
  accessed   : State.Accessed P (fun _ x => x) s { r with far := s.far }
  listed     : ∀ v, (mfind r.warps v).isSome = (mfind s.warps v).isSome
  unreleased : State.Unreleased s r

theorem State.Traffic.posted {P : Nat → Prop} {s t : State} (h : State.Traffic P s t) (hu : State.Unreleased s t) (w id : Nat) (q : Pend) :
    State.PostedAs P s (t.posted w id q) id q where
  pend := posted_pend ..
  accessed := by
    have hf : s.far = (t.posted w id q).far := (congrArg State.far h.rest).symm
    rw [hf]
    exact h.accesses.trans (posted_accessed ..)
  listed v := (posted_listed ..).trans (h.listed v)
  unreleased := hu.trans (posted_unreleased ..)

theorem State.postCsig_posts {P : Nat → Prop} {s : State} (h : ∀ l, s.OnItsWay l → P l) (g : Grp) (p inc : Word) (at_ : CtrPlace) :
    ∃ q, State.PostedAs P s (s.postCsig g p inc at_) s.nextId q ∧ PostsTo g (s.writer g.ws) p inc.toNat q at_ := by
  have hfresh : State.Unreleased s s.fresh.2 := ⟨rfl, fun _ => rfl⟩
  cases at_ with
  | home l =>
    rw [postCsig_home]
    exact ⟨_, (traffic_fresh s).posted hfresh .., rfl⟩
  | loop vas =>
    have ht := (traffic_fresh s).trans
      (traffic_loopPlaces (P := P) (s.warp (leaderOf g)).ctx true p vas s.fresh.2 h)
    have hu := hfresh.trans (settling_raised.loopPlaces (s.warp (leaderOf g)).ctx true p vas s.fresh.2).unreleased
    cases hr : s.fresh.2.loopPlaces (s.warp (leaderOf g)).ctx true p vas with | mk s2 e =>
    rw [hr] at ht hu
    cases e with
    | error e =>
      rw [postCsig_loop_error hr]
      exact ⟨_, ht.posted hu .., .inr ⟨_, _, rfl⟩⟩
    | ok ls =>
      rw [postCsig_loop_ok hr]
      exact ⟨_, ht.posted hu .., .inl ⟨_, rfl⟩⟩
  | far d va x =>
    rw [postCsig_far]
    have ht : State.Traffic P s { s.csigNoted (leaderOf g) d p with far := s.far } :=
      ((traffic_fresh s).trans (traffic_free s.fresh.2 _)).trans (traffic_noteFar ..)
    have hu : State.Unreleased s { s.csigNoted (leaderOf g) d p with far := s.far } := ⟨rfl, fun _ => rfl⟩
    obtain ⟨h1, h2, h3, hrels, hwrites⟩ := ht.posted hu (leaderOf g) s.nextId (.store (leaderOf g) true (farSignal s.free p d va) none)
    exact ⟨_, ⟨h1, h2, h3, hrels, hwrites⟩, _, rfl, fun _ => farSignal_addr⟩

/-! ## `CSIG` -/

/-- The state of a `CSIG` behind its release. -/
def State.csigReleased (s1 : State) (a : Args) (g : Grp) : State :=
  if a.func = 1 then (s1.release g.ws (scopeOf a.sub.toNat)).1 else s1

section
variable {a : Args} {s s1 : State} {g : Grp} {at_ : CtrPlace}
  (hp : s.counterPlace (leaderOf g) true (s.counterAddr g a) = (s1, .ok at_))
include hp

theorem effCsig_stalls (h : 255 ≤ (s.warp (leaderOf g)).stCnt ∨ a.func = 1 ∧ s.relWaits g.ws (scopeOf a.sub.toNat) = true) :
    effCsig a s g = .stall s := by
  unfold effCsig
  simp only [hp]
  rw [if_pos (by simpa using h)]

theorem effCsig_posts (hc : (s.warp (leaderOf g)).stCnt < 255) (hw : a.func = 1 → s.relWaits g.ws (scopeOf a.sub.toNat) = false) :
    effCsig a s g = .next (((s1.csigReleased a g).trace (leaderOf g) 5 (s.counterAddr g a)).postCsig g (s.counterAddr g a)
      (s.sval g (srcC a)) at_) := by
  have hn : ¬((decide (255 ≤ (s.warp (leaderOf g)).stCnt) || (a.func == 1 && s.relWaits g.ws (scopeOf a.sub.toNat))) = true) := by
    simp only [Bool.or_eq_true, decide_eq_true_eq, Bool.and_eq_true, beq_iff_eq]
    rintro (h | ⟨hf, h⟩)
    · omega
    · rw [hw hf] at h
      cases h
  unfold effCsig
  simp only [hp]
  rw [if_neg hn]
  simp only [beq_iff_eq]
  rfl

end

theorem effCsig_traps {a : Args} {s s1 : State} {g : Grp} {x : Trap}
    (hp : s.counterPlace (leaderOf g) true (s.counterAddr g a) = (s1, .error x)) : effCsig a s g = .trap s1 x := by
  unfold effCsig
  simp only [hp]

theorem State.traffic_csigReleased {P : Nat → Prop} (s : State) (a : Args) (g : Grp) (h : ∀ l, s.OnItsWay l → P l) :
    State.Traffic P s (s.csigReleased a g) := by
  unfold csigReleased
  split
  · exact traffic_release _ _ _ h
  · exact .refl s

theorem State.trace_unreleased (s : State) (w k : Nat) (x : Word) : State.Unreleased s (s.trace w k x) :=
  ⟨by rw [trace_rest], fun v => by rw [trace_warp]⟩

theorem State.counterPlace_error (s : State) (w : Nat) {b : Bool} {p : Word} {x : Trap} (h : counterTrap p b = some x) :
    s.counterPlace w b p = (s, .error x) := by
  unfold counterPlace
  rw [h]

/-- `CSIG` at issue. -/
theorem counterSignal_issue : Claims.counterSignal := by
  intro a s g h s0 w p inc fails
  have htraps {s1 : State} {x : Trap} (hp : s0.counterPlace w true p = (s1, .error x)) : fails s1 x :=
    congrArg Host.Outcome.next (h.traps _ (effCsig_traps hp))
  refine ⟨fun h2 h7 => htraps (State.counterPlace_error _ _ (if_pos ⟨h2, h7⟩)),
    fun h2 h8 => htraps (State.counterPlace_error _ _ ((if_neg (by omega)).trans (if_pos h8))),
    fun s1 x => htraps, fun s1 at_ hp => ⟨fun hst => ?_, fun hc hw => ?_⟩⟩
  · obtain ⟨t, ht, hr⟩ := h.stalls (i := .csig a) (eff := effCsig a) rfl (effCsig_stalls hp hst)
    exact ⟨t, ht, hr.pc _, by rw [hr.rest], by rw [hr.rest]⟩
  · have heff : effCsig a s0 g = .next (((s1.csigReleased a g).trace w 5 p).postCsig g p (s0.sval g (srcC a)) at_) :=
      effCsig_posts hp hc hw
    have h1 := State.ctrFound_place hp
    have h2 := h1.trans (State.traffic_csigReleased s1 a g h1.way)
    have htr : State.Traced (s1.csigReleased a g) ((s1.csigReleased a g).trace w 5 p) :=
      ⟨State.trace_rest .., State.trace_core _ w 5 p⟩
    obtain ⟨q, hq, hto⟩ := State.postCsig_posts (P := s0.OnItsWay) (s := (s1.csigReleased a g).trace w 5 p)
      (fun l hl => h2.way l (State.trace_onItsWay _ _ _ _ hl)) g p (s0.sval g (srcC a)) at_
    refine ⟨_, _, q, h.completes rfl heff fun v => ?_, hq.pend, ?_, ?_, fun hf => ?_⟩
    · exact (hq.listed v).trans ((congrArg (fun m => (mfind m v).isSome) (State.trace_warps ..)).trans (h2.listed v))
    · rw [← hq.unreleased.writer] at hto
      cases at_ <;> exact hto
    · have htraced := congrArg State.far htr.rest
      have hfound := congrArg State.far h2.rest
      rw [show s0.far = ((s1.csigReleased a g).trace w 5 p).far from (htraced.trans hfound).symm]
      exact (h2.accesses.trans htr.accesses).trans hq.accessed
    · have hu := (State.trace_unreleased (s1.csigReleased a g) w 5 p).trans hq.unreleased
      have hl : ∀ v ∈ g.ws, (mfind s1.warps v).isSome := fun v hv => by
        obtain ⟨m, hm, rfl⟩ := List.mem_map.1 hv
        rw [h1.listed]
        exact h.grpOk.listed m hm
      have hr := State.release_released h.grpOk.nodup hl (scopeOf a.sub.toNat)
      rw [show (s1.release g.ws (scopeOf a.sub.toNat)).1 = s1.csigReleased a g from (if_pos hf).symm] at hr
      obtain ⟨e, hmade, hsc, -⟩ := hr.made
      refine ⟨s1.nextId, e, ?_, hsc, fun m hm => ?_⟩
      · rw [hu.rels, hmade]
        exact mfind_mins_self ..
      · rw [hu.writes]
        exact hr.writes _ (List.mem_map_of_mem hm)

/-! ## What a check of a read sees -/

/-- A state t with the memory hardware of a state s: all that the check of a read looks at or changes. -/
def State.within (s t : State) : State :=
  { t with chans := s.chans, dies := s.dies, island := s.island,
           mem := { t.mem with cols := s.mem.cols, sectors := s.mem.sectors, tables := s.mem.tables, wb := s.mem.wb,
                               newest := s.mem.newest } }

/-- An answer with its state so placed. -/
def State.withinIn {β : Type} (x : State × β) (t : State) : State × β := (x.1.within t, x.2)

section
variable (s t : State)

theorem State.within_ite (c : Prop) [Decidable c] (x y : State) : (if c then x else y).within t = if c then x.within t else y.within t :=
  apply_ite (fun x : State => x.within t) ..

theorem State.withinIn_ite {β : Type} (c : Prop) [Decidable c] (x y : State × β) :
    withinIn (if c then x else y) t = if c then withinIn x t else withinIn y t :=
  apply_ite (fun x : State × β => withinIn x t) ..

theorem State.within_fenced (p : Phys) : (s.within t).fenced p = s.fenced p := rfl

theorem State.within_redirected (p : Phys) : (s.within t).redirected p = s.redirected p := rfl

theorem State.within_colSt (k : Nat) : (s.within t).colSt k = s.colSt k := rfl

theorem State.within_mayBeDirty (u : Nat) : (s.within t).mayBeDirty u = s.mayBeDirty u := rfl

theorem State.within_applyInj (p : Phys) : (s.within t).applyInj p = (s.applyInj p).within t := by
  unfold applyInj
  simp only [within_ite]
  rfl

theorem State.within_activate (p : Phys) (src : Nat) : (s.within t).activate p src = (s.activate p src).within t := by
  unfold activate
  simp only [within_ite]
  rfl

theorem State.within_touch (p : Phys) (src : Nat) : (s.within t).touch p src = (s.touch p src).within t := by
  unfold touch
  simp only [within_activate, within_applyInj, within_fenced, within_redirected, within_ite]

theorem State.within_readPartner (q : Phys) (src : Nat) : (s.within t).readPartner q src = withinIn (s.readPartner q src) t := by
  unfold readPartner
  simp only [within_touch, within_fenced, within_redirected, within_colSt, withinIn_ite]
  cases (s.touch q src).colSt q.key <;> rfl

/-- A fold that gathers an answer beside the state, step by step. -/
theorem State.within_gather {α β : Type} (xs : List α) (f : State × β → α → State × β)
    (h : ∀ a x, f (withinIn a t) x = withinIn (f a x) t) : ∀ a, xs.foldl f (withinIn a t) = withinIn (xs.foldl f a) t := by
  induction xs with
  | nil => exact fun _ => rfl
  | cons x xs ih => exact fun a => by rw [List.foldl_cons, h, ih, List.foldl_cons]

theorem State.within_partnersOk (p : Phys) (src : Nat) : (s.within t).partnersOk p src = withinIn (s.partnersOk p src) t :=
  within_gather t p.partners
    (fun acc q =>
      let (s1, ok) := acc.1.readPartner q src
      (s1, acc.2 && ok))
    (fun a q => by simp only [withinIn, within_readPartner]) (s, true)

theorem State.within_rebuildOnly (p : Phys) (src : Nat) : (s.within t).rebuildOnly p src = withinIn (s.rebuildOnly p src) t := by
  unfold rebuildOnly
  simp only [within_partnersOk, withinIn_ite]
  rfl

theorem State.within_checkIL (p : Phys) (src : Nat) : (s.within t).checkIL p src = withinIn (s.checkIL p src) t := by
  unfold checkIL
  simp only [within_touch, within_fenced, within_redirected, within_colSt, within_rebuildOnly, within_partnersOk]
  cases (s.touch p src).colSt p.key with
  | poison => rfl
  | single | unc | clean => simp only [withinIn_ite]; rfl

theorem State.within_checkRM (p : Phys) (src : Nat) : (s.within t).checkRM p src = withinIn (s.checkRM p src) t := by
  unfold checkRM
  simp only [within_touch, within_fenced, within_colSt, withinIn_ite]
  cases (s.touch p src).colSt p.key <;> rfl

theorem State.within_checkCol (src l : Nat) : (s.within t).checkCol src l = withinIn (s.checkCol src l) t := by
  unfold checkCol
  simp only [within_checkRM, within_checkIL, withinIn_ite]
  rfl

theorem State.within_checkSector (u : Nat) : (s.within t).checkSector u = withinIn (s.checkSector u) t := by
  have hs : (s.within t).mem.sectors = s.mem.sectors := rfl
  unfold checkSector
  simp only [hs, within_mayBeDirty]
  cases mget .clean s.mem.sectors (u / 32) with
  | clean | poison | single => rfl
  | unc => simp only [withinIn_ite]; rfl

theorem State.within_checkRead (src l : Nat) : (s.within t).checkRead src l = withinIn (s.checkRead src l) t := by
  have hw : (s.within t).island.fw = s.island.fw := rfl
  unfold checkRead
  simp only [hw, within_colSt, within_checkSector, withinIn_ite]
  congr 1
  · obtain ⟨s1, bad⟩ := s.checkSector l
    cases bad
    · exact within_checkCol s1 t src l
    · rfl
  · cases s.colSt (colKey s.island.fw l) <;> rfl

/-- The check of a read looks at the memory hardware only. -/
theorem State.within_checkReads (src : Nat) (ls : List Nat) : (s.within t).checkReads src ls = withinIn (s.checkReads src ls) t :=
  within_gather t (unitsOf ls)
    (fun acc u =>
      let (s1, bad) := acc.1.checkRead src u
      (s1, if bad then acc.2 ++ [u] else acc.2))
    (fun a u => by simp only [withinIn, within_checkRead]) (s, [])

end

/-- What gives poison is a unit of what is read. -/
theorem State.checkReads_units (s : State) (src : Nat) (ls : List Nat) : ∀ u ∈ (s.checkReads src ls).2, u ∈ unitsOf ls := by
  suffices h : ∀ (us : List Nat) (acc : State × List Nat), ∀ u ∈ (us.foldl (fun acc u =>
      let (s', bad) := acc.1.checkRead src u
      (s', if bad then acc.2 ++ [u] else acc.2)) acc).2, u ∈ acc.2 ∨ u ∈ us from
    fun u hu => (h (unitsOf ls) (s, []) u hu).resolve_left (by simp)
  intro us
  induction us with
  | nil => exact fun _ _ hu => .inl hu
  | cons x us ih =>
    intro acc u hu
    rcases ih _ u hu with h | h
    · dsimp only at h
      split at h
      · rcases List.mem_append.1 h with h | h
        · exact .inl h
        · exact .inr (List.mem_cons.2 (.inl (List.mem_singleton.1 h)))
      · exact .inl h
    · exact .inr (List.mem_cons_of_mem _ h)

/-! ## The increment at its home -/

section
variable {s : State} {l : Nat} (hu : Claims.NoULines s) (h8 : l % 8 = 0) (ho : s.offline (homeDie l) = false)
include hu h8 ho

theorem State.peekHome_counter : s.peekHome 0 (span l 8) = ((s.checkReads 0 (span l 8)).1,
    { rs := (span l 8).map fun l => (l, s.mem.pos l, s.mem.byte l), bad := (s.checkReads 0 (span l 8)).2.map (·, 0) }) :=
  peekHome_online hu (fun i hi => by rw [homeDie_span h8 hi, ho]) 0

/-- A counter of which a unit gives poison stays as it is. -/
theorem State.counterAdd_bad (hb : (s.checkReads 0 (span l 8)).2 ≠ []) (wr : Writer) (inc : Nat) :
    s.counterAdd wr l inc = ((s.checkReads 0 (span l 8)).1, false, true) := by
  obtain ⟨u, us, hus⟩ := List.exists_cons_of_ne_nil hb
  obtain ⟨x, hx, hxu⟩ := List.mem_map.1 (List.mem_dedup.1 (checkReads_units s 0 (span l 8) u (by rw [hus]; exact List.mem_cons_self ..)))
  have hp := peekHome_counter hu h8 ho
  have hany : ((span l 8).any fun l => (unitOf l).1 == u) = true := List.any_eq_true.2 ⟨x, hx, by rw [hxu]; exact beq_self_eq_true u⟩
  rw [counterAdd_poisoned wr inc (k := 0), hp]
  simp only [hp, hus, Rd.poison, List.map_cons, List.find?_cons, hany]
  rfl

/-- A counter that gives no poison tells whether it overflowed. -/
theorem State.counterAdd_good (hb : (s.checkReads 0 (span l 8)).2 = []) (wr : Writer) (inc : Nat) :
    (s.counterAdd wr l inc).2 = (decide (2 ^ 64 ≤ (ofBytes (s.mem.peek l 8)).toNat + inc), false) := by
  have hp := peekHome_counter hu h8 ho
  have hv : (s.peekHome 0 (span l 8)).2.value (span l 8) = ofBytes (s.mem.peek l 8) := by
    rw [hp]
    exact congrArg ofBytes (List.map_congr_left fun i hi => Rd.byte_map _ _ hi)
  have hn : (s.peekHome 0 (span l 8)).2.poison (span l 8) = none := by
    rw [hp, hb]
    rfl
  rw [← hv]
  simp only [counterAdd, hn]

end

/-- Two warps that differ at most in their floors. -/
def Warp.SameButFloors (x y : Warp) : Prop := y = { x with floors := y.floors, rmtFl := y.rmtFl }

theorem State.ownWrite_warp (s : State) (wr : Writer) (ls : List Nat) (pos w : Nat) :
    Warp.SameButFloors (s.warp w) ((s.ownWrite wr ls pos).warp w) :=
  modWarps_keeps (R := Warp.SameButFloors) (fun _ => rfl) (fun {_ _ _} h h' => by rw [h] at h'; exact h') (fun x => by split <;> rfl) wr.ws w s

theorem State.performPiece_warp (s : State) (wr : Writer) (rmw : Bool) (src : Nat) (bs : List (Nat × Byte)) (w : Nat) :
    Warp.SameButFloors (s.warp w) ((s.performPiece wr rmw src bs).warp w) := by
  have hc : (s.checkWrites src (bs.map (·.1))).warp w = s.warp w := by rw [State.warp, (checked_checkWrites ..).warps]; rfl
  rw [← hc]
  exact ownWrite_warp _ wr _ _ w

/-- The state in which the increment of a `CSIG` that was in flight alone is performed. -/
def State.csigDue (s : State) (w l : Nat) : State := { s with pend := [] }.carry w true (span l 8)

theorem State.within_csigDue (s : State) (w l : Nat) : s.within (s.csigDue w l) = s.csigDue w l := rfl

theorem State.csigDue_checkReads (s : State) (w l : Nat) :
    ((s.csigDue w l).checkReads 0 (span l 8)).2 = (s.checkReads 0 (span l 8)).2 := by
  have h := within_checkReads s (s.csigDue w l) 0 (span l 8)
  rw [within_csigDue] at h
  rw [h, withinIn]

/-- A warp whose `CSIG` has been performed: an operation less in its store class, and a late trap of an overflow or of poison. -/
def Warp.signalled (x : Warp) (addr : Word) (ovf bad : Bool) : Warp :=
  let y := { x with stCnt := x.stCnt - 1 }
  if bad then y.record ⟨0x14, 0x81, addr, .store⟩ else if ovf then y.record ⟨0x18, 0x80, addr, .store⟩ else y

theorem State.countUp_eq (s : State) (wr : Writer) (addr : Word) (l inc : Nat) {q : State × Bool × Bool}
    (h : (s.carry (wr.ws.headD 0) true (span l 8)).counterAdd wr l inc = q) :
    s.countUp wr addr l inc = q.1.modWarp (wr.ws.headD 0) (·.signalled addr q.2.1 q.2.2) := by
  unfold countUp
  rw [h]
  rfl

section
variable {s : State} {id w l inc : Nat} {wr : Writer} {addr : Word} (hp : s.pend = [(id, .csig w wr addr l inc)])
include hp

/-- A `CSIG` that is in flight alone waits for no other operation. -/
theorem exec_counterIncrement_alone : exec (.counterIncrement id) s = .next (s.performCsig id) := by
  have hf : mfind s.pend id = some (.csig w wr addr l inc) := by rw [hp]; exact mfind_mins_self [] id _
  have hb : s.blocked w id (span l 8) = false := by
    unfold State.blocked State.nbBefore
    simp [hp]
  have ho : s.flushOwn w id (span l 8) = s := by
    unfold State.flushOwn State.chain
    simp [hp]
  change execCounterIncrement id s = _
  unfold execCounterIncrement
  simp only [hf, hb, ho]
  rfl

theorem State.performCsig_held {ps : List Nat} (hps : (wr.ws.flatMap fun v => s.kerf v id (memRow l)).dedup = ps)
    (h : ps ≠ [] ∨ s.offline (homeDie l) = true) :
    s.performCsig id = { s with
      pend := [], held := s.held ++
        [{ id, wr, bytes := (span l 8).map fun x => (x, 0), addr, passes := ps.map (·, memRow l), off := s.offline (homeDie l),
           inc := some inc, by_ := ps }] } := by
  have hf : mfind s.pend id = some (.csig w wr addr l inc) := by rw [hp]; exact mfind_mins_self [] id _
  have hd : mdel s.pend id = [] := by simp [hp, mdel]
  have hn : ¬(ps.isEmpty && !s.offline (homeDie l)) = true := by
    rcases h with h | h <;> simp [h]
  unfold performCsig
  simp only [hf, hps, hd]
  exact if_neg hn

theorem State.performCsig_free (hk : ∀ v ∈ wr.ws, s.kerf v id (memRow l) = []) (ho : s.offline (homeDie l) = false) :
    s.performCsig id = { s with pend := [] }.countUp wr addr l inc := by
  have hf : mfind s.pend id = some (.csig w wr addr l inc) := by rw [hp]; exact mfind_mins_self [] id _
  have hd : mdel s.pend id = [] := by simp [hp, mdel]
  have hps : (wr.ws.flatMap fun v => s.kerf v id (memRow l)) = [] := List.flatMap_eq_nil_iff.2 hk
  unfold performCsig
  simp only [hf, hps, hd, ho]
  exact if_pos rfl

end

theorem Warp.record_keeps (x : Warp) (t : LateTrap) : (x.record t).stCnt = x.stCnt ∧ (x.record t).s = x.s ∧ (x.record t).v = x.v := by
  unfold record
  split <;> exact ⟨rfl, rfl, rfl⟩

theorem Warp.record_late {x : Warp} (h : x.late = none) (t : LateTrap) : (x.record t).late = some t := by
  unfold record
  rw [h]
  rfl

theorem Warp.signalled_keeps (x : Warp) (addr : Word) (ovf bad : Bool) :
    (x.signalled addr ovf bad).stCnt = x.stCnt - 1 ∧ (x.signalled addr ovf bad).s = x.s ∧ (x.signalled addr ovf bad).v = x.v := by
  unfold signalled
  dsimp only
  split
  · exact record_keeps ..
  · split
    · exact record_keeps ..
    · exact ⟨rfl, rfl, rfl⟩

theorem Warp.signalled_clean (x : Warp) (addr : Word) : (x.signalled addr false false).late = x.late := rfl

theorem Warp.signalled_ovf {x : Warp} (h : x.late = none) (addr : Word) :
    (x.signalled addr true false).late = some ⟨0x18, 0x80, addr, .store⟩ :=
  record_late (x := { x with stCnt := x.stCnt - 1 }) h _

theorem Warp.signalled_poison {x : Warp} (h : x.late = none) (addr : Word) (ovf : Bool) :
    (x.signalled addr ovf true).late = some ⟨0x14, 0x81, addr, .store⟩ :=
  record_late (x := { x with stCnt := x.stCnt - 1 }) h _

/-- The increment of a counter, of which the warps keep all but their floors. -/
theorem State.counterAdd_warp {s : State} (hu : Claims.NoULines s) (wr : Writer) (l inc w : Nat) :
    Warp.SameButFloors (s.warp w) ((s.counterAdd wr l inc).1.warp w) := by
  have hc : (s.peekHome 0 (span l 8)).1.warp w = s.warp w := by rw [State.warp, (checked_peekHome hu 0 (span l 8)).warps]; rfl
  cases h : (s.peekHome 0 (span l 8)).2.poison (span l 8) with
  | some k =>
    rw [counterAdd_poisoned wr inc h, hc]
    rfl
  | none =>
    rw [counterAdd_clean wr inc h, ← hc]
    exact performPiece_warp ..

/-- The increment at its home (R194, R195, R371). -/
theorem counterIncrement_exec : Claims.counterIncrement := by
  intro s id w l inc wr addr hp hw hl
  have hexec := exec_counterIncrement_alone hp
  refine ⟨fun h => ?_, fun hk ho hu h8 => ?_⟩
  · refine ⟨_, _, hexec.trans (congrArg _ (State.performCsig_held hp rfl ?_)), rfl, rfl, rfl, rfl, rfl⟩
    refine h.imp_left fun ⟨v, hv, hne⟩ hnil => hne ?_
    rw [List.dedup_eq_nil] at hnil
    exact List.flatMap_eq_nil_iff.1 hnil v hv
  · have hu := noULines_of_all hu
    obtain ⟨q, hq⟩ : ∃ q, (s.csigDue w l).counterAdd wr l inc = q := ⟨_, rfl⟩
    have hup : s.performCsig id = q.1.modWarp w (·.signalled addr q.2.1 q.2.2) := by
      rw [State.performCsig_free hp hk ho]
      subst hw
      exact State.countUp_eq _ wr addr l inc hq
    have hfl : Warp.SameButFloors (s.warp w) (q.1.warp w) := by
      rw [← hq]
      exact State.counterAdd_warp (s := s.csigDue w l) hu wr l inc w
    have ht : State.Traffic (· ∈ span l 8) (s.csigDue w l) q.1 := by
      rw [← hq]
      exact State.traffic_increment (s := s.csigDue w l) hu wr inc
    have hlq : (mfind q.1.warps w).isSome := by rw [ht.listed]; exact hl
    have hwarp : (q.1.modWarp w (·.signalled addr q.2.1 q.2.2)).warp w = (q.1.warp w).signalled addr q.2.1 q.2.2 :=
      State.modWarp_self _ hlq
    obtain ⟨hst, hs, hv⟩ := (q.1.warp w).signalled_keeps addr q.2.1 q.2.2
    have hlate : (q.1.warp w).late = (s.warp w).late := by rw [hfl]
    refine ⟨_, hexec.trans (congrArg _ hup), ?_, ?_, ?_, ?_, fun hb hr hd => ?_, fun hb => ?_⟩
    · change q.1.pend = []
      rw [← hq, State.counterAdd_pend]
      rfl
    · rw [hwarp, hst, hfl]
    · rw [hwarp, hs, hfl]
    · rw [hwarp, hv, hfl]
    · rw [← State.csigDue_checkReads s w l] at hb
      have hgood := State.counterAdd_good (s := s.csigDue w l) hu h8 ho hb wr inc
      rw [hq] at hgood
      have hval := State.counterAdd_value (s := s.csigDue w l) hu hr h8 ho hb hd wr inc
      rw [hq] at hval
      refine ⟨hval, fun k hk => ht.byte k hk, fun hov hn => ?_, fun hov => ?_⟩
      · have hf : q.2 = (true, false) := hgood.trans (congrArg (·, false) (decide_eq_true hov))
        rw [hwarp, hf]
        exact Warp.signalled_ovf (hlate.trans hn) addr
      · have hf : q.2 = (false, false) := hgood.trans (congrArg (·, false) (decide_eq_false (Nat.not_le.2 hov)))
        rw [hwarp, hf, Warp.signalled_clean, hlate]
    · rw [← State.csigDue_checkReads s w l] at hb
      have hbad := State.counterAdd_bad (s := s.csigDue w l) hu h8 ho hb wr inc
      rw [hq] at hbad
      have hf : q.2 = (false, true) := congrArg Prod.snd hbad
      have hc := (State.checked_checkReads (s.csigDue w l) 0 (span l 8)).traffic (P := fun _ => False)
      rw [← congrArg Prod.fst hbad] at hc
      refine ⟨fun k => hc.byte k not_false, fun hn => ?_⟩
      rw [hwarp, hf]
      exact Warp.signalled_poison (hlate.trans hn) addr _

/-- Settles O35: `CSIG` by where its counter lies, and the increment at its home. -/
theorem counterSignals : Obligations.CounterSignals := ⟨counterSignal_issue, counterIncrement_exec⟩

end Sys2Proof.Machine

/-! SUPPORT. Placement of blocks (spec/13 R294, R297, R304): what a block that is placed brings, and what the scan of a queue of one
cluster does. -/

namespace Sys2Proof.Machine

/-! ## Contexts and their stages -/

theorem State.ctx_of_mfind {s : State} {c : Nat} {x : Ctx} (h : mfind s.ctxs c = some x) : s.ctx c = x := by
  rw [State.ctx, mget_eq_mfind, h]
  rfl

theorem State.modCtx_listed (s : State) (c : Nat) (f : Ctx → Ctx) (d : Nat) :
    (mfind (s.modCtx c f).ctxs d).isSome = (mfind s.ctxs d).isSome := mfind_mmod_isSome ..

theorem State.modCtx_self {s : State} {c : Nat} (f : Ctx → Ctx) (h : (mfind s.ctxs c).isSome) : (s.modCtx c f).ctx c = f (s.ctx c) := by
  rw [modCtx_ctx _ _ _ _ h, if_pos rfl]

/-- Stages keep their numbers when one of them changes. -/
theorem Ctx.stage?_modStage (x : Ctx) (n m : Nat) {f : Stage → Stage} (hf : ∀ st, (f st).lnum = st.lnum) :
    (x.modStage n f).stage? m = (x.stage? m).map fun st => if st.lnum == n then f st else st := by
  unfold stage? modStage
  dsimp only
  rw [List.find?_map]
  refine congrArg (fun p => Option.map _ (List.find? p x.stages)) (funext fun st => ?_)
  simp only [Function.comp_apply]
  split <;> simp [hf]

theorem Ctx.stage?_lnum {x : Ctx} {n : Nat} {st : Stage} (h : x.stage? n = some st) : st.lnum = n := by
  simpa using List.find?_some h

theorem Ctx.modStage_self {x : Ctx} {n : Nat} {st : Stage} (h : x.stage? n = some st) {f : Stage → Stage}
    (hf : ∀ st, (f st).lnum = st.lnum) : (x.modStage n f).stage? n = some (f st) := by
  rw [stage?_modStage _ _ _ hf, h, Option.map_some, stage?_lnum h, beq_self_eq_true, if_pos rfl]

/-! ## One block -/

section
/-- Memory with a new block's scratch: zeros, and the arguments copied. -/
def State.scratchMem (s : State) (st : Stage) (p : Spot) : Mem :=
  let m := s.mem.scrub (ubsLoc p.core p.scr) (1024 * st.lrec.scrKb)
  if st.lrec.args.isEmpty then m
  else m.putPiece [] false ((span (ubsLoc p.core p.scr) st.lrec.args.length).zip st.lrec.args)

/-- What a warp of a new block finds as floors: the arguments that were copied into its scratch. -/
def State.argFloors (s : State) (st : Stage) (p : Spot) : SMap Nat :=
  if st.lrec.args.isEmpty then []
  else raiseTo [] ((span (ubsLoc p.core p.scr) st.lrec.args.length).map fun l => (l, (s.scratchMem st p).seq))

/-- Placing changes the UBS of its core only. -/
theorem State.scratchMem_byte (s : State) (st : Stage) (p : Spot) {l : Nat} (h : l < 2 ^ 50) :
    (s.scratchMem st p).byte l = s.mem.byte l := by
  have hbase : 2 ^ 50 ≤ ubsLoc p.core p.scr := by unfold ubsLoc; omega
  generalize hb : ubsLoc p.core p.scr = base at hbase
  have hscrub : (s.mem.scrub base (1024 * st.lrec.scrKb)).byte l = s.mem.byte l := by
    unfold Mem.byte Mem.scrub
    dsimp only
    rw [mget_eq_mfind, mfind_mdelRange, if_neg (by omega), mget_eq_mfind]
  unfold scratchMem
  dsimp only
  rw [hb]
  split
  · exact hscrub
  · refine (Mem.putPiece_byte _ _ _ _ _ fun hm => ?_).trans hscrub
    obtain ⟨e, he, rfl⟩ := List.mem_map.1 hm
    have := mem_span.1 (mem_zip_left he)
    omega

variable (c : Nat) (st : Stage) (cluster bid : Nat)

/-- Warps as they become resident, one for each slot, numbered from n. -/
def State.seatWarps (s : State) (id n : Nat) (fl : SMap Nat) (slots : List Nat) : State :=
  (slots.zipIdx n).foldl (fun s e => s.setWarp (32 * id + e.2) (newWarp c id e.2 e.1 st cluster bid fl)) s

variable (id : Nat) (fl : SMap Nat) (slots : List Nat)

theorem State.seatWarps_rest (n : Nat) (s : State) :
    State.seatWarps c st cluster bid s id n fl slots = { s with warps := (State.seatWarps c st cluster bid s id n fl slots).warps } := by
  induction slots generalizing s n with
  | nil => rfl
  | cons x xs ih => exact ih (n + 1) _

theorem State.seatWarps_other {w : Nat} (n : Nat) (s : State) (h : w < 32 * id + n ∨ 32 * id + n + slots.length ≤ w) :
    mfind (State.seatWarps c st cluster bid s id n fl slots).warps w = mfind s.warps w := by
  induction slots generalizing s n with
  | nil => rfl
  | cons x xs ih =>
    rw [List.length_cons] at h
    refine (ih (n + 1) _ (by omega)).trans ?_
    exact mfind_mins_ne _ _ (by dsimp only; omega)

theorem State.seatWarps_seated {j x : Nat} (n : Nat) (s : State) (h : slots[j]? = some x) :
    mfind (State.seatWarps c st cluster bid s id n fl slots).warps (32 * id + (n + j)) =
      some (newWarp c id (n + j) x st cluster bid fl) := by
  induction slots generalizing s n j with
  | nil => cases h
  | cons y ys ih =>
    cases j with
    | zero =>
      obtain rfl : y = x := Option.some.inj h
      refine (seatWarps_other c st cluster bid id fl ys (n + 1) _ (.inl (by omega))).trans ?_
      exact mfind_mins_self ..
    | succ j =>
      have := ih (n + 1) (s.setWarp (32 * id + n) (newWarp c id n y st cluster bid fl)) h
      rw [show n + 1 + j = n + (j + 1) by omega] at this
      exact this

theorem newWarp_fresh (b wid slot : Nat) : Claims.FreshWarp (newWarp c b wid slot st cluster bid fl) c st cluster bid wid slot := by
  refine ⟨⟨rfl, rfl, rfl, rfl⟩, ⟨rfl, rfl, rfl, rfl⟩, ⟨fun _ _ => rfl, fun _ => rfl, fun n hn => ?_⟩,
    ⟨rfl, rfl, rfl, rfl, rfl, rfl, rfl, rfl⟩, ⟨rfl, rfl⟩⟩
  unfold Warp.pget
  rw [if_neg hn]
  rfl

end

/-! ## A block with its warps -/

/-- A block as it is placed. -/
def newBlock (c : Nat) (st : Stage) (cluster bid : Nat) (p : Spot) : Block :=
  let r := st.lrec
  { ctx := c, lnum := st.lnum, stage := r.stage, cluster, bid, core := p.core, nwarps := r.warps, setw := r.setw
    nregs := r.nregs, wins := p.wins, scrBase := p.scr, scrKb := r.scrKb, ntiles := r.ntiles, nrec := r.nrec
    tmap := p.tiles, rmap := p.recs, array := r.array, bars := blockBars r }

/-- The state of a new block before its warps are seated. -/
def State.blockMade (s : State) (c : Nat) (st : Stage) (cluster bid : Nat) (p : Spot) : State :=
  { s.fresh.2 with mem := s.scratchMem st p, blocks := mins s.blocks s.nextId (newBlock c st cluster bid p) }.modCore p.core fun k =>
    { k with
      tiles := p.tiles.foldl (fun m t => mdelRange m (16384 * t) (16384 * (t + 1))) k.tiles
      tileErr := k.tileErr.filter fun e => !p.tiles.contains (2 * e.1 / 16384), tags := p.tiles.foldl mdel k.tags
      recs := p.recs.foldl mdel k.recs, latch := if st.lrec.array then {} else k.latch }

theorem State.placeBlock_eq (s : State) (c : Nat) (st : Stage) (cluster bid : Nat) (p : Spot) :
    s.placeBlock c st cluster bid p =
      State.seatWarps c st cluster bid (s.blockMade c st cluster bid p) s.nextId 0 (s.argFloors st p) p.slots := by
  rfl

/-- Block `id` of a cluster is resident in a state, with its warps as they become resident. -/
def State.Resident (s : State) (c : Nat) (st : Stage) (cluster bid id : Nat) (p : Spot) : Prop :=
  ∃ b, mfind s.blocks id = some b ∧ b.ctx = c ∧ b.lnum = st.lnum ∧ b.cluster = cluster ∧ b.bid = bid ∧ b.core = p.core ∧
    b.nwarps = st.lrec.warps ∧ ∀ (j n : Nat), p.slots[j]? = some n → ∃ w, mfind s.warps (32 * id + j) = some w ∧ w.blk = id ∧
      Claims.FreshWarp w c st cluster bid j n

/-- What placing leaves: contexts, earlier blocks with their warps, and bytes outside the cores. -/
structure State.Beside (s r : State) (n : Nat) : Prop where
  nextId : r.nextId = s.nextId + n
  ctxs   : r.ctxs = s.ctxs
  blocks : ∀ b, b < s.nextId → mfind r.blocks b = mfind s.blocks b
  warps  : ∀ w, w < 32 * s.nextId → mfind r.warps w = mfind s.warps w
  byte   : ∀ l, l < 2 ^ 50 → r.mem.byte l = s.mem.byte l

section
variable (c : Nat) (st : Stage) (cluster : Nat)

theorem State.placeBlock_beside (s : State) (bid : Nat) (p : Spot) : State.Beside s (s.placeBlock c st cluster bid p) 1 := by
  rw [placeBlock_eq]
  constructor
  · rw [seatWarps_rest]
    rfl
  · rw [seatWarps_rest]
    rfl
  · intro b hb
    rw [seatWarps_rest]
    exact mfind_mins_ne _ _ (by omega)
  · intro w hw
    exact seatWarps_other _ _ _ _ _ _ _ _ _ (.inl (by omega))
  · intro l hl
    rw [seatWarps_rest]
    exact scratchMem_byte s st p hl

theorem State.placeBlock_resident (s : State) (bid : Nat) (p : Spot) :
    State.Resident (s.placeBlock c st cluster bid p) c st cluster bid s.nextId p := by
  rw [placeBlock_eq]
  refine ⟨newBlock c st cluster bid p, ?_, rfl, rfl, rfl, rfl, rfl, rfl, fun j n hj => ?_⟩
  · rw [seatWarps_rest]
    exact mfind_mins_self ..
  · have h := seatWarps_seated c st cluster bid s.nextId (s.argFloors st p) p.slots 0 (s.blockMade c st cluster bid p) hj
    rw [Nat.zero_add] at h
    exact ⟨_, h, rfl, newWarp_fresh ..⟩

/-- Blocks placed one after another, numbered from n in their cluster. -/
def State.placeBlocks (s : State) (n : Nat) (ps : List Spot) : State :=
  (ps.zipIdx n).foldl (fun s e => s.placeBlock c st cluster e.2 e.1) s

theorem State.placeBlocks_beside (s : State) (n : Nat) (ps : List Spot) :
    State.Beside s (State.placeBlocks c st cluster s n ps) ps.length := by
  induction ps generalizing s n with
  | nil => exact ⟨rfl, rfl, fun _ _ => rfl, fun _ _ => rfl, fun _ _ => rfl⟩
  | cons p ps ih =>
    have h1 := placeBlock_beside c st cluster s n p
    have h2 := ih (s.placeBlock c st cluster n p) (n + 1)
    have hid := h1.nextId
    refine ⟨h2.nextId.trans (by rw [hid, List.length_cons]; omega), h2.ctxs.trans h1.ctxs, fun b hb => ?_, fun w hw => ?_, fun l hl => ?_⟩
    · exact (h2.blocks b (by omega)).trans (h1.blocks b hb)
    · exact (h2.warps w (by omega)).trans (h1.warps w hw)
    · exact (h2.byte l hl).trans (h1.byte l hl)

theorem State.Resident.beside {s r : State} {k bid id : Nat} {p : Spot} (h : State.Resident s c st cluster bid id p)
    (hb : State.Beside s r k) (hid : id < s.nextId) (hp : p.slots.length ≤ 32) : State.Resident r c st cluster bid id p := by
  obtain ⟨b, hf, hctx, hlnum, hcl, hbid, hcore, hn, hw⟩ := h
  refine ⟨b, (hb.blocks id hid).trans hf, hctx, hlnum, hcl, hbid, hcore, hn, fun j n hj => ?_⟩
  obtain ⟨w, hwf, hfresh⟩ := hw j n hj
  have hlt : j < p.slots.length := (List.getElem?_eq_some_iff.1 hj).1
  exact ⟨w, (hb.warps _ (by omega)).trans hwf, hfresh⟩

theorem State.placeBlocks_resident (s : State) (n : Nat) {ps : List Spot} (hps : ∀ p ∈ ps, p.slots.length ≤ 32) {i : Nat} {p : Spot}
    (hi : ps[i]? = some p) :
    State.Resident (State.placeBlocks c st cluster s n ps) c st cluster (n + i) (s.nextId + i) p := by
  induction ps generalizing s n i with
  | nil => cases hi
  | cons q ps ih =>
    have h1 := placeBlock_beside c st cluster s n q
    have hid := h1.nextId
    cases i with
    | zero =>
      obtain rfl : q = p := Option.some.inj hi
      exact (placeBlock_resident c st cluster s n q).beside c st cluster (placeBlocks_beside c st cluster _ (n + 1) ps) (by omega)
        (hps q (List.mem_cons_self ..))
    | succ i =>
      have h2 := ih (s.placeBlock c st cluster n q) (n + 1) (fun p hp => hps p (List.mem_cons_of_mem _ hp)) hi
      rw [hid, show n + 1 + i = n + (i + 1) by omega, show s.nextId + 1 + i = s.nextId + (i + 1) by omega] at h2
      exact h2

end

/-! ## The scan of a queue -/

/-- A stage of which one more cluster is placed. -/
def Stage.withCluster (st : Stage) (cluster : Nat) : Stage :=
  { st with placed := st.placed + 1, cbars := mins st.cbars cluster (clusterBars st.lrec) }

/-- A context of which a stage has one more cluster placed. -/
def State.clusterCounted (s : State) (c lnum cluster : Nat) : State :=
  s.modCtx c fun x => x.modStage lnum (·.withCluster cluster)

section
variable {s : State} {c : Nat} {x : Ctx} {st : Stage} (hx : mfind s.ctxs c = some x) (hst : x.stage? st.lnum = some st)
include hx hst

theorem State.clusterCounted_stage (cluster : Nat) :
    ((s.clusterCounted c st.lnum cluster).ctx c).stage? st.lnum = some (st.withCluster cluster) := by
  unfold clusterCounted
  rw [modCtx_self _ (by rw [hx]; rfl), ctx_of_mfind hx]
  exact Ctx.modStage_self hst (f := (·.withCluster cluster)) fun _ => rfl

theorem State.placeCluster_eq (cluster : Nat) (ps : List Spot) :
    s.placeCluster c st.lnum cluster ps =
      State.placeBlocks c (st.withCluster cluster) cluster (s.clusterCounted c st.lnum cluster) 0 ps := by
  have h : (((s.clusterCounted c st.lnum cluster).ctx c).stage? st.lnum).getD {} = st.withCluster cluster := by
    rw [clusterCounted_stage hx hst]
    rfl
  rw [← h]
  rfl

/-- The one cluster of a queue that fits nowhere stays queued. -/
theorem State.scanQueue_stays {cluster at_ : Nat}
    (h : planCluster s.occOf x.crec.cores (l1Bytes x.crec.l1sz.toNat) st.lrec = none) :
    s.scanQueue c [(st.lnum, cluster, at_)] [] = s.modCtx c fun y =>
      { y with queue := [(st.lnum, cluster, at_)],
               headAt := if [(st.lnum, cluster, at_)].head? == y.queue.head? then y.headAt else s.timer } := by
  have hctx := ctx_of_mfind hx
  unfold scanQueue
  simp only [hctx, hst, Option.getD_some, List.isEmpty_nil, Bool.not_true, Bool.false_and, Bool.false_eq_true, if_false, h]
  rfl

/-- The one cluster of a queue that fits is placed. -/
theorem State.scanQueue_places {cluster at_ : Nat} {xs : List (Spot × Occ)}
    (h : planCluster s.occOf x.crec.cores (l1Bytes x.crec.l1sz.toNat) st.lrec = some xs) :
    s.scanQueue c [(st.lnum, cluster, at_)] [] =
      (State.placeBlocks c (st.withCluster cluster) cluster (s.clusterCounted c st.lnum cluster) 0 (xs.map (·.1))).modCtx c fun y =>
        { y with queue := [], headAt := if ([] : List (Nat × Nat × Nat)).head? == y.queue.head? then y.headAt
                                        else (s.placeCluster c st.lnum cluster (xs.map (·.1))).timer } := by
  have hctx := ctx_of_mfind hx
  rw [← placeCluster_eq hx hst]
  unfold scanQueue
  simp only [hctx, hst, Option.getD_some, List.isEmpty_nil, Bool.not_true, Bool.false_and, Bool.false_eq_true, if_false, h]
  rfl

end

/-- Where no stage of a context waits for a trigger, no publication is counted. -/
theorem State.countPubs_untriggered {s : State} {c : Nat} (h : ∀ st ∈ (s.ctx c).stages, st.lrec.trig = false) : s.countPubs c = s := by
  unfold countPubs
  rw [List.filter_eq_nil_iff.2 fun st hst => by simp [h st hst]]
  rfl

/-- A new warp finds the stage's record, whichever of its clusters have been placed. -/
theorem freshWarp_withCluster {w : Warp} {c k cluster bid wid slot : Nat} {st : Stage} :
    Claims.FreshWarp w c (st.withCluster k) cluster bid wid slot ↔ Claims.FreshWarp w c st cluster bid wid slot :=
  ⟨fun ⟨h1, h2, h3, h4, h5⟩ => ⟨h1, h2, h3, h4, h5⟩, fun ⟨h1, h2, h3, h4, h5⟩ => ⟨h1, h2, h3, h4, h5⟩⟩

/-- The placement scan of a context (R297). -/
theorem stageLife_placement : Claims.placement := by
  intro s c x hx
  have hctx := State.ctx_of_mfind hx
  have hexec : exec (.placement c) s = if x.frozen || x.freezing || x.saved then .next s
      else .next ((s.countPubs c).scanQueue c ((s.countPubs c).ctx c).queue []) := by
    change execPlacement c s = _
    unfold execPlacement
    rw [hx]
  refine ⟨fun h => hexec.trans (if_pos (by simpa [or_assoc] using h)), ?_⟩
  intro st cluster at_ hfr hfg hsv hstages htrig hqueue
  have hst : x.stage? st.lnum = some st := by
    unfold Ctx.stage?
    rw [hstages, List.find?_cons_of_pos (by simp)]
  have hpubs : s.countPubs c = s := State.countPubs_untriggered fun u hu => by
    rw [hctx, hstages] at hu
    rw [List.mem_singleton.1 hu, htrig]
  have hrun : exec (.placement c) s = .next (s.scanQueue c [(st.lnum, cluster, at_)] []) := by
    rw [hexec, if_neg (by simp [hfr, hfg, hsv]), hpubs, hctx, hqueue]
  refine ⟨fun hplan => ?_, fun xs hplan hlen => ?_⟩
  · refine ⟨_, hrun.trans (congrArg _ (State.scanQueue_stays hx hst hplan)), ?_, rfl, rfl, rfl⟩
    rw [State.modCtx_self _ (by rw [hx]; rfl), hqueue]
  · have hcount := State.clusterCounted_stage hx hst cluster
    have hb := State.placeBlocks_beside c (st.withCluster cluster) cluster (s.clusterCounted c st.lnum cluster) 0 (xs.map (·.1))
    have hl : (mfind (State.placeBlocks c (st.withCluster cluster) cluster (s.clusterCounted c st.lnum cluster) 0 (xs.map (·.1))).ctxs
        c).isSome := by
      rw [hb.ctxs, State.clusterCounted, State.modCtx_listed, hx]
      rfl
    have hstage : ((State.placeBlocks c (st.withCluster cluster) cluster (s.clusterCounted c st.lnum cluster) 0 (xs.map (·.1))).ctx
        c).stage? st.lnum = some (st.withCluster cluster) := by
      rw [State.ctx, hb.ctxs]
      exact hcount
    refine ⟨_, hrun.trans (congrArg _ (State.scanQueue_places hx hst hplan)), ?_, ⟨st.withCluster cluster, ?_, rfl⟩, hb.blocks, hb.byte, fun i e hi => ?_⟩
    · rw [State.modCtx_self _ hl]
    · rw [State.modCtx_self _ hl]
      exact hstage
    · obtain ⟨b, hf, hc, hlnum, hcl, hbid, hcore, hn, hw⟩ := State.placeBlocks_resident c (st.withCluster cluster) cluster
        (s.clusterCounted c st.lnum cluster) 0 (ps := xs.map (·.1)) (fun p hp => by
          obtain ⟨e, he, rfl⟩ := List.mem_map.1 hp
          exact hlen e he) (i := i) (p := e.1) (by rw [List.getElem?_map, hi]; rfl)
      refine ⟨b, hf, hc, hlnum, hcl, hbid.trans (Nat.zero_add i), hcore, hn, fun j n hj => ?_⟩
      obtain ⟨w, hwf, hblk, hfresh⟩ := hw j n hj
      rw [Nat.zero_add] at hfresh
      exact ⟨w, hwf, hblk, freshWarp_withCluster.1 hfresh⟩

end Sys2Proof.Machine

/-! SUPPORT. Blocks that retire (spec/13 R299, R304): the barriers they leave, and the completion of their stage. -/

namespace Sys2Proof.Machine

/-! ## Accesses that seat no warp -/

theorem Settling.recByte {R : State → State → Prop} (h : Settling R) (s : State) (c : Nat) (w : How) (p : Word) :
    R s (s.recByte c w p).1 := by
  have h1 := h.devByte s c w p (p.extractLsb' 0 48).toNat
  unfold State.recByte
  dsimp only
  split
  · exact h.refl s
  · split
    · split
      · exact h.refl s
      · split <;> exact h.refl s
    · split <;> rename_i e <;> rw [e] at h1 <;> exact h1

theorem Settling.recLocs {R : State → State → Prop} (h : Settling R) (s : State) (c : Nat) (w : How) (p : Word) (n : Nat) :
    R s (s.recLocs c w p n).1 := by
  induction n with
  | zero => exact h.refl s
  | succ n ih =>
    unfold State.recLocs
    split <;> rename_i e <;> rw [e] at ih
    · exact ih
    · rename_i s1 ls
      have h2 := h.trans ih (h.recByte s1 c w (p + BitVec.ofNat 64 n))
      split <;> rename_i e2 <;> rw [e2] at h2 <;> exact h2

/-- Every warp listed in r is one that is listed in s, in the same block. -/
def State.Seated (s r : State) : Prop := ∀ e ∈ r.warps, ∃ x, (e.1, x) ∈ s.warps ∧ x.blk = e.2.blk

theorem State.Seated.of_eq {s r : State} (h : r.warps = s.warps) : State.Seated s r := fun e he => ⟨e.2, by rw [← h]; exact he, rfl⟩

theorem State.Seated.trans {s r t : State} (h : State.Seated s r) (h' : State.Seated r t) : State.Seated s t := fun e he => by
  obtain ⟨y, hy, e1⟩ := h' e he
  obtain ⟨x, hx, e2⟩ := h (e.1, y) hy
  exact ⟨x, hx, e2.trans e1⟩

theorem State.seated_modWarp (s : State) (w : Nat) {f : Warp → Warp} (hf : ∀ x, (f x).blk = x.blk) : State.Seated s (s.modWarp w f) := by
  intro e he
  change e ∈ mmod s.warps w f at he
  unfold mmod at he
  split at he
  · exact ⟨e.2, he, rfl⟩
  · rename_i x hx
    rcases mem_mins he with rfl | he
    · exact ⟨x, mem_of_mfind hx, (hf x).symm⟩
    · exact ⟨e.2, he, rfl⟩

theorem State.seated_modWarps (s : State) (ws : List Nat) {f : Warp → Warp} (hf : ∀ x, (f x).blk = x.blk) :
    State.Seated s (s.modWarps ws f) := by
  unfold modWarps
  induction ws generalizing s with
  | nil => exact .of_eq rfl
  | cons w ws ih => exact (seated_modWarp s w hf).trans (ih _)

theorem settling_seated : Settling State.Seated where
  refl _ := .of_eq rfl
  trans := .trans
  reads s src ls := .of_eq (State.checked_checkReads s src ls).warps
  writes s src ls := .of_eq (State.checked_checkWrites s src ls).warps
  piece s wr rmw bs := (State.Seated.of_eq rfl).trans (State.seated_modWarps
    { s with mem := s.mem.putPiece wr.rels rmw (bs.filter fun b => !s.discards b.1) } wr.ws fun x => by split <;> rfl)
  ecc _ _ _ := .of_eq rfl
  aside _ _ _ _ _ _ _ := .of_eq rfl
  warp s w _ _ hr := s.seated_modWarp w fun x => (hr x).2

/-! ## Barriers that a block leaves -/

/-- What barriers do not touch of a stage. -/
def Stage.counts (st : Stage) : LaunchRec × Nat × Nat × Nat × Bool := (st.lrec, st.appended, st.placed, st.retired, st.done)

/-- Barriers above a block's own have changed, and warps go on. -/
structure State.BarsMoved (s r : State) : Prop where
  blocks : r.blocks = s.blocks
  listed : ∀ w, (mfind r.warps w).isSome = (mfind s.warps w).isSome
  blk    : ∀ w, (r.warp w).blk = (s.warp w).blk
  ctxs   : ∀ c, (mfind r.ctxs c).isSome = (mfind s.ctxs c).isSome
  stages : ∀ c n, ((r.ctx c).stage? n).map Stage.counts = ((s.ctx c).stage? n).map Stage.counts

section
variable {s r t : State}

theorem State.BarsMoved.refl (s : State) : State.BarsMoved s s := ⟨rfl, fun _ => rfl, fun _ => rfl, fun _ => rfl, fun _ _ => rfl⟩

theorem State.BarsMoved.trans (h : State.BarsMoved s r) (h' : State.BarsMoved r t) : State.BarsMoved s t :=
  ⟨h'.blocks.trans h.blocks, fun w => (h'.listed w).trans (h.listed w), fun w => (h'.blk w).trans (h.blk w),
    fun c => (h'.ctxs c).trans (h.ctxs c), fun c n => (h'.stages c n).trans (h.stages c n)⟩

theorem State.BarsMoved.foldl {α : Type} {f : State → α → State} (h : ∀ s x, State.BarsMoved s (f s x)) (xs : List α) (s : State) :
    State.BarsMoved s (xs.foldl f s) := by
  induction xs generalizing s with
  | nil => exact .refl s
  | cons x xs ih => exact (h s x).trans (ih _)

theorem State.Traffic.barsMoved {P : Nat → Prop} (h : State.Traffic P s r) : State.BarsMoved s r := by
  have hb : r.blocks = s.blocks := by rw [h.rest]
  have hc : r.ctxs = s.ctxs := by rw [h.rest]
  exact ⟨hb, h.listed, fun w => by rw [h.warp w], fun c => by rw [hc], fun c n => by rw [State.ctx, hc]; rfl⟩

theorem State.barsMoved_modWarps (s : State) (ws : List Nat) {f : Warp → Warp} (hf : ∀ x, (f x).blk = x.blk) :
    State.BarsMoved s (s.modWarps ws f) := by
  have hr : s.modWarps ws f = { s with warps := (s.modWarps ws f).warps } := modWarps_rest ..
  refine ⟨by rw [hr], fun w => modWarps_listed .., fun w => ?_, fun c => by rw [hr], fun c n => by rw [State.ctx, hr]; rfl⟩
  exact modWarps_keeps (R := fun x y => y.blk = x.blk) (fun _ => rfl) (fun h h' => h'.trans h) hf ws w s

theorem State.barsMoved_trace (s : State) (w k : Nat) (x : Word) : State.BarsMoved s (s.trace w k x) := by
  have hr := trace_rest s w k x
  exact ⟨by rw [hr], fun _ => by rw [trace_warps], fun _ => by rw [trace_warp], fun _ => by rw [hr], fun c n => by rw [State.ctx, hr]; rfl⟩

theorem State.barsMoved_modStage (s : State) (c n : Nat) {f : Stage → Stage} (hl : ∀ st, (f st).lnum = st.lnum)
    (hc : ∀ st, (f st).counts = st.counts) : State.BarsMoved s (s.modCtx c fun x => x.modStage n f) := by
  refine ⟨rfl, fun _ => rfl, fun _ => rfl, fun d => modCtx_listed .., fun d m => ?_⟩
  cases h : mfind s.ctxs c with
  | none => rw [show s.modCtx c (fun x => x.modStage n f) = s by simp [modCtx, mmod, h]]
  | some x =>
    rw [modCtx_ctx _ _ _ _ (by rw [h]; rfl)]
    split
    next hd =>
      subst hd
      rw [Ctx.stage?_modStage _ _ _ hl, Option.map_map]
      refine congrArg (fun g => Option.map g ((s.ctx d).stage? m)) (funext fun st => ?_)
      simp only [Function.comp_apply]
      split
      · exact hc st
      · rfl
    next => rfl

theorem State.barsMoved_setBar (s : State) (b id : Nat) (x : Bar) {lvl : Nat} (h : lvl ≠ 0) : State.BarsMoved s (s.setBar b lvl id x) := by
  unfold setBar
  dsimp only
  rw [if_neg h]
  refine barsMoved_modStage s _ _ (fun st => ?_) fun st => ?_ <;> split <;> rfl

theorem State.barsMoved_resumeBar (s : State) (lvl : Nat) (rels ws : List Nat) : State.BarsMoved s (s.resumeBar lvl rels ws) :=
  (((traffic_observe (P := fun _ => True) s ws rels).trans
    (traffic_acquire _ ws (levelScope lvl) fun _ _ => trivial)).barsMoved).trans (barsMoved_modWarps _ ws fun _ => rfl)

/-- Warps that waited at a barrier are recorded and go on, or issue again. -/
theorem State.barsMoved_resume (s : State) (lvl : Nat) (rels rec_ again : List Nat) (groups : List (List Nat)) :
    State.BarsMoved s ((groups.foldl (fun s g => s.resumeBar lvl rels g)
      (rec_.foldl (fun s w => s.trace w 8 (s.warp w).pc) s)).modWarps again fun x => { x with park := .none }) := by
  have h1 := State.BarsMoved.foldl (fun s w => barsMoved_trace s w 8 (s.warp w).pc) rec_ s
  have h2 := State.BarsMoved.foldl (fun s g => barsMoved_resumeBar s lvl rels g) groups
    (rec_.foldl (fun s w => s.trace w 8 (s.warp w).pc) s)
  exact (h1.trans h2).trans (barsMoved_modWarps _ _ fun _ => rfl)

theorem State.barsMoved_barCheck (s : State) (b id : Nat) (last : Option Nat) {lvl : Nat} (h : lvl ≠ 0) :
    State.BarsMoved s (s.barCheck b lvl id last) := by
  unfold barCheck
  dsimp only
  split
  · exact (barsMoved_setBar s b id _ h).trans (barsMoved_resume ..)
  · exact .refl s

theorem State.barsMoved_barLeave (s : State) (b id unit : Nat) {lvl : Nat} (h : lvl ≠ 0) :
    State.BarsMoved s (s.barLeave b lvl id unit) := (barsMoved_setBar s b id _ h).trans (barsMoved_barCheck _ b id none h)

theorem State.barsMoved_leaveBars (s : State) (b : Nat) : State.BarsMoved s (s.leaveBars b) :=
  (State.BarsMoved.foldl (fun s id => barsMoved_barLeave s b id _ Nat.one_ne_zero) _ s).trans
    (.foldl (fun s id => barsMoved_barLeave s b id _ (by decide)) _ _)

end

/-! ## The completion of a stage -/

/-- Blocks, latched weights and warps stand. -/
structure State.BlocksStand (s r : State) : Prop where
  blocks : r.blocks = s.blocks
  listed : ∀ w, (mfind r.warps w).isSome = (mfind s.warps w).isSome
  seated : State.Seated s r
  latch  : ∀ k, (r.core k).latch = (s.core k).latch

/-- A completion signal has been made: stages stand too. -/
structure State.DoneSent (s r : State) : Prop extends State.BlocksStand s r where
  stages : ∀ c, (r.ctx c).stages = (s.ctx c).stages

section
variable {s r t : State}

theorem State.BlocksStand.trans (h : State.BlocksStand s r) (h' : State.BlocksStand r t) : State.BlocksStand s t :=
  ⟨h'.blocks.trans h.blocks, fun w => (h'.listed w).trans (h.listed w), h.seated.trans h'.seated,
    fun k => (h'.latch k).trans (h.latch k)⟩

theorem State.blocksStand_modCtx (s : State) (c : Nat) (f : Ctx → Ctx) : State.BlocksStand s (s.modCtx c f) :=
  ⟨rfl, fun _ => rfl, .of_eq rfl, fun _ => rfl⟩

theorem State.DoneSent.trans (h : State.DoneSent s r) (h' : State.DoneSent r t) : State.DoneSent s t :=
  ⟨h.toBlocksStand.trans h'.toBlocksStand, fun c => (h'.stages c).trans (h.stages c)⟩

theorem State.Traffic.doneSent {P : Nat → Prop} (h : State.Traffic P s r) (hs : State.Seated s r) : State.DoneSent s r := by
  have hc : r.ctxs = s.ctxs := by rw [h.rest]
  exact ⟨⟨by rw [h.rest], h.listed, hs, fun k => by rw [h.core k]⟩, fun c => by rw [State.ctx, hc]; rfl⟩

theorem State.doneSent_modCtx (s : State) (c : Nat) {f : Ctx → Ctx} (hf : ∀ x, (f x).stages = x.stages) :
    State.DoneSent s (s.modCtx c f) := by
  refine ⟨blocksStand_modCtx .., fun d => ?_⟩
  cases h : mfind s.ctxs c with
  | none => rw [show s.modCtx c f = s by simp [modCtx, mmod, h]]
  | some x =>
    rw [modCtx_ctx _ _ _ _ (by rw [h]; rfl)]
    split
    next hd => rw [hf, hd]
    next => rfl

theorem State.doneSent_dropDone (s : State) (d : DoneSig) : State.DoneSent s (s.dropDone d) := doneSent_modCtx _ _ fun _ => rfl

theorem State.doneSent_performDone (s : State) (d : DoneSig) : State.DoneSent s (s.performDone d) := by
  have h : State.DoneSent s (s.counterAdd { rels := d.rels } d.loc 1).1 :=
    (traffic_counterAdd (P := fun _ => True) s { rels := d.rels } d.loc 1 (fun _ _ => trivial) fun _ _ => trivial).doneSent
      (settling_seated.counterAdd s _ _ _)
  unfold performDone
  dsimp only
  split
  · exact h.trans (doneSent_dropDone ..)
  · exact h

theorem State.doneSent_signalDone (s : State) (c : Nat) (p : Word) (view : SMap Nat) : State.DoneSent s (s.signalDone c p view) := by
  have h1 : State.DoneSent s (s.recLocs c { write := true } p 8).1 :=
    (traffic_recLocs s c { write := true } p 8).doneSent (settling_seated.recLocs s c _ p 8)
  unfold signalDone
  split <;> rename_i e <;> rw [e] at h1
  · exact h1.trans (doneSent_dropDone ..)
  · rename_i s1 ls
    have h2 : State.DoneSent s1 (s1.deviceRelease 160 .sys view).1 :=
      (traffic_deviceRelease (P := fun _ => True) s1 160 .sys view).doneSent (.of_eq rfl)
    dsimp only
    split
    · exact (h1.trans h2).trans ⟨⟨rfl, fun _ => rfl, .of_eq rfl, fun _ => rfl⟩, fun _ => rfl⟩
    · exact (h1.trans h2).trans (doneSent_performDone ..)

/-- The check whether a stage is complete: it marks one that is, and sends its signal. -/
theorem State.stageCheck_stands {c n : Nat} {st : Stage} (hl : (mfind s.ctxs c).isSome) (h : (s.ctx c).stage? n = some st) :
    State.BlocksStand s (s.stageCheck c n) ∧
      ∃ u, ((s.stageCheck c n).ctx c).stage? n = some u ∧ u.retired = st.retired ∧ (st.complete = true → u.done = true) := by
  have hself : State.BlocksStand s s := ⟨rfl, fun _ => rfl, .of_eq rfl, fun _ => rfl⟩
  have hmark := blocksStand_modCtx s c fun x => x.modStage n fun t => { t with done := true }
  have hmarked : ((s.modCtx c fun x => x.modStage n fun t => { t with done := true }).ctx c).stage? n =
      some { st with done := true } := by
    rw [modCtx_self _ hl]
    exact Ctx.modStage_self h (f := fun t => { t with done := true }) fun _ => rfl
  unfold stageCheck
  simp only [h]
  split
  next hn =>
    refine ⟨hself, st, h, rfl, fun hc => ?_⟩
    simpa [hc] using hn
  next =>
    split
    · exact ⟨hmark, _, hmarked, rfl, fun _ => rfl⟩
    · have hsent := doneSent_signalDone (s.modCtx c fun x => x.modStage n fun t => { t with done := true }) c st.lrec.done st.doneView
      refine ⟨hmark.trans hsent.toBlocksStand, { st with done := true }, ?_, rfl, fun _ => rfl⟩
      rw [Ctx.stage?, hsent.stages]
      exact hmarked

end

/-! ## Retirement -/

/-- A block with its warps has left its core. -/
def State.blockGone (s : State) (b : Nat) (k : Block) : State :=
  let s1 := s.leaveBars b
  { s1.modCore k.core fun x => if k.array then { x with latch := {} } else x with
    warps := s1.warps.filter fun e => e.2.blk != b, blocks := mdel s1.blocks b }

/-- A stage counts a block that has retired. -/
def Stage.counted (st : Stage) (view : SMap Nat) : Stage :=
  { st with retired := st.retired + 1, doneView := joinFloors [st.doneView, view] }

/-- The view of the releases that a block's warps have made. -/
def State.blockView (s : State) (b : Nat) : SMap Nat :=
  (s.leaveBars b).coveredBy (((s.leaveBars b).warps.filter fun e => e.2.blk == b).map (·.1))

theorem exec_blockRetire {s : State} {b : Nat} {k : Block} (h : mfind s.blocks b = some k) :
    exec (.blockRetire b) s = if (s.ctx k.ctx).frozen || !s.blockDone b then .next s
      else .next (((s.blockGone b k).modCtx k.ctx fun x => x.modStage k.lnum (·.counted (s.blockView b))).stageCheck k.ctx k.lnum) := by
  change execBlockRetire b s = _
  unfold execBlockRetire
  rw [h]
  rfl

theorem State.blockGone_listed {s : State} {b : Nat} (k : Block) {w : Nat} (hl : (mfind s.warps w).isSome) (hb : (s.warp w).blk ≠ b) :
    (mfind (s.blockGone b k).warps w).isSome := by
  have hm := barsMoved_leaveBars s b
  obtain ⟨x, hx⟩ := Option.isSome_iff_exists.1 ((hm.listed w).trans hl)
  have hblk : x.blk = (s.warp w).blk := by
    rw [← hm.blk w, State.warp, mget_eq_mfind, hx]
    rfl
  have := mfind_filter (p := fun e : Nat × Warp => e.2.blk != b) hx (by simpa [hblk] using hb)
  rw [show (s.blockGone b k).warps = (s.leaveBars b).warps.filter fun e => e.2.blk != b from rfl, this]
  rfl

/-- A block that is done retires (R299). -/
theorem blockRetire_done {s : State} {b : Nat} {k : Block} {st : Stage} (hk : mfind s.blocks b = some k)
    (hf : (s.ctx k.ctx).frozen = false) (hd : s.blockDone b = true) (hl : (mfind s.ctxs k.ctx).isSome)
    (hst : (s.ctx k.ctx).stage? k.lnum = some st) :
    ∃ t, exec (.blockRetire b) s = .next t ∧ mfind t.blocks b = none ∧
      (∀ c, c ≠ b → (mfind t.blocks c).isSome = (mfind s.blocks c).isSome) ∧
      (∀ e ∈ t.warps, e.2.blk ≠ b) ∧
      (∀ w, (mfind s.warps w).isSome → (s.warp w).blk ≠ b → (mfind t.warps w).isSome) ∧
      (k.array = true → (t.core k.core).latch = {}) ∧
      ∃ u, (t.ctx k.ctx).stage? k.lnum = some u ∧ u.retired = st.retired + 1 ∧
        (st.appended = st.lrec.clusters → st.placed = st.lrec.clusters →
          st.retired + 1 = st.lrec.clusters * st.lrec.blocks → u.done = true) := by
  have hm := State.barsMoved_leaveBars s b
  have hl1 : (mfind (s.blockGone b k).ctxs k.ctx).isSome := (hm.ctxs k.ctx).trans hl
  obtain ⟨st1, hst1, hcounts⟩ : ∃ st1, ((s.blockGone b k).ctx k.ctx).stage? k.lnum = some st1 ∧ st1.counts = st.counts := by
    have := hm.stages k.ctx k.lnum
    rw [hst, Option.map_some] at this
    exact Option.map_eq_some_iff.1 this
  obtain ⟨hrec, happ, hpl, hret, -⟩ : st1.lrec = st.lrec ∧ st1.appended = st.appended ∧ st1.placed = st.placed ∧
      st1.retired = st.retired ∧ st1.done = st.done := by simpa [Stage.counts] using hcounts
  have hstand := State.blocksStand_modCtx (s.blockGone b k) k.ctx fun x => x.modStage k.lnum (·.counted (s.blockView b))
  have hl2 := (State.modCtx_listed (s.blockGone b k) k.ctx (fun x => x.modStage k.lnum (·.counted (s.blockView b))) k.ctx).trans hl1
  have hst2 : (((s.blockGone b k).modCtx k.ctx fun x => x.modStage k.lnum (·.counted (s.blockView b))).ctx k.ctx).stage? k.lnum =
      some (st1.counted (s.blockView b)) := by
    rw [State.modCtx_self _ hl1]
    exact Ctx.modStage_self hst1 (f := (·.counted (s.blockView b))) fun _ => rfl
  obtain ⟨hcheck, u, hu, hur, hud⟩ := State.stageCheck_stands hl2 hst2
  have ht := hstand.trans hcheck
  refine ⟨_, (exec_blockRetire hk).trans (if_neg (by simp [hf, hd])), ?_, fun c hc => ?_, fun e he => ?_, fun w hw hb => ?_,
    fun ha => ?_, u, hu, ?_, fun h1 h2 h3 => hud ?_⟩
  · rw [ht.blocks]
    exact mfind_mdel_self ..
  · rw [ht.blocks, ← hm.blocks]
    exact congrArg Option.isSome (mfind_mdel_ne _ hc)
  · obtain ⟨x, hx, hxb⟩ := ht.seated e he
    rw [← hxb]
    simpa using (List.mem_filter.1 hx).2
  · rw [ht.listed]
    exact State.blockGone_listed k hw hb
  · rw [ht.latch]
    have hcore : (s.blockGone b k).core k.core = if k.array then { (s.leaveBars b).core k.core with latch := {} }
        else (s.leaveBars b).core k.core := (State.modCore_core ..).trans (if_pos rfl)
    rw [hcore, if_pos ha]
  · rw [hur]
    exact congrArg (· + 1) hret
  · unfold Stage.complete Stage.counted
    simp [hrec, happ, hpl, hret, h1, h2, h3]

/-! ## Signals of the device -/

/-- The release of the device that covers a view. -/
def sysRelease (view : SMap Nat) : Rel := { place := 160, scope := .sys, view }

/-- A counter that the device signals with a release: it rises by one, and the release is there. -/
structure State.CountedOne (s r : State) (l : Nat) (view : SMap Nat) : Prop where
  value : (ofBytes (r.mem.peek l 8)).toNat = min ((ofBytes (s.mem.peek l 8)).toNat + 1) (2 ^ 64 - 1)
  byte  : ∀ i, i ∉ span l 8 → r.mem.byte i = s.mem.byte i
  made  : mfind r.mem.rels s.nextId = some (sysRelease view)
  ctxs  : r.ctxs = s.ctxs

section
variable {s : State} {l : Nat} (hu : Claims.NoULines s) (hr : Claims.RowsKnown s) (h8 : l % 8 = 0)
  (ho : s.offline (homeDie l) = false) (hb : (s.checkReads 0 (span l 8)).2 = []) (hd : ∀ i ∈ span l 8, s.discards i = false)
include hu hr h8 ho hb hd

theorem State.counterAdd_signals (view : SMap Nat) :
    ((s.deviceRelease 160 .sys view).1.counterAdd { rels := [s.nextId] } l 1).2.2 = false ∧
      State.CountedOne s ((s.deviceRelease 160 .sys view).1.counterAdd { rels := [s.nextId] } l 1).1 l view := by
  have hrel : (s.deviceRelease 160 .sys view).1 = s.within (s.deviceRelease 160 .sys view).1 := rfl
  have hb' : ((s.deviceRelease 160 .sys view).1.checkReads 0 (span l 8)).2 = [] := by
    have h := within_checkReads s (s.deviceRelease 160 .sys view).1 0 (span l 8)
    rw [← hrel] at h
    rw [h, withinIn, hb]
  have ht := traffic_increment (s := (s.deviceRelease 160 .sys view).1) (l := l) hu { rels := [s.nextId] } 1
  refine ⟨?_, ?_, fun i hi => ht.byte i hi, ?_, ?_⟩
  · rw [counterAdd_good (s := (s.deviceRelease 160 .sys view).1) hu h8 ho hb']
  · exact counterAdd_value (s := (s.deviceRelease 160 .sys view).1) hu hr h8 ho hb' hd { rels := [s.nextId] } 1
  · rw [counterAdd_rels (s := (s.deviceRelease 160 .sys view).1) (l := l) hu]
    exact mfind_mins_self ..
  · rw [ht.rest]
    rfl

end

theorem peek_of_bytes {m m' : Mem} {l n : Nat} (h : ∀ i ∈ span l n, m'.byte i = m.byte i) : m'.peek l n = m.peek l n :=
  List.map_congr_left h

/-- The completion signal of a stage, whose counter lies at ls. -/
def doneSig (c : Nat) (p : Word) (ls : List Nat) (n : Nat) : DoneSig := { ctx := c, addr := p, loc := ls.headD 0, rels := [n] }

theorem State.signalDone_eq {s s1 : State} {c : Nat} {p : Word} {ls : List Nat} (view : SMap Nat)
    (hp : s.recLocs c { write := true } p 8 = (s1, .ok ls)) :
    s.signalDone c p view =
      if s1.awaitsDie (ls.headD 0) then
        { (s1.deviceRelease 160 .sys view).1 with dones := s1.dones ++ [doneSig c p ls s1.nextId] }
      else (s1.deviceRelease 160 .sys view).1.performDone (doneSig c p ls s1.nextId) := by
  unfold signalDone
  rw [hp]
  rfl

theorem State.performDone_good {s : State} {d : DoneSig} {q : State × Bool × Bool} (h : s.counterAdd { rels := d.rels } d.loc 1 = q)
    (hq : q.2.2 = false) : s.performDone d = q.1 := by
  unfold performDone
  rw [h]
  exact if_neg (ne_true_of_eq_false hq)

/-- The completion signal of a stage at a home that answers. -/
theorem signalDone_counts {s s1 : State} {c l : Nat} {p : Word} (view : SMap Nat)
    (hp : s.recLocs c { write := true } p 8 = (s1, .ok (span l 8))) (h8 : l % 8 = 0) (hu : Claims.NoULines s)
    (ho : s1.offline (homeDie l) = false) (hb : (s1.checkReads 0 (span l 8)).2 = []) (hr : Claims.RowsKnown s1)
    (hd : ∀ i ∈ span l 8, s1.discards i = false) : State.CountedOne s1 (s.signalDone c p view) l view := by
  have hst := State.stored_recLocs (P := fun _ => False) hu c { write := true } p 8
  rw [hp] at hst
  obtain ⟨hbad, hone⟩ := State.counterAdd_signals (s := s1) (hst.noULines hu) hr h8 ho hb hd view
  have hw : s1.awaitsDie ((span l 8).headD 0) = false := by
    rw [headD_span, State.awaitsDie, ho, Bool.false_and]
  have hd : doneSig c p (span l 8) s1.nextId = { ctx := c, addr := p, loc := l, rels := [s1.nextId] } := by
    rw [doneSig, headD_span]
  obtain ⟨q, hq⟩ : ∃ q, (s1.deviceRelease 160 .sys view).1.counterAdd { rels := [s1.nextId] } l 1 = q := ⟨_, rfl⟩
  rw [hq] at hbad hone
  rw [State.signalDone_eq view hp, if_neg (ne_true_of_eq_false hw), hd,
    State.performDone_good (d := { ctx := c, addr := p, loc := l, rels := [s1.nextId] }) hq hbad]
  exact hone

/-- Retirement of blocks and the completion of stages (R299, R383). -/
theorem stageLife_retirement : Claims.retirement := by
  refine ⟨fun s b k hk => ⟨fun h => ?_, fun st hf hd hl hst => blockRetire_done hk hf hd hl hst⟩, ?_, ?_⟩
  · refine (exec_blockRetire hk).trans (if_pos ?_)
    rcases h with h | h <;> simp [h]
  · intro s s1 c l p view hp h8 hu ho hb hr hd
    have hu := noULines_of_all hu
    have hone := signalDone_counts view hp h8 hu ho hb hr hd
    have hst := State.stored_recLocs (P := fun _ => False) hu c { write := true } p 8
    rw [hp] at hst
    refine ⟨?_, fun i hi => (hone.byte i hi).trans (hst.byte i not_false), hone.made⟩
    rw [hone.value, peek_of_bytes fun i _ => hst.byte i not_false]
  · intro s s1 c l p view hp ho hlost
    have hw : s1.awaitsDie ((span l 8).headD 0) = true := by
      rw [headD_span, State.awaitsDie, ho, hlost]
      rfl
    dsimp only
    rw [State.signalDone_eq view hp, if_pos hw, doneSig, headD_span]
    exact ⟨rfl, rfl⟩

end Sys2Proof.Machine

/-! SUPPORT. The dispatcher of a context (spec/13 R296): what its reads and decisions leave of its own state, and the status and the
count that it writes. -/

namespace Sys2Proof.Machine

/-! ## What a decision leaves of the dispatcher -/

/-- The dispatcher of context c stands at the same entry of the same area, with the same log. -/
structure State.Serving (c : Nat) (s r : State) : Prop where
  listed : (mfind r.ctxs c).isSome = (mfind s.ctxs c).isSome
  dispN  : (r.ctx c).dispN = (s.ctx c).dispN
  crec   : (r.ctx c).crec = (s.ctx c).crec
  log    : (r.ctx c).log = (s.ctx c).log

section
variable {c : Nat} {s r t : State}

theorem State.Serving.refl (s : State) : State.Serving c s s := ⟨rfl, rfl, rfl, rfl⟩

theorem State.Serving.trans (h : State.Serving c s r) (h' : State.Serving c r t) : State.Serving c s t :=
  ⟨h'.listed.trans h.listed, h'.dispN.trans h.dispN, h'.crec.trans h.crec, h'.log.trans h.log⟩

theorem State.Serving.of_eq (h : r.ctxs = s.ctxs) : State.Serving c s r := by
  have hc : r.ctx c = s.ctx c := by rw [State.ctx, h]; rfl
  exact ⟨by rw [h], by rw [hc], by rw [hc], by rw [hc]⟩

theorem State.Traffic.serving {P : Nat → Prop} (h : State.Traffic P s r) : State.Serving c s r := .of_eq (by rw [h.rest])

theorem State.serving_modCtx (s : State) {f : Ctx → Ctx} (hf : ∀ x, (f x).dispN = x.dispN ∧ (f x).crec = x.crec ∧ (f x).log = x.log) :
    State.Serving c s (s.modCtx c f) := by
  cases h : mfind s.ctxs c with
  | none => rw [show s.modCtx c f = s by simp [modCtx, mmod, h]]; exact .refl s
  | some x =>
    have hc := modCtx_self (s := s) (c := c) f (by rw [h]; rfl)
    obtain ⟨h1, h2, h3⟩ := hf (s.ctx c)
    exact ⟨modCtx_listed .., by rw [hc, h1], by rw [hc, h2], by rw [hc, h3]⟩

theorem State.serving_recLocs (s : State) (w : How) (p : Word) (n : Nat) : State.Serving c s (s.recLocs c w p n).1 :=
  (traffic_recLocs s c w p n).serving

theorem State.serving_dispSaw (x : State × Rd) : State.Serving c x.1 (dispSaw c x).1 := serving_modCtx x.1 fun _ => ⟨rfl, rfl, rfl⟩

theorem State.serving_recRead (s : State) (p : Word) (n : Nat) : State.Serving c s (s.recRead { c, w := none } p n).1 := by
  have h1 := s.serving_recLocs (c := c) {} p n
  unfold recRead
  split <;> rename_i e <;> rw [e] at h1
  · exact h1
  · rename_i s1 ls
    have h2 : State.Serving c s1 (s1.readHome 0 (pieceSize ls) (s1.ctx c).dispFl ls).1 :=
      (traffic_readHome (P := fun _ => True) s1 0 (pieceSize ls) (s1.ctx c).dispFl ls fun _ _ => trivial).serving
    have h3 := (h1.trans h2).trans (serving_dispSaw _)
    dsimp only
    split <;> exact h3

theorem State.serving_recAt (s : State) (p : Word) (k n : Nat) : State.Serving c s (s.recAt { c, w := none } p k n).1 := by
  unfold recAt
  split
  · exact .refl s
  · exact serving_recRead s p n

theorem State.serving_pubhOf (s : State) (q : QueueEnt) : State.Serving c s (s.pubhOf c q).1 := by
  have h1 := s.serving_recLocs (c := c) {} (q.ctrl + 8) 8
  unfold pubhOf
  split <;> rename_i e <;> rw [e] at h1
  · exact h1
  · exact h1.trans (traffic_peekHome (P := fun _ => True) _ 0 _ fun _ _ => trivial).serving

theorem State.serving_launchIn (s : State) (p : Word) : State.Serving c s (s.launchIn { c, w := none } p).1 := by
  have h1 := s.serving_recAt (c := c) p 64 128
  unfold launchIn
  split <;> rename_i e1 <;> rw [e1] at h1
  · exact h1
  rename_i s1 bs
  have h2 := h1.trans (s1.serving_recAt (launchRec bs).truss 64 64)
  dsimp only
  split <;> rename_i e2 <;> rw [e2] at h2
  · exact h2
  rename_i s2 hdr
  have h3 (n : Nat) (b : Prop) [Decidable b] : State.Serving c s (if b then (s2, .ok []) else
      s2.recRead { c, w := none } ((launchRec bs).truss + 64) n : State × Except Trap (List Byte)).1 := by
    split
    · exact h2
    · exact h2.trans (serving_recRead ..)
  split <;> rename_i e3
  · exact (congrArg Prod.fst e3) ▸ h3 _ _
  rename_i s3 qb
  have h3 : State.Serving c s s3 := by
    have h := h3 (16 * fld (dword hdr 0) 8 6) (fld (dword hdr 0) 8 6 = 0 ∨ 32 < fld (dword hdr 0) 8 6)
    rw [e3] at h
    exact h
  split
  · exact h3
  have h4 (b : Prop) [Decidable b] : State.Serving c s (if b then (s3, .ok []) else
      s3.recAt { c, w := none } (dword bs 10) 64 60 : State × Except Trap (List Byte)).1 := by
    split
    · exact h3
    · exact h3.trans (serving_recAt ..)
  split <;> rename_i e4
  · exact (congrArg Prod.fst e4) ▸ h4 _
  rename_i s4 mb
  have h4 : State.Serving c s s4 := by
    have h := h4 (dword bs 10 = 0)
    rw [e4] at h
    exact h
  have h5 (n : Nat) := h4.trans (s4.serving_recAt (dword bs 11) 1 n)
  split <;> rename_i e5 <;> exact (congrArg Prod.fst e5) ▸ h5 _

theorem State.serving_placeCluster (s : State) (n k : Nat) (ps : List Spot) : State.Serving c s (s.placeCluster c n k ps) := by
  have h1 : State.Serving c s (s.clusterCounted c n k) := s.serving_modCtx fun _ => ⟨rfl, rfl, rfl⟩
  have h2 := placeBlocks_beside c ((((s.clusterCounted c n k).ctx c).stage? n).getD {}) k (s.clusterCounted c n k) 0 ps
  exact h1.trans (.of_eq h2.ctxs)

theorem State.serving_placeClusters (n : Nat) (es : List (List Spot × Nat)) (s : State) :
    State.Serving c s (es.foldl (fun s e => s.placeCluster c n e.2 e.1) s) := by
  induction es generalizing s with
  | nil => exact .refl s
  | cons e es ih => exact (s.serving_placeCluster n e.2 e.1).trans (ih _)

theorem State.serving_acceptStage (s : State) (st : Stage) (plan : Option (List (List Spot))) :
    State.Serving c s (s.acceptStage c st plan) := by
  unfold acceptStage
  dsimp only
  cases plan with
  | none =>
    refine State.Serving.trans ?_ (serving_modCtx _ fun _ => by exact ⟨rfl, rfl, rfl⟩)
    exact serving_modCtx s fun _ => by exact ⟨rfl, rfl, rfl⟩
  | some ps =>
    refine State.Serving.trans ?_ (serving_placeClusters _ _ _)
    exact serving_modCtx s fun _ => by exact ⟨rfl, rfl, rfl⟩

/-- A launch that is decided in a context's name leaves its dispatcher where it stands. -/
theorem State.serving_launchAt (s : State) (p : Word) : State.Serving c s (s.launchAt { c, w := none } p).1 := by
  have h1 := s.serving_launchIn (c := c) p
  unfold launchAt
  split <;> rename_i e1 <;> rw [e1] at h1
  · exact h1
  split
  · exact h1
  rename_i s1 i _ _
  dsimp only
  generalize stageOfIn i _ _ _ = st
  generalize (if (st.lrec.gridbar && !st.lrec.trig) = true then planAll _ _ _ _ _ else none) = plan
  split
  · exact h1
  split
  · have h2 := h1.trans (s1.serving_pubhOf ((st.queues[st.trigQ]?).getD {}))
    split <;> rename_i e2 <;> rw [e2] at h2
    · exact h2
    · rename_i s2 n
      exact h2.trans (serving_acceptStage s2 { st with trigBase := n } none)
  · exact h1.trans (serving_acceptStage ..)

end

/-! ## What the dispatcher does with an entry -/

/-- A context is served by its dispatcher. -/
structure State.Served (s : State) (c : Nat) : Prop where
  listed : (mfind s.ctxs c).isSome
  submit : (s.ctx c).crec.submit ≠ 0
  stop   : (s.ctx c).dispStop = false
  dead   : (s.ctx c).dead = false
  frozen : (s.ctx c).frozen = false
  saved  : (s.ctx c).saved = false

theorem State.Served.not_skipped {s : State} {c : Nat} (h : s.Served c) :
    ¬((mfind s.ctxs c).isNone || (s.ctx c).crec.submit == 0 || (s.ctx c).dispStop || (s.ctx c).dead || (s.ctx c).frozen ||
      (s.ctx c).saved) = true := by
  obtain ⟨hl, hs, h1, h2, h3, h4⟩ := h
  have hn : (mfind s.ctxs c).isNone = false := by simpa using hl
  have hs : ((s.ctx c).crec.submit == 0) = false := beq_eq_false_iff_ne.2 hs
  rw [hn, hs, h1, h2, h3, h4]
  exact Bool.false_ne_true

/-- The entry that the dispatcher of a context takes next, and its status word. -/
def Ctx.entryPtr (x : Ctx) : Word := x.crec.submit + BitVec.ofNat 64 (64 + 8 * (x.dispN % max 1 x.crec.nent))

def Ctx.slotPtr (x : Ctx) : Word := x.crec.submit + BitVec.ofNat 64 (64 + 8 * x.crec.nent + 8 * (x.dispN % max 1 x.crec.nent))

/-- The status word of what a launch answers: 0x01 for a fault. -/
def statusOf (res : Except Trap Word) : Word :=
  match res with
  | .ok v => v
  | .error _ => 0x01

section
variable {s s1 : State} {c : Nat} (h : s.Served c)
include h

theorem exec_dispatchEntry_stops (hr : (if ctrFits (s.ctx c).crec.submit then s.dispRead c (s.ctx c).crec.submit else (s, none)) = (s1, none)) :
    exec (.dispatchEntry c) s = .next (s1.dispFail c (s.ctx c).crec.submit) := by
  change execDispatchEntry c s = _
  unfold execDispatchEntry
  dsimp only
  rw [if_neg h.not_skipped, hr]

variable {sub : Word} (hf : ctrFits (s.ctx c).crec.submit = true) (hr : s.dispRead c (s.ctx c).crec.submit = (s1, some sub))
include hf hr

theorem exec_dispatchEntry_waits (hw : sub.toNat ≤ (s.ctx c).dispN ∨ s1.dispHeld c (s.ctx c).slotPtr = true ∨
    s1.dispHeld c ((s.ctx c).crec.submit + 8) = true) : exec (.dispatchEntry c) s = .next s := by
  change execDispatchEntry c s = _
  unfold execDispatchEntry
  dsimp only
  rw [if_neg h.not_skipped, if_pos hf, hr]
  refine if_pos ?_
  change (decide (sub.toNat < (s.ctx c).dispN + 1) || s1.dispHeld c (s.ctx c).slotPtr || s1.dispHeld c ((s.ctx c).crec.submit + 8)) = true
  rcases hw with hw | hw | hw
  · rw [decide_eq_true (Nat.lt_succ_of_le hw), Bool.true_or, Bool.true_or]
  · rw [hw, Bool.or_true, Bool.true_or]
  · rw [hw, Bool.or_true]

theorem exec_dispatchEntry_decides {s2 s3 : State} {bs : List Byte} {res : Except Trap Word} (hn : (s.ctx c).dispN < sub.toNat)
    (h1 : s1.dispHeld c (s.ctx c).slotPtr = false) (h2 : s1.dispHeld c ((s.ctx c).crec.submit + 8) = false)
    (hrec : (s1.dispAcquire c).recRead { c, w := none } (s.ctx c).entryPtr 8 = (s2, .ok bs))
    (hl : s2.launchAt { c, w := none } (ofBytes bs) = (s3, res)) :
    exec (.dispatchEntry c) s = .next (s3.dispDecide c (s.ctx c).slotPtr (statusOf res)) := by
  change execDispatchEntry c s = _
  unfold execDispatchEntry
  dsimp only
  rw [if_neg h.not_skipped, if_pos hf, hr]
  refine (if_neg ?_).trans ?_
  · change ¬(decide (sub.toNat < (s.ctx c).dispN + 1) || s1.dispHeld c (s.ctx c).slotPtr ||
      s1.dispHeld c ((s.ctx c).crec.submit + 8)) = true
    rw [decide_eq_false (by omega), h1, h2]
    exact Bool.false_ne_true
  · change (match (s1.dispAcquire c).recRead { c, w := none } (s.ctx c).entryPtr 8 with | (s2, .error t) => _ | (s2, .ok bs) => _) = _
    rw [hrec]
    dsimp only
    rw [hl]
    cases res <;> rfl

end

/-! ## The status word -/

/-- The state in which the status of an entry is written at l. -/
def State.statusWritten (s : State) (l : Nat) (st : Word) : State :=
  (s.recall (span l 8)).performWrite {} false 0 8 ((span l 8).zip (bytesOf 8 st))

/-- A status word is written: only its bytes have changed. -/
structure State.StatusPut (s r : State) (c l : Nat) (st : Word) : Prop where
  serving : State.Serving c s r
  kept    : State.RowsKept s r
  noU     : Claims.NoULines r
  value   : ofBytes (r.mem.peek l 8) = st
  byte    : ∀ i, i ∉ span l 8 → r.mem.byte i = s.mem.byte i

section
variable {s s4 : State} {c l : Nat} {slot : Word} (hu : Claims.NoULines s) (hr : Claims.RowsKnown s)
  (hd : ∀ i ∈ span l 8, s.discards i = false) (hp : s.recLocs c { write := true } slot 8 = (s4, .ok (span l 8)))
include hu hr hd hp

theorem State.statusWritten_put (st : Word) : State.StatusPut s (s4.statusWritten l st) c l st := by
  have h1 := stored_recLocs (P := (· ∈ span l 8)) hu c { write := true } slot 8
  have hf := stored_recLocs (P := fun _ => False) hu c { write := true } slot 8
  have hk := settling_rowsKept.recLocs s c { write := true } slot 8
  have hs := s.serving_recLocs (c := c) { write := true } slot 8
  rw [hp] at h1 hf hk hs
  dsimp only at h1 hf hk hs
  have hu4 := h1.noULines hu
  have hw : State.Stored (· ∈ span l 8) s4 (s4.performWrite {} false 0 8 ((span l 8).zip (bytesOf 8 st))) :=
    stored_performWrite s4 false 0 8 fun b hb => mem_zip_left hb
  unfold statusWritten
  rw [recall_noULines hu4]
  refine ⟨hs.trans (.of_eq (by rw [hw.rest])), hk.trans (settling_rowsKept.performWrite ..), hw.noULines hu4, ?_,
    (h1.trans hw).byte⟩
  refine (congrArg ofBytes (map_eq_of_zip (by rw [length_span, length_bytesOf]) fun e he => ?_)).trans (ofBytes_bytesOf st)
  refine performWrite_byte_mem (hk.known hr) _ false 0 8 ?_ he ((hk.discards hr _).trans (hd _ (mem_zip_left he)))
  rw [List.map_fst_zip (by rw [length_span, length_bytesOf])]
  exact nodup_span ..

end

theorem State.dispStatus_writes {s s4 : State} {c l : Nat} {slot : Word} (hp : s.recLocs c { write := true } slot 8 = (s4, .ok (span l 8)))
    (hl : s4.lostLoc l = false) (st : Word) : s.dispStatus c slot st = (s4.statusWritten l st, some (span l 8)) := by
  unfold dispStatus
  rw [hp]
  dsimp only
  rw [headD_span, hl]
  rfl

theorem State.dispDecide_eq {s s5 : State} {c : Nat} {slot st : Word} {ls : List Nat} (h : s.dispStatus c slot st = (s5, some ls)) :
    s.dispDecide c slot st = if st &&& 0xFF = 0x06 then s5 else s5.dispSignal c ((s5.ctx c).crec.submit + 8) ls := by
  unfold dispDecide
  rw [h]

/-! ## The count of entries done -/

theorem State.dispSignal_eq {s s1 : State} {c : Nat} {p : Word} {ds : List Nat}
    (hp : s.recLocs c { write := true } p 8 = (s1, .ok ds)) (ls : List Nat) {q : State × Bool × Bool}
    (hq : (s1.deviceRelease 160 .sys (raiseTo (s1.ctx c).dispFl (ls.map fun l => (l, s1.mem.pos l)))).1.counterAdd
      { rels := [s1.nextId] } (ds.headD 0) 1 = q) :
    s.dispSignal c p ls = if q.2.2 then q.1.dispFail c p else q.1.modCtx c fun x => { x with dispN := x.dispN + 1 } := by
  have hid (v : SMap Nat) : (s1.deviceRelease 160 .sys v).2 = s1.nextId := rfl
  unfold dispSignal
  rw [hp]
  dsimp only
  rw [hid, hq]

/-- A decision has been made known: the dispatcher goes on to the next entry. -/
structure State.EntryDone (s r : State) (c d : Nat) : Prop where
  dispN : (r.ctx c).dispN = (s.ctx c).dispN + 1
  value : (ofBytes (r.mem.peek d 8)).toNat = min ((ofBytes (s.mem.peek d 8)).toNat + 1) (2 ^ 64 - 1)
  byte  : ∀ i, i ∉ span d 8 → r.mem.byte i = s.mem.byte i

theorem State.dispSignal_counts {s s6 : State} {c d : Nat} {p : Word} (hl : (mfind s.ctxs c).isSome) (hu : Claims.NoULines s)
    (hr : Claims.RowsKnown s) (hp : s.recLocs c { write := true } p 8 = (s6, .ok (span d 8))) (h8 : d % 8 = 0)
    (ho : s6.offline (homeDie d) = false) (hb : (s6.checkReads 0 (span d 8)).2 = []) (hd : ∀ i ∈ span d 8, s.discards i = false)
    (ls : List Nat) :
    State.EntryDone s (s.dispSignal c p ls) c d ∧ mfind (s.dispSignal c p ls).mem.rels s6.nextId =
      some (sysRelease (raiseTo (s6.ctx c).dispFl (ls.map fun l => (l, s6.mem.pos l)))) := by
  have hst := stored_recLocs (P := fun _ => False) hu c { write := true } p 8
  have hk := settling_rowsKept.recLocs s c { write := true } p 8
  have hs := s.serving_recLocs (c := c) { write := true } p 8
  rw [hp] at hst hk hs
  dsimp only at hst hk hs
  obtain ⟨q, hq⟩ : ∃ q, (s6.deviceRelease 160 .sys (raiseTo (s6.ctx c).dispFl (ls.map fun l => (l, s6.mem.pos l)))).1.counterAdd
    { rels := [s6.nextId] } d 1 = q := ⟨_, rfl⟩
  obtain ⟨hbad, hone⟩ := counterAdd_signals (s := s6) (hst.noULines hu) (hk.known hr) h8 ho hb
    (fun i hi => (hk.discards hr i).trans (hd i hi)) (raiseTo (s6.ctx c).dispFl (ls.map fun l => (l, s6.mem.pos l)))
  rw [hq] at hbad hone
  have hlq : (mfind q.1.ctxs c).isSome := by
    rw [hone.ctxs, hs.listed]
    exact hl
  have hcq : q.1.ctx c = s6.ctx c := by
    rw [State.ctx, hone.ctxs]
    rfl
  rw [dispSignal_eq hp ls (q := q) (by rw [headD_span]; exact hq), if_neg (ne_true_of_eq_false hbad)]
  refine ⟨⟨?_, ?_, fun i hi => (hone.byte i hi).trans (hst.byte i not_false)⟩, hone.made⟩
  · rw [modCtx_self _ hlq, hcq]
    exact congrArg (· + 1) hs.dispN
  · change (ofBytes (q.1.mem.peek d 8)).toNat = _
    rw [hone.value, peek_of_bytes fun i _ => hst.byte i not_false]

/-! ## Reads of the submission area -/

theorem State.serving_dispRead {s s1 : State} {c : Nat} {p : Word} {r : Option Word} (h : s.dispRead c p = (s1, r)) :
    State.Serving c s s1 := by
  have h1 := s.serving_recLocs (c := c) {} p 8
  unfold dispRead at h
  split at h <;> rename_i e <;> rw [e] at h1
  · obtain rfl := congrArg Prod.fst h
    exact h1
  · rename_i t ls
    have h2 : State.Serving c t (t.peekHome 0 ls).1 := (traffic_peekHome (P := fun _ => True) t 0 ls fun _ _ => trivial).serving
    obtain rfl := congrArg Prod.fst h
    exact (h1.trans h2).trans (serving_dispSaw _)

/-- The dispatcher stops, and its log names the area. -/
theorem State.Serving.fails {s r : State} {c : Nat} (h : State.Serving c s r) (hl : (mfind s.ctxs c).isSome) (p : Word) :
    ((r.dispFail c p).ctx c).dispStop = true ∧ ((r.dispFail c p).ctx c).log = (s.ctx c).log ++ [.submissionFault p] := by
  unfold dispFail
  rw [modCtx_self _ (h.listed.trans hl)]
  exact ⟨rfl, by rw [h.log]⟩

/-- What an entry's launch is decided in leaves the dispatcher where it stood. -/
theorem State.serving_decided {s s1 s2 s3 : State} {c : Nat} {p e : Word} {r : Option Word} {bs : List Byte} {res : Except Trap Word}
    (h : s.dispRead c p = (s1, r)) (hrec : (s1.dispAcquire c).recRead { c, w := none } e 8 = (s2, .ok bs))
    (hl : s2.launchAt { c, w := none } (ofBytes bs) = (s3, res)) : State.Serving c s s3 := by
  have ha : State.Serving c s1 (s1.dispAcquire c) := s1.serving_modCtx fun _ => by exact ⟨rfl, rfl, rfl⟩
  have hr := (s1.dispAcquire c).serving_recRead (c := c) e 8
  have ht := s2.serving_launchAt (c := c) (ofBytes bs)
  rw [hrec] at hr
  rw [hl] at ht
  exact (((serving_dispRead h).trans ha).trans hr).trans ht

/-- The dispatcher of a context (R296). -/
theorem stageLife_dispatch : Claims.dispatch := by
  intro s s1 c r hl hsub hstop hdead hfroz hsav x k base entry slot
  have hserved : s.Served c := ⟨hl, hsub, hstop, hdead, hfroz, hsav⟩
  refine ⟨fun hbad => ?_, fun hsp h8 hread => ?_⟩
  · have hf : ctrFits base = false := by
      unfold ctrFits
      rcases hbad with h | h
      · rw [decide_eq_false (by omega), Bool.false_and]
      · rw [beq_eq_false_iff_ne.2 h, Bool.and_false]
    refine ⟨_, exec_dispatchEntry_stops (s1 := s) hserved (if_neg (ne_true_of_eq_false hf)), ?_⟩
    exact (State.Serving.refl s).fails hl base
  have hf : ctrFits base = true := by
    unfold ctrFits
    rw [decide_eq_true hsp, h8]
    rfl
  have hserving := State.serving_dispRead hread
  refine ⟨?_, ?_, ?_, ?_⟩
  · rintro rfl
    exact ⟨_, exec_dispatchEntry_stops hserved ((if_pos hf).trans hread), hserving.fails hl base⟩
  · rintro sub rfl hn
    exact exec_dispatchEntry_waits hserved hf hread (.inl hn)
  · intro hheld hsome
    obtain ⟨sub, rfl⟩ := Option.isSome_iff_exists.1 hsome
    exact exec_dispatchEntry_waits hserved hf hread (.inr hheld)
  · rintro sub s2 s3 s4 bs res l rfl hn hh1 hh2 hrec hlaunch hp hlost hl8 hu hr hd st s5
    have hu := noULines_of_all hu
    have hdec := State.serving_decided hread hrec hlaunch
    have hput := State.statusWritten_put hu hr hd hp st
    have hexec : exec (.dispatchEntry c) s = .next (s3.dispDecide c slot st) := exec_dispatchEntry_decides hserved hf hread hn hh1 hh2 hrec hlaunch
    have hstat := State.dispStatus_writes (c := c) hp hlost st
    have h5 := hdec.trans hput.serving
    rw [State.dispDecide_eq hstat] at hexec
    refine ⟨fun hbusy => ⟨_, hexec.trans (congrArg _ (if_pos hbusy)), h5.dispN, hput.value, hput.byte⟩,
      fun hdone s6 d hp6 hd6 ho6 hd8 hb6 => ?_⟩
    have hsubmit : ((s4.statusWritten l st).ctx c).crec.submit + 8 = base + 8 := by rw [h5.crec]
    rw [if_neg hdone, hsubmit] at hexec
    have hd5 : ∀ i ∈ span d 8, (s4.statusWritten l st).discards i = false := fun i hi =>
      (hput.kept.discards hr i).trans (hd6 i hi).1
    obtain ⟨⟨hN, hval, hbyte⟩, hmade⟩ := State.dispSignal_counts (h5.listed.trans hl) hput.noU (hput.kept.known hr) hp6 hd8 ho6 hb6
      hd5 (span l 8)
    refine ⟨_, hexec, hN.trans (congrArg (· + 1) h5.dispN), ?_, ?_, fun i hil hid => (hbyte i hid).trans (hput.byte i hil), hmade⟩
    · rw [peek_of_bytes fun i hi => hbyte i fun hid => (hd6 i hid).2 hi]
      exact hput.value
    · rw [hval, peek_of_bytes fun i hi => hput.byte i (hd6 i hi).2]

/-- Settles O51: the placement scan, the dispatcher's entry, and the retirement of a block with what its stage's end signals. -/
theorem stageLife : Obligations.StageLife := ⟨stageLife_placement, stageLife_dispatch, stageLife_retirement⟩

end Sys2Proof.Machine
